-- ==== Sys2Proof/Word.lean ====
section
/-! DEFINITION. The word types of the KE9 (00 R14, 01 R23): bytes, 32-bit register elements, 64-bit words. -/

namespace Sys2Proof

/-- One byte of memory (00 R14). -/
abbrev Byte := BitVec 8

/-- A 32-bit register element (02 Table register-1). -/
abbrev W32 := BitVec 32

/-- A 64-bit scalar, address or instruction word (01 R23). -/
abbrev W64 := BitVec 64

/-- A map from numbers to values: pairs with strictly rising keys. Machine/SMap.lean gives its operations. -/
abbrev SMap (α : Type) := List (Nat × α)

end Sys2Proof
end

