-- ==== Sys2Proof/Machine/Bits.lean ====
section
/-! DEFINITION. Bit fields, sign extension and byte order (00 R14). -/

namespace Sys2Proof.Machine

/-- Bits `lo` to `lo + n - 1` of a number. -/
def bits (w lo n : Nat) : Nat := w / 2 ^ lo % 2 ^ n

/-- One bit of a number. -/
def bit (w i : Nat) : Bool := w / 2 ^ i % 2 == 1

/-- A flag as a number. -/
def b2n (b : Bool) : Nat := if b then 1 else 0

/-- The signed value of an `n`-bit field. -/
def sext (n w : Nat) : Int :=
  let x := w % 2 ^ n
  if x < 2 ^ (n - 1) then (x : Int) else (x : Int) - (2 ^ n : Nat)

/-- The `n`-bit two's complement field of an integer. -/
def ofInt (n : Nat) (i : Int) : Nat := (i % ((2 ^ n : Nat) : Int)).toNat

/-- Replace bits `lo` to `lo + n - 1`. -/
def setBits (w lo n v : Nat) : Nat := w - bits w lo n * 2 ^ lo + (v % 2 ^ n) * 2 ^ lo

/-- The little-endian bytes of a number (00 R14). -/
def toBytes : Nat → Nat → List Byte
  | 0, _ => []
  | n + 1, w => BitVec.ofNat 8 w :: toBytes n (w / 256)

/-- The number of little-endian bytes (00 R14). -/
def ofBytes : List Byte → Nat
  | [] => 0
  | b :: t => b.toNat + 256 * ofBytes t

/-- Bytes `i` to `i + n - 1` of a list, as a little-endian number. -/
def fld (bs : List Byte) (i n : Nat) : Nat := ofBytes ((bs.drop i).take n)

/-- The positions of the ones of a mask below `n`, ascending. -/
def ones (n m : Nat) : List Nat := (List.range n).filter (bit m)

/-- The mask with the named positions. -/
def maskOf : List Nat → Nat
  | [] => 0
  | i :: t => 2 ^ i ||| maskOf t

/-- The number of ones below `n`. -/
def popcount (n m : Nat) : Nat := (ones n m).length

/-- One byte of CRC-32, reflected polynomial 0xEDB88320 (09 Table copy-6). -/
def crcBits : Nat → Nat → Nat
  | 0, c => c
  | n + 1, c => crcBits n (if c % 2 = 1 then (c / 2) ^^^ 0xEDB88320 else c / 2)

/-- CRC-32 over bytes: initial value and final XOR 0xFFFFFFFF (09 Table copy-6). -/
def crc32 (bs : List Byte) : Nat :=
  bs.foldl (fun c b => crcBits 8 (c ^^^ b.toNat)) 0xFFFFFFFF ^^^ 0xFFFFFFFF

/-- A value folded into 0 to `hi`. -/
def clampN (v hi : Nat) : Nat := if v ≤ hi then v else hi

/-- A value clamped to an interval. -/
def clampI (v lo hi : Int) : Int := if v < lo then lo else if hi < v then hi else v

/-- Whether every byte of a list is zero. -/
def allZero (bs : List Byte) : Bool := bs.all (fun b => b == 0#8)

/-- The greatest number of a list, or 0. -/
def maxList (l : List Nat) : Nat := l.foldl Nat.max 0

end Sys2Proof.Machine
end

