-- ==== Sys2Proof/Syntax.lean ====
section
/-! DEFINITION. The syntax of every operation and event of the KE9: the operand forms of 01 and the one inductive `Instr`, with one
constructor for each row of spec/opcode_table.json. A row without an instruction word is a move of an agent other than a program;
its arguments name the object that moves, and what arrives from outside the package. -/

namespace Sys2Proof

/-- Type codes (01 Table word-4). -/
inductive Ty where
  | n32 | i32 | n64 | i64 | n16 | i16 | n8 | i8 | f32 | f64 | f16 | bf16 | f8m | f8e | bz4
deriving DecidableEq, Repr

/-- Rounding modes (01 Table word-4, 03 R93). -/
inductive Rnd where
  | rn | rz | rp | rm
deriving DecidableEq, Repr

/-- A register code 0 to 447 (01 R34): vector v0 to v383, scalar s0 to s63. -/
inductive Reg where
  | v (n : Nat)
  | s (n : Nat)
deriving DecidableEq, Repr

/-- Special operands (01 Table word-7). -/
inductive Special where
  | lane | slice | warp | block | clu | stk | dev | width | core | gang | nlane | clock | gen
deriving DecidableEq, Repr

/-- Constants (01 Table word-8). -/
inductive Konst where
  | zero | one | mone | two | half
deriving DecidableEq, Repr

/-- A 10-bit operand field (01 Table word-6). A latch is named by its distance, 1 to 8. -/
inductive Opnd where
  | reg (r : Reg)
  | spec (x : Special)
  | konst (k : Konst)
  | latch (k : Nat)
deriving DecidableEq, Repr

/-- A destination: a register code, and whether its write-back is suppressed (01 R30, R34). -/
structure Dst where
  reg : Reg
  nowb : Bool
deriving DecidableEq, Repr

/-- A predicate destination (01 R34). -/
structure PDst where
  p : Nat
  nowb : Bool
deriving DecidableEq, Repr

/-- A guard (01 R29): a predicate, negated or not. -/
structure Guard where
  neg : Bool
  p : Nat
deriving DecidableEq, Repr

/-- Integer comparison conditions (04 R127). -/
inductive Cc where
  | eq | ne | lt | le | gt | ge
deriving DecidableEq, Repr

/-- Floating-point comparison conditions (04 Table arith-3). -/
inductive FCc where
  | eq | ne | lt | le | gt | ge | num | nan
deriving DecidableEq, Repr

/-- Two-operand integer words (04 Table arith-1), and BFX. -/
structure Int2 where
  d : Dst
  a : Opnd
  b : Opnd
  ty : Ty
  sat : Bool
deriving DecidableEq, Repr

/-- One-operand integer words (04 Table arith-1). -/
structure Int1 where
  d : Dst
  a : Opnd
  ty : Ty
  sat : Bool
deriving DecidableEq, Repr

/-- Three-operand integer words: IMAD, IMADW, BFI (04 Table arith-1). -/
structure Int3 where
  d : Dst
  a : Opnd
  b : Opnd
  c : Opnd
  ty : Ty
  sat : Bool
deriving DecidableEq, Repr

/-- LEA (04 R126). -/
structure LeaArgs where
  d : Dst
  a : Opnd
  b : Opnd
  sh : Nat
  ty : Ty
deriving DecidableEq, Repr

/-- ICMP (04 R127). -/
structure IcmpArgs where
  pd : PDst
  a : Opnd
  b : Opnd
  ty : Ty
  cc : Cc
deriving DecidableEq, Repr

/-- SEL (04 R128). -/
structure SelArgs where
  g : Guard
  d : Dst
  a : Opnd
  b : Opnd
  wide : Bool
deriving DecidableEq, Repr

/-- MOV (02 R80): `wide` is .n64. -/
structure MovArgs where
  d : Dst
  a : Opnd
  wide : Bool
deriving DecidableEq, Repr

/-- MOVI variants (02 Table register-7). -/
inductive MoviKind where
  | plain | sx | hi
deriving DecidableEq, Repr

/-- MOVI (02 R81). -/
structure MoviArgs where
  d : Dst
  kind : MoviKind
  imm : W32
deriving DecidableEq, Repr

/-- MOVS and MOVS.sl (02 R82). -/
structure MovsArgs where
  d : Dst
  a : Opnd
  b : Opnd
  wide : Bool
deriving DecidableEq, Repr

/-- PLOG (02 R83): predicate sources and an 8-bit truth table. -/
structure PlogArgs where
  pd : PDst
  pa : Nat
  pb : Nat
  pc : Nat
  table : Nat
deriving DecidableEq, Repr

/-- One-operand FP32 words (04 Table arith-2). -/
structure F1 where
  d : Dst
  a : Opnd
  rnd : Rnd
  ftz : Bool
deriving DecidableEq, Repr

/-- Two-operand FP32 and FP64 words (04 Table arith-2). -/
structure F2 where
  d : Dst
  a : Opnd
  b : Opnd
  rnd : Rnd
  ftz : Bool
deriving DecidableEq, Repr

/-- Fused FP32 and FP64 words, and SCACC (04 Table arith-2, R148). -/
structure F3 where
  d : Dst
  a : Opnd
  b : Opnd
  c : Opnd
  rnd : Rnd
  ftz : Bool
deriving DecidableEq, Repr

/-- Packed two-operand words: `bf` selects BF16 (04 R130). -/
structure H2 where
  d : Dst
  a : Opnd
  b : Opnd
  bf : Bool
  rnd : Rnd
  ftz : Bool
deriving DecidableEq, Repr

/-- HFMA2 (04 R130). -/
structure H3 where
  d : Dst
  a : Opnd
  b : Opnd
  c : Opnd
  bf : Bool
  rnd : Rnd
  ftz : Bool
deriving DecidableEq, Repr

/-- FCMP and DCMP (04 R133). -/
structure FcmpArgs where
  pd : PDst
  a : Opnd
  b : Opnd
  cc : FCc
  ftz : Bool
deriving DecidableEq, Repr

/-- FCLS (04 R134): a class mask of 9 bits. -/
structure FclsArgs where
  pd : PDst
  a : Opnd
  mask : Nat
  ty : Ty
deriving DecidableEq, Repr

/-- CVT (04 R139). -/
structure CvtArgs where
  d : Dst
  a : Opnd
  dty : Ty
  sty : Ty
  rnd : Rnd
  sat : Bool
  ftz : Bool
deriving DecidableEq, Repr

/-- CVTS, BZPK and F8PK (04 R140, R144, R146): `dty` and `sty` are the type fields of the control byte. -/
structure NarrowArgs where
  d : Dst
  a : Opnd
  b : Opnd
  dty : Ty
  sty : Ty
  rnd : Rnd
  nsat : Bool
deriving DecidableEq, Repr

/-- SCSEL (04 R141). -/
structure ScselArgs where
  d : Dst
  a : Opnd
  fmt : Ty
  h : Nat
  ulim : Nat
deriving DecidableEq, Repr

/-- EFQ (04 R142): `c` is the vector register that holds the residual. -/
structure EfqArgs where
  d : Dst
  a : Opnd
  b : Opnd
  c : Nat
  ty : Ty
  pos : Nat
  rnd : Rnd
  nsat : Bool
deriving DecidableEq, Repr

/-- BZUP and F8UP (04 R145, R147): the destination is a register group. -/
structure UnpackArgs where
  d : Dst
  a : Opnd
  dty : Ty
  sty : Ty
deriving DecidableEq, Repr

/-- SHFL modes (04 Table arith-8). -/
inductive ShflMode where
  | idx | up | down | xor
deriving DecidableEq, Repr

/-- SHFL segments (04 Table arith-8). -/
inductive Seg where
  | warp | s4 | s8 | s16 | s32
deriving DecidableEq, Repr

/-- SHFL (04 R152). -/
structure ShflArgs where
  d : Dst
  a : Opnd
  b : Opnd
  mode : ShflMode
  wide : Bool
  seg : Seg
deriving DecidableEq, Repr

/-- SHFX (04 R153). -/
structure ShfxArgs where
  d : Dst
  a : Opnd
  pattern : Nat
deriving DecidableEq, Repr

/-- BCST (04 R154). -/
structure BcstArgs where
  d : Dst
  a : Opnd
  b : Opnd
  wide : Bool
deriving DecidableEq, Repr

/-- VOTE by its mode (04 R155). -/
inductive VoteArgs where
  | any (pd : PDst) (pa : Nat)
  | all (pd : PDst) (pa : Nat)
  | ballot (d : Dst) (pa : Nat)
  | eq (pd : PDst) (a : Opnd) (wide : Bool)
deriving DecidableEq, Repr

/-- Reduction operations (04 Table arith-8). -/
inductive RedOp where
  | add | min | max | and | or | xor
deriving DecidableEq, Repr

/-- REDT and SCAN (04 R156, R157): `excl` is SCAN's. -/
structure RedArgs where
  d : Dst
  a : Opnd
  ty : Ty
  op : RedOp
  excl : Bool
deriving DecidableEq, Repr

/-- REDX (04 R158): `b` is given with .mul. -/
structure RedxArgs where
  a : Opnd
  b : Option Opnd
deriving DecidableEq, Repr

/-- LACR (04 R159): `wide` selects FP64. -/
structure LacrArgs where
  d : Dst
  wide : Bool
  rnd : Rnd
deriving DecidableEq, Repr

/-- The mask of REGANG (05 R189): an immediate, or a scalar register. -/
inductive GangMask where
  | imm (mask : Nat)
  | sreg (n : Nat)
deriving DecidableEq, Repr

/-- REP (01 Table word-12): count (repetitions less one), and the step of each field its mask names. -/
structure RepArgs where
  count : Nat
  d : Option Int
  a : Option Int
  b : Option Int
  c : Option Int
  strayD : Int
  strayA : Int
  strayB : Int
  strayC : Int
deriving DecidableEq, Repr

/-- The second operand of a P half (01 R40). -/
inductive PSrc where
  | reg (f : Nat)
  | latch (k : Nat)
  | imm (n : Nat)
deriving DecidableEq, Repr

/-- The fields of a P half beside its opcode (01 Table word-10). -/
structure PArgs where
  d : Nat
  s : PSrc
  nowb : Bool
  opt : Nat
deriving DecidableEq, Repr

/-- P opcodes (01 Table word-11). -/
inductive POp where
  | nop | mov | iadd | isub | imul | iaddi | and | or | xor | andn | shl | shr | sar | imin | imax | rotr
  | fadd | fsub | fmul | fmin | fmax | hadd2 | hmul2 | clz
deriving DecidableEq, Repr

/-- A whole P half: half 1 of a P word stands beside half 0, whose opcode names the constructor. -/
structure PHalf where
  op : POp
  args : PArgs
deriving DecidableEq, Repr

/-- Access sizes (01 Table word-5). -/
inductive MSize where
  | n8 | i8 | n16 | i16 | b32 | b64 | b128
deriving DecidableEq, Repr

/-- Scopes (07 Table access-3). -/
inductive Scope where
  | warp | block | clu | stk | dev | domain
deriving DecidableEq, Repr

/-- A memory operand (01 Table word-22): base, index, and an offset in units of the access size. -/
structure MemOpnd where
  a : Opnd
  b : Opnd
  off : Int
deriving DecidableEq, Repr

/-- LD, LDS, LDW and LDC (07 Table access-6): `strong` holds the scope of a strong access, `na` is .na. -/
structure LoadArgs where
  d : Dst
  m : MemOpnd
  size : MSize
  strong : Option Scope
  na : Bool
deriving DecidableEq, Repr

/-- ST, STS and STW (07 Table access-6): `src` is the store data register. -/
structure StoreArgs where
  g : Guard
  src : Reg
  m : MemOpnd
  size : MSize
  strong : Option Scope
  na : Bool
deriving DecidableEq, Repr

/-- PREF, CFLSH and CINV (07 Table access-6): `opt` is .l2 or .inv. -/
structure CacheArgs where
  m : MemOpnd
  opt : Bool
deriving DecidableEq, Repr

/-- FENCE kinds (07 R266). -/
inductive FenceKind where
  | full | rel | acq
deriving DecidableEq, Repr

/-- The threshold of WAITC (07 R267). -/
inductive WaitThreshold where
  | imm (n : Nat)
  | opnd (a : Opnd)
deriving DecidableEq, Repr

/-- ATOM and ATOMS (07 R265): `wide` is b64, `sgn` is .s. -/
structure AtomArgs where
  g : Guard
  d : Dst
  a : Opnd
  b : Opnd
  c : Opnd
  wide : Bool
  scope : Scope
  sgn : Bool
deriving DecidableEq, Repr

/-- RATOM (15 Table link-4): `b` is the route. -/
structure RatomArgs where
  g : Guard
  d : Dst
  a : Opnd
  b : Opnd
  c : Opnd
  wide : Bool
  sgn : Bool
deriving DecidableEq, Repr

/-- RLD (15 Table link-4). -/
structure RldArgs where
  d : Dst
  a : Opnd
  b : Opnd
  off : Int
  size : MSize
deriving DecidableEq, Repr

/-- RST (15 Table link-4). -/
structure RstArgs where
  g : Guard
  src : Reg
  a : Opnd
  b : Opnd
  off : Int
  size : MSize
deriving DecidableEq, Repr

/-- RSTF (15 Table link-4): `c` is the flag address. -/
structure RstfArgs where
  g : Guard
  src : Reg
  a : Opnd
  b : Opnd
  c : Opnd
  size : MSize
deriving DecidableEq, Repr

/-- Completion kinds of copies (09 Table copy-2). -/
inductive CopyKind where
  | ic | node | sig
deriving DecidableEq, Repr

/-- The moving copy words (09 Table copy-1): the descriptor is s(4k) to s(4k + 3). An operand the word does not use is `none`. -/
structure CopyArgs where
  d : Dst
  k : Nat
  b : Option Opnd
  c : Option Opnd
  kind : CopyKind
  scope : Scope
  sh : Bool
  dz : Bool
deriving DecidableEq, Repr

/-- MPASS and MSPASS (10 Table pass-6). -/
structure PassArgs where
  d : Dst
  n : Nat
  a : Opnd
  fmt : Nat
  ka : Bool
  kb : Bool
  tra : Bool
  trb : Bool
deriving DecidableEq, Repr

/-- MLUT (10 Table pass-6): `fmt` 0 is .w1, 1 is .w2. -/
structure LutArgs where
  d : Dst
  a : Opnd
  fmt : Nat
  ka : Bool
  kb : Bool
  tra : Bool
deriving DecidableEq, Repr

/-- ACCRD and ACCWR (10 R347): `v` is the vector register. -/
structure AccArgs where
  v : Nat
  t : Nat
  row : Nat
  cb : Nat
  raw : Bool
deriving DecidableEq, Repr

/-- Kinds of ACCZ (10 Table pass-6). -/
inductive AccKind where
  | f32 | i48 | b48
deriving DecidableEq, Repr

/-- SKUPD (11 R372): the descriptor group is s(8·a) to s(8·a + 7). -/
structure SkupdArgs where
  a : Nat
  b : Opnd
  c : Opnd
  k64 : Bool
deriving DecidableEq, Repr

/-- SKQRY (11 R372). -/
structure SkqryArgs where
  d : Dst
  a : Nat
  c : Opnd
  k64 : Bool
deriving DecidableEq, Repr

/-- Conditions of FLGW (08 R282). -/
inductive FlgCc where
  | eq | ne | geu | gtu | ges | gts
deriving DecidableEq, Repr

/-- FLGW (08 Table barrier-6). -/
structure FlgwArgs where
  p : Nat
  a : Opnd
  b : Opnd
  c : Opnd
  cc : FlgCc
  wide : Bool
  dev : Bool
deriving DecidableEq, Repr

/-- Completion kinds of RELN (12 Table kernel-12). -/
inductive RelnKind where
  | none | node | sig
deriving DecidableEq, Repr

/-- RELN (12 Table kernel-12). -/
structure RelnArgs where
  d : Dst
  a : Opnd
  b : Opnd
  kind : RelnKind
deriving DecidableEq, Repr

/-- What an access does to a page (06 R205). -/
inductive AccessKind where
  | read | write | rmw | fetch
deriving DecidableEq, Repr

/-- A block barrier of a block, or a cluster barrier of a cluster-block (08 R270). -/
inductive BarrierRef where
  | block (block id : Nat)
  | clu (cb id : Nat)
deriving DecidableEq, Repr

/-- The count of BAR, BARA and CBAR (08 Table barrier-4): an immediate, or an operand. -/
inductive BarCount where
  | imm (n : Nat)
  | opnd (a : Opnd)
deriving DecidableEq, Repr

/-- A copy slot of a core, or with `core` 0x3FF a copy channel of the scheduler (09 R294, R499). -/
structure CopyRef where
  core : Nat
  slot : Nat
deriving DecidableEq, Repr

/-- An access at host memory: by the host through a context's mapping (06 R211), or the next host access of a warp (07 R250); a read of a
BAR by the host (13 R415, 14 R441, R442); or a change of the host's own mapping: the ranges (address, length) of host addresses whose
accesses it completes with an error (12 R502, 13 R414). -/
inductive HostOp where
  | read (ctx va len : Nat)
  | write (ctx va : Nat) (bytes : List Byte)
  | perform (id part : Nat)
  | readBar (bar off len : Nat)
  | unmap (holes : List (Nat × Nat))
deriving DecidableEq, Repr

/-- NLDV and NSTV (11 Table sketch-7a, format M): `n` lanes. -/
structure NmuMem where
  g : Nat
  a : Nat
  inc : Bool
  n : Nat
deriving DecidableEq, Repr

/-- Two-source vector words of the NMU (format V). -/
structure NmuV2 where
  gd : Nat
  ga : Nat
  gb : Nat
  rnd : Rnd
deriving DecidableEq, Repr

/-- NFMA (format V). -/
structure NmuV3 where
  gd : Nat
  ga : Nat
  gb : Nat
  gc : Nat
  rnd : Rnd
deriving DecidableEq, Repr

/-- Kinds of NCVT (11 Table sketch-8). -/
inductive NcvtKind where
  | i32f32 | f32i32 | bf16f32 | f32bf16 | f16f32 | f32f16
deriving DecidableEq, Repr

/-- Conditions of NBRA (11 Table sketch-8). -/
inductive NbraCond where
  | always | z | nz
deriving DecidableEq, Repr

/-- What a member sends about a collective (11 R365): its parameters and the outcome of its check to its ring neighbours, before a counter
moves; and, where it ends the collective, `abort`: the cause at the member that receives it (Table sketch-11). -/
structure CollPeer where
  d : Nat
  b : Nat
  q : W32
  master : W32
  fingerprint : W64
  bad : Bool
  abort : Option Nat
deriving DecidableEq, Repr

/-- A received segment of counters (11 R364): its first counter, the values, whether it is already final, and in the pair order the level
that it joins (0 in the ring). -/
structure CollSegment where
  first : Nat
  values : List W32
  final : Bool
  level : Nat
deriving DecidableEq, Repr

/-- Where a submitted packet came from (12 R377). -/
inductive LaunchSource where
  | queue (q seq : Nat)
  | node (handle : Nat)
deriving DecidableEq, Repr

/-- A launch-register access that is dropped (13 R402, R403). -/
inductive RegAccess where
  | read
  | badWrite
  | otherKind (bytes : List Byte)
deriving DecidableEq, Repr

/-- A context descriptor's fields that firmware or the host sets (14 Table context-1). -/
structure CtxDesc where
  id : Nat
  pmask : Nat
  drainlim : Nat
  root : Nat
  keys : W64
  gracelim : Nat
  vector : Nat
  event : Nat
  evring : Nat
  evtail : Nat
  evhead : Nat
deriving DecidableEq, Repr

/-- A queue descriptor (13 Table queue-1); `reserved` is the value of its reserved bits: flags[7:2] and bytes 36 to 63. -/
structure QueueDesc where
  context : Nat
  prio : Nat
  quantum : Nat
  order : Nat
  serial : Bool
  msix : Bool
  vector : Nat
  ring : Nat
  cpl : Nat
  cplent : Nat
  budget : Nat
  period : Nat
  reserved : Nat
deriving DecidableEq, Repr

/-- What GRANT grants (14 Table context-11). Frames are numbered in units of 2 MiB. -/
inductive GrantWhat where
  | keys (mask : W64)
  | buckets (ns : List Nat)
  | buckles (ns : List Nat)
  | slots (ns : List Nat)
  | frames (ns : List Nat)
  | sharedFrames (ns : List Nat)
deriving DecidableEq, Repr

/-- The header of an electrical packet (15 Table link-1) beside its type. -/
structure PktHdr where
  source : Nat
  target : Nat
  handle : Nat
  tag : Nat
  op : Nat
  status : Nat
  floor : Nat
  line : Nat
deriving DecidableEq, Repr

/-- One lane of an RATOM packet (15 R445): byte offset in the line, operand, and the swap value of .cas. -/
structure AtomLane where
  off : Nat
  opnd : W64
  swap : W64
deriving DecidableEq, Repr

/-- A controller message (16 Table circuit-1) beside its op. -/
structure CtlMsg where
  id : Nat
  dev : Nat
  port : Nat
  pport : Nat
  peer : Nat
  handle : Nat
deriving DecidableEq, Repr

/-- What a refresh reads of a laser channel (15 Table link-8). -/
structure LaserReading where
  hours : W32
  bias : W32
  bias0 : W32
  pow : W32
deriving DecidableEq, Repr

/-- Conditions of CMPQ (16 Table circuit-7). -/
inductive QCond where
  | eq | ne | ltu | leu | gtu | geu
deriving DecidableEq, Repr

/-- Conditions of BRC (16 Table circuit-7). -/
inductive BrcCond where
  | always | c | nc
deriving DecidableEq, Repr

/-- Targets of CWAIT (16 Table circuit-7). -/
inductive CwaitTarget where
  | live | grant | free
deriving DecidableEq, Repr

/-- The instructions of the cores, the NMUs and the fabric sequencer, and the moves of the other agents: one constructor for each
row of the opcode table. The words with operands stand first, then the others, each in the table's order. -/
inductive Instr where
  /-- IADD (R122): Integer add per lane, wrapping or saturating by type. -/
  | iadd (x : Int2)
  /-- ISUB (R122): Integer subtract per lane, wrapping or saturating by type. -/
  | isub (x : Int2)
  /-- IMUL (R122): Integer multiply, low half, wrapping or saturating. -/
  | imul (x : Int2)
  /-- IMULH (R122): Integer multiply returning the high half of the exact product. -/
  | imulh (x : Int2)
  /-- IMAD (R122): Integer multiply-add x*y+z, wrapping or saturating. -/
  | imad (x : Int3)
  /-- IMADW (R124): 32-bit multiply added to a 64-bit operand, giving a 64-bit result. -/
  | imadw (x : Int3)
  /-- IMIN (R122): Integer minimum, signed or unsigned by type. -/
  | imin (x : Int2)
  /-- IMAX (R122): Integer maximum, signed or unsigned by type. -/
  | imax (x : Int2)
  /-- IABS (R123): Integer absolute value, minimum maps to itself unless saturating. -/
  | iabs (x : Int1)
  /-- AND (R122): Bitwise and. -/
  | and (x : Int2)
  /-- OR (R122): Bitwise or. -/
  | or (x : Int2)
  /-- XOR (R122): Bitwise exclusive or. -/
  | xor (x : Int2)
  /-- ANDN (R122): Bitwise x and not y. -/
  | andn (x : Int2)
  /-- SHL (R122): Logical shift left by y mod N. -/
  | shl (x : Int2)
  /-- SHR (R122): Logical shift right by y mod N. -/
  | shr (x : Int2)
  /-- SAR (R122): Arithmetic shift right by y mod N. -/
  | sar (x : Int2)
  /-- ROTR (R122): Rotate right by y mod N. -/
  | rotr (x : Int2)
  /-- POPC (R123): Count one bits into a 32-bit result. -/
  | popc (x : Int1)
  /-- CLZ (R123): Count leading zero bits into a 32-bit result. -/
  | clz (x : Int1)
  /-- BREV (R122): Reverse the bit order. -/
  | brev (x : Int1)
  /-- BFX (R125): Extract a bit field, zero- or sign-extended. -/
  | bfx (x : Int2)
  /-- BFI (R125): Insert a bit field into a base value. -/
  | bfi (x : Int3)
  /-- LEA (R126): Form a 64-bit address base + index shifted by sh. -/
  | lea (x : LeaArgs)
  /-- ICMP (R127): Integer compare writing a predicate per lane. -/
  | icmp (x : IcmpArgs)
  /-- SEL (R128): Select a or b per lane by the guard. -/
  | sel (x : SelArgs)
  /-- MOV (R80): Copy a 32- or 64-bit value without conversion. -/
  | mov (x : MovArgs)
  /-- MOVI (R81): Move a 32-bit immediate, plain, sign-extended or into the high half. -/
  | movi (x : MoviArgs)
  /-- MOVS (R82): Copy a value from one lane of the warp into a scalar. -/
  | movs (x : MovsArgs)
  /-- MOVS_SL (R82): Write each slice's scalar copy into one lane of that slice. -/
  | movsSl (x : MovsArgs)
  /-- PLOG (R83): Predicate logic by an 8-bit truth table. -/
  | plog (x : PlogArgs)
  /-- FADD (R130): FP32 add rounded once. -/
  | fadd (x : F2)
  /-- FSUB (R130): FP32 subtract rounded once. -/
  | fsub (x : F2)
  /-- FMUL (R130): FP32 multiply rounded once. -/
  | fmul (x : F2)
  /-- FFMA (R130): FP32 fused multiply-add with one rounding. -/
  | ffma (x : F3)
  /-- FMIN (R131): FP32 minimum with signed-zero and NaN rules. -/
  | fmin (x : F2)
  /-- FMAX (R131): FP32 maximum with signed-zero and NaN rules. -/
  | fmax (x : F2)
  /-- FCMP (R133): FP32 compare writing a predicate. -/
  | fcmp (x : FcmpArgs)
  /-- FCLS (R134): Classify a floating-point value against a class mask. -/
  | fcls (x : FclsArgs)
  /-- HADD2 (R130): Packed FP16 or BF16 add per half. -/
  | hadd2 (x : H2)
  /-- HMUL2 (R130): Packed FP16 or BF16 multiply per half. -/
  | hmul2 (x : H2)
  /-- HFMA2 (R130): Packed FP16 or BF16 fused multiply-add per half. -/
  | hfma2 (x : H3)
  /-- DADD (R130): FP64 add. -/
  | dadd (x : F2)
  /-- DMUL (R130): FP64 multiply. -/
  | dmul (x : F2)
  /-- DFMA (R130): FP64 fused multiply-add. -/
  | dfma (x : F3)
  /-- DCMP (R133): FP64 compare writing a predicate. -/
  | dcmp (x : FcmpArgs)
  /-- FRCP (R135): Correctly rounded FP32 reciprocal. -/
  | frcp (x : F1)
  /-- FRSQ (R135): FP32 reciprocal square root within 1 ulp. -/
  | frsq (x : F1)
  /-- FSQT (R135): Correctly rounded FP32 square root. -/
  | fsqt (x : F1)
  /-- FDIV (R135): Correctly rounded FP32 division. -/
  | fdiv (x : F2)
  /-- FEX2 (R135): FP32 base-2 exponential. -/
  | fex2 (x : F1)
  /-- FLG2 (R135): FP32 base-2 logarithm. -/
  | flg2 (x : F1)
  /-- FSIN (R135): FP32 sine. -/
  | fsin (x : F1)
  /-- FCOS (R135): FP32 cosine. -/
  | fcos (x : F1)
  /-- FTNH (R135): FP32 hyperbolic tangent. -/
  | ftnh (x : F1)
  /-- CVT (R139): Convert one element between types with one rounding. -/
  | cvt (x : CvtArgs)
  /-- CVTS (R140): Narrow a register group by a scale with one rounding and update SSTAT. -/
  | cvts (x : NarrowArgs)
  /-- SCSEL (R141): Compute the next scale exponent from SSTAT. -/
  | scsel (x : ScselArgs)
  /-- EFQ (R142): Quantise with an error-feedback residual. -/
  | efq (x : EfqArgs)
  /-- BZPK (R144): Pack eight scaled values into a bezel-4 group. -/
  | bzpk (x : NarrowArgs)
  /-- BZUP (R145): Unpack a bezel-4 group. -/
  | bzup (x : UnpackArgs)
  /-- F8PK (R146): Pack four 16-bit values into FP8. -/
  | f8pk (x : NarrowArgs)
  /-- F8UP (R147): Unpack four FP8 values. -/
  | f8up (x : UnpackArgs)
  /-- SCACC (R148): Add acc*sa*sb to d with one rounding. -/
  | scacc (x : F3)
  /-- SHFL (R152): Move values between lanes within segments. -/
  | shfl (x : ShflArgs)
  /-- SHFX (R153): Permute values within each slice. -/
  | shfx (x : ShfxArgs)
  /-- BCST (R154): Broadcast one lane's value to participating lanes. -/
  | bcst (x : BcstArgs)
  /-- VOTE (R155): Any, all, ballot or equality vote over participating lanes. -/
  | vote (x : VoteArgs)
  /-- REDT (R156): Reduce over participating lanes by a fixed tree into a scalar. -/
  | redt (x : RedArgs)
  /-- SCAN (R157): Prefix over participating lanes in lane order. -/
  | scan (x : RedArgs)
  /-- REDX (R158): Add exact terms of each lane into LACC. -/
  | redx (x : RedxArgs)
  /-- LACR (R159): Round LACC once into FP32 or FP64. -/
  | lacr (x : LacrArgs)
  /-- BRA_ANY (R185): Guarded relative branch taken per slice when any lane's guard is true. -/
  | braAny (g : Guard) (dist : Int)
  /-- BRA_ALL (R185): Guarded relative branch taken per slice when all lanes' guards are true. -/
  | braAll (g : Guard) (dist : Int)
  /-- BRX (R186): Indirect branch per slice, splitting by target. -/
  | brx (a : Opnd) (off : Int)
  /-- CALL (R187): Branch and write the return address to a scalar. -/
  | call (d : Nat) (dist : Int)
  /-- RET (R188): Return to an address read from an operand, popping no loop level. -/
  | ret (a : Opnd)
  /-- REGANG (R189): Park issuing slices with a named set until they can rejoin. -/
  | regang (m : GangMask)
  /-- LOOP_OPERAND (R79): Push a hardware loop level with a count from an operand. -/
  | loopOperand (a : Opnd) (off : Nat)
  /-- LOOP_IMMEDIATE (R79): Push a hardware loop level with an immediate count. -/
  | loopImmediate (n off : Nat)
  /-- TRAP (R195): Raise TRAP_INSN with an 18-bit code. -/
  | trap (code : Nat)
  /-- BKPT (R195): Raise BKPT with an 18-bit code. -/
  | bkpt (code : Nat)
  /-- RACQ (R84): Request extension register granules and park until granted. -/
  | racq (n : Nat)
  /-- RREL (R85): Release extension granules after outstanding writes to them complete. -/
  | rrel (n : Nat)
  /-- REP (R45): Issue the next word n times with stepped register fields. -/
  | rep (x : RepArgs)
  /-- P_NOP (R42): P half doing nothing. -/
  | pNop (h : PArgs) (o : PHalf)
  /-- P_MOV (R42): P half d := s. -/
  | pMov (h : PArgs) (o : PHalf)
  /-- P_IADD (R42): P half integer add. -/
  | pIadd (h : PArgs) (o : PHalf)
  /-- P_ISUB (R42): P half integer subtract. -/
  | pIsub (h : PArgs) (o : PHalf)
  /-- P_IMUL (R42): P half integer multiply. -/
  | pImul (h : PArgs) (o : PHalf)
  /-- P_IADDI (R42): P half add of a shifted 8-bit immediate. -/
  | pIaddi (h : PArgs) (o : PHalf)
  /-- P_AND (R42): P half bitwise and. -/
  | pAnd (h : PArgs) (o : PHalf)
  /-- P_OR (R42): P half bitwise or. -/
  | pOr (h : PArgs) (o : PHalf)
  /-- P_XOR (R42): P half bitwise xor. -/
  | pXor (h : PArgs) (o : PHalf)
  /-- P_ANDN (R42): P half and-not. -/
  | pAndn (h : PArgs) (o : PHalf)
  /-- P_SHL (R42): P half shift left. -/
  | pShl (h : PArgs) (o : PHalf)
  /-- P_SHR (R42): P half logical shift right. -/
  | pShr (h : PArgs) (o : PHalf)
  /-- P_SAR (R42): P half arithmetic shift right. -/
  | pSar (h : PArgs) (o : PHalf)
  /-- P_IMIN (R42): P half integer minimum. -/
  | pImin (h : PArgs) (o : PHalf)
  /-- P_IMAX (R42): P half integer maximum. -/
  | pImax (h : PArgs) (o : PHalf)
  /-- P_ROTR (R42): P half rotate right. -/
  | pRotr (h : PArgs) (o : PHalf)
  /-- P_FADD (R42): P half FP32 add. -/
  | pFadd (h : PArgs) (o : PHalf)
  /-- P_FSUB (R42): P half FP32 subtract. -/
  | pFsub (h : PArgs) (o : PHalf)
  /-- P_FMUL (R42): P half FP32 multiply. -/
  | pFmul (h : PArgs) (o : PHalf)
  /-- P_FMIN (R42): P half FP32 minimum. -/
  | pFmin (h : PArgs) (o : PHalf)
  /-- P_FMAX (R42): P half FP32 maximum. -/
  | pFmax (h : PArgs) (o : PHalf)
  /-- P_HADD2 (R42): P half packed add. -/
  | pHadd2 (h : PArgs) (o : PHalf)
  /-- P_HMUL2 (R42): P half packed multiply. -/
  | pHmul2 (h : PArgs) (o : PHalf)
  /-- P_CLZ (R42): P half count leading zeros. -/
  | pClz (h : PArgs) (o : PHalf)
  /-- LD (R258): Load one element per performing lane. -/
  | ld (x : LoadArgs)
  /-- ST (R259): Store one element per performing lane. -/
  | st (x : StoreArgs)
  /-- LDS (R260): Load from the block's scratchpad. -/
  | lds (x : LoadArgs)
  /-- STS (R260): Store to the block's scratchpad. -/
  | sts (x : StoreArgs)
  /-- LDW (R261): Load from a core or accumulator window by physical address. -/
  | ldw (x : LoadArgs)
  /-- STW (R261): Store to a core or accumulator window by physical address. -/
  | stw (x : StoreArgs)
  /-- LDC (R262): Load from the launch's argument area through the constant cache. -/
  | ldc (x : LoadArgs)
  /-- PREF (R263): Prefetch a sector into the cluster cache or home L2. -/
  | pref (x : CacheArgs)
  /-- CFLSH (R264): Write back a cluster cache line, optionally invalidating it. -/
  | cflsh (x : CacheArgs)
  /-- CINV (R264): Invalidate the clean sectors of a cluster cache line. -/
  | cinv (x : CacheArgs)
  /-- FENCE (R266): Order earlier accesses before later ones at a scope. -/
  | fence (scope : Scope) (kind : FenceKind)
  /-- WAITC (R267): Park until selected in-flight counters fall to a threshold. -/
  | waitc (mask : Nat) (t : WaitThreshold)
  /-- ATOM_ADD (R265): Atomic add at the home. -/
  | atomAdd (x : AtomArgs)
  /-- ATOM_MIN (R265): Atomic minimum at the home. -/
  | atomMin (x : AtomArgs)
  /-- ATOM_MAX (R265): Atomic maximum at the home. -/
  | atomMax (x : AtomArgs)
  /-- ATOM_AND (R265): Atomic and at the home. -/
  | atomAnd (x : AtomArgs)
  /-- ATOM_OR (R265): Atomic or at the home. -/
  | atomOr (x : AtomArgs)
  /-- ATOM_XOR (R265): Atomic xor at the home. -/
  | atomXor (x : AtomArgs)
  /-- ATOM_EXCH (R265): Atomic exchange at the home. -/
  | atomExch (x : AtomArgs)
  /-- ATOM_CAS (R265): Atomic compare-and-swap at the home. -/
  | atomCas (x : AtomArgs)
  /-- ATOM_FADD (R265): Atomic floating-point add at the home. -/
  | atomFadd (x : AtomArgs)
  /-- ATOMS_ADD (R265): Scratchpad atomic add. -/
  | atomsAdd (x : AtomArgs)
  /-- ATOMS_MIN (R265): Scratchpad atomic minimum. -/
  | atomsMin (x : AtomArgs)
  /-- ATOMS_MAX (R265): Scratchpad atomic maximum. -/
  | atomsMax (x : AtomArgs)
  /-- ATOMS_AND (R265): Scratchpad atomic and. -/
  | atomsAnd (x : AtomArgs)
  /-- ATOMS_OR (R265): Scratchpad atomic or. -/
  | atomsOr (x : AtomArgs)
  /-- ATOMS_XOR (R265): Scratchpad atomic xor. -/
  | atomsXor (x : AtomArgs)
  /-- ATOMS_EXCH (R265): Scratchpad atomic exchange. -/
  | atomsExch (x : AtomArgs)
  /-- ATOMS_CAS (R265): Scratchpad atomic compare-and-swap. -/
  | atomsCas (x : AtomArgs)
  /-- ATOMS_FADD (R265): Scratchpad atomic floating-point add. -/
  | atomsFadd (x : AtomArgs)
  /-- RLD (R454): Remote load from another device. -/
  | rld (x : RldArgs)
  /-- RST (R454): Remote store to another device. -/
  | rst (x : RstArgs)
  /-- RSTF (R455): Remote store fused with a flag increment at the target. -/
  | rstf (x : RstfArgs)
  /-- RATOM_ADD (R454): Remote atomic add. -/
  | ratomAdd (x : RatomArgs)
  /-- RATOM_MIN (R454): Remote atomic minimum. -/
  | ratomMin (x : RatomArgs)
  /-- RATOM_MAX (R454): Remote atomic maximum. -/
  | ratomMax (x : RatomArgs)
  /-- RATOM_AND (R454): Remote atomic and. -/
  | ratomAnd (x : RatomArgs)
  /-- RATOM_OR (R454): Remote atomic or. -/
  | ratomOr (x : RatomArgs)
  /-- RATOM_XOR (R454): Remote atomic xor. -/
  | ratomXor (x : RatomArgs)
  /-- RATOM_EXCH (R454): Remote atomic exchange. -/
  | ratomExch (x : RatomArgs)
  /-- RATOM_CAS (R454): Remote atomic compare-and-swap. -/
  | ratomCas (x : RatomArgs)
  /-- RATOM_FADD (R454): Remote atomic floating-point add. -/
  | ratomFadd (x : RatomArgs)
  /-- COPY (R315): Admit a linear copy per issuing slice and return its handle. -/
  | copy (x : CopyArgs)
  /-- COPY2 (R315): Admit a two-dimensional pitched copy. -/
  | copy2 (x : CopyArgs)
  /-- COPYF (R311): Admit a copy into a stream panel of the staging array. -/
  | copyf (x : CopyArgs)
  /-- COPYW (R296): Admit a copy into another warp's registers or scratchpad after checking the target. -/
  | copyw (x : CopyArgs)
  /-- COPYR (R303): Admit a copy to another device over a plane. -/
  | copyr (x : CopyArgs)
  /-- CPROG (R317): Read a copy's progress. -/
  | cprog (d : Dst) (a : Opnd)
  /-- CKILL (R318): Stop a copy and perform its completion. -/
  | ckill (d : Dst) (a : Opnd)
  /-- PUBL (R228): Publish a twin group: flip its selector, stamp it and increment G. -/
  | publ (d : Dst) (a : Opnd)
  /-- HARN (R344): Write a harness register. -/
  | harn (n : Nat) (a : Opnd)
  /-- MPASS (R346): Arrive at a harness rendezvous to post a dense matrix pass. -/
  | mpass (x : PassArgs)
  /-- MSPASS (R346): Arrive at a harness rendezvous to post a 2:4-sparse pass. -/
  | mspass (x : PassArgs)
  /-- MLUT (R346): Post a table-lookup pass from one warp. -/
  | mlut (x : LutArgs)
  /-- ACCRD (R347): Read one accumulator row into a vector register. -/
  | accrd (x : AccArgs)
  /-- ACCWR (R347): Write one accumulator row from a vector register. -/
  | accwr (x : AccArgs)
  /-- ACCZ (R348): Zero an accumulator slot or pair and set its kind. -/
  | accz (kind : AccKind) (t : Nat)
  /-- MPROG (R349): Read a pass's progress by ticket. -/
  | mprog (d : Dst) (a : Opnd)
  /-- MPROG_W (R349): Set the completed K-steps of a STOPPED pass, firmware only. -/
  | mprogW (d : Dst) (a b : Opnd)
  /-- SKUPD (R374): Update a sketch with each performing lane's key and value. -/
  | skupd (x : SkupdArgs)
  /-- SKQRY (R374): Query a sketch by median per lane. -/
  | skqry (x : SkqryArgs)
  /-- SKADD (R374): Add a compatible sketch into another. -/
  | skadd (a b : Nat)
  /-- SKCLR (R374): Clear every counter of a sketch. -/
  | skclr (a : Nat)
  /-- TDEC (R280): Release and send a task counter decrement to the scheduler. -/
  | tdec (a b : Opnd)
  /-- TWAIT (R285): Wait until a node's counter is at most a threshold. -/
  | twait (p : Nat) (a b c : Opnd)
  /-- FLGW (R284): Wait until a memory unit meets a condition. -/
  | flgw (x : FlgwArgs)
  /-- BKW (R286): Wait until a buckle is fastened. -/
  | bkw (p : Nat) (a c : Opnd)
  /-- BKARM (R290): Arm a bucket byte counter from a descriptor. -/
  | bkarm (d : Dst) (a b : Opnd)
  /-- BKARM_OFF (R290): Disarm a bucket byte counter. -/
  | bkarmOff (d : Dst) (a : Opnd)
  /-- LNCH (R398): Submit a launch packet from device code to a queue. -/
  | lnch (d : Dst) (a b : Opnd)
  /-- RELN (R399): Relaunch a trace buffer, rerunning changed blocks. -/
  | reln (x : RelnArgs)
  /-- CSRR (R437): Read a control and status register. -/
  | csrr (d : Dst) (csr : Nat)
  /-- CSRW (R437): Write a control and status register field by field. -/
  | csrw (csr : Nat) (a : Opnd)
  /-- TLBI_VA (R226): Invalidate translations of an address in all TLBs of the device. -/
  | tlbiVa (sreg : Nat)
  /-- FRET (R439): Close a fault record with an action, firmware only. -/
  | fret (d : Dst) (a b : Opnd)
  /-- FCTX_BIND (R439): Bind a partition to a context. -/
  | fctxBind (d : Dst) (a b : Opnd)
  /-- FCTX_UNBIND (R439): Unbind a partition from a context. -/
  | fctxUnbind (d : Dst) (a b : Opnd)
  /-- FSWP_OUT (R439): Start swapping a context out of its partitions. -/
  | fswpOut (d : Dst) (a b : Opnd)
  /-- FSWP_IN (R439): Start restoring a context into its partitions. -/
  | fswpIn (d : Dst) (a b : Opnd)
  /-- BAR (R275): Arrive at a block barrier and wait for its generation. -/
  | bar (id : Nat) (n : BarCount)
  /-- BARA (R276): Arrive at a block barrier and return a token. -/
  | bara (d : Dst) (id : Nat) (n : BarCount)
  /-- BARW (R277): Wait for a block or cluster barrier generation to pass a token. -/
  | barw (a : Opnd) (id : Nat) (clu : Bool)
  /-- CBAR (R278): Arrive at a cluster barrier and return a token. -/
  | cbar (d : Dst) (id : Nat) (n : BarCount)
  /-- NLDV (R367): Load a vector from the NMU's stack. -/
  | nldv (x : NmuMem)
  /-- NSTV (R367): Store a vector to the NMU's stack. -/
  | nstv (x : NmuMem)
  /-- NADD (R367): Vector FP32 add. -/
  | nadd (x : NmuV2)
  /-- NSUB (R367): Vector FP32 subtract. -/
  | nsub (x : NmuV2)
  /-- NMUL (R367): Vector FP32 multiply. -/
  | nmul (x : NmuV2)
  /-- NFMA (R367): Vector FP32 fused multiply-add. -/
  | nfma (x : NmuV3)
  /-- NMIN (R367): Vector FP32 minimum. -/
  | nmin (x : NmuV2)
  /-- NMAX (R367): Vector FP32 maximum. -/
  | nmax (x : NmuV2)
  /-- NRSQ (R367): Vector reciprocal square root. -/
  | nrsq (gd ga : Nat)
  /-- NCVT (R367): Vector conversion of the selected kind. -/
  | ncvt (gd ga : Nat) (kind : NcvtKind) (rnd : Rnd)
  /-- NSKU (R368): Place sketch updates into the program's batch. -/
  | nsku (g ak ad n : Nat)
  /-- NSKQ (R367): Drain, then query a sketch per lane. -/
  | nskq (g ak ad n : Nat)
  /-- NSKA (R367): Drain, then add one sketch into another. -/
  | nska (ad as : Nat)
  /-- NSKC (R367): Drain, then clear a sketch. -/
  | nskc (ad : Nat)
  /-- NSET_IMM (R367): Set every lane to an FP32 immediate. -/
  | nsetImm (gd imm : Nat)
  /-- NSET_REG (R367): Set every lane to the low 32 bits of an address register. -/
  | nsetReg (gd a : Nat)
  /-- NADDI (R367): Add a shifted immediate to an address register. -/
  | naddi (ad as sh imm : Nat)
  /-- NLOOP_IMM (R369): Push an NMU loop level with an immediate count. -/
  | nloopImm (count off : Nat)
  /-- NLOOP_REG (R369): Push an NMU loop level with a count from a register. -/
  | nloopReg (a off : Nat)
  /-- NBRA (R369): Conditional NMU branch by word offset. -/
  | nbra (cond : NbraCond) (a off : Nat)
  /-- NWAIT (R370): Park until a 64-bit unit reaches a value. -/
  | nwait (a b : Nat)
  /-- NSIG (R370): Drain, fence and decrement a node. -/
  | nsig (a : Nat)
  /-- MOVQ_REG (R481): Copy a q register. -/
  | movqReg (qd qa : Nat)
  /-- MOVQ_IMM (R481): Load a sign-extended immediate into a q register. -/
  | movqImm (qd : Nat) (imm : Int)
  /-- ADDQ_REG (R481): Add two q registers. -/
  | addqReg (qd qa qb : Nat)
  /-- ADDQ_IMM (R481): Add an immediate to a q register. -/
  | addqImm (qd qa : Nat) (imm : Int)
  /-- SUBQ_REG (R481): Subtract two q registers. -/
  | subqReg (qd qa qb : Nat)
  /-- SUBQ_IMM (R481): Subtract an immediate from a q register. -/
  | subqImm (qd qa : Nat) (imm : Int)
  /-- CMPQ_REG (R481): Compare two q registers into c. -/
  | cmpqReg (cc : QCond) (qa qb : Nat)
  /-- CMPQ_IMM (R481): Compare a q register with an immediate into c. -/
  | cmpqImm (cc : QCond) (qa : Nat) (imm : Int)
  /-- BRQ (R481): Branch when a q register is zero or nonzero. -/
  | brq (nz : Bool) (qa : Nat) (off : Int)
  /-- BRC (R481): Branch always or on c. -/
  | brc (cond : BrcCond) (off : Int)
  /-- CREQ (R482): Request a circuit from the OCS controller. -/
  | creq (qd qa : Nat)
  /-- CWAIT (R483): Wait for a circuit to be live, granted or free. -/
  | cwait (tgt : CwaitTarget) (qd qa qb : Nat)
  /-- CREL (R474): Release a port's circuit. -/
  | crel (qa : Nat)
  /-- CSTAT (R483): Read a circuit's status. -/
  | cstat (qd qa : Nat)
  /-- BUCK (R477): Tie a buckle to a port's circuit. -/
  | buck (qa qb : Nat)
  /-- BUCK_OFF (R477): End a buckle's tie. -/
  | buckOff (qa : Nat)
  /-- PARK (R463): Park laser channels of a live port. -/
  | park (qa qb : Nat)
  /-- WAKE (R463): Wake parked laser channels of a live port. -/
  | wake (qa qb : Nat)
  /-- SETW (R464): Set a port's AUTOWAKE threshold. -/
  | setw (qa qb : Nat)
  /-- MSG (R484): Send a value to a script mailbox and wait for the answer. -/
  | msg (qa qb : Nat)
  /-- MRCV (R484): Take the oldest value from a script mailbox. -/
  | mrcv (qd qa qb : Nat)
  /-- TSIG (R481): Decrement a node's task counter. -/
  | tsig (qa qb : Nat)
  /-- TWT (R481): Wait until a node's counter is at most a threshold. -/
  | twt (qa qb qc : Nat)
  /-- TIME (R481): Read device time in ns. -/
  | time (qd : Nat)
  /-- DLY_REG (R481): Wait a number of microseconds from a register. -/
  | dlyReg (qa : Nat)
  /-- DLY_IMM (R481): Wait an immediate number of microseconds. -/
  | dlyImm (us : Nat)
  /-- EVT (R481): Post a script event record. -/
  | evt (qa : Nat)
  /-- LACZ (R159): Clear LACC and its flags. -/
  | lacz
  /-- REGANG_RELEASE (R189): Release the largest closed set of slices parked at one REGANG address as one gang. -/
  | regangRelease (core slot addr : Nat)
  /-- YIELD (R192): Give up the issue slot and let a waiting warp enter the active set. -/
  | yield
  /-- NOP (R193): No operation, pushing a void window entry. -/
  | nop
  /-- EXIT (R194): End the issuing slices. -/
  | exit
  /-- RACQ_GRANT (R65): Grant the oldest waiting RACQ its granules from the free pool and zero them. -/
  | racqGrant (core : Nat)
  /-- EMERGENCY_EPISODE (R66): Begin an emergency episode when every resident warp is parked and one waits in RACQ. -/
  | emergencyEpisode (core : Nat)
  /-- EMERGENCY_GRANT (R66): Grant one RACQ waiter from the emergency reserve, or end the episode. -/
  | emergencyGrant (core : Nat)
  /-- RREL_RELEASE (R85): Return the released granules once pending writes to them have completed. -/
  | rrelRelease (core slot : Nat)
  /-- FENCE_COMPLETE (R266): A waiting fence completes once earlier accesses and write-backs are performed. -/
  | fenceComplete (core slot id : Nat)
  /-- RFENCE (R456): Wait for earlier remote operations and order them at domain scope. -/
  | rfence
  /-- SKETCH_REPLY (R374): The serving NMU performs the k-th of a sketch word's counter events left; after all, it replies, lowering ic4. -/
  | sketchReply (id : Nat)
  /-- TIMED_WAIT_ANSWER (R283): The answering agent meets a timed wait's condition and releases the gang. -/
  | timedWaitAnswer (core slot slice : Nat)
  /-- TIMED_WAIT_TIMEOUT (R283): A timed wait's time-out expires and writes 0. -/
  | timedWaitTimeout (core slot slice : Nat)
  /-- FLGW_HOST_POLL (R284): The endpoint re-reads a host-memory unit for a parked FLGW. -/
  | flgwHostPoll (core slot slice : Nat)
  /-- RCLOSE_RETRY (R426): Close a fault record with RETRY through RCLOSE. -/
  | rcloseRetry (ctx record : Nat)
  /-- RCLOSE_SKIP (R426): Close a fault record with SKIP through RCLOSE. -/
  | rcloseSkip (ctx record : Nat)
  /-- RCLOSE_KILLW (R426): Close a fault record with KILLW through RCLOSE. -/
  | rcloseKillw (ctx record : Nat)
  /-- RCLOSE_KILLC (R426): Close a fault record with KILLC through RCLOSE, escalating the context. -/
  | rcloseKillc (ctx record : Nat)
  /-- TLBI_CTX (R226): Invalidate every translation of the issuing context. -/
  | tlbiCtx
  /-- TLBI_ALL (R226): Invalidate every translation of every context, firmware only. -/
  | tlbiAll
  /-- TLBI_COMPLETE (R226): TLBI completes once accesses through dropped entries are performed. -/
  | tlbiComplete (core slot id : Nat)
  /-- HALT (R438): Escalate the issuing context. -/
  | halt
  /-- HALT_DEV (R438): Stop dispatch of every user context, firmware only. -/
  | haltDev
  /-- CLUSTER_BLOCK_ASSIGN (R164): Assign the next cluster-block of a launch to cores of an eligible cluster. -/
  | clusterBlockAssign (launch cluster : Nat) (cores : List Nat)
  /-- CLUSTER_BLOCK_RESIDENT (R166): Make an assigned cluster-block resident when all its cores can grant resources. -/
  | clusterBlockResident (cb : Nat)
  /-- ACTIVE_SET_UPDATE (R173): Admit or exchange warps of the core's active set. -/
  | activeSetUpdate (core : Nat)
  /-- WARP_FORCED (R177): A warp waiting 256 cycles under GTO becomes forced. -/
  | warpForced (core slot : Nat)
  /-- WARP_EXITED (R172): The warp becomes EXITED once in-flight register writes complete, freeing its resources. -/
  | warpExited (core slot : Nat)
  /-- PAGE_WALK (R205): Walk the page tables and return a leaf or a page fault. -/
  | pageWalk (cluster ctx va : Nat) (kind : AccessKind)
  /-- LOAD_VALUE_RETURN (R254): A load's value is written to its destination and ic1 lowered. -/
  | loadValueReturn (id : Nat)
  /-- STORE_PERFORMED (R254): A store or write-back is performed at its place and ic5 lowered. -/
  | storePerformed (id : Nat)
  /-- SCRATCHPAD_ACCESS (R236): A scratchpad access is performed and ic0 lowered. -/
  | scratchpadAccess (id : Nat)
  /-- HOME_ACCESS (R233): An access arriving at the home L2 is performed there in order. -/
  | homeAccess (id part : Nat)
  /-- HOST_ACCESS (R211): A host read or write through the context's mapping. -/
  | hostAccess (op : HostOp)
  /-- BARRIER_COMPLETE (R272): A barrier completes its generation and releases waiters. -/
  | barrierComplete (b : BarrierRef)
  /-- TASK_DECREMENT (R279): Apply a decrement to a node's task dependence counter at the scheduler. -/
  | taskDecrement
  /-- COPY_TAKE_UP (R314): The engine takes up an admitted copy in admission order. -/
  | copyTakeUp (core : Nat)
  /-- COPY_CHUNK_ISSUE (R299, R304): The engine translates, checks and sends the next chunk when room allows; `good` says that the sending
  checks of its source hold. -/
  | copyChunkIssue (c : CopyRef)
  /-- COPY_CHUNK_PERFORMED (R299, R304): A chunk is performed and the progress register updated; `good` says that the sending check at its
  destination holds. -/
  | copyChunkPerformed (c : CopyRef) (chunk : Nat)
  /-- COPYR_CHUNK_TIMEOUT (R303): An unacknowledged COPYR chunk times out and the copy fails. -/
  | copyrChunkTimeout (c : CopyRef) (chunk : Nat)
  /-- DRAINLIM_EXPIRY (R312): DRAINLIM expires at forced pre-emption and remaining copies are squashed or saved. -/
  | drainlimExpiry (ctx : Nat)
  /-- PASS_POST (R322): A filled latch posts the pass into a free reservation entry and releases members. -/
  | passPost (cluster harness : Nat)
  /-- PASS_GRANT (R335): The arbiter grants one filled pass when the engine is idle. -/
  | passGrant (cluster : Nat)
  /-- PASS_KSTEP_COMPLETE (R340): A running pass completes a K-step, stopping at pre-emption. -/
  | passKstepComplete (cluster : Nat)
  /-- NMU_NODE_LOAD (R354): A queued NEARMEM node becomes resident at its NMU and loads. -/
  | nmuNodeLoad (stack : Nat)
  /-- NMU_PROGRAM_SAVE (R355): Save a running NMU program when its context leaves residency. -/
  | nmuProgramSave (stack place : Nat)
  /-- NWAIT_RELEASE (R370): A parked NWAIT is released by a write meeting its condition. -/
  | nwaitRelease (stack place : Nat)
  /-- NFENCE (R367): Drain and wait until the program's writes are performed. -/
  | nfence
  /-- NEND (R355): Drain, wait for writes and end the node DONE. -/
  | nend
  /-- COLLECTIVE_CHECK_EXCHANGE (R365): Receive a neighbour's sketch parameters and check outcome, aborting on mismatch. -/
  | collectiveCheckExchange (node : Nat) (nb : CollPeer)
  /-- COLLECTIVE_SEGMENT_RECEIVE (R364): Add a received segment of counters in the fixed order. -/
  | collectiveSegmentReceive (node : Nat) (seg : CollSegment)
  /-- LAUNCH_SUBMIT (R378): The scheduler checks a submitted packet and refuses or accepts it. -/
  | launchSubmit (ctx : Nat) (src : LaunchSource) (pkt : List Byte)
  /-- LAUNCH_START (R379): The start event of a launch: record Gs and increment G. -/
  | launchStart (launch : Nat)
  /-- RELAUNCH_HEADER_READ (R393): Read the trace header that binds a relaunch once earlier ones end. -/
  | relaunchHeaderRead (launch : Nat)
  /-- LAUNCH_END (R380): End a launch after its blocks, copies and write-backs drain, and perform its completion. -/
  | launchEnd (launch : Nat)
  /-- GRAPH_LOAD (R383): Load a graph's node counters once its slot is free and start it. -/
  | graphLoad (launch : Nat)
  /-- NODE_START (R384): Start a ready node once its payload is read and its agent accepts. -/
  | nodeStart (slot index : Nat)
  /-- NODE_END (R385): A node ends DONE and decrements its successors. -/
  | nodeEnd (slot index : Nat)
  /-- GRAPH_COMPLETE (R386): Perform a graph's completion once its terminal ends or a node fails and none runs. -/
  | graphComplete (slot : Nat)
  /-- LAUNCH_REGISTER_INLINE (R403): Append an inline launch packet to a queue. -/
  | launchRegisterInline (q : Nat) (bytes : List Byte)
  /-- LAUNCH_REGISTER_DOORBELL (R403): Advance a queue's tail by a doorbell. -/
  | launchRegisterDoorbell (q : Nat) (bytes : List Byte)
  /-- LAUNCH_REGISTER_DROP (R402): Drop an ill-formed or other-kind launch-register access and count it. -/
  | launchRegisterDrop (q : Nat) (acc : RegAccess)
  /-- BAR_REGISTER_WRITE (R468): Host write to a BAR register with no behaviour of its own. -/
  | barRegisterWrite (off : Nat) (value : W64)
  /-- PACKET_CONSUME (R406): The CFE reads, checks and submits a queue's head packet. -/
  | packetConsume
  /-- ENERGY_CHARGE (R410): Charge each budgeted queue for its work every microsecond. -/
  | energyCharge (q : Nat) (counts : List Nat)
  /-- BUDGET_REFILL (R411): Refill a queue's balance at the end of its period. -/
  | budgetRefill (q : Nat)
  /-- CTX_CREATE (R418): Mailbox request creating a context descriptor. -/
  | ctxCreate (desc : CtxDesc)
  /-- CTX_BIND (R439): Mailbox request binding partitions by FCTX. -/
  | ctxBind (ctx pmask : Nat) (unbind : Bool)
  /-- CTX_DESTROY (R434): Mailbox request destroying a context. -/
  | ctxDestroy (ctx : Nat)
  /-- CTX_PREEMPT (R427): Mailbox request for graceful or forced pre-emption. -/
  | ctxPreempt (ctx : Nat) (forced : Bool)
  /-- CTX_RESTORE (R439): Mailbox request restoring a context by FSWP in. -/
  | ctxRestore (ctx : Nat)
  /-- GRANT (R420): Mailbox request granting keys, buckets, buckles, slots or frames. -/
  | grant (ctx : Nat) (what : GrantWhat)
  /-- KEY_LOAD (R419): Mailbox request loading an AES-256-XTS key. -/
  | keyLoad (id : Nat) (key : BitVec 512)
  /-- QUEUE_BIND (R400): Mailbox request binding a queue to a context. -/
  | queueBind (q : Nat) (desc : QueueDesc)
  /-- QUEUE_DESTROY (R413): Mailbox request destroying a queue. -/
  | queueDestroy (q : Nat)
  /-- QUEUE_RESUME (R412): Mailbox request resuming a queue from ERROR. -/
  | queueResume (q : Nat)
  /-- RECORD_CLOSE (R426): Mailbox request closing a fault record. -/
  | recordClose (ctx record action : Nat)
  /-- ATTEST (R440): Mailbox request for a signed attestation report. -/
  | attest (ctx : Nat) (nonce : BitVec 384)
  /-- CTX_RESUME (R432): Mailbox request returning a FAULTED context to its previous state. -/
  | ctxResume (ctx : Nat)
  /-- HANDLE_BIND (R448): Mailbox request binding or unbinding a remote context handle. -/
  | handleBind (ctx handle : Nat) (unbind : Bool) (map : Nat)
  /-- FM_SOURCES (R468): Mailbox request setting the fabric manager's accepted sources. -/
  | fmSources (map : Nat)
  /-- ENERGY_COEF (R410): Mailbox request writing the energy coefficients. -/
  | energyCoef (coefs : List W32)
  /-- HELD_RECORD_WRITE (R422): Write a held fault record once the event ring has room. -/
  | heldRecordWrite (n : Nat)
  /-- UNCORRECTABLE_MEMORY_ERROR (R432): An uncorrectable memory error escalates the owning context. -/
  | uncorrectableMemoryError (pa : Nat)
  /-- RESIDENCY_DECISION (R430): Firmware decides pre-emptions and residency on a state change. -/
  | residencyDecision
  /-- GRACELIM_EXPIRY (R427): The graceful limit expires and pre-emption becomes forced. -/
  | gracelimExpiry (ctx : Nat)
  /-- GRACEFUL_SAVE (R427): Save partitions once all blocks, passes, copies and NMU programs have ended. -/
  | gracefulSave (ctx : Nat)
  /-- PARTITION_IMAGE_WRITTEN (R428): A partition image is in shadow storage or its image frames. -/
  | partitionImageWritten (part : Nat)
  /-- IMAGE_MOVE (R429): Move a partition image between shadow storage and image frames. -/
  | imageMove (part : Nat)
  /-- SWAP_COMPLETE (R429): A swap completes when its last image is in place and the signal word increments. -/
  | swapComplete (ctx : Nat)
  /-- DEVICE_RESET (R440): Reset: the boot ROM checks and starts the firmware image. -/
  | deviceReset (accepted : Bool)
  /-- FIRMWARE_FAULT_RESTART (R440): A firmware warp fault restarts firmware and notifies every context. -/
  | firmwareFaultRestart (core slot : Nat)
  /-- LANE_TRAINED (R444): An electrical lane completes training and fixes or checks the device number. -/
  | laneTrained (lane port : Nat)
  /-- LANE_DOWN (R446): An electrical lane fails and its unacknowledged packets are resent. -/
  | laneDown (lane : Nat)
  /-- RLD_PACKET (R449): An RLD request arrives and is performed and answered at the target. -/
  | rldPacket (h : PktHdr) (mask : BitVec 256)
  /-- RST_PACKET (R449): An RST request arrives and is performed at the target. -/
  | rstPacket (h : PktHdr) (mask : BitVec 256) (image : List Byte)
  /-- RSTF_PACKET (R455): An RSTF request arrives; payload then flag increment are performed. -/
  | rstfPacket (h : PktHdr) (mask : BitVec 256) (image : List Byte) (flag : Nat)
  /-- RATOM_PACKET (R449): An RATOM request arrives and its lanes are performed atomically. -/
  | ratomPacket (h : PktHdr) (lanes : List AtomLane)
  /-- REMOTE_RESPONSE (R451): A response arrives at the source and its results are applied. -/
  | remoteResponse (h : PktHdr) (bytes : List Byte) (results : List W64)
  /-- REMOTE_ACKNOWLEDGEMENT (R451): An acknowledgement arrives and retires a request. -/
  | remoteAcknowledgement (h : PktHdr)
  /-- REMOTE_TIMEOUT (R451): A remote operation times out after 1,000 us. -/
  | remoteTimeout (target tag : Nat)
  /-- CRATCH_MSG (R484): A Cratch message arrives for a script mailbox. -/
  | cratchMsg (h : PktHdr) (mailbox : Nat) (value : W64)
  /-- MANAGEMENT_READ (R468): A fabric-manager management read of a port register block. -/
  | managementRead (h : PktHdr) (port off : Nat)
  /-- MANAGEMENT_WRITE (R468): A fabric-manager write of its link event head word. -/
  | managementWrite (h : PktHdr) (off : Nat) (value : W64)
  /-- DATA_FLIT (R460): Receive a data flit in sequence order and deliver its frames. -/
  | dataFlit (port : Nat) (bytes : List Byte)
  /-- ACKNOWLEDGEMENT_FLIT (R457): An acknowledgement flit frees replay buffer entries. -/
  | acknowledgementFlit (port : Nat) (bytes : List Byte)
  /-- REPLAY (R460): A REPLAY control flit makes the transmitter resend from a sequence. -/
  | replay (port seq : Nat)
  /-- REPLAY_TIMEOUT (R460): No acknowledgement progress for 10 us triggers a resend. -/
  | replayTimeout (port : Nat)
  /-- CONTROL_FLIT_REPEAT (R457): Repeat an unanswered control flit. -/
  | controlFlitRepeat (port : Nat)
  /-- RESTRIPE (R461): The transmitter adopts a new stripe and resends from the named sequence. -/
  | restripe (port : Nat) (byTx : Bool) (stripe : BitVec 16) (seq : Nat)
  /-- RESTRIPE_ACK (R461): The receiver takes the new stripe into use. -/
  | restripeAck (port : Nat) (byTx : Bool)
  /-- WAKE_READY (R463): The transmitter starts the wider stripe after a wake. -/
  | wakeReady (port : Nat) (stripe : BitVec 16)
  /-- CHUNK_DONE (R458): The sender records a performed COPYR chunk. -/
  | chunkDone (port handle frame : Nat)
  /-- CLOSE (R501): A CLOSE from the peer fails the circuit with cause 7 and drains the port. -/
  | close (port : Nat)
  /-- PORT_FAIL (R462): A PORT_FAIL from the peer fails this end's port. -/
  | portFail (port : Nat)
  /-- LOSS_OF_LIGHT (R461): A receiver detects lost wavelengths and requests a restripe or fails the port. -/
  | lossOfLight (port : Nat) (lost : BitVec 16) (reverseLit : Bool)
  /-- RECEIVE_SILENCE (R462): No valid flit for 20 us on a LIVE port fails it. -/
  | receiveSilence (port : Nat)
  /-- WAKE_LOCK (R463): A waking channel's wavelengths lock and deskew. -/
  | wakeLock (port channel : Nat) (locked : BitVec 4)
  /-- WAKE_TIMEOUT (R466): A wake fails to lock in time and the channel returns to PARKED. -/
  | wakeTimeout (port channel : Nat)
  /-- LIGHT_RETURNS (R465): Light returns to a lost wavelength, which becomes PARKED. -/
  | lightReturns (port wl : Nat) (rx : Bool)
  /-- AUTO_WAKE (R464): The transmit queue reaches the threshold and parked channels wake. -/
  | autoWake (port : Nat)
  /-- LASER_REFRESH (R468): Refresh the laser registers. -/
  | laserRefresh (port channel : Nat) (x : LaserReading)
  /-- CONTROLLER_GRANT (R473): A GRANT from the OCS controller arrives at a requester or peer. -/
  | controllerGrant (m : CtlMsg)
  /-- CONTROLLER_DENY (R473): A DENY fails the circuit with cause 1. -/
  | controllerDeny (m : CtlMsg)
  /-- CONTROLLER_FAIL (R473): A FAIL fails the circuit with cause 5. -/
  | controllerFail (m : CtlMsg)
  /-- CONTROLLER_RELEASED (R476): A RELEASED answer frees a released circuit or fails a granted one. -/
  | controllerReleased (m : CtlMsg)
  /-- REQUEST_SILENCE (R473): A REQUESTED circuit hears nothing for 200 ms and fails. -/
  | requestSilence (port : Nat)
  /-- PORT_LOCKED (R474): The receiver locks on every trained wavelength. -/
  | portLocked (port : Nat)
  /-- LOCK_TIMEOUT (R474): No lock within 2 ms fails the circuit with cause 3. -/
  | lockTimeout (port : Nat)
  /-- PORT_TRAINED (R474): Deskew and equalisation complete; peer identity checked. -/
  | portTrained (port peer : Nat) (tx rx : BitVec 16)
  /-- PORT_LIVE (R474): The LIVE handshake completes and buckles are fastened. -/
  | portLive (port : Nat)
  /-- PORT_DRAINED (R474): A DRAINING port's replay buffer empties and it goes DARK. -/
  | portDrained (port : Nat)
  /-- DRAIN_TIMEOUT (R474): 50 us of draining elapse and the port goes DARK. -/
  | drainTimeout (port : Nat)
  /-- SCRIPT_START (R478): A queued SCRIPT node starts in a free script place. -/
  | scriptStart
  /-- CRATCH_WAIT_END (R481): A waiting Cratch word ends by its condition or time-out. -/
  | cratchWaitEnd (place : Nat)
  /-- END (R478): End the script and its node. -/
  | endScript
  /-- FULL_SERVICE (R441): The device leaves bring-up: stack groups, electrical lanes, optics, matrix words and the nominal clock become available and the device status word shows them. -/
  | fullService
  /-- QUEUE_RELEASE (R412): Firmware releases a DESTROYED queue, which returns to UNBOUND. -/
  | queueRelease (q : Nat)
deriving DecidableEq, Repr

end Sys2Proof
end

