-- ==== Sys2Proof/WellFormed.lean ====
section
/-! DEFINITION. Well-formed instructions: the values that the encodings of 01 to 16 accept. An ill-formed term stands for no word. -/

namespace Sys2Proof

/-- A legal register code (01 R34). -/
def Reg.wf : Reg → Bool
  | .v n => decide (n < 384)
  | .s n => decide (n < 64)

/-- A code that can hold 64 bits: a scalar, or an even vector code (01 R36). -/
def Reg.even : Reg → Bool
  | .v n => n % 2 == 0
  | .s _ => true

/-- A scalar code. -/
def Reg.isS : Reg → Bool
  | .v _ => false
  | .s _ => true

/-- The first register of a group of n (04 R120). -/
def Reg.group (n : Nat) : Reg → Bool
  | .v k => k % n == 0
  | .s _ => false

/-- A legal operand field (01 Table word-6). -/
def Opnd.wf : Opnd → Bool
  | .reg r => r.wf
  | .spec _ => true
  | .konst _ => true
  | .latch k => decide (1 ≤ k) && decide (k ≤ 8)

/-- A legal operand at a width: a 64-bit vector operand has an even code (01 R36). -/
def Opnd.w (o : Opnd) (wide : Bool) : Bool :=
  o.wf && (match o with
    | .reg r => !wide || r.even
    | _ => true)

/-- A scalar, or an even vector code: what the wide operands of IMADW and of the FP64 words must be (04 R124, R132). -/
def Opnd.pair : Opnd → Bool
  | .reg r => r.wf && r.even
  | _ => false

/-- A legal integer or untyped operand: $half is reserved (01 R33). -/
def Opnd.int (o : Opnd) (wide : Bool) : Bool := o.w wide && o != .konst .half

/-- An operand that is a register group (04 R120). -/
def Opnd.grp (n : Nat) : Opnd → Bool
  | .reg r => r.wf && r.group n
  | _ => false

/-- A scalar register operand. -/
def Opnd.isS : Opnd → Bool
  | .reg r => r.wf && r.isS
  | _ => false

/-- Neither a constant: what a bezel-4 operand may be (01 R33). -/
def Opnd.noKonst : Opnd → Bool
  | .konst _ => false
  | _ => true

/-- A legal destination at a width. -/
def Dst.w (d : Dst) (wide : Bool) : Bool := d.reg.wf && (!wide || d.reg.even)

/-- A legal vector destination. -/
def Dst.vec (d : Dst) (wide : Bool) : Bool := d.w wide && !d.reg.isS

/-- A legal destination group of n. -/
def Dst.grp (d : Dst) (n : Nat) : Bool := d.reg.wf && d.reg.group n

/-- A legal predicate destination. -/
def PDst.wf (p : PDst) : Bool := decide (p.p < 8)

/-- A legal guard. -/
def Guard.wf (g : Guard) : Bool := decide (g.p < 8)

/-- Whether a type is 64 bits wide. -/
def Ty.wide : Ty → Bool
  | .n64 | .i64 | .f64 => true
  | _ => false

/-- An integer type. -/
def Ty.isInt : Ty → Bool
  | .n32 | .i32 | .n64 | .i64 | .n16 | .i16 | .n8 | .i8 => true
  | _ => false

/-- Signed integers. -/
def Ty.sgn : Ty → Bool
  | .i32 | .i64 | .i16 | .i8 => true
  | _ => false

/-- The four types of 32 and 64 bits. -/
def Ty.int4 : Ty → Bool
  | .n32 | .i32 | .n64 | .i64 => true
  | _ => false

/-- n32 and n64. -/
def Ty.nat2 : Ty → Bool
  | .n32 | .n64 => true
  | _ => false

/-- The packed FP16 or BF16 type. -/
def Ty.half : Ty → Bool
  | .f16 | .bf16 => true
  | _ => false

/-- The two FP8 types. -/
def Ty.f8 : Ty → Bool
  | .f8m | .f8e => true
  | _ => false

/-- A two-operand integer word of given types; `sh` words read b at 32 bits (04 R117). -/
def Int2.ok (x : Int2) (ty : Ty → Bool) (sat sh : Bool) : Bool :=
  ty x.ty && (sat || !x.sat) && x.d.w x.ty.wide && x.a.int x.ty.wide && x.b.int (x.ty.wide && !sh)

/-- A one-operand integer word; POPC and CLZ write 32 bits (04 R123). -/
def Int1.ok (x : Int1) (ty : Ty → Bool) (sat d32 : Bool) : Bool :=
  ty x.ty && (sat || !x.sat) && x.d.w (x.ty.wide && !d32) && x.a.int x.ty.wide

/-- An operand of an FP32 word, or of an FP64 word (04 R132). -/
def Opnd.fp (o : Opnd) (wide : Bool) : Bool := if wide then o.pair else o.w false

/-- An FP word of two operands. -/
def F2.ok (x : F2) (wide rnd : Bool) : Bool := x.d.w wide && x.a.fp wide && x.b.fp wide && (rnd || x.rnd == .rn)

/-- An FP word of one operand. -/
def F1.ok (x : F1) (rnd : Bool) : Bool := x.d.w false && x.a.w false && (rnd || x.rnd == .rn)

/-- A fused FP word. -/
def F3.ok (x : F3) (wide : Bool) : Bool := x.d.w wide && x.a.fp wide && x.b.fp wide && x.c.fp wide

/-- A signed field of n bits. -/
def fits (n : Nat) (i : Int) : Bool := decide (-(2 ^ (n - 1) : Nat) ≤ i) && decide (i < (2 ^ (n - 1) : Nat))

/-- The bytes of an access size (01 Table word-5). -/
def MSize.bytes : MSize → Nat
  | .n8 | .i8 => 1
  | .n16 | .i16 => 2
  | .b32 => 4
  | .b64 => 8
  | .b128 => 16

/-- A destination that fits a load size (07 R258). -/
def Dst.size (d : Dst) (s : MSize) : Bool :=
  match s with
  | .b64 => d.w true
  | .b128 => d.grp 4
  | _ => d.w false

/-- A store data register that fits a size (07 R259). -/
def Reg.size (r : Reg) (s : MSize) : Bool :=
  r.wf && (match s with
    | .b64 => r.even
    | .b128 => r.group 4
    | _ => true)

/-- A store size (07 Table access-6). -/
def MSize.st : MSize → Bool
  | .i8 | .i16 => false
  | _ => true

/-- A window access size. -/
def MSize.win : MSize → Bool
  | .b32 | .b64 | .b128 => true
  | _ => false

/-- A memory operand: the base at 64 or 32 bits (07 R257). -/
def MemOpnd.wf (m : MemOpnd) (wide : Bool) : Bool := m.a.int wide && m.b.int false && fits 10 m.off

/-- Strong accesses are of scope block or wider and at most 8 bytes; .na is weak only (07 R256). -/
def strongOk (s : Option Scope) (na : Bool) (sz : MSize) : Bool :=
  match s with
  | none => true
  | some sc => sc != .warp && !na && sz != .b128

/-- LD. -/
def LoadArgs.ok (x : LoadArgs) (szs : MSize → Bool) (plain wide : Bool) : Bool :=
  x.d.size x.size && x.m.wf wide && szs x.size && strongOk x.strong x.na x.size && (!plain || (x.strong == none && !x.na))

/-- ST. -/
def StoreArgs.ok (x : StoreArgs) (szs : MSize → Bool) (plain wide : Bool) : Bool :=
  x.g.wf && x.src.size x.size && x.m.wf wide && szs x.size && strongOk x.strong x.na x.size &&
    (!plain || (x.strong == none && !x.na))

/-- An atomic: .cas names a group, .fadd takes floating-point constants (07 R265). -/
def AtomArgs.ok (x : AtomArgs) (cas fadd minmax spad : Bool) : Bool :=
  x.g.wf && x.d.w x.wide && x.a.int (!spad) && x.b.int false &&
    (if cas then x.c.grp (if x.wide then 4 else 2) else if fadd then x.c.w x.wide else x.c.int x.wide) &&
    (minmax || !x.sgn) && (!spad || x.scope == .warp || x.scope == .block)

/-- A remote atomic (15 Table link-4). -/
def RatomArgs.ok (x : RatomArgs) (cas fadd minmax : Bool) : Bool :=
  x.g.wf && x.d.w x.wide && x.a.int true && x.b.int false &&
    (if cas then x.c.grp (if x.wide then 4 else 2) else if fadd then x.c.w x.wide else x.c.int x.wide) && (minmax || !x.sgn)

/-- A copy word (09 Tables copy-1, copy-2). -/
def CopyArgs.ok (x : CopyArgs) (sh dz bk c : Bool) : Bool :=
  x.d.w false && decide (x.k < 16) && x.scope != .warp && (sh || !x.sh) && (dz || !x.dz) &&
    (match x.b with | none => true | some o => bk && o.int false) &&
    (match x.c with | none => !c | some o => c && o.int true)

/-- MPASS and MSPASS (10 Table pass-6). -/
def PassArgs.ok (x : PassArgs) (fmts : Nat) : Bool :=
  x.d.w false && decide (x.n < 8) && x.a.int true && decide (x.fmt < fmts) && !(x.trb && x.fmt == 7)

/-- Widths of the CSRs: `none` where a number is unassigned (14 Table context-9). RCLOSE is write-only: it reads as zero (00 R16). -/
def csrWide (n : Nat) : Option Bool :=
  if n = 0 then some false
  else if n = 1 ∨ n = 2 ∨ n = 3 then some true
  else if n = 8 ∨ n = 9 ∨ n = 10 then some false
  else if n = 12 ∨ n = 13 ∨ n = 14 ∨ n = 16 ∨ n = 17 ∨ n = 18 then some true
  else if n = 19 then some false
  else if n = 20 then some true
  else if n = 24 ∨ n = 25 ∨ n = 26 then some false
  else if n = 32 ∨ n = 33 then some true
  else if n = 0x100 ∨ n = 0x101 then some false
  else if 0x108 ≤ n ∧ n ≤ 0x110 then some false
  else none

/-- CSRs with write access (14 Table context-9). -/
def csrWritable (n : Nat) : Bool :=
  n == 1 || n == 2 || n == 3 || n == 32 || n == 0x101 || (decide (0x108 ≤ n) && decide (n ≤ 0x110))

/-- A bar count (08 Table barrier-4). -/
def BarCount.ok (n : BarCount) (lim : Nat) : Bool :=
  match n with
  | .imm k => decide (k ≤ lim)
  | .opnd a => a.int false

/-- The options each P opcode defines (01 Table word-11). -/
def POp.optOk (o : POp) (opt : Nat) : Bool :=
  match o with
  | .iaddi => decide (opt < 32)
  | .imin | .imax => decide (opt < 2)
  | .fadd | .fsub | .fmul => decide (opt < 8)
  | .fmin | .fmax => opt == 0 || opt == 4
  | .hadd2 | .hmul2 => decide (opt < 16)
  | _ => opt == 0

/-- Opcodes whose immediate is an FP8M value. -/
def POp.fp : POp → Bool
  | .fadd | .fsub | .fmul | .fmin | .fmax | .hadd2 | .hmul2 => true
  | _ => false

/-- A legal P half (01 R38-R42, Table word-13). -/
def pHalfOk (o : POp) (h : PArgs) : Bool :=
  decide (h.d < 192) && o.optOk h.opt &&
    (match h.s with
      | .reg f => decide (f < 192) && o != .iaddi
      | .latch k => decide (1 ≤ k) && decide (k ≤ 8) && o != .iaddi && o != .nop
      | .imm n => decide (n < 256) && o != .nop && !(o.fp && (n == 0x7F || n == 0xFF))) &&
    (o != .nop || (h.d == 0 && h.s == .reg 0 && !h.nowb))

/-- A step of a REP field: four bits, signed; the step of an unnamed field stands in `stray`. -/
def repStepOk (s : Option Int) (stray : Int) : Bool :=
  match s with
  | some i => fits 4 i && stray == 0
  | none => fits 4 stray

/-- A vector register number of the NMU. -/
def g5 (n : Nat) : Bool := decide (n < 32)
/-- An address register or q register number. -/
def a4 (n : Nat) : Bool := decide (n < 16)
/-- A lane count of the NMU. -/
def lanesOk (n : Nat) : Bool := decide (1 ≤ n) && decide (n ≤ 256)

/-- The instructions that a word can be: every field at a value its encoding admits. Moves without a word are always well formed. -/
def Instr.wf : Instr → Bool
  | .iadd x | .isub x => x.ok Ty.isInt true false
  | .imul x => x.ok Ty.int4 true false
  | .imulh x => x.ok Ty.int4 false false
  | .imin x | .imax x => x.ok Ty.isInt false false
  | .imad x => x.ty.int4 && x.d.w x.ty.wide && x.a.int x.ty.wide && x.b.int x.ty.wide && x.c.int x.ty.wide
  | .imadw x => (x.ty == .n32 || x.ty == .i32) && x.d.w true && x.a.int false && x.b.int false && x.c.pair
  | .iabs x => x.ok (fun t => t.isInt && t.sgn) true false
  | .and x | .or x | .xor x | .andn x => x.ok Ty.nat2 false false
  | .shl x | .shr x | .rotr x => x.ok Ty.nat2 false true
  | .sar x => x.ok (fun t => t == .i32 || t == .i64) false true
  | .popc x | .clz x => x.ok Ty.nat2 false true
  | .brev x => x.ok Ty.nat2 false false
  | .bfx x => x.ok (fun t => t == .n32 || t == .i32) false false
  | .bfi x => x.ty == .n32 && !x.sat && x.d.w false && x.a.int false && x.b.int false && x.c.int false
  | .lea x => (x.ty == .n32 || x.ty == .i32) && decide (x.sh < 16) && x.d.w true && x.a.int true && x.b.int false
  | .icmp x => x.ty.isInt && x.pd.wf && x.a.int x.ty.wide && x.b.int x.ty.wide
  | .sel x => x.g.wf && x.d.w x.wide && x.a.int x.wide && x.b.int x.wide
  | .mov x => x.d.w x.wide && x.a.int x.wide
  | .movi x => x.d.w (x.kind != .plain)
  | .movs x => x.d.w x.wide && x.d.reg.isS && x.a.int x.wide && x.b.int false
  | .movsSl x => x.d.vec x.wide && x.a.isS && x.b.int false
  | .plog x => x.pd.wf && decide (x.pa < 8) && decide (x.pb < 8) && decide (x.pc < 8) && decide (x.table < 256)
  | .fadd x | .fsub x | .fmul x | .fdiv x => x.ok false true
  | .ffma x => x.ok false
  | .fmin x | .fmax x => x.ok false false
  | .fcmp x => x.pd.wf && x.a.w false && x.b.w false
  | .fcls x => x.pd.wf && decide (x.mask < 512) && (x.ty == .f32 || x.ty == .f64 || x.ty.half) && x.a.w x.ty.wide
  | .hadd2 x | .hmul2 x => x.d.w false && x.a.w false && x.b.w false
  | .hfma2 x => x.d.w false && x.a.w false && x.b.w false && x.c.w false
  | .dadd x | .dmul x => x.ok true true
  | .dfma x => x.ok true
  | .dcmp x => x.pd.wf && x.a.w true && x.b.w true
  | .frcp x | .fsqt x => x.ok true
  | .frsq x | .fex2 x | .flg2 x | .fsin x | .fcos x | .ftnh x => x.ok false
  | .cvt x =>
    x.dty != .bz4 && x.sty != .bz4 && x.d.w x.dty.wide && (if x.sty.isInt then x.a.int x.sty.wide else x.a.w x.sty.wide) &&
      (!x.sat || (if x.dty.isInt then x.sty.isInt else x.dty.f8)) &&
      (!x.ftz || !(x.dty.isInt || x.dty.f8) || !(x.sty.isInt || x.sty.f8))
  | .cvts x => (x.dty.half || x.dty.f8) && x.sty == .f32 && x.d.w false && x.a.grp (if x.dty.half then 2 else 4) && x.b.w false &&
      (!x.nsat || x.dty.f8)
  | .scsel x => (x.fmt == .f16 || x.fmt == .f8m || x.fmt == .f8e || x.fmt == .bz4) && decide (x.h < 8) && decide (x.ulim ≤ 32) &&
      x.d.w false && x.a.int false
  | .efq x => (x.ty.half || x.ty.f8) && decide (x.pos < (if x.ty.half then 2 else 4)) && x.d.w false && x.a.w false && x.b.w false &&
      decide (x.c < 384) && x.d.reg != .v x.c && (!x.nsat || x.ty.f8)
  | .bzpk x => x.dty == .bz4 && x.sty == .f32 && x.d.w false && x.a.grp 8 && x.b.w false
  | .bzup x => (x.dty == .f32 || x.dty.half) && x.sty == .bz4 && x.d.grp (if x.dty == .f32 then 8 else 4) && x.a.wf && x.a.noKonst
  | .f8pk x => x.dty.f8 && x.sty.half && x.d.w false && x.a.w false && x.b.w false
  | .f8up x => (x.dty == .f32 || x.dty.half) && x.sty.f8 && x.d.grp (if x.dty == .f32 then 4 else 2) && x.a.wf
  | .scacc x => x.ok false
  | .shfl x => x.d.w x.wide && x.a.int x.wide && x.b.int false
  | .shfx x => x.d.w false && x.a.int false && decide (x.pattern < 256)
  | .bcst x => x.d.w x.wide && x.a.int x.wide && x.b.int false
  | .vote x => match x with
    | .any pd pa => pd.wf && decide (pa < 8)
    | .all pd pa => pd.wf && decide (pa < 8)
    | .ballot d pa => d.w true && decide (pa < 8)
    | .eq pd a wide => pd.wf && a.int wide
  | .redt x => x.d.w false && x.d.reg.isS && (x.ty.int4 || x.ty == .f32 || x.ty == .f64) && !x.excl &&
      (if x.ty.isInt then x.a.int x.ty.wide else x.a.w x.ty.wide && (x.op == .add || x.op == .min || x.op == .max))
  | .scan x => x.d.vec x.ty.wide && (x.ty.int4 || x.ty == .f32 || x.ty == .f64) &&
      (if x.ty.isInt then x.a.int x.ty.wide else x.a.w x.ty.wide && (x.op == .add || x.op == .min || x.op == .max))
  | .redx x => x.a.w false && (match x.b with | none => true | some b => b.w false)
  | .lacr x => x.d.w x.wide
  | .lacz => true
  | .braAny g dist | .braAll g dist => g.wf && fits 18 dist
  | .brx a off => a.int true && fits 18 off
  | .call d dist => decide (d < 64) && fits 18 dist
  | .ret a => a.int true
  | .regang m => match m with | .imm k => decide (k < 65536) | .sreg n => decide (n < 64)
  | .loopOperand a off => a.int false && decide (1 ≤ off) && decide (off < 262144)
  | .loopImmediate n off => decide (n < 65536) && decide (1 ≤ off) && decide (off < 65536)
  | .yield | .nop | .exit => true
  | .trap c | .bkpt c => decide (c < 262144)
  | .racq n => decide (1 ≤ n) && decide (n ≤ 4)
  | .rrel n => decide (n ≤ 4)
  | .rep x => decide (x.count < 256) && repStepOk x.d x.strayD && repStepOk x.a x.strayA && repStepOk x.b x.strayB &&
      repStepOk x.c x.strayC
  | .pNop h o => pHalfOk .nop h && pHalfOk o.op o.args
  | .pMov h o => pHalfOk .mov h && pHalfOk o.op o.args
  | .pIadd h o => pHalfOk .iadd h && pHalfOk o.op o.args
  | .pIsub h o => pHalfOk .isub h && pHalfOk o.op o.args
  | .pImul h o => pHalfOk .imul h && pHalfOk o.op o.args
  | .pIaddi h o => pHalfOk .iaddi h && pHalfOk o.op o.args
  | .pAnd h o => pHalfOk .and h && pHalfOk o.op o.args
  | .pOr h o => pHalfOk .or h && pHalfOk o.op o.args
  | .pXor h o => pHalfOk .xor h && pHalfOk o.op o.args
  | .pAndn h o => pHalfOk .andn h && pHalfOk o.op o.args
  | .pShl h o => pHalfOk .shl h && pHalfOk o.op o.args
  | .pShr h o => pHalfOk .shr h && pHalfOk o.op o.args
  | .pSar h o => pHalfOk .sar h && pHalfOk o.op o.args
  | .pImin h o => pHalfOk .imin h && pHalfOk o.op o.args
  | .pImax h o => pHalfOk .imax h && pHalfOk o.op o.args
  | .pRotr h o => pHalfOk .rotr h && pHalfOk o.op o.args
  | .pFadd h o => pHalfOk .fadd h && pHalfOk o.op o.args
  | .pFsub h o => pHalfOk .fsub h && pHalfOk o.op o.args
  | .pFmul h o => pHalfOk .fmul h && pHalfOk o.op o.args
  | .pFmin h o => pHalfOk .fmin h && pHalfOk o.op o.args
  | .pFmax h o => pHalfOk .fmax h && pHalfOk o.op o.args
  | .pHadd2 h o => pHalfOk .hadd2 h && pHalfOk o.op o.args
  | .pHmul2 h o => pHalfOk .hmul2 h && pHalfOk o.op o.args
  | .pClz h o => pHalfOk .clz h && pHalfOk o.op o.args
  | .ld x => x.ok (fun _ => true) false true
  | .st x => x.ok MSize.st false true
  | .lds x | .ldc x => x.ok (fun _ => true) true false
  | .sts x => x.ok MSize.st true false
  | .ldw x => x.ok MSize.win true true
  | .stw x => x.ok MSize.win true true
  | .pref x | .cflsh x => x.m.wf true
  | .cinv x => x.m.wf true && !x.opt
  | .fence _ _ => true
  | .waitc m t => decide (1 ≤ m) && decide (m < 64) && (match t with | .imm n => decide (n < 64) | .opnd a => a.int false)
  | .atomAdd x | .atomAnd x | .atomOr x | .atomXor x | .atomExch x => x.ok false false false false
  | .atomMin x | .atomMax x => x.ok false false true false
  | .atomCas x => x.ok true false false false
  | .atomFadd x => x.ok false true false false
  | .atomsAdd x | .atomsAnd x | .atomsOr x | .atomsXor x | .atomsExch x => x.ok false false false true
  | .atomsMin x | .atomsMax x => x.ok false false true true
  | .atomsCas x => x.ok true false false true
  | .atomsFadd x => x.ok false true false true
  | .rld x => x.d.size x.size && x.size != .b128 && x.a.int true && x.b.int false && fits 10 x.off
  | .rst x => x.g.wf && x.src.size x.size && x.size.st && x.size != .b128 && x.a.int true && x.b.int false && fits 10 x.off
  | .rstf x => x.g.wf && x.src.size x.size && x.size.st && x.size != .b128 && x.a.int true && x.b.int false && x.c.int true
  | .rfence => true
  | .ratomAdd x | .ratomAnd x | .ratomOr x | .ratomXor x | .ratomExch x => x.ok false false false
  | .ratomMin x | .ratomMax x => x.ok false false true
  | .ratomCas x => x.ok true false false
  | .ratomFadd x => x.ok false true false
  | .copy x => x.ok true true true false
  | .copy2 x => x.ok true false true true
  | .copyf x => x.ok false false false false
  | .copyw x => x.ok false false false false
  | .copyr x => x.ok true true true true
  | .cprog d a => d.w true && a.int false
  | .ckill d a => d.w false && a.int false
  | .publ d a => d.w true && a.int false
  | .harn n a => decide (n < 8) && a.int true
  | .mpass x => x.ok 8
  | .mspass x => x.ok 7
  | .mlut x => x.d.w false && x.a.int true && decide (x.fmt < 2)
  | .accrd x | .accwr x => decide (x.v < 384) && decide (x.t < 8) && decide (x.row < 128) && decide (x.cb < 16)
  | .accz k t => decide (t < 8) && (k == .f32 || t % 2 == 0)
  | .mprog d a => !d.nowb && d.w true && a.int false
  | .mprogW d a b => !d.nowb && d.w true && a.int false && b.int true
  | .skupd x => decide (x.a < 8) && x.b.w false && x.c.int x.k64
  | .skqry x => x.d.w false && decide (x.a < 8) && x.c.int x.k64
  | .skadd a b => decide (a < 8) && decide (b < 8)
  | .skclr a => decide (a < 8)
  | .tdec a b => a.int false && b.int false
  | .twait p a b c => decide (p < 8) && a.int false && b.int false && c.int false
  | .flgw x => decide (x.p < 8) && x.a.int true && x.b.int x.wide && x.c.int false
  | .bkw p a c => decide (p < 8) && a.int false && c.int false
  | .bkarm d a b => d.w false && a.int false && b.int true
  | .bkarmOff d a => d.w false && a.int false
  | .lnch d a b => d.w false && a.int true && b.int false
  | .reln x => x.d.w false && x.a.int true && x.b.int true && (x.kind != .none || x.b == .reg (.v 0))
  | .csrr d n => !d.nowb && decide (n < 4096) && (match csrWide n with | none => false | some w => d.w w)
  | .csrw n a => decide (n < 4096) && csrWritable n && (match csrWide n with | none => false | some w => a.int w)
  | .tlbiVa n => decide (n < 64)
  | .tlbiCtx | .tlbiAll | .halt | .haltDev => true
  | .fret d a b => d.w false && a.int false && b.int true
  | .fctxBind d a b | .fctxUnbind d a b | .fswpOut d a b | .fswpIn d a b => d.w false && a.int false && b.int true
  | .bar id n => decide (id < 16) && n.ok 16
  | .bara d id n => d.w false && decide (id < 16) && n.ok 16
  | .barw a id clu => a.int false && decide (id < (if clu then 4 else 16))
  | .cbar d id n => d.w false && decide (id < 4) && n.ok 64
  | .nldv x | .nstv x => g5 x.g && a4 x.a && lanesOk x.n
  | .nadd x | .nsub x | .nmul x => g5 x.gd && g5 x.ga && g5 x.gb
  | .nfma x => g5 x.gd && g5 x.ga && g5 x.gb && g5 x.gc
  | .nmin x | .nmax x => g5 x.gd && g5 x.ga && g5 x.gb && x.rnd == .rn
  | .nrsq gd ga => g5 gd && g5 ga
  | .ncvt gd ga _ _ => g5 gd && g5 ga
  | .nsku g ak ad n | .nskq g ak ad n => g5 g && a4 ak && a4 ad && lanesOk n
  | .nska ad as => a4 ad && a4 as
  | .nskc ad => a4 ad
  | .nsetImm gd imm => g5 gd && decide (imm < 2 ^ 20)
  | .nsetReg gd a => g5 gd && a4 a
  | .naddi ad as sh imm => a4 ad && a4 as && decide (sh < 4) && decide (imm < 65536)
  | .nloopImm c off => decide (c < 8192) && decide (1 ≤ off) && decide (off < 4096)
  | .nloopReg a off => a4 a && decide (1 ≤ off) && decide (off < 4096)
  | .nbra c a off => a4 a && decide (off < 65536) && (c != .always || a == 0)
  | .nwait a b => a4 a && a4 b
  | .nsig a => a4 a
  | .movqReg a b => a4 a && a4 b
  | .movqImm a i => a4 a && fits 21 i
  | .addqReg a b c | .subqReg a b c => a4 a && a4 b && a4 c
  | .addqImm a b i | .subqImm a b i => a4 a && a4 b && fits 17 i
  | .cmpqReg _ a b => a4 a && a4 b
  | .cmpqImm _ a i => a4 a && fits 18 i
  | .brq _ a off => a4 a && fits 16 off
  | .brc _ off => fits 16 off
  | .creq a b | .cstat a b | .park a b | .wake a b | .setw a b | .msg a b | .tsig a b | .buck a b => a4 a && a4 b
  | .cwait _ a b c | .mrcv a b c | .twt a b c => a4 a && a4 b && a4 c
  | .crel a | .buckOff a | .time a | .dlyReg a | .evt a => a4 a
  | .dlyImm us => decide (us < 2 ^ 21)
  | _ => true

end Sys2Proof
end

