-- ==== Sys2Proof/Decode.lean ====
section
/-! DEFINITION. Decoding: from the bits of a word to an instruction, or a refusal by name, total on any bits; and the encoder, written
from the same tables of the spec. A word is legal when the instruction read from its fields is well formed and encodes back to the
very word: every bit that the entry does not use is then zero. -/

namespace Sys2Proof

open Machine

/-! ## Fields -/

/-- Type codes (01 Table word-4). -/
def tyCode : Ty → Nat
  | .n32 => 0 | .i32 => 1 | .n64 => 2 | .i64 => 3 | .n16 => 4 | .i16 => 5 | .n8 => 6 | .i8 => 7
  | .f32 => 8 | .f64 => 9 | .f16 => 10 | .bf16 => 11 | .f8m => 12 | .f8e => 13 | .bz4 => 14

/-- The type of a code; 0xF is reserved. -/
def tyOf (n : Nat) : Option Ty :=
  [Ty.n32, .i32, .n64, .i64, .n16, .i16, .n8, .i8, .f32, .f64, .f16, .bf16, .f8m, .f8e, .bz4][n]?

/-- Rounding codes (01 Table word-4). -/
def rndCode : Rnd → Nat
  | .rn => 0 | .rz => 1 | .rp => 2 | .rm => 3

/-- The mode of a code. -/
def rndOf (n : Nat) : Rnd := if n = 0 then .rn else if n = 1 then .rz else if n = 2 then .rp else .rm

/-- Register codes (01 R34). -/
def regCode : Reg → Nat
  | .v n => n
  | .s n => 384 + n

/-- The register of a code below 448. -/
def regOf (n : Nat) : Option Reg := if n < 384 then some (.v n) else if n < 448 then some (.s (n - 384)) else none

/-- Codes of the specials, from 448 (01 Table word-7). -/
def specCode : Special → Nat
  | .lane => 0 | .slice => 1 | .warp => 2 | .block => 3 | .clu => 4 | .stk => 5 | .dev => 6 | .width => 7 | .core => 8
  | .gang => 9 | .nlane => 10 | .clock => 11 | .gen => 12

/-- The special of a code less 448. -/
def specOf (n : Nat) : Option Special :=
  [Special.lane, .slice, .warp, .block, .clu, .stk, .dev, .width, .core, .gang, .nlane, .clock, .gen][n]?

/-- Codes of the constants, from 464 (01 Table word-8). -/
def konstCode : Konst → Nat
  | .zero => 0 | .one => 1 | .mone => 2 | .two => 3 | .half => 4

/-- The constant of a code less 464. -/
def konstOf (n : Nat) : Option Konst := [Konst.zero, .one, .mone, .two, .half][n]?

/-- Operand field codes (01 Table word-6). -/
def opndCode : Opnd → Nat
  | .reg r => regCode r
  | .spec x => 448 + specCode x
  | .konst k => 464 + konstCode k
  | .latch k => 512 + (k - 1)

/-- The operand of a field; reserved codes have none. -/
def opndOf (n : Nat) : Option Opnd :=
  if 512 ≤ n then some (.latch (n % 8 + 1))
  else if n < 448 then (regOf n).map .reg
  else if n < 464 then (specOf (n - 448)).map .spec
  else (konstOf (n - 464)).map .konst

/-- Size codes (01 Table word-5). -/
def sizeCode : MSize → Nat
  | .n8 => 0 | .i8 => 1 | .n16 => 2 | .i16 => 3 | .b32 => 4 | .b64 => 5 | .b128 => 6

/-- The size of a code. -/
def sizeOf' (n : Nat) : Option MSize := [MSize.n8, .i8, .n16, .i16, .b32, .b64, .b128][n]?

/-- Scope codes (07 Table access-3). -/
def scopeCode : Scope → Nat
  | .warp => 0 | .block => 1 | .clu => 2 | .stk => 3 | .dev => 4 | .domain => 5

/-- The scope of a code. -/
def scopeOf (n : Nat) : Option Scope := [Scope.warp, .block, .clu, .stk, .dev, .domain][n]?

def ccCode : Cc → Nat
  | .eq => 0 | .ne => 1 | .lt => 2 | .le => 3 | .gt => 4 | .ge => 5
def ccOf (n : Nat) : Option Cc := [Cc.eq, .ne, .lt, .le, .gt, .ge][n]?

def fccCode : FCc → Nat
  | .eq => 0 | .ne => 1 | .lt => 2 | .le => 3 | .gt => 4 | .ge => 5 | .num => 6 | .nan => 7
def fccOf (n : Nat) : Option FCc := [FCc.eq, .ne, .lt, .le, .gt, .ge, .num, .nan][n]?

def redCode : RedOp → Nat
  | .add => 0 | .min => 1 | .max => 2 | .and => 3 | .or => 4 | .xor => 5
def redOf (n : Nat) : Option RedOp := [RedOp.add, .min, .max, .and, .or, .xor][n]?

def shflCode : ShflMode → Nat
  | .idx => 0 | .up => 1 | .down => 2 | .xor => 3
def shflOf (n : Nat) : Option ShflMode := [ShflMode.idx, .up, .down, .xor][n]?

def segCode : Seg → Nat
  | .warp => 0 | .s4 => 1 | .s8 => 2 | .s16 => 3 | .s32 => 4
def segOf (n : Nat) : Option Seg := [Seg.warp, .s4, .s8, .s16, .s32][n]?

def copyKindCode : CopyKind → Nat
  | .ic => 0 | .node => 1 | .sig => 2
def copyKindOf (n : Nat) : Option CopyKind := [CopyKind.ic, .node, .sig][n]?

def flgCode : FlgCc → Nat
  | .eq => 0 | .ne => 1 | .geu => 2 | .gtu => 3 | .ges => 4 | .gts => 5
def flgOf (n : Nat) : Option FlgCc := [FlgCc.eq, .ne, .geu, .gtu, .ges, .gts][n]?

def relnCode : RelnKind → Nat
  | .none => 0 | .node => 1 | .sig => 2
def relnOf (n : Nat) : Option RelnKind := [RelnKind.none, .node, .sig][n]?

def fenceCode : FenceKind → Nat
  | .full => 0 | .rel => 1 | .acq => 2
def fenceOf (n : Nat) : Option FenceKind := [FenceKind.full, .rel, .acq][n]?

def accCode : AccKind → Nat
  | .f32 => 0 | .i48 => 1 | .b48 => 2
def accOf (n : Nat) : Option AccKind := [AccKind.f32, .i48, .b48][n]?

def moviCode : MoviKind → Nat
  | .plain => 0 | .sx => 1 | .hi => 2
def moviOf (n : Nat) : Option MoviKind := [MoviKind.plain, .sx, .hi][n]?

def ncvtCode : NcvtKind → Nat
  | .i32f32 => 0 | .f32i32 => 1 | .bf16f32 => 2 | .f32bf16 => 3 | .f16f32 => 4 | .f32f16 => 5
def ncvtOf (n : Nat) : Option NcvtKind := [NcvtKind.i32f32, .f32i32, .bf16f32, .f32bf16, .f16f32, .f32f16][n]?

def nbraCode : NbraCond → Nat
  | .always => 0 | .z => 1 | .nz => 2
def nbraOf (n : Nat) : Option NbraCond := [NbraCond.always, .z, .nz][n]?

def qcCode : QCond → Nat
  | .eq => 0 | .ne => 1 | .ltu => 2 | .leu => 3 | .gtu => 4 | .geu => 5
def qcOf (n : Nat) : Option QCond := [QCond.eq, .ne, .ltu, .leu, .gtu, .geu][n]?

def brcCode : BrcCond → Nat
  | .always => 0 | .c => 1 | .nc => 2
def brcOf (n : Nat) : Option BrcCond := [BrcCond.always, .c, .nc][n]?

def tgtCode : CwaitTarget → Nat
  | .live => 0 | .grant => 1 | .free => 2
def tgtOf (n : Nat) : Option CwaitTarget := [CwaitTarget.live, .grant, .free][n]?

def popCode : POp → Nat
  | .nop => 0 | .mov => 1 | .iadd => 2 | .isub => 3 | .imul => 4 | .iaddi => 5 | .and => 6 | .or => 7 | .xor => 8 | .andn => 9
  | .shl => 10 | .shr => 11 | .sar => 12 | .imin => 13 | .imax => 14 | .rotr => 15 | .fadd => 16 | .fsub => 17 | .fmul => 18
  | .fmin => 19 | .fmax => 20 | .hadd2 => 21 | .hmul2 => 22 | .clz => 23
def popOf (n : Nat) : Option POp :=
  [POp.nop, .mov, .iadd, .isub, .imul, .iaddi, .and, .or, .xor, .andn, .shl, .shr, .sar, .imin, .imax, .rotr, .fadd, .fsub, .fmul,
    .fmin, .fmax, .hadd2, .hmul2, .clz][n]?

/-! ## Assembling words -/

/-- An F word (01 Table word-2). -/
def fWord (op md nb d a b tail : Nat) : Nat :=
  op * 2 ^ 52 + md * 2 ^ 48 + nb * 2 ^ 47 + d * 2 ^ 38 + a * 2 ^ 28 + b * 2 ^ 18 + tail

/-- An X word (01 Table word-9). -/
def xWord (op nb d imm ctl : Nat) : Nat := 2 ^ 63 + op * 2 ^ 52 + nb * 2 ^ 47 + d * 2 ^ 38 + imm * 2 ^ 6 + ctl

/-- The arithmetic control byte (01 Table word-4). -/
def raCtl (ty : Ty) (rnd : Rnd) (sat ftz : Bool) : Nat := tyCode ty * 16 + rndCode rnd * 4 + b2n sat * 2 + b2n ftz

/-- The memory control byte (01 Table word-5). -/
def mCtl (sz : Nat) (strong : Option Scope) (opt : Bool) : Nat :=
  sz * 32 + (match strong with | none => 0 | some s => 16 + scopeCode s * 2) + b2n opt

/-- The guard as a mod field (01 R29). -/
def guardCode (g : Guard) : Nat := b2n g.neg * 8 + g.p

/-- A P half (01 Table word-10). -/
def pHalfWord (op : POp) (h : PArgs) : Nat :=
  popCode op * 2 ^ 24 + h.d * 2 ^ 16 +
    (match h.s with
      | .reg f => f * 2 ^ 8
      | .latch k => (k - 1) * 2 ^ 8 + 64
      | .imm n => n * 2 ^ 8 + 32) + b2n h.nowb * 128 + h.opt

/-- A P word. -/
def pWord (op : POp) (h : PArgs) (o : PHalf) : Nat := 2 ^ 62 + pHalfWord op h * 2 ^ 31 + pHalfWord o.op o.args

/-- One step of a REP word: the named step, or the stray one. -/
def repStep (s : Option Int) (stray : Int) : Nat := ofInt 4 (s.getD stray)


/-- The word of a core instruction (01 to 16, one line per encoding table row); 0 for what is no core word. -/
def encodeCore : Instr → Nat
  | .iadd x => fWord 0x1 0 (b2n x.d.nowb) (regCode x.d.reg) (opndCode x.a) (opndCode x.b) (raCtl x.ty .rn x.sat false)
  | .isub x => fWord 0x2 0 (b2n x.d.nowb) (regCode x.d.reg) (opndCode x.a) (opndCode x.b) (raCtl x.ty .rn x.sat false)
  | .imul x => fWord 0x3 0 (b2n x.d.nowb) (regCode x.d.reg) (opndCode x.a) (opndCode x.b) (raCtl x.ty .rn x.sat false)
  | .imulh x => fWord 0x4 0 (b2n x.d.nowb) (regCode x.d.reg) (opndCode x.a) (opndCode x.b) (raCtl x.ty .rn x.sat false)
  | .imin x => fWord 0x7 0 (b2n x.d.nowb) (regCode x.d.reg) (opndCode x.a) (opndCode x.b) (raCtl x.ty .rn x.sat false)
  | .imax x => fWord 0x8 0 (b2n x.d.nowb) (regCode x.d.reg) (opndCode x.a) (opndCode x.b) (raCtl x.ty .rn x.sat false)
  | .and x => fWord 0xa 0 (b2n x.d.nowb) (regCode x.d.reg) (opndCode x.a) (opndCode x.b) (raCtl x.ty .rn x.sat false)
  | .or x => fWord 0xb 0 (b2n x.d.nowb) (regCode x.d.reg) (opndCode x.a) (opndCode x.b) (raCtl x.ty .rn x.sat false)
  | .xor x => fWord 0xc 0 (b2n x.d.nowb) (regCode x.d.reg) (opndCode x.a) (opndCode x.b) (raCtl x.ty .rn x.sat false)
  | .andn x => fWord 0xd 0 (b2n x.d.nowb) (regCode x.d.reg) (opndCode x.a) (opndCode x.b) (raCtl x.ty .rn x.sat false)
  | .shl x => fWord 0xe 0 (b2n x.d.nowb) (regCode x.d.reg) (opndCode x.a) (opndCode x.b) (raCtl x.ty .rn x.sat false)
  | .shr x => fWord 0xf 0 (b2n x.d.nowb) (regCode x.d.reg) (opndCode x.a) (opndCode x.b) (raCtl x.ty .rn x.sat false)
  | .sar x => fWord 0x10 0 (b2n x.d.nowb) (regCode x.d.reg) (opndCode x.a) (opndCode x.b) (raCtl x.ty .rn x.sat false)
  | .rotr x => fWord 0x11 0 (b2n x.d.nowb) (regCode x.d.reg) (opndCode x.a) (opndCode x.b) (raCtl x.ty .rn x.sat false)
  | .bfx x => fWord 0x15 0 (b2n x.d.nowb) (regCode x.d.reg) (opndCode x.a) (opndCode x.b) (raCtl x.ty .rn x.sat false)
  | .iabs x => fWord 0x9 0 (b2n x.d.nowb) (regCode x.d.reg) (opndCode x.a) 0 (raCtl x.ty .rn x.sat false)
  | .popc x => fWord 0x12 0 (b2n x.d.nowb) (regCode x.d.reg) (opndCode x.a) 0 (raCtl x.ty .rn x.sat false)
  | .clz x => fWord 0x13 0 (b2n x.d.nowb) (regCode x.d.reg) (opndCode x.a) 0 (raCtl x.ty .rn x.sat false)
  | .brev x => fWord 0x14 0 (b2n x.d.nowb) (regCode x.d.reg) (opndCode x.a) 0 (raCtl x.ty .rn x.sat false)
  | .imad x => fWord 0x5 0 (b2n x.d.nowb) (regCode x.d.reg) (opndCode x.a) (opndCode x.b) (opndCode x.c * 256 + raCtl x.ty .rn x.sat false)
  | .imadw x => fWord 0x6 0 (b2n x.d.nowb) (regCode x.d.reg) (opndCode x.a) (opndCode x.b) (opndCode x.c * 256 + raCtl x.ty .rn x.sat false)
  | .bfi x => fWord 0x16 0 (b2n x.d.nowb) (regCode x.d.reg) (opndCode x.a) (opndCode x.b) (opndCode x.c * 256 + raCtl x.ty .rn x.sat false)
  | .lea x => fWord 0x17 x.sh (b2n x.d.nowb) (regCode x.d.reg) (opndCode x.a) (opndCode x.b) (raCtl x.ty .rn false false)
  | .icmp x => fWord 0x18 0 (b2n x.pd.nowb) x.pd.p (opndCode x.a) (opndCode x.b) (tyCode x.ty * 16 + ccCode x.cc * 2)
  | .plog x => fWord 0x19 0 (b2n x.pd.nowb) x.pd.p x.pa x.pb (x.pc * 256 + x.table)
  | .sel x => fWord 0x1A (guardCode x.g) (b2n x.d.nowb) (regCode x.d.reg) (opndCode x.a) (opndCode x.b) (b2n x.wide * 32)
  | .mov x => fWord 0x1B 0 (b2n x.d.nowb) (regCode x.d.reg) (opndCode x.a) 0 (b2n x.wide * 32)
  | .movs x => fWord 0x1C 0 (b2n x.d.nowb) (regCode x.d.reg) (opndCode x.a) (opndCode x.b) (b2n x.wide * 32)
  | .movsSl x => fWord 0x1C 0 (b2n x.d.nowb) (regCode x.d.reg) (opndCode x.a) (opndCode x.b) (64 + b2n x.wide * 32)
  | .movi x => xWord 0x20 (b2n x.d.nowb) (regCode x.d.reg) x.imm.toNat (moviCode x.kind)
  | .fadd x => fWord 0x80 0 (b2n x.d.nowb) (regCode x.d.reg) (opndCode x.a) (opndCode x.b) (raCtl .f32 x.rnd false x.ftz)
  | .fsub x => fWord 0x81 0 (b2n x.d.nowb) (regCode x.d.reg) (opndCode x.a) (opndCode x.b) (raCtl .f32 x.rnd false x.ftz)
  | .fmul x => fWord 0x82 0 (b2n x.d.nowb) (regCode x.d.reg) (opndCode x.a) (opndCode x.b) (raCtl .f32 x.rnd false x.ftz)
  | .fmin x => fWord 0x84 0 (b2n x.d.nowb) (regCode x.d.reg) (opndCode x.a) (opndCode x.b) (raCtl .f32 x.rnd false x.ftz)
  | .fmax x => fWord 0x85 0 (b2n x.d.nowb) (regCode x.d.reg) (opndCode x.a) (opndCode x.b) (raCtl .f32 x.rnd false x.ftz)
  | .fdiv x => fWord 0xa3 0 (b2n x.d.nowb) (regCode x.d.reg) (opndCode x.a) (opndCode x.b) (raCtl .f32 x.rnd false x.ftz)
  | .dadd x => fWord 0x90 0 (b2n x.d.nowb) (regCode x.d.reg) (opndCode x.a) (opndCode x.b) (raCtl .f64 x.rnd false x.ftz)
  | .dmul x => fWord 0x91 0 (b2n x.d.nowb) (regCode x.d.reg) (opndCode x.a) (opndCode x.b) (raCtl .f64 x.rnd false x.ftz)
  | .ffma x => fWord 0x83 0 (b2n x.d.nowb) (regCode x.d.reg) (opndCode x.a) (opndCode x.b) (opndCode x.c * 256 + raCtl .f32 x.rnd false x.ftz)
  | .dfma x => fWord 0x92 0 (b2n x.d.nowb) (regCode x.d.reg) (opndCode x.a) (opndCode x.b) (opndCode x.c * 256 + raCtl .f64 x.rnd false x.ftz)
  | .scacc x => fWord 0x108 0 (b2n x.d.nowb) (regCode x.d.reg) (opndCode x.a) (opndCode x.b) (opndCode x.c * 256 + raCtl .f32 x.rnd false x.ftz)
  | .hadd2 x => fWord 0x88 0 (b2n x.d.nowb) (regCode x.d.reg) (opndCode x.a) (opndCode x.b) (raCtl (if x.bf then .bf16 else .f16) x.rnd false x.ftz)
  | .hmul2 x => fWord 0x89 0 (b2n x.d.nowb) (regCode x.d.reg) (opndCode x.a) (opndCode x.b) (raCtl (if x.bf then .bf16 else .f16) x.rnd false x.ftz)
  | .hfma2 x => fWord 0x8A 0 (b2n x.d.nowb) (regCode x.d.reg) (opndCode x.a) (opndCode x.b) (opndCode x.c * 256 + raCtl (if x.bf then .bf16 else .f16) x.rnd false x.ftz)
  | .fcmp x => fWord 0x86 0 (b2n x.pd.nowb) x.pd.p (opndCode x.a) (opndCode x.b) (128 + fccCode x.cc * 2 + b2n x.ftz)
  | .dcmp x => fWord 0x93 0 (b2n x.pd.nowb) x.pd.p (opndCode x.a) (opndCode x.b) (144 + fccCode x.cc * 2 + b2n x.ftz)
  | .fcls x => fWord 0x87 0 (b2n x.pd.nowb) x.pd.p (opndCode x.a) 0 (x.mask * 256 + tyCode x.ty * 16)
  | .frcp x => fWord 0xa0 0 (b2n x.d.nowb) (regCode x.d.reg) (opndCode x.a) 0 (raCtl .f32 x.rnd false x.ftz)
  | .frsq x => fWord 0xa1 0 (b2n x.d.nowb) (regCode x.d.reg) (opndCode x.a) 0 (raCtl .f32 x.rnd false x.ftz)
  | .fsqt x => fWord 0xa2 0 (b2n x.d.nowb) (regCode x.d.reg) (opndCode x.a) 0 (raCtl .f32 x.rnd false x.ftz)
  | .fex2 x => fWord 0xa4 0 (b2n x.d.nowb) (regCode x.d.reg) (opndCode x.a) 0 (raCtl .f32 x.rnd false x.ftz)
  | .flg2 x => fWord 0xa5 0 (b2n x.d.nowb) (regCode x.d.reg) (opndCode x.a) 0 (raCtl .f32 x.rnd false x.ftz)
  | .fsin x => fWord 0xa6 0 (b2n x.d.nowb) (regCode x.d.reg) (opndCode x.a) 0 (raCtl .f32 x.rnd false x.ftz)
  | .fcos x => fWord 0xa7 0 (b2n x.d.nowb) (regCode x.d.reg) (opndCode x.a) 0 (raCtl .f32 x.rnd false x.ftz)
  | .ftnh x => fWord 0xa8 0 (b2n x.d.nowb) (regCode x.d.reg) (opndCode x.a) 0 (raCtl .f32 x.rnd false x.ftz)
  | .cvt x => fWord 0x100 (b2n x.ftz * 8 + b2n x.sat * 4 + rndCode x.rnd) (b2n x.d.nowb) (regCode x.d.reg) (opndCode x.a) 0 (tyCode x.dty * 16 + tyCode x.sty)
  | .scsel x => fWord 0x102 0 (b2n x.d.nowb) (regCode x.d.reg) (opndCode x.a) 0 (x.ulim * 256 + tyCode x.fmt * 16 + x.h * 2)
  | .efq x => fWord 0x103 (b2n x.nsat * 4 + rndCode x.rnd) (b2n x.d.nowb) (regCode x.d.reg) (opndCode x.a) (opndCode x.b) (x.c * 256 + tyCode x.ty * 16 + x.pos * 4)
  | .cvts x => fWord 0x101 (b2n x.nsat * 4 + rndCode x.rnd) (b2n x.d.nowb) (regCode x.d.reg) (opndCode x.a) (opndCode x.b) (tyCode x.dty * 16 + tyCode x.sty)
  | .bzpk x => fWord 0x104 (b2n x.nsat * 4 + rndCode x.rnd) (b2n x.d.nowb) (regCode x.d.reg) (opndCode x.a) (opndCode x.b) (tyCode x.dty * 16 + tyCode x.sty)
  | .f8pk x => fWord 0x106 (b2n x.nsat * 4 + rndCode x.rnd) (b2n x.d.nowb) (regCode x.d.reg) (opndCode x.a) (opndCode x.b) (tyCode x.dty * 16 + tyCode x.sty)
  | .bzup x => fWord 0x105 0 (b2n x.d.nowb) (regCode x.d.reg) (opndCode x.a) 0 (tyCode x.dty * 16 + tyCode x.sty)
  | .f8up x => fWord 0x107 0 (b2n x.d.nowb) (regCode x.d.reg) (opndCode x.a) 0 (tyCode x.dty * 16 + tyCode x.sty)
  | .shfl x => fWord 0x180 0 (b2n x.d.nowb) (regCode x.d.reg) (opndCode x.a) (opndCode x.b) (shflCode x.mode * 64 + b2n x.wide * 32 + segCode x.seg * 4)
  | .shfx x => fWord 0x181 0 (b2n x.d.nowb) (regCode x.d.reg) (opndCode x.a) 0 x.pattern
  | .bcst x => fWord 0x182 0 (b2n x.d.nowb) (regCode x.d.reg) (opndCode x.a) (opndCode x.b) (b2n x.wide * 32)
  | .vote x => match x with
    | .any pd pa => fWord 0x183 0 (b2n pd.nowb) pd.p pa 0 0
    | .all pd pa => fWord 0x183 0 (b2n pd.nowb) pd.p pa 0 64
    | .ballot d pa => fWord 0x183 0 (b2n d.nowb) (regCode d.reg) pa 0 128
    | .eq pd a wide => fWord 0x183 0 (b2n pd.nowb) pd.p (opndCode a) 0 (192 + b2n wide * 32)
  | .redt x => fWord 0x184 0 (b2n x.d.nowb) (regCode x.d.reg) (opndCode x.a) 0 (tyCode x.ty * 16 + redCode x.op * 2)
  | .scan x => fWord 0x185 0 (b2n x.d.nowb) (regCode x.d.reg) (opndCode x.a) 0 (tyCode x.ty * 16 + redCode x.op * 2 + b2n x.excl)
  | .redx x => match x.b with
    | none => fWord 0x186 0 0 0 (opndCode x.a) 0 0
    | some b => fWord 0x186 0 0 0 (opndCode x.a) (opndCode b) 64
  | .lacr x => fWord 0x187 0 (b2n x.d.nowb) (regCode x.d.reg) 0 0 ((8 + b2n x.wide) * 16 + rndCode x.rnd * 4)
  | .lacz => fWord 0x188 0 0 0 0 0 0
  | .braAny g dist => fWord 0x200 (guardCode g) 0 0 0 0 (ofInt 18 dist)
  | .braAll g dist => fWord 0x201 (guardCode g) 0 0 0 0 (ofInt 18 dist)
  | .brx a off => fWord 0x202 0 0 0 (opndCode a) 0 (ofInt 18 off)
  | .call d dist => fWord 0x203 0 0 (384 + d) 0 0 (ofInt 18 dist)
  | .ret a => fWord 0x204 0 0 0 (opndCode a) 0 0
  | .regang m => match m with
    | .imm k => fWord 0x205 0 0 0 0 0 k
    | .sreg n => fWord 0x205 0 0 0 (384 + n) 0 65536
  | .loopOperand a off => fWord 0x206 0 0 0 (opndCode a) 0 off
  | .loopImmediate n off => xWord 0x207 0 0 (n * 65536 + off) 0
  | .yield => fWord 0x208 0 0 0 0 0 0
  | .nop => fWord 0x209 0 0 0 0 0 0
  | .exit => fWord 0x20a 0 0 0 0 0 0
  | .trap c => fWord 0x20B 0 0 0 0 0 c
  | .bkpt c => fWord 0x20C 0 0 0 0 0 c
  | .racq n => fWord 0x210 0 0 0 0 0 n
  | .rrel n => fWord 0x211 0 0 0 0 0 n
  | .bar id n => match n with
    | .imm k => fWord 0x218 0 0 0 0 0 (k * 16 + id)
    | .opnd a => fWord 0x218 0 0 0 (opndCode a) 0 (512 + id)
  | .bara d id n => match n with
    | .imm k => fWord 0x219 0 (b2n d.nowb) (regCode d.reg) 0 0 (k * 16 + id)
    | .opnd a => fWord 0x219 0 (b2n d.nowb) (regCode d.reg) (opndCode a) 0 (512 + id)
  | .barw a id clu => fWord 0x21A 0 0 0 (opndCode a) 0 (b2n clu * 16 + id)
  | .cbar d id n => match n with
    | .imm k => fWord 0x21B 0 (b2n d.nowb) (regCode d.reg) 0 0 (k * 16 + id)
    | .opnd a => fWord 0x21B 0 (b2n d.nowb) (regCode d.reg) (opndCode a) 0 (2048 + id)
  | .rep x => 3 * 2 ^ 62 + 2 ^ 56 + x.count * 2 ^ 48 +
    (b2n x.d.isSome * 8 + b2n x.a.isSome * 4 + b2n x.b.isSome * 2 + b2n x.c.isSome) * 2 ^ 44 + repStep x.d x.strayD * 2 ^ 40 +
    repStep x.a x.strayA * 2 ^ 36 + repStep x.b x.strayB * 2 ^ 32 + repStep x.c x.strayC * 2 ^ 28
  | .pNop h o => pWord .nop h o
  | .pMov h o => pWord .mov h o
  | .pIadd h o => pWord .iadd h o
  | .pIsub h o => pWord .isub h o
  | .pImul h o => pWord .imul h o
  | .pIaddi h o => pWord .iaddi h o
  | .pAnd h o => pWord .and h o
  | .pOr h o => pWord .or h o
  | .pXor h o => pWord .xor h o
  | .pAndn h o => pWord .andn h o
  | .pShl h o => pWord .shl h o
  | .pShr h o => pWord .shr h o
  | .pSar h o => pWord .sar h o
  | .pImin h o => pWord .imin h o
  | .pImax h o => pWord .imax h o
  | .pRotr h o => pWord .rotr h o
  | .pFadd h o => pWord .fadd h o
  | .pFsub h o => pWord .fsub h o
  | .pFmul h o => pWord .fmul h o
  | .pFmin h o => pWord .fmin h o
  | .pFmax h o => pWord .fmax h o
  | .pHadd2 h o => pWord .hadd2 h o
  | .pHmul2 h o => pWord .hmul2 h o
  | .pClz h o => pWord .clz h o
  | .ld x => fWord 0x280 0 (b2n x.d.nowb) (regCode x.d.reg) (opndCode x.m.a) (opndCode x.m.b) (ofInt 10 x.m.off * 256 + mCtl (sizeCode x.size) x.strong x.na)
  | .lds x => fWord 0x282 0 (b2n x.d.nowb) (regCode x.d.reg) (opndCode x.m.a) (opndCode x.m.b) (ofInt 10 x.m.off * 256 + mCtl (sizeCode x.size) x.strong x.na)
  | .ldw x => fWord 0x284 0 (b2n x.d.nowb) (regCode x.d.reg) (opndCode x.m.a) (opndCode x.m.b) (ofInt 10 x.m.off * 256 + mCtl (sizeCode x.size) x.strong x.na)
  | .ldc x => fWord 0x286 0 (b2n x.d.nowb) (regCode x.d.reg) (opndCode x.m.a) (opndCode x.m.b) (ofInt 10 x.m.off * 256 + mCtl (sizeCode x.size) x.strong x.na)
  | .st x => fWord 0x281 (guardCode x.g) 0 (regCode x.src) (opndCode x.m.a) (opndCode x.m.b) (ofInt 10 x.m.off * 256 + mCtl (sizeCode x.size) x.strong x.na)
  | .sts x => fWord 0x283 (guardCode x.g) 0 (regCode x.src) (opndCode x.m.a) (opndCode x.m.b) (ofInt 10 x.m.off * 256 + mCtl (sizeCode x.size) x.strong x.na)
  | .stw x => fWord 0x285 (guardCode x.g) 0 (regCode x.src) (opndCode x.m.a) (opndCode x.m.b) (ofInt 10 x.m.off * 256 + mCtl (sizeCode x.size) x.strong x.na)
  | .pref x => fWord 0x287 0 0 0 (opndCode x.m.a) (opndCode x.m.b) (ofInt 10 x.m.off * 256 + b2n x.opt)
  | .cflsh x => fWord 0x288 0 0 0 (opndCode x.m.a) (opndCode x.m.b) (ofInt 10 x.m.off * 256 + b2n x.opt)
  | .cinv x => fWord 0x289 0 0 0 (opndCode x.m.a) (opndCode x.m.b) (ofInt 10 x.m.off * 256 + b2n x.opt)
  | .fence sc k => fWord 0x28A 0 0 0 0 0 (fenceCode k * 16 + scopeCode sc * 2)
  | .waitc m t => match t with
    | .imm n => fWord 0x28B 0 0 0 0 0 (m * 4096 + n)
    | .opnd a => fWord 0x28B 0 0 0 (opndCode a) 0 (m * 4096 + 2048)
  | .atomAdd x => fWord 0x290 (guardCode x.g) (b2n x.d.nowb) (regCode x.d.reg) (opndCode x.a) (opndCode x.b) (opndCode x.c * 256 + (4 + b2n x.wide) * 32 + scopeCode x.scope * 2 + b2n x.sgn)
  | .atomMin x => fWord 0x291 (guardCode x.g) (b2n x.d.nowb) (regCode x.d.reg) (opndCode x.a) (opndCode x.b) (opndCode x.c * 256 + (4 + b2n x.wide) * 32 + scopeCode x.scope * 2 + b2n x.sgn)
  | .atomMax x => fWord 0x292 (guardCode x.g) (b2n x.d.nowb) (regCode x.d.reg) (opndCode x.a) (opndCode x.b) (opndCode x.c * 256 + (4 + b2n x.wide) * 32 + scopeCode x.scope * 2 + b2n x.sgn)
  | .atomAnd x => fWord 0x293 (guardCode x.g) (b2n x.d.nowb) (regCode x.d.reg) (opndCode x.a) (opndCode x.b) (opndCode x.c * 256 + (4 + b2n x.wide) * 32 + scopeCode x.scope * 2 + b2n x.sgn)
  | .atomOr x => fWord 0x294 (guardCode x.g) (b2n x.d.nowb) (regCode x.d.reg) (opndCode x.a) (opndCode x.b) (opndCode x.c * 256 + (4 + b2n x.wide) * 32 + scopeCode x.scope * 2 + b2n x.sgn)
  | .atomXor x => fWord 0x295 (guardCode x.g) (b2n x.d.nowb) (regCode x.d.reg) (opndCode x.a) (opndCode x.b) (opndCode x.c * 256 + (4 + b2n x.wide) * 32 + scopeCode x.scope * 2 + b2n x.sgn)
  | .atomExch x => fWord 0x296 (guardCode x.g) (b2n x.d.nowb) (regCode x.d.reg) (opndCode x.a) (opndCode x.b) (opndCode x.c * 256 + (4 + b2n x.wide) * 32 + scopeCode x.scope * 2 + b2n x.sgn)
  | .atomCas x => fWord 0x297 (guardCode x.g) (b2n x.d.nowb) (regCode x.d.reg) (opndCode x.a) (opndCode x.b) (opndCode x.c * 256 + (4 + b2n x.wide) * 32 + scopeCode x.scope * 2 + b2n x.sgn)
  | .atomFadd x => fWord 0x298 (guardCode x.g) (b2n x.d.nowb) (regCode x.d.reg) (opndCode x.a) (opndCode x.b) (opndCode x.c * 256 + (4 + b2n x.wide) * 32 + scopeCode x.scope * 2 + b2n x.sgn)
  | .atomsAdd x => fWord 0x2a0 (guardCode x.g) (b2n x.d.nowb) (regCode x.d.reg) (opndCode x.a) (opndCode x.b) (opndCode x.c * 256 + (4 + b2n x.wide) * 32 + scopeCode x.scope * 2 + b2n x.sgn)
  | .atomsMin x => fWord 0x2a1 (guardCode x.g) (b2n x.d.nowb) (regCode x.d.reg) (opndCode x.a) (opndCode x.b) (opndCode x.c * 256 + (4 + b2n x.wide) * 32 + scopeCode x.scope * 2 + b2n x.sgn)
  | .atomsMax x => fWord 0x2a2 (guardCode x.g) (b2n x.d.nowb) (regCode x.d.reg) (opndCode x.a) (opndCode x.b) (opndCode x.c * 256 + (4 + b2n x.wide) * 32 + scopeCode x.scope * 2 + b2n x.sgn)
  | .atomsAnd x => fWord 0x2a3 (guardCode x.g) (b2n x.d.nowb) (regCode x.d.reg) (opndCode x.a) (opndCode x.b) (opndCode x.c * 256 + (4 + b2n x.wide) * 32 + scopeCode x.scope * 2 + b2n x.sgn)
  | .atomsOr x => fWord 0x2a4 (guardCode x.g) (b2n x.d.nowb) (regCode x.d.reg) (opndCode x.a) (opndCode x.b) (opndCode x.c * 256 + (4 + b2n x.wide) * 32 + scopeCode x.scope * 2 + b2n x.sgn)
  | .atomsXor x => fWord 0x2a5 (guardCode x.g) (b2n x.d.nowb) (regCode x.d.reg) (opndCode x.a) (opndCode x.b) (opndCode x.c * 256 + (4 + b2n x.wide) * 32 + scopeCode x.scope * 2 + b2n x.sgn)
  | .atomsExch x => fWord 0x2a6 (guardCode x.g) (b2n x.d.nowb) (regCode x.d.reg) (opndCode x.a) (opndCode x.b) (opndCode x.c * 256 + (4 + b2n x.wide) * 32 + scopeCode x.scope * 2 + b2n x.sgn)
  | .atomsCas x => fWord 0x2a7 (guardCode x.g) (b2n x.d.nowb) (regCode x.d.reg) (opndCode x.a) (opndCode x.b) (opndCode x.c * 256 + (4 + b2n x.wide) * 32 + scopeCode x.scope * 2 + b2n x.sgn)
  | .atomsFadd x => fWord 0x2a8 (guardCode x.g) (b2n x.d.nowb) (regCode x.d.reg) (opndCode x.a) (opndCode x.b) (opndCode x.c * 256 + (4 + b2n x.wide) * 32 + scopeCode x.scope * 2 + b2n x.sgn)
  | .ratomAdd x => fWord 0x2b8 (guardCode x.g) (b2n x.d.nowb) (regCode x.d.reg) (opndCode x.a) (opndCode x.b) (opndCode x.c * 256 + (4 + b2n x.wide) * 32 + 10 + b2n x.sgn)
  | .ratomMin x => fWord 0x2b9 (guardCode x.g) (b2n x.d.nowb) (regCode x.d.reg) (opndCode x.a) (opndCode x.b) (opndCode x.c * 256 + (4 + b2n x.wide) * 32 + 10 + b2n x.sgn)
  | .ratomMax x => fWord 0x2ba (guardCode x.g) (b2n x.d.nowb) (regCode x.d.reg) (opndCode x.a) (opndCode x.b) (opndCode x.c * 256 + (4 + b2n x.wide) * 32 + 10 + b2n x.sgn)
  | .ratomAnd x => fWord 0x2bb (guardCode x.g) (b2n x.d.nowb) (regCode x.d.reg) (opndCode x.a) (opndCode x.b) (opndCode x.c * 256 + (4 + b2n x.wide) * 32 + 10 + b2n x.sgn)
  | .ratomOr x => fWord 0x2bc (guardCode x.g) (b2n x.d.nowb) (regCode x.d.reg) (opndCode x.a) (opndCode x.b) (opndCode x.c * 256 + (4 + b2n x.wide) * 32 + 10 + b2n x.sgn)
  | .ratomXor x => fWord 0x2bd (guardCode x.g) (b2n x.d.nowb) (regCode x.d.reg) (opndCode x.a) (opndCode x.b) (opndCode x.c * 256 + (4 + b2n x.wide) * 32 + 10 + b2n x.sgn)
  | .ratomExch x => fWord 0x2be (guardCode x.g) (b2n x.d.nowb) (regCode x.d.reg) (opndCode x.a) (opndCode x.b) (opndCode x.c * 256 + (4 + b2n x.wide) * 32 + 10 + b2n x.sgn)
  | .ratomCas x => fWord 0x2bf (guardCode x.g) (b2n x.d.nowb) (regCode x.d.reg) (opndCode x.a) (opndCode x.b) (opndCode x.c * 256 + (4 + b2n x.wide) * 32 + 10 + b2n x.sgn)
  | .ratomFadd x => fWord 0x2c0 (guardCode x.g) (b2n x.d.nowb) (regCode x.d.reg) (opndCode x.a) (opndCode x.b) (opndCode x.c * 256 + (4 + b2n x.wide) * 32 + 10 + b2n x.sgn)
  | .rld x => fWord 0x2B0 0 (b2n x.d.nowb) (regCode x.d.reg) (opndCode x.a) (opndCode x.b) (ofInt 10 x.off * 256 + sizeCode x.size * 32)
  | .rst x => fWord 0x2B1 (guardCode x.g) 0 (regCode x.src) (opndCode x.a) (opndCode x.b) (ofInt 10 x.off * 256 + sizeCode x.size * 32)
  | .rstf x => fWord 0x2B2 (guardCode x.g) 0 (regCode x.src) (opndCode x.a) (opndCode x.b) (opndCode x.c * 256 + sizeCode x.size * 32)
  | .rfence => fWord 0x2B3 0 0 0 0 0 10
  | .copy x => fWord 0x300 0 (b2n x.d.nowb) (regCode x.d.reg) (384 + 4 * x.k) ((x.b.map opndCode).getD 0) ((x.c.map opndCode).getD 0 * 256 + copyKindCode x.kind * 64 +
      scopeCode x.scope * 8 + b2n x.sh * 4 + b2n x.dz * 2 + b2n x.b.isSome)
  | .copy2 x => fWord 0x301 0 (b2n x.d.nowb) (regCode x.d.reg) (384 + 4 * x.k) ((x.b.map opndCode).getD 0) ((x.c.map opndCode).getD 0 * 256 + copyKindCode x.kind * 64 +
      scopeCode x.scope * 8 + b2n x.sh * 4 + b2n x.dz * 2 + b2n x.b.isSome)
  | .copyf x => fWord 0x302 0 (b2n x.d.nowb) (regCode x.d.reg) (384 + 4 * x.k) ((x.b.map opndCode).getD 0) ((x.c.map opndCode).getD 0 * 256 + copyKindCode x.kind * 64 +
      scopeCode x.scope * 8 + b2n x.sh * 4 + b2n x.dz * 2 + b2n x.b.isSome)
  | .copyw x => fWord 0x303 0 (b2n x.d.nowb) (regCode x.d.reg) (384 + 4 * x.k) ((x.b.map opndCode).getD 0) ((x.c.map opndCode).getD 0 * 256 + copyKindCode x.kind * 64 +
      scopeCode x.scope * 8 + b2n x.sh * 4 + b2n x.dz * 2 + b2n x.b.isSome)
  | .copyr x => fWord 0x304 0 (b2n x.d.nowb) (regCode x.d.reg) (384 + 4 * x.k) ((x.b.map opndCode).getD 0) ((x.c.map opndCode).getD 0 * 256 + copyKindCode x.kind * 64 +
      scopeCode x.scope * 8 + b2n x.sh * 4 + b2n x.dz * 2 + b2n x.b.isSome)
  | .cprog d a => fWord 0x305 0 (b2n d.nowb) (regCode d.reg) (opndCode a) 0 0
  | .ckill d a => fWord 0x306 0 (b2n d.nowb) (regCode d.reg) (opndCode a) 0 0
  | .publ d a => fWord 0x308 0 (b2n d.nowb) (regCode d.reg) (opndCode a) 0 0
  | .mprog d a => fWord 0x317 0 (b2n d.nowb) (regCode d.reg) (opndCode a) 0 0
  | .harn n a => fWord 0x310 0 0 0 (opndCode a) 0 n
  | .mpass x => fWord 0x311 (b2n x.ka * 8 + b2n x.kb * 4 + b2n x.tra * 2 + b2n x.trb) (b2n x.d.nowb) (regCode x.d.reg) (opndCode x.a) 0 (x.fmt * 16 + x.n)
  | .mspass x => fWord 0x312 (b2n x.ka * 8 + b2n x.kb * 4 + b2n x.tra * 2 + b2n x.trb) (b2n x.d.nowb) (regCode x.d.reg) (opndCode x.a) 0 (x.fmt * 16 + x.n)
  | .mlut x => fWord 0x313 (b2n x.ka * 8 + b2n x.kb * 4 + b2n x.tra * 2) (b2n x.d.nowb) (regCode x.d.reg) (opndCode x.a) 0 (x.fmt * 16)
  | .accrd x => fWord 0x314 0 0 x.v 0 0 (x.row * 256 + x.cb * 16 + b2n x.raw * 8 + x.t)
  | .accwr x => fWord 0x315 0 0 x.v 0 0 (x.row * 256 + x.cb * 16 + b2n x.raw * 8 + x.t)
  | .accz k t => fWord 0x316 0 0 0 0 0 (accCode k * 16 + t)
  | .mprogW d a b => fWord 0x317 0 (b2n d.nowb) (regCode d.reg) (opndCode a) (opndCode b) 1
  | .skupd x => fWord 0x320 0 0 0 (384 + 8 * x.a) (opndCode x.b) (opndCode x.c * 256 + b2n x.k64)
  | .skqry x => fWord 0x321 0 (b2n x.d.nowb) (regCode x.d.reg) (384 + 8 * x.a) 0 (opndCode x.c * 256 + b2n x.k64)
  | .skadd a b => fWord 0x322 0 0 0 (384 + 8 * a) (384 + 8 * b) 0
  | .skclr a => fWord 0x323 0 0 0 (384 + 8 * a) 0 0
  | .tdec a b => fWord 0x330 0 0 0 (opndCode a) (opndCode b) 0
  | .twait p a b c => fWord 0x331 0 0 p (opndCode a) (opndCode b) (opndCode c * 256)
  | .flgw x => fWord 0x332 0 0 x.p (opndCode x.a) (opndCode x.b) (opndCode x.c * 256 + flgCode x.cc * 32 + b2n x.wide * 16 + (3 + b2n x.dev) * 2)
  | .bkarm d a b => fWord 0x333 0 (b2n d.nowb) (regCode d.reg) (opndCode a) (opndCode b) 0
  | .bkarmOff d a => fWord 0x333 0 (b2n d.nowb) (regCode d.reg) (opndCode a) 0 1
  | .bkw p a c => fWord 0x334 0 0 p (opndCode a) 0 (opndCode c * 256)
  | .lnch d a b => fWord 0x338 0 (b2n d.nowb) (regCode d.reg) (opndCode a) (opndCode b) 0
  | .reln x => fWord 0x339 0 (b2n x.d.nowb) (regCode x.d.reg) (opndCode x.a) (opndCode x.b) (relnCode x.kind)
  | .csrr d n => fWord 0x380 0 (b2n d.nowb) (regCode d.reg) 0 0 n
  | .csrw n a => fWord 0x381 0 0 0 (opndCode a) 0 n
  | .tlbiVa n => fWord 0x382 0 0 0 (384 + n) 0 0
  | .tlbiCtx => fWord 0x382 0 0 0 0 0 1
  | .tlbiAll => fWord 0x382 0 0 0 0 0 2
  | .halt => fWord 0x383 0 0 0 0 0 0
  | .haltDev => fWord 0x383 0 0 0 0 0 1
  | .fret d a b => fWord 0x3F0 0 (b2n d.nowb) (regCode d.reg) (opndCode a) (opndCode b) 0
  | .fctxBind d a b => fWord 0x3F1 0 (b2n d.nowb) (regCode d.reg) (opndCode a) (opndCode b) 0
  | .fctxUnbind d a b => fWord 0x3F1 0 (b2n d.nowb) (regCode d.reg) (opndCode a) (opndCode b) 0
  | .fswpOut d a b => fWord 0x3F2 0 (b2n d.nowb) (regCode d.reg) (opndCode a) (opndCode b) 0
  | .fswpIn d a b => fWord 0x3F2 0 (b2n d.nowb) (regCode d.reg) (opndCode a) (opndCode b) 0
  | _ => 0

/-- The word of an NMU instruction (11 Tables sketch-7a, sketch-8); 0 for what is none. -/
def encodeNmu : Instr → Nat
  | .nldv x => 1 * 2 ^ 26 + x.g * 2 ^ 21 + x.a * 2 ^ 17 + b2n x.inc * 2 ^ 16 + (x.n - 1) * 2 ^ 7
  | .nstv x => 2 * 2 ^ 26 + x.g * 2 ^ 21 + x.a * 2 ^ 17 + b2n x.inc * 2 ^ 16 + (x.n - 1) * 2 ^ 7
  | .nadd x => 4 * 2 ^ 26 + x.gd * 2 ^ 21 + x.ga * 2 ^ 16 + x.gb * 2 ^ 11 + rndCode x.rnd
  | .nsub x => 5 * 2 ^ 26 + x.gd * 2 ^ 21 + x.ga * 2 ^ 16 + x.gb * 2 ^ 11 + rndCode x.rnd
  | .nmul x => 6 * 2 ^ 26 + x.gd * 2 ^ 21 + x.ga * 2 ^ 16 + x.gb * 2 ^ 11 + rndCode x.rnd
  | .nmin x => 8 * 2 ^ 26 + x.gd * 2 ^ 21 + x.ga * 2 ^ 16 + x.gb * 2 ^ 11 + rndCode x.rnd
  | .nmax x => 9 * 2 ^ 26 + x.gd * 2 ^ 21 + x.ga * 2 ^ 16 + x.gb * 2 ^ 11 + rndCode x.rnd
  | .nfma x => 7 * 2 ^ 26 + x.gd * 2 ^ 21 + x.ga * 2 ^ 16 + x.gb * 2 ^ 11 + x.gc * 2 ^ 6 + rndCode x.rnd
  | .nrsq gd ga => 10 * 2 ^ 26 + gd * 2 ^ 21 + ga * 2 ^ 16
  | .ncvt gd ga k r => 11 * 2 ^ 26 + gd * 2 ^ 21 + ga * 2 ^ 16 + ncvtCode k * 2 ^ 8 + rndCode r
  | .nsku g ak ad n => 16 * 2 ^ 26 + g * 2 ^ 21 + ak * 2 ^ 17 + ad * 2 ^ 13 + (n - 1) * 2 ^ 5
  | .nskq g ak ad n => 17 * 2 ^ 26 + g * 2 ^ 21 + ak * 2 ^ 17 + ad * 2 ^ 13 + (n - 1) * 2 ^ 5
  | .nska ad as => 18 * 2 ^ 26 + as * 2 ^ 17 + ad * 2 ^ 13
  | .nskc ad => 19 * 2 ^ 26 + ad * 2 ^ 13
  | .nsetImm gd imm => 24 * 2 ^ 26 + gd * 2 ^ 21 + imm
  | .nsetReg gd a => 24 * 2 ^ 26 + gd * 2 ^ 21 + 2 ^ 20 + a * 2 ^ 16
  | .naddi ad as sh imm => 25 * 2 ^ 26 + ad * 2 ^ 22 + as * 2 ^ 18 + sh * 2 ^ 16 + imm
  | .nloopImm c off => 28 * 2 ^ 26 + c * 2 ^ 12 + off
  | .nloopReg a off => 28 * 2 ^ 26 + 2 ^ 25 + a * 2 ^ 21 + off
  | .nbra c a off => 29 * 2 ^ 26 + a * 2 ^ 22 + nbraCode c * 2 ^ 19 + off
  | .nwait a b => 30 * 2 ^ 26 + a * 2 ^ 22 + b * 2 ^ 18
  | .nsig a => 31 * 2 ^ 26 + a * 2 ^ 22
  | .nfence => 32 * 2 ^ 26
  | .nend => 63 * 2 ^ 26
  | _ => 0

/-- The word of a Cratch instruction (16 Table circuit-7); 0 for what is none. -/
def encodeCratch : Instr → Nat
  | .movqReg a b => 1 * 2 ^ 26 + a * 2 ^ 22 + b * 2 ^ 17
  | .movqImm a i => 1 * 2 ^ 26 + a * 2 ^ 22 + 2 ^ 21 + ofInt 21 i
  | .addqReg a b c => 2 * 2 ^ 26 + a * 2 ^ 22 + b * 2 ^ 18 + c * 2 ^ 13
  | .addqImm a b i => 2 * 2 ^ 26 + a * 2 ^ 22 + b * 2 ^ 18 + 2 ^ 17 + ofInt 17 i
  | .subqReg a b c => 3 * 2 ^ 26 + a * 2 ^ 22 + b * 2 ^ 18 + c * 2 ^ 13
  | .subqImm a b i => 3 * 2 ^ 26 + a * 2 ^ 22 + b * 2 ^ 18 + 2 ^ 17 + ofInt 17 i
  | .cmpqReg cc a b => 4 * 2 ^ 26 + a * 2 ^ 22 + qcCode cc * 2 ^ 19 + b * 2 ^ 14
  | .cmpqImm cc a i => 4 * 2 ^ 26 + a * 2 ^ 22 + qcCode cc * 2 ^ 19 + 2 ^ 18 + ofInt 18 i
  | .brq nz a off => 5 * 2 ^ 26 + a * 2 ^ 22 + b2n nz * 2 ^ 21 + ofInt 16 off
  | .brc c off => 6 * 2 ^ 26 + brcCode c * 2 ^ 24 + ofInt 16 off
  | .creq a b => 8 * 2 ^ 26 + a * 2 ^ 22 + b * 2 ^ 18
  | .cstat a b => 11 * 2 ^ 26 + a * 2 ^ 22 + b * 2 ^ 18
  | .buck a b => 12 * 2 ^ 26 + a * 2 ^ 22 + b * 2 ^ 18
  | .park a b => 13 * 2 ^ 26 + a * 2 ^ 22 + b * 2 ^ 18
  | .wake a b => 14 * 2 ^ 26 + a * 2 ^ 22 + b * 2 ^ 18
  | .setw a b => 15 * 2 ^ 26 + a * 2 ^ 22 + b * 2 ^ 18
  | .msg a b => 16 * 2 ^ 26 + a * 2 ^ 22 + b * 2 ^ 18
  | .tsig a b => 18 * 2 ^ 26 + a * 2 ^ 22 + b * 2 ^ 18
  | .cwait t a b c => 9 * 2 ^ 26 + a * 2 ^ 22 + b * 2 ^ 18 + c * 2 ^ 14 + tgtCode t * 2 ^ 12
  | .mrcv a b c => 17 * 2 ^ 26 + a * 2 ^ 22 + b * 2 ^ 18 + c * 2 ^ 14
  | .twt a b c => 19 * 2 ^ 26 + a * 2 ^ 22 + b * 2 ^ 18 + c * 2 ^ 14
  | .crel a => 10 * 2 ^ 26 + a * 2 ^ 22
  | .time a => 20 * 2 ^ 26 + a * 2 ^ 22
  | .evt a => 22 * 2 ^ 26 + a * 2 ^ 22
  | .buckOff a => 12 * 2 ^ 26 + a * 2 ^ 22 + 2 ^ 17
  | .dlyReg a => 21 * 2 ^ 26 + a * 2 ^ 22
  | .dlyImm us => 21 * 2 ^ 26 + 2 ^ 21 + us
  | .endScript => 23 * 2 ^ 26
  | _ => 0


/-! ## Reading fields -/

/-- The a field of an F word. -/
def fA (w : Nat) : Option Opnd := opndOf (bits w 28 10)
/-- The b field. -/
def fB (w : Nat) : Option Opnd := opndOf (bits w 18 10)
/-- The C field. -/
def fC (w : Nat) : Option Opnd := opndOf (bits w 8 10)
/-- The destination register. -/
def fD (w : Nat) : Option Dst := (regOf (bits w 38 9)).map (fun r => ⟨r, bit w 47⟩)
/-- The predicate destination. -/
def fP (w : Nat) : PDst := ⟨bits w 38 3, bit w 47⟩
/-- The guard. -/
def fG (w : Nat) : Guard := ⟨bit w 51, bits w 48 3⟩
/-- The type field. -/
def fT (w : Nat) : Option Ty := tyOf (bits w 4 4)
/-- The rounding field of layout ra. -/
def fR (w : Nat) : Rnd := rndOf (bits w 2 2)

def dInt2 (w : Nat) : Option Int2 := do return ⟨← fD w, ← fA w, ← fB w, ← fT w, bit w 1⟩
def dInt1 (w : Nat) : Option Int1 := do return ⟨← fD w, ← fA w, ← fT w, bit w 1⟩
def dInt3 (w : Nat) : Option Int3 := do return ⟨← fD w, ← fA w, ← fB w, ← fC w, ← fT w, bit w 1⟩
def dF1 (w : Nat) : Option F1 := do return ⟨← fD w, ← fA w, fR w, bit w 0⟩
def dF2 (w : Nat) : Option F2 := do return ⟨← fD w, ← fA w, ← fB w, fR w, bit w 0⟩
def dF3 (w : Nat) : Option F3 := do return ⟨← fD w, ← fA w, ← fB w, ← fC w, fR w, bit w 0⟩
def dH2 (w : Nat) : Option H2 := do return ⟨← fD w, ← fA w, ← fB w, bit w 4, fR w, bit w 0⟩
def dH3 (w : Nat) : Option H3 := do return ⟨← fD w, ← fA w, ← fB w, ← fC w, bit w 4, fR w, bit w 0⟩
def dFcmp (w : Nat) : Option FcmpArgs := do return ⟨fP w, ← fA w, ← fB w, ← fccOf (bits w 1 3), bit w 0⟩
def dNarrow (w : Nat) : Option NarrowArgs := do
  return ⟨← fD w, ← fA w, ← fB w, ← fT w, ← tyOf (bits w 0 4), rndOf (bits w 48 2), bit w 50⟩
def dUnpack (w : Nat) : Option UnpackArgs := do return ⟨← fD w, ← fA w, ← fT w, ← tyOf (bits w 0 4)⟩
def dMem (w : Nat) : Option MemOpnd := do return ⟨← fA w, ← fB w, sext 10 (bits w 8 10)⟩
def dStrong (w : Nat) : Option (Option Scope) := if bit w 4 then (scopeOf (bits w 1 3)).map some else some none
def dLoad (w : Nat) : Option LoadArgs := do return ⟨← fD w, ← dMem w, ← sizeOf' (bits w 5 3), ← dStrong w, bit w 0⟩
def dStore (w : Nat) : Option StoreArgs := do
  return ⟨fG w, ← regOf (bits w 38 9), ← dMem w, ← sizeOf' (bits w 5 3), ← dStrong w, bit w 0⟩
def dCache (w : Nat) : Option CacheArgs := do return ⟨← dMem w, bit w 0⟩
def dAtom (w : Nat) : Option AtomArgs := do
  return ⟨fG w, ← fD w, ← fA w, ← fB w, ← fC w, bit w 5, ← scopeOf (bits w 1 3), bit w 0⟩
def dRatom (w : Nat) : Option RatomArgs := do return ⟨fG w, ← fD w, ← fA w, ← fB w, ← fC w, bit w 5, bit w 0⟩
/-- A copy word; `c` says whether the opcode has a C operand. -/
def dCopy (w : Nat) (c : Bool) : Option CopyArgs := do
  let b ← if bit w 0 then (fB w).map some else some none
  let c ← if c then (fC w).map some else some none
  return ⟨← fD w, (bits w 28 10 - 384) / 4, b, c, ← copyKindOf (bits w 6 2), ← scopeOf (bits w 3 3), bit w 2, bit w 1⟩
def dPass (w : Nat) : Option PassArgs := do
  return ⟨← fD w, bits w 0 3, ← fA w, bits w 4 4, bit w 51, bit w 50, bit w 49, bit w 48⟩
def dAcc (w : Nat) : AccArgs := ⟨bits w 38 9, bits w 0 3, bits w 8 10, bits w 4 4, bit w 3⟩
def dDA (w : Nat) : Option (Dst × Opnd) := do return (← fD w, ← fA w)
def dDAB (w : Nat) : Option (Dst × Opnd × Opnd) := do return (← fD w, ← fA w, ← fB w)
def dCount (w lim : Nat) : Option BarCount := if bit w lim then (fA w).map .opnd else some (.imm (bits w 4 (lim - 4)))

/-- The half-1 fields of a P word, or the half-0 ones, from the half's 31 bits. -/
def dHalf (h : Nat) : Option PHalf := do
  let s := if bit h 6 then PSrc.latch (bits h 8 8 % 8 + 1) else if bit h 5 then PSrc.imm (bits h 8 8) else PSrc.reg (bits h 8 8)
  return ⟨← popOf (bits h 24 7), ⟨bits h 16 8, s, bit h 7, bits h 0 5⟩⟩

/-- The instruction of a P word whose half 0 has an opcode. -/
def pInstr (op : POp) (h : PArgs) (o : PHalf) : Instr :=
  match op with
  | .nop => .pNop h o
  | .mov => .pMov h o
  | .iadd => .pIadd h o
  | .isub => .pIsub h o
  | .imul => .pImul h o
  | .iaddi => .pIaddi h o
  | .and => .pAnd h o
  | .or => .pOr h o
  | .xor => .pXor h o
  | .andn => .pAndn h o
  | .shl => .pShl h o
  | .shr => .pShr h o
  | .sar => .pSar h o
  | .imin => .pImin h o
  | .imax => .pImax h o
  | .rotr => .pRotr h o
  | .fadd => .pFadd h o
  | .fsub => .pFsub h o
  | .fmul => .pFmul h o
  | .fmin => .pFmin h o
  | .fmax => .pFmax h o
  | .hadd2 => .pHadd2 h o
  | .hmul2 => .pHmul2 h o
  | .clz => .pClz h o

/-- One step of a REP word. -/
def dRepStep (w m lo : Nat) : Option Int × Int :=
  if bit w m then (some (sext 4 (bits w lo 4)), 0) else (none, sext 4 (bits w lo 4))

def dRep (w : Nat) : RepArgs :=
  let d := dRepStep w 47 40
  let a := dRepStep w 46 36
  let b := dRepStep w 45 32
  let c := dRepStep w 44 28
  ⟨bits w 48 8, d.1, a.1, b.1, c.1, d.2, a.2, b.2, c.2⟩

/-- Class 0, F form (01 Table word-14): `none` unassigned, `some none` a reserved field. -/
def skelInt (op w : Nat) : Option (Option Instr) :=
  if op = 0x1 then some ((dInt2 w).map .iadd)
  else if op = 0x2 then some ((dInt2 w).map .isub)
  else if op = 0x3 then some ((dInt2 w).map .imul)
  else if op = 0x4 then some ((dInt2 w).map .imulh)
  else if op = 0x5 then some ((dInt3 w).map .imad)
  else if op = 0x6 then some ((dInt3 w).map .imadw)
  else if op = 0x7 then some ((dInt2 w).map .imin)
  else if op = 0x8 then some ((dInt2 w).map .imax)
  else if op = 0x9 then some ((dInt1 w).map .iabs)
  else if op = 0xa then some ((dInt2 w).map .and)
  else if op = 0xb then some ((dInt2 w).map .or)
  else if op = 0xc then some ((dInt2 w).map .xor)
  else if op = 0xd then some ((dInt2 w).map .andn)
  else if op = 0xe then some ((dInt2 w).map .shl)
  else if op = 0xf then some ((dInt2 w).map .shr)
  else if op = 0x10 then some ((dInt2 w).map .sar)
  else if op = 0x11 then some ((dInt2 w).map .rotr)
  else if op = 0x12 then some ((dInt1 w).map .popc)
  else if op = 0x13 then some ((dInt1 w).map .clz)
  else if op = 0x14 then some ((dInt1 w).map .brev)
  else if op = 0x15 then some ((dInt2 w).map .bfx)
  else if op = 0x16 then some ((dInt3 w).map .bfi)
  else if op = 0x17 then some ((do return .lea ⟨← fD w, ← fA w, ← fB w, bits w 48 4, ← fT w⟩))
  else if op = 0x18 then some ((do return .icmp ⟨fP w, ← fA w, ← fB w, ← fT w, ← ccOf (bits w 1 3)⟩))
  else if op = 0x19 then some (some (.plog ⟨fP w, bits w 28 10, bits w 18 10, bits w 8 10, bits w 0 8⟩))
  else if op = 0x1a then some ((do return .sel ⟨fG w, ← fD w, ← fA w, ← fB w, bit w 5⟩))
  else if op = 0x1b then some ((do return .mov ⟨← fD w, ← fA w, bit w 5⟩))
  else if op = 0x1c then some ((do
      let x : MovsArgs := ⟨← fD w, ← fA w, ← fB w, bit w 5⟩
      return (if bit w 6 then .movsSl x else .movs x)))
  else none

/-- Class 1 (01 Table word-15). -/
def skelFp (op w : Nat) : Option (Option Instr) :=
  if op = 0x80 then some ((dF2 w).map .fadd)
  else if op = 0x81 then some ((dF2 w).map .fsub)
  else if op = 0x82 then some ((dF2 w).map .fmul)
  else if op = 0x83 then some ((dF3 w).map .ffma)
  else if op = 0x84 then some ((dF2 w).map .fmin)
  else if op = 0x85 then some ((dF2 w).map .fmax)
  else if op = 0x86 then some ((dFcmp w).map .fcmp)
  else if op = 0x87 then some ((do return .fcls ⟨fP w, ← fA w, bits w 8 10, ← fT w⟩))
  else if op = 0x88 then some ((dH2 w).map .hadd2)
  else if op = 0x89 then some ((dH2 w).map .hmul2)
  else if op = 0x8a then some ((dH3 w).map .hfma2)
  else if op = 0x90 then some ((dF2 w).map .dadd)
  else if op = 0x91 then some ((dF2 w).map .dmul)
  else if op = 0x92 then some ((dF3 w).map .dfma)
  else if op = 0x93 then some ((dFcmp w).map .dcmp)
  else if op = 0xa0 then some ((dF1 w).map .frcp)
  else if op = 0xa1 then some ((dF1 w).map .frsq)
  else if op = 0xa2 then some ((dF1 w).map .fsqt)
  else if op = 0xa3 then some ((dF2 w).map .fdiv)
  else if op = 0xa4 then some ((dF1 w).map .fex2)
  else if op = 0xa5 then some ((dF1 w).map .flg2)
  else if op = 0xa6 then some ((dF1 w).map .fsin)
  else if op = 0xa7 then some ((dF1 w).map .fcos)
  else if op = 0xa8 then some ((dF1 w).map .ftnh)
  else none

/-- Class 2 (01 Table word-16). -/
def skelNarrow (op w : Nat) : Option (Option Instr) :=
  if op = 0x100 then some ((do return .cvt ⟨← fD w, ← fA w, ← fT w, ← tyOf (bits w 0 4), rndOf (bits w 48 2), bit w 50, bit w 51⟩))
  else if op = 0x101 then some ((dNarrow w).map .cvts)
  else if op = 0x102 then some ((do return .scsel ⟨← fD w, ← fA w, ← fT w, bits w 1 3, bits w 8 10⟩))
  else if op = 0x103 then some ((do return .efq ⟨← fD w, ← fA w, ← fB w, bits w 8 10, ← fT w, bits w 2 2, rndOf (bits w 48 2), bit w 50⟩))
  else if op = 0x104 then some ((dNarrow w).map .bzpk)
  else if op = 0x105 then some ((dUnpack w).map .bzup)
  else if op = 0x106 then some ((dNarrow w).map .f8pk)
  else if op = 0x107 then some ((dUnpack w).map .f8up)
  else if op = 0x108 then some ((dF3 w).map .scacc)
  else none

/-- Class 3 (01 Table word-17). -/
def skelLane (op w : Nat) : Option (Option Instr) :=
  if op = 0x180 then some ((do return .shfl ⟨← fD w, ← fA w, ← fB w, ← shflOf (bits w 6 2), bit w 5, ← segOf (bits w 2 3)⟩))
  else if op = 0x181 then some ((do return .shfx ⟨← fD w, ← fA w, bits w 0 8⟩))
  else if op = 0x182 then some ((do return .bcst ⟨← fD w, ← fA w, ← fB w, bit w 5⟩))
  else if op = 0x183 then some (if bits w 6 2 = 0 then some (.vote (.any (fP w) (bits w 28 10)))
    else if bits w 6 2 = 1 then some (.vote (.all (fP w) (bits w 28 10)))
    else if bits w 6 2 = 2 then do return .vote (.ballot (← fD w) (bits w 28 10))
    else do return .vote (.eq (fP w) (← fA w) (bit w 5)))
  else if op = 0x184 then some ((do return .redt ⟨← fD w, ← fA w, ← fT w, ← redOf (bits w 1 3), bit w 0⟩))
  else if op = 0x185 then some ((do return .scan ⟨← fD w, ← fA w, ← fT w, ← redOf (bits w 1 3), bit w 0⟩))
  else if op = 0x186 then some (if bits w 6 2 = 0 then do return .redx ⟨← fA w, none⟩ else do return .redx ⟨← fA w, some (← fB w)⟩)
  else if op = 0x187 then some ((do return .lacr ⟨← fD w, bit w 4, fR w⟩))
  else if op = 0x188 then some (some .lacz)
  else none

/-- Class 4 (01 Table word-18). -/
def skelCtl (op w : Nat) : Option (Option Instr) :=
  if op = 0x200 then some (some (.braAny (fG w) (sext 18 (bits w 0 18))))
  else if op = 0x201 then some (some (.braAll (fG w) (sext 18 (bits w 0 18))))
  else if op = 0x202 then some ((do return .brx (← fA w) (sext 18 (bits w 0 18))))
  else if op = 0x203 then some (some (.call (bits w 38 9 - 384) (sext 18 (bits w 0 18))))
  else if op = 0x204 then some ((do return .ret (← fA w)))
  else if op = 0x205 then some (if bit w 16 then some (.regang (.sreg (bits w 28 10 - 384))) else some (.regang (.imm (bits w 0 16))))
  else if op = 0x206 then some ((do return .loopOperand (← fA w) (bits w 0 18)))
  else if op = 0x208 then some (some .yield)
  else if op = 0x209 then some (some .nop)
  else if op = 0x20a then some (some .exit)
  else if op = 0x20b then some (some (.trap (bits w 0 18)))
  else if op = 0x20c then some (some (.bkpt (bits w 0 18)))
  else if op = 0x210 then some (some (.racq (bits w 0 18)))
  else if op = 0x211 then some (some (.rrel (bits w 0 8)))
  else if op = 0x218 then some ((do return .bar (bits w 0 4) (← dCount w 9)))
  else if op = 0x219 then some ((do return .bara (← fD w) (bits w 0 4) (← dCount w 9)))
  else if op = 0x21a then some ((do return .barw (← fA w) (bits w 0 4) (bit w 4)))
  else if op = 0x21b then some ((do return .cbar (← fD w) (bits w 0 4) (← dCount w 11)))
  else none

/-- Class 5 (01 Table word-19). -/
def skelMem (op w : Nat) : Option (Option Instr) :=
  if op = 0x280 then some ((dLoad w).map .ld)
  else if op = 0x281 then some ((dStore w).map .st)
  else if op = 0x282 then some ((dLoad w).map .lds)
  else if op = 0x283 then some ((dStore w).map .sts)
  else if op = 0x284 then some ((dLoad w).map .ldw)
  else if op = 0x285 then some ((dStore w).map .stw)
  else if op = 0x286 then some ((dLoad w).map .ldc)
  else if op = 0x287 then some ((dCache w).map .pref)
  else if op = 0x288 then some ((dCache w).map .cflsh)
  else if op = 0x289 then some ((dCache w).map .cinv)
  else if op = 0x28a then some ((do return .fence (← scopeOf (bits w 1 3)) (← fenceOf (bits w 4 2))))
  else if op = 0x28b then some (if bit w 11 then do return .waitc (bits w 12 6) (.opnd (← fA w)) else some (.waitc (bits w 12 6) (.imm (bits w 0 6))))
  else if op = 0x290 then some ((dAtom w).map .atomAdd)
  else if op = 0x291 then some ((dAtom w).map .atomMin)
  else if op = 0x292 then some ((dAtom w).map .atomMax)
  else if op = 0x293 then some ((dAtom w).map .atomAnd)
  else if op = 0x294 then some ((dAtom w).map .atomOr)
  else if op = 0x295 then some ((dAtom w).map .atomXor)
  else if op = 0x296 then some ((dAtom w).map .atomExch)
  else if op = 0x297 then some ((dAtom w).map .atomCas)
  else if op = 0x298 then some ((dAtom w).map .atomFadd)
  else if op = 0x2a0 then some ((dAtom w).map .atomsAdd)
  else if op = 0x2a1 then some ((dAtom w).map .atomsMin)
  else if op = 0x2a2 then some ((dAtom w).map .atomsMax)
  else if op = 0x2a3 then some ((dAtom w).map .atomsAnd)
  else if op = 0x2a4 then some ((dAtom w).map .atomsOr)
  else if op = 0x2a5 then some ((dAtom w).map .atomsXor)
  else if op = 0x2a6 then some ((dAtom w).map .atomsExch)
  else if op = 0x2a7 then some ((dAtom w).map .atomsCas)
  else if op = 0x2a8 then some ((dAtom w).map .atomsFadd)
  else if op = 0x2b0 then some ((do return .rld ⟨← fD w, ← fA w, ← fB w, sext 10 (bits w 8 10), ← sizeOf' (bits w 5 3)⟩))
  else if op = 0x2b1 then some ((do return .rst ⟨fG w, ← regOf (bits w 38 9), ← fA w, ← fB w, sext 10 (bits w 8 10), ← sizeOf' (bits w 5 3)⟩))
  else if op = 0x2b2 then some ((do return .rstf ⟨fG w, ← regOf (bits w 38 9), ← fA w, ← fB w, ← fC w, ← sizeOf' (bits w 5 3)⟩))
  else if op = 0x2b3 then some (some .rfence)
  else if op = 0x2b8 then some ((dRatom w).map .ratomAdd)
  else if op = 0x2b9 then some ((dRatom w).map .ratomMin)
  else if op = 0x2ba then some ((dRatom w).map .ratomMax)
  else if op = 0x2bb then some ((dRatom w).map .ratomAnd)
  else if op = 0x2bc then some ((dRatom w).map .ratomOr)
  else if op = 0x2bd then some ((dRatom w).map .ratomXor)
  else if op = 0x2be then some ((dRatom w).map .ratomExch)
  else if op = 0x2bf then some ((dRatom w).map .ratomCas)
  else if op = 0x2c0 then some ((dRatom w).map .ratomFadd)
  else none

/-- Class 6 (01 Table word-20). -/
def skelEng (op w : Nat) : Option (Option Instr) :=
  if op = 0x300 then some ((dCopy w false).map .copy)
  else if op = 0x301 then some ((dCopy w true).map .copy2)
  else if op = 0x302 then some ((dCopy w false).map .copyf)
  else if op = 0x303 then some ((dCopy w false).map .copyw)
  else if op = 0x304 then some ((dCopy w true).map .copyr)
  else if op = 0x305 then some ((dDA w).map (fun x => .cprog x.1 x.2))
  else if op = 0x306 then some ((dDA w).map (fun x => .ckill x.1 x.2))
  else if op = 0x308 then some ((dDA w).map (fun x => .publ x.1 x.2))
  else if op = 0x310 then some ((do return .harn (bits w 0 8) (← fA w)))
  else if op = 0x311 then some ((dPass w).map .mpass)
  else if op = 0x312 then some ((dPass w).map .mspass)
  else if op = 0x313 then some ((do return .mlut ⟨← fD w, ← fA w, bits w 4 4, bit w 51, bit w 50, bit w 49⟩))
  else if op = 0x314 then some (some (.accrd (dAcc w)))
  else if op = 0x315 then some (some (.accwr (dAcc w)))
  else if op = 0x316 then some ((do return .accz (← accOf (bits w 4 2)) (bits w 0 3)))
  else if op = 0x317 then some (if bit w 0 then (dDAB w).map (fun x => .mprogW x.1 x.2.1 x.2.2) else (dDA w).map (fun x => .mprog x.1 x.2))
  else if op = 0x320 then some ((do return .skupd ⟨(bits w 28 10 - 384) / 8, ← fB w, ← fC w, bit w 0⟩))
  else if op = 0x321 then some ((do return .skqry ⟨← fD w, (bits w 28 10 - 384) / 8, ← fC w, bit w 0⟩))
  else if op = 0x322 then some (some (.skadd ((bits w 28 10 - 384) / 8) ((bits w 18 10 - 384) / 8)))
  else if op = 0x323 then some (some (.skclr ((bits w 28 10 - 384) / 8)))
  else if op = 0x330 then some ((do return .tdec (← fA w) (← fB w)))
  else if op = 0x331 then some ((do return .twait (bits w 38 9) (← fA w) (← fB w) (← fC w)))
  else if op = 0x332 then some ((do return .flgw ⟨bits w 38 9, ← fA w, ← fB w, ← fC w, ← flgOf (bits w 5 3), bit w 4, bit w 3⟩))
  else if op = 0x333 then some (if bit w 0 then (dDA w).map (fun x => .bkarmOff x.1 x.2) else (dDAB w).map (fun x => .bkarm x.1 x.2.1 x.2.2))
  else if op = 0x334 then some ((do return .bkw (bits w 38 9) (← fA w) (← fC w)))
  else if op = 0x338 then some ((dDAB w).map (fun x => .lnch x.1 x.2.1 x.2.2))
  else if op = 0x339 then some ((do return .reln ⟨← fD w, ← fA w, ← fB w, ← relnOf (bits w 0 2)⟩))
  else none

/-- Class 7 (01 Table word-21). -/
def skelSys (op w : Nat) : Option (Option Instr) :=
  if op = 0x380 then some ((do return .csrr (← fD w) (bits w 0 18)))
  else if op = 0x381 then some ((do return .csrw (bits w 0 18) (← fA w)))
  else if op = 0x382 then some (if bits w 0 2 = 0 then some (.tlbiVa (bits w 28 10 - 384)) else if bits w 0 2 = 1 then some .tlbiCtx else some .tlbiAll)
  else if op = 0x383 then some (if bit w 0 then some .haltDev else some .halt)
  else if op = 0x3f0 then some ((dDAB w).map (fun x => .fret x.1 x.2.1 x.2.2))
  else if op = 0x3f1 then some ((dDAB w).map (fun x => .fctxBind x.1 x.2.1 x.2.2))
  else if op = 0x3f2 then some ((dDAB w).map (fun x => .fswpOut x.1 x.2.1 x.2.2))
  else none

/-- The F opcodes, by class (01 R50). -/
def skelF (op w : Nat) : Option (Option Instr) :=
  let cl := op / 128
  if cl = 0 then skelInt op w else if cl = 1 then skelFp op w else if cl = 2 then skelNarrow op w else if cl = 3 then skelLane op w
  else if cl = 4 then skelCtl op w else if cl = 5 then skelMem op w else if cl = 6 then skelEng op w else skelSys op w

/-- What a core word decodes to (01 Table word-13). -/
inductive Dec where
  | ok (i : Instr)
  | illegalOpcode
  | reservedEncoding
deriving DecidableEq, Repr

/-- A word's instruction is legal when it is well formed and its encoding is the word. -/
def legalCore (w : Nat) (o : Option Instr) : Dec :=
  match o with
  | none => .reservedEncoding
  | some i => if i.wf && encodeCore i == w then .ok i else .reservedEncoding

/-- Decode a 64-bit core word, by form (01 Table word-1), with the fates of 01 Table word-13. -/
def decodeCore (w : Nat) : Dec :=
  let form := bits w 62 2
  let op := bits w 52 10
  if form = 0 then
    if op = 0x20 ∨ op = 0x207 then .reservedEncoding
    else match skelF op w with
      | none => .illegalOpcode
      | some o => legalCore w o
  else if form = 2 then
    if op = 0x20 then legalCore w (do return .movi ⟨← fD w, ← moviOf (bits w 0 6), BitVec.ofNat 32 (bits w 6 32)⟩)
    else if op = 0x207 then legalCore w (some (.loopImmediate (bits w 22 16) (bits w 6 16)))
    else if (skelF op w).isSome then .reservedEncoding else .illegalOpcode
  else if form = 1 then
    match dHalf (bits w 31 31), dHalf (bits w 0 31) with
    | some h, some o => legalCore w (some (pInstr h.op h.args o))
    | _, _ => .illegalOpcode
  else if bits w 56 6 = 1 then legalCore w (some (.rep (dRep w)))
  else .illegalOpcode

/-! ## NMU and Cratch words -/

/-- The fields of an NMU word by opcode: `none` unassigned (11 Table sketch-8). -/
def skelNmu (op w : Nat) : Option (Option Instr) :=
  let mem : NmuMem := ⟨bits w 21 5, bits w 17 4, bit w 16, bits w 7 8 + 1⟩
  let v2 : NmuV2 := ⟨bits w 21 5, bits w 16 5, bits w 11 5, rndOf (bits w 0 2)⟩
  if op = 1 then some (some (.nldv mem)) else if op = 2 then some (some (.nstv mem))
  else if op = 4 then some (some (.nadd v2)) else if op = 5 then some (some (.nsub v2)) else if op = 6 then some (some (.nmul v2))
  else if op = 7 then some (some (.nfma ⟨bits w 21 5, bits w 16 5, bits w 11 5, bits w 6 5, rndOf (bits w 0 2)⟩))
  else if op = 8 then some (some (.nmin v2)) else if op = 9 then some (some (.nmax v2))
  else if op = 10 then some (some (.nrsq (bits w 21 5) (bits w 16 5)))
  else if op = 11 then some ((ncvtOf (bits w 8 3)).map (fun k => .ncvt (bits w 21 5) (bits w 16 5) k (rndOf (bits w 0 2))))
  else if op = 0x10 then some (some (.nsku (bits w 21 5) (bits w 17 4) (bits w 13 4) (bits w 5 8 + 1)))
  else if op = 0x11 then some (some (.nskq (bits w 21 5) (bits w 17 4) (bits w 13 4) (bits w 5 8 + 1)))
  else if op = 0x12 then some (some (.nska (bits w 13 4) (bits w 17 4)))
  else if op = 0x13 then some (some (.nskc (bits w 13 4)))
  else if op = 0x18 then some (some (if bit w 20 then .nsetReg (bits w 21 5) (bits w 16 4) else .nsetImm (bits w 21 5) (bits w 0 20)))
  else if op = 0x19 then some (some (.naddi (bits w 22 4) (bits w 18 4) (bits w 16 2) (bits w 0 16)))
  else if op = 0x1C then
    some (some (if bit w 25 then .nloopReg (bits w 21 4) (bits w 0 12) else .nloopImm (bits w 12 13) (bits w 0 12)))
  else if op = 0x1D then some ((nbraOf (bits w 19 3)).map (fun c => .nbra c (bits w 22 4) (bits w 0 16)))
  else if op = 0x1E then some (some (.nwait (bits w 22 4) (bits w 18 4)))
  else if op = 0x1F then some (some (.nsig (bits w 22 4)))
  else if op = 0x20 then some (some .nfence)
  else if op = 0x3F then some (some .nend)
  else none

/-- Decode an NMU word (11 R366, Table sketch-7 causes 1 and 2). -/
def decodeNmu (w : Nat) : Dec :=
  match skelNmu (bits w 26 6) w with
  | none => .illegalOpcode
  | some none => .reservedEncoding
  | some (some i) => if i.wf && encodeNmu i == w then .ok i else .reservedEncoding

/-- The fields of a Cratch word by opcode: `none` unassigned (16 Table circuit-7). -/
def skelCratch (op w : Nat) : Option (Option Instr) :=
  let a := bits w 22 4
  let b := bits w 18 4
  let c := bits w 14 4
  if op = 1 then some (some (if bit w 21 then .movqImm a (sext 21 (bits w 0 21)) else .movqReg a (bits w 17 4)))
  else if op = 2 then some (some (if bit w 17 then .addqImm a b (sext 17 (bits w 0 17)) else .addqReg a b (bits w 13 4)))
  else if op = 3 then some (some (if bit w 17 then .subqImm a b (sext 17 (bits w 0 17)) else .subqReg a b (bits w 13 4)))
  else if op = 4 then
    some ((qcOf (bits w 19 3)).map (fun cc => if bit w 18 then .cmpqImm cc a (sext 18 (bits w 0 18)) else .cmpqReg cc a c))
  else if op = 5 then some (some (.brq (bit w 21) a (sext 16 (bits w 0 16))))
  else if op = 6 then some ((brcOf (bits w 24 2)).map (fun k => .brc k (sext 16 (bits w 0 16))))
  else if op = 8 then some (some (.creq a b))
  else if op = 9 then some ((tgtOf (bits w 12 2)).map (fun t => .cwait t a b c))
  else if op = 10 then some (some (.crel a)) else if op = 11 then some (some (.cstat a b))
  else if op = 12 then some (some (if bit w 17 then .buckOff a else .buck a b))
  else if op = 13 then some (some (.park a b)) else if op = 14 then some (some (.wake a b)) else if op = 15 then some (some (.setw a b))
  else if op = 16 then some (some (.msg a b)) else if op = 17 then some (some (.mrcv a b c))
  else if op = 18 then some (some (.tsig a b)) else if op = 19 then some (some (.twt a b c))
  else if op = 20 then some (some (.time a))
  else if op = 21 then some (some (if bit w 21 then .dlyImm (bits w 0 21) else .dlyReg a))
  else if op = 22 then some (some (.evt a)) else if op = 23 then some (some .endScript)
  else none

/-- Decode a Cratch word (16 R481, Table circuit-6 causes 1 and 2). -/
def decodeCratch (w : Nat) : Dec :=
  match skelCratch (bits w 26 6) w with
  | none => .illegalOpcode
  | some none => .reservedEncoding
  | some (some i) => if i.wf && encodeCratch i == w then .ok i else .reservedEncoding

/-- Whether an instruction is an NMU word's. -/
def Instr.isNmu : Instr → Bool
  | .nldv _ | .nstv _ | .nadd _ | .nsub _ | .nmul _ | .nfma _ | .nmin _ | .nmax _ | .nrsq _ _ | .ncvt _ _ _ _ | .nsku _ _ _ _
  | .nskq _ _ _ _ | .nska _ _ | .nskc _ | .nsetImm _ _ | .nsetReg _ _ | .naddi _ _ _ _ | .nloopImm _ _ | .nloopReg _ _ | .nbra _ _ _
  | .nwait _ _ | .nsig _ | .nfence | .nend => true
  | _ => false

/-- Whether an instruction is a Cratch word's. -/
def Instr.isCratch : Instr → Bool
  | .movqReg _ _ | .movqImm _ _ | .addqReg _ _ _ | .addqImm _ _ _ | .subqReg _ _ _ | .subqImm _ _ _ | .cmpqReg _ _ _ | .cmpqImm _ _ _
  | .brq _ _ _ | .brc _ _ | .creq _ _ | .cwait _ _ _ _ | .crel _ | .cstat _ _ | .buck _ _ | .buckOff _ | .park _ _ | .wake _ _
  | .setw _ _ | .msg _ _ | .mrcv _ _ _ | .tsig _ _ | .twt _ _ _ | .time _ | .dlyReg _ | .dlyImm _ | .evt _ | .endScript => true
  | _ => false

/-- Forget the reason of a refusal. -/
def Dec.toOption : Dec → Option Instr
  | .ok i => some i
  | _ => none

/-- The instruction that the decoders read from the bits of an instruction as the opcode table numbers them: a 64-bit word is a core
word; a 32-bit word is read as an NMU word, and where it is none as a Cratch word (the two share their numbers, 11 and 16). -/
def decodeTableWord (nbits w : Nat) : Option Instr :=
  if 2 ^ nbits ≤ w then none
  else if 32 < nbits then (decodeCore w).toOption
  else
    match (decodeNmu w).toOption with
    | some i => some i
    | none => (decodeCratch w).toOption

end Sys2Proof
end

