-- ==== Sys2Proof/Config.lean ====
section
/-! DEFINITION. What an implementation fixes and the free values: constants without a body, so that nothing can be proved about
the value they give (notes/assumptions/4, 11, 19). -/

namespace Sys2Proof.Config

/-- FRSQ and NRSQ inside the bound of 04 Table arith-4: a candidate result, kept only where the bound admits it (04 R135, R137). -/
opaque frsq : W32 → W32
/-- FEX2, as `frsq`. -/
opaque fex2 : W32 → W32
/-- FLG2, as `frsq`. -/
opaque flg2 : W32 → W32
/-- FSIN, as `frsq`. -/
opaque fsin : W32 → W32
/-- FCOS, as `frsq`. -/
opaque fcos : W32 → W32
/-- FTNH, as `frsq`. -/
opaque ftnh : W32 → W32

/-- An unspecified choice (00 R19), numbered by the state's counter. The step reduces it into the range of the choice. -/
opaque choice : Nat → Nat

/-- A byte of unspecified data: what a read under another key returns (06 R212), by the state's counter and the byte's address. -/
opaque freeByte : Nat → Nat → Byte

/-- What a register that the warp does not hold reads as (02 R64), by the cycle, the warp, the code and the lane: a word whose
destination is such a register with its write-back suppressed is not refused, and shows the part it keeps in its window entry. -/
opaque unheldReg : Nat → Nat → Nat → Nat → W32

/-- The first of the 72 frames of 2 MiB that firmware takes on a stack as image frames (14 R429): the spec does not say where they lie. The
use reduces it into the stack. -/
opaque imageFrame : Nat → Nat

/-- The digest of the accepted firmware image (14 R440): the spec gives no image. -/
opaque firmwareMeasurement : BitVec 384
/-- The fused rollback count (14 R440). -/
opaque rollbackCount : W64
/-- The device identity public key (14 R440), uncompressed P-384 point. -/
opaque identityKey : BitVec 768
/-- The ECDSA P-384 signature under the fused identity key over a report of 14 R440, a free value of the report's bytes. -/
opaque sign : List Byte → BitVec 768

end Sys2Proof.Config
end

