-- ==== Sys2Proof/Machine/Fp.lean ====
section
/-! DEFINITION. Values of the floating-point formats as exact numbers, and their rounding (03 R89-R97), with the special functions of
04 R135-R137. -/

namespace Sys2Proof.Machine

/-- An exact value: NaN, an infinity, or the fraction `num / den` with a sign, which a zero has too (00 R17, 03 R93). -/
inductive XR where
  | nan
  | inf (neg : Bool)
  | fin (neg : Bool) (num den : Nat)
deriving DecidableEq, Repr

/-- A format (03 Table value-1): widths of exponent and fraction; `m8` is FP8M, which has no infinities and one NaN. -/
structure Fmt where
  ew : Nat
  fw : Nat
  m8 : Bool
deriving DecidableEq, Repr

def fp64 : Fmt := ⟨11, 52, false⟩
def fp32 : Fmt := ⟨8, 23, false⟩
def fp16 : Fmt := ⟨5, 10, false⟩
def bf16 : Fmt := ⟨8, 7, false⟩
def fp8m : Fmt := ⟨4, 3, true⟩
def fp8e : Fmt := ⟨5, 2, false⟩

/-- The exponent bias. -/
def Fmt.bias (f : Fmt) : Nat := 2 ^ (f.ew - 1) - 1

/-- Width in bits. -/
def Fmt.width (f : Fmt) : Nat := 1 + f.ew + f.fw

/-- The largest finite magnitude code (03 Table value-1, R90). -/
def Fmt.maxCode (f : Fmt) : Nat := if f.m8 then 2 ^ (f.ew + f.fw) - 2 else (2 ^ f.ew - 1) * 2 ^ f.fw - 1

/-- The code of +infinity; FP8M has none. -/
def Fmt.infCode (f : Fmt) : Nat := (2 ^ f.ew - 1) * 2 ^ f.fw

/-- The canonical NaN (03 R95). -/
def Fmt.nanCode (f : Fmt) : Nat := if f.m8 then 2 ^ (f.ew + f.fw) - 1 else f.infCode + 2 ^ (f.fw - 1)

/-- A magnitude code with a sign. -/
def Fmt.sign (f : Fmt) (neg : Bool) (c : Nat) : Nat := if neg then c + 2 ^ (f.ew + f.fw) else c

/-- The value of a code (03 R89-R91). -/
def Fmt.value (f : Fmt) (w : Nat) : XR :=
  let neg := bit w (f.ew + f.fw)
  let m := w % 2 ^ (f.ew + f.fw)
  let e := m / 2 ^ f.fw
  let fr := m % 2 ^ f.fw
  if f.maxCode < m then
    if !f.m8 && m == f.infCode then .inf neg else .nan
  else if e = 0 then .fin neg fr (2 ^ (f.bias + f.fw - 1))
  else
    let s := 2 ^ f.fw + fr
    if f.bias + f.fw ≤ e then .fin neg (s * 2 ^ (e - f.bias - f.fw)) 1
    else .fin neg s (2 ^ (f.bias + f.fw - e))

/-- Whether a code is subnormal. -/
def Fmt.subnormal (f : Fmt) (w : Nat) : Bool :=
  let m := w % 2 ^ (f.ew + f.fw)
  decide (0 < m) && decide (m < 2 ^ f.fw)

/-- Flush a subnormal code to the zero of its sign (03 R94). -/
def Fmt.flush (f : Fmt) (ftz : Bool) (w : Nat) : Nat :=
  if ftz && f.subnormal w then w / 2 ^ (f.ew + f.fw) % 2 * 2 ^ (f.ew + f.fw) else w

/-- Round `num / den` to an integer in a mode (03 R93). -/
def roundNat (mode : Rnd) (neg : Bool) (num den : Nat) : Nat :=
  let q := num / den
  let r := num % den
  let up := match mode with
    | .rn => if 2 * r = den then q % 2 == 1 else decide (den < 2 * r)
    | .rz => false
    | .rp => !neg && r != 0
    | .rm => neg && r != 0
  if up then q + 1 else q

/-- The exponent of a positive fraction: the greatest e with 2^e ≤ num / den. -/
def ilog2 (num den : Nat) : Int :=
  let e : Int := (Nat.log2 num : Int) - (Nat.log2 den : Int)
  if 0 ≤ e then (if num < den * 2 ^ e.toNat then e - 1 else e)
  else (if num * 2 ^ (-e).toNat < den then e - 1 else e)

/-- The magnitude code of a positive fraction rounded with an unbounded exponent above: it may exceed `maxCode` (03 R93, R97). -/
def Fmt.roundMag (f : Fmt) (mode : Rnd) (neg : Bool) (num den : Nat) : Nat :=
  if num = 0 then 0
  else
    let emin : Int := 1 - (f.bias : Int)
    let e0 := ilog2 num den
    let e := if e0 < emin then emin else e0
    let q := e - (f.fw : Int)
    let n := if 0 ≤ q then roundNat mode neg num (den * 2 ^ q.toNat) else roundNat mode neg (num * 2 ^ (-q).toNat) den
    ((e - emin).toNat) * 2 ^ f.fw + n

/-- IEEE overflow of a mode (03 R97): infinity, or the largest finite value. -/
def Fmt.ieeeOver (f : Fmt) (mode : Rnd) (neg : Bool) : Nat :=
  match mode with
  | .rn => f.infCode
  | .rz => f.maxCode
  | .rp => if neg then f.maxCode else f.infCode
  | .rm => if neg then f.infCode else f.maxCode

/-- Whether a finite value overflows the format after rounding (03 R104). -/
def Fmt.overflows (f : Fmt) (mode : Rnd) (x : XR) : Bool :=
  match x with
  | .fin neg n d => decide (f.maxCode < f.roundMag mode neg n d)
  | _ => false

/-- Round an exact value into an IEEE format (03 R93, R95, R97). -/
def Fmt.round (f : Fmt) (mode : Rnd) (x : XR) : Nat :=
  match x with
  | .nan => f.nanCode
  | .inf neg => f.sign neg f.infCode
  | .fin neg n d =>
    let c := f.roundMag mode neg n d
    f.sign neg (if f.maxCode < c then f.ieeeOver mode neg else c)

/-- Round an exact value into any format, FP8 by 03 Table value-2. -/
def Fmt.narrow (f : Fmt) (mode : Rnd) (nsat : Bool) (x : XR) : Nat :=
  let ovf (neg : Bool) (inf : Bool) : Nat :=
    if f.m8 then (if nsat then f.nanCode else f.sign neg f.maxCode)
    else if f.ew = 5 ∧ f.fw = 2 then
      (if nsat then f.sign neg (if inf then f.infCode else f.ieeeOver mode neg) else f.sign neg f.maxCode)
    else f.sign neg (if inf then f.infCode else f.ieeeOver mode neg)
  match x with
  | .nan => f.nanCode
  | .inf neg => ovf neg true
  | .fin neg n d =>
    let c := f.roundMag mode neg n d
    if f.maxCode < c then ovf neg false else f.sign neg c

/-! ## Exact arithmetic -/

/-- Negation. -/
def XR.neg : XR → XR
  | .nan => .nan
  | .inf s => .inf (!s)
  | .fin s n d => .fin (!s) n d

/-- The signed numerator. -/
def signed (neg : Bool) (n : Nat) : Int := if neg then -(n : Int) else (n : Int)

/-- An exact number from an integer over a positive denominator; a zero has the given sign. -/
def XR.ofInt (i : Int) (d : Nat) (zneg : Bool) : XR :=
  if i = 0 then .fin zneg 0 1 else .fin (decide (i < 0)) i.natAbs d

/-- The sign of an exact sum that is zero (03 R93, 04 R130): -0 when every term is -0; +0 when every term is +0, as
IEEE 754 has it, though the last bullet of R93 taken alone would make it -0 under rm (DESIGN CHOICE, notes/assumptions/82); else by the
mode. -/
def zeroSign (mode : Rnd) (allNegZero allPosZero : Bool) : Bool :=
  if allNegZero then true else if allPosZero then false else mode == .rm

/-- An exact sum of two values (03 R93). -/
def XR.add (mode : Rnd) (x y : XR) : XR :=
  match x, y with
  | .nan, _ => .nan
  | _, .nan => .nan
  | .inf s, .inf t => if s = t then .inf s else .nan
  | .inf s, _ => .inf s
  | _, .inf t => .inf t
  | .fin s n d, .fin t m e =>
    XR.ofInt (signed s n * (e : Int) + signed t m * (d : Int)) (d * e)
      (zeroSign mode (n == 0 && m == 0 && s && t) (n == 0 && m == 0 && !s && !t))

/-- An exact product. -/
def XR.mul (x y : XR) : XR :=
  match x, y with
  | .nan, _ => .nan
  | _, .nan => .nan
  | .inf s, .inf t => .inf (s != t)
  | .inf s, .fin t n _ => if n = 0 then .nan else .inf (s != t)
  | .fin s n _, .inf t => if n = 0 then .nan else .inf (s != t)
  | .fin s n d, .fin t m e => .fin (s != t) (n * m) (d * e)

/-- An exact quotient; a nonzero finite value over zero is infinite, and 0/0 and inf/inf are NaN (04 R136). -/
def XR.div (x y : XR) : XR :=
  match x, y with
  | .nan, _ => .nan
  | _, .nan => .nan
  | .inf _, .inf _ => .nan
  | .inf s, .fin t _ _ => .inf (s != t)
  | .fin s _ _, .inf t => .fin (s != t) 0 1
  | .fin s n d, .fin t m e =>
    if m = 0 then (if n = 0 then .nan else .inf (s != t)) else .fin (s != t) (n * e) (d * m)

/-- Integer square root by bisection on `fuel` bits, from the top. -/
def isqrtAux (n : Nat) : Nat → Nat → Nat
  | 0, r => r
  | b + 1, r => let t := r + 2 ^ b; isqrtAux n b (if t * t ≤ n then t else r)

/-- The floor of the square root. -/
def isqrt (n : Nat) : Nat := isqrtAux n (Nat.log2 n / 2 + 1) 0

/-- The square root to at least 64 bits with a sticky last bit, so that any rounding of it is the rounding of the exact root. -/
def sqrtFrac (num den : Nat) : Nat × Nat :=
  let k := 72 + Nat.log2 den
  let v := num * 4 ^ k
  let s := isqrt (v / den)
  (2 * s + (if s * s * den = v then 0 else 1), 2 * 2 ^ k)

/-- The exact square root of a value, as far as rounding can tell (04 R135, Table arith-5). -/
def XR.sqrt : XR → XR
  | .nan => .nan
  | .inf s => if s then .nan else .inf false
  | .fin s n d => if n = 0 then .fin s 0 1 else if s then .nan else
      let r := sqrtFrac n d
      .fin false r.1 r.2

/-- Comparison of two values that are not NaN: negative, zero or positive as x is below, equal to or above y. -/
def XR.cmp (x y : XR) : Int :=
  match x, y with
  | .inf s, .inf t => if s = t then 0 else if s then -1 else 1
  | .inf s, _ => if s then -1 else 1
  | _, .inf t => if t then 1 else -1
  | .fin s n d, .fin t m e => signed s n * (e : Int) - signed t m * (d : Int)
  | _, _ => 0

/-- Whether a value is NaN. -/
def XR.isNan : XR → Bool
  | .nan => true
  | _ => false

/-- Whether a value is negative, zero with a minus sign among it. -/
def XR.isNeg : XR → Bool
  | .nan => false
  | .inf s => s
  | .fin s _ _ => s

/-- Round to an integer, NaN to 0 and infinities beyond any range (03 R88); `none` marks an infinity by its sign. -/
def XR.toInt (mode : Rnd) (lo hi : Int) : XR → Int
  | .nan => 0
  | .inf s => if s then lo else hi
  | .fin s n d => clampI (signed s (roundNat mode s n d)) lo hi

/-! ## One-format operations: read with flush, compute, round, flush -/

/-- A binary operation on codes. -/
def Fmt.op2 (f : Fmt) (mode : Rnd) (ftz : Bool) (g : XR → XR → XR) (a b : Nat) : Nat :=
  f.flush ftz (f.round mode (g (f.value (f.flush ftz a)) (f.value (f.flush ftz b))))

/-- FADD and its kin (04 R130). -/
def Fmt.add (f : Fmt) (mode : Rnd) (ftz : Bool) : Nat → Nat → Nat := f.op2 mode ftz (XR.add mode)
/-- FSUB and its kin. -/
def Fmt.sub (f : Fmt) (mode : Rnd) (ftz : Bool) : Nat → Nat → Nat := f.op2 mode ftz (fun x y => XR.add mode x y.neg)
/-- FMUL and its kin. -/
def Fmt.mul (f : Fmt) (mode : Rnd) (ftz : Bool) : Nat → Nat → Nat := f.op2 mode ftz XR.mul
/-- FDIV (04 R135, R136). -/
def Fmt.div (f : Fmt) (mode : Rnd) (ftz : Bool) : Nat → Nat → Nat := f.op2 mode ftz XR.div

/-- FFMA and its kin: one rounding (04 R130). -/
def Fmt.fma (f : Fmt) (mode : Rnd) (ftz : Bool) (a b c : Nat) : Nat :=
  let v := fun w => f.value (f.flush ftz w)
  f.flush ftz (f.round mode (XR.add mode (XR.mul (v a) (v b)) (v c)))

/-- Whether x orders below y, with -0 below +0 (04 R131). -/
def XR.below (x y : XR) : Bool :=
  let c := XR.cmp x y
  if c = 0 then x.isNeg && !y.isNeg else decide (c < 0)

/-- FMIN (`max = false`) and FMAX on codes (04 R131). -/
def Fmt.minmax (f : Fmt) (ftz : Bool) (max : Bool) (a b : Nat) : Nat :=
  let a := f.flush ftz a % 2 ^ f.width
  let b := f.flush ftz b % 2 ^ f.width
  let x := f.value a
  let y := f.value b
  if x.isNan then (if y.isNan then f.nanCode else b)
  else if y.isNan then a
  else if (if max then XR.below x y else XR.below y x) then b else a

/-- A comparison (04 Table arith-3). -/
def Fmt.fcmp (f : Fmt) (ftz : Bool) (cc : FCc) (a b : Nat) : Bool :=
  let x := f.value (f.flush ftz a)
  let y := f.value (f.flush ftz b)
  let un := x.isNan || y.isNan
  let c := XR.cmp x y
  match cc with
  | .eq => !un && c == 0
  | .ne => un || c != 0
  | .lt => !un && decide (c < 0)
  | .le => !un && decide (c ≤ 0)
  | .gt => !un && decide (0 < c)
  | .ge => !un && decide (0 ≤ c)
  | .num => !un
  | .nan => un

/-- The class bit of a code (04 R134). -/
def Fmt.cls (f : Fmt) (w : Nat) : Nat :=
  match f.value w with
  | .nan => 0
  | .inf s => if s then 1 else 8
  | .fin s n _ =>
    if n = 0 then (if s then 4 else 5)
    else if f.subnormal w then (if s then 3 else 6)
    else (if s then 2 else 7)

/-! ## Special functions (04 R135-R137)

Each is computed in fixed point with 160 fraction bits; a candidate of Config is kept where it meets the bound. -/

/-- Fraction bits of the fixed-point computation. -/
def fxBits : Nat := 160

/-- One in fixed point. -/
def fxOne : Int := ((2 ^ fxBits : Nat) : Int)

/-- A product in fixed point. -/
def fxMul (a b : Int) : Int := a * b / fxOne

/-- pi times 2^320, rounded down. -/
def piScaled : Int :=
  6710401180212168915155840974220003240804194089427148950727106424351713218671805380099500388914039

/-- ln 2 in fixed point: the sum of 1 / (k 2^k). -/
def ln2Aux : Nat → Int
  | 0 => 0
  | k + 1 => ln2Aux k + fxOne / (((k + 1) * 2 ^ (k + 1) : Nat) : Int)

/-- ln 2 in fixed point. -/
def fxLn2 : Int := ln2Aux 165

/-- The Taylor sum of exp from term `k` on: `fuel` terms, `t` the current term. -/
def expAux (x : Int) : Nat → Nat → Int → Int
  | 0, _, _ => 0
  | n + 1, k, t => t + expAux x n (k + 1) (fxMul t x / ((k + 1 : Nat) : Int))

/-- exp of a fixed-point value between -1 and 1. -/
def fxExp (x : Int) : Int := expAux x 45 0 fxOne

/-- The alternating Taylor sum of sine (from k = 1, t = x) and cosine (from k = 0, t = 1). -/
def trigAux (x2 : Int) : Nat → Nat → Int → Int
  | 0, _, _ => 0
  | n + 1, k, t => t + trigAux x2 n (k + 2) (-(fxMul t x2) / (((k + 1) * (k + 2) : Nat) : Int))

/-- The odd series of atanh: t + t^3/3 + ... -/
def atanhAux (t2 : Int) : Nat → Nat → Int → Int
  | 0, _, _ => 0
  | n + 1, k, p => p / ((k : Nat) : Int) + atanhAux t2 n (k + 2) (fxMul p t2)

/-- An approximated real value: mantissa in fixed point times 2^e. -/
def fxToXR (m : Int) (e : Int) : XR :=
  let num := m.natAbs
  if 0 ≤ e then .fin (decide (m < 0)) (num * 2 ^ e.toNat) (2 ^ fxBits)
  else .fin (decide (m < 0)) num (2 ^ (fxBits + (-e).toNat))

/-- 2^(num/den) of a signed fraction. -/
def xrExp2 (neg : Bool) (num den : Nat) : XR :=
  let i := signed neg num
  let n := i / (den : Int)
  let f := (i - n * (den : Int)) * fxOne / (den : Int)
  fxToXR (fxExp (fxMul f fxLn2)) n

/-- log2 of a positive fraction. -/
def xrLog2 (num den : Nat) : XR :=
  let e := ilog2 num den
  let m := if 0 ≤ e then (num : Int) * fxOne / ((den * 2 ^ e.toNat : Nat) : Int) else (num * 2 ^ (-e).toNat : Nat) * fxOne / (den : Int)
  let t := (m - fxOne) * fxOne / (m + fxOne)
  let l := 2 * atanhAux (fxMul t t) 55 1 t
  let r := e * fxOne + l * fxOne / fxLn2
  .fin (decide (r < 0)) r.natAbs (2 ^ fxBits)

/-- sine (`c = false`) or cosine of a signed fraction, reduced against pi. -/
def xrTrig (c : Bool) (neg : Bool) (num den : Nat) : XR :=
  let half := piScaled / 2
  let x := signed neg num * ((2 ^ 320 : Nat) : Int) / (den : Int)
  let k := (x + half / 2) / half
  let r := (x - k * half) / ((2 ^ (320 - fxBits) : Nat) : Int)
  let r2 := fxMul r r
  let q := (k + (if c then 1 else 0)) % 4
  let v := if q % 2 = 0 then trigAux r2 26 1 r else trigAux r2 26 0 fxOne
  let v := if q < 2 then v else -v
  .fin (decide (v < 0)) v.natAbs (2 ^ fxBits)

/-- tanh of a signed fraction. -/
def xrTanh (neg : Bool) (num den : Nat) : XR :=
  if num > 64 * den then .fin neg 1 1
  else
    let y := (2 * num : Nat) * fxOne / (den : Int)
    let n := y / fxLn2
    let e := fxExp (y - n * fxLn2) * ((2 ^ n.toNat : Nat) : Int)
    let v := (e - fxOne) * fxOne / (e + fxOne)
    .fin neg v.natAbs (2 ^ fxBits)

/-- The FP32 spacing at a magnitude (04 R135): the exponent of one ulp. -/
def ulpExp (num den : Nat) : Int :=
  if num = 0 then -149
  else
    let e := ilog2 num den - 23
    if e < -149 then -149 else e

/-- Whether a candidate lies within `n` ulp, or 2^-k absolute, of an exact value. -/
def withinBound (n k : Nat) (exact cand : XR) : Bool :=
  match exact, cand with
  | .fin s a b, .fin t c d =>
    let diff := (signed s a * (d : Int) - signed t c * (b : Int)).natAbs
    let u := ulpExp a b
    let inUlp := if 0 ≤ u then decide (diff ≤ n * 2 ^ u.toNat * (b * d)) else decide (diff * 2 ^ (-u).toNat ≤ n * (b * d))
    inUlp || (k != 0 && decide (diff * 2 ^ k ≤ b * d))
  | _, _ => false

/-- A bounded function's result: the candidate within the bound, else the exact value rounded under rn (04 R135, R137). -/
def boundedFn (n k : Nat) (exact : XR) (cand : W32) : Nat :=
  if withinBound n k exact (fp32.value cand.toNat) then cand.toNat else fp32.round .rn exact

/-- FRSQ and NRSQ on a code (04 Tables arith-4, arith-5). -/
def frsqCode (w : Nat) : Nat :=
  match fp32.value w with
  | .nan => fp32.nanCode
  | .inf s => if s then fp32.nanCode else 0
  | .fin s n d =>
    if n = 0 then fp32.sign s fp32.infCode
    else if s then fp32.nanCode
    else
      let r := sqrtFrac d n
      boundedFn 1 0 (.fin false r.1 r.2) (Config.frsq (BitVec.ofNat 32 w))

/-- FEX2 on a code. -/
def fex2Code (w : Nat) : Nat :=
  match fp32.value w with
  | .nan => fp32.nanCode
  | .inf s => if s then 0 else fp32.infCode
  | .fin s n d =>
    if n = 0 then fp32.round .rn (.fin false 1 1)
    else if n % d = 0 ∧ n ≤ (if s then 149 else 127) * d then
      (if s then fp32.round .rn (.fin false 1 (2 ^ (n / d))) else fp32.round .rn (.fin false (2 ^ (n / d)) 1))
    else if n ≥ 1024 * d then (if s then boundedFn 2 0 (.fin false 1 (2 ^ 1024)) (Config.fex2 (BitVec.ofNat 32 w)) else fp32.infCode)
    else boundedFn 2 0 (xrExp2 s n d) (Config.fex2 (BitVec.ofNat 32 w))

/-- FLG2 on a code. -/
def flg2Code (w : Nat) : Nat :=
  match fp32.value w with
  | .nan => fp32.nanCode
  | .inf s => if s then fp32.nanCode else fp32.infCode
  | .fin s n d =>
    if n = 0 then fp32.sign true fp32.infCode
    else if s then fp32.nanCode
    else
      let e := ilog2 n d
      let pow := if 0 ≤ e then decide (n = d * 2 ^ e.toNat) else decide (n * 2 ^ (-e).toNat = d)
      if pow then fp32.round .rn (XR.ofInt e 1 false)
      else
        let near := decide (d ≤ 2 * n) && decide (n ≤ 2 * d)
        boundedFn 2 (if near then 22 else 0) (xrLog2 n d) (Config.flg2 (BitVec.ofNat 32 w))

/-- FSIN (`c = false`) and FCOS on a code. -/
def trigCode (c : Bool) (w : Nat) : Nat :=
  match fp32.value w with
  | .nan => fp32.nanCode
  | .inf _ => fp32.nanCode
  | .fin s n d =>
    if n = 0 then (if c then fp32.round .rn (.fin false 1 1) else fp32.sign s 0)
    else boundedFn 2 24 (xrTrig c s n d) (if c then Config.fcos (BitVec.ofNat 32 w) else Config.fsin (BitVec.ofNat 32 w))

/-- FTNH on a code. -/
def ftnhCode (w : Nat) : Nat :=
  match fp32.value w with
  | .nan => fp32.nanCode
  | .inf s => fp32.sign s (fp32.round .rn (.fin false 1 1))
  | .fin s n d =>
    if n = 0 then fp32.sign s 0
    else boundedFn 2 24 (xrTanh s n d) (Config.ftnh (BitVec.ofNat 32 w))

/-- FRCP on a code, in a mode (04 R135). -/
def frcpCode (mode : Rnd) (w : Nat) : Nat := fp32.round mode (XR.div (.fin false 1 1) (fp32.value w))

/-- FSQT on a code, in a mode. -/
def fsqtCode (mode : Rnd) (w : Nat) : Nat := fp32.round mode (fp32.value w).sqrt

end Sys2Proof.Machine
end

