-- ==== Sys2Proof/Machine/SMap.lean ====
section
/-! DEFINITION. Operations of the sorted maps and of the byte memory: one canonical form, keys strictly rising, and in a map with a
default no entry equal to the default. -/

namespace Sys2Proof.Machine

/-- The value at a key. -/
def mget {α : Type} : SMap α → Nat → Option α
  | [], _ => none
  | (k', v) :: t, k => if k' = k then some v else mget t k

/-- The value at a key, or the default. -/
def mgetD {α : Type} (m : SMap α) (k : Nat) (d : α) : α := (mget m k).getD d

/-- Insert or replace, keeping the keys rising. -/
def mset {α : Type} : SMap α → Nat → α → SMap α
  | [], k, v => [(k, v)]
  | (k', v') :: t, k, v =>
    if k < k' then (k, v) :: (k', v') :: t
    else if k = k' then (k, v) :: t
    else (k', v') :: mset t k v

/-- Remove a key. -/
def mdel {α : Type} : SMap α → Nat → SMap α
  | [], _ => []
  | (k', v') :: t, k => if k' = k then mdel t k else (k', v') :: mdel t k

/-- Write in a map with a default: the default is never listed. -/
def mput {α : Type} [DecidableEq α] (d : α) (m : SMap α) (k : Nat) (v : α) : SMap α :=
  if v = d then mdel m k else mset m k v

/-- Replace the value at a key by a function of the old one; nothing happens where the key is absent. -/
def madj {α : Type} (m : SMap α) (k : Nat) (f : α → α) : SMap α :=
  match mget m k with
  | some v => mset m k (f v)
  | none => m

/-- Change every value. -/
def mmap {α β : Type} (f : α → β) (m : SMap α) : SMap β := m.map (fun x => (x.1, f x.2))

/-- The least number at or above `n`, below `n + fuel`, that is no key. -/
def mfresh {α : Type} (m : SMap α) (n : Nat) : Nat → Nat
  | 0 => n
  | fuel + 1 => if (mget m n).isSome then mfresh m (n + 1) fuel else n

/-- Every key of the tail lies above `k`, and rises. -/
def keysAbove {α : Type} : Nat → SMap α → Bool
  | _, [] => true
  | k, (k', _) :: t => decide (k < k') && keysAbove k' t

/-- The canonical form of a map: keys strictly rising. -/
def mapWf {α : Type} : SMap α → Bool
  | [] => true
  | (k, _) :: t => keysAbove k t

/-- No entry equals the default. -/
def noDefault {α : Type} [DecidableEq α] (d : α) : SMap α → Bool
  | [] => true
  | (_, v) :: t => decide (v ≠ d) && noDefault d t

/-- The canonical form of the byte memory: addresses strictly rising, and no byte listed that equals what an unlisted address holds
(DESIGN CHOICE, notes/assumptions/1). -/
def Memory.wf (m : List Host.Cell) : Bool := mapWf m && noDefault (0 : Byte) m

/-- The first of the elements with the least key. -/
def leastBy {α : Type} (f : α → Nat) (l : List α) : Option α :=
  l.foldl (fun b a => match b with | some c => if f a < f c then some a else b | none => some a) none

end Sys2Proof.Machine
end

