-- ==== Sys2Proof/Machine/State.lean ====
section
/-! DEFINITION. The state of a KE9: every piece the spec gives the machine, as plain data, and its value after reset. Maps hold only
what differs from their default. -/

namespace Sys2Proof.Machine

/-! ## Slices, warps, blocks (02, 05) -/

/-- The content of a window entry (02 Table register-4). `pend` waits for operation `id`. -/
inductive EntryBody where
  | void
  | e32 (v : List W32)
  | e64 (v : List W64)
  | pend (id : Nat) (wide : Bool)
deriving DecidableEq, Repr

/-- An entry of the result window, readable from a cycle on (05 R180). -/
structure Entry where
  ready : Nat
  body : EntryBody
deriving DecidableEq, Repr

/-- One loop level (02 R73). -/
structure Loop where
  lc : W32
  ls : W64
  le : W64
deriving DecidableEq, Repr

/-- The translation of an address (06 R203-R214): the physical address in the lower twin or the page, its key, whether it is
home only, and for a twin page its size and group. -/
structure Xlat where
  pa : Nat
  key : Nat
  nc : Bool
  twin : Option (Nat × Nat)
deriving DecidableEq, Repr

/-- What a parked slice waits for (08 Table barrier-1). `asked` says that the scheduler has made its first test, `hit` that the home has
read the unit, and whether a value has met the condition since; `seen` is the tie that the first answer of a BKW found, 0 for none. -/
inductive WaitObj where
  | waitc (mask thr : Nat)
  | barrier (b : BarrierRef) (gen : Nat)
  | regang (named : Nat)
  | racq (n age : Nat)
  | rendezvous (h : Nat) (word desc : W64)
  | twait (p node thr tmo t0 : Nat) (asked : Bool)
  | flgw (p : Nat) (x : Xlat) (cmp : W64) (cc : FlgCc) (wide dev : Bool) (tmo t0 : Nat) (hit : Option Bool)
  | bkw (p buckle tmo t0 : Nat) (seen : Option Nat)
deriving DecidableEq, Repr

/-- Slice states (05 Table group-4). A parked slice of a HELD warp stays parked. -/
inductive SliceSt where
  | run
  | park (w : WaitObj)
  | held
  | exited
deriving DecidableEq, Repr

/-- A slice (05 R168) and what it owns (02 Table register-1). `repLen` is the model's own: the repetitions of the REP sequence whose
word the slice is issuing or waits in, 0 outside one. -/
structure Slice where
  st : SliceSt
  pc : W64
  sregs : SMap W64
  window : List Entry
  loops : List Loop
  depth : Nat
  repIdx : Nat
  repLen : Nat
  sstat : W64
deriving DecidableEq, Repr

/-- A gang: its slice mask, the issue number of its last issue and the cycle from which it may issue (05 R169, R175, R181). -/
structure Gang where
  mask : Nat
  last : Nat
  start : Nat
deriving DecidableEq, Repr

/-- An in-flight register write (05 R176): code 0-447 a register, 448 + p a predicate; ready at a cycle, or when operation `op` is
finished. -/
structure Busy where
  code : Nat
  mask : Nat
  until_ : Nat
  op : Option Nat
deriving DecidableEq, Repr

/-- An operation counted on an in-flight counter, in issue order (07 R255). -/
structure Flight where
  ic : Nat
  id : Nat
  done : Bool
deriving DecidableEq, Repr

/-- Warp states (05 Table group-5). -/
inductive WarpSt where
  | resident | active | held | exiting
deriving DecidableEq, Repr

/-- The long accumulator (03 R113): the integer, and nan, pinf, ninf, ovf. -/
structure Lacc where
  l : Int
  nan : Bool
  pinf : Bool
  ninf : Bool
  ovf : Bool
deriving DecidableEq, Repr

/-- A resident warp (05 R172, 02 Table register-1). `vregs` is keyed by 64 * register + lane, `preds` by the predicate; `records`
holds the open fault records it is held on, each with the slices that it faulted; `resume` is the cycle from which it may issue, `stopped` the cycle at which it was held or saved: the
time-outs of its parked slices stand still from then on (08 R269). -/
structure Warp where
  uid : Nat
  ctx : Nat
  launch : Nat
  block : Nat
  idx : Nat
  width : Nat
  nlane : Nat
  firmware : Bool
  rr : Bool
  pack : Bool
  st : WarpSt
  age : Nat
  offered : Nat
  forced : Bool
  yielded : Bool
  slices : List Slice
  gangs : List Gang
  vregs : SMap W32
  preds : SMap (BitVec 64)
  extmax : Nat
  held : Nat
  lent : Nat
  baseBlk : Nat
  granules : List Nat
  releasing : List Nat
  busy : List Busy
  flight : List Flight
  lacc : Lacc
  fstat : W64
  records : List (Nat × Nat)
  resume : Nat
  stopped : Option Nat
deriving DecidableEq, Repr

/-- A barrier (08 Table barrier-2). `warps` holds the arrived warps, `slices` the arrived slices of each warp, by warp uid. -/
structure Barrier where
  gen : W32
  expect : Nat
  fixed : Bool
  warps : List Nat
  slices : SMap Nat
deriving DecidableEq, Repr

/-- The recorded tiles of a traced block (12 R390): ranges (first, len), and the open and volatile marks. -/
structure Trace where
  reads : List (Nat × Nat)
  writes : List (Nat × Nat)
  open_ : Bool
  volatile : Bool
deriving DecidableEq, Repr

/-- Block states (05 Table group-3). -/
inductive BlockSt where
  | resident | saved | done
deriving DecidableEq, Repr

/-- A block (05 R162). `live` holds the uids of its non-exited warps. -/
structure Block where
  id : Nat
  cb : Nat
  core : Nat
  launch : Nat
  st : BlockSt
  scratchBase : Nat
  scratchBytes : Nat
  live : List Nat
  bars : SMap Barrier
  trace : Trace
deriving DecidableEq, Repr

/-- Cluster-block states (05 Table group-3); a cluster-block not listed is UNASSIGNED. -/
inductive CbSt where
  | assigned | resident | done
deriving DecidableEq, Repr

/-- A cluster-block (05 R164): its cores in block order, and the order of assignment. -/
structure ClusterBlock where
  k : Nat
  launch : Nat
  cluster : Nat
  cores : List Nat
  order : Nat
  st : CbSt
  blocks : List Nat
  bars : SMap Barrier
deriving DecidableEq, Repr

/-! ## Copies (09) -/

/-- The five moving copy words. -/
inductive CopyOp where
  | copy | copy2 | copyf | copyw | copyr
deriving DecidableEq, Repr

/-- Copy states (09 Table copy-8). BKWAIT remembers the number of the tie that the copy has seen, 0 for none. -/
inductive CopySt where
  | admission
  | bkwait (tie : Nat)
  | panelwait
  | run
  | stall (record : Nat)
  | done
  | failed
  | squashed
deriving DecidableEq, Repr

/-- A chunk in flight: its bytes, when it was sent, and its destination as translated. -/
structure Chunk where
  bytes : List Byte
  sent : Nat
  x : Xlat
deriving DecidableEq, Repr

/-- A copy (09 R293-R314). `r0` to `r3` are the descriptor registers, `b` the buckle, `c` the pitches or the route. `after` is the
first operation number that its implicit fence does not wait for. `pos` is the stream position of a COPYF and the target warp of a
COPYW. `mask` holds the performed chunks from the prefix on. `ret` is the
flight number of its ic2 count. A .dz copy holds the index `dzIdx` and source offset `dzOff` of the block of the first unperformed
chunk, and the bytes and source sizes of the blocks decoded from it on. `killer` is the operation of a CKILL that waits for its end,
and `killed` the cycle of the kill. -/
structure Copy where
  op : CopyOp
  st : CopySt
  ctx : Nat
  core : Nat
  slot : Nat
  uid : Nat
  launch : Nat
  tag : Nat
  r0 : W64
  r1 : W64
  r2 : W64
  r3 : W64
  b : Nat
  c : W64
  kind : CopyKind
  scope : Scope
  sh : Bool
  dz : Bool
  bk : Bool
  serial : Nat
  order : Nat
  after : Nat
  next : Nat
  pfx : Nat
  mask : Nat
  flight : SMap Chunk
  cause : Nat
  failing : Bool
  va : Nat
  group : Option Nat
  pos : Nat
  dzIdx : Nat
  dzOff : Nat
  dzBlk : List Byte
  dzSizes : List Nat
  ret : Nat
  node : Option Nat
  completed : Bool
  sigPending : Bool
  killer : Option Nat
  killed : Option Nat
deriving DecidableEq, Repr

/-! ## Operations in flight (07) -/

/-- One lane's access: address, translation, data, and the result once performed. -/
structure LaneAcc where
  lane : Nat
  x : Xlat
  data : List Byte
  opnd : W64
  swap : W64
  res : Option (List Byte)
deriving DecidableEq, Repr

/-- Where a part of an access is performed (07 Table access-1). -/
inductive Place where
  | cache | home | host | scratch | window | const
deriving DecidableEq, Repr

/-- The lanes of one access in one 256-byte line: `line` is the line number. -/
structure Part where
  line : Nat
  place : Place
  lanes : List LaneAcc
  done : Bool
deriving DecidableEq, Repr

/-- Operations of the atomics (01, atomic run). -/
inductive AtomOp where
  | add | min | max | and | or | xor | exch | cas | fadd
deriving DecidableEq, Repr

/-- A sketch descriptor's fields (11 Table sketch-3). -/
structure Sketch where
  base : Nat
  b : Nat
  d : Nat
  master : W32
  q : W32
  fingerprint : W64
deriving DecidableEq, Repr

/-- What a counter event does (11 R359): it adds a value, reads for a query with a sign, adds the counter at another address, or clears. -/
inductive CounterAct where
  | add (v : W32)
  | query (neg : Bool)
  | addFrom (va : Nat) (x : Option Xlat)
  | clear
deriving DecidableEq, Repr

/-- A counter event of a sketch word that is still to be performed (11 R360): the lane it serves, the serving stack, the counter's address,
and its translation where that was made at issue (11 R373). -/
structure CounterOp where
  lane : Nat
  stack : Nat
  va : Nat
  x : Option Xlat
  act : CounterAct
deriving DecidableEq, Repr

/-- What an operation does when it is performed. A sketch word holds its address, and a query the quantum of each lane. -/
inductive TxKind where
  | load (d : Dst) (size : MSize)
  | store
  | atom (op : AtomOp) (d : Dst) (wide sgn : Bool)
  | cflsh (inv : Bool)
  | fence (scope : Scope) (kind : FenceKind)
  | rfence
  | tlbi
  | skupd (word : W64)
  | skqry (d : Dst) (quanta : SMap W32) (word : W64)
  | skadd (word : W64)
  | skclr (word : W64)
  | remote (n : Nat) (d : Option Dst) (size : MSize) (mask : Nat) (atomOp : Option (AtomOp × Bool)) (res : List (Nat × W64))
  | reply (d : Dst) (mask : Nat)
deriving DecidableEq, Repr

/-- An operation in flight. Its number is its place in the order of issue; `mask` holds the issuing slices; `strong` as in 07 R245. Of a
sketch word `todo` holds the counter events left, `got` the signed counters that a query has read, by lane, and `skips` the pages of
counters that were unusable, with the failing address and the cause. -/
structure Tx where
  uid : Nat
  mask : Nat
  ctx : Nat
  core : Nat
  slot : Nat
  launch : Nat
  tag : Nat
  strong : Bool
  na : Bool
  kind : TxKind
  parts : List Part
  todo : List CounterOp := []
  got : List (Nat × W32) := []
  skips : SMap (Nat × Nat) := []
deriving DecidableEq, Repr

/-! ## Caches and translation (06, 07) -/

/-- A line of a cluster cache (07 R230): `data` by byte offset, bytes that are zero not listed. -/
structure CLine where
  key : Nat
  ctx : Nat
  valid : Nat
  dirty : BitVec 256
  data : SMap Byte
  tag : Nat
deriving DecidableEq, Repr

/-- A line of a home L2 (07 R498): its tag state; the bytes themselves are those of the memory. -/
structure L2Line where
  key : Nat
  valid : Nat
  dirty : Bool
deriving DecidableEq, Repr

/-- A cached page-table entry (06 R208): context, level, the address bits from that level up, and the entry. -/
structure TlbEnt where
  ctx : Nat
  lvl : Nat
  vpn : Nat
  entry : W64
deriving DecidableEq, Repr

/-! ## Matrix engines (10) -/

/-- A rendezvous latch (10 R322): EMPTY, or FILLING with the snapshot, the word, the descriptor and the arrived warps. `got` holds
the slices of each warp that have issued since its last arrival. -/
structure Latch where
  filling : Bool
  v : W64
  word : W64
  desc : W64
  arrived : List Nat
  got : SMap Nat
deriving DecidableEq, Repr

/-- Pass states (10 Table pass-5); an entry not listed is FREE. -/
inductive PassSt where
  | waiting | running | stopped | done | failed
deriving DecidableEq, Repr

/-- A reservation entry (10 R333). `posA` and `posB` are the stream positions it took, `members` the warps it was posted for with their
core and slot, `launch` theirs, `zeroed` says that a grant has fixed the starting values, `ovfSeen` that its overflow event has been counted. The age is
`age` and what has passed since the cycle `since`. -/
structure Pass where
  st : PassSt
  ticket : W32
  sparse : Bool
  lut : Bool
  fmt : Nat
  tra : Bool
  trb : Bool
  prio : Nat
  init : Bool
  k : Nat
  m : Nat
  n : Nat
  tile : Nat
  posA : List Nat
  posB : List Nat
  kdone : Nat
  age : Nat
  since : Nat
  order : Nat
  members : List (Nat × Nat × Nat)
  launch : Nat
  zeroed : Bool
  ovfSeen : Bool
deriving DecidableEq, Repr

/-- Kinds of accumulator slots (10 R330). -/
inductive SlotKind where
  | f32 | i48 | b48 | hi
deriving DecidableEq, Repr

/-- A tile instruction waiting in the tile order of its slots (10 R334): who issued it, and when. -/
structure TileWait where
  uid : Nat
  mask : Nat
  slots : List Nat
  order : Nat
deriving DecidableEq, Repr

/-- What a cluster holds beside its cores (10, 07 R230). `panels` is keyed by stream * 2^20 + panel * 65536 + byte; `fillLast` is the cycle
and the core of the last copy that took a stream position (09 R311), `postLast` the cycle of the last posting and its place among the postings
of that cycle (10 R333). -/
structure Cluster where
  harness : SMap W64
  latches : SMap Latch
  fillA : Nat
  fillB : Nat
  headA : Nat
  headB : Nat
  panels : SMap Byte
  fillLast : Option (Nat × Nat)
  filledA : List Nat
  filledB : List Nat
  passes : SMap Pass
  serial : Nat
  acc : SMap W32
  kinds : SMap SlotKind
  mstat : W64
  tileWaits : List TileWait
  postLast : Option (Nat × Nat)
deriving DecidableEq, Repr

/-- A core (00 R2): its warps by slot, its active set with the cycle since which a member is swappable, its scratchpad and copies; `last`
is the slot and uid of the warp that issued last, and `issued`, `swapped` and `granted` are the cycles of its last issue, of its last
exchange in the active set (05 R173) and of its last grant from the reserve (02 R66). -/
structure Core where
  warps : SMap Warp
  active : List (Nat × Option Nat)
  last : Option (Nat × Nat)
  issued : Option Nat
  swapped : Option Nat
  granted : Option Nat
  scratch : SMap Byte
  copies : SMap Copy
  serials : SMap Nat
  emergency : Bool
  cc : SMap (Nat × Byte)
deriving DecidableEq, Repr

/-! ## Near-memory units (11) -/

/-- A pending update of a batch (11 R368): for each row the counter and what is added, POISON as 0x80000000. -/
structure BatchUpd where
  rows : List (Xlat × W32)
deriving DecidableEq, Repr

/-- A loop level of an NMU program: remaining count, first word and last word. -/
structure NLoop where
  cnt : Nat
  first : Nat
  last : Nat
deriving DecidableEq, Repr

/-- A resident NMU program (11 R350). `g` is keyed by 256 * register + lane. A drain under way holds in `line` the counter events left in
the line that it performs now, and in `draining` those of the other lines (11 R368); `fault` is the cause and address of a program stopped
by a fault whose batch is still draining (R356). `parked` is the unit and value of an NWAIT, and whether a
value has met it. `save` holds the pages of the save area by their first address in it. -/
structure NmuProg where
  ctx : Nat
  node : Nat
  launch : Nat
  words : List W32
  pc : Nat
  a : SMap W64
  g : SMap W32
  loops : List NLoop
  batch : List BatchUpd
  line : List (Xlat × W32)
  draining : List (List (Xlat × W32))
  fault : Option (Nat × Nat)
  parked : Option (Xlat × W64 × Bool)
  prog : Nat
  save : List (Nat × Xlat)
  seq : Nat
deriving DecidableEq, Repr

/-- A NEARMEM node that waits for a place (11 R354), with its place in the order of readiness; `saved` says that it resumes from its save area. -/
structure NmuQueued where
  ctx : Nat
  node : Nat
  launch : Nat
  prog : Nat
  words : Nat
  save : List (Nat × Xlat)
  args : List W64
  order : Nat
  saved : Option NmuProg
deriving DecidableEq, Repr

/-- A near-memory unit. -/
structure Nmu where
  places : SMap NmuProg
  queue : List NmuQueued
  last : Nat
deriving DecidableEq, Repr

/-- A collective in progress (11 R363). `remote` is the context handle of its packets, `heard` counts the neighbours heard, `accs` holds for each counter the adds done and the sum so
far, `finals` the final counters, `skipped` the pages already reported, `unsent` the segments that wait for a buckle, by member, `early` the
segments received that wait for the check exchange to end or, in the pair order, for a level below. -/
structure Coll where
  ctx : Nat
  stack : Nat
  sk : Sketch
  members : List Nat
  self : Nat
  pair : Bool
  handle : Nat
  bad : Bool
  heard : Nat
  accs : SMap (Nat × W32)
  finals : SMap W32
  skipped : List Nat
  unsent : List (Nat × CollSegment)
  early : List CollSegment
  descVa : Nat
  remote : Nat
deriving DecidableEq, Repr

/-! ## Launches, graphs, queues (12, 13) -/

/-- Launch states (12 Table kernel-2). -/
inductive LaunchSt where
  | submitted | started | dispatching | draining | ending | done | refused | killed
deriving DecidableEq, Repr

/-- What a relaunch adds to a launch (12 R393): the trace buffer, the header read, and the RELN that waits for the count. -/
structure Relaunch where
  tb : Nat
  kind : RelnKind
  cw : W64
  hdr : List Byte
  gs : W64
  gc : W64
  valid : Bool
  tag : Nat
  reruns : List Nat
  reply : Option Nat
deriving DecidableEq, Repr

/-- A launch. `queue` is the submitting queue, when there is one. -/
structure Launch where
  pkt : List Byte
  ctx : Nat
  src : LaunchSource
  queue : Option Nat
  st : LaunchSt
  gs : W64
  seq : Nat
  nextCb : Nat
  doneCbs : Nat
  rel : Option Relaunch
  traceLost : Bool
deriving DecidableEq, Repr

/-- Node states (12 Table kernel-5). `ended` is RUNNING whose agent has ended it, with the reason of a failure and the address that faulted, 0 for none
(12 R387, R502). -/
inductive NodeSt where
  | loaded | ready | running | done | failed
  | ended (ok : Bool) (reason va : Nat)
deriving DecidableEq, Repr

/-- A node of a resident graph: its 32-byte entry, its payload and successor list as read at its start, its counter (08 R279) and its state. -/
structure Node where
  entry : List Byte
  payload : List Byte
  list : List W32
  count : W32
  st : NodeSt
  launch : Nat
  order : Nat
deriving DecidableEq, Repr

/-- A graph slot (12 R382). -/
structure Graph where
  ctx : Nat
  nodes : SMap Node
  terminal : Nat
  kind : Nat
  word : W64
  launch : Nat
  src : LaunchSource
  queue : Option Nat
  running : Bool
deriving DecidableEq, Repr

/-- A decrement on its way to the scheduler (08 R279), from a context and, when a TDEC sent it, from a warp; `uid` is 0 otherwise. -/
structure Decr where
  uid : Nat
  ctx : Nat
  handle : Nat
  amount : Nat
deriving DecidableEq, Repr

/-- Queue states (13 Table queue-3); a queue not listed is UNBOUND. -/
inductive QueueSt where
  | idle | active | budgetHeld | draining | error | destroyed
deriving DecidableEq, Repr

/-- A queue (13 R400-R415). `inl` holds the CFE's copies of inline packets by sequence number; `balance` is in picojoules. -/
structure Queue where
  desc : QueueDesc
  st : QueueSt
  head : Nat
  tail : Nat
  inl : SMap (List Byte)
  deficit : Nat
  balance : Int
  overflow : Bool
  dropped : Nat
  periodStart : Nat
deriving DecidableEq, Repr

/-- A bucket (08 R287); a bucket not listed is DISARMED. -/
structure Bucket where
  ctx : Nat
  pa : Nat
  len : Nat
  total : Nat
  count : Nat
  node : Nat
deriving DecidableEq, Repr

/-! ## Contexts (14) -/

/-- Context states (14 Table context-2). -/
inductive CtxSt where
  | created | resident | running | preempting | swapped | faulted | destroyed
deriving DecidableEq, Repr

/-- An open fault record (14 Table context-4): its fields and the held warps by uid. `page` is the 4 KiB page of a translation fault;
`closing` is the action of a close that waits until the record, held in the device, has been written (14 R422). -/
structure Record where
  code : Nat
  cause : Nat
  flags : Nat
  core : Nat
  slot : Nat
  level : Nat
  pc : W64
  info : W64
  slices : Nat
  handle : W32
  warps : List Nat
  page : Option Nat
  closing : Option Nat
deriving DecidableEq, Repr

/-- A pre-emption in progress (14 R427-R428): forced or graceful, its deadline, the signal word of an FSWP, and the images left. -/
structure Preempt where
  forced : Bool
  deadline : Nat
  drainEnd : Nat
  signal : Option Nat
  drained : Bool
  left : List Nat
deriving DecidableEq, Repr

/-- A context (14 Table context-1) and what firmware keeps of it. `handles` of RSTF etc. stand in `State.handles`. -/
structure Ctx where
  desc : CtxDesc
  st : CtxSt
  prev : CtxSt
  sel : SMap Bool
  stamps : SMap (W64 × Nat)
  records : SMap Record
  nextRec : Nat
  posted : Nat
  dropped : W64
  buckets : List Nat
  buckles : List Nat
  slots : List Nat
  mailboxes : SMap (List W64)
  pre : Option Preempt
  restoring : Option (List Nat × Option Nat)
  outSince : Nat
deriving DecidableEq, Repr

/-- Where the image of a partition lies (14 R429). -/
inductive ImageAt where
  | shadow | frames
deriving DecidableEq, Repr

/-- The image of a partition (14 R428): the cores and clusters of its context as saved. `State.images` is keyed by
partition * 4096 + context. -/
structure Image where
  ctx : Nat
  loc : ImageAt
  cores : SMap Core
  clusters : SMap Cluster
deriving DecidableEq, Repr

/-! ## Links and circuits (15, 16) -/

/-- What a request on the electrical plane belongs to: a remote word with the lanes of the packet and their byte offsets, a chunk or the
signal of a COPYR, a script's MSG, or what a destroyed context has left behind. -/
inductive ReqOwner where
  | word (tx : Nat) (lanes : List (Nat × Nat))
  | chunk (c : CopyRef) (q : Nat)
  | signal (c : CopyRef)
  | script (place : Nat)
  | gone
deriving DecidableEq, Repr

/-- A packet as it went out on a lane: it stands in the replay buffer of the lane until the switch has acknowledged it (15 R443). Under
lane 16 stand the packets that wait for a lane to come up. -/
structure SentPkt where
  lane : Nat
  type : Nat
  hdr : PktHdr
  payload : List Byte
deriving DecidableEq, Repr

/-- A request on the electrical plane not yet retired, or not yet sent (15 R447): the source's own copy. -/
structure Req where
  id : Nat
  target : Nat
  tag : Nat
  type : Nat
  hdr : PktHdr
  payload : List Byte
  sent : Nat
  owner : ReqOwner
deriving DecidableEq, Repr

/-- What a target keeps of a source (15 R447): the newest floor, the kept responses by tag, and the publish group of each shadowed
copy's first page, by copy handle. -/
structure Source where
  floor : Nat
  known : Bool
  kept : SMap (Nat × Nat × List Byte)
  parts : SMap Nat
deriving DecidableEq, Repr

/-- The payload packets of an RSTF to one device and handle, by request, that must be performed before the increments of its flags there
are sent (15 R455). -/
structure FlagWait where
  tx : Nat
  target : Nat
  handle : Nat
  flags : List Nat
  left : List Nat
  failed : Bool
deriving DecidableEq, Repr

/-- Wavelength states (15 Table link-6). -/
inductive WlSt where
  | dark | lit | parking | parked | waking | lost
deriving DecidableEq, Repr

/-- Port states (16 Table circuit-3). -/
inductive PortSt where
  | dark | locking | trained | live | draining
deriving DecidableEq, Repr

/-- A laser channel's registers (15 Table link-8). -/
structure Laser where
  hours : W32
  bias : W32
  bias0 : W32
  pow : W32
  age : W32
deriving DecidableEq, Repr

/-- A change of a stripe that is under way or waits its turn: the wavelengths that leave it, and the laser channels of a park
(15 R461, R463, R465). -/
structure Restripe where
  waves : Nat
  chans : Nat
deriving DecidableEq, Repr

/-- An optical port (15, 16). `rxBuf` is the received part of the frame stream, `txq` the destinations and
payloads of the waiting flits, `replay` those of the unacknowledged, by sequence, `txHalf` says that half a filler header has been sent. -/
structure Port where
  st : PortSt
  failed : Bool
  peer : Nat
  tx : SMap WlSt
  rx : SMap WlSt
  autowake : Nat
  replays : W64
  feccor : W64
  fecunc : W64
  txq : List (Nat × List Byte)
  replay : List (Nat × Nat × List Byte)
  nextSeq : Nat
  txHalf : Bool
  rxSeq : Nat
  rxBuf : List Byte
  lastAck : Nat
  lastRx : Nat
  drainStart : Nat
  lockStart : Nat
  locked : Bool
  lasers : SMap Laser
  failedCh : Nat
  waking : SMap Nat
  pendingTx : List Restripe
  pendingRx : List Restripe
  control : List (List Byte)
  closeSeen : Bool
  beat : Nat
deriving DecidableEq, Repr

/-- Circuit states (16 Table circuit-2); a port without an entry has a FREE circuit. -/
inductive CircSt where
  | requested | granted | failed | released
deriving DecidableEq, Repr

/-- A circuit (16 R471). -/
structure Circuit where
  st : CircSt
  ctx : Nat
  peer : Nat
  pport : Nat
  cause : Nat
  id : Nat
  handle : Nat
  since : Nat
  releasedSeen : Bool
deriving DecidableEq, Repr

/-- A buckle (08 Table barrier-7); one not listed is UNTIED. `tie` numbers its ties. -/
structure Buckle where
  port : Nat
  fastened : Bool
  tie : Nat
deriving DecidableEq, Repr

/-- What a Cratch word waits for (16 R481); a MSG, for the answer to its request. -/
inductive ScriptWait where
  | cwait (tgt : CwaitTarget) (qd port : Nat) (tmo : W64)
  | mrcv (qd box : Nat) (tmo : W64)
  | twt (handle thr : Nat) (tmo : W64)
  | dly (us : W64)
  | msg (req : Nat)
deriving DecidableEq, Repr

/-- A running script (16 R479). -/
structure Script where
  ctx : Nat
  node : Nat
  words : List W32
  pc : Nat
  base : Nat
  q : SMap W64
  c : Bool
  wait : Option (ScriptWait × Nat)
deriving DecidableEq, Repr

/-- A SCRIPT node that waits for a place (16 R478), with its place in the order of readiness. -/
structure ScriptQueued where
  ctx : Nat
  node : Nat
  prog : Nat
  words : Nat
  q : List W64
  order : Nat
deriving DecidableEq, Repr

/-- A binding of a remote context handle (15 R448). -/
structure Handle where
  ctx : Nat
  sources : BitVec 1024
deriving DecidableEq, Repr

/-- What the device sends to the world outside: packets, flits, MSI-X messages, and the answers to host reads. -/
inductive OutMsg where
  | packet (lane : Nat) (bytes : List Byte)
  | flit (port : Nat) (bytes : List Byte)
  | msix (vector : Nat)
  | hostData (bytes : List Byte)
  | hostAbort
  | mailbox (seq status : Nat) (bytes : List Byte)
  | firmwareNotified (ctx : Nat)
  | collCheck (node device remote : Nat) (p : CollPeer)
  | collSegment (node device remote : Nat) (seg : CollSegment)
deriving DecidableEq, Repr

/-- The device status word (14 Table context-10). -/
structure Status where
  stackMask : Nat
  fwcores : Nat
  elec : Nat
  optics : Bool
  matrix : Bool
  fullclk : Bool
  firmware : Bool
  queues : Bool
deriving DecidableEq, Repr

/-! ## The whole device -/

/-- What moves next (the model's own; notes/assumptions/2); `receive` is a packet that arrives on the electrical plane, as its bytes,
and `copyError` a failure of the check of a chunk (09 R304). -/
inductive Turn where
  | tick (cycles ns : Nat)
  | issue (core : Nat)
  | nmu (stack place : Nat)
  | script (place : Nat)
  | receive (bytes : List Byte)
  | copyError (c : CopyRef) (chunk : Nat)
  | event (e : Instr)
deriving DecidableEq, Repr

/-- The site of the word that executes (the model's own; notes/assumptions/3): for a core word the core, slot, gang and word, and
within a REP sequence the prefix and the repetition, with a mark where a stepped code has left its range (01 R45); for an NMU or Cratch word the unit and place. -/
structure Site where
  core : Nat
  slot : Nat
  mask : Nat
  word : W64
  rep : Option (RepArgs × Nat)
  outside : Bool
  stack : Nat
  place : Nat
deriving DecidableEq, Repr

/-- The state of a KE9 package and of the moves in flight around it. `olds` holds, for a byte written during launches, the byte as each
of them found it at its start (07 R235). `arrivals` holds, by line, the cycle and the rank of the last access that arrived at its home
(07 R233), `charges` the counts not yet charged of a queue's events, by 16 * queue + coefficient, and `payer` the queue of the work under
way (13 R410), `hostHoles` the ranges of host addresses that the host answers with an error (13 R414, 12 R502), `signals` the units that an engine has incremented, with whether the increment is their latest write (07 R247). -/
structure State where
  agenda : List Turn
  cur : Site
  freeCtr : Nat
  nextId : Nat
  cycle : Nat
  ns : Nat
  issues : Nat
  gen : W64
  dev : Option Nat
  status : Status
  haltDev : Bool
  mem : List Host.Cell
  keyTag : SMap Nat
  olds : SMap (SMap Byte)
  keys : SMap (BitVec 512)
  epochs : SMap Nat
  hallmarks : SMap (Nat × W32)
  l2 : SMap L2Line
  arrivals : SMap (Nat × Nat)
  signals : SMap Bool
  presence : SMap (List Nat)
  ccache : SMap CLine
  tlb1 : SMap (List TlbEnt)
  tlb2 : SMap (List TlbEnt)
  therm : SMap W32
  clkstep : SMap W32
  ecoef : SMap W32
  payer : Option Nat
  charges : SMap Nat
  hostHoles : List (Nat × Nat)
  cores : SMap Core
  clusters : SMap Cluster
  txs : SMap Tx
  blocks : SMap Block
  cbs : SMap ClusterBlock
  launches : SMap Launch
  graphs : SMap Graph
  decrs : List Decr
  channels : SMap Copy
  buckets : SMap Bucket
  queues : SMap Queue
  lastq : SMap Nat
  nmus : SMap Nmu
  colls : SMap Coll
  ctxs : SMap Ctx
  holder : SMap Nat
  frameOwner : SMap Nat
  heldRecords : List (Nat × Nat)
  images : SMap Image
  handles : SMap Handle
  fmSources : BitVec 1024
  mailboxSeq : Nat
  mailboxStatus : Nat
  mailboxReq : List Byte
  lanes : List Nat
  sentPkts : List SentPkt
  reqs : List Req
  reqQueue : List Req
  tags : SMap Nat
  sources : SMap Source
  flagWaits : List FlagWait
  linkRing : SMap (List Byte)
  linkTail : W64
  linkHeadHost : W64
  linkHeadFm : W64
  ports : SMap Port
  circuits : SMap Circuit
  buckles : SMap Buckle
  reqId : Nat
  scripts : SMap Script
  scriptQueue : List ScriptQueued
  scriptLast : Nat
  outbox : List OutMsg
deriving DecidableEq, Repr

/-- Reasons to stop with a fault. -/
inductive Fault where
  /-- Raised by an FCTX of firmware whose physical operand lies outside the regions of 06 Table page-1 that hold memory: the spec gives
  nothing to read there. Safe: the machine stops where the spec says nothing. -/
  | noSuchAddress (pa : Nat)
deriving DecidableEq, Repr

/-- Reasons to give an instruction no meaning. -/
inductive Refusal where
  /-- Raised by an arm of `exec` whose instruction has no meaning yet. Safe: nothing follows about it. -/
  | notModelled (mnemonic : String)
deriving DecidableEq, Repr

/-! ## Reset -/

/-- No loop level. -/
def Loop.zero : Loop := ⟨0, 0, 0⟩

/-- A slice as a warp starts (02 R62, R72). -/
def Slice.start (pc : W64) : Slice :=
  { st := .run, pc := pc, sregs := [], window := [], loops := [.zero, .zero, .zero], depth := 0, repIdx := 0,
    repLen := 0, sstat := 0 }

/-- The long accumulator as a warp starts (03 R113). -/
def Lacc.zero : Lacc := ⟨0, false, false, false, false⟩

/-- The warp that a slot without a warp stands for: no slices. -/
def Warp.empty : Warp :=
  { uid := 0, ctx := 0, launch := 0, block := 0, idx := 0, width := 8, nlane := 0, firmware := false, rr := false, pack := false,
    st := .resident, age := 0, offered := 0, forced := false, yielded := false, slices := [], gangs := [], vregs := [], preds := [],
    extmax := 0, held := 0, lent := 0, baseBlk := 0, granules := [], releasing := [], busy := [], flight := [], lacc := .zero,
    fstat := 0, records := [], resume := 0, stopped := none }

/-- A barrier as its holder becomes resident (08 R270). -/
def Barrier.zero : Barrier := ⟨0, 0, false, [], []⟩

/-- Nothing recorded (12 R390). -/
def Trace.zero : Trace := ⟨[], [], false, false⟩

/-- An empty latch (10 R322). -/
def Latch.empty : Latch := ⟨false, 0, 0, 0, [], []⟩

/-- A core after reset. -/
def Core.zero : Core :=
  { warps := [], active := [], last := none, issued := none, swapped := none, granted := none, scratch := [], copies := [], serials := [], emergency := false, cc := [] }

/-- A cluster after reset and at context creation (10 R321, R327, R330). -/
def Cluster.zero : Cluster :=
  { harness := [], latches := [], fillA := 0, fillB := 0, headA := 0, headB := 0, panels := [], fillLast := none, filledA := [], filledB := [],
    passes := [], serial := 0, acc := [], kinds := [], mstat := 0, tileWaits := [], postLast := none }

/-- An NMU after reset. -/
def Nmu.zero : Nmu := ⟨[], [], 0⟩

/-- A DARK port (15 Table link-9, reset column). -/
def Port.zero : Port :=
  { st := .dark, failed := false, peer := 0, tx := [], rx := [], autowake := 0, replays := 0, feccor := 0, fecunc := 0, txq := [],
    replay := [], nextSeq := 0, txHalf := false, rxSeq := 0, rxBuf := [], lastAck := 0, lastRx := 0, drainStart := 0, lockStart := 0, locked := false, lasers := [],
    failedCh := 0, waking := [], pendingTx := [], pendingRx := [], control := [], closeSeen := false, beat := 0 }

/-- A source from which nothing has come (15 R447). -/
def Source.zero : Source := ⟨0, false, [], []⟩

/-- The site before any word. -/
def Site.zero : Site := ⟨0, 0, 0, 0, none, false, 0, 0⟩

/-- The device status word after reset (14 Table context-10). -/
def Status.reset : Status := ⟨0, 0, 0, false, false, false, false, false⟩

/-- The device right after reset: every field at the value the spec states, or at the one its log entry names. -/
def State.reset : State :=
  { agenda := [], cur := .zero, freeCtr := 0, nextId := 1, cycle := 0, ns := 0, issues := 0, gen := 0, dev := none,
    status := .reset, haltDev := false, mem := [], keyTag := [], olds := [], keys := [], epochs := [], hallmarks := [], l2 := [],
    arrivals := [], signals := [], presence := [], ccache := [], tlb1 := [], tlb2 := [], therm := [], clkstep := [], ecoef := [],
    payer := none, charges := [], hostHoles := [], cores := [], clusters := [],
    txs := [], blocks := [], cbs := [], launches := [], graphs := [], decrs := [], channels := [], buckets := [],
    queues := [], lastq := [], nmus := [], colls := [], ctxs := [], holder := [], frameOwner := [], heldRecords := [], images := [],
    handles := [], fmSources := 0, mailboxSeq := 0, mailboxStatus := 0, mailboxReq := List.replicate 64 0, lanes := [], sentPkts := [], reqs := [], reqQueue := [], tags := [], sources := [],
    flagWaits := [], linkRing := [], linkTail := 0, linkHeadHost := 0, linkHeadFm := 0, ports := [], circuits := [], buckles := [],
    reqId := 0, scripts := [], scriptQueue := [], scriptLast := 0, outbox := [] }

end Sys2Proof.Machine
end

