-- ==== Sys2Proof/Machine/Lookup.lean ====
section
/-! DEFINITION. Total look-ups and updates of the parts of the state. -/

namespace Sys2Proof.Machine

/-- The cluster of a core (00 R2). -/
def clusterOf (core : Nat) : Nat := core / 4
/-- The partition of a cluster (14 R416). -/
def partOf (cluster : Nat) : Nat := cluster / 12
/-- The stack group of a cluster (00 R2). -/
def stackOf (cluster : Nat) : Nat := cluster / 24
/-- The compute die of a cluster (00 R2). -/
def dieOf (cluster : Nat) : Nat := cluster / 48
/-- The firmware cores (00 R3). -/
def fwCore (core : Nat) : Bool := core % 192 == 191

def coreOf (s : State) (k : Nat) : Core := mgetD s.cores k .zero
def setCore (s : State) (k : Nat) (c : Core) : State := { s with cores := mset s.cores k c }
def updCore (s : State) (k : Nat) (f : Core → Core) : State := setCore s k (f (coreOf s k))

def clustOf (s : State) (k : Nat) : Cluster := mgetD s.clusters k .zero
def setClust (s : State) (k : Nat) (c : Cluster) : State := { s with clusters := mset s.clusters k c }
def updClust (s : State) (k : Nat) (f : Cluster → Cluster) : State := setClust s k (f (clustOf s k))

/-- The warp in a slot; `Warp.empty` where there is none. -/
def warpOf (s : State) (core slot : Nat) : Warp := mgetD (coreOf s core).warps slot .empty

/-- Change the warp in a slot; nothing happens where there is none. -/
def updWarp (s : State) (core slot : Nat) (f : Warp → Warp) : State :=
  updCore s core (fun c => { c with warps := madj c.warps slot f })

/-- The issuing warp. -/
def cw (s : State) : Warp := warpOf s s.cur.core s.cur.slot
/-- Change the issuing warp. -/
def updCw (s : State) (f : Warp → Warp) : State := updWarp s s.cur.core s.cur.slot f

/-- The place and the warp with a number. -/
def findWarp (s : State) (uid : Nat) : Option (Nat × Nat × Warp) :=
  s.cores.findSome? (fun kc => kc.2.warps.findSome? (fun sw => if sw.2.uid = uid then some (kc.1, sw.1, sw.2) else none))

/-- Change the warp with a number, wherever it is resident. -/
def updUid (s : State) (uid : Nat) (f : Warp → Warp) : State :=
  match findWarp s uid with
  | some (k, sl, _) => updWarp s k sl f
  | none => s

/-- Every resident warp with its place. -/
def allWarps (s : State) : List (Nat × Nat × Warp) :=
  s.cores.flatMap (fun kc => kc.2.warps.map (fun sw => (kc.1, sw.1, sw.2)))

/-- The slice with an index. -/
def Warp.slice (w : Warp) (j : Nat) : Slice := (w.slices[j]?).getD { Slice.start 0 with st := .exited }

/-- Change the slices of a mask. -/
def Warp.updSlices (w : Warp) (mask : Nat) (f : Nat → Slice → Slice) : Warp :=
  { w with slices := w.slices.mapIdx (fun j x => if bit mask j then f j x else x) }

/-- The slices of a mask that the warp has, at most 16 (05 Table group-1), ascending. -/
def Warp.inMask (w : Warp) (mask : Nat) : List Nat := ones (clampN w.slices.length 16) mask

/-- The mask of the slices that meet a test. -/
def Warp.maskWhere (w : Warp) (p : Slice → Bool) : Nat := maskOf ((List.range w.slices.length).filter (fun j => p (w.slice j)))

def Slice.isExited (x : Slice) : Bool := x.st == .exited
def Slice.isRun (x : Slice) : Bool := x.st == .run

/-- The mask of the slices that have not exited. -/
def Warp.aliveMask (w : Warp) : Nat := w.maskWhere (fun x => !x.isExited)

/-- The lanes of the slices of a mask, ascending (05 R168). -/
def Warp.lanesOf (w : Warp) (mask : Nat) : List Nat := (w.inMask mask).flatMap (fun j => [4 * j, 4 * j + 1, 4 * j + 2, 4 * j + 3])

/-- The lowest slice of a mask. -/
def Warp.lowSlice (w : Warp) (mask : Nat) : Nat := ((w.inMask mask).head?).getD 0

/-- The issuing lanes. -/
def curLanes (s : State) : List Nat := (cw s).lanesOf s.cur.mask
/-- The issuing slices. -/
def curSlices (s : State) : List Nat := (cw s).inMask s.cur.mask
/-- The lowest issuing slice. -/
def curLow (s : State) : Nat := (cw s).lowSlice s.cur.mask

/-- An element of a vector register. -/
def Warp.vreg (w : Warp) (r lane : Nat) : W32 := mgetD w.vregs (r * 64 + lane) 0
/-- Write an element. -/
def Warp.setV (w : Warp) (r lane : Nat) (v : W32) : Warp := { w with vregs := mput 0 w.vregs (r * 64 + lane) v }
/-- A slice's copy of a scalar. -/
def Slice.sreg (x : Slice) (n : Nat) : W64 := mgetD x.sregs n 0
/-- Write a slice's copy of a scalar. -/
def Slice.setS (x : Slice) (n : Nat) (v : W64) : Slice := { x with sregs := mput 0 x.sregs n v }
/-- A predicate in a lane; p7 reads true (01 R29). -/
def Warp.pred (w : Warp) (p lane : Nat) : Bool := p == 7 || (mgetD w.preds p 0).getLsbD lane
/-- Write a predicate in a lane; a write to p7 is discarded (01 R34). -/
def Warp.setP (w : Warp) (p lane : Nat) (b : Bool) : Warp :=
  if p = 7 then w
  else
    let m := mgetD w.preds p 0
    let k := BitVec.ofNat 64 (2 ^ lane)
    { w with preds := mput 0 w.preds p (if b then m ||| k else m &&& ~~~k) }

/-- The guard of a lane (01 R29). -/
def Warp.guard (w : Warp) (g : Guard) (lane : Nat) : Bool := w.pred g.p lane != g.neg

/-- The value of an in-flight counter: its counts not yet lowered (07 R255). -/
def Warp.ic (w : Warp) (i : Nat) : Nat := (w.flight.filter (fun f => f.ic == i)).length

/-- Drop the finished counts that no unfinished older one precedes (07 R255). -/
def dropDone (i : Nat) : List Flight → List Flight
  | [] => []
  | f :: t => if f.ic = i then (if f.done then dropDone i t else f :: t) else f :: dropDone i t

/-- An operation's count is finished: the counter falls by what this makes finished in issue order (07 R255). -/
def Warp.lower (w : Warp) (i id : Nat) : Warp :=
  { w with flight := dropDone i (w.flight.map (fun f => if f.ic = i ∧ f.id = id then { f with done := true } else f)) }

/-- Raise a counter by one for an operation. -/
def Warp.raise (w : Warp) (i id : Nat) : Warp := { w with flight := w.flight ++ [⟨i, id, false⟩] }

/-- A fresh operation number. -/
def fresh (s : State) : Nat × State := (s.nextId, { s with nextId := s.nextId + 1 })

/-- An unspecified choice among `n` (00 R19): a free value reduced into the range. -/
def choose (s : State) (n : Nat) : Nat × State :=
  if n ≤ 1 then (0, s) else (Config.choice s.freeCtr % n, { s with freeCtr := s.freeCtr + 1 })

def ctxOf (s : State) (id : Nat) : Option Ctx := mget s.ctxs id
def updCtx (s : State) (id : Nat) (f : Ctx → Ctx) : State := { s with ctxs := madj s.ctxs id f }

/-- The queue that pays for the work of a launch (13 R410). -/
def payerOf (s : State) (launch : Nat) : Option Nat := match mget s.launches launch with | some l => l.queue | none => none

/-- The counts after events of a coefficient (13 Table queue-2, 14 ECOEF0-8) for a queue with a budget. -/
def charged (s : State) (q : Option Nat) (i n : Nat) : SMap Nat :=
  match q with
  | none => s.charges
  | some k =>
    match mget s.queues k with
    | some x => if x.desc.budget = 0 then s.charges else mput 0 s.charges (16 * k + i) (mgetD s.charges (16 * k + i) 0 + n)
    | none => s.charges

/-- Count events of a coefficient for a queue. -/
def chargeTo (s : State) (q : Option Nat) (i n : Nat) : State := { s with charges := charged s q i n }

/-- The queues of a context, or of any for none, are no longer eligible: they keep no deficit (13 R408). -/
def loseDeficits (s : State) (ctx : Option Nat) : State :=
  { s with queues := mmap (fun (q : Queue) => if ctx.isNone ∨ ctx = some q.desc.context then { q with deficit := 0 } else q) s.queues }

/-- Count events for the queue whose work is under way. -/
def charge (s : State) (i n : Nat) : State := chargeTo s s.payer i n

/-- A host address that the host answers with an error. -/
def hostHole (s : State) (pa : Nat) : Bool := s.hostHoles.any (fun r => decide (r.1 ≤ pa) && decide (pa < r.1 + r.2))

/-- The context that holds a partition (14 R416). -/
def holderOf (s : State) (p : Nat) : Option Nat := mget s.holder p

/-- Whether a context is resident: it holds its partitions (14 R416). -/
def Ctx.isIn (c : Ctx) : Bool := c.st == .resident || c.st == .running || c.st == .preempting

def nmuOf (s : State) (g : Nat) : Nmu := mgetD s.nmus g .zero
def updNmu (s : State) (g : Nat) (f : Nmu → Nmu) : State := { s with nmus := mset s.nmus g (f (nmuOf s g)) }
def portOf (s : State) (p : Nat) : Port := mgetD s.ports p .zero
def updPort (s : State) (p : Nat) (f : Port → Port) : State := { s with ports := mset s.ports p (f (portOf s p)) }
def updLaunch (s : State) (l : Nat) (f : Launch → Launch) : State := { s with launches := madj s.launches l f }
def updQueue (s : State) (q : Nat) (f : Queue → Queue) : State := { s with queues := madj s.queues q f }
def updGraph (s : State) (g : Nat) (f : Graph → Graph) : State := { s with graphs := madj s.graphs g f }
def updScript (s : State) (p : Nat) (f : Script → Script) : State := { s with scripts := madj s.scripts p f }
def updCircuit (s : State) (p : Nat) (f : Circuit → Circuit) : State := { s with circuits := madj s.circuits p f }

/-- A copy: of a core's slots, or of the scheduler's channels (09 R499). -/
def copyOf (s : State) (c : CopyRef) : Option Copy :=
  if c.core = 0x3FF then mget s.channels c.slot else mget (coreOf s c.core).copies c.slot

/-- Put a copy. -/
def setCopy (s : State) (c : CopyRef) (x : Copy) : State :=
  if c.core = 0x3FF then { s with channels := mset s.channels c.slot x }
  else updCore s c.core (fun k => { k with copies := mset k.copies c.slot x })

/-- Change a copy. -/
def updCopy (s : State) (c : CopyRef) (f : Copy → Copy) : State :=
  match copyOf s c with
  | some x => setCopy s c (f x)
  | none => s

/-- Every copy with its place. -/
def allCopies (s : State) : List (CopyRef × Copy) :=
  s.cores.flatMap (fun kc => kc.2.copies.map (fun x => (⟨kc.1, x.1⟩, x.2))) ++ s.channels.map (fun x => (⟨0x3FF, x.1⟩, x.2))

/-- A copy's handle (09 Table copy-5). -/
def copyHandle (c : CopyRef) (serial : Nat) : Nat := serial % 2 ^ 14 * 2 ^ 17 + c.core * 2 ^ 7 + c.slot

/-- Emit a message. -/
def emit (s : State) (m : OutMsg) : State := { s with outbox := s.outbox ++ [m] }

/-- Put a decrement on its way to the scheduler (08 R279, R280), from a warp or, with 0, from an engine; an amount of zero sends
nothing. -/
def sendDecrOf (s : State) (uid ctx handle amount : Nat) : State :=
  if amount = 0 then s else { s with decrs := s.decrs ++ [⟨uid, ctx, handle, amount⟩] }

/-- An engine's decrement. -/
def sendDecr (s : State) (ctx handle amount : Nat) : State := sendDecrOf s 0 ctx handle amount

/-- A timed wait whose time starts later. -/
def WaitObj.later (d : Nat) (o : WaitObj) : WaitObj :=
  match o with
  | .twait p n h tmo t0 q => .twait p n h tmo (t0 + d) q
  | .flgw p x c cc w v tmo t0 hit => .flgw p x c cc w v tmo (t0 + d) hit
  | .bkw p n tmo t0 seen => .bkw p n tmo (t0 + d) seen
  | o => o

/-- A warp stops: the time-outs of its waits stand still (08 R269). -/
def Warp.stopTime (w : Warp) (now : Nat) : Warp := { w with stopped := some (w.stopped.getD now) }

/-- A warp goes on: the time it stood does not count. -/
def Warp.goTime (w : Warp) (now : Nat) : Warp :=
  match w.stopped with
  | none => w
  | some t => { w with
      stopped := none
      slices := w.slices.map (fun x => match x.st with | .park o => { x with st := .park (o.later (now - t)) } | _ => x) }

/-- The node a handle names in a context: its slot and index (12 R382). -/
def nodeOf (s : State) (ctx handle : Nat) : Option (Nat × Nat × Node) :=
  let slot := bits handle 16 12
  let idx := handle % 65536
  if handle / 2 ^ 28 % 16 ≠ 0 then none
  else
    match mget s.graphs slot with
    | some g =>
      if (match mget s.ctxs ctx with | some c => c.slots.contains slot | none => false) && g.ctx == ctx then
        (mget g.nodes idx).map (fun n => (slot, idx, n))
      else none
    | none => none

/-- The queue that pays for the work of a node: that of its graph. -/
def nodePayer (s : State) (ctx handle : Nat) : Option Nat :=
  match nodeOf s ctx handle with
  | some (slot, _, _) => (mget s.graphs slot).bind (fun g => g.queue)
  | none => none

/-- The queue that pays for a copy. -/
def copyPayer (s : State) (x : Copy) : Option Nat := match x.node with | some h => nodePayer s x.ctx h | none => payerOf s x.launch

/-- Change a node. -/
def updNode (s : State) (slot idx : Nat) (f : Node → Node) : State :=
  updGraph s slot (fun g => { g with nodes := madj g.nodes idx f })

end Sys2Proof.Machine
end

