-- ==== Sys2Proof/Machine/Operands.lean ====
section
/-! DEFINITION. Values of operand fields in the issuing slices (01 R31-R36, 03 R87, R92, 04 R117). -/

namespace Sys2Proof.Machine

/-- The format of a floating-point type. -/
def fmtOf : Ty → Fmt
  | .f64 => fp64
  | .f16 => fp16
  | .bf16 => bf16
  | .f8m => fp8m
  | .f8e => fp8e
  | _ => fp32

/-- The width of a type in bits. -/
def tyBits : Ty → Nat
  | .n64 | .i64 | .f64 => 64
  | .n16 | .i16 | .f16 | .bf16 => 16
  | .n8 | .i8 | .f8m | .f8e => 8
  | _ => 32

/-- A constant as an exact floating-point value (01 Table word-8). -/
def konstXR : Konst → XR
  | .zero => .fin false 0 1
  | .one => .fin false 1 1
  | .mone => .fin true 1 1
  | .two => .fin false 2 1
  | .half => .fin false 1 2

/-- A constant by the operand's type; packed types hold it in every element (01 R33). -/
def konstVal (t : Ty) (k : Konst) : Nat :=
  match t with
  | .f32 | .f64 => (fmtOf t).round .rn (konstXR k)
  | .f16 | .bf16 => (fmtOf t).round .rn (konstXR k) * 0x10001
  | .f8m | .f8e => (fmtOf t).round .rn (konstXR k) * 0x1010101
  | _ => match k with
    | .zero | .half => 0
    | .one => 1
    | .mone => 2 ^ 64 - 1
    | .two => 2

/-- The linear block identifier of a warp (05 R162). -/
def blockId (s : State) (w : Warp) : Nat := match mget s.blocks w.block with | some b => b.id | none => 0

/-- A special operand in a lane (01 Table word-7). -/
def specVal (s : State) (x : Special) (lane : Nat) : Nat :=
  match x with
  | .lane => lane
  | .slice => lane / 4
  | .warp => (cw s).idx
  | .block => blockId s (cw s)
  | .clu => clusterOf s.cur.core
  | .stk => stackOf (clusterOf s.cur.core)
  | .dev => s.dev.getD 0
  | .width => (cw s).width
  | .core => s.cur.core
  | .gang => s.cur.mask
  | .nlane => (cw s).nlane
  | .clock => s.cycle
  | .gen => s.gen.toNat

/-- The entry a latch names in a slice (02 R70). -/
def latchEntry (s : State) (j k : Nat) : Option Entry := ((cw s).slice j).window[k - 1]?

/-- The value of an entry in a lane. -/
def EntryBody.val (b : EntryBody) (lane : Nat) : Nat :=
  match b with
  | .e32 v => ((v[lane % 4]?).getD 0).toNat
  | .e64 v => ((v[lane % 4]?).getD 0).toNat
  | _ => 0

/-- A register in a lane: a pair at 64 bits, the slice's copy of a scalar (01 R36). -/
def regVal (s : State) (wide : Bool) (r : Reg) (lane : Nat) : Nat :=
  match r with
  | .v n =>
    if wide then ((cw s).vreg n lane).toNat + ((cw s).vreg (n + 1) lane).toNat * 2 ^ 32 else ((cw s).vreg n lane).toNat
  | .s n =>
    let v := (((cw s).slice (lane / 4)).sreg n).toNat
    if wide then v else v % 2 ^ 32

/-- An operand in a lane, at 64 or 32 bits (01 R36). -/
def opVal (s : State) (t : Ty) (wide : Bool) (o : Opnd) (lane : Nat) : Nat :=
  match o with
  | .reg r => regVal s wide r lane
  | .spec x => specVal s x lane % 2 ^ (if wide then 64 else 32)
  | .konst k => konstVal t k % 2 ^ (if wide then 64 else 32)
  | .latch k =>
    match latchEntry s (lane / 4) k with
    | some e => e.body.val lane % 2 ^ (if wide then 64 else 32)
    | none => 0

/-- An operand at its type's width. -/
def opTy (s : State) (t : Ty) (o : Opnd) (lane : Nat) : Nat := opVal s t t.wide o lane

/-- A 32-bit integer operand (04 R117). -/
def op32 (s : State) (o : Opnd) (lane : Nat) : Nat := opVal s .n32 false o lane

/-- A 64-bit integer operand. -/
def op64 (s : State) (o : Opnd) (lane : Nat) : Nat := opVal s .n64 true o lane

/-- An FP32 operand. -/
def opF (s : State) (o : Opnd) (lane : Nat) : Nat := opVal s .f32 false o lane

/-- The lowest-numbered lane of a slice. -/
def lane0 (j : Nat) : Nat := 4 * j

/-- The exact value of an integer code of a type (03 R87). -/
def intVal (t : Ty) (w : Nat) : Int := if t.sgn then sext (tyBits t) w else ((w % 2 ^ (tyBits t) : Nat) : Int)

/-- An integer operand in a lane. -/
def opInt (s : State) (t : Ty) (o : Opnd) (lane : Nat) : Int := intVal t (opTy s t o lane)

/-- The least value of an integer type. -/
def tyMin (t : Ty) : Int := if t.sgn then -((2 ^ (tyBits t - 1) : Nat) : Int) else 0
/-- The greatest value of an integer type. -/
def tyMax (t : Ty) : Int := if t.sgn then ((2 ^ (tyBits t - 1) : Nat) : Int) - 1 else ((2 ^ (tyBits t) : Nat) : Int) - 1

/-- Wrap or clamp an exact result into a type, as a register element (03 R87, 04 R118, R123). -/
def intRes (t : Ty) (sat : Bool) (v : Int) : Nat :=
  let v := if sat then clampI v (tyMin t) (tyMax t) else intVal t (ofInt (tyBits t) v)
  ofInt (if t.wide then 64 else 32) v

end Sys2Proof.Machine
end

