-- ==== Sys2Proof/Machine/Flags.lean ====
section
/-! DEFINITION. Comparison conditions and the status registers: SSTAT (03 R104-R106), WSTAT (02 R68), ICNT, FSTAT's fields. -/

namespace Sys2Proof.Machine

/-- The integer conditions on exact values (04 R127). -/
def icmpCond (cc : Cc) (x y : Int) : Bool :=
  match cc with
  | .eq => x == y
  | .ne => x != y
  | .lt => decide (x < y)
  | .le => decide (x ≤ y)
  | .gt => decide (y < x)
  | .ge => decide (y ≤ x)

/-- SSTAT by its fields (03 Table value-4). -/
structure Sstat where
  valid : Bool
  nan : Bool
  sat : Bool
  maxexp : Int
  curuz : Nat
  fill : Nat
  uzmax : Nat
  uzblk : Nat
  blocks : Nat
deriving DecidableEq, Repr

/-- The fields of an SSTAT value. -/
def sstatOf (w : Nat) : Sstat :=
  ⟨bit w 63, bit w 62, bit w 61, sext 10 (bits w 51 10), bits w 45 6, bits w 40 5, bits w 32 8, bits w 16 16, bits w 0 16⟩

/-- The SSTAT value of its fields. -/
def Sstat.pack (x : Sstat) : Nat :=
  b2n x.valid * 2 ^ 63 + b2n x.nan * 2 ^ 62 + b2n x.sat * 2 ^ 61 + ofInt 10 x.maxexp * 2 ^ 51 + x.curuz % 64 * 2 ^ 45 +
    x.fill % 32 * 2 ^ 40 + x.uzmax % 256 * 2 ^ 32 + x.uzblk % 65536 * 2 ^ 16 + x.blocks % 65536

/-- Count one narrowed element: its exact quotient, and whether the result overflowed and is zero (03 R104). -/
def Sstat.count (x : Sstat) (q : XR) (ovf zero : Bool) : Sstat :=
  let x := match q with
    | .nan => { x with nan := true }
    | .inf _ => { x with sat := true }
    | .fin _ n d =>
      let x := if ovf then { x with sat := true } else x
      if n = 0 then x
      else
        let e := clampI (ilog2 n d) (-512) 511
        let x := if !x.valid || decide (x.maxexp < e) then { x with maxexp := e } else x
        { x with valid := true, curuz := if zero then x.curuz + 1 else x.curuz }
  let x := { x with fill := x.fill + 1 }
  if x.fill = 32 then
    { x with
      blocks := clampN (x.blocks + 1) 0xFFFF
      uzblk := if 0 < x.curuz then clampN (x.uzblk + 1) 0xFFFF else x.uzblk
      uzmax := Nat.max x.uzmax x.curuz
      curuz := 0
      fill := 0 }
  else x

/-- The next scale exponent (03 R106). -/
def scselRule (x : Sstat) (cur : Int) (emax h : Int) (ulim : Nat) : Int :=
  if x.nan || !x.valid then cur
  else
    let nxt := x.maxexp + cur + 1 - emax + h
    let nxt := if !x.sat && decide (0 < ulim) && decide (ulim ≤ x.uzmax) then nxt - 1 else nxt
    let nxt := if x.sat && decide (nxt ≤ cur) then cur + 1 else nxt
    clampI nxt (-126) 127

/-- emax of a target format (03 R106). -/
def emaxOf : Ty → Int
  | .f8m => 8
  | .bz4 => 3
  | _ => 15

/-- The width code of WSTAT (02 Table register-3). -/
def widthCode (w : Nat) : Nat := if w = 8 then 0 else if w = 16 then 1 else if w = 32 then 2 else 3

/-- WSTAT (02 Table register-3). -/
def Warp.wstat (w : Warp) (slot : Nat) : Nat :=
  (if 0 < w.lent then 1 else 0) * 2 ^ 15 + w.held * 2 ^ 12 + w.extmax * 2 ^ 9 + widthCode w.width * 2 ^ 7 + slot

/-- ICNT (14 Table context-9). -/
def Warp.icnt (w : Warp) : Nat :=
  w.ic 0 + w.ic 1 * 2 ^ 6 + w.ic 2 * 2 ^ 12 + w.ic 3 * 2 ^ 18 + w.ic 4 * 2 ^ 24 + w.ic 5 * 2 ^ 30

end Sys2Proof.Machine
end

