-- ==== Sys2Proof/Machine/Home.lean ====
section
/-! DEFINITION. Memory below the cores: bytes and keys, hallmarks, buckets, home L2, translation, cluster caches
(06 R196-R223, 07 R229-R233, R498, 08 R287-R289). -/

namespace Sys2Proof.Machine

/-! ## Regions (06 Table page-1) -/

def inDevice (pa : Nat) : Bool := decide (pa < 2 ^ 40)
def inHost (pa : Nat) : Bool := decide (0x8000000000000 ≤ pa) && decide (pa < 0xC000000000000)
def inHallmark (pa : Nat) : Bool := decide (0xE000000000000 ≤ pa) && decide (pa < 0xE000008000000)

/-- The region of page tables that holds a whole range. -/
def inRegion (pa n : Nat) : Bool :=
  (inDevice pa && inDevice (pa + n - 1)) || (inHost pa && inHost (pa + n - 1)) || (inHallmark pa && inHallmark (pa + n - 1))

/-! ## Hallmarks (06 R217-R223) -/

/-- A stored gen as the 64-bit generation it names (06 R222). -/
def fullGen (s : State) (g : W32) : Nat :=
  let lo := s.gen.toNat % 2 ^ 32
  let hi := s.gen.toNat - lo
  if g.toNat ≤ lo then hi + g.toNat else hi - 2 ^ 32 + g.toNat

/-- The 8-byte units of a table that hold something: the indices of its entries in listed memory. -/
def tableIdx (s : State) (tbl n : Nat) : List Nat :=
  ((s.mem.filter (fun c => decide (tbl ≤ c.1) && decide (c.1 < tbl + 8 * n))).map (fun c => (c.1 - tbl) / 8)).eraseDups

/-- An entry of a page table, plain memory at the home. A walker reads it as it stands, whatever key it was written under (DESIGN CHOICE:
the spec names no key for the walkers; notes/assumptions/88). -/
def rawEntry (s : State) (pa : Nat) : Nat :=
  ofBytes ((List.range 8).map (fun i => mgetD s.mem (pa + i) 0))

/-- The frame of an entry. -/
def entFrame (e : Nat) : Nat := bits e 8 40 * 4096
/-- The page size of a leaf (06 Table page-3). -/
def pageSize (lvl e : Nat) : Nat := if lvl = 0 then (if bit e 6 then 65536 else 4096) else 2 ^ (12 + 9 * lvl)

/-- A malformed entry (06 R205). -/
def malformed (e lvl : Nat) : Bool :=
  let leaf := bit e 1
  let twin := bit e 5
  let fr := entFrame e
  if !leaf then
    lvl == 0 || bits e 48 16 != 0 || bits e 2 6 != 0 || !inDevice fr ||
      fr % (if lvl = 4 then 4096 else 4096) != 0
  else
    let sz := pageSize lvl e
    let span := if twin then 2 * sz else sz
    decide (3 ≤ lvl) || (!twin && bits e 54 10 != 0) || (lvl != 0 && bit e 6) || fr % span != 0 || !inRegion fr span ||
      (twin && (!bit e 7 || !inDevice fr)) || (inHallmark fr && (bit e 3 || bits e 48 6 != 0)) || (inHost fr && bits e 48 6 != 0)

/-- The groups under which the table of a level, and those below it, map twin pairs whose frame and span meet a test. The root has 256
entries (06 R205). -/
def twinGroups (s : State) (p : Nat → Nat → Bool) : Nat → Nat → List Nat
  | 0, _ => []
  | n + 1, tbl =>
    (tableIdx s tbl (if n = 4 then 256 else 512)).flatMap (fun i =>
      let e := rawEntry s (tbl + 8 * i)
      if !bit e 0 || malformed e n then []
      else if bit e 1 then (if bit e 5 && p (entFrame e) (2 * pageSize n e) then [bits e 54 10] else [])
      else twinGroups s p n (entFrame e))

/-- Whether a context's tables map, under a group, a twin pair that holds a tile. -/
def mapsTile (s : State) (g tile root : Nat) : Bool :=
  (twinGroups s (fun fr span => decide (fr / 65536 ≤ tile) && decide (tile < (fr + span + 65535) / 65536)) 5 root).contains g

/-- The hallmark of a tile as every reader sees it: gen and tag (06 R221). -/
def hallmark (s : State) (tile : Nat) : Nat × Nat :=
  let st := mgetD s.hallmarks tile (0, 0)
  let base := (fullGen s st.2, st.1)
  s.ctxs.foldl (fun acc c => c.2.stamps.foldl (fun acc g =>
    if acc.1 < g.2.1.toNat && mapsTile s g.1 tile c.2.desc.root then (g.2.1.toNat, g.2.2) else acc) acc) base

/-- The 64-bit word of the hallmark window (06 Table page-7). -/
def hallmarkWord (s : State) (tile : Nat) : Nat :=
  let h := hallmark s tile
  h.2 % 65536 * 2 ^ 32 + h.1 % 2 ^ 32

/-! ## Bytes -/

/-- The tag of data written under a key identifier as now loaded (06 R212). -/
def keyTagOf (s : State) (key : Nat) : Nat := if key = 0 then 0 else key + 64 * mgetD s.epochs key 0

/-- A byte read under a key: unspecified when it was written under another (06 R212). -/
def readByte (s : State) (key pa : Nat) : Byte :=
  if inHallmark pa then BitVec.ofNat 8 (hallmarkWord s ((pa - 0xE000000000000) / 8) / 256 ^ (pa % 8))
  else if mgetD s.keyTag pa 0 = keyTagOf s key then mgetD s.mem pa 0
  else Config.freeByte s.freeCtr pa

/-- Bytes read under a key. -/
def readPa (s : State) (key pa n : Nat) : List Byte := (List.range n).map (fun i => readByte s key (pa + i))

/-- A number read under a key. -/
def readNum (s : State) (key pa n : Nat) : Nat := ofBytes (readPa s key pa n)

/-- Whether a launch is in progress. -/
def Launch.runs (l : Launch) : Bool := l.st == .started || l.st == .dispatching || l.st == .draining || l.st == .ending

/-- Note a byte that is about to be written, for the launches in progress: their fetches may still see it (07 R235). -/
def noteOld (s : State) (pa : Nat) : SMap (SMap Byte) :=
  let ls := (s.launches.filter (fun l => l.2.runs)).map (·.1)
  if ls.isEmpty then s.olds
  else mset s.olds pa (ls.foldl (fun m l => if (mget m l).isSome then m else mset m l (mgetD s.mem pa 0)) (mgetD s.olds pa []))

/-- The tag of a byte whose 16-byte block has been written in part under another key: no key reads it (06 R212). -/
def lostTag : Nat := 2 ^ 40

/-- A write under a key re-encrypts the whole 16-byte blocks of the bytes: what they held under another key is lost (06 R212). -/
def loseBlock (tag pa : Nat) (m : SMap Nat) : SMap Nat :=
  (List.range 16).foldl (fun m i =>
    let a := pa / 16 * 16 + i
    if mgetD m a 0 = tag then m else mput 0 m a lostTag) m

/-- Write one byte under a key. -/
def pokeByte (s : State) (key pa : Nat) (b : Byte) : State :=
  { s with mem := mput 0 s.mem pa b, keyTag := mput 0 (loseBlock (keyTagOf s key) pa s.keyTag) pa (keyTagOf s key), olds := noteOld s pa }

/-! ## Home L2 (07 R498) -/

/-- The L2 set of a line number: its stack and PA[20:8]. -/
def l2Set (line : Nat) : Nat := line / 2 ^ 29 * 2 ^ 13 + line % 2 ^ 13

/-- The sectors of a line that an access touches. -/
def sectors (pa n : Nat) : Nat :=
  maskOf ((List.range 4).filter (fun i => decide (pa % 256 < 64 * (i + 1)) && decide (64 * i < pa % 256 + n)))

/-- The bytes that an access moves at device memory: the sectors it fills, those that it writes whole left out, and a dirty line that goes
(13 Table queue-2 class 3). -/
def memBytes (pa n : Nat) (write : Bool) (valid : Nat) (old : Option L2Line) : Nat :=
  let fill := (List.range 4).filter (fun i => bit (sectors pa n) i && !bit valid i &&
    !(write && decide (pa % 256 ≤ 64 * i) && decide (64 * (i + 1) ≤ pa % 256 + n)))
  64 * fill.length + (match old with | some l => if l.dirty then 64 * popcount 4 l.valid else 0 | none => 0)

/-- An access looks up its line: hit, miss and replacement change tag state only, and are counted for the queue that pays. -/
def l2Access (s : State) (key pa n : Nat) (write : Bool) : State :=
  let line := pa / 256
  let secs := sectors pa n
  let s := charge s 2 n
  match mget s.l2 line with
  | some l =>
    if l.key = key then
      charge { s with l2 := mset s.l2 line { l with valid := l.valid ||| secs, dirty := l.dirty || write } } 3 (memBytes pa n write l.valid none)
    else charge { s with l2 := mset s.l2 line ⟨key, secs, write⟩ } 3 (memBytes pa n write 0 (some l))
  | none =>
    let mates := s.l2.filter (fun x => l2Set x.1 == l2Set line)
    let cs := if 24 ≤ mates.length then choose s mates.length else (0, s)
    let s := cs.2
    let victim := if 24 ≤ mates.length then mates[cs.1]? else none
    let l2 := match victim with | some v => mdel s.l2 v.1 | none => s.l2
    charge { s with l2 := mset l2 line ⟨key, secs, write⟩ } 3 (memBytes pa n write 0 (victim.map (·.2)))

/-! ## Waits that a write may meet -/

/-- The condition of FLGW (08 R282). -/
def flgCond (cc : FlgCc) (wide : Bool) (v c : Nat) : Bool :=
  let n := if wide then 64 else 32
  let v := v % 2 ^ n
  let c := c % 2 ^ n
  match cc with
  | .eq => v == c
  | .ne => v != c
  | .geu => decide (c ≤ v)
  | .gtu => decide (c < v)
  | .ges => decide (sext n c ≤ sext n v)
  | .gts => decide (sext n c < sext n v)

/-- The selectors of the groups of all contexts whose tables map the twin pair at an address. -/
def pairSels (s : State) (pa : Nat) : List Bool :=
  s.ctxs.flatMap (fun c =>
    (twinGroups s (fun fr span => decide (fr ≤ pa) && decide (pa < fr + span)) 5 c.2.desc.root).map (fun g => mgetD c.2.sel g false))

/-- The physical address of a translation: the page, or the front or back twin of its pair now (06 R214). A pair that is mapped under
several groups or contexts is selected by any one of their selectors, which one unspecified for each access (06 R215). -/
def resolve (s : State) (ctx : Nat) (x : Xlat) (back : Bool) : Nat :=
  match x.twin with
  | none => x.pa
  | some (sz, g) =>
    let own := match ctxOf s ctx with | some c => mgetD c.sel g false | none => false
    let sel := if (pairSels s x.pa).any (· != own) then Config.choice (s.freeCtr + s.nextId + s.cycle + x.pa) % 2 == 1 else own
    if sel != back then x.pa + sz else x.pa

/-- Test the parked FLGWs and NWAITs whose unit satisfies a test, on the values it holds now (08 R284, 11 R370). -/
def testWaits (s : State) (p : Nat → Bool) : State :=
  let wsl := fun (ctx : Nat) (x : Slice) =>
    match x.st with
    | .park (.flgw pd xl c cc wide dev tmo t0 (some false)) =>
      let pa := resolve s ctx xl false
      if !inHost pa && p pa && flgCond cc wide (readNum s xl.key pa (if wide then 8 else 4)) c.toNat then
        { x with st := SliceSt.park (.flgw pd xl c cc wide dev tmo t0 (some true)) }
      else x
    | _ => x
  let cores := s.cores.map (fun kc => (kc.1, { kc.2 with
    warps := kc.2.warps.map (fun sw => (sw.1, { sw.2 with slices := sw.2.slices.map (wsl sw.2.ctx) })) }))
  let nmus := s.nmus.map (fun g => (g.1, { g.2 with places := g.2.places.map (fun q =>
    match q.2.parked with
    | some (xl, b, false) =>
      let pa := resolve s q.2.ctx xl false
      (q.1, if p pa && decide (b.toNat ≤ readNum s xl.key pa 8) then { q.2 with parked := some (xl, b, true) } else q.2)
    | _ => q) }))
  { s with cores := cores, nmus := nmus }

/-! ## Writes at the home -/

/-- Count a write event's bytes in the armed buckets, and fire (08 R288, R289). -/
def countBuckets (s : State) (addrs : List Nat) : State :=
  s.buckets.foldl (fun s b =>
    let n := (addrs.filter (fun a => decide (b.2.pa ≤ a) && decide (a < b.2.pa + b.2.len))).length
    if n = 0 then s
    else if b.2.total ≤ b.2.count + n then sendDecr { s with buckets := mdel s.buckets b.1 } b.2.ctx b.2.node 1
    else { s with buckets := mset s.buckets b.1 { b.2 with count := b.2.count + n } }) s

/-- The hallmark stamps of written tiles (06 R219). -/
def stampTiles (s : State) (tag : Nat) (tiles : List Nat) : State :=
  tiles.foldl (fun s t => { s with hallmarks := mput (0, 0) s.hallmarks t (tag, BitVec.ofNat 32 s.gen.toNat) }) s

/-- Words that are written no longer hold the value of an increment (07 R247). -/
def forgetSignals (s : State) (addrs : List Nat) : State :=
  { s with signals := addrs.foldl (fun m a => madj m (a / 8) (fun _ => false)) s.signals }

/-- One write event in device memory: bytes, hallmarks, bucket counts, waits (06 R219, 08 R284, R288). Host memory takes only the
bytes. `tag` is the writer's (06 Table page-8). -/
def writeEvent (s : State) (tag key : Nat) (ws : List (Nat × Byte)) : State :=
  match ws with
  | [] => s
  | w0 :: _ =>
    let s1 := ws.foldl (fun s w => pokeByte s key w.1 w.2) s
    if !inDevice w0.1 then s1
    else
      let addrs := ws.map (·.1)
      let tiles := (addrs.map (· / 65536)).eraseDups
      let s3 := l2Access (forgetSignals (stampTiles s1 tag tiles) addrs) key w0.1 ws.length true
      let s4 := countBuckets s3 addrs
      testWaits s4 (fun pa => addrs.any (fun a => a / 8 == pa / 8) ||
        (inHallmark pa && tiles.contains ((pa - 0xE000000000000) / 8)))

/-- Split writes into events of one aligned 8-byte unit each (07 R239). -/
def byUnit : List (Nat × Byte) → List (List (Nat × Byte))
  | [] => []
  | w :: t =>
    match byUnit t with
    | (v :: g) :: r => if w.1 / 8 = v.1 / 8 then (w :: v :: g) :: r else [w] :: (v :: g) :: r
    | r => [w] :: r

/-- Writes at the home, one event for each unit. -/
def writeUnits (s : State) (tag key : Nat) (ws : List (Nat × Byte)) : State :=
  (byUnit ws).foldl (fun s u => writeEvent s tag key u) s

/-- Bytes at consecutive addresses. -/
def atAddr (pa : Nat) (bs : List Byte) : List (Nat × Byte) := bs.mapIdx (fun i b => (pa + i, b))

/-- Write bytes from an address on. -/
def writePa (s : State) (tag key pa : Nat) (bs : List Byte) : State := writeUnits s tag key (atAddr pa bs)

/-- A read at the home: the bytes, and the looked-up line. -/
def homeRead (s : State) (key pa n : Nat) : List Byte × State :=
  (readPa s key pa n, if inDevice pa then l2Access s key pa n false else s)

/-- Increment a signal word at its home: an atomic add of 1 that the word's readers may acquire (08 R281, 07 R247). -/
def incrAt (s : State) (tag key pa : Nat) : State :=
  let r := homeRead s key pa 8
  let s := writePa r.2 tag key pa (toBytes 8 (ofBytes r.1 + 1))
  { s with signals := mset s.signals (pa / 8) true }

/-- A rank in the order of the accesses that arrive at a line in one cycle (07 R233): a cluster's number, then the NMU, the host and
remote devices. -/
def nmuRank : Nat := 192
def hostRank : Nat := 193
def remoteRank : Nat := 194

/-- An access of a later rank has arrived at a line in this cycle: one of this rank arrives in a later cycle. -/
def lateAt (s : State) (rank line : Nat) : Bool :=
  match mget s.arrivals line with
  | some (c, r) => c == s.cycle && decide (rank < r)
  | none => false

/-- An access of a rank arrives at lines. -/
def arrive (s : State) (rank : Nat) (lines : List Nat) : State :=
  { s with arrivals := lines.foldl (fun m l => mset m l (s.cycle, rank)) (s.arrivals.filter (fun a => a.2.1 == s.cycle)) }

/-! ## Translation (06 R203-R211) -/

/-- A translation fault: PAGE_ABSENT or PAGE_PERM, cause and walk level (06 Table page-5). -/
structure PageFault where
  absent : Bool
  cause : Nat
  level : Nat
deriving DecidableEq, Repr

/-- Permission and key check (06 R210-R212): a key not granted comes first. -/
def checkPerm (e : Nat) (kind : AccessKind) (keys : W64) : Option Nat :=
  if !keys.getLsbD (bits e 48 6) && bits e 48 6 != 0 then some 0xB
  else
    match kind with
    | .read => if bit e 2 then none else some 8
    | .write => if bit e 3 then none else some 9
    | .fetch => if bit e 4 then none else some 0xA
    | .rmw => if bit e 2 && bit e 3 then none else some 0xC

/-- The TLB entries that may serve a cluster: its first-level TLB and its die's last-level TLB (06 R208). -/
def tlbEnts (s : State) (cl : Nat) : List TlbEnt := mgetD s.tlb1 cl [] ++ mgetD s.tlb2 (dieOf cl) []

/-- Put an entry into a TLB of a size; from a full one an unspecified entry goes (06 R208 gives no rule of replacement;
notes/assumptions/4). An older entry for the same page stays until a TLBI: it may still be used. -/
def tlbPut (l : List TlbEnt) (e : TlbEnt) (cap victim : Nat) : List TlbEnt :=
  if l.contains e then l else (if cap ≤ l.length then l.eraseIdx victim else l) ++ [e]

/-- An entry read by a walk enters the TLBs of a cluster and its die. -/
def tlbAdd (s : State) (cl : Nat) (e : TlbEnt) : State :=
  let a := mgetD s.tlb1 cl []
  let b := mgetD s.tlb2 (dieOf cl) []
  let c := choose s (if a.length < 256 then 1 else a.length)
  let d := choose c.2 (if b.length < 16384 then 1 else b.length)
  { d.2 with tlb1 := mset s.tlb1 cl (tlbPut a e 256 c.1), tlb2 := mset s.tlb2 (dieOf cl) (tlbPut b e 16384 d.1) }

/-- The entry that translates at a level: the one in memory, or a different one that a TLB holds (06 R208), or for a 64 KiB page any
of its 16 when they differ (06 R206); which one is unspecified. Of a part whose own entry is no valid leaf with sz = 1 only that entry is
taken, whatever its siblings hold (DESIGN CHOICE, notes/assumptions/86). Where no TLB holds an entry the walk reads at the home
(07 R498). -/
def pickEntry (s : State) (cl ctx va lvl tbl : Nat) : Nat × State :=
  let vpn := va / 2 ^ (12 + 9 * lvl)
  let idx := vpn % (if lvl = 4 then 256 else 512)
  let e := rawEntry s (tbl + 8 * idx)
  let six := if lvl = 0 && bit e 0 && bit e 1 && bit e 6 then
      (List.range 16).map (fun i => rawEntry s (tbl + 8 * (idx / 16 * 16 + i))) else [e]
  let old := (tlbEnts s cl).filter (fun t => t.ctx == ctx && t.lvl == lvl && t.vpn == vpn)
  let alts := (e :: six ++ old.map (fun t => t.entry.toNat)).eraseDups
  let cs := choose (if old.isEmpty then l2Access s 0 (tbl + 8 * idx) 8 false else s) alts.length
  ((alts[cs.1]?).getD e, cs.2)

/-- The walk from level `n - 1` down (06 R205). -/
def walkGo (cl ctx va : Nat) (kind : AccessKind) (keys : W64) : Nat → Nat → State → Except PageFault Xlat × State
  | 0, _, s => (.error ⟨true, 2, 0⟩, s)
  | lvl + 1, tbl, s =>
    let p := pickEntry s cl ctx va lvl tbl
    let e := p.1
    let s := p.2
    if !bit e 0 then (.error ⟨true, 0, lvl⟩, s)
    else if malformed e lvl then (.error ⟨true, 2, lvl⟩, s)
    else
      let s := tlbAdd s cl ⟨ctx, lvl, va / 2 ^ (12 + 9 * lvl), BitVec.ofNat 64 e⟩
      if bit e 1 then
        let sz := pageSize lvl e
        match checkPerm e kind keys with
        | some c => (.error ⟨false, c, lvl⟩, s)
        | none =>
          (.ok ⟨entFrame e + va % sz, bits e 48 6, bit e 7, if bit e 5 then some (sz, bits e 54 10) else none⟩, s)
      else walkGo cl ctx va kind keys lvl (entFrame e) s

/-- Translate an address of a context (06 R196, R205-R211). Context 0, firmware's own, is mapped to the physical addresses
themselves, with the hallmark window read-only as R205 makes it (DESIGN CHOICE, notes/assumptions/13). With cause 0x1 no walk happens,
and the level recorded is 0 (DESIGN CHOICE, notes/assumptions/87). -/
def translate (s : State) (cl ctx va : Nat) (kind : AccessKind) : Except PageFault Xlat × State :=
  if 2 ^ 56 ≤ va then (.error ⟨true, 1, 0⟩, s)
  else if ctx = 0 then
    (if !inRegion va 1 then .error ⟨true, 2, 0⟩
      else if inHallmark va && kind == .write then .error ⟨false, 9, 0⟩
      else if inHallmark va && kind == .rmw then .error ⟨false, 0xC, 0⟩
      else .ok ⟨va, 0, false, none⟩, s)
  else
    match ctxOf s ctx with
    | none => (.error ⟨true, 0, 4⟩, s)
    | some c => walkGo cl ctx va kind c.desc.keys 5 c.desc.root s

/-- The pieces of a range, each within an aligned 8-byte unit (07 R239): address and length. -/
def pieces (va n : Nat) : List (Nat × Nat) :=
  (List.range ((va % 8 + n + 7) / 8)).map (fun i =>
    let a := if i = 0 then va else va / 8 * 8 + 8 * i
    (a, (if va + n ≤ va / 8 * 8 + 8 * i + 8 then va + n else va / 8 * 8 + 8 * i + 8) - a))

/-- Translate pieces for an access: the address of the first that does not translate, or the translations. -/
def xlatPieces (cl ctx : Nat) (kind : AccessKind) : List (Nat × Nat) → State → Except Nat (List Xlat) × State
  | [], s => (.ok [], s)
  | p :: t, s =>
    match translate s cl ctx p.1 kind with
    | (.error _, s) => (.error p.1, s)
    | (.ok x, s) =>
      match xlatPieces cl ctx kind t s with
      | (.ok xs, s) => (.ok (x :: xs), s)
      | (.error a, s) => (.error a, s)

/-- Read translated pieces at their homes. -/
def readPieces (ctx : Nat) : List (Nat × Xlat) → State → List Byte × State
  | [], s => ([], s)
  | p :: t, s =>
    let r := homeRead s p.2.key (resolve s ctx p.2 false) p.1
    let q := readPieces ctx t r.2
    (r.1 ++ q.1, q.2)

/-- Read bytes of a context as strong device-scope reads of 8-byte pieces, checked for a kind of access: the bytes, or the address of the
first piece that does not translate. -/
def readAs (s : State) (cl ctx : Nat) (kind : AccessKind) (va n : Nat) : Except Nat (List Byte) × State :=
  match xlatPieces cl ctx kind (pieces va n) s with
  | (.error a, s) => (.error a, s)
  | (.ok xs, s) =>
    let r := readPieces ctx (((pieces va n).map (·.2)).zip xs) s
    (.ok r.1, r.2)

/-- Read bytes of a context. -/
def readVa (s : State) (cl ctx va n : Nat) : Except Nat (List Byte) × State := readAs s cl ctx .read va n

/-- Write translated pieces at their homes, each under its page's key. -/
def writePieces (ctx tag : Nat) : List (Nat × Xlat) → List Byte → State → State
  | [], _, s => s
  | p :: t, bs, s => writePieces ctx tag t (bs.drop p.1) (writePa s tag p.2.key (resolve s ctx p.2 false) (bs.take p.1))

/-- Write bytes of a context: whether every piece translated; otherwise nothing is written. -/
def writeVa (s : State) (cl ctx tag va : Nat) (bs : List Byte) : Bool × State :=
  match xlatPieces cl ctx .write (pieces va bs.length) s with
  | (.error _, s) => (false, s)
  | (.ok xs, s) => (true, writePieces ctx tag (((pieces va bs.length).map (·.2)).zip xs) bs s)

/-! ## Cluster caches (07 R230-R232) -/

/-- The key of a cluster's line in the cache map. -/
def cKey (cl line : Nat) : Nat := cl * 2 ^ 44 + line

/-- The dirty bytes of a line, with their addresses. -/
def CLine.dirtyBytes (c : CLine) (line : Nat) : List (Nat × Byte) :=
  ((List.range 256).filter (fun i => c.dirty.getLsbD i)).map (fun i => (line * 256 + i, mgetD c.data i 0))

/-- Write back a line's dirty bytes and leave it clean (07 R232, 06 R220). A sector whose every byte was written stays valid. -/
def lineClean (s : State) (cl line : Nat) : State :=
  match mget s.ccache (cKey cl line) with
  | none => s
  | some c =>
    let s := writeUnits s c.tag c.key (c.dirtyBytes line)
    let full := maskOf ((List.range 4).filter (fun q => (List.range 64).all (fun i => c.dirty.getLsbD (64 * q + i))))
    { s with ccache := mset s.ccache (cKey cl line) { c with dirty := 0, valid := c.valid ||| full } }

/-- Write back and drop a line. -/
def lineEvict (s : State) (cl line : Nat) : State :=
  let s := lineClean s cl line
  { s with ccache := mdel s.ccache (cKey cl line) }

/-- The lines of a cluster. -/
def linesOf (s : State) (cl : Nat) : List (Nat × CLine) :=
  (s.ccache.filter (fun x => x.1 / 2 ^ 44 == cl)).map (fun x => (x.1 % 2 ^ 44, x.2))

/-- Write back every dirty line of a context in a cluster (07 Table access-2). -/
def cleanCtx (s : State) (cl ctx : Nat) : State :=
  (linesOf s cl).foldl (fun s x => if x.2.ctx = ctx ∧ x.2.dirty ≠ 0 then lineClean s cl x.1 else s) s

/-- An acquire invalidates every clean line of a context in a cluster; of a line with dirty bytes only these stay readable without a
fill, since later loads may return no older value of the others (07 R240, R244, R247). -/
def dropClean (s : State) (cl ctx : Nat) : State :=
  (linesOf s cl).foldl (fun s (x : Nat × CLine) =>
    if x.2.ctx ≠ ctx then s
    else { s with ccache := if x.2.dirty = 0 then mdel s.ccache (cKey cl x.1) else mset s.ccache (cKey cl x.1) { x.2 with valid := 0 } }) s

/-- A line held under another key is evicted before an access. -/
def lineOwn (s : State) (cl key line : Nat) : State :=
  match mget s.ccache (cKey cl line) with
  | some c => if c.key = key then s else lineEvict s cl line
  | none => s

/-- The line for an access: one under another key is evicted first; a new one may push out a victim of its set (07 R230). -/
def lineFor (s : State) (cl ctx key line : Nat) : CLine × State :=
  let s := lineOwn s cl key line
  match mget s.ccache (cKey cl line) with
  | some c => (c, s)
  | none =>
    let mates := (linesOf s cl).filter (fun x => x.1 % 512 == line % 512)
    let cs := if 16 ≤ mates.length then choose s mates.length else (0, s)
    let s := if 16 ≤ mates.length then
        (match mates[cs.1]? with | some v => lineEvict cs.2 cl v.1 | none => cs.2) else s
    let pr := mgetD s.presence line []
    (⟨key, ctx, 0, 0, [], 0⟩,
      { s with presence := mset s.presence line (if pr.contains cl then pr else pr ++ [cl]) })

/-- Fill a sector from the home; dirty bytes keep their value (07 Table access-2). -/
def fillSector (s : State) (c : CLine) (line q : Nat) : CLine × State :=
  let r := homeRead s c.key (line * 256 + 64 * q) 64
  let data := r.1.foldl (fun (a : SMap Byte × Nat) b =>
    (if c.dirty.getLsbD a.2 then a.1 else mput 0 a.1 a.2 b, a.2 + 1)) (c.data, 64 * q)
  ({ c with data := data.1, valid := c.valid ||| 2 ^ q }, r.2)

/-- A weak load in the cluster cache: hit, or fill (07 Table access-2). -/
def cacheRead (s : State) (cl ctx key pa n : Nat) : List Byte × State :=
  let line := pa / 256
  let q := pa % 256 / 64
  let cs := lineFor s cl ctx key line
  let hit := bit cs.1.valid q || (List.range n).all (fun i => cs.1.dirty.getLsbD (pa % 256 + i))
  let cs := if hit then cs else fillSector cs.2 cs.1 line q
  ((List.range n).map (fun i => mgetD cs.1.data (pa % 256 + i) 0),
    { cs.2 with ccache := mset cs.2.ccache (cKey cl line) cs.1 })

/-- A weak store in the cluster cache (07 Table access-2, 06 R220). -/
def cacheWrite (s : State) (cl ctx key tag pa : Nat) (bs : List Byte) : State :=
  let line := pa / 256
  let cs := lineFor s cl ctx key line
  let c := cs.1
  let d := bs.foldl (fun (a : SMap Byte × BitVec 256 × Nat) b =>
    (mput 0 a.1 a.2.2 b, a.2.1 ||| BitVec.ofNat 256 (2 ^ a.2.2), a.2.2 + 1)) (c.data, c.dirty, pa % 256)
  let c' := { c with data := d.1, dirty := d.2.1, tag := if c.dirty = 0 then tag else if c.tag = tag then tag else 0 }
  { cs.2 with ccache := mset cs.2.ccache (cKey cl line) c' }

/-- Before an NMU write: recall every copy of the line that the presence vector names (11 R353). -/
def recallLine (s : State) (line : Nat) : State :=
  let s := (mgetD s.presence line []).foldl (fun s cl => lineEvict s cl line) s
  { s with presence := mdel s.presence line }

/-- Increment a signal word of a context (08 R281): not performed when its translation faults, lacks rd or w, or it is not device
memory. -/
def incrSignal (s : State) (cl ctx tag va : Nat) : Bool × State :=
  match translate s cl ctx va .rmw with
  | (.ok x, s) =>
    let pa := resolve s ctx x false
    if inDevice pa then (true, incrAt s tag x.key pa) else (false, s)
  | (.error _, s) => (false, s)

end Sys2Proof.Machine
end

