-- ==== Sys2Proof/Machine/Events.lean ====
section
/-! DEFINITION. Event records: the ring of a context, held fault records, escalation (14 R421, R422, R432). -/

namespace Sys2Proof.Machine

/-- A record of 32 bytes from fields (offset, value). -/
def mkRec (fs : List (Nat × Nat)) : List Byte := toBytes 32 (fs.foldl (fun a f => a + f.2 * 256 ^ f.1) 0)

/-- A cluster number that no TLB serves: device agents translate in memory. -/
def devCl : Nat := 4096

/-- Try to write one record in a context's ring: `none` where the ring is full or absent or a place does not translate (14 R421). The
tail is a signal word: an aligned unit of device memory, or else the increment is not performed (08 R281). The stores of the ring carry
trace tag 0 (06 Table page-8). -/
def ringWrite (s : State) (ctx : Nat) (bs : List Byte) : Option State :=
  match ctxOf s ctx with
  | none => none
  | some c =>
    if c.desc.evring = 0 ∨ c.desc.event = 0 then none
    else
      let place := c.desc.evring + 32 * (c.posted % c.desc.event)
      match xlatPieces devCl ctx .rmw [(place, 32), (c.desc.evhead, 8), (c.desc.evtail, 8)] s with
      | (.ok [xp, xh, xt], s) =>
        let rh := homeRead s xh.key (resolve s ctx xh false) 8
        let s := rh.2
        let head := ofBytes rh.1
        if c.posted < head + c.desc.event then
          let s := writePa s 0 xp.key (resolve s ctx xp false) bs
          let tail := resolve s ctx xt false
          let s := if inDevice tail ∧ tail % 8 = 0 then incrAt s 0 xt.key tail else s
          let s := updCtx s ctx (fun c => { c with posted := c.posted + 1 })
          some (if c.desc.vector = 0xFFFF then s else emit s (.msix c.desc.vector))
        else none
      | _ => none

/-- The bytes of an open fault record (14 Table context-4). -/
def Record.bytes (r : Record) (n : Nat) : List Byte :=
  mkRec [(0, 0x10), (1, r.code), (2, r.cause), (3, r.flags), (4, r.core % 65536), (6, r.slot % 256), (7, r.level), (8, r.pc.toNat),
    (16, r.info.toNat), (24, r.slices), (26, n), (28, r.handle.toNat)]

/-- Write the held record in front of the store, when its ring has room (14 R422). -/
def heldTry (s : State) (p : Nat × Nat) : Option State :=
  match ctxOf s p.1 with
  | none => some { s with heldRecords := s.heldRecords.erase p }
  | some c =>
    match mget c.records p.2 with
    | none => some { s with heldRecords := s.heldRecords.erase p }
    | some r => (ringWrite s p.1 (r.bytes p.2)).map (fun s => { s with heldRecords := s.heldRecords.erase p })

/-- Write the held records of a context, in order, as far as the ring has room. -/
def flushHeld (ctx : Nat) : Nat → State → State
  | 0, s => s
  | n + 1, s =>
    match s.heldRecords.find? (fun p => p.1 == ctx) with
    | none => s
    | some p => match heldTry s p with
      | some s => flushHeld ctx n s
      | none => s

/-- Post bytes in a context's ring, after the records held for it (14 R421: in the order of posting): the state, and whether the ring
took them. -/
def postTry (s : State) (ctx : Nat) (bs : List Byte) : Bool × State :=
  let s := flushHeld ctx s.heldRecords.length s
  match (if s.heldRecords.any (fun p => p.1 == ctx) then none else ringWrite s ctx bs) with
  | some t => (true, t)
  | none => (false, s)

/-- Post a record that is no fault record: dropped and counted when the ring is full (14 R422). -/
def postEvent (s : State) (ctx : Nat) (bs : List Byte) : State :=
  match postTry s ctx bs with
  | (true, s) => s
  | (false, s) => updCtx s ctx (fun c => { c with dropped := if c.dropped = BitVec.allOnes 64 then c.dropped else c.dropped + 1 })

/-- A warp becomes HELD: its RUN slices stop (05 R174). -/
def Warp.hold (w : Warp) (now : Nat) : Warp :=
  { w.stopTime now with st := .held, slices := w.slices.map (fun x => if x.isRun then { x with st := .held } else x) }

/-- Hold a warp in a slot, out of the active set. -/
def holdWarp (s : State) (core slot : Nat) : State :=
  let s := updWarp s core slot (fun w => w.hold s.cycle)
  updCore s core (fun c => { c with active := c.active.filter (fun a => a.1 != slot) })

/-- Escalate a context (14 R432): every warp HELD, a record of kind 0x16 when a ring can take it, firmware told, state FAULTED. -/
def escalate (s : State) (ctx cause addr : Nat) : State :=
  match ctxOf s ctx with
  | none => s
  | some c =>
    if c.st = .faulted ∨ c.st = .destroyed then s
    else
      let s := (allWarps s).foldl (fun s w =>
        if w.2.2.ctx = ctx ∧ w.2.2.firmware = false ∧ w.2.2.st ≠ .exiting then holdWarp s w.1 w.2.1 else s) s
      let s := emit (postTry s ctx (mkRec [(0, 0x16), (1, cause), (8, addr)])).2 (.firmwareNotified ctx)
      loseDeficits (updCtx s ctx (fun c => { c with prev := c.st, st := .faulted })) (some ctx)

/-- Post a fault record: into the ring, or held in the device, or escalating the context (14 R422). -/
def postFault (s : State) (ctx n : Nat) : State :=
  match ctxOf s ctx with
  | none => s
  | some c =>
    if c.desc.evring = 0 then escalate s ctx 2 (match mget c.records n with | some r => r.pc.toNat | none => 0)
    else
      match mget c.records n with
      | none => s
      | some r =>
        match postTry s ctx (r.bytes n) with
        | (true, s) => s
        | (false, s) =>
          if s.heldRecords.length < 256 then { s with heldRecords := s.heldRecords ++ [(ctx, n)] }
          else escalate s ctx 2 r.pc.toNat

/-- The open record of a context on a page (06 R209). -/
def recordOn (c : Ctx) (page : Option Nat) : Option Nat :=
  match page with
  | none => none
  | some p => (c.records.find? (fun r => r.2.page == some p && r.2.closing.isNone)).map (·.1)

/-- A record number that no open record has: the first from a number on, in the order modulo 65536 (14 R423). -/
def freeRecord (m : SMap Record) (n : Nat) : Nat → Nat
  | 0 => n % 65536
  | k + 1 => if (mget m (n % 65536)).isSome then freeRecord m (n + 1) k else n % 65536

/-- The number of the next record of a context. -/
def Ctx.freshRecord (c : Ctx) : Nat := freeRecord c.records c.nextRec 65536

/-- Open a record under the next free number, and post it (14 R423). -/
def openRecord (s : State) (ctx : Nat) (r : Record) : Nat × State :=
  match ctxOf s ctx with
  | none => (0, s)
  | some c =>
    let n := c.freshRecord
    (n, postFault (updCtx s ctx (fun c => { c with records := mset c.records n r, nextRec := n + 1 })) ctx n)

end Sys2Proof.Machine
end

