-- ==== Sys2Proof/Machine/Ops.lean ====
section
/-! DEFINITION. What every core word shares: checks and readiness at issue (05 R175, R176), write-back and the result window (02 R69-R72),
the loop end test (R74), taking a fault and closing its record (05 R174, 14 R423-R426), parking and waking, barriers (08 R270-R273), the
rendezvous (10 R322) and the exit of slices (05 R194). -/

namespace Sys2Proof.Machine

/-- The outcome of one move. -/
abbrev Out := Host.Outcome State Fault Refusal

/-- A fault that a word raises (14 Table context-4, context-5). -/
structure FaultInfo where
  code : Nat
  cause : Nat
  level : Nat
  info : Nat
  page : Option Nat
  half1 : Bool
deriving DecidableEq, Repr

/-- A fault with a code only. -/
def flt (code : Nat) : FaultInfo := ⟨code, 0, 0, 0, none, false⟩
/-- A fault with an address. -/
def fltAt (code va : Nat) : FaultInfo := ⟨code, 0, 0, va, none, false⟩
/-- A page fault (06 R209, R210). -/
def fltPage (va : Nat) (p : PageFault) : FaultInfo := ⟨if p.absent then 8 else 9, p.cause, p.level, va, some (va / 4096), false⟩

/-- What a word does at issue: its effect, a fault without effect, or a stall. -/
inductive Act where
  | done (s : State)
  | trap (f : FaultInfo)
  | stall

/-! ## Completing a word in a slice -/

/-- The loop end test after the word at `addr` (02 R74), from the innermost of `n` levels. -/
def endTestGo (addr : W64) : Nat → Slice → Slice
  | 0, x => { x with pc := addr + 8 }
  | n + 1, x =>
    match x.loops[n]? with
    | none => { x with pc := addr + 8 }
    | some l =>
      if l.le = addr then
        let x' := { x with loops := x.loops.set n { l with lc := l.lc - 1 } }
        if l.lc - 1 ≠ 0#32 then { x' with pc := l.ls } else endTestGo addr n { x' with depth := n }
      else { x with pc := addr + 8 }

/-- The loop end test (02 R74). -/
def Slice.endTest (x : Slice) (addr : W64) : Slice := endTestGo addr x.depth x

/-- Push entries into the window, the newest first (02 R69). -/
def Slice.pushAll (x : Slice) (ready : Nat) (es : List EntryBody) : Slice :=
  { x with window := (es.foldl (fun w e => ⟨ready, e⟩ :: w) x.window).take 8 }

/-- Discard the window (02 R71). -/
def Slice.discard (x : Slice) : Slice := { x with window := [] }

/-- The slice passes its word: the next repetition of a REP sequence, or the next word after the end test (02 R74, R86). -/
def Slice.advance (x : Slice) : Slice :=
  if x.repLen = 0 then { (x.endTest x.pc) with repIdx := 0 }
  else if x.repIdx + 1 < x.repLen then { x with repIdx := x.repIdx + 1, repLen := 0 }
  else { (x.endTest (x.pc + 8)) with repIdx := 0, repLen := 0 }

/-- Remove the bits of a mask. -/
def dropBits (a m : Nat) : Nat := a - (a &&& m)

/-- Split the gang of a mask by the next program counters of its slices (05 R169). The parts keep the issue history of the old gang; a
gang that REGANG forms of several old ones takes that of the first of them in the warp's list (DESIGN CHOICE: 05 R175 gives a merged gang
no history; notes/assumptions/81). -/
def Warp.regroup (w : Warp) (m : Nat) : Warp :=
  let old := (w.gangs.find? (fun g => g.mask &&& m != 0)).getD ⟨0, 0, 0⟩
  let rest := (w.gangs.map (fun g => { g with mask := dropBits g.mask m })).filter (fun g => g.mask != 0)
  let live := (w.inMask m).filter (fun j => !(w.slice j).isExited)
  let pcs := (live.map (fun j => (w.slice j).pc)).eraseDups
  { w with gangs := rest ++ pcs.map (fun p => { old with mask := maskOf (live.filter (fun j => (w.slice j).pc == p)) }) }

/-- Complete the word of the issuing slices: push its entries, readable after a latency, and move on (05 R180). -/
def retire (s : State) (lat : Nat) (es : Nat → List EntryBody) : State :=
  updCw s (fun w => (w.updSlices s.cur.mask (fun j x => (x.pushAll (s.cycle + lat) (es j)).advance)).regroup s.cur.mask)

/-- Complete a word without a result: a void entry. -/
def retireVoid (s : State) : State := retire s 0 (fun _ => [.void])

/-- Complete a switch point whose wait is met at issue (02 R71). -/
def retireSwitch (s : State) (es : Nat → List EntryBody) : State :=
  retire (updCw s (fun w => w.updSlices s.cur.mask (fun _ x => x.discard))) 0 es

/-- Park the issuing gang at a switch point (02 R71, 05 R171). -/
def park (s : State) (o : WaitObj) : State :=
  updCw s (fun w => w.updSlices s.cur.mask (fun _ x => { x.discard with st := .park o }))

/-- End the wait of parked slices: RUN, or RUN at the warp's resume (05 R171), as one gang that issues from the next cycle (R181). -/
def wake (s : State) (core slot mask : Nat) (es : Nat → List EntryBody) : State :=
  updWarp s core slot (fun w =>
    let w1 := w.updSlices mask (fun j x =>
      ({ x with st := if w.st == .held || !w.records.isEmpty then .held else .run } : Slice).pushAll s.cycle (es j) |>.advance)
    let w2 := w1.regroup mask
    { w2 with gangs := w2.gangs.map (fun g => if g.mask &&& mask != 0 then { g with start := s.cycle + 1 } else g) })

/-- Wake, gang by gang, the slices that satisfy a test. -/
def wakeWhere (s : State) (p : Warp → Slice → Bool) (es : List EntryBody) : State :=
  (allWarps s).foldl (fun s q =>
    let w := q.2.2
    w.gangs.foldl (fun s g =>
      let m := g.mask &&& w.maskWhere (p w)
      if m = 0 then s else wake s q.1 q.2.1 m (fun _ => es)) s) s

/-! ## Taking a fault (05 R174, 14 R423-R425) -/

/-- The faulting slices and their warp become HELD; a record is opened and posted, or the warp joins the page's open record. A warp in
firmware mode has no record: firmware restarts (14 R440). -/
def openFault (s : State) (core slot mask : Nat) (f : FaultInfo) (engine : Bool) : State :=
  let w := warpOf s core slot
  let low := w.slice (w.lowSlice (if mask = 0 then w.aliveMask else mask))
  let s := updWarp s core slot (fun w => w.updSlices mask (fun _ x =>
    if x.isExited then x else { x with st := .held, repLen := 0 }))
  let s := holdWarp s core slot
  if w.firmware then s
  else
    match ctxOf s w.ctx with
    | none => s
    | some c =>
      match recordOn c f.page with
      | some n =>
        let s := updCtx s w.ctx (fun c => { c with records := madj c.records n (fun r => { r with warps := r.warps ++ [w.uid] }) })
        updWarp s core slot (fun w => { w with records := w.records ++ [(n, mask)] })
      | none =>
        let n := c.freshRecord
        let s := updWarp s core slot (fun w => { w with records := w.records ++ [(n, mask)] })
        (openRecord s w.ctx
          { code := f.code, cause := f.cause, level := f.level, info := BitVec.ofNat 64 f.info, page := f.page,
            flags := b2n f.half1 + b2n engine * 2 + (if low.repLen = 0 ∧ low.repIdx = 0 then 0 else 4),
            core := core, slot := slot, pc := low.pc, slices := mask, handle := 0, warps := [w.uid], closing := none }).2

/-- The issuing word faults. -/
def takeFault (s : State) (f : FaultInfo) : State := openFault s s.cur.core s.cur.slot s.cur.mask f false

/-- TRAP and BKPT: the saved pc is the one the word would pass control to (05 R195). -/
def takeTrap (s : State) (f : FaultInfo) : State :=
  takeFault (updCw s (fun w => (w.updSlices s.cur.mask (fun _ x => x.endTest x.pc)).regroup s.cur.mask)) f

/-! ## Issue -/

/-- What a word reads and writes: operands with their width, further vector registers, predicates, the destination with its number of
registers, a predicate destination, and whether the word needs full service (14 R441) or firmware mode. With `rmw` the destination keeps
part of its value, so the word reads it whatever nowb is (01 R30); `bad` says that the word is reserved for the warp it issues from
(10 R347); `far` holds the codes that the word reads in other slices, each with
the mask of these slices (05 R176). -/
structure Use where
  ops : List (Opnd × Bool) := []
  vr : List Nat := []
  pr : List Nat := []
  dst : Option (Dst × Nat) := none
  pd : Option PDst := none
  gated : Bool := false
  fw : Bool := false
  rmw : Bool := false
  bad : Bool := false
  far : List (Nat × Nat) := []

/-- The scoreboard codes of a register run (05 R176). -/
def regCodes (r : Reg) (n : Nat) : List Nat :=
  match r with
  | .v k => (List.range n).map (k + ·)
  | .s k => [384 + k]

/-- The codes a word writes. -/
def Use.wcodes (u : Use) : List Nat :=
  (match u.dst with | some (d, n) => if d.nowb then [] else regCodes d.reg n | none => []) ++
    (match u.pd with | some p => if p.nowb then [] else [448 + p.p] | none => [])

/-- The codes a word reads or writes. -/
def Use.codes (u : Use) : List Nat :=
  u.ops.flatMap (fun o => match o.1 with | .reg r => regCodes r (if o.2 then 2 else 1) | _ => []) ++ u.vr ++
    u.pr.map (448 + ·) ++ u.wcodes

/-- The codes whose writes in flight hold the word at issue: also a destination that it keeps part of. -/
def Use.waits (u : Use) : List Nat :=
  u.codes ++ (match u.dst with | some (d, n) => if u.rmw then regCodes d.reg n else [] | none => [])

/-- The codes of an operand read in given lanes, with the slices of these lanes (04 R150). -/
def farReads (o : Opnd) (wide : Bool) (lanes : List Nat) : List (Nat × Nat) :=
  match o with
  | .reg r => (regCodes r (if wide then 2 else 1)).map (fun c => (c, maskOf (lanes.map (· / 4))))
  | _ => []

/-- A latch that a slice cannot read (02 R70). -/
def badLatch (s : State) (o : Opnd × Bool) : Bool :=
  match o.1 with
  | .latch k => (curSlices s).any (fun j =>
      match latchEntry s j k with
      | none => true
      | some e => match e.body with
        | .void => true
        | .e32 _ => o.2
        | .e64 _ => false
        | .pend _ w => o.2 && !w)
  | _ => false

/-- A vector register the warp does not hold (02 R63, R64). -/
def Warp.unheld (w : Warp) (code : Nat) : Bool := decide (128 + 64 * w.held ≤ code) && decide (code < 384)

/-- A register that a word keeps part of: an unspecified value where the warp does not hold it, as it may be with the write-back
suppressed (01 R30, 02 R64; notes/assumptions/22). -/
def keptVal (s : State) (wide : Bool) (r : Reg) (lane : Nat) : Nat :=
  match r with
  | .v n =>
    if (cw s).unheld n then
      (Config.unheldReg s.cycle (cw s).uid n lane).toNat +
        (if wide then (Config.unheldReg s.cycle (cw s).uid (n + 1) lane).toNat * 2 ^ 32 else 0)
    else regVal s wide r lane
  | .s _ => regVal s wide r lane

/-- The faults of orders 2 to 5, and a stepped code out of its range, that precede the operation's own (01 R49, 14 Table context-5). -/
def preFault (u : Use) (s : State) : Option FaultInfo :=
  if u.gated && !s.status.matrix || u.bad then some (flt 2)
  else if u.ops.any (badLatch s) then some (flt 3)
  else if u.codes.any (cw s).unheld then some (flt 4)
  else if u.fw && !(cw s).firmware then some (flt 0x13)
  else if s.cur.outside then some (flt 5)
  else none

/-- A write still in flight. -/
def Busy.pending (b : Busy) (cycle : Nat) : Bool := b.op.isSome || decide (cycle < b.until_)

/-- Whether a latch's value has been produced. -/
def latchReady (s : State) (o : Opnd × Bool) : Bool :=
  match o.1 with
  | .latch k => (curSlices s).all (fun j =>
      match latchEntry s j k with
      | some e => decide (e.ready ≤ s.cycle) && (match e.body with | .pend _ _ => false | _ => true)
      | none => true)
  | _ => true

/-- Readiness of a word's sources and destination (05 R176). -/
def ready (u : Use) (s : State) : Bool :=
  u.ops.all (latchReady s) &&
    (cw s).busy.all (fun b => !(b.pending s.cycle && ((b.mask &&& s.cur.mask) != 0 && u.waits.contains b.code ||
      u.far.any (fun f => f.1 == b.code && (b.mask &&& f.2) != 0))))

/-- The issuing warp is noted (05 R175, R177, R178, R192). -/
def Warp.noteIssue (w : Warp) (mask n : Nat) : Warp :=
  { w with offered := 0, forced := false,
           gangs := w.gangs.map (fun g => if (g.mask &&& mask) != 0 then { g with last := n } else g) }

/-- An issue is counted: the core's last issue, the gang's, the YIELD rank of the others, and the charge of the warp's queue. -/
def noteIssue (s : State) : State :=
  chargeTo { (updCore s s.cur.core (fun c => { c with
      last := some (s.cur.slot, (cw s).uid)
      issued := some s.cycle
      warps := c.warps.map (fun x =>
        (x.1, if x.1 = s.cur.slot then x.2.noteIssue s.cur.mask (s.issues + 1) else { x.2 with yielded := false })) }))
    with issues := s.issues + 1 } (payerOf s (cw s).launch) 0 1

/-- Issue a word: faults first, then readiness, then its effect. -/
def issueWord (u : Use) (body : State → Act) (s : State) : Out :=
  match preFault u s with
  | some f => .next (takeFault (noteIssue s) f)
  | none =>
    if ready u s then
      match body (noteIssue s) with
      | .done t => .next t
      | .trap f => .next (takeFault (noteIssue s) f)
      | .stall => .next s
    else .next s

/-! ## Write-back -/

/-- A value as a scalar register holds it (01 R36). -/
def scalarVal (wide sgn : Bool) (v : Nat) : Nat :=
  if wide then v else if sgn then ofInt 64 (sext 32 v) else v % 2 ^ 32

/-- Write a vector register, or a pair, in lanes. -/
def storeLanes (w : Warp) (r : Nat) (wide : Bool) (lanes : List Nat) (f : Nat → Nat) : Warp :=
  lanes.foldl (fun w l =>
    let w := w.setV r l (BitVec.ofNat 32 (f l))
    if wide then w.setV (r + 1) l (BitVec.ofNat 32 (f l / 2 ^ 32)) else w) w

/-- Write a destination in the lanes of a mask of slices, a scalar from each slice's lowest lane (01 R36). -/
def Warp.writeReg (w : Warp) (mask : Nat) (r : Reg) (wide sgn : Bool) (f : Nat → Nat) : Warp :=
  match r with
  | .v k => storeLanes w k wide (w.lanesOf mask) f
  | .s k => w.updSlices mask (fun j x => x.setS k (BitVec.ofNat 64 (scalarVal wide sgn (f (lane0 j)))))

/-- The four lanes of a slice. -/
def sliceLanes (j : Nat) : List Nat := [4 * j, 4 * j + 1, 4 * j + 2, 4 * j + 3]

/-- The window entry of a result in a slice (02 Table register-4). -/
def dstEntry (r : Reg) (wide sgn : Bool) (f : Nat → Nat) (j : Nat) : EntryBody :=
  match r with
  | .v _ =>
    if wide then .e64 ((sliceLanes j).map (fun l => BitVec.ofNat 64 (f l)))
    else .e32 ((sliceLanes j).map (fun l => BitVec.ofNat 32 (f l)))
  | .s _ => .e64 (List.replicate 4 (BitVec.ofNat 64 (scalarVal wide sgn (f (lane0 j)))))

/-- Mark registers as in flight until a cycle (05 R176, R180). -/
def Warp.busyFor (w : Warp) (now : Nat) (codes : List Nat) (mask until_ : Nat) (op : Option Nat) : Warp :=
  { w with busy := w.busy.filter (fun b => b.pending now) ++ codes.map (fun c => ⟨c, mask, until_, op⟩) }

/-- Write a destination, unless it is suppressed, with its latency. -/
def writeDst (s : State) (d : Dst) (wide sgn : Bool) (lat : Nat) (f : Nat → Nat) : State :=
  if d.nowb then s
  else updCw s (fun w => (w.writeReg s.cur.mask d.reg wide sgn f).busyFor s.cycle (regCodes d.reg (if wide then 2 else 1)) s.cur.mask
    (s.cycle + lat) none)

/-- Write a result per lane, and complete the word. -/
def wbLanes (s : State) (d : Dst) (wide sgn : Bool) (lat : Nat) (f : Nat → Nat) : State :=
  retire (writeDst s d wide sgn lat f) lat (fun j => [dstEntry d.reg wide sgn f j])

/-- Write a register group per lane: value k of the list to register r + k (04 R120); a group of two leaves a 64-bit entry. -/
def wbGroup (s : State) (d : Dst) (n lat : Nat) (f : Nat → Nat → Nat) : State :=
  match d.reg with
  | .v r =>
    let s1 := if d.nowb then s
      else updCw s (fun w => ((List.range n).foldl (fun w k => storeLanes w (r + k) false (w.lanesOf s.cur.mask) (f k)) w).busyFor
        s.cycle (regCodes d.reg n) s.cur.mask (s.cycle + lat) none)
    retire s1 lat (fun j =>
      if n = 2 then [.e64 ((sliceLanes j).map (fun l => BitVec.ofNat 64 (f 0 l % 2 ^ 32 + f 1 l % 2 ^ 32 * 2 ^ 32)))]
      else if n = 1 then [dstEntry d.reg false false (f 0) j]
      else [.void])
  | .s _ => wbLanes s d false false lat (f 0)

/-- Write a predicate in the lanes of the issuing slices. -/
def writePred (s : State) (p : PDst) (lat : Nat) (f : Nat → Bool) : State :=
  if p.nowb then s
  else updCw s (fun w => ((w.lanesOf s.cur.mask).foldl (fun w l => w.setP p.p l (f l)) w).busyFor s.cycle [448 + p.p] s.cur.mask
    (s.cycle + lat) none)

/-- Write a predicate per lane, and complete the word: the entry is 0 or 1 (02 Table register-4). -/
def wbPred (s : State) (p : PDst) (lat : Nat) (f : Nat → Bool) : State :=
  retire (writePred s p lat f) lat (fun j => [.e32 ((sliceLanes j).map (fun l => BitVec.ofNat 32 (b2n (f l))))])

/-! ## Results that arrive later -/

/-- The entry of a result that an operation will produce. -/
def pendEntry (r : Reg) (wide : Bool) (id : Nat) : EntryBody := .pend id (wide || r.isS)

/-- Complete a word whose destination an operation writes later. -/
def issuePend (s : State) (d : Dst) (n : Nat) (e : EntryBody) (id : Nat) : State :=
  let s := if d.nowb then s
    else updCw s (fun w => w.busyFor s.cycle (regCodes d.reg n) s.cur.mask 0 (some id))
  retire s 0 (fun _ => [e])

/-- An operation's result reaches the window entries that wait for it. -/
def Warp.fill (w : Warp) (now id : Nat) (e : Nat → EntryBody) : Warp :=
  { w with slices := w.slices.mapIdx (fun j x => { x with window := x.window.map (fun q =>
      match q.body with
      | .pend i _ => if i = id then ⟨now, e j⟩ else q
      | _ => q) }) }

/-- An operation has written its registers. -/
def Warp.unbusy (w : Warp) (id : Nat) : Warp := { w with busy := w.busy.filter (fun b => b.op != some id) }

/-- A value for every lane arrives for an operation without parts: the destination is written in every slice of the mask. -/
def deliver (s : State) (id v : Nat) : State :=
  match mget s.txs id with
  | some t =>
    match t.kind with
    | .reply d mask =>
      let s := { s with txs := mdel s.txs id }
      updUid s t.uid (fun w =>
        let w := if d.nowb then w else w.writeReg mask d.reg false false (fun _ => v)
        (w.unbusy id).fill s.cycle id (dstEntry d.reg false false (fun _ => v)))
    | _ => s
  | none => s

/-! ## Barriers (08 R270-R273) -/

/-- A barrier's state. -/
def barOf (s : State) (b : BarrierRef) : Barrier :=
  match b with
  | .block k id => match mget s.blocks k with | some x => mgetD x.bars id .zero | none => .zero
  | .clu k id => match mget s.cbs k with | some x => mgetD x.bars id .zero | none => .zero

/-- Set a barrier's state. -/
def setBar (s : State) (b : BarrierRef) (v : Barrier) : State :=
  match b with
  | .block k id => { s with blocks := madj s.blocks k (fun x => { x with bars := mput .zero x.bars id v }) }
  | .clu k id => { s with cbs := madj s.cbs k (fun x => { x with bars := mput .zero x.bars id v }) }

/-- Whether a warp still has slices that have not exited. -/
def aliveUid (s : State) (uid : Nat) : Bool := match findWarp s uid with | some (_, _, w) => w.aliveMask != 0 | none => false

/-- The warps of a barrier's holder that have not exited. -/
def holderLive (s : State) (b : BarrierRef) : List Nat :=
  (match b with
    | .block k _ => match mget s.blocks k with | some x => x.live | none => []
    | .clu k _ => match mget s.cbs k with
      | some x => x.blocks.flatMap (fun q => match mget s.blocks q with | some y => y.live | none => [])
      | none => []).filter (aliveUid s)

/-- Whether the condition of a generation holds (08 R272). -/
def barDone (s : State) (b : BarrierRef) : Bool :=
  let v := barOf s b
  v.fixed && (if v.expect ≠ 0 then decide (v.expect ≤ v.warps.length)
    else !v.warps.isEmpty && (holderLive s b).all (fun u => v.warps.contains u))

/-- Complete a generation when its condition holds, and release its waiters (08 R272). -/
def barTest (s : State) (b : BarrierRef) : State :=
  if barDone s b then
    let g := (barOf s b).gen + 1
    let s := setBar s b { Barrier.zero with gen := g }
    wakeWhere s (fun _ x => match x.st with | .park (.barrier b' g') => b' == b && g' != g.toNat | _ => false) [.void]
  else s

/-- Mark the warp as arrived when all its live slices have arrived (08 R271). -/
def barWarp (s : State) (b : BarrierRef) (w : Warp) : State :=
  let v := barOf s b
  let got := mgetD v.slices w.uid 0
  let alive := w.aliveMask
  if alive ≠ 0 ∧ got &&& alive = alive ∧ !v.warps.contains w.uid then setBar s b { v with warps := v.warps ++ [w.uid] } else s

/-- Slices arrive at a barrier with a count; the answer is the generation they arrived in (08 R271). -/
def barArrive (s : State) (b : BarrierRef) (core slot mask n : Nat) : Nat × State :=
  let v := barOf s b
  let w := warpOf s core slot
  let v1 := if v.fixed then v else { v with expect := n, fixed := true }
  let s1 := setBar s b { v1 with slices := mset v1.slices w.uid (mgetD v1.slices w.uid 0 ||| mask) }
  (v.gen.toNat, barTest (barWarp s1 b w) b)

/-- The barriers a warp takes part in. -/
def barsOf (s : State) (w : Warp) : List BarrierRef :=
  match mget s.blocks w.block with
  | none => []
  | some x => (x.bars.map (fun q => BarrierRef.block w.block q.1)) ++
      (match mget s.cbs x.cb with | some y => y.bars.map (fun q => BarrierRef.clu x.cb q.1) | none => [])

/-! ## The rendezvous (10 R322-R325) -/

/-- The members of a harness value: core within the cluster, and slot (10 Table pass-2). -/
def harnMembers (v : Nat) : List (Nat × Nat) := (List.range (bits v 48 3)).map (fun i => (bits v (8 * i + 4) 2, bits v (8 * i) 4))

/-- A harness value that breaks 10 Table pass-2. -/
def harnBad (v : Nat) : Bool :=
  bits v 51 13 != 0 || decide (bits v 48 3 < 2) || decide (6 < bits v 48 3) ||
    (List.range 6).any (fun i => bits v (8 * i + 6) 2 != 0 || (decide (bits v 48 3 ≤ i) && bits v (8 * i) 8 != 0))

/-- A pass descriptor that breaks 10 R345, for a word that writes a pair or not. -/
def descBad (pair : Bool) (d : Nat) : Bool :=
  let dim := fun x => x % 8 != 0 || decide (x < 8) || decide (128 < x)
  bits d 30 34 != 0 || bits d 3 5 != 0 || dim (bits d 8 8) || dim (bits d 16 8) || bits d 24 3 == 0 || decide (4 < bits d 24 3) ||
    (pair && d % 2 == 1)

/-- Whether a pass word writes an INT48 pair (10 Table pass-1). -/
def wordPair (word : Nat) : Bool := decide (6 ≤ bits word 4 4)

/-- The slices of a warp parked at a harness. -/
def Warp.atHarness (w : Warp) (h : Nat) : Nat :=
  w.maskWhere (fun x => match x.st with | .park (.rendezvous h' _ _) => h' == h | _ => false)

/-- HARNESS_BAD in a warp parked at a harness (10 R325). -/
def harnFault (h cause : Nat) (s : State) (p : Nat × Nat) : State :=
  openFault s p.1 p.2 ((warpOf s p.1 p.2).atHarness h) { flt 0xD with cause := cause } false

/-- The place of a member in a cluster. -/
def memberAt (cl : Nat) (m : Nat × Nat) : Nat × Nat := (4 * cl + m.1, m.2)

/-- Set a latch. -/
def setLatch (s : State) (cl h : Nat) (l : Latch) : State := updClust s cl (fun c => { c with latches := mput .empty c.latches h l })

/-- A warp arrives at a latch: one event at the engine (10 R322). -/
def latchArrive (s : State) (core slot h : Nat) : State :=
  let cl := clusterOf core
  let c := clustOf s cl
  let w := warpOf s core slot
  let me := (core % 4, slot)
  let m := w.atHarness h
  let offers := (w.inMask m).filterMap (fun j =>
    match (w.slice j).st with | .park (.rendezvous _ wd de) => some (wd, de) | _ => none)
  match offers with
  | [] => s
  | (word, desc) :: more =>
    let same := more.all (fun o => o == (word, desc))
    let old := mgetD c.latches h .empty
    let v := if old.filling then old.v.toNat else (mgetD c.harness h 0).toNat
    let mem := harnMembers v
    if !old.filling && harnBad v then harnFault h 1 s (core, slot)
    else if !old.filling && mem.eraseDups.length != mem.length then harnFault h 2 s (core, slot)
    else if !mem.contains me then harnFault h 4 s (core, slot)
    else if !old.filling && descBad (wordPair word.toNat) desc.toNat then harnFault h 6 s (core, slot)
    else
      let lat : Latch := if old.filling then old else ⟨true, BitVec.ofNat 64 v, word, desc, [], []⟩
      let arrived := mem.filter (fun x => x == me || lat.arrived.contains (warpOf s (memberAt cl x).1 x.2).uid)
      if word != lat.word || desc != lat.desc || !same then
        (arrived.map (memberAt cl)).foldl (harnFault h 5) (setLatch s cl h .empty)
      else if mem.any (fun x =>
          let y := warpOf s (memberAt cl x).1 x.2
          y.slices.isEmpty || y.ctx != w.ctx || y.firmware || y.st == .exiting) then
        (arrived.map (memberAt cl)).foldl (harnFault h 3) (setLatch s cl h .empty)
      else setLatch s cl h { lat with arrived := lat.arrived ++ [w.uid] }

/-- Whether an operation is an access that fences wait for: not a reply, a sketch word or a remote word. -/
def TxKind.isAccess : TxKind → Bool
  | .load _ _ | .store | .atom _ _ _ _ | .cflsh _ => true
  | _ => false

/-- Whether an operation still has parts to perform. -/
def Tx.open_ (t : Tx) : Bool := t.parts.any (fun p => !p.done)

/-- Every earlier access and fence of some slices of a warp is performed (07 R266). -/
def accessesDone (s : State) (uid mask before : Nat) : Bool :=
  s.txs.all (fun t => !(decide (t.1 < before) && t.2.uid == uid && (t.2.mask &&& mask) != 0 &&
    (match t.2.kind with
      | .fence _ _ | .tlbi => true
      | k => k.isAccess && t.2.open_)))

/-- The warp arrives at a latch when every live slice is parked there (10 R322); its arrival is a release, so that it comes once the accesses
of the slices that have exited are performed too (R326). -/
def latchTest (s : State) (core slot h : Nat) : State :=
  let w := warpOf s core slot
  let lat := mgetD (clustOf s (clusterOf core)).latches h .empty
  if w.aliveMask ≠ 0 ∧ w.atHarness h = w.aliveMask ∧ !lat.arrived.contains w.uid ∧ accessesDone s w.uid 0xFFFF s.nextId then
    latchArrive s core slot h
  else s

/-- A member exits while its latch fills: cause 3 in every arrived warp (10 R324). -/
def latchExit (s : State) (core slot : Nat) : State :=
  let cl := clusterOf core
  (List.range 8).foldl (fun s h =>
    let lat := mgetD (clustOf s cl).latches h .empty
    let mem := harnMembers lat.v.toNat
    if lat.filling && mem.contains (core % 4, slot) then
      ((mem.filter (fun x => lat.arrived.contains (warpOf s (memberAt cl x).1 x.2).uid && memberAt cl x != (core, slot))).map
        (memberAt cl)).foldl (harnFault h 3) (setLatch s cl h .empty)
    else s) s

/-! ## Exit (05 R194) -/

/-- Slices exit: their loop state ends, barriers and latches are tested again, and a warp without live slices waits for its writes. -/
def exitSlices (s : State) (core slot mask : Nat) : State :=
  let s := updWarp s core slot (fun w =>
    let w1 := w.updSlices mask (fun _ x => { x with st := .exited, window := [], loops := [.zero, .zero, .zero], depth := 0,
                                                    repIdx := 0, repLen := 0 })
    let w2 : Warp := { w1 with gangs := (w1.gangs.map (fun g => { g with mask := dropBits g.mask mask })).filter (fun g => g.mask != 0) }
    if w2.aliveMask = 0 then { w2 with st := .exiting } else w2)
  let w := warpOf s core slot
  let s := (barsOf s w).foldl (fun s b => barTest (barWarp s b w) b) s
  (List.range 8).foldl (fun s h => latchTest s core slot h) s

/-! ## Closing a record: the return from a fault (14 R426, 09 R499) -/

/-- Resume a held warp without open records (14 R426); one that a restore brought back as RESIDENT has held slices (05 R172). -/
def resumeWarp (s : State) (core slot : Nat) : State :=
  let w := warpOf s core slot
  let escalated := match ctxOf s w.ctx with | some c => c.st == .faulted | none => false
  if w.st ≠ .exiting ∧ w.records = [] ∧ !escalated then
    updWarp s core slot (fun w =>
      let w := w.goTime s.cycle
      { w with st := if w.st = .active then .active else .resident
               slices := w.slices.map (fun x => if x.st == .held then { x with st := .run } else x) })
  else s

/-- A warp of a saved partition: change it in the image (14 R428). -/
def updSaved (s : State) (uid : Nat) (f : Warp → Warp) : State :=
  let fix := fun (k : Core) => { k with warps := mmap (fun (w : Warp) => if w.uid = uid then f w else w) k.warps }
  { s with images := mmap (fun (q : Image) => { q with cores := mmap fix q.cores }) s.images }

/-- SKIP: the faulting slices pass their word as a NOP would (14 Table context-6). -/
def Warp.skip (w : Warp) (mask : Nat) : Warp :=
  (w.updSlices mask (fun _ x => if x.isExited then x else { (x.endTest x.pc) with repIdx := 0, repLen := 0 })).regroup mask

/-- One action on one held warp. -/
def closeWarp (n action : Nat) (s : State) (uid : Nat) : State :=
  match findWarp s uid with
  | some (core, slot, w) =>
    let mask := (w.records.filter (fun r => r.1 == n)).foldl (fun a r => a ||| r.2) 0
    let s := updWarp s core slot (fun w => { w with records := w.records.filter (fun r => r.1 != n) })
    let s := if action = 1 then updWarp s core slot (fun w => w.skip mask)
      else if action = 2 then exitSlices s core slot w.aliveMask else s
    resumeWarp s core slot
  | none => updSaved s uid (fun w =>
      let mask := (w.records.filter (fun r => r.1 == n)).foldl (fun a r => a ||| r.2) 0
      let w := { w with records := w.records.filter (fun r => r.1 != n) }
      let w := if action = 1 then w.skip mask else w
      if action = 2 then { w with st := .exiting, gangs := [], slices := w.slices.map (fun x => { x with st := .exited }) }
      else if w.st ≠ .exiting ∧ w.records = [] then
        { w with st := .resident, slices := w.slices.map (fun x => if x.st == .held then { x with st := .run } else x) }
      else w)

/-- One action on a copy that waits on the record: RETRY runs it again, SKIP and KILLW end it with cause KILLED (09 R499). -/
def closeCopy (ctx n action : Nat) (x : Copy) : Copy :=
  if x.ctx = ctx ∧ x.st = .stall n then
    (if action = 1 ∨ action = 2 then { x with st := .run, failing := true, cause := 1 } else { x with st := .run })
  else x

/-- What a close does (14 Table context-6): the record goes, and each warp and copy on it takes the action. -/
def finishClose (s : State) (ctx n action : Nat) (r : Record) : State :=
  let s := updCtx s ctx (fun c => { c with records := mdel c.records n })
  let s := r.warps.foldl (closeWarp n action) s
  let fix := fun (k : Core) => { k with copies := mmap (closeCopy ctx n action) k.copies }
  { s with cores := mmap fix s.cores, channels := mmap (closeCopy ctx n action) s.channels,
           images := mmap (fun (q : Image) => { q with cores := mmap fix q.cores }) s.images }

/-- Close an open record with an action; `none` where it is not open or the action is out of range (14 R426). A record that is still held
in the device keeps its warps HELD until it has been written (14 R422): the close waits for that. KILLC escalates at once. -/
def closeRecord (s : State) (ctx n action : Nat) : Option State :=
  match ctxOf s ctx with
  | none => none
  | some c =>
    match mget c.records n with
    | none => none
    | some r =>
      if 3 < action ∨ r.closing.isSome then none
      else
        let s := if action = 3 then escalate s ctx 2 r.pc.toNat else s
        some (if s.heldRecords.contains (ctx, n) then
            updCtx s ctx (fun c => { c with records := madj c.records n (fun r => { r with closing := some action }) })
          else finishClose s ctx n action r)

/-- The closes that waited for their records take effect once these are written (14 R422). -/
def settleCloses (s : State) : State :=
  s.ctxs.foldl (fun s c => c.2.records.foldl (fun s r =>
    match r.2.closing with
    | some a => if s.heldRecords.contains (c.1, r.1) then s else finishClose s c.1 r.1 a r.2
    | none => s) s) s

end Sys2Proof.Machine
end

