-- ==== Sys2Proof/Machine/IntOps.lean ====
section
/-! DEFINITION. Integer, address and register-copy words (04 R122-R128, 02 R80-R83). -/

namespace Sys2Proof.Machine

/-! ## Bit operations on n-bit values (04 Table arith-1) -/

def shlN (n x y : Nat) : Nat := x * 2 ^ (y % n) % 2 ^ n
def shrN (n x y : Nat) : Nat := x / 2 ^ (y % n)
def sarN (n x y : Nat) : Nat := ofInt n (sext n x / ((2 ^ (y % n) : Nat) : Int))
def rotrN (n x y : Nat) : Nat := (x / 2 ^ (y % n) + x * 2 ^ (n - y % n)) % 2 ^ n
def clzN (n x : Nat) : Nat := if x = 0 then n else n - 1 - Nat.log2 x
def brevN (n x : Nat) : Nat := maskOf ((ones n x).map (fun i => n - 1 - i))
def andnN (n x y : Nat) : Nat := x &&& (2 ^ n - 1 - y % 2 ^ n)

/-- A field of a 32-bit value (04 R125). -/
def bfxN (sgn : Bool) (a b : Nat) : Nat :=
  let p := bits b 0 8
  let l := clampN (bits b 8 8) 32
  if l = 0 ∨ 32 ≤ p then 0
  else
    let w := clampN l (32 - p)
    if sgn then ofInt 32 (sext w (a / 2 ^ p)) else a / 2 ^ p % 2 ^ w

/-- A field inserted into a base (04 R125). -/
def bfiN (a b c : Nat) : Nat :=
  let p := bits b 0 8
  let l := clampN (bits b 8 8) 32
  if l = 0 ∨ 32 ≤ p then c else setBits c p (clampN l (32 - p)) a

/-! ## Shared forms -/

/-- What a two-operand integer word uses; shifts read b at 32 bits (04 R117). -/
def useInt2 (x : Int2) (sh : Bool) : Use :=
  { ops := [(x.a, x.ty.wide), (x.b, x.ty.wide && !sh)], dst := some (x.d, if x.ty.wide then 2 else 1) }

/-- What a one-operand integer word uses; POPC and CLZ write 32 bits. -/
def useInt1 (x : Int1) (d32 : Bool) : Use :=
  { ops := [(x.a, x.ty.wide)], dst := some (x.d, if x.ty.wide && !d32 then 2 else 1) }

/-- A two-operand word on exact integers (04 R123). -/
def int2 (x : Int2) (f : Int → Int → Int) (s : State) : Out :=
  issueWord (useInt2 x false) (fun s => .done (wbLanes s x.d x.ty.wide x.ty.sgn 2 (fun l =>
    intRes x.ty x.sat (f (opInt s x.ty x.a l) (opInt s x.ty x.b l))))) s

/-- A two-operand word on bit patterns; `sh` as in `useInt2`. -/
def bit2 (x : Int2) (sh : Bool) (f : Nat → Nat → Nat) (s : State) : Out :=
  issueWord (useInt2 x sh) (fun s => .done (wbLanes s x.d x.ty.wide x.ty.sgn 2 (fun l =>
    f (opTy s x.ty x.a l) (if sh then op32 s x.b l else opTy s x.ty x.b l)))) s

/-- A one-operand word on a bit pattern. -/
def bit1 (x : Int1) (d32 : Bool) (f : Nat → Nat) (s : State) : Out :=
  issueWord (useInt1 x d32) (fun s => .done (wbLanes s x.d (x.ty.wide && !d32) false 2 (fun l => f (opTy s x.ty x.a l)))) s

/-! ## Meanings -/

/-- IADD (04 Table arith-1). -/
def execIadd (x : Int2) (s : State) : Out := int2 x (fun a b => a + b) s
/-- ISUB. -/
def execIsub (x : Int2) (s : State) : Out := int2 x (fun a b => a - b) s
/-- IMUL. -/
def execImul (x : Int2) (s : State) : Out := int2 x (fun a b => a * b) s
/-- IMULH: the high half of the exact product. -/
def execImulh (x : Int2) (s : State) : Out := int2 x (fun a b => a * b / ((2 ^ tyBits x.ty : Nat) : Int)) s
/-- IMIN. -/
def execImin (x : Int2) (s : State) : Out := int2 x (fun a b => if a ≤ b then a else b) s
/-- IMAX. -/
def execImax (x : Int2) (s : State) : Out := int2 x (fun a b => if a ≤ b then b else a) s

/-- IMAD (04 R123). -/
def execImad (x : Int3) (s : State) : Out :=
  issueWord { ops := [(x.a, x.ty.wide), (x.b, x.ty.wide), (x.c, x.ty.wide)], dst := some (x.d, if x.ty.wide then 2 else 1) }
    (fun s => .done (wbLanes s x.d x.ty.wide x.ty.sgn 2 (fun l =>
      intRes x.ty x.sat (opInt s x.ty x.a l * opInt s x.ty x.b l + opInt s x.ty x.c l)))) s

/-- IMADW (04 R124). -/
def execImadw (x : Int3) (s : State) : Out :=
  let wt := if x.ty.sgn then Ty.i64 else Ty.n64
  issueWord { ops := [(x.a, false), (x.b, false), (x.c, true)], dst := some (x.d, 2) }
    (fun s => .done (wbLanes s x.d true false 2 (fun l =>
      intRes wt x.sat (opInt s x.ty x.a l * opInt s x.ty x.b l + opInt s wt x.c l)))) s

/-- IABS (04 R123). -/
def execIabs (x : Int1) (s : State) : Out :=
  issueWord (useInt1 x false) (fun s => .done (wbLanes s x.d x.ty.wide x.ty.sgn 2 (fun l =>
    intRes x.ty x.sat ((opInt s x.ty x.a l).natAbs : Int)))) s

/-- AND. -/
def execAnd (x : Int2) (s : State) : Out := bit2 x false (fun a b => a &&& b) s
/-- OR. -/
def execOr (x : Int2) (s : State) : Out := bit2 x false (fun a b => a ||| b) s
/-- XOR. -/
def execXor (x : Int2) (s : State) : Out := bit2 x false (fun a b => a ^^^ b) s
/-- ANDN. -/
def execAndn (x : Int2) (s : State) : Out := bit2 x false (andnN (tyBits x.ty)) s
/-- SHL. -/
def execShl (x : Int2) (s : State) : Out := bit2 x true (shlN (tyBits x.ty)) s
/-- SHR. -/
def execShr (x : Int2) (s : State) : Out := bit2 x true (shrN (tyBits x.ty)) s
/-- SAR. -/
def execSar (x : Int2) (s : State) : Out := bit2 x true (sarN (tyBits x.ty)) s
/-- ROTR. -/
def execRotr (x : Int2) (s : State) : Out := bit2 x true (rotrN (tyBits x.ty)) s
/-- POPC. -/
def execPopc (x : Int1) (s : State) : Out := bit1 x true (popcount (tyBits x.ty)) s
/-- CLZ. -/
def execClz (x : Int1) (s : State) : Out := bit1 x true (clzN (tyBits x.ty)) s
/-- BREV. -/
def execBrev (x : Int1) (s : State) : Out := bit1 x false (brevN (tyBits x.ty)) s
/-- BFX (04 R125). -/
def execBfx (x : Int2) (s : State) : Out := bit2 x true (bfxN x.ty.sgn) s

/-- BFI (04 R125). -/
def execBfi (x : Int3) (s : State) : Out :=
  issueWord { ops := [(x.a, false), (x.b, false), (x.c, false)], dst := some (x.d, 1) }
    (fun s => .done (wbLanes s x.d false false 2 (fun l => bfiN (op32 s x.a l) (op32 s x.b l) (op32 s x.c l)))) s

/-- LEA (04 R126). -/
def execLea (x : LeaArgs) (s : State) : Out :=
  issueWord { ops := [(x.a, true), (x.b, false)], dst := some (x.d, 2) }
    (fun s => .done (wbLanes s x.d true false 2 (fun l =>
      ofInt 64 ((op64 s x.a l : Int) + opInt s x.ty x.b l * ((2 ^ x.sh : Nat) : Int))))) s

/-- ICMP (04 R127). -/
def execIcmp (x : IcmpArgs) (s : State) : Out :=
  issueWord { ops := [(x.a, x.ty.wide), (x.b, x.ty.wide)], pd := some x.pd }
    (fun s => .done (wbPred s x.pd 2 (fun l => icmpCond x.cc (opInt s x.ty x.a l) (opInt s x.ty x.b l)))) s

/-- SEL (04 R128). -/
def execSel (x : SelArgs) (s : State) : Out :=
  let t := if x.wide then Ty.n64 else Ty.n32
  issueWord { ops := [(x.a, x.wide), (x.b, x.wide)], pr := [x.g.p], dst := some (x.d, if x.wide then 2 else 1) }
    (fun s => .done (wbLanes s x.d x.wide false 2 (fun l => opVal s t x.wide (if (cw s).guard x.g l then x.a else x.b) l))) s

/-- MOV (02 R80). -/
def execMov (x : MovArgs) (s : State) : Out :=
  let t := if x.wide then Ty.n64 else Ty.n32
  issueWord { ops := [(x.a, x.wide)], dst := some (x.d, if x.wide then 2 else 1) }
    (fun s => .done (wbLanes s x.d x.wide false 2 (opVal s t x.wide x.a))) s

/-- MOVI (02 R81): .hi keeps the low half of its destination. -/
def execMovi (x : MoviArgs) (s : State) : Out :=
  match x.kind with
  | .plain => issueWord { dst := some (x.d, 1) } (fun s => .done (wbLanes s x.d false false 2 (fun _ => x.imm.toNat))) s
  | .sx => issueWord { dst := some (x.d, 2) }
      (fun s => .done (wbLanes s x.d true false 2 (fun _ => ofInt 64 (sext 32 x.imm.toNat)))) s
  | .hi => issueWord { dst := some (x.d, 2), rmw := true }
      (fun s => .done (wbLanes s x.d true false 2 (fun l => keptVal s true x.d.reg l % 2 ^ 32 + x.imm.toNat * 2 ^ 32))) s

/-- The lane that MOVS reads for a slice. -/
def movsLane (s : State) (x : MovsArgs) (j : Nat) : Nat := op32 s x.b (lane0 j) % (cw s).width

/-- MOVS (02 R82): any lane of the warp, at the value of 02 R60; a latch of a slice that does not issue gives the own slice's lowest
lane, as 04 R154 does (DEDUCED, notes/assumptions/14). -/
def execMovs (x : MovsArgs) (s : State) : Out :=
  let t := if x.wide then Ty.n64 else Ty.n32
  issueWord { ops := [(x.a, x.wide), (x.b, false)], dst := some (x.d, if x.wide then 2 else 1),
              far := farReads x.a x.wide ((curSlices s).map (movsLane s x)) }
    (fun s => .done (wbLanes s x.d x.wide false 2 (fun l =>
      let src := movsLane s x (l / 4)
      let own := match x.a with | .latch _ => !bit s.cur.mask (src / 4) | _ => false
      opVal s t x.wide x.a (if own then lane0 (l / 4) else src)))) s

/-- MOVS.sl (02 R82): one lane of each slice; the others keep their value. -/
def execMovsSl (x : MovsArgs) (s : State) : Out :=
  let t := if x.wide then Ty.n64 else Ty.n32
  issueWord { ops := [(x.a, x.wide), (x.b, false)], dst := some (x.d, if x.wide then 2 else 1), rmw := true }
    (fun s => .done (wbLanes s x.d x.wide false 2 (fun l =>
      if l % 4 = op32 s x.b (lane0 (l / 4)) % 4 then opVal s t x.wide x.a l
      else keptVal s x.wide x.d.reg l))) s

/-- PLOG (02 R83). -/
def execPlog (x : PlogArgs) (s : State) : Out :=
  issueWord { pr := [x.pa, x.pb, x.pc], pd := some x.pd }
    (fun s => .done (wbPred s x.pd 2 (fun l =>
      let w := cw s
      bit x.table (4 * b2n (w.pred x.pa l) + 2 * b2n (w.pred x.pb l) + b2n (w.pred x.pc l))))) s

end Sys2Proof.Machine
end

