-- ==== Sys2Proof/Machine/FpOps.lean ====
section
/-! DEFINITION. Floating-point words (04 R129-R137) and the P form (01 R38-R42). -/

namespace Sys2Proof.Machine

/-- An FP32 word of two operands with a function of the codes. -/
def fp2 (x : F2) (lat : Nat) (f : Nat → Nat → Nat) (s : State) : Out :=
  issueWord { ops := [(x.a, false), (x.b, false)], dst := some (x.d, 1) }
    (fun s => .done (wbLanes s x.d false false lat (fun l => f (opF s x.a l) (opF s x.b l)))) s

/-- A special function of one FP32 operand: flushed input, flushed result (04 R136). -/
def fp1 (x : F1) (f : Nat → Nat) (s : State) : Out :=
  issueWord { ops := [(x.a, false)], dst := some (x.d, 1) }
    (fun s => .done (wbLanes s x.d false false 12 (fun l => fp32.flush x.ftz (f (fp32.flush x.ftz (opF s x.a l)))))) s

/-- An FP64 word of two operands: FP64 words wait for full service (14 R441). -/
def dp2 (x : F2) (f : Nat → Nat → Nat) (s : State) : Out :=
  issueWord { ops := [(x.a, true), (x.b, true)], dst := some (x.d, 2), gated := true }
    (fun s => .done (wbLanes s x.d true false 8 (fun l => f (opVal s .f64 true x.a l) (opVal s .f64 true x.b l)))) s

/-- The format of a packed word. -/
def halfFmt (bf : Bool) : Fmt := if bf then bf16 else fp16
/-- The type of a packed word. -/
def halfTy (bf : Bool) : Ty := if bf then .bf16 else .f16

/-- An operation on both halves (04 R130). -/
def perHalf (f : Nat → Nat → Nat) (a b : Nat) : Nat := f (bits a 0 16) (bits b 0 16) + f (bits a 16 16) (bits b 16 16) * 2 ^ 16

/-- A packed word of two operands. -/
def half2 (x : H2) (f : Nat → Nat → Nat) (s : State) : Out :=
  issueWord { ops := [(x.a, false), (x.b, false)], dst := some (x.d, 1) }
    (fun s => .done (wbLanes s x.d false false 4 (fun l =>
      perHalf f (opVal s (halfTy x.bf) false x.a l) (opVal s (halfTy x.bf) false x.b l)))) s

/-- FADD (04 R130). -/
def execFadd (x : F2) (s : State) : Out := fp2 x 4 (fp32.add x.rnd x.ftz) s
/-- FSUB. -/
def execFsub (x : F2) (s : State) : Out := fp2 x 4 (fp32.sub x.rnd x.ftz) s
/-- FMUL. -/
def execFmul (x : F2) (s : State) : Out := fp2 x 4 (fp32.mul x.rnd x.ftz) s
/-- FMIN (04 R131). -/
def execFmin (x : F2) (s : State) : Out := fp2 x 4 (fp32.minmax x.ftz false) s
/-- FMAX (04 R131). -/
def execFmax (x : F2) (s : State) : Out := fp2 x 4 (fp32.minmax x.ftz true) s
/-- FDIV (04 R135, R136). -/
def execFdiv (x : F2) (s : State) : Out := fp2 x 12 (fp32.div x.rnd x.ftz) s

/-- FFMA (04 R130). -/
def execFfma (x : F3) (s : State) : Out :=
  issueWord { ops := [(x.a, false), (x.b, false), (x.c, false)], dst := some (x.d, 1) }
    (fun s => .done (wbLanes s x.d false false 4 (fun l =>
      fp32.fma x.rnd x.ftz (opF s x.a l) (opF s x.b l) (opF s x.c l)))) s

/-- FCMP (04 R133). -/
def execFcmp (x : FcmpArgs) (s : State) : Out :=
  issueWord { ops := [(x.a, false), (x.b, false)], pd := some x.pd }
    (fun s => .done (wbPred s x.pd 4 (fun l => fp32.fcmp x.ftz x.cc (opF s x.a l) (opF s x.b l)))) s

/-- FCLS (04 R134): an FP64 form waits for full service. -/
def execFcls (x : FclsArgs) (s : State) : Out :=
  issueWord { ops := [(x.a, x.ty.wide)], pd := some x.pd, gated := x.ty == .f64 }
    (fun s => .done (wbPred s x.pd 4 (fun l => bit x.mask ((fmtOf x.ty).cls (opTy s x.ty x.a l))))) s

/-- HADD2 (04 R130). -/
def execHadd2 (x : H2) (s : State) : Out := half2 x ((halfFmt x.bf).add x.rnd x.ftz) s
/-- HMUL2. -/
def execHmul2 (x : H2) (s : State) : Out := half2 x ((halfFmt x.bf).mul x.rnd x.ftz) s

/-- HFMA2. -/
def execHfma2 (x : H3) (s : State) : Out :=
  issueWord { ops := [(x.a, false), (x.b, false), (x.c, false)], dst := some (x.d, 1) }
    (fun s => .done (wbLanes s x.d false false 4 (fun l =>
      let r := fun o => opVal s (halfTy x.bf) false o l
      let f := (halfFmt x.bf).fma x.rnd x.ftz
      f (bits (r x.a) 0 16) (bits (r x.b) 0 16) (bits (r x.c) 0 16) +
        f (bits (r x.a) 16 16) (bits (r x.b) 16 16) (bits (r x.c) 16 16) * 2 ^ 16))) s

/-- DADD (04 R130). -/
def execDadd (x : F2) (s : State) : Out := dp2 x (fp64.add x.rnd x.ftz) s
/-- DMUL. -/
def execDmul (x : F2) (s : State) : Out := dp2 x (fp64.mul x.rnd x.ftz) s

/-- DFMA. -/
def execDfma (x : F3) (s : State) : Out :=
  issueWord { ops := [(x.a, true), (x.b, true), (x.c, true)], dst := some (x.d, 2), gated := true }
    (fun s => .done (wbLanes s x.d true false 8 (fun l =>
      let r := fun o => opVal s .f64 true o l
      fp64.fma x.rnd x.ftz (r x.a) (r x.b) (r x.c)))) s

/-- DCMP (04 R133). -/
def execDcmp (x : FcmpArgs) (s : State) : Out :=
  issueWord { ops := [(x.a, true), (x.b, true)], pd := some x.pd, gated := true }
    (fun s => .done (wbPred s x.pd 8 (fun l =>
      fp64.fcmp x.ftz x.cc (opVal s .f64 true x.a l) (opVal s .f64 true x.b l)))) s

/-- FRCP (04 R135, R136). -/
def execFrcp (x : F1) (s : State) : Out := fp1 x (frcpCode x.rnd) s
/-- FRSQ. -/
def execFrsq (x : F1) (s : State) : Out := fp1 x frsqCode s
/-- FSQT. -/
def execFsqt (x : F1) (s : State) : Out := fp1 x (fsqtCode x.rnd) s
/-- FEX2. -/
def execFex2 (x : F1) (s : State) : Out := fp1 x fex2Code s
/-- FLG2. -/
def execFlg2 (x : F1) (s : State) : Out := fp1 x flg2Code s
/-- FSIN. -/
def execFsin (x : F1) (s : State) : Out := fp1 x (trigCode false) s
/-- FCOS. -/
def execFcos (x : F1) (s : State) : Out := fp1 x (trigCode true) s
/-- FTNH. -/
def execFtnh (x : F1) (s : State) : Out := fp1 x ftnhCode s

/-! ## The P form (01 R38-R42) -/

/-- The register a P field names in a half (01 R39). -/
def pReg (half f : Nat) : Nat := 4 * (f / 2) + 2 * half + f % 2

/-- An immediate by opcode (01 Table word-11). -/
def pImm (op : POp) (opt n : Nat) : Nat :=
  let fp := fun (f : Fmt) => f.round .rn (fp8m.value n)
  match op with
  | .shl | .shr | .sar | .rotr | .clz => n
  | .fadd | .fsub | .fmul | .fmin | .fmax => fp fp32
  | .hadd2 | .hmul2 => fp (halfFmt (bit opt 3)) * 0x10001
  | _ => ofInt 32 (sext 8 n)

/-- Whether a P opcode reads its first source. -/
def pReads (op : POp) : Bool :=
  match op with
  | .nop | .mov | .clz => false
  | _ => true

/-- The latency of a P half: that of its F namesake (05 Table group-6, R181). -/
def pLat (op : POp) : Nat := if op.fp then 4 else 2

/-- The rounding mode and flush of a P half. -/
def pRnd (opt : Nat) : Rnd :=
  if bits opt 0 2 = 0 then .rn else if bits opt 0 2 = 1 then .rz else if bits opt 0 2 = 2 then .rp else .rm

/-- The 32-bit result of a P half (01 Table word-11). -/
def pRes (op : POp) (opt d v : Nat) : Nat :=
  let r := pRnd opt
  let z := bit opt 2
  let un := bit opt 0
  let iv := fun w => if un then ((w % 2 ^ 32 : Nat) : Int) else sext 32 w
  let h := halfFmt (bit opt 3)
  match op with
  | .nop => 0
  | .mov => v
  | .iadd => (d + v) % 2 ^ 32
  | .isub => ofInt 32 ((d : Int) - (v : Int))
  | .imul => d * v % 2 ^ 32
  | .iaddi => (d + v * 2 ^ opt) % 2 ^ 32
  | .and => d &&& v
  | .or => d ||| v
  | .xor => d ^^^ v
  | .andn => andnN 32 d v
  | .shl => shlN 32 d v
  | .shr => shrN 32 d v
  | .sar => sarN 32 d v
  | .imin => if iv d ≤ iv v then d else v
  | .imax => if iv d ≤ iv v then v else d
  | .rotr => rotrN 32 d v
  | .fadd => fp32.add r z d v
  | .fsub => fp32.sub r z d v
  | .fmul => fp32.mul r z d v
  | .fmin => fp32.minmax z false d v
  | .fmax => fp32.minmax z true d v
  | .hadd2 => perHalf (h.add r z) d v
  | .hmul2 => perHalf (h.mul r z) d v
  | .clz => clzN 32 v

/-- The second operand of a half as an operand field, an immediate as $zero. -/
def pOpnd (half : Nat) (x : PSrc) : Opnd :=
  match x with
  | .reg f => .reg (.v (pReg half f))
  | .latch k => .latch k
  | .imm _ => .konst .zero

/-- The value of a half in a lane. -/
def pVal (s : State) (half : Nat) (h : PHalf) (l : Nat) : Nat :=
  let v := match h.args.s with
    | .imm n => pImm h.op h.args.opt n
    | x => op32 s (pOpnd half x) l
  pRes h.op h.args.opt (regVal s false (.v (pReg half h.args.d)) l) v

/-- The destination of a half. -/
def pDst (half : Nat) (h : PHalf) : Dst := ⟨.v (pReg half h.args.d), h.args.nowb || h.op == .nop⟩

/-- What a half uses. -/
def pUse (half : Nat) (h : PHalf) : Use :=
  if h.op = .nop then {}
  else { ops := (pOpnd half h.args.s, false) :: (if pReads h.op then [(.reg (.v (pReg half h.args.d)), false)] else []),
         dst := some (pDst half h, 1) }

/-- The fault of a pair: the first by order, half 0's when equal; the record names the half (01 R41). -/
def pFault (h0 h1 : PHalf) (s : State) : Option FaultInfo :=
  match preFault (pUse 0 h0) s, preFault (pUse 1 h1) s with
  | some f, some g => if g.code < f.code then some { g with half1 := true } else some f
  | some f, none => some f
  | none, some g => some { g with half1 := true }
  | none, none => none

/-- The window entry of a half. -/
def pEntry (s : State) (half : Nat) (h : PHalf) (j : Nat) : EntryBody :=
  if h.op = .nop then .void else dstEntry (pDst half h).reg false false (pVal s half h) j

/-- The effect of a pair: both halves read before either writes; half 1's result is ^1 (01 R41). -/
def pairEffect (h0 h1 : PHalf) (s : State) : State :=
  let s1 := writeDst s (pDst 0 h0) false false (pLat h0.op) (pVal s 0 h0)
  let s2 := writeDst s1 (pDst 1 h1) false false (pLat h1.op) (pVal s 1 h1)
  updCw s2 (fun w => (w.updSlices s.cur.mask (fun j x =>
    ((x.pushAll (s.cycle + pLat h0.op) [pEntry s 0 h0 j]).pushAll (s.cycle + pLat h1.op) [pEntry s 1 h1 j]).advance)).regroup
      s.cur.mask)

/-- A pair word. -/
def execPair (op : POp) (h : PArgs) (o : PHalf) (s : State) : Out :=
  let h0 : PHalf := ⟨op, h⟩
  match pFault h0 o s with
  | some f => .next (takeFault (noteIssue s) f)
  | none => if ready (pUse 0 h0) s && ready (pUse 1 o) s then .next (pairEffect h0 o (noteIssue s)) else .next s

/-- P NOP. -/
def execPNop (h : PArgs) (o : PHalf) (s : State) : Out := execPair .nop h o s
/-- P MOV. -/
def execPMov (h : PArgs) (o : PHalf) (s : State) : Out := execPair .mov h o s
/-- P IADD. -/
def execPIadd (h : PArgs) (o : PHalf) (s : State) : Out := execPair .iadd h o s
/-- P ISUB. -/
def execPIsub (h : PArgs) (o : PHalf) (s : State) : Out := execPair .isub h o s
/-- P IMUL. -/
def execPImul (h : PArgs) (o : PHalf) (s : State) : Out := execPair .imul h o s
/-- P IADDI. -/
def execPIaddi (h : PArgs) (o : PHalf) (s : State) : Out := execPair .iaddi h o s
/-- P AND. -/
def execPAnd (h : PArgs) (o : PHalf) (s : State) : Out := execPair .and h o s
/-- P OR. -/
def execPOr (h : PArgs) (o : PHalf) (s : State) : Out := execPair .or h o s
/-- P XOR. -/
def execPXor (h : PArgs) (o : PHalf) (s : State) : Out := execPair .xor h o s
/-- P ANDN. -/
def execPAndn (h : PArgs) (o : PHalf) (s : State) : Out := execPair .andn h o s
/-- P SHL. -/
def execPShl (h : PArgs) (o : PHalf) (s : State) : Out := execPair .shl h o s
/-- P SHR. -/
def execPShr (h : PArgs) (o : PHalf) (s : State) : Out := execPair .shr h o s
/-- P SAR. -/
def execPSar (h : PArgs) (o : PHalf) (s : State) : Out := execPair .sar h o s
/-- P IMIN. -/
def execPImin (h : PArgs) (o : PHalf) (s : State) : Out := execPair .imin h o s
/-- P IMAX. -/
def execPImax (h : PArgs) (o : PHalf) (s : State) : Out := execPair .imax h o s
/-- P ROTR. -/
def execPRotr (h : PArgs) (o : PHalf) (s : State) : Out := execPair .rotr h o s
/-- P FADD. -/
def execPFadd (h : PArgs) (o : PHalf) (s : State) : Out := execPair .fadd h o s
/-- P FSUB. -/
def execPFsub (h : PArgs) (o : PHalf) (s : State) : Out := execPair .fsub h o s
/-- P FMUL. -/
def execPFmul (h : PArgs) (o : PHalf) (s : State) : Out := execPair .fmul h o s
/-- P FMIN. -/
def execPFmin (h : PArgs) (o : PHalf) (s : State) : Out := execPair .fmin h o s
/-- P FMAX. -/
def execPFmax (h : PArgs) (o : PHalf) (s : State) : Out := execPair .fmax h o s
/-- P HADD2. -/
def execPHadd2 (h : PArgs) (o : PHalf) (s : State) : Out := execPair .hadd2 h o s
/-- P HMUL2. -/
def execPHmul2 (h : PArgs) (o : PHalf) (s : State) : Out := execPair .hmul2 h o s
/-- P CLZ. -/
def execPClz (h : PArgs) (o : PHalf) (s : State) : Out := execPair .clz h o s

end Sys2Proof.Machine
end

