-- ==== Sys2Proof/Machine/Convert.lean ====
section
/-! DEFINITION. Conversion, narrowing and scales (04 R138-R148, 03 R97-R106). -/

namespace Sys2Proof.Machine

/-- Types whose words wait for full service: FP64, FP8 and bezel-4 (14 R441). -/
def gatedTy (t : Ty) : Bool := t == .f64 || t.f8 || t == .bz4

/-- A code of a type converted to another (04 R139). A format to itself keeps its value, infinities of FP8E among them. -/
def cvtCode (x : CvtArgs) (w : Nat) : Nat :=
  let sf := fmtOf x.sty
  let df := fmtOf x.dty
  let w := if x.sty.isInt || x.sty.f8 then w % 2 ^ tyBits x.sty else sf.flush x.ftz (w % 2 ^ tyBits x.sty)
  if x.dty.isInt then
    if x.sty.isInt then intRes x.dty x.sat (intVal x.sty w)
    else intRes x.dty true (XR.toInt x.rnd (tyMin x.dty) (tyMax x.dty) (sf.value w))
  else
    let v := if x.sty.isInt then XR.ofInt (intVal x.sty w) 1 false else sf.value w
    let r := if x.dty = x.sty then (if v.isNan then df.nanCode else w) else df.narrow x.rnd x.sat v
    if x.dty.f8 then r else df.flush x.ftz r

/-- CVT (04 R139). -/
def execCvt (x : CvtArgs) (s : State) : Out :=
  issueWord { ops := [(x.a, x.sty.wide)], dst := some (x.d, if x.dty.wide then 2 else 1), gated := gatedTy x.dty || gatedTy x.sty }
    (fun s => .done (wbLanes s x.d x.dty.wide x.dty.sgn 6 (fun l => cvtCode x (opTy s x.sty x.a l)))) s

/-- Register k of a group operand, as an FP32 value. -/
def groupVal (s : State) (o : Opnd) (k l : Nat) : XR :=
  match o with
  | .reg (.v r) => fp32.value (((cw s).vreg (r + k) l).toNat)
  | _ => .nan

/-- The registers of a group operand. -/
def groupRegs (o : Opnd) (n : Nat) : List Nat :=
  match o with
  | .reg r => regCodes r n
  | _ => []

/-- The number of elements that CVTS packs. -/
def packCount (t : Ty) : Nat := if t.half then 2 else 4

/-- One narrowed element of CVTS: the exact quotient and the code (04 R140). -/
def cvtsElem (s : State) (x : NarrowArgs) (i l : Nat) : XR × Nat :=
  let q := XR.div (groupVal s x.a i l) (fp32.value (opF s x.b l))
  (q, (fmtOf x.dty).narrow x.rnd x.nsat q)

/-- The packed result of CVTS in a lane. -/
def cvtsWord (s : State) (x : NarrowArgs) (l : Nat) : Nat :=
  (List.range (packCount x.dty)).foldl (fun a i => a + (cvtsElem s x i l).2 * 2 ^ (tyBits x.dty * i)) 0

/-- SSTAT after a slice's elements, in lane then element order (03 R104). -/
def cvtsStat (s : State) (x : NarrowArgs) (j : Nat) (st : Sstat) : Sstat :=
  (sliceLanes j).foldl (fun st l => (List.range (packCount x.dty)).foldl (fun st i =>
    let e := cvtsElem s x i l
    st.count e.1 ((fmtOf x.dty).overflows x.rnd e.1) (e.2 % 2 ^ (tyBits x.dty - 1) == 0)) st) st

/-- CVTS (04 R140). -/
def execCvts (x : NarrowArgs) (s : State) : Out :=
  issueWord { ops := [(x.b, false)], vr := groupRegs x.a (packCount x.dty), dst := some (x.d, 1), gated := gatedTy x.dty }
    (fun s =>
      let s1 := updCw s (fun w => w.updSlices s.cur.mask (fun j y =>
        { y with sstat := BitVec.ofNat 64 (cvtsStat s x j (sstatOf y.sstat.toNat)).pack }))
      .done (retire (writeDst s1 x.d false false 6 (cvtsWord s x)) 6 (fun j => [dstEntry x.d.reg false false (cvtsWord s x) j]))) s

/-- SCSEL (04 R141): once per slice. -/
def execScsel (x : ScselArgs) (s : State) : Out :=
  issueWord { ops := [(x.a, false)], dst := some (x.d, 1), gated := gatedTy x.fmt }
    (fun s => .done (wbLanes s x.d false true 6 (fun l =>
      ofInt 32 (scselRule (sstatOf ((cw s).slice (l / 4)).sstat.toNat) (sext 32 (op32 s x.a (lane0 (l / 4)))) (emaxOf x.fmt) x.h
        x.ulim)))) s

/-- EFQ in a lane: the quantised code and the new residual (04 R142). -/
def efqLane (s : State) (x : EfqArgs) (l : Nat) : Nat × Nat :=
  let t := XR.add x.rnd (fp32.value (opF s x.a l)) (fp32.value (((cw s).vreg x.c l).toNat))
  let sc := fp32.value (opF s x.b l)
  let f := fmtOf x.ty
  let q := f.narrow x.rnd x.nsat (XR.div t sc)
  let fin := fun (v : XR) => match v with | .fin _ _ _ => true | _ => false
  let r := if fin t && fin (f.value q) then fp32.round .rn (XR.add .rn t (XR.mul (f.value q) sc).neg)
    else match t with | .inf _ => fp32.round .rn t | _ => fp32.nanCode
  (q, r)

/-- EFQ (04 R142, R143): the residual is written whatever nowb is. -/
def execEfq (x : EfqArgs) (s : State) : Out :=
  issueWord { ops := [(x.a, false), (x.b, false)], vr := [x.c], dst := some (x.d, 1), rmw := true, gated := gatedTy x.ty }
    (fun s =>
      let n := tyBits x.ty
      let f := fun l => setBits (keptVal s false x.d.reg l) (n * x.pos) n (efqLane s x l).1
      let s1 := writeDst s x.d false false 6 f
      let s2 := writeDst s1 ⟨.v x.c, false⟩ false false 6 (fun l => (efqLane s x l).2)
      .done (retire s2 6 (fun j => [dstEntry x.d.reg false false f j]))) s

/-! ## Bezel-4 (03 R98-R100) -/

/-- Decode from a slot on: elements, the last first, and the malformed markers. -/
def bz4Go (w : Nat) : Nat → Nat → List XR → Nat → List XR × Nat
  | 0, _, acc, bad => (acc, bad)
  | fuel + 1, slot, acc, bad =>
    if 8 ≤ slot then (acc, bad)
    else
      let c := bits w (4 * slot) 4
      if c ≠ 8 then bz4Go w fuel (slot + 1) (XR.ofInt (sext 4 c) 1 false :: acc) bad
      else if slot ≤ 5 then
        let b := bits w (4 * (slot + 1)) 4 * 16 + bits w (4 * (slot + 2)) 4
        bz4Go w fuel (slot + 3) (.fin false 0 1 :: .fin false 0 1 :: fp8m.value b :: acc) bad
      else bz4Go w fuel (slot + 1) (.fin false 0 1 :: acc) (bad + 1)

/-- The eight elements of a group and its malformed markers (03 R98). -/
def bz4Decode (w : Nat) : List XR × Nat :=
  let r := bz4Go w 8 0 [] 0
  (r.1.reverse, r.2)

/-- The magnitude of a value. -/
def XR.abs : XR → XR
  | .nan => .nan
  | .inf _ => .inf false
  | .fin _ n d => .fin false n d

/-- Whether a candidate ranks above another: NaN, then infinities, then magnitude (03 R100, 04 R144). -/
def bzAbove (x y : XR) : Bool :=
  match x, y with
  | .nan, .nan => false
  | .nan, _ => true
  | _, .nan => false
  | x, y => decide (0 < XR.cmp x.abs y.abs)

/-- Insert a candidate index behind every one that ranks at least as high. -/
def bzInsert (xs : List XR) (i : Nat) : List Nat → List Nat
  | [] => [i]
  | j :: t => if bzAbove ((xs[i]?).getD .nan) ((xs[j]?).getD .nan) then i :: j :: t else j :: bzInsert xs i t

/-- An element as a saturated integer (03 Table value-2, R100). -/
def bzInt (mode : Rnd) (x : XR) : Int := XR.toInt mode (-7) 7 x

/-- Whether an element is a candidate for an outlier. -/
def bzCand (mode : Rnd) (x : XR) : Bool :=
  match x with
  | .fin _ n d => decide (7 < roundNat mode x.isNeg n d)
  | _ => true

/-- The outliers taken. -/
def bzTaken (mode : Rnd) (xs : List XR) : List Nat :=
  let cand := ((List.range 8).filter (fun i => bzCand mode ((xs[i]?).getD .nan))).foldl (fun a i => bzInsert xs i a) []
  cand.foldl (fun tk i => if tk.length = 2 then tk
    else if i ≤ 5 ∧ tk.all (fun j => decide (i + 2 < j) || decide (j + 2 < i)) then tk ++ [i] else tk) []

/-- Pack eight values (03 R100). -/
def bz4Pack (mode : Rnd) (nsat : Bool) (xs : List XR) : Nat :=
  let tk := bzTaken mode xs
  let x := fun i => (xs[i]?).getD .nan
  let out := fun i => fp8m.narrow mode nsat (x i)
  (List.range 8).foldl (fun w i =>
    let nib := if tk.contains i then 8
      else if 1 ≤ i ∧ tk.contains (i - 1) then out (i - 1) / 16
      else if 2 ≤ i ∧ tk.contains (i - 2) then out (i - 2) % 16
      else ofInt 4 (bzInt mode (x i))
    w + nib * 16 ^ i) 0

/-- BZPK (04 R144). -/
def execBzpk (x : NarrowArgs) (s : State) : Out :=
  issueWord { ops := [(x.b, false)], vr := groupRegs x.a 8, dst := some (x.d, 1), gated := true }
    (fun s => .done (wbLanes s x.d false false 6 (fun l =>
      bz4Pack x.rnd x.nsat ((List.range 8).map (fun i => XR.div (groupVal s x.a i l) (fp32.value (opF s x.b l))))))) s

/-- Elements in the registers of a group: one FP32 each, or two halves (04 R145, R147). -/
def unpackReg (dty : Ty) (es : List XR) (k : Nat) : Nat :=
  let e := fun i => (fmtOf dty).round .rn ((es[i]?).getD .nan)
  if dty = .f32 then e k else e (2 * k) + e (2 * k + 1) * 2 ^ 16

/-- BZUP (04 R145). -/
def execBzup (x : UnpackArgs) (s : State) : Out :=
  let n := if x.dty = .f32 then 8 else 4
  issueWord { ops := [(x.a, false)], dst := some (x.d, n), gated := true }
    (fun s => .done (wbGroup s x.d n 6 (fun k l => unpackReg x.dty (bz4Decode (op32 s x.a l)).1 k))) s

/-- F8PK (04 R146). -/
def execF8pk (x : NarrowArgs) (s : State) : Out :=
  issueWord { ops := [(x.a, false), (x.b, false)], dst := some (x.d, 1), gated := true }
    (fun s => .done (wbLanes s x.d false false 6 (fun l =>
      let h := fun o i => (fmtOf x.dty).narrow x.rnd x.nsat ((fmtOf x.sty).value (bits (opVal s x.sty false o l) (16 * i) 16))
      h x.a 0 + h x.a 1 * 2 ^ 8 + h x.b 0 * 2 ^ 16 + h x.b 1 * 2 ^ 24))) s

/-- F8UP (04 R147). -/
def execF8up (x : UnpackArgs) (s : State) : Out :=
  let n := if x.dty = .f32 then 4 else 2
  issueWord { ops := [(x.a, false)], dst := some (x.d, n), gated := true }
    (fun s => .done (wbGroup s x.d n 6 (fun k l =>
      unpackReg x.dty ((List.range 4).map (fun i => (fmtOf x.sty).value (bits (opVal s x.sty false x.a l) (8 * i) 8))) k))) s

/-- SCACC (04 R148): d is read and written. -/
def execScacc (x : F3) (s : State) : Out :=
  issueWord { ops := [(x.a, false), (x.b, false), (x.c, false)], dst := some (x.d, 1), rmw := true }
    (fun s => .done (wbLanes s x.d false false 4 (fun l =>
      let v := fun w => fp32.value (fp32.flush x.ftz w)
      let p := XR.mul (XR.mul (v (opF s x.a l)) (v (opF s x.b l))) (v (opF s x.c l))
      fp32.flush x.ftz (fp32.round x.rnd (XR.add x.rnd (v (keptVal s false x.d.reg l)) p))))) s

end Sys2Proof.Machine
end

