-- ==== Sys2Proof/Machine/CrossLane.lean ====
section
/-! DEFINITION. Cross-lane words and reductions (04 R149-R159, 03 R113-R116). -/

namespace Sys2Proof.Machine

/-- The lanes of a segment (04 Table arith-8); a segment wider than the warp is the warp. -/
def segLanes (w : Warp) (x : Seg) : Nat :=
  let n := match x with
    | .warp => w.width
    | .s4 => 4
    | .s8 => 8
    | .s16 => 16
    | .s32 => 32
  clampN n w.width

/-- The source lane of SHFL, or the own lane (04 R152). -/
def shflSrc (s : State) (x : ShflArgs) (l : Nat) : Nat :=
  let seg := segLanes (cw s) x.seg
  let base := l - l % seg
  let k := op32 s x.b l
  let t : Int := match x.mode with
    | .idx => ((base + k % seg : Nat) : Int)
    | .up => (l : Int) - (k : Int)
    | .down => ((l + k : Nat) : Int)
    | .xor => ((base + ((l - base) ^^^ (k % seg)) : Nat) : Int)
  let latch := match x.a with | .latch _ => true | _ => false
  if t < (base : Int) ∨ ((base + seg : Nat) : Int) ≤ t then l
  else if latch && !bit s.cur.mask (t.toNat / 4) then l
  else t.toNat

/-- SHFL (04 R152). -/
def execShfl (x : ShflArgs) (s : State) : Out :=
  let t := if x.wide then Ty.n64 else Ty.n32
  issueWord { ops := [(x.a, x.wide), (x.b, false)], dst := some (x.d, if x.wide then 2 else 1),
              far := farReads x.a x.wide ((curLanes s).map (shflSrc s x)) }
    (fun s => .done (wbLanes s x.d x.wide false 4 (fun l => opVal s t x.wide x.a (shflSrc s x l)))) s

/-- SHFX (04 R153). -/
def execShfx (x : ShfxArgs) (s : State) : Out :=
  issueWord { ops := [(x.a, false)], dst := some (x.d, 1) }
    (fun s => .done (wbLanes s x.d false false 4 (fun l => op32 s x.a (l - l % 4 + bits x.pattern (2 * (l % 4)) 2)))) s

/-- The lane that BCST reads for a slice. -/
def bcstLane (s : State) (x : BcstArgs) (j : Nat) : Nat := op32 s x.b (lane0 j) % (cw s).width

/-- BCST (04 R154). -/
def execBcst (x : BcstArgs) (s : State) : Out :=
  let t := if x.wide then Ty.n64 else Ty.n32
  issueWord { ops := [(x.a, x.wide), (x.b, false)], dst := some (x.d, if x.wide then 2 else 1),
              far := farReads x.a x.wide ((curSlices s).map (bcstLane s x)) }
    (fun s => .done (wbLanes s x.d x.wide false 4 (fun l =>
      let own := lane0 (l / 4)
      let src := bcstLane s x (l / 4)
      let latch := match x.a with | .latch _ => true | _ => false
      opVal s t x.wide x.a (if latch && !bit s.cur.mask (src / 4) then own else src)))) s

/-- VOTE (04 R155). -/
def execVote (x : VoteArgs) (s : State) : Out :=
  match x with
  | .any pd pa => issueWord { pr := [pa], pd := some pd }
      (fun s => .done (wbPred s pd 4 (fun _ => (curLanes s).any ((cw s).pred pa)))) s
  | .all pd pa => issueWord { pr := [pa], pd := some pd }
      (fun s => .done (wbPred s pd 4 (fun _ => (curLanes s).all ((cw s).pred pa)))) s
  | .ballot d pa => issueWord { pr := [pa], dst := some (d, 2) }
      (fun s => .done (wbLanes s d true false 4 (fun _ => maskOf ((curLanes s).filter ((cw s).pred pa))))) s
  | .eq pd a wide =>
    let t := if wide then Ty.n64 else Ty.n32
    issueWord { ops := [(a, wide)], pd := some pd }
      (fun s => .done (wbPred s pd 4 (fun _ =>
        (curLanes s).all (fun l => opVal s t wide a l == opVal s t wide a ((curLanes s).headD 0))))) s

/-- Combine two values of a reduction (04 R156). -/
def combine (op : RedOp) (t : Ty) (a b : Nat) : Nat :=
  if t.isInt then
    match op with
    | .add => (a + b) % 2 ^ tyBits t
    | .min => if intVal t a ≤ intVal t b then a else b
    | .max => if intVal t a ≤ intVal t b then b else a
    | .and => a &&& b
    | .or => a ||| b
    | .xor => a ^^^ b
  else
    match op with
    | .min => (fmtOf t).minmax false false a b
    | .max => (fmtOf t).minmax false true a b
    | _ => (fmtOf t).add .rn false a b

/-- One level of the tree: neighbours combine, an absent one passes the other on. -/
def treeStep (f : Nat → Nat → Nat) : List (Option Nat) → List (Option Nat)
  | a :: b :: t =>
    (match a, b with
      | some x, some y => some (f x y)
      | none, y => y
      | x, none => x) :: treeStep f t
  | t => t

/-- The tree over a warp of at most 64 lanes (04 R156). -/
def treeReduce (f : Nat → Nat → Nat) (v : List (Option Nat)) : Nat :=
  (((List.range 6).foldl (fun v _ => treeStep f v) v).headD none).getD 0

/-- REDT (04 R156). -/
def execRedt (x : RedArgs) (s : State) : Out :=
  issueWord { ops := [(x.a, x.ty.wide)], dst := some (x.d, 1), gated := x.ty == .f64 }
    (fun s =>
      let v := treeReduce (combine x.op x.ty) ((List.range (cw s).width).map (fun l =>
        if bit s.cur.mask (l / 4) then some (opTy s x.ty x.a l) else none))
      .done (wbLanes s x.d x.ty.wide x.ty.sgn 12 (fun _ => v))) s

/-- The identity of a prefix (04 R157). -/
def scanIdentity (op : RedOp) (t : Ty) : Nat :=
  let f := fmtOf t
  match op with
  | .add | .or | .xor => 0
  | .and => 2 ^ tyBits t - 1
  | .min => if t.isInt then ofInt (tyBits t) (tyMax t) else f.sign false f.infCode
  | .max => if t.isInt then ofInt (tyBits t) (tyMin t) else f.sign true f.infCode

/-- The prefix values of lanes in order: before and after each. -/
def scanGo (f : Nat → Nat → Nat) (read : Nat → Nat) : Nat → List Nat → List (Nat × Nat × Nat)
  | _, [] => []
  | run, l :: t => let nxt := f run (read l); (l, run, nxt) :: scanGo f read nxt t

/-- SCAN (04 R157). -/
def execScan (x : RedArgs) (s : State) : Out :=
  issueWord { ops := [(x.a, x.ty.wide)], dst := some (x.d, if x.ty.wide then 2 else 1), gated := x.ty == .f64 }
    (fun s =>
      let r := scanGo (combine x.op x.ty) (opTy s x.ty x.a) (scanIdentity x.op x.ty) (curLanes s)
      .done (wbLanes s x.d x.ty.wide x.ty.sgn 12 (fun l =>
        match r.find? (fun e => e.1 == l) with
        | some e => if x.excl then e.2.1 else e.2.2
        | none => 0))) s

/-- Add one term into LACC (03 R114). -/
def laccAdd (a : Lacc) (t : XR) : Lacc :=
  match t with
  | .nan => { a with nan := true }
  | .inf neg => if neg then { a with ninf := true } else { a with pinf := true }
  | .fin neg n d =>
    let l := a.l + signed neg (n * (2 ^ 298 / d))
    let lim : Int := ((2 ^ 639 : Nat) : Int)
    if l < -lim ∨ lim ≤ l then { a with ovf := true, l := sext 640 (ofInt 640 l) } else { a with l := l }

/-- REDX (04 R158): every lane of the issuing slices. -/
def execRedx (x : RedxArgs) (s : State) : Out :=
  issueWord { ops := (x.a, false) :: (match x.b with | some b => [(b, false)] | none => []) }
    (fun s =>
      let term := fun l =>
        let v := fp32.value (opF s x.a l)
        match x.b with
        | some b => XR.mul v (fp32.value (opF s b l))
        | none => v
      .done (retireVoid (updCw s (fun w => { w with lacc := (curLanes s).foldl (fun a l => laccAdd a (term l)) w.lacc })))) s

/-- LACC rounded once (03 R115). -/
def lacrVal (a : Lacc) (f : Fmt) (mode : Rnd) : Nat :=
  if a.nan || a.ovf || (a.pinf && a.ninf) then f.nanCode
  else if a.pinf then f.sign false f.infCode
  else if a.ninf then f.sign true f.infCode
  else f.round mode (XR.ofInt a.l (2 ^ 298) false)

/-- LACR (04 R159). -/
def execLacr (x : LacrArgs) (s : State) : Out :=
  issueWord { dst := some (x.d, if x.wide then 2 else 1), gated := x.wide }
    (fun s => .done (wbLanes s x.d x.wide false 12 (fun _ => lacrVal (cw s).lacc (if x.wide then fp64 else fp32) x.rnd))) s

/-- LACZ (04 R159). -/
def execLacz (s : State) : Out :=
  issueWord {} (fun s => .done (retireVoid (updCw s (fun w => { w with lacc := .zero })))) s

end Sys2Proof.Machine
end

