-- ==== Sys2Proof/Machine/Control.lean ====
section
/-! DEFINITION. Control words: branches, REGANG, loops, exit, traps, extension registers, REP (05 R184-R195, 02 R61-R86, 01 R43-R47). -/

namespace Sys2Proof.Machine

/-! ## Branches (05 R185-R188) -/

/-- Pop the levels whose range excludes a target (02 R75). -/
def popFor (tgt : W64) : Nat → Slice → Slice
  | 0, x => { x with depth := 0 }
  | n + 1, x =>
    match x.loops[n]? with
    | some l => if l.ls ≤ tgt ∧ tgt ≤ l.le then { x with depth := n + 1 } else popFor tgt n x
    | none => popFor tgt n x

/-- A slice takes a branch. -/
def Slice.jump (x : Slice) (pop : Bool) (tgt : W64) : Slice :=
  { (if pop then popFor tgt x.depth x else x) with pc := tgt, repIdx := 0 }

/-- Slices that a target is named for take the branch, the others pass; the gang splits (05 R185). A taken branch keeps the warp from
the next cycle (05 R181). -/
def branch (s : State) (pop : Bool) (lat : Nat) (tgt : Nat → Option W64) (e : Nat → EntryBody) : State :=
  updCw s (fun w =>
    let w := (w.updSlices s.cur.mask (fun j x =>
      let x := x.pushAll (s.cycle + lat) [e j]
      match tgt j with
      | some t => x.jump pop t
      | none => x.advance)).regroup s.cur.mask
    if (w.inMask s.cur.mask).any (fun j => (tgt j).isSome) then { w with resume := s.cycle + 2 } else w)

/-- The address a distance in words from a pc. -/
def pcPlus (pc : W64) (dist : Int) : W64 := pc + BitVec.ofInt 64 (8 * dist)

/-- BRA (05 R185): the guards of all four lanes count. -/
def execBra (any : Bool) (g : Guard) (dist : Int) (s : State) : Out :=
  issueWord { pr := [g.p] } (fun s => .done (branch s true 0 (fun j =>
    let gs := (sliceLanes j).map ((cw s).guard g)
    if (if any then gs.any id else gs.all id) then some (pcPlus ((cw s).slice j).pc dist) else none) (fun _ => .void))) s

/-- BRA.any. -/
def execBraAny (g : Guard) (dist : Int) (s : State) : Out := execBra true g dist s
/-- BRA.all. -/
def execBraAll (g : Guard) (dist : Int) (s : State) : Out := execBra false g dist s

/-- An indirect branch: no slice moves when a target is misaligned (05 R186). -/
def indirect (pop : Bool) (a : Opnd) (off : Int) (s : State) : Out :=
  issueWord { ops := [(a, true)] } (fun s =>
    let tgt := fun j => pcPlus (BitVec.ofNat 64 (op64 s a (lane0 j))) off
    match (curSlices s).find? (fun j => (tgt j).toNat % 8 != 0) with
    | some j => .trap (fltAt 7 (tgt j).toNat)
    | none => .done (branch s pop 0 (fun j => some (tgt j)) (fun _ => .void))) s

/-- BRX (05 R186). -/
def execBrx (a : Opnd) (off : Int) (s : State) : Out := indirect true a off s
/-- RET (05 R188): pops no loop level. -/
def execRet (a : Opnd) (s : State) : Out := indirect false a 0 s

/-- CALL (05 R187). -/
def execCall (d : Nat) (dist : Int) (s : State) : Out :=
  issueWord { dst := some (⟨.s d, false⟩, 2) } (fun s =>
    let ra := fun (j : Nat) => ((cw s).slice j).pc + 8
    let s1 := writeDst s ⟨.s d, false⟩ true false 2 (fun l => (ra (l / 4)).toNat)
    .done (branch s1 false 2 (fun j => some (pcPlus ((cw s).slice j).pc dist)) (fun j => .e64 (List.replicate 4 (ra j))))) s

/-! ## REGANG (05 R189-R191) -/

/-- The slices parked at REGANG at an address. -/
def Warp.atRegang (w : Warp) (addr : W64) : Nat :=
  w.maskWhere (fun x => (match x.st with | .park (.regang _) => true | _ => false) && x.pc == addr)

/-- Remove the slices whose named sets reach outside, until none is left (05 R189). -/
def closeSet (w : Warp) : Nat → Nat → Nat
  | 0, rel => rel
  | n + 1, rel =>
    let keep := maskOf ((w.inMask rel).filter (fun j =>
      match (w.slice j).st with
      | .park (.regang named) => (w.inMask named).all (fun i => (w.slice i).isExited || bit rel i)
      | _ => false))
    if keep = rel then rel else closeSet w n keep

/-- Put a fence in flight: it orders the accesses of some slices (07 R246, R266). -/
def putFence (s : State) (core slot mask : Nat) (kind : TxKind) : State :=
  let w := warpOf s core slot
  let f := fresh s
  let t : Tx := { uid := w.uid, mask := mask, ctx := w.ctx, core := core, slot := slot, launch := w.launch, tag := 0,
                  strong := false, na := false, kind := kind, parts := [] }
  { f.2 with txs := mset f.2.txs f.1 t }

/-- Release the largest closed set at an address as one gang (05 R189), behind a fence at cluster scope (07 R246). -/
def regangRelease (s : State) (core slot : Nat) (addr : W64) : State :=
  let w := warpOf s core slot
  let rel := closeSet w 16 (w.atRegang addr)
  if rel = 0 then s else wake (putFence s core slot rel (.fence .clu .full)) core slot rel (fun _ => [.void])

/-- REGANG (05 R189): the issuing slices are always in the named set. -/
def execRegang (m : GangMask) (s : State) : Out :=
  let u : Use := match m with | .imm _ => {} | .sreg n => { ops := [(.reg (.s n), false)] }
  issueWord u (fun s =>
    let named := fun j => (match m with
      | .imm k => k
      | .sreg n => (((cw s).slice j).sreg n).toNat % 2 ^ 16) ||| s.cur.mask
    let s1 := updCw s (fun w => w.updSlices s.cur.mask (fun j x => { x.discard with st := .park (.regang (named j)) }))
    .done (regangRelease s1 s.cur.core s.cur.slot ((cw s).slice (curLow s)).pc)) s

/-- REGANG_RELEASE (05 R189): the core evaluates the address. -/
def execRegangRelease (core slot addr : Nat) (s : State) : Out := .next (regangRelease s core slot (BitVec.ofNat 64 addr))

/-! ## Loops (02 R79) -/

/-- LOOP in a slice: `none` is LOOP_NEST. With a count of 0 the word completes, so the end test runs where it is the last word of the
innermost level (R74): a back-edge is taken, and only where none is does the slice go on behind the skipped body (DEDUCED,
notes/assumptions/91). -/
def loopPush (x : Slice) (count : Nat) (off : Nat) : Option Slice :=
  let le := x.pc + BitVec.ofNat 64 (8 * off)
  if count = 0 then
    let y := x.endTest x.pc
    some { y with pc := if y.pc = x.pc + 8 then le + 8 else y.pc, repIdx := 0 }
  else if 3 ≤ x.depth then none
  else if decide (0 < x.depth) && (match x.loops[x.depth - 1]? with | some l => decide (l.le < le) | none => false) then none
  else some { x with loops := x.loops.set x.depth ⟨BitVec.ofNat 32 count, x.pc + 8, le⟩, depth := x.depth + 1, pc := x.pc + 8,
                     repIdx := 0 }

/-- LOOP with the count of each slice. -/
def loopWord (u : Use) (count : State → Nat → Nat) (off : Nat) (s : State) : Out :=
  issueWord u (fun s =>
    if (curSlices s).any (fun j => (loopPush ((cw s).slice j) (count s j) off).isNone) then .trap (flt 6)
    else .done (updCw s (fun w => (w.updSlices s.cur.mask (fun j x =>
      (loopPush (x.pushAll s.cycle [.void]) (count s j) off).getD x)).regroup s.cur.mask))) s

/-- LOOP with an operand count (02 R79). -/
def execLoopOperand (a : Opnd) (off : Nat) (s : State) : Out := loopWord { ops := [(a, false)] } (fun s j => op32 s a (lane0 j)) off s
/-- LOOP with an immediate count. -/
def execLoopImmediate (n off : Nat) (s : State) : Out := loopWord {} (fun _ _ => n) off s

/-! ## The active set (05 R173) -/

/-- A warp waits to enter: RESIDENT with a RUN slice. -/
def Warp.waiting (w : Warp) : Bool := w.st == .resident && w.slices.any Slice.isRun

/-- The oldest of some warps of a core, ties to the lower slot. -/
def oldest (l : List (Nat × Warp)) : Option Nat :=
  (l.foldl (fun (b : Option (Nat × Nat)) x =>
    match b with
    | none => some (x.1, x.2.age)
    | some (sl, a) => if x.2.age < a ∨ (x.2.age = a ∧ x.1 < sl) then some (x.1, x.2.age) else b) none).map (·.1)

/-- The oldest warp waiting to enter. -/
def oldestWaiting (c : Core) : Option Nat := oldest (c.warps.filter (fun x => x.2.waiting))

/-- A warp joins the active set; it may issue from the next cycle. -/
def joinActive (s : State) (core slot : Nat) : State :=
  let s := updWarp s core slot (fun w => { w with st := .active, resume := s.cycle + 1 })
  updCore s core (fun c => { c with active := c.active ++ [(slot, none)] })

/-- A warp leaves the active set. -/
def leaveActive (s : State) (core slot : Nat) : State :=
  let s := updWarp s core slot (fun w => if w.st = .active then { w with st := .resident } else w)
  updCore s core (fun c => { c with active := c.active.filter (fun a => a.1 != slot) })

/-- YIELD (05 R192). -/
def execYield (s : State) : Out :=
  issueWord {} (fun s =>
    let s1 := updCw (retireSwitch s (fun _ => [.void])) (fun w => { w with yielded := true })
    match oldestWaiting (coreOf s1 s1.cur.core) with
    | some o => .done (joinActive (leaveActive s1 s1.cur.core s1.cur.slot) s1.cur.core o)
    | none => .done s1) s

/-- NOP (05 R193). -/
def execNop (s : State) : Out := issueWord {} (fun s => .done (retireVoid s)) s

/-- EXIT (05 R194). -/
def execExit (s : State) : Out := issueWord {} (fun s => .done (exitSlices s s.cur.core s.cur.slot s.cur.mask)) s

/-- TRAP (05 R195). -/
def execTrap (code : Nat) (s : State) : Out := issueWord {} (fun s => .done (takeTrap s (fltAt 0x11 code))) s
/-- BKPT (05 R195). -/
def execBkpt (code : Nat) (s : State) : Out := issueWord {} (fun s => .done (takeTrap s (fltAt 0x12 code))) s

/-- The mark of a member of the active set: since when every slice of its warp has been parked or exited (05 R172). -/
def idleMark (s : State) (core : Nat) (a : Nat × Option Nat) : Nat × Option Nat :=
  let w := warpOf s core a.1
  if w.aliveMask ≠ 0 ∧ w.slices.all (fun x => x.isExited || (match x.st with | .park _ => true | _ => false)) then
    (a.1, some (a.2.getD s.cycle)) else (a.1, none)

/-- ACTIVE_SET_UPDATE (05 R173): a cycle's rules, with one exchange in a cycle at most. Of members that have been swappable equally long
the first in the set leaves (DESIGN CHOICE: R173 gives no order among them; notes/assumptions/84). -/
def execActiveSetUpdate (core : Nat) (s : State) : Out :=
  let s := updCore s core (fun c => { c with active := c.active.map (idleMark s core) })
  let c := coreOf s core
  match oldestWaiting c with
  | none => .next s
  | some o =>
    if c.active.length < 4 then .next (joinActive s core o)
    else if c.swapped = some s.cycle then .next s
    else
      match leastBy (fun a => a.2.getD 0) (c.active.filter (fun a => a.2.isSome)) with
      | some a => .next (updCore (joinActive (leaveActive s core a.1) core o) core (fun c => { c with swapped := some s.cycle }))
      | none => .next s

/-- WARP_FORCED (05 R177). -/
def execWarpForced (core slot : Nat) (s : State) : Out :=
  .next (updWarp s core slot (fun w => if 256 ≤ w.offered ∧ !w.rr then { w with forced := true } else w))

/-! ## Extension registers (02 R63-R67, R84, R85) -/

/-- Register blocks in the file of a width (02 Table register-2). -/
def fileBlocks (width : Nat) : Nat := 4096 / width

/-- The physical blocks in use on a core. -/
def usedBlocks (c : Core) : List Nat :=
  c.warps.flatMap (fun x => [x.2.baseBlk, x.2.baseBlk + 1, x.2.baseBlk + 2, x.2.baseBlk + 3] ++
    (x.2.granules ++ x.2.releasing).flatMap (fun g => [g, g + 1]))

/-- Free granules of a range of blocks, the highest first. -/
def freeGranules (c : Core) (lo hi : Nat) : List Nat :=
  ((List.range ((hi - lo) / 2)).map (fun i => hi - 2 * (i + 1))).filter (fun g =>
    !(usedBlocks c).contains g && !(usedBlocks c).contains (g + 1))

/-- The waiting RACQ requests of a core in age order (02 R65): age, slot, slice mask, granules. -/
def racqWaiters (c : Core) : List (Nat × Nat × Nat × Nat) :=
  let all := c.warps.flatMap (fun x => x.2.gangs.filterMap (fun g =>
    match (x.2.slice (x.2.lowSlice g.mask)).st with
    | .park (.racq n age) => some (age, x.1, g.mask, n)
    | _ => none))
  all.foldl (fun l r =>
    (l.takeWhile (fun q => decide (q.1 < r.1) || (q.1 == r.1 && decide (q.2.1 ≤ r.2.1)))) ++ r ::
      l.dropWhile (fun q => decide (q.1 < r.1) || (q.1 == r.1 && decide (q.2.1 ≤ r.2.1)))) []

/-- A warp acquires granules above its top: their registers read zero (02 R63). -/
def Warp.acquire (w : Warp) (n : Nat) (gs : List Nat) (lent : Bool) : Warp :=
  let lo := 128 + 64 * w.held
  { w with
    vregs := w.vregs.filter (fun e => decide (e.1 / 64 < lo) || decide (lo + 64 * n ≤ e.1 / 64))
    held := w.held + n, granules := w.granules ++ gs, lent := w.lent + (if lent then n else 0) }

/-- Grant granules to a parked RACQ: zeroed registers, the wait ends (02 R63, R84). A grant above the top that would pass the maximum
faults instead (DEDUCED, notes/assumptions/15). -/
def racqGrant (s : State) (core slot mask n : Nat) (gs : List Nat) (lent : Bool) : State :=
  let w := warpOf s core slot
  if 4 < w.held + n ∨ w.extmax < w.held + n then openFault s core slot mask (flt 5) false
  else wake (updWarp s core slot (fun w => w.acquire n gs lent)) core slot mask (fun _ => [.void])

/-- The granules of the free pool for a request of a warp of a width. -/
def poolGranules (c : Core) (width n : Nat) : List Nat := (freeGranules c 0 (fileBlocks width - 8)).take n

/-- An emergency episode ends in the first cycle in which no request waits (02 R66). -/
def endEpisode (s : State) (core : Nat) : State :=
  if racqWaiters (coreOf s core) = [] then updCore s core (fun c => { c with emergency := false }) else s

/-- RACQ (02 R84): its wait is met at issue where no request waits and the free pool holds the granules (05 Table group-4). -/
def execRacq (n : Nat) (s : State) : Out :=
  issueWord {} (fun s =>
    let w := cw s
    let c := coreOf s s.cur.core
    let gs := poolGranules c w.width n
    if 4 < w.held + n ∨ w.extmax < w.held + n then .trap (flt 5)
    else if racqWaiters c = [] ∧ gs.length = n then .done (retireSwitch (updCw s (fun w => w.acquire n gs false)) (fun _ => [.void]))
    else .done (park s (.racq n s.cycle))) s

/-- RACQ_GRANT (02 R65): the oldest request, when the free pool holds it. -/
def execRacqGrant (core : Nat) (s : State) : Out :=
  let c := coreOf s core
  match racqWaiters c with
  | [] => .next s
  | (_, slot, mask, n) :: _ =>
    let gs := poolGranules c (warpOf s core slot).width n
    if gs.length < n then .next s else .next (endEpisode (racqGrant s core slot mask n gs false) core)

/-- Whether a slice counts as parked on the core's own resources (02 R66). -/
def Slice.ownPark (x : Slice) : Bool :=
  match x.st with
  | .park (.racq _ _) | .park (.barrier _ _) | .park (.regang _) | .park (.rendezvous _ _ _) | .exited => true
  | _ => false

/-- EMERGENCY_EPISODE (02 R66). -/
def execEmergencyEpisode (core : Nat) (s : State) : Out :=
  let c := coreOf s core
  if c.warps.all (fun x => x.2.slices.all Slice.ownPark) && !(racqWaiters c).isEmpty then
    .next (updCore s core (fun c => { c with emergency := true }))
  else .next s

/-- EMERGENCY_GRANT (02 R66): one grant from the reserve in a cycle, or the end of the episode. -/
def execEmergencyGrant (core : Nat) (s : State) : Out :=
  let c := coreOf s core
  if !c.emergency then .next s
  else
    match racqWaiters c with
    | [] => .next (updCore s core (fun c => { c with emergency := false }))
    | (_, slot, mask, n) :: _ =>
      let top := fileBlocks (warpOf s core slot).width
      let gs := (freeGranules c (top - 8) top).take n
      if c.granted = some s.cycle then .next s
      else if gs.length < n then .next (updCore s core (fun c => { c with emergency := false }))
      else .next (endEpisode (updCore (racqGrant s core slot mask n gs true) core (fun c => { c with granted := some s.cycle })) core)

/-- RREL (02 R85): the word waits for the writes to what it releases; the blocks return at RREL_RELEASE. -/
def execRrel (n : Nat) (s : State) : Out :=
  issueWord {} (fun s =>
    let w := cw s
    let h := w.held
    if w.lent = 0 ∧ h < n then .trap (flt 4)
    else
      let k := if w.lent ≠ 0 ∨ n = 0 then h else n
      let lo := 128 + 64 * (h - k)
      if w.busy.any (fun b => b.pending s.cycle && decide (lo ≤ b.code) && decide (b.code < 128 + 64 * h)) then .stall
      else
        let top := fileBlocks w.width
        .done (retireVoid (updCw s (fun w =>
          let keep := w.granules.take (h - k)
          { w with held := h - k, granules := keep, releasing := w.releasing ++ w.granules.drop (h - k),
                   lent := (keep.filter (fun g => decide (top - 8 ≤ g))).length })))) s

/-- RREL_RELEASE (02 R85). -/
def execRrelRelease (core slot : Nat) (s : State) : Out := .next (updWarp s core slot (fun w => { w with releasing := [] }))

/-! ## REP (01 R43-R47, 02 R86) -/

/-- A fetched word as it stood when the launch started, where it was written since (07 R235). -/
def oldWord (s : State) (launch pa : Nat) (bs : List Byte) : List Byte :=
  bs.mapIdx (fun i b => mgetD (mgetD s.olds (pa + i) []) launch b)

/-- Fetch a word of a context: plain data at the home, with its translation (06 R205). A word written since the launch started is seen
in its old or its new form (07 R235). -/
def fetchWord (s : State) (cl ctx va n : Nat) : Except PageFault Nat × State :=
  match translate s cl ctx va .fetch with
  | (.error p, s) => (.error p, s)
  | (.ok x, s) =>
    let pa := resolve s ctx x false
    let r := homeRead s x.key pa n
    let old := oldWord s (cw s).launch pa r.1
    if old = r.1 then (.ok (ofBytes r.1), r.2)
    else
      let c := choose r.2 2
      (.ok (ofBytes (if c.1 = 0 then r.1 else old)), c.2)

/-- How a word uses a field, for REP: not at all, as a register of n, as a predicate, as a row. -/
inductive FieldUse where
  | none
  | reg (n : Nat)
  | pred
  | row
deriving DecidableEq, Repr

/-- Registers of a memory size. -/
def sizeRegs (z : MSize) : Nat := if z = .b128 then 4 else if z = .b64 then 2 else 1

/-- A register field of a width. -/
def fw2 (wide : Bool) : FieldUse := .reg (if wide then 2 else 1)

/-- The uses of the fields d, a, b and c of a word that REP may repeat; `none` for words that REP may not precede (01 R46 and the
entries). -/
def repFields (i : Instr) : Option (FieldUse × FieldUse × FieldUse × FieldUse) :=
  let i2 := fun (x : Int2) => some (fw2 x.ty.wide, fw2 x.ty.wide, fw2 x.ty.wide, FieldUse.none)
  let sh := fun (x : Int2) => some (fw2 x.ty.wide, fw2 x.ty.wide, FieldUse.reg 1, FieldUse.none)
  let i1 := fun (x : Int1) (d : Bool) => some (fw2 (x.ty.wide && d), fw2 x.ty.wide, FieldUse.none, FieldUse.none)
  let r3 := fun (w : Bool) => some (fw2 w, fw2 w, fw2 w, fw2 w)
  let r2 := fun (w : Bool) => some (fw2 w, fw2 w, fw2 w, FieldUse.none)
  let r1 := some (FieldUse.reg 1, FieldUse.reg 1, FieldUse.none, FieldUse.none)
  let ld := fun (x : LoadArgs) (w : Bool) => some (FieldUse.reg (sizeRegs x.size), fw2 w, FieldUse.reg 1, FieldUse.none)
  let st := fun (x : StoreArgs) (w : Bool) => some (FieldUse.reg (sizeRegs x.size), fw2 w, FieldUse.reg 1, FieldUse.none)
  let at' := fun (x : AtomArgs) (w : Bool) (cas : Bool) =>
    some (fw2 x.wide, fw2 w, FieldUse.reg 1, FieldUse.reg ((if x.wide then 2 else 1) * (if cas then 2 else 1)))
  let mem := some (FieldUse.none, FieldUse.reg 2, FieldUse.reg 1, FieldUse.none)
  match i with
  | .iadd x | .isub x | .imul x | .imulh x | .imin x | .imax x | .and x | .or x | .xor x | .andn x => i2 x
  | .shl x | .shr x | .sar x | .rotr x | .bfx x => sh x
  | .imad x => r3 x.ty.wide
  | .imadw _ => some (.reg 2, .reg 1, .reg 1, .reg 2)
  | .bfi _ => r3 false
  | .iabs x | .brev x => i1 x true
  | .popc x | .clz x => i1 x false
  | .lea _ => some (.reg 2, .reg 2, .reg 1, .none)
  | .icmp x => some (.pred, fw2 x.ty.wide, fw2 x.ty.wide, .none)
  | .sel x => r2 x.wide
  | .mov x => some (fw2 x.wide, fw2 x.wide, .none, .none)
  | .movs x | .movsSl x => some (fw2 x.wide, fw2 x.wide, .reg 1, .none)
  | .plog _ => some (.pred, .pred, .pred, .pred)
  | .fadd _ | .fsub _ | .fmul _ | .fmin _ | .fmax _ | .fdiv _ | .hadd2 _ | .hmul2 _ => r2 false
  | .ffma _ | .hfma2 _ | .scacc _ => r3 false
  | .dadd _ | .dmul _ => r2 true
  | .dfma _ => r3 true
  | .fcmp _ => some (.pred, .reg 1, .reg 1, .none)
  | .dcmp _ => some (.pred, .reg 2, .reg 2, .none)
  | .fcls x => some (.pred, fw2 x.ty.wide, .none, .none)
  | .frcp _ | .frsq _ | .fsqt _ | .fex2 _ | .flg2 _ | .fsin _ | .fcos _ | .ftnh _ => r1
  | .cvt x => some (fw2 x.dty.wide, fw2 x.sty.wide, .none, .none)
  | .cvts x => some (.reg 1, .reg (packCount x.dty), .reg 1, .none)
  | .scsel _ => r1
  | .efq _ => r3 false
  | .bzpk _ => some (.reg 1, .reg 8, .reg 1, .none)
  | .bzup x => some (.reg (if x.dty = .f32 then 8 else 4), .reg 1, .none, .none)
  | .f8pk _ => r2 false
  | .f8up x => some (.reg (if x.dty = .f32 then 4 else 2), .reg 1, .none, .none)
  | .shfl x => some (fw2 x.wide, fw2 x.wide, .reg 1, .none)
  | .shfx _ => r1
  | .bcst x => some (fw2 x.wide, fw2 x.wide, .reg 1, .none)
  | .vote (.any _ _) | .vote (.all _ _) => some (.pred, .pred, .none, .none)
  | .vote (.ballot _ _) => some (.reg 2, .pred, .none, .none)
  | .vote (.eq _ _ w) => some (.pred, fw2 w, .none, .none)
  | .redt x => some (fw2 x.ty.wide, fw2 x.ty.wide, .none, .none)
  | .scan x => some (fw2 x.ty.wide, fw2 x.ty.wide, .none, .none)
  | .redx x => some (.none, .reg 1, if x.b.isSome then .reg 1 else .none, .none)
  | .lacr x => some (fw2 x.wide, .none, .none, .none)
  | .lacz => some (.none, .none, .none, .none)
  | .ld x | .ldw x => ld x true
  | .lds x | .ldc x => ld x false
  | .st x | .stw x => st x true
  | .sts x => st x false
  | .pref _ | .cflsh _ | .cinv _ => mem
  | .fence _ _ => some (.none, .none, .none, .none)
  | .waitc _ (.opnd _) => some (.none, .reg 1, .none, .none)
  | .waitc _ (.imm _) => some (.none, .none, .none, .none)
  | .atomAdd x | .atomMin x | .atomMax x | .atomAnd x | .atomOr x | .atomXor x | .atomExch x | .atomFadd x => at' x true false
  | .atomCas x => at' x true true
  | .atomsAdd x | .atomsMin x | .atomsMax x | .atomsAnd x | .atomsOr x | .atomsXor x | .atomsExch x | .atomsFadd x => at' x false false
  | .atomsCas x => at' x false true
  | .accrd _ | .accwr _ => some (.reg 1, .none, .none, .row)
  | _ => none

/-- Where a field lies: low bit and width. -/
def fieldAt (k : Nat) : Nat × Nat := if k = 0 then (38, 9) else if k = 1 then (28, 10) else if k = 2 then (18, 10) else (8, 10)

/-- Whether a step may be given to a field: it is used, holds a register code, predicate or row, and the step fits (01 R46, 04 R120). -/
def repFieldOk (w : Nat) (k : Nat) (u : FieldUse) (st : Option Int) : Bool :=
  match st with
  | none => true
  | some i =>
    let c := bits w (fieldAt k).1 (fieldAt k).2
    match u with
    | .none => false
    | .reg n => decide (c < 448) && i % (n : Int) == 0
    | .pred => true
    | .row => true

/-- The stepped code of a field: `none` out of its range (01 R45). -/
def stepCode (u : FieldUse) (c : Nat) (d : Int) : Option Nat :=
  let v := (c : Int) + d
  let inside := fun (lo hi : Int) => if lo ≤ v ∧ v ≤ hi then some v.toNat else none
  match u with
  | .reg _ => if c < 384 then inside 0 383 else inside 384 447
  | .pred => inside 0 7
  | .row => inside 0 127
  | .none => some c

/-- The word of repetition i, and whether every stepped code is in range. -/
def stepWord (w : Nat) (us : List FieldUse) (steps : List (Option Int)) (i : Nat) : Nat × Bool :=
  (List.range 4).foldl (fun (a : Nat × Bool) k =>
    match steps[k]?, us[k]? with
    | some (some st), some u =>
      let p := fieldAt k
      match stepCode u (bits w p.1 p.2) ((i : Int) * st) with
      | some c => (setBits a.1 p.1 p.2 c, a.2)
      | none => (a.1, false)
    | _, _ => a) (w, true)

/-- REP (01 R43-R47): the checks of R46 with the next word, then the stepped word of the slices' next repetition becomes the word of
the site, which the step issues. A code that has left its range stays at its base in that word, and REG_RANGE is its last fault
(01 R49). -/
def execRep (x : RepArgs) (s : State) : Out :=
  let w := cw s
  let low := w.slice (curLow s)
  let steps := [x.d, x.a, x.b, x.c]
  let fail := fun (s : State) (f : FaultInfo) => Host.Outcome.next (takeFault (noteIssue s) f)
  let va := (low.pc + 8).toNat
  match fetchWord s (clusterOf s.cur.core) w.ctx va 8 with
  | (.error p, s) => fail s (fltPage va p)
  | (.ok nw, s) =>
    if nw / 2 ^ 62 % 4 ≠ 0 then fail s (flt 2)
    else
      match decodeCore nw with
      | .illegalOpcode => fail s (flt 1)
      | .reservedEncoding => fail s (flt 2)
      | .ok i =>
        match repFields i with
        | none => fail s (flt 2)
        | some (ud, ua, ub, uc) =>
          let us := [ud, ua, ub, uc]
          let stray := x.strayD != 0 || x.strayA != 0 || x.strayB != 0 || x.strayC != 0
          let lastWord := (curSlices s).any (fun j => let y := w.slice j
            (y.loops.take y.depth).any (fun l => l.le == y.pc))
          let okFields := (List.range 4).all (fun k =>
            repFieldOk nw k ((us[k]?).getD .none) ((steps[k]?).getD none))
          if stray || lastWord || !okFields then fail s (flt 2)
          else
            let n := low.repIdx
            let sw := stepWord nw us steps n
            let s1 := updCw s (fun w => w.updSlices s.cur.mask (fun _ y => { y with repLen := x.count + 1 }))
            .next { s1 with cur := { s1.cur with word := BitVec.ofNat 64 sw.1, rep := some (x, n), outside := !sw.2 } }

end Sys2Proof.Machine
end

