-- ==== Sys2Proof/Machine/Mem.lean ====
section
/-! DEFINITION. Accesses in flight: their parts, the order in which parts may be performed, performing them at the cache, the home, the
host, the scratchpad and the windows (07 R229-R255), and the return of results. -/

namespace Sys2Proof.Machine

/-! ## Traces (12 R390, R391) -/

/-- Whether a launch is traced (12 Table kernel-1). -/
def traced (s : State) (l : Nat) : Bool := match mget s.launches l with | some x => bit (fld x.pkt 1 1) 0 | none => false

/-- Add a tile to ranges of at most `lim`: `none` where it does not fit (12 R391). -/
def rangeAdd (lim t : Nat) (rs : List (Nat × Nat)) : Option (List (Nat × Nat)) :=
  if rs.any (fun r => decide (r.1 ≤ t) && decide (t ≤ r.1 + r.2)) then some rs
  else
    let key := fun (r : Nat × Nat) => decide (r.2 < 65535) && (t + 1 == r.1 || t == r.1 + r.2 + 1)
    match leastBy (·.1) (rs.filter key) with
    | some r => some (rs.map (fun q => if q = r then (if t + 1 = r.1 then (t, r.2 + 1) else (r.1, r.2 + 1)) else q))
    | none => if rs.length < lim then some (rs ++ [(t, 0)]) else none

/-- Record a tile as read or written. -/
def Trace.touch (x : Trace) (wr : Bool) (t : Nat) : Trace :=
  if wr then (match rangeAdd 6 t x.writes with | some r => { x with writes := r } | none => { x with open_ := true })
  else (match rangeAdd 24 t x.reads with | some r => { x with reads := r } | none => { x with open_ := true })

/-- Change the trace of a warp's block, when its launch is traced. -/
def updTrace (s : State) (w : Warp) (f : Trace → Trace) : State :=
  if traced s w.launch then { s with blocks := madj s.blocks w.block (fun b => { b with trace := f b.trace }) } else s

/-- The tiles of a translated address: both twins of a twin page. -/
def xlatTiles (x : Xlat) : List Nat :=
  match x.twin with
  | some (sz, _) => [x.pa / 65536, (x.pa + sz) / 65536]
  | none => [x.pa / 65536]

/-- Record the tiles of accesses. -/
def traceXlats (s : State) (w : Warp) (wr : Bool) (xs : List Xlat) : State :=
  updTrace s w (fun t => (xs.flatMap xlatTiles).foldl (fun t k => t.touch wr k) t)

/-- Mark the block VOLATILE (12 Table kernel-10). -/
def traceVolatile (s : State) (w : Warp) : State := updTrace s w (fun t => { t with volatile := true })

/-- The tag that the writes of a launch stamp: its trace tag, or 0 (06 Table page-8). -/
def launchTag (s : State) (l : Nat) : Nat := match mget s.launches l with | some x => fld x.pkt 48 2 | none => 0

/-! ## Lanes that perform (07 R257, 05 R163) -/

/-- The performing lanes of a guarded word: guard true, inside the work extent. -/
def perfLanes (s : State) (g : Option Guard) : List Nat :=
  (curLanes s).filter (fun l => decide (l < (cw s).nlane) && (match g with | some g => (cw s).guard g l | none => true))

/-- The performing lanes of a load: with a scalar destination only the lowest of each slice. -/
def loadLanes (s : State) (d : Dst) : List Nat :=
  (perfLanes s none).filter (fun l => !d.reg.isS || l % 4 == 0)

/-- An effective address at 64 bits (07 R257). -/
def effAddr (s : State) (m : MemOpnd) (n lane : Nat) : Nat :=
  ofInt 64 ((op64 s m.a lane : Int) + sext 32 (op32 s m.b lane) + m.off * (n : Int))

/-- An effective address at 32 bits, of LDS, STS, ATOMS and LDC. -/
def effAddr32 (s : State) (m : MemOpnd) (n lane : Nat) : Nat :=
  ofInt 32 ((op32 s m.a lane : Int) + sext 32 (op32 s m.b lane) + m.off * (n : Int))

/-- Translate the lanes' addresses in order: the first fault of the lowest faulting lane, or all translations (07 R257). -/
def xlatLanes (cl ctx n : Nat) (kind : AccessKind) (addr : Nat → Nat) :
    List Nat → State → Except FaultInfo (List (Nat × Xlat)) × State
  | [], s => (.ok [], s)
  | l :: t, s =>
    if addr l % n ≠ 0 then (.error (fltAt 7 (addr l)), s)
    else
      match translate s cl ctx (addr l) kind with
      | (.error p, s) => (.error (fltPage (addr l) p), s)
      | (.ok x, s) =>
        match xlatLanes cl ctx n kind addr t s with
        | (.ok r, s) => (.ok ((l, x) :: r), s)
        | (.error f, s) => (.error f, s)

/-! ## Parts -/

/-- Where a global access is performed (07 Table access-1): `home` for strong, .na and atomic accesses. -/
def placeOf (x : Xlat) (home : Bool) : Place :=
  if inHost x.pa then .host else if inDevice x.pa && !x.nc && !home then .cache else .home

/-- What the lanes of one part share: the line, the place, the key and the twin page. -/
def laneGroup (home : Bool) (a : LaneAcc) : Nat × Place × Nat × Option (Nat × Nat) := (a.x.pa / 256, placeOf a.x home, a.x.key, a.x.twin)

/-- Group the lanes of an access by 256-byte line, and within a line by the place, key and twin of their pages. -/
def groupLines (home : Bool) (ls : List LaneAcc) : List Part :=
  ((ls.map (laneGroup home)).eraseDups).map (fun g => ⟨g.1, g.2.1, ls.filter (fun a => laneGroup home a == g), false⟩)

/-- The lines that a part may reach: of a twin page those of both twins. -/
def Part.lines (p : Part) : List Nat :=
  match p.lanes with
  | a :: _ => (match a.x.twin with | some (sz, _) => [p.line, (a.x.pa + sz) / 256] | none => [p.line])
  | [] => [p.line]

/-- The line that a part reaches now. -/
def Part.lineNow (s : State) (ctx : Nat) (p : Part) : Nat :=
  match p.lanes with
  | a :: _ => resolve s ctx a.x false / 256
  | [] => p.line

/-- The distinct lines of parts outside the scratchpad: the entries that an access takes (07 R234). -/
def lineCount (ps : List Part) : Nat := ((ps.filter (fun p => p.place != .scratch)).map (fun p => p.line)).eraseDups.length

/-- The transaction-table entries in use on a core (07 R234). -/
def tableUsed (s : State) (core : Nat) : Nat :=
  ((s.txs.filter (fun t => t.2.core == core)).map (fun t => lineCount (t.2.parts.filter (fun p =>
    !p.done || (match t.2.kind with | .load _ _ => true | .atom _ _ _ _ => true | _ => false))))).foldl (· + ·) 0

/-- Put an operation in flight: its number, counted on an in-flight counter. -/
def launchTx (s : State) (ic : Option Nat) (t : Tx) : Nat × State :=
  let f := fresh s
  let s := { f.2 with txs := mset f.2.txs f.1 t }
  (f.1, match ic with | some i => updCw s (fun w => w.raise i f.1) | none => s)

/-- An operation of the issuing warp. -/
def mkTx (s : State) (strong na : Bool) (kind : TxKind) (parts : List Part) : Tx :=
  let w := cw s
  { uid := w.uid, mask := s.cur.mask, ctx := w.ctx, core := s.cur.core, slot := s.cur.slot, launch := w.launch,
    tag := launchTag s w.launch, strong := strong, na := na, kind := kind, parts := parts }

/-- Whether an operation is a sketch word (11 R372). -/
def TxKind.isSketch : TxKind → Bool
  | .skupd _ | .skqry _ _ _ | .skadd _ | .skclr _ => true
  | _ => false

/-- Every earlier sketch word of a warp has been answered (11 R362). -/
def sketchesDone (s : State) (uid before : Nat) : Bool :=
  s.txs.all (fun t => !(decide (t.1 < before) && t.2.uid == uid && t.2.kind.isSketch))

/-- Whether an operation only reads. -/
def TxKind.reads : TxKind → Bool
  | .load _ _ => true
  | _ => false

/-- Whether a part is a strong access: of a strong word, or a read of the hallmark window (06 R223). -/
def Part.isStrong (t : Tx) (p : Part) : Bool := t.strong || (match p.lanes with | a :: _ => inHallmark a.x.pa | [] => false)

/-- Whether a part reads a unit that engines increment: a strong load of such a signal word may be an acquire (07 R247). -/
def Part.onSignal (s : State) (t : Tx) (p : Part) : Bool :=
  t.strong && t.kind.reads && p.place == .home && p.lanes.any (fun a => (mget s.signals (resolve s t.ctx a.x false / 8)).isSome)

/-- The lines that the counter at an address may lie in, as translated now where it was not at issue. -/
def counterLines (s : State) (ctx va : Nat) (x : Option Xlat) : List Nat :=
  match x, (translate s devCl ctx va .read).1 with
  | some x, _ => Part.lines ⟨x.pa / 256, .home, [⟨0, x, [], 0, 0, none⟩], false⟩
  | none, .ok x => Part.lines ⟨x.pa / 256, .home, [⟨0, x, [], 0, 0, none⟩], false⟩
  | none, .error _ => []

/-- The lines that a counter event may reach. -/
def CounterOp.lines (s : State) (ctx : Nat) (o : CounterOp) : List Nat :=
  counterLines s ctx o.va o.x ++ (match o.act with | .addFrom va x => counterLines s ctx va x | _ => [])

/-- An earlier operation of the same warp does not hold a part back: fences, the same line (also a counter's of a sketch word, 11 R362),
strong before strong, host accesses in program order, and a strong load of a signal word before what follows its acquire (07 R241,
R244-R248, R250). -/
def letsPass (s : State) (u t : Tx) (p : Part) : Bool :=
  match u.kind with
  | .fence _ kind => (u.mask &&& t.mask) == 0 || (kind == .rel && t.kind.reads)
  | .tlbi | .rfence => false
  | _ => !u.parts.any (fun q => !q.done && (
      (q.lines.any (fun l => p.lines.contains l) && (q.place == .scratch) == (p.place == .scratch)) ||
      (q.place == .host && p.place == .host) || (q.isStrong u && p.isStrong t) || q.onSignal s u)) &&
    !(p.place != .scratch && u.todo.any (fun o => (o.lines s u.ctx).any (fun l => p.lines.contains l)))

/-- Whether a part may be performed now. -/
def partReady (s : State) (id : Nat) (t : Tx) (p : Part) : Bool :=
  !p.done && s.txs.all (fun u => !(decide (u.1 < id) && u.2.uid == t.uid) || letsPass s u.2 t p)

/-! ## Values -/

/-- A loaded element: extended by its size (07 R258, 04 R118). -/
def loadVal (z : MSize) (bs : List Byte) : Nat :=
  match z with
  | .i8 => ofInt 32 (sext 8 (ofBytes bs))
  | .i16 => ofInt 32 (sext 16 (ofBytes bs))
  | _ => ofBytes bs

/-- The new value of an atomic (07 R265). -/
def atomNext (op : AtomOp) (wide sgn : Bool) (old opnd swap : Nat) : Nat :=
  let n := if wide then 64 else 32
  let t := if wide then (if sgn then Ty.i64 else Ty.n64) else if sgn then Ty.i32 else Ty.n32
  match op with
  | .add => (old + opnd) % 2 ^ n
  | .min => if intVal t old ≤ intVal t opnd then old else opnd % 2 ^ n
  | .max => if intVal t old ≤ intVal t opnd then opnd % 2 ^ n else old
  | .and => old &&& opnd
  | .or => (old ||| opnd) % 2 ^ n
  | .xor => (old ^^^ opnd) % 2 ^ n
  | .exch => opnd % 2 ^ n
  | .cas => if old = opnd % 2 ^ n then swap % 2 ^ n else old
  | .fadd => (if wide then fp64 else fp32).add .rn false old opnd

/-- The write events of lanes: one for each aligned 8-byte unit (07 R239). -/
def unitEvents (ws : List (Nat × Byte)) : List (List (Nat × Byte)) :=
  ((ws.map (fun w => w.1 / 8)).eraseDups).map (fun u => ws.filter (fun w => w.1 / 8 == u))

/-- The stores of lanes as elements of at most 8 bytes: two for a b128 lane (07 R239). -/
def elements (f : LaneAcc → Nat) (ls : List LaneAcc) : List (Nat × List Byte) :=
  ls.flatMap (fun a => (List.range ((a.data.length + 7) / 8)).map (fun i => (f a + 8 * i, (a.data.drop (8 * i)).take 8)))

/-- Of the elements at each address one stands, which one unspecified and independently for each (07 R242). -/
def standing (es : List (Nat × List Byte)) : List Nat → State → List (Nat × List Byte) × State
  | [], s => ([], s)
  | a :: t, s =>
    let l := es.filter (fun e => e.1 == a)
    let c := choose s l.length
    let r := standing es t c.2
    ((match l[c.1]? with | some e => e :: r.1 | none => r.1), r.2)

/-- The elements that a store leaves. -/
def storeElems (s : State) (f : LaneAcc → Nat) (ls : List LaneAcc) : List (Nat × List Byte) × State :=
  standing (elements f ls) (((elements f ls).map (·.1)).eraseDups) s

/-! ## Windows (06 R199-R202) -/

/-- A place in a window. -/
inductive WinPlace where
  | reg (core slot reg lane : Nat)
  | scratch (core byte : Nat)
  | acc (cluster tile idx : Nat)
deriving DecidableEq, Repr

/-- The register of a warp in a physical block. -/
def blockReg (w : Warp) (p r : Nat) : Option Nat :=
  if w.baseBlk ≤ p ∧ p < w.baseBlk + 4 then some (32 * (p - w.baseBlk) + r)
  else
    (((List.range w.granules.length).filterMap (fun i =>
      match w.granules[i]? with
      | some g => if g = p ∨ g + 1 = p then some (128 + 64 * i + 32 * (p - g) + r) else none
      | none => none)).head?)

/-- The place of a window address that a context may reach: `none` is WINDOW_RANGE (06 R202). -/
def winPlace (s : State) (ctx pa : Nat) : Option WinPlace :=
  let k := (pa - 0xFF00000000000) / 0x200000
  let off := (pa - 0xFF00000000000) % 0x200000
  let c := (pa - 0xFF00080000000) / 0x80000
  let coff := (pa - 0xFF00080000000) % 0x80000
  let holds := fun cl => holderOf s (partOf cl) == some ctx
  if pa < 0xFF00000000000 then none
  else if k < 768 then
    if !holds (clusterOf k) then none
    else if off < 0x80000 then
      ((coreOf s k).warps.filterMap (fun x =>
        let w := x.2
        if w.ctx ≠ ctx then none
        else (blockReg w (off / (128 * w.width)) (off % (128 * w.width) / (4 * w.width))).map (fun r =>
          WinPlace.reg k x.1 r (off % (4 * w.width) / 4)))).head?
    else if off < 0x100000 then
      let b := off - 0x80000
      if s.blocks.any (fun q => q.2.core == k && q.2.st == .resident && decide (q.2.scratchBase ≤ b) &&
          decide (b < q.2.scratchBase + q.2.scratchBytes) &&
          (match mget s.launches q.2.launch with | some l => l.ctx == ctx | none => false))
      then some (.scratch k b) else none
    else none
  else if 0xFF00080000000 ≤ pa ∧ c < 192 then
    if holds c then some (.acc c (coff / 0x10000) (coff % 0x10000 / 4)) else none
  else none

/-- Read an accumulator word of a slot. -/
def accRead (c : Cluster) (t i : Nat) : W32 := mgetD c.acc (t * 16384 + i) 0

/-- Write an accumulator word; a high slot keeps the sign extension of bit 15 (06 R201). -/
def accWrite (c : Cluster) (t i : Nat) (v : W32) : Cluster :=
  let v := if mgetD c.kinds t .f32 = .hi then BitVec.ofNat 32 (ofInt 32 (sext 16 v.toNat)) else v
  { c with acc := mput 0 c.acc (t * 16384 + i) v }

/-- Read 4 bytes of a window. -/
def winRead (s : State) (p : WinPlace) : Nat :=
  match p with
  | .reg k sl r l => ((warpOf s k sl).vreg r l).toNat
  | .scratch k b => ofBytes ((List.range 4).map (fun i => mgetD (coreOf s k).scratch (b + i) 0))
  | .acc c t i => (accRead (clustOf s c) t i).toNat

/-- Write bytes of a scratchpad. -/
def scratchWrite (s : State) (k b : Nat) (bs : List Byte) : State :=
  updCore s k (fun c => { c with scratch := (bs.foldl (fun (a : SMap Byte × Nat) v => (mput 0 a.1 a.2 v, a.2 + 1)) (c.scratch, b)).1 })

/-- Read bytes of a scratchpad. -/
def scratchRead (s : State) (k b n : Nat) : List Byte := (List.range n).map (fun i => mgetD (coreOf s k).scratch (b + i) 0)

/-- Write 4 bytes of a window: one event (07 R261). -/
def winWrite (s : State) (p : WinPlace) (v : Nat) : State :=
  match p with
  | .reg k sl r l => updWarp s k sl (fun w => w.setV r l (BitVec.ofNat 32 v))
  | .scratch k b => scratchWrite s k b (toBytes 4 v)
  | .acc c t i => updClust s c (fun x => accWrite x t i (BitVec.ofNat 32 v))

/-! ## Performing parts -/

/-- Perform a load's lane. -/
def loadLane (t : Tx) (n : Nat) (place : Place) (s : State) (a : LaneAcc) : LaneAcc × State :=
  let cl := clusterOf t.core
  match place with
  | .cache => let r := cacheRead s cl t.ctx a.x.key a.x.pa n; ({ a with res := some r.1 }, r.2)
  | .scratch => ({ a with res := some (scratchRead s t.core a.x.pa n) }, s)
  | .window => ({ a with res := some ((List.range (n / 4)).flatMap (fun i =>
      toBytes 4 (match winPlace s t.ctx (a.x.pa + 4 * i) with | some p => winRead s p | none => 0))) }, s)
  | .const =>
    let cc := (coreOf s t.core).cc
    let hit := (List.range n).all (fun i => match mget cc (a.x.pa + i) with | some (l, _) => l == t.launch | none => false)
    let c := if hit then choose s 2 else (0, s)
    if hit && c.1 == 1 then
      ({ a with res := some ((List.range n).map (fun i => (mgetD cc (a.x.pa + i) (0, 0)).2)) }, c.2)
    else
      let r := homeRead c.2 a.x.key (resolve c.2 t.ctx a.x false) n
      ({ a with res := some r.1 }, updCore r.2 t.core (fun k => { k with
        cc := (r.1.foldl (fun (m : SMap (Nat × Byte) × Nat) b => (mset m.1 m.2 (t.launch, b), m.2 + 1)) (k.cc, a.x.pa)).1 }))
  | _ => let r := homeRead s a.x.key (resolve s t.ctx a.x false) n; ({ a with res := some r.1 }, r.2)

/-- Perform lanes in order, threading the state. -/
def eachLane (f : State → LaneAcc → LaneAcc × State) : List LaneAcc → State → List LaneAcc × State
  | [], s => ([], s)
  | a :: t, s =>
    let r := f s a
    let q := eachLane f t r.2
    (r.1 :: q.1, q.2)

/-- Perform an atomic's lane at the home, the host or the scratchpad (07 R251, R265). -/
def atomLane (t : Tx) (op : AtomOp) (wide sgn : Bool) (place : Place) (s : State) (a : LaneAcc) : LaneAcc × State :=
  let n := if wide then 8 else 4
  if place = .scratch then
    let old := scratchRead s t.core a.x.pa n
    ({ a with res := some old },
      scratchWrite s t.core a.x.pa (toBytes n (atomNext op wide sgn (ofBytes old) a.opnd.toNat a.swap.toNat)))
  else
    let pa := resolve s t.ctx a.x false
    let r := homeRead s a.x.key pa n
    ({ a with res := some r.1 },
      writePa r.2 t.tag a.x.key pa (toBytes n (atomNext op wide sgn (ofBytes r.1) a.opnd.toNat a.swap.toNat)))

/-- A strong load that reads an engine's increment is an acquire (07 R247). -/
def acqSignal (t : Tx) (p : Part) (s : State) : State :=
  if t.strong && p.place == .home && p.lanes.any (fun a => mget s.signals (resolve s t.ctx a.x false / 8) == some true) then
    dropClean s (clusterOf t.core) t.ctx else s

/-- Perform one part at its place. A strong, .na or atomic access makes the cluster's cache give up the line first (07 Table
access-2). -/
def performPart (t : Tx) (p : Part) (s : State) : Part × State :=
  let cl := clusterOf t.core
  let s := if p.place = .home ∧ (t.strong ∨ t.na) then lineEvict s cl (p.lineNow s t.ctx) else s
  match t.kind with
  | .load _ z => let r := eachLane (loadLane t z.bytes p.place) p.lanes s; ({ p with lanes := r.1, done := true }, acqSignal t p r.2)
  | .atom op _ wide sgn =>
    let r := eachLane (atomLane t op wide sgn p.place) p.lanes s
    ({ p with lanes := r.1, done := true }, r.2)
  | .store =>
    let key := match p.lanes with | a :: _ => a.x.key | [] => 0
    let o := storeElems s (fun a => match p.place with | .home | .host => resolve s t.ctx a.x false | _ => a.x.pa) p.lanes
    let s := match p.place with
      | .cache => o.1.foldl (fun s e => cacheWrite s cl t.ctx key t.tag e.1 e.2) o.2
      | .scratch => o.1.foldl (fun s e => scratchWrite s t.core e.1 e.2) o.2
      | .window => o.1.foldl (fun s e => (List.range (e.2.length / 4)).foldl (fun s i =>
          match winPlace s t.ctx (e.1 + 4 * i) with
          | some q => winWrite s q (fld e.2 (4 * i) 4)
          | none => s) s) o.2
      | _ => (unitEvents (o.1.flatMap (fun e => atAddr e.1 e.2))).foldl (fun s e => writeEvent s t.tag key e) o.2
    ({ p with done := true }, s)
  | .cflsh inv =>
    ({ p with done := true }, if p.place = .cache then (if inv then lineEvict s cl p.line else lineClean s cl p.line) else s)
  | _ => ({ p with done := true }, s)

/-- A part arrives at its home in this cycle behind accesses of higher clusters or of other requesters: it is performed in a later one
(07 R233). -/
def Part.late (s : State) (t : Tx) (p : Part) : Bool := p.place == .home && p.lines.any (lateAt s (clusterOf t.core))

/-- Perform part k of an operation, when it may be performed now. -/
def performAt (s : State) (id k : Nat) : State :=
  match mget s.txs id with
  | some t =>
    match t.parts[k]? with
    | some p =>
      if partReady s id t p && !p.late s t then
        let s := { s with payer := payerOf s t.launch }
        let r := performPart t p (if p.place = .home then arrive s (clusterOf t.core) p.lines else s)
        { r.2 with txs := madj r.2.txs id (fun t => { t with parts := t.parts.set k r.1 }) }
      else s
    | none => s
  | none => s

/-- Perform the parts that are performed on the core itself: cache, window and constant cache. -/
def performNear (s : State) (id : Nat) : State :=
  match mget s.txs id with
  | some t => (List.range t.parts.length).foldl (fun s k =>
      match t.parts[k]? with
      | some p => if p.place = .cache ∨ p.place = .window ∨ p.place = .const then performAt s id k else s
      | none => s) s
  | none => s

/-! ## Returns (07 R254, R255, R267) -/

/-- Whether a WAITC condition holds (07 R267). -/
def waitcMet (w : Warp) (mask thr : Nat) : Bool := (List.range 6).all (fun i => !bit mask i || decide (w.ic i ≤ thr))

/-- Release the WAITCs of a warp whose counters have fallen; one over ic2 is an acquire (07 R247). -/
def waitcTest (s : State) (uid : Nat) : State :=
  match findWarp s uid with
  | some (core, slot, w) =>
    let p := fun (x : Slice) => match x.st with | .park (.waitc m t) => waitcMet w m t | _ => false
    w.gangs.foldl (fun s g =>
      let m := g.mask &&& w.maskWhere p
      if m = 0 then s
      else
        let acq := (w.inMask m).any (fun j => match (w.slice j).st with | .park (.waitc k _) => bit k 2 | _ => false)
        let s := if acq then dropClean s (clusterOf core) w.ctx else s
        wake s core slot m (fun _ => [.void])) s
  | none => s

/-- An operation's count falls, in issue order (07 R255). -/
def lowerIc (s : State) (uid id : Nat) : State :=
  let s := updUid s uid (fun w =>
    match w.flight.find? (fun f => f.id == id) with
    | some f => w.lower f.ic id
    | none => w)
  waitcTest s uid

/-- The result of a lane. -/
def Tx.resOf (t : Tx) (lane : Nat) : Option (List Byte) :=
  (t.parts.flatMap (fun p => p.lanes)).findSome? (fun a => if a.lane = lane then a.res else none)

/-- Write a load's result: zero in lanes that did not perform (07 R258). -/
def landLoad (w : Warp) (now id : Nat) (t : Tx) (d : Dst) (z : MSize) : Warp :=
  let f := fun l => loadVal z ((t.resOf l).getD [])
  let sgn := z == .i8 || z == .i16
  let wide := z == .b64
  let w := if d.nowb then w
    else
      match d.reg, z with
      | .v r, .b128 => (List.range 4).foldl (fun w k => storeLanes w (r + k) false (w.lanesOf t.mask) (fun l => f l / 2 ^ (32 * k))) w
      | _, _ => w.writeReg t.mask d.reg wide sgn f
  (w.unbusy id).fill now id (dstEntry d.reg wide sgn f)

/-- Write an atomic's return: lanes that did not perform keep their value, and show it, or zero with nowb (02 R69, 07 R265). -/
def landAtom (w : Warp) (now id : Nat) (mask : Nat) (d : Dst) (wide sgn : Bool) (res : Nat → Option Nat) : Warp :=
  let old := fun l => match d.reg with
    | .v r => (w.vreg r l).toNat + (if wide then (w.vreg (r + 1) l).toNat * 2 ^ 32 else 0)
    | .s n => ((w.slice (l / 4)).sreg n).toNat
  let f := fun l => match res l with
    | some v => (match d.reg with | .s _ => scalarVal wide sgn v | .v _ => v)
    | none => if d.nowb then 0 else old l
  let w1 := if d.nowb then w
    else match d.reg with
      | .v r => storeLanes w r wide ((w.lanesOf mask).filter (fun l => (res l).isSome)) f
      | .s n => w.updSlices mask (fun j x => if (res (lane0 j)).isSome then x.setS n (BitVec.ofNat 64 (f (lane0 j))) else x)
  (w1.unbusy id).fill now id (dstEntry d.reg (wide || d.reg.isS) false f)

/-- Finish an operation whose parts are all performed: write the result, lower the counter. -/
def finishTx (s : State) (id : Nat) : State :=
  match mget s.txs id with
  | none => s
  | some t =>
    if t.open_ then s
    else
      match t.kind with
      | .load d z =>
        let s := updUid { s with txs := mdel s.txs id } t.uid (fun w => landLoad w s.cycle id t d z)
        lowerIc s t.uid id
      | .atom _ d wide sgn =>
        let s := updUid { s with txs := mdel s.txs id } t.uid (fun w =>
          landAtom w s.cycle id t.mask d wide sgn (fun l => (t.resOf l).map ofBytes))
        lowerIc s t.uid id
      | .store | .cflsh _ => lowerIc { s with txs := mdel s.txs id } t.uid id
      | _ => s

end Sys2Proof.Machine
end

