-- ==== Sys2Proof/Machine/Access.lean ====
section
/-! DEFINITION. The memory words LD to WAITC and the atomics, and the moves that perform and return accesses (07 R256-R267). -/

namespace Sys2Proof.Machine

/-! ## Issue of an access -/

/-- Lanes with data as the lanes of an access. -/
def mkLane (l : Nat) (x : Xlat) (data : List Byte) (opnd swap : Nat) : LaneAcc :=
  ⟨l, x, data, BitVec.ofNat 64 opnd, BitVec.ofNat 64 swap, none⟩

/-- Put an access in flight when the transaction table and the counter have room, and complete the word (07 R234, R255). -/
def issueTx (s : State) (ic : Nat) (t : Tx) (finish : Nat → State → State) : Act :=
  let need := lineCount t.parts
  if (need ≠ 0 ∧ 256 < tableUsed s s.cur.core + need) ∨ 63 ≤ (cw s).ic ic then .stall
  else
    let r := launchTx s (some ic) t
    .done (finish r.1 r.2)

/-- The entry of a loaded value (02 Table register-4). -/
def loadEntry (d : Dst) (z : MSize) (id : Nat) : EntryBody := if z = .b128 then .void else pendEntry d.reg (z == .b64) id

/-- A load's use of fields. -/
def loadUse (x : LoadArgs) (wide : Bool) : Use :=
  { ops := [(x.m.a, wide), (x.m.b, false)], dst := some (x.d, sizeRegs x.size) }

/-- A store's use of fields. -/
def storeUse (x : StoreArgs) (wide : Bool) : Use :=
  { ops := [(x.m.a, wide), (x.m.b, false)], vr := regCodes x.src (sizeRegs x.size), pr := [x.g.p] }

/-- The bytes a store sends from a lane (07 R259). -/
def storeBytes (s : State) (r : Reg) (z : MSize) (l : Nat) : List Byte :=
  match r, z with
  | .v n, .b128 => (List.range 4).flatMap (fun k => toBytes 4 ((cw s).vreg (n + k) l).toNat)
  | _, _ => toBytes z.bytes (regVal s (z == .b64) r l)

/-- The scratchpad bytes of the issuing warp's block, base and length. -/
def blockScratch (s : State) : Nat × Nat :=
  match mget s.blocks (cw s).block with
  | some b => (b.scratchBase, b.scratchBytes)
  | none => (0, 0)

/-- A scratchpad place as a translation. -/
def scratchX (pa : Nat) : Xlat := ⟨pa, 0, true, none⟩

/-- Check the lanes of a scratchpad access: the fault of the lowest faulting lane (07 R257, R260). -/
def scratchLanes (s : State) (n : Nat) (addr : Nat → Nat) (lanes : List Nat) : Except FaultInfo (List (Nat × Xlat)) :=
  let b := blockScratch s
  match lanes.find? (fun l => addr l % n != 0 || decide (b.2 ≤ addr l)) with
  | some l => .error (fltAt (if addr l % n ≠ 0 then 7 else 0x10) (addr l))
  | none => .ok (lanes.map (fun l => (l, scratchX (b.1 + addr l))))

/-- Check the lanes of a window access (07 R261). -/
def windowLanes (s : State) (n : Nat) (addr : Nat → Nat) (lanes : List Nat) : Except FaultInfo (List (Nat × Xlat)) :=
  let ctx := (cw s).ctx
  let bad := fun l => (List.range (n / 4)).any (fun i => (winPlace s ctx (addr l + 4 * i)).isNone)
  match lanes.find? (fun l => addr l % n != 0 || bad l) with
  | some l => .error (fltAt (if addr l % n ≠ 0 then 7 else 0x10) (addr l))
  | none => .ok (lanes.map (fun l => (l, scratchX (addr l))))

/-- One part with all lanes. -/
def onePart (place : Place) (ls : List LaneAcc) : List Part := if ls.isEmpty then [] else [⟨0, place, ls, false⟩]

/-- The parts of a window access, by 256-byte line. -/
def placeParts (place : Place) (ls : List LaneAcc) : List Part := (groupLines true ls).map (fun p => { p with place := place })

/-! ## Loads and stores -/

/-- LD (07 R258). -/
def execLd (x : LoadArgs) (s : State) : Out :=
  issueWord (loadUse x true) (fun s =>
    let r := xlatLanes (clusterOf s.cur.core) (cw s).ctx x.size.bytes .read (effAddr s x.m x.size.bytes) (loadLanes s x.d) s
    match r.1 with
    | .error f => .trap f
    | .ok ls =>
      let home := x.strong.isSome || x.na
      let parts := groupLines home (ls.map (fun q => mkLane q.1 q.2 [] 0 0))
      let t := mkTx r.2 x.strong.isSome x.na (.load x.d x.size) parts
      issueTx r.2 1 t (fun id s =>
        issuePend (traceXlats s (cw s) false (ls.map (·.2))) x.d (sizeRegs x.size) (loadEntry x.d x.size id) id)) s

/-- ST (07 R259). -/
def execSt (x : StoreArgs) (s : State) : Out :=
  issueWord (storeUse x true) (fun s =>
    let r := xlatLanes (clusterOf s.cur.core) (cw s).ctx x.size.bytes .write (effAddr s x.m x.size.bytes) (perfLanes s (some x.g)) s
    match r.1 with
    | .error f => .trap f
    | .ok ls =>
      let home := x.strong.isSome || x.na
      let parts := groupLines home (ls.map (fun q => mkLane q.1 q.2 (storeBytes s x.src x.size q.1) 0 0))
      let t := mkTx r.2 x.strong.isSome x.na .store parts
      issueTx r.2 5 t (fun _ s => retireVoid (traceXlats s (cw s) true (ls.map (·.2))))) s

/-- LDS (07 R260). -/
def execLds (x : LoadArgs) (s : State) : Out :=
  issueWord (loadUse x false) (fun s =>
    match scratchLanes s x.size.bytes (effAddr32 s x.m x.size.bytes) (loadLanes s x.d) with
    | .error f => .trap f
    | .ok ls =>
      let t := mkTx s false false (.load x.d x.size) (onePart .scratch (ls.map (fun q => mkLane q.1 q.2 [] 0 0)))
      issueTx s 0 t (fun id s => issuePend s x.d (sizeRegs x.size) (loadEntry x.d x.size id) id)) s

/-- STS (07 R260). -/
def execSts (x : StoreArgs) (s : State) : Out :=
  issueWord (storeUse x false) (fun s =>
    match scratchLanes s x.size.bytes (effAddr32 s x.m x.size.bytes) (perfLanes s (some x.g)) with
    | .error f => .trap f
    | .ok ls =>
      let t := mkTx s false false .store
        (onePart .scratch (ls.map (fun q => mkLane q.1 q.2 (storeBytes s x.src x.size q.1) 0 0)))
      issueTx s 0 t (fun _ s => retireVoid s)) s

/-- Whether a pass was posted in a cluster in this cycle: a tile instruction that reaches the engine now is ordered in front of it, and so
issues in a later cycle here (10 R334). -/
def postedNow (s : State) (cl : Nat) : Bool :=
  match (clustOf s cl).postLast with
  | some (c, _) => c == s.cycle
  | none => false

/-- Whether lanes of a window access reach accumulator slots of a cluster that has posted a pass in this cycle. -/
def tilePosted (s : State) (ls : List (Nat × Xlat)) : Bool :=
  ls.any (fun q => match winPlace s (cw s).ctx q.2.pa with
    | some (.acc c _ _) => postedNow s c
    | _ => false)

/-- LDW (07 R261): the effective address is a physical one. -/
def execLdw (x : LoadArgs) (s : State) : Out :=
  issueWord (loadUse x true) (fun s =>
    match windowLanes s x.size.bytes (effAddr s x.m x.size.bytes) (loadLanes s x.d) with
    | .error f => .trap f
    | .ok ls =>
      if tilePosted s ls then .stall
      else
      let t := mkTx s false false (.load x.d x.size) (placeParts .window (ls.map (fun q => mkLane q.1 q.2 [] 0 0)))
      issueTx s 1 t (fun id s => issuePend s x.d (sizeRegs x.size) (loadEntry x.d x.size id) id)) s

/-- STW (07 R261). -/
def execStw (x : StoreArgs) (s : State) : Out :=
  issueWord (storeUse x true) (fun s =>
    match windowLanes s x.size.bytes (effAddr s x.m x.size.bytes) (perfLanes s (some x.g)) with
    | .error f => .trap f
    | .ok ls =>
      if tilePosted s ls then .stall
      else
      let t := mkTx s false false .store
        (placeParts .window (ls.map (fun q => mkLane q.1 q.2 (storeBytes s x.src x.size q.1) 0 0)))
      issueTx s 5 t (fun _ s => retireVoid s)) s

/-- The argument area of the issuing warp's launch: pointer and length (12 Table kernel-1). -/
def argArea (s : State) : Nat × Nat :=
  match mget s.launches (cw s).launch with
  | some l => (fld l.pkt 16 8, fld l.pkt 24 4)
  | none => (0, 0)

/-- The parts of an LDC: host memory is never cached (06 R198). -/
def constParts (ls : List LaneAcc) : List Part := (groupLines true ls).map (fun p => if p.place = .host then p else { p with place := .const })

/-- LDC (07 R262): lanes beyond the area receive zero and raise nothing. -/
def execLdc (x : LoadArgs) (s : State) : Out :=
  issueWord (loadUse x false) (fun s =>
    let n := x.size.bytes
    let area := argArea s
    let off := effAddr32 s x.m n
    let lanes := (loadLanes s x.d).filter (fun l => decide (off l + n ≤ area.2))
    let r := xlatLanes (clusterOf s.cur.core) (cw s).ctx n .read (fun l => area.1 + off l) lanes s
    match r.1 with
    | .error f => .trap f
    | .ok ls =>
      let parts := constParts (ls.map (fun q => mkLane q.1 q.2 [] 0 0))
      issueTx r.2 1 (mkTx r.2 false false (.load x.d x.size) parts) (fun id s =>
        issuePend (traceXlats s (cw s) false (ls.map (·.2))) x.d (sizeRegs x.size) (loadEntry x.d x.size id) id)) s

/-! ## Cache words -/

/-- The fields of PREF, CFLSH and CINV. -/
def cacheUse (x : CacheArgs) : Use := { ops := [(x.m.a, true), (x.m.b, false)] }

/-- Translate the addresses of a cache word as reads. -/
def cacheXlat (x : CacheArgs) (s : State) : Except FaultInfo (List (Nat × Xlat)) × State :=
  xlatLanes (clusterOf s.cur.core) (cw s).ctx 1 .read (effAddr s x.m 1) (perfLanes s none) s

/-- PREF (07 R263): a hint; dropped where it would fault, on a page with nc = 1, or with a full table. -/
def execPref (x : CacheArgs) (s : State) : Out :=
  issueWord (cacheUse x) (fun s =>
    match cacheXlat x s with
    | (.error _, _) => .done (retireVoid s)
    | (.ok ls, t) =>
      if 256 ≤ tableUsed s s.cur.core ∨ ls.any (fun q => q.2.nc || !inDevice q.2.pa) then .done (retireVoid s)
      else
        .done (retireVoid (ls.foldl (fun s q =>
          let pa := q.2.pa / 64 * 64
          if x.opt then (homeRead s q.2.key pa 64).2
          else (cacheRead s (clusterOf s.cur.core) (cw s).ctx q.2.key pa 64).2) t))) s

/-- The parts of a CFLSH: it takes an entry for every line, and acts on those that a cluster cache may hold (07 R234, R264). -/
def flushParts (ls : List LaneAcc) : List Part := (groupLines false ls).map (fun p => { p with done := p.place != .cache })

/-- CFLSH (07 R264). -/
def execCflsh (x : CacheArgs) (s : State) : Out :=
  issueWord (cacheUse x) (fun s =>
    match cacheXlat x s with
    | (.error f, _) => .trap f
    | (.ok ls, t) =>
      issueTx t 5 (mkTx t false false (.cflsh x.opt) (flushParts (ls.map (fun q => mkLane q.1 q.2 [] 0 0)))) (fun _ s => retireVoid s)) s

/-- Drop the clean sectors of a line (07 R264). -/
def dropSectors (s : State) (cl line : Nat) : State :=
  match mget s.ccache (cKey cl line) with
  | none => s
  | some c =>
    if c.dirty = 0 then { s with ccache := mdel s.ccache (cKey cl line) }
    else
      let keep := maskOf ((List.range 4).filter (fun q => (List.range 64).any (fun i => c.dirty.getLsbD (64 * q + i))))
      { s with ccache := mset s.ccache (cKey cl line) { c with valid := c.valid &&& keep } }

/-- An earlier access of the issuing warp to a line, not yet performed at the cache. -/
def lineBusy (s : State) (line : Nat) : Bool :=
  s.txs.any (fun u => u.2.uid == (cw s).uid && u.2.parts.any (fun q => !q.done && q.place == .cache && q.lines.contains line))

/-- CINV (07 R264): it meets a line after the warp's earlier accesses to the line (R240), and takes a table entry for each line, which
is free again at once (R234). -/
def execCinv (x : CacheArgs) (s : State) : Out :=
  issueWord (cacheUse x) (fun s =>
    match cacheXlat x s with
    | (.error f, _) => .trap f
    | (.ok ls, t) =>
      if ls.any (fun q => lineBusy s (q.2.pa / 256)) ∨ 256 < tableUsed s s.cur.core + ((ls.map (fun q => q.2.pa / 256)).eraseDups).length then
        .stall
      else .done (retireVoid (ls.foldl (fun s q =>
        if q.2.nc || !inDevice q.2.pa then s else dropSectors s (clusterOf s.cur.core) (q.2.pa / 256)) t))) s

/-! ## FENCE and WAITC -/

/-- FENCE (07 R266): later words issue while it waits. -/
def execFence (scope : Scope) (kind : FenceKind) (s : State) : Out :=
  issueWord {} (fun s =>
    .done (retireVoid (if scope = .warp then s else putFence s s.cur.core s.cur.slot 0xFFFF (.fence scope kind)))) s

/-- Whether a scope is stack or wider. -/
def scopeWide : Scope → Bool
  | .stk | .dev | .domain => true
  | _ => false

/-- Every earlier remote operation of a warp has been answered (15 R456). -/
def remotesDone (s : State) (uid before : Nat) : Bool :=
  s.txs.all (fun t => !(decide (t.1 < before) && t.2.uid == uid && (match t.2.kind with | .remote _ _ _ _ _ _ => true | _ => false)))

/-- The cache work of a fence at stack scope or wider (07 Table access-2). -/
def fenceCache (s : State) (cl ctx : Nat) (kind : FenceKind) : State :=
  let s := if kind = .acq then s else cleanCtx s cl ctx
  if kind = .rel then s else dropClean s cl ctx

/-- FENCE_COMPLETE (07 R266, 15 R456): nothing happens while the fence must wait. -/
def execFenceComplete (core slot id : Nat) (s : State) : Out :=
  match mget s.txs id with
  | none => .next s
  | some t =>
    if t.core ≠ core ∨ t.slot ≠ slot then .next s
    else
      match t.kind with
      | .fence scope kind =>
        if accessesDone s t.uid t.mask id && (!scopeWide scope || sketchesDone s t.uid id) &&
            (scope != .domain || remotesDone s t.uid id) then
          let s := { s with txs := mdel s.txs id }
          .next (if scopeWide scope then fenceCache s (clusterOf core) t.ctx kind else s)
        else .next s
      | .rfence => if remotesDone s t.uid id then .next { s with txs := mdel s.txs id } else .next s
      | _ => .next s

/-- WAITC (07 R267): met at issue, or parked; over ic2 the return is an acquire (07 R247). -/
def execWaitc (mask : Nat) (t : WaitThreshold) (s : State) : Out :=
  issueWord { ops := match t with | .imm _ => [] | .opnd a => [(a, false)] } (fun s =>
    let thr := match t with
      | .imm n => n
      | .opnd a => op32 s a (lane0 (curLow s))
    if waitcMet (cw s) mask thr then
      .done (retireSwitch (if bit mask 2 then dropClean s (clusterOf s.cur.core) (cw s).ctx else s) (fun _ => [.void]))
    else .done (park s (.waitc mask thr))) s

/-! ## Atomics (07 R251, R265) -/

/-- The registers of a .cas group: compare and swap (07 R265). -/
def casPair (s : State) (o : Opnd) (wide : Bool) (l : Nat) : Nat × Nat :=
  match o with
  | .reg (.v n) => if wide then (regVal s true (.v n) l, regVal s true (.v (n + 2)) l) else (regVal s false (.v n) l, regVal s false (.v (n + 1)) l)
  | .reg (.s n) => (regVal s wide (.s n) l, regVal s wide (.s (n + 1)) l)
  | _ => (0, 0)

/-- The operand type of an atomic. -/
def atomTy (op : AtomOp) (wide : Bool) : Ty :=
  match op with
  | .fadd => if wide then .f64 else .f32
  | _ => if wide then .n64 else .n32

/-- Operand and swap value of a lane. -/
def atomVals (s : State) (op : AtomOp) (c : Opnd) (wide : Bool) (l : Nat) : Nat × Nat :=
  match op with
  | .cas => casPair s c wide l
  | _ => (opVal s (atomTy op wide) wide c l, 0)

/-- An atomic's use of fields. -/
def atomUse (x : AtomArgs) (op : AtomOp) (wide : Bool) : Use :=
  { ops := [(x.a, wide), (x.b, false)] ++ (if op = .cas then [] else [(x.c, x.wide)])
    vr := (match op, x.c with | .cas, .reg r => regCodes r (if x.wide then 4 else 2) | _, _ => []) ++
      (if x.d.nowb then [] else regCodes x.d.reg (if x.wide then 2 else 1))
    pr := [x.g.p], dst := some (x.d, if x.wide then 2 else 1) }

/-- The memory operand of an atomic: no offset. -/
def atomMem (x : AtomArgs) : MemOpnd := ⟨x.a, x.b, 0⟩

/-- ATOM: performed at the home, counted on ic1 (07 R265). -/
def atomWord (op : AtomOp) (x : AtomArgs) (s : State) : Out :=
  issueWord (atomUse x op true) (fun s =>
    let n := if x.wide then 8 else 4
    let r := xlatLanes (clusterOf s.cur.core) (cw s).ctx n .rmw (effAddr s (atomMem x) n) (perfLanes s (some x.g)) s
    match r.1 with
    | .error f => .trap f
    | .ok ls =>
      let parts := groupLines true (ls.map (fun q => let v := atomVals s op x.c x.wide q.1; mkLane q.1 q.2 [] v.1 v.2))
      issueTx r.2 1 (mkTx r.2 true false (.atom op x.d x.wide x.sgn) parts) (fun id s =>
        issuePend (traceVolatile s (cw s)) x.d (if x.wide then 2 else 1) (pendEntry x.d.reg x.wide id) id)) s

/-- ATOMS: performed at the scratchpad as one event, counted on ic0 (07 R251, R265). -/
def atomsWord (op : AtomOp) (x : AtomArgs) (s : State) : Out :=
  issueWord (atomUse x op false) (fun s =>
    let n := if x.wide then 8 else 4
    match scratchLanes s n (effAddr32 s (atomMem x) n) (perfLanes s (some x.g)) with
    | .error f => .trap f
    | .ok ls =>
      let parts := onePart .scratch (ls.map (fun q => let v := atomVals s op x.c x.wide q.1; mkLane q.1 q.2 [] v.1 v.2))
      issueTx s 0 (mkTx s true false (.atom op x.d x.wide x.sgn) parts) (fun id s =>
        issuePend s x.d (if x.wide then 2 else 1) (pendEntry x.d.reg x.wide id) id)) s

/-- ATOM.add (07 R265). -/
def execAtomAdd (x : AtomArgs) (s : State) : Out := atomWord .add x s
/-- ATOM.min. -/
def execAtomMin (x : AtomArgs) (s : State) : Out := atomWord .min x s
/-- ATOM.max. -/
def execAtomMax (x : AtomArgs) (s : State) : Out := atomWord .max x s
/-- ATOM.and. -/
def execAtomAnd (x : AtomArgs) (s : State) : Out := atomWord .and x s
/-- ATOM.or. -/
def execAtomOr (x : AtomArgs) (s : State) : Out := atomWord .or x s
/-- ATOM.xor. -/
def execAtomXor (x : AtomArgs) (s : State) : Out := atomWord .xor x s
/-- ATOM.exch. -/
def execAtomExch (x : AtomArgs) (s : State) : Out := atomWord .exch x s
/-- ATOM.cas. -/
def execAtomCas (x : AtomArgs) (s : State) : Out := atomWord .cas x s
/-- ATOM.fadd. -/
def execAtomFadd (x : AtomArgs) (s : State) : Out := atomWord .fadd x s
/-- ATOMS.add (07 R265). -/
def execAtomsAdd (x : AtomArgs) (s : State) : Out := atomsWord .add x s
/-- ATOMS.min. -/
def execAtomsMin (x : AtomArgs) (s : State) : Out := atomsWord .min x s
/-- ATOMS.max. -/
def execAtomsMax (x : AtomArgs) (s : State) : Out := atomsWord .max x s
/-- ATOMS.and. -/
def execAtomsAnd (x : AtomArgs) (s : State) : Out := atomsWord .and x s
/-- ATOMS.or. -/
def execAtomsOr (x : AtomArgs) (s : State) : Out := atomsWord .or x s
/-- ATOMS.xor. -/
def execAtomsXor (x : AtomArgs) (s : State) : Out := atomsWord .xor x s
/-- ATOMS.exch. -/
def execAtomsExch (x : AtomArgs) (s : State) : Out := atomsWord .exch x s
/-- ATOMS.cas. -/
def execAtomsCas (x : AtomArgs) (s : State) : Out := atomsWord .cas x s
/-- ATOMS.fadd. -/
def execAtomsFadd (x : AtomArgs) (s : State) : Out := atomsWord .fadd x s

/-! ## Performing and returning (07 R229, R233, R236, R254) -/

/-- The accumulator slots a pass writes (10 R330). -/
def Pass.slots (p : Pass) : List Nat := if !p.lut && decide (6 ≤ p.fmt) then [p.tile, p.tile + 1] else [p.tile]

/-- Whether a context is being pre-empted by force (14 R427, R428). -/
def isPreempting (s : State) (ctx : Nat) : Bool :=
  match ctxOf s ctx with
  | some c => c.st == .preempting && (match c.pre with | some q => q.forced | none => false)
  | none => false

/-- Whether an operation still has an access to an accumulator slot of a cluster to perform. -/
def txOnSlot (s : State) (cl slot : Nat) (t : Tx) : Bool :=
  t.parts.any (fun p => p.place == .window && !p.done && p.lanes.any (fun a =>
    match winPlace s t.ctx a.x.pa with
    | some (.acc c k _) => c == cl && k == slot
    | _ => false))

/-- Whether a tile instruction still waits: its gang is at its word (10 R334). -/
def waitsHere (s : State) (t : TileWait) : Bool :=
  match findWarp s t.uid with
  | some (_, _, w) => w.gangs.any (fun g => g.mask == t.mask)
  | none => false

/-- Whether something earlier in a slot's tile order has not ended (10 R334). With `near` a pass that waits or has stopped while its
context is pre-empted holds nothing back: the window accesses in flight are performed before the save (07 R261). -/
def slotHeld (s : State) (cl slot order : Nat) (near : Bool) : Bool :=
  let c := clustOf s cl
  c.passes.any (fun p => decide (p.2.order < order) && p.2.slots.contains slot &&
      (p.2.st == .running || ((p.2.st == .waiting || p.2.st == .stopped) && !near))) ||
    c.tileWaits.any (fun t => decide (t.order < order) && t.slots.contains slot && waitsHere s t && !near) ||
    s.txs.any (fun t => decide (t.1 < order) && txOnSlot s cl slot t.2)

/-- Whether an operation's window accesses wait at a matrix engine. -/
def txHeld (s : State) (id : Nat) (t : Tx) : Bool :=
  t.parts.any (fun p => p.place == .window && p.lanes.any (fun a =>
    match winPlace s t.ctx a.x.pa with
    | some (.acc c slot _) => slotHeld s c slot id (isPreempting s t.ctx)
    | _ => false))

/-- Perform what is performed near the core, and finish the operation when it is an access of a kind. -/
def finishNear (s : State) (id : Nat) (p : TxKind → Bool) : State :=
  match mget s.txs id with
  | some t => if p t.kind && !txHeld s id t && t.parts.all (fun q => q.place != .scratch) then finishTx (performNear s id) id else s
  | none => s

/-- LOAD_VALUE_RETURN (07 R254): a load or atomic whose value is fixed is written to its destination. -/
def execLoadValueReturn (id : Nat) (s : State) : Out :=
  .next (finishNear s id (fun k => match k with | .load _ _ => true | .atom _ _ _ _ => true | _ => false))

/-- STORE_PERFORMED (07 R254). -/
def execStorePerformed (id : Nat) (s : State) : Out :=
  .next (finishNear s id (fun k => match k with | .store => true | .cflsh _ => true | _ => false))

/-- The scratchpad operations of a core in flight. -/
def scratchTxs (s : State) (core : Nat) : List (Nat × Tx) :=
  s.txs.filter (fun t => t.2.core == core && t.2.parts.any (fun p => p.place == .scratch))

/-- SCRATCHPAD_ACCESS (07 R236): in the order in which the core issued them. -/
def execScratchpadAccess (id : Nat) (s : State) : Out :=
  match mget s.txs id with
  | some t =>
    if t.parts.any (fun p => p.place == .scratch) && (scratchTxs s t.core).all (fun u => decide (id ≤ u.1)) then
      .next (finishTx (performAt s id 0) id)
    else .next s
  | none => .next s

/-- The place of a part of an operation. -/
def partPlace (s : State) (id part : Nat) : Option Place :=
  match mget s.txs id with
  | some t => (t.parts[part]?).map (fun p => p.place)
  | none => none

/-- HOME_ACCESS (07 R233): a part that arrives at its home is performed there. -/
def execHomeAccess (id part : Nat) (s : State) : Out :=
  .next (if partPlace s id part = some .home then performAt s id part else s)

/-- The lines that the pieces of a range reach now, as an agent of the device translates them. -/
def rangeLines (s : State) (ctx va n : Nat) (kind : AccessKind) : List Nat :=
  match (xlatPieces devCl ctx kind (pieces va n) s).1 with
  | .ok xs => xs.map (fun x => resolve s ctx x false / 256)
  | .error _ => []

/-- The bytes a host read returns; an error where a page faults (06 R211). -/
def hostRead (s : State) (ctx va len : Nat) : Except Nat (List Byte) × State :=
  readVa (arrive s hostRank (rangeLines s ctx va len .read)) devCl ctx va len

/-- A host write through a context's mapping; nothing is written where a page faults. -/
def hostWrite (s : State) (ctx va : Nat) (bs : List Byte) : State :=
  (writeVa (arrive s hostRank (rangeLines s ctx va bs.length .write)) devCl ctx 0 va bs).2

end Sys2Proof.Machine
end

