-- ==== Sys2Proof/Machine/Waits.lean ====
section
/-! DEFINITION. Barriers and timed waits: BAR, BARA, BARW, CBAR, TDEC, TWAIT, FLGW, BKW, BKARM and the moves that answer them
(08 R268-R290). -/

namespace Sys2Proof.Machine

/-- A release: every earlier access of the issuing slices is performed (08 R273). -/
def released (s : State) : Bool := accessesDone s (cw s).uid s.cur.mask s.nextId

/-- A release of the whole warp at device scope. -/
def releasedAll (s : State) : Bool := accessesDone s (cw s).uid 0xFFFF s.nextId && sketchesDone s (cw s).uid s.nextId

/-! ## Barriers -/

/-- The count of a barrier word, taken as its limit when above (08 R274). -/
def barCount (s : State) (n : BarCount) (lim : Nat) : Nat :=
  match n with
  | .imm k => clampN k lim
  | .opnd a => clampN (op32 s a (lane0 (curLow s))) lim

/-- The operands of a count. -/
def countOps : BarCount → List (Opnd × Bool)
  | .imm _ => []
  | .opnd a => [(a, false)]

/-- The issuing warp's cluster-block. -/
def curCb (s : State) : Nat := match mget s.blocks (cw s).block with | some b => b.cb | none => 0

/-- Arrive with the issuing slices. -/
def arriveHere (s : State) (b : BarrierRef) (n : Nat) : Nat × State := barArrive s b s.cur.core s.cur.slot s.cur.mask n

/-- BAR (08 R275): met at issue when the arrival completes the generation. -/
def execBar (id : Nat) (n : BarCount) (s : State) : Out :=
  issueWord { ops := countOps n } (fun s =>
    if !released s then .stall
    else
      let b := BarrierRef.block (cw s).block id
      let r := arriveHere s b (barCount s n 16)
      if (barOf r.2 b).gen.toNat ≠ r.1 then .done (retireSwitch r.2 (fun _ => [.void])) else .done (park r.2 (.barrier b r.1))) s

/-- BARA (08 R276): the token is the generation in which the arrival counted. -/
def execBara (d : Dst) (id : Nat) (n : BarCount) (s : State) : Out :=
  issueWord { ops := countOps n, dst := some (d, 1) } (fun s =>
    if !released s then .stall
    else
      let r := arriveHere s (.block (cw s).block id) (barCount s n 16)
      .done (wbLanes r.2 d false false 2 (fun _ => r.1))) s

/-- BARW (08 R277). -/
def execBarw (a : Opnd) (id : Nat) (clu : Bool) (s : State) : Out :=
  issueWord { ops := [(a, false)] } (fun s =>
    let b := if clu then BarrierRef.clu (curCb s) id else BarrierRef.block (cw s).block id
    let t := op32 s a (lane0 (curLow s))
    if (barOf s b).gen.toNat ≠ t then .done (retireSwitch s (fun _ => [.void])) else .done (park s (.barrier b t))) s

/-- CBAR (08 R278). -/
def execCbar (d : Dst) (id : Nat) (n : BarCount) (s : State) : Out :=
  issueWord { ops := countOps n, dst := some (d, 1) } (fun s =>
    if !released s then .stall
    else
      let r := arriveHere s (.clu (curCb s) id) (barCount s n 64)
      .done (wbLanes r.2 d false false 2 (fun _ => r.1))) s

/-- BARRIER_COMPLETE (08 R272). -/
def execBarrierComplete (b : BarrierRef) (s : State) : Out := .next (barTest s b)

/-! ## Task counters (08 R280) -/

/-- TDEC: a release at device scope, then the decrement goes to the scheduler. -/
def execTdec (a b : Opnd) (s : State) : Out :=
  issueWord { ops := [(a, false), (b, false)] } (fun s =>
    if !releasedAll s then .stall
    else
      let h := op32 s a (lane0 (curLow s))
      let k := op32 s b (lane0 (curLow s))
      let s := traceVolatile (cleanCtx s (clusterOf s.cur.core) (cw s).ctx) (cw s)
      .done (retireVoid (sendDecrOf s (cw s).uid (cw s).ctx h k))) s

/-! ## Timed waits (08 R282-R286) -/

/-- The operands of a timed wait at the lowest lane of the lowest issuing slice. -/
def lowOp (s : State) (wide : Bool) (o : Opnd) : Nat :=
  if wide then op64 s o (lane0 (curLow s)) else op32 s o (lane0 (curLow s))

/-- TWAIT (08 R285): parks until the scheduler answers. -/
def execTwait (p : Nat) (a b c : Opnd) (s : State) : Out :=
  issueWord { ops := [(a, false), (b, false), (c, false)], pd := some ⟨p, false⟩ } (fun s =>
    .done (park (traceVolatile s (cw s)) (.twait p (lowOp s false a) (lowOp s false b) (lowOp s false c) s.cycle false))) s

/-- A physical window address (06 Table page-1). -/
def inWindow (a : Nat) : Bool :=
  (decide (0xFF00000000000 ≤ a) && decide (a < 0xFF00060000000)) || (decide (0xFF00080000000 ≤ a) && decide (a < 0xFF00086000000))

/-- Earlier accesses of the warp that a strong read of lines follows: fences, strong accesses, accesses to the lines. -/
def strongBehind (s : State) (uid : Nat) (lines : List Nat) : Bool :=
  s.txs.any (fun t => t.2.uid == uid &&
    (match t.2.kind with
      | .fence _ _ | .tlbi | .rfence => true
      | k => k.isAccess && t.2.open_ && (t.2.strong || t.2.parts.any (fun p =>
        !p.done && p.place != .scratch && (p.isStrong t.2 || p.lines.any (fun l => lines.contains l))))))

/-- The lines that a translated unit may lie in. -/
def xlatLines (x : Xlat) : List Nat := Part.lines ⟨x.pa / 256, .home, [⟨0, x, [], 0, 0, none⟩], false⟩

/-- FLGW (08 R284): a strong read of the unit, which parks until a value meets the condition. -/
def execFlgw (x : FlgwArgs) (s : State) : Out :=
  issueWord { ops := [(x.a, true), (x.b, x.wide), (x.c, false)], pd := some ⟨x.p, false⟩ } (fun s =>
    let ea := lowOp s true x.a
    let cl := clusterOf s.cur.core
    if ea % (if x.wide then 8 else 4) ≠ 0 then .trap (fltAt 7 ea)
    else
      match translate s cl (cw s).ctx ea .read with
      | (.error f, _) => .trap (fltPage ea f)
      | (.ok xl, t) =>
        if inWindow ea then .trap (fltAt 0x10 ea)
        else if strongBehind s (cw s).uid (xlatLines xl) then .stall
        else
          let t := lineEvict t cl (resolve t (cw s).ctx xl false / 256)
          .done (park (traceVolatile t (cw t))
            (.flgw x.p xl (BitVec.ofNat 64 (lowOp s x.wide x.b)) x.cc x.wide x.dev (lowOp s false x.c) s.cycle none))) s

/-- BKW (08 R286). -/
def execBkw (p : Nat) (a c : Opnd) (s : State) : Out :=
  issueWord { ops := [(a, false), (c, false)], pd := some ⟨p, false⟩ } (fun s =>
    .done (park (traceVolatile s (cw s)) (.bkw p (lowOp s false a) (lowOp s false c) s.cycle none))) s

/-- The answer of a timed wait: the predicate in every lane, the result as the entry, and with 1 an acquire (08 R283). -/
def answerWait (s : State) (core slot mask pd : Nat) (res : Bool) : State :=
  let w := warpOf s core slot
  let s := if res then dropClean s (clusterOf core) w.ctx else s
  let s := updWarp s core slot (fun w => (w.lanesOf mask).foldl (fun w l => w.setP pd l res) w)
  wake s core slot mask (fun _ => [.e32 (List.replicate 4 (BitVec.ofNat 32 (b2n res)))])

/-- The gang of a slice. -/
def Warp.gangOf (w : Warp) (j : Nat) : Nat := match w.gangs.find? (fun g => bit g.mask j) with | some g => g.mask | none => 0

/-- Whether a context holds a buckle. -/
def holdsBuckle (s : State) (ctx n : Nat) : Bool :=
  match ctxOf s ctx with
  | some c => decide (n < 64) && c.buckles.contains n
  | none => false

/-- What the answering agent finds: no answer yet, or a result (08 R283-R286). -/
def waitTest (s : State) (ctx : Nat) (o : WaitObj) : Option Bool :=
  match o with
  | .twait _ node thr _ _ _ =>
    match nodeOf s ctx node with
    | none => some false
    | some (_, _, n) => if n.count.toNat ≤ thr then some true else none
  | .flgw _ x c cc wide _ _ _ hit =>
    if hit == some true || flgCond cc wide (readNum s x.key (resolve s ctx x false) (if wide then 8 else 4)) c.toNat then some true else none
  | .bkw _ n _ _ _ =>
    if holdsBuckle s ctx n && (match mget s.buckles n with | some b => b.fastened | none => false) then some true else none
  | _ => none

/-- The predicate, the time-out and the start of a timed wait. -/
def WaitObj.timed (o : WaitObj) : Option (Nat × Nat × Nat) :=
  match o with
  | .twait p _ _ tmo t0 _ => some (p, tmo, t0)
  | .flgw p _ _ _ _ _ tmo t0 _ => some (p, tmo, t0)
  | .bkw p _ tmo t0 _ => some (p, tmo, t0)
  | _ => none

/-- The tie of a buckle as a context sees it, 0 for none. -/
def tieOf (s : State) (ctx n : Nat) : Nat :=
  if holdsBuckle s ctx n then (match mget s.buckles n with | some b => b.tie | none => 0) else 0

/-- A timed wait after an answer that left it parked: a first answer is remembered, and what a BKW's found (08 R284-R286). -/
def WaitObj.answered (s : State) (ctx : Nat) (o : WaitObj) : WaitObj :=
  match o with
  | .twait p n h tmo t0 _ => .twait p n h tmo t0 true
  | .flgw p x c cc w v tmo t0 hit => .flgw p x c cc w v tmo t0 (some (hit.getD false))
  | .bkw p n tmo t0 seen => .bkw p n tmo t0 (some (seen.getD (tieOf s ctx n)))
  | o => o

/-- A BKW whose first answer found a tie that has ended since (08 R286). -/
def tieGone (s : State) (ctx : Nat) (o : WaitObj) : Bool :=
  match o with
  | .bkw _ n _ _ (some k) => k != 0 && tieOf s ctx n != k
  | _ => false

/-- The answering agent has not yet made its first test of a wait. -/
def WaitObj.unasked (o : WaitObj) : Bool :=
  match o with
  | .twait _ _ _ _ _ q => !q
  | .flgw _ _ _ _ _ _ _ _ hit => hit.isNone
  | .bkw _ _ _ _ seen => seen.isNone
  | _ => false

/-- A first test that cannot be made yet: a TWAIT follows the warp's own decrements of its node to the scheduler (08 R280). -/
def askedLater (s : State) (w : Warp) (o : WaitObj) : Bool :=
  match o with
  | .twait _ node _ _ _ false => s.decrs.any (fun d => d.uid == w.uid && d.ctx == w.ctx && d.handle == node)
  | _ => false

/-- One answer to the timed wait of a slice's gang (08 R283): a tie that ended, the condition, or, with the time-out or where the wait
tests once, 0. -/
def answerSlice (s : State) (core slot slice : Nat) (expire : Bool) : State :=
  let w := warpOf s core slot
  match (w.slice slice).st with
  | .park o =>
    match o.timed with
    | none => s
    | some (p, tmo, t0) =>
      let m := w.gangOf slice
      if askedLater s w o then s
      else if tieGone s w.ctx o then openFault s core slot m (flt 0x15) true
      else
        match waitTest s w.ctx o with
        | some r => answerWait s core slot m p r
        | none =>
          if tmo = 0 ∨ (expire ∧ tmo ≠ 0xFFFFFFFF ∧ w.stopped.isNone ∧ tmo ≤ s.cycle - t0) then answerWait s core slot m p false
          else updWarp s core slot (fun w => w.updSlices m (fun _ x =>
            match x.st with | .park o => { x with st := .park (o.answered s w.ctx) } | _ => x))
  | _ => s

/-- Answer again every wait that meets a test and has had its first answer. -/
def answerAll (s : State) (p : Warp → WaitObj → Bool) : State :=
  (allWarps s).foldl (fun s q =>
    q.2.2.gangs.foldl (fun s g =>
      let w := warpOf s q.1 q.2.1
      match (w.slice (w.lowSlice g.mask)).st with
      | .park o => if p w o && !o.unasked then answerSlice s q.1 q.2.1 (w.lowSlice g.mask) false else s
      | _ => s) s) s

/-- TIMED_WAIT_ANSWER (08 R283). -/
def execTimedWaitAnswer (core slot slice : Nat) (s : State) : Out := .next (answerSlice s core slot slice false)

/-- TIMED_WAIT_TIMEOUT (08 R283): the answering agent tests first. -/
def execTimedWaitTimeout (core slot slice : Nat) (s : State) : Out := .next (answerSlice s core slot slice true)

/-- FLGW_HOST_POLL (08 R284): the endpoint reads a host unit again. -/
def execFlgwHostPoll (core slot slice : Nat) (s : State) : Out :=
  match ((warpOf s core slot).slice slice).st with
  | .park (.flgw _ x _ _ _ _ _ _ _) => .next (if inHost x.pa then answerSlice s core slot slice false else s)
  | _ => .next s

/-- Release the TWAITs that a change of a node's counter meets (08 R285). -/
def testTwaits (s : State) (ctx node : Nat) : State :=
  answerAll s (fun w o => match o with | .twait _ n _ _ _ _ => w.ctx == ctx && n == node | _ => false)

/-- Release or fault the BKWs on a buckle whose tie changes: fastened releases; a tie that ends faults the waits that it found tied
(08 Table barrier-7). -/
def testBkws (s : State) (n : Nat) : State :=
  answerAll s (fun _ o => match o with | .bkw _ b _ _ _ => b == n | _ => false)

/-! ## Buckets (08 R290) -/

/-- Complete a word whose status goes to a destination. -/
def wbStatus (s : State) (d : Dst) (v : Nat) : Act := .done (wbLanes s d false false 2 (fun _ => v))

/-- Whether a context holds a bucket. -/
def holdsBucket (s : State) (n : Nat) : Bool :=
  match ctxOf s (cw s).ctx with
  | some c => decide (n < 256) && c.buckets.contains n
  | none => false

/-- The pages of a range, by their first address in it. -/
def pagesOf (va n : Nat) : List Nat :=
  if n = 0 then [] else (List.range ((va % 4096 + n + 4095) / 4096)).map (fun i => if i = 0 then va else (va / 4096 + i) * 4096)

/-- Translate the pages of a range for an access: the first fault, or the translations. -/
def xlatRange (cl ctx : Nat) (kind : AccessKind) : List Nat → State → Except FaultInfo (List (Nat × Xlat)) × State
  | [], s => (.ok [], s)
  | a :: t, s =>
    match translate s cl ctx a kind with
    | (.error p, s) => (.error (fltPage a p), s)
    | (.ok x, s) =>
      match xlatRange cl ctx kind t s with
      | (.ok r, s) => (.ok ((a, x) :: r), s)
      | (.error f, s) => (.error f, s)

/-- Whether translated pages form one contiguous run of plain device memory on one stack. -/
def oneRun (xs : List (Nat × Xlat)) (va n : Nat) : Bool :=
  match xs with
  | [] => false
  | x0 :: _ =>
    xs.all (fun x => x.2.twin.isNone && inDevice x.2.pa && x.2.pa == x0.2.pa + (x.1 - va)) &&
      x0.2.pa / 2 ^ 37 == (x0.2.pa + n - 1) / 2 ^ 37

/-- The access by which a word loads translated units itself, as a weak load does. -/
def unitLoad (s : State) (d : Dst) (xs : List (Nat × Xlat)) : Tx :=
  mkTx s false false (.load d .b64) (groupLines false (xs.map (fun q => mkLane 0 q.2 [] 0 0)))

/-- Whether such a load must wait for earlier operations of its warp (07 R241, R244). -/
def unitsWait (s : State) (d : Dst) (xs : List (Nat × Xlat)) : Bool :=
  !(unitLoad s d xs).parts.all (partReady s s.nextId (unitLoad s d xs))

/-- Load translated units of 8 bytes: in the cluster's cache or at the home (07 Table access-1). -/
def loadUnits (cl ctx : Nat) : List (Nat × Xlat) → State → List Byte × State
  | [], s => ([], s)
  | q :: t, s =>
    let r := if placeOf q.2 false = .cache then cacheRead s cl ctx q.2.key q.2.pa 8 else homeRead s q.2.key (resolve s ctx q.2 false) 8
    let m := loadUnits cl ctx t r.2
    (r.1 ++ m.1, m.2)

/-- BKARM (08 R290). -/
def execBkarm (d : Dst) (a b : Opnd) (s : State) : Out :=
  issueWord { ops := [(a, false), (b, true)], dst := some (d, 1) } (fun s =>
    let n := lowOp s false a
    let va := lowOp s true b
    let cl := clusterOf s.cur.core
    let s := traceVolatile s (cw s)
    if !holdsBucket s n then wbStatus s d 4
    else if va % 8 ≠ 0 then .trap (fltAt 7 va)
    else
      match xlatRange cl (cw s).ctx .read ((pieces va 32).map (·.1)) s with
      | (.error f, _) => .trap f
      | (.ok ds, u) =>
        if unitsWait u d ds then .stall
        else
        let r := loadUnits cl (cw u).ctx ds u
        let t := r.2
        let bs := r.1
        let base := fld bs 0 8
        let len := fld bs 8 4
        let total := fld bs 16 8
        if fld bs 12 4 ≠ 0 ∨ fld bs 28 4 ≠ 0 ∨ len = 0 ∨ len % 256 ≠ 0 ∨ base % 256 ≠ 0 ∨ total = 0 ∨ 2 ^ 40 < total then wbStatus t d 3
        else
          match xlatRange cl (cw t).ctx .write (pagesOf base len) t with
          | (.error f, _) => .trap f
          | (.ok xs, u) =>
            if !oneRun xs base len then wbStatus u d 2
            else if (mget u.buckets n).isSome then wbStatus u d 1
            else
              let pa := match xs with | x :: _ => x.2.pa | [] => 0
              wbStatus { u with buckets := mset u.buckets n ⟨(cw u).ctx, pa, len, total, 0, fld bs 24 4⟩ } d 0) s

/-- BKARM.off (08 R290). -/
def execBkarmOff (d : Dst) (a : Opnd) (s : State) : Out :=
  issueWord { ops := [(a, false)], dst := some (d, 1) } (fun s =>
    let n := lowOp s false a
    let s := traceVolatile s (cw s)
    if !holdsBucket s n then wbStatus s d 4
    else wbStatus { s with buckets := mdel s.buckets n } d 0) s

end Sys2Proof.Machine
end

