-- ==== Sys2Proof/Machine/Launch.lean ====
section
/-! DEFINITION. Launches: task counters at the scheduler, submission and its checks, the start event, dispatch and residency of
cluster-blocks, exits, traces, and the end of a launch (08 R279, 12 R377-R396, 05 R164-R167). -/

namespace Sys2Proof.Machine

/-! ## Records and decrements -/

/-- A launch event record (12 Table kernel-6). -/
def launchRec (kind reason handle amount addr : Nat) : List Byte :=
  mkRec [(0, kind), (1, reason), (4, handle), (8, amount), (16, addr)]

/-- A launch outside any graph (12 Table kernel-6). -/
def noHandle : Nat := 0xFFFFFFFF

/-- Apply a decrement at the scheduler (08 R279, R280). A node LOADED in a graph whose launch has completed stays so (12 R386). -/
def applyDecr (s : State) (ctx handle k : Nat) : State :=
  match nodeOf s ctx handle with
  | none => postEvent s ctx (launchRec 4 0 handle 0 0)
  | some (slot, idx, n) =>
    let c := n.count.toNat
    let live := match mget s.graphs slot with | some g => g.running | none => false
    if c = 0 then postEvent s ctx (launchRec 3 0 handle k 0)
    else
      let s := if c < k then postEvent s ctx (launchRec 3 0 handle (k - c) 0) else s
      let s := updNode s slot idx (fun n =>
        if c ≤ k then { n with count := 0, st := if n.st = .loaded ∧ live = true then .ready else n.st, order := s.nextId }
        else { n with count := BitVec.ofNat 32 (c - k) })
      testTwaits { s with nextId := s.nextId + 1 } ctx handle

/-- TASK_DECREMENT (08 R279): the oldest decrement under way arrives. -/
def execTaskDecrement (s : State) : Out :=
  match s.decrs with
  | [] => .next s
  | d :: t => .next (applyDecr { s with decrs := t } d.ctx d.handle d.amount)

/-- An agent ends a node, with the address where its words faulted; NODE_END follows (12 R384, R385, R387). -/
def agentEndAt (s : State) (ctx handle : Nat) (ok : Bool) (reason va : Nat) : State :=
  match nodeOf s ctx handle with
  | some (slot, idx, n) => if n.st = .running then updNode s slot idx (fun n => { n with st := .ended ok reason va }) else s
  | none => s

/-- An agent ends a node without a faulting address. -/
def agentEnd (s : State) (ctx handle : Nat) (ok : Bool) (reason : Nat) : State := agentEndAt s ctx handle ok reason 0

/-- The handle of a node (12 R382). -/
def handleOf (slot idx : Nat) : Nat := slot * 65536 + idx

/-! ## The checks of a packet (12 R378) -/

/-- The width that a shape byte names. -/
def pktWidth (p : List Byte) : Nat := 8 * 2 ^ (fld p 2 1 % 4)
/-- Warps per block: ⌈E / w⌉. -/
def pktWarps (p : List Byte) : Nat := (fld p 28 4 + pktWidth p - 1) / pktWidth p
/-- Warps of a width that hold only their base (02 Table register-2). -/
def baseOnly (w : Nat) : Nat := if w = 64 then 14 else 16

/-- The clusters of a stack mask in the partitions of a context (05 R164). -/
def eligibleClusters (s : State) (ctx mask : Nat) : List Nat :=
  (List.range 192).filter (fun c => bit mask (stackOf c) &&
    (match ctxOf s ctx with | some x => bit x.desc.pmask (partOf c) | none => false))

/-- Whether a cluster holds a firmware core (00 R3). -/
def hasFw (cl : Nat) : Bool := (List.range 4).any (fun i => fwCore (4 * cl + i))

/-- Fields that 12 Table kernel-1 marks zero or bounds, in the kernel form. -/
def kernelFormBad (p : List Byte) : Bool :=
  let tr := bit (fld p 1 1) 0
  decide (8 ≤ fld p 1 1) || decide (4 < bits (fld p 2 1) 2 3) || decide (32 ≤ fld p 2 1) || fld p 3 1 == 0 || decide (4 < fld p 3 1) ||
    fld p 4 1 == 0 || fld p 5 1 != 0 || fld p 6 2 == 0 || decide (1024 < fld p 6 2) || fld p 8 8 % 8 != 0 || fld p 16 8 % 8 != 0 ||
    decide (65536 < fld p 24 4) || fld p 24 4 % 8 != 0 || fld p 28 4 == 0 || decide (16 * pktWidth p < fld p 28 4) ||
    fld p 32 4 == 0 || decide (524288 < fld p 36 4) || fld p 36 4 % 256 != 0 ||
    (if tr then fld p 40 8 % 256 != 0 || fld p 48 2 == 0 else fld p 40 8 != 0 || fld p 48 2 != 0) || fld p 50 2 != 0

/-- The same for the graph form. -/
def graphFormBad (p : List Byte) : Bool :=
  fld p 1 7 != 0 || fld p 8 8 % 32 != 0 || decide (65536 ≤ fld p 16 8) || decide (4096 ≤ fld p 24 4) || fld p 32 20 != 0

/-- The completion fields of both forms. -/
def completionBad (p : List Byte) : Bool :=
  decide (3 < fld p 52 1) || fld p 53 3 != 0 ||
    (match fld p 52 1 with
      | 1 => fld p 56 8 % 8 != 0
      | 2 => decide (2 ^ 32 ≤ fld p 56 8)
      | _ => false)

/-- Whether a node handle names a slot granted to a context. -/
def slotGranted (s : State) (ctx handle : Nat) : Bool :=
  decide (handle < 2 ^ 28) && (match ctxOf s ctx with | some c => c.slots.contains (handle / 65536) | none => false)

/-- The number of the first failing check of R378 but the last, which the graph load makes. -/
def refuseReason (s : State) (ctx : Nat) (p : List Byte) : Option Nat :=
  let kind := fld p 0 1
  let cls := eligibleClusters s ctx (fld p 4 1)
  if kind ≠ 1 ∧ kind ≠ 2 then some 1
  else if (if kind = 1 then kernelFormBad p else graphFormBad p) || completionBad p then some 2
  else if kind = 1 ∧ baseOnly (pktWidth p) < pktWarps p then some 3
  else if kind = 1 ∧ (cls.isEmpty ∨ (fld p 3 1 = 4 ∧ cls.all hasFw)) then some 4
  else if kind = 2 ∧ (!slotGranted s ctx (fld p 24 4 * 65536) ∨ fld p 16 8 < fld p 28 4) then some 5
  else if fld p 52 1 = 2 ∧ !slotGranted s ctx (fld p 56 4) then some 6
  else none

/-! ## Submission -/

/-- Whether a launch has ended. -/
def Launch.over (l : Launch) : Bool := l.st == .done || l.st == .refused || l.st == .killed

/-- A launch of a queue or of a queue's graph that has not ended, and the nodes of its graphs that run on other agents (13 R413). -/
def queueRunning (s : State) (q : Nat) : Nat :=
  (s.launches.filter (fun l => l.2.queue == some q && !l.2.over)).length +
    ((s.graphs.filter (fun g => g.2.queue == some q)).flatMap (fun g =>
      g.2.nodes.filter (fun n => n.2.st == .running && n.2.launch == 0))).length

/-- A DRAINING queue without running launches becomes DESTROYED (13 R412). -/
def queueDrain (s : State) (q : Option Nat) : State :=
  match q with
  | none => s
  | some k =>
    match mget s.queues k with
    | some x => if x.st = .draining ∧ queueRunning s k = 0 then updQueue s k (fun x => { x with st := .destroyed }) else s
    | none => s

/-- A refusal is reported: by the node's end where a node asked, else by a record of kind 1 (12 R378, R385, R502). -/
def reportRefusal (s : State) (ctx : Nat) (src : LaunchSource) (nodeReason reason addr : Nat) : State :=
  match src with
  | .node h => agentEnd s ctx h false nodeReason
  | .queue _ _ => postEvent s ctx (launchRec 1 reason noHandle 0 addr)

/-- Put a launch in SUBMITTED. -/
def newLaunch (s : State) (ctx : Nat) (src : LaunchSource) (q : Option Nat) (pkt : List Byte) (rel : Option Relaunch) : Nat × State :=
  let f := fresh s
  let l : Launch := { pkt := pkt, ctx := ctx, src := src, queue := q, st := .submitted, gs := 0, seq := 0, nextCb := 0, doneCbs := 0,
                      rel := rel, traceLost := false }
  (f.1, { f.2 with launches := mset f.2.launches f.1 l })

/-- Submit a packet: refuse it or accept it (12 R378). -/
def submitPacket (s : State) (ctx : Nat) (src : LaunchSource) (q : Option Nat) (pkt : List Byte) : Option Nat × State :=
  match refuseReason s ctx pkt with
  | some r => (none, reportRefusal s ctx src r r 0)
  | none =>
    let r := newLaunch s ctx src q pkt none
    (some r.1, r.2)

/-- The queue of a source. -/
def sourceQueue (s : State) (ctx : Nat) (src : LaunchSource) : Option Nat :=
  match src with
  | .queue q _ => some q
  | .node h => match nodeOf s ctx h with
    | some (slot, _, _) => (match mget s.graphs slot with | some g => g.queue | none => none)
    | none => none

/-- LAUNCH_SUBMIT (12 R378). -/
def execLaunchSubmit (ctx : Nat) (src : LaunchSource) (pkt : List Byte) (s : State) : Out :=
  .next (submitPacket s ctx src (sourceQueue s ctx src) pkt).2

/-! ## Residency (14 Table context-2) -/

/-- Whether a context's work is dispatched: resident and no pre-emption under way (14 R427, R432). -/
def ctxActive (s : State) (ctx : Nat) : Bool :=
  match ctxOf s ctx with
  | some c => (c.st == .resident || c.st == .running) && !s.haltDev
  | none => false

/-- Whether something of a context runs: a started launch or graph, a node, a copy. -/
def hasWork (s : State) (ctx : Nat) : Bool :=
  s.launches.any (fun l => l.2.ctx == ctx && !l.2.over && l.2.st != .submitted) ||
    s.graphs.any (fun g => g.2.ctx == ctx && g.2.nodes.any (fun n => match n.2.st with | .running => true | .ended _ _ _ => true | _ => false)) ||
    (allCopies s).any (fun c => c.2.ctx == ctx && c.2.st != .done && c.2.st != .failed)

/-- A launch starts: RESIDENT becomes RUNNING. -/
def ctxRun (s : State) (ctx : Nat) : State :=
  updCtx s ctx (fun c => { c with st := if c.st = .resident then .running else c.st })

/-- The last launch, node and copy has ended: RUNNING becomes RESIDENT. -/
def ctxSettle (s : State) (ctx : Nat) : State :=
  if hasWork s ctx then s else updCtx s ctx (fun c => { c with st := if c.st = .running then .resident else c.st })

/-! ## The start event (12 R379, R388, R393, R394) -/

/-- The trace buffer of a launch, where it has one. -/
def Launch.traceVa (l : Launch) : Option Nat :=
  match l.rel with
  | some r => some r.tb
  | none => if bit (fld l.pkt 1 1) 0 then some (fld l.pkt 40 8) else none

/-- An earlier launch of the same trace buffer is in progress (12 R394). -/
def traceBusy (s : State) (id : Nat) (l : Launch) : Bool :=
  match l.traceVa with
  | none => false
  | some tb => s.launches.any (fun m => decide (m.1 < id) && !m.2.over && m.2.ctx == l.ctx && m.2.traceVa == some tb)

/-- Write bytes of a trace buffer; a fault loses the trace (12 R392). -/
def traceWrite (s : State) (id : Nat) (l : Launch) (va : Nat) (bs : List Byte) : State :=
  match writeVa s devCl l.ctx (fld l.pkt 48 2) va bs with
  | (true, s) => s
  | (false, s) =>
    let h := match l.src with | .node h => h | .queue _ _ => noHandle
    postEvent (updLaunch s id (fun l => { l with traceLost := true })) l.ctx (launchRec 5 0 h 0 (l.traceVa.getD 0))

/-- Invalidate the clean lines of a context everywhere: an acquire by agents not yet placed (12 R379). -/
def dropEverywhere (s : State) (ctx : Nat) : State :=
  { s with ccache := (s.ccache.filter (fun x => !(x.2.ctx == ctx && x.2.dirty == 0))).map (fun x =>
      if x.2.ctx = ctx then (x.1, { x.2 with valid := 0 }) else x) }

/-- The tiles of a range word (12 Table kernel-9). -/
def rangeTiles (w : Nat) : List Nat := (List.range (bits w 36 16 + 1)).map (fun i => bits w 0 36 + i)

/-- What an entry and the tiles of the argument area say (12 R393). -/
def entryReruns (s : State) (r : Relaunch) (e : List Byte) (area : List Nat) : Bool :=
  let w := fld e 0 8
  if !r.valid ∨ 2 ^ 31 ≤ s.gen.toNat - r.gs.toNat then true
  else if !bit w 18 ∨ bit w 16 ∨ bit w 17 then true
  else
    let reads := (List.range (bits w 0 5)).flatMap (fun i => rangeTiles (fld e (16 + 8 * i) 8))
    let writes := (List.range (bits w 8 3)).flatMap (fun i => rangeTiles (fld e (208 + 8 * i) 8))
    (reads ++ writes ++ area).any (fun t =>
      decide (t < 2 ^ 24) &&
        (let h := hallmark s t
         (decide (r.gs.toNat < h.1) && h.2 != r.tag) || decide (r.gc.toNat < h.1)))

/-- Whether block b tests rerun (12 R393). -/
def blockReruns (l : Launch) (r : Relaunch) (b : Nat) (s : State) : Bool × State :=
  match readVa s devCl l.ctx (r.tb + 256 * (b + 1)) 256 with
  | (.error _, s) => (true, s)
  | (.ok e, s) =>
    match xlatRange devCl l.ctx .read (pagesOf (fld l.pkt 16 8) (fld l.pkt 24 4)) s with
    | (.error _, s) => (true, s)
    | (.ok xs, s) => (entryReruns s r e (xs.flatMap (fun x => xlatTiles x.2)), s)

/-- Whether one of the blocks tests rerun. -/
def anyReruns (l : Launch) (r : Relaunch) : List Nat → State → Bool × State
  | [], s => (false, s)
  | b :: t, s =>
    let q := blockReruns l r b s
    let m := anyReruns l r t q.2
    (q.1 || m.1, m.2)

/-- The cluster-blocks of a list, of c blocks each, that rerun. -/
def cbReruns (l : Launch) (r : Relaunch) (c : Nat) : List Nat → State → List Nat × State
  | [], s => ([], s)
  | k :: t, s =>
    let q := anyReruns l r ((List.range c).map (fun i => k * c + i)) s
    let m := cbReruns l r c t q.2
    (if q.1 then k :: m.1 else m.1, m.2)

/-- The cluster-blocks that rerun, ascending. -/
def rerunCbs (s : State) (l : Launch) (r : Relaunch) : List Nat × State :=
  cbReruns l r (fld l.pkt 3 1) (List.range (fld l.pkt 32 4)) s

/-- The start event of a kernel launch or relaunch. -/
def startLaunch (s : State) (id : Nat) (l : Launch) : State :=
  let gs := s.gen
  let s := { s with gen := s.gen + 1 }
  let s := ctxRun (dropEverywhere s l.ctx) l.ctx
  let s := updLaunch s id (fun l => { l with gs := gs, seq := gs.toNat + 1, st := .started })
  match l.rel with
  | none =>
    match l.traceVa with
    | none => s
    | some tb =>
      let s := traceWrite s id l tb l.pkt
      let s := traceWrite s id l (tb + 80) (toBytes 4 (fld l.pkt 32 4 * fld l.pkt 3 1))
      traceWrite s id l (tb + 88) [2]
  | some r =>
    let s := traceWrite s id l (r.tb + 88) [2]
    let q := rerunCbs s l r
    let cbs := q.1
    let s := updLaunch q.2 id (fun l => { l with rel := some { r with reruns := cbs }, st := if cbs.isEmpty then .ending else .started })
    match r.reply with
    | some op => deliver s op (cbs.length * fld l.pkt 3 1)
    | none => s

/-- LAUNCH_START (12 R379): a kernel launch that nothing holds back; a relaunch only behind its header read. -/
def execLaunchStart (launch : Nat) (s : State) : Out :=
  match mget s.launches launch with
  | some l =>
    let ready : Bool := match l.rel with | some r => !r.hdr.isEmpty | none => fld l.pkt 0 1 == 1
    if l.st = .submitted ∧ ready ∧ ctxActive s l.ctx ∧ !traceBusy s launch l then .next (startLaunch s launch l) else .next s
  | none => .next s

/-- A relaunch is refused at its header read (12 R393, R399). -/
def refuseRelaunch (s : State) (id : Nat) (l : Launch) (r : Relaunch) (reason addr : Nat) : State :=
  let s := { s with launches := mdel s.launches id }
  let s := match r.reply with | some op => deliver s op 0xFFFFFFFF | none => s
  let s := match l.src with
    | .node h => if r.reply.isSome then postEvent s l.ctx (launchRec 1 reason noHandle 0 addr) else agentEnd s l.ctx h false 1
    | .queue _ _ => postEvent s l.ctx (launchRec 1 reason noHandle 0 addr)
  queueDrain s l.queue

/-- RELAUNCH_HEADER_READ (12 R393): the read that binds. -/
def execRelaunchHeaderRead (launch : Nat) (s : State) : Out :=
  match mget s.launches launch with
  | some l =>
    match l.rel with
    | some r =>
      if l.st ≠ .submitted ∨ !r.hdr.isEmpty ∨ !ctxActive s l.ctx ∨ traceBusy s launch l then .next s
      else
        match readAs s devCl l.ctx .rmw r.tb 256 with
        | (.error va, s) => .next (refuseRelaunch s launch l r 0 va)
        | (.ok hdr, s) =>
          let pkt := hdr.take 64
          match refuseReason s l.ctx pkt with
          | some k => .next (refuseRelaunch s launch l r k r.tb)
          | none =>
            if fld pkt 0 1 ≠ 1 ∨ !bit (fld pkt 1 1) 0 then .next (refuseRelaunch s launch l r 0 r.tb)
            else .next (updLaunch s launch (fun l => { l with
                pkt := pkt
                rel := some { r with hdr := hdr, gs := BitVec.ofNat 64 (fld hdr 64 8), gc := BitVec.ofNat 64 (fld hdr 72 8),
                                     valid := bit (fld hdr 88 1) 0, tag := fld hdr 48 2 } }))
    | none => .next s
  | none => .next s

/-! ## Dispatch (05 R164-R166, 13 R409, R411) -/

/-- Whether the energy budget of a launch's queue holds it (13 R411). -/
def budgetHeld (s : State) (q : Option Nat) : Bool :=
  match q with
  | some k => (match mget s.queues k with | some x => x.st == .budgetHeld | none => false)
  | none => false

/-- Words of 32 bits from bytes. -/
def wordsOf (n : Nat) (bs : List Byte) : List W32 := (List.range n).map (fun i => BitVec.ofNat 32 (fld bs (4 * i) 4))

/-- An earlier ready node of a type, of a context that could start it, that has not reached its agent's queue yet: it stands ahead of the
nodes readied after it (11 R354, 16 R478). -/
def earlierReady (s : State) (type order : Nat) (p : Graph → Node → Bool) : Bool :=
  s.graphs.any (fun g => g.2.running && ctxActive s g.2.ctx && !budgetHeld s g.2.queue &&
    g.2.nodes.any (fun n => n.2.st == .ready && fld n.2.entry 0 1 == type && decide (n.2.order < order) && p g.2 n.2))

/-- The priority of a launch: its queue's. -/
def launchPrio (s : State) (l : Launch) : Nat :=
  match l.queue with
  | some k => (match mget s.queues k with | some x => x.desc.prio | none => 0)
  | none => 0

/-- The number of the next cluster-block of a launch. -/
def Launch.nextK (l : Launch) : Option Nat :=
  match l.rel with
  | some r => r.reruns[l.nextCb]?
  | none => if l.nextCb < fld l.pkt 32 4 then some l.nextCb else none

/-- Slots of a core reserved by assigned cluster-blocks. -/
def reservedSlots (s : State) (core : Nat) : Nat :=
  s.cbs.foldl (fun n c =>
    if c.2.st == .assigned && c.2.cores.contains core then
      n + (match mget s.launches c.2.launch with | some l => pktWarps l.pkt | none => 0) else n) 0

/-- Whether a core can be assigned a block of a launch (05 R164). -/
def coreTakes (s : State) (l : Launch) (core : Nat) : Bool :=
  let c := coreOf s core
  !fwCore core && c.warps.all (fun w => w.2.width == pktWidth l.pkt) && decide (c.warps.length + reservedSlots s core + pktWarps l.pkt ≤ 16)

/-- Whether a cluster and cores may take the next cluster-block of a launch; only trained stack groups work (14 R441). -/
def mayAssign (s : State) (l : Launch) (cl : Nat) (cores : List Nat) : Bool :=
  (l.st == .started || l.st == .dispatching) && l.nextK.isSome && ctxActive s l.ctx && !budgetHeld s l.queue &&
    decide (cl < 192) && bit (fld l.pkt 4 1) (stackOf cl) && bit s.status.stackMask (stackOf cl) && holderOf s (partOf cl) == some l.ctx &&
    cores.length == fld l.pkt 3 1 && cores.eraseDups.length == cores.length && cores.all (fun k => clusterOf k == cl && coreTakes s l k)

/-- The sets of cores of a cluster. -/
def coreSets (cl : Nat) : List (List Nat) := (List.range 16).map (fun m => (ones 4 m).map (fun i => 4 * cl + i))

/-- Another launch comes first on these cores: a higher priority, or the same with an earlier start (13 R409). -/
def outranked (s : State) (id : Nat) (l : Launch) (cl : Nat) (cores : List Nat) : Bool :=
  s.launches.any (fun m => m.1 != id &&
    (decide (launchPrio s l < launchPrio s m.2) || (launchPrio s l == launchPrio s m.2 && decide (m.2.seq < l.seq))) &&
    (coreSets cl).any (fun q => q.any (fun k => cores.contains k) && mayAssign s m.2 cl q))

/-- CLUSTER_BLOCK_ASSIGN (05 R164, R165). -/
def execClusterBlockAssign (launch cluster : Nat) (cores : List Nat) (s : State) : Out :=
  match mget s.launches launch with
  | some l =>
    match l.nextK with
    | some k =>
      if mayAssign s l cluster cores && !outranked s launch l cluster cores then
        let f := fresh s
        let cb : ClusterBlock := { k := k, launch := launch, cluster := cluster, cores := cores, order := f.1, st := .assigned,
                                   blocks := [], bars := [] }
        let s := { f.2 with cbs := mset f.2.cbs f.1 cb }
        .next (updLaunch s launch (fun l =>
          let l := { l with nextCb := l.nextCb + 1 }
          { l with st := if l.nextK.isSome then .dispatching else .draining }))
      else .next s
    | none => .next s
  | none => .next s

/-- The scratchpad ranges in use on a core: those of blocks that are not DONE or still have scratchpad accesses (05 R167). -/
def scratchUsed (s : State) (core : Nat) : List (Nat × Nat) :=
  ((s.blocks.filter (fun b => b.2.core == core && b.2.scratchBytes != 0 && b.2.st != .saved &&
    (b.2.st != .done || s.txs.any (fun t => t.2.core == core && t.2.parts.any (fun p => p.place == .scratch && !p.done &&
      p.lanes.any (fun a => decide (b.2.scratchBase ≤ a.x.pa) && decide (a.x.pa < b.2.scratchBase + b.2.scratchBytes))))))).map
    (fun b => (b.2.scratchBase, b.2.scratchBytes)))

/-- The lowest base at which a block's scratchpad fits. -/
def scratchFit (used : List (Nat × Nat)) (n : Nat) : Option Nat :=
  let ok := fun b => decide (b + n ≤ 524288) && used.all (fun u => decide (b + n ≤ u.1) || decide (u.1 + u.2 ≤ b))
  leastBy id ((0 :: used.map (fun u => u.1 + u.2)).filter ok)

/-- The free base blocks of a core, ascending (02 R61, R62). -/
def freeBases (c : Core) (width : Nat) : List Nat :=
  ((List.range ((fileBlocks width - 8) / 4)).map (4 * ·)).filter (fun b =>
    (List.range 4).all (fun i => !(usedBlocks c).contains (b + i)))

/-- The free slots of a core. -/
def freeSlots (c : Core) : List Nat := (List.range 16).filter (fun k => (mget c.warps k).isNone)

/-- Whether a core can make a block of a launch resident now. -/
def coreGrants (s : State) (l : Launch) (core : Nat) : Bool :=
  let c := coreOf s core
  let w := pktWarps l.pkt
  c.warps.all (fun x => x.2.width == pktWidth l.pkt) && decide (w ≤ (freeSlots c).length) &&
    decide (w ≤ (freeBases c (pktWidth l.pkt)).length) && (scratchFit (scratchUsed s core) (fld l.pkt 36 4)).isSome

/-- A warp as it starts (02 R62, 05 R166). -/
def startWarp (s : State) (l : Launch) (launch block idx base uid : Nat) : Warp :=
  let p := l.pkt
  let w := pktWidth p
  { Warp.empty with
    uid := uid, ctx := l.ctx, launch := launch, block := block, idx := idx, width := w
    nlane := if fld p 28 4 - idx * w < w then fld p 28 4 - idx * w else w
    rr := bit (fld p 1 1) 2, pack := bit (fld p 1 1) 1, age := s.cycle
    slices := List.replicate (w / 4) (Slice.start (BitVec.ofNat 64 (fld p 8 8)))
    gangs := [⟨2 ^ (w / 4) - 1, 0, 0⟩], extmax := bits (fld p 2 1) 2 3, baseBlk := base }

/-- Make one block resident on its core. -/
def startBlock (launch : Nat) (l : Launch) (cb bid core : Nat) (s : State) : State :=
  let f := fresh s
  let s := f.2
  let n := pktWarps l.pkt
  let base := (scratchFit (scratchUsed s core) (fld l.pkt 36 4)).getD 0
  let ws := (List.range n).map (fun i =>
    let c := coreOf s core
    (((freeSlots c)[i]?).getD 0, startWarp s l launch f.1 i (((freeBases c (pktWidth l.pkt))[i]?).getD 0) (s.nextId + i)))
  let s := { s with nextId := s.nextId + n }
  let s := updCore s core (fun c => { c with warps := ws.foldl (fun m w => mset m w.1 w.2) c.warps })
  let b : Block := { id := bid, cb := cb, core := core, launch := launch, st := .resident, scratchBase := base,
                     scratchBytes := fld l.pkt 36 4, live := ws.map (fun w => w.2.uid), bars := [], trace := .zero }
  { s with blocks := mset s.blocks f.1 b
           cbs := madj s.cbs cb (fun c => { c with blocks := c.blocks ++ [f.1] }) }

/-- CLUSTER_BLOCK_RESIDENT (05 R166). -/
def execClusterBlockResident (cb : Nat) (s : State) : Out :=
  match mget s.cbs cb with
  | some c =>
    match mget s.launches c.launch with
    | some l =>
      let first := s.cbs.all (fun o => !(o.2.st == .assigned && decide (o.2.order < c.order) && o.2.cores.any (fun k => c.cores.contains k)))
      if c.st == .assigned && first && holderOf s (partOf c.cluster) == some l.ctx && ctxActive s l.ctx && c.cores.all (coreGrants s l) then
        let n := fld l.pkt 3 1
        let s := { s with cbs := mset s.cbs cb { c with st := .resident } }
        .next ((List.range c.cores.length).foldl (fun s i =>
          startBlock c.launch l cb (c.k * n + i) ((c.cores[i]?).getD 0) s) s)
      else .next s
    | none => .next s
  | none => .next s

/-! ## Exit, traces and the end (05 R172, R167, 12 R380, R388-R392) -/

/-- A range word (12 Table kernel-9). -/
def rangeWord (r : Nat × Nat) : List Byte := toBytes 8 (r.2 * 2 ^ 36 + r.1)

/-- Pad bytes with zeros. -/
def padTo (n : Nat) (bs : List Byte) : List Byte := bs ++ List.replicate (n - bs.length) 0

/-- A block's trace entry (12 R389). -/
def traceEntry (t : Trace) : List Byte :=
  let w := t.reads.length + t.writes.length * 2 ^ 8 + b2n t.open_ * 2 ^ 16 + b2n t.volatile * 2 ^ 17 + 2 ^ 18
  padTo 208 (toBytes 8 w ++ List.replicate 8 0 ++ t.reads.flatMap rangeWord) ++ padTo 48 (t.writes.flatMap rangeWord)

/-- A block is DONE: its entry, and the ends that follow (05 R167, 12 R392). -/
def blockDone (s : State) (key : Nat) : State :=
  match mget s.blocks key with
  | none => s
  | some b =>
    let s := { s with blocks := mset s.blocks key { b with st := .done } }
    let s := match mget s.launches b.launch with
      | some l => (match l.traceVa with
        | some tb => traceWrite s b.launch l (tb + 256 * (b.id + 1)) (traceEntry b.trace)
        | none => s)
      | none => s
    match mget s.cbs b.cb with
    | none => s
    | some c =>
      if c.blocks.all (fun k => match mget s.blocks k with | some x => x.st == .done | none => true) then
        let s := { s with cbs := mset s.cbs b.cb { c with st := .done } }
        updLaunch s b.launch (fun l =>
          let l := { l with doneCbs := l.doneCbs + 1 }
          if l.st = .draining ∧ l.nextCb ≤ l.doneCbs then { l with st := .ending } else l)
      else s

/-- WARP_EXITED (05 R172): a warp whose slices have exited and whose register writes are complete. -/
def execWarpExited (core slot : Nat) (s : State) : Out :=
  let w := warpOf s core slot
  if w.st = .exiting ∧ w.busy.all (fun b => !b.pending s.cycle) then
    let s := latchExit s core slot
    let s := updCore s core (fun c => { c with
      warps := mdel c.warps slot
      active := c.active.filter (fun a => a.1 != slot) })
    let s := { s with blocks := madj s.blocks w.block (fun b => { b with live := b.live.filter (fun u => u != w.uid) }) }
    match mget s.blocks w.block with
    | some b => .next (if b.live.isEmpty && b.st != .done then blockDone s w.block else s)
    | none => .next s
  else .next s

/-- The completion of a launch, graph or relaunch (12 Table kernel-1, 13 R407). -/
def complete (s : State) (ctx : Nat) (src : LaunchSource) (tag kind word : Nat) : State :=
  let h := match src with | .node h => h | .queue _ _ => noHandle
  match kind with
  | 1 =>
    (match incrSignal s devCl ctx tag word with
      | (true, s) => s
      | (false, s) => postEvent s ctx (launchRec 6 0 h 0 word))
  | 2 => sendDecr s ctx (word % 2 ^ 32) 1
  | 3 =>
    (match src with
      | .queue q n =>
        (match mget s.queues q with
          | some x =>
            let va := x.desc.cpl + 16 * (n % x.desc.cplent)
            let s := (writeVa s devCl ctx 0 va (toBytes 8 n ++ toBytes 8 s.gen.toNat)).2
            if x.desc.msix then emit s (.msix x.desc.vector) else s
          | none => s)
      | .node _ => s)
  | _ => s

/-- Whether a launch may end: its copies have ended and its accesses are performed (12 R380 step 2). -/
def launchQuiet (s : State) (id : Nat) : Bool :=
  (allCopies s).all (fun c => !(c.2.launch == id) || c.2.st == .done || c.2.st == .failed) &&
    s.images.all (fun q => q.2.cores.all (fun k => k.2.copies.all (fun c =>
      !(c.2.launch == id) || c.2.st == .done || c.2.st == .failed))) &&
    s.txs.all (fun t => t.2.launch != id)

/-- The tiles of the header at the end of a launch (12 R388). -/
def endHeader (s : State) (id : Nat) (l : Launch) : State :=
  match l.traceVa with
  | none => s
  | some tb =>
    let c := fld l.pkt 3 1
    let n := match l.rel with | some r => r.reruns.length * c | none => fld l.pkt 32 4 * c
    let gc := s.gen
    let s := traceWrite s id l (tb + 64) (toBytes 8 l.gs.toNat ++ toBytes 8 gc.toNat)
    let s := traceWrite s id l (tb + 84) (toBytes 4 n)
    let lost := match mget s.launches id with | some x => x.traceLost | none => true
    (writeVa s devCl l.ctx (fld l.pkt 48 2) (tb + 88) [if lost then 0 else 1]).2

/-- Completion kind and word of a launch: the packet's, or what its relaunch names (12 R399). -/
def Launch.completion (l : Launch) : Nat × Nat :=
  match l.rel with
  | some r => ((match r.kind with | .none => 0 | .node => 2 | .sig => 1), r.cw.toNat)
  | none => (fld l.pkt 52 1, fld l.pkt 56 8)

/-- LAUNCH_END (12 R380). -/
def execLaunchEnd (launch : Nat) (s : State) : Out :=
  match mget s.launches launch with
  | some l =>
    if l.st = .ending ∧ launchQuiet s launch then
      let mine := s.cbs.filter (fun c => c.2.launch == launch)
      let s := ((mine.map (fun c => c.2.cluster)).eraseDups).foldl (fun s cl => cleanCtx s cl l.ctx) s
      let s := endHeader s launch l
      let c := l.completion
      let s := complete s l.ctx l.src (fld l.pkt 48 2) c.1 c.2
      let s := { s with launches := mdel s.launches launch
                        olds := mmap (fun m => mdel m launch) s.olds
                        cbs := s.cbs.filter (fun c => c.2.launch != launch)
                        blocks := s.blocks.filter (fun b => b.2.launch != launch) }
      let s := match l.src with
        | .node h => agentEnd s l.ctx h true 0
        | .queue _ _ => s
      .next (ctxSettle (queueDrain s l.queue) l.ctx)
    else .next s
  | none => .next s

end Sys2Proof.Machine
end

