-- ==== Sys2Proof/Machine/Queue.lean ====
section
/-! DEFINITION. Queues: launch registers, the command front end, energy budgets, LNCH and RELN (13 R400-R415, 12 R397-R399). -/

namespace Sys2Proof.Machine

/-- Whether a queue takes appends (13 R412). -/
def Queue.takes (x : Queue) : Bool := x.st == .idle || x.st == .active || x.st == .budgetHeld

/-- A full ring (13 R401). -/
def Queue.full (x : Queue) : Bool := decide (2 ^ x.desc.order ≤ x.tail - x.head)

/-- Count a dropped write (13 R402). -/
def countDrop (s : State) (q : Nat) : State :=
  updQueue s q (fun x => { x with dropped := clampN (x.dropped + 1) 0xFFFF })

/-- Append an inline packet: the ring entry is only a log (13 R403). -/
def appendInline (s : State) (q : Nat) (x : Queue) (pkt : List Byte) : State :=
  let s := (writeVa s devCl x.desc.context 0 (x.desc.ring + 64 * (x.tail % 2 ^ x.desc.order)) pkt).2
  updQueue s q (fun x => { x with
    inl := mset x.inl x.tail pkt, tail := x.tail + 1, st := if x.st = .idle then .active else x.st })

/-- LAUNCH_REGISTER_INLINE (13 R403). -/
def execLaunchRegisterInline (q : Nat) (bytes : List Byte) (s : State) : Out :=
  match mget s.queues q with
  | none => .next s
  | some x =>
    if !x.takes ∨ bytes.length ≠ 64 ∨ (fld bytes 0 1 ≠ 1 ∧ fld bytes 0 1 ≠ 2) then .next (countDrop s q)
    else if x.full then .next (updQueue s q (fun x => { x with overflow := true }))
    else .next (appendInline s q x bytes)

/-- LAUNCH_REGISTER_DOORBELL (13 R403). -/
def execLaunchRegisterDoorbell (q : Nat) (bytes : List Byte) (s : State) : Out :=
  match mget s.queues q with
  | none => .next s
  | some x =>
    if !x.takes ∨ bytes.length ≠ 64 ∨ fld bytes 0 1 ≠ 3 then .next (countDrop s q)
    else
      let t := fld bytes 8 8
      if x.tail ≤ t ∧ t - x.head ≤ 2 ^ x.desc.order ∧ fld bytes 1 7 = 0 ∧ allZero (bytes.drop 16) then
        .next (updQueue s q (fun x => { x with tail := t, st := if x.st = .idle ∧ x.head < t then .active else x.st }))
      else .next (updQueue s q (fun x => { x with overflow := true }))

/-- LAUNCH_REGISTER_DROP (13 R402, R403): a dropped write is counted, a read is not. -/
def execLaunchRegisterDrop (q : Nat) (acc : RegAccess) (s : State) : Out :=
  match acc with
  | .read => .next s
  | .badWrite => .next (countDrop s q)
  | .otherKind _ => .next (countDrop s q)

/-! ## Consumption (13 R406, R408, R414) -/

/-- Whether the head packet may be submitted: the order of one queue (13 R406). -/
def headReady (s : State) (q : Nat) (x : Queue) : Bool :=
  decide (x.head < x.tail) && s.launches.all (fun l =>
    match l.2.src with
    | .queue k _ => k != q || l.2.over || (!x.desc.serial && l.2.st != .submitted)
    | .node _ => true)

/-- An eligible queue (13 R408). -/
def eligibleQueue (s : State) (q : Nat) (x : Queue) : Bool := x.st == .active && headReady s q x && ctxActive s x.desc.context

/-- The queue the CFE takes next (13 R408). -/
def chooseQueue (s : State) : Option (Nat × Queue) :=
  let el := s.queues.filter (fun x => eligibleQueue s x.1 x.2)
  let p := maxList (el.map (fun x => x.2.desc.prio))
  let lvl := el.filter (fun x => x.2.desc.prio == p)
  let after := match mget s.lastq p with
    | some k => lvl.filter (fun x => decide (k < x.1))
    | none => lvl
  match after with
  | x :: _ => some x
  | [] => lvl.head?

/-- The pages of a range that lie in unmapped host memory: the address of the first. -/
def hostFault (s : State) (ctx va n : Nat) : Option Nat :=
  match (xlatPieces devCl ctx .read (pieces va n) s).1 with
  | .ok xs => (((pieces va n).map (·.1)).zip xs).findSome? (fun p =>
      let pa := resolve s ctx p.2 false
      if inHost pa && hostHole s pa then some p.1 else none)
  | .error _ => none

/-- The head packet: the copy, or the ring entry; a fetch fault gives the address (13 R414). -/
def headPacket (s : State) (x : Queue) : Except Nat (List Byte) × State :=
  match mget x.inl x.head with
  | some p => (.ok p, s)
  | none =>
    let va := x.desc.ring + 64 * (x.head % 2 ^ x.desc.order)
    match hostFault s x.desc.context va 64 with
    | some a => (.error a, s)
    | none => readVa s devCl x.desc.context va 64

/-- Consume the head packet of a queue (13 R406, R414). -/
def consumeHead (s : State) (q : Nat) (x : Queue) : State :=
  match headPacket s x with
  | (.error va, s) =>
    let s := updQueue s q (fun x => { x with st := .error })
    postEvent s x.desc.context (mkRec [(0, 0x14), (2, q), (8, if x.head = 0 then 2 ^ 64 - 1 else x.head - 1), (16, va)])
  | (.ok pkt, s) =>
    let s := (submitPacket s x.desc.context (.queue q x.head) (some q) pkt).2
    updQueue s q (fun x => { x with
      head := x.head + 1, inl := mdel x.inl x.head, st := if x.head + 1 = x.tail ∧ x.st = .active then .idle else x.st })

/-- PACKET_CONSUME (13 R406, R408). -/
def execPacketConsume (s : State) : Out :=
  match chooseQueue s with
  | none => .next s
  | some (q, x) =>
    -- a queue that is not eligible keeps no deficit
    let s := { s with queues := s.queues.map (fun y => if eligibleQueue s y.1 y.2 then y else (y.1, { y.2 with deficit := 0 })) }
    let d := (if x.deficit = 0 then x.desc.quantum else x.deficit) - 1
    let s := consumeHead s q x
    let still := match mget s.queues q with | some y => eligibleQueue s q y | none => false
    if d = 0 ∨ !still then
      .next { (updQueue s q (fun y => { y with deficit := 0 })) with lastq := mset s.lastq x.desc.prio q }
    else .next (updQueue s q (fun y => { y with deficit := d }))

/-! ## Energy (13 R410, R411) -/

/-- The charge of counted events, in picojoules: nine coefficients (14 ECOEF0-8). -/
def energyOf (s : State) (counts : List Nat) : Nat :=
  (List.range 9).foldl (fun e i => e + (counts[i]?).getD 0 * (mgetD s.ecoef i 0).toNat) 0

/-- The events of a queue that have been counted and not yet charged, by coefficient (13 R410). -/
def pendingCharge (s : State) (q : Nat) : List Nat := (List.range 9).map (fun i => mgetD s.charges (16 * q + i) 0)

/-- ENERGY_CHARGE (13 R410, R411): the counted events of a queue are charged. -/
def execEnergyCharge (q : Nat) (counts : List Nat) (s : State) : Out :=
  match mget s.queues q with
  | none => .next s
  | some x =>
    if x.desc.budget = 0 ∨ counts ≠ pendingCharge s q then .next s
    else
      let b := x.balance - (energyOf s counts : Int)
      .next (updQueue { s with charges := s.charges.filter (fun c => c.1 / 16 != q) } q (fun x => { x with
        balance := b, st := if b ≤ 0 ∧ (x.st = .idle ∨ x.st = .active) then .budgetHeld else x.st }))

/-- Microjoules in picojoules. -/
def uJ (n : Nat) : Int := ((n * 1000000 : Nat) : Int)

/-- BUDGET_REFILL (13 R411): at the end of a period, after the charge of what has been counted. A queue that leaves BUDGET_HELD has no
deficit (R408). -/
def execBudgetRefill (q : Nat) (s : State) : Out :=
  match mget s.queues q with
  | none => .next s
  | some x =>
    if x.desc.budget = 0 ∨ s.ns < x.periodStart + 1000 * x.desc.period ∨ (pendingCharge s q).any (· != 0) then .next s
    else
      let b := uJ x.desc.budget + (if x.balance < 0 then x.balance else 0)
      .next (updQueue s q (fun x => { x with
        balance := b, periodStart := x.periodStart + 1000 * x.desc.period
        deficit := if x.st = .budgetHeld then 0 else x.deficit
        st := if x.st = .budgetHeld ∧ 0 < b then (if x.head < x.tail then .active else .idle) else x.st }))

/-- The code of a queue's state (13 Table queue-4). -/
def QueueSt.code : QueueSt → Nat
  | .idle => 1 | .active => 2 | .budgetHeld => 3 | .draining => 4 | .error => 5 | .destroyed => 6

/-- The status word of a queue; zero when UNBOUND (13 Table queue-4). -/
def queueStatus (s : State) (q : Nat) : Nat :=
  match mget s.queues q with
  | none => 0
  | some x => x.st.code * 2 ^ 60 + x.desc.prio * 2 ^ 57 + b2n x.overflow * 2 ^ 56 + x.dropped * 2 ^ 32 +
      x.desc.context * 2 ^ 16 + clampN (queueRunning s q) 0xFFFF

/-! ## LNCH and RELN (12 R397-R399) -/

/-- The release that LNCH, RELN and PUBL begin with, at device scope (07 R244). -/
def releaseDev (s : State) : State := cleanCtx s (clusterOf s.cur.core) (cw s).ctx

/-- LNCH (12 R398, 13 R405). -/
def execLnch (d : Dst) (a b : Opnd) (s : State) : Out :=
  issueWord { ops := [(a, true), (b, false)], dst := some (d, 1) } (fun s =>
    let p := lowOp s true a
    let q := lowOp s false b
    if p % 64 ≠ 0 then .trap (fltAt 7 p)
    else if !releasedAll s then .stall
    else
      let s := traceVolatile (releaseDev s) (cw s)
      let ctx := (cw s).ctx
      match xlatRange (clusterOf s.cur.core) ctx .read (pagesOf p 64) s with
      | (.error f, _) => .trap f
      | (.ok _, s) =>
        let r := readVa s (clusterOf s.cur.core) ctx p 64
        let s := r.2
        let pkt := r.1.toOption.getD []
        if fld pkt 0 1 ≠ 1 ∧ fld pkt 0 1 ≠ 2 then wbStatus s d 3
        else
          match mget s.queues q with
          | some x =>
            if x.desc.context ≠ ctx ∨ !x.takes then wbStatus s d 2
            else if x.full then wbStatus s d 1
            else wbStatus (appendInline s q x pkt) d 0
          | none => wbStatus s d 2) s

/-- Submit a relaunch of a trace buffer (12 R393). -/
def submitRelaunch (s : State) (ctx : Nat) (src : LaunchSource) (q : Option Nat) (tb : Nat) (kind : RelnKind) (w : W64)
    (reply : Option Nat) : Nat × State :=
  newLaunch s ctx src q [] (some ⟨tb, kind, w, [], 0, 0, false, 0, [], reply⟩)

/-- The fields of RELN's word that carry the completion. -/
def relnOps (x : RelnArgs) : List (Opnd × Bool) := (x.a, true) :: (if x.kind = .none then [] else [(x.b, true)])

/-- RELN (12 R399): the rerun count arrives when every test is decided. -/
def execReln (x : RelnArgs) (s : State) : Out :=
  issueWord { ops := relnOps x, dst := some (x.d, 1) } (fun s =>
    let tb := lowOp s true x.a
    let w := if x.kind = .none then 0 else lowOp s true x.b
    if tb % 256 ≠ 0 then .trap (fltAt 7 tb)
    else if !releasedAll s then .stall
    else
      let s := traceVolatile (releaseDev s) (cw s)
      let ctx := (cw s).ctx
      match xlatRange (clusterOf s.cur.core) ctx .rmw (pagesOf tb 256) s with
      | (.error f, _) => .trap f
      | (.ok _, s) =>
        let r := readVa s (clusterOf s.cur.core) ctx tb 256
        let s := r.2
        let pkt := (r.1.toOption.getD []).take 64
        if fld pkt 0 1 ≠ 1 ∨ !bit (fld pkt 1 1) 0 ∨ (refuseReason s ctx pkt).isSome ∨ (x.kind = .sig ∧ w % 8 ≠ 0) then
          wbStatus s x.d 0xFFFFFFFF
        else
          let r := launchTx s none { (mkTx s false false (.reply x.d s.cur.mask) []) with launch := 0 }
          let q := match mget r.2.launches (cw s).launch with | some l => l.queue | none => none
          let t := (submitRelaunch r.2 ctx (.node noHandle) q tb x.kind (BitVec.ofNat 64 w) (some r.1)).2
          .done (issuePend t x.d 1 (pendEntry x.d.reg false r.1) r.1)) s

end Sys2Proof.Machine
end

