-- ==== Sys2Proof/Machine/Wire.lean ====
section
/-! DEFINITION. Sending on the two planes: electrical packets with their tags and floors, optical frames and flits (15 R443-R447,
R457-R460), and link event records (R467). -/

namespace Sys2Proof.Machine

/-! ## Electrical packets -/

/-- Whether a lane has trained since reset (15 R444). -/
def planeUp (s : State) : Bool := s.dev.isSome

/-- The virtual channel of a packet type (15 R443). -/
def vcOf (type : Nat) : Nat := if type = 5 ∨ type = 6 then 1 else if 7 ≤ type then 2 else 0

/-- The header of a packet (15 Table link-1). -/
def hdrBytes (type : Nat) (h : PktHdr) : List Byte :=
  toBytes 1 type ++ toBytes 1 (vcOf type) ++ toBytes 2 h.source ++ toBytes 2 h.target ++ toBytes 2 h.handle ++ toBytes 2 h.tag ++
    toBytes 1 h.op ++ toBytes 1 h.status ++ toBytes 2 h.floor ++ toBytes 2 0 ++ toBytes 8 h.line

/-- The CRC-32 that follows header and payload (15 R445). -/
def packetCrc (type : Nat) (h : PktHdr) (payload : List Byte) : Nat := crc32 (hdrBytes type h ++ payload)

/-- The plane of a packet: the live lane at (target + line ≫ 8) mod n (15 R446). -/
def planeFor (s : State) (target line : Nat) : Option Nat := s.lanes[(target + line / 256) % s.lanes.length]?

/-- A packet as it travels: header, payload, CRC (15 R445). -/
def packetBytes (type : Nat) (h : PktHdr) (payload : List Byte) : List Byte :=
  hdrBytes type h ++ payload ++ toBytes 4 (packetCrc type h payload)

/-- Keep a sent packet in the replay buffer of its lane: 256 packets, so the oldest of a full one has been acknowledged (15 R443). -/
def keepPkt (l : List SentPkt) (p : SentPkt) : List SentPkt :=
  (if 256 ≤ (l.filter (fun q => q.lane == p.lane)).length then l.eraseP (fun q => q.lane == p.lane) else l) ++ [p]

/-- Send a packet on a lane. Credits delay a packet and never change it (15 R443; notes/assumptions/98). Its bytes are charged
(13 Table queue-2). -/
def sendOn (s : State) (l type : Nat) (h : PktHdr) (payload : List Byte) : State :=
  let bs := packetBytes type h payload
  emit (charge { s with sentPkts := keepPkt s.sentPkts ⟨l, type, h, payload⟩ } 5 bs.length) (.packet l bs)

/-- Send a packet on a lane, or keep it until one is live; a device without a number sends none (15 R444, R446). -/
def sendVia (s : State) (l : Option Nat) (type : Nat) (h : PktHdr) (payload : List Byte) : State :=
  match l with
  | some l => sendOn s l type h payload
  | none => if planeUp s then { s with sentPkts := s.sentPkts ++ [⟨16, type, h, payload⟩] } else s

/-- Send a packet on its plane (15 R446). -/
def sendPacket (s : State) (type : Nat) (h : PktHdr) (payload : List Byte) : State := sendVia s (planeFor s h.target h.line) type h payload

/-- A packet between the device and the OCS controller: a Cratch packet whose target is the device itself (16 R472). -/
def toController (s : State) (type : Nat) (h : PktHdr) : Bool := type == 7 && h.target == s.dev.getD 0

/-- Send a packet to the controller, on the lowest live plane (16 R472). -/
def sendLow (s : State) (payload : List Byte) : State :=
  sendVia s s.lanes.head? 7 { source := s.dev.getD 0, target := s.dev.getD 0, handle := 0, tag := 0, op := 0, status := 0, floor := 0, line := 0 } payload

/-- Send a packet again that no switch has acknowledged; a request only while it is not retired (15 R446, R447). -/
def sendAgain (s : State) (p : SentPkt) : State :=
  if toController s p.type p.hdr then sendLow s p.payload
  else if p.type = 5 ∨ p.type = 6 ∨ s.reqs.any (fun r => r.target == p.hdr.target && r.tag == p.hdr.tag) then
    sendPacket s p.type p.hdr p.payload
  else s

/-- Whether tag a is at or after tag b in serial order mod 2^16 (15 R447). -/
def tagAtOrAfter (a b : Nat) : Bool := decide ((a + 65536 - b) % 65536 < 32768)

/-- The oldest unretired tag to a target, or a given one where there is none. -/
def oldestTag (s : State) (target dflt : Nat) : Nat :=
  ((s.reqs.filter (fun r => r.target == target)).map (·.tag)).foldl (fun a t => if tagAtOrAfter t a then a else t) dflt

/-- Send a request now: number it and keep a copy (15 R447). -/
def sendNow (s : State) (r : Req) : State :=
  let tag := mgetD s.tags r.target 0
  let floor := oldestTag s r.target tag
  let h := { r.hdr with tag := tag, floor := floor, target := r.target, source := s.dev.getD 0 }
  let r := { r with tag := tag, hdr := h, sent := s.ns }
  sendPacket { s with tags := mset s.tags r.target ((tag + 1) % 65536), reqs := s.reqs ++ [r] } r.type h r.payload

/-- Requests to a target not yet retired. -/
def unretired (s : State) (target : Nat) : Nat := (s.reqs.filter (fun r => r.target == target)).length

/-- Make a request: it waits at the source while 256 to its target are unretired (15 R447). -/
def sendReq (s : State) (target type : Nat) (h : PktHdr) (payload : List Byte) (owner : ReqOwner) : Nat × State :=
  let f := fresh s
  let s := f.2
  let r : Req := ⟨f.1, target, 0, type, h, payload, s.ns, owner⟩
  (f.1, if unretired s target < 256 ∧ s.reqQueue.all (fun q => q.target != target) then sendNow s r
    else { s with reqQueue := s.reqQueue ++ [r] })

/-- Send waiting requests to a target as far as there is room. -/
def sendWaiting (target : Nat) : Nat → State → State
  | 0, s => s
  | n + 1, s =>
    if 256 ≤ unretired s target then s
    else
      match s.reqQueue.find? (fun r => r.target == target) with
      | none => s
      | some r => sendWaiting target n (sendNow { s with reqQueue := s.reqQueue.filter (fun q => q.id != r.id) } r)

/-- Retire a request. -/
def retireReq (s : State) (r : Req) : State :=
  sendWaiting r.target s.reqQueue.length { s with reqs := s.reqs.filter (fun q => q.id != r.id) }

/-- The request of a target and tag. -/
def findReq (s : State) (target tag : Nat) : Option Req := s.reqs.find? (fun r => r.target == target && r.tag == tag)

/-- A header of a request. -/
def reqHdr (handle op line : Nat) : PktHdr := ⟨0, 0, handle, 0, op, 0, 0, line⟩

/-! ## Link events (15 R467) -/

/-- Post a link event: the ring of 256 records, and the ring of each context that holds a circuit on the port. -/
def linkEvent (s : State) (event place dir before after seq replayed peer : Nat) : State :=
  let bs := mkRec [(0, 0x15), (1, event), (2, place), (3, dir), (4, before), (6, after), (8, seq % 4096), (10, replayed % 65536),
    (12, peer % 1024), (16, s.ns)]
  let s := { s with linkRing := mset s.linkRing (s.linkTail.toNat % 256) bs, linkTail := s.linkTail + 1 }
  match mget s.circuits place with
  | some c => postEvent s c.ctx bs
  | none => s

/-! ## Flits and frames (15 R457-R460) -/

/-- The wavelengths in the stripe of a direction: those that are LIT, and those PARKING until the new stripe is in use. -/
def stripeOf (m : SMap WlSt) : Nat := maskOf ((List.range 16).filter (fun i =>
  match mgetD m i .dark with | .lit => true | .parking => true | _ => false))

/-- The header of a flit (15 Table link-5). -/
def flitHdr (type dest seq ack av source : Nat) : Nat :=
  type * 2 ^ 60 + dest * 2 ^ 50 + seq % 4096 * 2 ^ 38 + ack % 4096 * 2 ^ 26 + av * 2 ^ 25 + source * 2 ^ 6

/-- A flit of 256 bytes: header, payload, CRC-32, zeros (15 R457). -/
def flitBytes (hdr : Nat) (payload : List Byte) : List Byte :=
  let body := toBytes 8 hdr ++ padTo 240 payload
  body ++ toBytes 4 (crc32 body) ++ [0, 0, 0, 0]

/-- Send a flit of a type to a device on a port, with the acknowledgement of what has been received. -/
def sendFlitTo (s : State) (p dest type seq : Nat) (payload : List Byte) : State :=
  let x := portOf s p
  emit (charge (updPort s p (fun x => { x with beat := x.beat + 16 })) 5 256)
    (.flit p (flitBytes (flitHdr type dest seq (x.rxSeq + 4095) (if x.rxSeq = 0 then 0 else 1) (s.dev.getD 0)) payload))

/-- Send a flit to the peer of a port. -/
def sendFlit (s : State) (p type seq : Nat) (payload : List Byte) : State := sendFlitTo s p (portOf s p).peer type seq payload

/-- Send waiting data flits: into the replay buffer while it has room (15 R460). -/
def pump (p : Nat) : Nat → State → State
  | 0, s => s
  | n + 1, s =>
    let x := portOf s p
    match x.txq with
    | [] => s
    | f :: t =>
      if x.st ≠ .live ∨ 1024 ≤ x.replay.length ∨ stripeOf x.tx = 0 then s
      else
        let s := updPort s p (fun x => { x with
          txq := t, replay := x.replay ++ [(x.nextSeq, f.1, f.2)], nextSeq := x.nextSeq + 1
          lastAck := if x.replay.isEmpty then s.ns else x.lastAck })
        pump p n (sendFlitTo s p f.1 1 x.nextSeq f.2)

/-- Send what waits. -/
def pumpPort (s : State) (p : Nat) : State := pump p (portOf s p).txq.length s

/-- Cut bytes into pieces of 240; the last is filled with zeros. -/
def cutFlits : Nat → List Byte → List (List Byte)
  | 0, _ => []
  | n + 1, bs => if bs.isEmpty then [] else padTo 240 (bs.take 240) :: cutFlits n (bs.drop 240)

/-- Put a frame to a device on the stream of a port (15 R458): its flits name that device, whatever the peer (09 R303). A flit that the frame does not fill ends in filler headers of zeros; half a filler
header is completed by the next flit. -/
def sendFrame (s : State) (p dest : Nat) (vaFlags len handle copy : Nat) (data : List Byte) : State :=
  let x := portOf s p
  let pad := (data.length + 7) / 8 * 8
  let bytes := (if x.txHalf then List.replicate 8 0 else []) ++ toBytes 8 vaFlags ++ toBytes 2 len ++ toBytes 2 handle ++
    toBytes 4 copy ++ padTo pad data
  let fl := cutFlits (bytes.length + 1) bytes
  let left := (240 * fl.length - bytes.length) % 16
  pumpPort (updPort s p (fun x => { x with txq := x.txq ++ fl.map (fun f => (dest, f)), txHalf := left == 8 })) p

/-- Send a control flit; it is kept for repetition until it is answered (15 R457). -/
def sendControl (s : State) (p : Nat) (payload : List Byte) (repeated : Bool) : State :=
  let s := if repeated then updPort s p (fun x => { x with control := x.control ++ [payload] }) else s
  sendFlit s p 2 0 payload

end Sys2Proof.Machine
end

