-- ==== Sys2Proof/Machine/Copies.lean ====
section
/-! DEFINITION. Copies: descriptors, admission, chunks, decompression, completion and failure, CPROG and CKILL (09 R291-R318, R499,
R500). -/

namespace Sys2Proof.Machine

/-! ## Shapes (09 R293, R298, R299) -/

/-- COPY2's rows and row bytes, and its signed pitches, source then destination. -/
def Copy.rows (x : Copy) : Nat := x.r2.toNat / 2 ^ 32
def Copy.rowBytes (x : Copy) : Nat := x.r2.toNat % 2 ^ 32
def Copy.srcPitch (x : Copy) : Int := sext 32 x.c.toNat
def Copy.dstPitch (x : Copy) : Int := sext 32 (x.c.toNat / 2 ^ 32)

/-- The route of a COPYR: device, port, electrical plane, handle. -/
def Copy.dev (x : Copy) : Nat := bits x.c.toNat 0 10
def Copy.port (x : Copy) : Nat := bits x.c.toNat 10 4
def Copy.elec (x : Copy) : Bool := bit x.c.toNat 14
def Copy.rhandle (x : Copy) : Nat := bits x.c.toNat 16 16

/-- COPYW's target word: core, slot, scratchpad kind, first register, first lane, lanes, scratchpad offset (09 Tables copy-4, copy-11). -/
def twCore (w : Nat) : Nat := bits w 0 10
def twSlot (w : Nat) : Nat := bits w 10 4
def twScratch (w : Nat) : Bool := bit w 14
def twReg (w : Nat) : Nat := bits w 16 9
def twLane (w : Nat) : Nat := bits w 32 8
def twLanes (w : Nat) : Nat := bits w 40 7
def twOff (w : Nat) : Nat := bits w 32 32

/-- A descriptor that 09 R293 admits. A COPY2 without rows or without row bytes is a copy of length 0, which 09 R295 admits (DEDUCED,
notes/assumptions/95). -/
def shapeOk (op : CopyOp) (kind : CopyKind) (dz : Bool) (d0 d1 d2 d3 c : Nat) : Bool :=
  (kind != .sig || d3 % 8 == 0) && (!dz || (d2 % 4096 == 0 && d1 % 8 == 0)) &&
    match op with
    | .copy => decide (d2 < 2 ^ 40)
    | .copy2 =>
      decide (d2 / 2 ^ 32 ≤ 2 ^ 20) && decide (d2 % 2 ^ 32 ≤ 2 ^ 20)
    | .copyf =>
      decide (d0 < 2) && bits d2 18 14 == 0 && bits d2 8 10 % 16 == 0 && decide (16 ≤ bits d2 8 10) && decide (bits d2 8 10 ≤ 512) &&
        decide (1 ≤ bits d2 0 8) && decide (bits d2 0 8 ≤ 128)
    | .copyw =>
      decide (twCore d1 < 768) && bit d1 15 == false &&
        (if twScratch d1 then bits d1 16 16 == 0 && twOff d1 % 4 == 0 && d2 % 4 == 0
         else bits d1 47 17 == 0 && decide (1 ≤ twLanes d1) && decide (twLanes d1 ≤ 64) && decide (twLane d1 < 64) &&
           bits d1 25 7 == 0 && decide (twReg d1 < 384) && decide (1 ≤ d2) && decide (d2 ≤ 384))
    | .copyr => decide (d2 < 2 ^ 40) && !bit c 15 && decide (c < 2 ^ 32)

/-- The bytes of the copy order. -/
def Copy.total (x : Copy) : Nat :=
  match x.op with
  | .copy | .copyr => x.r2.toNat
  | .copy2 => x.rows * x.rowBytes
  | .copyf => 65536
  | .copyw => if twScratch x.r1.toNat then x.r2.toNat else x.r2.toNat * twLanes x.r1.toNat * 4

/-- The destination address of a byte of the copy order; the place in the panel of a COPYF; the offset itself for COPYW. -/
def Copy.dstAt (x : Copy) (k : Nat) : Nat :=
  match x.op with
  | .copy | .copyr => (x.r0.toNat + k) % 2 ^ 64
  | .copy2 => ofInt 64 ((x.r0.toNat : Int) + (k / x.rowBytes : Nat) * x.dstPitch + (k % x.rowBytes : Nat))
  | .copyf => x.pos % 8 * 65536 + k
  | .copyw => k

/-- The source address of a byte: none for the zeros of a COPYF. -/
def Copy.srcAt (x : Copy) (k : Nat) : Option Nat :=
  match x.op with
  | .copy | .copyr => some ((x.r1.toNat + k) % 2 ^ 64)
  | .copy2 => some (ofInt 64 ((x.r1.toNat : Int) + (k / x.rowBytes : Nat) * x.srcPitch + (k % x.rowBytes : Nat)))
  | .copyf =>
    let d := x.r2.toNat
    if k / 512 < bits d 0 8 ∧ k % 512 < bits d 8 10 then
      some (ofInt 64 ((x.r1.toNat : Int) + (k / 512 : Nat) * sext 32 (d / 2 ^ 32) + (k % 512 : Nat)))
    else none
  | .copyw => some ((x.r0.toNat + k) % 2 ^ 64)

/-- Whether a chunk ends before byte k: the destination leaves an aligned 256-byte line (09 R299). Rows of a COPY2 that follow one another
within one line share a chunk. -/
def Copy.cuts (x : Copy) (k : Nat) : Bool :=
  match x.op with
  | .copyf | .copyw => k % 256 == 0
  | _ => x.dstAt k / 256 != x.dstAt (k - 1) / 256

/-- The length of the chunk at an offset, from n bytes on. -/
def chunkGo (x : Copy) (off : Nat) : Nat → Nat → Nat
  | 0, n => n
  | f + 1, n => if x.total ≤ off + n ∨ x.cuts (off + n) then n else chunkGo x off f (n + 1)

/-- The length of the chunk at an offset. -/
def Copy.chunkLen (x : Copy) (off : Nat) : Nat := chunkGo x off (if x.op = .copy2 then x.total else 256) 1

/-- The bytes that a chunk of a COPY or COPY2 leaves in its line, by address: where rows overlap in it the later row stands (09 R301). -/
def Copy.stores (x : Copy) (off pa : Nat) (bs : List Byte) : List (Nat × Byte) :=
  let m : SMap Byte := (bs.foldl (fun (a : SMap Byte × Nat) b => (mset a.1 (x.dstAt (off + a.2) % 256) b, a.2 + 1)) ([], 0)).1
  m.map (fun c => (pa / 256 * 256 + c.1, c.2))

/-- The offset of chunk q of COPY2. -/
def rowChunkOff (x : Copy) : Nat → Nat
  | 0 => 0
  | q + 1 => rowChunkOff x q + x.chunkLen (rowChunkOff x q)

/-- The offset of chunk q; the total and more beyond the last chunk. -/
def Copy.chunkOff (x : Copy) (q : Nat) : Nat :=
  match x.op with
  | .copy2 => rowChunkOff x q
  | .copy | .copyr => if q = 0 then 0 else 256 - x.r0.toNat % 256 + 256 * (q - 1)
  | _ => 256 * q

/-! ## Progress (09 Table copy-9) -/

/-- The code of a copy's state; a squashed copy reads RUN. -/
def CopySt.code : CopySt → Nat
  | .admission => 1 | .bkwait _ => 2 | .panelwait => 3 | .run => 4 | .stall _ => 5 | .done => 6 | .failed => 7 | .squashed => 4

/-- The value CPROG reads. A cause shows once the copy has ended. -/
def Copy.prog (x : Copy) : Nat :=
  let pre := x.chunkOff x.pfx
  let pre := if x.st = .done ∨ x.total < pre then x.total else pre
  x.st.code * 2 ^ 60 + (if x.st = .done ∨ x.st = .failed then x.cause else 0) * 2 ^ 56 + (if x.st = .done then 0 else x.mask % 2 ^ 16) * 2 ^ 40 + pre % 2 ^ 40

/-- The fault code a copy event record names for a cause (09 R308). -/
def causeFault (cause : Nat) : Nat :=
  if cause = 2 then 0x15 else if cause = 3 then 0x0C else if cause = 4 then 0x0B else if cause = 5 then 0x0A else 0

/-- Post a copy event record (14 Table context-3). -/
def copyRecord (s : State) (c : CopyRef) (x : Copy) (cause : Nat) : State :=
  postEvent s x.ctx (mkRec [(0, 0x11), (1, cause), (4, copyHandle c x.serial), (8, x.prog), (16, x.va), (24, causeFault cause)])

/-! ## The end of a copy (09 R307, R500) -/

/-- Whether a copy has ended. -/
def Copy.over (x : Copy) : Bool := x.st == .done || x.st == .failed

/-- The increment of a signal word is not performed: the copy's cause, where it was DONE, and its record (09 R500, 08 R281). -/
def signalLost (s : State) (c : CopyRef) : State :=
  let s := updCopy s c (fun x => { x with sigPending := false, completed := true, flight := [], cause := if x.st = .done then 13 else x.cause })
  match copyOf s c with
  | some x => copyRecord s c x 13
  | none => s

/-- The number under which the signal frame of a COPYR that has ended stands among its flights. -/
def sigFlight : Nat := 2 ^ 40

/-- Send the signal of a COPYR: a signal frame on a live port of a DONE copy, which waits for its answer; else a packet, once a port that
has left LIVE is DARK (09 R500). -/
def sendSignal (s : State) (c : CopyRef) (x : Copy) : State :=
  let port := portOf s x.port
  if !x.elec ∧ x.st = .done ∧ port.st = .live then
    let va := x.r3.toNat % 2 ^ 56 + 2 ^ 58
    updCopy (sendFrame s x.port x.dev va 0 x.rhandle (copyHandle c x.serial) []) c (fun x => { x with
      sigPending := false, flight := mset x.flight sigFlight ⟨[], s.ns, ⟨0, 0, true, Option.none⟩⟩ })
  else if !x.elec ∧ port.st ≠ .dark ∧ port.st ≠ .live then s
  else if planeUp s ∧ !s.lanes.isEmpty then
    let line := x.r3.toNat / 256 * 256
    let h := reqHdr x.rhandle 5 line
    updCopy (sendReq s x.dev 3 h (List.replicate 288 0 ++ toBytes 8 x.r3.toNat) (.signal c)).2 c (fun x => { x with sigPending := false })
  else signalLost s c

/-- The completion event of a copy (09 R307). -/
def copyCompletion (s : State) (c : CopyRef) (x : Copy) : State :=
  match x.node with
  | some h => agentEnd (updCopy s c (fun x => { x with completed := true })) x.ctx h (x.st == .done) x.cause
  | none =>
    match x.kind with
    | .ic => lowerIc (updCopy s c (fun x => { x with completed := true })) x.uid x.ret
    | .node => sendDecr (updCopy s c (fun x => { x with completed := true })) x.ctx (x.r3.toNat % 2 ^ 32) 1
    | .sig =>
      if x.op = .copyr then sendSignal (updCopy s c (fun x => { x with sigPending := true })) c { x with sigPending := true }
      else
        let s := updCopy s c (fun x => { x with completed := true })
        match incrSignal s devCl x.ctx x.tag x.r3.toNat with
        | (true, s) => s
        | (false, s) => signalLost s c

/-- A copy ends: DONE, or FAILED with its cause and record; then its completion, and the answer of a CKILL that waited: 1 where the copy
finished first (09 R318). -/
def endCopy (s : State) (c : CopyRef) (ok : Bool) : State :=
  match copyOf s c with
  | none => s
  | some x =>
    let y := { x with st := if ok then CopySt.done else .failed, cause := if ok then 0 else x.cause, killer := none, killed := none }
    let s := setCopy s c y
    let s := if ok then s else copyRecord s c y y.cause
    let s := if x.op = .copyf then updClust s (clusterOf x.core) (fun k =>
        if x.r0.toNat = 0 then { k with filledA := k.filledA ++ [x.pos] } else { k with filledB := k.filledB ++ [x.pos] }) else s
    let s := copyCompletion s c y
    let s := match x.killer with
      | some op => deliver s op (if ok then 1 else 0)
      | none => s
    ctxSettle s x.ctx

/-- A copy fails; it ends when no chunk is in flight. -/
def failCopy (s : State) (c : CopyRef) (cause va : Nat) : State :=
  let s := updCopy s c (fun x => if x.failing then x else { x with failing := true, cause := cause, va := va })
  match copyOf s c with
  | some x => if x.flight.isEmpty then endCopy s c false else s
  | none => s

/-! ## COPYW targets (09 R296, R309) -/

/-- Whether the target of a COPYW can be written by a context, over n registers or bytes. -/
def targetOk (s : State) (ctx w n : Nat) : Bool :=
  let t := warpOf s (twCore w) (twSlot w)
  holderOf s (partOf (clusterOf (twCore w))) == some ctx && !t.slices.isEmpty && t.ctx == ctx &&
    (if twScratch w then
      (match mget s.blocks t.block with
        | some b => b.st == .resident && decide (twOff w + n ≤ b.scratchBytes)
        | none => false)
     else decide (twReg w + n ≤ 128 + 64 * t.held) && decide (twLane w + twLanes w ≤ t.width))

/-- Write one chunk of a COPYW, 4 bytes at a time, each one event between two issue cycles (07 R261). -/
def writeTarget (s : State) (x : Copy) (off : Nat) (bs : List Byte) : State :=
  let w := x.r1.toNat
  let t := warpOf s (twCore w) (twSlot w)
  if twScratch w then
    match mget s.blocks t.block with
    | some b => scratchWrite s (twCore w) (b.scratchBase + twOff w + off) bs
    | none => s
  else
    (List.range (bs.length / 4)).foldl (fun s i =>
      let k := (off + 4 * i) / 4
      updWarp s (twCore w) (twSlot w) (fun t =>
        t.setV (twReg w + k / twLanes w) (twLane w + k % twLanes w) (BitVec.ofNat 32 (fld bs (4 * i) 4)))) s

/-! ## Chunks (09 R299-R306) -/

/-- How the translation of a chunk's pages ends. -/
inductive PageRes where
  | ok (x : Xlat)
  | absent (f : PageFault) (va : Nat)
  | bad (cause va : Nat)

/-- Whether a frame may be copied from and to: owned by the context or shared (09 R302, 14 R420). -/
def frameOk (s : State) (ctx : Nat) (x : Xlat) : Bool :=
  let own := fun pa => !inDevice pa || (let o := mgetD s.frameOwner (pa / 2 ^ 21) 0; o == ctx || o == 0xFFFF)
  own x.pa && (match x.twin with | some (sz, _) => own (x.pa + sz) | none => true)

/-- Translate a page of a copy and check its owner (09 R302). -/
def copyPage (s : State) (cl ctx va : Nat) (kind : AccessKind) : PageRes × State :=
  match translate s cl ctx va kind with
  | (.error f, s) => (.absent f va, s)
  | (.ok x, s) => (if frameOk s ctx x then .ok x else .bad 4 va, s)

/-- Read source bytes in order at their homes (09 R300, 07 R498); the pages are translated in order, each once. -/
def copyRead (cl ctx : Nat) : List (Option Nat) → List (Nat × Xlat) → State → Except PageRes (List Byte) × State
  | [], _, s => (.ok [], s)
  | none :: t, ps, s =>
    match copyRead cl ctx t ps s with
    | (.ok bs, s) => (.ok (0 :: bs), s)
    | (.error e, s) => (.error e, s)
  | some a :: t, ps, s =>
    let hit := ps.find? (fun p => p.1 == a / 4096)
    let r := match hit with
      | some p => (PageRes.ok { p.2 with pa := p.2.pa + a % 4096 }, s)
      | none => copyPage s cl ctx a .read
    match r.1 with
    | .ok x =>
      let b := homeRead r.2 x.key (resolve r.2 ctx x false) 1
      let ps := if hit.isSome then ps else ps ++ [(a / 4096, { x with pa := x.pa - a % 4096 })]
      match copyRead cl ctx t ps b.2 with
      | (.ok bs, s) => (.ok (b.1 ++ bs), s)
      | (.error e, s) => (.error e, s)
    | e => (.error e, r.2)

/-- The bytes of a compressed block from its header and payload: `none` where the header breaks 09 Table copy-7. -/
def dzDecode (method : Nat) (p : List Byte) : Option (List Byte) :=
  let bitmap := fun (n unit : Nat) =>
    let go := (List.range (4096 / unit)).foldl (fun (a : List Byte × List Byte) i =>
      if ((p[i / 8]?).getD 0).getLsbD (i % 8) then (a.1 ++ a.2.take unit, a.2.drop unit)
      else (a.1 ++ List.replicate unit 0, a.2)) ([], p.drop n)
    let used := n + unit * ((List.range (4096 / unit)).filter (fun i => ((p[i / 8]?).getD 0).getLsbD (i % 8))).length
    if p.length = used then some go.1 else none
  match method with
  | 0 => if p.length = 4096 then some p else none
  | 1 => if p.length = 0 then some (List.replicate 4096 0) else none
  | 2 => bitmap 512 1
  | 3 => bitmap 256 2
  | _ => none

/-- Read and decode the block at a source address: its bytes and the source bytes it occupies (09 R305, R306). -/
def dzBlock (cl ctx va : Nat) (s : State) : Except PageRes (List Byte × Nat) × State :=
  match copyRead cl ctx ((List.range 8).map (fun i => some (va + i))) [] s with
  | (.error e, s) => (.error e, s)
  | (.ok h, s) =>
    let w := ofBytes h
    let len := bits w 16 16
    if bits w 4 12 ≠ 0 ∨ 4 ≤ w % 16 then (.error (.bad 6 0), s)
    else
      match copyRead cl ctx ((List.range len).map (fun i => some (va + 8 + i))) [] s with
      | (.error e, s) => (.error e, s)
      | (.ok p, s) =>
        match dzDecode (w % 16) p with
        | none => (.error (.bad 6 0), s)
        | some bs => if crc32 bs = w / 2 ^ 32 then (.ok (bs, 8 + (len + 7) / 8 * 8), s) else (.error (.bad 7 0), s)

/-- Decode blocks until the bytes up to an offset are known. -/
def dzEnsure (cl : Nat) (upto : Nat) : Nat → Copy → State → Except PageRes Copy × State
  | 0, x, s => (.ok x, s)
  | n + 1, x, s =>
    if upto ≤ 4096 * (x.dzIdx + x.dzSizes.length) then (.ok x, s)
    else
      match dzBlock cl x.ctx (x.dzOff + x.dzSizes.foldl (· + ·) 0) s with
      | (.error e, s) => (.error e, s)
      | (.ok b, s) => dzEnsure cl upto n { x with dzBlk := x.dzBlk ++ b.1, dzSizes := x.dzSizes ++ [b.2] } s

/-- The source bytes of a chunk, read now. -/
def chunkSource (cl : Nat) (x : Copy) (off n : Nat) (s : State) : Except PageRes (List Byte × Copy) × State :=
  if x.dz then
    match dzEnsure cl (off + n) 4 x s with
    | (.error e, s) => (.error e, s)
    | (.ok y, s) => (.ok ((y.dzBlk.drop (off - 4096 * y.dzIdx)).take n, y), s)
  else
    match copyRead cl x.ctx ((List.range n).map (fun i => x.srcAt (off + i))) [] s with
    | (.error e, s) => (.error e, s)
    | (.ok bs, s) => (.ok (bs, x), s)

/-- A copy meets a translation fault: it waits on the page's record, or opens one (09 R302, R499). -/
def stallCopy (s : State) (c : CopyRef) (x : Copy) (f : PageFault) (va : Nat) : State :=
  match ctxOf s x.ctx with
  | none => s
  | some k =>
    match recordOn k (some (va / 4096)) with
    | some n => updCopy s c (fun x => { x with st := .stall n, va := va })
    | none =>
      let place := if x.node.isSome then (0xFFFF, 0xFF) else (x.core, if (findWarp s x.uid).isSome then x.slot else 0xFF)
      let r := openRecord s x.ctx
        { code := if f.absent then 8 else 9, cause := f.cause, level := f.level, info := BitVec.ofNat 64 va, page := some (va / 4096),
          flags := 2, core := place.1, slot := place.2, pc := 0, slices := 0, handle := BitVec.ofNat 32 (copyHandle c x.serial),
          warps := [], closing := none }
      updCopy r.2 c (fun x => { x with st := .stall r.1, va := va })

/-- A page of a chunk did not go through. -/
def pageTrouble (s : State) (c : CopyRef) (x : Copy) (e : PageRes) : State :=
  match e with
  | .ok _ => s
  | .absent f va => stallCopy s c x f va
  | .bad cause va => failCopy s c cause va

/-- The cluster whose TLB serves a copy: its core's, or the device's own for a channel. -/
def copyCl (x : Copy) : Nat := if x.node.isSome then devCl else clusterOf x.core

/-- Put chunk q in flight with its bytes, which are charged (13 Table queue-2). -/
def flyChunk (s : State) (c : CopyRef) (x : Copy) (q : Nat) (bs : List Byte) (xl : Xlat) : State :=
  updCopy (charge s 6 bs.length) c (fun y => { y with
    next := q + 1, flight := mset y.flight q ⟨bs, s.ns, xl⟩, group := x.group, dzBlk := x.dzBlk, dzSizes := x.dzSizes })

/-- A translation that names no place. -/
def Xlat.none : Xlat := ⟨0, 0, true, Option.none⟩

/-- Send chunk q of a COPYR on its plane (09 R303). -/
def sendChunk (s : State) (c : CopyRef) (x : Copy) (q off : Nat) (bs : List Byte) : State :=
  let va := x.dstAt off
  if x.elec then
    if !planeUp s then failCopy s c 11 0
    else
      let s := flyChunk s c x q bs Xlat.none
      let image := List.replicate (va % 256) 0 ++ bs
      let mask := (2 ^ bs.length - 1) * 2 ^ (va % 256)
      let h := reqHdr x.rhandle (0x0D + b2n x.sh * 0x10) (va / 256 * 256)
      (sendReq s x.dev 2 h (toBytes 32 mask ++ padTo 256 image ++ toBytes 4 (copyHandle c x.serial)) (.chunk c q)).2
  else if (portOf s x.port).st ≠ .live then failCopy s c 2 0
  else
    let s := flyChunk s c x q bs Xlat.none
    let last := b2n (decide (x.total ≤ off + bs.length))
    sendFrame s x.port x.dev (va % 2 ^ 56 + last * 2 ^ 56 + b2n x.sh * 2 ^ 57) bs.length x.rhandle (copyHandle c x.serial) bs

/-- The engine translates, checks, reads and sends the next chunk (09 R299, R302). -/
def issueChunk (s : State) (c : CopyRef) (x : Copy) : State :=
  let off := x.chunkOff x.next
  let n := x.chunkLen off
  let cl := copyCl x
  let source := fun (s : State) (x : Copy) (xl : Xlat) =>
    match chunkSource cl x off n s with
    | (.error e, s) => pageTrouble s c x e
    | (.ok (bs, y), s) => if x.op = .copyr then sendChunk s c y x.next off bs else flyChunk s c y x.next bs xl
  match x.op with
  | .copyw =>
    let t := warpOf s (twCore x.r1.toNat) (twSlot x.r1.toNat)
    if t.uid = x.pos ∧ targetOk s x.ctx x.r1.toNat x.r2.toNat then source s x Xlat.none else failCopy s c 3 0
  | .copyf | .copyr => source s x Xlat.none
  | _ =>
    match copyPage s cl x.ctx (x.dstAt off) .write with
    | (.ok xl, s) =>
      if x.sh then
        match xl.twin with
        | none => failCopy s c 5 (x.dstAt off)
        | some (_, g) =>
          if x.group.getD g = g then source s { x with group := some g } xl else failCopy s c 5 (x.dstAt off)
      else source s x xl
    | (e, s) => pageTrouble s c x e

/-- Whether a stream position has been released (10 R328). -/
def posReleased (k : Cluster) (a : Bool) (p : Nat) : Bool :=
  decide (p < (if a then k.headA else k.headB)) &&
    k.passes.all (fun q => q.2.st == .done || q.2.st == .failed || !(if a then q.2.posA else q.2.posB).contains p)

/-- Whether the copies of a context move: it holds its partitions, and at a forced pre-emption the drain limit has not passed (09 R312). -/
def copyRuns (s : State) (ctx : Nat) : Bool :=
  match ctxOf s ctx with
  | none => false
  | some c =>
    (match (if c.st = .faulted then c.prev else c.st) with
      | .resident | .running | .preempting => true
      | _ => false) && (match c.pre with | some p => !p.drained | none => true)

/-- Test the buckle that a copy waits on (09 R310): a tie that it has seen and that has ended fails it, a fastened one lets it start. -/
def testBuckle (s : State) (c : CopyRef) (x : Copy) (seen : Nat) : State :=
  if !holdsBuckle s x.ctx x.b then failCopy s c 9 0
  else
    match mget s.buckles x.b with
    | none => if seen = 0 then s else failCopy s c 2 0
    | some k =>
      if seen ≠ 0 ∧ seen ≠ k.tie then failCopy s c 2 0
      else updCopy s c (fun x => { x with st := if k.fastened then .run else .bkwait k.tie })

/-- COPY_CHUNK_ISSUE (09 R299, R304, R310, R311, R314): the engine moves a copy on: a wait ends, a chunk goes out, or a copy that has
stopped ends. -/
def execCopyChunkIssue (c : CopyRef) (s : State) : Out :=
  match copyOf s c with
  | none => .next s
  | some x =>
   let s := { s with payer := copyPayer s x }
   if !copyRuns s x.ctx then .next s
   else if x.failing then .next (if x.flight.isEmpty ∧ !x.over then endCopy s c false else s)
   else
    match x.st with
    | .bkwait seen => .next (testBuckle s c x seen)
    | .panelwait =>
      let k := clustOf s (clusterOf x.core)
      let a := x.r0.toNat == 0
      if x.pos < 8 ∨ posReleased k a (x.pos - 8) then .next (updCopy s c (fun x => { x with st := .run })) else .next s
    | .run =>
      if x.total ≤ x.chunkOff x.pfx then .next (endCopy s c true)
      else if x.total ≤ x.chunkOff x.next ∨ x.pfx + 16 ≤ x.next then .next s
      else if bit x.mask (x.next - x.pfx) then .next (updCopy s c (fun x => { x with next := x.next + 1 }))
      else .next (issueChunk s c x)
    | _ => .next s

/-- Advance the prefix over performed chunks (09 R299). -/
def advancePrefix : Nat → Copy → Copy
  | 0, x => x
  | n + 1, x =>
    if bit x.mask 0 then
      let x := { x with pfx := x.pfx + 1, mask := x.mask / 2 }
      -- a decoded block that the prefix has passed is dropped
      let x := if x.dz && decide (4096 * (x.dzIdx + 1) ≤ x.chunkOff x.pfx) then
          { x with dzIdx := x.dzIdx + 1, dzOff := x.dzOff + x.dzSizes.headD 0, dzBlk := x.dzBlk.drop 4096, dzSizes := x.dzSizes.drop 1 }
        else x
      advancePrefix n x
    else x

/-- Chunk q has been performed: the progress register follows, and a copy whose last chunk it was ends (09 R299, R307). The last chunk of a
copy that reaches the engine in the cycle of a kill comes before the kill (09 R318). -/
def chunkDone (s : State) (c : CopyRef) (q : Nat) : State :=
  let s := updCopy s c (fun x =>
    if (mget x.flight q).isSome then
      advancePrefix 16 { x with flight := mdel x.flight q, mask := x.mask ||| 2 ^ (q - x.pfx) }
    else x)
  match copyOf s c with
  | some x =>
    if x.over ∨ !x.flight.isEmpty then s
    else if x.failing then endCopy s c (x.killed == some s.cycle && decide (x.total ≤ x.chunkOff x.pfx))
    else if x.st = .run ∧ x.total ≤ x.chunkOff x.pfx then endCopy s c true else s
  | none => s

/-- Chunk q will not be performed: the copy fails. -/
def chunkLost (s : State) (c : CopyRef) (q cause : Nat) : State :=
  let s := updCopy s c (fun x => { x with flight := mdel x.flight q })
  match copyOf s c with
  | some x => if x.over then s else failCopy s c cause (x.dstAt (x.chunkOff q))
  | none => s

/-- COPY_CHUNK_PERFORMED (09 R299, R300, R309). A COPYR's chunks are answered by its target. -/
def execCopyChunkPerformed (c : CopyRef) (chunk : Nat) (s : State) : Out :=
  match copyOf s c with
  | none => .next s
  | some x =>
    match mget x.flight chunk with
    | none => .next s
    | some k =>
      let off := x.chunkOff chunk
      let s := { s with payer := copyPayer s x }
      match x.op with
      | .copyr => .next s
      | .copyw =>
        let t := warpOf s (twCore x.r1.toNat) (twSlot x.r1.toNat)
        if t.uid = x.pos ∧ targetOk s x.ctx x.r1.toNat x.r2.toNat then .next (chunkDone (writeTarget s x off k.bytes) c chunk)
        else .next (chunkLost s c chunk 3)
      | .copyf =>
        let base := (if x.r0.toNat = 0 then 0 else 2 ^ 20) + x.dstAt off
        let s := updClust s (clusterOf x.core) (fun y => { y with
          panels := (k.bytes.foldl (fun (a : SMap Byte × Nat) b => (mput 0 a.1 a.2 b, a.2 + 1)) (y.panels, base)).1 })
        .next (chunkDone s c chunk)
      | _ =>
        let s := writeUnits s x.tag k.x.key (x.stores off (resolve s x.ctx k.x x.sh) k.bytes)
        .next (chunkDone s c chunk)

/-- Whether the next chunk of a copy may go out (09 R299). -/
def Copy.sends (x : Copy) : Bool :=
  x.st == .run && !x.failing && decide (x.chunkOff x.pfx < x.total) && decide (x.chunkOff x.next < x.total) &&
    decide (x.next < x.pfx + 16) && !bit x.mask (x.next - x.pfx)

/-- The check of a chunk's data fails (09 R304), of the next chunk before it goes out or of one in flight at its destination here: the chunk
is not written, and the copy fails with INTEGRITY. A COPYR's chunks in flight are checked by its target. -/
def copyError (c : CopyRef) (chunk : Nat) (s : State) : State :=
  match copyOf s c with
  | none => s
  | some x =>
    if (mget x.flight chunk).isSome then (if x.op = .copyr then s else chunkLost { s with payer := copyPayer s x } c chunk 8)
    else if chunk = x.next ∧ copyRuns s x.ctx ∧ x.sends then failCopy { s with payer := copyPayer s x } c 8 0
    else s

/-- COPYR_CHUNK_TIMEOUT (09 R303, R500): 1,000 µs without an acknowledgement, of a chunk or of the signal frame. -/
def execCopyrChunkTimeout (c : CopyRef) (chunk : Nat) (s : State) : Out :=
  match copyOf s c with
  | none => .next s
  | some x =>
    match mget x.flight chunk with
    | none => .next s
    | some k =>
      if x.op ≠ .copyr ∨ s.ns < k.sent + 1000000 then .next s
      else if x.over then .next (signalLost s c)
      else
        let s := match s.reqs.find? (fun r => r.owner == .chunk c chunk) with
          | some r => retireReq s r
          | none => { s with reqQueue := s.reqQueue.filter (fun r => r.owner != .chunk c chunk) }
        .next (chunkLost s c chunk 12)

/-! ## Taking up (09 R297, R314) -/

/-- COPY_TAKE_UP (09 R314): the first admitted copy of a core, behind its implicit release; `core` 0x3FF takes up channels. -/
def execCopyTakeUp (core : Nat) (s : State) : Out :=
  let mine := (allCopies s).filter (fun q => q.1.core == core && q.2.st == .admission && copyRuns s q.2.ctx)
  match leastBy (fun q => q.2.order) mine with
  | none => .next s
  | some (c, x) =>
    if accessesDone s x.uid 0xFFFF x.after && (!scopeWide x.scope || sketchesDone s x.uid x.after) &&
        (x.scope != .domain || remotesDone s x.uid x.after) then
      let s := { s with payer := copyPayer s x }
      let s := if x.node.isNone ∧ scopeWide x.scope then cleanCtx s (clusterOf core) x.ctx else s
      if x.total = 0 then .next (endCopy s c true)
      else .next (updCopy s c (fun x => { x with st := if x.bk then .bkwait 0 else if x.op = .copyf then .panelwait else .run }))
    else .next s

/-! ## The words (09 R291-R296, R317, R318) -/

/-- Free copy slots of a core (09 R294). -/
def freeCopySlots (c : Core) : List Nat :=
  (List.range 128).filter (fun k => match mget c.copies k with
    | none => true
    | some x => x.over && x.completed && x.killer.isNone)

/-- The pages of a copy's source or destination, by the first byte of each page run. -/
def extentPages (x : Copy) (at' : Nat → Option Nat) : List Nat :=
  match x.op with
  | .copy2 => ((List.range x.rows).flatMap (fun i => match at' (i * x.rowBytes) with | some a => pagesOf a x.rowBytes | none => [])).eraseDups
  | .copyf => ((List.range (bits x.r2.toNat 0 8)).flatMap (fun i =>
      match at' (i * 512) with | some a => pagesOf a (bits x.r2.toNat 8 10) | none => [])).eraseDups
  | _ => match at' 0 with | some a => pagesOf a x.total | none => []

/-- The end of the source bytes that a .dz copy covers, by its block headers as they stand, and whether every header could be read: up to
one that cannot be. -/
def dzExtent (s : State) (cl ctx : Nat) : Nat → Nat → Nat × Bool
  | 0, va => (va, true)
  | n + 1, va =>
    match (readVa s cl ctx va 8).1 with
    | .ok h => dzExtent s cl ctx n (va + 8 + (bits (ofBytes h) 16 16 + 7) / 8 * 8)
    | .error _ => (va, false)

/-- Record the tiles of an extent; a page that does not translate marks the block open (12 R390). -/
def tracePages (s : State) (cl ctx : Nat) (kind : AccessKind) (ps : List Nat) (t : Trace) : Trace :=
  ps.foldl (fun t a =>
    match (translate s cl ctx a kind).1 with
    | .ok x => (xlatTiles x).foldl (fun t k => t.touch (kind == .write) k) t
    | .error _ => { t with open_ := true }) t

/-- What a traced block records of a copy (12 Table kernel-10). -/
def traceCopy (s : State) (w : Warp) (x : Copy) : State :=
  if !traced s w.launch then s
  else
    let cl := clusterOf x.core
    let e := if x.dz then dzExtent s cl x.ctx (x.total / 4096) x.r1.toNat else (0, true)
    let src := if x.dz then pagesOf x.r1.toNat (e.1 - x.r1.toNat) else extentPages x x.srcAt
    updTrace s w (fun t =>
      if x.op = .copyr then { t with volatile := true }
      else
        let t := tracePages s cl x.ctx .read src (if e.2 then t else { t with open_ := true })
        if x.op = .copy ∨ x.op = .copy2 then tracePages s cl x.ctx .write (extentPages x (fun k => some (x.dstAt k))) t else t)

/-- The descriptor register k of a slice. -/
def descReg (s : State) (x : CopyArgs) (j k : Nat) : W64 := ((cw s).slice j).sreg (4 * x.k + k)

/-- The C operand of a slice. -/
def copyC (s : State) (x : CopyArgs) (j : Nat) : Nat := match x.c with | some o => op64 s o (lane0 j) | none => 0

/-- The copy a slice issues, in ADMIT. -/
def newCopy (s : State) (op : CopyOp) (x : CopyArgs) (j serial order after pos : Nat) : Copy :=
  let w := cw s
  { op := op, st := .admission, ctx := w.ctx, core := s.cur.core, slot := s.cur.slot, uid := w.uid, launch := w.launch
    tag := launchTag s w.launch, r0 := descReg s x j 0, r1 := descReg s x j 1, r2 := descReg s x j 2, r3 := descReg s x j 3
    b := (match x.b with | some o => op32 s o (lane0 j) | none => 0), c := BitVec.ofNat 64 (copyC s x j), kind := x.kind
    scope := x.scope, sh := x.sh, dz := x.dz, bk := x.b.isSome, serial := serial, order := order, after := after, next := 0, pfx := 0
    mask := 0, flight := [], cause := 0, failing := false, va := 0, group := none, pos := pos, dzIdx := 0
    dzOff := (descReg s x j 1).toNat, dzBlk := [], dzSizes := [], ret := order, node := none, completed := false, sigPending := false
    killer := none, killed := none }

/-- Admit the copy of one slice in a slot: its serial, its count on ic2, its stream position; the answer is the handle (09 R294). -/
def admitCopy (op : CopyOp) (x : CopyArgs) (after : Nat) (s : State) (j slot : Nat) : Nat × State :=
  let f := fresh s
  let s := f.2
  let core := s.cur.core
  let serial := (mgetD (coreOf s core).serials slot 0 + 1) % 2 ^ 14
  let cl := clusterOf core
  let a := (descReg s x j 0).toNat == 0
  let k := clustOf s cl
  let w := (descReg s x j 1).toNat
  let pos := if op = .copyf then (if a then k.fillA else k.fillB)
    else if op = .copyw then (warpOf s (twCore w) (twSlot w)).uid else 0
  let s := if op = .copyf then updClust s cl (fun k =>
      let k := { k with fillLast := some (s.cycle, core) }
      if a then { k with fillA := k.fillA + 1 } else { k with fillB := k.fillB + 1 }) else s
  let y := newCopy s op x j serial f.1 after pos
  let s := updCore s core (fun c => { c with copies := mset c.copies slot y, serials := mset c.serials slot serial })
  let s := if x.kind = .ic then updCw s (fun w => w.raise 2 f.1) else s
  (copyHandle ⟨core, slot⟩ serial, traceCopy s (cw s) y)

/-- Admit the copies of the slices in order; the answers are the handles by slice. -/
def admitAll (op : CopyOp) (x : CopyArgs) (after : Nat) : List (Nat × Nat) → State → List (Nat × Nat) × State
  | [], s => ([], s)
  | (j, slot) :: t, s =>
    let r := admitCopy op x after s j slot
    let q := admitAll op x after t r.2
    ((j, r.1) :: q.1, q.2)

/-- The fields of a copy word. -/
def copyUse (x : CopyArgs) : Use :=
  { ops := (match x.b with | some o => [(o, false)] | none => []) ++ (match x.c with | some o => [(o, true)] | none => []) ++
      (List.range 4).map (fun i => (Opnd.reg (.s (4 * x.k + i)), true))
    dst := some (x.d, 1) }

/-- A core above this one of its cluster has taken a stream position in this cycle: a COPYF here issues in a later one, so that the positions
of a cycle rise with the cores (09 R311). -/
def fillBehind (s : State) : Bool :=
  match (clustOf s (clusterOf s.cur.core)).fillLast with
  | some (c, k) => c == s.cycle && decide (s.cur.core < k)
  | none => false

/-- A moving copy word: one copy for each issuing slice (09 R293-R296). -/
def copyWord (op : CopyOp) (x : CopyArgs) (s : State) : Out :=
  issueWord (copyUse x) (fun s =>
    let ok := (curSlices s).filter (fun j => shapeOk op x.kind x.dz (descReg s x j 0).toNat (descReg s x j 1).toNat
      (descReg s x j 2).toNat (descReg s x j 3).toNat (copyC s x j))
    let badW := op == .copyw && ok.any (fun j => !targetOk s (cw s).ctx (descReg s x j 1).toNat (descReg s x j 2).toNat)
    if badW then .trap (flt 0xC)
    else
      let slots := (freeCopySlots (coreOf s s.cur.core)).take ok.length
      if slots.length < ok.length ∨ (x.kind = .ic ∧ 63 < (cw s).ic 2 + ok.length) ∨ (op = .copyf ∧ fillBehind s) then .stall
      else
        let r := admitAll op x s.nextId (ok.zip slots) s
        .done (wbLanes r.2 x.d false false 4 (fun l =>
          match r.1.find? (fun h => h.1 == l / 4) with | some h => h.2 | none => 0xFFFFFFFF))) s

/-- COPY (09 R315). -/
def execCopy (x : CopyArgs) (s : State) : Out := copyWord .copy x s
/-- COPY2 (09 R315). -/
def execCopy2 (x : CopyArgs) (s : State) : Out := copyWord .copy2 x s
/-- COPYF (09 R311, R316). -/
def execCopyf (x : CopyArgs) (s : State) : Out := copyWord .copyf x s
/-- COPYW (09 R296, R316). -/
def execCopyw (x : CopyArgs) (s : State) : Out := copyWord .copyw x s
/-- COPYR (09 R303, R315). -/
def execCopyr (x : CopyArgs) (s : State) : Out := copyWord .copyr x s

/-- The copy a handle names in a context (09 Table copy-5). -/
def copyByHandle (s : State) (ctx h : Nat) : Option (CopyRef × Copy) :=
  let c : CopyRef := ⟨bits h 7 10, bits h 0 7⟩
  match copyOf s c with
  | some x => if x.ctx = ctx ∧ x.serial = bits h 17 14 ∧ !bit h 31 then some (c, x) else none
  | none => none

/-- CPROG (09 R317). -/
def execCprog (d : Dst) (a : Opnd) (s : State) : Out :=
  issueWord { ops := [(a, false)], dst := some (d, 2) } (fun s =>
    let v := match copyByHandle s (cw s).ctx (lowOp s false a) with | some (_, x) => x.prog | none => 0
    .done (wbLanes s d true false 2 (fun _ => v))) s

/-- CKILL (09 R318): the status waits for the chunks in flight. Until then the copy reads as it stood. -/
def execCkill (d : Dst) (a : Opnd) (s : State) : Out :=
  issueWord { ops := [(a, false)], dst := some (d, 1) } (fun s =>
    match copyByHandle s (cw s).ctx (lowOp s false a) with
    | none => wbStatus s d 2
    | some (c, x) =>
      if x.over then wbStatus s d 1
      else
        let s := updCopy s c (fun x => { x with failing := true, cause := 1, killed := some s.cycle })
        if x.flight.isEmpty then wbStatus (endCopy s c false) d 0
        else if x.killer.isSome then .stall
        else
          let r := launchTx s none { (mkTx s false false (.reply d s.cur.mask) []) with launch := 0 }
          .done (issuePend (updCopy r.2 c (fun x => { x with killer := some r.1 })) d 1 (pendEntry d.reg false r.1) r.1)) s

/-! ## Pre-emption and ties (09 R310, R312, R313) -/

/-- DRAINLIM expires: RUN copies are squashed, their unwritten chunks abandoned; a COPYR waits for its answers (09 R312). -/
def Copy.squash (x : Copy) : Copy :=
  if x.st = .run ∧ !x.failing then { x with st := .squashed, flight := if x.op = .copyr then x.flight else [] } else x

/-- A saved copy returns: a squashed one is replayed from its prefix, and decodes its block again (09 R313). -/
def Copy.replay (x : Copy) : Copy := if x.st = .squashed then { x with st := .run, next := x.pfx, dzBlk := [], dzSizes := [] } else x

/-- The state of a buckle has changed: the copies that wait on it are tested (09 R310). -/
def testCopies (s : State) (n : Nat) : State :=
  (allCopies s).foldl (fun s q =>
    match q.2.st with
    | .bkwait seen => if q.2.b = n ∧ holdsBuckle s q.2.ctx n ∧ copyRuns s q.2.ctx then testBuckle s q.1 q.2 seen else s
    | _ => s) s

end Sys2Proof.Machine
end

