-- ==== Sys2Proof/Machine/Remote.lean ====
section
/-! DEFINITION. The electrical plane: remote words, the packets that arrive, answers and time-outs, lanes (15 R443-R456), and FSTAT. -/

namespace Sys2Proof.Machine

/-! ## FSTAT (15 R452) -/

/-- Count one event: bit k, and the device of the first. -/
def fstatCount (v : W64) (k dev : Nat) : W64 :=
  let n := v.toNat
  let d := if bit n 0 then bits n 32 10 else dev
  BitVec.ofNat 64 ((n ||| (2 ^ k + 1)) % 2 ^ 16 + clampN (bits n 16 16 + 1) 0xFFFF * 2 ^ 16 + d * 2 ^ 32)

/-- An event of a warp. -/
def fstatEvent (s : State) (uid k dev : Nat) : State := updUid s uid (fun w => { w with fstat := fstatCount w.fstat k dev })

/-! ## Sending (15 R450, R453-R455) -/

/-- Whether a remote word may be sent: fences and RFENCEs completed, strong loads, atomics, RLDs and RATOMs returned (15 R450). -/
def remoteClear (s : State) (uid : Nat) : Bool :=
  s.txs.all (fun t => !(t.2.uid == uid && (match t.2.kind with
    | .fence _ _ => true
    | .rfence => true
    | .load _ _ => t.2.strong
    | .atom _ _ _ _ => true
    | .remote _ d _ _ _ _ => d.isSome
    | _ => false)))

/-- The first fault of the lowest lane: misaligned address, misaligned flag, or bits [63:56] (15 R454). -/
def remoteFault (n : Nat) (va : Nat → Nat) (flag : Option (Nat → Nat)) (lanes : List Nat) : Option FaultInfo :=
  lanes.findSome? (fun l =>
    if va l % n ≠ 0 then some (fltAt 7 (va l))
    else
      match flag with
      | some f => if f l % 8 ≠ 0 then some (fltAt 7 (f l)) else if 2 ^ 56 ≤ va l then some (fltPage (va l) ⟨true, 1, 0⟩) else none
      | none => if 2 ^ 56 ≤ va l then some (fltPage (va l) ⟨true, 1, 0⟩) else none)

/-- The lanes of one packet: device, handle and line, or a flag's address in its place. -/
structure RGroup where
  dev : Nat
  handle : Nat
  line : Nat
  lanes : List Nat
deriving DecidableEq, Repr

/-- Group lanes by route and address. -/
def remoteGroups (rt addr : Nat → Nat) (lanes : List Nat) : List RGroup :=
  ((lanes.map (fun l => (bits (rt l) 0 10, bits (rt l) 16 16, addr l))).eraseDups).map (fun k =>
    ⟨k.1, k.2.1, k.2.2, lanes.filter (fun l => (bits (rt l) 0 10, bits (rt l) 16 16, addr l) == k)⟩)

/-- A lane that the device refuses itself: a bad route, or no trained plane (15 R444, R454). -/
def refusedHere (s : State) (rt : Nat) : Bool := bits rt 10 6 != 0 || bits rt 16 16 == 0 || !planeUp s

/-- All ones at a size. -/
def onesOf (n : Nat) : W64 := BitVec.ofNat 64 (256 ^ n - 1)

/-- The value of a lane of RLD or RATOM: all ones where the packet failed. -/
def failedVals (n : Nat) (lanes : List Nat) : List (Nat × W64) := lanes.map (fun l => (l, onesOf n))

/-- Write a remote word's results: RLD as LD, RATOM as ATOM (15 R453). -/
def landRemote (w : Warp) (now id : Nat) (mask : Nat) (d : Dst) (z : MSize) (op : Option (AtomOp × Bool)) (res : List (Nat × W64)) : Warp :=
  let val := fun (l : Nat) => (res.find? (fun r => r.1 == l)).map (fun r => r.2.toNat)
  match op with
  | some (_, wide) => landAtom w now id mask d wide false val
  | none =>
    let f := fun l => match val l with | some v => loadVal z (toBytes z.bytes v) | none => 0
    let sgn := z == .i8 || z == .i16
    let w := if d.nowb then w else w.writeReg mask d.reg (z == .b64) sgn f
    (w.unbusy id).fill now id (dstEntry d.reg (z == .b64) sgn f)

/-- `k` packets of a remote word have ended, with results; the last one ends the word (15 R451, R453). -/
def remoteAdd (s : State) (id k : Nat) (vals : List (Nat × W64)) : State :=
  match mget s.txs id with
  | some t =>
    match t.kind with
    | .remote n d z mask op res =>
      let res := res ++ vals
      if n ≤ k then
        let s := { s with txs := mdel s.txs id }
        let s := match d with
          | some d => updUid s t.uid (fun w => landRemote w s.cycle id mask d z op res)
          | none => s
        lowerIc s t.uid id
      else { s with txs := mset s.txs id { t with kind := .remote (n - k) d z mask op res } }
    | _ => s
  | none => s

/-- Put a remote word in flight with its packets: it stalls while R450 holds it back or its counter is full; refused lanes are counted
and answered at once. -/
def remoteIssue (s : State) (ic n : Nat) (d : Option Dst) (z : MSize) (op : Option (AtomOp × Bool)) (good bad : List RGroup)
    (send : Nat → State → State) (finish : Nat → State → State) : Act :=
  if !remoteClear s (cw s).uid ∨ 63 ≤ (cw s).ic ic then .stall
  else
    let uid := (cw s).uid
    let k := .remote (n + 1) d z s.cur.mask op (failedVals z.bytes (bad.flatMap (·.lanes)))
    let r := launchTx s (some ic) (mkTx s false false k [])
    let s1 := finish r.1 (traceVolatile r.2 (cw s))
    let s2 := bad.foldl (fun s g => fstatEvent s uid 4 g.dev) s1
    let s3 := if good.isEmpty then s2 else send r.1 s2
    .done (remoteAdd s3 r.1 1 [])

/-- The memory operand of a remote word: no index. -/
def remoteAddr (s : State) (a : Opnd) (off : Int) (n lane : Nat) : Nat := ofInt 64 ((op64 s a lane : Int) + off * (n : Int))

/-- The byte mask of lanes in a line. -/
def lineMask (n : Nat) (va : Nat → Nat) (lanes : List Nat) : Nat := lanes.foldl (fun m l => m ||| (2 ^ n - 1) * 2 ^ (va l % 256)) 0

/-- The lanes of a packet with their byte offsets. -/
def laneOffs (va : Nat → Nat) (lanes : List Nat) : List (Nat × Nat) := lanes.map (fun l => (l, va l % 256))

/-- RLD (15 R453, R454). -/
def execRld (x : RldArgs) (s : State) : Out :=
  issueWord { ops := [(x.a, true), (x.b, false)], dst := some (x.d, sizeRegs x.size) } (fun s =>
    let n := x.size.bytes
    let va := remoteAddr s x.a x.off n
    let rt := fun l => op32 s x.b l
    let lanes := loadLanes s x.d
    match remoteFault n va none lanes with
    | some f => .trap f
    | none =>
      let line := fun l => va l / 256 * 256
      let good := remoteGroups rt line (lanes.filter (fun l => !refusedHere s (rt l)))
      let bad := remoteGroups rt line (lanes.filter (fun l => refusedHere s (rt l)))
      remoteIssue s 3 good.length (some x.d) x.size none good bad
        (fun id s => good.foldl (fun s g => (sendReq s g.dev 1 (reqHdr g.handle (sizeCode x.size) g.line)
          (toBytes 32 (lineMask n va g.lanes)) (.word id (laneOffs va g.lanes))).2) s)
        (fun id s => issuePend s x.d (sizeRegs x.size) (loadEntry x.d x.size id) id)) s

/-- The mask and image of stores to one line; which of two lanes stands where they overlap is unspecified (07 R242). -/
def storeImage (n : Nat) (va : Nat → Nat) (data : Nat → List Byte) (lanes : List Nat) (s : State) : List Byte × State :=
  let ls := if (lanes.map va).eraseDups.length = lanes.length then (lanes, s)
    else let c := choose s lanes.length; (lanes.drop c.1 ++ lanes.take c.1, c.2)
  let m : SMap Byte := ls.1.foldl (fun m l =>
    ((data l).foldl (fun (a : SMap Byte × Nat) b => (mset a.1 a.2 b, a.2 + 1)) (m, va l % 256)).1) []
  (toBytes 32 (lineMask n va lanes) ++ (List.range 256).map (fun i => mgetD m i 0), ls.2)

/-- RST (15 R453, R454). -/
def execRst (x : RstArgs) (s : State) : Out :=
  issueWord { ops := [(x.a, true), (x.b, false)], vr := regCodes x.src (sizeRegs x.size), pr := [x.g.p] } (fun s =>
    let n := x.size.bytes
    let va := remoteAddr s x.a x.off n
    let rt := fun l => op32 s x.b l
    let data := storeBytes s x.src x.size
    let lanes := perfLanes s (some x.g)
    match remoteFault n va none lanes with
    | some f => .trap f
    | none =>
      let line := fun l => va l / 256 * 256
      let good := remoteGroups rt line (lanes.filter (fun l => !refusedHere s (rt l)))
      let bad := remoteGroups rt line (lanes.filter (fun l => refusedHere s (rt l)))
      remoteIssue s 5 good.length none x.size none good bad
        (fun id s => good.foldl (fun s g =>
          let im := storeImage n va data g.lanes s
          (sendReq im.2 g.dev 2 (reqHdr g.handle (sizeCode x.size) g.line) im.1 (.word id (laneOffs va g.lanes))).2) s)
        (fun _ s => retireVoid s)) s

/-- The routes of groups. -/
def routesOf (gs : List RGroup) : List (Nat × Nat) := (gs.map (fun g => (g.dev, g.handle))).eraseDups

/-- A flag increment alone (15 R455, 09 R500). -/
def sendFlag (s : State) (target handle flag : Nat) (owner : ReqOwner) : Nat × State :=
  sendReq s target 3 (reqHdr handle 5 (flag / 256 * 256)) (List.replicate 288 0 ++ toBytes 8 flag) owner

/-- Send the payload and flags of an RSTF to one route: one packet where each is one, else the flags follow the payload's answers. -/
def sendRoute (id op : Nat) (n : Nat) (va : Nat → Nat) (data : Nat → List Byte) (pay flags : List RGroup) (s : State) : State :=
  match pay, flags with
  | [g], [f] =>
    let im := storeImage n va data g.lanes s
    (sendReq im.2 g.dev 3 (reqHdr g.handle op g.line) (im.1 ++ toBytes 8 f.line) (.word id (laneOffs va g.lanes))).2
  | g0 :: _, _ =>
    let r := pay.foldl (fun (a : List Nat × State) g =>
      let im := storeImage n va data g.lanes a.2
      let q := sendReq im.2 g.dev 2 (reqHdr g.handle op g.line) im.1 (.word id (laneOffs va g.lanes))
      (a.1 ++ [q.1], q.2)) ([], s)
    { r.2 with flagWaits := r.2.flagWaits ++ [⟨id, g0.dev, g0.handle, flags.map (·.line), r.1, false⟩] }
  | _, _ => s

/-- RSTF (15 R453, R455). -/
def execRstf (x : RstfArgs) (s : State) : Out :=
  issueWord { ops := [(x.a, true), (x.b, false), (x.c, true)], vr := regCodes x.src (sizeRegs x.size), pr := [x.g.p] } (fun s =>
    let n := x.size.bytes
    let va := remoteAddr s x.a 0 n
    let rt := fun l => op32 s x.b l
    let flag := fun l => op64 s x.c l
    let data := storeBytes s x.src x.size
    let lanes := perfLanes s (some x.g)
    match remoteFault n va (some flag) lanes with
    | some f => .trap f
    | none =>
      let line := fun l => va l / 256 * 256
      let ok := lanes.filter (fun l => !refusedHere s (rt l))
      let good := remoteGroups rt line ok
      let flags := remoteGroups rt flag ok
      let bad := remoteGroups rt line (lanes.filter (fun l => refusedHere s (rt l)))
      let of := fun (r : Nat × Nat) (gs : List RGroup) => gs.filter (fun g => (g.dev, g.handle) == r)
      let count := (routesOf good).foldl (fun k r =>
        let p := (of r good).length
        let f := (of r flags).length
        k + if p = 1 ∧ f = 1 then 1 else p + f) 0
      remoteIssue s 5 count none x.size none good bad
        (fun id s => (routesOf good).foldl (fun s r => sendRoute id (sizeCode x.size) n va data (of r good) (of r flags) s) s)
        (fun _ s => retireVoid s)) s

/-- The operation offset of an atomic (01 Table word-19). -/
def atomCode : AtomOp → Nat
  | .add => 0 | .min => 1 | .max => 2 | .and => 3 | .or => 4 | .xor => 5 | .exch => 6 | .cas => 7 | .fadd => 8

/-- The atomic of an offset. -/
def atomOfCode (n : Nat) : Option AtomOp := [AtomOp.add, .min, .max, .and, .or, .xor, .exch, .cas, .fadd][n]?

/-- The payload of an RATOM packet: a byte offset and the operands of each lane (15 R445). -/
def ratomPayload (op : AtomOp) (n : Nat) (va : Nat → Nat) (vals : Nat → Nat × Nat) (lanes : List Nat) : List Byte :=
  lanes.flatMap (fun l => toBytes 1 (va l % 256) ++ toBytes n (vals l).1 ++ (if op = .cas then toBytes n (vals l).2 else []))

/-- RATOM (15 R453, R454). -/
def ratomWord (op : AtomOp) (x : RatomArgs) (s : State) : Out :=
  issueWord { ops := [(x.a, true), (x.b, false)] ++ (if op = .cas then [] else [(x.c, x.wide)])
              vr := (match op, x.c with | .cas, .reg r => regCodes r (if x.wide then 4 else 2) | _, _ => []) ++
                (if x.d.nowb then [] else regCodes x.d.reg (if x.wide then 2 else 1))
              pr := [x.g.p], dst := some (x.d, if x.wide then 2 else 1) } (fun s =>
    let n := if x.wide then 8 else 4
    let va := remoteAddr s x.a 0 n
    let rt := fun l => op32 s x.b l
    let vals := atomVals s op x.c x.wide
    let lanes := perfLanes s (some x.g)
    match remoteFault n va none lanes with
    | some f => .trap f
    | none =>
      let line := fun l => va l / 256 * 256
      let good := remoteGroups rt line (lanes.filter (fun l => !refusedHere s (rt l)))
      let bad := remoteGroups rt line (lanes.filter (fun l => refusedHere s (rt l)))
      let code := atomCode op + b2n x.sgn * 16 + b2n x.wide * 32
      remoteIssue s 3 good.length (some x.d) (if x.wide then .b64 else .b32) (some (op, x.wide)) good bad
        (fun id s => good.foldl (fun s g => (sendReq s g.dev 4 (reqHdr g.handle code g.line)
          (ratomPayload op n va vals g.lanes) (.word id (laneOffs va g.lanes))).2) s)
        (fun id s => issuePend s x.d (if x.wide then 2 else 1) (pendEntry x.d.reg x.wide id) id)) s

/-- RATOM.add (15 R454). -/
def execRatomAdd (x : RatomArgs) (s : State) : Out := ratomWord .add x s
/-- RATOM.min. -/
def execRatomMin (x : RatomArgs) (s : State) : Out := ratomWord .min x s
/-- RATOM.max. -/
def execRatomMax (x : RatomArgs) (s : State) : Out := ratomWord .max x s
/-- RATOM.and. -/
def execRatomAnd (x : RatomArgs) (s : State) : Out := ratomWord .and x s
/-- RATOM.or. -/
def execRatomOr (x : RatomArgs) (s : State) : Out := ratomWord .or x s
/-- RATOM.xor. -/
def execRatomXor (x : RatomArgs) (s : State) : Out := ratomWord .xor x s
/-- RATOM.exch. -/
def execRatomExch (x : RatomArgs) (s : State) : Out := ratomWord .exch x s
/-- RATOM.cas. -/
def execRatomCas (x : RatomArgs) (s : State) : Out := ratomWord .cas x s
/-- RATOM.fadd. -/
def execRatomFadd (x : RatomArgs) (s : State) : Out := ratomWord .fadd x s

/-- RFENCE (15 R456): not a switch point; later memory words wait behind it. -/
def execRfence (s : State) : Out :=
  issueWord {} (fun s => .done (retireVoid (putFence s s.cur.core s.cur.slot 0xFFFF .rfence))) s

/-! ## Answers at the source (15 R451) -/

/-- A script's wait ends: c, a destination, and the next word (16 R481). -/
def endWait (s : State) (place : Nat) (c : Bool) (res : Option (Nat × W64)) : State :=
  updScript s place (fun x => { x with
    c := c, wait := none, pc := x.pc + 1, q := match res with | some (r, v) => mput 0 x.q r v | none => x.q })

/-- The payload packet of an RSTF has ended; the flags of its route follow once none is left (15 R455). -/
def flagStep (s : State) (req : Nat) (fail : Bool) : State :=
  match s.flagWaits.find? (fun f => f.left.contains req) with
  | none => s
  | some f =>
    let g := { f with left := f.left.erase req, failed := f.failed || fail }
    let rest := s.flagWaits.erase f
    if !g.left.isEmpty then { s with flagWaits := rest ++ [g] }
    else
      let s := { s with flagWaits := rest }
      if g.failed then remoteAdd s g.tx g.flags.length []
      else g.flags.foldl (fun s v => (sendFlag s g.target g.handle v (.word g.tx [])).2) s

/-- The FSTAT bit of a failed packet (15 Tables link-2, link-3): by its type on a time-out, refused, or uncorrectable data of an RLD. -/
def failBit (type status : Nat) : Nat :=
  if status = 255 then (if type = 1 then 1 else if type = 4 then 3 else 2) else if type = 1 ∧ status = 4 then 5 else 4

/-- The copy cause of a refused chunk (09 R303). -/
def chunkCause (status : Nat) : Nat :=
  if status = 255 then 12 else if status = 1 then 11 else if status = 2 ∨ status = 3 then 10 else if status = 5 then 4
  else if status = 6 then 5 else 8

/-- The signal of a COPYR has been answered: performed, or lost (09 R500). -/
def signalEnd (s : State) (c : CopyRef) (ok : Bool) : State :=
  if ok then updCopy s c (fun x => { x with completed := true }) else signalLost s c

/-- The size in bytes of a remote word's element. -/
def txSize (s : State) (tx : Nat) : Nat :=
  match mget s.txs tx with
  | some t => (match t.kind with | .remote _ _ z _ _ _ => z.bytes | _ => 0)
  | none => 0

/-- A request ends with an answer: status 0, a refusal, or 255 for a time-out. -/
def reqEnd (s : State) (r : Req) (status : Nat) (vals : List (Nat × W64)) : State :=
  let s := retireReq s r
  let ok := status == 0
  match r.owner with
  | .word tx lanes =>
    let s := if ok then s
      else match mget s.txs tx with
        | some t => fstatEvent s t.uid (failBit r.type status) r.target
        | none => s
    let read := r.type == 1 || r.type == 4
    let vals := if !read then [] else if ok then vals else failedVals (txSize s tx) (lanes.map (·.1))
    flagStep (remoteAdd s tx 1 vals) r.id (!ok)
  | .chunk c q => if ok then chunkDone s c q else chunkLost s c q (chunkCause status)
  | .signal c => signalEnd s c ok
  | .script place =>
    match mget s.scripts place with
    | some x => match x.wait with
      | some (.msg q, _) => if q = r.id then endWait s place ok none else s
      | _ => s
    | none => s
  | .gone => s

/-- The values of the lanes of an RLD in the response's bytes, which are the masked bytes of the line in order. -/
def rldVals (size : Nat) (mask : Nat) (lanes : List (Nat × Nat)) (bs : List Byte) : List (Nat × W64) :=
  lanes.map (fun l => (l.1, BitVec.ofNat 64 (fld bs (popcount l.2 mask) size)))

/-- REMOTE_RESPONSE (15 R451): a late one is discarded. -/
def execRemoteResponse (h : PktHdr) (bytes : List Byte) (results : List W64) (s : State) : Out :=
  match findReq s h.source h.tag with
  | none => .next s
  | some r =>
    match r.owner with
    | .word tx lanes =>
      if r.type = 1 then .next (reqEnd s r h.status (rldVals (txSize s tx) (ofBytes r.payload) lanes bytes))
      else if r.type = 4 then .next (reqEnd s r h.status ((lanes.map (·.1)).zip results))
      else .next s
    | _ => .next s

/-- REMOTE_ACKNOWLEDGEMENT (15 R451). -/
def execRemoteAcknowledgement (h : PktHdr) (s : State) : Out :=
  match findReq s h.source h.tag with
  | none => .next s
  | some r => if r.type = 1 ∨ r.type = 4 then .next s else .next (reqEnd s r h.status [])

/-- REMOTE_TIMEOUT (15 R451): 1,000 µs after the packet was sent. -/
def execRemoteTimeout (target tag : Nat) (s : State) : Out :=
  match findReq s target tag with
  | none => .next s
  | some r => if s.ns < r.sent + 1000000 then .next s else .next (reqEnd s r 255 [])

/-! ## Requests at the target (15 R447-R449) -/

/-- The context that a request's handle names for its source (15 R448). -/
def handleCtx (s : State) (source handle : Nat) : Option Nat :=
  match mget s.handles handle with
  | some k => if k.sources.getLsbD source && (ctxOf s k.ctx).isSome then some k.ctx else none
  | none => none

/-- Answer a request. -/
def answer (s : State) (type : Nat) (h : PktHdr) (status : Nat) (bs : List Byte) : State :=
  sendPacket s type { h with source := s.dev.getD 0, target := h.source, status := status, floor := 0 } bs

/-- Serve a request at most once, and keep its response until a floor passes it (15 R447). -/
def serve (s : State) (ansType : Nat) (h : PktHdr) (perform : State → (Nat × List Byte) × State) : State :=
  if !planeUp s ∨ h.target ≠ s.dev.getD 0 then s
  else
    let x := mgetD s.sources h.source .zero
    let floor := if !x.known || tagAtOrAfter h.floor x.floor then h.floor else x.floor
    let x := { x with floor := floor, known := true, kept := x.kept.filter (fun k => tagAtOrAfter k.1 floor) }
    let s := { s with sources := mset s.sources h.source x }
    if !tagAtOrAfter h.tag floor then s
    else
      match mget x.kept h.tag with
      | some (t, st, bs) => answer s t h st bs
      | none =>
        let r := perform s
        let keep := fun (y : Source) => { y with kept := mset y.kept h.tag (ansType, r.1.1, r.1.2) }
        answer { r.2 with sources := madj r.2.sources h.source keep } ansType h r.1.1 r.1.2

/-- Translate at the target: status 2 or 3 on a fault, 2 outside device memory, or for reads the hallmark window (15 R449). -/
def remoteXlat (s : State) (ctx va : Nat) (kind : AccessKind) : Except Nat Xlat × State :=
  match translate s devCl ctx va kind with
  | (.error f, s) => (.error (if f.absent then 2 else 3), s)
  | (.ok x, s) => (if inDevice x.pa || (kind == .read && inHallmark x.pa) then .ok x else .error 2, s)

/-- A remote device reads or writes at a home, behind the cluster, NMU and host accesses of the cycle (07 R233, 15 R449). -/
def remoteRead (s : State) (key pa n : Nat) : List Byte × State := homeRead (arrive s remoteRank [pa / 256]) key pa n
/-- Write bytes at a home. -/
def remoteWrite (s : State) (key pa : Nat) (bs : List (Nat × Byte)) : State := writeUnits (arrive s remoteRank [pa / 256]) 0 key bs
/-- Increment a signal word at a home, with tag 0 (15 R455). -/
def remoteIncr (s : State) (ctx : Nat) (x : Xlat) : State :=
  let pa := resolve s ctx x false
  incrAt (arrive s remoteRank [pa / 256]) 0 x.key pa

/-- RLD_PACKET (15 R449). -/
def execRldPacket (h : PktHdr) (mask : BitVec 256) (s : State) : Out :=
  .next (serve s 5 h (fun s =>
    match handleCtx s h.source h.handle with
    | none => ((1, []), s)
    | some ctx =>
      match remoteXlat s ctx h.line .read with
      | (.error e, s) => ((e, []), s)
      | (.ok x, s) =>
        let r := remoteRead s x.key (resolve s ctx x false) 256
        ((0, ((r.1.mapIdx (fun i b => (i, b))).filter (fun p => mask.getLsbD p.1)).map (·.2)), r.2)))

/-- The masked bytes of an image. -/
def maskedBytes (mask : BitVec 256) (image : List Byte) : List (Nat × Byte) :=
  ((image.take 256).mapIdx (fun i b => (i, b))).filter (fun p => mask.getLsbD p.1)

/-- A chunk of a COPYR at its target: owner, twin and group checks, then the bytes (09 R300, R302, R303). -/
def chunkWrite (s : State) (ctx source copy va : Nat) (sh : Bool) (bs : List (Nat × Byte)) : Nat × State :=
  match remoteXlat s ctx va .write with
  | (.error e, s) => (e, s)
  | (.ok x, s) =>
    let put := fun (s : State) =>
      let pa := resolve s ctx x sh
      remoteWrite s x.key pa (bs.map (fun b => (pa + b.1, b.2)))
    if !frameOk s ctx x then (5, s)
    else if !sh then (0, put s)
    else
      match x.twin with
      | none => (6, s)
      | some (_, g) =>
        let src := mgetD s.sources source .zero
        if mgetD src.parts copy g = g then
          (0, put { s with sources := mset s.sources source { src with parts := mset src.parts copy g } })
        else (6, s)

/-- The stores of a packet. -/
def packetStores (s : State) (ctx : Nat) (h : PktHdr) (mask : BitVec 256) (image : List Byte) : Except Nat Unit × State :=
  let bs := maskedBytes mask image
  if bs.isEmpty then (.ok (), s)
  else
    match remoteXlat s ctx h.line .write with
    | (.error e, s) => (.error e, s)
    | (.ok x, s) =>
      let pa := resolve s ctx x false
      (.ok (), remoteWrite s x.key pa (bs.map (fun b => (pa + b.1, b.2))))

/-- RST_PACKET (15 R449): bit 3 of op marks a chunk of a COPYR, bit 4 a shadowed one, whose copy handle follows the image. -/
def execRstPacket (h : PktHdr) (mask : BitVec 256) (image : List Byte) (s : State) : Out :=
  .next (serve s 6 h (fun s =>
    match handleCtx s h.source h.handle with
    | none => ((1, []), s)
    | some ctx =>
      if bit h.op 3 then
        let r := chunkWrite s ctx h.source (fld image 256 4) h.line (bit h.op 4) (maskedBytes mask image)
        ((r.1, []), r.2)
      else
        match packetStores s ctx h mask image with
        | (.ok _, s) => ((0, []), s)
        | (.error e, s) => ((e, []), s)))

/-- RSTF_PACKET (15 R455, 08 R281): the payload, then the increment; a packet whose flag is refused performs nothing. -/
def execRstfPacket (h : PktHdr) (mask : BitVec 256) (image : List Byte) (flag : Nat) (s : State) : Out :=
  .next (serve s 6 h (fun s =>
    match handleCtx s h.source h.handle with
    | none => ((1, []), s)
    | some ctx =>
      match remoteXlat s ctx flag .rmw with
      | (.error e, s) => ((e, []), s)
      | (.ok x, s) =>
        match packetStores s ctx h mask image with
        | (.error e, s) => ((e, []), s)
        | (.ok _, s) => ((0, []), remoteIncr s ctx x)))

/-- One lane of an RATOM at the target. -/
def ratomLane (ctx : Nat) (x : Xlat) (op : AtomOp) (wide sgn : Bool) (a : List Byte × State) (l : AtomLane) : List Byte × State :=
  let n := if wide then 8 else 4
  let pa := resolve a.2 ctx x false + l.off % 256
  let r := remoteRead a.2 x.key pa n
  (a.1 ++ r.1, writePa r.2 0 x.key pa (toBytes n (atomNext op wide sgn (ofBytes r.1) l.opnd.toNat l.swap.toNat)))

/-- RATOM_PACKET (15 R449, 07 R251): the lanes as one event, in ascending order. -/
def execRatomPacket (h : PktHdr) (lanes : List AtomLane) (s : State) : Out :=
  match atomOfCode (h.op % 16) with
  | none => .next s
  | some op =>
    .next (serve s 5 h (fun s =>
      match handleCtx s h.source h.handle with
      | none => ((1, []), s)
      | some ctx =>
        match remoteXlat s ctx h.line .rmw with
        | (.error e, s) => ((e, []), s)
        | (.ok x, s) =>
          let r := lanes.foldl (ratomLane ctx x op (bit h.op 5) (bit h.op 4)) ([], s)
          ((0, r.1), r.2)))

/-! ## Lanes (15 R444, R446, R467) -/

/-- Insert into an ascending list. -/
def insertAsc (n : Nat) (l : List Nat) : List Nat := l.filter (fun k => decide (k < n)) ++ n :: l.filter (fun k => decide (n < k))

/-- LANE_TRAINED (15 R444): the first fixes the device number; a lane that reports another is held down. -/
def execLaneTrained (lane port : Nat) (s : State) : Out :=
  if s.dev.getD port ≠ port then .next (linkEvent s 8 (0x80 + lane) 0 0 0 0 0 0)
  else if s.lanes.contains lane then .next s
  else
    let first := s.lanes.isEmpty
    let s := { s with dev := some port, lanes := insertAsc lane s.lanes
                      status := { s.status with elec := if s.status.fullclk then 2 else 1 } }
    let s := if first then (s.sentPkts.filter (fun p => p.lane == 16)).foldl sendAgain
        { s with sentPkts := s.sentPkts.filter (fun p => p.lane != 16) } else s
    .next (linkEvent s 9 (0x80 + lane) 0 0 0 0 0 0)

/-- LANE_DOWN (15 R446): the packets of its replay buffer that the switch has not acknowledged go out again on the live planes, in their
order, or wait for a lane. How many of them it has acknowledged is unspecified: any number of the oldest. -/
def execLaneDown (lane : Nat) (s : State) : Out :=
  if !s.lanes.contains lane then .next s
  else
    let sent := s.sentPkts.filter (fun p => p.lane == lane)
    let c := choose s (sent.length + 1)
    let left := s.lanes.filter (fun l => l != lane)
    let t := { c.2 with lanes := left, status := { s.status with elec := if left.isEmpty then 0 else s.status.elec }
                        sentPkts := s.sentPkts.filter (fun p => p.lane != lane) }
    .next (linkEvent ((sent.drop c.1).foldl sendAgain t) 8 (0x80 + lane) 0 0 0 0 (sent.length - c.1) 0)

end Sys2Proof.Machine
end

