-- ==== Sys2Proof/Machine/Sketch.lean ====
section
/-! DEFINITION. Sketches: descriptors, the hash, counter events (11 R357-R361, 03 R101), the sketch words of the cores (R372-R376), and the
collectives (R363-R365). -/

namespace Sys2Proof.Machine

/-! ## Descriptors (11 R357) -/

/-- The sketch of a descriptor's eight words: `none` where it is not valid. -/
def sketchOf (w : List Nat) : Option Sketch :=
  let at' := fun i => (w[i]?).getD 0
  let base := at' 0
  let d := bits (at' 1) 0 4
  let b := bits (at' 1) 8 5
  let q := at' 2 % 2 ^ 32
  if base / 2 ^ 56 ≠ 0 ∨ at' 1 / 2 ^ 13 ≠ 0 ∨ bits (at' 1) 4 4 ≠ 0 ∨ at' 4 ≠ 0 ∨ at' 5 ≠ 0 ∨ at' 6 ≠ 0 ∨ at' 7 ≠ 0 then none
  else if d < 1 ∨ 8 < d ∨ b < 3 ∨ 30 < b ∨ bit q 31 ∨ bits q 23 8 = 0 ∨ bits q 23 8 = 255 then none
  else if base % 256 ≠ 0 ∨ 2 ^ 56 < base + 4 * d * 2 ^ b then none
  else some ⟨base, b, d, BitVec.ofNat 32 (at' 2 / 2 ^ 32), BitVec.ofNat 32 q, BitVec.ofNat 64 (at' 3)⟩

/-- The counters of a sketch. -/
def Sketch.count (k : Sketch) : Nat := k.d * 2 ^ k.b

/-- The address of counter n. -/
def Sketch.va (k : Sketch) (n : Nat) : Nat := k.base + 4 * n

/-- Compatible sketches. -/
def Sketch.compat (a b : Sketch) : Bool :=
  a.d == b.d && a.b == b.b && a.q == b.q && a.master == b.master && a.fingerprint == b.fingerprint

/-- Counter ranges that overlap without being equal. -/
def Sketch.clash (a b : Sketch) : Bool :=
  a.base != b.base && decide (a.base < b.base + 4 * b.count) && decide (b.base < a.base + 4 * a.count)

/-! ## The hash (11 R358) -/

def hashC1 : Nat := 0x9F3B6C1D
def hashC2 : Nat := 0xC5A30E17

/-- mix of a 32-bit value. -/
def mix32 (y : Nat) : Nat :=
  let y1 := y ^^^ (y / 2 ^ 16)
  let y2 := y1 * hashC1 % 2 ^ 32
  let y3 := y2 ^^^ (y2 / 2 ^ 13)
  let y4 := y3 * hashC2 % 2 ^ 32
  y4 ^^^ (y4 / 2 ^ 16)

/-- The bucket of a key in a row, and whether its sign is negative. -/
def sketchHash (key j master b : Nat) : Nat × Bool :=
  let k1 := (key % 2 ^ 32) ^^^ (key / 2 ^ 32)
  let seed := mix32 (master ^^^ j)
  let x1 := (k1 ^^^ seed) * hashC1 % 2 ^ 32
  let x2 := x1 ^^^ (x1 / 2 ^ 15)
  let x3 := x2 * hashC2 % 2 ^ 32
  (x3 / 2 ^ (32 - b), bit x3 (31 - b))

/-- The counters of a key: for each row the number of the counter and whether the sign is negative. -/
def Sketch.rows (k : Sketch) (key : Nat) : List (Nat × Bool) :=
  (List.range k.d).map (fun j => let h := sketchHash key j k.master.toNat k.b; (j * 2 ^ k.b + h.1, h.2))

/-! ## Counter values (03 R101, 11 R359); `none` is POISON -/

/-- A counter as sketch operations read it. -/
def cntOf (w : Nat) : Option Int :=
  let v := sext 32 w
  if v < -(2 ^ 31 - 2) ∨ 2 ^ 31 - 2 < v then none else some v

/-- The code a counter is written with. -/
def cntCode : Option Int → Nat
  | none => 0x80000000
  | some v => ofInt 32 v

/-- cadd. -/
def cadd (c t : Option Int) : Option Int :=
  match c, t with
  | some x, some y => if x + y < -(2 ^ 31 - 2) ∨ 2 ^ 31 - 2 < x + y then none else some (x + y)
  | _, _ => none

/-- to_counter of an FP32 value. -/
def toCounter (v q : Nat) : Option Int :=
  match XR.div (fp32.value v) (fp32.value q) with
  | .fin sg n d =>
    let t := signed sg (roundNat .rn sg n d)
    if t < -(2 ^ 31 - 2) ∨ 2 ^ 31 - 2 < t then none else some t
  | _ => none

/-- A signed value. -/
def withSign (neg : Bool) (c : Option Int) : Option Int := c.map (fun v => if neg then -v else v)

/-- Insert in ascending order. -/
def insertInt (v : Int) : List Int → List Int
  | [] => [v]
  | x :: t => if v ≤ x then v :: x :: t else x :: insertInt v t

/-- The result of a query from the signed counters of a key (11 R359). -/
def queryCode (vals : List (Option Int)) (q : Nat) : Nat :=
  let l := (vals.filterMap id).foldl (fun l v => insertInt v l) []
  match l[(l.length - 1) / 2]? with
  | none => fp32.nanCode
  | some m => fp32.round .rn (XR.mul (XR.ofInt m 1 false) (fp32.value q))

/-! ## Counters at a near-memory unit (11 R351-R353) -/

/-- Translate an address for an NMU: the cause of 11 Table sketch-7 where it does not serve. -/
def nmuXlat (ctx stack va : Nat) (kind : AccessKind) (s : State) : Except Nat Xlat × State :=
  match translate s devCl ctx va kind with
  | (.error p, s) => (.error (if p.absent then 4 else 5), s)
  | (.ok x, s) =>
    let pa := resolve s ctx x false
    (if inDevice pa && pa / 2 ^ 37 == stack then .ok x else .error 3, s)

/-- An NMU write of bytes in one line: the recall first, tag 0 (11 R353, 06 Table page-8). -/
def nmuPut (s : State) (ctx : Nat) (x : Xlat) (bs : List Byte) : State :=
  let pa := resolve s ctx x false
  writePa (arrive (recallLine s (pa / 256)) nmuRank [pa / 256]) 0 x.key pa bs

/-- An NMU read. -/
def nmuGet (s : State) (ctx : Nat) (x : Xlat) (n : Nat) : List Byte × State :=
  let pa := resolve s ctx x false
  homeRead (arrive s nmuRank [pa / 256]) x.key pa n

/-- One counter event: an indivisible read-modify-write (11 R360), after the recall (R353). -/
def counterEvent (s : State) (ctx : Nat) (x : Xlat) (f : Option Int → Option Int) : State :=
  let r := nmuGet (recallLine s (resolve s ctx x false / 256)) ctx x 4
  nmuPut r.2 ctx x (toBytes 4 (cntCode (f (cntOf (ofBytes r.1)))))

/-- The counters a word skipped, by page: the failing address and its cause (11 R375). -/
abbrev Skips := SMap (Nat × Nat)

/-- Note a skipped counter; one record for each page. -/
def Skips.note (m : Skips) (va cause : Nat) : Skips := if (mget m (va / 4096)).isSome then m else mset m (va / 4096) (va, cause)

/-- Post the records of kind 0x13 (14 Table context-3). -/
def postSkips (s : State) (ctx word : Nat) (m : Skips) : State :=
  m.foldl (fun s q => postEvent s ctx (mkRec [(0, 0x13), (1, q.2.2), (8, word), (16, q.2.1)])) s

/-- The translation of a counter: that of issue on the base page, else one at the NMU (11 R375). -/
def counterXlat (ctx stack va : Nat) (x : Option Xlat) (kind : AccessKind) (s : State) : Except Nat Xlat × State :=
  match x with
  | some x => (.ok x, s)
  | none => nmuXlat ctx stack va kind s

/-- Perform one counter event of a sketch word. An unusable counter is skipped and noted; a query reads it as POISON (11 R375). -/
def runCounter (t : Tx) (o : CounterOp) (s : State) : Tx × State :=
  match o.act with
  | .query neg =>
    (match counterXlat t.ctx o.stack o.va o.x .read s with
      | (.ok x, s) =>
        let r := nmuGet s t.ctx x 4
        ({ t with got := t.got ++ [(o.lane, BitVec.ofNat 32 (cntCode (withSign neg (cntOf (ofBytes r.1)))))] }, r.2)
      | (.error c, s) =>
        ({ t with got := t.got ++ [(o.lane, BitVec.ofNat 32 (cntCode none))], skips := Skips.note t.skips o.va c }, s))
  | .addFrom va y =>
    (match counterXlat t.ctx o.stack va y .read s with
      | (.ok y, s) =>
        (match counterXlat t.ctx o.stack o.va o.x .rmw s with
          | (.ok x, s) =>
            let r := nmuGet s t.ctx y 4
            (t, counterEvent r.2 t.ctx x (fun c => cadd c (cntOf (ofBytes r.1))))
          | (.error c, s) => ({ t with skips := Skips.note t.skips o.va c }, s))
      | (.error c, s) =>
        (match counterXlat t.ctx o.stack o.va o.x .rmw s with
          | (.ok _, s) => ({ t with skips := Skips.note t.skips va c }, s)
          | (.error d, s) => ({ t with skips := Skips.note (Skips.note t.skips va c) o.va d }, s)))
  | .add v =>
    (match counterXlat t.ctx o.stack o.va o.x .rmw s with
      | (.ok x, s) => (t, counterEvent s t.ctx x (fun c => cadd c (cntOf v.toNat)))
      | (.error c, s) => ({ t with skips := Skips.note t.skips o.va c }, s))
  | .clear =>
    (match counterXlat t.ctx o.stack o.va o.x .rmw s with
      | (.ok x, s) => (t, nmuPut s t.ctx x (toBytes 4 0))
      | (.error c, s) => ({ t with skips := Skips.note t.skips o.va c }, s))

/-! ## The sketch words of the cores (11 R372-R376) -/

/-- The descriptor a slice holds in group a. -/
def groupDesc (s : State) (a j : Nat) : Option Sketch :=
  sketchOf ((List.range 8).map (fun i => (((cw s).slice j).sreg (8 * a + i)).toNat))

/-- The scalars of a group. -/
def groupOps (a : Nat) : List (Opnd × Bool) := (List.range 8).map (fun i => (Opnd.reg (.s (8 * a + i)), true))

/-- SKETCH_MISMATCH with a cause (11 Table sketch-10). -/
def mismatch (cause : Nat) : FaultInfo := { flt 0xF with cause := cause }

/-- A sketch with the stack that serves it and the translation of its base at issue. -/
abbrev BasedSketch := Nat × Xlat × Sketch

/-- Translate the base of a descriptor at issue: the serving stack and the translation. -/
def baseXlat (s : State) (k : Sketch) (kind : AccessKind) : Except FaultInfo (Nat × Xlat) × State :=
  match translate s (clusterOf s.cur.core) (cw s).ctx k.base kind with
  | (.error p, s) => (.error (fltPage k.base p), s)
  | (.ok x, s) =>
    let pa := resolve s (cw s).ctx x false
    (if inDevice pa then .ok (pa / 2 ^ 37, x) else .error (mismatch 5), s)

/-- The checks of 11 R373 on one descriptor of a slice: the serving stack and the descriptor. -/
def checkOne (a : Nat) (kind : AccessKind) (j : Nat) (s : State) : Except FaultInfo BasedSketch × State :=
  match groupDesc s a j with
  | none => (.error (mismatch 1), s)
  | some k =>
    match baseXlat s k kind with
    | (.error f, s) => (.error f, s)
    | (.ok x, s) => (.ok (x.1, x.2, k), s)

/-- The same for each slice of a list, in order. -/
def checkAll (a : Nat) (kind : AccessKind) : List Nat → State → Except FaultInfo (SMap BasedSketch) × State
  | [], s => (.ok [], s)
  | j :: t, s =>
    match checkOne a kind j s with
    | (.error f, s) => (.error f, s)
    | (.ok x, s) =>
      match checkAll a kind t s with
      | (.error f, s) => (.error f, s)
      | (.ok l, s) => (.ok ((j, x) :: l), s)

/-- The checks of SKADD: SKETCH_MISMATCH before a page fault (11 R373, Table sketch-10). -/
def checkPair (a b j : Nat) (s : State) : Except FaultInfo (BasedSketch × BasedSketch) × State :=
  match groupDesc s a j, groupDesc s b j with
  | some x, some y =>
    if !x.compat y then (.error (mismatch 2), s)
    else if x.clash y then (.error (mismatch 4), s)
    else
      let p := baseXlat s x .rmw
      let q := baseXlat p.2 y .read
      (match p.1, q.1 with
        | .ok m, .ok n => if m.1 = n.1 then .ok ((m.1, m.2, x), (n.1, n.2, y)) else .error (mismatch 3)
        | .error f, .error g => .error (if f.code ≠ 0xF ∧ g.code = 0xF then g else f)
        | .error f, .ok _ => .error f
        | .ok _, .error g => .error g, q.2)
  | _, _ => (.error (mismatch 1), s)

/-- The address of the issuing word. -/
def wordVa (s : State) : W64 := ((cw s).slice (curLow s)).pc

/-- A key operand in a lane. -/
def keyOf (s : State) (k64 : Bool) (c : Opnd) (l : Nat) : W64 := BitVec.ofNat 64 (if k64 then op64 s c l else op32 s c l)

/-- The translation of a counter on the base page (11 R373): other pages are translated at the NMU (R375). -/
def BasedSketch.at (k : BasedSketch) (va : Nat) : Option Xlat :=
  if va / 4096 = k.2.2.base / 4096 then some { k.2.1 with pa := k.2.1.pa + (va - k.2.2.base) } else none

/-- The counter event on counter n. -/
def BasedSketch.op (k : BasedSketch) (lane n : Nat) (act : CounterAct) : CounterOp :=
  ⟨lane, k.1, k.2.2.va n, k.at (k.2.2.va n), act⟩

/-- The events of an update of a key, one for each row (11 R359). -/
def updOps (ds : SMap BasedSketch) (l : Nat) (key : W64) (v : W32) : List CounterOp :=
  match mget ds (l / 4) with
  | some k =>
    let t := toCounter v.toNat k.2.2.q.toNat
    (k.2.2.rows key.toNat).map (fun r => k.op l r.1 (.add (BitVec.ofNat 32 (cntCode (withSign r.2 t)))))
  | none => []

/-- The reads of a query of a key, one for each row. -/
def qryOps (ds : SMap BasedSketch) (l : Nat) (key : W64) : List CounterOp :=
  match mget ds (l / 4) with
  | some k => (k.2.2.rows key.toNat).map (fun r => k.op l r.1 (.query r.2))
  | none => []

/-- The quantum of a lane's sketch. -/
def quantumOf (ds : SMap BasedSketch) (l : Nat) : W32 := match mget ds (l / 4) with | some k => k.2.2.q | none => 0

/-- The events of an add, one for each counter. -/
def addOps (x y : BasedSketch) : List CounterOp :=
  (List.range x.2.2.count).map (fun n => x.op 0 n (.addFrom (y.2.2.va n) (y.at (y.2.2.va n))))

/-- The events of a clear. -/
def clrOps (x : BasedSketch) : List CounterOp := (List.range x.2.2.count).map (fun n => x.op 0 n .clear)

/-- A sketch word in flight, with its counter events. -/
def sketchTx (s : State) (k : TxKind) (ops : List CounterOp) : Tx := { mkTx s false false k [] with todo := ops }

/-- SKUPD (11 R374). -/
def execSkupd (x : SkupdArgs) (s : State) : Out :=
  issueWord { ops := groupOps x.a ++ [(x.b, false), (x.c, x.k64)], gated := true } (fun s =>
    match checkAll x.a .rmw (curSlices s) s with
    | (.error f, _) => .trap f
    | (.ok ds, s) =>
      let keys := (perfLanes s none).map (fun l => (l, keyOf s x.k64 x.c l, BitVec.ofNat 32 (opF s x.b l)))
      issueTx s 4 (sketchTx s (.skupd (wordVa s)) (keys.flatMap (fun q => updOps ds q.1 q.2.1 q.2.2))) (fun _ s => retireVoid (traceVolatile s (cw s)))) s

/-- SKQRY (11 R374). -/
def execSkqry (x : SkqryArgs) (s : State) : Out :=
  issueWord { ops := groupOps x.a ++ [(x.c, x.k64)], dst := some (x.d, 1), gated := true } (fun s =>
    match checkAll x.a .read (curSlices s) s with
    | (.error f, _) => .trap f
    | (.ok ds, s) =>
      let keys := (perfLanes s none).map (fun l => (l, keyOf s x.k64 x.c l))
      let kind := TxKind.skqry x.d (keys.map (fun q => (q.1, quantumOf ds q.1))) (wordVa s)
      issueTx s 4 (sketchTx s kind (keys.flatMap (fun q => qryOps ds q.1 q.2))) (fun id s =>
        issuePend (traceVolatile s (cw s)) x.d 1 (pendEntry x.d.reg false id) id)) s

/-- SKADD (11 R374): the copies of the lowest issuing slice. -/
def execSkadd (a b : Nat) (s : State) : Out :=
  issueWord { ops := groupOps a ++ groupOps b, gated := true } (fun s =>
    match checkPair a b (curLow s) s with
    | (.error f, _) => .trap f
    | (.ok (x, y), s) =>
      issueTx s 4 (sketchTx s (.skadd (wordVa s)) (addOps x y)) (fun _ s => retireVoid (traceVolatile s (cw s)))) s

/-- SKCLR (11 R374). -/
def execSkclr (a : Nat) (s : State) : Out :=
  issueWord { ops := groupOps a, gated := true } (fun s =>
    match checkOne a .rmw (curLow s) s with
    | (.error f, _) => .trap f
    | (.ok k, s) =>
      issueTx s 4 (sketchTx s (.skclr (wordVa s)) (clrOps k)) (fun _ s => retireVoid (traceVolatile s (cw s)))) s

/-- Whether the events of a sketch word may be performed: behind the warp's earlier sketch words and fences (11 R362). -/
def sketchReady (s : State) (id : Nat) (t : Tx) : Bool :=
  sketchesDone s t.uid id && s.txs.all (fun u => !(decide (u.1 < id) && u.2.uid == t.uid &&
    (match u.2.kind with | .fence _ _ => (u.2.mask &&& t.mask) != 0 | .tlbi | .rfence => true | _ => false)))

/-- Whether one counter event may be performed now: behind the warp's earlier accesses to its lines (11 R362, 07 R241), and not behind
the host or remote devices in one cycle (07 R233). -/
def counterReady (s : State) (id : Nat) (t : Tx) (o : CounterOp) : Bool :=
  let ls := o.lines s t.ctx
  !ls.any (lateAt s nmuRank) && s.txs.all (fun u => !(decide (u.1 < id) && u.2.uid == t.uid &&
    u.2.parts.any (fun q => !q.done && q.place != .scratch && q.lines.any (fun l => ls.contains l))))

/-- The reply of a query reaches its destination and entry. -/
def landQuery (w : Warp) (now id mask : Nat) (d : Dst) (res : SMap Nat) : Warp :=
  let f := fun l => mgetD res l 0
  let w := if d.nowb then w else w.writeReg mask d.reg false false f
  (w.unbusy id).fill now id (dstEntry d.reg false false f)

/-- The results of a query by lane, from the signed counters it has read. -/
def Tx.queryRes (t : Tx) (quanta : SMap W32) : SMap Nat :=
  quanta.map (fun q => (q.1, queryCode ((t.got.filter (fun g => g.1 == q.1)).map (fun g => cntOf g.2.toNat)) q.2.toNat))

/-- The address of the word of a sketch operation. -/
def TxKind.wordAt : TxKind → Nat
  | .skupd w => w.toNat
  | .skqry _ _ w => w.toNat
  | .skadd w => w.toNat
  | .skclr w => w.toNat
  | _ => 0

/-- A sketch word whose events are all performed is answered: the records of its skipped pages, a query's result, and the counter. -/
def answerSketch (s : State) (id : Nat) (t : Tx) : State :=
  let s := postSkips s t.ctx t.kind.wordAt t.skips
  let s := { s with txs := mdel s.txs id }
  let s := match t.kind with
    | .skqry d quanta _ => updUid s t.uid (fun w => landQuery w s.cycle id t.mask d (t.queryRes quanta))
    | _ => s
  lowerIc s t.uid id

/-- SKETCH_REPLY (11 R360, R362, R374): the serving NMU performs one of the counter events left that may be performed now, which one
unspecified (notes/assumptions/32), or, when none is left, answers. -/
def execSketchReply (id : Nat) (s : State) : Out :=
  match mget s.txs id with
  | none => .next s
  | some t =>
    if t.kind.isSketch ∧ sketchReady s id t then
      if t.todo.isEmpty then .next (answerSketch s id t)
      else
        let may := t.todo.filter (counterReady s id t)
        let k := choose s may.length
        match may[k.1]? with
        | some o =>
          let r := runCounter { t with todo := t.todo.erase o } o { k.2 with payer := payerOf s t.launch }
          .next { r.2 with txs := mset r.2.txs id r.1 }
        | none => .next s
    else .next s

/-! ## Collectives (11 R363-R365) -/

/-- The device a member entry names, its port, plane and buckle (11 R363). -/
def memPort (e : Nat) : Nat := bits e 10 4
def memElec (e : Nat) : Bool := bit e 14
def memBuckle (e : Nat) : Nat := bits e 15 6

/-- The members of a collective. -/
def Coll.count (c : Coll) : Nat := c.members.length

/-- The entry of a member. -/
def Coll.entry (c : Coll) (i : Nat) : Nat := (c.members[i]?).getD 0

/-- The device number of a member. -/
def Coll.device (c : Coll) (i : Nat) : Nat := bits (c.entry i) 0 10

/-- A member list with a bad buckle (11 R365). -/
def badBuckles (s : State) (ctx self : Nat) (ms : List Nat) : Bool :=
  (List.range ms.length).any (fun i => i != self && (match ms[i]? with
    | some e => !memElec e && !holdsBuckle s ctx (memBuckle e)
    | none => false))

/-- What this member sends its neighbours. -/
def Coll.peer (c : Coll) : CollPeer := ⟨c.sk.d, c.sk.b, c.sk.q, c.sk.master, c.sk.fingerprint, c.bad, none⟩

/-- The ring neighbours of a member, each once. -/
def Coll.neighbours (c : Coll) : List Nat := ([(c.self + c.count - 1) % c.count, (c.self + 1) % c.count]).eraseDups

/-- The first counter of segment g, and the segment of a counter (11 R364). -/
def Coll.segStart (c : Coll) (g : Nat) : Nat := g * c.sk.count / c.count
def Coll.segOf (c : Coll) (n : Nat) : Nat := ((List.range c.count).find? (fun g => decide (n < c.segStart (g + 1)))).getD 0

/-- A transfer to a member may start: electrical, or its buckle is fastened (11 R363). -/
def collOpen (s : State) (c : Coll) (i : Nat) : Bool :=
  memElec (c.entry i) || (match mget s.buckles (memBuckle (c.entry i)) with | some b => b.fastened | none => false)

/-- Send the segments of a collective whose way is open, in order. -/
def collSend (s : State) (h : Nat) : State :=
  match mget s.colls h with
  | none => s
  | some c =>
    let go := c.unsent.filter (fun q => collOpen s c q.1)
    let s := { s with colls := mset s.colls h { c with unsent := c.unsent.filter (fun q => !collOpen s c q.1) } }
    go.foldl (fun s q => emit s (.collSegment h (c.device q.1) c.remote q.2)) s

/-- End a collective of a node. -/
def collEnd (s : State) (h : Nat) (ok : Bool) (cause : Nat) : State :=
  match mget s.colls h with
  | some c => agentEnd { s with colls := mdel s.colls h } c.ctx c.handle ok cause
  | none => s

/-- A member ends the collective: its own node with a cause, and every other member is told the cause that applies there (11 R365). -/
def collAbort (s : State) (h cause told : Nat) : State :=
  match mget s.colls h with
  | some c =>
    collEnd ((List.range c.count).foldl (fun s i =>
      if i = c.self then s else emit s (.collCheck h (c.device i) c.remote { c.peer with abort := some told })) s) h false cause
  | none => s

/-- A circuit on a port is released or fails: the collectives that use it end (11 R365). -/
def collsGone (s : State) (ctx port : Nat) : State :=
  s.colls.foldl (fun s q =>
    if q.2.ctx = ctx ∧ (List.range q.2.count).any (fun i => i != q.2.self && !memElec (q.2.entry i) && memPort (q.2.entry i) == port)
    then collAbort s q.1 2 2 else s) s

/-- Report an unusable counter page once (11 R363). -/
def collSkip (s : State) (h va cause : Nat) : State :=
  match mget s.colls h with
  | some c =>
    if c.skipped.contains (va / 4096) then s
    else postEvent { s with colls := mset s.colls h { c with skipped := c.skipped ++ [va / 4096] } } c.ctx
      (mkRec [(0, 0x13), (1, cause), (8, c.descVa), (16, va)])
  | none => s

/-- This member's counter n: POISON where it is unusable. -/
def collOwn (s : State) (h : Nat) (c : Coll) (n : Nat) : Option Int × State :=
  match nmuXlat c.ctx c.stack (c.sk.va n) .rmw s with
  | (.ok x, s) => let r := nmuGet s c.ctx x 4; (cntOf (ofBytes r.1), r.2)
  | (.error k, s) => (none, collSkip s h (c.sk.va n) k)

/-- Write a final counter, once. -/
def collFinal (s : State) (h n : Nat) (v : W32) : State :=
  match mget s.colls h with
  | some c =>
    if (mget c.finals n).isSome then s
    else
      let s := { s with colls := mset s.colls h { c with finals := mset c.finals n v } }
      (match nmuXlat c.ctx c.stack (c.sk.va n) .rmw s with
        | (.ok x, s) => nmuPut s c.ctx x (toBytes 4 v.toNat)
        | (.error k, s) => collSkip s h (c.sk.va n) k)
  | none => s

/-- The adds that make a counter final at this member: one for its ring segment, one a level for the pair order. -/
def Coll.levels (c : Coll) : Nat := if c.pair then Nat.log2 c.count else 1

/-- Receive one partial sum: add this member's own value, or its sum so far; the new sum and whether it is final. -/
def collAdd (s : State) (h n : Nat) (v : W32) : (W32 × Bool) × State :=
  match mget s.colls h with
  | none => ((v, false), s)
  | some c =>
    let own := match mget c.accs n with
      | some (_, p) => (cntOf p.toNat, s)
      | none => collOwn s h c n
    let k := (match mget c.accs n with | some (k, _) => k | none => 0) + 1
    let sum := BitVec.ofNat 32 (cntCode (cadd (cntOf v.toNat) own.1))
    let s := { own.2 with colls := madj own.2.colls h (fun c => { c with accs := mset c.accs n (k, sum) }) }
    let final := if c.pair then decide (c.levels ≤ k) else c.segOf n == c.self
    ((sum, final), if final then collFinal s h n sum else s)

/-- Receive the values of a segment from its first counter on. -/
def collValues (h : Nat) (final : Bool) : Nat → List W32 → State → List (W32 × Bool) × State
  | _, [], s => ([], s)
  | n, v :: t, s =>
    let r := if final then ((v, true), collFinal s h n v) else collAdd s h n v
    let q := collValues h final (n + 1) t r.2
    (r.1 :: q.1, q.2)

/-- Put segments on their way to a member. -/
def collQueue (s : State) (h dst : Nat) (seg : CollSegment) : State :=
  if seg.values.isEmpty then s
  else collSend { s with colls := madj s.colls h (fun c => { c with unsent := c.unsent ++ [(dst, seg)] }) } h

/-- This member's own counters of a range. -/
def collOwns (h : Nat) (c : Coll) : List Nat → State → List W32 × State
  | [], s => ([], s)
  | n :: t, s =>
    let r := collOwn s h c n
    let q := collOwns h c t r.2
    (BitVec.ofNat 32 (cntCode r.1) :: q.1, q.2)

/-- The first transfers, when every neighbour agrees: the ring segment that begins here, or in the pair order all counters (11 R364). -/
def collBegin (s : State) (h : Nat) (c : Coll) : State :=
  let g := (c.self + c.count - 1) % c.count
  let lo := if c.pair then 0 else c.segStart g
  let hi := if c.pair then c.sk.count else c.segStart (g + 1)
  let r := collOwns h c ((List.range (hi - lo)).map (lo + ·)) s
  collQueue r.2 h (if c.pair then c.self ^^^ 1 else (c.self + 1) % c.count) ⟨lo, r.1, false, 0⟩

/-- The node ends when every counter is final: a release at domain scope (11 R365). -/
def collDone (s : State) (h : Nat) : State :=
  match mget s.colls h with
  | some c => if c.sk.count ≤ c.finals.length ∧ c.unsent.isEmpty then collEnd s h true 0 else s
  | none => s

/-- A buckle has been fastened: what waited for it leaves. -/
def collsSend (s : State) : State := s.colls.foldl (fun s q => collDone (collSend s q.1) q.1) s

/-- The adds done at a counter. -/
def Coll.adds (c : Coll) (n : Nat) : Nat := match mget c.accs n with | some (k, _) => k | none => 0

/-- A received segment may enter the sums: in the pair order its level is the next one. -/
def Coll.takes (c : Coll) (seg : CollSegment) : Bool := !c.pair || seg.final || c.adds seg.first == seg.level

/-- A segment enters the sums and is passed on (11 R364). -/
def collTake (s : State) (h : Nat) (c : Coll) (seg : CollSegment) : State :=
  let r := collValues h seg.final seg.first seg.values s
  let out := r.1.map (·.1)
  let fin := r.1.all (·.2)
  let next := (c.self + 1) % c.count
  if c.pair then
    (if seg.final ∨ fin then r.2
     else collQueue r.2 h (c.self ^^^ 2 ^ (seg.level + 1)) ⟨seg.first, out, false, seg.level + 1⟩)
  else if seg.final ∧ c.segOf seg.first = next then r.2
  else collQueue r.2 h next ⟨seg.first, out, fin, 0⟩

/-- Take the received segments that may enter, at most n of them. -/
def collRun : Nat → State → Nat → State
  | 0, s, _ => s
  | n + 1, s, h =>
    match mget s.colls h with
    | none => s
    | some c =>
      match c.early.find? c.takes with
      | none => s
      | some seg => collRun n (collTake { s with colls := mset s.colls h { c with early := c.early.erase seg } } h c seg) h

/-- COLLECTIVE_CHECK_EXCHANGE (11 R365): the parameters and the check of a member arrive, or word that a member ends the collective. -/
def execCollectiveCheckExchange (node : Nat) (nb : CollPeer) (s : State) : Out :=
  match mget s.colls node with
  | none => .next s
  | some c =>
    match nb.abort with
    | some cause => .next (collEnd s node false (if c.bad then 3 else cause))
    | none =>
      if c.bad then .next (collAbort s node 3 4)
      else if nb.bad then .next (collAbort s node 4 4)
      else if nb ≠ c.peer then .next (collAbort s node 1 1)
      else
        let c := { c with heard := c.heard + 1 }
        let s := { s with colls := mset s.colls node c }
        .next (if c.heard = c.neighbours.length then collDone (collRun c.early.length (collBegin s node c) node) node else s)

/-- COLLECTIVE_SEGMENT_RECEIVE (11 R364): partial sums are added to and passed on, final counters are written and passed on; before every
neighbour has agreed the segment waits (R365). -/
def execCollectiveSegmentReceive (node : Nat) (seg : CollSegment) (s : State) : Out :=
  match mget s.colls node with
  | none => .next s
  | some c =>
    if c.sk.count < seg.first + seg.values.length then .next s
    else
      let c := { c with early := c.early ++ [seg] }
      let s := { s with colls := mset s.colls node c }
      .next (if c.heard < c.neighbours.length then s else collDone (collRun c.early.length s node) node)

end Sys2Proof.Machine
end

