-- ==== Sys2Proof/Machine/Ports.lean ====
section
/-! DEFINITION. Optical ports and circuits: flits and frames that arrive, replay, stripes, park and wake, port failure, the controller's
messages and the port states (15 R457-R469, 16 R471-R477, R501). -/

namespace Sys2Proof.Machine

/-! ## Buckles and circuits (16 R474, R477) -/

/-- End the tie of a buckle (16 R477). -/
def untie (s : State) (n : Nat) : State :=
  if (mget s.buckles n).isSome then
    let s := { s with buckles := mdel s.buckles n }
    testCopies (testBkws s n) n
  else s

/-- End every tie to a port's circuit. -/
def untiePort (s : State) (p : Nat) : State :=
  (s.buckles.filter (fun b => b.2.port == p)).foldl (fun s b => untie s b.1) s

/-- Set the buckles of a port OPEN or FASTENED, and answer what waits on them (08 Table barrier-7, 09 R310). -/
def fasten (s : State) (p : Nat) (v : Bool) : State :=
  let ns := (s.buckles.filter (fun b => b.2.port == p)).map (·.1)
  let s := { s with buckles := s.buckles.map (fun b => if b.2.port = p then (b.1, { b.2 with fastened := v }) else b) }
  let s := ns.foldl (fun s n => testCopies (testBkws s n) n) s
  if v then collsSend s else s

/-- The 32 bytes of a controller message (16 Table circuit-1). -/
def ctlBytes (op : Nat) (m : CtlMsg) : List Byte :=
  toBytes 1 op ++ toBytes 1 0 ++ toBytes 2 m.id ++ toBytes 2 m.dev ++ toBytes 1 m.port ++ toBytes 1 m.pport ++ toBytes 2 m.peer ++
    toBytes 2 m.handle ++ toBytes 20 0

/-- Send a message to the OCS controller (16 R472). -/
def sendCtl (s : State) (op : Nat) (m : CtlMsg) : State := sendLow s (ctlBytes op m)

/-- The message of a circuit to the controller. -/
def circMsg (s : State) (p : Nat) (c : Circuit) : CtlMsg := ⟨c.id, s.dev.getD 0, p, c.pport, c.peer, c.handle⟩

/-- A released circuit becomes FREE once its port is DARK and RELEASED has come (16 R476). -/
def circuitFree (s : State) (p : Nat) : State :=
  match mget s.circuits p with
  | some c => if c.st = .released ∧ c.releasedSeen ∧ (portOf s p).st = .dark then { s with circuits := mdel s.circuits p } else s
  | none => s

/-- A circuit fails with a cause; ties end when it leaves GRANTED (16 Table circuit-2). -/
def failCircuit (s : State) (p cause : Nat) : State :=
  match mget s.circuits p with
  | some c =>
    if c.st = .requested ∨ c.st = .granted then
      collsGone (untiePort (updCircuit s p (fun c => { c with st := .failed, cause := cause })) p) c.ctx p
    else s
  | none => s

/-- The signals of COPYRs that waited for a port to be DARK (09 R500). -/
def portSignals (s : State) (p : Nat) : State :=
  (allCopies s).foldl (fun s q => if q.2.sigPending ∧ !q.2.elec ∧ q.2.port = p then sendSignal s q.1 q.2 else s) s

/-- A port goes DARK: its counters and lasers stay, everything of the link is gone (16 Table circuit-3). -/
def goDark (s : State) (p : Nat) (failed : Bool) : State :=
  let s := updPort s p (fun x => { Port.zero with
    failed := failed, autowake := x.autowake, replays := x.replays, feccor := x.feccor, fecunc := x.fecunc, lasers := x.lasers
    failedCh := x.failedCh })
  portSignals (circuitFree s p) p

/-- The payload of CLOSE. -/
def closeBytes : List Byte := [6]

/-- A port starts DRAINING: a restripe or wake is abandoned, and CLOSE is sent, unless it answers one (16 R475, R501). -/
def drainPort (s : State) (p : Nat) (repeated : Bool) : State :=
  let st := (portOf s p).st
  if st = .dark ∨ st = .draining then s
  else
    let s := updPort s p (fun x => { x with
      st := .draining, drainStart := s.ns, waking := [], pendingTx := [], pendingRx := [], control := []
      tx := mmap (fun w => if w = .waking then .parked else w) x.tx })
    sendControl (fasten s p false) p closeBytes repeated

/-- A port fails (15 R462): one link event 3, the circuit FAILED with cause 4, the port DARK. -/
def failPort (s : State) (p dir : Nat) : State :=
  let x := portOf s p
  let before := stripeOf (if dir = 1 then x.rx else x.tx)
  let s := linkEvent s 3 p dir before 0 (x.rxSeq % 4096) 0 x.peer
  goDark (failCircuit s p 4) p true

/-! ## Received flits and frames (15 R457-R460) -/

/-- Answer a frame with CHUNK_DONE: the copy handle, and the VA with a status in its top byte (15 R458). -/
def chunkReport (s : State) (p copy va status : Nat) : State :=
  sendControl s p ([5] ++ toBytes 4 copy ++ toBytes 8 (va % 2 ^ 56 + status * 2 ^ 56)) false

/-- One frame is performed at the target, and reported (15 R458, 09 R303); a signal frame too (DEDUCED from 09 R500, which has it
answered; notes/assumptions/99). -/
def frameIn (s : State) (p : Nat) (bs : List Byte) : State :=
  let w := fld bs 0 8
  let va := w % 2 ^ 56
  let copy := fld bs 12 4
  let peer := (portOf s p).peer
  match handleCtx s peer (fld bs 10 2) with
  | none => chunkReport s p copy va 1
  | some ctx =>
    if bit w 58 then
      match remoteXlat s ctx va .rmw with
      | (.ok x, s) => chunkReport (remoteIncr s ctx x) p copy va 0
      | (.error e, s) => chunkReport s p copy va e
    else
      let data := ((bs.drop 16).take (fld bs 8 2)).mapIdx (fun i b => (i, b))
      let r := chunkWrite s ctx peer copy va (bit w 57) data
      let s := if bit w 56 then { r.2 with sources := madj r.2.sources peer (fun y => { y with parts := mdel y.parts copy }) } else r.2
      chunkReport s p copy va r.1

/-- Deliver the whole frames of a stream; headers of zeros are filler. -/
def framesIn (p : Nat) : Nat → State → State
  | 0, s => s
  | n + 1, s =>
    let buf := (portOf s p).rxBuf
    if buf.length < 16 then s
    else if allZero (buf.take 16) then framesIn p n (updPort s p (fun x => { x with rxBuf := x.rxBuf.drop 16 }))
    else
      let len := 16 + (fld buf 8 2 + 7) / 8 * 8
      if buf.length < len then s
      else framesIn p n (frameIn (updPort s p (fun x => { x with rxBuf := x.rxBuf.drop len })) p (buf.take len))

/-- An acknowledgement frees the replay buffer up to its sequence (15 R457, R460). -/
def ackFlits (s : State) (p ack : Nat) : State :=
  let x := portOf s p
  match x.replay.find? (fun f => f.1 % 4096 == ack) with
  | none => s
  | some f =>
    let s := updPort s p (fun x => { x with replay := x.replay.filter (fun g => decide (f.1 < g.1)), lastAck := s.ns })
    pumpPort s p

/-- Send every unacknowledged flit again (15 R460). -/
def resendFlits (s : State) (p : Nat) : State :=
  let x := portOf s p
  let s := updPort s p (fun x => { x with replays := x.replays + BitVec.ofNat 64 x.replay.length, lastAck := s.ns })
  x.replay.foldl (fun s f => sendFlitTo s p f.2.1 1 f.1 f.2.2) s

/-- Ask for the next sequence (15 R460): the request stands until a flit is accepted. -/
def askReplay (s : State) (p : Nat) : State :=
  let x := portOf s p
  let ask := [(1 : Byte)] ++ toBytes 2 (x.rxSeq % 4096)
  let s := updPort s p (fun x => { x with control := x.control.filter (fun c => c.head? != some 1) })
  sendControl s p ask true

/-- A flit whose CRC is right, for this device (15 R457): its header; a flit for another device posts a link event. -/
def flitOk (s : State) (p : Nat) (bs : List Byte) : Option Nat × State :=
  let h := fld bs 0 8
  if bs.length ≠ 256 ∨ (portOf s p).st = .dark then (none, s)
  else if crc32 (bs.take 248) ≠ fld bs 248 4 then (none, s)
  else if bits h 50 10 ≠ s.dev.getD 0 then
    (none, linkEvent s 7 p 1 (stripeOf (portOf s p).rx) (stripeOf (portOf s p).rx) 0 0 (portOf s p).peer)
  else (some h, updPort s p (fun x => { x with lastRx := s.ns }))

/-- DATA_FLIT (15 R457, R460): accepted only in sequence order; any other is dropped and asked for again. -/
def execDataFlit (port : Nat) (bytes : List Byte) (s : State) : Out :=
  let r := flitOk s port bytes
  let s := r.2
  if (portOf s port).st = .dark then .next s
  else
    match r.1 with
    | none => .next (askReplay s port)
    | some h =>
      let s := if bit h 25 then ackFlits s port (bits h 26 12) else s
      if bits h 60 4 ≠ 1 ∨ bits h 38 12 ≠ (portOf s port).rxSeq % 4096 then .next (askReplay s port)
      else
        let s := updPort s port (fun x => { x with
          rxSeq := x.rxSeq + 1, rxBuf := x.rxBuf ++ (bytes.drop 8).take 240
          control := x.control.filter (fun c => c.head? != some 1 && c.head? != some 4) })
        let s := framesIn port ((portOf s port).rxBuf.length / 16 + 1) s
        .next (sendFlit s port 3 0 [])

/-- ACKNOWLEDGEMENT_FLIT (15 R457). -/
def execAcknowledgementFlit (port : Nat) (bytes : List Byte) (s : State) : Out :=
  match flitOk s port bytes with
  | (some h, s) => .next (if bit h 25 then ackFlits s port (bits h 26 12) else s)
  | (none, s) => .next s

/-- REPLAY (15 R460): what lies before the named sequence has been received. -/
def execReplay (port seq : Nat) (s : State) : Out :=
  if (portOf s port).st = .dark then .next s
  else .next (resendFlits (ackFlits s port ((seq + 4095) % 4096)) port)

/-- REPLAY_TIMEOUT (15 R460): 10 µs without progress. -/
def execReplayTimeout (port : Nat) (s : State) : Out :=
  let x := portOf s port
  if x.replay.isEmpty || decide (s.ns < x.lastAck + 10000) then .next s else .next (resendFlits s port)

/-- CONTROL_FLIT_REPEAT (15 R457). -/
def execControlFlitRepeat (port : Nat) (s : State) : Out :=
  .next ((portOf s port).control.foldl (fun s c => sendFlit s port 2 0 c) s)

/-- CHUNK_DONE (15 R458): the chunk whose destination the report names; the report of a signal frame ends the copy's signal, a refused one is lost
(09 R500). -/
def execChunkDone (port handle frame : Nat) (s : State) : Out :=
  let c : CopyRef := ⟨bits handle 7 10, bits handle 0 7⟩
  let va := frame % 2 ^ 56
  let status := bits frame 56 8
  match copyOf s c with
  | none => .next s
  | some x =>
    if x.serial ≠ bits handle 17 14 ∨ x.port ≠ port ∨ x.elec then .next s
    else
      if x.over then
        .next (if (mget x.flight sigFlight).isSome && x.r3.toNat % 2 ^ 56 == va then
          signalEnd (updCopy s c (fun x => { x with flight := [] })) c (status == 0) else s)
      else
        match x.flight.find? (fun q => x.dstAt (x.chunkOff q.1) % 2 ^ 56 == va) with
        | some q => .next (if status = 0 then chunkDone s c q.1 else chunkLost s c q.1 (chunkCause status))
        | none => .next s

/-! ## Stripes (15 R461, R463-R466) -/

/-- Set the state of the wavelengths of a mask that meet a test. -/
def setWl (m : SMap WlSt) (mask : Nat) (p : WlSt → Bool) (v : WlSt) : SMap WlSt :=
  (ones 16 mask).foldl (fun m i => if p (mgetD m i .dark) then mput .dark m i v else m) m

/-- The wavelengths in a state. -/
def wlIn (m : SMap WlSt) (v : WlSt) : Nat := maskOf ((List.range 16).filter (fun i => mgetD m i .dark == v))

/-- The wavelengths of channels. -/
def chanMask (chans : Nat) : Nat := maskOf ((List.range 16).filter (fun i => bit chans (i / 4)))

/-- The channels with a wavelength in a state. -/
def chansIn (m : SMap WlSt) (v : WlSt) : Nat := maskOf ((List.range 4).filter (fun k => wlIn m v &&& chanMask (2 ^ k) != 0))

/-- The operands of RESTRIPE: who started it, the new stripe, and the next sequence expected. -/
def restripeBytes (byTx : Bool) (stripe seq : Nat) : List Byte := [2] ++ toBytes 1 (b2n byTx) ++ toBytes 2 stripe ++ toBytes 2 (seq % 4096)

/-- Start the first change that waits in a direction, when none was in progress (15 R465). -/
def startRestripe (s : State) (p : Nat) (tx : Bool) : State :=
  let x := portOf s p
  match (if tx then x.pendingTx else x.pendingRx) with
  | [] => s
  | r :: _ => sendControl s p (restripeBytes tx (dropBits (stripeOf (if tx then x.tx else x.rx)) r.waves) (if tx then x.nextSeq else x.rxSeq)) true

/-- Queue a change of a stripe. -/
def queueRestripe (s : State) (p : Nat) (tx : Bool) (r : Restripe) : State :=
  let x := portOf s p
  if tx then
    let s1 := updPort s p (fun x => { x with pendingTx := x.pendingTx ++ [r] })
    if x.pendingTx.isEmpty then startRestripe s1 p true else s1
  else
    let s1 := updPort s p (fun x => { x with pendingRx := x.pendingRx ++ [r] })
    if x.pendingRx.isEmpty then startRestripe s1 p false else s1

/-- Forget the repeated RESTRIPE of a direction. -/
def Port.unrestripe (x : Port) (tx : Bool) : Port :=
  { x with control := x.control.filter (fun c => !(c.head? == some 2 && fld c 1 1 == b2n tx)) }

/-- A park has completed: its lasers are off, one event for each channel, and the next change starts (15 R463, R465). -/
def parkDone (s : State) (p : Nat) : State :=
  let x := portOf s p
  match x.pendingTx with
  | [] => s
  | r :: t =>
    let before := stripeOf x.tx
    let s := updPort s p (fun x => { (x.unrestripe true) with
      tx := setWl x.tx r.waves (fun w => w == .parking) .parked, pendingTx := t, beat := 0 })
    let after := stripeOf (portOf s p).tx
    let s := (ones 4 r.chans).foldl (fun s _ => linkEvent s 4 p 0 before after (x.nextSeq % 4096) 0 x.peer) s
    startRestripe s p true

/-- The link of a port is up: trained, or carrying data (16 Table circuit-3). -/
def Port.linked (x : Port) : Bool := x.st == .trained || x.st == .live

/-- RESTRIPE (15 R461, R463): our transmitter adopts the stripe and sends again, or, for a park of the peer's transmitter, our receiver
takes it into use. -/
def execRestripe (port : Nat) (byTx : Bool) (stripe : BitVec 16) (seq : Nat) (s : State) : Out :=
  let x := portOf s port
  if !x.linked then .next s
  else if byTx then
    let gone := dropBits (stripeOf x.rx) stripe.toNat
    let s := updPort s port (fun x => { x with rx := setWl x.rx gone (fun _ => true) .parked })
    .next (sendControl s port [3, 1] false)
  else
    let before := stripeOf x.tx
    let gone := dropBits before stripe.toNat
    let s := updPort s port (fun x => { x with
      tx := setWl (setWl x.tx gone (fun w => w == .parking) .parked) gone (fun w => w == .lit) .lost, beat := 0 })
    let s := sendControl (ackFlits s port ((seq + 4095) % 4096)) port [3, 0] false
    let n := (portOf s port).replay.length
    let s := linkEvent (resendFlits s port) 2 port 0 before (stripeOf (portOf s port).tx) seq n x.peer
    match (portOf s port).pendingTx with
    | r :: _ => .next (if wlIn (portOf s port).tx .parking &&& r.waves = 0 then parkDone s port else s)
    | [] => .next s

/-- RESTRIPE_ACK (15 R461, R463, R465): the change is in use, and the next one starts. -/
def execRestripeAck (port : Nat) (byTx : Bool) (s : State) : Out :=
  if !(portOf s port).linked then .next s
  else if byTx then .next (parkDone s port)
  else
    let s := updPort s port (fun x => { (x.unrestripe false) with pendingRx := x.pendingRx.drop 1 })
    .next (startRestripe s port false)

/-- LOSS_OF_LIGHT (15 R461, R462, 16 R501). -/
def execLossOfLight (port : Nat) (lost : BitVec 16) (reverseLit : Bool) (s : State) : Out :=
  let x := portOf s port
  let before := stripeOf x.rx
  let gone := before &&& lost.toNat
  let left := dropBits before gone
  if x.st = .dark ∨ gone = 0 then .next s
  else
    let s := updPort s port (fun x => { x with rx := setWl x.rx gone (fun _ => true) .lost })
    if x.closeSeen then .next s
    else
      let s := linkEvent s 1 port 1 before left (x.rxSeq % 4096) 0 x.peer
      if !x.linked then .next s
      else if popcount 16 left < 2 || !reverseLit then
        .next (failPort (if reverseLit then sendControl s port [7] false else s) port 1)
      else .next (queueRestripe s port false ⟨gone, 0⟩)

/-- PORT_FAIL (15 R462). -/
def execPortFail (port : Nat) (s : State) : Out :=
  let x := portOf s port
  if x.linked then .next (failPort s port 0) else .next s

/-- RECEIVE_SILENCE (15 R462): 20 µs without a valid flit on a LIVE port. -/
def execReceiveSilence (port : Nat) (s : State) : Out :=
  let x := portOf s port
  if x.st = .live ∧ x.lastRx + 20000 ≤ s.ns then .next (failPort s port 1) else .next s

/-- Wake channels (15 R463): their parked wavelengths start to wake. -/
def wakeChans (s : State) (p chans : Nat) : State :=
  let x := portOf s p
  let m := wlIn x.tx .parked &&& chanMask chans
  updPort s p (fun x => { x with
    tx := setWl x.tx m (fun _ => true) .waking
    waking := (ones 4 (chansIn x.tx .parked &&& chans)).foldl (fun w k => mset w k s.ns) x.waking })

/-- WAKE_LOCK (15 R463, R465): at the receiver, the wavelengths that locked join the stripe, and WAKE_READY goes back. -/
def execWakeLock (port channel : Nat) (locked : BitVec 4) (s : State) : Out :=
  if (portOf s port).st ≠ .live ∨ locked = 0 then .next s
  else
    let m := locked.toNat * 2 ^ (4 * channel) % 2 ^ 16
    let s := updPort s port (fun x => { x with rx := setWl x.rx m (fun _ => true) .lit })
    .next (sendControl s port ([4] ++ toBytes 2 (stripeOf (portOf s port).rx)) true)

/-- WAKE_READY (15 R463, R465): the wider stripe starts; what did not lock has failed to wake. -/
def execWakeReady (port : Nat) (stripe : BitVec 16) (s : State) : Out :=
  let x := portOf s port
  if x.st ≠ .live then .next s
  else
    let before := stripeOf x.tx
    let up := wlIn x.tx .waking &&& stripe.toNat
    let chans := maskOf ((List.range 4).filter (fun k => up &&& chanMask (2 ^ k) != 0))
    let short := wlIn x.tx .waking &&& chanMask chans &&& (0xFFFF - up)
    let s := updPort s port (fun x => { x with
      tx := setWl (setWl x.tx up (fun _ => true) .lit) short (fun _ => true) .parked
      waking := x.waking.filter (fun w => !bit chans w.1), beat := if up = 0 then x.beat else 0 })
    let after := stripeOf (portOf s port).tx
    .next ((ones 4 chans).foldl (fun s k =>
      let s := if short &&& chanMask (2 ^ k) != 0 then linkEvent s 6 port 0 before after 0 0 x.peer else s
      linkEvent s 5 port 0 before after 0 0 x.peer) s)

/-- WAKE_TIMEOUT (15 Table link-6): no lock within 50 µs. -/
def execWakeTimeout (port channel : Nat) (s : State) : Out :=
  let x := portOf s port
  match mget x.waking channel with
  | none => .next s
  | some t =>
    if s.ns < t + 50000 then .next s
    else
      let s := updPort s port (fun x => { x with
        tx := setWl x.tx (chanMask (2 ^ channel)) (fun w => w == .waking) .parked, waking := mdel x.waking channel })
      .next (linkEvent s 6 port 0 (stripeOf x.tx) (stripeOf x.tx) 0 0 x.peer)

/-- LIGHT_RETURNS (15 R465): a LOST wavelength is PARKED until it is woken. -/
def execLightReturns (port wl : Nat) (rx : Bool) (s : State) : Out :=
  .next (updPort s port (fun x =>
    if rx then { x with rx := setWl x.rx (2 ^ wl) (fun w => w == .lost) .parked }
    else { x with tx := setWl x.tx (2 ^ wl) (fun w => w == .lost) .parked }))

/-- AUTO_WAKE (15 R464): the transmit queue has reached the threshold. -/
def execAutoWake (port : Nat) (s : State) : Out :=
  let x := portOf s port
  if x.st = .live ∧ x.autowake ≠ 0 ∧ x.autowake ≤ x.txq.length then
    .next (wakeChans s port (dropBits 15 x.failedCh)) else .next s

/-! ## Registers (15 R467-R469) -/

/-- LASER_REFRESH (15 Table link-8): the readings, and the ageing index; with no calibrated bias the index has no stated value. -/
def execLaserRefresh (port channel : Nat) (x : LaserReading) (s : State) : Out :=
  let b := x.bias.toNat
  let b0 := x.bias0.toNat
  let r := if b0 = 0 then (Config.choice s.freeCtr, { s with freeCtr := s.freeCtr + 1 }) else (clampN (1000 * (b - b0) / b0) 65535, s)
  .next (updPort r.2 port (fun p => { p with lasers := mset p.lasers channel ⟨x.hours, x.bias, x.bias0, x.pow, BitVec.ofNat 32 r.1⟩ }))

/-- The code of a port's state (15 Table link-9). -/
def PortSt.code : PortSt → Nat
  | .dark => 0 | .locking => 1 | .trained => 2 | .live => 3 | .draining => 4

/-- PORT_STAT (15 Table link-9). -/
def portStat (s : State) (p : Nat) : Nat :=
  let x := portOf s p
  x.st.code * 2 ^ 61 + b2n x.failed * 2 ^ 60 + (if x.st = .dark then 0 else x.peer * 2 ^ 48) + stripeOf x.rx * 2 ^ 32 +
    stripeOf x.tx * 2 ^ 16 + chansIn x.tx .parked * 2 ^ 12 + chansIn x.tx .waking * 2 ^ 8 + clampN x.txq.length 255

/-- The 8 bytes of a port's register block at an offset (15 Table link-8). -/
def portReg (s : State) (p off : Nat) : Nat :=
  let x := portOf s p
  let las := mgetD x.lasers ((off - 0x100) / 0x20) ⟨0, 0, 0, 0, 0⟩
  if off = 0 then portStat s p
  else if off = 8 then x.autowake
  else if off = 0x10 then x.replays.toNat
  else if off = 0x18 then x.feccor.toNat
  else if off = 0x20 then x.fecunc.toNat
  else if off < 0x100 ∨ 0x180 ≤ off then 0
  else if off % 0x20 = 0 then las.hours.toNat + las.bias.toNat * 2 ^ 32
  else if off % 0x20 = 8 then las.bias0.toNat + las.pow.toNat * 2 ^ 32
  else if off % 0x20 = 0x10 then las.age.toNat
  else 0

/-- The 8 bytes at an offset of BAR 2 in the link registers: port blocks, the link event ring, its tail and heads (15 R467, R468). -/
def linkReg (s : State) (off : Nat) : Nat :=
  if 0x100000 ≤ off ∧ off < 0x102000 then portReg s ((off - 0x100000) / 0x200) ((off - 0x100000) % 0x200)
  else if 0x120000 ≤ off ∧ off < 0x122000 then fld (mgetD s.linkRing ((off - 0x120000) / 32) []) (off % 32) 8
  else if off = 0x122000 then s.linkTail.toNat
  else if off = 0x122008 then s.linkHeadHost.toNat
  else if off = 0x122010 then s.linkHeadFm.toNat
  else 0

/-- MANAGEMENT_READ (15 R468): accepted only from the sources firmware designates, and served as every request (R447); `off` counts from
the port's block. -/
def execManagementRead (h : PktHdr) (port off : Nat) (s : State) : Out :=
  if !s.fmSources.getLsbD h.source then .next s
  else .next (serve s 5 h (fun s => ((0, toBytes 8 (linkReg s (0x100000 + 0x200 * port + off / 8 * 8))), s)))

/-- MANAGEMENT_WRITE (15 R468): only the fabric manager's head word is reached. -/
def execManagementWrite (h : PktHdr) (off : Nat) (value : W64) (s : State) : Out :=
  if !s.fmSources.getLsbD h.source then .next s
  else .next (serve s 6 h (fun s => ((0, []), if off = 0x122010 then { s with linkHeadFm := value } else s)))

/-! ## Controller messages (16 R472, R473, R476) -/

/-- The local end that a controller message names: the requester's port with its peer, or the peer's. -/
def ctlEnd (s : State) (m : CtlMsg) : Nat × Nat × Nat × Bool :=
  if s.dev.getD 0 = m.dev then (m.port, m.peer, m.pport, true) else (m.pport, m.dev, m.port, false)

/-- Whether a circuit joins a port to the peer that a message names. -/
def Circuit.joins (c : Circuit) (e : Nat × Nat × Nat × Bool) : Bool := c.peer == e.2.1 && c.pport == e.2.2.1

/-- A circuit is GRANTED: its port starts LOCKING (16 Table circuit-3). -/
def grantCircuit (s : State) (p : Nat) (c : Circuit) : State :=
  updPort { s with circuits := mset s.circuits p { c with st := .granted } } p (fun x => { Port.zero with
    st := .locking, peer := c.peer, lockStart := s.ns, autowake := x.autowake, replays := x.replays, feccor := x.feccor
    fecunc := x.fecunc, lasers := x.lasers, failedCh := x.failedCh })

/-- CONTROLLER_GRANT (16 R473); before the first lane has trained the device accepts no packet (15 R444). -/
def execControllerGrant (m : CtlMsg) (s : State) : Out :=
  if !planeUp s then .next s
  else
  let e := ctlEnd s m
  match mget s.circuits e.1 with
  | some c =>
    if c.joins e && c.st == .requested then .next (grantCircuit s e.1 { c with id := if e.2.2.2 then c.id else m.id })
    else if c.joins e && c.st == .granted then .next s
    else .next (sendCtl s 2 m)
  | none =>
    if e.2.2.2 then .next (sendCtl s 2 m)
    else
      match handleCtx s m.dev m.handle with
      | some ctx =>
        if s.status.optics then
          .next (grantCircuit s e.1 { st := .granted, ctx := ctx, peer := m.dev, pport := m.port, cause := 0, id := m.id
                                      handle := m.handle, since := s.ns, releasedSeen := false })
        else .next (sendCtl s 7 m)
      | none => .next (sendCtl s 7 m)

/-- A release or failure by the controller of the circuit that a message names: FAILED, and a port that is up drains (16 Table circuit-2). -/
def ctlFail (s : State) (m : CtlMsg) (cause : Nat) : State :=
  let e := ctlEnd s m
  match mget s.circuits e.1 with
  | some c =>
    if c.joins e && c.id == m.id then
      let s := if c.st = .granted then drainPort s e.1 true else s
      failCircuit s e.1 cause
    else s
  | none => s

/-- CONTROLLER_DENY (16 R473). -/
def execControllerDeny (m : CtlMsg) (s : State) : Out := .next (if planeUp s then ctlFail s m 1 else s)
/-- CONTROLLER_FAIL (16 R473). -/
def execControllerFail (m : CtlMsg) (s : State) : Out := .next (if planeUp s then ctlFail s m 5 else s)

/-- CONTROLLER_RELEASED (16 R476). -/
def execControllerReleased (m : CtlMsg) (s : State) : Out :=
  let e := ctlEnd s m
  if !planeUp s then .next s
  else
  let s := ctlFail s m 7
  match mget s.circuits e.1 with
  | some c =>
    if c.joins e && c.id == m.id then .next (circuitFree (updCircuit s e.1 (fun c => { c with releasedSeen := true })) e.1) else .next s
  | none => .next s

/-- REQUEST_SILENCE (16 R473): nothing heard for 200 ms. -/
def execRequestSilence (port : Nat) (s : State) : Out :=
  match mget s.circuits port with
  | some c => if c.st = .requested ∧ c.since + 200000000 ≤ s.ns then .next (failCircuit s port 2) else .next s
  | none => .next s

/-! ## Port states (16 Table circuit-3, R501) -/

/-- PORT_LOCKED (16 Table circuit-3): the receiver has locked; training follows. -/
def execPortLocked (port : Nat) (s : State) : Out :=
  .next (if (portOf s port).st = .locking then updPort s port (fun x => { x with locked := true }) else s)

/-- LOCK_TIMEOUT (16 Table circuit-3): no lock within 2 ms. -/
def execLockTimeout (port : Nat) (s : State) : Out :=
  let x := portOf s port
  if x.st = .locking ∧ !x.locked ∧ x.lockStart + 2000000 ≤ s.ns then .next (goDark (failCircuit s port 3) port false) else .next s

/-- The wavelengths after training: the trained set LIT, the others PARKED (15 Table link-6). -/
def trainedSet (m : BitVec 16) : SMap WlSt := (List.range 16).map (fun i => (i, if m.getLsbD i then WlSt.lit else .parked))

/-- PORT_TRAINED (16 Table circuit-3): deskewed and equalised; a port trained to another peer fails. -/
def execPortTrained (port peer : Nat) (tx rx : BitVec 16) (s : State) : Out :=
  let x := portOf s port
  if x.st ≠ .locking ∨ !x.locked then .next s
  else if peer ≠ x.peer then .next (goDark (failCircuit s port 6) port false)
  else .next (updPort s port (fun x => { x with st := .trained, tx := trainedSet tx, rx := trainedSet rx }))

/-- PORT_LIVE (16 Table circuit-3): both ends are trained and the handshake is done; the buckles are fastened. -/
def execPortLive (port : Nat) (s : State) : Out :=
  if (portOf s port).st ≠ .trained then .next s
  else .next (fasten (updPort s port (fun x => { x with st := .live, lastRx := s.ns, lastAck := s.ns })) port true)

/-- PORT_DRAINED (16 Table circuit-3, R475): every data flit sent has been acknowledged. -/
def execPortDrained (port : Nat) (s : State) : Out :=
  let x := portOf s port
  if x.st = .draining ∧ x.replay = [] then .next (goDark s port false) else .next s

/-- DRAIN_TIMEOUT (16 Table circuit-3): 50 µs of draining. -/
def execDrainTimeout (port : Nat) (s : State) : Out :=
  let x := portOf s port
  if x.st = .draining ∧ x.drainStart + 50000 ≤ s.ns then .next (goDark s port false) else .next s

/-- CLOSE (16 R501): an end whose circuit is GRANTED fails it with cause 7, drains and answers; at an end that drains already it is the
answer. -/
def execClose (port : Nat) (s : State) : Out :=
  let x := portOf s port
  match mget s.circuits port with
  | some c =>
    if c.st = .granted then
      let s := updPort s port (fun x => { x with closeSeen := true })
      .next (failCircuit (drainPort s port false) port 7)
    else if x.st = .draining then
      .next (updPort s port (fun x => { x with closeSeen := true, control := x.control.filter (fun b => b.head? != some 6) }))
    else .next s
  | none => .next s

end Sys2Proof.Machine
end

