-- ==== Sys2Proof/Machine/Cratch.lean ====
section
/-! DEFINITION. The fabric sequencer: scripts and the Cratch words (16 R478-R484). -/

namespace Sys2Proof.Machine

/-! ## Scripts -/

/-- A q register. -/
def Script.reg (x : Script) (r : Nat) : Nat := (mgetD x.q r 0).toNat
/-- Write a q register, mod 2^64. -/
def Script.set (x : Script) (r v : Nat) : Script := { x with q := mput 0 x.q r (BitVec.ofNat 64 v) }

/-- A script fault: the node ends FAILED with the cause as its reason (16 R480). -/
def scriptFault (s : State) (place cause : Nat) : State :=
  match mget s.scripts place with
  | some x => agentEnd { s with scripts := mdel s.scripts place } x.ctx x.node false cause
  | none => s

/-- A Cratch word of the script in the site's place, unless it waits. -/
def cratch (f : Script → State → State) (s : State) : Out :=
  match mget s.scripts s.cur.place with
  | some x => .next (if x.wait.isSome then s else f x s)
  | none => .next s

/-- A word that changes the script only, and passes. -/
def cratchOwn (f : State → Script → Script) (s : State) : Out :=
  cratch (fun _ s => updScript s s.cur.place (fun x => { f s x with pc := x.pc + 1 })) s

/-- Pass the word with a value of c. -/
def passC (s : State) (c : Bool) : State := updScript s s.cur.place (fun x => { x with c := c, pc := x.pc + 1 })

/-- Branch by words; a target outside the program is a fault (16 Table circuit-6). -/
def cratchBranch (take : Script → Bool) (off : Int) (s : State) : Out :=
  cratch (fun x s =>
    let t : Int := (x.pc : Int) + off
    if !take x then updScript s s.cur.place (fun x => { x with pc := x.pc + 1 })
    else if t < 0 ∨ (x.words.length : Int) ≤ t then scriptFault s s.cur.place 3
    else updScript s s.cur.place (fun x => { x with pc := t.toNat })) s

/-! ## Registers and branches -/

/-- MOVQ qd, qa (16 Table circuit-7). -/
def execMovqReg (qd qa : Nat) (s : State) : Out := cratchOwn (fun _ x => x.set qd (x.reg qa)) s
/-- MOVQ qd, imm. -/
def execMovqImm (qd : Nat) (imm : Int) (s : State) : Out := cratchOwn (fun _ x => x.set qd (ofInt 64 imm)) s
/-- ADDQ qd, qa, qb. -/
def execAddqReg (qd qa qb : Nat) (s : State) : Out := cratchOwn (fun _ x => x.set qd (x.reg qa + x.reg qb)) s
/-- ADDQ qd, qa, imm. -/
def execAddqImm (qd qa : Nat) (imm : Int) (s : State) : Out := cratchOwn (fun _ x => x.set qd (x.reg qa + ofInt 64 imm)) s
/-- SUBQ qd, qa, qb. -/
def execSubqReg (qd qa qb : Nat) (s : State) : Out :=
  cratchOwn (fun _ x => x.set qd (ofInt 64 ((x.reg qa : Int) - (x.reg qb : Int)))) s
/-- SUBQ qd, qa, imm. -/
def execSubqImm (qd qa : Nat) (imm : Int) (s : State) : Out := cratchOwn (fun _ x => x.set qd (ofInt 64 ((x.reg qa : Int) - imm))) s

/-- An unsigned comparison. -/
def qCond (cc : QCond) (a b : Nat) : Bool :=
  match cc with
  | .eq => a == b
  | .ne => a != b
  | .ltu => decide (a < b)
  | .leu => decide (a ≤ b)
  | .gtu => decide (b < a)
  | .geu => decide (b ≤ a)

/-- CMPQ.cc qa, qb. -/
def execCmpqReg (cc : QCond) (qa qb : Nat) (s : State) : Out := cratchOwn (fun _ x => { x with c := qCond cc (x.reg qa) (x.reg qb) }) s
/-- CMPQ.cc qa, imm. -/
def execCmpqImm (cc : QCond) (qa : Nat) (imm : Int) (s : State) : Out :=
  cratchOwn (fun _ x => { x with c := qCond cc (x.reg qa) (ofInt 64 imm) }) s
/-- BRQ.z and BRQ.nz. -/
def execBrq (nz : Bool) (qa : Nat) (off : Int) (s : State) : Out := cratchBranch (fun x => (x.reg qa != 0) == nz) off s
/-- BRC, BRC.c and BRC.nc. -/
def execBrc (cond : BrcCond) (off : Int) (s : State) : Out :=
  cratchBranch (fun x => match cond with | .always => true | .c => x.c | .nc => !x.c) off s
/-- TIME (16 Table circuit-7): device time in ns. -/
def execTime (qd : Nat) (s : State) : Out := cratchOwn (fun s x => x.set qd s.ns) s

/-! ## Circuits (16 R471, R474, R482, R483) -/

/-- The circuit of a port as a context sees it: FREE where another holds it. -/
def circuitFor (s : State) (ctx p : Nat) : Option Circuit :=
  match mget s.circuits p with
  | some c => if c.ctx = ctx then some c else none
  | none => none

/-- Whether a context's port is LIVE. -/
def liveFor (s : State) (ctx p : Nat) : Bool := (circuitFor s ctx p).isSome && (portOf s p).st == .live

/-- The code of a circuit's state (16 Table circuit-8). -/
def CircSt.code : CircSt → Nat
  | .requested => 1 | .granted => 2 | .failed => 3 | .released => 4

/-- The status of a port and its circuit (16 Table circuit-8). -/
def circStatus (s : State) (ctx p : Nat) : Nat :=
  let port := (portOf s p).st.code * 2 ^ 61 + stripeOf (portOf s p).tx * 2 ^ 16
  match mget s.circuits p with
  | none => port
  | some c =>
    if c.ctx ≠ ctx then 0
    else
      port + c.st.code * 2 ^ 58 + c.peer * 2 ^ 48 + c.pport * 2 ^ 44 + (if c.st = .failed then c.cause * 2 ^ 40 else 0) + 2 ^ 39 +
        (if c.st = .requested ∨ c.st = .granted then c.id else 0)

/-- The lowest handle bound to a context (16 R482). -/
def lowestHandle (s : State) (ctx : Nat) : Option Nat := (s.handles.find? (fun h => h.2.ctx == ctx)).map (·.1)

/-- CREQ's status, and the handle of the request (16 R482). -/
def creqStatus (s : State) (ctx w : Nat) : Nat × Nat :=
  let p := w % 16
  let h := bits w 18 16
  let handle := if h = 0 then lowestHandle s ctx else some h
  if !planeUp s then (4, 0)
  else if (mget s.circuits p).isSome then (1, 0)
  else if w / 2 ^ 34 ≠ 0 ∨ bits w 8 10 = s.dev.getD 0 then (2, 0)
  else
    match handle with
    | none => (2, 0)
    | some h =>
      if !s.status.optics ∨ (portOf s p).failedCh = 15 then (3, 0)
      else if s.lanes.isEmpty then (4, 0) else (0, h)

/-- CREQ (16 R482). -/
def execCreq (qd qa : Nat) (s : State) : Out :=
  cratch (fun x s =>
    let w := x.reg qa
    let r := creqStatus s x.ctx w
    let s := updScript s s.cur.place (fun x => { x.set qd r.1 with pc := x.pc + 1 })
    if r.1 ≠ 0 then s
    else
      let c : Circuit := { st := .requested, ctx := x.ctx, peer := bits w 8 10, pport := bits w 4 4, cause := 0, id := s.reqId
                           handle := r.2, since := s.ns, releasedSeen := false }
      sendCtl { s with circuits := mset s.circuits (w % 16) c, reqId := (s.reqId + 1) % 65536 } 1 (circMsg s (w % 16) c)) s

/-- Release a circuit (16 Table circuit-2). -/
def releaseCircuit (s : State) (p : Nat) (c : Circuit) : State :=
  let rel := fun (s : State) => updCircuit s p (fun c => { c with st := .released })
  match c.st with
  | .requested => sendCtl (rel s) 2 (circMsg s p c)
  | .granted =>
    let s1 := collsGone (untiePort (drainPort (rel s) p true) p) c.ctx p
    sendCtl s1 2 (circMsg s p c)
  | .failed =>
    let s1 := if c.cause = 1 ∨ c.cause = 2 then s else sendCtl s 2 (circMsg s p c)
    if (portOf s p).st = .dark then { s1 with circuits := mdel s1.circuits p }
    else circuitFree (rel s1) p
  | .released => s

/-- CREL (16 R474). -/
def execCrel (qa : Nat) (s : State) : Out :=
  cratch (fun x s =>
    let p := x.reg qa % 16
    let s1 := updScript s s.cur.place (fun x => { x with pc := x.pc + 1 })
    match circuitFor s x.ctx p with
    | some c => releaseCircuit s1 p c
    | none => s1) s

/-- CSTAT (16 R483). -/
def execCstat (qd qa : Nat) (s : State) : Out := cratchOwn (fun s x => x.set qd (circStatus s x.ctx (x.reg qa % 16))) s

/-! ## Buckles and lasers (16 R477, 15 R463, R464) -/

/-- Whether a script may use a buckle. -/
def Script.mayBuckle (x : Script) (s : State) (n : Nat) : Bool := holdsBuckle s x.ctx n

/-- BUCK (16 R477). -/
def execBuck (qa qb : Nat) (s : State) : Out :=
  cratch (fun x s =>
    let n := x.reg qa
    let p := x.reg qb % 16
    if !x.mayBuckle s n then scriptFault s s.cur.place 4
    else
      match circuitFor s x.ctx p with
      | some c =>
        if c.st = .granted then
          let s := untie (passC s true) n
          let live := (portOf s p).st == .live
          let f := fresh s
          let s := { f.2 with buckles := mset f.2.buckles n ⟨p, live, f.1⟩ }
          let s := testCopies (testBkws s n) n
          if live then collsSend s else s
        else passC s false
      | none => passC s false) s

/-- BUCK.off (16 R477). -/
def execBuckOff (qa : Nat) (s : State) : Out :=
  cratch (fun x s =>
    let n := x.reg qa
    if !x.mayBuckle s n then scriptFault s s.cur.place 4 else untie (passC s true) n) s

/-- PARK (15 R463). -/
def execPark (qa qb : Nat) (s : State) : Out :=
  cratch (fun x s =>
    let p := x.reg qa % 16
    let m := x.reg qb % 16
    let lit := chansIn (portOf s p).tx .lit
    if !liveFor s x.ctx p || dropBits lit m == 0 then passC s false
    else
      let waves := wlIn (portOf s p).tx .lit &&& chanMask m
      let s := passC s true
      if waves = 0 then s
      else
        let s := updPort s p (fun y => { y with tx := setWl y.tx waves (fun _ => true) .parking })
        queueRestripe s p true ⟨waves, lit &&& m⟩) s

/-- WAKE (15 R463). -/
def execWake (qa qb : Nat) (s : State) : Out :=
  cratch (fun x s =>
    let p := x.reg qa % 16
    if !liveFor s x.ctx p then passC s false else wakeChans (passC s true) p (x.reg qb % 16)) s

/-- SETW (15 R464): a port that another context holds stays as it is. -/
def execSetw (qa qb : Nat) (s : State) : Out :=
  cratch (fun x s =>
    let p := x.reg qa % 16
    let v := x.reg qb
    let other : Bool := match mget s.circuits p with | some c => c.ctx != x.ctx | none => false
    if 1024 < v ∨ other then passC s false else updPort (passC s true) p (fun y => { y with autowake := v })) s

/-! ## Messages (16 R484) -/

/-- Put a value into a mailbox of a context; `none` where it is full. -/
def mailPut (s : State) (ctx box : Nat) (v : W64) : Option State :=
  match ctxOf s ctx with
  | some c =>
    let l := mgetD c.mailboxes box []
    if 16 ≤ box ∨ 64 ≤ l.length then none else some (updCtx s ctx (fun c => { c with mailboxes := mset c.mailboxes box (l ++ [v]) }))
  | none => none

/-- MSG (16 R484): to the device itself it is delivered at once; else the script waits for the answer. -/
def execMsg (qa qb : Nat) (s : State) : Out :=
  cratch (fun x s =>
    let r := x.reg qa
    let v := mgetD x.q qb 0
    if bits r 10 6 ≠ 0 ∨ r / 2 ^ 36 ≠ 0 then scriptFault s s.cur.place 2
    else if !planeUp s then passC s false
    else if r % 1024 = s.dev.getD 0 then
      match mget s.handles (bits r 16 16) with
      | some k => match mailPut s k.ctx (bits r 32 4) v with
        | some s => passC s true
        | none => passC s false
      | none => passC s false
    else
      let q := sendReq s (r % 1024) 7 (reqHdr (bits r 16 16) 0 0) (toBytes 8 v.toNat ++ toBytes 8 (bits r 32 4)) (.script s.cur.place)
      updScript q.2 s.cur.place (fun x => { x with wait := some (.msg q.1, s.ns) })) s

/-- CRATCH_MSG (16 R484): answered with status 1 by an unbound handle and with another nonzero status by a full mailbox. -/
def execCratchMsg (h : PktHdr) (mailbox : Nat) (value : W64) (s : State) : Out :=
  .next (serve s 6 h (fun s =>
    match handleCtx s h.source h.handle with
    | none => ((1, []), s)
    | some ctx => match mailPut s ctx mailbox value with
      | some s => ((0, []), s)
      | none => ((2, []), s)))

/-! ## Waits (16 R481, R483, R484) -/

/-- Whether a time-out operand in microseconds has run out. -/
def waitedOut (s : State) (t0 : Nat) (tmo : W64) : Bool := tmo != BitVec.allOnes 64 && decide (tmo.toNat * 1000 ≤ s.ns - t0)

/-- Whether another script waits on a mailbox before this one. -/
def earlierWaiter (s : State) (place : Nat) (x : Script) (box t0 : Nat) : Bool :=
  s.scripts.any (fun y => y.1 != place && y.2.ctx == x.ctx &&
    (match y.2.wait with
      | some (.mrcv _ b _, t) => b == box && (decide (t < t0) || (t == t0 && decide (y.1 < place)))
      | _ => false))

/-- The end of a wait, where it has come: c, and a destination. -/
def scriptTest (s : State) (place : Nat) (x : Script) (w : ScriptWait) (t0 : Nat) : Option (Bool × Option (Nat × W64)) :=
  match w with
  | .cwait tgt qd p tmo =>
    let c := (circuitFor s x.ctx p).map (·.st)
    let met := match tgt with
      | .live => liveFor s x.ctx p
      | .grant => c == some CircSt.granted
      | .free => c.isNone
    let failed := c == some CircSt.failed
    let st := BitVec.ofNat 64 (circStatus s x.ctx p)
    if met then some (true, some (qd, st))
    else if failed && tgt != CwaitTarget.free then some (false, some (qd, st))
    else if waitedOut s t0 tmo then some (false, some (qd, st)) else none
  | .mrcv qd box tmo =>
    match (match ctxOf s x.ctx with | some c => mgetD c.mailboxes box [] | none => []) with
    | v :: _ => if earlierWaiter s place x box t0 then none else some (true, some (qd, v))
    | [] => if waitedOut s t0 tmo then some (false, none) else none
  | .twt h thr tmo =>
    match nodeOf s x.ctx h with
    | some (_, _, n) => if n.count.toNat ≤ thr then some (true, none) else if waitedOut s t0 tmo then some (false, none) else none
    | none => some (false, none)
  | .dly us => if us.toNat * 1000 ≤ s.ns - t0 then some (x.c, none) else none
  | .msg _ => none

/-- End a wait; MRCV takes its value out of the mailbox. -/
def finishWait (s : State) (place : Nat) (x : Script) (w : ScriptWait) (r : Bool × Option (Nat × W64)) : State :=
  let s := match w with
    | .mrcv _ box _ => if r.1 then updCtx s x.ctx (fun c => { c with mailboxes := mset c.mailboxes box ((mgetD c.mailboxes box []).drop 1) }) else s
    | _ => s
  endWait s place r.1 r.2

/-- A waiting word: it ends at once, or the script waits. -/
def cratchWait (w : Script → ScriptWait) (s : State) : Out :=
  cratch (fun x s =>
    match scriptTest s s.cur.place x (w x) s.ns with
    | some r => finishWait s s.cur.place x (w x) r
    | none => updScript s s.cur.place (fun x => { x with wait := some (w x, s.ns) })) s

/-- CWAIT (16 R483). -/
def execCwait (tgt : CwaitTarget) (qd qa qb : Nat) (s : State) : Out := cratchWait (fun x => .cwait tgt qd (x.reg qa % 16) (mgetD x.q qb 0)) s
/-- MRCV (16 R484). -/
def execMrcv (qd qa qb : Nat) (s : State) : Out := cratchWait (fun x => .mrcv qd (x.reg qa % 16) (mgetD x.q qb 0)) s
/-- TWT (16 Table circuit-7). -/
def execTwt (qa qb qc : Nat) (s : State) : Out :=
  cratchWait (fun x => .twt (x.reg qa % 2 ^ 32) (x.reg qb % 2 ^ 32) (mgetD x.q qc 0)) s
/-- DLY qa. -/
def execDlyReg (qa : Nat) (s : State) : Out := cratchWait (fun x => .dly (mgetD x.q qa 0)) s
/-- DLY imm. -/
def execDlyImm (us : Nat) (s : State) : Out := cratchWait (fun _ => .dly (BitVec.ofNat 64 us)) s

/-- CRATCH_WAIT_END (16 R481). -/
def execCratchWaitEnd (place : Nat) (s : State) : Out :=
  match mget s.scripts place with
  | some x => match x.wait with
    | some (w, t0) => match scriptTest s place x w t0 with
      | some r => .next (finishWait s place x w r)
      | none => .next s
    | none => .next s
  | none => .next s

/-! ## Task counters, events and the end -/

/-- TSIG (16 Table circuit-7): an amount of 0 sends nothing. -/
def execTsig (qa qb : Nat) (s : State) : Out :=
  cratch (fun x s => updScript (sendDecr s x.ctx (x.reg qa % 2 ^ 32) (x.reg qb % 2 ^ 32)) s.cur.place (fun x => { x with pc := x.pc + 1 })) s

/-- EVT (16 Table circuit-7): a record of kind 0x17. -/
def execEvt (qa : Nat) (s : State) : Out :=
  cratch (fun x s =>
    let s1 := updScript s s.cur.place (fun x => { x with pc := x.pc + 1 })
    postEvent s1 x.ctx (mkRec [(0, 0x17), (4, x.node), (8, x.reg qa), (16, x.base + 4 * x.pc)])) s

/-- END (16 R478). -/
def execEndScript (s : State) : Out :=
  cratch (fun x s => agentEnd { s with scripts := mdel s.scripts s.cur.place } x.ctx x.node true 0) s

/-- Whether a context's queued scripts may start (16 R478). -/
def scriptsRun (s : State) (ctx : Nat) : Bool :=
  match ctxOf s ctx with
  | some c => c.st != .preempting && c.st != .swapped && c.st != .faulted && c.st != .destroyed
  | none => false

/-- The queued script that comes next: of those whose contexts are not swapped out, the one that was readied first (16 R478). -/
def nextScript (s : State) : Option ScriptQueued :=
  (s.scriptQueue.filter (fun q => scriptsRun s q.ctx)).foldl (fun (b : Option ScriptQueued) q =>
    match b with
    | none => some q
    | some r => if q.order < r.order then some q else b) none

/-- SCRIPT_START (16 R478): the next queued node, when no node readied before it is on its way, a place is free and its words fit. -/
def execScriptStart (s : State) : Out :=
  match nextScript s with
  | none => .next s
  | some q =>
    let used := s.scripts.foldl (fun n x => n + x.2.words.length) 0
    match (List.range 16).find? (fun p => (mget s.scripts p).isNone) with
    | none => .next s
    | some p =>
      if 16384 < used + q.words ∨ earlierReady s 5 q.order (fun _ _ => true) then .next s
      else
        let t := { s with scriptQueue := s.scriptQueue.erase q }
        match readVa t devCl q.ctx q.prog (4 * q.words) with
        | (.ok bs, t) =>
          let x : Script := { ctx := q.ctx, node := q.node, words := wordsOf q.words bs,
                              pc := 0, base := q.prog, q := (q.q.mapIdx (fun i v => (i, v))).filter (fun e => e.2 != 0), c := false, wait := none }
          .next { t with scripts := mset t.scripts p x }
        | (.error va, t) => .next (agentEndAt t q.ctx q.node false 0xF1 va)

end Sys2Proof.Machine
end

