-- ==== Sys2Proof/Machine/Nmu.lean ====
section
/-! DEFINITION. Near-memory units: programs, the NMU words, faults, load and save (11 R350-R356, R366-R371). -/

namespace Sys2Proof.Machine

/-! ## Programs -/

/-- What an NMU word does: it passes, it goes to a word, or it faults with a cause and an address. -/
inductive NAct where
  | pass (p : NmuProg) (s : State)
  | jump (p : NmuProg) (s : State)
  | fault (cause va : Nat)

/-- An address register. -/
def NmuProg.areg (p : NmuProg) (r : Nat) : Nat := (mgetD p.a r 0).toNat
/-- Write an address register, mod 2^64. -/
def NmuProg.setA (p : NmuProg) (r v : Nat) : NmuProg := { p with a := mput 0 p.a r (BitVec.ofNat 64 v) }
/-- A lane of a vector register. -/
def NmuProg.lane (p : NmuProg) (r l : Nat) : Nat := (mgetD p.g (256 * r + l) 0).toNat
/-- Write every lane of a vector register. -/
def NmuProg.setG (p : NmuProg) (r : Nat) (f : Nat → Nat) : NmuProg :=
  { p with g := (List.range 256).foldl (fun m l => mput 0 m (256 * r + l) (BitVec.ofNat 32 (f l))) p.g }

/-- The program in a place. -/
def nmuProg (s : State) (stack place : Nat) : Option NmuProg := mget (nmuOf s stack).places place
/-- Put a program in a place, where one is. -/
def putProg (s : State) (stack place : Nat) (p : NmuProg) : State :=
  updNmu s stack (fun u => { u with places := madj u.places place (fun _ => p) })
/-- Free a place. -/
def freePlace (s : State) (stack place : Nat) : State := updNmu s stack (fun u => { u with places := mdel u.places place })

/-- The end test after word `at_`, from the innermost level (11 R369, 02 R74). -/
def nmuEndGo (at_ : Nat) : List NLoop → List NLoop × Nat
  | [] => ([], at_ + 1)
  | l :: t =>
    if l.last = at_ then (if l.cnt ≤ 1 then nmuEndGo at_ t else ({ l with cnt := l.cnt - 1 } :: t, l.first)) else (l :: t, at_ + 1)

/-- A program passes its word. The innermost level stands first. -/
def NmuProg.advance (p : NmuProg) : NmuProg := let r := nmuEndGo p.pc p.loops; { p with loops := r.1, pc := r.2 }

/-- One counter event of an NMU program: what is added as a code. -/
def rowEvent (ctx : Nat) (s : State) (r : Xlat × W32) : State := counterEvent s ctx r.1 (fun c => cadd c (cntOf r.2.toNat))

/-- A program with updates still to perform. -/
def NmuProg.pending (p : NmuProg) : Bool := !p.batch.isEmpty || !p.draining.isEmpty || !p.line.isEmpty

/-- A drain under way. -/
def NmuProg.inDrain (p : NmuProg) : Bool := !p.draining.isEmpty || !p.line.isEmpty

/-- Counter events by 256-byte line. -/
def lineGroups (rows : List (Xlat × W32)) : List (List (Xlat × W32)) :=
  rows.foldl (fun gs r =>
    let same := fun (g : List (Xlat × W32)) => match g with | q :: _ => q.1.pa / 256 == r.1.pa / 256 | [] => false
    if gs.any same then gs.map (fun g => if same g then g ++ [r] else g) else gs ++ [[r]]) []

/-- A drain begins: the pending updates are grouped by 256-byte counter line (11 R368). -/
def NmuProg.beginDrain (p : NmuProg) : NmuProg :=
  if p.inDrain then p else { p with batch := [], draining := lineGroups (p.batch.flatMap (fun u => u.rows)) }

/-- The line that a drain performs: the one under way, or any other, as the NMU chooses (11 R368). -/
def nextLine (p : NmuProg) (s : State) : NmuProg × State :=
  if p.line.isEmpty then
    let c := choose s p.draining.length
    ({ p with line := (p.draining[c.1]?).getD [], draining := p.draining.eraseIdx c.1 }, c.2)
  else (p, s)

/-- One counter event of a drain, each once, in an order the NMU chooses within the line (11 R360, R368). -/
def drainEvent (p : NmuProg) (s : State) : NmuProg × State :=
  let r := nextLine p.beginDrain s
  let c := choose r.2 r.1.line.length
  match r.1.line[c.1]? with
  | some e => ({ r.1 with line := r.1.line.eraseIdx c.1 }, rowEvent p.ctx c.2 e)
  | none => (r.1, c.2)

/-- A program that a fault has stopped and whose batch is drained: the node ends FAILED, and a record is posted (11 R356,
14 Table context-3). -/
def nmuFail (s : State) (stack place : Nat) (p : NmuProg) (cause va : Nat) : State :=
  let s := postEvent (freePlace s stack place) p.ctx (mkRec [(0, 0x12), (1, cause), (2, stack), (4, p.node), (8, p.pc), (16, va)])
  agentEnd s p.ctx p.node false cause

/-- A program fault: the program stops; its batch is drained before it fails (11 R356). -/
def nmuFault (s : State) (stack place : Nat) (p : NmuProg) (cause va : Nat) : State :=
  if p.pending then putProg s stack place { p with fault := some (cause, va) } else nmuFail s stack place p cause va

/-- The drain of a stopped program goes on, or the program fails. -/
def nmuFaultTurn (s : State) (stack place : Nat) (p : NmuProg) (cause va : Nat) : State :=
  if p.pending then let r := drainEvent p s; putProg r.2 stack place r.1 else nmuFail s stack place p cause va

/-- An NMU word of the program in the site's place, unless it is parked or stopped. -/
def nmuWord (f : NmuProg → State → NAct) (s : State) : Out :=
  match nmuProg s s.cur.stack s.cur.place with
  | none => .next s
  | some p =>
    if p.parked.isSome ∨ p.fault.isSome then .next s
    else
      let s := updNmu s s.cur.stack (fun u => { u with last := s.cur.place })
      match f p s with
      | .pass q t => .next (putProg t s.cur.stack s.cur.place q.advance)
      | .jump q t => .next (putProg t s.cur.stack s.cur.place q)
      | .fault c va => .next (nmuFault s s.cur.stack s.cur.place p c va)

/-- A word before which the batch is drained, one counter event a turn: it acts when no update is left (11 Table sketch-5). -/
def nmuDrained (f : NmuProg → State → NAct) (s : State) : Out :=
  nmuWord (fun p s => if p.pending then let r := drainEvent p s; .jump r.1 r.2 else f p s) s

/-- A word that changes the program only, and passes. -/
def nmuOwn (f : NmuProg → NmuProg) (s : State) : Out := nmuWord (fun p s => .pass (f p) s) s

/-! ## Addresses (11 R351, R371 causes 3 to 6) -/

/-- Translate the pages of a range in order: the first cause with its address, or each page's first address and translation. -/
def nmuPages (ctx stack : Nat) (kind : AccessKind) : List Nat → State → Except (Nat × Nat) (List (Nat × Xlat)) × State
  | [], s => (.ok [], s)
  | a :: t, s =>
    match nmuXlat ctx stack a kind s with
    | (.error c, s) => (.error (c, a), s)
    | (.ok x, s) =>
      match nmuPages ctx stack kind t s with
      | (.error e, s) => (.error e, s)
      | (.ok r, s) => (.ok ((a, x) :: r), s)

/-- Translate a range of bytes and go on with its pages, or fault. -/
def withPages (ctx : Nat) (kind : AccessKind) (va n : Nat) (s : State) (f : List (Nat × Xlat) → State → NAct) : NAct :=
  match nmuPages ctx s.cur.stack kind (pagesOf va n) s with
  | (.error e, _) => .fault e.1 e.2
  | (.ok ps, s) => f ps s

/-- The translation of an address in translated pages. -/
def nmuAt (ps : List (Nat × Xlat)) (va : Nat) : Xlat :=
  match ps.find? (fun p => p.1 / 4096 == va / 4096) with
  | some p => { p.2 with pa := p.2.pa + (va - p.1) }
  | none => ⟨0, 0, false, none⟩

/-- Read n aligned 4-byte words from an address on. -/
def nmuReads (ctx : Nat) (ps : List (Nat × Xlat)) (va : Nat) : Nat → State → List Nat × State
  | 0, s => ([], s)
  | n + 1, s =>
    let r := nmuGet s ctx (nmuAt ps va) 4
    let q := nmuReads ctx ps (va + 4) n r.2
    (ofBytes r.1 :: q.1, q.2)

/-- Write 4-byte words from an address on. -/
def nmuWrites (ctx : Nat) (ps : List (Nat × Xlat)) : Nat → List Nat → State → State
  | _, [], s => s
  | va, v :: t, s => nmuWrites ctx ps (va + 4) t (nmuPut s ctx (nmuAt ps va) (toBytes 4 v))

/-- The sketch of the 16 words of a descriptor. -/
def descOfWords (l : List Nat) : Option Sketch :=
  sketchOf ((List.range 8).map (fun i => (l[2 * i]?).getD 0 + (l[2 * i + 1]?).getD 0 * 2 ^ 32))

/-- The words of a descriptor in its translated pages, read: its sketch where they describe one (11 Table sketch-1). -/
def nmuDesc (p : NmuProg) (va : Nat) (ps : List (Nat × Xlat)) (s : State) : Option Sketch × State :=
  let r := nmuReads p.ctx ps va 16 s
  (descOfWords r.1, r.2)

/-- The sketch that a descriptor's words describe, or cause 9 where they describe none (11 Table sketch-1, R367). -/
def descSketch (va : Nat) : Option Sketch × State → Except (Nat × Nat) (Sketch × State)
  | (some k, s) => .ok (k, s)
  | (none, _) => .error (9, va)

/-- The sketch of a descriptor that a program names (11 R367): the cause and the address of the fault, or the sketch and the state after
reading it. -/
def nmuSketch (s : State) (p : NmuProg) (va : Nat) : Except (Nat × Nat) (Sketch × State) :=
  if va % 8 ≠ 0 then .error (6, va)
  else
    match nmuPages p.ctx s.cur.stack .read (pagesOf va 64) s with
    | (.error e, _) => .error e
    | (.ok ps, u) =>
      descSketch va (nmuDesc p va ps u)

/-- Go on with the sketch of a descriptor. -/
def withDesc (p : NmuProg) (va : Nat) (s : State) (f : Sketch → State → NAct) : NAct :=
  match nmuSketch s p va with
  | .error e => .fault e.1 e.2
  | .ok (k, u) => f k u

/-- Translate the counters of a sketch, which must all be homed on the NMU's stack, whichever of them the word touches (11 R367). -/
def withCounters (p : NmuProg) (kind : AccessKind) (k : Sketch) (s : State) (f : List (Nat × Xlat) → State → NAct) : NAct :=
  withPages p.ctx kind k.base (4 * k.count) s f

/-! ## Vector words (11 Table sketch-8) -/

/-- NLDV. -/
def execNldv (x : NmuMem) (s : State) : Out :=
  nmuWord (fun p s =>
    let va := p.areg x.a
    if va % 4 ≠ 0 then .fault 6 va
    else
      withPages p.ctx .read va (4 * x.n) s (fun ps s =>
        let r := nmuReads p.ctx ps va x.n s
        let p := p.setG x.g (fun l => (r.1[l]?).getD 0)
        .pass (if x.inc then p.setA x.a (va + 4 * x.n) else p) r.2)) s

/-- NSTV, with recalls (11 R353). -/
def execNstv (x : NmuMem) (s : State) : Out :=
  nmuWord (fun p s =>
    let va := p.areg x.a
    if va % 4 ≠ 0 then .fault 6 va
    else
      withPages p.ctx .write va (4 * x.n) s (fun ps s =>
        let s := nmuWrites p.ctx ps va ((List.range x.n).map (p.lane x.g)) s
        .pass (if x.inc then p.setA x.a (va + 4 * x.n) else p) s)) s

/-- A word of two FP32 sources. -/
def nmuF2 (x : NmuV2) (f : Nat → Nat → Nat) (s : State) : Out := nmuOwn (fun p => p.setG x.gd (fun l => f (p.lane x.ga l) (p.lane x.gb l))) s

/-- NADD. -/
def execNadd (x : NmuV2) (s : State) : Out := nmuF2 x (fp32.add x.rnd false) s
/-- NSUB. -/
def execNsub (x : NmuV2) (s : State) : Out := nmuF2 x (fp32.sub x.rnd false) s
/-- NMUL. -/
def execNmul (x : NmuV2) (s : State) : Out := nmuF2 x (fp32.mul x.rnd false) s
/-- NFMA. -/
def execNfma (x : NmuV3) (s : State) : Out :=
  nmuOwn (fun p => p.setG x.gd (fun l => fp32.fma x.rnd false (p.lane x.ga l) (p.lane x.gb l) (p.lane x.gc l))) s
/-- NMIN. -/
def execNmin (x : NmuV2) (s : State) : Out := nmuF2 x (fp32.minmax false false) s
/-- NMAX. -/
def execNmax (x : NmuV2) (s : State) : Out := nmuF2 x (fp32.minmax false true) s
/-- NRSQ (11 R367). -/
def execNrsq (gd ga : Nat) (s : State) : Out := nmuOwn (fun p => p.setG gd (fun l => frsqCode (p.lane ga l))) s

/-- One element of NCVT. -/
def ncvtCode1 (k : NcvtKind) (rnd : Rnd) (w : Nat) : Nat :=
  match k with
  | .i32f32 => ofInt 32 (XR.toInt rnd (-(2 ^ 31)) (2 ^ 31 - 1) (fp32.value w))
  | .f32i32 => fp32.round rnd (XR.ofInt (sext 32 w) 1 false)
  | .bf16f32 => bf16.round rnd (fp32.value w)
  | .f32bf16 => fp32.round rnd (bf16.value (w % 2 ^ 16))
  | .f16f32 => fp16.round rnd (fp32.value w)
  | .f32f16 => fp32.round rnd (fp16.value (w % 2 ^ 16))

/-- NCVT. -/
def execNcvt (gd ga : Nat) (kind : NcvtKind) (rnd : Rnd) (s : State) : Out :=
  nmuOwn (fun p => p.setG gd (fun l => ncvtCode1 kind rnd (p.lane ga l))) s

/-- NSET of an immediate. -/
def execNsetImm (gd imm : Nat) (s : State) : Out := nmuOwn (fun p => p.setG gd (fun _ => imm * 2 ^ 12)) s
/-- NSET of an address register. -/
def execNsetReg (gd a : Nat) (s : State) : Out := nmuOwn (fun p => p.setG gd (fun _ => p.areg a)) s
/-- NADDI. -/
def execNaddi (ad as sh imm : Nat) (s : State) : Out :=
  nmuOwn (fun p => p.setA ad (ofInt 64 ((p.areg as : Int) + sext 16 imm * ((2 ^ (8 * sh) : Nat) : Int)))) s

/-! ## Sketch words (11 R368) -/

/-- The update of a lane: for each row the counter and what is added. -/
def nmuUpdate (ps : List (Nat × Xlat)) (k : Sketch) (p : NmuProg) (g key l : Nat) : BatchUpd :=
  let v := toCounter (p.lane g l) k.q.toNat
  ⟨(k.rows ((key + l) % 2 ^ 64)).map (fun r => (nmuAt ps (k.va r.1), BitVec.ofNat 32 (cntCode (withSign r.2 v))))⟩

/-- NSKU: the batch is drained before it would pass 4,096 keys (11 Table sketch-5). -/
def execNsku (g ak ad n : Nat) (s : State) : Out :=
  nmuWord (fun p s =>
    if p.inDrain ∨ 4096 < p.batch.length + n then let r := drainEvent p s; .jump r.1 r.2
    else
      withDesc p (p.areg ad) s (fun k s => withCounters p .rmw k s (fun ps s =>
        .pass { p with batch := p.batch ++ (List.range n).map (nmuUpdate ps k p g (p.areg ak)) } s))) s

/-- The counters of a key as a query reads them, with their signs. -/
def nmuSigned (ctx : Nat) (ps : List (Nat × Xlat)) (k : Sketch) : List (Nat × Bool) → State → List (Option Int) × State
  | [], s => ([], s)
  | r :: t, s =>
    let q := nmuGet s ctx (nmuAt ps (k.va r.1)) 4
    let u := nmuSigned ctx ps k t q.2
    (withSign r.2 (cntOf (ofBytes q.1)) :: u.1, u.2)

/-- The queries of lanes, in order. -/
def nmuQueries (ctx : Nat) (ps : List (Nat × Xlat)) (k : Sketch) (key : Nat) : List Nat → State → List Nat × State
  | [], s => ([], s)
  | l :: t, s =>
    let r := nmuSigned ctx ps k (k.rows ((key + l) % 2 ^ 64)) s
    let q := nmuQueries ctx ps k key t r.2
    (queryCode r.1 k.q.toNat :: q.1, q.2)

/-- NSKQ. -/
def execNskq (g ak ad n : Nat) (s : State) : Out :=
  nmuDrained (fun p s =>
    withDesc p (p.areg ad) s (fun k s => withCounters p .read k s (fun ps s =>
      let q := nmuQueries p.ctx ps k (p.areg ak) (List.range n) s
      .pass (p.setG g (fun l => (q.1[l]?).getD 0)) q.2))) s

/-- The events of an add of sketches, one for each counter. -/
def nmuAdds (ctx : Nat) (px py : List (Nat × Xlat)) (x y : Sketch) (s : State) : State :=
  (List.range x.count).foldl (fun s n =>
    let q := nmuGet s ctx (nmuAt py (y.va n)) 4
    counterEvent q.2 ctx (nmuAt px (x.va n)) (fun c => cadd c (cntOf (ofBytes q.1)))) s

/-- NSKA: both ranges must be homed on the stack (11 R367). -/
def execNska (ad as : Nat) (s : State) : Out :=
  nmuDrained (fun p s =>
    withDesc p (p.areg ad) s (fun x s => withDesc p (p.areg as) s (fun y s =>
      if !x.compat y ∨ x.clash y then .fault 10 (p.areg as)
      else
        withCounters p .rmw x s (fun px s => withCounters p .read y s (fun py s => .pass p (nmuAdds p.ctx px py x y s)))))) s

/-- NSKC. -/
def execNskc (ad : Nat) (s : State) : Out :=
  nmuDrained (fun p s =>
    withDesc p (p.areg ad) s (fun x s => withCounters p .write x s (fun px s =>
      .pass p (nmuWrites p.ctx px x.base (List.replicate x.count 0) s)))) s

/-! ## Control (11 R369) -/

/-- NLOOP with a count: causes 8 and 7; a count of 0 skips the body. -/
def nmuLoop (count : NmuProg → Nat) (off : Nat) (s : State) : Out :=
  nmuWord (fun p s =>
    let last := p.pc + off
    if p.words.length ≤ last then .fault 8 0
    else if count p = 0 then .jump { p with pc := last + 1 } s
    else if 2 ≤ p.loops.length then .fault 7 0
    else .jump { p with pc := p.pc + 1, loops := ⟨count p, p.pc + 1, last⟩ :: p.loops } s) s

/-- NLOOP with an immediate count. -/
def execNloopImm (count off : Nat) (s : State) : Out := nmuLoop (fun _ => count) off s
/-- NLOOP with a count in an address register. -/
def execNloopReg (a off : Nat) (s : State) : Out := nmuLoop (fun p => p.areg a % 2 ^ 32) off s

/-- NBRA: a taken branch out of the innermost range pops levels (02 R75). -/
def execNbra (cond : NbraCond) (a off : Nat) (s : State) : Out :=
  nmuWord (fun p s =>
    let take : Bool := match cond with | .always => true | .z => p.areg a == 0 | .nz => p.areg a != 0
    let t : Int := (p.pc : Int) + sext 16 off
    if !take then .pass p s
    else if t < 0 ∨ (p.words.length : Int) ≤ t then .fault 8 0
    else .jump { p with pc := t.toNat, loops := p.loops.dropWhile (fun l => decide (t.toNat < l.first) || decide (l.last < t.toNat)) } s) s

/-! ## Synchronisation (11 R370) -/

/-- NWAIT: it passes where the value meets the condition now, and parks otherwise. -/
def execNwait (a b : Nat) (s : State) : Out :=
  nmuWord (fun p s =>
    let va := p.areg a
    if va % 8 ≠ 0 then .fault 6 va
    else
      match nmuXlat p.ctx s.cur.stack va .read s with
      | (.error c, _) => .fault c va
      | (.ok x, s) =>
        let r := nmuGet s p.ctx x 8
        if p.areg b ≤ ofBytes r.1 then .pass p r.2
        else .jump { p with parked := some (x, BitVec.ofNat 64 (p.areg b), false) } r.2) s

/-- NWAIT_RELEASE (11 R370). -/
def execNwaitRelease (stack place : Nat) (s : State) : Out :=
  match nmuProg s stack place with
  | some p => match p.parked with
    | some (_, _, true) => .next (putProg s stack place { p with parked := none }.advance)
    | _ => .next s
  | none => .next s

/-- NSIG: drain, fence, decrement. -/
def execNsig (a : Nat) (s : State) : Out :=
  nmuDrained (fun p s => .pass p (sendDecr s p.ctx (p.areg a % 2 ^ 32) 1)) s

/-- NFENCE. -/
def execNfence (s : State) : Out := nmuDrained (fun p s => .pass p s) s

/-- NEND (11 R355): the batch is drained first. -/
def execNend (s : State) : Out :=
  match nmuProg s s.cur.stack s.cur.place with
  | none => .next s
  | some p =>
    if p.parked.isSome ∨ p.fault.isSome then .next s
    else
      let s := updNmu s s.cur.stack (fun u => { u with last := s.cur.place })
      if p.pending then
        let r := drainEvent p s
        .next (putProg r.2 s.cur.stack s.cur.place r.1)
      else .next (agentEnd (freePlace s s.cur.stack s.cur.place) p.ctx p.node true 0)

/-! ## Load and save (11 R354, R355) -/

/-- Whether a context's programs run: it is resident, and no forced pre-emption is under way (14 R427, R428). -/
def nmuActive (s : State) (ctx : Nat) : Bool :=
  match ctxOf s ctx with
  | some c => c.st == .resident || c.st == .running || (c.st == .preempting && !isPreempting s ctx)
  | none => false

/-- A program that issues: its context runs and it is not parked, or a fault has stopped it and its batch drains. -/
def NmuProg.issues (s : State) (p : NmuProg) : Bool := p.fault.isSome || (p.parked.isNone && nmuActive s p.ctx)

/-- The place that issues next: the ready places in rotation after the last (11 R350). -/
def nmuNext (s : State) (stack : Nat) : Option Nat :=
  let u := nmuOf s stack
  let run := (u.places.filter (fun p => p.2.issues s)).map (·.1)
  (run.filter (fun p => decide (u.last < p)) ++ run).head?

/-- A program as it starts. -/
def startProg (q : NmuQueued) (words : List W32) (seq : Nat) : NmuProg :=
  let a := (q.args.foldl (fun (m : SMap W64 × Nat) v => (mput 0 m.1 m.2 v, m.2 + 1)) ([], 0)).1
  { ctx := q.ctx, node := q.node, launch := q.launch, words := words, pc := 0, a := a, g := [], loops := [], batch := []
    line := [], draining := [], fault := none, parked := none, prog := q.prog, save := q.save, seq := seq }

/-- The parked condition of a saved program, tested again. -/
def retest (s : State) (ctx : Nat) (o : Option (Xlat × W64 × Bool)) : Option (Xlat × W64 × Bool) :=
  o.map (fun w => (w.1, w.2.1, w.2.2 || decide (w.2.1.toNat ≤ readNum s w.1.key (resolve s ctx w.1 false) 8)))

/-- Words in instruction memory. -/
def Nmu.used (u : Nmu) : Nat := u.places.foldl (fun n p => n + p.2.words.length) 0

/-- The first address of the save area. -/
def NmuProg.saveVa (p : NmuProg) : Nat := match p.save with | q :: _ => q.1 | [] => 0

/-- The bytes of the save area: pc, the count of loop levels and two levels from the innermost, a0 to a15, g0 to g31 (DESIGN CHOICE,
notes/assumptions/36: no rule lays them out). -/
def NmuProg.saveBytes (p : NmuProg) : List Byte :=
  let lvl := fun (i : Nat) => let l := (p.loops[i]?).getD ⟨0, 0, 0⟩; toBytes 8 l.cnt ++ toBytes 8 l.first ++ toBytes 8 l.last
  toBytes 8 p.pc ++ toBytes 8 p.loops.length ++ lvl 0 ++ lvl 1 ++ (List.range 16).flatMap (fun r => toBytes 8 (p.areg r)) ++
    (List.range 8192).flatMap (fun i => toBytes 4 (mgetD p.g i 0).toNat)

/-- The state of a program from the bytes of its save area. -/
def NmuProg.fromSave (p : NmuProg) (bs : List Byte) : NmuProg :=
  let lvl := fun (i : Nat) => NLoop.mk (fld bs (16 + 24 * i) 8) (fld bs (24 + 24 * i) 8) (fld bs (32 + 24 * i) 8)
  { p with
    pc := fld bs 0 8
    loops := (List.range (clampN (fld bs 8 8) 2)).map lvl
    a := (List.range 16).foldl (fun m r => mput 0 m r (BitVec.ofNat 64 (fld bs (64 + 8 * r) 8))) []
    g := (List.range 8192).foldl (fun m i => mput 0 m i (BitVec.ofNat 32 (fld bs (192 + 4 * i) 4))) [] }

/-- Write bytes through kept translations, with recalls (11 R353, R354). -/
def writeKept (ctx : Nat) (ps : List (Nat × Xlat)) : List (Nat × Nat) → List Byte → State → State
  | [], _, s => s
  | q :: t, bs, s => writeKept ctx ps t (bs.drop q.2) (nmuPut s ctx (nmuAt ps q.1) (bs.take q.2))

/-- Read bytes through kept translations. -/
def readKept (ctx : Nat) (ps : List (Nat × Xlat)) : List (Nat × Nat) → State → List Byte × State
  | [], s => ([], s)
  | q :: t, s =>
    let r := nmuGet s ctx (nmuAt ps q.1) q.2
    let u := readKept ctx ps t r.2
    (r.1 ++ u.1, u.2)

/-- Write the save area of a program. -/
def writeSave (s : State) (p : NmuProg) : State := writeKept p.ctx p.save (pieces p.saveVa 32960) p.saveBytes s

/-- A program as it resumes from its save area (11 R355). -/
def resumeProg (s : State) (p : NmuProg) (words : List W32) : NmuProg × State :=
  let r := readKept p.ctx p.save (pieces p.saveVa 32960) s
  ({ p.fromSave r.1 with words := words, parked := retest r.2 p.ctx p.parked }, r.2)

/-- The NMU that the payload of a NEARMEM node names, as it stands in memory. -/
def namesStack (s : State) (stack : Nat) (g : Graph) (n : Node) : Bool :=
  match (readVa s devCl g.ctx (fld n.entry 8 8 + 12) 4).1 with
  | .ok bs => ofBytes bs == stack
  | .error _ => false

/-- The node that an NMU loads next: of the queued nodes of active contexts those that resume in the order of their saves, then the
earliest readied (11 R354, R355). -/
def nextQueued (s : State) (u : Nmu) : Option NmuQueued :=
  let l := u.queue.filter (fun q => ctxActive s q.ctx)
  match l.find? (fun q => q.saved.isSome) with
  | some q => some q
  | none => l.find? (fun q => l.all (fun r => decide (q.order ≤ r.order)))

/-- NMU_NODE_LOAD (11 R354): one node that does not fit holds back the others; an untrained stack loads none (00 R4). -/
def execNmuNodeLoad (stack : Nat) (s : State) : Out :=
  let u := nmuOf s stack
  match nextQueued s u with
  | none => .next s
  | some q =>
    let place := mfresh u.places 0 4
    if 4 ≤ place ∨ 16384 < u.used + q.words ∨ !bit s.status.stackMask stack ∨
        (q.saved.isNone ∧ earlierReady s 2 q.order (namesStack s stack)) then .next s
    else
      let s := updNmu s stack (fun u => { u with queue := u.queue.filter (fun r => r.node != q.node || r.ctx != q.ctx) })
      match readVa s devCl q.ctx q.prog (4 * q.words) with
      | (.ok bs, s) =>
        let ws := wordsOf q.words bs
        let r := match q.saved with
          | some p => resumeProg s p ws
          | none => (startProg q ws s.nextId, s)
        .next (updNmu { r.2 with nextId := r.2.nextId + 1 } stack (fun u => { u with places := mset u.places place r.1 }))
      | (.error va, s) => .next (agentEndAt s q.ctx q.node false 0xF1 va)

/-- NMU_PROGRAM_SAVE (11 R355): the context leaves residency; the batch is drained, one counter event at a time, then the state is saved
and the node queued again. -/
def execNmuProgramSave (stack place : Nat) (s : State) : Out :=
  match nmuProg s stack place with
  | none => .next s
  | some p =>
    if nmuActive s p.ctx ∨ p.fault.isSome then .next s
    else if p.pending then
      let r := drainEvent p s
      .next (putProg r.2 stack place r.1)
    else
      let s := freePlace (writeSave s p) stack place
      let q : NmuQueued := ⟨p.ctx, p.node, p.launch, p.prog, p.words.length, p.save, [], p.seq, some p⟩
      .next (updNmu s stack (fun u => { u with
        queue := u.queue.filter (fun x => x.saved.isSome) ++ [q] ++ u.queue.filter (fun x => x.saved.isNone) }))

end Sys2Proof.Machine
end

