-- ==== Sys2Proof/Machine/Graph.lean ====
section
/-! DEFINITION. Graphs at the scheduler: load, the start and end of nodes, completion (12 R382-R387, R502). -/

namespace Sys2Proof.Machine

/-! ## Load (12 R383) -/

/-- The slot of a graph launch. -/
def graphSlot (l : Launch) : Nat := fld l.pkt 24 4

/-- Whether a slot may take a new launch: the previous one has completed and no node is RUNNING. -/
def slotFree (s : State) (slot : Nat) : Bool :=
  match mget s.graphs slot with
  | none => true
  | some g => !g.running && g.nodes.all (fun n => match n.2.st with | .running => false | .ended _ _ _ => false | _ => true)

/-- The nodes of a table, those with a zero counter READY in ascending order. -/
def loadNodes (bs : List Byte) (first : Nat) (n : Nat) : SMap Node :=
  (List.range n).map (fun i =>
    let e := (bs.drop (32 * i)).take 32
    (i, { entry := e, payload := [], list := [], count := BitVec.ofNat 32 (fld e 4 4), st := if fld e 4 4 = 0 then .ready else .loaded
          launch := 0, order := first + i }))

/-- GRAPH_LOAD (12 R383): the entries are read once; a read that faults refuses the launch. -/
def execGraphLoad (launch : Nat) (s : State) : Out :=
  match mget s.launches launch with
  | none => .next s
  | some l =>
    let slot := graphSlot l
    let n := fld l.pkt 16 8 % 65536 + 1
    let va := fld l.pkt 8 8
    let first := s.launches.all (fun m => !(decide (m.1 < launch) && m.2.st == .submitted && fld m.2.pkt 0 1 == 2 && graphSlot m.2 == slot))
    if l.st ≠ .submitted ∨ fld l.pkt 0 1 ≠ 2 ∨ !first ∨ !ctxActive s l.ctx ∨ !slotFree s slot then .next s
    else
      match readVa s devCl l.ctx va (32 * n) with
      | (.ok bs, s) =>
        let g : Graph := { ctx := l.ctx, nodes := loadNodes bs s.nextId n, terminal := fld l.pkt 28 4, kind := fld l.pkt 52 1
                           word := BitVec.ofNat 64 (fld l.pkt 56 8), launch := launch, src := l.src, queue := l.queue, running := true }
        let s := { s with nextId := s.nextId + n, graphs := mset s.graphs slot g, gen := s.gen + 1 }
        .next (updLaunch (ctxRun (dropEverywhere s l.ctx) l.ctx) launch (fun l => { l with st := .started, gs := s.gen - 1, seq := s.gen.toNat }))
      | (.error f, s) =>
        let s := reportRefusal { s with launches := mdel s.launches launch } l.ctx l.src 7 7 f
        .next (queueDrain s l.queue)

/-! ## Nodes -/

/-- The bytes of a payload by type (12 Table kernel-4); 0 for a reserved type. -/
def payloadBytes (type : Nat) : Nat :=
  match type with
  | 1 => 64 | 2 => 160 | 3 => 32 | 4 => 64 | 5 => 144 | 6 => 16 | 7 => 32 | _ => 0

/-- A node fails: it decrements no successor and posts a record of kind 2, with the faulting address where there is one (12 R385, R387,
R502). -/
def nodeFail (s : State) (slot idx reason va : Nat) : State :=
  match mget s.graphs slot with
  | some g => postEvent (updNode s slot idx (fun n => { n with st := .failed })) g.ctx (launchRec 2 reason (handleOf slot idx) 0 va)
  | none => s

/-- An entry that is malformed whatever its payload (12 Table kernel-3). -/
def entryBad (e : List Byte) : Bool :=
  payloadBytes (fld e 0 1) == 0 || decide (4 < fld e 1 1) || fld e 2 2 != 0 || fld e 8 8 % 8 != 0

/-- The successor list at an address: no address, or a count and handles; else the reason of the failure and the faulting address. -/
def readList (s : State) (ctx va : Nat) : Except (Nat × Nat) (List W32) × State :=
  if va = 0 then (.ok [], s)
  else
    match readVa s devCl ctx va 4 with
    | (.error f, s) => (.error (0xF1, f), s)
    | (.ok c, s) =>
      let n := ofBytes c
      if 1024 < n then (.error (0xF0, 0), s)
      else
        match readVa s devCl ctx (va + 4) (4 * n) with
        | (.ok bs, s) => (.ok (wordsOf n bs), s)
        | (.error f, s) => (.error (0xF1, f), s)

/-- How an agent takes a node: the launch that it makes, 0 for none, or the reason of the failure and the faulting address. -/
abbrev Taken := Except (Nat × Nat) Nat × State

/-- A NEARMEM payload that is malformed, or the node queued at its NMU (11 R354). -/
def startNearmem (s : State) (ctx h order : Nat) (p : List Byte) : Taken :=
  let stack := fld p 12 4
  if fld p 24 8 ≠ 0 ∨ fld p 8 4 = 0 ∨ 16384 < fld p 8 4 ∨ fld p 0 8 % 4 ≠ 0 ∨ fld p 16 8 % 256 ≠ 0 ∨ 7 < stack then (.error (0xF0, 0), s)
  else
    match nmuPages ctx stack .rmw (pagesOf (fld p 16 8) 40960) s with
    | (.error _, s) => (.error (0xF0, 0), s)
    | (.ok save, s) =>
      let q : NmuQueued :=
        ⟨ctx, h, 0, fld p 0 8, fld p 8 4, save, (List.range 16).map (fun i => BitVec.ofNat 64 (fld p (32 + 8 * i) 8)), order, none⟩
      (.ok 0, updNmu s stack (fun u => { u with queue := u.queue ++ [q] }))

/-- A free copy channel of the scheduler (09 R499). -/
def freeChannel (s : State) : Option Nat :=
  (List.range 16).find? (fun k => match mget s.channels k with | none => true | some x => x.over && x.completed && x.killer.isNone)

/-- A COPY payload that is malformed, or the copy admitted on a channel (12 Table kernel-4). -/
def startCopy (s : State) (ctx h : Nat) (p : List Byte) (ch : Nat) : Taken :=
  let c := fld p 24 1
  match decScope (bits c 3 3) with
  | none => (.error (0xF0, 0), s)
  | some sc =>
    if bits c 6 2 ≠ 0 ∨ fld p 26 6 ≠ 0 ∨ !shapeOk .copy .ic (bit c 1) (fld p 0 8) (fld p 8 8) (fld p 16 8) 0 0 then (.error (0xF0, 0), s)
    else
      let serial := ((match mget s.channels ch with | some x => x.serial | none => 0) + 1) % 2 ^ 14
      let x : Copy :=
        { op := .copy, st := .admission, ctx := ctx, core := 0x3FF, slot := ch, uid := 0, launch := 0, tag := 0
          r0 := BitVec.ofNat 64 (fld p 0 8), r1 := BitVec.ofNat 64 (fld p 8 8), r2 := BitVec.ofNat 64 (fld p 16 8), r3 := 0
          b := fld p 25 1, c := 0, kind := .ic, scope := sc, sh := bit c 2, dz := bit c 1, bk := bit c 0, serial := serial
          order := s.nextId, after := 0, next := 0, pfx := 0, mask := 0, flight := [], cause := 0, failing := false, va := 0
          group := none, pos := 0, dzIdx := 0, dzOff := fld p 8 8, dzBlk := [], dzSizes := [], ret := 0, node := some h
          completed := false, sigPending := false, killer := none, killed := none }
      (.ok 0, { s with nextId := s.nextId + 1, channels := mset s.channels ch x })
where
  /-- The scope codes of 07 Table access-3 that a copy accepts. -/
  decScope (n : Nat) : Option Scope :=
    match n with
    | 1 => some .block
    | 2 => some .clu
    | 3 => some .stk
    | 4 => some .dev
    | 5 => some .domain
    | _ => none

/-- A COLLECTIVE payload that is malformed (11 Table sketch-6). -/
def collBad (p : List Byte) : Bool :=
  let n := fld p 24 2
  decide (n < 2) || decide (1024 < n) || decide (n ≤ fld p 26 2) || decide (1 < fld p 28 1) || (fld p 28 1 == 1 && 2 ^ Nat.log2 n != n) ||
    fld p 29 3 != 0 || !allZero (p.drop 36) || fld p 8 8 % 256 != 0

/-- The stack that serves a collective: that of the sketch's counters, or, where the first of them is not usable, that of the receive area
(11 R363). -/
def collStack (s : State) (ctx base scratch : Nat) : Option Nat × State :=
  match translate s devCl ctx base .rmw with
  | (.ok x, s) => let pa := resolve s ctx x false; if inDevice pa then (some (pa / 2 ^ 37), s) else areaStack s
  | (.error _, s) => areaStack s
where
  /-- The stack of the receive area. -/
  areaStack (s : State) : Option Nat × State :=
    match translate s devCl ctx scratch .rmw with
    | (.ok x, s) => let pa := resolve s ctx x false; (if inDevice pa then some (pa / 2 ^ 37) else none, s)
    | (.error _, s) => (none, s)

/-- A collective begins: the check is made and sent to the neighbours (11 R365). -/
def beginColl (s : State) (h : Nat) (c : Coll) : State :=
  c.neighbours.foldl (fun s i => emit s (.collCheck h (c.device i) c.remote c.peer)) { s with colls := mset s.colls h c }

/-- A COLLECTIVE descriptor that is malformed, or the collective begun (11 R363). Counters that are not usable do not fail it; the receive
area must lie on the sketch's stack (notes/assumptions/37). -/
def startCollective (s : State) (ctx h va : Nat) (p : List Byte) : Taken :=
  let n := fld p 24 2
  let self := fld p 26 2
  if collBad p then (.error (0xF0, 0), s)
  else
    match readVa s devCl ctx (fld p 0 8) 64 with
    | (.error a, s) => (.error (0xF1, a), s)
    | (.ok d, s) =>
      match readVa s devCl ctx (fld p 16 8) (4 * n) with
      | (.error a, s) => (.error (0xF1, a), s)
      | (.ok m, s) =>
        let ms := (wordsOf n m).map (·.toNat)
        match sketchOf ((List.range 8).map (fun i => fld d (8 * i) 8)) with
        | none => (.error (0xF0, 0), s)
        | some k =>
          if (List.range n).any (fun i => i != self && decide (2 ^ 21 ≤ (ms[i]?).getD 0)) then (.error (0xF0, 0), s)
          else
            match collStack s ctx k.base (fld p 8 8) with
            | (none, s) => (.error (0xF0, 0), s)
            | (some stack, s) =>
              match nmuPages ctx stack .rmw (pagesOf (fld p 8 8) (8 * ((k.count + n - 1) / n))) s with
              | (.error _, s) => (.error (0xF0, 0), s)
              | (.ok _, s) =>
                (.ok 0, beginColl s h { ctx := ctx, stack := stack, sk := k, members := ms, self := self, pair := fld p 28 1 == 1
                                        handle := h, bad := badBuckles s ctx self ms, heard := 0, accs := [], finals := [], skipped := []
                                        unsent := [], early := [], descVa := va, remote := fld p 32 4 })

/-- A SCRIPT payload that is malformed, or the node queued at the sequencer (16 R478). -/
def startScript (s : State) (ctx h order : Nat) (p : List Byte) : Taken :=
  if fld p 0 8 % 4 ≠ 0 ∨ fld p 8 4 = 0 ∨ 16384 < fld p 8 4 ∨ fld p 12 4 ≠ 0 then (.error (0xF0, 0), s)
  else (.ok 0, { s with scriptQueue := s.scriptQueue ++
    [⟨ctx, h, fld p 0 8, fld p 8 4, (List.range 16).map (fun i => BitVec.ofNat 64 (fld p (16 + 8 * i) 8)), order⟩] })

/-- Give a node to its agent (12 R384, R385, Table kernel-4). -/
def startAgent (s : State) (ctx h order : Nat) (q : Option Nat) (type va : Nat) (p : List Byte) : Taken :=
  match type with
  | 1 =>
    if fld p 0 1 ≠ 1 ∨ fld p 52 1 ≠ 0 then (.error (0xF0, 0), s)
    else
      match refuseReason s ctx p with
      | some r => (.error (r, 0), s)
      | none => let r := newLaunch s ctx (.node h) q p none; (.ok r.1, r.2)
  | 2 => startNearmem s ctx h order p
  | 3 => startCopy s ctx h p ((freeChannel s).getD 0)
  | 4 => startCollective s ctx h va p
  | 5 => startScript s ctx h order p
  | 6 =>
    if fld p 8 8 ≠ 0 ∨ fld p 0 8 % 256 ≠ 0 then (.error (0xF0, 0), s)
    else let r := submitRelaunch s ctx (.node h) q (fld p 0 8) .none 0 none; (.ok r.1, r.2)
  | _ => if fld p 0 8 % 8 ≠ 0 ∨ !allZero (p.drop 18) then (.error (0xF0, 0), s) else (.ok 0, s)

/-- The payload and the successor list of a node, read at its start, or the reason of its failure (12 R384, R502). -/
def readNode (s : State) (ctx : Nat) (e : List Byte) : Except (Nat × Nat) (List Byte × List W32) × State :=
  match readVa s devCl ctx (fld e 8 8) (payloadBytes (fld e 0 1)) with
  | (.error a, s) => (.error (0xF1, a), s)
  | (.ok p, s) =>
    match readList s ctx (fld e 24 8) with
    | (.error r, s) => (.error r, s)
    | (.ok l, s) => (.ok (p, l), s)

/-- NODE_START (12 R384): an acquire at device scope. No node of a context starts that is being pre-empted or swapped out (14 R427), or of a
graph that has completed (12 R386); NEARMEM and SCRIPT nodes keep their place by the order of readiness (11 R354, 16 R478). -/
def execNodeStart (slot index : Nat) (s : State) : Out :=
  match mget s.graphs slot with
  | none => .next s
  | some g =>
    match mget g.nodes index with
    | none => .next s
    | some n =>
      let type := fld n.entry 0 1
      if n.st ≠ .ready ∨ !g.running ∨ budgetHeld s g.queue ∨ !ctxActive s g.ctx ∨ (type = 3 ∧ (freeChannel s).isNone) then .next s
      else if entryBad n.entry then .next (nodeFail s slot index 0xF0 0)
      else
        match readNode s g.ctx n.entry with
        | (.error r, s) => .next (nodeFail s slot index r.1 r.2)
        | (.ok (p, l), s) =>
          match startAgent (dropEverywhere s g.ctx) g.ctx (handleOf slot index) n.order g.queue type (fld n.entry 8 8) p with
          | (.error r, s) => .next (nodeFail s slot index r.1 r.2)
          | (.ok launch, s) => .next (updNode s slot index (fun n => { n with
              st := .running, payload := p, list := l, launch := launch }))

/-- HOSTSIG's store and message (12 Table kernel-4): not done where the host address faults, or where the host answers the write with an
error (12 R502). -/
def hostSig (s : State) (ctx : Nat) (p : List Byte) : Bool × State :=
  match translate s devCl ctx (fld p 0 8) .write with
  | (.ok x, s) =>
    if inHost x.pa && !hostHole s x.pa then
      let s := writePa s 0 x.key x.pa (toBytes 8 (fld p 8 8))
      (true, if fld p 16 2 = 0xFFFF then s else emit s (.msix (fld p 16 2)))
    else (false, s)
  | (.error _, s) => (false, s)

/-- A node ends DONE: its successors are decremented, the inline ones first (12 R385). -/
def nodeDone (s : State) (slot index : Nat) (g : Graph) (n : Node) : State :=
  let inl := (List.range (fld n.entry 1 1)).map (fun i => handleOf slot (fld n.entry (16 + 2 * i) 2))
  let s := updNode s slot index (fun n => { n with st := .done })
  (inl ++ n.list.map (·.toNat)).foldl (fun s h => sendDecr s g.ctx h 1) s

/-- What follows the end of a node: its context and its queue may have nothing left that runs (13 R412, R413). -/
def nodeEnded (s : State) (g : Graph) : State := ctxSettle (queueDrain s g.queue) g.ctx

/-- NODE_END (12 R385). A HOSTSIG node's agent is the scheduler itself. -/
def execNodeEnd (slot index : Nat) (s : State) : Out :=
  match mget s.graphs slot with
  | none => .next s
  | some g =>
    match mget g.nodes index with
    | none => .next s
    | some n =>
      match n.st with
      | .ended true _ _ => .next (nodeEnded (nodeDone s slot index g n) g)
      | .ended false r va => .next (nodeEnded (nodeFail s slot index r va) g)
      | .running =>
        if fld n.entry 0 1 ≠ 7 ∨ !ctxActive s g.ctx then .next s
        else
          match hostSig s g.ctx n.payload with
          | (true, s) => .next (nodeEnded (nodeDone s slot index g n) g)
          | (false, s) => .next (nodeEnded (nodeFail s slot index 1 0) g)
      | _ => .next s

/-- Whether a node has ended. -/
def NodeSt.over : NodeSt → Bool
  | .done | .failed => true
  | _ => false

/-- GRAPH_COMPLETE (12 R386). -/
def execGraphComplete (slot : Nat) (s : State) : Out :=
  match mget s.graphs slot with
  | none => .next s
  | some g =>
    let ended : Bool := match mget g.nodes g.terminal with | some n => n.st.over | none => false
    let failed := g.nodes.any (fun n => n.2.st == .failed)
    let busy := g.nodes.any (fun n => match n.2.st with | .running => true | .ended _ _ _ => true | _ => false)
    if !g.running ∨ !(ended || failed) ∨ busy then .next s
    else
      let s := updGraph s slot (fun g => { g with running := false })
      let s := complete s g.ctx g.src 0 g.kind g.word.toNat
      .next (ctxSettle (queueDrain { s with launches := mdel s.launches g.launch } g.queue) g.ctx)

end Sys2Proof.Machine
end

