-- ==== Sys2Proof/Machine/Passes.lean ====
section
/-! DEFINITION. Matrix passes: harnesses, posting, the reservation table and its arbiter, the sums of a K-step, tile instructions and
MPROG (10 R319-R349, 03 R107-R112). -/

namespace Sys2Proof.Machine

/-! ## Elements of the panels (10 R329, R336, R337) -/

/-- A byte of a stream position: B where `b`. -/
def panelByte (c : Cluster) (b : Bool) (pos row off : Nat) : Nat :=
  (mgetD c.panels (b2n b * 2 ^ 20 + pos % 8 * 65536 + row * 512 + off) 0).toNat

/-- Element y of a row, packed at a width in bytes. -/
def panelElt (c : Cluster) (b : Bool) (pos w row y : Nat) : Nat :=
  ofBytes ((List.range w).map (fun i => BitVec.ofNat 8 (panelByte c b pos row (y * w + i))))

/-- The 2:4 patterns in the order of their 16-bit values (10 R336). -/
def patterns : List Nat :=
  let rows := [3, 5, 6, 9, 10, 12]
  let all := rows.flatMap (fun a => rows.flatMap (fun b => rows.flatMap (fun c => rows.map (fun d => [d, c, b, a]))))
  (all.filter (fun r => (List.range 4).all (fun k => (r.filter (fun x => bit x k)).length == 2))).map (fun r =>
    r.foldr (fun x a => x + 16 * a) 0)

/-- The code of block (q, b) of a panel (10 R337). -/
def blockCode (c : Cluster) (pos q b : Nat) : Nat := panelByte c true pos (4 * q) (256 + b)

/-- An element of an expanded sparse panel: zero where the pattern does not keep it (10 R337). Its product is that of a zero in a dense
pass, so that against an infinity or a NaN of A it is a NaN (DESIGN CHOICE: 03 R112 takes pruned products as zero and also says that a dense
pass with zeros gives the same bits; notes/assumptions/83). -/
def sparseElt (c : Cluster) (pos w row y : Nat) : Nat :=
  let u := row % 4
  let k := y % 4
  match patterns[blockCode c pos (row / 4) (y / 4)]? with
  | some pat =>
    if bit pat (4 * u + k) then panelElt c true pos w row (2 * (y / 4) + popcount k (pat / 2 ^ (4 * u))) else 0
  | none => 0

/-- The position and row and element of the panel that hold element x of row or column i of an operand (10 R329). -/
def drainAt (pos : List Nat) (tr : Bool) (i x : Nat) : Nat × Nat × Nat :=
  if tr then ((pos[x / 128]?).getD 0, x % 128, i) else ((pos[0]?).getD 0, i, x)

/-- Elements of one K-step: 64 of two bytes, 128 of one (03 R107). -/
def kstepLen (lut : Bool) (fmt : Nat) : Nat := if lut || decide (fmt < 2) then 64 else 128

/-- The width in bytes of an element of A. -/
def Pass.eltBytes (p : Pass) : Nat := if p.lut || decide (p.fmt < 2) then 2 else 1

/-- The code of A[i][x]. -/
def aCode (c : Cluster) (p : Pass) (i x : Nat) : Nat :=
  let d := drainAt p.posA p.tra i x
  panelElt c false d.1 p.eltBytes d.2.1 d.2.2

/-- The code of B[x][j], a format of whole elements. -/
def bCode (c : Cluster) (p : Pass) (j x : Nat) : Nat :=
  let d := drainAt p.posB p.trb j x
  if p.sparse then sparseElt c d.1 p.eltBytes d.2.1 d.2.2 else panelElt c true d.1 p.eltBytes d.2.1 d.2.2

/-- The formats of A and B of a floating-point pass (10 Table pass-1). -/
def passFmts (fmt : Nat) : Fmt × Fmt :=
  if fmt = 0 then (bf16, bf16) else if fmt = 1 then (fp16, fp16) else if fmt = 2 then (fp8m, fp8m)
  else if fmt = 3 then (fp8m, fp8e) else if fmt = 4 then (fp8e, fp8m) else (fp8e, fp8e)

/-! ## Sums (03 R108-R111) -/

/-- An exact sum of values whose denominators are powers of two. -/
def sumXR (xs : List XR) : XR :=
  if xs.any XR.isNan || (xs.contains (.inf true) && xs.contains (.inf false)) then .nan
  else if xs.contains (.inf true) then .inf true
  else if xs.contains (.inf false) then .inf false
  else
    let den := xs.foldl (fun a x => match x with | .fin _ _ d => Nat.max a d | _ => a) 1
    let num := xs.foldl (fun (a : Int) x => match x with | .fin s n d => a + signed s (n * (den / d)) | _ => a) 0
    .ofInt num den (xs.all (fun x => match x with | .fin s n _ => s && n == 0 | _ => false))

/-- Add exact groups to an FP32 accumulator, with one rounding each (03 R108). -/
def accFloat (acc : Nat) (groups : List (List XR)) : Nat :=
  groups.foldl (fun a g => fp32.round .rn (XR.add .rn (fp32.value a) (sumXR g))) acc

/-- sat48, and whether it saturated (03 R109). -/
def sat48 (v : Int) : Int × Bool :=
  let m : Int := 2 ^ 47 - 1
  if m < v then (m, true) else if v < -m then (-m, true) else (v, false)

/-- The inner sum of a bezel-4 chunk, held in 28 bits (03 R110). -/
def inner28 (ps : List Int) : Int × Bool :=
  ps.foldl (fun a p =>
    let v := a.1 + p
    let m : Int := 2 ^ 27 - 1
    if m < v then (m, true) else if v < -m then (-m, true) else (v, a.2)) (0, false)

/-- Groups of a length from an element on. -/
def groupsOf (x0 len n : Nat) : List (List Nat) := (List.range (len / n)).map (fun g => (List.range n).map (fun e => x0 + n * g + e))

/-- A floating-point output after a K-step. -/
def stepFloat (c : Cluster) (p : Pass) (x0 len i j acc : Nat) : Nat :=
  let f := passFmts p.fmt
  accFloat acc ((groupsOf x0 len 32).map (fun g => g.map (fun x => XR.mul (f.1.value (aCode c p i x)) (f.2.value (bCode c p j x)))))

/-- The nibble of weights of table group g of column j (10 R329, R339). -/
def lutNibble (c : Cluster) (p : Pass) (j g : Nat) : Nat :=
  let pos := (p.posB[0]?).getD 0
  panelByte c true pos j (g / 2) / 16 ^ (g % 2) % 16

/-- A weight as an exact value: 1-bit +1 or -1; 2-bit 0, +1, -2, -1 (03 R111). -/
def lutWeight (two : Bool) (v : Nat) : XR :=
  if !two then .fin (v == 0) 1 1
  else if v = 0 then .fin false 0 1 else if v = 1 then .fin false 1 1 else if v = 2 then .fin true 2 1 else .fin true 1 1

/-- The table entry for the weights of a group: an exact sum rounded once to FP32 (03 R111, 10 R339). -/
def lutEntry (c : Cluster) (p : Pass) (i j g : Nat) : Nat :=
  let two := p.fmt == 1
  let n := if two then 2 else 4
  let v := lutNibble c p j g
  fp32.round .rn (sumXR ((List.range n).map (fun e =>
    XR.mul (lutWeight two (if two then v / 4 ^ e % 4 else v / 2 ^ e % 2)) (bf16.value (aCode c p i (n * g + e))))))

/-- An output of a table-lookup pass after a K-step. -/
def stepLut (c : Cluster) (p : Pass) (x0 len i j acc : Nat) : Nat :=
  let n := if p.fmt = 1 then 2 else 4
  accFloat acc ((groupsOf (x0 / n) (len / n) (32 / n)).map (fun g => g.map (fun k => fp32.value (lutEntry c p i j k))))

/-- An INT8 output after a K-step (03 R109). -/
def stepInt (c : Cluster) (p : Pass) (x0 len i j : Nat) (acc : Int) : Int × Bool :=
  (groupsOf x0 len 32).foldl (fun a g =>
    let r := sat48 (g.foldl (fun t x => t + sext 8 (aCode c p i x) * sext 8 (bCode c p j x)) a.1)
    (r.1, a.2 || r.2)) (acc, false)

/-- The bezel-4 group g of column j. -/
def bzGroup (c : Cluster) (p : Pass) (j g : Nat) : Nat := panelElt c true ((p.posB[0]?).getD 0) 4 j g

/-- An element in fixed point with 9 fractional bits; a malformed or NaN one is zero (03 R110). -/
def fix9 (x : XR) : Int := match x with | .fin s n d => signed s (n * 512 / d) | _ => 0

/-- A bezel-4 output after a K-step (03 R110). -/
def stepBz (c : Cluster) (p : Pass) (x0 len i j : Nat) (acc : Int) : Int × Bool :=
  (groupsOf x0 len 64).foldl (fun a g =>
    let b := ((List.range 8).flatMap (fun k => (bz4Decode (bzGroup c p j ((g.head?).getD 0 / 8 + k))).1)).map fix9
    let inner := inner28 ((g.zip b).map (fun q => sext 8 (aCode c p i q.1) * q.2))
    let r := sat48 (a.1 + inner.1)
    (r.1, a.2 || inner.2 || r.2)) (acc, false)

/-- The malformed markers and NaN outliers of the groups of a K-step (10 R332). -/
def bzMalformed (c : Cluster) (p : Pass) (x0 len : Nat) : Nat :=
  ((List.range p.n).flatMap (fun j => (List.range (len / 8)).map (fun g =>
    let r := bz4Decode (bzGroup c p j (x0 / 8 + g))
    r.2 + (r.1.filter XR.isNan).length))).foldl (fun a b => a + b) 0

/-! ## Tiles (10 R330, R331, 06 R201) -/

/-- The INT48 value of a pair. -/
def acc48 (c : Cluster) (t i : Nat) : Int := sext 48 ((accRead c t i).toNat + (accRead c (t + 1) i).toNat % 65536 * 2 ^ 32)

/-- Write the INT48 value of a pair. -/
def put48 (c : Cluster) (t i : Nat) (v : Int) : Cluster :=
  accWrite (accWrite c t i (BitVec.ofNat 32 (ofInt 48 v))) (t + 1) i (BitVec.ofNat 32 (ofInt 32 (v / 2 ^ 32)))

/-- The outputs of a pass. -/
def Pass.outputs (p : Pass) : List (Nat × Nat) := (List.range p.m).flatMap (fun i => (List.range p.n).map (fun j => (i, j)))

/-- Whether a pass writes a pair. -/
def Pass.pair (p : Pass) : Bool := !p.lut && decide (6 ≤ p.fmt)

/-- Set the kind of a slot or pair (10 R330): F32 in one slot of a pair sets its partner. -/
def setKinds (c : Cluster) (k : SlotKind) (t : Nat) : Cluster :=
  let put := fun (c : Cluster) t k => { c with kinds := mput .f32 c.kinds t k }
  match k with
  | .f32 | .hi => put (put c t .f32) (t ^^^ 1) .f32
  | k => put (put c t k) (t + 1) .hi

/-- The kind a pass writes (10 R330). -/
def Pass.kind (p : Pass) : SlotKind := if !p.pair then .f32 else if p.fmt = 6 then .i48 else .b48

/-- The event of the first grant: starting values and kinds (10 R331). -/
def firstGrant (c : Cluster) (p : Pass) : Cluster :=
  let same := mgetD c.kinds p.tile .f32 == p.kind && (!p.pair || mgetD c.kinds (p.tile + 1) .f32 == .hi)
  let c1 := setKinds c p.kind p.tile
  let c2 := if p.init || !same then
      p.outputs.foldl (fun c o => p.slots.foldl (fun c t => accWrite c t (o.1 * 128 + o.2) 0) c) c1 else c1
  if !p.init && !same then { c2 with mstat := c2.mstat ||| BitVec.ofNat 64 (2 ^ 62) } else c2

/-- A saturation in a pair: MSTAT.ovf is set each time, and the pair's overflow event is counted once for each pass (10 R332, 03 R109). -/
def countOverflow (m : W64) (t : Nat) (seen : Bool) : W64 :=
  let n := bits m.toNat (4 * t) 4
  (if seen then m else BitVec.ofNat 64 (setBits m.toNat (4 * t) 4 (clampN (n + 1) 15))) ||| BitVec.ofNat 64 (2 ^ 63)

/-- Compute the next K-step of a pass: its tile, and MSTAT (10 R319, R332, 03 R107-R112). -/
def computeStep (c : Cluster) (p : Pass) : Cluster × Bool :=
  let len := kstepLen p.lut p.fmt
  let x0 := p.kdone * len
  if !p.pair then
    (p.outputs.foldl (fun d o =>
      let k := o.1 * 128 + o.2
      let old := (accRead c p.tile k).toNat
      accWrite d p.tile k (BitVec.ofNat 32
        (if p.lut then stepLut c p x0 len o.1 o.2 old else stepFloat c p x0 len o.1 o.2 old))) c, false)
  else
    let bz := p.fmt != 6
    let r := p.outputs.foldl (fun (d : Cluster × Bool) o =>
      let k := o.1 * 128 + o.2
      let v := if bz then stepBz c p x0 len o.1 o.2 (acc48 c p.tile k) else stepInt c p x0 len o.1 o.2 (acc48 c p.tile k)
      (put48 d.1 p.tile k v.1, d.2 || v.2)) (c, false)
    let bad := if bz then bzMalformed c p x0 len else 0
    let m := r.1.mstat.toNat
    ({ r.1 with mstat := BitVec.ofNat 64 (setBits m 48 8 (clampN (bits m 48 8 + bad) 255)) }, r.2)

/-- Whether a K-step uses a sparse code of 90 or more (10 R338). -/
def badCodes (c : Cluster) (p : Pass) : Bool :=
  let len := kstepLen p.lut p.fmt
  let x0 := p.kdone * len
  p.sparse && (List.range (p.n / 4)).any (fun q => (List.range (len / 4)).any (fun b =>
    let d := drainAt p.posB p.trb (4 * q) (x0 + 4 * b)
    decide (90 ≤ blockCode c d.1 (d.2.1 / 4) (d.2.2 / 4))))

/-! ## The reservation table (10 R333, R335) -/

/-- The lowest free entry (10 R333). -/
def freeEntry (c : Cluster) : Option Nat :=
  (List.range 16).find? (fun e => match mget c.passes e with
    | none => true
    | some p => p.st == .done || p.st == .failed)

/-- A pass's age (10 R333). -/
def Pass.ageAt (p : Pass) (now : Nat) : Nat :=
  match p.st with
  | .done | .failed => p.age
  | _ => p.age + (now - p.since)

/-- The effective priority (10 R335). -/
def Pass.eff (p : Pass) (now : Nat) : Nat := Nat.min 3 (p.prio + p.ageAt now / 4096)

/-- What a pass word fixes of the passes it posts. -/
structure PassWord where
  sparse : Bool
  lut : Bool
  fmt : Nat
  ka : Bool
  kb : Bool
  tra : Bool
  trb : Bool
deriving DecidableEq, Repr

/-- Consecutive positions from a head: one for a row drain, one for each 128 elements for a column drain (10 R328). -/
def takePos (head k : Nat) (tr : Bool) : List Nat := (List.range (if tr then (k + 127) / 128 else 1)).map (head + ·)

/-- The launch of a warp that is still there. -/
def launchOf (s : State) (uid : Nat) : Nat := match findWarp s uid with | some (_, _, w) => w.launch | none => 0

/-- A posting with a greater place has been made in this cycle: this one comes in a later cycle (10 R333). -/
def postBehind (s : State) (cl rank : Nat) : Bool :=
  match (clustOf s cl).postLast with
  | some (c, k) => c == s.cycle && decide (rank < k)
  | none => false

/-- Post a pass into an entry, with its place among the postings of one cycle; its ticket (10 R328, R333). -/
def postPass (s : State) (cl e rank : Nat) (x : PassWord) (desc : Nat) (members : List (Nat × Nat × Nat)) : Nat × State :=
  let f := fresh s
  let s := f.2
  let c := clustOf s cl
  let ticket := c.serial % 2 ^ 28 * 16 + e
  let k := bits desc 24 3 * kstepLen x.lut x.fmt
  let a := takePos c.headA k x.tra
  let b := takePos c.headB k x.trb
  let p : Pass :=
    { st := .waiting, ticket := BitVec.ofNat 32 ticket, sparse := x.sparse, lut := x.lut, fmt := x.fmt, tra := x.tra, trb := x.trb,
      prio := bits desc 28 2, init := bit desc 27, k := bits desc 24 3, m := bits desc 8 8, n := bits desc 16 8, tile := bits desc 0 3,
      posA := a, posB := b, kdone := 0, age := 0, since := s.cycle, order := f.1, members := members,
      launch := match members with | m :: _ => launchOf s m.1 | [] => 0, zeroed := false, ovfSeen := false }
  (ticket, setClust s cl { c with
    serial := c.serial + 1, passes := mset c.passes e p, postLast := some (s.cycle, rank)
    headA := if x.ka then c.headA else c.headA + a.length
    headB := if x.kb then c.headB else c.headB + b.length })

/-- Forced pre-emption of the context that holds a cluster (14 R427, R428). -/
def clusterForced (s : State) (cl : Nat) : Bool :=
  match holderOf s (partOf cl) with
  | some ctx => isPreempting s ctx
  | none => false

/-- Whether every position a pass took has been filled (10 R328). -/
def passFilled (c : Cluster) (p : Pass) : Bool := p.posA.all c.filledA.contains && p.posB.all c.filledB.contains

/-- Whether something orders first in the tile order of one of some slots (10 R334). -/
def tileFirst (s : State) (cl : Nat) (slots : List Nat) (order : Nat) : Bool := slots.all (fun t => !slotHeld s cl t order false)

/-- The pass the arbiter grants (10 R335): the greatest effective priority, ties to the earliest posting. -/
def arbitrate (s : State) (cl : Nat) : Option (Nat × Pass) :=
  let c := clustOf s cl
  let cand := c.passes.filter (fun e => (e.2.st == .waiting || e.2.st == .stopped) && passFilled c e.2 &&
    tileFirst s cl e.2.slots e.2.order)
  cand.foldl (fun (b : Option (Nat × Pass)) e =>
    match b with
    | none => some e
    | some q => if q.2.eff s.cycle < e.2.eff s.cycle ∨ (q.2.eff s.cycle = e.2.eff s.cycle ∧ e.2.order < q.2.order) then some e else b) none

/-- PASS_GRANT (10 R331, R335): nothing is granted while a pass runs or forced pre-emption has stopped the engine (R340). -/
def execPassGrant (cluster : Nat) (s : State) : Out :=
  let c := clustOf s cluster
  if c.passes.any (fun e => e.2.st == .running) || clusterForced s cluster then .next s
  else
    match arbitrate s cluster with
    | none => .next s
    | some (e, p) =>
      let c := if p.zeroed then c else firstGrant c p
      .next (setClust s cluster { c with passes := mset c.passes e { p with st := .running, zeroed := true } })

/-- SPARSE_CODE for a member: a record that holds a resident warp, or a record that holds none for one that has exited or whose slices have
all exited (10 R338); both are fault records, held in the device or escalating where the ring takes none (14 R422; notes/assumptions/29). -/
def sparseFault (ctx : Nat) (ticket k : Nat) (s : State) (m : Nat × Nat × Nat) : State :=
  let info := ticket + k * 2 ^ 32
  let gone := (openRecord s ctx
    { code := 0xE, cause := 0, level := 0, info := BitVec.ofNat 64 info, page := none, flags := 2, core := m.2.1, slot := m.2.2, pc := 0,
      slices := 0, handle := 0, warps := [], closing := none }).2
  match findWarp s m.1 with
  | some (core, slot, w) =>
    if w.aliveMask = 0 then gone else openFault s core slot (w.maskWhere Slice.isRun) { flt 0xE with info := info } true
  | none => gone

/-- The coefficient of a pass's MACs (13 R410): BF16, FP16 and table lookup, FP8 and INT8, bezel-4. -/
def Pass.coef (p : Pass) : Nat := if p.lut || decide (p.fmt < 2) then 1 else if p.fmt < 7 then 7 else 8

/-- The units of 64 MACs that a K-step computes: a sparse pass multiplies its kept elements only (13 R410). -/
def Pass.macUnits (p : Pass) : Nat := p.m * p.n * kstepLen p.lut p.fmt / (if p.sparse then 128 else 64)

/-- PASS_KSTEP_COMPLETE (10 R338, R340, Table pass-5). -/
def execPassKstepComplete (cluster : Nat) (s : State) : Out :=
  let c := clustOf s cluster
  match c.passes.find? (fun e => e.2.st == .running) with
  | none => .next s
  | some (e, p) =>
    if badCodes c p then
      let c := { c with passes := mset c.passes e { p with st := .failed, age := p.ageAt s.cycle }
                        mstat := c.mstat ||| BitVec.ofNat 64 (2 ^ 61) }
      let s1 := setClust s cluster c
      .next (p.members.foldl (sparseFault ((holderOf s (partOf cluster)).getD 0) p.ticket.toNat p.kdone) s1)
    else
      let r := computeStep c p
      let c := if r.2 then { r.1 with mstat := countOverflow r.1.mstat p.tile p.ovfSeen } else r.1
      let s := chargeTo s (payerOf s p.launch) p.coef p.macUnits
      let p := { p with kdone := p.kdone + 1, ovfSeen := p.ovfSeen || r.2 }
      let p := if p.kdone = p.k then { p with st := .done, age := p.ageAt s.cycle }
        else if clusterForced s cluster then { p with st := .stopped } else p
      .next (setClust s cluster { c with passes := mset c.passes e p })

/-! ## The pass words -/

/-- HARN (10 R344). -/
def execHarn (n : Nat) (a : Opnd) (s : State) : Out :=
  issueWord { ops := [(a, true)], gated := true } (fun s =>
    let v := BitVec.ofNat 64 (lowOp s true a)
    .done (retireVoid (updClust s (clusterOf s.cur.core) (fun c => { c with harness := mput 0 c.harness n v })))) s

/-- MPASS and MSPASS (10 R346): a release, then the gang parks at the latch with what each slice read (R322, R326). -/
def passWord (x : PassArgs) (s : State) : Out :=
  issueWord { ops := [(x.a, true)], dst := some (x.d, 1), gated := true } (fun s =>
    if !released s then .stall
    else
      let desc := fun (j : Nat) => BitVec.ofNat 64 (op64 s x.a (lane0 j))
      let s1 := updCw s (fun w => w.updSlices s.cur.mask (fun j y =>
        { y.discard with st := .park (.rendezvous x.n s.cur.word (desc j)) }))
      .done (latchTest s1 s.cur.core s.cur.slot x.n)) s

/-- MPASS (10 R346). -/
def execMpass (x : PassArgs) (s : State) : Out := passWord x s
/-- MSPASS (10 R346). -/
def execMspass (x : PassArgs) (s : State) : Out := passWord x s

/-- The pass word of a latch: what it posts, and its destination. -/
def latchWord (w : Nat) : Option (PassWord × Dst) :=
  match decodeCore w with
  | .ok (.mpass x) => some (⟨false, false, x.fmt, x.ka, x.kb, x.tra, x.trb⟩, x.d)
  | .ok (.mspass x) => some (⟨true, false, x.fmt, x.ka, x.kb, x.tra, x.trb⟩, x.d)
  | _ => none

/-- Release a member with its ticket (10 R322, R346). -/
def releaseMember (h ticket : Nat) (d : Dst) (s : State) (p : Nat × Nat) : State :=
  let w := warpOf s p.1 p.2
  let m := w.atHarness h
  let s := if d.nowb then s else updWarp s p.1 p.2 (fun w => w.writeReg m d.reg false false (fun _ => ticket))
  w.gangs.foldl (fun s g =>
    if g.mask &&& m = 0 then s else wake s p.1 p.2 (g.mask &&& m) (fun j => [dstEntry d.reg false false (fun _ => ticket) j])) s

/-- The warps of a cluster whose slices have all come to a latch, and which waited for accesses of exited slices, arrive (10 R322, R326). -/
def latchSweep (s : State) (cl h : Nat) : State :=
  (List.range 4).foldl (fun s k => (coreOf s (4 * cl + k)).warps.foldl (fun s w => latchTest s (4 * cl + k) w.1 h) s) s

/-- PASS_POST (10 R322): a latch at which every member has arrived posts its pass into a free entry. -/
def execPassPost (cluster harness : Nat) (s : State) : Out :=
  let s := latchSweep s cluster harness
  let c := clustOf s cluster
  let lat := mgetD c.latches harness .empty
  let mem := (harnMembers lat.v.toNat).map (memberAt cluster)
  if !lat.filling || !mem.all (fun p => lat.arrived.contains (warpOf s p.1 p.2).uid) || postBehind s cluster harness then .next s
  else
    match freeEntry c, latchWord lat.word.toNat with
    | some e, some (x, d) =>
      let r := postPass (setLatch s cluster harness .empty) cluster e harness x lat.desc.toNat
        (mem.map (fun p => ((warpOf s p.1 p.2).uid, p.1, p.2)))
      .next (mem.foldl (releaseMember harness r.1 d) r.2)
    | _, _ => .next s

/-- MLUT (10 R346): stalls until an entry is free, then posts one pass. -/
def execMlut (x : LutArgs) (s : State) : Out :=
  issueWord { ops := [(x.a, true)], dst := some (x.d, 1), gated := true } (fun s =>
    let desc := lowOp s true x.a
    let cl := clusterOf s.cur.core
    if descBad false desc then .trap { flt 0xD with cause := 6 }
    else
      match freeEntry (clustOf s cl) with
      | none => .stall
      | some e =>
        if postBehind s cl (64 + s.cur.core) then .stall
        else
        let r := postPass s cl e (64 + s.cur.core) ⟨false, true, x.fmt, x.ka, x.kb, x.tra, false⟩ desc [((cw s).uid, s.cur.core, s.cur.slot)]
        .done (wbLanes r.2 x.d false false 24 (fun _ => r.1))) s

/-! ## Tile instructions (10 R334, R347, R348) -/

/-- The issuing gang's place in the tile order, when it waits there already. -/
def tilePlace (s : State) : Option TileWait :=
  (clustOf s (clusterOf s.cur.core)).tileWaits.find? (fun t => t.uid == (cw s).uid && t.mask == s.cur.mask)

/-- Whether the issuing tile instruction is first in the order of its slots. -/
def tileTurn (s : State) (slots : List Nat) : Bool :=
  tileFirst s (clusterOf s.cur.core) slots (match tilePlace s with | some t => t.order | none => s.nextId)

/-- Enter the tile order. -/
def tileEnter (s : State) (slots : List Nat) : State :=
  match tilePlace s with
  | some _ => s
  | none =>
    let f := fresh s
    updClust f.2 (clusterOf s.cur.core) (fun c => { c with tileWaits := c.tileWaits ++ [⟨(cw s).uid, s.cur.mask, slots, f.1⟩] })

/-- Leave the tile order. -/
def tileLeave (s : State) : State :=
  updClust s (clusterOf s.cur.core) (fun c => { c with
    tileWaits := c.tileWaits.filter (fun t => !(t.uid == (cw s).uid && t.mask == s.cur.mask)) })

/-- A tile instruction: it waits at issue for its turn, holding its place, then acts as one event; in a cycle in which a pass was
posted it reaches the engine in the next one (10 R334, R347). -/
def tileWord (u : Use) (slots : List Nat) (body : State → State) (s : State) : Out :=
  if (preFault u s).isNone && ready u s && (tilePlace s).isNone && postedNow s (clusterOf s.cur.core) then .next s
  else if (preFault u s).isNone && ready u s && !tileTurn s slots then .next (tileEnter s slots)
  else issueWord u (fun s => .done (body (tileLeave s))) s

/-- The column of a lane (10 R347). -/
def accIdx (s : State) (x : AccArgs) (l : Nat) : Nat := x.row * 128 + x.cb * (cw s).width + l

/-- A cb beyond the tile (10 R347). -/
def accRange (x : AccArgs) (s : State) : Bool := decide (128 / (cw s).width ≤ x.cb)

/-- Whether a slot's words move as they are: F32, HI, or .raw. -/
def accRaw (c : Cluster) (x : AccArgs) : Bool :=
  x.raw || mgetD c.kinds x.t .f32 == .f32 || mgetD c.kinds x.t .f32 == .hi

/-- The scale of a pair: 2^0 of I48, 2^9 of B48. -/
def accScale (c : Cluster) (t : Nat) : Nat := if mgetD c.kinds t .f32 = .b48 then 512 else 1

/-- The value ACCRD reads (10 R347). -/
def accVal (c : Cluster) (x : AccArgs) (i : Nat) : Nat :=
  if mgetD c.kinds x.t .f32 = .hi then ofInt 32 (sext 16 ((accRead c x.t i).toNat % 65536))
  else if accRaw c x then (accRead c x.t i).toNat
  else fp32.round .rn (XR.ofInt (acc48 c x.t i) (accScale c x.t) false)

/-- The INT48 value ACCWR writes (10 R347). -/
def accPut (scale w : Nat) : Int :=
  XR.toInt .rn (-(2 ^ 47 - 1)) (2 ^ 47 - 1) (XR.mul (fp32.value w) (.fin false scale 1))

/-- ACCRD (10 R347). -/
def execAccrd (x : AccArgs) (s : State) : Out :=
  tileWord { dst := some (⟨.v x.v, false⟩, 1), gated := true, bad := accRange x s } [x.t] (fun s =>
    let c := clustOf s (clusterOf s.cur.core)
    wbLanes s ⟨.v x.v, false⟩ false false 8 (fun l => accVal c x (accIdx s x l))) s

/-- ACCWR (10 R347). -/
def execAccwr (x : AccArgs) (s : State) : Out :=
  tileWord { vr := [x.v], gated := true, bad := accRange x s } [x.t] (fun s =>
    let put := fun (c : Cluster) (l : Nat) =>
      let v := (cw s).vreg x.v l
      if accRaw c x then accWrite c x.t (accIdx s x l) v else put48 c x.t (accIdx s x l) (accPut (accScale c x.t) v.toNat)
    retireVoid (updClust s (clusterOf s.cur.core) (fun c => (curLanes s).foldl put c))) s

/-- The slots ACCZ names. -/
def acczSlots (kind : AccKind) (t : Nat) : List Nat := if kind = .f32 then [t] else [t, t + 1]

/-- ACCZ (10 R348). -/
def execAccz (kind : AccKind) (t : Nat) (s : State) : Out :=
  tileWord { gated := true } (acczSlots kind t) (fun s =>
    retireVoid (updClust s (clusterOf s.cur.core) (fun c =>
      setKinds { c with acc := c.acc.filter (fun e => !(acczSlots kind t).contains (e.1 / 16384)) }
        (match kind with | .f32 => .f32 | .i48 => .i48 | .b48 => .b48) t))) s

/-! ## MPROG (10 R349) -/

/-- The state code of a pass (10 Table pass-8). -/
def PassSt.code : PassSt → Nat
  | .waiting => 1 | .running => 2 | .stopped => 3 | .done => 4 | .failed => 5

/-- The MPROG result of a ticket (10 Table pass-8). -/
def mprogVal (s : State) (cl ticket : Nat) : Nat :=
  match mget (clustOf s cl).passes (ticket % 16) with
  | some p =>
    if p.ticket.toNat = ticket then
      p.st.code * 2 ^ 60 + (if p.st = .failed then 2 ^ 56 else 0) + p.kdone * 2 ^ 48 + p.eff s.cycle * 2 ^ 42 + p.prio * 2 ^ 40 +
        p.tile * 2 ^ 32 + ticket
    else ticket
  | none => ticket

/-- MPROG (10 R349). -/
def execMprog (d : Dst) (a : Opnd) (s : State) : Out :=
  issueWord { ops := [(a, false)], dst := some (d, 2), gated := true } (fun s =>
    let v := mprogVal s (clusterOf s.cur.core) (lowOp s false a)
    .done (wbLanes s d true false 24 (fun _ => v))) s

/-- MPROG.w (10 R349): firmware only; it changes a STOPPED entry. -/
def execMprogW (d : Dst) (a b : Opnd) (s : State) : Out :=
  issueWord { ops := [(a, false), (b, true)], dst := some (d, 2), gated := true, fw := true } (fun s =>
    let cl := clusterOf s.cur.core
    let t := lowOp s false a
    let v := mprogVal s cl t
    let k := bits (lowOp s true b) 48 3
    let s1 := updClust s cl (fun c => { c with passes := madj c.passes (t % 16) (fun p =>
      if p.ticket.toNat = t ∧ p.st = .stopped then { p with kdone := k } else p) })
    .done (wbLanes s1 d true false 24 (fun _ => v))) s

end Sys2Proof.Machine
end

