-- ==== Sys2Proof/Machine/System.lean ====
section
/-! DEFINITION. System words of the cores: PUBL, TLBI, CSRR, CSRW, HALT, the closing of fault records by FRET and RCLOSE, held records
(06 R225-R228, 14 R426, R435-R439, 10 R332, 15 R452). -/

namespace Sys2Proof.Machine

/-! ## PUBL (06 R227, R228) -/

/-- The publish event: G rises, the selector of the group flips, the group is stamped. Waits on a front see what it now holds. -/
def publish (s : State) (ctx g tag : Nat) : State :=
  let p := s.gen + 1
  let s := updCtx { s with gen := p } ctx (fun c => { c with
    sel := mput false c.sel g (!mgetD c.sel g false), stamps := mset c.stamps g (p, tag) })
  testWaits s (fun _ => true)

/-- A fence at device scope that has completed: write-back, and the clean lines go. -/
def fenceDev (s : State) : State := dropClean (releaseDev s) (clusterOf s.cur.core) (cw s).ctx

/-- PUBL (06 R228). -/
def execPubl (d : Dst) (a : Opnd) (s : State) : Out :=
  issueWord { ops := [(a, false)], dst := some (d, 2) } (fun s =>
    if !releasedAll s then .stall
    else
      let s := traceVolatile (fenceDev s) (cw s)
      let t := publish s (cw s).ctx (lowOp s false a % 1024) (launchTag s (cw s).launch)
      .done (wbLanes t d true false 2 (fun _ => t.gen.toNat))) s

/-! ## TLBI (06 R225, R226) -/

/-- Drop the entries that meet a test from every TLB of the device. -/
def dropTlb (s : State) (p : TlbEnt → Bool) : State :=
  let cut := fun (l : List TlbEnt) => l.filter (fun e => !p e)
  { s with tlb1 := mmap cut s.tlb1, tlb2 := mmap cut s.tlb2 }

/-- Whether an entry of a context lies on the walk of an address: the leaf that contains it, also under the other entries of a 64 KiB
page, and the table pointers. An address with bits [63:56] set matches nothing (06 Table page-10). -/
def onWalk (ctx va : Nat) (e : TlbEnt) : Bool :=
  decide (va < 2 ^ 56) && e.ctx == ctx &&
    (e.vpn == va / 2 ^ (12 + 9 * e.lvl) ||
      (e.lvl == 0 && bit e.entry.toNat 1 && bit e.entry.toNat 6 && e.vpn / 16 == va / 65536))

/-- A TLBI word: a fence at device scope, the entries go, and an operation that holds back later accesses until it completes. -/
def tlbiWord (u : Use) (p : State → TlbEnt → Bool) (s : State) : Out :=
  issueWord u (fun s =>
    if !releasedAll s then .stall
    else .done (retireVoid (putFence (dropTlb (fenceDev s) (p s)) s.cur.core s.cur.slot 0xFFFF .tlbi))) s

/-- TLBI.va (06 Table page-10). -/
def execTlbiVa (sreg : Nat) (s : State) : Out :=
  tlbiWord { ops := [(.reg (.s sreg), true)] } (fun s e =>
    (curSlices s).any (fun j => onWalk (cw s).ctx (((cw s).slice j).sreg sreg).toNat e)) s

/-- TLBI.ctx. -/
def execTlbiCtx (s : State) : Out := tlbiWord {} (fun s e => e.ctx == (cw s).ctx) s

/-- TLBI.all: firmware only. -/
def execTlbiAll (s : State) : Out := tlbiWord { fw := true } (fun _ _ => true) s

/-- Whether every access translated before an operation is performed: parts at the caches and the homes, and chunks in flight. -/
def olderDone (s : State) (id : Nat) : Bool :=
  s.txs.all (fun t => !(decide (t.1 < id) && (t.2.kind.isSketch ||
      t.2.parts.any (fun p => !p.done && p.place != .scratch && p.place != .window)))) &&
    (allCopies s).all (fun c => c.2.op == .copyr || c.2.flight.isEmpty)

/-- The first NMU program, of a context or of any for 0, whose batch holds updates translated before now. -/
def pendingBatch (s : State) (ctx : Nat) : Option (Nat × Nat × NmuProg) :=
  s.nmus.findSome? (fun u =>
    (u.2.places.find? (fun p => (ctx == 0 || p.2.ctx == ctx) && p.2.pending)).map (fun p => (u.1, p.1, p.2)))

/-- TLBI_COMPLETE (06 R226). The updates of NMU batches were translated when they were issued: they are performed, one counter event a turn,
before the word completes (notes/assumptions/71). -/
def execTlbiComplete (core slot id : Nat) (s : State) : Out :=
  match mget s.txs id with
  | some t =>
    if t.core = core ∧ t.slot = slot ∧ t.kind = .tlbi ∧ olderDone s id then
      match pendingBatch s t.ctx with
      | some (stack, place, p) => let r := drainEvent p s; .next (putProg r.2 stack place r.1)
      | none => .next { s with txs := mdel s.txs id }
    else .next s
  | none => .next s

/-- PAGE_WALK (06 R205): what a walk caches stays; its answer goes to the access that asked. -/
def execPageWalk (cluster ctx va : Nat) (kind : AccessKind) (s : State) : Out := .next (translate s cluster ctx va kind).2

/-! ## CSRs (14 R436, R437) -/

/-- A CSR that each slice holds. -/
def sliceCsr (n : Nat) : Bool := n == 1 || (decide (8 ≤ n) && decide (n ≤ 0x13))

/-- A firmware CSR. -/
def fwCsr (n : Nat) : Bool := decide (0x100 ≤ n)

/-- The code of a slot's kind (10 Table pass-4). -/
def SlotKind.code : SlotKind → Nat
  | .f32 => 0 | .i48 => 1 | .b48 => 2 | .hi => 3

/-- MSTAT as it reads: the stored fields, and the kinds (10 Table pass-4). -/
def mstatVal (c : Cluster) : Nat :=
  (List.range 8).foldl (fun v t => setBits v (32 + 2 * t) 2 (mgetD c.kinds t .f32).code) c.mstat.toNat

/-- A loop level of a slice. -/
def Slice.loop (x : Slice) (i : Nat) : Loop := (x.loops[i]?).getD .zero

/-- A slice CSR (14 Table context-9). -/
def sliceCsrVal (x : Slice) (n : Nat) : Nat :=
  if n = 1 then x.sstat.toNat
  else if n < 0xC then (x.loop (n - 8)).lc.toNat
  else if n < 0x10 then (x.loop (n - 0xC)).ls.toNat
  else if n < 0x13 then (x.loop (n - 0x10)).le.toNat
  else x.depth

/-- The bound partitions of a context. -/
def pmaskOf (s : State) (ctx : Nat) : Nat := match ctxOf s ctx with | some c => c.desc.pmask | none => 0

/-- Any other CSR, as the issuing warp reads it. -/
def csrVal (s : State) (n : Nat) : Nat :=
  let w := cw s
  let cl := clusterOf s.cur.core
  if n = 0 then w.wstat s.cur.slot
  else if n = 2 then w.fstat.toNat
  else if n = 3 then mstatVal (clustOf s cl)
  else if n = 0x14 then w.icnt
  else if n = 0x18 then w.ctx
  else if n = 0x19 then pmaskOf s w.ctx
  else if n = 0x1A then partOf cl
  else if n = 0x20 then 0
  else if n = 0x21 then (match ctxOf s w.ctx with | some c => c.dropped.toNat | none => 0)
  else if n = 0x100 then (mgetD s.therm (dieOf cl) 0).toNat
  else if n = 0x101 then (mgetD s.clkstep (dieOf cl) 0).toNat
  else (mgetD s.ecoef (n - 0x108) 0).toNat

/-- A CSR that is 64 bits wide. -/
def csrIs64 (n : Nat) : Bool := csrWide n == some true

/-- CSRR (14 R437). -/
def execCsrr (d : Dst) (csr : Nat) (s : State) : Out :=
  issueWord { dst := some (d, if csrIs64 csr then 2 else 1), fw := fwCsr csr } (fun s =>
    let v := fun (l : Nat) => if sliceCsr csr then sliceCsrVal ((cw s).slice (l / 4)) csr else csrVal s csr
    .done (wbLanes s d (csrIs64 csr) false (if csr = 3 then 24 else 4) v)) s

/-- FSTAT written field by field (15 Table link-3). -/
def fstatWrite (old v : Nat) : Nat :=
  let sticky := dropBits (bits old 0 6) (bits v 0 6)
  let dev := if bit sticky 0 then bits old 32 10 else 0
  sticky + bits v 16 16 * 2 ^ 16 + dev * 2 ^ 32

/-- MSTAT written field by field (10 Table pass-4); the kinds are not stored there. -/
def mstatWrite (old v : Nat) : Nat :=
  dropBits (bits old 61 3) (bits v 61 3) * 2 ^ 61 + bits v 48 8 * 2 ^ 48 + bits v 0 32

/-- A write of RCLOSE: it closes a record of the writer's context, or changes nothing (14 R437). -/
def rclose (s : State) (ctx v : Nat) : State :=
  if v / 2 ^ 18 = 0 then (closeRecord s ctx (v % 65536) (bits v 16 2)).getD s else s

/-- Write a CSR that no slice holds. -/
def csrPut (s : State) (n v : Nat) : State :=
  let die := dieOf (clusterOf s.cur.core)
  if n = 2 then updCw s (fun w => { w with fstat := BitVec.ofNat 64 (fstatWrite w.fstat.toNat v) })
  else if n = 3 then updClust s (clusterOf s.cur.core) (fun c => { c with mstat := BitVec.ofNat 64 (mstatWrite c.mstat.toNat v) })
  else if n = 0x20 then rclose s (cw s).ctx v
  else if n = 0x101 then { s with clkstep := mput 0 s.clkstep die (BitVec.ofNat 32 v) }
  else { s with ecoef := mput 0 s.ecoef (n - 0x108) (BitVec.ofNat 32 v) }

/-- CSRW (14 R437). The word completes before a record that it closes resumes its warps. -/
def execCsrw (csr : Nat) (a : Opnd) (s : State) : Out :=
  issueWord { ops := [(a, csrIs64 csr)], fw := fwCsr csr } (fun s =>
    if csr = 1 then
      let v := fun (j : Nat) => BitVec.ofNat 64 (op64 s a (lane0 j))
      .done (retireVoid (updCw s (fun w => w.updSlices s.cur.mask (fun j x => { x with sstat := v j }))))
    else .done (csrPut (retireVoid s) csr (lowOp s (csrIs64 csr) a))) s

/-! ## HALT (14 R438) -/

/-- The warp in a slot stays in place, HELD at its word. -/
def haltAt (s : State) : State :=
  let pc := ((cw s).slice (curLow s)).pc.toNat
  holdWarp (escalate s (cw s).ctx 1 pc) s.cur.core s.cur.slot

/-- HALT. -/
def execHalt (s : State) : Out := issueWord {} (fun s => .done (haltAt s)) s

/-- HALT.dev: firmware only; no user context is dispatched from then on. -/
def execHaltDev (s : State) : Out := issueWord { fw := true } (fun s => .done (retireVoid (loseDeficits { s with haltDev := true } none))) s

/-! ## Closing records (14 R426, R439) -/

/-- FRET's status and effect. -/
def fret (s : State) (a b : Nat) : Nat × State :=
  match closeRecord s (a / 65536) (a % 65536) b with
  | some t => (0, t)
  | none => (1, s)

/-- FRET (14 R439). -/
def execFret (d : Dst) (a b : Opnd) (s : State) : Out :=
  issueWord { ops := [(a, false), (b, true)], dst := some (d, 1), fw := true } (fun s =>
    let r := fret s (lowOp s false a) (lowOp s true b)
    .done (wbLanes r.2 d false false 2 (fun _ => r.1))) s

/-- A record closes with RETRY (14 Table context-6). -/
def execRcloseRetry (ctx record : Nat) (s : State) : Out := .next ((closeRecord s ctx record 0).getD s)
/-- A record closes with SKIP. -/
def execRcloseSkip (ctx record : Nat) (s : State) : Out := .next ((closeRecord s ctx record 1).getD s)
/-- A record closes with KILLW. -/
def execRcloseKillw (ctx record : Nat) (s : State) : Out := .next ((closeRecord s ctx record 2).getD s)
/-- A record closes with KILLC. -/
def execRcloseKillc (ctx record : Nat) (s : State) : Out := .next ((closeRecord s ctx record 3).getD s)

/-- HELD_RECORD_WRITE (14 R422): the held record at a place in the store is written when it is its context's oldest and the ring has
room; the closes that waited for records now written take effect. -/
def execHeldRecordWrite (n : Nat) (s : State) : Out :=
  match s.heldRecords[n]? with
  | none => .next (settleCloses s)
  | some p =>
    if (s.heldRecords.find? (fun q => q.1 == p.1)) = some p then .next (settleCloses ((heldTry s p).getD s)) else .next s

end Sys2Proof.Machine
end

