-- ==== Sys2Proof/Machine/Contexts.lean ====
section
/-! DEFINITION. Contexts: binding to partitions, pre-emption, images, swap and restore, the residency rules, escalation by memory
errors, destroying (14 R416-R434). -/

namespace Sys2Proof.Machine

/-! ## Partitions (14 R416) -/

/-- A user core of a partition. -/
def inPart (p core : Nat) : Bool := partOf (clusterOf core) == p && !fwCore core

/-- The clusters of a partition. -/
def partClusters (p : Nat) : List Nat := (List.range 12).map (12 * p + ·)

/-- The partitions of a mask. -/
def partsOf (pmask : Nat) : List Nat := ones 16 pmask

/-- Write back and drop every line of a partition's caches. -/
def flushPart (s : State) (p : Nat) : State :=
  (partClusters p).foldl (fun s cl => (linesOf s cl).foldl (fun s x => lineEvict s cl x.1) s) s

/-- Zero the registers, scratchpads, staging arrays and accumulators of a partition. -/
def zeroPart (s : State) (p : Nat) : State :=
  { s with cores := s.cores.filter (fun k => !inPart p k.1), clusters := s.clusters.filter (fun c => partOf c.1 != p) }

/-- The state of a context, the one before the escalation where it is FAULTED. -/
def Ctx.eff (c : Ctx) : CtxSt := if c.st = .faulted then c.prev else c.st

/-- Whether a context holds its partitions, FAULTED or not. -/
def Ctx.holds (c : Ctx) : Bool := c.eff == .resident || c.eff == .running || c.eff == .preempting

/-- The key of an image. -/
def imgKey (p ctx : Nat) : Nat := p * 4096 + ctx

/-- Whether copies or passes of a context are under way in cores and clusters. -/
def busyParts (ctx : Nat) (cores : SMap Core) (clusters : SMap Cluster) : Bool :=
  cores.any (fun k => k.2.copies.any (fun c => c.2.ctx == ctx && !c.2.over)) ||
    clusters.any (fun c => c.2.passes.any (fun p => p.2.st == .waiting || p.2.st == .running || p.2.st == .stopped))

/-- Whether a context has saved or running work on a partition (14 R439). -/
def workOn (s : State) (ctx p : Nat) : Bool :=
  let mine := fun (l : Nat) => match mget s.launches l with | some x => x.ctx == ctx | none => false
  s.blocks.any (fun b => b.2.st != .done && inPart p b.2.core && mine b.2.launch) ||
    s.cbs.any (fun c => c.2.st == .assigned && partOf c.2.cluster == p && mine c.2.launch) ||
    (match mget s.images (imgKey p ctx) with | some i => busyParts ctx i.cores i.clusters | none => false) ||
    (holderOf s p == some ctx &&
      busyParts ctx (s.cores.filter (fun k => inPart p k.1)) (s.clusters.filter (fun c => partOf c.1 == p)))

/-- Bind a partition to a context: the status and the effect of FCTX (14 R439). -/
def bindPart (s : State) (ctx p : Nat) : Nat × State :=
  match ctxOf s ctx with
  | none => (1, s)
  | some c =>
    if bit c.desc.pmask p then (1, s)
    else if c.holds ∧ (holderOf s p).isSome then (3, s)
    else
      let t := updCtx s ctx (fun c => { c with desc := { c.desc with pmask := c.desc.pmask + 2 ^ p } })
      (0, if c.holds then { zeroPart (flushPart t p) p with holder := mset t.holder p ctx } else t)

/-- Unbind a partition from a context (14 R439). -/
def unbindPart (s : State) (ctx p : Nat) : Nat × State :=
  match ctxOf s ctx with
  | none => (1, s)
  | some c =>
    if !bit c.desc.pmask p ∨ workOn s ctx p then (1, s)
    else
      let held := holderOf s p == some ctx
      let t := updCtx s ctx (fun c => { c with desc := { c.desc with pmask := dropBits c.desc.pmask (2 ^ p) } })
      let t : State := { t with images := mdel t.images (imgKey p ctx) }
      (0, if held then { zeroPart (flushPart t p) p with holder := mdel t.holder p } else t)

/-! ## Pre-emption (14 R427, R428) -/

/-- A microsecond limit from now, in ns. -/
def inUs (s : State) (us : Nat) : Nat := s.ns + 1000 * us

/-- Ask for the pre-emption of a resident context; dispatch stops with its state. -/
def preemptStart (s : State) (ctx : Nat) (forced : Bool) (signal : Option Nat) : State :=
  loseDeficits (updCtx s ctx (fun c => { c with
    st := .preempting
    pre := some ⟨forced, inUs s c.desc.gracelim, inUs s c.desc.drainlim, signal, false, partsOf c.desc.pmask⟩ })) (some ctx)

/-- A graceful pre-emption becomes forced: the drain limit starts. -/
def forceStop (s : State) (ctx : Nat) : State :=
  updCtx s ctx (fun c => { c with pre := c.pre.map (fun p => { p with forced := true, drainEnd := inUs s c.desc.drainlim }) })

/-- The pre-emption under way. -/
def Ctx.preempt (c : Ctx) : Option Preempt := if c.st = .preempting then c.pre else none

/-- GRACELIM_EXPIRY (14 R427). -/
def execGracelimExpiry (ctx : Nat) (s : State) : Out :=
  match (ctxOf s ctx).bind Ctx.preempt with
  | some p => .next (if !p.forced ∧ !p.drained ∧ p.deadline ≤ s.ns then forceStop s ctx else s)
  | none => .next s

/-- Every copy of a context has ended. -/
def copiesOver (s : State) (ctx : Nat) : Bool := (allCopies s).all (fun c => c.2.ctx != ctx || c.2.over)

/-- No NMU program of a context is in a place. -/
def nmuClear (s : State) (ctx : Nat) : Bool := s.nmus.all (fun u => u.2.places.all (fun p => p.2.ctx != ctx))

/-- The clusters that a context holds. -/
def heldClusters (s : State) (ctx : Nat) : List Nat := (List.range 192).filter (fun c => holderOf s (partOf c) == some ctx)

/-- Every block of a context is DONE. -/
def blocksDone (s : State) (ctx : Nat) : Bool :=
  s.blocks.all (fun b => b.2.st == .done || (match mget s.launches b.2.launch with | some l => l.ctx != ctx | none => true))

/-- Every pass of a context has ended. -/
def passesOver (s : State) (ctx : Nat) : Bool :=
  (heldClusters s ctx).all (fun c => (clustOf s c).passes.all (fun p => p.2.st == .done || p.2.st == .failed))

/-- Let the partitions of a context be saved. -/
def allowSave (s : State) (ctx : Nat) : State :=
  updCtx s ctx (fun c => { c with pre := c.pre.map (fun p => { p with drained := true }) })

/-- GRACEFUL_SAVE (14 R427). -/
def execGracefulSave (ctx : Nat) (s : State) : Out :=
  match (ctxOf s ctx).bind Ctx.preempt with
  | some p =>
    if !p.forced ∧ !p.drained ∧ blocksDone s ctx ∧ passesOver s ctx ∧ copiesOver s ctx ∧ nmuClear s ctx then .next (allowSave s ctx)
    else .next s
  | none => .next s

/-- Change every copy of a context. -/
def mapCopies (s : State) (ctx : Nat) (f : Copy → Copy) : State :=
  let g := fun (x : Copy) => if x.ctx = ctx then f x else x
  { s with cores := mmap (fun (k : Core) => { k with copies := mmap g k.copies }) s.cores, channels := mmap g s.channels }

/-- DRAINLIM_EXPIRY (09 R312). -/
def execDrainlimExpiry (ctx : Nat) (s : State) : Out :=
  match (ctxOf s ctx).bind Ctx.preempt with
  | some p =>
    if p.forced ∧ !p.drained ∧ p.drainEnd ≤ s.ns then .next (allowSave (mapCopies s ctx Copy.squash) ctx) else .next s
  | none => .next s

/-! ## Images (14 R428, R429) -/

/-- A warp as saved: RESIDENT, out of the active set (05 R172); the time of its waits stands still (08 R269). -/
def Warp.save (w : Warp) (now : Nat) : Warp :=
  { w.stopTime now with st := if w.st = .exiting then .exiting else .resident }

/-- A warp as restored: its waits go on, unless a record still holds it. -/
def Warp.restore (w : Warp) (now : Nat) : Warp :=
  if w.records.isEmpty && w.slices.all (fun x => x.st != .held) then w.goTime now else w

/-- A core as saved. -/
def saveCore (now : Nat) (k : Core) : Core := { k with warps := mmap (fun (w : Warp) => w.save now) k.warps, active := [], issued := none }

/-- A core as restored. -/
def restoreCore (now : Nat) (k : Core) : Core := { k with warps := mmap (fun (w : Warp) => w.restore now) k.warps }

/-- A cluster as saved: ages stand (10 R333). -/
def saveCluster (now : Nat) (c : Cluster) : Cluster := { c with passes := mmap (fun (p : Pass) => { p with age := p.ageAt now }) c.passes }

/-- A cluster as restored: ages count again. -/
def restoreCluster (now : Nat) (c : Cluster) : Cluster := { c with passes := mmap (fun (p : Pass) => { p with since := now }) c.passes }

/-- The lowest partition of a context on its compute die goes to shadow storage (14 R429). -/
def toShadow (pmask p : Nat) : Bool := (List.range 16).all (fun q => !(q / 4 == p / 4 && decide (q < p) && bit pmask q))

/-- The shadow storage of the die of a partition is in use. -/
def shadowUsed (s : State) (p : Nat) : Bool := s.images.any (fun i => i.1 / 4096 / 4 == p / 4 && i.2.loc == .shadow)

/-- Whether a partition of a context can be saved: its copies, passes, NMU programs and operations in flight have come to rest. -/
def partQuiet (s : State) (ctx p : Nat) (pre : Preempt) : Bool :=
  (pre.drained || (pre.forced && copiesOver s ctx)) &&
    (allCopies s).all (fun c => c.2.ctx != ctx || c.2.flight.isEmpty) &&
    (partClusters p).all (fun c => (clustOf s c).passes.all (fun e => e.2.st != .running)) && nmuClear s ctx &&
    s.txs.all (fun t => t.2.ctx != ctx || (match t.2.kind with | .reply _ _ => true | _ => false))

/-- Save a partition: write its caches back, and keep its image. -/
def savePart (s : State) (ctx p : Nat) (loc : ImageAt) : State :=
  let s := flushPart s p
  let i : Image := { ctx := ctx, loc := loc
                     cores := mmap (saveCore s.cycle) (s.cores.filter (fun k => inPart p k.1))
                     clusters := mmap (saveCluster s.cycle) (s.clusters.filter (fun c => partOf c.1 == p)) }
  { zeroPart s p with
    images := mset s.images (imgKey p ctx) i
    blocks := mmap (fun (b : Block) => if b.st = .resident ∧ inPart p b.core then { b with st := .saved } else b) s.blocks }

/-- PARTITION_IMAGE_WRITTEN (14 R428, R429). -/
def execPartitionImageWritten (part : Nat) (s : State) : Out :=
  match holderOf s part with
  | none => .next s
  | some ctx =>
    match ctxOf s ctx with
    | none => .next s
    | some c =>
      match c.preempt with
      | none => .next s
      | some pre =>
        let shadow := toShadow c.desc.pmask part
        if !pre.left.contains part ∨ !partQuiet s ctx part pre ∨ (shadow ∧ shadowUsed s part) then .next s
        else .next (updCtx (savePart s ctx part (if shadow then .shadow else .frames)) ctx (fun c => { c with
          pre := c.pre.map (fun q => { q with left := q.left.filter (fun x => x != part) }) }))

/-- Whether the swap-out of another context waits for the shadow storage of a die. -/
def shadowWanted (s : State) (die owner : Nat) : Bool :=
  s.ctxs.any (fun c => c.1 != owner &&
    (match c.2.preempt with | some p => p.left.any (fun q => q / 4 == die && toShadow c.2.desc.pmask q) | none => false))

/-- IMAGE_MOVE (14 R429): another context's image in shadow storage moves to the image frames of its own partition. -/
def execImageMove (part : Nat) (s : State) : Out :=
  .next { s with images := s.images.map (fun i =>
    if i.1 / 4096 = part ∧ i.2.loc = .shadow ∧ shadowWanted s (part / 4) i.2.ctx then (i.1, { i.2 with loc := .frames }) else i) }

/-! ## Swap (14 R417, R429, R439) -/

/-- Increment the signal word of a swap, at a physical address (08 R281). -/
def swapSignal (s : State) (pa : Option Nat) : State :=
  match pa with
  | some a => if inDevice a ∧ a % 8 = 0 then incrAt s 0 0 a else s
  | none => s

/-- Put the image of a partition back, or zeroed state where there is none. -/
def restorePart (s : State) (ctx p : Nat) : State :=
  let s : State := { zeroPart (flushPart s p) p with holder := mset s.holder p ctx }
  match mget s.images (imgKey p ctx) with
  | none => s
  | some i =>
    { s with
      images := mdel s.images (imgKey p ctx)
      cores := i.cores.foldl (fun m k => mset m k.1 (restoreCore s.cycle k.2)) s.cores
      clusters := i.clusters.foldl (fun m c => mset m c.1 (restoreCluster s.cycle c.2)) s.clusters
      blocks := mmap (fun (b : Block) => if b.st = .saved ∧ inPart p b.core then { b with st := .resident } else b) s.blocks }

/-- Test the waits of a restored warp again (08 R269). -/
def retestWarp (s : State) (q : Nat × Nat × Warp) : State :=
  let s := if q.2.2.aliveMask = 0 then exitSlices s q.1 q.2.1 0 else s
  let s := waitcTest s q.2.2.uid
  let s := (barsOf s q.2.2).foldl barTest s
  q.2.2.gangs.foldl (fun s g => answerSlice s q.1 q.2.1 (q.2.2.lowSlice g.mask) false) s

/-- Test the waits on the buckles of a context again. -/
def retestBuckles (s : State) (ctx : Nat) : State :=
  match ctxOf s ctx with
  | some c => c.buckles.foldl (fun s n => testCopies (testBkws s n) n) s
  | none => s

/-- Restore a context into every partition it is bound to (14 R417, 09 R313). -/
def restoreCtx (s : State) (ctx : Nat) (c : Ctx) (signal : Option Nat) : State :=
  let s := (partsOf c.desc.pmask).foldl (fun s p => restorePart s ctx p) s
  let s := mapCopies s ctx Copy.replay
  let s := updCtx s ctx (fun c => { c with st := .resident, restoring := none })
  let s := if hasWork s ctx then ctxRun s ctx else s
  let s := ((allWarps s).filter (fun q => q.2.2.ctx == ctx && !q.2.2.firmware)).foldl retestWarp s
  swapSignal (retestBuckles s ctx) signal

/-- No other context holds a partition that a context is bound to. -/
def partsFree (s : State) (c : Ctx) : Bool := (partsOf c.desc.pmask).all (fun p => (holderOf s p).isNone)

/-- SWAP_COMPLETE (14 R429, Table context-2): the last image of a swap is in place. -/
def execSwapComplete (ctx : Nat) (s : State) : Out :=
  match ctxOf s ctx with
  | none => .next s
  | some c =>
    match c.preempt with
    | some p =>
      if p.left.isEmpty then
        let s : State := { s with holder := s.holder.filter (fun h => h.2 != ctx) }
        .next (swapSignal (updCtx s ctx (fun c => { c with st := .swapped, pre := none, outSince := s.ns })) p.signal)
      else .next s
    | none =>
      match c.restoring with
      | some r => .next (if c.st = .swapped ∧ partsFree s c then restoreCtx s ctx c r.2 else s)
      | none => .next s

/-! ## Residency (14 R430) -/

/-- The priority of a context: the highest of its queues with packets or with launches running or saved. -/
def ctxPrio (s : State) (ctx : Nat) : Option Nat :=
  let qs := s.queues.filter (fun q => q.2.desc.context == ctx &&
    (q.2.st == .active || q.2.st == .budgetHeld || decide (0 < queueRunning s q.1)))
  if qs.isEmpty then none else some (maxList (qs.map (fun q => q.2.desc.prio)))

/-- A context that presses: not resident, with a priority, and not on its way back. -/
def presses (s : State) (id : Nat) (c : Ctx) : Bool :=
  (c.st == .created || c.st == .swapped) && c.restoring.isNone && (ctxPrio s id).isSome

/-- Whether presser a is considered before presser b: the higher priority, then the longer out, then the lower number. -/
def pressBefore (s : State) (a b : Nat × Ctx) : Bool :=
  let p := (ctxPrio s a.1).getD 0
  let q := (ctxPrio s b.1).getD 0
  decide (q < p) || (q == p && (decide (a.2.outSince < b.2.outSince) || (a.2.outSince == b.2.outSince && decide (a.1 ≤ b.1))))

/-- The pressing contexts in the order in which they are considered. -/
def pressers (s : State) : List (Nat × Ctx) :=
  (s.ctxs.filter (fun c => presses s c.1 c.2)).foldl (fun l c =>
    l.takeWhile (fun d => pressBefore s d c) ++ c :: l.dropWhile (fun d => pressBefore s d c)) []

/-- The contexts that hold a partition of a mask. -/
def holdersOf (s : State) (pmask : Nat) : List Nat := ((partsOf pmask).filterMap (holderOf s)).eraseDups

/-- Whether a holder yields to a priority: it can be pre-empted, or already is. -/
def yieldsTo (s : State) (prio h : Nat) : Bool :=
  (match ctxOf s h with
    | some c => c.st == .resident || c.st == .running || c.st == .preempting
    | none => false) &&
  (match ctxPrio s h with | some q => decide (q < prio) | none => true)

/-- Start a graceful pre-emption of a context that is not being pre-empted. -/
def preemptOnce (s : State) (h : Nat) : State :=
  match ctxOf s h with
  | some c => if c.st = .resident ∨ c.st = .running then preemptStart s h false none else s
  | none => s

/-- The first residency of a context: it holds its partitions with zeroed state. -/
def firstResidency (s : State) (ctx : Nat) (c : Ctx) : State :=
  let s := (partsOf c.desc.pmask).foldl (fun s p => restorePart s ctx p) s
  updCtx s ctx (fun c => { c with st := .resident })

/-- Serve one presser, behind those that wait for some partitions: what it waits for, and the state. -/
def servePresser (a : Nat × State) (x : Nat × Ctx) : Nat × State :=
  let m := x.2.desc.pmask
  if a.1 &&& m ≠ 0 then (a.1 ||| m, a.2)
  else
    let hs := holdersOf a.2 m
    if hs.isEmpty then
      (a.1, if x.2.st = .created then firstResidency a.2 x.1 x.2
        else updCtx a.2 x.1 (fun c => { c with restoring := some (partsOf m, none) }))
    else if hs.all (yieldsTo a.2 ((ctxPrio a.2 x.1).getD 0)) then (a.1 ||| m, hs.foldl preemptOnce a.2)
    else (a.1 ||| m, a.2)

/-- The partitions that restores under way are about to take. -/
def restoringMask (s : State) : Nat := s.ctxs.foldl (fun m c => if c.2.restoring.isSome then m ||| c.2.desc.pmask else m) 0

/-- A CREATED context without a priority becomes resident where every bound partition is free and no presser waits for one
(14 Table context-2). -/
def settleCreated (a : Nat × State) (x : Nat × Ctx) : Nat × State :=
  let m := x.2.desc.pmask
  if x.2.st = .created ∧ ctxPrio a.2 x.1 = none ∧ m ≠ 0 ∧ a.1 &&& m = 0 ∧ (holdersOf a.2 m).isEmpty then
    (a.1, firstResidency a.2 x.1 x.2)
  else a

/-- RESIDENCY_DECISION (14 R430, Table context-2). -/
def execResidencyDecision (s : State) : Out := .next (s.ctxs.foldl settleCreated ((pressers s).foldl servePresser (restoringMask s, s))).2

/-- UNCORRECTABLE_MEMORY_ERROR (14 R432): the owner of the frame escalates. -/
def execUncorrectableMemoryError (pa : Nat) (s : State) : Out :=
  .next (if inDevice pa then escalate s (mgetD s.frameOwner (pa / 2 ^ 21) 0) 3 pa else s)

/-- CTX_RESUME's effect (14 R432): the state before escalation, and every warp without an open record resumes. -/
def resumeCtx (s : State) (ctx : Nat) : State :=
  let s := updCtx s ctx (fun c => { c with st := c.prev })
  (allWarps s).foldl (fun s q => if q.2.2.ctx = ctx ∧ q.2.2.firmware = false then resumeWarp s q.1 q.2.1 else s) s

/-! ## Destroying (14 R434, R419) -/

/-- Each unit of chunk q, in flight, is performed or never written (14 R434). -/
def abandonChunk (s : State) (x : Copy) (q : Nat) (k : Chunk) : State :=
  (byUnit (x.stores (x.chunkOff q) (resolve s x.ctx k.x x.sh) k.bytes)).foldl (fun s u =>
    let c := choose s 2
    if c.1 = 1 then writeEvent c.2 x.tag k.x.key u else c.2) s

/-- The copies of a context end; those that write memory leave chunks half done. -/
def abandonCopies (s : State) (ctx : Nat) : State :=
  let s := (allCopies s).foldl (fun s c =>
    if c.2.ctx = ctx ∧ (c.2.op = .copy ∨ c.2.op = .copy2) then c.2.flight.foldl (fun s k => abandonChunk s c.2 k.1 k.2) s else s) s
  { s with channels := s.channels.filter (fun c => c.2.ctx != ctx) }

/-- The requests of a context's words, copies and scripts belong to nobody: those sent stay until they are answered or time out (15 R447,
R451), those that wait are not sent. -/
def dropReqs (s : State) (ctx : Nat) : State :=
  let mine := fun (r : Req) => match r.owner with
    | .word tx _ => (match mget s.txs tx with | some t => t.ctx == ctx | none => false)
    | .chunk c _ | .signal c => (match copyOf s c with | some x => x.ctx == ctx | none => false)
    | .script p => (match mget s.scripts p with | some x => x.ctx == ctx | none => false)
    | .gone => false
  { s with
    reqQueue := s.reqQueue.filter (fun r => !mine r)
    reqs := s.reqs.map (fun r => if mine r then { r with owner := .gone } else r) }

/-- The launches, blocks, graphs and nodes of a context are gone, wherever they stand. -/
def dropLaunches (s : State) (ctx : Nat) : State :=
  let mine := fun (l : Nat) => match mget s.launches l with | some x => x.ctx == ctx | none => false
  { s with
    blocks := s.blocks.filter (fun b => !mine b.2.launch)
    cbs := s.cbs.filter (fun c => !mine c.2.launch)
    launches := s.launches.filter (fun l => l.2.ctx != ctx)
    graphs := s.graphs.filter (fun g => g.2.ctx != ctx)
    decrs := s.decrs.filter (fun d => d.ctx != ctx)
    nmus := mmap (fun (u : Nmu) => { u with places := u.places.filter (fun p => p.2.ctx != ctx), queue := u.queue.filter (fun q => q.ctx != ctx) }) s.nmus
    colls := s.colls.filter (fun c => c.2.ctx != ctx)
    scripts := s.scripts.filter (fun x => x.2.ctx != ctx)
    scriptQueue := s.scriptQueue.filter (fun x => x.ctx != ctx)
    buckets := s.buckets.filter (fun b => b.2.ctx != ctx)
    handles := s.handles.filter (fun h => h.2.ctx != ctx)
    queues := mmap (fun (q : Queue) => if q.desc.context = ctx then { q with st := .destroyed } else q) s.queues }

/-- The circuits that a context holds are released. -/
def dropCircuits (s : State) (ctx : Nat) : State :=
  (s.circuits.filter (fun c => c.2.ctx == ctx)).foldl (fun s c =>
    match mget s.circuits c.1 with | some x => releaseCircuit s c.1 x | none => s) s

/-- Overwrite frames with zeros: the bytes, and the hallmarks of their tiles, which every write stamps (06 R219). -/
def zeroFrames (s : State) (frames : List Nat) : State :=
  { s with
    mem := s.mem.filter (fun c => !frames.contains (c.1 / 2 ^ 21))
    keyTag := s.keyTag.filter (fun c => !frames.contains (c.1 / 2 ^ 21))
    hallmarks := (frames.flatMap (fun f => (List.range 32).map (32 * f + ·))).foldl (fun m t =>
      mput (0, 0) m t (0, BitVec.ofNat 32 s.gen.toNat)) s.hallmarks }

/-- Overwrite with zeros the frames of a context that hold data under the keys it loses, and give the frames back to firmware (14 R419). -/
def dropFrames (s : State) (ctx : Nat) (keys : W64) : State :=
  let lost := (((s.keyTag.filter (fun c => c.2 != 0 && keys.getLsbD (c.2 % 64))).map (fun c => c.1 / 2 ^ 21)).eraseDups).filter (fun f =>
    mgetD s.frameOwner f 0 == ctx)
  let s := zeroFrames s lost
  { s with frameOwner := s.frameOwner.filter (fun f => f.2 != ctx) }

/-- The partitions of a context are unbound, with everything in them zeroed. -/
def dropParts (s : State) (ctx : Nat) : State :=
  let held := (List.range 16).filter (fun p => holderOf s p == some ctx)
  let s := held.foldl zeroPart s
  { s with holder := s.holder.filter (fun h => h.2 != ctx), images := s.images.filter (fun i => i.2.ctx != ctx) }

/-- Write back and drop every cached line of a context. -/
def flushCtx (s : State) (ctx : Nat) : State :=
  (s.ccache.filter (fun x => x.2.ctx == ctx)).foldl (fun s x => lineEvict s (x.1 / 2 ^ 44) (x.1 % 2 ^ 44)) s

/-- Destroy a context (14 R434). Accesses already performed stand. -/
def destroyCtx (s : State) (ctx : Nat) (c : Ctx) : State :=
  let s := abandonCopies (dropReqs s ctx) ctx
  let s := flushCtx s ctx
  let s := dropCircuits s ctx
  let s := c.buckles.foldl untie s
  let gone := (s.txs.filter (fun t => t.2.ctx == ctx)).map (·.1)
  let s : State := { s with
    txs := s.txs.filter (fun t => t.2.ctx != ctx)
    flagWaits := s.flagWaits.filter (fun f => !gone.contains f.tx)
    heldRecords := s.heldRecords.filter (fun p => p.1 != ctx) }
  let s := dropTlb s (fun e => e.ctx == ctx)
  let s := dropFrames (dropParts (dropLaunches s ctx) ctx) ctx c.desc.keys
  updCtx s ctx (fun c => { c with
    desc := { c.desc with pmask := 0, keys := 1 }, st := .destroyed, sel := [], stamps := [], records := [], buckets := [], buckles := []
    slots := [], mailboxes := [], pre := none, restoring := none })

end Sys2Proof.Machine
end

