-- ==== Sys2Proof/Machine/Firmware.lean ====
section
/-! DEFINITION. Firmware: the words FCTX and FSWP, the host mailbox, boot, restart, full service, host writes of BAR registers
(14 R418-R420, R439-R442). -/

namespace Sys2Proof.Machine

/-! ## Context descriptors (14 Table context-1) -/

/-- The code of a context's state. -/
def CtxSt.code : CtxSt → Nat
  | .created => 0 | .resident => 1 | .running => 2 | .preempting => 3 | .swapped => 4 | .faulted => 5 | .destroyed => 6

/-- Whether the fields of a descriptor keep to 14 Table context-1. -/
def descOk (d : CtxDesc) : Bool :=
  decide (1 ≤ d.id) && decide (d.id < 4096) && decide (d.pmask < 65536) && decide (d.drainlim ≤ 1000) && d.root % 4096 == 0 &&
    inDevice d.root && d.keys.getLsbD 0 && decide (d.gracelim ≤ 10000) && decide (d.vector < 65536) && decide (64 ≤ d.event) &&
    decide (d.event ≤ 65536) && 2 ^ Nat.log2 d.event == d.event && d.evring % 256 == 0 && decide (d.evring < 2 ^ 64) &&
    decide (d.evtail < 2 ^ 64) && decide (d.evhead < 2 ^ 64)

/-- The fields of the 128 bytes of a descriptor: `none` where they break the table. -/
def descOf (bs : List Byte) : Option CtxDesc :=
  let d : CtxDesc :=
    { id := fld bs 0 2, pmask := fld bs 4 2, drainlim := fld bs 6 2, root := fld bs 8 8, keys := BitVec.ofNat 64 (fld bs 16 8)
      gracelim := fld bs 24 2, vector := fld bs 26 2, event := fld bs 28 4, evring := fld bs 32 8, evtail := fld bs 40 8
      evhead := fld bs 48 8 }
  if descOk d ∧ fld bs 2 1 ≤ 6 ∧ fld bs 3 1 = 0 ∧ allZero ((bs.drop 56).take 72) then some d else none

/-- Bytes 0 to 31 of a context's descriptor. -/
def Ctx.descBytes (c : Ctx) : List Byte :=
  toBytes 2 c.desc.id ++ toBytes 1 c.st.code ++ [0] ++ toBytes 2 c.desc.pmask ++ toBytes 2 c.desc.drainlim ++ toBytes 8 c.desc.root ++
    toBytes 8 c.desc.keys.toNat ++ toBytes 2 c.desc.gracelim ++ toBytes 2 c.desc.vector ++ toBytes 4 c.desc.event

/-- A context as created: no grants, no records, every selector 0. -/
def newCtx (s : State) (d : CtxDesc) : Ctx :=
  { desc := d, st := .created, prev := .created, sel := [], stamps := [], records := [], nextRec := 0, posted := 0, dropped := 0
    buckets := [], buckles := [], slots := [], mailboxes := [], pre := none, restoring := none, outSince := s.ns }

/-- Whether a context number is free: never created, or destroyed. -/
def idFree (s : State) (id : Nat) : Bool := match ctxOf s id with | some c => c.st == .destroyed | none => true

/-- A context that is not destroyed. -/
def liveCtx (s : State) (id : Nat) : Option Ctx :=
  match ctxOf s id with
  | some c => if c.st = .destroyed then none else some c
  | none => none

/-- Put a context of a descriptor in CREATED. -/
def createCtx (s : State) (d : CtxDesc) : State := { s with ctxs := mset s.ctxs d.id (newCtx s d) }

/-! ## FCTX and FSWP (14 R439) -/

/-- Whether a descriptor lies in memory, the hallmark window included (06 Table page-1). -/
def physOk (pa n : Nat) : Bool := inRegion pa n

/-- Keys of a mask that another context holds. -/
def keysTaken (s : State) (ctx : Nat) (mask : W64) : Bool :=
  s.ctxs.any (fun c => c.1 != ctx && c.2.st != .destroyed && decide (c.2.desc.keys &&& mask &&& ~~~1 ≠ 0))

/-- FCTX on a partition word and the bytes of a descriptor: status and state. The new pmask is written to the descriptor. A descriptor of
an unknown context that grants a key of another context is refused like one that breaks the table (R419: one context a key; the status is
the model's, notes/assumptions/61). -/
def fctx (s : State) (a pa : Nat) : Nat × State :=
  let h := homeRead s 0 pa 128
  match descOf h.1 with
  | none => (2, h.2)
  | some d =>
    if idFree s d.id ∧ keysTaken s d.id d.keys then (2, h.2)
    else
    let s := if idFree h.2 d.id then createCtx h.2 d else h.2
    let r := if bit a 4 then unbindPart s d.id (a % 16) else bindPart s d.id (a % 16)
    if r.1 = 0 ∧ !inHallmark pa then (0, writePa r.2 0 0 (pa + 4) (toBytes 2 (pmaskOf r.2 d.id))) else r

/-- The uses of a firmware word. -/
def fwUse (d : Dst) (a b : Opnd) : Use := { ops := [(a, false), (b, true)], dst := some (d, 1), fw := true }

/-- FCTX: an address outside memory is no address of a descriptor, and the machine stops. -/
def fctxWord (d : Dst) (a b : Opnd) (s : State) : Out :=
  if (preFault (fwUse d a b) s).isNone && ready (fwUse d a b) s && !physOk (lowOp s true b) 128 then
    .fault (.noSuchAddress (lowOp s true b))
  else
    issueWord (fwUse d a b) (fun s =>
      let r := fctx s (lowOp s false a) (lowOp s true b)
      .done (wbLanes r.2 d false false 2 (fun _ => r.1))) s

/-- FCTX, named by the row that binds; bit 4 of operand a says which it is (14 Table context-8). -/
def execFctxBind (d : Dst) (a b : Opnd) (s : State) : Out := fctxWord d a b s
/-- FCTX, named by the row that unbinds. -/
def execFctxUnbind (d : Dst) (a b : Opnd) (s : State) : Out := fctxWord d a b s

/-- The SWAPPED contexts with an image of a partition. -/
def imagesAt (s : State) (p : Nat) : List (Nat × Ctx) :=
  s.ctxs.filter (fun c => c.2.st == .swapped && (mget s.images (imgKey p c.1)).isSome)

/-- Whether a swap of a partition is in progress: out of the context that holds it, or back into one bound to it. -/
def swapOn (s : State) (p : Nat) : Bool :=
  (match (holderOf s p).bind (ctxOf s) with | some c => c.preempt.isSome | none => false) ||
    s.ctxs.any (fun c => c.2.restoring.isSome && bit c.2.desc.pmask p)

/-- FSWP in: the image restored, when there are several, is unspecified. -/
def fswpInto (s : State) (p : Nat) (signal : Nat) : Nat × State :=
  if !s.images.any (fun i => i.1 / 4096 == p) then (2, s)
  else if swapOn s p then (1, s)
  else
    let l := imagesAt s p
    let c := choose s l.length
    match l[c.1]? with
    | some x => (0, updCtx c.2 x.1 (fun c => { c with restoring := some (partsOf c.desc.pmask, some signal) }))
    | none => (2, s)

/-- FSWP out of the context that holds a partition. -/
def fswpFrom (s : State) (p : Nat) (forced : Bool) (signal : Nat) : Nat × State :=
  match (holderOf s p).bind (fun h => (ctxOf s h).map (fun c => (h, c))) with
  | some (h, c) =>
    if c.st = .preempting then (1, s)
    else if c.st = .resident ∨ c.st = .running then (0, preemptStart s h forced (some signal))
    else (2, s)
  | none => (2, s)

/-- FSWP (14 R439). -/
def fswp (s : State) (a pa : Nat) : Nat × State :=
  if bit a 4 then fswpInto s (a % 16) pa else fswpFrom s (a % 16) (bit a 5) pa

/-- FSWP as a word. -/
def fswpWord (d : Dst) (a b : Opnd) (s : State) : Out :=
  issueWord (fwUse d a b) (fun s =>
    let r := fswp s (lowOp s false a) (lowOp s true b)
    .done (wbLanes r.2 d false false 2 (fun _ => r.1))) s

/-- FSWP, named by the row that swaps out; bit 4 of operand a says which it is. -/
def execFswpOut (d : Dst) (a b : Opnd) (s : State) : Out := fswpWord d a b s
/-- FSWP, named by the row that swaps in. -/
def execFswpIn (d : Dst) (a b : Opnd) (s : State) : Out := fswpWord d a b s

/-! ## The host mailbox (14 R442) -/

/-- Firmware answers a request: 0 done, 1 refused, with the next sequence number. -/
def reply (s : State) (status : Nat) (bytes : List Byte) : State :=
  emit { s with mailboxSeq := s.mailboxSeq + 1, mailboxStatus := status } (.mailbox (s.mailboxSeq + 1) status bytes)

/-- A mailbox request with its status; nothing answers while firmware does not run. -/
def mailboxStat (f : State → Nat × State) (s : State) : Out :=
  if !s.status.firmware then .next s else .next (reply (f s).2 (f s).1 [])

/-- A mailbox request that is done, with what it answers, or refused. -/
def mailbox (f : State → Option (State × List Byte)) (s : State) : Out :=
  if !s.status.firmware then .next s
  else
    match f s with
    | some r => .next (reply r.1 0 r.2)
    | none => .next (reply s 1 [])

/-- A request without data in its answer. -/
def request (f : State → Option State) (s : State) : Out := mailbox (fun s => (f s).map (fun t => (t, []))) s

/-- CTX_CREATE (14 R418). -/
def execCtxCreate (desc : CtxDesc) (s : State) : Out :=
  request (fun s => if descOk desc ∧ idFree s desc.id ∧ !keysTaken s desc.id desc.keys then some (createCtx s desc) else none) s

/-- FCTX of the partitions of a mask, in rising order: the greatest of its statuses (DESIGN CHOICE, notes/assumptions/61). -/
def bindMask (s : State) (ctx pmask : Nat) (unbind : Bool) : Nat × State :=
  (partsOf pmask).foldl (fun a p =>
    let r := if unbind then unbindPart a.2 ctx p else bindPart a.2 ctx p
    (Nat.max a.1 r.1, r.2)) (0, s)

/-- CTX_BIND (14 R439). -/
def execCtxBind (ctx pmask : Nat) (unbind : Bool) (s : State) : Out :=
  mailboxStat (fun s => if (liveCtx s ctx).isSome then bindMask s ctx pmask unbind else (1, s)) s

/-- CTX_DESTROY (14 R434). -/
def execCtxDestroy (ctx : Nat) (s : State) : Out := request (fun s => (liveCtx s ctx).map (destroyCtx s ctx)) s

/-- CTX_PREEMPT (14 R427): also a graceful pre-emption made forced. -/
def execCtxPreempt (ctx : Nat) (forced : Bool) (s : State) : Out :=
  request (fun s => (liveCtx s ctx).bind (fun c =>
    if c.st = .resident ∨ c.st = .running then some (preemptStart s ctx forced none)
    else if c.st = .preempting ∧ forced then
      some (if (match c.pre with | some p => p.forced || p.drained | none => true) then s else forceStop s ctx)
    else none)) s

/-- CTX_RESTORE (14 R439). -/
def execCtxRestore (ctx : Nat) (s : State) : Out :=
  mailboxStat (fun s =>
    match liveCtx s ctx with
    | none => (1, s)
    | some c =>
      if c.st ≠ .swapped then (2, s)
      else if c.restoring.isSome then (1, s)
      else (0, updCtx s ctx (fun c => { c with restoring := some (partsOf c.desc.pmask, none) }))) s

/-- Grants of numbered things that no other context holds. -/
def grantNums (s : State) (ctx bound : Nat) (ns : List Nat) (held : Ctx → List Nat) (put : Ctx → List Nat → Ctx) : Option State :=
  if ns.all (fun n => decide (n < bound) && s.ctxs.all (fun c => c.1 == ctx || !(held c.2).contains n)) then
    some (updCtx s ctx (fun c => put c ((held c ++ ns).eraseDups)))
  else none

/-- The image frames of a stack, which firmware keeps: 144 MiB (14 R429). -/
def imageFrame (n : Nat) : Bool :=
  let b := Config.imageFrame (n / 65536) % 65465
  decide (b ≤ n % 65536) && decide (n % 65536 < b + 72)

/-- Frames given to an owner: those that firmware owns and does not keep for images, or that are so owned already. -/
def grantFrames (s : State) (owner : Nat) (ns : List Nat) : Option State :=
  if ns.all (fun n => decide (n < 2 ^ 19) && !imageFrame n && (let o := mgetD s.frameOwner n 0; o == 0 || o == owner)) then
    some { s with frameOwner := ns.foldl (fun m n => mset m n owner) s.frameOwner }
  else none

/-- GRANT (14 R420, Table context-11). -/
def execGrant (ctx : Nat) (what : GrantWhat) (s : State) : Out :=
  request (fun s => (liveCtx s ctx).bind (fun _ =>
    match what with
    | .keys m =>
      if keysTaken s ctx m then none
      else some (updCtx s ctx (fun c => { c with desc := { c.desc with keys := c.desc.keys ||| m } }))
    | .buckets ns => grantNums s ctx 256 ns Ctx.buckets (fun c l => { c with buckets := l })
    | .buckles ns => grantNums s ctx 64 ns Ctx.buckles (fun c l => { c with buckles := l })
    | .slots ns => grantNums s ctx 4096 ns Ctx.slots (fun c l => { c with slots := l })
    | .frames ns => grantFrames s ctx ns
    | .sharedFrames ns => grantFrames s 0xFFFF ns)) s

/-- KEY_LOAD (14 R419): data under the former key of the identifier no longer decrypts. -/
def execKeyLoad (id : Nat) (key : BitVec 512) (s : State) : Out :=
  request (fun s =>
    if 1 ≤ id ∧ id < 64 then
      some { s with keys := mset s.keys id key
                    epochs := if mget s.keys id = some key then s.epochs else mset s.epochs id (mgetD s.epochs id 0 + 1) }
    else none) s

/-- The values of a queue descriptor lie in 13 Table queue-1. -/
def queueDescOk (d : QueueDesc) : Bool :=
  decide (d.prio < 8) && decide (1 ≤ d.quantum) && decide (d.quantum < 256) && decide (4 ≤ d.order) && decide (d.order ≤ 16) &&
    decide (d.vector < 65536) && d.ring % 64 == 0 && decide (d.ring < 2 ^ 64) && d.cpl % 16 == 0 && decide (d.cpl < 2 ^ 64) &&
    decide (16 ≤ d.cplent) && decide (d.cplent ≤ 65536) && 2 ^ Nat.log2 d.cplent == d.cplent && decide (d.budget < 2 ^ 32) &&
    decide (100 ≤ d.period) && decide (d.period ≤ 100000) && d.reserved == 0

/-- A queue as bound (13 R401, R410). -/
def newQueue (s : State) (d : QueueDesc) : Queue :=
  { desc := d, st := .idle, head := 0, tail := 0, inl := [], deficit := 0, balance := uJ d.budget, overflow := false, dropped := 0
    periodStart := s.ns }

/-- QUEUE_BIND (13 R400). -/
def execQueueBind (q : Nat) (desc : QueueDesc) (s : State) : Out :=
  request (fun s =>
    if q < 4096 ∧ (mget s.queues q).isNone ∧ queueDescOk desc ∧ (liveCtx s desc.context).isSome then
      some { s with queues := mset s.queues q (newQueue s desc) }
    else none) s

/-- QUEUE_DESTROY (13 R412, R413). -/
def execQueueDestroy (q : Nat) (s : State) : Out :=
  request (fun s => (mget s.queues q).bind (fun x =>
    if x.st = .draining ∨ x.st = .destroyed then none
    else some (queueDrain (updQueue s q (fun x => { x with st := .draining })) (some q)))) s

/-- QUEUE_RESUME (13 R412, R414, Table queue-4). -/
def execQueueResume (q : Nat) (s : State) : Out :=
  request (fun s => (mget s.queues q).bind (fun x =>
    if x.st = .error then some (updQueue s q (fun x => { x with
      st := if x.head < x.tail then .active else .idle, overflow := false, deficit := 0 })) else none)) s

/-- QUEUE_RELEASE (13 R412): DESTROYED to UNBOUND, by firmware. -/
def execQueueRelease (q : Nat) (s : State) : Out :=
  match mget s.queues q with
  | some x => .next (if x.st = .destroyed ∧ s.status.firmware then { s with queues := mdel s.queues q } else s)
  | none => .next s

/-- RECORD_CLOSE: as FRET (14 R426). -/
def execRecordClose (ctx record action : Nat) (s : State) : Out := request (fun s => closeRecord s ctx record action) s

/-- The attestation report of a context, unsigned (14 R440). -/
def report (c : Ctx) (nonce : BitVec 384) : List Byte :=
  toBytes 48 nonce.toNat ++ toBytes 48 Config.firmwareMeasurement.toNat ++ toBytes 8 Config.rollbackCount.toNat ++
    toBytes 96 Config.identityKey.toNat ++ c.descBytes

/-- ATTEST (14 R440). -/
def execAttest (ctx : Nat) (nonce : BitVec 384) (s : State) : Out :=
  mailbox (fun s => (liveCtx s ctx).map (fun c => (s, report c nonce ++ toBytes 96 (Config.sign (report c nonce)).toNat))) s

/-- CTX_RESUME (14 R432, Table context-2). -/
def execCtxResume (ctx : Nat) (s : State) : Out :=
  request (fun s => (liveCtx s ctx).bind (fun c => if c.st = .faulted then some (resumeCtx s ctx) else none)) s

/-- The 128 bytes at a host address as a map of devices, bit e for device e (14 Table context-11); none where the host has no such memory. -/
def hostMap (s : State) (a : Nat) : Option (BitVec 1024) :=
  let pa := 0x8000000000000 + a
  if inHost pa && inHost (pa + 127) && (List.range 128).all (fun i => !hostHole s (pa + i)) then
    some (BitVec.ofNat 1024 (ofBytes (readPa s 0 pa 128)))
  else none

/-- HANDLE_BIND (15 R448): the map is read when a handle is bound. -/
def execHandleBind (ctx handle : Nat) (unbind : Bool) (map : Nat) (s : State) : Out :=
  request (fun s =>
    if handle = 0 ∨ 65536 ≤ handle then none
    else if unbind then
      (mget s.handles handle).bind (fun h => if h.ctx = ctx then some { s with handles := mdel s.handles handle } else none)
    else (liveCtx s ctx).bind (fun _ => (hostMap s map).bind (fun sources =>
      match mget s.handles handle with
      | some h => if h.ctx = ctx then some { s with handles := mset s.handles handle ⟨ctx, sources⟩ } else none
      | none => some { s with handles := mset s.handles handle ⟨ctx, sources⟩ }))) s

/-- FM_SOURCES (15 R468). -/
def execFmSources (map : Nat) (s : State) : Out :=
  request (fun s => (hostMap s map).map (fun sources => { s with fmSources := sources })) s

/-- ENERGY_COEF (13 R410): the nine coefficients. -/
def execEnergyCoef (coefs : List W32) (s : State) : Out :=
  request (fun s =>
    let m := (List.range 9).foldl (fun m i => mput 0 m i ((coefs[i]?).getD (mgetD m i 0))) s.ecoef
    some { s with ecoef := m }) s

/-! ## Boot and service (14 R440, R441) -/

/-- The firmware warp of a core: it starts at the image's entry (DESIGN CHOICE, notes/assumptions/69). -/
def fwWarp (uid cycle : Nat) : Warp :=
  { Warp.empty with
    uid := uid, width := 8, nlane := 8, firmware := true, age := cycle
    slices := List.replicate 2 (Slice.start 0), gangs := [⟨3, 0, 0⟩], extmax := 4 }

/-- Start firmware on the four firmware cores. -/
def startFirmware (s : State) : State :=
  (List.range 4).foldl (fun s i =>
    let f := fresh s
    setCore f.2 (192 * i + 191) { Core.zero with warps := [(0, fwWarp f.1 s.cycle)] }) s

/-- DEVICE_RESET (14 R440, R441): the device in bring-up, and firmware where the image was accepted. -/
def execDeviceReset (accepted : Bool) (s : State) : Out :=
  let t : State := { State.reset with
    agenda := s.agenda, outbox := s.outbox, freeCtr := s.freeCtr
    status := { Status.reset with stackMask := 1, queues := true, firmware := accepted, fwcores := if accepted then 0xF else 0 } }
  .next (if accepted then startFirmware t else t)

/-- FIRMWARE_FAULT_RESTART (14 R440): a HELD firmware warp restarts firmware, and every context is told. -/
def execFirmwareFaultRestart (core slot : Nat) (s : State) : Out :=
  let w := warpOf s core slot
  if !w.firmware ∨ w.st ≠ .held then .next s
  else
    let uids := ((allWarps s).filter (fun q => q.2.2.firmware)).map (fun q => q.2.2.uid)
    let s : State := { s with txs := s.txs.filter (fun t => !uids.contains t.2.uid) }
    let s := startFirmware s
    .next (s.ctxs.foldl (fun s c => if c.2.st = .destroyed then s else postEvent s c.1 (mkRec [(0, 0x16), (1, 2)])) s)

/-- FULL_SERVICE (14 R441): firmware brings every service up. -/
def execFullService (s : State) : Out :=
  if !s.status.firmware then .next s
  else .next { s with status := { s.status with
    stackMask := 0xFF, elec := if s.dev.isSome then 2 else s.status.elec, optics := true, matrix := true, fullclk := true } }

/-! ## The host's registers (13 R402, R415, 14 R441, R442, 15 R467, R468) -/

/-- The device status word (14 Table context-10). -/
def Status.word (x : Status) : Nat :=
  x.stackMask * 2 ^ 16 + x.fwcores * 2 ^ 12 + x.elec * 2 ^ 10 + b2n x.optics * 2 ^ 9 + b2n x.matrix * 2 ^ 8 + b2n x.fullclk * 2 ^ 7 +
    b2n x.firmware * 2 ^ 6 + b2n x.queues

/-- The 8 bytes at an offset of a queue's status block; a queue not bound reads as zero (13 R415). -/
def queueBlock (s : State) (q off : Nat) : Nat :=
  match mget s.queues q with
  | none => 0
  | some x =>
    if off = 0 then queueStatus s q
    else if off = 8 then x.head
    else if off = 16 then x.tail
    else if off = 24 then ofInt 64 (x.balance / 1000000)
    else 0

/-- The 8 bytes at an aligned offset of the mailbox: the request at 0, the doorbell at 0x40, the status and the sequence number of the
last reply at 0x80 and 0x88. The spec places the mailbox and not its parts (DESIGN CHOICE, notes/assumptions/100). -/
def mailboxReg (s : State) (off : Nat) : Nat :=
  if off < 0x40 then fld s.mailboxReq off 8
  else if off = 0x80 then s.mailboxStatus
  else if off = 0x88 then s.mailboxSeq
  else 0

/-- The 8 bytes at an aligned offset of BAR 2; none where no register that can be read lies there. -/
def barReg (s : State) (off : Nat) : Option Nat :=
  if off < 0x40000 then none
  else if off < 0x80000 then some (queueBlock s ((off - 0x40000) / 64) (off % 64))
  else if off = 0x80000 then some s.status.word
  else if 0xC0000 ≤ off ∧ off < 0xC1000 then some (mailboxReg s (off - 0xC0000))
  else if (0x100000 ≤ off ∧ off < 0x102000) ∨ (0x120000 ≤ off ∧ off < 0x122018) then some (linkReg s off)
  else none

/-- The bytes of a range of BAR 2, each aligned 8 of them read as one event. -/
def barBytes (s : State) (off : Nat) : Nat → Option (List Byte)
  | 0 => some []
  | n + 1 => (barBytes s off n).bind (fun bs => (barReg s ((off + n) / 8 * 8)).map (fun v =>
      bs ++ [BitVec.ofNat 8 (v / 256 ^ ((off + n) % 8))]))

/-- The request whose 64 bytes stand in the mailbox, where the spec gives their layout (14 Table context-11): HANDLE_BIND, FM_SOURCES and
ENERGY_COEF. The other requests reach firmware as the moves that carry their fields (notes/assumptions/100). -/
def doorbell (s : State) : Out :=
  let b := s.mailboxReq
  match fld b 0 1 with
  | 0x0E => execHandleBind (fld b 2 2) (fld b 4 2) (bit (fld b 6 1) 0) (fld b 8 8) s
  | 0x0F => execFmSources (fld b 8 8) s
  | 0x10 => execEnergyCoef ((List.range 9).map (fun i => BitVec.ofNat 32 (fld b (8 + 4 * i) 4))) s
  | _ => .next s

/-- BAR_REGISTER_WRITE: the mailbox, a port's AUTOWAKE and the host's head of the link events; every other register ignores the write. -/
def execBarRegisterWrite (off : Nat) (value : W64) (s : State) : Out :=
  let p := (off - 0x100000) / 0x200
  if 0xC0000 ≤ off ∧ off < 0xC0040 ∧ off % 8 = 0 then
    let k := off - 0xC0000
    .next { s with mailboxReq := s.mailboxReq.take k ++ toBytes 8 value.toNat ++ s.mailboxReq.drop (k + 8) }
  else if off = 0xC0040 then (if value = 1 then doorbell s else .next s)
  else if 0x100000 ≤ off ∧ p < 16 ∧ (off - 0x100000) % 0x200 = 8 then
    -- a value beyond the register's range leaves an unspecified one in it
    let v := value.toNat % 2 ^ 32
    let c := if 1024 < v then choose s 1025 else (v, s)
    .next (updPort c.2 p (fun x => { x with autowake := c.1 }))
  else if off = 0x122008 then .next { s with linkHeadHost := value }
  else .next s

/-- HOST_ACCESS (06 R211, 07 R250): an access by the host through a context's mapping or to BAR 2, a warp's access performed at the host,
or a change of what memory the host has. In a cycle in which a remote device has reached one of its lines it comes later (07 R233). -/
def execHostAccess (op : HostOp) (s : State) : Out :=
  match op with
  | .read ctx va len =>
    if (rangeLines s ctx va len .read).any (lateAt s hostRank) then .next s
    else
      match hostRead s ctx va len with
      | (.ok bs, s) => .next (emit s (.hostData bs))
      | (.error _, s) => .next (emit s .hostAbort)
  | .write ctx va bytes =>
    .next (if (rangeLines s ctx va bytes.length .write).any (lateAt s hostRank) then s else hostWrite s ctx va bytes)
  | .perform id part => .next (if partPlace s id part = some .host then performAt s id part else s)
  | .readBar bar off len =>
    match (if bar = 2 then barBytes s off len else none) with
    | some bs => .next (emit s (.hostData bs))
    | none => .next (emit s .hostAbort)
  | .unmap holes => .next { s with hostHoles := holes }

end Sys2Proof.Machine
end

