-- ==== Sys2Proof/Machine/Dispatch.lean ====
section
/-! DEFINITION. The one dispatch: an arm per constructor of `Instr`, each a direct call of its meaning. -/

namespace Sys2Proof.Machine

/-- What an instruction, or a move of another agent, does. -/
def exec (i : Instr) (s : State) : Host.Outcome State Fault Refusal :=
  match i with
  | .iadd x => Sys2Proof.Machine.execIadd x s
  | .isub x => Sys2Proof.Machine.execIsub x s
  | .imul x => Sys2Proof.Machine.execImul x s
  | .imulh x => Sys2Proof.Machine.execImulh x s
  | .imad x => Sys2Proof.Machine.execImad x s
  | .imadw x => Sys2Proof.Machine.execImadw x s
  | .imin x => Sys2Proof.Machine.execImin x s
  | .imax x => Sys2Proof.Machine.execImax x s
  | .iabs x => Sys2Proof.Machine.execIabs x s
  | .and x => Sys2Proof.Machine.execAnd x s
  | .or x => Sys2Proof.Machine.execOr x s
  | .xor x => Sys2Proof.Machine.execXor x s
  | .andn x => Sys2Proof.Machine.execAndn x s
  | .shl x => Sys2Proof.Machine.execShl x s
  | .shr x => Sys2Proof.Machine.execShr x s
  | .sar x => Sys2Proof.Machine.execSar x s
  | .rotr x => Sys2Proof.Machine.execRotr x s
  | .popc x => Sys2Proof.Machine.execPopc x s
  | .clz x => Sys2Proof.Machine.execClz x s
  | .brev x => Sys2Proof.Machine.execBrev x s
  | .bfx x => Sys2Proof.Machine.execBfx x s
  | .bfi x => Sys2Proof.Machine.execBfi x s
  | .lea x => Sys2Proof.Machine.execLea x s
  | .icmp x => Sys2Proof.Machine.execIcmp x s
  | .sel x => Sys2Proof.Machine.execSel x s
  | .mov x => Sys2Proof.Machine.execMov x s
  | .movi x => Sys2Proof.Machine.execMovi x s
  | .movs x => Sys2Proof.Machine.execMovs x s
  | .movsSl x => Sys2Proof.Machine.execMovsSl x s
  | .plog x => Sys2Proof.Machine.execPlog x s
  | .fadd x => Sys2Proof.Machine.execFadd x s
  | .fsub x => Sys2Proof.Machine.execFsub x s
  | .fmul x => Sys2Proof.Machine.execFmul x s
  | .ffma x => Sys2Proof.Machine.execFfma x s
  | .fmin x => Sys2Proof.Machine.execFmin x s
  | .fmax x => Sys2Proof.Machine.execFmax x s
  | .fcmp x => Sys2Proof.Machine.execFcmp x s
  | .fcls x => Sys2Proof.Machine.execFcls x s
  | .hadd2 x => Sys2Proof.Machine.execHadd2 x s
  | .hmul2 x => Sys2Proof.Machine.execHmul2 x s
  | .hfma2 x => Sys2Proof.Machine.execHfma2 x s
  | .dadd x => Sys2Proof.Machine.execDadd x s
  | .dmul x => Sys2Proof.Machine.execDmul x s
  | .dfma x => Sys2Proof.Machine.execDfma x s
  | .dcmp x => Sys2Proof.Machine.execDcmp x s
  | .frcp x => Sys2Proof.Machine.execFrcp x s
  | .frsq x => Sys2Proof.Machine.execFrsq x s
  | .fsqt x => Sys2Proof.Machine.execFsqt x s
  | .fdiv x => Sys2Proof.Machine.execFdiv x s
  | .fex2 x => Sys2Proof.Machine.execFex2 x s
  | .flg2 x => Sys2Proof.Machine.execFlg2 x s
  | .fsin x => Sys2Proof.Machine.execFsin x s
  | .fcos x => Sys2Proof.Machine.execFcos x s
  | .ftnh x => Sys2Proof.Machine.execFtnh x s
  | .cvt x => Sys2Proof.Machine.execCvt x s
  | .cvts x => Sys2Proof.Machine.execCvts x s
  | .scsel x => Sys2Proof.Machine.execScsel x s
  | .efq x => Sys2Proof.Machine.execEfq x s
  | .bzpk x => Sys2Proof.Machine.execBzpk x s
  | .bzup x => Sys2Proof.Machine.execBzup x s
  | .f8pk x => Sys2Proof.Machine.execF8pk x s
  | .f8up x => Sys2Proof.Machine.execF8up x s
  | .scacc x => Sys2Proof.Machine.execScacc x s
  | .shfl x => Sys2Proof.Machine.execShfl x s
  | .shfx x => Sys2Proof.Machine.execShfx x s
  | .bcst x => Sys2Proof.Machine.execBcst x s
  | .vote x => Sys2Proof.Machine.execVote x s
  | .redt x => Sys2Proof.Machine.execRedt x s
  | .scan x => Sys2Proof.Machine.execScan x s
  | .redx x => Sys2Proof.Machine.execRedx x s
  | .lacr x => Sys2Proof.Machine.execLacr x s
  | .braAny g dist => Sys2Proof.Machine.execBraAny g dist s
  | .braAll g dist => Sys2Proof.Machine.execBraAll g dist s
  | .brx a off => Sys2Proof.Machine.execBrx a off s
  | .call d dist => Sys2Proof.Machine.execCall d dist s
  | .ret a => Sys2Proof.Machine.execRet a s
  | .regang m => Sys2Proof.Machine.execRegang m s
  | .loopOperand a off => Sys2Proof.Machine.execLoopOperand a off s
  | .loopImmediate n off => Sys2Proof.Machine.execLoopImmediate n off s
  | .trap code => Sys2Proof.Machine.execTrap code s
  | .bkpt code => Sys2Proof.Machine.execBkpt code s
  | .racq n => Sys2Proof.Machine.execRacq n s
  | .rrel n => Sys2Proof.Machine.execRrel n s
  | .rep x => Sys2Proof.Machine.execRep x s
  | .pNop h o => Sys2Proof.Machine.execPNop h o s
  | .pMov h o => Sys2Proof.Machine.execPMov h o s
  | .pIadd h o => Sys2Proof.Machine.execPIadd h o s
  | .pIsub h o => Sys2Proof.Machine.execPIsub h o s
  | .pImul h o => Sys2Proof.Machine.execPImul h o s
  | .pIaddi h o => Sys2Proof.Machine.execPIaddi h o s
  | .pAnd h o => Sys2Proof.Machine.execPAnd h o s
  | .pOr h o => Sys2Proof.Machine.execPOr h o s
  | .pXor h o => Sys2Proof.Machine.execPXor h o s
  | .pAndn h o => Sys2Proof.Machine.execPAndn h o s
  | .pShl h o => Sys2Proof.Machine.execPShl h o s
  | .pShr h o => Sys2Proof.Machine.execPShr h o s
  | .pSar h o => Sys2Proof.Machine.execPSar h o s
  | .pImin h o => Sys2Proof.Machine.execPImin h o s
  | .pImax h o => Sys2Proof.Machine.execPImax h o s
  | .pRotr h o => Sys2Proof.Machine.execPRotr h o s
  | .pFadd h o => Sys2Proof.Machine.execPFadd h o s
  | .pFsub h o => Sys2Proof.Machine.execPFsub h o s
  | .pFmul h o => Sys2Proof.Machine.execPFmul h o s
  | .pFmin h o => Sys2Proof.Machine.execPFmin h o s
  | .pFmax h o => Sys2Proof.Machine.execPFmax h o s
  | .pHadd2 h o => Sys2Proof.Machine.execPHadd2 h o s
  | .pHmul2 h o => Sys2Proof.Machine.execPHmul2 h o s
  | .pClz h o => Sys2Proof.Machine.execPClz h o s
  | .ld x => Sys2Proof.Machine.execLd x s
  | .st x => Sys2Proof.Machine.execSt x s
  | .lds x => Sys2Proof.Machine.execLds x s
  | .sts x => Sys2Proof.Machine.execSts x s
  | .ldw x => Sys2Proof.Machine.execLdw x s
  | .stw x => Sys2Proof.Machine.execStw x s
  | .ldc x => Sys2Proof.Machine.execLdc x s
  | .pref x => Sys2Proof.Machine.execPref x s
  | .cflsh x => Sys2Proof.Machine.execCflsh x s
  | .cinv x => Sys2Proof.Machine.execCinv x s
  | .fence scope kind => Sys2Proof.Machine.execFence scope kind s
  | .waitc mask t => Sys2Proof.Machine.execWaitc mask t s
  | .atomAdd x => Sys2Proof.Machine.execAtomAdd x s
  | .atomMin x => Sys2Proof.Machine.execAtomMin x s
  | .atomMax x => Sys2Proof.Machine.execAtomMax x s
  | .atomAnd x => Sys2Proof.Machine.execAtomAnd x s
  | .atomOr x => Sys2Proof.Machine.execAtomOr x s
  | .atomXor x => Sys2Proof.Machine.execAtomXor x s
  | .atomExch x => Sys2Proof.Machine.execAtomExch x s
  | .atomCas x => Sys2Proof.Machine.execAtomCas x s
  | .atomFadd x => Sys2Proof.Machine.execAtomFadd x s
  | .atomsAdd x => Sys2Proof.Machine.execAtomsAdd x s
  | .atomsMin x => Sys2Proof.Machine.execAtomsMin x s
  | .atomsMax x => Sys2Proof.Machine.execAtomsMax x s
  | .atomsAnd x => Sys2Proof.Machine.execAtomsAnd x s
  | .atomsOr x => Sys2Proof.Machine.execAtomsOr x s
  | .atomsXor x => Sys2Proof.Machine.execAtomsXor x s
  | .atomsExch x => Sys2Proof.Machine.execAtomsExch x s
  | .atomsCas x => Sys2Proof.Machine.execAtomsCas x s
  | .atomsFadd x => Sys2Proof.Machine.execAtomsFadd x s
  | .rld x => Sys2Proof.Machine.execRld x s
  | .rst x => Sys2Proof.Machine.execRst x s
  | .rstf x => Sys2Proof.Machine.execRstf x s
  | .ratomAdd x => Sys2Proof.Machine.execRatomAdd x s
  | .ratomMin x => Sys2Proof.Machine.execRatomMin x s
  | .ratomMax x => Sys2Proof.Machine.execRatomMax x s
  | .ratomAnd x => Sys2Proof.Machine.execRatomAnd x s
  | .ratomOr x => Sys2Proof.Machine.execRatomOr x s
  | .ratomXor x => Sys2Proof.Machine.execRatomXor x s
  | .ratomExch x => Sys2Proof.Machine.execRatomExch x s
  | .ratomCas x => Sys2Proof.Machine.execRatomCas x s
  | .ratomFadd x => Sys2Proof.Machine.execRatomFadd x s
  | .copy x => Sys2Proof.Machine.execCopy x s
  | .copy2 x => Sys2Proof.Machine.execCopy2 x s
  | .copyf x => Sys2Proof.Machine.execCopyf x s
  | .copyw x => Sys2Proof.Machine.execCopyw x s
  | .copyr x => Sys2Proof.Machine.execCopyr x s
  | .cprog d a => Sys2Proof.Machine.execCprog d a s
  | .ckill d a => Sys2Proof.Machine.execCkill d a s
  | .publ d a => Sys2Proof.Machine.execPubl d a s
  | .harn n a => Sys2Proof.Machine.execHarn n a s
  | .mpass x => Sys2Proof.Machine.execMpass x s
  | .mspass x => Sys2Proof.Machine.execMspass x s
  | .mlut x => Sys2Proof.Machine.execMlut x s
  | .accrd x => Sys2Proof.Machine.execAccrd x s
  | .accwr x => Sys2Proof.Machine.execAccwr x s
  | .accz kind t => Sys2Proof.Machine.execAccz kind t s
  | .mprog d a => Sys2Proof.Machine.execMprog d a s
  | .mprogW d a b => Sys2Proof.Machine.execMprogW d a b s
  | .skupd x => Sys2Proof.Machine.execSkupd x s
  | .skqry x => Sys2Proof.Machine.execSkqry x s
  | .skadd a b => Sys2Proof.Machine.execSkadd a b s
  | .skclr a => Sys2Proof.Machine.execSkclr a s
  | .tdec a b => Sys2Proof.Machine.execTdec a b s
  | .twait p a b c => Sys2Proof.Machine.execTwait p a b c s
  | .flgw x => Sys2Proof.Machine.execFlgw x s
  | .bkw p a c => Sys2Proof.Machine.execBkw p a c s
  | .bkarm d a b => Sys2Proof.Machine.execBkarm d a b s
  | .bkarmOff d a => Sys2Proof.Machine.execBkarmOff d a s
  | .lnch d a b => Sys2Proof.Machine.execLnch d a b s
  | .reln x => Sys2Proof.Machine.execReln x s
  | .csrr d csr => Sys2Proof.Machine.execCsrr d csr s
  | .csrw csr a => Sys2Proof.Machine.execCsrw csr a s
  | .tlbiVa sreg => Sys2Proof.Machine.execTlbiVa sreg s
  | .fret d a b => Sys2Proof.Machine.execFret d a b s
  | .fctxBind d a b => Sys2Proof.Machine.execFctxBind d a b s
  | .fctxUnbind d a b => Sys2Proof.Machine.execFctxUnbind d a b s
  | .fswpOut d a b => Sys2Proof.Machine.execFswpOut d a b s
  | .fswpIn d a b => Sys2Proof.Machine.execFswpIn d a b s
  | .bar id n => Sys2Proof.Machine.execBar id n s
  | .bara d id n => Sys2Proof.Machine.execBara d id n s
  | .barw a id clu => Sys2Proof.Machine.execBarw a id clu s
  | .cbar d id n => Sys2Proof.Machine.execCbar d id n s
  | .nldv x => Sys2Proof.Machine.execNldv x s
  | .nstv x => Sys2Proof.Machine.execNstv x s
  | .nadd x => Sys2Proof.Machine.execNadd x s
  | .nsub x => Sys2Proof.Machine.execNsub x s
  | .nmul x => Sys2Proof.Machine.execNmul x s
  | .nfma x => Sys2Proof.Machine.execNfma x s
  | .nmin x => Sys2Proof.Machine.execNmin x s
  | .nmax x => Sys2Proof.Machine.execNmax x s
  | .nrsq gd ga => Sys2Proof.Machine.execNrsq gd ga s
  | .ncvt gd ga kind rnd => Sys2Proof.Machine.execNcvt gd ga kind rnd s
  | .nsku g ak ad n => Sys2Proof.Machine.execNsku g ak ad n s
  | .nskq g ak ad n => Sys2Proof.Machine.execNskq g ak ad n s
  | .nska ad as => Sys2Proof.Machine.execNska ad as s
  | .nskc ad => Sys2Proof.Machine.execNskc ad s
  | .nsetImm gd imm => Sys2Proof.Machine.execNsetImm gd imm s
  | .nsetReg gd a => Sys2Proof.Machine.execNsetReg gd a s
  | .naddi ad as sh imm => Sys2Proof.Machine.execNaddi ad as sh imm s
  | .nloopImm count off => Sys2Proof.Machine.execNloopImm count off s
  | .nloopReg a off => Sys2Proof.Machine.execNloopReg a off s
  | .nbra cond a off => Sys2Proof.Machine.execNbra cond a off s
  | .nwait a b => Sys2Proof.Machine.execNwait a b s
  | .nsig a => Sys2Proof.Machine.execNsig a s
  | .movqReg qd qa => Sys2Proof.Machine.execMovqReg qd qa s
  | .movqImm qd imm => Sys2Proof.Machine.execMovqImm qd imm s
  | .addqReg qd qa qb => Sys2Proof.Machine.execAddqReg qd qa qb s
  | .addqImm qd qa imm => Sys2Proof.Machine.execAddqImm qd qa imm s
  | .subqReg qd qa qb => Sys2Proof.Machine.execSubqReg qd qa qb s
  | .subqImm qd qa imm => Sys2Proof.Machine.execSubqImm qd qa imm s
  | .cmpqReg cc qa qb => Sys2Proof.Machine.execCmpqReg cc qa qb s
  | .cmpqImm cc qa imm => Sys2Proof.Machine.execCmpqImm cc qa imm s
  | .brq nz qa off => Sys2Proof.Machine.execBrq nz qa off s
  | .brc cond off => Sys2Proof.Machine.execBrc cond off s
  | .creq qd qa => Sys2Proof.Machine.execCreq qd qa s
  | .cwait tgt qd qa qb => Sys2Proof.Machine.execCwait tgt qd qa qb s
  | .crel qa => Sys2Proof.Machine.execCrel qa s
  | .cstat qd qa => Sys2Proof.Machine.execCstat qd qa s
  | .buck qa qb => Sys2Proof.Machine.execBuck qa qb s
  | .buckOff qa => Sys2Proof.Machine.execBuckOff qa s
  | .park qa qb => Sys2Proof.Machine.execPark qa qb s
  | .wake qa qb => Sys2Proof.Machine.execWake qa qb s
  | .setw qa qb => Sys2Proof.Machine.execSetw qa qb s
  | .msg qa qb => Sys2Proof.Machine.execMsg qa qb s
  | .mrcv qd qa qb => Sys2Proof.Machine.execMrcv qd qa qb s
  | .tsig qa qb => Sys2Proof.Machine.execTsig qa qb s
  | .twt qa qb qc => Sys2Proof.Machine.execTwt qa qb qc s
  | .time qd => Sys2Proof.Machine.execTime qd s
  | .dlyReg qa => Sys2Proof.Machine.execDlyReg qa s
  | .dlyImm us => Sys2Proof.Machine.execDlyImm us s
  | .evt qa => Sys2Proof.Machine.execEvt qa s
  | .lacz => Sys2Proof.Machine.execLacz s
  | .regangRelease core slot addr => Sys2Proof.Machine.execRegangRelease core slot addr s
  | .yield => Sys2Proof.Machine.execYield s
  | .nop => Sys2Proof.Machine.execNop s
  | .exit => Sys2Proof.Machine.execExit s
  | .racqGrant core => Sys2Proof.Machine.execRacqGrant core s
  | .emergencyEpisode core => Sys2Proof.Machine.execEmergencyEpisode core s
  | .emergencyGrant core => Sys2Proof.Machine.execEmergencyGrant core s
  | .rrelRelease core slot => Sys2Proof.Machine.execRrelRelease core slot s
  | .fenceComplete core slot id => Sys2Proof.Machine.execFenceComplete core slot id s
  | .rfence => Sys2Proof.Machine.execRfence s
  | .sketchReply id => Sys2Proof.Machine.execSketchReply id s
  | .timedWaitAnswer core slot slice => Sys2Proof.Machine.execTimedWaitAnswer core slot slice s
  | .timedWaitTimeout core slot slice => Sys2Proof.Machine.execTimedWaitTimeout core slot slice s
  | .flgwHostPoll core slot slice => Sys2Proof.Machine.execFlgwHostPoll core slot slice s
  | .rcloseRetry ctx record => Sys2Proof.Machine.execRcloseRetry ctx record s
  | .rcloseSkip ctx record => Sys2Proof.Machine.execRcloseSkip ctx record s
  | .rcloseKillw ctx record => Sys2Proof.Machine.execRcloseKillw ctx record s
  | .rcloseKillc ctx record => Sys2Proof.Machine.execRcloseKillc ctx record s
  | .tlbiCtx => Sys2Proof.Machine.execTlbiCtx s
  | .tlbiAll => Sys2Proof.Machine.execTlbiAll s
  | .tlbiComplete core slot id => Sys2Proof.Machine.execTlbiComplete core slot id s
  | .halt => Sys2Proof.Machine.execHalt s
  | .haltDev => Sys2Proof.Machine.execHaltDev s
  | .clusterBlockAssign launch cluster cores => Sys2Proof.Machine.execClusterBlockAssign launch cluster cores s
  | .clusterBlockResident cb => Sys2Proof.Machine.execClusterBlockResident cb s
  | .activeSetUpdate core => Sys2Proof.Machine.execActiveSetUpdate core s
  | .warpForced core slot => Sys2Proof.Machine.execWarpForced core slot s
  | .warpExited core slot => Sys2Proof.Machine.execWarpExited core slot s
  | .pageWalk cluster ctx va kind => Sys2Proof.Machine.execPageWalk cluster ctx va kind s
  | .loadValueReturn id => Sys2Proof.Machine.execLoadValueReturn id s
  | .storePerformed id => Sys2Proof.Machine.execStorePerformed id s
  | .scratchpadAccess id => Sys2Proof.Machine.execScratchpadAccess id s
  | .homeAccess id part => Sys2Proof.Machine.execHomeAccess id part s
  | .hostAccess op => Sys2Proof.Machine.execHostAccess op s
  | .barrierComplete b => Sys2Proof.Machine.execBarrierComplete b s
  | .taskDecrement => Sys2Proof.Machine.execTaskDecrement s
  | .copyTakeUp core => Sys2Proof.Machine.execCopyTakeUp core s
  | .copyChunkIssue c => Sys2Proof.Machine.execCopyChunkIssue c s
  | .copyChunkPerformed c chunk => Sys2Proof.Machine.execCopyChunkPerformed c chunk s
  | .copyrChunkTimeout c chunk => Sys2Proof.Machine.execCopyrChunkTimeout c chunk s
  | .drainlimExpiry ctx => Sys2Proof.Machine.execDrainlimExpiry ctx s
  | .passPost cluster harness => Sys2Proof.Machine.execPassPost cluster harness s
  | .passGrant cluster => Sys2Proof.Machine.execPassGrant cluster s
  | .passKstepComplete cluster => Sys2Proof.Machine.execPassKstepComplete cluster s
  | .nmuNodeLoad stack => Sys2Proof.Machine.execNmuNodeLoad stack s
  | .nmuProgramSave stack place => Sys2Proof.Machine.execNmuProgramSave stack place s
  | .nwaitRelease stack place => Sys2Proof.Machine.execNwaitRelease stack place s
  | .nfence => Sys2Proof.Machine.execNfence s
  | .nend => Sys2Proof.Machine.execNend s
  | .collectiveCheckExchange node nb => Sys2Proof.Machine.execCollectiveCheckExchange node nb s
  | .collectiveSegmentReceive node seg => Sys2Proof.Machine.execCollectiveSegmentReceive node seg s
  | .launchSubmit ctx src pkt => Sys2Proof.Machine.execLaunchSubmit ctx src pkt s
  | .launchStart launch => Sys2Proof.Machine.execLaunchStart launch s
  | .relaunchHeaderRead launch => Sys2Proof.Machine.execRelaunchHeaderRead launch s
  | .launchEnd launch => Sys2Proof.Machine.execLaunchEnd launch s
  | .graphLoad launch => Sys2Proof.Machine.execGraphLoad launch s
  | .nodeStart slot index => Sys2Proof.Machine.execNodeStart slot index s
  | .nodeEnd slot index => Sys2Proof.Machine.execNodeEnd slot index s
  | .graphComplete slot => Sys2Proof.Machine.execGraphComplete slot s
  | .launchRegisterInline q bytes => Sys2Proof.Machine.execLaunchRegisterInline q bytes s
  | .launchRegisterDoorbell q bytes => Sys2Proof.Machine.execLaunchRegisterDoorbell q bytes s
  | .launchRegisterDrop q acc => Sys2Proof.Machine.execLaunchRegisterDrop q acc s
  | .barRegisterWrite off value => Sys2Proof.Machine.execBarRegisterWrite off value s
  | .packetConsume => Sys2Proof.Machine.execPacketConsume s
  | .energyCharge q counts => Sys2Proof.Machine.execEnergyCharge q counts s
  | .budgetRefill q => Sys2Proof.Machine.execBudgetRefill q s
  | .ctxCreate desc => Sys2Proof.Machine.execCtxCreate desc s
  | .ctxBind ctx pmask unbind => Sys2Proof.Machine.execCtxBind ctx pmask unbind s
  | .ctxDestroy ctx => Sys2Proof.Machine.execCtxDestroy ctx s
  | .ctxPreempt ctx forced => Sys2Proof.Machine.execCtxPreempt ctx forced s
  | .ctxRestore ctx => Sys2Proof.Machine.execCtxRestore ctx s
  | .grant ctx what => Sys2Proof.Machine.execGrant ctx what s
  | .keyLoad id key => Sys2Proof.Machine.execKeyLoad id key s
  | .queueBind q desc => Sys2Proof.Machine.execQueueBind q desc s
  | .queueDestroy q => Sys2Proof.Machine.execQueueDestroy q s
  | .queueResume q => Sys2Proof.Machine.execQueueResume q s
  | .recordClose ctx record action => Sys2Proof.Machine.execRecordClose ctx record action s
  | .attest ctx nonce => Sys2Proof.Machine.execAttest ctx nonce s
  | .ctxResume ctx => Sys2Proof.Machine.execCtxResume ctx s
  | .handleBind ctx handle unbind map => Sys2Proof.Machine.execHandleBind ctx handle unbind map s
  | .fmSources map => Sys2Proof.Machine.execFmSources map s
  | .energyCoef coefs => Sys2Proof.Machine.execEnergyCoef coefs s
  | .heldRecordWrite n => Sys2Proof.Machine.execHeldRecordWrite n s
  | .uncorrectableMemoryError pa => Sys2Proof.Machine.execUncorrectableMemoryError pa s
  | .residencyDecision => Sys2Proof.Machine.execResidencyDecision s
  | .gracelimExpiry ctx => Sys2Proof.Machine.execGracelimExpiry ctx s
  | .gracefulSave ctx => Sys2Proof.Machine.execGracefulSave ctx s
  | .partitionImageWritten part => Sys2Proof.Machine.execPartitionImageWritten part s
  | .imageMove part => Sys2Proof.Machine.execImageMove part s
  | .swapComplete ctx => Sys2Proof.Machine.execSwapComplete ctx s
  | .deviceReset accepted => Sys2Proof.Machine.execDeviceReset accepted s
  | .firmwareFaultRestart core slot => Sys2Proof.Machine.execFirmwareFaultRestart core slot s
  | .laneTrained lane port => Sys2Proof.Machine.execLaneTrained lane port s
  | .laneDown lane => Sys2Proof.Machine.execLaneDown lane s
  | .rldPacket h mask => Sys2Proof.Machine.execRldPacket h mask s
  | .rstPacket h mask image => Sys2Proof.Machine.execRstPacket h mask image s
  | .rstfPacket h mask image flag => Sys2Proof.Machine.execRstfPacket h mask image flag s
  | .ratomPacket h lanes => Sys2Proof.Machine.execRatomPacket h lanes s
  | .remoteResponse h bytes results => Sys2Proof.Machine.execRemoteResponse h bytes results s
  | .remoteAcknowledgement h => Sys2Proof.Machine.execRemoteAcknowledgement h s
  | .remoteTimeout target tag => Sys2Proof.Machine.execRemoteTimeout target tag s
  | .cratchMsg h mailbox value => Sys2Proof.Machine.execCratchMsg h mailbox value s
  | .managementRead h port off => Sys2Proof.Machine.execManagementRead h port off s
  | .managementWrite h off value => Sys2Proof.Machine.execManagementWrite h off value s
  | .dataFlit port bytes => Sys2Proof.Machine.execDataFlit port bytes s
  | .acknowledgementFlit port bytes => Sys2Proof.Machine.execAcknowledgementFlit port bytes s
  | .replay port seq => Sys2Proof.Machine.execReplay port seq s
  | .replayTimeout port => Sys2Proof.Machine.execReplayTimeout port s
  | .controlFlitRepeat port => Sys2Proof.Machine.execControlFlitRepeat port s
  | .restripe port byTx stripe seq => Sys2Proof.Machine.execRestripe port byTx stripe seq s
  | .restripeAck port byTx => Sys2Proof.Machine.execRestripeAck port byTx s
  | .wakeReady port stripe => Sys2Proof.Machine.execWakeReady port stripe s
  | .chunkDone port handle frame => Sys2Proof.Machine.execChunkDone port handle frame s
  | .close port => Sys2Proof.Machine.execClose port s
  | .portFail port => Sys2Proof.Machine.execPortFail port s
  | .lossOfLight port lost reverseLit => Sys2Proof.Machine.execLossOfLight port lost reverseLit s
  | .receiveSilence port => Sys2Proof.Machine.execReceiveSilence port s
  | .wakeLock port channel locked => Sys2Proof.Machine.execWakeLock port channel locked s
  | .wakeTimeout port channel => Sys2Proof.Machine.execWakeTimeout port channel s
  | .lightReturns port wl rx => Sys2Proof.Machine.execLightReturns port wl rx s
  | .autoWake port => Sys2Proof.Machine.execAutoWake port s
  | .laserRefresh port channel x => Sys2Proof.Machine.execLaserRefresh port channel x s
  | .controllerGrant m => Sys2Proof.Machine.execControllerGrant m s
  | .controllerDeny m => Sys2Proof.Machine.execControllerDeny m s
  | .controllerFail m => Sys2Proof.Machine.execControllerFail m s
  | .controllerReleased m => Sys2Proof.Machine.execControllerReleased m s
  | .requestSilence port => Sys2Proof.Machine.execRequestSilence port s
  | .portLocked port => Sys2Proof.Machine.execPortLocked port s
  | .lockTimeout port => Sys2Proof.Machine.execLockTimeout port s
  | .portTrained port peer tx rx => Sys2Proof.Machine.execPortTrained port peer tx rx s
  | .portLive port => Sys2Proof.Machine.execPortLive port s
  | .portDrained port => Sys2Proof.Machine.execPortDrained port s
  | .drainTimeout port => Sys2Proof.Machine.execDrainTimeout port s
  | .scriptStart => Sys2Proof.Machine.execScriptStart s
  | .cratchWaitEnd place => Sys2Proof.Machine.execCratchWaitEnd place s
  | .endScript => Sys2Proof.Machine.execEndScript s
  | .fullService => Sys2Proof.Machine.execFullService s
  | .queueRelease q => Sys2Proof.Machine.execQueueRelease q s

end Sys2Proof.Machine
end

