-- ==== Sys2Proof/Machine/Issue.lean ====
section
/-! DEFINITION. What moves: issue on a core (05 R175-R179), the words of NMUs and scripts, the moves of other agents, and the choice of
a move when none is given. -/

namespace Sys2Proof.Machine

/-! ## One gang's word -/

/-- A word that no decoder reads. -/
def badWord (s : State) (code : Nat) : Out := .next (takeFault (noteIssue s) (flt code))

/-- A REP prefix issues with the word it repeats (05 R175, 01 R45). -/
def runRep (x : RepArgs) (s : State) : Out :=
  match exec (.rep x) s with
  | .next t =>
    if t.cur.rep.isSome then
      match decodeCore t.cur.word.toNat with
      | .ok j => exec j t
      | .illegalOpcode => badWord t 1
      | .reservedEncoding => badWord t 2
    else .next t
  | o => o

/-- Run a fetched word. -/
def runWord (n : Nat) (s : State) : Out :=
  let s : State := { s with cur := { s.cur with word := BitVec.ofNat 64 n } }
  match decodeCore n with
  | .illegalOpcode => badWord s 1
  | .reservedEncoding => badWord s 2
  | .ok (.rep x) => runRep x s
  | .ok i => exec i s

/-- Try the next word of a gang: fetch, decode, execute. A word that stalls leaves the count of issues as it was. -/
def attempt (s : State) (core slot mask : Nat) : Out :=
  let s : State := { s with cur := { Site.zero with core := core, slot := slot, mask := mask }
                            payer := payerOf s (warpOf s core slot).launch }
  let w := cw s
  let pc := (w.slice (curLow s)).pc.toNat
  match fetchWord s (clusterOf core) w.ctx pc 8 with
  | (.error p, s) => .next (takeFault (noteIssue s) (fltPage pc p))
  | (.ok n, s) => runWord n s

/-- Whether an attempt issued. -/
def issuedIn (s : State) (o : Out) : Bool :=
  match o with
  | .next t => t.issues != s.issues
  | _ => true

/-! ## Issue (05 R175-R179) -/

/-- Whether the warps of a context issue: it holds its partitions and has not been stopped (14 R427, R428, R432). -/
def mayIssue (s : State) (w : Warp) : Bool :=
  w.firmware || (match ctxOf s w.ctx with
    | some c => c.st == .resident || c.st == .running || (c.st == .preempting && !isPreempting s w.ctx)
    | none => false)

/-- The gangs of a warp that could issue, the least recently issued first, ties to the lowest slice (05 R175). -/
def Warp.ready (w : Warp) (now : Nat) : List Gang :=
  (w.gangs.filter (fun g => decide (g.start ≤ now) && (w.inMask g.mask).all (fun j => (w.slice j).isRun))).foldl (fun l g =>
    let before := fun (h : Gang) => decide (h.last < g.last) || (h.last == g.last && decide (w.lowSlice h.mask < w.lowSlice g.mask))
    l.takeWhile before ++ g :: l.dropWhile before) []

/-- The active warps of a core that may issue in this cycle. -/
def activeWarps (s : State) (core : Nat) : List (Nat × Warp) :=
  (coreOf s core).warps.filter (fun x => x.2.st == .active && decide (x.2.resume ≤ s.cycle) && mayIssue s x.2)

/-- What a warp offers: the first of its gangs whose word issues. -/
def offerOf (s : State) (core : Nat) (x : Nat × Warp) : Option (Nat × Nat) :=
  ((x.2.ready s.cycle).find? (fun g => issuedIn s (attempt s core x.1 g.mask))).map (fun g => (x.1, g.mask))

/-- Whether a warp is forced: 256 cycles offered without an issue, under GTO (05 R177). -/
def Warp.isForced (w : Warp) : Bool := w.forced || (decide (256 ≤ w.offered) && !w.rr)

/-- The class of a warp under GTO: forced, last issued, any other, yielded (05 R177, R192). -/
def gtoClass (last : Option (Nat × Nat)) (slot : Nat) (w : Warp) : Nat :=
  if w.isForced then 0 else if w.yielded then 3 else if last = some (slot, w.uid) then 1 else 2

/-- Whether one warp comes before another under GTO. -/
def gtoBefore (last : Option (Nat × Nat)) (a b : Nat × Warp) : Bool :=
  let x := gtoClass last a.1 a.2
  let y := gtoClass last b.1 b.2
  decide (x < y) || (x == y && (decide (a.2.age < b.2.age) || (a.2.age == b.2.age && decide (a.1 < b.1))))

/-- The place of a slot in the rotation of RR (05 R178). -/
def rrPlace (last : Option Nat) (slot : Nat) : Nat := match last with | some l => (slot + 15 - l) % 16 | none => slot

/-- A warp that has issued since it became resident: its gangs keep the numbers of their last issues. -/
def Warp.hasIssued (w : Warp) : Bool := w.gangs.any (fun g => g.last != 0)

/-- The slot of the last-issued warp for RR, also of one that has exited; none where no resident warp has issued (17 R487). -/
def rrLast (c : Core) : Option Nat := if c.warps.any (fun x => x.2.hasIssued) then c.last.map (·.1) else none

/-- The warps in the order in which a policy takes them. -/
def orderWarps (before : Nat × Warp → Nat × Warp → Bool) (l : List (Nat × Warp)) : List (Nat × Warp) :=
  l.foldl (fun a x => a.takeWhile (fun y => before y x) ++ x :: a.dropWhile (fun y => before y x)) []

/-- The offering warps in the order of the core's policy. Where warps of both policies offer, which policy decides is unspecified. -/
def policyOrder (s : State) (core : Nat) (l : List (Nat × Warp)) : List (Nat × Warp) × State :=
  let last := (coreOf s core).last
  let rot := rrLast (coreOf s core)
  let mixed := l.any (fun x => x.2.rr) && l.any (fun x => !x.2.rr)
  let c := if mixed then choose s 2 else (0, s)
  let rr := if mixed then c.1 == 1 else l.any (fun x => x.2.rr)
  (if rr then orderWarps (fun a b => decide (rrPlace rot a.1 ≤ rrPlace rot b.1)) l else orderWarps (gtoBefore last) l, c.2)

/-- A warp that packs (05 R179). -/
def Warp.packs (w : Warp) : Bool := w.pack && (w.width == 8 || w.width == 16 || w.width == 32)

/-- The next address of a gang. -/
def gangPc (s : State) (core : Nat) (g : Nat × Nat) : W64 := let w := warpOf s core g.1; (w.slice (w.lowSlice g.2)).pc

/-- Issue the words packed with the chosen one: the same launch and address, within 16 slices (05 R179). A candidate that would pass 16
slices is left out, and later ones that fit are still taken (DEDUCED, notes/assumptions/85). -/
def packIssue (core launch : Nat) (pc : W64) : Nat → List (Nat × Nat) → State → Out
  | _, [], s => .next s
  | n, g :: t, s =>
    let w := warpOf s core g.1
    let k := popcount 16 g.2
    if w.packs && w.launch == launch && gangPc s core g == pc && decide (n + k ≤ 16) then
      match attempt s core g.1 g.2 with
      | .next u => packIssue core launch pc (n + k) t u
      | o => o
    else packIssue core launch pc n t s

/-- Count a cycle in which warps offered a candidate; the count of the others starts anew (05 R177). -/
def countOffers (s : State) (core : Nat) (slots : List Nat) : State :=
  updCore s core (fun c => { c with warps := c.warps.map (fun x =>
    (x.1, if slots.contains x.1 then { x.2 with offered := x.2.offered + 1 } else { x.2 with offered := 0, forced := false })) })

/-- Every candidate waits: what the attempts leave stays (a place in a tile order, 10 R334). -/
def stallAll (core : Nat) : List (Nat × Nat) → State → State
  | [], s => s
  | g :: t, s =>
    match attempt s core g.1 g.2 with
    | .next u => stallAll core t u
    | _ => stallAll core t s

/-- The warp that the policy selected is the one that issued last, whatever was packed with it: so the rotation of RR reaches every
warp (05 R183; DEDUCED, notes/assumptions/85). -/
def selected (core : Nat) (last : Nat × Nat) (o : Out) : Out :=
  match o with
  | .next s => .next (updCore s core (fun c => { c with last := some last }))
  | o => o

/-- One issue opportunity of a core: at most one candidate in a cycle, with what is packed with it. -/
def issueTurn (core : Nat) (s : State) : Out :=
  if (coreOf s core).issued = some s.cycle then .next s
  else
    let act := activeWarps s core
    let offers := act.filterMap (offerOf s core)
    match offers with
    | [] => .next (stallAll core (act.flatMap (fun x => (x.2.ready s.cycle).map (fun g => (x.1, g.mask)))) (countOffers s core []))
    | _ =>
      let r := policyOrder s core (act.filter (fun x => offers.any (fun g => g.1 == x.1)))
      let l := r.1.filterMap (fun x => offers.find? (fun g => g.1 == x.1))
      match l with
      | [] => .next r.2
      | g :: t =>
        let w := warpOf s core g.1
        match attempt (countOffers r.2 core (offers.map (·.1))) core g.1 g.2 with
        | .next u =>
          if w.packs then selected core (g.1, w.uid) (packIssue core w.launch (gangPc s core g) (popcount 16 g.2) t u) else .next u
        | o => o

/-! ## NMU and Cratch words (11 R350, 16 R479) -/

/-- An access of a later rank has arrived at a home in this cycle: an NMU makes its accesses in a later one (07 R233). -/
def nmuLate (s : State) : Bool := s.arrivals.any (fun a => a.2.1 == s.cycle && decide (nmuRank < a.2.2))

/-- One word of the NMU program whose turn it is: the resident programs that can issue take turns (11 R350). A stopped program drains and
fails (R356). The cycle is charged to the program's queue (13 R410). -/
def nmuTurn (stack place : Nat) (s : State) : Out :=
  let s : State := { s with cur := { Site.zero with stack := stack, place := place } }
  match nmuProg s stack place with
  | none => .next s
  | some p =>
    if nmuNext s stack ≠ some place ∨ nmuLate s then .next s
    else
      let s := charge { (updNmu s stack (fun u => { u with last := place })) with payer := nodePayer s p.ctx p.node } 4 1
      match p.fault with
      | some (cause, va) => .next (nmuFaultTurn s stack place p cause va)
      | none =>
        match p.words[p.pc]? with
        | none => .next (nmuFault s stack place p 8 0)
        | some w =>
          match decodeNmu w.toNat with
          | .ok i => exec i s
          | .illegalOpcode => .next (nmuFault s stack place p 1 0)
          | .reservedEncoding => .next (nmuFault s stack place p 2 0)

/-- The script that issues next: of those that do not wait, the one after the one that issued last (16 R479). -/
def nextReady (s : State) : Option Nat :=
  let run := (s.scripts.filter (fun x => x.2.wait.isNone)).map (·.1)
  ((run.filter (fun p => decide (s.scriptLast < p))) ++ run).head?

/-- One word of the script whose turn it is. -/
def scriptTurn (place : Nat) (s : State) : Out :=
  let s : State := { s with cur := { Site.zero with place := place } }
  match mget s.scripts place with
  | none => .next s
  | some x =>
    if nextReady s ≠ some place then .next s
    else
      let s : State := { s with scriptLast := place }
      match x.words[x.pc]? with
      | none => .next (scriptFault s place 3)
      | some w =>
        match decodeCratch w.toNat with
        | .ok i => exec i s
        | .illegalOpcode => .next (scriptFault s place 1)
        | .reservedEncoding => .next (scriptFault s place 2)

/-! ## The moves of the other agents -/

/-- Whether a row is a move of an agent by itself, and no word that some place fetches. -/
def isMove : Instr → Bool
  | .regangRelease _ _ _ | .racqGrant _ | .emergencyEpisode _ | .emergencyGrant _ | .rrelRelease _ _ | .fenceComplete _ _ _
  | .sketchReply _ | .timedWaitAnswer _ _ _ | .timedWaitTimeout _ _ _ | .flgwHostPoll _ _ _ | .rcloseRetry _ _
  | .rcloseSkip _ _ | .rcloseKillw _ _ | .rcloseKillc _ _ | .tlbiComplete _ _ _ | .clusterBlockAssign _ _ _
  | .clusterBlockResident _ | .activeSetUpdate _ | .warpForced _ _ | .warpExited _ _ | .pageWalk _ _ _ _ | .loadValueReturn _
  | .storePerformed _ | .scratchpadAccess _ | .homeAccess _ _ | .hostAccess _ | .barrierComplete _ | .taskDecrement
  | .copyTakeUp _ | .copyChunkIssue _ | .copyChunkPerformed _ _ | .copyrChunkTimeout _ _ | .drainlimExpiry _ | .passPost _ _
  | .passGrant _ | .passKstepComplete _ | .nmuNodeLoad _ | .nmuProgramSave _ _ | .nwaitRelease _ _
  | .collectiveCheckExchange _ _ | .collectiveSegmentReceive _ _ | .launchSubmit _ _ _ | .launchStart _
  | .relaunchHeaderRead _ | .launchEnd _ | .graphLoad _ | .nodeStart _ _ | .nodeEnd _ _ | .graphComplete _
  | .launchRegisterInline _ _ | .launchRegisterDoorbell _ _ | .launchRegisterDrop _ _ | .barRegisterWrite _ _
  | .packetConsume | .energyCharge _ _ | .budgetRefill _ | .ctxCreate _ | .ctxBind _ _ _ | .ctxDestroy _ | .ctxPreempt _ _
  | .ctxRestore _ | .grant _ _ | .keyLoad _ _ | .queueBind _ _ | .queueDestroy _ | .queueResume _ | .recordClose _ _ _
  | .attest _ _ | .ctxResume _ | .handleBind _ _ _ _ | .fmSources _ | .energyCoef _ | .heldRecordWrite _
  | .uncorrectableMemoryError _ | .residencyDecision | .gracelimExpiry _ | .gracefulSave _ | .partitionImageWritten _
  | .imageMove _ | .swapComplete _ | .deviceReset _ | .firmwareFaultRestart _ _ | .laneTrained _ _ | .laneDown _
  | .rldPacket _ _ | .rstPacket _ _ _ | .rstfPacket _ _ _ _ | .ratomPacket _ _ | .remoteResponse _ _ _
  | .remoteAcknowledgement _ | .remoteTimeout _ _ | .cratchMsg _ _ _ | .managementRead _ _ _ | .managementWrite _ _ _
  | .dataFlit _ _ | .acknowledgementFlit _ _ | .replay _ _ | .replayTimeout _ | .controlFlitRepeat _ | .restripe _ _ _ _
  | .restripeAck _ _ | .wakeReady _ _ | .chunkDone _ _ _ | .close _ | .portFail _ | .lossOfLight _ _ _ | .receiveSilence _
  | .wakeLock _ _ _ | .wakeTimeout _ _ | .lightReturns _ _ _ | .autoWake _ | .laserRefresh _ _ _ | .controllerGrant _
  | .controllerDeny _ | .controllerFail _ | .controllerReleased _ | .requestSilence _ | .portLocked _ | .lockTimeout _
  | .portTrained _ _ _ _ | .portLive _ | .portDrained _ | .drainTimeout _ | .scriptStart | .cratchWaitEnd _ | .fullService
  | .queueRelease _ => true
  | _ => false

/-! ## Packets that arrive (15 R443-R445, R447) -/

/-- The header of received bytes (15 Table link-1). -/
def hdrOf (bs : List Byte) : PktHdr :=
  { source := fld bs 2 2 % 1024, target := fld bs 4 2 % 1024, handle := fld bs 6 2, tag := fld bs 8 2, op := fld bs 10 1
    status := fld bs 11 1, floor := fld bs 12 2, line := fld bs 16 8 }

/-- The lanes of an RATOM payload: a byte offset, the operand, and for .cas the swap value (15 R445). -/
def atomLanes (n : Nat) (cas : Bool) : Nat → List Byte → List AtomLane
  | 0, _ => []
  | k + 1, bs =>
    if bs.isEmpty then []
    else
      ⟨fld bs 0 1, BitVec.ofNat 64 (fld bs 1 n), BitVec.ofNat 64 (if cas then fld bs (1 + n) n else 0)⟩ ::
        atomLanes n cas k (bs.drop (if cas then 1 + 2 * n else 1 + n))

/-- A controller message of 32 bytes (16 Table circuit-1). -/
def ctlOf (bs : List Byte) : CtlMsg :=
  ⟨fld bs 2 2, fld bs 4 2 % 1024, fld bs 6 1 % 16, fld bs 7 1 % 16, fld bs 8 2 % 1024, fld bs 10 2⟩

/-- A controller message arrives; reserved ops, and those that only a device sends, are dropped (16 R472). -/
def receiveCtl (bs : List Byte) (s : State) : Out :=
  match fld bs 0 1 with
  | 3 => execControllerGrant (ctlOf bs) s
  | 4 => execControllerDeny (ctlOf bs) s
  | 5 => execControllerFail (ctlOf bs) s
  | 6 => execControllerReleased (ctlOf bs) s
  | _ => .next s

/-- The results of a response to an RATOM, by the size of its request. -/
def atomResults (s : State) (h : PktHdr) (bs : List Byte) : List W64 :=
  let n := match findReq s h.source h.tag with | some r => if bit r.hdr.op 5 then 8 else 4 | none => 8
  (List.range (bs.length / n)).map (fun i => BitVec.ofNat 64 (fld bs (n * i) n))

/-- A packet whose CRC is right and whose length is that of its type, by type; a reserved type is dropped (15 R445, Table link-1). The payloads
of MSG and management packets are the model's (notes/assumptions/101). -/
def receivePacket (h : PktHdr) (type : Nat) (p : List Byte) (s : State) : Out :=
  match type with
  | 1 => if p.length = 32 then execRldPacket h (BitVec.ofNat 256 (ofBytes p)) s else .next s
  | 2 => if 288 ≤ p.length then execRstPacket h (BitVec.ofNat 256 (ofBytes (p.take 32))) (p.drop 32) s else .next s
  | 3 =>
    if p.length = 296 then execRstfPacket h (BitVec.ofNat 256 (ofBytes (p.take 32))) ((p.drop 32).take 256) (fld p 288 8) s else .next s
  | 4 => execRatomPacket h (atomLanes (if bit h.op 5 then 8 else 4) (h.op % 16 == 7) p.length p) s
  | 5 => execRemoteResponse h p (atomResults s h p) s
  | 6 => execRemoteAcknowledgement h s
  | 7 =>
    if h.source = s.dev.getD 0 ∧ h.target = s.dev.getD 0 then receiveCtl p s
    else execCratchMsg h (fld p 8 8) (BitVec.ofNat 64 (fld p 0 8)) s
  | 8 => execManagementRead h ((fld p 0 8 - 0x100000) / 0x200) ((fld p 0 8 - 0x100000) % 0x200) s
  | 9 => execManagementWrite h (fld p 0 8) (BitVec.ofNat 64 (fld p 8 8)) s
  | _ => .next s

/-- A packet arrives as bytes: dropped before the first lane has trained, and where its CRC is wrong (15 R444, R445). -/
def receiveTurn (bs : List Byte) (s : State) : Out :=
  let n := bs.length - 4
  if bs.length < 28 ∨ !planeUp s ∨ crc32 (bs.take n) ≠ fld bs n 4 then .next s
  else receivePacket (hdrOf bs) (fld bs 0 1) ((bs.drop 24).take (n - 24)) s

/-- The least cycle of a core: 0.5 ns at full clock, 1 ns in bring-up (00 R4). -/
def nsPer2Cycles (s : State) : Nat := if s.status.fullclk then 1 else 2

/-- Time passes. -/
def tickTurn (cycles ns : Nat) (s : State) : State := { s with cycle := s.cycle + cycles, ns := s.ns + ns }

/-- Make the move that a turn names. -/
def turn (t : Turn) (s : State) : Out :=
  let s : State := { s with payer := none }
  match t with
  | .tick c n => .next (tickTurn c n s)
  | .issue k => issueTurn k s
  | .nmu g p => nmuTurn g p s
  | .script p => scriptTurn p s
  | .receive bs => receiveTurn bs s
  | .copyError c n => .next (copyError c n s)
  | .event e => if isMove e then exec e s else .next s


end Sys2Proof.Machine
end

