-- ==== Sys2Proof/Machine/Auto.lean ====
section
/-! DEFINITION. The move that the model makes when no turn is given: the first, in a fixed order, of the moves of the agents that changes
something, then the first issue, then the passing of time (the model's own; notes/assumptions/2). -/

namespace Sys2Proof.Machine

/-- A move of an agent. -/
abbrev Move := State → Out

/-- The moves of the scheduler, the command front end and firmware. -/
def schedulerMoves (s : State) : List Move :=
  [execTaskDecrement, execPacketConsume, execResidencyDecision, execScriptStart] ++
    s.launches.flatMap (fun l => [execLaunchStart l.1, execRelaunchHeaderRead l.1, execGraphLoad l.1, execLaunchEnd l.1]) ++
    s.graphs.flatMap (fun g => execGraphComplete g.1 :: g.2.nodes.flatMap (fun n => [execNodeStart g.1 n.1, execNodeEnd g.1 n.1])) ++
    s.queues.flatMap (fun q => [execEnergyCharge q.1 (pendingCharge s q.1), execBudgetRefill q.1]) ++
    s.ctxs.flatMap (fun c => [execGracelimExpiry c.1, execGracefulSave c.1, execDrainlimExpiry c.1, execSwapComplete c.1]) ++
    (List.range 16).flatMap (fun p => [execImageMove p, execPartitionImageWritten p]) ++
    (List.range (s.heldRecords.length + 1)).map execHeldRecordWrite

/-- The moves that perform and return operations in flight. -/
def accessMoves (s : State) : List Move :=
  s.txs.flatMap (fun t =>
    [execFenceComplete t.2.core t.2.slot t.1, execTlbiComplete t.2.core t.2.slot t.1, execSketchReply t.1, execScratchpadAccess t.1] ++
      (List.range t.2.parts.length).flatMap (fun i => [execHomeAccess t.1 i, execHostAccess (.perform t.1 i)]) ++
      [execStorePerformed t.1, execLoadValueReturn t.1])

/-- The moves of the copy engines and the matrix engines. -/
def engineMoves (s : State) : List Move :=
  (allCopies s).flatMap (fun c =>
    c.2.flight.flatMap (fun k => [execCopyChunkPerformed c.1 k.1, execCopyrChunkTimeout c.1 k.1]) ++ [execCopyChunkIssue c.1]) ++
    ((0x3FF :: s.cores.map (·.1)).map execCopyTakeUp) ++
    s.clusters.flatMap (fun c => (List.range 8).map (execPassPost c.1) ++ [execPassKstepComplete c.1, execPassGrant c.1])

/-- The moves of the cores beside issue. -/
def coreMoves (s : State) : List Move :=
  (allWarps s).flatMap (fun q => [execWarpExited q.1 q.2.1, execRrelRelease q.1 q.2.1, execWarpForced q.1 q.2.1, execFirmwareFaultRestart q.1 q.2.1] ++
      (List.range q.2.2.slices.length).map (execTimedWaitTimeout q.1 q.2.1)) ++
    s.cores.flatMap (fun k => [execRacqGrant k.1, execEmergencyEpisode k.1, execEmergencyGrant k.1, execActiveSetUpdate k.1])

/-- The cluster-blocks that could be assigned: for each launch and cluster the first set of cores that takes one. -/
def assignMoves (s : State) : List Move :=
  s.cbs.map (fun c => execClusterBlockResident c.1) ++
    s.launches.flatMap (fun l => (List.range 192).filterMap (fun cl =>
      ((coreSets cl).find? (mayAssign s l.2 cl)).map (fun k => execClusterBlockAssign l.1 cl k)))

/-- The moves of the NMUs, the sequencer and the links whose time has come. -/
def fabricMoves (s : State) : List Move :=
  s.nmus.flatMap (fun u => execNmuNodeLoad u.1 :: u.2.places.flatMap (fun p => [execNwaitRelease u.1 p.1, execNmuProgramSave u.1 p.1])) ++
    s.scripts.map (fun x => execCratchWaitEnd x.1) ++
    s.reqs.map (fun r => execRemoteTimeout r.target r.tag) ++
    s.circuits.map (fun c => execRequestSilence c.1) ++
    s.ports.flatMap (fun p => [execPortDrained p.1, execDrainTimeout p.1, execReceiveSilence p.1, execReplayTimeout p.1, execAutoWake p.1,
      execLockTimeout p.1] ++ (List.range 4).map (execWakeTimeout p.1))

/-- The first move that changes the state beside the note of who pays, or stops the machine. -/
def firstMove (s : State) : List Move → Option Out
  | [] => none
  | m :: t =>
    match m s with
    | .next u => if { u with payer := s.payer } = s then firstMove s t else some (.next u)
    | o => some o

/-- The first core that can issue. -/
def issueMove (s : State) : Option Out :=
  (s.cores.find? (fun k => k.2.issued != some s.cycle && (activeWarps s k.1).any (fun x => (offerOf s k.1 x).isSome))).map
    (fun k => issueTurn k.1 s)

/-- Moves one after another. -/
def seqMoves : List Move → State → Out
  | [], s => .next s
  | m :: t, s =>
    match m s with
    | .next u => seqMoves t u
    | o => o

/-- One word of each NMU, and one of a script, of those whose turn it is. -/
def agentMoves (s : State) : List Move :=
  s.nmus.filterMap (fun u => (nmuNext s u.1).map (fun p => nmuTurn u.1 p)) ++ (nextReady s).toList.map scriptTurn

/-- The move made when no turn is given. -/
def autoTurn (s : State) : Out :=
  let s : State := { s with payer := none }
  match firstMove s (schedulerMoves s ++ accessMoves s ++ engineMoves s ++ coreMoves s ++ assignMoves s ++ fabricMoves s) with
  | some o => o
  | none =>
    match issueMove s with
    | some o => o
    | none => seqMoves (agentMoves s ++ [fun s => .next (tickTurn (2 / nsPer2Cycles s) 1 s)]) s

end Sys2Proof.Machine
end

