-- ==== Sys2Proof/Machine/Fetch.lean ====
section
/-! DEFINITION. Placing one instruction where the next step fetches it: a firmware warp for a core word, a program place for an NMU or a
Cratch word (DESIGN CHOICE, notes/assumptions/17). -/

namespace Sys2Proof.Machine

/-- The core, slot and address of a placed core word. -/
def probeCore : Nat := 191

/-- A firmware warp of width 8, in the active set, at address 0 with the word there, and every service up. -/
def placeCore (s : State) (w : Nat) : State :=
  let t := (List.range 8).foldl (fun s i => pokeByte s 0 i (BitVec.ofNat 8 (w / 256 ^ i))) s
  { (setCore t probeCore { Core.zero with
      warps := [(0, { fwWarp s.nextId s.cycle with st := .active })], active := [(0, none)] }) with
    nextId := s.nextId + 1, status := { s.status with firmware := true, matrix := true }, agenda := [.issue probeCore] }

/-- A context that is resident, for a program of an NMU or of the sequencer. -/
def probeCtx : CtxDesc :=
  { id := 1, pmask := 0, drainlim := 50, root := 0, keys := 1, gracelim := 100, vector := 0xFFFF, event := 64, evring := 0, evtail := 0
    evhead := 0 }

/-- An NMU word as the program of place 0 of NMU 0. -/
def placeNmu (s : State) (w : Nat) : State :=
  let p : NmuProg := { ctx := 1, node := 0, launch := 0, words := [BitVec.ofNat 32 w], pc := 0, a := [], g := [], loops := [], batch := []
                       line := [], draining := [], fault := none, parked := none, prog := 0, save := [], seq := s.nextId }
  { (updNmu s 0 (fun u => { u with places := mset u.places 0 p })) with
    ctxs := mset s.ctxs 1 { newCtx s probeCtx with st := .resident }, agenda := [.nmu 0 0] }

/-- A Cratch word as the script of place 0. -/
def placeScript (s : State) (w : Nat) : State :=
  let x : Script := { ctx := 1, node := 0, words := [BitVec.ofNat 32 w], pc := 0, base := 0, q := [], c := false, wait := none }
  { s with scripts := mset s.scripts 0 x, ctxs := mset s.ctxs 1 { newCtx s probeCtx with st := .resident }, agenda := [.script 0] }

/-- Place an instruction of the opcode table. -/
def placeWord (s : State) (nbits w : Nat) : State :=
  if 32 < nbits then placeCore s w
  else if (decodeNmu w).toOption.isSome then placeNmu s w else placeScript s w

end Sys2Proof.Machine
end

