-- ==== Sys2Proof/Claims.lean ====
section
/-! DEFINITION. The terms in which claims about words are stated: when a word issues, what it changes and what it leaves alone. -/

namespace Sys2Proof.Claims

open Sys2Proof.Machine

/-- A word with these uses issues in the issuing slices: no fault comes before its own effect (14 Table context-5), and every source and
destination is ready (05 R176). -/
abbrev Issues (u : Use) (s : State) : Prop := preFault u s = none ∧ ready u s = true

/-- Nothing but the cores, the count of issues and the energy counts of the queues differs: memory, every other unit and every special
register of the device stay. -/
def OnlyCores (s t : State) : Prop := t = { s with cores := t.cores, issues := t.issues, charges := t.charges }

/-- Every core keeps all but its warps and the note of its last issue; every warp but the issuing one keeps all but its YIELD rank. -/
def OthersKept (s t : State) : Prop :=
  (∀ k, coreOf t k = { coreOf s k with warps := (coreOf t k).warps, last := (coreOf t k).last, issued := (coreOf t k).issued }) ∧
  (∀ k n, ¬ (k = s.cur.core ∧ n = s.cur.slot) → warpOf t k n = { warpOf s k n with yielded := (warpOf t k n).yielded })

/-- The issuing warp keeps all but its scheduling notes, gangs, slices, vector registers, predicates and the marks of writes in flight. -/
def WarpKept (s t : State) : Prop :=
  cw t = { cw s with offered := (cw t).offered, forced := (cw t).forced, gangs := (cw t).gangs, slices := (cw t).slices,
                     vregs := (cw t).vregs, preds := (cw t).preds, busy := (cw t).busy }

/-- The frame of a word of the cores: of the warp's slices only the issuing ones change, each as `P` says; vector registers other than
`vs`, scalars other than `ss` and predicates other than `ps` keep their values in every lane, and these keep theirs outside the issuing
slices. -/
def FrameBy (P : Nat → Slice → Slice) (s t : State) (vs ss ps : List Nat) : Prop :=
  OnlyCores s t ∧ OthersKept s t ∧ WarpKept s t ∧
  (∀ j, j < 16 → j ∉ curSlices s → (cw t).slice j = (cw s).slice j) ∧
  (∀ j ∈ curSlices s, (cw t).slice j = { P j ((cw s).slice j) with sregs := ((cw t).slice j).sregs }) ∧
  (∀ r l, l < 64 → (r ∉ vs ∨ l ∉ curLanes s) → (cw t).vreg r l = (cw s).vreg r l) ∧
  (∀ n j, j < 16 → (n ∉ ss ∨ j ∉ curSlices s) → ((cw t).slice j).sreg n = ((cw s).slice j).sreg n) ∧
  (∀ p l, l < 64 → (p ∉ ps ∨ l ∉ curLanes s) → (cw t).pred p l = (cw s).pred p l)

/-- A slice passes its word and pushes entries into its window, the newest first. -/
def passSlice (win : Nat → List Entry) (j : Nat) (x : Slice) : Slice := { x.advance with window := (win j ++ x.window).take 8 }

/-- The frame of a word that only computes: each issuing slice passes the word and pushes the entries `win`. -/
abbrev Frame (s t : State) (vs ss ps : List Nat) (win : Nat → List Entry) : Prop := FrameBy (passSlice win) s t vs ss ps

/-- The vector registers that a destination of `n` registers names. -/
def dstV (d : Dst) (n : Nat) : List Nat :=
  if d.nowb then [] else match d.reg with | .v r => (List.range n).map (r + ·) | .s _ => []

/-- The scalar that a destination names. -/
def dstS (d : Dst) : List Nat := if d.nowb then [] else match d.reg with | .v _ => [] | .s n => [n]

/-- A register, or a pair, holds a value in a lane; a scalar holds what its slice's lowest lane gave, extended to 64 bits (01 R36). -/
def Holds (t : State) (d : Dst) (wide sgn : Bool) (f : Nat → Nat) (l : Nat) : Prop :=
  match d.reg with
  | .v r => (cw t).vreg r l = BitVec.ofNat 32 (f l) ∧ (wide = true → (cw t).vreg (r + 1) l = BitVec.ofNat 32 (f l / 2 ^ 32))
  | .s n => ((cw t).slice (l / 4)).sreg n = BitVec.ofNat 64 (scalarVal wide sgn (f (lane0 (l / 4))))

/-- A word wrote its destination with a value per lane: every issuing lane holds it, unless the write-back is suppressed; every issuing
slice has the result as its newest window entry, readable after `lat` cycles (05 R180); and nothing else changed. -/
def WritesReg (s t : State) (d : Dst) (wide sgn : Bool) (lat : Nat) (f : Nat → Nat) : Prop :=
  Frame s t (dstV d (if wide then 2 else 1)) (dstS d) [] (fun j => [⟨s.cycle + lat, dstEntry d.reg wide sgn f j⟩]) ∧
  (d.nowb = false → ∀ l ∈ curLanes s, Holds t d wide sgn f l)

/-- A word wrote a predicate per lane: a write to p7 is discarded, for p7 reads true (01 R29, R34). -/
def WritesPred (s t : State) (p : PDst) (lat : Nat) (f : Nat → Bool) : Prop :=
  Frame s t [] [] (if p.nowb then [] else [p.p])
    (fun j => [⟨s.cycle + lat, .e32 ((sliceLanes j).map (fun l => BitVec.ofNat 32 (b2n (f l))))⟩]) ∧
  (p.nowb = false → ∀ l ∈ curLanes s, (cw t).pred p.p l = (p.p == 7 || f l))

/-- A word completed without a result: a void window entry (02 R69), and nothing else changed. -/
def Passes (s t : State) : Prop := Frame s t [] [] [] (fun _ => [⟨s.cycle, .void⟩])

/-- `exec` answers a next state of which something holds. -/
def Ends (i : Instr) (s : State) (post : State → Prop) : Prop := ∃ t, exec i s = .next t ∧ post t

/-- A word that uses `u` and issues writes its destination, and nothing else. -/
def RegWord (s : State) (i : Instr) (u : Use) (d : Dst) (wide sgn : Bool) (lat : Nat) (f : Nat → Nat) : Prop :=
  Issues u s → Ends i s (fun t => WritesReg s t d wide sgn lat f)

/-- A word that uses `u` and issues writes a predicate, and nothing else. -/
def PredWord (s : State) (i : Instr) (u : Use) (p : PDst) (lat : Nat) (f : Nat → Bool) : Prop :=
  Issues u s → Ends i s (fun t => WritesPred s t p lat f)

/-- A word wrote a group of n vector registers from `r` on, value k to register r + k (04 R120). -/
def WritesGroup (s t : State) (d : Dst) (r n lat : Nat) (f : Nat → Nat → Nat) : Prop :=
  Frame s t (dstV d n) [] [] (fun j => [⟨s.cycle + lat,
    if n = 2 then .e64 ((sliceLanes j).map (fun l => BitVec.ofNat 64 (f 0 l % 2 ^ 32 + f 1 l % 2 ^ 32 * 2 ^ 32))) else .void⟩]) ∧
  (d.nowb = false → ∀ k, k < n → ∀ l ∈ curLanes s, (cw t).vreg (r + k) l = BitVec.ofNat 32 (f k l))

/-- A pair word wrote the results of both halves, each of the values before either write; half 1's entry is the newest (01 R41). -/
def WritesPair (s t : State) (h0 h1 : PHalf) : Prop :=
  Frame s t (dstV (pDst 0 h0) 1 ++ dstV (pDst 1 h1) 1) [] []
    (fun j => [⟨s.cycle + pLat h1.op, pEntry s 1 h1 j⟩, ⟨s.cycle + pLat h0.op, pEntry s 0 h0 j⟩]) ∧
  ((pDst 0 h0).nowb = false → ∀ l ∈ curLanes s, (cw t).vreg (pReg 0 h0.args.d) l = BitVec.ofNat 32 (pVal s 0 h0 l)) ∧
  ((pDst 1 h1).nowb = false → ∀ l ∈ curLanes s, (cw t).vreg (pReg 1 h1.args.d) l = BitVec.ofNat 32 (pVal s 1 h1 l))

/-- A pair word issues when neither half faults and both are ready (01 R41). -/
abbrev PairIssues (h0 h1 : PHalf) (s : State) : Prop :=
  pFault h0 h1 s = none ∧ ready (pUse 0 h0) s = true ∧ ready (pUse 1 h1) s = true

/-- The issuing slices wait at their word: parked, with an empty window (02 R71, 05 R171); nothing else changed. -/
def Parks (s t : State) (o : WaitObj) : Prop := FrameBy (fun _ x => { x with st := .park o, window := [] }) s t [] [] []

/-- The issuing slices pass a switch point whose wait is met at issue: the window is emptied and holds a void entry (02 R71). -/
def PassesSwitch (s t : State) : Prop := FrameBy (fun _ x => { x.advance with window := [⟨s.cycle, .void⟩] }) s t [] [] []

/-- The state with one more operation in flight, counted on an in-flight counter of the issuing warp (07 R255). -/
def counted (s : State) (ic : Nat) (tx : Tx) : State :=
  updCw { s with nextId := s.nextId + 1, txs := mset s.txs s.nextId tx } (fun w => w.raise ic s.nextId)

/-- Memory, and every register, scalar and predicate of the issuing warp, keep their values. -/
def Quiet (s t : State) : Prop :=
  t.mem = s.mem ∧ (∀ r l, l < 64 → (cw t).vreg r l = (cw s).vreg r l) ∧
  (∀ n j, j < 16 → ((cw t).slice j).sreg n = ((cw s).slice j).sreg n) ∧ (∀ p l, l < 64 → (cw t).pred p l = (cw s).pred p l)

/-- The registers of a destination await an operation: later words that use them wait for it (05 R176). -/
def Awaits (s t : State) (d : Dst) (n id : Nat) : Prop :=
  d.nowb = false → curSlices s ≠ [] →
    ∀ c ∈ regCodes d.reg n, ∃ b ∈ (cw t).busy, b.code = c ∧ b.mask = s.cur.mask ∧ b.op = some id

/-- There is room for an operation: in the core's transaction table (07 R234) and on its counter (07 R255). -/
abbrev Room (s : State) (ic : Nat) (tx : Tx) : Prop :=
  let need := lineCount tx.parts
  (need = 0 ∨ tableUsed s s.cur.core + need ≤ 256) ∧ (cw s).ic ic < 63

/-- The word waits at issue: the state stays as it was. -/
def Waits (i : Instr) (s : State) : Prop := exec i s = .next s

/-- With room, a word whose result an operation brings completes: the operation is in flight under its number, the entry shows its
result when it comes, and no value has changed yet; without room it waits. `b` is the state with the operation in flight. -/
def SendsLoad (i : Instr) (s u b : State) (ic : Nat) (tx : Tx) (d : Dst) (n : Nat) (e : EntryBody) : Prop :=
  (Room u ic tx → Ends i s (fun t =>
    Frame b t [] [] [] (fun _ => [⟨s.cycle, e⟩]) ∧ Quiet s t ∧ Awaits s t d n u.nextId)) ∧
  (¬ Room u ic tx → Waits i s)

/-- With room, a word without a result completes and puts an operation in flight; without room it waits. -/
def SendsStore (i : Instr) (s u b : State) (ic : Nat) (tx : Tx) : Prop :=
  (Room u ic tx → Ends i s (fun t => Passes b t ∧ Quiet s t)) ∧ (¬ Room u ic tx → Waits i s)

/-- A remote word with `n` packets to send: counted on its counter, with the refused lanes counted in FSTAT and answered at once, it
completes with its packets sent; it waits while 15 R450 holds it back or its counter is full (15 R453). -/
def SendsRemote (i : Instr) (s : State) (ic n : Nat) (d : Option Dst) (z : MSize) (op : Option (AtomOp × Bool)) (good bad : List RGroup)
    (send : State → State) (finish : State → State) : Prop :=
  let c := noteIssue s
  let tx := mkTx c false false (.remote (n + 1) d z s.cur.mask op (failedVals z.bytes (bad.flatMap (·.lanes)))) []
  let refused := fun (v : State) => bad.foldl (fun v g => fstatEvent v (cw s).uid 4 g.dev) v
  (remoteClear s (cw s).uid = true ∧ (cw s).ic ic < 63 →
    exec i s = .next (remoteAdd ((if good.isEmpty then id else send) (refused (finish (traceVolatile (counted c ic tx) (cw s)))))
      s.nextId 1 [])) ∧
  (remoteClear s (cw s).uid = false ∨ 63 ≤ (cw s).ic ic → Waits i s)

/-- A slice at a branch: it pushes an entry, and takes its target where it has one, or passes the word (05 R185). -/
def branchSlice (pop : Bool) (ready : Nat) (tgt : Nat → Option W64) (e : Nat → EntryBody) (j : Nat) (x : Slice) : Slice :=
  let y : Slice := { x with window := (⟨ready, e j⟩ :: x.window).take 8 }
  match tgt j with
  | some a => y.jump pop a
  | none => y.advance

/-- The state as the frame of a branch sees it: a taken branch keeps the warp from the next cycle (05 R181). -/
def branchBase (s : State) (tgt : Nat → Option W64) : State :=
  updCw s (fun w => { w with resume := if (w.inMask s.cur.mask).any (fun j => (tgt j).isSome) then s.cycle + 2 else w.resume })

/-- The issuing slices branch; `ss` are the scalars the word writes. -/
def Branches (s t : State) (pop : Bool) (lat : Nat) (tgt : Nat → Option W64) (e : Nat → EntryBody) (ss : List Nat) : Prop :=
  FrameBy (branchSlice pop (s.cycle + lat) tgt e) (branchBase s tgt) t [] ss []

/-- The word faults instead of having its effect. -/
def Faults (i : Instr) (s : State) (f : FaultInfo) : Prop := exec i s = .next (takeFault (noteIssue s) f)

/-- A slice at LOOP: it pushes a void entry and opens a level, or passes over the body where the count is 0 (02 R79). -/
def loopSlice (ready count off : Nat) (x : Slice) : Slice :=
  (loopPush { x with window := (⟨ready, .void⟩ :: x.window).take 8 } count off).getD x

/-! ## Programs of the near-memory units, and scripts -/

/-- The place of the site holds a program that is not parked and that no fault has stopped. -/
abbrev NmuRuns (s : State) (p : NmuProg) : Prop :=
  nmuProg s s.cur.stack s.cur.place = some p ∧ p.parked = none ∧ p.fault = none

/-- The state in which an NMU word acts: its unit notes the place that issued last. -/
def nmuNoted (s : State) : State := updNmu s s.cur.stack (fun u => { u with last := s.cur.place })

/-- Of the programs only the one in the site's place differs from `b`: it is `q`. -/
def NmuAfter (b t : State) (q : NmuProg) : Prop :=
  t = { b with nmus := t.nmus } ∧ (nmuProg b b.cur.stack b.cur.place ≠ none → nmuProg t b.cur.stack b.cur.place = some q) ∧
  ∀ g k, ¬ (g = b.cur.stack ∧ k = b.cur.place) → nmuProg t g k = nmuProg b g k

/-- The word completes with the change `b` of the state outside the program, which becomes `q` and passes the word. -/
def NmuPasses (i : Instr) (s b : State) (q : NmuProg) : Prop := Ends i s (fun t => NmuAfter b t q.advance)

/-- The word completes with its program standing at another word. -/
def NmuJumps (i : Instr) (s b : State) (q : NmuProg) : Prop := Ends i s (fun t => NmuAfter b t q)

/-- The word faults with a cause and an address: it has no effect, and its program ends (11 R356). -/
def NmuFaults (i : Instr) (s : State) (p : NmuProg) (cause va : Nat) : Prop :=
  exec i s = .next (nmuFault (nmuNoted s) s.cur.stack s.cur.place p cause va)

/-- The pages of the counters of a sketch, translated at a program's unit. -/
def nmuCounters (s : State) (p : NmuProg) (kind : AccessKind) (k : Sketch) : Except (Nat × Nat) (List (Nat × Xlat)) × State :=
  nmuPages p.ctx s.cur.stack kind (pagesOf k.base (4 * k.count)) s

/-- While updates are pending the word performs one counter event of the drain and its program stays at the word (11 R360, R368). -/
def NmuDrains (i : Instr) (s : State) (p : NmuProg) : Prop :=
  NmuJumps i s (drainEvent p (nmuNoted s)).2 (drainEvent p (nmuNoted s)).1

/-- A vector word passes with lane l of one vector register holding f l, and all other state of the program kept. -/
def NmuVector (i : Instr) (s : State) (p : NmuProg) (gd : Nat) (f : Nat → Nat) : Prop :=
  ∃ q : NmuProg, NmuPasses i s (nmuNoted s) q ∧ q = { p with g := q.g } ∧
    (∀ l, l < 256 → q.lane gd l = f l % 2 ^ 32) ∧ (∀ r l, l < 256 → r ≠ gd → q.lane r l = p.lane r l)

/-- One address register of a program holds a value, mod 2^64, and the others keep theirs. -/
def AregSet (p q : NmuProg) (r v : Nat) : Prop := q.areg r = v % 2 ^ 64 ∧ ∀ k, k ≠ r → q.areg k = p.areg k

/-- The place of the site holds a script that does not wait. -/
abbrev ScriptRuns (s : State) (x : Script) : Prop := mget s.scripts s.cur.place = some x ∧ x.wait = none

/-- Of the scripts only the one in the site's place differs from `b`: it is `y`. -/
def ScriptAfter (b t : State) (y : Script) : Prop :=
  t = { b with scripts := t.scripts } ∧ (mget b.scripts b.cur.place ≠ none → mget t.scripts b.cur.place = some y) ∧
  ∀ k, k ≠ b.cur.place → mget t.scripts k = mget b.scripts k

/-- The word passes with a value in one q register, and nothing else changed but the script's program counter. -/
def SetsQ (i : Instr) (s : State) (x : Script) (qd v : Nat) : Prop :=
  ∃ y : Script, Ends i s (fun t => ScriptAfter s t y) ∧ y = { x with q := y.q, pc := x.pc + 1 } ∧
    y.reg qd = v % 2 ^ 64 ∧ ∀ r, r ≠ qd → y.reg r = x.reg r

/-- The script passes its word, in a state that may differ otherwise. -/
def scriptPast (s : State) : State := updScript s s.cur.place (fun x => { x with pc := x.pc + 1 })

/-- The word passes with c. -/
def SetsC (i : Instr) (s : State) (x : Script) (c : Bool) : Prop :=
  Ends i s (fun t => ScriptAfter s t { x with c := c, pc := x.pc + 1 })

/-- The word passes with a value in one q register and with c, in a state that may differ otherwise. -/
def SetsQC (i : Instr) (s b : State) (x : Script) (qd v : Nat) (c : Bool) : Prop :=
  ∃ y : Script, Ends i s (fun t => ScriptAfter b t y) ∧ y = { x with c := c, q := y.q, pc := x.pc + 1 } ∧
    y.reg qd = v % 2 ^ 64 ∧ ∀ r, r ≠ qd → y.reg r = x.reg r

/-! ## Copies -/

/-- The copy that slice j of the issuing warp admits (09 R293, R294): in ADMIT, with the slice's descriptor and C operand and the word's
flags, and with nothing moved; `after` is the first operation number that it does not wait for. -/
def Admitted (s : State) (op : CopyOp) (x : CopyArgs) (after j : Nat) (y : Copy) : Prop :=
  y.op = op ∧ y.st = .admission ∧ y.ctx = (cw s).ctx ∧ y.uid = (cw s).uid ∧ y.core = s.cur.core ∧ y.slot = s.cur.slot ∧
  y.r0 = descReg s x j 0 ∧ y.r1 = descReg s x j 1 ∧ y.r2 = descReg s x j 2 ∧ y.r3 = descReg s x j 3 ∧
  (∀ o, x.b = some o → y.b = op32 s o (lane0 j)) ∧ y.c = BitVec.ofNat 64 (copyC s x j) ∧
  y.kind = x.kind ∧ y.scope = x.scope ∧ y.sh = x.sh ∧ y.dz = x.dz ∧ y.bk = x.b.isSome ∧ y.after = after ∧
  y.next = 0 ∧ y.pfx = 0 ∧ y.mask = 0 ∧ y.flight = [] ∧ y.cause = 0 ∧ y.failing = false ∧ y.node = none

/-! ## Events -/

/-- A request to firmware: while firmware does not run nothing answers it; else it is done, with bytes in its answer, or refused
(14 R442). -/
def Asks (e : Instr) (s : State) (f : Option (State × List Byte)) : Prop :=
  (s.status.firmware = false → exec e s = .next s) ∧
  (s.status.firmware = true → (∀ t bs, f = some (t, bs) → exec e s = .next (reply t 0 bs)) ∧ (f = none → exec e s = .next (reply s 1 [])))

/-- A request that is answered with a status (14 R442). -/
def Answers (e : Instr) (s : State) (r : Nat × State) : Prop :=
  (s.status.firmware = false → exec e s = .next s) ∧ (s.status.firmware = true → exec e s = .next (reply r.2 r.1 []))

/-- A request packet is served at most once, by the action `p` (15 R447). -/
def Serves (e : Instr) (s : State) (ansType : Nat) (h : PktHdr) (p : State → (Nat × List Byte) × State) : Prop :=
  exec e s = .next (serve s ansType h p)

/-! ## Decoding -/

/-- Whether an instruction is a core word's: neither an event nor a word of an NMU or a script. -/
def isCore (i : Instr) : Bool := !isMove i && !i.isNmu && !i.isCratch

/-- The row that a core word decodes to: the two rows of FCTX, and of FSWP, share one word (14 R439). -/
def canonical (i : Instr) : Instr :=
  match i with
  | .fctxUnbind d a b => .fctxBind d a b
  | .fswpIn d a b => .fswpOut d a b
  | _ => i

end Sys2Proof.Claims
end

