-- ==== Sys2Proof/Certificates/Slice0/Obligations.lean ====
section
/-! DEFINITION. The statements for the provers. -/

open Sys2Proof Sys2Proof.Machine Sys2Proof.Claims

/-! ## Words that write a register or a predicate -/

/-- 04 R122-R124: the integer arithmetic words write the exact result, wrapped or clamped into the type, and nothing else. -/
def Obligations.IntegerWordsWriteResult : Prop :=
  ∀ s : State,
    (∀ x, RegWord s (.iadd x) (useInt2 x false) x.d x.ty.wide x.ty.sgn 2 (fun l =>
      intRes x.ty x.sat (opInt s x.ty x.a l + opInt s x.ty x.b l))) ∧
    (∀ x, RegWord s (.isub x) (useInt2 x false) x.d x.ty.wide x.ty.sgn 2 (fun l =>
      intRes x.ty x.sat (opInt s x.ty x.a l - opInt s x.ty x.b l))) ∧
    (∀ x, RegWord s (.imul x) (useInt2 x false) x.d x.ty.wide x.ty.sgn 2 (fun l =>
      intRes x.ty x.sat (opInt s x.ty x.a l * opInt s x.ty x.b l))) ∧
    (∀ x, RegWord s (.imulh x) (useInt2 x false) x.d x.ty.wide x.ty.sgn 2 (fun l =>
      intRes x.ty x.sat (opInt s x.ty x.a l * opInt s x.ty x.b l / ((2 ^ tyBits x.ty : Nat) : Int)))) ∧
    (∀ x, RegWord s (.imin x) (useInt2 x false) x.d x.ty.wide x.ty.sgn 2 (fun l =>
      intRes x.ty x.sat (if opInt s x.ty x.a l ≤ opInt s x.ty x.b l then opInt s x.ty x.a l else opInt s x.ty x.b l))) ∧
    (∀ x, RegWord s (.imax x) (useInt2 x false) x.d x.ty.wide x.ty.sgn 2 (fun l =>
      intRes x.ty x.sat (if opInt s x.ty x.a l ≤ opInt s x.ty x.b l then opInt s x.ty x.b l else opInt s x.ty x.a l))) ∧
    (∀ x, RegWord s (.imad x) ⟨[(x.a, x.ty.wide), (x.b, x.ty.wide), (x.c, x.ty.wide)], [], [], some (x.d, if x.ty.wide then 2 else 1),
        none, false, false, false, false, []⟩ x.d x.ty.wide x.ty.sgn 2 (fun l =>
      intRes x.ty x.sat (opInt s x.ty x.a l * opInt s x.ty x.b l + opInt s x.ty x.c l))) ∧
    (∀ x, RegWord s (.imadw x) ⟨[(x.a, false), (x.b, false), (x.c, true)], [], [], some (x.d, 2), none, false, false, false, false, []⟩
        x.d true false 2 (fun l =>
      intRes (if x.ty.sgn then .i64 else .n64) x.sat
        (opInt s x.ty x.a l * opInt s x.ty x.b l + opInt s (if x.ty.sgn then .i64 else .n64) x.c l))) ∧
    (∀ x, RegWord s (.iabs x) (useInt1 x false) x.d x.ty.wide x.ty.sgn 2 (fun l =>
      intRes x.ty x.sat ((opInt s x.ty x.a l).natAbs : Int)))

/-- 04 R122, R123, R125, R126: the logic, shift, count, bit-field and address words. -/
def Obligations.LogicAndShiftWordsWriteResult : Prop :=
  ∀ s : State,
    (∀ x, RegWord s (.and x) (useInt2 x false) x.d x.ty.wide x.ty.sgn 2 (fun l => opTy s x.ty x.a l &&& opTy s x.ty x.b l)) ∧
    (∀ x, RegWord s (.or x) (useInt2 x false) x.d x.ty.wide x.ty.sgn 2 (fun l => opTy s x.ty x.a l ||| opTy s x.ty x.b l)) ∧
    (∀ x, RegWord s (.xor x) (useInt2 x false) x.d x.ty.wide x.ty.sgn 2 (fun l => opTy s x.ty x.a l ^^^ opTy s x.ty x.b l)) ∧
    (∀ x, RegWord s (.andn x) (useInt2 x false) x.d x.ty.wide x.ty.sgn 2 (fun l =>
      opTy s x.ty x.a l &&& (2 ^ tyBits x.ty - 1 - opTy s x.ty x.b l % 2 ^ tyBits x.ty))) ∧
    (∀ x, RegWord s (.shl x) (useInt2 x true) x.d x.ty.wide x.ty.sgn 2 (fun l =>
      opTy s x.ty x.a l * 2 ^ (op32 s x.b l % tyBits x.ty) % 2 ^ tyBits x.ty)) ∧
    (∀ x, RegWord s (.shr x) (useInt2 x true) x.d x.ty.wide x.ty.sgn 2 (fun l =>
      opTy s x.ty x.a l / 2 ^ (op32 s x.b l % tyBits x.ty))) ∧
    (∀ x, RegWord s (.sar x) (useInt2 x true) x.d x.ty.wide x.ty.sgn 2 (fun l =>
      ofInt (tyBits x.ty) (sext (tyBits x.ty) (opTy s x.ty x.a l) / ((2 ^ (op32 s x.b l % tyBits x.ty) : Nat) : Int)))) ∧
    (∀ x, RegWord s (.rotr x) (useInt2 x true) x.d x.ty.wide x.ty.sgn 2 (fun l =>
      rotrN (tyBits x.ty) (opTy s x.ty x.a l) (op32 s x.b l))) ∧
    (∀ x, RegWord s (.popc x) (useInt1 x true) x.d false false 2 (fun l => popcount (tyBits x.ty) (opTy s x.ty x.a l))) ∧
    (∀ x, RegWord s (.clz x) (useInt1 x true) x.d false false 2 (fun l => clzN (tyBits x.ty) (opTy s x.ty x.a l))) ∧
    (∀ x, RegWord s (.brev x) (useInt1 x false) x.d x.ty.wide false 2 (fun l => brevN (tyBits x.ty) (opTy s x.ty x.a l))) ∧
    (∀ x, RegWord s (.bfx x) (useInt2 x true) x.d x.ty.wide x.ty.sgn 2 (fun l =>
      bfxN x.ty.sgn (opTy s x.ty x.a l) (op32 s x.b l))) ∧
    (∀ x, RegWord s (.bfi x) ⟨[(x.a, false), (x.b, false), (x.c, false)], [], [], some (x.d, 1), none, false, false, false, false, []⟩
        x.d false false 2 (fun l => bfiN (op32 s x.a l) (op32 s x.b l) (op32 s x.c l))) ∧
    (∀ x, RegWord s (.lea x) ⟨[(x.a, true), (x.b, false)], [], [], some (x.d, 2), none, false, false, false, false, []⟩
        x.d true false 2 (fun l => ofInt 64 ((op64 s x.a l : Int) + opInt s x.ty x.b l * ((2 ^ x.sh : Nat) : Int))))

/-- 04 R127, R133, R134, R155, 02 R83: the words that write a predicate per lane. -/
def Obligations.PredicateWordsWritePredicate : Prop :=
  ∀ s : State,
    (∀ x, PredWord s (.icmp x) ⟨[(x.a, x.ty.wide), (x.b, x.ty.wide)], [], [], none, some x.pd, false, false, false, false, []⟩ x.pd 2 (fun l =>
      icmpCond x.cc (opInt s x.ty x.a l) (opInt s x.ty x.b l))) ∧
    (∀ x, PredWord s (.plog x) ⟨[], [], [x.pa, x.pb, x.pc], none, some x.pd, false, false, false, false, []⟩ x.pd 2 (fun l =>
      bit x.table (4 * b2n ((cw s).pred x.pa l) + 2 * b2n ((cw s).pred x.pb l) + b2n ((cw s).pred x.pc l)))) ∧
    (∀ x, PredWord s (.fcmp x) ⟨[(x.a, false), (x.b, false)], [], [], none, some x.pd, false, false, false, false, []⟩ x.pd 4 (fun l =>
      fp32.fcmp x.ftz x.cc (opF s x.a l) (opF s x.b l))) ∧
    (∀ x, PredWord s (.dcmp x) ⟨[(x.a, true), (x.b, true)], [], [], none, some x.pd, true, false, false, false, []⟩ x.pd 8 (fun l =>
      fp64.fcmp x.ftz x.cc (opVal s .f64 true x.a l) (opVal s .f64 true x.b l))) ∧
    (∀ x, PredWord s (.fcls x) ⟨[(x.a, x.ty.wide)], [], [], none, some x.pd, x.ty == .f64, false, false, false, []⟩ x.pd 4 (fun l =>
      bit x.mask ((fmtOf x.ty).cls (opTy s x.ty x.a l)))) ∧
    (∀ pd pa, PredWord s (.vote (.any pd pa)) ⟨[], [], [pa], none, some pd, false, false, false, false, []⟩ pd 4 (fun _ =>
      (curLanes s).any ((cw s).pred pa))) ∧
    (∀ pd pa, PredWord s (.vote (.all pd pa)) ⟨[], [], [pa], none, some pd, false, false, false, false, []⟩ pd 4 (fun _ =>
      (curLanes s).all ((cw s).pred pa))) ∧
    (∀ pd a wide, PredWord s (.vote (.eq pd a wide)) ⟨[(a, wide)], [], [], none, some pd, false, false, false, false, []⟩ pd 4 (fun _ =>
      (curLanes s).all (fun l => opVal s (if wide then .n64 else .n32) wide a l ==
        opVal s (if wide then .n64 else .n32) wide a ((curLanes s).headD 0))))

/-- 04 R128, 02 R80-R82: the words that move values. A latch of a slice that does not issue gives MOVS the own slice's lowest lane, which
is the model's reading (notes/assumptions/14). MOVI.hi and MOVS.sl keep part of their destination, whose registers are held unless the
write-back is suppressed. -/
def Obligations.MoveWordsWriteValue : Prop :=
  ∀ s : State,
    (∀ x, RegWord s (.sel x) ⟨[(x.a, x.wide), (x.b, x.wide)], [], [x.g.p], some (x.d, if x.wide then 2 else 1), none, false, false, false, false, []⟩
        x.d x.wide false 2 (fun l => opVal s (if x.wide then .n64 else .n32) x.wide (if (cw s).guard x.g l then x.a else x.b) l)) ∧
    (∀ x, RegWord s (.mov x) ⟨[(x.a, x.wide)], [], [], some (x.d, if x.wide then 2 else 1), none, false, false, false, false, []⟩
        x.d x.wide false 2 (fun l => opVal s (if x.wide then .n64 else .n32) x.wide x.a l)) ∧
    (∀ d imm, RegWord s (.movi ⟨d, .plain, imm⟩) ⟨[], [], [], some (d, 1), none, false, false, false, false, []⟩ d false false 2 (fun _ => imm.toNat)) ∧
    (∀ d imm, RegWord s (.movi ⟨d, .sx, imm⟩) ⟨[], [], [], some (d, 2), none, false, false, false, false, []⟩ d true false 2 (fun _ =>
      ofInt 64 (sext 32 imm.toNat))) ∧
    (∀ d imm, RegWord s (.movi ⟨d, .hi, imm⟩) { dst := some (d, 2), rmw := true } d true false 2 (fun l =>
      keptVal s true d.reg l % 2 ^ 32 + imm.toNat * 2 ^ 32)) ∧
    (∀ x, RegWord s (.movs x)
        { ops := [(x.a, x.wide), (x.b, false)], dst := some (x.d, if x.wide then 2 else 1),
          far := farReads x.a x.wide ((curSlices s).map (fun j => op32 s x.b (lane0 j) % (cw s).width)) }
        x.d x.wide false 2 (fun l =>
      opVal s (if x.wide then .n64 else .n32) x.wide x.a
        (if (match x.a with | .latch _ => !bit s.cur.mask (op32 s x.b (lane0 (l / 4)) % (cw s).width / 4) | _ => false) then lane0 (l / 4)
          else op32 s x.b (lane0 (l / 4)) % (cw s).width))) ∧
    (∀ x, RegWord s (.movsSl x) { ops := [(x.a, x.wide), (x.b, false)], dst := some (x.d, if x.wide then 2 else 1), rmw := true }
        x.d x.wide false 2 (fun l =>
      if l % 4 = op32 s x.b (lane0 (l / 4)) % 4 then opVal s (if x.wide then .n64 else .n32) x.wide x.a l
      else keptVal s x.wide x.d.reg l))

/-- 04 R130, R131, R135, R136: the FP32 words round once, with the flush of .ftz; the special functions flush input and result. -/
def Obligations.Fp32WordsWriteResult : Prop :=
  ∀ s : State,
    let two := fun (x : F2) => (⟨[(x.a, false), (x.b, false)], [], [], some (x.d, 1), none, false, false, false, false, []⟩ : Use)
    let one := fun (x : F1) => (⟨[(x.a, false)], [], [], some (x.d, 1), none, false, false, false, false, []⟩ : Use)
    let fl := fun (x : F1) (f : Nat → Nat) (l : Nat) => fp32.flush x.ftz (f (fp32.flush x.ftz (opF s x.a l)))
    (∀ x, RegWord s (.fadd x) (two x) x.d false false 4 (fun l => fp32.add x.rnd x.ftz (opF s x.a l) (opF s x.b l))) ∧
    (∀ x, RegWord s (.fsub x) (two x) x.d false false 4 (fun l => fp32.sub x.rnd x.ftz (opF s x.a l) (opF s x.b l))) ∧
    (∀ x, RegWord s (.fmul x) (two x) x.d false false 4 (fun l => fp32.mul x.rnd x.ftz (opF s x.a l) (opF s x.b l))) ∧
    (∀ x, RegWord s (.fmin x) (two x) x.d false false 4 (fun l => fp32.minmax x.ftz false (opF s x.a l) (opF s x.b l))) ∧
    (∀ x, RegWord s (.fmax x) (two x) x.d false false 4 (fun l => fp32.minmax x.ftz true (opF s x.a l) (opF s x.b l))) ∧
    (∀ x, RegWord s (.fdiv x) (two x) x.d false false 12 (fun l => fp32.div x.rnd x.ftz (opF s x.a l) (opF s x.b l))) ∧
    (∀ x, RegWord s (.ffma x) ⟨[(x.a, false), (x.b, false), (x.c, false)], [], [], some (x.d, 1), none, false, false, false, false, []⟩
        x.d false false 4 (fun l => fp32.fma x.rnd x.ftz (opF s x.a l) (opF s x.b l) (opF s x.c l))) ∧
    (∀ x, RegWord s (.frcp x) (one x) x.d false false 12 (fl x (frcpCode x.rnd))) ∧
    (∀ x, RegWord s (.frsq x) (one x) x.d false false 12 (fl x frsqCode)) ∧
    (∀ x, RegWord s (.fsqt x) (one x) x.d false false 12 (fl x (fsqtCode x.rnd))) ∧
    (∀ x, RegWord s (.fex2 x) (one x) x.d false false 12 (fl x fex2Code)) ∧
    (∀ x, RegWord s (.flg2 x) (one x) x.d false false 12 (fl x flg2Code)) ∧
    (∀ x, RegWord s (.fsin x) (one x) x.d false false 12 (fl x (trigCode false))) ∧
    (∀ x, RegWord s (.fcos x) (one x) x.d false false 12 (fl x (trigCode true))) ∧
    (∀ x, RegWord s (.ftnh x) (one x) x.d false false 12 (fl x ftnhCode))

/-- 04 R130, 14 R441: the packed words work on both halves; the FP64 words wait for full service. -/
def Obligations.PackedAndFp64WordsWriteResult : Prop :=
  ∀ s : State,
    (∀ x, RegWord s (.hadd2 x) ⟨[(x.a, false), (x.b, false)], [], [], some (x.d, 1), none, false, false, false, false, []⟩ x.d false false 4 (fun l =>
      perHalf ((halfFmt x.bf).add x.rnd x.ftz) (opVal s (halfTy x.bf) false x.a l) (opVal s (halfTy x.bf) false x.b l))) ∧
    (∀ x, RegWord s (.hmul2 x) ⟨[(x.a, false), (x.b, false)], [], [], some (x.d, 1), none, false, false, false, false, []⟩ x.d false false 4 (fun l =>
      perHalf ((halfFmt x.bf).mul x.rnd x.ftz) (opVal s (halfTy x.bf) false x.a l) (opVal s (halfTy x.bf) false x.b l))) ∧
    (∀ x, RegWord s (.hfma2 x) ⟨[(x.a, false), (x.b, false), (x.c, false)], [], [], some (x.d, 1), none, false, false, false, false, []⟩
        x.d false false 4 (fun l =>
      let r := fun (o : Opnd) (i : Nat) => bits (opVal s (halfTy x.bf) false o l) i 16
      (halfFmt x.bf).fma x.rnd x.ftz (r x.a 0) (r x.b 0) (r x.c 0) +
        (halfFmt x.bf).fma x.rnd x.ftz (r x.a 16) (r x.b 16) (r x.c 16) * 2 ^ 16)) ∧
    (∀ x, RegWord s (.dadd x) ⟨[(x.a, true), (x.b, true)], [], [], some (x.d, 2), none, true, false, false, false, []⟩ x.d true false 8 (fun l =>
      fp64.add x.rnd x.ftz (opVal s .f64 true x.a l) (opVal s .f64 true x.b l))) ∧
    (∀ x, RegWord s (.dmul x) ⟨[(x.a, true), (x.b, true)], [], [], some (x.d, 2), none, true, false, false, false, []⟩ x.d true false 8 (fun l =>
      fp64.mul x.rnd x.ftz (opVal s .f64 true x.a l) (opVal s .f64 true x.b l))) ∧
    (∀ x, RegWord s (.dfma x) ⟨[(x.a, true), (x.b, true), (x.c, true)], [], [], some (x.d, 2), none, true, false, false, false, []⟩
        x.d true false 8 (fun l =>
      fp64.fma x.rnd x.ftz (opVal s .f64 true x.a l) (opVal s .f64 true x.b l) (opVal s .f64 true x.c l)))

/-- 04 R139-R148: the conversion words. CVTS also counts its elements into SSTAT of each issuing slice; EFQ also writes its residual;
BZUP and F8UP write register groups. -/
def Obligations.ConversionWordsWriteResult : Prop :=
  ∀ s : State,
    (∀ x, RegWord s (.cvt x)
        { ops := [(x.a, x.sty.wide)], dst := some (x.d, if x.dty.wide then 2 else 1),
          gated := gatedTy x.dty || gatedTy x.sty } x.d x.dty.wide x.dty.sgn 6 (fun l => cvtCode x (opTy s x.sty x.a l))) ∧
    (∀ x, Issues ⟨[(x.b, false)], groupRegs x.a (packCount x.dty), [], some (x.d, 1), none, gatedTy x.dty, false, false, false, []⟩ s →
      Ends (.cvts x) s (fun t => WritesReg (updCw s (fun w => w.updSlices s.cur.mask (fun j y =>
        { y with sstat := BitVec.ofNat 64 (cvtsStat s x j (sstatOf y.sstat.toNat)).pack }))) t x.d false false 6 (cvtsWord s x))) ∧
    (∀ x, RegWord s (.scsel x) ⟨[(x.a, false)], [], [], some (x.d, 1), none, gatedTy x.fmt, false, false, false, []⟩ x.d false true 6 (fun l =>
      ofInt 32 (scselRule (sstatOf ((cw s).slice (l / 4)).sstat.toNat) (sext 32 (op32 s x.a (lane0 (l / 4)))) (emaxOf x.fmt) x.h
        x.ulim))) ∧
    (∀ x, x.d.reg ≠ .v x.c →
      Issues { ops := [(x.a, false), (x.b, false)], vr := [x.c], dst := some (x.d, 1), rmw := true, gated := gatedTy x.ty } s →
      Ends (.efq x) s (fun t =>
        let f := fun l => setBits (keptVal s false x.d.reg l) (tyBits x.ty * x.pos) (tyBits x.ty) (efqLane s x l).1
        Frame s t (dstV x.d 1 ++ [x.c]) (dstS x.d) [] (fun j => [⟨s.cycle + 6, dstEntry x.d.reg false false f j⟩]) ∧
        (x.d.nowb = false → ∀ l ∈ curLanes s, Holds t x.d false false f l) ∧
        (∀ l ∈ curLanes s, (cw t).vreg x.c l = BitVec.ofNat 32 (efqLane s x l).2))) ∧
    (∀ x, RegWord s (.bzpk x) ⟨[(x.b, false)], groupRegs x.a 8, [], some (x.d, 1), none, true, false, false, false, []⟩ x.d false false 6 (fun l =>
      bz4Pack x.rnd x.nsat ((List.range 8).map (fun i => XR.div (groupVal s x.a i l) (fp32.value (opF s x.b l)))))) ∧
    (∀ x r, x.d.reg = .v r →
      Issues ⟨[(x.a, false)], [], [], some (x.d, if x.dty = .f32 then 8 else 4), none, true, false, false, false, []⟩ s →
      Ends (.bzup x) s (fun t => WritesGroup s t x.d r (if x.dty = .f32 then 8 else 4) 6 (fun k l =>
        unpackReg x.dty (bz4Decode (op32 s x.a l)).1 k))) ∧
    (∀ x, RegWord s (.f8pk x) ⟨[(x.a, false), (x.b, false)], [], [], some (x.d, 1), none, true, false, false, false, []⟩ x.d false false 6 (fun l =>
      let h := fun (o : Opnd) (i : Nat) =>
        (fmtOf x.dty).narrow x.rnd x.nsat ((fmtOf x.sty).value (bits (opVal s x.sty false o l) (16 * i) 16))
      h x.a 0 + h x.a 1 * 2 ^ 8 + h x.b 0 * 2 ^ 16 + h x.b 1 * 2 ^ 24)) ∧
    (∀ x r, x.d.reg = .v r →
      Issues ⟨[(x.a, false)], [], [], some (x.d, if x.dty = .f32 then 4 else 2), none, true, false, false, false, []⟩ s →
      Ends (.f8up x) s (fun t => WritesGroup s t x.d r (if x.dty = .f32 then 4 else 2) 6 (fun k l =>
        unpackReg x.dty ((List.range 4).map (fun i => (fmtOf x.sty).value (bits (opVal s x.sty false x.a l) (8 * i) 8))) k))) ∧
    (∀ x, RegWord s (.scacc x) { ops := [(x.a, false), (x.b, false), (x.c, false)], dst := some (x.d, 1), rmw := true }
        x.d false false 4 (fun l =>
      let v := fun w => fp32.value (fp32.flush x.ftz w)
      fp32.flush x.ftz (fp32.round x.rnd (XR.add x.rnd (v (keptVal s false x.d.reg l))
        (XR.mul (XR.mul (v (opF s x.a l)) (v (opF s x.b l))) (v (opF s x.c l)))))))

/-- 04 R149-R159, 03 R113-R115: the cross-lane words. REDX adds every issuing lane's term into the long accumulator, in lane order, LACZ
clears it, LACR rounds it once. -/
def Obligations.CrossLaneWordsWriteResult : Prop :=
  ∀ s : State,
    (∀ x, RegWord s (.shfl x)
        { ops := [(x.a, x.wide), (x.b, false)], dst := some (x.d, if x.wide then 2 else 1),
          far := farReads x.a x.wide ((curLanes s).map (shflSrc s x)) } x.d x.wide false 4 (fun l => opVal s (if x.wide then .n64 else .n32) x.wide x.a (shflSrc s x l))) ∧
    (∀ x, RegWord s (.shfx x) ⟨[(x.a, false)], [], [], some (x.d, 1), none, false, false, false, false, []⟩ x.d false false 4 (fun l =>
      op32 s x.a (l - l % 4 + bits x.pattern (2 * (l % 4)) 2))) ∧
    (∀ x, RegWord s (.bcst x)
        { ops := [(x.a, x.wide), (x.b, false)], dst := some (x.d, if x.wide then 2 else 1),
          far := farReads x.a x.wide ((curSlices s).map (fun j => op32 s x.b (lane0 j) % (cw s).width)) } x.d x.wide false 4 (fun l =>
      opVal s (if x.wide then .n64 else .n32) x.wide x.a
        (if (match x.a with | .latch _ => true | _ => false) && !bit s.cur.mask (op32 s x.b (lane0 (l / 4)) % (cw s).width / 4)
          then lane0 (l / 4) else op32 s x.b (lane0 (l / 4)) % (cw s).width))) ∧
    (∀ d pa, RegWord s (.vote (.ballot d pa)) ⟨[], [], [pa], some (d, 2), none, false, false, false, false, []⟩ d true false 4 (fun _ =>
      maskOf ((curLanes s).filter ((cw s).pred pa)))) ∧
    (∀ x, RegWord s (.redt x) ⟨[(x.a, x.ty.wide)], [], [], some (x.d, 1), none, x.ty == .f64, false, false, false, []⟩ x.d x.ty.wide x.ty.sgn 12
      (fun _ => treeReduce (combine x.op x.ty) ((List.range (cw s).width).map (fun l =>
        if bit s.cur.mask (l / 4) then some (opTy s x.ty x.a l) else none)))) ∧
    (∀ x, RegWord s (.scan x) ⟨[(x.a, x.ty.wide)], [], [], some (x.d, if x.ty.wide then 2 else 1), none, x.ty == .f64, false, false, false, []⟩
        x.d x.ty.wide x.ty.sgn 12 (fun l =>
      match (scanGo (combine x.op x.ty) (opTy s x.ty x.a) (scanIdentity x.op x.ty) (curLanes s)).find? (fun e => e.1 == l) with
      | some e => if x.excl then e.2.1 else e.2.2
      | none => 0)) ∧
    (∀ x, Issues ⟨(x.a, false) :: (match x.b with | some b => [(b, false)] | none => []), [], [], none, none, false, false, false, false, []⟩ s →
      let term := fun (l : Nat) => match x.b with
        | some b => XR.mul (fp32.value (opF s x.a l)) (fp32.value (opF s b l))
        | none => fp32.value (opF s x.a l)
      let sum := fun (acc : Lacc) => (curLanes s).foldl (fun a l => laccAdd a (term l)) acc
      Ends (.redx x) s (fun t => Passes (updCw s (fun w => { w with lacc := sum w.lacc })) t)) ∧
    (∀ x, RegWord s (.lacr x) ⟨[], [], [], some (x.d, if x.wide then 2 else 1), none, x.wide, false, false, false, []⟩ x.d x.wide false 12 (fun _ =>
      lacrVal (cw s).lacc (if x.wide then fp64 else fp32) x.rnd)) ∧
    (Issues {} s → Ends .lacz s (fun t => Passes (updCw s (fun w => { w with lacc := .zero })) t))

/-- 01 R38-R41: a pair word writes the results of both halves, each read before either writes. -/
def Obligations.PairWordsWriteBothHalves : Prop :=
  ∀ (s : State) (h : PArgs) (o : PHalf),
    let claim := fun (op : POp) (i : Instr) => PairIssues ⟨op, h⟩ o s → Ends i s (fun t => WritesPair s t ⟨op, h⟩ o)
    claim .nop (.pNop h o) ∧ claim .mov (.pMov h o) ∧ claim .iadd (.pIadd h o) ∧ claim .isub (.pIsub h o) ∧
    claim .imul (.pImul h o) ∧ claim .iaddi (.pIaddi h o) ∧ claim .and (.pAnd h o) ∧ claim .or (.pOr h o) ∧
    claim .xor (.pXor h o) ∧ claim .andn (.pAndn h o) ∧ claim .shl (.pShl h o) ∧ claim .shr (.pShr h o) ∧
    claim .sar (.pSar h o) ∧ claim .imin (.pImin h o) ∧ claim .imax (.pImax h o) ∧ claim .rotr (.pRotr h o) ∧
    claim .fadd (.pFadd h o) ∧ claim .fsub (.pFsub h o) ∧ claim .fmul (.pFmul h o) ∧ claim .fmin (.pFmin h o) ∧
    claim .fmax (.pFmax h o) ∧ claim .hadd2 (.pHadd2 h o) ∧ claim .hmul2 (.pHmul2 h o) ∧ claim .clz (.pClz h o)

/-! ## Control flow -/

/-- 05 R185-R188: branches. BRA takes its target in the slices whose four guards satisfy it; an indirect branch whose targets are aligned
goes there in every slice, else FETCH_ALIGN (0x07) without effect; CALL also writes pc + 8 to its scalar; BRA and BRX pop the loop levels
that exclude the target, CALL and RET none. -/
def Obligations.BranchWordsBranch : Prop :=
  ∀ s : State,
    let pcAt := fun (j : Nat) => ((cw s).slice j).pc
    let bra := fun (any : Bool) (g : Guard) (dist : Int) (j : Nat) =>
      let gs := (sliceLanes j).map ((cw s).guard g)
      if (if any then gs.any id else gs.all id) then some (pcPlus (pcAt j) dist) else none
    let tgt := fun (a : Opnd) (off : Int) (j : Nat) => pcPlus (BitVec.ofNat 64 (op64 s a (lane0 j))) off
    let void := fun (_ : Nat) => EntryBody.void
    (∀ g dist, Issues { pr := [g.p] } s →
      Ends (.braAny g dist) s (fun t => Branches s t true 0 (bra true g dist) void []) ∧
      Ends (.braAll g dist) s (fun t => Branches s t true 0 (bra false g dist) void [])) ∧
    (∀ a off, Issues { ops := [(a, true)] } s → (∀ j ∈ curSlices s, (tgt a off j).toNat % 8 = 0) →
      Ends (.brx a off) s (fun t => Branches s t true 0 (fun j => some (tgt a off j)) void [])) ∧
    (∀ a, Issues { ops := [(a, true)] } s → (∀ j ∈ curSlices s, (tgt a 0 j).toNat % 8 = 0) →
      Ends (.ret a) s (fun t => Branches s t false 0 (fun j => some (tgt a 0 j)) void [])) ∧
    (∀ a off j, Issues { ops := [(a, true)] } s → (curSlices s).find? (fun j => (tgt a off j).toNat % 8 != 0) = some j →
      Faults (.brx a off) s (fltAt 7 (tgt a off j).toNat)) ∧
    (∀ a j, Issues { ops := [(a, true)] } s → (curSlices s).find? (fun j => (tgt a 0 j).toNat % 8 != 0) = some j →
      Faults (.ret a) s (fltAt 7 (tgt a 0 j).toNat)) ∧
    (∀ d dist, Issues { dst := some (⟨.s d, false⟩, 2) } s →
      Ends (.call d dist) s (fun t =>
        Branches s t false 2 (fun j => some (pcPlus (pcAt j) dist)) (fun j => .e64 (List.replicate 4 (pcAt j + 8))) [d] ∧
        ∀ l ∈ curLanes s, Holds t ⟨.s d, false⟩ true false (fun l => (pcAt (l / 4) + 8).toNat) l))

/-- 02 R79: LOOP opens a level in every issuing slice, or passes over the body where the count is 0; a fourth level, or a body that ends
behind that of the enclosing level, raises LOOP_NEST (0x06) without effect. 05 R193: NOP only passes. -/
def Obligations.LoopWordsOpenLevels : Prop :=
  ∀ s : State,
    (∀ a off, Issues { ops := [(a, false)] } s →
      let count := fun (j : Nat) => op32 s a (lane0 j)
      ((∀ j ∈ curSlices s, (loopPush ((cw s).slice j) (count j) off).isSome = true) →
        Ends (.loopOperand a off) s (fun t => FrameBy (fun j x => loopSlice s.cycle (count j) off x) s t [] [] [])) ∧
      ((∃ j ∈ curSlices s, loopPush ((cw s).slice j) (count j) off = none) → Faults (.loopOperand a off) s (flt 6))) ∧
    (∀ n off, Issues {} s →
      ((∀ j ∈ curSlices s, (loopPush ((cw s).slice j) n off).isSome = true) →
        Ends (.loopImmediate n off) s (fun t => FrameBy (fun _ x => loopSlice s.cycle n off x) s t [] [] [])) ∧
      ((∃ j ∈ curSlices s, loopPush ((cw s).slice j) n off = none) → Faults (.loopImmediate n off) s (flt 6))) ∧
    (Issues {} s → Ends .nop s (Passes s))

/-- 05 R192, R189, R194, 02 R84, R85: the other control words. YIELD passes as a switch point, marks its warp, and gives its place to the
oldest warp that waits; REGANG parks with its named set and the core looks for a closed set at once; EXIT ends the slices; RACQ takes its
granules at once where no request waits and the free pool holds them, else parks until its grant, or raises REG_RANGE (0x05) above the
maximum; RREL gives its granules back, or raises REG_UNHELD (0x04) where the warp holds
fewer. -/
def Obligations.SchedulingWordsComplete : Prop :=
  ∀ s : State,
    (Issues {} s → Ends .yield s (fun t => ∃ u, PassesSwitch (updCw s (fun w => { w with yielded := true })) u ∧
      t = match oldestWaiting (coreOf u s.cur.core) with
        | some o => joinActive (leaveActive u s.cur.core s.cur.slot) s.cur.core o
        | none => u)) ∧
    (∀ m, Issues (match m with | .imm _ => {} | .sreg n => { ops := [(.reg (.s n), false)] }) s →
      let named := fun (j : Nat) =>
        (match m with | .imm k => k | .sreg n => (((cw s).slice j).sreg n).toNat % 2 ^ 16) ||| s.cur.mask
      Ends (.regang m) s (fun t => ∃ u, FrameBy (fun j x => { x with st := .park (.regang (named j)), window := [] }) s u [] [] [] ∧
        t = regangRelease u s.cur.core s.cur.slot ((cw s).slice (curLow s)).pc)) ∧
    (Issues {} s → exec .exit s = .next (exitSlices (noteIssue s) s.cur.core s.cur.slot s.cur.mask)) ∧
    (∀ n, Issues {} s →
      let c := coreOf s s.cur.core
      let gs := poolGranules c (cw s).width n
      ((cw s).held + n ≤ 4 → (cw s).held + n ≤ (cw s).extmax →
        (racqWaiters c = [] → gs.length = n →
          Ends (.racq n) s (fun t => PassesSwitch (updCw s (fun w => w.acquire n gs false)) t)) ∧
        (racqWaiters c ≠ [] ∨ gs.length ≠ n → Ends (.racq n) s (fun t => Parks s t (.racq n s.cycle)))) ∧
      (4 < (cw s).held + n ∨ (cw s).extmax < (cw s).held + n → Faults (.racq n) s (flt 5))) ∧
    (∀ n, Issues {} s →
      let h := (cw s).held
      let k := if (cw s).lent ≠ 0 ∨ n = 0 then h else n
      ((cw s).lent ≠ 0 ∨ n ≤ h →
        (∀ b ∈ (cw s).busy, ¬ (b.pending s.cycle = true ∧ 128 + 64 * (h - k) ≤ b.code ∧ b.code < 128 + 64 * h)) →
        Ends (.rrel n) s (fun t => Passes (updCw s (fun w => { w with
          held := h - k, granules := w.granules.take (h - k), releasing := w.releasing ++ w.granules.drop (h - k),
          lent := ((w.granules.take (h - k)).filter (fun g => decide (fileBlocks w.width - 8 ≤ g))).length })) t)) ∧
      ((cw s).lent = 0 → h < n → Faults (.rrel n) s (flt 4)))

/-- 05 R195: TRAP and BKPT take TRAP_INSN (0x11) and BKPT (0x12) with the code, after their slices have passed to the word that control
would go to, which is the saved pc. -/
def Obligations.TrapWordsTakeTrap : Prop :=
  ∀ (s : State) (code : Nat), Issues {} s →
    let passed := updCw (noteIssue s) (fun w => (w.updSlices s.cur.mask (fun _ x => x.endTest x.pc)).regroup s.cur.mask)
    exec (.trap code) s = .next (openFault passed s.cur.core s.cur.slot s.cur.mask (fltAt 0x11 code) false) ∧
    exec (.bkpt code) s = .next (openFault passed s.cur.core s.cur.slot s.cur.mask (fltAt 0x12 code) false)

/-- 01 R43-R47, R49: a REP prefix whose next word is an F word, whose fields it may step, and which ends no open loop, hands the stepped
word of the next repetition to the site, with the note whether a stepped code has left its range, and notes the length of the sequence in
every issuing slice. -/
def Obligations.RepHandsSteppedWord : Prop :=
  ∀ (s u : State) (x : RepArgs) (nw w : Nat) (ok : Bool) (i : Instr) (ud ua ub uc : FieldUse),
    let low := (cw s).slice (curLow s)
    let us := [ud, ua, ub, uc]
    let steps := [x.d, x.a, x.b, x.c]
    fetchWord s (clusterOf s.cur.core) (cw s).ctx (low.pc + 8).toNat 8 = (.ok nw, u) →
    nw / 2 ^ 62 % 4 = 0 → decodeCore nw = .ok i → repFields i = some (ud, ua, ub, uc) →
    x.strayD = 0 → x.strayA = 0 → x.strayB = 0 → x.strayC = 0 →
    (∀ j ∈ curSlices u, ∀ l ∈ ((cw s).slice j).loops.take ((cw s).slice j).depth, l.le ≠ ((cw s).slice j).pc) →
    (∀ k, k < 4 → repFieldOk nw k ((us[k]?).getD .none) ((steps[k]?).getD none) = true) →
    stepWord nw us steps low.repIdx = (w, ok) →
    exec (.rep x) s = .next { updCw u (fun v => v.updSlices u.cur.mask (fun _ y => { y with repLen := x.count + 1 })) with
      cur := { u.cur with word := BitVec.ofNat 64 w, rep := some (x, low.repIdx), outside := !ok } }

/-! ## Memory words -/

/-- 07 R257, R258, R260-R262: a load whose lanes translate puts its access in flight, counted on ic1 (LDS: ic0), by 256-byte line, and
nothing has a new value yet; a misaligned or faulting lane takes the fault of the lowest such lane without effect. LDC reads the argument
area, and lanes beyond it no memory. A load or store of a window waits behind a posting to its tile in the same cycle (notes/assumptions/92). The address is EA = a + sext(b) + offset × size, at 64 bits, or at 32 for LDS and LDC. -/
def Obligations.LoadWordsSendAccess : Prop :=
  ∀ s : State,
    let c := noteIssue s
    let xlat := fun (n : Nat) (addr : Nat → Nat) (lanes : List Nat) =>
      xlatLanes (clusterOf s.cur.core) (cw s).ctx n .read addr lanes c
    let acc := fun (ls : List (Nat × Xlat)) => ls.map (fun q => mkLane q.1 q.2 [] 0 0)
    let traced := fun (v : State) (ls : List (Nat × Xlat)) => traceXlats v (cw s) false (ls.map (·.2))
    (∀ x, Issues (loadUse x true) s →
      let lanes := xlat x.size.bytes (effAddr s x.m x.size.bytes) (loadLanes s x.d)
      (∀ ls u, lanes = (.ok ls, u) →
        let tx := mkTx u x.strong.isSome x.na (.load x.d x.size) (groupLines (x.strong.isSome || x.na) (acc ls))
        SendsLoad (.ld x) s u (traced (counted u 1 tx) ls) 1 tx x.d (sizeRegs x.size) (loadEntry x.d x.size u.nextId)) ∧
      (∀ f u, lanes = (.error f, u) → Faults (.ld x) s f)) ∧
    (∀ x, Issues (loadUse x false) s →
      let lanes := scratchLanes s x.size.bytes (effAddr32 s x.m x.size.bytes) (loadLanes s x.d)
      (∀ ls, lanes = .ok ls →
        let tx := mkTx c false false (.load x.d x.size) (onePart .scratch (acc ls))
        SendsLoad (.lds x) s c (counted c 0 tx) 0 tx x.d (sizeRegs x.size) (loadEntry x.d x.size s.nextId)) ∧
      (∀ f, lanes = .error f → Faults (.lds x) s f)) ∧
    (∀ x, Issues (loadUse x true) s →
      let lanes := windowLanes c x.size.bytes (effAddr s x.m x.size.bytes) (loadLanes s x.d)
      (∀ ls, lanes = .ok ls →
        let tx := mkTx c false false (.load x.d x.size) (placeParts .window (acc ls))
        (tilePosted c ls = false →
          SendsLoad (.ldw x) s c (counted c 1 tx) 1 tx x.d (sizeRegs x.size) (loadEntry x.d x.size s.nextId)) ∧
        (tilePosted c ls = true → Waits (.ldw x) s)) ∧
      (∀ f, lanes = .error f → Faults (.ldw x) s f)) ∧
    (∀ x, Issues (loadUse x false) s →
      let off := effAddr32 s x.m x.size.bytes
      let lanes := xlat x.size.bytes (fun l => (argArea s).1 + off l)
        ((loadLanes s x.d).filter (fun l => decide (off l + x.size.bytes ≤ (argArea s).2)))
      (∀ ls u, lanes = (.ok ls, u) →
        let tx := mkTx u false false (.load x.d x.size) (constParts (acc ls))
        SendsLoad (.ldc x) s u (traced (counted u 1 tx) ls) 1 tx x.d (sizeRegs x.size) (loadEntry x.d x.size u.nextId)) ∧
      (∀ f u, lanes = (.error f, u) → Faults (.ldc x) s f))

/-- 07 R257, R259-R261: a store whose lanes translate puts its access in flight with the bytes it stores, counted on ic5 (STS: ic0); no
byte of memory has changed yet: the performed event changes it. -/
def Obligations.StoreWordsSendAccess : Prop :=
  ∀ s : State,
    let c := noteIssue s
    let acc := fun (x : StoreArgs) (ls : List (Nat × Xlat)) => ls.map (fun q => mkLane q.1 q.2 (storeBytes s x.src x.size q.1) 0 0)
    (∀ x, Issues (storeUse x true) s →
      let lanes := xlatLanes (clusterOf s.cur.core) (cw s).ctx x.size.bytes .write (effAddr s x.m x.size.bytes) (perfLanes s (some x.g)) c
      (∀ ls u, lanes = (.ok ls, u) →
        let tx := mkTx u x.strong.isSome x.na .store (groupLines (x.strong.isSome || x.na) (acc x ls))
        SendsStore (.st x) s u (traceXlats (counted u 5 tx) (cw s) true (ls.map (·.2))) 5 tx) ∧
      (∀ f u, lanes = (.error f, u) → Faults (.st x) s f)) ∧
    (∀ x, Issues (storeUse x false) s →
      let lanes := scratchLanes s x.size.bytes (effAddr32 s x.m x.size.bytes) (perfLanes s (some x.g))
      (∀ ls, lanes = .ok ls →
        let tx := mkTx c false false .store (onePart .scratch (acc x ls))
        SendsStore (.sts x) s c (counted c 0 tx) 0 tx) ∧
      (∀ f, lanes = .error f → Faults (.sts x) s f)) ∧
    (∀ x, Issues (storeUse x true) s →
      let lanes := windowLanes c x.size.bytes (effAddr s x.m x.size.bytes) (perfLanes s (some x.g))
      (∀ ls, lanes = .ok ls →
        let tx := mkTx c false false .store (placeParts .window (acc x ls))
        (tilePosted c ls = false → SendsStore (.stw x) s c (counted c 5 tx) 5 tx) ∧
        (tilePosted c ls = true → Waits (.stw x) s)) ∧
      (∀ f, lanes = .error f → Faults (.stw x) s f))

/-- 07 R251, R265: an atomic whose lanes translate goes to the home, counted on ic1, or to the scratchpad, counted on ic0. -/
def Obligations.AtomicWordsSendAccess : Prop :=
  ∀ (s : State) (x : AtomArgs),
    let c := noteIssue s
    let n := if x.wide then 8 else 4
    let addr := (⟨x.a, x.b, 0⟩ : MemOpnd)
    let acc := fun (op : AtomOp) (ls : List (Nat × Xlat)) =>
      ls.map (fun q => mkLane q.1 q.2 [] (atomVals s op x.c x.wide q.1).1 (atomVals s op x.c x.wide q.1).2)
    let home := fun (op : AtomOp) (i : Instr) => Issues (atomUse x op true) s →
      let lanes := xlatLanes (clusterOf s.cur.core) (cw s).ctx n .rmw (effAddr s addr n) (perfLanes s (some x.g)) c
      (∀ ls u, lanes = (.ok ls, u) →
        let tx := mkTx u true false (.atom op x.d x.wide x.sgn) (groupLines true (acc op ls))
        SendsLoad i s u (traceVolatile (counted u 1 tx) (cw s)) 1 tx x.d (if x.wide then 2 else 1) (pendEntry x.d.reg x.wide u.nextId)) ∧
      (∀ f u, lanes = (.error f, u) → Faults i s f)
    let pad := fun (op : AtomOp) (i : Instr) => Issues (atomUse x op false) s →
      let lanes := scratchLanes s n (effAddr32 s addr n) (perfLanes s (some x.g))
      (∀ ls, lanes = .ok ls →
        let tx := mkTx c true false (.atom op x.d x.wide x.sgn) (onePart .scratch (acc op ls))
        SendsLoad i s c (counted c 0 tx) 0 tx x.d (if x.wide then 2 else 1) (pendEntry x.d.reg x.wide s.nextId)) ∧
      (∀ f, lanes = .error f → Faults i s f)
    home .add (.atomAdd x) ∧ home .min (.atomMin x) ∧ home .max (.atomMax x) ∧ home .and (.atomAnd x) ∧ home .or (.atomOr x) ∧
    home .xor (.atomXor x) ∧ home .exch (.atomExch x) ∧ home .cas (.atomCas x) ∧ home .fadd (.atomFadd x) ∧
    pad .add (.atomsAdd x) ∧ pad .min (.atomsMin x) ∧ pad .max (.atomsMax x) ∧ pad .and (.atomsAnd x) ∧ pad .or (.atomsOr x) ∧
    pad .xor (.atomsXor x) ∧ pad .exch (.atomsExch x) ∧ pad .cas (.atomsCas x) ∧ pad .fadd (.atomsFadd x)

/-- 07 R263, R264: PREF fetches, or is dropped where it would fault, where a page is not cached and where the table is full; CFLSH puts
its lines in flight, counted on ic5; CINV drops the clean sectors of its lines, after the warp's earlier accesses to them (the wait is
the model's reading, notes/assumptions/27) and while the table has room for its lines, and no byte of memory changes. -/
def Obligations.CacheWordsComplete : Prop :=
  ∀ (s : State) (x : CacheArgs), Issues (cacheUse x) s →
    let c := noteIssue s
    let lanes := xlatLanes (clusterOf s.cur.core) (cw s).ctx 1 .read (effAddr s x.m 1) (perfLanes s none) c
    (∀ f u, lanes = (.error f, u) →
      Ends (.pref x) s (Passes c) ∧ Faults (.cflsh x) s f ∧ Faults (.cinv x) s f) ∧
    (∀ ls u, lanes = (.ok ls, u) →
      (256 ≤ tableUsed s s.cur.core ∨ (∃ q ∈ ls, q.2.nc = true ∨ inDevice q.2.pa = false) → Ends (.pref x) s (Passes c)) ∧
      (tableUsed s s.cur.core < 256 → (∀ q ∈ ls, q.2.nc = false ∧ inDevice q.2.pa = true) →
        Ends (.pref x) s (Passes (ls.foldl (fun v q =>
          if x.opt then (homeRead v q.2.key (q.2.pa / 64 * 64) 64).2
          else (cacheRead v (clusterOf v.cur.core) (cw v).ctx q.2.key (q.2.pa / 64 * 64) 64).2) u))) ∧
      (let tx := mkTx u false false (.cflsh x.opt) (flushParts (ls.map (fun q => mkLane q.1 q.2 [] 0 0)))
       SendsStore (.cflsh x) s u (counted u 5 tx) 5 tx) ∧
      (let busy := (∃ q ∈ ls, lineBusy c (q.2.pa / 256) = true) ∨
          256 < tableUsed s s.cur.core + ((ls.map (fun q => q.2.pa / 256)).eraseDups).length
       (¬ busy → Ends (.cinv x) s (fun t => Quiet s t ∧ Passes (ls.foldl (fun v q =>
          if q.2.nc || !inDevice q.2.pa then v else dropSectors v (clusterOf v.cur.core) (q.2.pa / 256)) u) t)) ∧
       (busy → Waits (.cinv x) s)))

/-- 07 R266, R267, 15 R456: FENCE, but at warp scope, and RFENCE put a fence in flight and complete; WAITC passes when its counters are at
most the threshold, with an acquire over ic2 (07 R247), and else parks. No value changes. -/
def Obligations.FenceAndWaitcWordsComplete : Prop :=
  ∀ s : State,
    let c := noteIssue s
    let fence := fun (k : TxKind) => putFence c s.cur.core s.cur.slot 0xFFFF k
    (∀ scope kind, Issues {} s → Ends (.fence scope kind) s (fun t =>
      Quiet s t ∧ Passes (if scope = .warp then c else fence (.fence scope kind)) t)) ∧
    (Issues {} s → Ends .rfence s (fun t => Quiet s t ∧ Passes (fence .rfence) t)) ∧
    (∀ mask th, Issues { ops := match th with | .imm _ => [] | .opnd a => [(a, false)] } s →
      let thr := match th with | .imm n => n | .opnd a => op32 s a (lane0 (curLow s))
      ((∀ i, i < 6 → bit mask i = true → (cw s).ic i ≤ thr) → Ends (.waitc mask th) s (fun t =>
        Quiet s t ∧ PassesSwitch (if bit mask 2 then dropClean c (clusterOf s.cur.core) (cw s).ctx else c) t)) ∧
      ((∃ i, i < 6 ∧ bit mask i = true ∧ thr < (cw s).ic i) → Ends (.waitc mask th) s (fun t =>
        Quiet s t ∧ Parks c t (.waitc mask thr))))

/-- 15 R450, R453-R455: the remote words group their lanes by route and line into packets; a misaligned address or flag, or an address
above 56 bits, takes the fault of its lowest lane. -/
def Obligations.RemoteWordsSendPackets : Prop :=
  ∀ s : State,
    let ok := fun (rt : Nat → Nat) (lanes : List Nat) => lanes.filter (fun l => !refusedHere s (rt l))
    let no := fun (rt : Nat → Nat) (lanes : List Nat) => lanes.filter (fun l => refusedHere s (rt l))
    (∀ x, Issues { ops := [(x.a, true), (x.b, false)], dst := some (x.d, sizeRegs x.size) } s →
      let n := x.size.bytes
      let va := remoteAddr s x.a x.off n
      let line := fun l => va l / 256 * 256
      let lanes := loadLanes s x.d
      let good := remoteGroups (op32 s x.b) line (ok (op32 s x.b) lanes)
      (∀ f, remoteFault n va none lanes = some f → Faults (.rld x) s f) ∧
      (remoteFault n va none lanes = none →
        SendsRemote (.rld x) s 3 good.length (some x.d) x.size none good (remoteGroups (op32 s x.b) line (no (op32 s x.b) lanes))
          (fun v => good.foldl (fun v g => (sendReq v g.dev 1 (reqHdr g.handle (sizeCode x.size) g.line)
            (toBytes 32 (lineMask n va g.lanes)) (.word s.nextId (laneOffs va g.lanes))).2) v)
          (fun v => issuePend v x.d (sizeRegs x.size) (loadEntry x.d x.size s.nextId) s.nextId))) ∧
    (∀ x, Issues { ops := [(x.a, true), (x.b, false)], vr := regCodes x.src (sizeRegs x.size), pr := [x.g.p] } s →
      let n := x.size.bytes
      let va := remoteAddr s x.a x.off n
      let line := fun l => va l / 256 * 256
      let lanes := perfLanes s (some x.g)
      let good := remoteGroups (op32 s x.b) line (ok (op32 s x.b) lanes)
      (∀ f, remoteFault n va none lanes = some f → Faults (.rst x) s f) ∧
      (remoteFault n va none lanes = none →
        SendsRemote (.rst x) s 5 good.length none x.size none good (remoteGroups (op32 s x.b) line (no (op32 s x.b) lanes))
          (fun v => good.foldl (fun v g =>
            let im := storeImage n va (storeBytes s x.src x.size) g.lanes v
            (sendReq im.2 g.dev 2 (reqHdr g.handle (sizeCode x.size) g.line) im.1 (.word s.nextId (laneOffs va g.lanes))).2) v)
          retireVoid)) ∧
    (∀ x, Issues { ops := [(x.a, true), (x.b, false), (x.c, true)], vr := regCodes x.src (sizeRegs x.size), pr := [x.g.p] } s →
      let n := x.size.bytes
      let va := remoteAddr s x.a 0 n
      let line := fun l => va l / 256 * 256
      let lanes := perfLanes s (some x.g)
      let good := remoteGroups (op32 s x.b) line (ok (op32 s x.b) lanes)
      let flags := remoteGroups (op32 s x.b) (op64 s x.c) (ok (op32 s x.b) lanes)
      let of := fun (r : Nat × Nat) (gs : List RGroup) => gs.filter (fun g => (g.dev, g.handle) == r)
      let count := (routesOf good).foldl (fun k r =>
        k + if (of r good).length = 1 ∧ (of r flags).length = 1 then 1 else (of r good).length + (of r flags).length) 0
      (∀ f, remoteFault n va (some (op64 s x.c)) lanes = some f → Faults (.rstf x) s f) ∧
      (remoteFault n va (some (op64 s x.c)) lanes = none →
        SendsRemote (.rstf x) s 5 count none x.size none good (remoteGroups (op32 s x.b) line (no (op32 s x.b) lanes))
          (fun v => (routesOf good).foldl (fun v r =>
            sendRoute s.nextId (sizeCode x.size) n va (storeBytes s x.src x.size) (of r good) (of r flags) v) v)
          retireVoid)) ∧
    (∀ x : RatomArgs,
      let claim := fun (op : AtomOp) (i : Instr) =>
        Issues { ops := [(x.a, true), (x.b, false)] ++ (if op = .cas then [] else [(x.c, x.wide)])
                 vr := (match op, x.c with | .cas, .reg r => regCodes r (if x.wide then 4 else 2) | _, _ => []) ++
                   (if x.d.nowb then [] else regCodes x.d.reg (if x.wide then 2 else 1))
                 pr := [x.g.p], dst := some (x.d, if x.wide then 2 else 1) } s →
        let n := if x.wide then 8 else 4
        let va := remoteAddr s x.a 0 n
        let line := fun l => va l / 256 * 256
        let lanes := perfLanes s (some x.g)
        let good := remoteGroups (op32 s x.b) line (ok (op32 s x.b) lanes)
        (∀ f, remoteFault n va none lanes = some f → Faults i s f) ∧
        (remoteFault n va none lanes = none →
          SendsRemote i s 3 good.length (some x.d) (if x.wide then .b64 else .b32) (some (op, x.wide)) good
            (remoteGroups (op32 s x.b) line (no (op32 s x.b) lanes))
            (fun v => good.foldl (fun v g =>
              (sendReq v g.dev 4 (reqHdr g.handle (atomCode op + b2n x.sgn * 16 + b2n x.wide * 32) g.line)
                (ratomPayload op n va (atomVals s op x.c x.wide) g.lanes) (.word s.nextId (laneOffs va g.lanes))).2) v)
            (fun v => issuePend v x.d (if x.wide then 2 else 1) (pendEntry x.d.reg x.wide s.nextId) s.nextId))
      claim .add (.ratomAdd x) ∧ claim .min (.ratomMin x) ∧ claim .max (.ratomMax x) ∧ claim .and (.ratomAnd x) ∧
      claim .or (.ratomOr x) ∧ claim .xor (.ratomXor x) ∧ claim .exch (.ratomExch x) ∧ claim .cas (.ratomCas x) ∧
      claim .fadd (.ratomFadd x))

/-! ## Copies, barriers, waits -/

/-- 09 R293-R296, R311: a moving copy word admits one copy for each issuing slice whose descriptor keeps the shape, with the slice's
descriptor, the word's flags and the handle that the slice's lanes take; the destination takes all ones where the slice's descriptor does
not keep the shape. The other slots of the core keep their copies, and no byte moves yet. An unreachable COPYW target raises COPYW_TARGET
(0x0C); without free slots, or room on ic2, the word waits, and so does a COPYF behind one of a higher core in its cycle (the order of
the stream positions; notes/assumptions/92). -/
def Obligations.CopyWordsAdmitCopies : Prop :=
  ∀ (s : State) (x : CopyArgs),
    let c := noteIssue s
    let d := fun (j k : Nat) => (descReg s x j k).toNat
    let claim := fun (op : CopyOp) (i : Instr) => Issues (copyUse x) s →
      let ok := (curSlices s).filter (fun j => shapeOk op x.kind x.dz (d j 0) (d j 1) (d j 2) (d j 3) (copyC s x j))
      let slots := (freeCopySlots (coreOf c s.cur.core)).take ok.length
      let away := op = .copyw ∧ ∃ j ∈ ok, targetOk c (cw s).ctx (d j 1) (d j 2) = false
      let room := ok.length ≤ slots.length ∧ (x.kind = .ic → (cw s).ic 2 + ok.length ≤ 63) ∧ (op = .copyf → fillBehind s = false)
      let r := admitAll op x s.nextId (ok.zip slots) c
      (away → Faults i s (flt 0xC)) ∧
      (¬ away → ¬ room → Waits i s) ∧
      (¬ away → room → Ends i s (fun t => t.mem = s.mem ∧ WritesReg r.2 t x.d false false 4 (fun l =>
          match r.1.find? (fun h => h.1 == l / 4) with | some h => h.2 | none => 0xFFFFFFFF) ∧
        (∀ p ∈ ok.zip slots, ∃ y, mget (coreOf t s.cur.core).copies p.2 = some y ∧ Admitted s op x s.nextId p.1 y ∧
          r.1.find? (fun h => h.1 == p.1) = some (p.1, copyHandle ⟨s.cur.core, p.2⟩ y.serial)) ∧
        (∀ n, n ∉ slots → mget (coreOf t s.cur.core).copies n = mget (coreOf s s.cur.core).copies n)))
    claim .copy (.copy x) ∧ claim .copy2 (.copy2 x) ∧ claim .copyf (.copyf x) ∧ claim .copyw (.copyw x) ∧ claim .copyr (.copyr x)

/-- 09 R317, R318: CPROG reads the progress of a copy, 0 of none; CKILL stops it: status 2 of none, 1 of one that has ended, 0 once no
chunk is in flight. -/
def Obligations.CopyProgressWordsComplete : Prop :=
  ∀ (s : State) (d : Dst) (a : Opnd),
    let c := noteIssue s
    let named := copyByHandle s (cw s).ctx (lowOp s false a)
    (Issues { ops := [(a, false)], dst := some (d, 2) } s →
      Ends (.cprog d a) s (fun t => WritesReg s t d true false 2 (fun _ => match named with | some (_, x) => x.prog | none => 0))) ∧
    (Issues { ops := [(a, false)], dst := some (d, 1) } s →
      (named = none → Ends (.ckill d a) s (fun t => WritesReg s t d false false 2 (fun _ => 2))) ∧
      (∀ k x, named = some (k, x) →
        let u := updCopy c k (fun x => { x with failing := true, cause := 1, killed := some s.cycle })
        let r := launchTx u none { (mkTx u false false (.reply d u.cur.mask) []) with launch := 0 }
        (x.over = true → Ends (.ckill d a) s (fun t => WritesReg s t d false false 2 (fun _ => 1))) ∧
        (x.over = false → x.flight = [] → Ends (.ckill d a) s (fun t => WritesReg (endCopy u k false) t d false false 2 (fun _ => 0))) ∧
        (x.over = false → x.flight ≠ [] → x.killer.isSome = true → Waits (.ckill d a) s) ∧
        (x.over = false → x.flight ≠ [] → x.killer = none → Ends (.ckill d a) s (fun t =>
          Frame (updCopy r.2 k (fun x => { x with killer := some r.1 })) t [] [] [] (fun _ => [⟨s.cycle, pendEntry d.reg false r.1⟩])))))

/-- 08 R270-R278: an arrival at a barrier waits for the earlier accesses of its slices; then BAR passes where it completes the
generation and parks else, BARA and CBAR take the generation as token, and BARW passes once its token's generation has completed. -/
def Obligations.BarrierWordsComplete : Prop :=
  ∀ s : State,
    let c := noteIssue s
    let blk := fun (id : Nat) => BarrierRef.block (cw s).block id
    let clu := fun (id : Nat) => BarrierRef.clu (curCb s) id
    (∀ id n, Issues { ops := countOps n } s →
      let r := arriveHere c (blk id) (barCount s n 16)
      (released c = false → Waits (.bar id n) s) ∧
      (released c = true → (barOf r.2 (blk id)).gen.toNat ≠ r.1 → Ends (.bar id n) s (PassesSwitch r.2)) ∧
      (released c = true → (barOf r.2 (blk id)).gen.toNat = r.1 → Ends (.bar id n) s (fun t => Parks r.2 t (.barrier (blk id) r.1)))) ∧
    (∀ d id n, Issues { ops := countOps n, dst := some (d, 1) } s →
      let r := arriveHere c (blk id) (barCount s n 16)
      let q := arriveHere c (clu id) (barCount s n 64)
      (released c = false → Waits (.bara d id n) s ∧ Waits (.cbar d id n) s) ∧
      (released c = true →
        Ends (.bara d id n) s (fun t => WritesReg r.2 t d false false 2 (fun _ => r.1)) ∧
        Ends (.cbar d id n) s (fun t => WritesReg q.2 t d false false 2 (fun _ => q.1)))) ∧
    (∀ a id inCb, Issues { ops := [(a, false)] } s →
      let b := if inCb then clu id else blk id
      let token := op32 s a (lane0 (curLow s))
      ((barOf s b).gen.toNat ≠ token → Ends (.barw a id inCb) s (fun t => Quiet s t ∧ PassesSwitch c t)) ∧
      ((barOf s b).gen.toNat = token → Ends (.barw a id inCb) s (fun t => Quiet s t ∧ Parks c t (.barrier b token))))

/-- 08 R280, R282-R286: TDEC sends its decrement behind a release at device scope; TWAIT, FLGW and BKW park with what they wait for. FLGW
raises its faults in the order of 07 R257; that an address in a window raises WINDOW_RANGE (0x10) after the page checks is the model's
choice (notes/assumptions/16). -/
def Obligations.WaitWordsComplete : Prop :=
  ∀ s : State,
    let c := noteIssue s
    let cl := clusterOf s.cur.core
    let low := fun (wide : Bool) (o : Opnd) => lowOp s wide o
    (∀ a b, Issues { ops := [(a, false), (b, false)] } s →
      (releasedAll c = false → Waits (.tdec a b) s) ∧
      (releasedAll c = true →
        let v := traceVolatile (cleanCtx c cl (cw s).ctx) (cw s)
        Ends (.tdec a b) s (Passes (sendDecrOf v (cw v).uid (cw v).ctx (low false a) (low false b))))) ∧
    (∀ p a b k, Issues { ops := [(a, false), (b, false), (k, false)], pd := some ⟨p, false⟩ } s →
      Ends (.twait p a b k) s (fun t => Quiet s t ∧
        Parks (traceVolatile c (cw s)) t (.twait p (low false a) (low false b) (low false k) s.cycle false))) ∧
    (∀ p a k, Issues { ops := [(a, false), (k, false)], pd := some ⟨p, false⟩ } s →
      Ends (.bkw p a k) s (fun t => Quiet s t ∧
        Parks (traceVolatile c (cw s)) t (.bkw p (low false a) (low false k) s.cycle none))) ∧
    (∀ x, Issues { ops := [(x.a, true), (x.b, x.wide), (x.c, false)], pd := some ⟨x.p, false⟩ } s →
      let ea := low true x.a
      let aligned := ea % (if x.wide then 8 else 4) = 0
      let page := translate c cl (cw s).ctx ea .read
      (¬ aligned → Faults (.flgw x) s (fltAt 7 ea)) ∧
      (aligned → ∀ f u, page = (.error f, u) → Faults (.flgw x) s (fltPage ea f)) ∧
      (aligned → ∀ xl u, page = (.ok xl, u) →
        let v := lineEvict u cl (resolve u (cw s).ctx xl false / 256)
        (inWindow ea = true → Faults (.flgw x) s (fltAt 0x10 ea)) ∧
        (inWindow ea = false → strongBehind c (cw s).uid (xlatLines xl) = true → Waits (.flgw x) s) ∧
        (inWindow ea = false → strongBehind c (cw s).uid (xlatLines xl) = false → Ends (.flgw x) s (fun t =>
          Parks (traceVolatile v (cw v)) t
            (.flgw x.p xl (BitVec.ofNat 64 (low x.wide x.b)) x.cc x.wide x.dev (low false x.c) s.cycle none)))))

/-- 08 R290, 07 R241: the statuses of BKARM in their order: 4 no such bucket, a fault of the descriptor, 3 a bad descriptor, a fault of the
range, 2 no contiguous run, 1 armed already, 0 armed; the word waits for the warp's earlier accesses that its load of the descriptor
follows. BKARM.off disarms. -/
def Obligations.BucketWordsComplete : Prop :=
  ∀ (s : State) (d : Dst) (a b : Opnd),
    let c := traceVolatile (noteIssue s) (cw s)
    let n := lowOp s false a
    let va := lowOp s true b
    let cl := clusterOf s.cur.core
    (Issues { ops := [(a, false), (b, true)], dst := some (d, 1) } s →
      let status := fun (u : State) (k : Nat) => Ends (.bkarm d a b) s (fun t => WritesReg u t d false false 2 (fun _ => k))
      (holdsBucket c n = false → status c 4) ∧
      (holdsBucket c n = true → va % 8 ≠ 0 → Faults (.bkarm d a b) s (fltAt 7 va)) ∧
      (holdsBucket c n = true → va % 8 = 0 →
        let units := xlatRange cl (cw s).ctx .read ((pieces va 32).map (·.1)) c
        (∀ f u, units = (.error f, u) → Faults (.bkarm d a b) s f) ∧
        (∀ ds u, units = (.ok ds, u) → unitsWait u d ds = true → Waits (.bkarm d a b) s) ∧
        (∀ ds w, units = (.ok ds, w) → unitsWait w d ds = false →
          let bs := (loadUnits cl (cw w).ctx ds w).1
          let u := (loadUnits cl (cw w).ctx ds w).2
          let base := fld bs 0 8
          let len := fld bs 8 4
          let total := fld bs 16 8
          let bad := fld bs 12 4 ≠ 0 ∨ fld bs 28 4 ≠ 0 ∨ len = 0 ∨ len % 256 ≠ 0 ∨ base % 256 ≠ 0 ∨ total = 0 ∨ 2 ^ 40 < total
          (bad → status u 3) ∧
          (¬ bad →
            (∀ f v, xlatRange cl (cw u).ctx .write (pagesOf base len) u = (.error f, v) → Faults (.bkarm d a b) s f) ∧
            (∀ ys v, xlatRange cl (cw u).ctx .write (pagesOf base len) u = (.ok ys, v) →
              (oneRun ys base len = false → status v 2) ∧
              (oneRun ys base len = true → (mget v.buckets n).isSome = true → status v 1) ∧
              (oneRun ys base len = true → mget v.buckets n = none →
                status { v with buckets := mset v.buckets n ⟨(cw v).ctx, (match ys with | y :: _ => y.2.pa | [] => 0), len, total, 0,
                  fld bs 24 4⟩ } 0)))))) ∧
    (Issues { ops := [(a, false)], dst := some (d, 1) } s →
      (holdsBucket c n = false → Ends (.bkarmOff d a) s (fun t => WritesReg c t d false false 2 (fun _ => 4))) ∧
      (holdsBucket c n = true → Ends (.bkarmOff d a) s (fun t =>
        WritesReg { c with buckets := mdel c.buckets n } t d false false 2 (fun _ => 0))))

/-! ## Matrix and sketch words -/

/-- 10 R322, R326, R344, R346, R349: HARN writes its harness; a pass word is a release and parks its slices at the latch with the
descriptor each read, where the engine tests the latch; MLUT posts its pass into a free entry of the reservation table, in the
order of the postings of a cycle, and takes its ticket; MPROG reads an entry, and MPROG.w, firmware's, also sets the progress of a stopped one. -/
def Obligations.PassWordsComplete : Prop :=
  ∀ s : State,
    let c := noteIssue s
    let cl := clusterOf s.cur.core
    (∀ n a, Issues { ops := [(a, true)], gated := true } s →
      Ends (.harn n a) s (fun t => Quiet s t ∧
        Passes (updClust c cl (fun k => { k with harness := mput 0 k.harness n (BitVec.ofNat 64 (lowOp s true a)) })) t)) ∧
    (∀ x : PassArgs, Issues { ops := [(x.a, true)], dst := some (x.d, 1), gated := true } s →
      let at_ := fun (j : Nat) => WaitObj.rendezvous x.n s.cur.word (BitVec.ofNat 64 (op64 s x.a (lane0 j)))
      let parks := fun (i : Instr) => ∃ u, FrameBy (fun j y => { y with st := .park (at_ j), window := [] }) c u [] [] [] ∧ Quiet s u ∧
        exec i s = .next (latchTest u s.cur.core s.cur.slot x.n)
      (released c = false → Waits (.mpass x) s ∧ Waits (.mspass x) s) ∧
      (released c = true → parks (.mpass x) ∧ parks (.mspass x))) ∧
    (∀ x : LutArgs, Issues { ops := [(x.a, true)], dst := some (x.d, 1), gated := true } s →
      let desc := lowOp s true x.a
      (descBad false desc = true → Faults (.mlut x) s { flt 0xD with cause := 6 }) ∧
      (descBad false desc = false → freeEntry (clustOf s cl) = none → Waits (.mlut x) s) ∧
      (∀ e, descBad false desc = false → freeEntry (clustOf s cl) = some e → postBehind s cl (64 + s.cur.core) = true → Waits (.mlut x) s) ∧
      (∀ e, descBad false desc = false → freeEntry (clustOf s cl) = some e → postBehind s cl (64 + s.cur.core) = false →
        let r := postPass c cl e (64 + s.cur.core) ⟨false, true, x.fmt, x.ka, x.kb, x.tra, false⟩ desc [((cw s).uid, s.cur.core, s.cur.slot)]
        Ends (.mlut x) s (fun t => t.mem = s.mem ∧ WritesReg r.2 t x.d false false 24 (fun _ => r.1)))) ∧
    (∀ d a, Issues { ops := [(a, false)], dst := some (d, 2), gated := true } s →
      Ends (.mprog d a) s (fun t => WritesReg s t d true false 24 (fun _ => mprogVal s cl (lowOp s false a)))) ∧
    (∀ d a b, Issues { ops := [(a, false), (b, true)], dst := some (d, 2), gated := true, fw := true } s →
      let k := lowOp s false a
      Ends (.mprogW d a b) s (fun t => t.mem = s.mem ∧ WritesReg (updClust c cl (fun y => { y with
          passes := madj y.passes (k % 16) (fun p =>
            if p.ticket.toNat = k ∧ p.st = .stopped then { p with kdone := bits (lowOp s true b) 48 3 } else p) }))
        t d true false 24 (fun _ => mprogVal s cl k)))

/-- 10 R334, R347, R348: a tile instruction that reaches the engine in a cycle in which a pass was posted does so in a later one; one that
is not first in the order of its slots enters it and waits; first in it, it leaves it and acts as one event: ACCRD reads an accumulator element per lane, ACCWR writes one, ACCZ clears a slot, or a pair, and sets its kind. A cb
beyond the tile is a reserved encoding (0x02). -/
def Obligations.TileWordsActInOrder : Prop :=
  ∀ s : State,
    let cl := clusterOf s.cur.core
    let c := tileLeave (noteIssue s)
    let early := tilePlace s = none ∧ postedNow s cl = true
    let idx := fun (x : AccArgs) (l : Nat) => x.row * 128 + x.cb * (cw s).width + l
    (∀ x : AccArgs, Issues { dst := some (⟨.v x.v, false⟩, 1), gated := true } s →
      (128 / (cw s).width ≤ x.cb → Faults (.accrd x) s (flt 2)) ∧
      (x.cb < 128 / (cw s).width → early → Waits (.accrd x) s) ∧
      (x.cb < 128 / (cw s).width → ¬ early → tileTurn s [x.t] = false → exec (.accrd x) s = .next (tileEnter s [x.t])) ∧
      (x.cb < 128 / (cw s).width → ¬ early → tileTurn s [x.t] = true → Ends (.accrd x) s (fun t =>
        t.mem = s.mem ∧ WritesReg c t ⟨.v x.v, false⟩ false false 8 (fun l => accVal (clustOf c cl) x (idx x l))))) ∧
    (∀ x : AccArgs, Issues { vr := [x.v], gated := true } s →
      let put := fun (k : Cluster) (l : Nat) =>
        if accRaw k x then accWrite k x.t (idx x l) ((cw s).vreg x.v l)
        else put48 k x.t (idx x l) (accPut (accScale k x.t) ((cw s).vreg x.v l).toNat)
      (128 / (cw s).width ≤ x.cb → Faults (.accwr x) s (flt 2)) ∧
      (x.cb < 128 / (cw s).width → early → Waits (.accwr x) s) ∧
      (x.cb < 128 / (cw s).width → ¬ early → tileTurn s [x.t] = false → exec (.accwr x) s = .next (tileEnter s [x.t])) ∧
      (x.cb < 128 / (cw s).width → ¬ early → tileTurn s [x.t] = true → Ends (.accwr x) s (fun t =>
        Quiet s t ∧ Passes (updClust c cl (fun k => (curLanes s).foldl put k)) t))) ∧
    (∀ kind k, Issues { gated := true } s →
      let slots := if kind = .f32 then [k] else [k, k + 1]
      (early → Waits (.accz kind k) s) ∧
      (¬ early → tileTurn s slots = false → exec (.accz kind k) s = .next (tileEnter s slots)) ∧
      (¬ early → tileTurn s slots = true → Ends (.accz kind k) s (fun t => Quiet s t ∧
        Passes (updClust c cl (fun y => setKinds { y with acc := y.acc.filter (fun e => !slots.contains (e.1 / 16384)) }
          (match kind with | .f32 => .f32 | .i48 => .i48 | .b48 => .b48) k)) t)))

/-- 11 R359, R362, R372-R374: a sketch word whose descriptors pass the checks goes to its NMU with its counter events, one for each row of
each lane's key, or for each counter of the sketch, counted on ic4; one that does not takes the fault
of the checks, SKETCH_MISMATCH (0x0F) or that of a page. -/
def Obligations.SketchWordsSendToNmu : Prop :=
  ∀ s : State,
    let c := noteIssue s
    let sent := fun (u : State) (tx : Tx) => traceVolatile (counted u 4 tx) (cw s)
    (∀ x : SkupdArgs, Issues { ops := groupOps x.a ++ [(x.b, false), (x.c, x.k64)], gated := true } s →
      (∀ f u, checkAll x.a .rmw (curSlices s) c = (.error f, u) → Faults (.skupd x) s f) ∧
      (∀ ds u, checkAll x.a .rmw (curSlices s) c = (.ok ds, u) →
        let tx := sketchTx u (.skupd (wordVa s)) ((perfLanes s none).flatMap (fun l =>
          updOps ds l (keyOf s x.k64 x.c l) (BitVec.ofNat 32 (opF s x.b l))))
        SendsStore (.skupd x) s u (sent u tx) 4 tx)) ∧
    (∀ x : SkqryArgs, Issues { ops := groupOps x.a ++ [(x.c, x.k64)], dst := some (x.d, 1), gated := true } s →
      (∀ f u, checkAll x.a .read (curSlices s) c = (.error f, u) → Faults (.skqry x) s f) ∧
      (∀ ds u, checkAll x.a .read (curSlices s) c = (.ok ds, u) →
        let tx := sketchTx u (.skqry x.d ((perfLanes s none).map (fun l => (l, quantumOf ds l))) (wordVa s))
          ((perfLanes s none).flatMap (fun l => qryOps ds l (keyOf s x.k64 x.c l)))
        SendsLoad (.skqry x) s u (sent u tx) 4 tx x.d 1 (pendEntry x.d.reg false u.nextId))) ∧
    (∀ a b, Issues { ops := groupOps a ++ groupOps b, gated := true } s →
      (∀ f u, checkPair a b (curLow s) c = (.error f, u) → Faults (.skadd a b) s f) ∧
      (∀ x y u, checkPair a b (curLow s) c = (.ok (x, y), u) →
        let tx := sketchTx u (.skadd (wordVa s)) (addOps x y)
        SendsStore (.skadd a b) s u (sent u tx) 4 tx)) ∧
    (∀ a, Issues { ops := groupOps a, gated := true } s →
      (∀ f u, checkOne a .rmw (curLow s) c = (.error f, u) → Faults (.skclr a) s f) ∧
      (∀ x u, checkOne a .rmw (curLow s) c = (.ok x, u) →
        let tx := sketchTx u (.skclr (wordVa s)) (clrOps x)
        SendsStore (.skclr a) s u (sent u tx) 4 tx))

/-! ## Launch and system words -/

/-- 12 R398, R399, 13 R405: LNCH takes its packet behind a release at device scope and answers 3 (no kind), 2 (no queue of the context that
takes packets), 1 (full) or 0 with the packet appended; RELN reads its header behind such a release; where it holds no traced kernel that
would be accepted the answer is 0xFFFFFFFF, otherwise the relaunch is submitted and the destination awaits the count. A misaligned
address or an untranslated page faults. -/
def Obligations.LaunchWordsSubmit : Prop :=
  (∀ (s : State) (d : Dst) (a b : Opnd), Issues { ops := [(a, true), (b, false)], dst := some (d, 1) } s →
     let p := lowOp s true a
     let q := lowOp s false b
     let c := noteIssue s
     let v := traceVolatile (releaseDev c) (cw s)
     let cl := clusterOf v.cur.core
     let status := fun (u : State) (k : Nat) => Ends (.lnch d a b) s (fun t => WritesReg u t d false false 2 (fun _ => k))
     (p % 64 ≠ 0 → Faults (.lnch d a b) s (fltAt 7 p)) ∧
     (p % 64 = 0 → releasedAll c = false → Waits (.lnch d a b) s) ∧
     (p % 64 = 0 → releasedAll c = true →
       (∀ f u, xlatRange cl (cw v).ctx .read (pagesOf p 64) v = (.error f, u) → Faults (.lnch d a b) s f) ∧
       (∀ xs w, xlatRange cl (cw v).ctx .read (pagesOf p 64) v = (.ok xs, w) →
         let pkt := (readVa w cl (cw v).ctx p 64).1.toOption.getD []
         let u := (readVa w cl (cw v).ctx p 64).2
         let takes := ∃ x, mget u.queues q = some x ∧ x.desc.context = (cw v).ctx ∧ x.takes = true
         (fld pkt 0 1 ≠ 1 ∧ fld pkt 0 1 ≠ 2 → status u 3) ∧
         (fld pkt 0 1 = 1 ∨ fld pkt 0 1 = 2 →
           (¬ takes → status u 2) ∧
           (∀ x, mget u.queues q = some x → x.desc.context = (cw v).ctx → x.takes = true →
             (x.full = true → status u 1) ∧ (x.full = false → status (appendInline u q x pkt) 0)))))) ∧
  (∀ (s : State) (x : RelnArgs), Issues { ops := relnOps x, dst := some (x.d, 1) } s →
     let tb := lowOp s true x.a
     let w := if x.kind = .none then 0 else lowOp s true x.b
     let c := noteIssue s
     let v := traceVolatile (releaseDev c) (cw s)
     let cl := clusterOf v.cur.core
     (tb % 256 ≠ 0 → Faults (.reln x) s (fltAt 7 tb)) ∧
     (tb % 256 = 0 → releasedAll c = false → Waits (.reln x) s) ∧
     (tb % 256 = 0 → releasedAll c = true →
       (∀ f u, xlatRange cl (cw v).ctx .rmw (pagesOf tb 256) v = (.error f, u) → Faults (.reln x) s f) ∧
       (∀ xs k, xlatRange cl (cw v).ctx .rmw (pagesOf tb 256) v = (.ok xs, k) →
         let pkt := ((readVa k cl (cw v).ctx tb 256).1.toOption.getD []).take 64
         let u := (readVa k cl (cw v).ctx tb 256).2
         let bad := fld pkt 0 1 ≠ 1 ∨ bit (fld pkt 1 1) 0 = false ∨ (refuseReason u (cw v).ctx pkt).isSome = true ∨ (x.kind = .sig ∧ w % 8 ≠ 0)
         (bad → Ends (.reln x) s (fun t => WritesReg u t x.d false false 2 (fun _ => 0xFFFFFFFF))) ∧
         (¬ bad →
           let r := launchTx u none { (mkTx u false false (.reply x.d u.cur.mask) []) with launch := 0 }
           let q := match mget r.2.launches (cw u).launch with | some l => l.queue | none => none
           let b := (submitRelaunch r.2 (cw v).ctx (.node noHandle) q tb x.kind (BitVec.ofNat 64 w) (some r.1)).2
           Ends (.reln x) s (fun t => Awaits b t x.d 1 r.1 ∧
             Frame b t [] [] [] (fun _ => [⟨b.cycle, pendEntry x.d.reg false r.1⟩]))))))

/-- 06 R225, R226, R228: PUBL is a fence at device scope; its event raises G, flips the selector of its group and stamps it, and gives the
new G. A TLBI word is a fence at device scope, after which no TLB holds an entry that it names: of the walk of an address, of the warp's
context, of every context; the operation that holds back later accesses is in flight. -/
def Obligations.PublishAndTlbiWordsComplete : Prop :=
  (∀ (s : State) (d : Dst) (a : Opnd), Issues { ops := [(a, false)], dst := some (d, 2) } s →
     let c := noteIssue s
     let v := traceVolatile (fenceDev c) (cw s)
     let g := lowOp v false a % 1024
     (releasedAll c = false → Waits (.publ d a) s) ∧
     (releasedAll c = true → Ends (.publ d a) s (fun t =>
       t.gen = v.gen + 1 ∧
       (∀ x, ctxOf v (cw v).ctx = some x → ∃ y, ctxOf t (cw v).ctx = some y ∧
         mgetD y.sel g false = !mgetD x.sel g false ∧ mget y.stamps g = some (v.gen + 1, launchTag v (cw v).launch) ∧
         ∀ k, k ≠ g → mgetD y.sel k false = mgetD x.sel k false ∧ mget y.stamps k = mget x.stamps k) ∧
       WritesReg (publish v (cw v).ctx g (launchTag v (cw v).launch)) t d true false 2 (fun _ => (v.gen + 1).toNat)))) ∧
  (∀ s : State,
     let c := noteIssue s
     let v := fenceDev c
     let claim := fun (i : Instr) (p : TlbEnt → Bool) =>
       (releasedAll c = false → Waits i s) ∧
       (releasedAll c = true → Ends i s (fun t =>
         (∀ k e, e ∈ mgetD t.tlb1 k [] ↔ e ∈ mgetD v.tlb1 k [] ∧ p e = false) ∧
         (∀ k e, e ∈ mgetD t.tlb2 k [] ↔ e ∈ mgetD v.tlb2 k [] ∧ p e = false) ∧
         (∃ x, mget t.txs v.nextId = some x ∧ x.kind = .tlbi ∧ x.core = s.cur.core ∧ x.slot = s.cur.slot ∧ x.mask = 0xFFFF) ∧
         Passes (putFence (dropTlb v p) s.cur.core s.cur.slot 0xFFFF .tlbi) t))
     (∀ n, Issues { ops := [(.reg (.s n), true)] } s →
       claim (.tlbiVa n) (fun e => (curSlices s).any (fun j => onWalk (cw s).ctx (((cw s).slice j).sreg n).toNat e))) ∧
     (Issues {} s → claim .tlbiCtx (fun e => e.ctx == (cw s).ctx)) ∧
     (Issues { fw := true } s → claim .tlbiAll (fun _ => true)))

/-- 14 R436, R437, Table context-9: CSRR reads a register of its slice or of its warp, cluster or device; CSRW of SSTAT writes each
issuing slice's; every other CSRW completes and then writes by the rules of its register. -/
def Obligations.CsrWordsComplete : Prop :=
  ∀ s : State,
    (∀ d n, Issues { dst := some (d, if csrIs64 n then 2 else 1), fw := fwCsr n } s →
      Ends (.csrr d n) s (fun t => WritesReg s t d (csrIs64 n) false (if n = 3 then 24 else 4)
        (fun l => if sliceCsr n then sliceCsrVal ((cw s).slice (l / 4)) n else csrVal s n))) ∧
    (∀ n a, Issues { ops := [(a, csrIs64 n)], fw := fwCsr n } s →
      (n = 1 → Ends (.csrw n a) s (Passes (updCw (noteIssue s) (fun w => w.updSlices s.cur.mask
        (fun j x => { x with sstat := BitVec.ofNat 64 (op64 s a (lane0 j)) }))))) ∧
      (n ≠ 1 → ∃ u, Passes s u ∧ exec (.csrw n a) s = .next (csrPut u n (lowOp s (csrIs64 n) a))))

/-- 14 R438, R439: FRET closes an open record of a context and answers 0 (1 where there is none, or no such action); HALT escalates its
context with cause 1 and its word's address, and its warp stays HELD at the word; HALT.dev, firmware's, stops the dispatch of user
contexts; FCTX binds or unbinds the partition of its descriptor's context and FSWP swaps a partition out or in, each with a status. That
an FCTX whose address is no memory stops is the model's choice (notes/assumptions/26). -/
def Obligations.FirmwareWordsComplete : Prop :=
  (∀ (s : State) (d : Dst) (a b : Opnd), Issues { ops := [(a, false), (b, true)], dst := some (d, 1), fw := true } s →
     let c := noteIssue s
     let k := lowOp s false a
     let r := closeRecord c (k / 65536) (k % 65536) (lowOp s true b)
     (r = none → Ends (.fret d a b) s (fun t => WritesReg s t d false false 2 (fun _ => 1))) ∧
     (∀ u, r = some u → Ends (.fret d a b) s (fun t => WritesReg u t d false false 2 (fun _ => 0)))) ∧
  (∀ s : State,
     let c := noteIssue s
     (Issues {} s → exec .halt s =
       .next (holdWarp (escalate c (cw s).ctx 1 ((cw s).slice (curLow s)).pc.toNat) s.cur.core s.cur.slot)) ∧
     (Issues { fw := true } s → Ends .haltDev s (fun t =>
       t.haltDev = true ∧ Quiet s t ∧ Passes (loseDeficits { c with haltDev := true } none) t))) ∧
  (∀ (s : State) (d : Dst) (a b : Opnd), Issues (fwUse d a b) s →
     let c := noteIssue s
     let va := lowOp s true b
     let done := fun (i : Instr) (r : Nat × State) => Ends i s (fun t => WritesReg r.2 t d false false 2 (fun _ => r.1))
     (physOk va 128 = true → done (.fctxBind d a b) (fctx c (lowOp s false a) va) ∧ done (.fctxUnbind d a b) (fctx c (lowOp s false a) va)) ∧
     (physOk va 128 = false →
       exec (.fctxBind d a b) s = .fault (.noSuchAddress va) ∧ exec (.fctxUnbind d a b) s = .fault (.noSuchAddress va)) ∧
     done (.fswpOut d a b) (fswp c (lowOp s false a) va) ∧ done (.fswpIn d a b) (fswp c (lowOp s false a) va))

/-! ## Words of the near-memory units -/

/-- 11 R367, Table sketch-8: a vector word acts on all 256 lanes of its program's registers, without flags; NADDI adds a scaled signed
immediate to an address register mod 2^64. -/
def Obligations.NmuVectorWordsWriteLanes : Prop :=
  ∀ (s : State) (p : NmuProg), NmuRuns s p →
    (∀ x : NmuV2, NmuVector (.nadd x) s p x.gd (fun l => fp32.add x.rnd false (p.lane x.ga l) (p.lane x.gb l))) ∧
    (∀ x : NmuV2, NmuVector (.nsub x) s p x.gd (fun l => fp32.sub x.rnd false (p.lane x.ga l) (p.lane x.gb l))) ∧
    (∀ x : NmuV2, NmuVector (.nmul x) s p x.gd (fun l => fp32.mul x.rnd false (p.lane x.ga l) (p.lane x.gb l))) ∧
    (∀ x : NmuV3, NmuVector (.nfma x) s p x.gd (fun l => fp32.fma x.rnd false (p.lane x.ga l) (p.lane x.gb l) (p.lane x.gc l))) ∧
    (∀ x : NmuV2, NmuVector (.nmin x) s p x.gd (fun l => fp32.minmax false false (p.lane x.ga l) (p.lane x.gb l))) ∧
    (∀ x : NmuV2, NmuVector (.nmax x) s p x.gd (fun l => fp32.minmax false true (p.lane x.ga l) (p.lane x.gb l))) ∧
    (∀ gd ga, NmuVector (.nrsq gd ga) s p gd (fun l => frsqCode (p.lane ga l))) ∧
    (∀ gd ga k rnd, NmuVector (.ncvt gd ga k rnd) s p gd (fun l => ncvtCode1 k rnd (p.lane ga l))) ∧
    (∀ gd imm, NmuVector (.nsetImm gd imm) s p gd (fun _ => imm * 2 ^ 12)) ∧
    (∀ gd a, NmuVector (.nsetReg gd a) s p gd (fun _ => p.areg a)) ∧
    (∀ ad as sh imm, ∃ q : NmuProg, NmuPasses (.naddi ad as sh imm) s (nmuNoted s) q ∧ q = { p with a := q.a } ∧
      AregSet p q ad (ofInt 64 ((p.areg as : Int) + sext 16 imm * ((2 ^ (8 * sh) : Nat) : Int))))

/-- 11 Table sketch-8, R353, R371: NLDV and NSTV move n aligned 4-byte words on the unit's stack and, with .inc, move the address on by
4n; a misaligned address is cause 6, and a page that does not serve has the cause of its translation. -/
def Obligations.NmuMemoryWordsMoveWords : Prop :=
  ∀ (s : State) (p : NmuProg) (x : NmuMem), NmuRuns s p →
    let b := nmuNoted s
    let va := p.areg x.a
    let pages := fun (k : AccessKind) => nmuPages p.ctx s.cur.stack k (pagesOf va (4 * x.n)) b
    let moved := fun (q : NmuProg) => AregSet p q x.a (if x.inc then va + 4 * x.n else va)
    (va % 4 ≠ 0 → NmuFaults (.nldv x) s p 6 va ∧ NmuFaults (.nstv x) s p 6 va) ∧
    (va % 4 = 0 →
      (∀ e u, pages .read = (.error e, u) → NmuFaults (.nldv x) s p e.1 e.2) ∧
      (∀ ps u, pages .read = (.ok ps, u) →
        let r := nmuReads p.ctx ps va x.n u
        ∃ q : NmuProg, NmuPasses (.nldv x) s r.2 q ∧ q = { p with g := q.g, a := q.a } ∧ moved q ∧
          (∀ l, l < 256 → q.lane x.g l = (r.1[l]?).getD 0 % 2 ^ 32) ∧ ∀ g l, l < 256 → g ≠ x.g → q.lane g l = p.lane g l) ∧
      (∀ e u, pages .write = (.error e, u) → NmuFaults (.nstv x) s p e.1 e.2) ∧
      (∀ ps u, pages .write = (.ok ps, u) →
        ∃ q : NmuProg, NmuPasses (.nstv x) s (nmuWrites p.ctx ps va ((List.range x.n).map (p.lane x.g)) u) q ∧
          q = { p with a := q.a } ∧ moved q))

/-- 11 R359, R360, R367, R368, Table sketch-5: NSKU puts its updates into the batch, which is drained first, one counter event a turn, where
it would pass 4,096 keys; NSKQ drains, then reads each lane's query; NSKA adds one sketch to a compatible one that it does not overlap
(else cause 10) and NSKC clears one, each behind a drain; every counter of the sketches must be on the stack. -/
def Obligations.NmuSketchWordsComplete : Prop :=
  (∀ (s : State) (p : NmuProg) (g ak ad n : Nat), NmuRuns s p →
     let desc := nmuSketch (nmuNoted s) p (p.areg ad)
     let full := p.inDrain = true ∨ 4096 < p.batch.length + n
     (full → NmuDrains (.nsku g ak ad n) s p) ∧
     (¬ full →
       (∀ e, desc = .error e → NmuFaults (.nsku g ak ad n) s p e.1 e.2) ∧
       (∀ k u, desc = .ok (k, u) →
         (∀ e v, nmuCounters u p .rmw k = (.error e, v) → NmuFaults (.nsku g ak ad n) s p e.1 e.2) ∧
         (∀ ps v, nmuCounters u p .rmw k = (.ok ps, v) → NmuPasses (.nsku g ak ad n) s v
           { p with batch := p.batch ++ (List.range n).map (nmuUpdate ps k p g (p.areg ak)) }))) ∧
     (p.pending = true → NmuDrains (.nskq g ak ad n) s p) ∧
     (p.pending = false →
       (∀ e, desc = .error e → NmuFaults (.nskq g ak ad n) s p e.1 e.2) ∧
       (∀ k u, desc = .ok (k, u) →
         (∀ e v, nmuCounters u p .read k = (.error e, v) → NmuFaults (.nskq g ak ad n) s p e.1 e.2) ∧
         (∀ ps v, nmuCounters u p .read k = (.ok ps, v) →
           let q := nmuQueries p.ctx ps k (p.areg ak) (List.range n) v
           ∃ y : NmuProg, NmuPasses (.nskq g ak ad n) s q.2 y ∧ y = { p with g := y.g } ∧
             (∀ l, l < 256 → y.lane g l = (q.1[l]?).getD 0 % 2 ^ 32) ∧ ∀ r l, l < 256 → r ≠ g → y.lane r l = p.lane r l)))) ∧
  (∀ (s : State) (p : NmuProg) (ad as : Nat), NmuRuns s p →
     let desc := nmuSketch (nmuNoted s) p (p.areg ad)
     (p.pending = true → NmuDrains (.nska ad as) s p ∧ NmuDrains (.nskc ad) s p) ∧
     (p.pending = false →
       (∀ e, desc = .error e → NmuFaults (.nska ad as) s p e.1 e.2 ∧ NmuFaults (.nskc ad) s p e.1 e.2) ∧
       (∀ x u, desc = .ok (x, u) →
         (∀ e v, nmuCounters u p .write x = (.error e, v) → NmuFaults (.nskc ad) s p e.1 e.2) ∧
         (∀ px v, nmuCounters u p .write x = (.ok px, v) →
           NmuPasses (.nskc ad) s (nmuWrites p.ctx px x.base (List.replicate x.count 0) v) p) ∧
         (∀ e, nmuSketch u p (p.areg as) = .error e → NmuFaults (.nska ad as) s p e.1 e.2) ∧
         (∀ y v, nmuSketch u p (p.areg as) = .ok (y, v) →
           (x.compat y = false ∨ x.clash y = true → NmuFaults (.nska ad as) s p 10 (p.areg as)) ∧
           (x.compat y = true → x.clash y = false →
             (∀ e w, nmuCounters v p .rmw x = (.error e, w) → NmuFaults (.nska ad as) s p e.1 e.2) ∧
             (∀ px w, nmuCounters v p .rmw x = (.ok px, w) →
               (∀ e z, nmuCounters w p .read y = (.error e, z) → NmuFaults (.nska ad as) s p e.1 e.2) ∧
               (∀ py z, nmuCounters w p .read y = (.ok py, z) →
                 NmuPasses (.nska ad as) s
                   ((List.range x.count).foldl (fun w n =>
                     let q := nmuGet w p.ctx (nmuAt py (y.va n)) 4
                     counterEvent q.2 p.ctx (nmuAt px (x.va n)) (fun c => cadd c (cntOf (ofBytes q.1)))) z) p)))))))

/-- 11 R369, R371: NLOOP opens a level over the words up to its offset, or passes over them where its count is 0; a body beyond the
program is cause 8 and a third level cause 7. A taken NBRA goes to a word of the program, or is cause 8, and leaves the levels whose
range it goes out of. -/
def Obligations.NmuControlWordsComplete : Prop :=
  ∀ (s : State) (p : NmuProg), NmuRuns s p →
    let b := nmuNoted s
    let loop := fun (i : Instr) (count off : Nat) =>
      (p.words.length ≤ p.pc + off → NmuFaults i s p 8 0) ∧
      (p.pc + off < p.words.length →
        (count = 0 → NmuJumps i s b { p with pc := p.pc + off + 1 }) ∧
        (count ≠ 0 → 2 ≤ p.loops.length → NmuFaults i s p 7 0) ∧
        (count ≠ 0 → p.loops.length < 2 →
          NmuJumps i s b { p with pc := p.pc + 1, loops := ⟨count, p.pc + 1, p.pc + off⟩ :: p.loops }))
    (∀ n off, loop (.nloopImm n off) n off) ∧
    (∀ a off, loop (.nloopReg a off) (p.areg a % 2 ^ 32) off) ∧
    (∀ cond a off,
      let taken := cond = .always ∨ (cond = .z ∧ p.areg a = 0) ∨ (cond = .nz ∧ p.areg a ≠ 0)
      let t : Int := (p.pc : Int) + sext 16 off
      (¬ taken → NmuPasses (.nbra cond a off) s b p) ∧
      (taken → (t < 0 ∨ (p.words.length : Int) ≤ t) → NmuFaults (.nbra cond a off) s p 8 0) ∧
      (taken → ∀ n : Nat, t = n → n < p.words.length → NmuJumps (.nbra cond a off) s b
        { p with pc := n, loops := p.loops.dropWhile (fun l => decide (n < l.first) || decide (l.last < n)) }))

/-- 11 R370, R355, R368: NWAIT passes where its doubleword already meets the condition and parks else; NSIG, NFENCE and NEND first perform
what is pending, one counter event a turn; then NSIG sends its decrement, NFENCE passes, and NEND frees its place and ends its node. -/
def Obligations.NmuSyncWordsComplete : Prop :=
  ∀ (s : State) (p : NmuProg), NmuRuns s p →
    let b := nmuNoted s
    (∀ a q,
      let va := p.areg a
      (va % 8 ≠ 0 → NmuFaults (.nwait a q) s p 6 va) ∧
      (va % 8 = 0 →
        (∀ e u, nmuXlat p.ctx s.cur.stack va .read b = (.error e, u) → NmuFaults (.nwait a q) s p e va) ∧
        (∀ x u, nmuXlat p.ctx s.cur.stack va .read b = (.ok x, u) →
          let r := nmuGet u p.ctx x 8
          (p.areg q ≤ ofBytes r.1 → NmuPasses (.nwait a q) s r.2 p) ∧
          (ofBytes r.1 < p.areg q → NmuJumps (.nwait a q) s r.2 { p with parked := some (x, BitVec.ofNat 64 (p.areg q), false) })))) ∧
    (p.pending = true → (∀ a, NmuDrains (.nsig a) s p) ∧ NmuDrains .nfence s p ∧ NmuDrains .nend s p) ∧
    (p.pending = false →
      (∀ a, NmuPasses (.nsig a) s (sendDecr b p.ctx (p.areg a % 2 ^ 32) 1) p) ∧
      NmuPasses .nfence s b p ∧
      exec .nend s = .next (agentEnd (freePlace b s.cur.stack s.cur.place) p.ctx p.node true 0))

/-! ## Words of scripts -/

/-- 16 Table circuit-7, R480: the words that set a q register, c or the program counter; a branch goes on by words from its own word where
it is taken, and a target outside the program is the script fault 3, which ends the node. -/
def Obligations.ScriptOwnWordsComplete : Prop :=
  (∀ (s : State) (x : Script), ScriptRuns s x →
     (∀ qd qa, SetsQ (.movqReg qd qa) s x qd (x.reg qa)) ∧
     (∀ qd imm, SetsQ (.movqImm qd imm) s x qd (ofInt 64 imm)) ∧
     (∀ qd qa qb, SetsQ (.addqReg qd qa qb) s x qd (x.reg qa + x.reg qb)) ∧
     (∀ qd qa imm, SetsQ (.addqImm qd qa imm) s x qd (x.reg qa + ofInt 64 imm)) ∧
     (∀ qd qa qb, SetsQ (.subqReg qd qa qb) s x qd (x.reg qa + 2 ^ 64 - x.reg qb)) ∧
     (∀ qd qa imm, SetsQ (.subqImm qd qa imm) s x qd (ofInt 64 ((x.reg qa : Int) - imm))) ∧
     (∀ qd, SetsQ (.time qd) s x qd s.ns) ∧
     (∀ qd qa, SetsQ (.cstat qd qa) s x qd (circStatus s x.ctx (x.reg qa % 16))) ∧
     (∀ cc qa qb, SetsC (.cmpqReg cc qa qb) s x (qCond cc (x.reg qa) (x.reg qb))) ∧
     (∀ cc qa imm, SetsC (.cmpqImm cc qa imm) s x (qCond cc (x.reg qa) (ofInt 64 imm)))) ∧
  (∀ (s : State) (x : Script), ScriptRuns s x →
     let branch := fun (i : Instr) (taken : Prop) (off : Int) =>
       (¬ taken → Ends i s (fun t => ScriptAfter s t { x with pc := x.pc + 1 })) ∧
       (taken → ∀ n : Nat, (x.pc : Int) + off = n → n < x.words.length → Ends i s (fun t => ScriptAfter s t { x with pc := n })) ∧
       (taken → ((x.pc : Int) + off < 0 ∨ (x.words.length : Int) ≤ (x.pc : Int) + off) →
         exec i s = .next (agentEnd { s with scripts := mdel s.scripts s.cur.place } x.ctx x.node false 3))
     (∀ qa off, branch (.brq false qa off) (x.reg qa = 0) off ∧ branch (.brq true qa off) (x.reg qa ≠ 0) off) ∧
     (∀ off, branch (.brc .always off) True off ∧ branch (.brc .c off) (x.c = true) off ∧ branch (.brc .nc off) (x.c = false) off))

/-- 16 R482, Table circuit-2, 15 R444: CREQ answers 4 before a lane has trained, 1 to 4 with nothing done, in the order of its table, and
else sends a REQUEST with the next id, which leaves the circuit REQUESTED; CREL releases the context's circuit and does nothing to
another's. -/
def Obligations.CircuitWordsComplete : Prop :=
  ∀ (s : State) (x : Script), ScriptRuns s x →
    (∀ qd qa,
      let w := x.reg qa
      let p := w % 16
      let h := bits w 18 16
      let bad := w / 2 ^ 34 ≠ 0 ∨ bits w 8 10 = s.dev.getD 0 ∨ (h = 0 ∧ lowestHandle s x.ctx = none)
      let dark := s.status.optics = false ∨ (portOf s p).failedCh = 15
      (planeUp s = false → SetsQ (.creq qd qa) s x qd 4) ∧
      (planeUp s = true → (mget s.circuits p).isSome = true → SetsQ (.creq qd qa) s x qd 1) ∧
      (planeUp s = true → mget s.circuits p = none → bad → SetsQ (.creq qd qa) s x qd 2) ∧
      (planeUp s = true → mget s.circuits p = none → ¬ bad → dark → SetsQ (.creq qd qa) s x qd 3) ∧
      (planeUp s = true → mget s.circuits p = none → ¬ bad → ¬ dark → s.lanes = [] → SetsQ (.creq qd qa) s x qd 4) ∧
      (planeUp s = true → mget s.circuits p = none → ¬ bad → ¬ dark → s.lanes ≠ [] →
        ∀ k, (if h = 0 then lowestHandle s x.ctx else some h) = some k →
        let c : Circuit := { st := .requested, ctx := x.ctx, peer := bits w 8 10, pport := bits w 4 4, cause := 0, id := s.reqId
                             handle := k, since := s.ns, releasedSeen := false }
        let u := updScript s s.cur.place (fun y => { y.set qd 0 with pc := y.pc + 1 })
        exec (.creq qd qa) s = .next (sendCtl { u with circuits := mset s.circuits p c, reqId := (s.reqId + 1) % 65536 } 1
          ⟨s.reqId, s.dev.getD 0, p, bits w 4 4, bits w 8 10, k⟩))) ∧
    (∀ qa,
      let p := x.reg qa % 16
      (circuitFor s x.ctx p = none → exec (.crel qa) s = .next (scriptPast s)) ∧
      (∀ c, circuitFor s x.ctx p = some c → exec (.crel qa) s = .next (releaseCircuit (scriptPast s) p c)))

/-- 16 R477: BUCK ties a buckle granted to the context to a port whose circuit the context holds GRANTED, and c says whether it did; it
is FASTENED where the port is LIVE, and what waits on the buckle is tested. BUCK.off ends a tie. A buckle that is not granted is the script fault 4. -/
def Obligations.BuckleWordsComplete : Prop :=
  ∀ (s : State) (x : Script) (qa qb : Nat), ScriptRuns s x →
    let n := x.reg qa
    let p := x.reg qb % 16
    let granted := ∃ c, circuitFor s x.ctx p = some c ∧ c.st = .granted
    let ended := agentEnd { s with scripts := mdel s.scripts s.cur.place } x.ctx x.node false 4
    (holdsBuckle s x.ctx n = false → exec (.buck qa qb) s = .next ended ∧ exec (.buckOff qa) s = .next ended) ∧
    (holdsBuckle s x.ctx n = true →
      (¬ granted → SetsC (.buck qa qb) s x false) ∧
      (granted →
        let u := untie (passC s true) n
        let live := (portOf u p).st = .live
        let v := { u with nextId := u.nextId + 1, buckles := mset u.buckles n ⟨p, decide live, u.nextId⟩ }
        let w := testCopies (testBkws v n) n
        (live → exec (.buck qa qb) s = .next (collsSend w)) ∧ (¬ live → exec (.buck qa qb) s = .next w)) ∧
      exec (.buckOff qa) s = .next (untie (passC s true) n))

/-- 15 R463, R464, 16 Table circuit-7: PARK and WAKE act on a LIVE port that the context holds, and a PARK that would leave no channel lit
does nothing; SETW sets AUTOWAKE of a port that no other context holds to at most 1,024. c says whether the word acted. That SETW leaves
another context's port alone is the model's choice (notes/assumptions/54). -/
def Obligations.LaserWordsComplete : Prop :=
  ∀ (s : State) (x : Script) (qa qb : Nat), ScriptRuns s x →
    let p := x.reg qa % 16
    let m := x.reg qb % 16
    let lit := chansIn (portOf s p).tx .lit
    let waves := wlIn (portOf s p).tx .lit &&& chanMask m
    let acts := liveFor s x.ctx p = true ∧ dropBits lit m ≠ 0
    (¬ acts → SetsC (.park qa qb) s x false) ∧
    (acts → waves = 0 → SetsC (.park qa qb) s x true) ∧
    (acts → waves ≠ 0 → exec (.park qa qb) s =
      .next (queueRestripe (updPort (passC s true) p (fun y => { y with tx := setWl y.tx waves (fun _ => true) .parking })) p true
        ⟨waves, lit &&& m⟩)) ∧
    (liveFor s x.ctx p = false → SetsC (.wake qa qb) s x false) ∧
    (liveFor s x.ctx p = true → exec (.wake qa qb) s = .next (wakeChans (passC s true) p m)) ∧
    (let away := 1024 < x.reg qb ∨ ∃ c, mget s.circuits p = some c ∧ c.ctx ≠ x.ctx
     (away → SetsC (.setw qa qb) s x false) ∧
     (¬ away → Ends (.setw qa qb) s (fun t => (portOf t p).autowake = x.reg qb ∧ (∀ q, q ≠ p → portOf t q = portOf s q) ∧
       ScriptAfter { s with ports := t.ports } t { x with c := true, pc := x.pc + 1 })))

/-- 16 R484, Table circuit-7, R478: MSG to the device itself puts its value into a mailbox, and c says whether it did; to another device it
sends a packet and waits; a nonzero reserved bit of the route is the script fault 2. TSIG sends a decrement of the low 32 bits of its
operands, EVT posts a record of kind 0x17 with the node, a value and the word's address, and END frees the place and ends the node well. -/
def Obligations.ScriptMessageWordsComplete : Prop :=
  (∀ (s : State) (x : Script) (qa qb : Nat), ScriptRuns s x →
     let r := x.reg qa
     let v := mgetD x.q qb 0
     let bad := bits r 10 6 ≠ 0 ∨ r / 2 ^ 36 ≠ 0
     (bad → exec (.msg qa qb) s = .next (agentEnd { s with scripts := mdel s.scripts s.cur.place } x.ctx x.node false 2)) ∧
     (¬ bad → planeUp s = false → SetsC (.msg qa qb) s x false) ∧
     (¬ bad → planeUp s = true → r % 1024 = s.dev.getD 0 →
       (mget s.handles (bits r 16 16) = none → SetsC (.msg qa qb) s x false) ∧
       (∀ k, mget s.handles (bits r 16 16) = some k →
         (mailPut s k.ctx (bits r 32 4) v = none → SetsC (.msg qa qb) s x false) ∧
         (∀ u, mailPut s k.ctx (bits r 32 4) v = some u → Ends (.msg qa qb) s (fun t => ScriptAfter u t { x with c := true, pc := x.pc + 1 })))) ∧
     (¬ bad → planeUp s = true → r % 1024 ≠ s.dev.getD 0 →
       let q := sendReq s (r % 1024) 7 (reqHdr (bits r 16 16) 0 0) (toBytes 8 v.toNat ++ toBytes 8 (bits r 32 4)) (.script s.cur.place)
       exec (.msg qa qb) s = .next (updScript q.2 s.cur.place (fun x => { x with wait := some (.msg q.1, s.ns) })))) ∧
  (∀ (s : State) (x : Script), ScriptRuns s x →
     (∀ qa qb,
       (x.reg qb % 2 ^ 32 = 0 → exec (.tsig qa qb) s = .next (scriptPast s)) ∧
       (x.reg qb % 2 ^ 32 ≠ 0 → exec (.tsig qa qb) s =
         .next (scriptPast { s with decrs := s.decrs ++ [⟨0, x.ctx, x.reg qa % 2 ^ 32, x.reg qb % 2 ^ 32⟩] }))) ∧
     (∀ qa, exec (.evt qa) s =
       .next (postEvent (scriptPast s) x.ctx (mkRec [(0, 0x17), (4, x.node), (8, x.reg qa), (16, x.base + 4 * x.pc)]))) ∧
     exec .endScript s = .next (agentEnd { s with scripts := mdel s.scripts s.cur.place } x.ctx x.node true 0))

/-- 16 R481, R483-R485, 08 R285: a word that waits ends at once where its condition holds, with c set (DLY keeps c) and, for CWAIT and
MRCV, its destination; where the condition does not hold and the time-out is 0, or a CWAIT's circuit has failed or a TWT's node does not
exist, it ends at once with c clear; else its script waits from now. CWAIT writes the circuit status in every case, MRCV the value it
takes out of its mailbox. -/
def Obligations.ScriptWaitWordsComplete : Prop :=
  ∀ (s : State) (x : Script), ScriptRuns s x →
    let waits := fun (i : Instr) (w : ScriptWait) => Ends i s (fun t => ScriptAfter s t { x with wait := some (w, s.ns) })
    (∀ tgt qd qa qb,
      let i := Instr.cwait tgt qd qa qb
      let p := x.reg qa % 16
      let tmo := mgetD x.q qb 0
      let st := (circuitFor s x.ctx p).map (·.st)
      let met := match tgt with
        | .live => liveFor s x.ctx p = true
        | .grant => st = some .granted
        | .free => st = none
      let lost := st = some .failed ∧ tgt ≠ .free
      (met → SetsQC i s s x qd (circStatus s x.ctx p) true) ∧
      (¬ met → lost ∨ tmo = 0 → SetsQC i s s x qd (circStatus s x.ctx p) false) ∧
      (¬ met → ¬ lost → tmo ≠ 0 → waits i (.cwait tgt qd p tmo))) ∧
    (∀ qd qa qb,
      let i := Instr.mrcv qd qa qb
      let box := x.reg qa % 16
      let tmo := mgetD x.q qb 0
      let held := match ctxOf s x.ctx with | some c => mgetD c.mailboxes box [] | none => []
      (∀ v rest, held = v :: rest → earlierWaiter s s.cur.place x box s.ns = false →
        SetsQC i s (updCtx s x.ctx (fun c => { c with mailboxes := mset c.mailboxes box rest })) x qd v.toNat true) ∧
      (∀ v rest, held = v :: rest → earlierWaiter s s.cur.place x box s.ns = true → waits i (.mrcv qd box tmo)) ∧
      (held = [] → tmo = 0 → SetsC i s x false) ∧
      (held = [] → tmo ≠ 0 → waits i (.mrcv qd box tmo))) ∧
    (∀ qa qb qc,
      let i := Instr.twt qa qb qc
      let tmo := mgetD x.q qc 0
      let thr := x.reg qb % 2 ^ 32
      (nodeOf s x.ctx (x.reg qa % 2 ^ 32) = none → SetsC i s x false) ∧
      (∀ g k n, nodeOf s x.ctx (x.reg qa % 2 ^ 32) = some (g, k, n) →
        (n.count.toNat ≤ thr → SetsC i s x true) ∧
        (thr < n.count.toNat → tmo = 0 → SetsC i s x false) ∧
        (thr < n.count.toNat → tmo ≠ 0 → waits i (.twt (x.reg qa % 2 ^ 32) thr tmo)))) ∧
    (∀ (i : Instr) (us : W64), ((∃ qa, i = .dlyReg qa ∧ us = mgetD x.q qa 0) ∨ ∃ n, i = .dlyImm n ∧ us = BitVec.ofNat 64 n) →
      (us = 0 → SetsC i s x x.c) ∧ (us ≠ 0 → waits i (.dly us)))

/-! ## Events -/

/-- 05 R164-R173, R189, 12: the moves of the scheduler and of a core's slots: a cluster-block is assigned and made resident, a warp
joins the active set, is forced, and leaves its slot once it has exited; a gang set is released, and register blocks are granted. -/
def Obligations.SlotEventsAct : Prop :=
  ∀ s : State,
    (∀ core slot addr, exec (.regangRelease core slot addr) s = .next (regangRelease s core slot (BitVec.ofNat 64 addr))) ∧
    (∀ core,
      let c := coreOf s core
      (racqWaiters c = [] → exec (.racqGrant core) s = .next s) ∧
      (∀ t slot mask n rest, racqWaiters c = (t, slot, mask, n) :: rest →
        let free := poolGranules c (warpOf s core slot).width n
        (free.length = n → exec (.racqGrant core) s = .next (endEpisode (racqGrant s core slot mask n free false) core)) ∧
        (free.length < n → exec (.racqGrant core) s = .next s))) ∧
    (∀ core,
      let c := coreOf s core
      let stuck := (∀ x ∈ c.warps, ∀ y ∈ x.2.slices, y.ownPark = true) ∧ racqWaiters c ≠ []
      (stuck → exec (.emergencyEpisode core) s = .next (updCore s core (fun c => { c with emergency := true }))) ∧
      (¬ stuck → exec (.emergencyEpisode core) s = .next s)) ∧
    (∀ core,
      let c := coreOf s core
      let done := Host.Outcome.next (updCore s core (fun c => { c with emergency := false }))
      (c.emergency = false → exec (.emergencyGrant core) s = .next s) ∧
      (c.emergency = true → racqWaiters c = [] → exec (.emergencyGrant core) s = done) ∧
      (c.emergency = true → ∀ t slot mask n rest, racqWaiters c = (t, slot, mask, n) :: rest →
        let top := fileBlocks (warpOf s core slot).width
        let free := freeGranules c (top - 8) top
        (c.granted = some s.cycle → exec (.emergencyGrant core) s = .next s) ∧
        (c.granted ≠ some s.cycle → n ≤ free.length → exec (.emergencyGrant core) s = .next (endEpisode
          (updCore (racqGrant s core slot mask n (free.take n) true) core (fun c => { c with granted := some s.cycle })) core)) ∧
        (c.granted ≠ some s.cycle → free.length < n → exec (.emergencyGrant core) s = done))) ∧
    (∀ core slot, exec (.rrelRelease core slot) s = .next (updWarp s core slot (fun w => { w with releasing := [] }))) ∧
    (∀ id l k cl cores, mget s.launches id = some l → l.nextK = some k → mayAssign s l cl cores = true → outranked s id l cl cores = false →
      let cb : ClusterBlock := { k := k, launch := id, cluster := cl, cores := cores, order := s.nextId, st := .assigned, blocks := [], bars := [] }
      Ends (.clusterBlockAssign id cl cores) s (fun t => mget t.cbs s.nextId = some cb ∧ t.mem = s.mem ∧
        ∃ m, mget t.launches id = some m ∧ m.nextCb = l.nextCb + 1 ∧ (m.st = .draining ∨ m.st = .dispatching) ∧
          (m.st = .draining ↔ m.nextK = none))) ∧
    (∀ id c l, mget s.cbs id = some c → mget s.launches c.launch = some l → c.st = .assigned →
      (∀ o ∈ s.cbs, o.2.st = .assigned → o.2.order < c.order → ∀ k ∈ o.2.cores, k ∉ c.cores) →
      holderOf s (partOf c.cluster) = some l.ctx → ctxActive s l.ctx = true → (∀ k ∈ c.cores, coreGrants s l k = true) →
      exec (.clusterBlockResident id) s = .next ((List.range c.cores.length).foldl
        (fun u i => startBlock c.launch l id (c.k * fld l.pkt 3 1 + i) ((c.cores[i]?).getD 0) u)
        { s with cbs := mset s.cbs id { c with st := .resident } })) ∧
    (∀ core,
      let u := updCore s core (fun c => { c with active := c.active.map (idleMark s core) })
      let c := coreOf u core
      (oldestWaiting c = none → exec (.activeSetUpdate core) s = .next u) ∧
      (∀ o, oldestWaiting c = some o →
        (c.active.length < 4 → exec (.activeSetUpdate core) s = .next (joinActive u core o)) ∧
        (4 ≤ c.active.length → c.swapped = some s.cycle ∨ (∀ a ∈ c.active, a.2 = none) → exec (.activeSetUpdate core) s = .next u) ∧
        (4 ≤ c.active.length → c.swapped ≠ some s.cycle → ∀ sl n, (sl, some n) ∈ c.active →
          (∀ a ∈ c.active, a ≠ (sl, some n) → ∀ v, a.2 = some v → n < v) →
          exec (.activeSetUpdate core) s = .next
            (updCore (joinActive (leaveActive u core sl) core o) core (fun c => { c with swapped := some s.cycle }))))) ∧
    (∀ core slot, exec (.warpForced core slot) s =
      .next (updWarp s core slot (fun w => if 256 ≤ w.offered ∧ w.rr = false then { w with forced := true } else w))) ∧
    (∀ core slot,
      let w := warpOf s core slot
      let gone := w.st = .exiting ∧ ∀ b ∈ w.busy, b.pending s.cycle = false
      (¬ gone → exec (.warpExited core slot) s = .next s) ∧
      (gone →
        let u := updCore (latchExit s core slot) core (fun c => { c with
          warps := mdel c.warps slot, active := c.active.filter (fun a => a.1 != slot) })
        let v : State := { u with blocks := madj u.blocks w.block (fun b => { b with live := b.live.filter (fun k => k != w.uid) }) }
        (∀ b, mget v.blocks w.block = some b → b.live = [] → b.st ≠ .done →
          exec (.warpExited core slot) s = .next (blockDone v w.block)) ∧
        ((∀ b, mget v.blocks w.block = some b → b.live ≠ [] ∨ b.st = .done) → exec (.warpExited core slot) s = .next v)))

/-- 05 R176, 07 R233-R246, R250, R254, R498, 08 R270-R286, 11 R362, R375, 06 R205, R226, 14 Table context-6: accesses are performed at
their places and write their results, fences and TLBIs complete when what they wait for has, and waits are answered; a record closes. -/
def Obligations.AccessEventsAct : Prop :=
  ∀ s : State,
    (∀ core slot id t scope kind, mget s.txs id = some t → t.core = core → t.slot = slot → t.kind = .fence scope kind →
      let done := accessesDone s t.uid t.mask id = true ∧ (scopeWide scope = true → sketchesDone s t.uid id = true) ∧
        (scope = .domain → remotesDone s t.uid id = true)
      let u := { s with txs := mdel s.txs id }
      (¬ done → exec (.fenceComplete core slot id) s = .next s) ∧
      (done → exec (.fenceComplete core slot id) s =
        .next (if scopeWide scope then fenceCache u (clusterOf core) t.ctx kind else u))) ∧
    (∀ core slot id t, mget s.txs id = some t → t.core = core → t.slot = slot → t.kind = .rfence → remotesDone s t.uid id = true →
      exec (.fenceComplete core slot id) s = .next { s with txs := mdel s.txs id }) ∧
    (∀ core slot id t, mget s.txs id = some t → t.core = core → t.slot = slot → t.kind = .tlbi →
      (olderDone s id = true → pendingBatch s t.ctx = none → exec (.tlbiComplete core slot id) s = .next { s with txs := mdel s.txs id }) ∧
      (olderDone s id = true → ∀ g k p, pendingBatch s t.ctx = some (g, k, p) →
        exec (.tlbiComplete core slot id) s = .next (putProg (drainEvent p s).2 g k (drainEvent p s).1)) ∧
      (olderDone s id = false → exec (.tlbiComplete core slot id) s = .next s)) ∧
    (∀ id t, mget s.txs id = some t → t.kind.isSketch = true →
      (sketchReady s id t = false → exec (.sketchReply id) s = .next s) ∧
      (sketchReady s id t = true →
        let may := t.todo.filter (counterReady s id t)
        (t.todo ≠ [] → may = [] → exec (.sketchReply id) s = .next s) ∧
        (may ≠ [] → ∃ o ∈ may,
          let r := runCounter { t with todo := t.todo.erase o } o { (choose s may.length).2 with payer := payerOf s t.launch }
          exec (.sketchReply id) s = .next { r.2 with txs := mset r.2.txs id r.1 }) ∧
        (t.todo = [] →
          let p := postSkips s t.ctx t.kind.wordAt t.skips
          let u := { p with txs := mdel p.txs id }
          (∀ d a b, t.kind = .skqry d a b → exec (.sketchReply id) s =
            .next (lowerIc (updUid u t.uid (fun w => landQuery w u.cycle id t.mask d (t.queryRes a))) t.uid id)) ∧
          ((∀ d a b, t.kind ≠ .skqry d a b) → exec (.sketchReply id) s = .next (lowerIc u t.uid id))))) ∧
    (∀ core slot slice o p tmo t0,
      let w := warpOf s core slot
      let m := w.gangOf slice
      (w.slice slice).st = .park o → o.timed = some (p, tmo, t0) →
      let answers := fun (e : Instr) (isOver : Prop) =>
        (askedLater s w o = true → exec e s = .next s) ∧
        (askedLater s w o = false →
          (tieGone s w.ctx o = true → exec e s = .next (openFault s core slot m (flt 0x15) true)) ∧
          (tieGone s w.ctx o = false →
            (∀ r, waitTest s w.ctx o = some r → exec e s = .next (answerWait s core slot m p r)) ∧
            (waitTest s w.ctx o = none → tmo = 0 ∨ isOver → exec e s = .next (answerWait s core slot m p false)) ∧
            (waitTest s w.ctx o = none → tmo ≠ 0 → ¬ isOver → exec e s = .next (updWarp s core slot (fun w => w.updSlices m (fun _ x =>
              match x.st with | .park o => { x with st := .park (o.answered s w.ctx) } | _ => x))))))
      answers (.timedWaitAnswer core slot slice) False ∧
      answers (.timedWaitTimeout core slot slice) (tmo ≠ 0xFFFFFFFF ∧ w.stopped = none ∧ tmo ≤ s.cycle - t0) ∧
      (∀ x c cc wide dev hit, o = .flgw p x c cc wide dev tmo t0 hit →
        (inHost x.pa = true → answers (.flgwHostPoll core slot slice) False) ∧
        (inHost x.pa = false → exec (.flgwHostPoll core slot slice) s = .next s))) ∧
    (∀ cl ctx va kind, ∃ r u, translate s cl ctx va kind = (r, u) ∧ exec (.pageWalk cl ctx va kind) s = .next u ∧
      u = { s with tlb1 := u.tlb1, tlb2 := u.tlb2, l2 := u.l2, charges := u.charges, freeCtr := u.freeCtr }) ∧
    (∀ id t v, mget s.txs id = some t → txHeld s id t = false → (∀ q ∈ t.parts, q.place ≠ .scratch) →
      let n := performNear s id
      let gone := { n with txs := mdel n.txs id }
      mget n.txs id = some v →
      (v.open_ = true →
        ((∃ d z, t.kind = .load d z) ∨ (∃ op d wide sgn, t.kind = .atom op d wide sgn) → exec (.loadValueReturn id) s = .next n) ∧
        (t.kind = .store ∨ (∃ inv, t.kind = .cflsh inv) → exec (.storePerformed id) s = .next n)) ∧
      (v.open_ = false →
        (∀ d z, t.kind = .load d z → exec (.loadValueReturn id) s =
          .next (lowerIc (updUid gone v.uid (fun w => landLoad w n.cycle id v d z)) v.uid id)) ∧
        (∀ op d wide sgn, t.kind = .atom op d wide sgn → exec (.loadValueReturn id) s =
          .next (lowerIc (updUid gone v.uid (fun w => landAtom w n.cycle id v.mask d wide sgn (fun l => (v.resOf l).map ofBytes))) v.uid id)) ∧
        (t.kind = .store ∨ (∃ inv, t.kind = .cflsh inv) → exec (.storePerformed id) s = .next (lowerIc gone v.uid id)))) ∧
    (∀ id t p, mget s.txs id = some t → t.parts[0]? = some p → p.place = .scratch → (∀ u ∈ scratchTxs s t.core, id ≤ u.1) →
      let r := performPart t p { s with payer := payerOf s t.launch }
      (partReady s id t p = true → exec (.scratchpadAccess id) s =
        .next (finishTx { r.2 with txs := madj r.2.txs id (fun t => { t with parts := t.parts.set 0 r.1 }) } id)) ∧
      (partReady s id t p = false → exec (.scratchpadAccess id) s = .next (finishTx s id))) ∧
    (∀ id part t p, mget s.txs id = some t → t.parts[part]? = some p →
      let b : State := { s with payer := payerOf s t.launch }
      let after := fun (r : Part × State) => ({ r.2 with txs := madj r.2.txs id (fun t => { t with parts := t.parts.set part r.1 }) } : State)
      (p.place = .home → partReady s id t p = true → (∀ l ∈ p.lines, lateAt s (clusterOf t.core) l = false) →
        exec (.homeAccess id part) s = .next (after (performPart t p (arrive b (clusterOf t.core) p.lines)))) ∧
      (p.place = .home → partReady s id t p = false ∨ (∃ l ∈ p.lines, lateAt s (clusterOf t.core) l = true) →
        exec (.homeAccess id part) s = .next s) ∧
      (p.place ≠ .home → exec (.homeAccess id part) s = .next s) ∧
      (p.place = .host → partReady s id t p = true → exec (.hostAccess (.perform id part)) s = .next (after (performPart t p b))) ∧
      (p.place = .host → partReady s id t p = false → exec (.hostAccess (.perform id part)) s = .next s)) ∧
    (∀ ctx va len,
      let ls := rangeLines s ctx va len .read
      let r := readVa (arrive s hostRank ls) devCl ctx va len
      ((∃ l ∈ ls, lateAt s hostRank l = true) → exec (.hostAccess (.read ctx va len)) s = .next s) ∧
      ((∀ l ∈ ls, lateAt s hostRank l = false) →
        (∀ bs, r.1 = .ok bs → exec (.hostAccess (.read ctx va len)) s = .next (emit r.2 (.hostData bs))) ∧
        (∀ c, r.1 = .error c → exec (.hostAccess (.read ctx va len)) s = .next (emit r.2 .hostAbort)))) ∧
    (∀ ctx va bs,
      let ls := rangeLines s ctx va bs.length .write
      ((∃ l ∈ ls, lateAt s hostRank l = true) → exec (.hostAccess (.write ctx va bs)) s = .next s) ∧
      ((∀ l ∈ ls, lateAt s hostRank l = false) →
        exec (.hostAccess (.write ctx va bs)) s = .next (writeVa (arrive s hostRank ls) devCl ctx 0 va bs).2)) ∧
    (∀ bar off len,
      (∀ bs, bar = 2 → barBytes s off len = some bs → exec (.hostAccess (.readBar bar off len)) s = .next (emit s (.hostData bs))) ∧
      (bar ≠ 2 ∨ barBytes s off len = none → exec (.hostAccess (.readBar bar off len)) s = .next (emit s .hostAbort))) ∧
    (∀ b,
      let g := (barOf s b).gen + 1
      (barDone s b = false → exec (.barrierComplete b) s = .next s) ∧
      (barDone s b = true → exec (.barrierComplete b) s = .next (wakeWhere (setBar s b { Barrier.zero with gen := g })
        (fun _ x => match x.st with | .park (.barrier b' g') => b' == b && g' != g.toNat | _ => false) [.void]))) ∧
    (s.decrs = [] → exec .taskDecrement s = .next s) ∧
    (∀ d rest, s.decrs = d :: rest →
      let b := { s with decrs := rest }
      (nodeOf b d.ctx d.handle = none → exec .taskDecrement s = .next (postEvent b d.ctx (launchRec 4 0 d.handle 0 0))) ∧
      (∀ slot idx n, nodeOf b d.ctx d.handle = some (slot, idx, n) →
        let live := (match mget s.graphs slot with | some g => g.running | none => false)
        let under := fun (k : Nat) => postEvent b d.ctx (launchRec 3 0 d.handle k 0)
        let met := fun (u : State) => updNode u slot idx (fun n =>
          { n with count := 0, st := if n.st = .loaded ∧ live = true then .ready else n.st, order := u.nextId })
        let tests := fun (u : State) => testTwaits { u with nextId := u.nextId + 1 } d.ctx d.handle
        let c := n.count.toNat
        (c = 0 → exec .taskDecrement s = .next (under d.amount)) ∧
        (c ≠ 0 → c < d.amount → exec .taskDecrement s = .next (tests (met (under (d.amount - c))))) ∧
        (c ≠ 0 → c = d.amount → exec .taskDecrement s = .next (tests (met b))) ∧
        (d.amount < c → exec .taskDecrement s =
          .next (tests (updNode b slot idx (fun n => { n with count := BitVec.ofNat 32 (c - d.amount) })))))) ∧
    (∀ ctx n,
      let closes := fun (e : Instr) (k : Nat) =>
        ((∀ c, ctxOf s ctx = some c → ∀ r, mget c.records n = some r → r.closing ≠ none) → exec e s = .next s) ∧
        (∀ c r, ctxOf s ctx = some c → mget c.records n = some r → r.closing = none →
          let u := if k = 3 then escalate s ctx 2 r.pc.toNat else s
          ((ctx, n) ∉ u.heldRecords → exec e s = .next (finishClose u ctx n k r)) ∧
          ((ctx, n) ∈ u.heldRecords → exec e s = .next (updCtx u ctx (fun c => { c with
            records := madj c.records n (fun r => { r with closing := some k }) }))))
      closes (.rcloseRetry ctx n) 0 ∧ closes (.rcloseSkip ctx n) 1 ∧ closes (.rcloseKillw ctx n) 2 ∧ closes (.rcloseKillc ctx n) 3)

/-- 09 R293-R316, 10 R322-R340, 11 R354, R355, R363-R365, R370: copies take their turn chunk by chunk, latches post passes that run step
by step, and the units start, save and release programs and exchange the parts of collectives. -/
def Obligations.EngineEventsAct : Prop :=
  ∀ s : State,
    (∀ c x, (c, x) ∈ allCopies s → x.st = .admission → copyRuns s x.ctx = true →
      (∀ q ∈ allCopies s, q.1.core = c.core → q.2.st = .admission → copyRuns s q.2.ctx = true → q ≠ (c, x) → x.order < q.2.order) →
      let clear := accessesDone s x.uid 0xFFFF x.after = true ∧ (scopeWide x.scope = true → sketchesDone s x.uid x.after = true) ∧
        (x.scope = .domain → remotesDone s x.uid x.after = true)
      let b : State := { s with payer := copyPayer s x }
      let u := if x.node = none ∧ scopeWide x.scope = true then cleanCtx b (clusterOf c.core) x.ctx else b
      (¬ clear → exec (.copyTakeUp c.core) s = .next s) ∧
      (clear → x.total = 0 → exec (.copyTakeUp c.core) s = .next (endCopy u c true)) ∧
      (clear → x.total ≠ 0 → exec (.copyTakeUp c.core) s = .next (updCopy u c (fun x => { x with
        st := if x.bk then .bkwait 0 else if x.op = .copyf then .panelwait else .run })))) ∧
    (∀ c x, copyOf s c = some x → copyRuns s x.ctx = true →
      let b : State := { s with payer := copyPayer s x }
      (x.failing = true → x.flight = [] → x.over = false → exec (.copyChunkIssue c) s = .next (endCopy b c false)) ∧
      (x.failing = true → x.flight ≠ [] ∨ x.over = true → exec (.copyChunkIssue c) s = .next b) ∧
      (x.failing = false → ∀ w, x.st = .bkwait w →
        (holdsBuckle s x.ctx x.b = false → exec (.copyChunkIssue c) s = .next (failCopy b c 9 0)) ∧
        (holdsBuckle s x.ctx x.b = true →
          (mget s.buckles x.b = none → w = 0 → exec (.copyChunkIssue c) s = .next b) ∧
          (mget s.buckles x.b = none → w ≠ 0 → exec (.copyChunkIssue c) s = .next (failCopy b c 2 0)) ∧
          (∀ k, mget s.buckles x.b = some k → w ≠ 0 ∧ w ≠ k.tie → exec (.copyChunkIssue c) s = .next (failCopy b c 2 0)) ∧
          (∀ k, mget s.buckles x.b = some k → w = 0 ∨ w = k.tie → exec (.copyChunkIssue c) s =
            .next (updCopy b c (fun x => { x with st := if k.fastened then .run else .bkwait k.tie }))))) ∧
      (x.failing = false → x.st = .panelwait →
        (x.pos < 8 ∨ posReleased (clustOf s (clusterOf x.core)) (x.r0.toNat == 0) (x.pos - 8) = true) →
        exec (.copyChunkIssue c) s = .next (updCopy b c (fun x => { x with st := .run }))) ∧
      (x.failing = false → x.st = .run →
        (x.total ≤ x.chunkOff x.pfx → exec (.copyChunkIssue c) s = .next (endCopy b c true)) ∧
        (x.chunkOff x.pfx < x.total → x.chunkOff x.next < x.total → x.next < x.pfx + 16 → bit x.mask (x.next - x.pfx) = false →
          exec (.copyChunkIssue c) s = .next (issueChunk b c x) ∧
          (mget x.flight x.next = none → turn (.copyError c x.next) s = .next (failCopy b c 8 0))) ∧
        (x.chunkOff x.pfx < x.total → x.chunkOff x.next < x.total → x.next < x.pfx + 16 → bit x.mask (x.next - x.pfx) = true →
          exec (.copyChunkIssue c) s = .next (updCopy b c (fun x => { x with next := x.next + 1 }))))) ∧
    (∀ c n x k, copyOf s c = some x → mget x.flight n = some k →
      let b : State := { s with payer := copyPayer s x }
      let off := x.chunkOff n
      let target := warpOf s (twCore x.r1.toNat) (twSlot x.r1.toNat)
      let there := target.uid = x.pos ∧ targetOk s x.ctx x.r1.toNat x.r2.toNat = true
      (x.op = .copy ∨ x.op = .copy2 → exec (.copyChunkPerformed c n) s =
        .next (chunkDone (writeUnits b x.tag k.x.key (x.stores off (resolve s x.ctx k.x x.sh) k.bytes)) c n)) ∧
      (x.op = .copyw → there → exec (.copyChunkPerformed c n) s = .next (chunkDone (writeTarget b x off k.bytes) c n)) ∧
      (x.op = .copyw → ¬ there → exec (.copyChunkPerformed c n) s = .next (chunkLost b c n 3)) ∧
      (x.op ≠ .copyr → turn (.copyError c n) s = .next (chunkLost b c n 8)) ∧
      (x.op = .copyr → s.ns < k.sent + 1000000 → exec (.copyrChunkTimeout c n) s = .next s) ∧
      (x.op = .copyr → k.sent + 1000000 ≤ s.ns → x.over = true → exec (.copyrChunkTimeout c n) s = .next (signalLost s c)) ∧
      (x.op = .copyr → k.sent + 1000000 ≤ s.ns → x.over = false →
        (∀ r, s.reqs.find? (fun r => r.owner == .chunk c n) = some r →
          exec (.copyrChunkTimeout c n) s = .next (chunkLost (retireReq s r) c n 12)) ∧
        ((∀ r ∈ s.reqs, r.owner ≠ .chunk c n) →
          exec (.copyrChunkTimeout c n) s =
            .next (chunkLost { s with reqQueue := s.reqQueue.filter (fun r => r.owner != .chunk c n) } c n 12)))) ∧
    (∀ ctx p, (ctxOf s ctx).bind Ctx.preempt = some p →
      (p.forced = true → p.drained = false → p.drainEnd ≤ s.ns →
        exec (.drainlimExpiry ctx) s = .next (allowSave (mapCopies s ctx Copy.squash) ctx)) ∧
      (s.ns < p.drainEnd → exec (.drainlimExpiry ctx) s = .next s)) ∧
    (∀ cl n e x d,
      let b := latchSweep s cl n
      let c := clustOf b cl
      let lat := mgetD c.latches n .empty
      let mem := (harnMembers lat.v.toNat).map (memberAt cl)
      lat.filling = true → (∀ p ∈ mem, (warpOf b p.1 p.2).uid ∈ lat.arrived) → postBehind b cl n = false → freeEntry c = some e →
      latchWord lat.word.toNat = some (x, d) →
      let r := postPass (setLatch b cl n .empty) cl e n x lat.desc.toNat (mem.map (fun p => ((warpOf b p.1 p.2).uid, p.1, p.2)))
      exec (.passPost cl n) s = .next (mem.foldl (releaseMember n r.1 d) r.2)) ∧
    (∀ cl e p,
      let c := clustOf s cl
      (∀ q ∈ c.passes, q.2.st ≠ .running) → clusterForced s cl = false → arbitrate s cl = some (e, p) →
      Ends (.passGrant cl) s (fun t => ∃ q, mget (clustOf t cl).passes e = some q ∧ q = { p with st := .running, zeroed := true })) ∧
    (∀ cl e p,
      let c := clustOf s cl
      c.passes.find? (fun q => q.2.st == .running) = some (e, p) → badCodes c p = false →
      Ends (.passKstepComplete cl) s (fun t => ∃ q, mget (clustOf t cl).passes e = some q ∧ q.kdone = p.kdone + 1 ∧
        (q.st = .done ↔ p.kdone + 1 = p.k) ∧ (q.st = .stopped ↔ p.kdone + 1 ≠ p.k ∧ clusterForced s cl = true))) ∧
    (∀ g,
      let u := nmuOf s g
      let place := mfresh u.places 0 4
      (nextQueued s u = none → exec (.nmuNodeLoad g) s = .next s) ∧
      (∀ q, nextQueued s u = some q →
        let room := place < 4 ∧ u.used + q.words ≤ 16384 ∧ bit s.status.stackMask g = true ∧
          (q.saved = none → earlierReady s 2 q.order (namesStack s g) = false)
        let taken := updNmu s g (fun u => { u with queue := u.queue.filter (fun r => r.node != q.node || r.ctx != q.ctx) })
        let r := readVa taken devCl q.ctx q.prog (4 * q.words)
        (¬ room → exec (.nmuNodeLoad g) s = .next s) ∧
        (room → ∀ va, r.1 = .error va → exec (.nmuNodeLoad g) s = .next (agentEndAt r.2 q.ctx q.node false 0xF1 va)) ∧
        (room → ∀ bs, r.1 = .ok bs → Ends (.nmuNodeLoad g) s (fun t => ∃ p, nmuProg t g place = some p ∧
          p.words = wordsOf q.words bs ∧ (q.saved = none → p = startProg q (wordsOf q.words bs) r.2.nextId))))) ∧
    (∀ g k p, nmuProg s g k = some p →
      (nmuActive s p.ctx = true ∨ p.fault ≠ none → exec (.nmuProgramSave g k) s = .next s) ∧
      (nmuActive s p.ctx = false → p.fault = none → p.pending = true →
        exec (.nmuProgramSave g k) s = .next (putProg (drainEvent p s).2 g k (drainEvent p s).1)) ∧
      (nmuActive s p.ctx = false → p.fault = none → p.pending = false → Ends (.nmuProgramSave g k) s (fun t => nmuProg t g k = none)) ∧
      (∀ x v, p.parked = some (x, v, true) → exec (.nwaitRelease g k) s = .next (putProg s g k { p with parked := none }.advance))) ∧
    (∀ n nb c, mget s.colls n = some c →
      (∀ cause, nb.abort = some cause → exec (.collectiveCheckExchange n nb) s = .next (collEnd s n false (if c.bad then 3 else cause))) ∧
      (nb.abort = none → c.bad = true → exec (.collectiveCheckExchange n nb) s = .next (collAbort s n 3 4)) ∧
      (nb.abort = none → c.bad = false → nb.bad = true → exec (.collectiveCheckExchange n nb) s = .next (collAbort s n 4 4)) ∧
      (nb.abort = none → c.bad = false → nb.bad = false → nb ≠ c.peer → exec (.collectiveCheckExchange n nb) s = .next (collAbort s n 1 1)) ∧
      (nb.abort = none → c.bad = false → nb.bad = false → nb = c.peer → c.heard + 1 < c.neighbours.length →
        exec (.collectiveCheckExchange n nb) s = .next { s with colls := mset s.colls n { c with heard := c.heard + 1 } })) ∧
    (∀ n seg c, mget s.colls n = some c → seg.first + seg.values.length ≤ c.sk.count →
      let u := { s with colls := mset s.colls n { c with early := c.early ++ [seg] } }
      (c.heard < c.neighbours.length → exec (.collectiveSegmentReceive n seg) s = .next u) ∧
      (c.neighbours.length ≤ c.heard →
        exec (.collectiveSegmentReceive n seg) s = .next (collDone (collRun (c.early.length + 1) u n) n)))

/-- 12 R378-R395, 13 R401-R414: packets come in, are checked and submitted; launches and graphs start, run their nodes and end; queues
count drops, charge and refill budgets. -/
def Obligations.LaunchEventsAct : Prop :=
  ∀ s : State,
    (∀ ctx src pkt,
      (∀ r, refuseReason s ctx pkt = some r → exec (.launchSubmit ctx src pkt) s = .next (reportRefusal s ctx src r r 0)) ∧
      (refuseReason s ctx pkt = none → Ends (.launchSubmit ctx src pkt) s (fun t => ∃ l, mget t.launches s.nextId = some l ∧
        l.pkt = pkt ∧ l.ctx = ctx ∧ l.st = .submitted ∧ l.rel = none))) ∧
    (∀ id l, mget s.launches id = some l → l.rel = none → fld l.pkt 0 1 = 1 →
      let starts := l.st = .submitted ∧ ctxActive s l.ctx = true ∧ traceBusy s id l = false
      (starts → exec (.launchStart id) s = .next (startLaunch s id l)) ∧ (¬ starts → exec (.launchStart id) s = .next s)) ∧
    (∀ id l r, mget s.launches id = some l → l.rel = some r → l.st = .submitted → r.hdr = [] → ctxActive s l.ctx = true →
      traceBusy s id l = false →
      let read := readAs s devCl l.ctx .rmw r.tb 256
      let u := read.2
      (∀ va, read.1 = .error va → exec (.relaunchHeaderRead id) s = .next (refuseRelaunch u id l r 0 va)) ∧
      (∀ hdr, read.1 = .ok hdr →
        let pkt := hdr.take 64
        let traced := fld pkt 0 1 = 1 ∧ bit (fld pkt 1 1) 0 = true
        (∀ k, refuseReason u l.ctx pkt = some k → exec (.relaunchHeaderRead id) s = .next (refuseRelaunch u id l r k r.tb)) ∧
        (refuseReason u l.ctx pkt = none → ¬ traced → exec (.relaunchHeaderRead id) s = .next (refuseRelaunch u id l r 0 r.tb)) ∧
        (refuseReason u l.ctx pkt = none → traced → Ends (.relaunchHeaderRead id) s (fun t => ∃ m q, mget t.launches id = some m ∧
          m.pkt = pkt ∧ m.rel = some q ∧ q.hdr = hdr ∧ q.gs = BitVec.ofNat 64 (fld hdr 64 8) ∧ q.valid = bit (fld hdr 88 1) 0)))) ∧
    (∀ id l, mget s.launches id = some l →
      (¬ (l.st = .ending ∧ launchQuiet s id = true) → exec (.launchEnd id) s = .next s) ∧
      (l.st = .ending → launchQuiet s id = true →
        let mine := s.cbs.filter (fun c => c.2.launch == id)
        let a := endHeader (((mine.map (fun c => c.2.cluster)).eraseDups).foldl (fun s cl => cleanCtx s cl l.ctx) s) id l
        let b := complete a l.ctx l.src (fld l.pkt 48 2) l.completion.1 l.completion.2
        let c : State := { b with
          launches := mdel b.launches id, olds := mmap (fun m => mdel m id) b.olds
          cbs := b.cbs.filter (fun c => c.2.launch != id), blocks := b.blocks.filter (fun x => x.2.launch != id) }
        (∀ h, l.src = .node h → exec (.launchEnd id) s = .next (ctxSettle (queueDrain (agentEnd c l.ctx h true 0) l.queue) l.ctx)) ∧
        (∀ q n, l.src = .queue q n → exec (.launchEnd id) s = .next (ctxSettle (queueDrain c l.queue) l.ctx)))) ∧
    (∀ id l, mget s.launches id = some l → l.st = .submitted → fld l.pkt 0 1 = 2 → ctxActive s l.ctx = true →
      slotFree s (graphSlot l) = true →
      (∀ m ∈ s.launches, m.1 < id → ¬ (m.2.st = .submitted ∧ fld m.2.pkt 0 1 = 2 ∧ graphSlot m.2 = graphSlot l)) →
      let n := fld l.pkt 16 8 % 65536 + 1
      let va := fld l.pkt 8 8
      let read := readVa s devCl l.ctx va (32 * n)
      let u := read.2
      (∀ f, read.1 = .error f → exec (.graphLoad id) s =
        .next (queueDrain (reportRefusal { u with launches := mdel u.launches id } l.ctx l.src 7 7 f) l.queue)) ∧
      (∀ bs, read.1 = .ok bs →
        Ends (.graphLoad id) s (fun t => t.gen = s.gen + 1 ∧ ∃ g, mget t.graphs (graphSlot l) = some g ∧ g.ctx = l.ctx ∧
          g.nodes = loadNodes bs s.nextId n ∧ g.terminal = fld l.pkt 28 4 ∧ g.kind = fld l.pkt 52 1 ∧
          g.word = BitVec.ofNat 64 (fld l.pkt 56 8) ∧ g.running = true))) ∧
    (∀ slot idx g n, mget s.graphs slot = some g → mget g.nodes idx = some n →
      (n.st ≠ .ready → exec (.nodeStart slot idx) s = .next s) ∧
      (n.st = .ready →
        let type := fld n.entry 0 1
        let held := g.running = false ∨ budgetHeld s g.queue = true ∨ ctxActive s g.ctx = false ∨ (type = 3 ∧ freeChannel s = none)
        let read := readNode s g.ctx n.entry
        (held → exec (.nodeStart slot idx) s = .next s) ∧
        (¬ held → entryBad n.entry = true → exec (.nodeStart slot idx) s = .next (nodeFail s slot idx 0xF0 0)) ∧
        (¬ held → entryBad n.entry = false →
          (∀ r va, read.1 = .error (r, va) → exec (.nodeStart slot idx) s = .next (nodeFail read.2 slot idx r va)) ∧
          (∀ p l, read.1 = .ok (p, l) →
            let u := dropEverywhere read.2 g.ctx
            let started := startAgent u g.ctx (handleOf slot idx) n.order g.queue type (fld n.entry 8 8) p
            (∀ r va, started.1 = .error (r, va) → exec (.nodeStart slot idx) s = .next (nodeFail started.2 slot idx r va)) ∧
            (∀ k, started.1 = .ok k → exec (.nodeStart slot idx) s =
              .next (updNode started.2 slot idx (fun n => { n with st := .running, payload := p, list := l, launch := k })))))) ∧
      (∀ r va, n.st = .ended true r va → exec (.nodeEnd slot idx) s = .next (nodeEnded (nodeDone s slot idx g n) g)) ∧
      (∀ r va, n.st = .ended false r va → exec (.nodeEnd slot idx) s = .next (nodeEnded (nodeFail s slot idx r va) g)) ∧
      (n.st = .running →
        let done := fld n.entry 0 1 = 7 ∧ ctxActive s g.ctx = true
        let h := hostSig s g.ctx n.payload
        (¬ done → exec (.nodeEnd slot idx) s = .next s) ∧
        (done → h.1 = true → exec (.nodeEnd slot idx) s = .next (nodeEnded (nodeDone h.2 slot idx g n) g)) ∧
        (done → h.1 = false → exec (.nodeEnd slot idx) s = .next (nodeEnded (nodeFail h.2 slot idx 1 0) g)))) ∧
    (∀ slot g, mget s.graphs slot = some g →
      let ended := (∃ n, mget g.nodes g.terminal = some n ∧ n.st.over = true) ∨ ∃ n ∈ g.nodes, n.2.st = .failed
      let busy := ∃ n ∈ g.nodes, n.2.st = .running ∨ ∃ ok r va, n.2.st = .ended ok r va
      (g.running = true → ended → ¬ busy →
        let u := complete (updGraph s slot (fun g => { g with running := false })) g.ctx g.src 0 g.kind g.word.toNat
        exec (.graphComplete slot) s = .next (ctxSettle (queueDrain { u with launches := mdel u.launches g.launch } g.queue) g.ctx)) ∧
      (g.running = false ∨ ¬ ended ∨ busy → exec (.graphComplete slot) s = .next s)) ∧
    (∀ q bs x, mget s.queues q = some x →
      let packet := x.takes = true ∧ bs.length = 64 ∧ (fld bs 0 1 = 1 ∨ fld bs 0 1 = 2)
      let bell := x.takes = true ∧ bs.length = 64 ∧ fld bs 0 1 = 3
      let tail := fld bs 8 8
      let good := x.tail ≤ tail ∧ tail - x.head ≤ 2 ^ x.desc.order ∧ fld bs 1 7 = 0 ∧ allZero (bs.drop 16) = true
      (¬ packet → exec (.launchRegisterInline q bs) s = .next (countDrop s q)) ∧
      (packet → x.full = true → exec (.launchRegisterInline q bs) s = .next (updQueue s q (fun x => { x with overflow := true }))) ∧
      (packet → x.full = false → exec (.launchRegisterInline q bs) s = .next (appendInline s q x bs)) ∧
      (¬ bell → exec (.launchRegisterDoorbell q bs) s = .next (countDrop s q)) ∧
      (bell → ¬ good → exec (.launchRegisterDoorbell q bs) s = .next (updQueue s q (fun x => { x with overflow := true }))) ∧
      (bell → good → Ends (.launchRegisterDoorbell q bs) s (fun t => ∃ y, mget t.queues q = some y ∧
        y = { x with tail := tail, st := if x.st = .idle ∧ x.head < tail then .active else x.st }))) ∧
    (∀ q n, exec (.launchRegisterDrop q .read) s = .next s ∧ exec (.launchRegisterDrop q .badWrite) s = .next (countDrop s q) ∧
      exec (.launchRegisterDrop q (.otherKind n)) s = .next (countDrop s q)) ∧
    (∀ p v, p < 16 → v.toNat % 2 ^ 32 ≤ 1024 →
      exec (.barRegisterWrite (0x100008 + 0x200 * p) v) s = .next (updPort s p (fun x => { x with autowake := v.toNat % 2 ^ 32 }))) ∧
    (∀ p v, p < 16 → 1024 < v.toNat % 2 ^ 32 → Ends (.barRegisterWrite (0x100008 + 0x200 * p) v) s (fun t =>
      ∃ n, n ≤ 1024 ∧ t = updPort { s with freeCtr := t.freeCtr } p (fun x => { x with autowake := n }))) ∧
    (∀ v, exec (.barRegisterWrite 0x122008 v) s = .next { s with linkHeadHost := v }) ∧
    (chooseQueue s = none → exec .packetConsume s = .next s) ∧
    (∀ q x, chooseQueue s = some (q, x) →
      let a : State := { s with queues := s.queues.map (fun y => if eligibleQueue s y.1 y.2 then y else (y.1, { y.2 with deficit := 0 })) }
      let d := (if x.deficit = 0 then x.desc.quantum else x.deficit) - 1
      let b := consumeHead a q x
      let still := ∃ y, mget b.queues q = some y ∧ eligibleQueue b q y = true
      (d ≠ 0 ∧ still → exec .packetConsume s = .next (updQueue b q (fun y => { y with deficit := d }))) ∧
      (d = 0 ∨ ¬ still → exec .packetConsume s =
        .next { (updQueue b q (fun y => { y with deficit := 0 })) with lastq := mset b.lastq x.desc.prio q })) ∧
    (∀ q counts x, mget s.queues q = some x →
      (x.desc.budget = 0 → exec (.energyCharge q counts) s = .next s ∧ exec (.budgetRefill q) s = .next s) ∧
      (x.desc.budget ≠ 0 → counts ≠ pendingCharge s q → exec (.energyCharge q counts) s = .next s) ∧
      (x.desc.budget ≠ 0 → counts = pendingCharge s q →
        let b := x.balance - (energyOf s counts : Int)
        Ends (.energyCharge q counts) s (fun t => ∃ y, mget t.queues q = some y ∧
          y = { x with balance := b, st := if b ≤ 0 ∧ (x.st = .idle ∨ x.st = .active) then .budgetHeld else x.st })) ∧
      (x.desc.budget ≠ 0 → s.ns < x.periodStart + 1000 * x.desc.period ∨ (∃ n ∈ pendingCharge s q, n ≠ 0) →
        exec (.budgetRefill q) s = .next s) ∧
      (x.desc.budget ≠ 0 → x.periodStart + 1000 * x.desc.period ≤ s.ns → (∀ n ∈ pendingCharge s q, n = 0) →
        let b := uJ x.desc.budget + (if x.balance < 0 then x.balance else 0)
        Ends (.budgetRefill q) s (fun t => ∃ y, mget t.queues q = some y ∧
          y = { x with balance := b, periodStart := x.periodStart + 1000 * x.desc.period,
                       deficit := if x.st = .budgetHeld then 0 else x.deficit, st := if x.st = .budgetHeld ∧ 0 < b then (if x.head < x.tail then .active else .idle) else x.st }))) ∧
    (∀ q x, mget s.queues q = some x →
      (x.st = .destroyed → s.status.firmware = true → exec (.queueRelease q) s = .next { s with queues := mdel s.queues q }) ∧
      (¬ (x.st = .destroyed ∧ s.status.firmware = true) → exec (.queueRelease q) s = .next s))

/-- 13 R400, R412-R414, 14 R416-R420, R426-R442, 15 R448, R468: what firmware does for each request of its mailbox, with the status it
answers; nothing answers while it does not run. The conditions of grants and the status of a bind of several partitions are the model's
(notes/assumptions/61, 68). -/
def Obligations.MailboxEventsAnswer : Prop :=
  ∀ s : State,
    let plain := fun (o : Option State) => o.map (fun t => (t, ([] : List Byte)))
    (∀ d, Asks (.ctxCreate d) s
      (if descOk d = true ∧ idFree s d.id = true ∧ keysTaken s d.id d.keys = false then some (createCtx s d, []) else none)) ∧
    (∀ ctx c m un, liveCtx s ctx = some c → Answers (.ctxBind ctx m un) s (bindMask s ctx m un)) ∧
    (∀ ctx m un, liveCtx s ctx = none → Answers (.ctxBind ctx m un) s (1, s) ∧ Asks (.ctxDestroy ctx) s none ∧
      (∀ f, Asks (.ctxPreempt ctx f) s none) ∧ Answers (.ctxRestore ctx) s (1, s) ∧ (∀ w, Asks (.grant ctx w) s none) ∧
      (∀ n, Asks (.attest ctx n) s none) ∧ Asks (.ctxResume ctx) s none) ∧
    (∀ ctx c, liveCtx s ctx = some c →
      Asks (.ctxDestroy ctx) s (some (destroyCtx s ctx c, [])) ∧
      (c.st = .resident ∨ c.st = .running → ∀ f, Asks (.ctxPreempt ctx f) s (some (preemptStart s ctx f none, []))) ∧
      (c.st = .preempting →
        Asks (.ctxPreempt ctx false) s none ∧
        (∀ p, c.pre = some p → p.forced = false → p.drained = false → Asks (.ctxPreempt ctx true) s (some (forceStop s ctx, []))) ∧
        (∀ p, c.pre = some p → p.forced = true ∨ p.drained = true → Asks (.ctxPreempt ctx true) s (some (s, [])))) ∧
      (c.st ≠ .swapped → Answers (.ctxRestore ctx) s (2, s)) ∧
      (c.st = .swapped → c.restoring ≠ none → Answers (.ctxRestore ctx) s (1, s)) ∧
      (c.st = .swapped → c.restoring = none → Answers (.ctxRestore ctx) s
        (0, updCtx s ctx (fun c => { c with restoring := some (partsOf c.desc.pmask, none) }))) ∧
      (∀ m, Asks (.grant ctx (.keys m)) s (if keysTaken s ctx m then none
        else some (updCtx s ctx (fun c => { c with desc := { c.desc with keys := c.desc.keys ||| m } }), []))) ∧
      (∀ ns,
        let free := fun (bound : Nat) (held : Ctx → List Nat) =>
          ∀ n ∈ ns, n < bound ∧ ∀ x ∈ s.ctxs, x.1 ≠ ctx → n ∉ held x.2
        (free 256 Ctx.buckets → Asks (.grant ctx (.buckets ns)) s
          (some (updCtx s ctx (fun c => { c with buckets := (c.buckets ++ ns).eraseDups }), []))) ∧
        (free 64 Ctx.buckles → Asks (.grant ctx (.buckles ns)) s
          (some (updCtx s ctx (fun c => { c with buckles := (c.buckles ++ ns).eraseDups }), []))) ∧
        (free 4096 Ctx.slots → Asks (.grant ctx (.slots ns)) s
          (some (updCtx s ctx (fun c => { c with slots := (c.slots ++ ns).eraseDups }), []))) ∧
        Asks (.grant ctx (.frames ns)) s (plain (grantFrames s ctx ns)) ∧
        Asks (.grant ctx (.sharedFrames ns)) s (plain (grantFrames s 0xFFFF ns))) ∧
      (∀ n, Asks (.attest ctx n) s (some (s, report c n ++ toBytes 96 (Config.sign (report c n)).toNat))) ∧
      Asks (.ctxResume ctx) s (if c.st = .faulted then some (resumeCtx s ctx, []) else none)) ∧
    (∀ id key, Asks (.keyLoad id key) s (if 1 ≤ id ∧ id < 64 then some ({ s with
      keys := mset s.keys id key
      epochs := if mget s.keys id = some key then s.epochs else mset s.epochs id (mgetD s.epochs id 0 + 1) }, []) else none)) ∧
    (∀ q d, Asks (.queueBind q d) s
      (if q < 4096 ∧ mget s.queues q = none ∧ queueDescOk d = true ∧ (liveCtx s d.context).isSome = true then
        some ({ s with queues := mset s.queues q (newQueue s d) }, []) else none)) ∧
    (∀ q, mget s.queues q = none → Asks (.queueDestroy q) s none ∧ Asks (.queueResume q) s none) ∧
    (∀ q x, mget s.queues q = some x →
      Asks (.queueDestroy q) s (if x.st = .draining ∨ x.st = .destroyed then none
        else some (queueDrain (updQueue s q (fun x => { x with st := .draining })) (some q), [])) ∧
      Asks (.queueResume q) s (if x.st = .error then
        some (updQueue s q (fun x => { x with
          st := if x.head < x.tail then .active else .idle, overflow := false, deficit := 0 }), []) else none)) ∧
    (∀ ctx n a, Asks (.recordClose ctx n a) s (plain (closeRecord s ctx n a))) ∧
    (∀ ctx h map, h = 0 ∨ 65536 ≤ h → ∀ un, Asks (.handleBind ctx h un map) s none) ∧
    (∀ ctx h map, 0 < h → h < 65536 →
      let bound := (hostMap s map).map (fun src => ({ s with handles := mset s.handles h ⟨ctx, src⟩ }, ([] : List Byte)))
      (mget s.handles h = none → Asks (.handleBind ctx h true map) s none ∧
        Asks (.handleBind ctx h false map) s (if (liveCtx s ctx).isSome then bound else none)) ∧
      (∀ k, mget s.handles h = some k →
        Asks (.handleBind ctx h true map) s (if k.ctx = ctx then some ({ s with handles := mdel s.handles h }, []) else none) ∧
        Asks (.handleBind ctx h false map) s (if (liveCtx s ctx).isSome ∧ k.ctx = ctx then bound else none))) ∧
    (∀ map, Asks (.fmSources map) s ((hostMap s map).map (fun src => ({ s with fmSources := src }, [])))) ∧
    (∀ k v, k < 8 → exec (.barRegisterWrite (0xC0000 + 8 * k) v) s =
      .next { s with mailboxReq := s.mailboxReq.take (8 * k) ++ toBytes 8 v.toNat ++ s.mailboxReq.drop (8 * k + 8) }) ∧
    (let b := s.mailboxReq
     let bell := exec (.barRegisterWrite 0xC0040 1) s
     (fld b 0 1 = 0x0E → bell = exec (.handleBind (fld b 2 2) (fld b 4 2) (bit (fld b 6 1) 0) (fld b 8 8)) s) ∧
     (fld b 0 1 = 0x0F → bell = exec (.fmSources (fld b 8 8)) s) ∧
     (fld b 0 1 = 0x10 → bell = exec (.energyCoef ((List.range 9).map (fun i => BitVec.ofNat 32 (fld b (8 + 4 * i) 4)))) s)) ∧
    (∀ cs, Asks (.energyCoef cs) s (some ({ s with
      ecoef := (List.range 9).foldl (fun m i => mput 0 m i ((cs[i]?).getD (mgetD m i 0))) s.ecoef }, [])))

/-- 14 R421-R434, R440, R441: held records are written, contexts become resident, are pre-empted, saved, moved and restored, a memory
error escalates the owner of its frame, and the device is reset, restarted and brought to full service. The order in which pressing and
created contexts are settled in one decision is the model's (notes/assumptions/62). -/
def Obligations.ContextEventsAct : Prop :=
  ∀ s : State,
    (∀ n,
      (s.heldRecords[n]? = none → exec (.heldRecordWrite n) s = .next (settleCloses s)) ∧
      (∀ p, s.heldRecords[n]? = some p →
        (s.heldRecords.find? (fun q => q.1 == p.1) = some p →
          (∀ t, heldTry s p = some t → exec (.heldRecordWrite n) s = .next (settleCloses t)) ∧
          (heldTry s p = none → exec (.heldRecordWrite n) s = .next (settleCloses s))) ∧
        (s.heldRecords.find? (fun q => q.1 == p.1) ≠ some p → exec (.heldRecordWrite n) s = .next s))) ∧
    (∀ pa, exec (.uncorrectableMemoryError pa) s =
      .next (if inDevice pa then escalate s (mgetD s.frameOwner (pa / 2 ^ 21) 0) 3 pa else s)) ∧
    exec .residencyDecision s = .next (s.ctxs.foldl settleCreated ((pressers s).foldl servePresser (restoringMask s, s))).2 ∧
    (∀ ctx p, (ctxOf s ctx).bind Ctx.preempt = some p →
      (p.forced = false → p.drained = false → p.deadline ≤ s.ns → exec (.gracelimExpiry ctx) s = .next (forceStop s ctx)) ∧
      (p.forced = true ∨ p.drained = true ∨ s.ns < p.deadline → exec (.gracelimExpiry ctx) s = .next s) ∧
      (let rest := blocksDone s ctx = true ∧ passesOver s ctx = true ∧ copiesOver s ctx = true ∧ nmuClear s ctx = true
       (p.forced = false → p.drained = false → rest → exec (.gracefulSave ctx) s = .next (allowSave s ctx)) ∧
       (p.forced = true ∨ p.drained = true ∨ ¬ rest → exec (.gracefulSave ctx) s = .next s)) ∧
      (p.left = [] → exec (.swapComplete ctx) s = .next (swapSignal (updCtx { s with holder := s.holder.filter (fun h => h.2 != ctx) } ctx
        (fun c => { c with st := .swapped, pre := none, outSince := s.ns })) p.signal)) ∧
      (p.left ≠ [] → exec (.swapComplete ctx) s = .next s)) ∧
    (∀ ctx c r, ctxOf s ctx = some c → c.st = .swapped → c.restoring = some r →
      (partsFree s c = true → exec (.swapComplete ctx) s = .next (restoreCtx s ctx c r.2)) ∧
      (partsFree s c = false → exec (.swapComplete ctx) s = .next s)) ∧
    (∀ part ctx c p, holderOf s part = some ctx → ctxOf s ctx = some c → c.preempt = some p →
      let shadow := toShadow c.desc.pmask part
      let may := part ∈ p.left ∧ partQuiet s ctx part p = true ∧ ¬ (shadow = true ∧ shadowUsed s part = true)
      (may → exec (.partitionImageWritten part) s = .next (updCtx (savePart s ctx part (if shadow then .shadow else .frames)) ctx (fun c =>
        { c with pre := c.pre.map (fun q => { q with left := q.left.filter (fun x => x != part) }) }))) ∧
      (¬ may → exec (.partitionImageWritten part) s = .next s)) ∧
    (∀ part, Ends (.imageMove part) s (fun t => ∃ l, t = { s with images := l } ∧ l.length = s.images.length ∧
      ∀ (k : Nat) (i : Nat × Image), s.images[k]? = some i →
        let moved := i.1 / 4096 = part ∧ i.2.loc = .shadow ∧ shadowWanted s (part / 4) i.2.ctx = true
        (moved → l[k]? = some (i.1, { i.2 with loc := .frames })) ∧ (¬ moved → l[k]? = some i))) ∧
    (∀ ok,
      let t : State := { State.reset with
        agenda := s.agenda, outbox := s.outbox, freeCtr := s.freeCtr
        status := { Status.reset with stackMask := 1, queues := true, firmware := ok, fwcores := if ok then 0xF else 0 } }
      exec (.deviceReset ok) s = .next (if ok then startFirmware t else t)) ∧
    (∀ core slot,
      let w := warpOf s core slot
      let uids := ((allWarps s).filter (fun q => q.2.2.firmware)).map (fun q => q.2.2.uid)
      let t := startFirmware { s with txs := s.txs.filter (fun t => !uids.contains t.2.uid) }
      (w.firmware = true → w.st = .held → exec (.firmwareFaultRestart core slot) s =
        .next (t.ctxs.foldl (fun s c => if c.2.st = .destroyed then s else postEvent s c.1 (mkRec [(0, 0x16), (1, 2)])) t)) ∧
      (w.firmware = false ∨ w.st ≠ .held → exec (.firmwareFaultRestart core slot) s = .next s)) ∧
    (s.status.firmware = false → exec .fullService s = .next s) ∧
    (s.status.firmware = true → exec .fullService s = .next { s with status := { s.status with
      stackMask := 0xFF, elec := if s.dev.isSome then 2 else s.status.elec, optics := true, matrix := true, fullclk := true } })

/-- 15 R444-R451, R455, R468, 16 R478, R483-R485: lanes come up and go down, request packets are served at most once, answers and
time-outs end requests, the fabric manager's messages are answered, and scripts start and their waits end. -/
def Obligations.PacketEventsAct : Prop :=
  ∀ s : State,
    (∀ lane port,
      (s.dev.getD port ≠ port → exec (.laneTrained lane port) s = .next (linkEvent s 8 (0x80 + lane) 0 0 0 0 0 0)) ∧
      (s.dev.getD port = port → lane ∈ s.lanes → exec (.laneTrained lane port) s = .next s) ∧
      (s.dev.getD port = port → lane ∉ s.lanes →
        let t : State := { s with dev := some port, lanes := insertAsc lane s.lanes,
                                  status := { s.status with elec := if s.status.fullclk then 2 else 1 } }
        let kept := s.sentPkts.filter (fun p => p.lane == 16)
        exec (.laneTrained lane port) s = .next (linkEvent (if s.lanes = [] then
          kept.foldl sendAgain { t with sentPkts := s.sentPkts.filter (fun p => p.lane != 16) } else t) 9 (0x80 + lane) 0 0 0 0 0 0))) ∧
    (∀ lane,
      (lane ∉ s.lanes → exec (.laneDown lane) s = .next s) ∧
      (lane ∈ s.lanes →
        let sent := s.sentPkts.filter (fun p => p.lane == lane)
        let left := s.lanes.filter (fun l => l != lane)
        let t : State := { s with lanes := left, sentPkts := s.sentPkts.filter (fun p => p.lane != lane),
                                  status := { s.status with elec := if left.isEmpty then 0 else s.status.elec } }
        ∃ k f, k ≤ sent.length ∧ exec (.laneDown lane) s =
          .next (linkEvent ((sent.drop k).foldl sendAgain { t with freeCtr := f }) 8 (0x80 + lane) 0 0 0 0 (sent.length - k) 0))) ∧
    (∀ h mask, ∃ p, Serves (.rldPacket h mask) s 5 h p ∧ ∀ u,
      (handleCtx u h.source h.handle = none → p u = ((1, []), u)) ∧
      (∀ ctx, handleCtx u h.source h.handle = some ctx →
        (∀ e v, remoteXlat u ctx h.line .read = (.error e, v) → p u = ((e, []), v)) ∧
        (∀ x v, remoteXlat u ctx h.line .read = (.ok x, v) →
          let r := remoteRead v x.key (resolve v ctx x false) 256
          p u = ((0, ((r.1.mapIdx (fun i b => (i, b))).filter (fun q => mask.getLsbD q.1)).map (·.2)), r.2)))) ∧
    (∀ h mask image, ∃ p, Serves (.rstPacket h mask image) s 6 h p ∧ ∀ u,
      (handleCtx u h.source h.handle = none → p u = ((1, []), u)) ∧
      (∀ ctx, handleCtx u h.source h.handle = some ctx →
        (bit h.op 3 = true → ∀ st v, chunkWrite u ctx h.source (fld image 256 4) h.line (bit h.op 4) (maskedBytes mask image) = (st, v) →
          p u = ((st, []), v)) ∧
        (bit h.op 3 = false → (∀ v, packetStores u ctx h mask image = (.ok (), v) → p u = ((0, []), v)) ∧
          (∀ e v, packetStores u ctx h mask image = (.error e, v) → p u = ((e, []), v))))) ∧
    (∀ h mask image flag, ∃ p, Serves (.rstfPacket h mask image flag) s 6 h p ∧ ∀ u,
      (handleCtx u h.source h.handle = none → p u = ((1, []), u)) ∧
      (∀ ctx, handleCtx u h.source h.handle = some ctx →
        (∀ e v, remoteXlat u ctx flag .rmw = (.error e, v) → p u = ((e, []), v)) ∧
        (∀ x v, remoteXlat u ctx flag .rmw = (.ok x, v) →
          (∀ e w, packetStores v ctx h mask image = (.error e, w) → p u = ((e, []), w)) ∧
          (∀ w, packetStores v ctx h mask image = (.ok (), w) → p u = ((0, []), remoteIncr w ctx x))))) ∧
    (∀ h lanes,
      (atomOfCode (h.op % 16) = none → exec (.ratomPacket h lanes) s = .next s) ∧
      (∀ op, atomOfCode (h.op % 16) = some op → ∃ p, Serves (.ratomPacket h lanes) s 5 h p ∧ ∀ u,
        (handleCtx u h.source h.handle = none → p u = ((1, []), u)) ∧
        (∀ ctx, handleCtx u h.source h.handle = some ctx →
          (∀ e v, remoteXlat u ctx h.line .rmw = (.error e, v) → p u = ((e, []), v)) ∧
          (∀ x v, remoteXlat u ctx h.line .rmw = (.ok x, v) →
            let r := lanes.foldl (ratomLane ctx x op (bit h.op 5) (bit h.op 4)) ([], v)
            p u = ((0, r.1), r.2))))) ∧
    (∀ h box v, ∃ p, Serves (.cratchMsg h box v) s 6 h p ∧ ∀ u,
      (handleCtx u h.source h.handle = none → p u = ((1, []), u)) ∧
      (∀ ctx, handleCtx u h.source h.handle = some ctx →
        (∀ w, mailPut u ctx box v = some w → p u = ((0, []), w)) ∧ (mailPut u ctx box v = none → p u = ((2, []), u)))) ∧
    (∀ (h : PktHdr) bytes results,
      (findReq s h.source h.tag = none → exec (.remoteResponse h bytes results) s = .next s ∧ exec (.remoteAcknowledgement h) s = .next s) ∧
      (∀ r, findReq s h.source h.tag = some r →
        (∀ tx lanes, r.owner = .word tx lanes →
          (r.type = 1 → exec (.remoteResponse h bytes results) s =
            .next (reqEnd s r h.status (rldVals (txSize s tx) (ofBytes r.payload) lanes bytes))) ∧
          (r.type = 4 → exec (.remoteResponse h bytes results) s =
            .next (reqEnd s r h.status ((lanes.map (fun l => l.1)).zip results)))) ∧
        (r.type = 1 ∨ r.type = 4 → exec (.remoteAcknowledgement h) s = .next s) ∧
        (r.type ≠ 1 → r.type ≠ 4 → exec (.remoteAcknowledgement h) s = .next (reqEnd s r h.status [])))) ∧
    (∀ target tag r, findReq s target tag = some r →
      (s.ns < r.sent + 1000000 → exec (.remoteTimeout target tag) s = .next s) ∧
      (r.sent + 1000000 ≤ s.ns → exec (.remoteTimeout target tag) s = .next (reqEnd s r 255 []))) ∧
    (∀ (h : PktHdr) port off v,
      let mine := s.fmSources.getLsbD h.source = true
      let a := 0x100000 + 0x200 * port + off / 8 * 8
      (¬ mine → exec (.managementRead h port off) s = .next s ∧ exec (.managementWrite h off v) s = .next s) ∧
      (mine → Serves (.managementRead h port off) s 5 h (fun u => ((0, toBytes 8 (linkReg u a)), u)) ∧
        Serves (.managementWrite h off v) s 6 h (fun u => ((0, []), if off = 0x122010 then { u with linkHeadFm := v } else u)))) ∧
    (nextScript s = none → exec .scriptStart s = .next s) ∧
    (∀ q p, nextScript s = some q → p < 16 → mget s.scripts p = none → (∀ k, k < p → mget s.scripts k ≠ none) →
      let room := s.scripts.foldl (fun n x => n + x.2.words.length) 0 + q.words ≤ 16384 ∧ earlierReady s 5 q.order (fun _ _ => true) = false
      let read := readVa { s with scriptQueue := s.scriptQueue.erase q } devCl q.ctx q.prog (4 * q.words)
      (¬ room → exec .scriptStart s = .next s) ∧
      (room → ∀ va, read.1 = .error va → exec .scriptStart s = .next (agentEndAt read.2 q.ctx q.node false 0xF1 va)) ∧
      (room → ∀ bs, read.1 = .ok bs →
        Ends .scriptStart s (fun t => ∃ x, mget t.scripts p = some x ∧ x.ctx = q.ctx ∧ x.node = q.node ∧
          x.words = (List.range q.words).map (fun i => BitVec.ofNat 32 (fld bs (4 * i) 4)) ∧ x.pc = 0 ∧ x.c = false ∧ x.wait = none))) ∧
    (∀ place x w t0, mget s.scripts place = some x → x.wait = some (w, t0) →
      (∀ r, scriptTest s place x w t0 = some r → exec (.cratchWaitEnd place) s = .next (finishWait s place x w r)) ∧
      (scriptTest s place x w t0 = none → exec (.cratchWaitEnd place) s = .next s))

/-- 15 R457-R466, Table link-6, Table link-8, 16 R472, R473, R476, R501, Table circuit-3: what a port and its circuit do at each flit,
message of the peer or the controller, change of light and time-out. That a TRAINED port fails and restripes like a LIVE one, and that
DENY and FAIL also drain a GRANTED circuit's port, are the model's reading (notes/assumptions/52, 57). -/
def Obligations.PortEventsAct : Prop :=
  ∀ s : State,
    (∀ p bs,
      let r := flitOk s p bs
      ((portOf r.2 p).st = .dark → exec (.dataFlit p bs) s = .next r.2) ∧
      ((portOf r.2 p).st ≠ .dark → r.1 = none → exec (.dataFlit p bs) s = .next (askReplay r.2 p)) ∧
      (∀ h, (portOf r.2 p).st ≠ .dark → r.1 = some h →
        let u := if bit h 25 then ackFlits r.2 p (bits h 26 12) else r.2
        (bits h 60 4 ≠ 1 ∨ bits h 38 12 ≠ (portOf u p).rxSeq % 4096 → exec (.dataFlit p bs) s = .next (askReplay u p)) ∧
        (bits h 60 4 = 1 → bits h 38 12 = (portOf u p).rxSeq % 4096 →
          let v := updPort u p (fun x => { x with
            rxSeq := x.rxSeq + 1, rxBuf := x.rxBuf ++ (bs.drop 8).take 240
            control := x.control.filter (fun c => c.head? != some 1 && c.head? != some 4) })
          exec (.dataFlit p bs) s = .next (sendFlit (framesIn p ((portOf v p).rxBuf.length / 16 + 1) v) p 3 0 []))) ∧
      (∀ h u, flitOk s p bs = (some h, u) → exec (.acknowledgementFlit p bs) s = .next (if bit h 25 then ackFlits u p (bits h 26 12) else u)) ∧
      (∀ u, flitOk s p bs = (none, u) → exec (.acknowledgementFlit p bs) s = .next u)) ∧
    (∀ p,
      let x := portOf s p
      let up := x.st = .trained ∨ x.st = .live
      (∀ seq, (x.st = .dark → exec (.replay p seq) s = .next s) ∧
        (x.st ≠ .dark → exec (.replay p seq) s = .next (resendFlits (ackFlits s p ((seq + 4095) % 4096)) p))) ∧
      (x.replay ≠ [] → x.lastAck + 10000 ≤ s.ns → exec (.replayTimeout p) s = .next (resendFlits s p)) ∧
      (x.replay = [] ∨ s.ns < x.lastAck + 10000 → exec (.replayTimeout p) s = .next s) ∧
      exec (.controlFlitRepeat p) s = .next (x.control.foldl (fun s c => sendFlit s p 2 0 c) s) ∧
      (¬ up → (∀ tx st seq, exec (.restripe p tx st seq) s = .next s) ∧ (∀ tx, exec (.restripeAck p tx) s = .next s) ∧
        exec (.portFail p) s = .next s) ∧
      (up → exec (.portFail p) s = .next (failPort s p 0) ∧
        (∀ st seq, exec (.restripe p true st seq) s = .next (sendControl (updPort s p (fun x => { x with
          rx := setWl x.rx (dropBits (stripeOf x.rx) st.toNat) (fun _ => true) .parked })) p [3, 1] false)) ∧
        (∀ (st : BitVec 16) seq,
          let before := stripeOf x.tx
          let gone := dropBits before st.toNat
          let a := updPort s p (fun x => { x with
            tx := setWl (setWl x.tx gone (fun w => w == .parking) .parked) gone (fun w => w == .lit) .lost, beat := 0 })
          let b := sendControl (ackFlits a p ((seq + 4095) % 4096)) p [3, 0] false
          let c := linkEvent (resendFlits b p) 2 p 0 before (stripeOf (portOf (resendFlits b p) p).tx) seq (portOf b p).replay.length x.peer
          ((portOf c p).pendingTx = [] → exec (.restripe p false st seq) s = .next c) ∧
          (∀ r rest, (portOf c p).pendingTx = r :: rest → exec (.restripe p false st seq) s =
            .next (if wlIn (portOf c p).tx .parking &&& r.waves = 0 then parkDone c p else c))) ∧
        exec (.restripeAck p true) s = .next (parkDone s p) ∧
        exec (.restripeAck p false) s = .next (startRestripe (updPort s p (fun x => { (x.unrestripe false) with
          pendingRx := x.pendingRx.drop 1 })) p false)) ∧
      (∀ (lost : BitVec 16) reverse,
        let before := stripeOf x.rx
        let gone := before &&& lost.toNat
        let left := dropBits before gone
        let a := updPort s p (fun x => { x with rx := setWl x.rx gone (fun _ => true) .lost })
        let b := linkEvent a 1 p 1 before left (x.rxSeq % 4096) 0 x.peer
        (x.st = .dark ∨ gone = 0 → exec (.lossOfLight p lost reverse) s = .next s) ∧
        (x.st ≠ .dark → gone ≠ 0 →
          (x.closeSeen = true → exec (.lossOfLight p lost reverse) s = .next a) ∧
          (x.closeSeen = false → ¬ up → exec (.lossOfLight p lost reverse) s = .next b) ∧
          (x.closeSeen = false → up → popcount 16 left < 2 ∨ reverse = false →
            exec (.lossOfLight p lost reverse) s = .next (failPort (if reverse then sendControl b p [7] false else b) p 1)) ∧
          (x.closeSeen = false → up → 2 ≤ popcount 16 left → reverse = true →
            exec (.lossOfLight p lost reverse) s = .next (queueRestripe b p false ⟨gone, 0⟩)))) ∧
      (let silent := x.st = .live ∧ x.lastRx + 20000 ≤ s.ns
       (silent → exec (.receiveSilence p) s = .next (failPort s p 1)) ∧ (¬ silent → exec (.receiveSilence p) s = .next s)) ∧
      (∀ ch (locked : BitVec 4),
        (x.st ≠ .live ∨ locked = 0 → exec (.wakeLock p ch locked) s = .next s) ∧
        (x.st = .live → locked ≠ 0 →
          let u := updPort s p (fun x => { x with rx := setWl x.rx (locked.toNat * 2 ^ (4 * ch) % 2 ^ 16) (fun _ => true) .lit })
          exec (.wakeLock p ch locked) s = .next (sendControl u p ([4] ++ toBytes 2 (stripeOf (portOf u p).rx)) true))) ∧
      (∀ st : BitVec 16,
        (x.st ≠ .live → exec (.wakeReady p st) s = .next s) ∧
        (x.st = .live → wlIn x.tx .waking &&& st.toNat = 0 →
          Ends (.wakeReady p st) s (fun t => ∀ q, portOf t q = portOf s q)) ∧
        (x.st = .live → Ends (.wakeReady p st) s (fun t => ∀ i, i < 16 →
          let was := fun (j : Nat) => mgetD x.tx j .dark
          let locked := fun (j : Nat) => was j = .waking ∧ bit st.toNat j = true
          (was i ≠ .waking → mgetD (portOf t p).tx i .dark = was i) ∧
          (locked i → mgetD (portOf t p).tx i .dark = .lit) ∧
          (was i = .waking → ¬ locked i → (∃ j, j < 16 ∧ j / 4 = i / 4 ∧ locked j) → mgetD (portOf t p).tx i .dark = .parked) ∧
          (was i = .waking → (∀ j, j < 16 → j / 4 = i / 4 → ¬ locked j) → mgetD (portOf t p).tx i .dark = .waking)))) ∧
      (∀ ch t0, mget x.waking ch = some t0 →
        (s.ns < t0 + 50000 → exec (.wakeTimeout p ch) s = .next s) ∧
        (t0 + 50000 ≤ s.ns → exec (.wakeTimeout p ch) s = .next (linkEvent (updPort s p (fun x => { x with
          tx := setWl x.tx (chanMask (2 ^ ch)) (fun w => w == .waking) .parked, waking := mdel x.waking ch }))
          6 p 0 (stripeOf x.tx) (stripeOf x.tx) 0 0 x.peer))) ∧
      (∀ wl, exec (.lightReturns p wl true) s = .next (updPort s p (fun x => { x with rx := setWl x.rx (2 ^ wl) (fun w => w == .lost) .parked })) ∧
        exec (.lightReturns p wl false) s = .next (updPort s p (fun x => { x with tx := setWl x.tx (2 ^ wl) (fun w => w == .lost) .parked }))) ∧
      (let due := x.st = .live ∧ x.autowake ≠ 0 ∧ x.autowake ≤ x.txq.length
       (due → exec (.autoWake p) s = .next (wakeChans s p (dropBits 15 x.failedCh))) ∧ (¬ due → exec (.autoWake p) s = .next s)) ∧
      (∀ ch r, exec (.laserRefresh p ch r) s = .next (
        let n := if r.bias0.toNat = 0 then (Config.choice s.freeCtr, { s with freeCtr := s.freeCtr + 1 })
          else (clampN (1000 * (r.bias.toNat - r.bias0.toNat) / r.bias0.toNat) 65535, s)
        updPort n.2 p (fun y => { y with lasers := mset y.lasers ch ⟨r.hours, r.bias, r.bias0, r.pow, BitVec.ofNat 32 n.1⟩ }))) ∧
      exec (.portLocked p) s = .next (if x.st = .locking then updPort s p (fun x => { x with locked := true }) else s) ∧
      (let late := x.st = .locking ∧ x.locked = false ∧ x.lockStart + 2000000 ≤ s.ns
       (late → exec (.lockTimeout p) s = .next (goDark (failCircuit s p 3) p false)) ∧ (¬ late → exec (.lockTimeout p) s = .next s)) ∧
      (∀ peer tx rx,
        (x.st ≠ .locking ∨ x.locked = false → exec (.portTrained p peer tx rx) s = .next s) ∧
        (x.st = .locking → x.locked = true → peer ≠ x.peer →
          exec (.portTrained p peer tx rx) s = .next (goDark (failCircuit s p 6) p false)) ∧
        (x.st = .locking → x.locked = true → peer = x.peer → exec (.portTrained p peer tx rx) s =
          .next (updPort s p (fun x => { x with st := .trained, tx := trainedSet tx, rx := trainedSet rx })))) ∧
      (x.st ≠ .trained → exec (.portLive p) s = .next s) ∧
      (x.st = .trained → exec (.portLive p) s =
        .next (fasten (updPort s p (fun x => { x with st := .live, lastRx := s.ns, lastAck := s.ns })) p true)) ∧
      (x.st = .draining → x.replay = [] → exec (.portDrained p) s = .next (goDark s p false)) ∧
      (x.st ≠ .draining ∨ x.replay ≠ [] → exec (.portDrained p) s = .next s) ∧
      (x.st = .draining → x.drainStart + 50000 ≤ s.ns → exec (.drainTimeout p) s = .next (goDark s p false)) ∧
      (x.st ≠ .draining ∨ s.ns < x.drainStart + 50000 → exec (.drainTimeout p) s = .next s) ∧
      (mget s.circuits p = none → exec (.close p) s = .next s) ∧
      (∀ c, mget s.circuits p = some c →
        (c.st = .granted → exec (.close p) s =
          .next (failCircuit (drainPort (updPort s p (fun x => { x with closeSeen := true })) p false) p 7)) ∧
        (c.st ≠ .granted → x.st = .draining → exec (.close p) s = .next (updPort s p (fun x => { x with
          closeSeen := true, control := x.control.filter (fun b => b.head? != some 6) }))) ∧
        (c.st ≠ .granted → x.st ≠ .draining → exec (.close p) s = .next s) ∧
        (c.st = .requested → c.since + 200000000 ≤ s.ns → exec (.requestSilence p) s = .next (failCircuit s p 2)) ∧
        (c.st ≠ .requested ∨ s.ns < c.since + 200000000 → exec (.requestSilence p) s = .next s))) ∧
    (∀ p handle frame c x, c = ⟨bits handle 7 10, bits handle 0 7⟩ → copyOf s c = some x →
      let mine := x.serial = bits handle 17 14 ∧ x.port = p ∧ x.elec = false
      let status := bits frame 56 8
      let signal := (mget x.flight sigFlight).isSome = true ∧ x.r3.toNat % 2 ^ 56 = frame % 2 ^ 56
      (¬ mine → exec (.chunkDone p handle frame) s = .next s) ∧
      (mine → x.over = true →
        (signal → exec (.chunkDone p handle frame) s =
          .next (signalEnd (updCopy s c (fun x => { x with flight := [] })) c (decide (status = 0)))) ∧
        (¬ signal → exec (.chunkDone p handle frame) s = .next s)) ∧
      (mine → x.over = false → ∀ q, x.flight.find? (fun q => x.dstAt (x.chunkOff q.1) % 2 ^ 56 == frame % 2 ^ 56) = some q →
        exec (.chunkDone p handle frame) s = .next (if status = 0 then chunkDone s c q.1 else chunkLost s c q.1 (chunkCause status)))) ∧
    (∀ (m : CtlMsg), planeUp s = false →
      exec (.controllerDeny m) s = .next s ∧ exec (.controllerFail m) s = .next s ∧ exec (.controllerReleased m) s = .next s ∧
        exec (.controllerGrant m) s = .next s) ∧
    (∀ (m : CtlMsg), planeUp s = true →
      let e := ctlEnd s m
      exec (.controllerDeny m) s = .next (ctlFail s m 1) ∧ exec (.controllerFail m) s = .next (ctlFail s m 5) ∧
      (∀ c, mget (ctlFail s m 7).circuits e.1 = some c → c.joins e = true → c.id = m.id → exec (.controllerReleased m) s =
        .next (circuitFree (updCircuit (ctlFail s m 7) e.1 (fun c => { c with releasedSeen := true })) e.1)) ∧
      ((∀ c, mget (ctlFail s m 7).circuits e.1 = some c → c.joins e = false ∨ c.id ≠ m.id) →
        exec (.controllerReleased m) s = .next (ctlFail s m 7)) ∧
      (∀ c, mget s.circuits e.1 = some c →
        (c.joins e = true → c.st = .requested → exec (.controllerGrant m) s =
          .next (grantCircuit s e.1 { c with id := if e.2.2.2 then c.id else m.id })) ∧
        (c.joins e = true → c.st = .granted → exec (.controllerGrant m) s = .next s) ∧
        (c.joins e = false ∨ (c.st ≠ .requested ∧ c.st ≠ .granted) → exec (.controllerGrant m) s = .next (sendCtl s 2 m))) ∧
      (mget s.circuits e.1 = none →
        (e.2.2.2 = true → exec (.controllerGrant m) s = .next (sendCtl s 2 m)) ∧
        (e.2.2.2 = false → handleCtx s m.dev m.handle = none ∨ s.status.optics = false →
          exec (.controllerGrant m) s = .next (sendCtl s 7 m)) ∧
        (e.2.2.2 = false → ∀ ctx, handleCtx s m.dev m.handle = some ctx → s.status.optics = true → exec (.controllerGrant m) s =
          .next (grantCircuit s e.1 { st := .granted, ctx := ctx, peer := m.dev, pport := m.port, cause := 0, id := m.id,
                                      handle := m.handle, since := s.ns, releasedSeen := false }))))

/-! ## The machine as a whole -/

/-- A step runs what stands where it fetches. The head of the agenda is the turn taken; with none given the model chooses (the agenda is
the model's own, notes/assumptions/2). A fetched number is that of the bytes at the translated address, or of the bytes that its launch
found there at its start, where they differ (07 R235). The word of a gang that decodes runs as its instruction; a REP prefix runs with
the word it hands on; an illegal, a reserved and an unreadable word take their faults (01 Table word-13). A turn of a core with one warp
that offers a word tries that word; NMU programs and scripts run their words in the same way (11 Table sketch-7, 16 Table circuit-6);
an event runs if it is a move of an agent, and a packet that arrives as bytes is taken where a lane has trained and its CRC is right
(15 R444, R445). -/
def Obligations.StepRunsDecodedWord : Prop :=
  (∀ (s : State) (t : Turn) (r : List Turn), s.agenda = t :: r → step s = turn t { s with agenda := r }) ∧
  (∀ s : State, s.agenda = [] → step s = autoTurn s) ∧
  (∀ (s v : State) (cl ctx va : Nat) (x : Xlat), translate s cl ctx va .fetch = (.ok x, v) →
    let now := readPa v x.key (resolve v ctx x false) 8
    let old := oldWord v (cw v).launch (resolve v ctx x false) now
    ∃ (n : Nat) (u : State), fetchWord s cl ctx va 8 = (.ok n, u) ∧ (n = ofBytes now ∨ n = ofBytes old) ∧
      u = { s with tlb1 := u.tlb1, tlb2 := u.tlb2, l2 := u.l2, charges := u.charges, freeCtr := u.freeCtr }) ∧
  (∀ (s : State) (core slot mask : Nat),
    let c := { s with cur := { Site.zero with core := core, slot := slot, mask := mask }, payer := payerOf s (warpOf s core slot).launch }
    let pc := ((cw c).slice (curLow c)).pc.toNat
    (∀ (n : Nat) (u : State), fetchWord c (clusterOf core) (cw c).ctx pc 8 = (.ok n, u) →
      let v := { u with cur := { u.cur with word := BitVec.ofNat 64 n } }
      (∀ i, decodeCore n = .ok i → (∀ x, i ≠ .rep x) → attempt s core slot mask = exec i v) ∧
      (∀ x t, decodeCore n = .ok (.rep x) → exec (.rep x) v = .next t →
        (t.cur.rep = none → attempt s core slot mask = .next t) ∧
        (t.cur.rep.isSome = true → ∀ i, decodeCore t.cur.word.toNat = .ok i → attempt s core slot mask = exec i t)) ∧
      (decodeCore n = .illegalOpcode → attempt s core slot mask = .next (takeFault (noteIssue v) (flt 1))) ∧
      (decodeCore n = .reservedEncoding → attempt s core slot mask = .next (takeFault (noteIssue v) (flt 2)))) ∧
    (∀ (p : PageFault) (u : State), fetchWord c (clusterOf core) (cw c).ctx pc 8 = (.error p, u) →
      attempt s core slot mask = .next (takeFault (noteIssue u) (fltPage pc p)))) ∧
  (∀ (s : State) (core : Nat) (x : Nat × Warp) (g : Nat × Nat), (coreOf s core).issued ≠ some s.cycle → activeWarps s core = [x] →
    let v := { s with payer := none }
    offerOf v core x = some g → (warpOf s core x.1).packs = false →
    turn (.issue core) s = attempt (countOffers v core [x.1]) core x.1 g.2) ∧
  (∀ (s : State) (stack place : Nat) (p : NmuProg), nmuProg s stack place = some p → p.fault = none → nmuNext s stack = some place →
    nmuLate s = false →
    let c := { s with cur := { Site.zero with stack := stack, place := place } }
    let v := charge { (updNmu c stack (fun u => { u with last := place })) with payer := nodePayer s p.ctx p.node } 4 1
    (∀ w, p.words[p.pc]? = some w → ∀ i, decodeNmu w.toNat = .ok i → turn (.nmu stack place) s = exec i v) ∧
    (∀ w, p.words[p.pc]? = some w → decodeNmu w.toNat = .illegalOpcode → turn (.nmu stack place) s = .next (nmuFault v stack place p 1 0)) ∧
    (∀ w, p.words[p.pc]? = some w → decodeNmu w.toNat = .reservedEncoding → turn (.nmu stack place) s = .next (nmuFault v stack place p 2 0)) ∧
    (p.words[p.pc]? = none → turn (.nmu stack place) s = .next (nmuFault v stack place p 8 0))) ∧
  (∀ (s : State) (place : Nat) (x : Script), mget s.scripts place = some x → x.wait = none → nextReady s = some place →
    let v := { s with cur := { Site.zero with place := place }, scriptLast := place, payer := none }
    (∀ w, x.words[x.pc]? = some w → ∀ i, decodeCratch w.toNat = .ok i → turn (.script place) s = exec i v) ∧
    (∀ w, x.words[x.pc]? = some w → decodeCratch w.toNat = .illegalOpcode → turn (.script place) s = .next (scriptFault v place 1)) ∧
    (∀ w, x.words[x.pc]? = some w → decodeCratch w.toNat = .reservedEncoding → turn (.script place) s = .next (scriptFault v place 2)) ∧
    (x.words[x.pc]? = none → turn (.script place) s = .next (scriptFault v place 3))) ∧
  (∀ (s : State) (e : Instr),
    let v := { s with payer := none }
    (isMove e = true → turn (.event e) s = exec e v) ∧ (isMove e = false → turn (.event e) s = .next v)) ∧
  (∀ (s : State) (bs : List Byte),
    let v := { s with payer := none }
    let n := bs.length - 4
    let taken := 28 ≤ bs.length ∧ planeUp s = true ∧ crc32 (bs.take n) = fld bs n 4
    (taken → turn (.receive bs) s = receivePacket (hdrOf bs) (fld bs 0 1) ((bs.drop 24).take (n - 24)) v) ∧
    (¬ taken → turn (.receive bs) s = .next v)) ∧
  (∀ (s : State) (c n : Nat), turn (.tick c n) s = .next { s with cycle := s.cycle + c, ns := s.ns + n, payer := none })

/-- 01 R49, 05 R176, 14 R441, Table context-5: a word faults before its own effect, in the order of the tables: a word that needs full
service before there is any, RESERVED_ENCODING; a latch that a slice cannot read, ILLEGAL_LATCH; a register the warp does not hold,
REG_UNHELD; a word of firmware in user mode, PRIV. A word whose sources are not ready leaves the state as it is. Stated of IADD, of
the gated MPROG and of the words that only firmware may issue. -/
def Obligations.WordsFaultBeforeTheirEffect : Prop :=
  ∀ s : State,
    (∀ x : Int2, let o := [(x.a, x.ty.wide), (x.b, x.ty.wide)]
      let u := useInt2 x false
      (o.any (badLatch s) = true → Faults (.iadd x) s (flt 3)) ∧
      (o.any (badLatch s) = false → u.codes.any (cw s).unheld = true → Faults (.iadd x) s (flt 4)) ∧
      (Issues u s ∨ preFault u s ≠ none ∨ Waits (.iadd x) s)) ∧
    (∀ d a, s.status.matrix = false → Faults (.mprog d a) s (flt 2)) ∧
    (∀ d a b, s.status.matrix = false → Faults (.mprogW d a b) s (flt 2)) ∧
    (∀ d a b, let o := [(a, false), (b, true)]
      o.any (badLatch s) = false → (fwUse d a b).codes.any (cw s).unheld = false → (cw s).firmware = false →
      Faults (.fret d a b) s (flt 0x13) ∧ Faults (.fctxBind d a b) s (flt 0x13) ∧ Faults (.fctxUnbind d a b) s (flt 0x13) ∧
      Faults (.fswpOut d a b) s (flt 0x13) ∧ Faults (.fswpIn d a b) s (flt 0x13)) ∧
    ((cw s).firmware = false → Faults .tlbiAll s (flt 0x13) ∧ Faults .haltDev s (flt 0x13))

/-- 05 R174, 14 R423: a fault of a user warp whose context has no open record on the fault's page. The faulting slices that have not
exited and the warp become HELD and the warp leaves the active set; one record is opened under a number that no open record has, with
the code, cause and address of the fault and the core, slot, slices and program counter of its word, and is posted. A warp of firmware
has no record (14 R440). A fault on a page with an open record joins its warp to that record and posts nothing (06 R209). -/
def Obligations.FaultHoldsWarpAndOpensRecord : Prop :=
  ∀ (s : State) (f : FaultInfo) (k : Core) (w : Warp), mget s.cores s.cur.core = some k → mget k.warps s.cur.slot = some w →
    let held : Warp := { w with st := .held, slices := w.slices.mapIdx (fun j x =>
      let y := if bit s.cur.mask j && !x.isExited then { x with st := .held, repLen := 0 } else x
      if y.isRun then { y with st := .held } else y) }
    let at_ := fun (h : Warp) (t : State) => coreOf t s.cur.core =
      { k with warps := mset k.warps s.cur.slot h, active := k.active.filter (fun a => a.1 != s.cur.slot) } ∧
      (∀ j, j ≠ s.cur.core → coreOf t j = coreOf s j)
    (w.firmware = true → at_ held (takeFault s f) ∧ takeFault s f = { s with cores := (takeFault s f).cores }) ∧
    (w.firmware = false → ∀ c, ctxOf s w.ctx = some c →
      (recordOn c f.page = none →
        let n := mfresh c.records (c.nextRec % 65536) 65536 % 65536
        let low := w.slice (w.lowSlice (if s.cur.mask = 0 then w.aliveMask else s.cur.mask))
        let r : Record :=
          { code := f.code, cause := f.cause, level := f.level, info := BitVec.ofNat 64 f.info, page := f.page,
            flags := b2n f.half1 + (if low.repLen = 0 then 0 else 4),
            core := s.cur.core, slot := s.cur.slot, pc := low.pc, slices := s.cur.mask, handle := 0, warps := [w.uid], closing := none }
        ∃ v, takeFault s f = postFault v w.ctx n ∧ v = { s with cores := v.cores, ctxs := v.ctxs } ∧
          at_ { held with records := w.records ++ [(n, s.cur.mask)] } v ∧
          ctxOf v w.ctx = some { c with records := mset c.records n r, nextRec := n + 1 } ∧
          (∀ i, i ≠ w.ctx → ctxOf v i = ctxOf s i)) ∧
      (∀ n, recordOn c f.page = some n →
        let t := takeFault s f
        t = { s with cores := t.cores, ctxs := t.ctxs } ∧ at_ { held with records := w.records ++ [(n, s.cur.mask)] } t ∧
          ctxOf t w.ctx = some { c with records := madj c.records n (fun r => { r with warps := r.warps ++ [w.uid] }) } ∧
          (∀ i, i ≠ w.ctx → ctxOf t i = ctxOf s i)))

/-- 00 R16, 02 R62, 14 Tables context-2 and context-10, 15 Table link-9: after reset no warp stands in any slot and no context exists,
the device has no number, no firmware runs and no service is up, every port is DARK with no failed mark, no peer and no error counted,
no handle or queue is bound and no record held. The memory is in canonical form and lists nothing; what an unlisted byte reads as is
the model's choice (notes/assumptions/1). -/
def Obligations.ResetLeavesDeviceDark : Prop :=
  let s := State.reset
  (∀ k n, mget (coreOf s k).warps n = none) ∧ (∀ i, ctxOf s i = none) ∧ (∀ p, holderOf s p = none) ∧
  s.status = ⟨0, 0, 0, false, false, false, false, false⟩ ∧ s.dev = none ∧ s.haltDev = false ∧ s.gen = 0 ∧
  (∀ p, (portOf s p).st = .dark ∧ (portOf s p).failed = false ∧ (portOf s p).peer = 0 ∧ (portOf s p).autowake = 0 ∧
    (portOf s p).replays = 0 ∧ (portOf s p).feccor = 0 ∧ (portOf s p).fecunc = 0) ∧
  (∀ h, mget s.handles h = none) ∧ (∀ q, mget s.queues q = none) ∧ s.heldRecords = [] ∧ s.mailboxSeq = 0 ∧
  (∀ g p, nmuProg s g p = none) ∧ (∀ p, mget s.scripts p = none) ∧ Memory.wf s.mem = true ∧ (∀ a, mget s.mem a = none)

/-- 06 R197: whatever moves, the memory stays in its canonical form, addresses rising and no byte listed that an unlisted address
would read as: from every state with such a memory, a step that answers a next state leaves such a memory. The form is the model's own
(notes/assumptions/1). -/
def Obligations.StepKeepsMemoryCanonical : Prop :=
  ∀ s t : State, Memory.wf s.mem = true → step s = .next t → Memory.wf t.mem = true

/-- 01 R23-R50, 11 Table sketch-8, 16 Table circuit-7: no field of an encoding is dropped. Every well-formed instruction decodes from
its own word with every operand, at every value its encoding admits. FCTX and FSWP have one word for both of their rows, so their
words decode to the row that binds and the row that swaps out (14 R439). -/
def Obligations.DecodeEncodeAgree : Prop :=
  ∀ i : Instr, i.wf = true →
    (i.isNmu = true → decodeNmu (encodeNmu i) = .ok i) ∧
    (i.isCratch = true → decodeCratch (encodeCratch i) = .ok i) ∧
    (isCore i = true → decodeCore (encodeCore i) = .ok (canonical i))

/-- 17 R490: for keys 0 to 7 of a sketch with master seed 0 and b = 3, the top 16 bits of x3, the bucket and the sign (true where it is
negative) in rows 0 to 2 are those of Table prog-8. -/
def Obligations.SketchBucketsOfTableProg8 : Prop :=
  let row := fun (j : Nat) (t : List (Nat × Nat × Bool)) =>
    t = (List.range 8).map (fun key => ((sketchHash key j 0 16).1, sketchHash key j 0 3))
  row 0 [(0x0000, 0, false), (0x4FE0, 2, false), (0x8191, 4, false), (0x7F99, 3, true), (0xC8C6, 6, false), (0x3EDD, 1, true),
    (0xA8A8, 5, false), (0x9C46, 4, true)] ∧
  row 1 [(0xE00C, 7, false), (0xFA8F, 7, true), (0x5F84, 2, true), (0x62F4, 3, false), (0x13BB, 0, true), (0x702D, 3, true),
    (0xF8F3, 7, true), (0x478A, 2, false)] ∧
  row 2 [(0xC85A, 6, false), (0xE8A2, 7, false), (0xE53B, 7, false), (0x21B9, 1, false), (0x5B37, 2, true), (0x9E07, 4, true),
    (0x1DD5, 0, true), (0x59A2, 2, true)]

/-- 01, 02, 04, 07, 09, 11, 16: words that the spec writes out decode to the instructions beside which it writes them: IADD v4,v1 paired
with FMUL.rn v6,2.0; REP.4 d+1 a+1; IADD.i32.sat v3,v1,v2; LD v1,[s4 + 16]; ATOM.cas.b32.dev v10,[s4],v12; LOOP 3,+12; BAR 1,8;
COPYR.sig.domain.bk s20,s8,s2,s9; FLGW.geu.64 p2,[s4],s5,$mone; NSTV.inc [a0],g1,256; and in a script BRQ.nz q2,+6 and MOVQ q7,-1. -/
def Obligations.SpecWordsDecode : Prop :=
  let r := fun (x : Reg) => Opnd.reg x
  decodeTableWord 64 0x4101008012024020 = some (.pIadd ⟨2, .reg 1, false, 0⟩ ⟨.fmul, ⟨2, .imm 0x40, false, 0⟩⟩) ∧
  decodeTableWord 64 0xC103C11000000000 = some (.rep ⟨3, some 1, some 1, none, none, 0, 0, 0, 0⟩) ∧
  decodeTableWord 64 0x001000C010080012 = some (.iadd ⟨⟨.v 3, false⟩, r (.v 1), r (.v 2), .i32, true⟩) ∧
  decodeTableWord 64 0x2800005847400480 = some (.ld ⟨⟨.v 1, false⟩, ⟨r (.s 4), .konst .zero, 4⟩, .b32, none, false⟩) ∧
  decodeTableWord 64 0x2977029847400C88 =
    some (.atomCas ⟨⟨false, 7⟩, ⟨.v 10, false⟩, r (.s 4), .konst .zero, r (.v 12), false, .dev, false⟩) ∧
  decodeTableWord 64 0xA070000000C00300 = some (.loopImmediate 3 12) ∧
  decodeTableWord 64 0x2180000000000081 = some (.bar 1 (.imm 8)) ∧
  decodeTableWord 64 0x30406518860989A9 =
    some (.copyr ⟨⟨.s 20, false⟩, 2, some (r (.s 2)), some (r (.s 9)), .sig, .domain, false, false⟩) ∧
  decodeTableWord 64 0x332000984615D258 = some (.flgw ⟨2, r (.s 4), r (.s 5), .konst .mone, .geu, true, true⟩) ∧
  decodeTableWord 32 0x08217F80 = some (.nstv ⟨1, 0, true, 256⟩) ∧
  decodeCratch 0x14A00006 = .ok (.brq true 2 6) ∧ decodeCratch 0x05FFFFFF = .ok (.movqImm 7 (-1))
end

