-- ==== Sys2Proof/Laws/Encoding.lean ====
section
/-! SUPPORT. Fields of encoded words: what the decoders read of a word that the encoder assembles from fields in range (01 to 16). -/

namespace Sys2Proof

open Machine

/-! ## Codes and their readers -/

theorem tyOf_code (t : Ty) : tyOf (tyCode t) = some t := by cases t <;> rfl
theorem tyCode_lt (t : Ty) : tyCode t < 16 := by cases t <;> decide
theorem rndOf_code (r : Rnd) : rndOf (rndCode r) = r := by cases r <;> rfl
theorem rndCode_lt (r : Rnd) : rndCode r < 4 := by cases r <;> decide
theorem sizeOf_code (z : MSize) : sizeOf' (sizeCode z) = some z := by cases z <;> rfl
theorem sizeCode_lt (z : MSize) : sizeCode z < 8 := by cases z <;> decide
theorem scopeOf_code (c : Scope) : scopeOf (scopeCode c) = some c := by cases c <;> rfl
theorem scopeCode_lt (c : Scope) : scopeCode c < 8 := by cases c <;> decide
theorem ccOf_code (c : Cc) : ccOf (ccCode c) = some c := by cases c <;> rfl
theorem ccCode_lt (c : Cc) : ccCode c < 8 := by cases c <;> decide
theorem fccOf_code (c : FCc) : fccOf (fccCode c) = some c := by cases c <;> rfl
theorem fccCode_lt (c : FCc) : fccCode c < 8 := by cases c <;> decide
theorem redOf_code (c : RedOp) : redOf (redCode c) = some c := by cases c <;> rfl
theorem redCode_lt (c : RedOp) : redCode c < 8 := by cases c <;> decide
theorem shflOf_code (c : ShflMode) : shflOf (shflCode c) = some c := by cases c <;> rfl
theorem shflCode_lt (c : ShflMode) : shflCode c < 4 := by cases c <;> decide
theorem segOf_code (c : Seg) : segOf (segCode c) = some c := by cases c <;> rfl
theorem segCode_lt (c : Seg) : segCode c < 8 := by cases c <;> decide
theorem copyKindOf_code (c : CopyKind) : copyKindOf (copyKindCode c) = some c := by cases c <;> rfl
theorem copyKindCode_lt (c : CopyKind) : copyKindCode c < 4 := by cases c <;> decide
theorem flgOf_code (c : FlgCc) : flgOf (flgCode c) = some c := by cases c <;> rfl
theorem flgCode_lt (c : FlgCc) : flgCode c < 8 := by cases c <;> decide
theorem relnOf_code (c : RelnKind) : relnOf (relnCode c) = some c := by cases c <;> rfl
theorem relnCode_lt (c : RelnKind) : relnCode c < 4 := by cases c <;> decide
theorem fenceOf_code (c : FenceKind) : fenceOf (fenceCode c) = some c := by cases c <;> rfl
theorem fenceCode_lt (c : FenceKind) : fenceCode c < 4 := by cases c <;> decide
theorem accOf_code (c : AccKind) : accOf (accCode c) = some c := by cases c <;> rfl
theorem accCode_lt (c : AccKind) : accCode c < 4 := by cases c <;> decide
theorem moviOf_code (c : MoviKind) : moviOf (moviCode c) = some c := by cases c <;> rfl
theorem moviCode_lt (c : MoviKind) : moviCode c < 64 := by cases c <;> decide
theorem ncvtOf_code (c : NcvtKind) : ncvtOf (ncvtCode c) = some c := by cases c <;> rfl
theorem ncvtCode_lt (c : NcvtKind) : ncvtCode c < 8 := by cases c <;> decide
theorem nbraOf_code (c : NbraCond) : nbraOf (nbraCode c) = some c := by cases c <;> rfl
theorem nbraCode_lt (c : NbraCond) : nbraCode c < 8 := by cases c <;> decide
theorem qcOf_code (c : QCond) : qcOf (qcCode c) = some c := by cases c <;> rfl
theorem qcCode_lt (c : QCond) : qcCode c < 8 := by cases c <;> decide
theorem brcOf_code (x : BrcCond) : brcOf (brcCode x) = some x := by cases x <;> rfl
theorem brcCode_lt (x : BrcCond) : brcCode x < 4 := by cases x <;> decide
theorem tgtOf_code (c : CwaitTarget) : tgtOf (tgtCode c) = some c := by cases c <;> rfl
theorem tgtCode_lt (c : CwaitTarget) : tgtCode c < 4 := by cases c <;> decide
theorem popOf_code (c : POp) : popOf (popCode c) = some c := by cases c <;> rfl
theorem popCode_lt (c : POp) : popCode c < 128 := by cases c <;> decide

theorem b2n_lt (b : Bool) : b2n b < 2 := by cases b <;> decide
theorem b2n_bit (b : Bool) : (b2n b == 1) = b := by cases b <;> rfl

/-- A signed field reads back. -/
theorem sext_ofInt {n : Nat} {i : Int} (hn : 1 ≤ n) (h : fits n i = true) : sext n (ofInt n i) = i := by
  simp only [fits, Bool.and_eq_true, decide_eq_true_eq] at h
  have h1 : 2 ^ n = 2 * 2 ^ (n - 1) := by rw [← Nat.pow_succ']; congr 1; omega
  have h2 : 0 < 2 ^ (n - 1) := Nat.two_pow_pos _
  unfold sext ofInt
  rw [h1]
  generalize 2 ^ (n - 1) = k at *
  dsimp only
  by_cases hi : 0 ≤ i
  · have e : i % ((2 * k : Nat) : Int) = i := Int.emod_eq_of_lt hi (by omega)
    rw [e, Nat.mod_eq_of_lt (by omega), if_pos (by omega)]; omega
  · have e : i % ((2 * k : Nat) : Int) = i + (2 * k : Nat) := by
      rw [← Int.add_emod_right, Int.emod_eq_of_lt (by omega) (by omega)]
    rw [e, Nat.mod_eq_of_lt (by omega), if_neg (by omega)]; omega

theorem ofInt_lt (n : Nat) (i : Int) : ofInt n i < 2 ^ n := by
  unfold ofInt
  have h : (0 : Int) < ((2 ^ n : Nat) : Int) := by have := Nat.two_pow_pos n; omega
  have h1 := Int.emod_lt_of_pos i h
  have h2 := Int.emod_nonneg i (Int.ne_of_gt h)
  omega

/-! ## Registers and operands -/

theorem regCode_lt {r : Reg} (h : r.wf = true) : regCode r < 448 := by
  cases r <;> simp only [Reg.wf, decide_eq_true_eq] at h <;> simp only [regCode] <;> omega

theorem regOf_code {r : Reg} (h : r.wf = true) : regOf (regCode r) = some r := by
  cases r with
  | v n => exact if_pos (of_decide_eq_true h)
  | s n =>
    have h1 : n < 64 := of_decide_eq_true h
    have h2 : (384 + n) - 384 = n := by omega
    refine (if_neg (show ¬ 384 + n < 384 by omega)).trans ((if_pos (show 384 + n < 448 by omega)).trans ?_)
    exact congrArg (fun k => some (Reg.s k)) h2

theorem opndCode_lt {o : Opnd} (h : o.wf = true) : opndCode o < 1024 := by
  cases o with
  | reg r => have := regCode_lt h; simp only [opndCode]; omega
  | spec x => cases x <;> decide
  | konst k => cases k <;> decide
  | latch k => simp only [Opnd.wf, Bool.and_eq_true, decide_eq_true_eq] at h; simp only [opndCode]; omega

theorem opndOf_code {o : Opnd} (h : o.wf = true) : opndOf (opndCode o) = some o := by
  cases o with
  | reg r =>
    have h1 := regCode_lt h
    refine (if_neg (show ¬ 512 ≤ regCode r by omega)).trans ((if_pos h1).trans ?_)
    exact congrArg (Option.map Opnd.reg) (regOf_code h)
  | spec x => cases x <;> rfl
  | konst k => cases k <;> rfl
  | latch k =>
    simp only [Opnd.wf, Bool.and_eq_true, decide_eq_true_eq] at h
    refine (if_pos (show 512 ≤ 512 + (k - 1) by omega)).trans ?_
    exact congrArg (fun n => some (Opnd.latch n)) (show (512 + (k - 1)) % 8 + 1 = k by omega)

/-- The legal operand forms are legal operands. -/
theorem Opnd.wf_of_w {o : Opnd} {b : Bool} (h : o.w b = true) : o.wf = true := by
  simp only [Opnd.w, Bool.and_eq_true] at h; exact h.1
theorem Opnd.wf_of_int {o : Opnd} {b : Bool} (h : o.int b = true) : o.wf = true := by
  simp only [Opnd.int, Bool.and_eq_true] at h; exact Opnd.wf_of_w h.1
theorem Opnd.wf_of_grp {o : Opnd} {n : Nat} (h : o.grp n = true) : o.wf = true := by
  cases o <;> simp only [Opnd.grp, Bool.and_eq_true, Bool.false_eq_true] at h
  exact h.1
theorem Opnd.wf_of_isS {o : Opnd} (h : o.isS = true) : o.wf = true := by
  cases o <;> simp only [Opnd.isS, Bool.and_eq_true, Bool.false_eq_true] at h
  exact h.1
theorem Dst.wf_of_w {d : Dst} {b : Bool} (h : d.w b = true) : d.reg.wf = true := by
  simp only [Dst.w, Bool.and_eq_true] at h; exact h.1
theorem Dst.wf_of_vec {d : Dst} {b : Bool} (h : d.vec b = true) : d.reg.wf = true := by
  simp only [Dst.vec, Bool.and_eq_true] at h; exact Dst.wf_of_w h.1
theorem Dst.wf_of_grp {d : Dst} {n : Nat} (h : d.grp n = true) : d.reg.wf = true := by
  simp only [Dst.grp, Bool.and_eq_true] at h; exact h.1
theorem Dst.wf_of_size {d : Dst} {z : MSize} (h : d.size z = true) : d.reg.wf = true := by
  cases z
  all_goals first
    | exact Dst.wf_of_grp h
    | exact Dst.wf_of_w h
theorem Reg.wf_of_size {r : Reg} {z : MSize} (h : r.size z = true) : r.wf = true := by
  simp only [Reg.size, Bool.and_eq_true] at h; exact h.1
theorem PDst.lt_of_wf {p : PDst} (h : p.wf = true) : p.p < 8 := by simpa [PDst.wf] using h
theorem Guard.lt_of_wf {g : Guard} (h : g.wf = true) : g.p < 8 := by simpa [Guard.wf] using h

/-! ## The fields of an F word -/

/-- The fields of an F word lie in their ranges (01 Table word-2). -/
def FRange (md nb d a b tail : Nat) : Prop := md < 16 ∧ nb < 2 ∧ d < 512 ∧ a < 1024 ∧ b < 1024 ∧ tail < 262144

section Fields

variable {op md nb d a b tail : Nat}

theorem fWord_form (ho : op < 1024) (h : FRange md nb d a b tail) : bits (fWord op md nb d a b tail) 62 2 = 0 := by
  simp only [FRange] at h; simp only [bits, fWord]; omega
theorem fWord_op (ho : op < 1024) (h : FRange md nb d a b tail) : bits (fWord op md nb d a b tail) 52 10 = op := by
  simp only [FRange] at h; simp only [bits, fWord]; omega
theorem fWord_d (h : FRange md nb d a b tail) : bits (fWord op md nb d a b tail) 38 9 = d := by
  simp only [FRange] at h; simp only [bits, fWord]; omega
theorem fWord_p (h : FRange md nb d a b tail) : bits (fWord op md nb d a b tail) 38 3 = d % 8 := by
  simp only [FRange] at h; simp only [bits, fWord]; omega
theorem fWord_a (h : FRange md nb d a b tail) : bits (fWord op md nb d a b tail) 28 10 = a := by
  simp only [FRange] at h; simp only [bits, fWord]; omega
theorem fWord_b (h : FRange md nb d a b tail) : bits (fWord op md nb d a b tail) 18 10 = b := by
  simp only [FRange] at h; simp only [bits, fWord]; omega
theorem fWord_nb (h : FRange md nb d a b tail) : bit (fWord op md nb d a b tail) 47 = (nb == 1) := by
  simp only [FRange] at h; simp only [bit, fWord]; congr 1; omega
theorem fWord_md (h : FRange md nb d a b tail) : bits (fWord op md nb d a b tail) 48 4 = md := by
  simp only [FRange] at h; simp only [bits, fWord]; omega
theorem fWord_md3 (h : FRange md nb d a b tail) : bits (fWord op md nb d a b tail) 48 3 = md % 8 := by
  simp only [FRange] at h; simp only [bits, fWord]; omega
theorem fWord_md2 (h : FRange md nb d a b tail) : bits (fWord op md nb d a b tail) 48 2 = md % 4 := by
  simp only [FRange] at h; simp only [bits, fWord]; omega
theorem fWord_m48 (h : FRange md nb d a b tail) : bit (fWord op md nb d a b tail) 48 = bit md 0 := by
  simp only [FRange] at h; simp only [bit, fWord]; congr 1; omega
theorem fWord_m49 (h : FRange md nb d a b tail) : bit (fWord op md nb d a b tail) 49 = bit md 1 := by
  simp only [FRange] at h; simp only [bit, fWord]; congr 1; omega
theorem fWord_m50 (h : FRange md nb d a b tail) : bit (fWord op md nb d a b tail) 50 = bit md 2 := by
  simp only [FRange] at h; simp only [bit, fWord]; congr 1; omega
theorem fWord_m51 (h : FRange md nb d a b tail) : bit (fWord op md nb d a b tail) 51 = bit md 3 := by
  simp only [FRange] at h; simp only [bit, fWord]; congr 1; omega

/-- A field below bit 18 is one of the low 18 bits. -/
theorem fWord_tail {lo n : Nat} (hl : lo + n ≤ 18) : bits (fWord op md nb d a b tail) lo n = bits tail lo n := by
  simp only [bits, fWord]
  have e : 2 ^ 18 = 2 ^ lo * (2 ^ n * 2 ^ (18 - (lo + n))) := by rw [← Nat.pow_add, ← Nat.pow_add]; congr 1; omega
  have h : op * 2 ^ 52 + md * 2 ^ 48 + nb * 2 ^ 47 + d * 2 ^ 38 + a * 2 ^ 28 + b * 2 ^ 18 + tail =
      tail + 2 ^ lo * (2 ^ n * (2 ^ (18 - (lo + n)) * (op * 2 ^ 34 + md * 2 ^ 30 + nb * 2 ^ 29 + d * 2 ^ 20 + a * 2 ^ 10 + b))) := by
    rw [← Nat.mul_assoc (2 ^ n), ← Nat.mul_assoc (2 ^ lo), ← e]; omega
  rw [h, Nat.add_mul_div_left _ _ (Nat.two_pow_pos _), Nat.add_mul_mod_self_left]

theorem fWord_bit {i : Nat} (hi : i < 18) : bit (fWord op md nb d a b tail) i = bit tail i := by
  have h := fWord_tail (op := op) (md := md) (nb := nb) (d := d) (a := a) (b := b) (tail := tail) (lo := i) (n := 1) (by omega)
  simp only [bits, Nat.pow_one] at h
  simp only [bit, h]

end Fields

/-! ## Reading an F word -/

theorem bit_of {n i : Nat} {b : Bool} (h : n / 2 ^ i % 2 = b2n b) : bit n i = b := by unfold bit; rw [h]; exact b2n_bit b

/-- A word of an F opcode decodes to its instruction when the fields read back. -/
theorem core_f {i : Instr} {op md nb d a b tail : Nat} (he : encodeCore i = fWord op md nb d a b tail)
    (ho : op < 1024 ∧ op ≠ 0x20 ∧ op ≠ 0x207) (hr : FRange md nb d a b tail)
    (hs : skelF op (fWord op md nb d a b tail) = some (some i)) (hw : i.wf = true) : decodeCore (encodeCore i) = .ok i := by
  have h1 := fWord_form ho.1 hr
  have h2 := fWord_op ho.1 hr
  have h3 : ¬ (op = 0x20 ∨ op = 0x207) := fun h => h.elim ho.2.1 ho.2.2
  rw [he]
  unfold decodeCore
  dsimp only
  rw [h1, h2, if_pos rfl, if_neg h3, hs]
  simp only [legalCore, hw, he, beq_self_eq_true, Bool.and_self, if_true]

section Readers

variable {op md nb d a b tail : Nat}

theorem fD_of {x : Dst} (hw : x.reg.wf = true) (h : FRange md (b2n x.nowb) (regCode x.reg) a b tail) :
    fD (fWord op md (b2n x.nowb) (regCode x.reg) a b tail) = some x := by
  unfold fD; rw [fWord_d h, regOf_code hw, fWord_nb h, b2n_bit]; rfl
theorem fReg_of {r : Reg} (hw : r.wf = true) (h : FRange md nb (regCode r) a b tail) :
    regOf (bits (fWord op md nb (regCode r) a b tail) 38 9) = some r := by
  rw [fWord_d h, regOf_code hw]
theorem fP_of {x : PDst} (hw : x.wf = true) (h : FRange md (b2n x.nowb) x.p a b tail) :
    fP (fWord op md (b2n x.nowb) x.p a b tail) = x := by
  have := PDst.lt_of_wf hw
  unfold fP; rw [fWord_p h, fWord_nb h, b2n_bit, Nat.mod_eq_of_lt this]
theorem fA_of {x : Opnd} (hw : x.wf = true) (h : FRange md nb d (opndCode x) b tail) :
    fA (fWord op md nb d (opndCode x) b tail) = some x := by
  unfold fA; rw [fWord_a h, opndOf_code hw]
theorem fB_of {x : Opnd} (hw : x.wf = true) (h : FRange md nb d a (opndCode x) tail) :
    fB (fWord op md nb d a (opndCode x) tail) = some x := by
  unfold fB; rw [fWord_b h, opndOf_code hw]
theorem fC_of {x : Opnd} (hw : x.wf = true) (h : bits tail 8 10 = opndCode x) : fC (fWord op md nb d a b tail) = some x := by
  unfold fC; rw [fWord_tail (by omega), h, opndOf_code hw]
theorem fG_of {x : Guard} (hw : x.wf = true) (h : FRange (guardCode x) nb d a b tail) :
    fG (fWord op (guardCode x) nb d a b tail) = x := by
  have h1 := Guard.lt_of_wf hw
  have h2 := b2n_lt x.neg
  have e1 : guardCode x % 8 = x.p := by simp only [guardCode]; omega
  have e2 : bit (guardCode x) 3 = x.neg := bit_of (by simp only [guardCode]; omega)
  unfold fG
  rw [fWord_m51 h, fWord_md3 h, e1, e2]
theorem fT_of {x : Ty} (h : bits tail 4 4 = tyCode x) : fT (fWord op md nb d a b tail) = some x := by
  unfold fT; rw [fWord_tail (by omega), h, tyOf_code]
theorem fTlow_of {x : Ty} (h : bits tail 0 4 = tyCode x) : tyOf (bits (fWord op md nb d a b tail) 0 4) = some x := by
  rw [fWord_tail (by omega), h, tyOf_code]
theorem fR_of {x : Rnd} (h : bits tail 2 2 = rndCode x) : fR (fWord op md nb d a b tail) = x := by
  unfold fR; rw [fWord_tail (by omega), h, rndOf_code]
theorem fBit_of {x : Bool} {i : Nat} (hi : i < 18) (h : tail / 2 ^ i % 2 = b2n x) : bit (fWord op md nb d a b tail) i = x := by
  rw [fWord_bit hi, bit_of h]
theorem fLow_of {lo n k : Nat} (hl : lo + n ≤ 18) (h : bits tail lo n = k) : bits (fWord op md nb d a b tail) lo n = k := by
  rw [fWord_tail hl, h]
theorem fSext_of {lo n : Nat} {x : Int} (hl : lo + n ≤ 18) (hn : 1 ≤ n) (hf : fits n x = true) (h : bits tail lo n = ofInt n x) :
    sext n (bits (fWord op md nb d a b tail) lo n) = x := by
  rw [fWord_tail hl, h, sext_ofInt hn hf]

end Readers

theorem guardCode_lt {g : Guard} (h : g.wf = true) : guardCode g < 16 := by
  have h1 := Guard.lt_of_wf h
  have h2 := b2n_lt g.neg
  simp only [guardCode]; omega

theorem raCtl_lt (ty : Ty) (r : Rnd) (s z : Bool) : raCtl ty r s z < 256 := by
  have := tyCode_lt ty; have := rndCode_lt r; have := b2n_lt s; have := b2n_lt z
  simp only [raCtl]; omega
theorem raCtl_ty (k : Nat) (ty : Ty) (r : Rnd) (s z : Bool) : bits (k * 256 + raCtl ty r s z) 4 4 = tyCode ty := by
  have := tyCode_lt ty; have := rndCode_lt r; have := b2n_lt s; have := b2n_lt z
  simp only [raCtl, bits]; omega
theorem raCtl_rnd (k : Nat) (ty : Ty) (r : Rnd) (s z : Bool) : bits (k * 256 + raCtl ty r s z) 2 2 = rndCode r := by
  have := tyCode_lt ty; have := rndCode_lt r; have := b2n_lt s; have := b2n_lt z
  simp only [raCtl, bits]; omega
theorem raCtl_sat (k : Nat) (ty : Ty) (r : Rnd) (s z : Bool) : (k * 256 + raCtl ty r s z) / 2 ^ 1 % 2 = b2n s := by
  have := tyCode_lt ty; have := rndCode_lt r; have := b2n_lt s; have := b2n_lt z
  simp only [raCtl]; omega
theorem raCtl_ftz (k : Nat) (ty : Ty) (r : Rnd) (s z : Bool) : (k * 256 + raCtl ty r s z) / 2 ^ 0 % 2 = b2n z := by
  have := tyCode_lt ty; have := rndCode_lt r; have := b2n_lt s; have := b2n_lt z
  simp only [raCtl]; omega
theorem tail_c {k r : Nat} (hr : r < 256) (hk : k < 1024) : bits (k * 256 + r) 8 10 = k := by simp only [bits]; omega
theorem tail_lt {k r : Nat} (hr : r < 256) (hk : k < 1024) : k * 256 + r < 262144 := by omega
theorem noTail (r : Nat) : r = 0 * 256 + r := by omega

end Sys2Proof
end

