-- ==== Sys2Proof/Laws/Words.lean ====
section
/-! SUPPORT. The words of the F opcodes read back, one lemma for each shape of word (01 Tables word-2 to word-5, word-14 to word-21). -/

namespace Sys2Proof

open Machine

/-- The opcodes of core words in F form. -/
abbrev FOp (op : Nat) : Prop := op < 1024 ∧ op ≠ 0x20 ∧ op ≠ 0x207

theorem regCode_lt' {r : Reg} (h : r.wf = true) : regCode r < 512 := Nat.lt_of_lt_of_le (regCode_lt h) (by decide)

theorem tyCode_half (b : Bool) : tyCode (if b then .bf16 else .f16) = 10 + b2n b := by cases b <;> rfl

theorem rndCode_rn : rndCode .rn = 0 := rfl
theorem b2n_false : b2n false = 0 := rfl
theorem b2n_true : b2n true = 1 := rfl

section Mod

variable {op md nb d a b tail : Nat}

theorem fMd2_of {k : Nat} (h : FRange md nb d a b tail) (e : md % 4 = k) : bits (fWord op md nb d a b tail) 48 2 = k := by
  rw [fWord_md2 h, e]
theorem fMb48_of {x : Bool} (h : FRange md nb d a b tail) (e : md / 2 ^ 0 % 2 = b2n x) : bit (fWord op md nb d a b tail) 48 = x := by
  rw [fWord_m48 h, bit_of e]
theorem fMb49_of {x : Bool} (h : FRange md nb d a b tail) (e : md / 2 ^ 1 % 2 = b2n x) : bit (fWord op md nb d a b tail) 49 = x := by
  rw [fWord_m49 h, bit_of e]
theorem fMb50_of {x : Bool} (h : FRange md nb d a b tail) (e : md / 2 ^ 2 % 2 = b2n x) : bit (fWord op md nb d a b tail) 50 = x := by
  rw [fWord_m50 h, bit_of e]
theorem fMb51_of {x : Bool} (h : FRange md nb d a b tail) (e : md / 2 ^ 3 % 2 = b2n x) : bit (fWord op md nb d a b tail) 51 = x := by
  rw [fWord_m51 h, bit_of e]

end Mod

/-! ## The memory control byte -/

theorem mCtl_lt {z : Nat} (hz : z < 8) (st : Option Scope) (o : Bool) : mCtl z st o < 256 := by
  have := b2n_lt o
  cases st with
  | none => simp only [mCtl]; omega
  | some c => have := scopeCode_lt c; simp only [mCtl]; omega
theorem mCtl_div (z : Nat) (st : Option Scope) (o : Bool) : mCtl z st o / 32 = z := by
  have := b2n_lt o
  cases st with
  | none => simp only [mCtl]; omega
  | some c => have := scopeCode_lt c; simp only [mCtl]; omega
theorem mCtl_mod (z : Nat) (st : Option Scope) (o : Bool) : mCtl z st o % 2 = b2n o := by
  have := b2n_lt o
  cases st with
  | none => simp only [mCtl]; omega
  | some c => have := scopeCode_lt c; simp only [mCtl]; omega
theorem dStrong_of {op md nb d a b k : Nat} (z : Nat) {st : Option Scope} {o : Bool} :
    dStrong (fWord op md nb d a b (k * 256 + mCtl z st o)) = some st := by
  have := b2n_lt o
  have e0 : b2n false = 0 := rfl
  have e1 : b2n true = 1 := rfl
  cases st with
  | none =>
    unfold dStrong
    rw [fBit_of (x := false) (by omega) (by simp only [mCtl]; omega)]; rfl
  | some c =>
    have := scopeCode_lt c
    unfold dStrong
    rw [fBit_of (x := true) (by omega) (by simp only [mCtl]; omega),
      fLow_of (k := scopeCode c) (by omega) (by simp only [mCtl, bits]; omega), scopeOf_code]; rfl

/-! ## Shapes of words -/

theorem word_int2 {op : Nat} {C : Int2 → Instr} {x : Int2} (ho : FOp op)
    (he : encodeCore (C x) = fWord op 0 (b2n x.d.nowb) (regCode x.d.reg) (opndCode x.a) (opndCode x.b) (raCtl x.ty .rn x.sat false))
    (hs : ∀ w, skelF op w = some ((dInt2 w).map C)) (hw : (C x).wf = true)
    (hp : x.d.reg.wf = true ∧ x.a.wf = true ∧ x.b.wf = true) :
    decodeCore (encodeCore (C x)) = .ok (C x) := by
  obtain ⟨hd, ha, hb⟩ := hp
  have := regCode_lt' hd
  have := b2n_lt x.d.nowb
  have := opndCode_lt ha
  have := opndCode_lt hb
  have := tyCode_lt x.ty
  have := rndCode_lt .rn
  have := b2n_lt x.sat
  have := b2n_lt false
  have r : FRange 0 (b2n x.d.nowb) (regCode x.d.reg) (opndCode x.a) (opndCode x.b) (raCtl x.ty .rn x.sat false) := by
    simp only [FRange, raCtl]; omega
  refine core_f he ho r ?_ hw
  rw [hs, dInt2]
  rw [fD_of (x := x.d) hd r,
    fA_of (x := x.a) ha r,
    fB_of (x := x.b) hb r,
    fT_of (x := x.ty) (by simp only [bits, raCtl]; omega),
    fBit_of (i := 1) (x := x.sat) (by omega) (by simp only [raCtl]; omega)]
  rfl

theorem word_int1 {op : Nat} {C : Int1 → Instr} {x : Int1} (ho : FOp op)
    (he : encodeCore (C x) = fWord op 0 (b2n x.d.nowb) (regCode x.d.reg) (opndCode x.a) 0 (raCtl x.ty .rn x.sat false))
    (hs : ∀ w, skelF op w = some ((dInt1 w).map C)) (hw : (C x).wf = true)
    (hp : x.d.reg.wf = true ∧ x.a.wf = true) :
    decodeCore (encodeCore (C x)) = .ok (C x) := by
  obtain ⟨hd, ha⟩ := hp
  have := regCode_lt' hd
  have := b2n_lt x.d.nowb
  have := opndCode_lt ha
  have := tyCode_lt x.ty
  have := rndCode_lt .rn
  have := b2n_lt x.sat
  have := b2n_lt false
  have r : FRange 0 (b2n x.d.nowb) (regCode x.d.reg) (opndCode x.a) 0 (raCtl x.ty .rn x.sat false) := by
    simp only [FRange, raCtl]; omega
  refine core_f he ho r ?_ hw
  rw [hs, dInt1]
  rw [fD_of (x := x.d) hd r,
    fA_of (x := x.a) ha r,
    fT_of (x := x.ty) (by simp only [bits, raCtl]; omega),
    fBit_of (i := 1) (x := x.sat) (by omega) (by simp only [raCtl]; omega)]
  rfl

theorem word_int3 {op : Nat} {C : Int3 → Instr} {x : Int3} (ho : FOp op)
    (he : encodeCore (C x) = fWord op 0 (b2n x.d.nowb) (regCode x.d.reg) (opndCode x.a) (opndCode x.b) (opndCode x.c * 256 + raCtl x.ty .rn x.sat false))
    (hs : ∀ w, skelF op w = some ((dInt3 w).map C)) (hw : (C x).wf = true)
    (hp : x.d.reg.wf = true ∧ x.a.wf = true ∧ x.b.wf = true ∧ x.c.wf = true) :
    decodeCore (encodeCore (C x)) = .ok (C x) := by
  obtain ⟨hd, ha, hb, hc⟩ := hp
  have := regCode_lt' hd
  have := b2n_lt x.d.nowb
  have := opndCode_lt ha
  have := opndCode_lt hb
  have := opndCode_lt hc
  have := tyCode_lt x.ty
  have := rndCode_lt .rn
  have := b2n_lt x.sat
  have := b2n_lt false
  have r : FRange 0 (b2n x.d.nowb) (regCode x.d.reg) (opndCode x.a) (opndCode x.b) (opndCode x.c * 256 + raCtl x.ty .rn x.sat false) := by
    simp only [FRange, raCtl]; omega
  refine core_f he ho r ?_ hw
  rw [hs, dInt3]
  rw [fD_of (x := x.d) hd r,
    fA_of (x := x.a) ha r,
    fB_of (x := x.b) hb r,
    fC_of (x := x.c) hc (by simp only [bits, raCtl]; omega),
    fT_of (x := x.ty) (by simp only [bits, raCtl]; omega),
    fBit_of (i := 1) (x := x.sat) (by omega) (by simp only [raCtl]; omega)]
  rfl

theorem word_f2 {op : Nat} {t : Ty} {C : F2 → Instr} {x : F2} (ho : FOp op)
    (he : encodeCore (C x) = fWord op 0 (b2n x.d.nowb) (regCode x.d.reg) (opndCode x.a) (opndCode x.b) (raCtl t x.rnd false x.ftz))
    (hs : ∀ w, skelF op w = some ((dF2 w).map C)) (hw : (C x).wf = true)
    (hp : x.d.reg.wf = true ∧ x.a.wf = true ∧ x.b.wf = true) :
    decodeCore (encodeCore (C x)) = .ok (C x) := by
  obtain ⟨hd, ha, hb⟩ := hp
  have := regCode_lt' hd
  have := b2n_lt x.d.nowb
  have := opndCode_lt ha
  have := opndCode_lt hb
  have := tyCode_lt t
  have := rndCode_lt x.rnd
  have := b2n_lt false
  have := b2n_lt x.ftz
  have r : FRange 0 (b2n x.d.nowb) (regCode x.d.reg) (opndCode x.a) (opndCode x.b) (raCtl t x.rnd false x.ftz) := by
    simp only [FRange, raCtl]; omega
  refine core_f he ho r ?_ hw
  rw [hs, dF2]
  rw [fD_of (x := x.d) hd r,
    fA_of (x := x.a) ha r,
    fB_of (x := x.b) hb r,
    fR_of (x := x.rnd) (by simp only [bits, raCtl]; omega),
    fBit_of (i := 0) (x := x.ftz) (by omega) (by simp only [raCtl]; omega)]
  rfl

theorem word_f1 {op : Nat} {t : Ty} {C : F1 → Instr} {x : F1} (ho : FOp op)
    (he : encodeCore (C x) = fWord op 0 (b2n x.d.nowb) (regCode x.d.reg) (opndCode x.a) 0 (raCtl t x.rnd false x.ftz))
    (hs : ∀ w, skelF op w = some ((dF1 w).map C)) (hw : (C x).wf = true)
    (hp : x.d.reg.wf = true ∧ x.a.wf = true) :
    decodeCore (encodeCore (C x)) = .ok (C x) := by
  obtain ⟨hd, ha⟩ := hp
  have := regCode_lt' hd
  have := b2n_lt x.d.nowb
  have := opndCode_lt ha
  have := tyCode_lt t
  have := rndCode_lt x.rnd
  have := b2n_lt false
  have := b2n_lt x.ftz
  have r : FRange 0 (b2n x.d.nowb) (regCode x.d.reg) (opndCode x.a) 0 (raCtl t x.rnd false x.ftz) := by
    simp only [FRange, raCtl]; omega
  refine core_f he ho r ?_ hw
  rw [hs, dF1]
  rw [fD_of (x := x.d) hd r,
    fA_of (x := x.a) ha r,
    fR_of (x := x.rnd) (by simp only [bits, raCtl]; omega),
    fBit_of (i := 0) (x := x.ftz) (by omega) (by simp only [raCtl]; omega)]
  rfl

theorem word_f3 {op : Nat} {t : Ty} {C : F3 → Instr} {x : F3} (ho : FOp op)
    (he : encodeCore (C x) = fWord op 0 (b2n x.d.nowb) (regCode x.d.reg) (opndCode x.a) (opndCode x.b) (opndCode x.c * 256 + raCtl t x.rnd false x.ftz))
    (hs : ∀ w, skelF op w = some ((dF3 w).map C)) (hw : (C x).wf = true)
    (hp : x.d.reg.wf = true ∧ x.a.wf = true ∧ x.b.wf = true ∧ x.c.wf = true) :
    decodeCore (encodeCore (C x)) = .ok (C x) := by
  obtain ⟨hd, ha, hb, hc⟩ := hp
  have := regCode_lt' hd
  have := b2n_lt x.d.nowb
  have := opndCode_lt ha
  have := opndCode_lt hb
  have := opndCode_lt hc
  have := tyCode_lt t
  have := rndCode_lt x.rnd
  have := b2n_lt false
  have := b2n_lt x.ftz
  have r : FRange 0 (b2n x.d.nowb) (regCode x.d.reg) (opndCode x.a) (opndCode x.b) (opndCode x.c * 256 + raCtl t x.rnd false x.ftz) := by
    simp only [FRange, raCtl]; omega
  refine core_f he ho r ?_ hw
  rw [hs, dF3]
  rw [fD_of (x := x.d) hd r,
    fA_of (x := x.a) ha r,
    fB_of (x := x.b) hb r,
    fC_of (x := x.c) hc (by simp only [bits, raCtl]; omega),
    fR_of (x := x.rnd) (by simp only [bits, raCtl]; omega),
    fBit_of (i := 0) (x := x.ftz) (by omega) (by simp only [raCtl]; omega)]
  rfl

theorem word_h2 {op : Nat} {C : H2 → Instr} {x : H2} (ho : FOp op)
    (he : encodeCore (C x) = fWord op 0 (b2n x.d.nowb) (regCode x.d.reg) (opndCode x.a) (opndCode x.b) (raCtl (if x.bf then .bf16 else .f16) x.rnd false x.ftz))
    (hs : ∀ w, skelF op w = some ((dH2 w).map C)) (hw : (C x).wf = true)
    (hp : x.d.reg.wf = true ∧ x.a.wf = true ∧ x.b.wf = true) :
    decodeCore (encodeCore (C x)) = .ok (C x) := by
  obtain ⟨hd, ha, hb⟩ := hp
  have := regCode_lt' hd
  have := b2n_lt x.d.nowb
  have := opndCode_lt ha
  have := opndCode_lt hb
  have := tyCode_half x.bf
  have := b2n_lt x.bf
  have := rndCode_lt x.rnd
  have := b2n_lt false
  have := b2n_lt x.ftz
  have r : FRange 0 (b2n x.d.nowb) (regCode x.d.reg) (opndCode x.a) (opndCode x.b) (raCtl (if x.bf then .bf16 else .f16) x.rnd false x.ftz) := by
    simp only [FRange, raCtl]; omega
  refine core_f he ho r ?_ hw
  rw [hs, dH2]
  rw [fD_of (x := x.d) hd r,
    fA_of (x := x.a) ha r,
    fB_of (x := x.b) hb r,
    fBit_of (i := 4) (x := x.bf) (by omega) (by simp only [raCtl]; omega),
    fR_of (x := x.rnd) (by simp only [bits, raCtl]; omega),
    fBit_of (i := 0) (x := x.ftz) (by omega) (by simp only [raCtl]; omega)]
  rfl

theorem word_h3 {op : Nat} {C : H3 → Instr} {x : H3} (ho : FOp op)
    (he : encodeCore (C x) = fWord op 0 (b2n x.d.nowb) (regCode x.d.reg) (opndCode x.a) (opndCode x.b) (opndCode x.c * 256 + raCtl (if x.bf then .bf16 else .f16) x.rnd false x.ftz))
    (hs : ∀ w, skelF op w = some ((dH3 w).map C)) (hw : (C x).wf = true)
    (hp : x.d.reg.wf = true ∧ x.a.wf = true ∧ x.b.wf = true ∧ x.c.wf = true) :
    decodeCore (encodeCore (C x)) = .ok (C x) := by
  obtain ⟨hd, ha, hb, hc⟩ := hp
  have := regCode_lt' hd
  have := b2n_lt x.d.nowb
  have := opndCode_lt ha
  have := opndCode_lt hb
  have := opndCode_lt hc
  have := tyCode_half x.bf
  have := b2n_lt x.bf
  have := rndCode_lt x.rnd
  have := b2n_lt false
  have := b2n_lt x.ftz
  have r : FRange 0 (b2n x.d.nowb) (regCode x.d.reg) (opndCode x.a) (opndCode x.b) (opndCode x.c * 256 + raCtl (if x.bf then .bf16 else .f16) x.rnd false x.ftz) := by
    simp only [FRange, raCtl]; omega
  refine core_f he ho r ?_ hw
  rw [hs, dH3]
  rw [fD_of (x := x.d) hd r,
    fA_of (x := x.a) ha r,
    fB_of (x := x.b) hb r,
    fC_of (x := x.c) hc (by simp only [bits, raCtl]; omega),
    fBit_of (i := 4) (x := x.bf) (by omega) (by simp only [raCtl]; omega),
    fR_of (x := x.rnd) (by simp only [bits, raCtl]; omega),
    fBit_of (i := 0) (x := x.ftz) (by omega) (by simp only [raCtl]; omega)]
  rfl

theorem word_fcmp {op k : Nat} {C : FcmpArgs → Instr} {x : FcmpArgs} (ho : FOp op) (hk : k < 16)
    (he : encodeCore (C x) = fWord op 0 (b2n x.pd.nowb) x.pd.p (opndCode x.a) (opndCode x.b) (k * 16 + fccCode x.cc * 2 + b2n x.ftz))
    (hs : ∀ w, skelF op w = some ((dFcmp w).map C)) (hw : (C x).wf = true)
    (hp : x.pd.wf = true ∧ x.a.wf = true ∧ x.b.wf = true) :
    decodeCore (encodeCore (C x)) = .ok (C x) := by
  obtain ⟨hpd, ha, hb⟩ := hp
  have := PDst.lt_of_wf hpd
  have := b2n_lt x.pd.nowb
  have := opndCode_lt ha
  have := opndCode_lt hb
  have := fccCode_lt x.cc
  have := b2n_lt x.ftz
  have r : FRange 0 (b2n x.pd.nowb) x.pd.p (opndCode x.a) (opndCode x.b) (k * 16 + fccCode x.cc * 2 + b2n x.ftz) := by
    simp only [FRange]; omega
  refine core_f he ho r ?_ hw
  rw [hs, dFcmp]
  rw [fP_of (x := x.pd) hpd r,
    fA_of (x := x.a) ha r,
    fB_of (x := x.b) hb r,
    fLow_of (lo := 1) (n := 3) (k := fccCode x.cc) (by omega) (by simp only [bits]; omega),
    fccOf_code,
    fBit_of (i := 0) (x := x.ftz) (by omega) (by omega)]
  rfl

theorem word_narrow {op : Nat} {C : NarrowArgs → Instr} {x : NarrowArgs} (ho : FOp op)
    (he : encodeCore (C x) = fWord op (b2n x.nsat * 4 + rndCode x.rnd) (b2n x.d.nowb) (regCode x.d.reg) (opndCode x.a) (opndCode x.b) (tyCode x.dty * 16 + tyCode x.sty))
    (hs : ∀ w, skelF op w = some ((dNarrow w).map C)) (hw : (C x).wf = true)
    (hp : x.d.reg.wf = true ∧ x.a.wf = true ∧ x.b.wf = true) :
    decodeCore (encodeCore (C x)) = .ok (C x) := by
  obtain ⟨hd, ha, hb⟩ := hp
  have := regCode_lt' hd
  have := b2n_lt x.d.nowb
  have := opndCode_lt ha
  have := opndCode_lt hb
  have := tyCode_lt x.dty
  have := tyCode_lt x.sty
  have := b2n_lt x.nsat
  have := rndCode_lt x.rnd
  have r : FRange (b2n x.nsat * 4 + rndCode x.rnd) (b2n x.d.nowb) (regCode x.d.reg) (opndCode x.a) (opndCode x.b) (tyCode x.dty * 16 + tyCode x.sty) := by
    simp only [FRange]; omega
  refine core_f he ho r ?_ hw
  rw [hs, dNarrow]
  rw [fD_of (x := x.d) hd r,
    fA_of (x := x.a) ha r,
    fB_of (x := x.b) hb r,
    fT_of (x := x.dty) (by simp only [bits]; omega),
    fTlow_of (x := x.sty) (by simp only [bits]; omega),
    fMd2_of (k := rndCode x.rnd) r (by omega),
    rndOf_code,
    fMb50_of (x := x.nsat) r (by omega)]
  rfl

theorem word_unpack {op : Nat} {C : UnpackArgs → Instr} {x : UnpackArgs} (ho : FOp op)
    (he : encodeCore (C x) = fWord op 0 (b2n x.d.nowb) (regCode x.d.reg) (opndCode x.a) 0 (tyCode x.dty * 16 + tyCode x.sty))
    (hs : ∀ w, skelF op w = some ((dUnpack w).map C)) (hw : (C x).wf = true)
    (hp : x.d.reg.wf = true ∧ x.a.wf = true) :
    decodeCore (encodeCore (C x)) = .ok (C x) := by
  obtain ⟨hd, ha⟩ := hp
  have := regCode_lt' hd
  have := b2n_lt x.d.nowb
  have := opndCode_lt ha
  have := tyCode_lt x.dty
  have := tyCode_lt x.sty
  have r : FRange 0 (b2n x.d.nowb) (regCode x.d.reg) (opndCode x.a) 0 (tyCode x.dty * 16 + tyCode x.sty) := by
    simp only [FRange]; omega
  refine core_f he ho r ?_ hw
  rw [hs, dUnpack]
  rw [fD_of (x := x.d) hd r,
    fA_of (x := x.a) ha r,
    fT_of (x := x.dty) (by simp only [bits]; omega),
    fTlow_of (x := x.sty) (by simp only [bits]; omega)]
  rfl

theorem word_load {op : Nat} {C : LoadArgs → Instr} {x : LoadArgs} (ho : FOp op)
    (he : encodeCore (C x) = fWord op 0 (b2n x.d.nowb) (regCode x.d.reg) (opndCode x.m.a) (opndCode x.m.b) (ofInt 10 x.m.off * 256 + mCtl (sizeCode x.size) x.strong x.na))
    (hs : ∀ w, skelF op w = some ((dLoad w).map C)) (hw : (C x).wf = true)
    (hp : x.d.reg.wf = true ∧ x.m.a.wf = true ∧ x.m.b.wf = true ∧ fits 10 x.m.off = true) :
    decodeCore (encodeCore (C x)) = .ok (C x) := by
  obtain ⟨hd, ha, hb, hf⟩ := hp
  have := regCode_lt' hd
  have := b2n_lt x.d.nowb
  have := opndCode_lt ha
  have := opndCode_lt hb
  have := ofInt_lt 10 x.m.off
  have := sizeCode_lt x.size
  have := b2n_lt x.na
  have := mCtl_lt (sizeCode_lt x.size) x.strong x.na
  have := mCtl_div (sizeCode x.size) x.strong x.na
  have := mCtl_mod (sizeCode x.size) x.strong x.na
  have r : FRange 0 (b2n x.d.nowb) (regCode x.d.reg) (opndCode x.m.a) (opndCode x.m.b) (ofInt 10 x.m.off * 256 + mCtl (sizeCode x.size) x.strong x.na) := by
    simp only [FRange]; omega
  refine core_f he ho r ?_ hw
  rw [hs, dLoad, dMem]
  rw [fD_of (x := x.d) hd r,
    fA_of (x := x.m.a) ha r,
    fB_of (x := x.m.b) hb r,
    fSext_of (lo := 8) (n := 10) (x := x.m.off) (by omega) (by omega) hf (by simp only [bits]; omega),
    fLow_of (lo := 5) (n := 3) (k := sizeCode x.size) (by omega) (by simp only [bits]; omega),
    sizeOf_code,
    dStrong_of (sizeCode x.size),
    fBit_of (i := 0) (x := x.na) (by omega) (by omega)]
  rfl

theorem word_store {op : Nat} {C : StoreArgs → Instr} {x : StoreArgs} (ho : FOp op)
    (he : encodeCore (C x) = fWord op (guardCode x.g) 0 (regCode x.src) (opndCode x.m.a) (opndCode x.m.b) (ofInt 10 x.m.off * 256 + mCtl (sizeCode x.size) x.strong x.na))
    (hs : ∀ w, skelF op w = some ((dStore w).map C)) (hw : (C x).wf = true)
    (hp : x.g.wf = true ∧ x.src.wf = true ∧ x.m.a.wf = true ∧ x.m.b.wf = true ∧ fits 10 x.m.off = true) :
    decodeCore (encodeCore (C x)) = .ok (C x) := by
  obtain ⟨hg, hd, ha, hb, hf⟩ := hp
  have := guardCode_lt hg
  have := regCode_lt' hd
  have := opndCode_lt ha
  have := opndCode_lt hb
  have := ofInt_lt 10 x.m.off
  have := sizeCode_lt x.size
  have := b2n_lt x.na
  have := mCtl_lt (sizeCode_lt x.size) x.strong x.na
  have := mCtl_div (sizeCode x.size) x.strong x.na
  have := mCtl_mod (sizeCode x.size) x.strong x.na
  have r : FRange (guardCode x.g) 0 (regCode x.src) (opndCode x.m.a) (opndCode x.m.b) (ofInt 10 x.m.off * 256 + mCtl (sizeCode x.size) x.strong x.na) := by
    simp only [FRange]; omega
  refine core_f he ho r ?_ hw
  rw [hs, dStore, dMem]
  rw [fG_of (x := x.g) hg r,
    fReg_of (r := x.src) hd r,
    fA_of (x := x.m.a) ha r,
    fB_of (x := x.m.b) hb r,
    fSext_of (lo := 8) (n := 10) (x := x.m.off) (by omega) (by omega) hf (by simp only [bits]; omega),
    fLow_of (lo := 5) (n := 3) (k := sizeCode x.size) (by omega) (by simp only [bits]; omega),
    sizeOf_code,
    dStrong_of (sizeCode x.size),
    fBit_of (i := 0) (x := x.na) (by omega) (by omega)]
  rfl

theorem word_cache {op : Nat} {C : CacheArgs → Instr} {x : CacheArgs} (ho : FOp op)
    (he : encodeCore (C x) = fWord op 0 0 0 (opndCode x.m.a) (opndCode x.m.b) (ofInt 10 x.m.off * 256 + b2n x.opt))
    (hs : ∀ w, skelF op w = some ((dCache w).map C)) (hw : (C x).wf = true)
    (hp : x.m.a.wf = true ∧ x.m.b.wf = true ∧ fits 10 x.m.off = true) :
    decodeCore (encodeCore (C x)) = .ok (C x) := by
  obtain ⟨ha, hb, hf⟩ := hp
  have := opndCode_lt ha
  have := opndCode_lt hb
  have := ofInt_lt 10 x.m.off
  have := b2n_lt x.opt
  have r : FRange 0 0 0 (opndCode x.m.a) (opndCode x.m.b) (ofInt 10 x.m.off * 256 + b2n x.opt) := by
    simp only [FRange]; omega
  refine core_f he ho r ?_ hw
  rw [hs, dCache, dMem]
  rw [fA_of (x := x.m.a) ha r,
    fB_of (x := x.m.b) hb r,
    fSext_of (lo := 8) (n := 10) (x := x.m.off) (by omega) (by omega) hf (by simp only [bits]; omega),
    fBit_of (i := 0) (x := x.opt) (by omega) (by omega)]
  rfl

theorem word_atom {op : Nat} {C : AtomArgs → Instr} {x : AtomArgs} (ho : FOp op)
    (he : encodeCore (C x) = fWord op (guardCode x.g) (b2n x.d.nowb) (regCode x.d.reg) (opndCode x.a) (opndCode x.b) (opndCode x.c * 256 + (4 + b2n x.wide) * 32 + scopeCode x.scope * 2 + b2n x.sgn))
    (hs : ∀ w, skelF op w = some ((dAtom w).map C)) (hw : (C x).wf = true)
    (hp : x.g.wf = true ∧ x.d.reg.wf = true ∧ x.a.wf = true ∧ x.b.wf = true ∧ x.c.wf = true) :
    decodeCore (encodeCore (C x)) = .ok (C x) := by
  obtain ⟨hg, hd, ha, hb, hc⟩ := hp
  have := guardCode_lt hg
  have := regCode_lt' hd
  have := b2n_lt x.d.nowb
  have := opndCode_lt ha
  have := opndCode_lt hb
  have := opndCode_lt hc
  have := b2n_lt x.wide
  have := scopeCode_lt x.scope
  have := b2n_lt x.sgn
  have r : FRange (guardCode x.g) (b2n x.d.nowb) (regCode x.d.reg) (opndCode x.a) (opndCode x.b) (opndCode x.c * 256 + (4 + b2n x.wide) * 32 + scopeCode x.scope * 2 + b2n x.sgn) := by
    simp only [FRange]; omega
  refine core_f he ho r ?_ hw
  rw [hs, dAtom]
  rw [fG_of (x := x.g) hg r,
    fD_of (x := x.d) hd r,
    fA_of (x := x.a) ha r,
    fB_of (x := x.b) hb r,
    fC_of (x := x.c) hc (by simp only [bits]; omega),
    fBit_of (i := 5) (x := x.wide) (by omega) (by omega),
    fLow_of (lo := 1) (n := 3) (k := scopeCode x.scope) (by omega) (by simp only [bits]; omega),
    scopeOf_code,
    fBit_of (i := 0) (x := x.sgn) (by omega) (by omega)]
  rfl

theorem word_ratom {op : Nat} {C : RatomArgs → Instr} {x : RatomArgs} (ho : FOp op)
    (he : encodeCore (C x) = fWord op (guardCode x.g) (b2n x.d.nowb) (regCode x.d.reg) (opndCode x.a) (opndCode x.b) (opndCode x.c * 256 + (4 + b2n x.wide) * 32 + 10 + b2n x.sgn))
    (hs : ∀ w, skelF op w = some ((dRatom w).map C)) (hw : (C x).wf = true)
    (hp : x.g.wf = true ∧ x.d.reg.wf = true ∧ x.a.wf = true ∧ x.b.wf = true ∧ x.c.wf = true) :
    decodeCore (encodeCore (C x)) = .ok (C x) := by
  obtain ⟨hg, hd, ha, hb, hc⟩ := hp
  have := guardCode_lt hg
  have := regCode_lt' hd
  have := b2n_lt x.d.nowb
  have := opndCode_lt ha
  have := opndCode_lt hb
  have := opndCode_lt hc
  have := b2n_lt x.wide
  have := b2n_lt x.sgn
  have r : FRange (guardCode x.g) (b2n x.d.nowb) (regCode x.d.reg) (opndCode x.a) (opndCode x.b) (opndCode x.c * 256 + (4 + b2n x.wide) * 32 + 10 + b2n x.sgn) := by
    simp only [FRange]; omega
  refine core_f he ho r ?_ hw
  rw [hs, dRatom]
  rw [fG_of (x := x.g) hg r,
    fD_of (x := x.d) hd r,
    fA_of (x := x.a) ha r,
    fB_of (x := x.b) hb r,
    fC_of (x := x.c) hc (by simp only [bits]; omega),
    fBit_of (i := 5) (x := x.wide) (by omega) (by omega),
    fBit_of (i := 0) (x := x.sgn) (by omega) (by omega)]
  rfl

theorem word_pass {op : Nat} {C : PassArgs → Instr} {x : PassArgs} (ho : FOp op)
    (he : encodeCore (C x) = fWord op (b2n x.ka * 8 + b2n x.kb * 4 + b2n x.tra * 2 + b2n x.trb) (b2n x.d.nowb) (regCode x.d.reg) (opndCode x.a) 0 (x.fmt * 16 + x.n))
    (hs : ∀ w, skelF op w = some ((dPass w).map C)) (hw : (C x).wf = true)
    (hp : x.d.reg.wf = true ∧ x.a.wf = true ∧ x.n < 8 ∧ x.fmt < 16) :
    decodeCore (encodeCore (C x)) = .ok (C x) := by
  obtain ⟨hd, ha, hn, hf⟩ := hp
  have := regCode_lt' hd
  have := b2n_lt x.d.nowb
  have := opndCode_lt ha
  have := b2n_lt x.ka
  have := b2n_lt x.kb
  have := b2n_lt x.tra
  have := b2n_lt x.trb
  have r : FRange (b2n x.ka * 8 + b2n x.kb * 4 + b2n x.tra * 2 + b2n x.trb) (b2n x.d.nowb) (regCode x.d.reg) (opndCode x.a) 0 (x.fmt * 16 + x.n) := by
    simp only [FRange]; omega
  refine core_f he ho r ?_ hw
  rw [hs, dPass]
  rw [fD_of (x := x.d) hd r,
    fLow_of (lo := 0) (n := 3) (k := x.n) (by omega) (by simp only [bits]; omega),
    fA_of (x := x.a) ha r,
    fLow_of (lo := 4) (n := 4) (k := x.fmt) (by omega) (by simp only [bits]; omega),
    fMb51_of (x := x.ka) r (by omega),
    fMb50_of (x := x.kb) r (by omega),
    fMb49_of (x := x.tra) r (by omega),
    fMb48_of (x := x.trb) r (by omega)]
  rfl

theorem word_acc {op : Nat} {C : AccArgs → Instr} {x : AccArgs} (ho : FOp op)
    (he : encodeCore (C x) = fWord op 0 0 x.v 0 0 (x.row * 256 + x.cb * 16 + b2n x.raw * 8 + x.t))
    (hs : ∀ w, skelF op w = some (some (C (dAcc w)))) (hw : (C x).wf = true)
    (hp : x.v < 384 ∧ x.t < 8 ∧ x.row < 128 ∧ x.cb < 16) :
    decodeCore (encodeCore (C x)) = .ok (C x) := by
  obtain ⟨hv, ht, hr, hc⟩ := hp
  have := b2n_lt x.raw
  have r : FRange 0 0 x.v 0 0 (x.row * 256 + x.cb * 16 + b2n x.raw * 8 + x.t) := by
    simp only [FRange]; omega
  refine core_f he ho r ?_ hw
  rw [hs, dAcc]
  rw [fWord_d r,
    fLow_of (lo := 0) (n := 3) (k := x.t) (by omega) (by simp only [bits]; omega),
    fLow_of (lo := 8) (n := 10) (k := x.row) (by omega) (by simp only [bits]; omega),
    fLow_of (lo := 4) (n := 4) (k := x.cb) (by omega) (by simp only [bits]; omega),
    fBit_of (i := 3) (x := x.raw) (by omega) (by omega)]

theorem word_da {op tail : Nat} {C : Dst → Opnd → Instr} {d : Dst} {a : Opnd} (ho : FOp op) (ht : tail < 262144)
    (he : encodeCore (C d a) = fWord op 0 (b2n d.nowb) (regCode d.reg) (opndCode a) 0 tail)
    (hs : skelF op (fWord op 0 (b2n d.nowb) (regCode d.reg) (opndCode a) 0 tail) = some ((dDA (fWord op 0 (b2n d.nowb) (regCode d.reg) (opndCode a) 0 tail)).map (fun x => C x.1 x.2)))
    (hw : (C d a).wf = true) (hp : d.reg.wf = true ∧ a.wf = true) :
    decodeCore (encodeCore (C d a)) = .ok (C d a) := by
  obtain ⟨hd, ha⟩ := hp
  have := regCode_lt' hd
  have := b2n_lt d.nowb
  have := opndCode_lt ha
  have r : FRange 0 (b2n d.nowb) (regCode d.reg) (opndCode a) 0 tail := by
    simp only [FRange]; omega
  refine core_f he ho r ?_ hw
  rw [hs, dDA]
  rw [fD_of (x := d) hd r,
    fA_of (x := a) ha r]
  rfl

theorem word_dab {op tail : Nat} {C : Dst → Opnd → Opnd → Instr} {d : Dst} {a b : Opnd} (ho : FOp op) (ht : tail < 262144)
    (he : encodeCore (C d a b) = fWord op 0 (b2n d.nowb) (regCode d.reg) (opndCode a) (opndCode b) tail)
    (hs : skelF op (fWord op 0 (b2n d.nowb) (regCode d.reg) (opndCode a) (opndCode b) tail) =
      some ((dDAB (fWord op 0 (b2n d.nowb) (regCode d.reg) (opndCode a) (opndCode b) tail)).map (fun x => C x.1 x.2.1 x.2.2)))
    (hw : (C d a b).wf = true) (hp : d.reg.wf = true ∧ a.wf = true ∧ b.wf = true) :
    decodeCore (encodeCore (C d a b)) = .ok (C d a b) := by
  obtain ⟨hd, ha, hb⟩ := hp
  have := regCode_lt' hd
  have := b2n_lt d.nowb
  have := opndCode_lt ha
  have := opndCode_lt hb
  have r : FRange 0 (b2n d.nowb) (regCode d.reg) (opndCode a) (opndCode b) tail := by
    simp only [FRange]; omega
  refine core_f he ho r ?_ hw
  rw [hs, dDAB]
  rw [fD_of (x := d) hd r,
    fA_of (x := a) ha r,
    fB_of (x := b) hb r]
  rfl

/-! ## Copies -/

theorem dCopy_eq (w : Nat) (c : Bool) :
    dCopy w c = Option.bind (if bit w 0 then (fB w).map some else some none) fun b =>
      Option.bind (if c then (fC w).map some else some none) fun c => Option.bind (fD w) fun d =>
      Option.bind (copyKindOf (bits w 6 2)) fun k => Option.bind (scopeOf (bits w 3 3)) fun sc =>
      some ⟨d, (bits w 28 10 - 384) / 4, b, c, k, sc, bit w 2, bit w 1⟩ := by
  unfold dCopy; cases bit w 0 <;> cases c <;> rfl

theorem word_copy {op : Nat} {C : CopyArgs → Instr} {x : CopyArgs} {cc : Bool} (ho : FOp op)
    (he : encodeCore (C x) = fWord op 0 (b2n x.d.nowb) (regCode x.d.reg) (384 + 4 * x.k) ((x.b.map opndCode).getD 0)
      ((x.c.map opndCode).getD 0 * 256 + copyKindCode x.kind * 64 + scopeCode x.scope * 8 + b2n x.sh * 4 + b2n x.dz * 2 + b2n x.b.isSome))
    (hs : ∀ w, skelF op w = some ((dCopy w cc).map C)) (hw : (C x).wf = true)
    (hp : x.d.reg.wf = true ∧ x.k < 16 ∧ (∀ o, x.b = some o → o.wf = true) ∧ (∀ o, x.c = some o → o.wf = true) ∧ x.c.isSome = cc) :
    decodeCore (encodeCore (C x)) = .ok (C x) := by
  obtain ⟨hd, hk, hb, hc, hcc⟩ := hp
  obtain ⟨d, k, b, c, kind, scope, sh, dz⟩ := x
  dsimp only at hd hk hb hc hcc he
  have h1 := regCode_lt' hd
  have h2 := b2n_lt d.nowb
  have h3 := copyKindCode_lt kind
  have h4 := scopeCode_lt scope
  have h5 := b2n_lt sh
  have h6 := b2n_lt dz
  have h7 := b2n_lt b.isSome
  have hbl : (b.map opndCode).getD 0 < 1024 := by
    cases b with
    | none => decide
    | some o => exact opndCode_lt (hb o rfl)
  have hcl : (c.map opndCode).getD 0 < 1024 := by
    cases c with
    | none => decide
    | some o => exact opndCode_lt (hc o rfl)
  generalize hbe : (b.map opndCode).getD 0 = bc at *
  generalize hce : (c.map opndCode).getD 0 = cd at *
  have r : FRange 0 (b2n d.nowb) (regCode d.reg) (384 + 4 * k) bc
      (cd * 256 + copyKindCode kind * 64 + scopeCode scope * 8 + b2n sh * 4 + b2n dz * 2 + b2n b.isSome) := by
    simp only [FRange]; omega
  refine core_f he ho r ?_ hw
  rw [hs, dCopy_eq]
  have e1 : (if b.isSome = true then (fB (fWord op 0 (b2n d.nowb) (regCode d.reg) (384 + 4 * k) bc (cd * 256 + copyKindCode kind * 64 +
      scopeCode scope * 8 + b2n sh * 4 + b2n dz * 2 + b2n b.isSome))).map some else some none) = some b := by
    cases b with
    | none => rfl
    | some o =>
      subst hbe
      refine (if_pos rfl).trans ?_
      exact congrArg (Option.map some) (fB_of (hb o rfl) r)
  have e2 : (if cc = true then (fC (fWord op 0 (b2n d.nowb) (regCode d.reg) (384 + 4 * k) bc (cd * 256 + copyKindCode kind * 64 +
      scopeCode scope * 8 + b2n sh * 4 + b2n dz * 2 + b2n b.isSome))).map some else some none) = some c := by
    subst hcc
    cases c with
    | none => rfl
    | some o =>
      have hco : opndCode o = cd := hce
      refine (if_pos rfl).trans ?_
      exact congrArg (Option.map some) (fC_of (hc o rfl) (by simp only [bits]; omega))
  rw [fBit_of (i := 0) (x := b.isSome) (by omega) (by omega), e1, e2, fD_of hd r, fWord_a r,
    fLow_of (lo := 6) (n := 2) (k := copyKindCode kind) (by omega) (by simp only [bits]; omega), copyKindOf_code,
    fLow_of (lo := 3) (n := 3) (k := scopeCode scope) (by omega) (by simp only [bits]; omega), scopeOf_code,
    fBit_of (i := 2) (x := sh) (by omega) (by omega), fBit_of (i := 1) (x := dz) (by omega) (by omega),
    show (384 + 4 * k - 384) / 4 = k by omega]
  rfl

/-! ## X, P and prefix words -/

theorem word_movi (x : MoviArgs) (h : (Instr.movi x).wf = true) : decodeCore (encodeCore (.movi x)) = .ok (.movi x) := by
  have hd : x.d.reg.wf = true := Dst.wf_of_w (show x.d.w (x.kind != .plain) = true from h)
  have h1 := regCode_lt hd
  have h2 := b2n_lt x.d.nowb
  have h3 := moviCode_lt x.kind
  have h4 : x.imm.toNat < 2 ^ 32 := x.imm.isLt
  have he : encodeCore (.movi x) = xWord 0x20 (b2n x.d.nowb) (regCode x.d.reg) x.imm.toNat (moviCode x.kind) := rfl
  have e1 : bits (xWord 0x20 (b2n x.d.nowb) (regCode x.d.reg) x.imm.toNat (moviCode x.kind)) 62 2 = 2 := by
    simp only [bits, xWord]; omega
  have e2 : bits (xWord 0x20 (b2n x.d.nowb) (regCode x.d.reg) x.imm.toNat (moviCode x.kind)) 52 10 = 0x20 := by
    simp only [bits, xWord]; omega
  have e3 : bits (xWord 0x20 (b2n x.d.nowb) (regCode x.d.reg) x.imm.toNat (moviCode x.kind)) 38 9 = regCode x.d.reg := by
    simp only [bits, xWord]; omega
  have e4 : bit (xWord 0x20 (b2n x.d.nowb) (regCode x.d.reg) x.imm.toNat (moviCode x.kind)) 47 = x.d.nowb :=
    bit_of (by simp only [xWord]; omega)
  have e5 : bits (xWord 0x20 (b2n x.d.nowb) (regCode x.d.reg) x.imm.toNat (moviCode x.kind)) 0 6 = moviCode x.kind := by
    simp only [bits, xWord]; omega
  have e6 : bits (xWord 0x20 (b2n x.d.nowb) (regCode x.d.reg) x.imm.toNat (moviCode x.kind)) 6 32 = x.imm.toNat := by
    simp only [bits, xWord]; omega
  have e7 : BitVec.ofNat 32 x.imm.toNat = x.imm := by simp
  rw [he]
  unfold decodeCore
  dsimp only
  rw [e1, e2, if_neg (by decide), if_pos rfl, if_pos rfl, fD, e3, regOf_code hd, e4, e5, moviOf_code, e6, e7]
  show legalCore _ (some (.movi x)) = _
  simp only [legalCore, h, he, beq_self_eq_true, Bool.and_self, if_true]

theorem word_loopImmediate (n off : Nat) (h : (Instr.loopImmediate n off).wf = true) :
    decodeCore (encodeCore (.loopImmediate n off)) = .ok (.loopImmediate n off) := by
  have hw : (decide (n < 65536) && decide (1 ≤ off) && decide (off < 65536)) = true := h
  simp only [Bool.and_eq_true, decide_eq_true_eq] at hw
  have he : encodeCore (.loopImmediate n off) = xWord 0x207 0 0 (n * 65536 + off) 0 := rfl
  have e1 : bits (xWord 0x207 0 0 (n * 65536 + off) 0) 62 2 = 2 := by simp only [bits, xWord]; omega
  have e2 : bits (xWord 0x207 0 0 (n * 65536 + off) 0) 52 10 = 0x207 := by simp only [bits, xWord]; omega
  have e3 : bits (xWord 0x207 0 0 (n * 65536 + off) 0) 22 16 = n := by simp only [bits, xWord]; omega
  have e4 : bits (xWord 0x207 0 0 (n * 65536 + off) 0) 6 16 = off := by simp only [bits, xWord]; omega
  rw [he]
  unfold decodeCore
  dsimp only
  rw [e1, e2, if_neg (by decide), if_pos rfl, if_neg (by decide), if_pos rfl, e3, e4]
  simp only [legalCore, h, he, beq_self_eq_true, Bool.and_self, if_true]

theorem POp.opt_lt {o : POp} {n : Nat} (h : o.optOk n = true) : n < 32 := by
  cases o <;> simp only [POp.optOk, decide_eq_true_eq, beq_iff_eq, Bool.or_eq_true] at h <;> omega

/-- The halves of a P word lie in 31 bits and read back (01 Table word-10). -/
theorem pHalf_back {op : POp} {h : PArgs} (hw : pHalfOk op h = true) :
    pHalfWord op h < 2 ^ 31 ∧ dHalf (pHalfWord op h) = some ⟨op, h⟩ := by
  simp only [pHalfOk, Bool.and_eq_true, decide_eq_true_eq] at hw
  obtain ⟨⟨⟨hd, ho⟩, hs⟩, -⟩ := hw
  have h1 := POp.opt_lt ho
  have h2 := popCode_lt op
  have h3 := b2n_lt h.nowb
  have t : b2n true = 1 := rfl
  have f : b2n false = 0 := rfl
  obtain ⟨d, s, nowb, opt⟩ := h
  dsimp only at hd hs h1 h3
  cases s with
  | reg n =>
    simp only [Bool.and_eq_true, decide_eq_true_eq] at hs
    have hn := hs.1
    refine ⟨by simp only [pHalfWord]; omega, ?_⟩
    unfold dHalf
    rw [show bit (pHalfWord op ⟨d, .reg n, nowb, opt⟩) 6 = false from bit_of (by simp only [pHalfWord]; omega),
      show bit (pHalfWord op ⟨d, .reg n, nowb, opt⟩) 5 = false from bit_of (by simp only [pHalfWord]; omega),
      show bits (pHalfWord op ⟨d, .reg n, nowb, opt⟩) 24 7 = popCode op by simp only [bits, pHalfWord]; omega,
      show bits (pHalfWord op ⟨d, .reg n, nowb, opt⟩) 16 8 = d by simp only [bits, pHalfWord]; omega,
      show bits (pHalfWord op ⟨d, .reg n, nowb, opt⟩) 8 8 = n by simp only [bits, pHalfWord]; omega,
      show bit (pHalfWord op ⟨d, .reg n, nowb, opt⟩) 7 = nowb from bit_of (by simp only [pHalfWord]; omega),
      show bits (pHalfWord op ⟨d, .reg n, nowb, opt⟩) 0 5 = opt by simp only [bits, pHalfWord]; omega, popOf_code]
    rfl
  | latch k =>
    simp only [Bool.and_eq_true, decide_eq_true_eq] at hs
    obtain ⟨⟨⟨hk, hk8⟩, -⟩, -⟩ := hs
    refine ⟨by simp only [pHalfWord]; omega, ?_⟩
    unfold dHalf
    rw [show bit (pHalfWord op ⟨d, .latch k, nowb, opt⟩) 6 = true from bit_of (by simp only [pHalfWord]; omega),
      show bits (pHalfWord op ⟨d, .latch k, nowb, opt⟩) 24 7 = popCode op by simp only [bits, pHalfWord]; omega,
      show bits (pHalfWord op ⟨d, .latch k, nowb, opt⟩) 16 8 = d by simp only [bits, pHalfWord]; omega,
      show bits (pHalfWord op ⟨d, .latch k, nowb, opt⟩) 8 8 % 8 + 1 = k by simp only [bits, pHalfWord]; omega,
      show bit (pHalfWord op ⟨d, .latch k, nowb, opt⟩) 7 = nowb from bit_of (by simp only [pHalfWord]; omega),
      show bits (pHalfWord op ⟨d, .latch k, nowb, opt⟩) 0 5 = opt by simp only [bits, pHalfWord]; omega, popOf_code]
    rfl
  | imm n =>
    simp only [Bool.and_eq_true, decide_eq_true_eq] at hs
    have hn := hs.1.1
    refine ⟨by simp only [pHalfWord]; omega, ?_⟩
    unfold dHalf
    rw [show bit (pHalfWord op ⟨d, .imm n, nowb, opt⟩) 6 = false from bit_of (by simp only [pHalfWord]; omega),
      show bit (pHalfWord op ⟨d, .imm n, nowb, opt⟩) 5 = true from bit_of (by simp only [pHalfWord]; omega),
      show bits (pHalfWord op ⟨d, .imm n, nowb, opt⟩) 24 7 = popCode op by simp only [bits, pHalfWord]; omega,
      show bits (pHalfWord op ⟨d, .imm n, nowb, opt⟩) 16 8 = d by simp only [bits, pHalfWord]; omega,
      show bits (pHalfWord op ⟨d, .imm n, nowb, opt⟩) 8 8 = n by simp only [bits, pHalfWord]; omega,
      show bit (pHalfWord op ⟨d, .imm n, nowb, opt⟩) 7 = nowb from bit_of (by simp only [pHalfWord]; omega),
      show bits (pHalfWord op ⟨d, .imm n, nowb, opt⟩) 0 5 = opt by simp only [bits, pHalfWord]; omega, popOf_code]
    rfl

theorem word_p {op : POp} {h : PArgs} {o : PHalf} {i : Instr} (hi : pInstr op h o = i) (he : encodeCore i = pWord op h o)
    (hw : i.wf = true) (hp : (pHalfOk op h && pHalfOk o.op o.args) = true) : decodeCore (encodeCore i) = .ok i := by
  simp only [Bool.and_eq_true] at hp
  obtain ⟨hp1, hp2⟩ := hp
  have b0 := pHalf_back hp1
  have b1 := pHalf_back hp2
  have e1 : bits (pWord op h o) 62 2 = 1 := by simp only [bits, pWord]; omega
  have e2 : bits (pWord op h o) 31 31 = pHalfWord op h := by simp only [bits, pWord]; omega
  have e3 : bits (pWord op h o) 0 31 = pHalfWord o.op o.args := by simp only [bits, pWord]; omega
  rw [he]
  unfold decodeCore
  dsimp only
  rw [e1, if_neg (by decide), if_neg (by decide), if_pos rfl, e2, e3, b0.2, b1.2]
  show legalCore _ (some (pInstr op h o)) = _
  rw [hi]
  simp only [legalCore, hw, he, beq_self_eq_true, Bool.and_self, if_true]

theorem repStep_lt (s : Option Int) (t : Int) : repStep s t < 16 := ofInt_lt 4 _

theorem dRepStep_of {w m lo : Nat} {s : Option Int} {t : Int} (hw : repStepOk s t = true) (hm : bit w m = s.isSome)
    (hl : bits w lo 4 = repStep s t) : dRepStep w m lo = (s, t) := by
  unfold dRepStep
  rw [hm, hl]
  cases s with
  | none =>
    have h : fits 4 t = true := hw
    rw [repStep, Option.getD_none, sext_ofInt (by decide) h]; rfl
  | some i =>
    have h : (fits 4 i && t == 0) = true := hw
    simp only [Bool.and_eq_true, beq_iff_eq] at h
    rw [repStep, Option.getD_some, sext_ofInt (by decide) h.1, h.2]; rfl

theorem word_rep (x : RepArgs) (h : (Instr.rep x).wf = true) : decodeCore (encodeCore (.rep x)) = .ok (.rep x) := by
  have hw : (decide (x.count < 256) && repStepOk x.d x.strayD && repStepOk x.a x.strayA && repStepOk x.b x.strayB &&
      repStepOk x.c x.strayC) = true := h
  simp only [Bool.and_eq_true, decide_eq_true_eq] at hw
  obtain ⟨⟨⟨⟨hn, hd⟩, ha⟩, hb⟩, hc⟩ := hw
  have h1 := repStep_lt x.d x.strayD
  have h2 := repStep_lt x.a x.strayA
  have h3 := repStep_lt x.b x.strayB
  have h4 := repStep_lt x.c x.strayC
  have h5 := b2n_lt x.d.isSome
  have h6 := b2n_lt x.a.isSome
  have h7 := b2n_lt x.b.isSome
  have h8 := b2n_lt x.c.isSome
  have he : encodeCore (.rep x) = 3 * 2 ^ 62 + 2 ^ 56 + x.count * 2 ^ 48 +
    (b2n x.d.isSome * 8 + b2n x.a.isSome * 4 + b2n x.b.isSome * 2 + b2n x.c.isSome) * 2 ^ 44 + repStep x.d x.strayD * 2 ^ 40 +
    repStep x.a x.strayA * 2 ^ 36 + repStep x.b x.strayB * 2 ^ 32 + repStep x.c x.strayC * 2 ^ 28 := rfl
  generalize hW : encodeCore (.rep x) = w at *
  have e1 : bits w 62 2 = 3 := by simp only [bits]; omega
  have e2 : bits w 56 6 = 1 := by simp only [bits]; omega
  have e3 : bits w 48 8 = x.count := by simp only [bits]; omega
  have d1 := dRepStep_of (w := w) (m := 47) (lo := 40) hd (bit_of (by omega)) (by simp only [bits]; omega)
  have d2 := dRepStep_of (w := w) (m := 46) (lo := 36) ha (bit_of (by omega)) (by simp only [bits]; omega)
  have d3 := dRepStep_of (w := w) (m := 45) (lo := 32) hb (bit_of (by omega)) (by simp only [bits]; omega)
  have d4 := dRepStep_of (w := w) (m := 44) (lo := 28) hc (bit_of (by omega)) (by simp only [bits]; omega)
  have dr : dRep w = x := by
    unfold dRep
    dsimp only
    rw [d1, d2, d3, d4, e3]
  unfold decodeCore
  dsimp only
  rw [e1, if_neg (by decide), if_neg (by decide), if_neg (by decide), e2, if_pos rfl, dr]
  simp only [legalCore, h, hW, beq_self_eq_true, Bool.and_self, if_true]

/-! ## The fields of a well-formed word -/

theorem Int2.parts {x : Int2} {ty : Ty → Bool} {sat sh : Bool} (h : x.ok ty sat sh = true) :
    x.d.reg.wf = true ∧ x.a.wf = true ∧ x.b.wf = true := by
  simp only [Int2.ok, Bool.and_eq_true] at h
  exact ⟨Dst.wf_of_w h.1.1.2, Opnd.wf_of_int h.1.2, Opnd.wf_of_int h.2⟩

theorem Int1.parts {x : Int1} {ty : Ty → Bool} {sat d32 : Bool} (h : x.ok ty sat d32 = true) : x.d.reg.wf = true ∧ x.a.wf = true := by
  simp only [Int1.ok, Bool.and_eq_true] at h
  exact ⟨Dst.wf_of_w h.1.2, Opnd.wf_of_int h.2⟩

theorem Int3.parts {x : Int3} {q w1 w2 w3 w4 : Bool} (h : (q && x.d.w w1 && x.a.int w2 && x.b.int w3 && x.c.int w4) = true) :
    x.d.reg.wf = true ∧ x.a.wf = true ∧ x.b.wf = true ∧ x.c.wf = true := by
  simp only [Bool.and_eq_true] at h
  exact ⟨Dst.wf_of_w h.1.1.1.2, Opnd.wf_of_int h.1.1.2, Opnd.wf_of_int h.1.2, Opnd.wf_of_int h.2⟩

theorem Opnd.wf_of_pair {o : Opnd} (h : o.pair = true) : o.wf = true := by
  cases o with
  | reg r => simp only [Opnd.pair, Bool.and_eq_true] at h; exact h.1
  | _ => cases h

theorem Opnd.wf_of_fp {o : Opnd} {wide : Bool} (h : o.fp wide = true) : o.wf = true := by
  cases wide
  · exact Opnd.wf_of_w h
  · exact Opnd.wf_of_pair h

/-- IMADW and its like: the addend is a register pair. -/
theorem Int3.partsPair {x : Int3} {q w1 w2 w3 : Bool} (h : (q && x.d.w w1 && x.a.int w2 && x.b.int w3 && x.c.pair) = true) :
    x.d.reg.wf = true ∧ x.a.wf = true ∧ x.b.wf = true ∧ x.c.wf = true := by
  simp only [Bool.and_eq_true] at h
  exact ⟨Dst.wf_of_w h.1.1.1.2, Opnd.wf_of_int h.1.1.2, Opnd.wf_of_int h.1.2, Opnd.wf_of_pair h.2⟩

theorem F2.parts {x : F2} {wide rnd : Bool} (h : x.ok wide rnd = true) : x.d.reg.wf = true ∧ x.a.wf = true ∧ x.b.wf = true := by
  simp only [F2.ok, Bool.and_eq_true] at h
  exact ⟨Dst.wf_of_w h.1.1.1, Opnd.wf_of_fp h.1.1.2, Opnd.wf_of_fp h.1.2⟩

theorem F1.parts {x : F1} {rnd : Bool} (h : x.ok rnd = true) : x.d.reg.wf = true ∧ x.a.wf = true := by
  simp only [F1.ok, Bool.and_eq_true] at h
  exact ⟨Dst.wf_of_w h.1.1, Opnd.wf_of_w h.1.2⟩

theorem F3.parts {x : F3} {wide : Bool} (h : x.ok wide = true) :
    x.d.reg.wf = true ∧ x.a.wf = true ∧ x.b.wf = true ∧ x.c.wf = true := by
  simp only [F3.ok, Bool.and_eq_true] at h
  exact ⟨Dst.wf_of_w h.1.1.1, Opnd.wf_of_fp h.1.1.2, Opnd.wf_of_fp h.1.2, Opnd.wf_of_fp h.2⟩

theorem H2.parts {x : H2} (h : (x.d.w false && x.a.w false && x.b.w false) = true) :
    x.d.reg.wf = true ∧ x.a.wf = true ∧ x.b.wf = true := by
  simp only [Bool.and_eq_true] at h
  exact ⟨Dst.wf_of_w h.1.1, Opnd.wf_of_w h.1.2, Opnd.wf_of_w h.2⟩

theorem H3.parts {x : H3} (h : (x.d.w false && x.a.w false && x.b.w false && x.c.w false) = true) :
    x.d.reg.wf = true ∧ x.a.wf = true ∧ x.b.wf = true ∧ x.c.wf = true := by
  simp only [Bool.and_eq_true] at h
  exact ⟨Dst.wf_of_w h.1.1.1, Opnd.wf_of_w h.1.1.2, Opnd.wf_of_w h.1.2, Opnd.wf_of_w h.2⟩

theorem FcmpArgs.parts {x : FcmpArgs} {w : Bool} (h : (x.pd.wf && x.a.w w && x.b.w w) = true) :
    x.pd.wf = true ∧ x.a.wf = true ∧ x.b.wf = true := by
  simp only [Bool.and_eq_true] at h
  exact ⟨h.1.1, Opnd.wf_of_w h.1.2, Opnd.wf_of_w h.2⟩

theorem MemOpnd.parts {m : MemOpnd} {wide : Bool} (h : m.wf wide = true) : m.a.wf = true ∧ m.b.wf = true ∧ fits 10 m.off = true := by
  simp only [MemOpnd.wf, Bool.and_eq_true] at h
  exact ⟨Opnd.wf_of_int h.1.1, Opnd.wf_of_int h.1.2, h.2⟩

theorem LoadArgs.parts {x : LoadArgs} {szs : MSize → Bool} {plain wide : Bool} (h : x.ok szs plain wide = true) :
    x.d.reg.wf = true ∧ x.m.a.wf = true ∧ x.m.b.wf = true ∧ fits 10 x.m.off = true := by
  simp only [LoadArgs.ok, Bool.and_eq_true] at h
  exact ⟨Dst.wf_of_size h.1.1.1.1, MemOpnd.parts h.1.1.1.2⟩

theorem StoreArgs.parts {x : StoreArgs} {szs : MSize → Bool} {plain wide : Bool} (h : x.ok szs plain wide = true) :
    x.g.wf = true ∧ x.src.wf = true ∧ x.m.a.wf = true ∧ x.m.b.wf = true ∧ fits 10 x.m.off = true := by
  simp only [StoreArgs.ok, Bool.and_eq_true] at h
  exact ⟨h.1.1.1.1.1, Reg.wf_of_size h.1.1.1.1.2, MemOpnd.parts h.1.1.1.2⟩

theorem AtomArgs.parts {x : AtomArgs} {cas fadd minmax spad : Bool} (h : x.ok cas fadd minmax spad = true) :
    x.g.wf = true ∧ x.d.reg.wf = true ∧ x.a.wf = true ∧ x.b.wf = true ∧ x.c.wf = true := by
  simp only [AtomArgs.ok, Bool.and_eq_true] at h
  obtain ⟨⟨⟨⟨⟨⟨hg, hd⟩, ha⟩, hb⟩, hc⟩, -⟩, -⟩ := h
  refine ⟨hg, Dst.wf_of_w hd, Opnd.wf_of_int ha, Opnd.wf_of_int hb, ?_⟩
  split at hc
  · exact Opnd.wf_of_grp hc
  · split at hc
    · exact Opnd.wf_of_w hc
    · exact Opnd.wf_of_int hc

theorem RatomArgs.parts {x : RatomArgs} {cas fadd minmax : Bool} (h : x.ok cas fadd minmax = true) :
    x.g.wf = true ∧ x.d.reg.wf = true ∧ x.a.wf = true ∧ x.b.wf = true ∧ x.c.wf = true := by
  simp only [RatomArgs.ok, Bool.and_eq_true] at h
  obtain ⟨⟨⟨⟨⟨hg, hd⟩, ha⟩, hb⟩, hc⟩, -⟩ := h
  refine ⟨hg, Dst.wf_of_w hd, Opnd.wf_of_int ha, Opnd.wf_of_int hb, ?_⟩
  split at hc
  · exact Opnd.wf_of_grp hc
  · split at hc
    · exact Opnd.wf_of_w hc
    · exact Opnd.wf_of_int hc

theorem PassArgs.parts {x : PassArgs} {f : Nat} (hf : f ≤ 16) (h : x.ok f = true) :
    x.d.reg.wf = true ∧ x.a.wf = true ∧ x.n < 8 ∧ x.fmt < 16 := by
  simp only [PassArgs.ok, Bool.and_eq_true, decide_eq_true_eq] at h
  exact ⟨Dst.wf_of_w h.1.1.1.1, Opnd.wf_of_int h.1.1.2, h.1.1.1.2, Nat.lt_of_lt_of_le h.1.2 hf⟩

theorem AccArgs.parts {x : AccArgs} (h : (decide (x.v < 384) && decide (x.t < 8) && decide (x.row < 128) && decide (x.cb < 16)) = true) :
    x.v < 384 ∧ x.t < 8 ∧ x.row < 128 ∧ x.cb < 16 := by
  simp only [Bool.and_eq_true, decide_eq_true_eq] at h
  exact ⟨h.1.1.1, h.1.1.2, h.1.2, h.2⟩

theorem CopyArgs.parts {x : CopyArgs} {sh dz bk c : Bool} (h : x.ok sh dz bk c = true) :
    x.d.reg.wf = true ∧ x.k < 16 ∧ (∀ o, x.b = some o → o.wf = true) ∧ (∀ o, x.c = some o → o.wf = true) ∧ x.c.isSome = c := by
  simp only [CopyArgs.ok, Bool.and_eq_true, decide_eq_true_eq] at h
  obtain ⟨⟨⟨⟨⟨⟨hd, hk⟩, -⟩, -⟩, -⟩, hb⟩, hc⟩ := h
  refine ⟨Dst.wf_of_w hd, hk, fun o e => ?_, fun o e => ?_, ?_⟩
  · rw [e] at hb
    simp only [Bool.and_eq_true] at hb
    exact Opnd.wf_of_int hb.2
  · rw [e] at hc
    simp only [Bool.and_eq_true] at hc
    exact Opnd.wf_of_int hc.2
  · cases e : x.c with
    | none => rw [e] at hc; cases c <;> simp_all
    | some o => rw [e] at hc; cases c <;> simp_all

theorem parts_da {d : Dst} {a : Opnd} {w1 w2 : Bool} (h : (d.w w1 && a.int w2) = true) : d.reg.wf = true ∧ a.wf = true := by
  simp only [Bool.and_eq_true] at h
  exact ⟨Dst.wf_of_w h.1, Opnd.wf_of_int h.2⟩

theorem parts_nda {d : Dst} {a : Opnd} {q w1 w2 : Bool} (h : (q && d.w w1 && a.int w2) = true) : d.reg.wf = true ∧ a.wf = true := by
  simp only [Bool.and_eq_true] at h
  exact ⟨Dst.wf_of_w h.1.2, Opnd.wf_of_int h.2⟩

theorem parts_ndab {d : Dst} {a b : Opnd} {q w1 w2 w3 : Bool} (h : (q && d.w w1 && a.int w2 && b.int w3) = true) :
    d.reg.wf = true ∧ a.wf = true ∧ b.wf = true := by
  simp only [Bool.and_eq_true] at h
  exact ⟨Dst.wf_of_w h.1.1.2, Opnd.wf_of_int h.1.2, Opnd.wf_of_int h.2⟩

theorem parts_dab {d : Dst} {a b : Opnd} {w1 w2 w3 : Bool} (h : (d.w w1 && a.int w2 && b.int w3) = true) :
    d.reg.wf = true ∧ a.wf = true ∧ b.wf = true := by
  simp only [Bool.and_eq_true] at h
  exact ⟨Dst.wf_of_w h.1.1, Opnd.wf_of_int h.1.2, Opnd.wf_of_int h.2⟩

end Sys2Proof
end

