-- ==== Sys2Proof/Laws/WordFields.lean ====
section
/-! SUPPORT. The remaining F words read back, one lemma each (01 Tables word-14 to word-21). -/

namespace Sys2Proof

open Machine

theorem word_lea (x : LeaArgs) (h : (Instr.lea x).wf = true) :
    decodeCore (encodeCore (.lea x)) = .ok (.lea x) := by
  have hw : ((x.ty == .n32 || x.ty == .i32) && decide (x.sh < 16) && x.d.w true && x.a.int true && x.b.int false) = true := h
  simp only [Bool.and_eq_true, decide_eq_true_eq] at hw
  obtain ⟨⟨⟨⟨-, hsh⟩, hd⟩, ha⟩, hb⟩ := hw
  replace hd := Dst.wf_of_w hd
  replace ha := Opnd.wf_of_int ha
  replace hb := Opnd.wf_of_int hb
  have := regCode_lt' hd
  have := b2n_lt x.d.nowb
  have := opndCode_lt ha
  have := opndCode_lt hb
  have := tyCode_lt x.ty
  have := rndCode_rn
  have := b2n_false
  have r : FRange x.sh (b2n x.d.nowb) (regCode x.d.reg) (opndCode x.a) (opndCode x.b) (raCtl x.ty .rn false false) := by
    simp only [FRange, raCtl]; omega
  refine core_f rfl (by decide) r ?_ h
  rw [show ∀ w, skelF 0x17 w = some (do return .lea ⟨← fD w, ← fA w, ← fB w, bits w 48 4, ← fT w⟩) from fun _ => rfl]
  rw [fD_of (x := x.d) hd r,
    fA_of (x := x.a) ha r,
    fB_of (x := x.b) hb r,
    fWord_md r,
    fT_of (x := x.ty) (by simp only [bits, raCtl]; omega)]
  rfl

theorem word_icmp (x : IcmpArgs) (h : (Instr.icmp x).wf = true) :
    decodeCore (encodeCore (.icmp x)) = .ok (.icmp x) := by
  have hw : (x.ty.isInt && x.pd.wf && x.a.int x.ty.wide && x.b.int x.ty.wide) = true := h
  simp only [Bool.and_eq_true] at hw
  obtain ⟨⟨⟨-, hpd⟩, ha⟩, hb⟩ := hw
  replace ha := Opnd.wf_of_int ha
  replace hb := Opnd.wf_of_int hb
  have := PDst.lt_of_wf hpd
  have := b2n_lt x.pd.nowb
  have := opndCode_lt ha
  have := opndCode_lt hb
  have := tyCode_lt x.ty
  have := ccCode_lt x.cc
  have r : FRange 0 (b2n x.pd.nowb) x.pd.p (opndCode x.a) (opndCode x.b) (tyCode x.ty * 16 + ccCode x.cc * 2) := by
    simp only [FRange]; omega
  refine core_f rfl (by decide) r ?_ h
  rw [show ∀ w, skelF 0x18 w = some (do return .icmp ⟨fP w, ← fA w, ← fB w, ← fT w, ← ccOf (bits w 1 3)⟩) from fun _ => rfl]
  rw [fP_of (x := x.pd) hpd r,
    fA_of (x := x.a) ha r,
    fB_of (x := x.b) hb r,
    fT_of (x := x.ty) (by simp only [bits]; omega),
    fLow_of (lo := 1) (n := 3) (k := ccCode x.cc) (by omega) (by simp only [bits]; omega),
    ccOf_code]
  rfl

theorem word_plog (x : PlogArgs) (h : (Instr.plog x).wf = true) :
    decodeCore (encodeCore (.plog x)) = .ok (.plog x) := by
  have hw : (x.pd.wf && decide (x.pa < 8) && decide (x.pb < 8) && decide (x.pc < 8) && decide (x.table < 256)) = true := h
  simp only [Bool.and_eq_true, decide_eq_true_eq] at hw
  obtain ⟨⟨⟨⟨hpd, h1⟩, h2⟩, h3⟩, h4⟩ := hw
  have := PDst.lt_of_wf hpd
  have := b2n_lt x.pd.nowb
  have r : FRange 0 (b2n x.pd.nowb) x.pd.p x.pa x.pb (x.pc * 256 + x.table) := by
    simp only [FRange]; omega
  refine core_f rfl (by decide) r ?_ h
  rw [show ∀ w, skelF 0x19 w = some (some (.plog ⟨fP w, bits w 28 10, bits w 18 10, bits w 8 10, bits w 0 8⟩)) from fun _ => rfl]
  rw [fP_of (x := x.pd) hpd r,
    fWord_a r,
    fWord_b r,
    fLow_of (lo := 8) (n := 10) (k := x.pc) (by omega) (by simp only [bits]; omega),
    fLow_of (lo := 0) (n := 8) (k := x.table) (by omega) (by simp only [bits]; omega)]

theorem word_sel (x : SelArgs) (h : (Instr.sel x).wf = true) :
    decodeCore (encodeCore (.sel x)) = .ok (.sel x) := by
  have hw : (x.g.wf && x.d.w x.wide && x.a.int x.wide && x.b.int x.wide) = true := h
  simp only [Bool.and_eq_true] at hw
  obtain ⟨⟨⟨hg, hd⟩, ha⟩, hb⟩ := hw
  replace hd := Dst.wf_of_w hd
  replace ha := Opnd.wf_of_int ha
  replace hb := Opnd.wf_of_int hb
  have := guardCode_lt hg
  have := regCode_lt' hd
  have := b2n_lt x.d.nowb
  have := opndCode_lt ha
  have := opndCode_lt hb
  have := b2n_lt x.wide
  have r : FRange (guardCode x.g) (b2n x.d.nowb) (regCode x.d.reg) (opndCode x.a) (opndCode x.b) (b2n x.wide * 32) := by
    simp only [FRange]; omega
  refine core_f rfl (by decide) r ?_ h
  rw [show ∀ w, skelF 0x1a w = some (do return .sel ⟨fG w, ← fD w, ← fA w, ← fB w, bit w 5⟩) from fun _ => rfl]
  rw [fG_of (x := x.g) hg r,
    fD_of (x := x.d) hd r,
    fA_of (x := x.a) ha r,
    fB_of (x := x.b) hb r,
    fBit_of (i := 5) (x := x.wide) (by omega) (by omega)]
  rfl

theorem word_mov (x : MovArgs) (h : (Instr.mov x).wf = true) :
    decodeCore (encodeCore (.mov x)) = .ok (.mov x) := by
  have hw : (x.d.w x.wide && x.a.int x.wide) = true := h
  simp only [Bool.and_eq_true] at hw
  obtain ⟨hd, ha⟩ := hw
  replace hd := Dst.wf_of_w hd
  replace ha := Opnd.wf_of_int ha
  have := regCode_lt' hd
  have := b2n_lt x.d.nowb
  have := opndCode_lt ha
  have := b2n_lt x.wide
  have r : FRange 0 (b2n x.d.nowb) (regCode x.d.reg) (opndCode x.a) 0 (b2n x.wide * 32) := by
    simp only [FRange]; omega
  refine core_f rfl (by decide) r ?_ h
  rw [show ∀ w, skelF 0x1b w = some (do return .mov ⟨← fD w, ← fA w, bit w 5⟩) from fun _ => rfl]
  rw [fD_of (x := x.d) hd r,
    fA_of (x := x.a) ha r,
    fBit_of (i := 5) (x := x.wide) (by omega) (by omega)]
  rfl

theorem word_movs (x : MovsArgs) (h : (Instr.movs x).wf = true) :
    decodeCore (encodeCore (.movs x)) = .ok (.movs x) := by
  have hw : (x.d.w x.wide && x.d.reg.isS && x.a.int x.wide && x.b.int false) = true := h
  simp only [Bool.and_eq_true] at hw
  obtain ⟨⟨⟨hd, -⟩, ha⟩, hb⟩ := hw
  replace hd := Dst.wf_of_w hd
  replace ha := Opnd.wf_of_int ha
  replace hb := Opnd.wf_of_int hb
  have := regCode_lt' hd
  have := b2n_lt x.d.nowb
  have := opndCode_lt ha
  have := opndCode_lt hb
  have := b2n_lt x.wide
  have := b2n_false
  have r : FRange 0 (b2n x.d.nowb) (regCode x.d.reg) (opndCode x.a) (opndCode x.b) (b2n x.wide * 32) := by
    simp only [FRange]; omega
  refine core_f rfl (by decide) r ?_ h
  rw [show ∀ w, skelF 0x1c w = some (do
      let x : MovsArgs := ⟨← fD w, ← fA w, ← fB w, bit w 5⟩
      return (if bit w 6 then .movsSl x else .movs x)) from fun _ => rfl]
  rw [fD_of (x := x.d) hd r,
    fA_of (x := x.a) ha r,
    fB_of (x := x.b) hb r,
    fBit_of (i := 5) (x := x.wide) (by omega) (by omega),
    fBit_of (i := 6) (x := false) (by omega) (by omega)]
  rfl

theorem word_movsSl (x : MovsArgs) (h : (Instr.movsSl x).wf = true) :
    decodeCore (encodeCore (.movsSl x)) = .ok (.movsSl x) := by
  have hw : (x.d.vec x.wide && x.a.isS && x.b.int false) = true := h
  simp only [Bool.and_eq_true] at hw
  obtain ⟨⟨hd, ha⟩, hb⟩ := hw
  replace hd := Dst.wf_of_vec hd
  replace ha := Opnd.wf_of_isS ha
  replace hb := Opnd.wf_of_int hb
  have := regCode_lt' hd
  have := b2n_lt x.d.nowb
  have := opndCode_lt ha
  have := opndCode_lt hb
  have := b2n_lt x.wide
  have := b2n_true
  have r : FRange 0 (b2n x.d.nowb) (regCode x.d.reg) (opndCode x.a) (opndCode x.b) (64 + b2n x.wide * 32) := by
    simp only [FRange]; omega
  refine core_f rfl (by decide) r ?_ h
  rw [show ∀ w, skelF 0x1c w = some (do
      let x : MovsArgs := ⟨← fD w, ← fA w, ← fB w, bit w 5⟩
      return (if bit w 6 then .movsSl x else .movs x)) from fun _ => rfl]
  rw [fD_of (x := x.d) hd r,
    fA_of (x := x.a) ha r,
    fB_of (x := x.b) hb r,
    fBit_of (i := 5) (x := x.wide) (by omega) (by omega),
    fBit_of (i := 6) (x := true) (by omega) (by omega)]
  rfl

theorem word_fcls (x : FclsArgs) (h : (Instr.fcls x).wf = true) :
    decodeCore (encodeCore (.fcls x)) = .ok (.fcls x) := by
  have hw : (x.pd.wf && decide (x.mask < 512) && (x.ty == .f32 || x.ty == .f64 || x.ty.half) && x.a.w x.ty.wide) = true := h
  simp only [Bool.and_eq_true, decide_eq_true_eq] at hw
  obtain ⟨⟨⟨hpd, hm⟩, -⟩, ha⟩ := hw
  replace ha := Opnd.wf_of_w ha
  have := PDst.lt_of_wf hpd
  have := b2n_lt x.pd.nowb
  have := opndCode_lt ha
  have := tyCode_lt x.ty
  have r : FRange 0 (b2n x.pd.nowb) x.pd.p (opndCode x.a) 0 (x.mask * 256 + tyCode x.ty * 16) := by
    simp only [FRange]; omega
  refine core_f rfl (by decide) r ?_ h
  rw [show ∀ w, skelF 0x87 w = some (do return .fcls ⟨fP w, ← fA w, bits w 8 10, ← fT w⟩) from fun _ => rfl]
  rw [fP_of (x := x.pd) hpd r,
    fA_of (x := x.a) ha r,
    fLow_of (lo := 8) (n := 10) (k := x.mask) (by omega) (by simp only [bits]; omega),
    fT_of (x := x.ty) (by simp only [bits]; omega)]
  rfl

theorem word_cvt (x : CvtArgs) (h : (Instr.cvt x).wf = true) :
    decodeCore (encodeCore (.cvt x)) = .ok (.cvt x) := by
  have hw : (x.dty != .bz4 && x.sty != .bz4 && x.d.w x.dty.wide && (if x.sty.isInt then x.a.int x.sty.wide else x.a.w x.sty.wide) && (!x.sat || (if x.dty.isInt then x.sty.isInt else x.dty.f8)) && (!x.ftz || !(x.dty.isInt || x.dty.f8) || !(x.sty.isInt || x.sty.f8))) = true := h
  simp only [Bool.and_eq_true] at hw
  obtain ⟨⟨⟨⟨-, hd⟩, ha⟩, -⟩, -⟩ := hw
  replace hd := Dst.wf_of_w hd
  replace ha : x.a.wf = true := by
    split at ha
    · exact Opnd.wf_of_int ha
    · exact Opnd.wf_of_w ha
  have := regCode_lt' hd
  have := b2n_lt x.d.nowb
  have := opndCode_lt ha
  have := tyCode_lt x.dty
  have := tyCode_lt x.sty
  have := b2n_lt x.ftz
  have := b2n_lt x.sat
  have := rndCode_lt x.rnd
  have r : FRange (b2n x.ftz * 8 + b2n x.sat * 4 + rndCode x.rnd) (b2n x.d.nowb) (regCode x.d.reg) (opndCode x.a) 0 (tyCode x.dty * 16 + tyCode x.sty) := by
    simp only [FRange]; omega
  refine core_f rfl (by decide) r ?_ h
  rw [show ∀ w, skelF 0x100 w = some (do return .cvt ⟨← fD w, ← fA w, ← fT w, ← tyOf (bits w 0 4), rndOf (bits w 48 2), bit w 50, bit w 51⟩) from fun _ => rfl]
  rw [fD_of (x := x.d) hd r,
    fA_of (x := x.a) ha r,
    fT_of (x := x.dty) (by simp only [bits]; omega),
    fTlow_of (x := x.sty) (by simp only [bits]; omega),
    fMd2_of (k := rndCode x.rnd) r (by omega),
    rndOf_code,
    fMb50_of (x := x.sat) r (by omega),
    fMb51_of (x := x.ftz) r (by omega)]
  rfl

theorem word_scsel (x : ScselArgs) (h : (Instr.scsel x).wf = true) :
    decodeCore (encodeCore (.scsel x)) = .ok (.scsel x) := by
  have hw : ((x.fmt == .f16 || x.fmt == .f8m || x.fmt == .f8e || x.fmt == .bz4) && decide (x.h < 8) && decide (x.ulim ≤ 32) && x.d.w false && x.a.int false) = true := h
  simp only [Bool.and_eq_true, decide_eq_true_eq] at hw
  obtain ⟨⟨⟨⟨-, hh⟩, hu⟩, hd⟩, ha⟩ := hw
  replace hd := Dst.wf_of_w hd
  replace ha := Opnd.wf_of_int ha
  have := regCode_lt' hd
  have := b2n_lt x.d.nowb
  have := opndCode_lt ha
  have := tyCode_lt x.fmt
  have r : FRange 0 (b2n x.d.nowb) (regCode x.d.reg) (opndCode x.a) 0 (x.ulim * 256 + tyCode x.fmt * 16 + x.h * 2) := by
    simp only [FRange]; omega
  refine core_f rfl (by decide) r ?_ h
  rw [show ∀ w, skelF 0x102 w = some (do return .scsel ⟨← fD w, ← fA w, ← fT w, bits w 1 3, bits w 8 10⟩) from fun _ => rfl]
  rw [fD_of (x := x.d) hd r,
    fA_of (x := x.a) ha r,
    fT_of (x := x.fmt) (by simp only [bits]; omega),
    fLow_of (lo := 1) (n := 3) (k := x.h) (by omega) (by simp only [bits]; omega),
    fLow_of (lo := 8) (n := 10) (k := x.ulim) (by omega) (by simp only [bits]; omega)]
  rfl

theorem word_efq (x : EfqArgs) (h : (Instr.efq x).wf = true) :
    decodeCore (encodeCore (.efq x)) = .ok (.efq x) := by
  have hw : ((x.ty.half || x.ty.f8) && decide (x.pos < (if x.ty.half then 2 else 4)) && x.d.w false && x.a.w false && x.b.w false && decide (x.c < 384) && x.d.reg != .v x.c && (!x.nsat || x.ty.f8)) = true := h
  simp only [Bool.and_eq_true, decide_eq_true_eq] at hw
  obtain ⟨⟨⟨⟨⟨⟨⟨-, hpos⟩, hd⟩, ha⟩, hb⟩, hc⟩, -⟩, -⟩ := hw
  replace hd := Dst.wf_of_w hd
  replace ha := Opnd.wf_of_w ha
  replace hb := Opnd.wf_of_w hb
  have hpos4 : x.pos < 4 := by split at hpos <;> omega
  have := regCode_lt' hd
  have := b2n_lt x.d.nowb
  have := opndCode_lt ha
  have := opndCode_lt hb
  have := tyCode_lt x.ty
  have := b2n_lt x.nsat
  have := rndCode_lt x.rnd
  have r : FRange (b2n x.nsat * 4 + rndCode x.rnd) (b2n x.d.nowb) (regCode x.d.reg) (opndCode x.a) (opndCode x.b) (x.c * 256 + tyCode x.ty * 16 + x.pos * 4) := by
    simp only [FRange]; omega
  refine core_f rfl (by decide) r ?_ h
  rw [show ∀ w, skelF 0x103 w = some (do return .efq ⟨← fD w, ← fA w, ← fB w, bits w 8 10, ← fT w, bits w 2 2, rndOf (bits w 48 2), bit w 50⟩) from fun _ => rfl]
  rw [fD_of (x := x.d) hd r,
    fA_of (x := x.a) ha r,
    fB_of (x := x.b) hb r,
    fLow_of (lo := 8) (n := 10) (k := x.c) (by omega) (by simp only [bits]; omega),
    fT_of (x := x.ty) (by simp only [bits]; omega),
    fLow_of (lo := 2) (n := 2) (k := x.pos) (by omega) (by simp only [bits]; omega),
    fMd2_of (k := rndCode x.rnd) r (by omega),
    rndOf_code,
    fMb50_of (x := x.nsat) r (by omega)]
  rfl

theorem word_shfl (x : ShflArgs) (h : (Instr.shfl x).wf = true) :
    decodeCore (encodeCore (.shfl x)) = .ok (.shfl x) := by
  have hw : (x.d.w x.wide && x.a.int x.wide && x.b.int false) = true := h
  simp only [Bool.and_eq_true] at hw
  obtain ⟨⟨hd, ha⟩, hb⟩ := hw
  replace hd := Dst.wf_of_w hd
  replace ha := Opnd.wf_of_int ha
  replace hb := Opnd.wf_of_int hb
  have := regCode_lt' hd
  have := b2n_lt x.d.nowb
  have := opndCode_lt ha
  have := opndCode_lt hb
  have := b2n_lt x.wide
  have := shflCode_lt x.mode
  have := segCode_lt x.seg
  have r : FRange 0 (b2n x.d.nowb) (regCode x.d.reg) (opndCode x.a) (opndCode x.b) (shflCode x.mode * 64 + b2n x.wide * 32 + segCode x.seg * 4) := by
    simp only [FRange]; omega
  refine core_f rfl (by decide) r ?_ h
  rw [show ∀ w, skelF 0x180 w = some (do return .shfl ⟨← fD w, ← fA w, ← fB w, ← shflOf (bits w 6 2), bit w 5, ← segOf (bits w 2 3)⟩) from fun _ => rfl]
  rw [fD_of (x := x.d) hd r,
    fA_of (x := x.a) ha r,
    fB_of (x := x.b) hb r,
    fLow_of (lo := 6) (n := 2) (k := shflCode x.mode) (by omega) (by simp only [bits]; omega),
    shflOf_code,
    fBit_of (i := 5) (x := x.wide) (by omega) (by omega),
    fLow_of (lo := 2) (n := 3) (k := segCode x.seg) (by omega) (by simp only [bits]; omega),
    segOf_code]
  rfl

theorem word_shfx (x : ShfxArgs) (h : (Instr.shfx x).wf = true) :
    decodeCore (encodeCore (.shfx x)) = .ok (.shfx x) := by
  have hw : (x.d.w false && x.a.int false && decide (x.pattern < 256)) = true := h
  simp only [Bool.and_eq_true, decide_eq_true_eq] at hw
  obtain ⟨⟨hd, ha⟩, hp⟩ := hw
  replace hd := Dst.wf_of_w hd
  replace ha := Opnd.wf_of_int ha
  have := regCode_lt' hd
  have := b2n_lt x.d.nowb
  have := opndCode_lt ha
  have r : FRange 0 (b2n x.d.nowb) (regCode x.d.reg) (opndCode x.a) 0 x.pattern := by
    simp only [FRange]; omega
  refine core_f rfl (by decide) r ?_ h
  rw [show ∀ w, skelF 0x181 w = some (do return .shfx ⟨← fD w, ← fA w, bits w 0 8⟩) from fun _ => rfl]
  rw [fD_of (x := x.d) hd r,
    fA_of (x := x.a) ha r,
    fLow_of (lo := 0) (n := 8) (k := x.pattern) (by omega) (by simp only [bits]; omega)]
  rfl

theorem word_bcst (x : BcstArgs) (h : (Instr.bcst x).wf = true) :
    decodeCore (encodeCore (.bcst x)) = .ok (.bcst x) := by
  have hw : (x.d.w x.wide && x.a.int x.wide && x.b.int false) = true := h
  simp only [Bool.and_eq_true] at hw
  obtain ⟨⟨hd, ha⟩, hb⟩ := hw
  replace hd := Dst.wf_of_w hd
  replace ha := Opnd.wf_of_int ha
  replace hb := Opnd.wf_of_int hb
  have := regCode_lt' hd
  have := b2n_lt x.d.nowb
  have := opndCode_lt ha
  have := opndCode_lt hb
  have := b2n_lt x.wide
  have r : FRange 0 (b2n x.d.nowb) (regCode x.d.reg) (opndCode x.a) (opndCode x.b) (b2n x.wide * 32) := by
    simp only [FRange]; omega
  refine core_f rfl (by decide) r ?_ h
  rw [show ∀ w, skelF 0x182 w = some (do return .bcst ⟨← fD w, ← fA w, ← fB w, bit w 5⟩) from fun _ => rfl]
  rw [fD_of (x := x.d) hd r,
    fA_of (x := x.a) ha r,
    fB_of (x := x.b) hb r,
    fBit_of (i := 5) (x := x.wide) (by omega) (by omega)]
  rfl

theorem word_vote_any (pd : PDst) (pa : Nat) (h : (Instr.vote (.any pd pa)).wf = true) :
    decodeCore (encodeCore (.vote (.any pd pa))) = .ok (.vote (.any pd pa)) := by
  have hw : (pd.wf && decide (pa < 8)) = true := h
  simp only [Bool.and_eq_true, decide_eq_true_eq] at hw
  obtain ⟨hpd, ha⟩ := hw
  have := PDst.lt_of_wf hpd
  have := b2n_lt pd.nowb
  have r : FRange 0 (b2n pd.nowb) pd.p pa 0 0 := by
    simp only [FRange]; omega
  refine core_f rfl (by decide) r ?_ h
  rw [show ∀ w, skelF 0x183 w = some (if bits w 6 2 = 0 then some (.vote (.any (fP w) (bits w 28 10)))
    else if bits w 6 2 = 1 then some (.vote (.all (fP w) (bits w 28 10)))
    else if bits w 6 2 = 2 then do return .vote (.ballot (← fD w) (bits w 28 10))
    else do return .vote (.eq (fP w) (← fA w) (bit w 5))) from fun _ => rfl]
  rw [fLow_of (lo := 6) (n := 2) (k := 0) (by omega) (by rfl),
    if_pos rfl,
    fP_of (x := pd) hpd r,
    fWord_a r]

theorem word_vote_all (pd : PDst) (pa : Nat) (h : (Instr.vote (.all pd pa)).wf = true) :
    decodeCore (encodeCore (.vote (.all pd pa))) = .ok (.vote (.all pd pa)) := by
  have hw : (pd.wf && decide (pa < 8)) = true := h
  simp only [Bool.and_eq_true, decide_eq_true_eq] at hw
  obtain ⟨hpd, ha⟩ := hw
  have := PDst.lt_of_wf hpd
  have := b2n_lt pd.nowb
  have r : FRange 0 (b2n pd.nowb) pd.p pa 0 64 := by
    simp only [FRange]; omega
  refine core_f rfl (by decide) r ?_ h
  rw [show ∀ w, skelF 0x183 w = some (if bits w 6 2 = 0 then some (.vote (.any (fP w) (bits w 28 10)))
    else if bits w 6 2 = 1 then some (.vote (.all (fP w) (bits w 28 10)))
    else if bits w 6 2 = 2 then do return .vote (.ballot (← fD w) (bits w 28 10))
    else do return .vote (.eq (fP w) (← fA w) (bit w 5))) from fun _ => rfl]
  rw [fLow_of (lo := 6) (n := 2) (k := 1) (by omega) (by rfl),
    if_neg (by decide),
    if_pos rfl,
    fP_of (x := pd) hpd r,
    fWord_a r]

theorem word_vote_ballot (d : Dst) (pa : Nat) (h : (Instr.vote (.ballot d pa)).wf = true) :
    decodeCore (encodeCore (.vote (.ballot d pa))) = .ok (.vote (.ballot d pa)) := by
  have hw : (d.w true && decide (pa < 8)) = true := h
  simp only [Bool.and_eq_true, decide_eq_true_eq] at hw
  obtain ⟨hd, ha⟩ := hw
  replace hd := Dst.wf_of_w hd
  have := regCode_lt' hd
  have := b2n_lt d.nowb
  have r : FRange 0 (b2n d.nowb) (regCode d.reg) pa 0 128 := by
    simp only [FRange]; omega
  refine core_f rfl (by decide) r ?_ h
  rw [show ∀ w, skelF 0x183 w = some (if bits w 6 2 = 0 then some (.vote (.any (fP w) (bits w 28 10)))
    else if bits w 6 2 = 1 then some (.vote (.all (fP w) (bits w 28 10)))
    else if bits w 6 2 = 2 then do return .vote (.ballot (← fD w) (bits w 28 10))
    else do return .vote (.eq (fP w) (← fA w) (bit w 5))) from fun _ => rfl]
  rw [fLow_of (lo := 6) (n := 2) (k := 2) (by omega) (by rfl),
    if_neg (by decide),
    if_neg (by decide),
    if_pos rfl,
    fD_of (x := d) hd r,
    fWord_a r]
  rfl

theorem word_vote_eq (pd : PDst) (a : Opnd) (wide : Bool) (h : (Instr.vote (.eq pd a wide)).wf = true) :
    decodeCore (encodeCore (.vote (.eq pd a wide))) = .ok (.vote (.eq pd a wide)) := by
  have hw : (pd.wf && a.int wide) = true := h
  simp only [Bool.and_eq_true] at hw
  obtain ⟨hpd, ha⟩ := hw
  replace ha := Opnd.wf_of_int ha
  have := PDst.lt_of_wf hpd
  have := b2n_lt pd.nowb
  have := opndCode_lt ha
  have := b2n_lt wide
  have r : FRange 0 (b2n pd.nowb) pd.p (opndCode a) 0 (192 + b2n wide * 32) := by
    simp only [FRange]; omega
  refine core_f rfl (by decide) r ?_ h
  rw [show ∀ w, skelF 0x183 w = some (if bits w 6 2 = 0 then some (.vote (.any (fP w) (bits w 28 10)))
    else if bits w 6 2 = 1 then some (.vote (.all (fP w) (bits w 28 10)))
    else if bits w 6 2 = 2 then do return .vote (.ballot (← fD w) (bits w 28 10))
    else do return .vote (.eq (fP w) (← fA w) (bit w 5))) from fun _ => rfl]
  rw [fLow_of (lo := 6) (n := 2) (k := 3) (by omega) (by simp only [bits]; omega),
    if_neg (by decide),
    if_neg (by decide),
    if_neg (by decide),
    fP_of (x := pd) hpd r,
    fA_of (x := a) ha r,
    fBit_of (i := 5) (x := wide) (by omega) (by omega)]
  rfl

theorem word_redt (x : RedArgs) (h : (Instr.redt x).wf = true) :
    decodeCore (encodeCore (.redt x)) = .ok (.redt x) := by
  have hw : (x.d.w false && x.d.reg.isS && (x.ty.int4 || x.ty == .f32 || x.ty == .f64) && !x.excl && (if x.ty.isInt then x.a.int x.ty.wide else x.a.w x.ty.wide && (x.op == .add || x.op == .min || x.op == .max))) = true := h
  simp only [Bool.and_eq_true] at hw
  obtain ⟨⟨⟨⟨hd, -⟩, -⟩, he⟩, ha⟩ := hw
  replace hd := Dst.wf_of_w hd
  replace ha : x.a.wf = true := by
    split at ha
    · exact Opnd.wf_of_int ha
    · simp only [Bool.and_eq_true] at ha; exact Opnd.wf_of_w ha.1
  have hex : x.excl = false := by simpa using he
  have := regCode_lt' hd
  have := b2n_lt x.d.nowb
  have := opndCode_lt ha
  have := tyCode_lt x.ty
  have := redCode_lt x.op
  have := b2n_false
  have r : FRange 0 (b2n x.d.nowb) (regCode x.d.reg) (opndCode x.a) 0 (tyCode x.ty * 16 + redCode x.op * 2) := by
    simp only [FRange]; omega
  refine core_f rfl (by decide) r ?_ h
  rw [show ∀ w, skelF 0x184 w = some (do return .redt ⟨← fD w, ← fA w, ← fT w, ← redOf (bits w 1 3), bit w 0⟩) from fun _ => rfl]
  rw [fD_of (x := x.d) hd r,
    fA_of (x := x.a) ha r,
    fT_of (x := x.ty) (by simp only [bits]; omega),
    fLow_of (lo := 1) (n := 3) (k := redCode x.op) (by omega) (by simp only [bits]; omega),
    redOf_code,
    fBit_of (i := 0) (x := false) (by omega) (by omega)]
  rw [← hex]; rfl

theorem word_scan (x : RedArgs) (h : (Instr.scan x).wf = true) :
    decodeCore (encodeCore (.scan x)) = .ok (.scan x) := by
  have hw : (x.d.vec x.ty.wide && (x.ty.int4 || x.ty == .f32 || x.ty == .f64) && (if x.ty.isInt then x.a.int x.ty.wide else x.a.w x.ty.wide && (x.op == .add || x.op == .min || x.op == .max))) = true := h
  simp only [Bool.and_eq_true] at hw
  obtain ⟨⟨hd, -⟩, ha⟩ := hw
  replace hd := Dst.wf_of_vec hd
  replace ha : x.a.wf = true := by
    split at ha
    · exact Opnd.wf_of_int ha
    · simp only [Bool.and_eq_true] at ha; exact Opnd.wf_of_w ha.1
  have := regCode_lt' hd
  have := b2n_lt x.d.nowb
  have := opndCode_lt ha
  have := tyCode_lt x.ty
  have := redCode_lt x.op
  have := b2n_lt x.excl
  have r : FRange 0 (b2n x.d.nowb) (regCode x.d.reg) (opndCode x.a) 0 (tyCode x.ty * 16 + redCode x.op * 2 + b2n x.excl) := by
    simp only [FRange]; omega
  refine core_f rfl (by decide) r ?_ h
  rw [show ∀ w, skelF 0x185 w = some (do return .scan ⟨← fD w, ← fA w, ← fT w, ← redOf (bits w 1 3), bit w 0⟩) from fun _ => rfl]
  rw [fD_of (x := x.d) hd r,
    fA_of (x := x.a) ha r,
    fT_of (x := x.ty) (by simp only [bits]; omega),
    fLow_of (lo := 1) (n := 3) (k := redCode x.op) (by omega) (by simp only [bits]; omega),
    redOf_code,
    fBit_of (i := 0) (x := x.excl) (by omega) (by omega)]
  rfl

theorem word_redx_one (a : Opnd) (h : (Instr.redx ⟨a, none⟩).wf = true) :
    decodeCore (encodeCore (.redx ⟨a, none⟩)) = .ok (.redx ⟨a, none⟩) := by
  have hw : (a.w false && true) = true := h
  simp only [Bool.and_eq_true] at hw
  obtain ⟨ha, -⟩ := hw
  replace ha := Opnd.wf_of_w ha
  have := opndCode_lt ha
  have r : FRange 0 0 0 (opndCode a) 0 0 := by
    simp only [FRange]; omega
  refine core_f rfl (by decide) r ?_ h
  rw [show ∀ w, skelF 0x186 w = some (if bits w 6 2 = 0 then do return .redx ⟨← fA w, none⟩ else do return .redx ⟨← fA w, some (← fB w)⟩) from fun _ => rfl]
  rw [fLow_of (lo := 6) (n := 2) (k := 0) (by omega) (by rfl),
    if_pos rfl,
    fA_of (x := a) ha r]
  rfl

theorem word_redx_two (a b : Opnd) (h : (Instr.redx ⟨a, some b⟩).wf = true) :
    decodeCore (encodeCore (.redx ⟨a, some b⟩)) = .ok (.redx ⟨a, some b⟩) := by
  have hw : (a.w false && b.w false) = true := h
  simp only [Bool.and_eq_true] at hw
  obtain ⟨ha, hb⟩ := hw
  replace ha := Opnd.wf_of_w ha
  replace hb := Opnd.wf_of_w hb
  have := opndCode_lt ha
  have := opndCode_lt hb
  have r : FRange 0 0 0 (opndCode a) (opndCode b) 64 := by
    simp only [FRange]; omega
  refine core_f rfl (by decide) r ?_ h
  rw [show ∀ w, skelF 0x186 w = some (if bits w 6 2 = 0 then do return .redx ⟨← fA w, none⟩ else do return .redx ⟨← fA w, some (← fB w)⟩) from fun _ => rfl]
  rw [fLow_of (lo := 6) (n := 2) (k := 1) (by omega) (by rfl),
    if_neg (by decide),
    fA_of (x := a) ha r,
    fB_of (x := b) hb r]
  rfl

theorem word_lacr (x : LacrArgs) (h : (Instr.lacr x).wf = true) :
    decodeCore (encodeCore (.lacr x)) = .ok (.lacr x) := by
  have hw : (x.d.w x.wide) = true := h
  have hd := Dst.wf_of_w hw
  have := regCode_lt' hd
  have := b2n_lt x.d.nowb
  have := b2n_lt x.wide
  have := rndCode_lt x.rnd
  have r : FRange 0 (b2n x.d.nowb) (regCode x.d.reg) 0 0 ((8 + b2n x.wide) * 16 + rndCode x.rnd * 4) := by
    simp only [FRange]; omega
  refine core_f rfl (by decide) r ?_ h
  rw [show ∀ w, skelF 0x187 w = some (do return .lacr ⟨← fD w, bit w 4, fR w⟩) from fun _ => rfl]
  rw [fD_of (x := x.d) hd r,
    fBit_of (i := 4) (x := x.wide) (by omega) (by omega),
    fR_of (x := x.rnd) (by simp only [bits]; omega)]
  rfl

theorem word_lacz  (h : (Instr.lacz).wf = true) :
    decodeCore (encodeCore (.lacz)) = .ok (.lacz) := by
  have r : FRange 0 0 0 0 0 0 := by
    simp only [FRange]; omega
  refine core_f rfl (by decide) r ?_ h
  rw [show ∀ w, skelF 0x188 w = some (some .lacz) from fun _ => rfl]

theorem word_yield  (h : (Instr.yield).wf = true) :
    decodeCore (encodeCore (.yield)) = .ok (.yield) := by
  have r : FRange 0 0 0 0 0 0 := by
    simp only [FRange]; omega
  refine core_f rfl (by decide) r ?_ h
  rw [show ∀ w, skelF 0x208 w = some (some .yield) from fun _ => rfl]

theorem word_nop  (h : (Instr.nop).wf = true) :
    decodeCore (encodeCore (.nop)) = .ok (.nop) := by
  have r : FRange 0 0 0 0 0 0 := by
    simp only [FRange]; omega
  refine core_f rfl (by decide) r ?_ h
  rw [show ∀ w, skelF 0x209 w = some (some .nop) from fun _ => rfl]

theorem word_exit  (h : (Instr.exit).wf = true) :
    decodeCore (encodeCore (.exit)) = .ok (.exit) := by
  have r : FRange 0 0 0 0 0 0 := by
    simp only [FRange]; omega
  refine core_f rfl (by decide) r ?_ h
  rw [show ∀ w, skelF 0x20a w = some (some .exit) from fun _ => rfl]

theorem word_rfence  (h : (Instr.rfence).wf = true) :
    decodeCore (encodeCore (.rfence)) = .ok (.rfence) := by
  have r : FRange 0 0 0 0 0 10 := by
    simp only [FRange]; omega
  refine core_f rfl (by decide) r ?_ h
  rw [show ∀ w, skelF 0x2b3 w = some (some .rfence) from fun _ => rfl]

theorem word_braAny (g : Guard) (dist : Int) (h : (Instr.braAny g dist).wf = true) :
    decodeCore (encodeCore (.braAny g dist)) = .ok (.braAny g dist) := by
  have hw : (g.wf && fits 18 dist) = true := h
  simp only [Bool.and_eq_true] at hw
  obtain ⟨hg, hf⟩ := hw
  have := guardCode_lt hg
  have := ofInt_lt 18 dist
  have r : FRange (guardCode g) 0 0 0 0 (ofInt 18 dist) := by
    simp only [FRange]; omega
  refine core_f rfl (by decide) r ?_ h
  rw [show ∀ w, skelF 0x200 w = some (some (.braAny (fG w) (sext 18 (bits w 0 18)))) from fun _ => rfl]
  rw [fG_of (x := g) hg r,
    fSext_of (lo := 0) (n := 18) (x := dist) (by omega) (by omega) hf (by simp only [bits]; omega)]

theorem word_braAll (g : Guard) (dist : Int) (h : (Instr.braAll g dist).wf = true) :
    decodeCore (encodeCore (.braAll g dist)) = .ok (.braAll g dist) := by
  have hw : (g.wf && fits 18 dist) = true := h
  simp only [Bool.and_eq_true] at hw
  obtain ⟨hg, hf⟩ := hw
  have := guardCode_lt hg
  have := ofInt_lt 18 dist
  have r : FRange (guardCode g) 0 0 0 0 (ofInt 18 dist) := by
    simp only [FRange]; omega
  refine core_f rfl (by decide) r ?_ h
  rw [show ∀ w, skelF 0x201 w = some (some (.braAll (fG w) (sext 18 (bits w 0 18)))) from fun _ => rfl]
  rw [fG_of (x := g) hg r,
    fSext_of (lo := 0) (n := 18) (x := dist) (by omega) (by omega) hf (by simp only [bits]; omega)]

theorem word_brx (a : Opnd) (off : Int) (h : (Instr.brx a off).wf = true) :
    decodeCore (encodeCore (.brx a off)) = .ok (.brx a off) := by
  have hw : (a.int true && fits 18 off) = true := h
  simp only [Bool.and_eq_true] at hw
  obtain ⟨ha, hf⟩ := hw
  replace ha := Opnd.wf_of_int ha
  have := opndCode_lt ha
  have := ofInt_lt 18 off
  have r : FRange 0 0 0 (opndCode a) 0 (ofInt 18 off) := by
    simp only [FRange]; omega
  refine core_f rfl (by decide) r ?_ h
  rw [show ∀ w, skelF 0x202 w = some (do return .brx (← fA w) (sext 18 (bits w 0 18))) from fun _ => rfl]
  rw [fA_of (x := a) ha r,
    fSext_of (lo := 0) (n := 18) (x := off) (by omega) (by omega) hf (by simp only [bits]; omega)]
  rfl

theorem word_call (d : Nat) (dist : Int) (h : (Instr.call d dist).wf = true) :
    decodeCore (encodeCore (.call d dist)) = .ok (.call d dist) := by
  have hw : (decide (d < 64) && fits 18 dist) = true := h
  simp only [Bool.and_eq_true, decide_eq_true_eq] at hw
  obtain ⟨hd, hf⟩ := hw
  have := ofInt_lt 18 dist
  have r : FRange 0 0 (384 + d) 0 0 (ofInt 18 dist) := by
    simp only [FRange]; omega
  refine core_f rfl (by decide) r ?_ h
  rw [show ∀ w, skelF 0x203 w = some (some (.call (bits w 38 9 - 384) (sext 18 (bits w 0 18)))) from fun _ => rfl]
  rw [fWord_d r,
    fSext_of (lo := 0) (n := 18) (x := dist) (by omega) (by omega) hf (by simp only [bits]; omega),
    Nat.add_sub_cancel_left]

theorem word_ret (a : Opnd) (h : (Instr.ret a).wf = true) :
    decodeCore (encodeCore (.ret a)) = .ok (.ret a) := by
  have hw : (a.int true) = true := h
  have ha := Opnd.wf_of_int hw
  have := opndCode_lt ha
  have r : FRange 0 0 0 (opndCode a) 0 0 := by
    simp only [FRange]; omega
  refine core_f rfl (by decide) r ?_ h
  rw [show ∀ w, skelF 0x204 w = some (do return .ret (← fA w)) from fun _ => rfl]
  rw [fA_of (x := a) ha r]
  rfl

theorem word_regang_imm (k : Nat) (h : (Instr.regang (.imm k)).wf = true) :
    decodeCore (encodeCore (.regang (.imm k))) = .ok (.regang (.imm k)) := by
  have hw : (decide (k < 65536)) = true := h
  simp only [decide_eq_true_eq] at hw
  have := b2n_false
  have r : FRange 0 0 0 0 0 k := by
    simp only [FRange]; omega
  refine core_f rfl (by decide) r ?_ h
  rw [show ∀ w, skelF 0x205 w = some (if bit w 16 then some (.regang (.sreg (bits w 28 10 - 384))) else some (.regang (.imm (bits w 0 16)))) from fun _ => rfl]
  rw [fBit_of (i := 16) (x := false) (by omega) (by omega),
    if_neg Bool.false_ne_true,
    fLow_of (lo := 0) (n := 16) (k := k) (by omega) (by simp only [bits]; omega)]

theorem word_regang_sreg (n : Nat) (h : (Instr.regang (.sreg n)).wf = true) :
    decodeCore (encodeCore (.regang (.sreg n))) = .ok (.regang (.sreg n)) := by
  have hw : (decide (n < 64)) = true := h
  simp only [decide_eq_true_eq] at hw
  have := b2n_true
  have r : FRange 0 0 0 (384 + n) 0 65536 := by
    simp only [FRange]; omega
  refine core_f rfl (by decide) r ?_ h
  rw [show ∀ w, skelF 0x205 w = some (if bit w 16 then some (.regang (.sreg (bits w 28 10 - 384))) else some (.regang (.imm (bits w 0 16)))) from fun _ => rfl]
  rw [fBit_of (i := 16) (x := true) (by omega) (by omega),
    if_pos rfl,
    fWord_a r,
    Nat.add_sub_cancel_left]

theorem word_loopOperand (a : Opnd) (off : Nat) (h : (Instr.loopOperand a off).wf = true) :
    decodeCore (encodeCore (.loopOperand a off)) = .ok (.loopOperand a off) := by
  have hw : (a.int false && decide (1 ≤ off) && decide (off < 262144)) = true := h
  simp only [Bool.and_eq_true, decide_eq_true_eq] at hw
  obtain ⟨⟨ha, -⟩, ho⟩ := hw
  replace ha := Opnd.wf_of_int ha
  have := opndCode_lt ha
  have r : FRange 0 0 0 (opndCode a) 0 off := by
    simp only [FRange]; omega
  refine core_f rfl (by decide) r ?_ h
  rw [show ∀ w, skelF 0x206 w = some (do return .loopOperand (← fA w) (bits w 0 18)) from fun _ => rfl]
  rw [fA_of (x := a) ha r,
    fLow_of (lo := 0) (n := 18) (k := off) (by omega) (by simp only [bits]; omega)]
  rfl

theorem word_trap (c : Nat) (h : (Instr.trap c).wf = true) :
    decodeCore (encodeCore (.trap c)) = .ok (.trap c) := by
  have hw : (decide (c < 262144)) = true := h
  simp only [decide_eq_true_eq] at hw
  have r : FRange 0 0 0 0 0 c := by
    simp only [FRange]; omega
  refine core_f rfl (by decide) r ?_ h
  rw [show ∀ w, skelF 0x20b w = some (some (.trap (bits w 0 18))) from fun _ => rfl]
  rw [fLow_of (lo := 0) (n := 18) (k := c) (by omega) (by simp only [bits]; omega)]

theorem word_bkpt (c : Nat) (h : (Instr.bkpt c).wf = true) :
    decodeCore (encodeCore (.bkpt c)) = .ok (.bkpt c) := by
  have hw : (decide (c < 262144)) = true := h
  simp only [decide_eq_true_eq] at hw
  have r : FRange 0 0 0 0 0 c := by
    simp only [FRange]; omega
  refine core_f rfl (by decide) r ?_ h
  rw [show ∀ w, skelF 0x20c w = some (some (.bkpt (bits w 0 18))) from fun _ => rfl]
  rw [fLow_of (lo := 0) (n := 18) (k := c) (by omega) (by simp only [bits]; omega)]

theorem word_racq (n : Nat) (h : (Instr.racq n).wf = true) :
    decodeCore (encodeCore (.racq n)) = .ok (.racq n) := by
  have hw : (decide (1 ≤ n) && decide (n ≤ 4)) = true := h
  simp only [Bool.and_eq_true, decide_eq_true_eq] at hw
  have r : FRange 0 0 0 0 0 n := by
    simp only [FRange]; omega
  refine core_f rfl (by decide) r ?_ h
  rw [show ∀ w, skelF 0x210 w = some (some (.racq (bits w 0 18))) from fun _ => rfl]
  rw [fLow_of (lo := 0) (n := 18) (k := n) (by omega) (by simp only [bits]; omega)]

theorem word_rrel (n : Nat) (h : (Instr.rrel n).wf = true) :
    decodeCore (encodeCore (.rrel n)) = .ok (.rrel n) := by
  have hw : (decide (n ≤ 4)) = true := h
  simp only [decide_eq_true_eq] at hw
  have r : FRange 0 0 0 0 0 n := by
    simp only [FRange]; omega
  refine core_f rfl (by decide) r ?_ h
  rw [show ∀ w, skelF 0x211 w = some (some (.rrel (bits w 0 8))) from fun _ => rfl]
  rw [fLow_of (lo := 0) (n := 8) (k := n) (by omega) (by simp only [bits]; omega)]

theorem word_bar_imm (id k : Nat) (h : (Instr.bar id (.imm k)).wf = true) :
    decodeCore (encodeCore (.bar id (.imm k))) = .ok (.bar id (.imm k)) := by
  have hw : (decide (id < 16) && (BarCount.imm k).ok 16) = true := h
  simp only [Bool.and_eq_true, decide_eq_true_eq] at hw
  obtain ⟨hi, hn⟩ := hw
  simp only [BarCount.ok, decide_eq_true_eq] at hn
  have := b2n_false
  have r : FRange 0 0 0 0 0 (k * 16 + id) := by
    simp only [FRange]; omega
  refine core_f rfl (by decide) r ?_ h
  rw [show ∀ w, skelF 0x218 w = some (do return .bar (bits w 0 4) (← dCount w 9)) from fun _ => rfl]
  rw [fLow_of (lo := 0) (n := 4) (k := id) (by omega) (by simp only [bits]; omega),
    dCount,
    fBit_of (i := 9) (x := false) (by omega) (by omega),
    if_neg Bool.false_ne_true,
    fLow_of (lo := 4) (n := (9 - 4)) (k := k) (by omega) (by simp only [bits]; omega)]
  rfl

theorem word_bar_opnd (id : Nat) (a : Opnd) (h : (Instr.bar id (.opnd a)).wf = true) :
    decodeCore (encodeCore (.bar id (.opnd a))) = .ok (.bar id (.opnd a)) := by
  have hw : (decide (id < 16) && (BarCount.opnd a).ok 16) = true := h
  simp only [Bool.and_eq_true, decide_eq_true_eq] at hw
  obtain ⟨hi, hn⟩ := hw
  have ha := Opnd.wf_of_int hn
  have := opndCode_lt ha
  have := b2n_true
  have r : FRange 0 0 0 (opndCode a) 0 (512 + id) := by
    simp only [FRange]; omega
  refine core_f rfl (by decide) r ?_ h
  rw [show ∀ w, skelF 0x218 w = some (do return .bar (bits w 0 4) (← dCount w 9)) from fun _ => rfl]
  rw [fLow_of (lo := 0) (n := 4) (k := id) (by omega) (by simp only [bits]; omega),
    dCount,
    fBit_of (i := 9) (x := true) (by omega) (by omega),
    if_pos rfl,
    fA_of (x := a) ha r]
  rfl

theorem word_bara_imm (d : Dst) (id k : Nat) (h : (Instr.bara d id (.imm k)).wf = true) :
    decodeCore (encodeCore (.bara d id (.imm k))) = .ok (.bara d id (.imm k)) := by
  have hw : (d.w false && decide (id < 16) && (BarCount.imm k).ok 16) = true := h
  simp only [Bool.and_eq_true, decide_eq_true_eq] at hw
  obtain ⟨⟨hd, hi⟩, hn⟩ := hw
  replace hd := Dst.wf_of_w hd
  simp only [BarCount.ok, decide_eq_true_eq] at hn
  have := regCode_lt' hd
  have := b2n_lt d.nowb
  have := b2n_false
  have r : FRange 0 (b2n d.nowb) (regCode d.reg) 0 0 (k * 16 + id) := by
    simp only [FRange]; omega
  refine core_f rfl (by decide) r ?_ h
  rw [show ∀ w, skelF 0x219 w = some (do return .bara (← fD w) (bits w 0 4) (← dCount w 9)) from fun _ => rfl]
  rw [fD_of (x := d) hd r,
    fLow_of (lo := 0) (n := 4) (k := id) (by omega) (by simp only [bits]; omega),
    dCount,
    fBit_of (i := 9) (x := false) (by omega) (by omega),
    if_neg Bool.false_ne_true,
    fLow_of (lo := 4) (n := (9 - 4)) (k := k) (by omega) (by simp only [bits]; omega)]
  rfl

theorem word_bara_opnd (d : Dst) (id : Nat) (a : Opnd) (h : (Instr.bara d id (.opnd a)).wf = true) :
    decodeCore (encodeCore (.bara d id (.opnd a))) = .ok (.bara d id (.opnd a)) := by
  have hw : (d.w false && decide (id < 16) && (BarCount.opnd a).ok 16) = true := h
  simp only [Bool.and_eq_true, decide_eq_true_eq] at hw
  obtain ⟨⟨hd, hi⟩, hn⟩ := hw
  replace hd := Dst.wf_of_w hd
  have ha := Opnd.wf_of_int hn
  have := regCode_lt' hd
  have := b2n_lt d.nowb
  have := opndCode_lt ha
  have := b2n_true
  have r : FRange 0 (b2n d.nowb) (regCode d.reg) (opndCode a) 0 (512 + id) := by
    simp only [FRange]; omega
  refine core_f rfl (by decide) r ?_ h
  rw [show ∀ w, skelF 0x219 w = some (do return .bara (← fD w) (bits w 0 4) (← dCount w 9)) from fun _ => rfl]
  rw [fD_of (x := d) hd r,
    fLow_of (lo := 0) (n := 4) (k := id) (by omega) (by simp only [bits]; omega),
    dCount,
    fBit_of (i := 9) (x := true) (by omega) (by omega),
    if_pos rfl,
    fA_of (x := a) ha r]
  rfl

theorem word_cbar_imm (d : Dst) (id k : Nat) (h : (Instr.cbar d id (.imm k)).wf = true) :
    decodeCore (encodeCore (.cbar d id (.imm k))) = .ok (.cbar d id (.imm k)) := by
  have hw : (d.w false && decide (id < 4) && (BarCount.imm k).ok 64) = true := h
  simp only [Bool.and_eq_true, decide_eq_true_eq] at hw
  obtain ⟨⟨hd, hi⟩, hn⟩ := hw
  replace hd := Dst.wf_of_w hd
  simp only [BarCount.ok, decide_eq_true_eq] at hn
  have := regCode_lt' hd
  have := b2n_lt d.nowb
  have := b2n_false
  have r : FRange 0 (b2n d.nowb) (regCode d.reg) 0 0 (k * 16 + id) := by
    simp only [FRange]; omega
  refine core_f rfl (by decide) r ?_ h
  rw [show ∀ w, skelF 0x21b w = some (do return .cbar (← fD w) (bits w 0 4) (← dCount w 11)) from fun _ => rfl]
  rw [fD_of (x := d) hd r,
    fLow_of (lo := 0) (n := 4) (k := id) (by omega) (by simp only [bits]; omega),
    dCount,
    fBit_of (i := 11) (x := false) (by omega) (by omega),
    if_neg Bool.false_ne_true,
    fLow_of (lo := 4) (n := (11 - 4)) (k := k) (by omega) (by simp only [bits]; omega)]
  rfl

theorem word_cbar_opnd (d : Dst) (id : Nat) (a : Opnd) (h : (Instr.cbar d id (.opnd a)).wf = true) :
    decodeCore (encodeCore (.cbar d id (.opnd a))) = .ok (.cbar d id (.opnd a)) := by
  have hw : (d.w false && decide (id < 4) && (BarCount.opnd a).ok 64) = true := h
  simp only [Bool.and_eq_true, decide_eq_true_eq] at hw
  obtain ⟨⟨hd, hi⟩, hn⟩ := hw
  replace hd := Dst.wf_of_w hd
  have ha := Opnd.wf_of_int hn
  have := regCode_lt' hd
  have := b2n_lt d.nowb
  have := opndCode_lt ha
  have := b2n_true
  have r : FRange 0 (b2n d.nowb) (regCode d.reg) (opndCode a) 0 (2048 + id) := by
    simp only [FRange]; omega
  refine core_f rfl (by decide) r ?_ h
  rw [show ∀ w, skelF 0x21b w = some (do return .cbar (← fD w) (bits w 0 4) (← dCount w 11)) from fun _ => rfl]
  rw [fD_of (x := d) hd r,
    fLow_of (lo := 0) (n := 4) (k := id) (by omega) (by simp only [bits]; omega),
    dCount,
    fBit_of (i := 11) (x := true) (by omega) (by omega),
    if_pos rfl,
    fA_of (x := a) ha r]
  rfl

theorem word_barw (a : Opnd) (id : Nat) (clu : Bool) (h : (Instr.barw a id clu).wf = true) :
    decodeCore (encodeCore (.barw a id clu)) = .ok (.barw a id clu) := by
  have hw : (a.int false && decide (id < (if clu then 4 else 16))) = true := h
  simp only [Bool.and_eq_true, decide_eq_true_eq] at hw
  obtain ⟨ha, hi⟩ := hw
  replace ha := Opnd.wf_of_int ha
  have hi16 : id < 16 := by split at hi <;> omega
  have := opndCode_lt ha
  have := b2n_lt clu
  have r : FRange 0 0 0 (opndCode a) 0 (b2n clu * 16 + id) := by
    simp only [FRange]; omega
  refine core_f rfl (by decide) r ?_ h
  rw [show ∀ w, skelF 0x21a w = some (do return .barw (← fA w) (bits w 0 4) (bit w 4)) from fun _ => rfl]
  rw [fA_of (x := a) ha r,
    fLow_of (lo := 0) (n := 4) (k := id) (by omega) (by simp only [bits]; omega),
    fBit_of (i := 4) (x := clu) (by omega) (by omega)]
  rfl

theorem word_fence (sc : Scope) (k : FenceKind) (h : (Instr.fence sc k).wf = true) :
    decodeCore (encodeCore (.fence sc k)) = .ok (.fence sc k) := by
  have := scopeCode_lt sc
  have := fenceCode_lt k
  have r : FRange 0 0 0 0 0 (fenceCode k * 16 + scopeCode sc * 2) := by
    simp only [FRange]; omega
  refine core_f rfl (by decide) r ?_ h
  rw [show ∀ w, skelF 0x28a w = some (do return .fence (← scopeOf (bits w 1 3)) (← fenceOf (bits w 4 2))) from fun _ => rfl]
  rw [fLow_of (lo := 1) (n := 3) (k := scopeCode sc) (by omega) (by simp only [bits]; omega),
    scopeOf_code,
    fLow_of (lo := 4) (n := 2) (k := fenceCode k) (by omega) (by simp only [bits]; omega),
    fenceOf_code]
  rfl

theorem word_waitc_imm (m n : Nat) (h : (Instr.waitc m (.imm n)).wf = true) :
    decodeCore (encodeCore (.waitc m (.imm n))) = .ok (.waitc m (.imm n)) := by
  have hw : (decide (1 ≤ m) && decide (m < 64) && decide (n < 64)) = true := h
  simp only [Bool.and_eq_true, decide_eq_true_eq] at hw
  obtain ⟨⟨-, hm⟩, hn⟩ := hw
  have := b2n_false
  have r : FRange 0 0 0 0 0 (m * 4096 + n) := by
    simp only [FRange]; omega
  refine core_f rfl (by decide) r ?_ h
  rw [show ∀ w, skelF 0x28b w = some (if bit w 11 then do return .waitc (bits w 12 6) (.opnd (← fA w)) else some (.waitc (bits w 12 6) (.imm (bits w 0 6)))) from fun _ => rfl]
  rw [fBit_of (i := 11) (x := false) (by omega) (by omega),
    if_neg Bool.false_ne_true,
    fLow_of (lo := 12) (n := 6) (k := m) (by omega) (by simp only [bits]; omega),
    fLow_of (lo := 0) (n := 6) (k := n) (by omega) (by simp only [bits]; omega)]

theorem word_waitc_opnd (m : Nat) (a : Opnd) (h : (Instr.waitc m (.opnd a)).wf = true) :
    decodeCore (encodeCore (.waitc m (.opnd a))) = .ok (.waitc m (.opnd a)) := by
  have hw : (decide (1 ≤ m) && decide (m < 64) && a.int false) = true := h
  simp only [Bool.and_eq_true, decide_eq_true_eq] at hw
  obtain ⟨⟨-, hm⟩, ha⟩ := hw
  replace ha := Opnd.wf_of_int ha
  have := opndCode_lt ha
  have := b2n_true
  have r : FRange 0 0 0 (opndCode a) 0 (m * 4096 + 2048) := by
    simp only [FRange]; omega
  refine core_f rfl (by decide) r ?_ h
  rw [show ∀ w, skelF 0x28b w = some (if bit w 11 then do return .waitc (bits w 12 6) (.opnd (← fA w)) else some (.waitc (bits w 12 6) (.imm (bits w 0 6)))) from fun _ => rfl]
  rw [fBit_of (i := 11) (x := true) (by omega) (by omega),
    if_pos rfl,
    fLow_of (lo := 12) (n := 6) (k := m) (by omega) (by simp only [bits]; omega),
    fA_of (x := a) ha r]
  rfl

theorem word_rld (x : RldArgs) (h : (Instr.rld x).wf = true) :
    decodeCore (encodeCore (.rld x)) = .ok (.rld x) := by
  have hw : (x.d.size x.size && x.size != .b128 && x.a.int true && x.b.int false && fits 10 x.off) = true := h
  simp only [Bool.and_eq_true] at hw
  obtain ⟨⟨⟨⟨hd, -⟩, ha⟩, hb⟩, hf⟩ := hw
  replace hd := Dst.wf_of_size hd
  replace ha := Opnd.wf_of_int ha
  replace hb := Opnd.wf_of_int hb
  have := regCode_lt' hd
  have := b2n_lt x.d.nowb
  have := opndCode_lt ha
  have := opndCode_lt hb
  have := ofInt_lt 10 x.off
  have := sizeCode_lt x.size
  have r : FRange 0 (b2n x.d.nowb) (regCode x.d.reg) (opndCode x.a) (opndCode x.b) (ofInt 10 x.off * 256 + sizeCode x.size * 32) := by
    simp only [FRange]; omega
  refine core_f rfl (by decide) r ?_ h
  rw [show ∀ w, skelF 0x2b0 w = some (do return .rld ⟨← fD w, ← fA w, ← fB w, sext 10 (bits w 8 10), ← sizeOf' (bits w 5 3)⟩) from fun _ => rfl]
  rw [fD_of (x := x.d) hd r,
    fA_of (x := x.a) ha r,
    fB_of (x := x.b) hb r,
    fSext_of (lo := 8) (n := 10) (x := x.off) (by omega) (by omega) hf (by simp only [bits]; omega),
    fLow_of (lo := 5) (n := 3) (k := sizeCode x.size) (by omega) (by simp only [bits]; omega),
    sizeOf_code]
  rfl

theorem word_rst (x : RstArgs) (h : (Instr.rst x).wf = true) :
    decodeCore (encodeCore (.rst x)) = .ok (.rst x) := by
  have hw : (x.g.wf && x.src.size x.size && x.size.st && x.size != .b128 && x.a.int true && x.b.int false && fits 10 x.off) = true := h
  simp only [Bool.and_eq_true] at hw
  obtain ⟨⟨⟨⟨⟨⟨hg, hd⟩, -⟩, -⟩, ha⟩, hb⟩, hf⟩ := hw
  replace hd := Reg.wf_of_size hd
  replace ha := Opnd.wf_of_int ha
  replace hb := Opnd.wf_of_int hb
  have := guardCode_lt hg
  have := regCode_lt' hd
  have := opndCode_lt ha
  have := opndCode_lt hb
  have := ofInt_lt 10 x.off
  have := sizeCode_lt x.size
  have r : FRange (guardCode x.g) 0 (regCode x.src) (opndCode x.a) (opndCode x.b) (ofInt 10 x.off * 256 + sizeCode x.size * 32) := by
    simp only [FRange]; omega
  refine core_f rfl (by decide) r ?_ h
  rw [show ∀ w, skelF 0x2b1 w = some (do return .rst ⟨fG w, ← regOf (bits w 38 9), ← fA w, ← fB w, sext 10 (bits w 8 10), ← sizeOf' (bits w 5 3)⟩) from fun _ => rfl]
  rw [fG_of (x := x.g) hg r,
    fReg_of (r := x.src) hd r,
    fA_of (x := x.a) ha r,
    fB_of (x := x.b) hb r,
    fSext_of (lo := 8) (n := 10) (x := x.off) (by omega) (by omega) hf (by simp only [bits]; omega),
    fLow_of (lo := 5) (n := 3) (k := sizeCode x.size) (by omega) (by simp only [bits]; omega),
    sizeOf_code]
  rfl

theorem word_rstf (x : RstfArgs) (h : (Instr.rstf x).wf = true) :
    decodeCore (encodeCore (.rstf x)) = .ok (.rstf x) := by
  have hw : (x.g.wf && x.src.size x.size && x.size.st && x.size != .b128 && x.a.int true && x.b.int false && x.c.int true) = true := h
  simp only [Bool.and_eq_true] at hw
  obtain ⟨⟨⟨⟨⟨⟨hg, hd⟩, -⟩, -⟩, ha⟩, hb⟩, hc⟩ := hw
  replace hd := Reg.wf_of_size hd
  replace ha := Opnd.wf_of_int ha
  replace hb := Opnd.wf_of_int hb
  replace hc := Opnd.wf_of_int hc
  have := guardCode_lt hg
  have := regCode_lt' hd
  have := opndCode_lt ha
  have := opndCode_lt hb
  have := opndCode_lt hc
  have := sizeCode_lt x.size
  have r : FRange (guardCode x.g) 0 (regCode x.src) (opndCode x.a) (opndCode x.b) (opndCode x.c * 256 + sizeCode x.size * 32) := by
    simp only [FRange]; omega
  refine core_f rfl (by decide) r ?_ h
  rw [show ∀ w, skelF 0x2b2 w = some (do return .rstf ⟨fG w, ← regOf (bits w 38 9), ← fA w, ← fB w, ← fC w, ← sizeOf' (bits w 5 3)⟩) from fun _ => rfl]
  rw [fG_of (x := x.g) hg r,
    fReg_of (r := x.src) hd r,
    fA_of (x := x.a) ha r,
    fB_of (x := x.b) hb r,
    fC_of (x := x.c) hc (by simp only [bits]; omega),
    fLow_of (lo := 5) (n := 3) (k := sizeCode x.size) (by omega) (by simp only [bits]; omega),
    sizeOf_code]
  rfl

theorem word_harn (n : Nat) (a : Opnd) (h : (Instr.harn n a).wf = true) :
    decodeCore (encodeCore (.harn n a)) = .ok (.harn n a) := by
  have hw : (decide (n < 8) && a.int true) = true := h
  simp only [Bool.and_eq_true, decide_eq_true_eq] at hw
  obtain ⟨hn, ha⟩ := hw
  replace ha := Opnd.wf_of_int ha
  have := opndCode_lt ha
  have r : FRange 0 0 0 (opndCode a) 0 n := by
    simp only [FRange]; omega
  refine core_f rfl (by decide) r ?_ h
  rw [show ∀ w, skelF 0x310 w = some (do return .harn (bits w 0 8) (← fA w)) from fun _ => rfl]
  rw [fLow_of (lo := 0) (n := 8) (k := n) (by omega) (by simp only [bits]; omega),
    fA_of (x := a) ha r]
  rfl

theorem word_mlut (x : LutArgs) (h : (Instr.mlut x).wf = true) :
    decodeCore (encodeCore (.mlut x)) = .ok (.mlut x) := by
  have hw : (x.d.w false && x.a.int true && decide (x.fmt < 2)) = true := h
  simp only [Bool.and_eq_true, decide_eq_true_eq] at hw
  obtain ⟨⟨hd, ha⟩, hf⟩ := hw
  replace hd := Dst.wf_of_w hd
  replace ha := Opnd.wf_of_int ha
  have := regCode_lt' hd
  have := b2n_lt x.d.nowb
  have := opndCode_lt ha
  have := b2n_lt x.ka
  have := b2n_lt x.kb
  have := b2n_lt x.tra
  have r : FRange (b2n x.ka * 8 + b2n x.kb * 4 + b2n x.tra * 2) (b2n x.d.nowb) (regCode x.d.reg) (opndCode x.a) 0 (x.fmt * 16) := by
    simp only [FRange]; omega
  refine core_f rfl (by decide) r ?_ h
  rw [show ∀ w, skelF 0x313 w = some (do return .mlut ⟨← fD w, ← fA w, bits w 4 4, bit w 51, bit w 50, bit w 49⟩) from fun _ => rfl]
  rw [fD_of (x := x.d) hd r,
    fA_of (x := x.a) ha r,
    fLow_of (lo := 4) (n := 4) (k := x.fmt) (by omega) (by simp only [bits]; omega),
    fMb51_of (x := x.ka) r (by omega),
    fMb50_of (x := x.kb) r (by omega),
    fMb49_of (x := x.tra) r (by omega)]
  rfl

theorem word_accz (k : AccKind) (t : Nat) (h : (Instr.accz k t).wf = true) :
    decodeCore (encodeCore (.accz k t)) = .ok (.accz k t) := by
  have hw : (decide (t < 8) && (k == .f32 || t % 2 == 0)) = true := h
  simp only [Bool.and_eq_true, decide_eq_true_eq] at hw
  obtain ⟨ht, -⟩ := hw
  have := accCode_lt k
  have r : FRange 0 0 0 0 0 (accCode k * 16 + t) := by
    simp only [FRange]; omega
  refine core_f rfl (by decide) r ?_ h
  rw [show ∀ w, skelF 0x316 w = some (do return .accz (← accOf (bits w 4 2)) (bits w 0 3)) from fun _ => rfl]
  rw [fLow_of (lo := 4) (n := 2) (k := accCode k) (by omega) (by simp only [bits]; omega),
    accOf_code,
    fLow_of (lo := 0) (n := 3) (k := t) (by omega) (by simp only [bits]; omega)]
  rfl

theorem word_skupd (x : SkupdArgs) (h : (Instr.skupd x).wf = true) :
    decodeCore (encodeCore (.skupd x)) = .ok (.skupd x) := by
  have hw : (decide (x.a < 8) && x.b.w false && x.c.int x.k64) = true := h
  simp only [Bool.and_eq_true, decide_eq_true_eq] at hw
  obtain ⟨⟨ha, hb⟩, hc⟩ := hw
  replace hb := Opnd.wf_of_w hb
  replace hc := Opnd.wf_of_int hc
  have := opndCode_lt hb
  have := opndCode_lt hc
  have := b2n_lt x.k64
  have r : FRange 0 0 0 (384 + 8 * x.a) (opndCode x.b) (opndCode x.c * 256 + b2n x.k64) := by
    simp only [FRange]; omega
  refine core_f rfl (by decide) r ?_ h
  rw [show ∀ w, skelF 0x320 w = some (do return .skupd ⟨(bits w 28 10 - 384) / 8, ← fB w, ← fC w, bit w 0⟩) from fun _ => rfl]
  rw [fWord_a r,
    fB_of (x := x.b) hb r,
    fC_of (x := x.c) hc (by simp only [bits]; omega),
    fBit_of (i := 0) (x := x.k64) (by omega) (by omega),
    show (384 + 8 * x.a - 384) / 8 = x.a by omega]
  rfl

theorem word_skqry (x : SkqryArgs) (h : (Instr.skqry x).wf = true) :
    decodeCore (encodeCore (.skqry x)) = .ok (.skqry x) := by
  have hw : (x.d.w false && decide (x.a < 8) && x.c.int x.k64) = true := h
  simp only [Bool.and_eq_true, decide_eq_true_eq] at hw
  obtain ⟨⟨hd, ha⟩, hc⟩ := hw
  replace hd := Dst.wf_of_w hd
  replace hc := Opnd.wf_of_int hc
  have := regCode_lt' hd
  have := b2n_lt x.d.nowb
  have := opndCode_lt hc
  have := b2n_lt x.k64
  have r : FRange 0 (b2n x.d.nowb) (regCode x.d.reg) (384 + 8 * x.a) 0 (opndCode x.c * 256 + b2n x.k64) := by
    simp only [FRange]; omega
  refine core_f rfl (by decide) r ?_ h
  rw [show ∀ w, skelF 0x321 w = some (do return .skqry ⟨← fD w, (bits w 28 10 - 384) / 8, ← fC w, bit w 0⟩) from fun _ => rfl]
  rw [fD_of (x := x.d) hd r,
    fWord_a r,
    fC_of (x := x.c) hc (by simp only [bits]; omega),
    fBit_of (i := 0) (x := x.k64) (by omega) (by omega),
    show (384 + 8 * x.a - 384) / 8 = x.a by omega]
  rfl

theorem word_skadd (a b : Nat) (h : (Instr.skadd a b).wf = true) :
    decodeCore (encodeCore (.skadd a b)) = .ok (.skadd a b) := by
  have hw : (decide (a < 8) && decide (b < 8)) = true := h
  simp only [Bool.and_eq_true, decide_eq_true_eq] at hw
  have r : FRange 0 0 0 (384 + 8 * a) (384 + 8 * b) 0 := by
    simp only [FRange]; omega
  refine core_f rfl (by decide) r ?_ h
  rw [show ∀ w, skelF 0x322 w = some (some (.skadd ((bits w 28 10 - 384) / 8) ((bits w 18 10 - 384) / 8))) from fun _ => rfl]
  rw [fWord_a r,
    fWord_b r,
    show (384 + 8 * a - 384) / 8 = a by omega,
    show (384 + 8 * b - 384) / 8 = b by omega]

theorem word_skclr (a : Nat) (h : (Instr.skclr a).wf = true) :
    decodeCore (encodeCore (.skclr a)) = .ok (.skclr a) := by
  have hw : (decide (a < 8)) = true := h
  simp only [decide_eq_true_eq] at hw
  have r : FRange 0 0 0 (384 + 8 * a) 0 0 := by
    simp only [FRange]; omega
  refine core_f rfl (by decide) r ?_ h
  rw [show ∀ w, skelF 0x323 w = some (some (.skclr ((bits w 28 10 - 384) / 8))) from fun _ => rfl]
  rw [fWord_a r,
    show (384 + 8 * a - 384) / 8 = a by omega]

theorem word_tdec (a b : Opnd) (h : (Instr.tdec a b).wf = true) :
    decodeCore (encodeCore (.tdec a b)) = .ok (.tdec a b) := by
  have hw : (a.int false && b.int false) = true := h
  simp only [Bool.and_eq_true] at hw
  obtain ⟨ha, hb⟩ := hw
  replace ha := Opnd.wf_of_int ha
  replace hb := Opnd.wf_of_int hb
  have := opndCode_lt ha
  have := opndCode_lt hb
  have r : FRange 0 0 0 (opndCode a) (opndCode b) 0 := by
    simp only [FRange]; omega
  refine core_f rfl (by decide) r ?_ h
  rw [show ∀ w, skelF 0x330 w = some (do return .tdec (← fA w) (← fB w)) from fun _ => rfl]
  rw [fA_of (x := a) ha r,
    fB_of (x := b) hb r]
  rfl

theorem word_twait (p : Nat) (a b c : Opnd) (h : (Instr.twait p a b c).wf = true) :
    decodeCore (encodeCore (.twait p a b c)) = .ok (.twait p a b c) := by
  have hw : (decide (p < 8) && a.int false && b.int false && c.int false) = true := h
  simp only [Bool.and_eq_true, decide_eq_true_eq] at hw
  obtain ⟨⟨⟨hp, ha⟩, hb⟩, hc⟩ := hw
  replace ha := Opnd.wf_of_int ha
  replace hb := Opnd.wf_of_int hb
  replace hc := Opnd.wf_of_int hc
  have := opndCode_lt ha
  have := opndCode_lt hb
  have := opndCode_lt hc
  have r : FRange 0 0 p (opndCode a) (opndCode b) (opndCode c * 256) := by
    simp only [FRange]; omega
  refine core_f rfl (by decide) r ?_ h
  rw [show ∀ w, skelF 0x331 w = some (do return .twait (bits w 38 9) (← fA w) (← fB w) (← fC w)) from fun _ => rfl]
  rw [fWord_d r,
    fA_of (x := a) ha r,
    fB_of (x := b) hb r,
    fC_of (x := c) hc (by simp only [bits]; omega)]
  rfl

theorem word_flgw (x : FlgwArgs) (h : (Instr.flgw x).wf = true) :
    decodeCore (encodeCore (.flgw x)) = .ok (.flgw x) := by
  have hw : (decide (x.p < 8) && x.a.int true && x.b.int x.wide && x.c.int false) = true := h
  simp only [Bool.and_eq_true, decide_eq_true_eq] at hw
  obtain ⟨⟨⟨hp, ha⟩, hb⟩, hc⟩ := hw
  replace ha := Opnd.wf_of_int ha
  replace hb := Opnd.wf_of_int hb
  replace hc := Opnd.wf_of_int hc
  have := opndCode_lt ha
  have := opndCode_lt hb
  have := opndCode_lt hc
  have := flgCode_lt x.cc
  have := b2n_lt x.wide
  have := b2n_lt x.dev
  have r : FRange 0 0 x.p (opndCode x.a) (opndCode x.b) (opndCode x.c * 256 + flgCode x.cc * 32 + b2n x.wide * 16 + (3 + b2n x.dev) * 2) := by
    simp only [FRange]; omega
  refine core_f rfl (by decide) r ?_ h
  rw [show ∀ w, skelF 0x332 w = some (do return .flgw ⟨bits w 38 9, ← fA w, ← fB w, ← fC w, ← flgOf (bits w 5 3), bit w 4, bit w 3⟩) from fun _ => rfl]
  rw [fWord_d r,
    fA_of (x := x.a) ha r,
    fB_of (x := x.b) hb r,
    fC_of (x := x.c) hc (by simp only [bits]; omega),
    fLow_of (lo := 5) (n := 3) (k := flgCode x.cc) (by omega) (by simp only [bits]; omega),
    flgOf_code,
    fBit_of (i := 4) (x := x.wide) (by omega) (by omega),
    fBit_of (i := 3) (x := x.dev) (by omega) (by omega)]
  rfl

theorem word_bkw (p : Nat) (a c : Opnd) (h : (Instr.bkw p a c).wf = true) :
    decodeCore (encodeCore (.bkw p a c)) = .ok (.bkw p a c) := by
  have hw : (decide (p < 8) && a.int false && c.int false) = true := h
  simp only [Bool.and_eq_true, decide_eq_true_eq] at hw
  obtain ⟨⟨hp, ha⟩, hc⟩ := hw
  replace ha := Opnd.wf_of_int ha
  replace hc := Opnd.wf_of_int hc
  have := opndCode_lt ha
  have := opndCode_lt hc
  have r : FRange 0 0 p (opndCode a) 0 (opndCode c * 256) := by
    simp only [FRange]; omega
  refine core_f rfl (by decide) r ?_ h
  rw [show ∀ w, skelF 0x334 w = some (do return .bkw (bits w 38 9) (← fA w) (← fC w)) from fun _ => rfl]
  rw [fWord_d r,
    fA_of (x := a) ha r,
    fC_of (x := c) hc (by simp only [bits]; omega)]
  rfl

theorem word_reln (x : RelnArgs) (h : (Instr.reln x).wf = true) :
    decodeCore (encodeCore (.reln x)) = .ok (.reln x) := by
  have hw : (x.d.w false && x.a.int true && x.b.int true && (x.kind != .none || x.b == .reg (.v 0))) = true := h
  simp only [Bool.and_eq_true] at hw
  obtain ⟨⟨⟨hd, ha⟩, hb⟩, -⟩ := hw
  replace hd := Dst.wf_of_w hd
  replace ha := Opnd.wf_of_int ha
  replace hb := Opnd.wf_of_int hb
  have := regCode_lt' hd
  have := b2n_lt x.d.nowb
  have := opndCode_lt ha
  have := opndCode_lt hb
  have := relnCode_lt x.kind
  have r : FRange 0 (b2n x.d.nowb) (regCode x.d.reg) (opndCode x.a) (opndCode x.b) (relnCode x.kind) := by
    simp only [FRange]; omega
  refine core_f rfl (by decide) r ?_ h
  rw [show ∀ w, skelF 0x339 w = some (do return .reln ⟨← fD w, ← fA w, ← fB w, ← relnOf (bits w 0 2)⟩) from fun _ => rfl]
  rw [fD_of (x := x.d) hd r,
    fA_of (x := x.a) ha r,
    fB_of (x := x.b) hb r,
    fLow_of (lo := 0) (n := 2) (k := relnCode x.kind) (by omega) (by simp only [bits]; omega),
    relnOf_code]
  rfl

theorem word_csrr (d : Dst) (n : Nat) (h : (Instr.csrr d n).wf = true) :
    decodeCore (encodeCore (.csrr d n)) = .ok (.csrr d n) := by
  have hw : (!d.nowb && decide (n < 4096) && (match csrWide n with | none => false | some w => d.w w)) = true := h
  simp only [Bool.and_eq_true, decide_eq_true_eq] at hw
  obtain ⟨⟨-, hn⟩, hd⟩ := hw
  replace hd : d.reg.wf = true := by
    split at hd
    · cases hd
    · exact Dst.wf_of_w hd
  have := regCode_lt' hd
  have := b2n_lt d.nowb
  have r : FRange 0 (b2n d.nowb) (regCode d.reg) 0 0 n := by
    simp only [FRange]; omega
  refine core_f rfl (by decide) r ?_ h
  rw [show ∀ w, skelF 0x380 w = some (do return .csrr (← fD w) (bits w 0 18)) from fun _ => rfl]
  rw [fD_of (x := d) hd r,
    fLow_of (lo := 0) (n := 18) (k := n) (by omega) (by simp only [bits]; omega)]
  rfl

theorem word_csrw (n : Nat) (a : Opnd) (h : (Instr.csrw n a).wf = true) :
    decodeCore (encodeCore (.csrw n a)) = .ok (.csrw n a) := by
  have hw : (decide (n < 4096) && csrWritable n && (match csrWide n with | none => false | some w => a.int w)) = true := h
  simp only [Bool.and_eq_true, decide_eq_true_eq] at hw
  obtain ⟨⟨hn, -⟩, ha⟩ := hw
  replace ha : a.wf = true := by
    split at ha
    · cases ha
    · exact Opnd.wf_of_int ha
  have := opndCode_lt ha
  have r : FRange 0 0 0 (opndCode a) 0 n := by
    simp only [FRange]; omega
  refine core_f rfl (by decide) r ?_ h
  rw [show ∀ w, skelF 0x381 w = some (do return .csrw (bits w 0 18) (← fA w)) from fun _ => rfl]
  rw [fLow_of (lo := 0) (n := 18) (k := n) (by omega) (by simp only [bits]; omega),
    fA_of (x := a) ha r]
  rfl

theorem word_tlbiVa (n : Nat) (h : (Instr.tlbiVa n).wf = true) :
    decodeCore (encodeCore (.tlbiVa n)) = .ok (.tlbiVa n) := by
  have hw : (decide (n < 64)) = true := h
  simp only [decide_eq_true_eq] at hw
  have r : FRange 0 0 0 (384 + n) 0 0 := by
    simp only [FRange]; omega
  refine core_f rfl (by decide) r ?_ h
  rw [show ∀ w, skelF 0x382 w = some (if bits w 0 2 = 0 then some (.tlbiVa (bits w 28 10 - 384)) else if bits w 0 2 = 1 then some .tlbiCtx else some .tlbiAll) from fun _ => rfl]
  rw [fLow_of (lo := 0) (n := 2) (k := 0) (by omega) (by rfl),
    if_pos rfl,
    fWord_a r,
    Nat.add_sub_cancel_left]

theorem word_tlbiCtx  (h : (Instr.tlbiCtx).wf = true) :
    decodeCore (encodeCore (.tlbiCtx)) = .ok (.tlbiCtx) := by
  have r : FRange 0 0 0 0 0 1 := by
    simp only [FRange]; omega
  refine core_f rfl (by decide) r ?_ h
  rw [show ∀ w, skelF 0x382 w = some (if bits w 0 2 = 0 then some (.tlbiVa (bits w 28 10 - 384)) else if bits w 0 2 = 1 then some .tlbiCtx else some .tlbiAll) from fun _ => rfl]
  rw [fLow_of (lo := 0) (n := 2) (k := 1) (by omega) (by rfl),
    if_neg (by decide),
    if_pos rfl]

theorem word_tlbiAll  (h : (Instr.tlbiAll).wf = true) :
    decodeCore (encodeCore (.tlbiAll)) = .ok (.tlbiAll) := by
  have r : FRange 0 0 0 0 0 2 := by
    simp only [FRange]; omega
  refine core_f rfl (by decide) r ?_ h
  rw [show ∀ w, skelF 0x382 w = some (if bits w 0 2 = 0 then some (.tlbiVa (bits w 28 10 - 384)) else if bits w 0 2 = 1 then some .tlbiCtx else some .tlbiAll) from fun _ => rfl]
  rw [fLow_of (lo := 0) (n := 2) (k := 2) (by omega) (by rfl),
    if_neg (by decide),
    if_neg (by decide)]

theorem word_halt  (h : (Instr.halt).wf = true) :
    decodeCore (encodeCore (.halt)) = .ok (.halt) := by
  have := b2n_false
  have r : FRange 0 0 0 0 0 0 := by
    simp only [FRange]; omega
  refine core_f rfl (by decide) r ?_ h
  rw [show ∀ w, skelF 0x383 w = some (if bit w 0 then some .haltDev else some .halt) from fun _ => rfl]
  rw [fBit_of (i := 0) (x := false) (by omega) (by omega),
    if_neg Bool.false_ne_true]

theorem word_haltDev  (h : (Instr.haltDev).wf = true) :
    decodeCore (encodeCore (.haltDev)) = .ok (.haltDev) := by
  have := b2n_true
  have r : FRange 0 0 0 0 0 1 := by
    simp only [FRange]; omega
  refine core_f rfl (by decide) r ?_ h
  rw [show ∀ w, skelF 0x383 w = some (if bit w 0 then some .haltDev else some .halt) from fun _ => rfl]
  rw [fBit_of (i := 0) (x := true) (by omega) (by omega),
    if_pos rfl]

end Sys2Proof
end

