-- ==== Sys2Proof/Laws/AgentWords.lean ====
section
/-! SUPPORT. The words of the near-memory units and of scripts read back (11 Table sketch-8, 16 Table circuit-7). -/

namespace Sys2Proof

open Machine

/-! ## Words of the near-memory units, and of scripts -/

theorem nmu_f {i : Instr} {op : Nat} (ho : bits (encodeNmu i) 26 6 = op) (hs : skelNmu op (encodeNmu i) = some (some i))
    (hw : i.wf = true) : decodeNmu (encodeNmu i) = .ok i := by
  unfold decodeNmu
  rw [ho, hs]
  simp only [hw, beq_self_eq_true, Bool.and_self, if_true]

theorem cratch_f {i : Instr} {op : Nat} (ho : bits (encodeCratch i) 26 6 = op) (hs : skelCratch op (encodeCratch i) = some (some i))
    (hw : i.wf = true) : decodeCratch (encodeCratch i) = .ok i := by
  unfold decodeCratch
  rw [ho, hs]
  simp only [hw, beq_self_eq_true, Bool.and_self, if_true]

theorem word_nldv (x : NmuMem) (h : (Instr.nldv x).wf = true) : decodeNmu (encodeNmu (.nldv x)) = .ok (.nldv x) := by
  have hw : (g5 x.g && a4 x.a && lanesOk x.n) = true := h
  simp only [g5, a4, lanesOk, Bool.and_eq_true, decide_eq_true_eq] at hw
  have := b2n_lt x.inc
  have he : encodeNmu (.nldv x) = 1 * 2 ^ 26 + x.g * 2 ^ 21 + x.a * 2 ^ 17 + b2n x.inc * 2 ^ 16 + (x.n - 1) * 2 ^ 7 := rfl
  refine nmu_f (op := 1) (by rw [he]; simp only [bits]; omega) ?_ h
  generalize encodeNmu (.nldv x) = w at he
  rw [show ∀ w, skelNmu 1 w = some (some (.nldv ⟨bits w 21 5, bits w 17 4, bit w 16, bits w 7 8 + 1⟩)) from fun _ => rfl]
  rw [show bits w 21 5 = x.g by simp only [bits]; omega,
    show bits w 17 4 = x.a by simp only [bits]; omega,
    show bit w 16 = x.inc from bit_of (by omega),
    show bits w 7 8 + 1 = x.n by simp only [bits]; omega]

theorem word_nstv (x : NmuMem) (h : (Instr.nstv x).wf = true) : decodeNmu (encodeNmu (.nstv x)) = .ok (.nstv x) := by
  have hw : (g5 x.g && a4 x.a && lanesOk x.n) = true := h
  simp only [g5, a4, lanesOk, Bool.and_eq_true, decide_eq_true_eq] at hw
  have := b2n_lt x.inc
  have he : encodeNmu (.nstv x) = 2 * 2 ^ 26 + x.g * 2 ^ 21 + x.a * 2 ^ 17 + b2n x.inc * 2 ^ 16 + (x.n - 1) * 2 ^ 7 := rfl
  refine nmu_f (op := 2) (by rw [he]; simp only [bits]; omega) ?_ h
  generalize encodeNmu (.nstv x) = w at he
  rw [show ∀ w, skelNmu 2 w = some (some (.nstv ⟨bits w 21 5, bits w 17 4, bit w 16, bits w 7 8 + 1⟩)) from fun _ => rfl]
  rw [show bits w 21 5 = x.g by simp only [bits]; omega,
    show bits w 17 4 = x.a by simp only [bits]; omega,
    show bit w 16 = x.inc from bit_of (by omega),
    show bits w 7 8 + 1 = x.n by simp only [bits]; omega]

theorem word_nadd (x : NmuV2) (h : (Instr.nadd x).wf = true) : decodeNmu (encodeNmu (.nadd x)) = .ok (.nadd x) := by
  have hw : (g5 x.gd && g5 x.ga && g5 x.gb) = true := h
  simp only [g5, Bool.and_eq_true, decide_eq_true_eq] at hw
  have := rndCode_lt x.rnd
  have he : encodeNmu (.nadd x) = 4 * 2 ^ 26 + x.gd * 2 ^ 21 + x.ga * 2 ^ 16 + x.gb * 2 ^ 11 + rndCode x.rnd := rfl
  refine nmu_f (op := 4) (by rw [he]; simp only [bits]; omega) ?_ h
  generalize encodeNmu (.nadd x) = w at he
  rw [show ∀ w, skelNmu 4 w = some (some (.nadd ⟨bits w 21 5, bits w 16 5, bits w 11 5, rndOf (bits w 0 2)⟩)) from fun _ => rfl]
  rw [show bits w 21 5 = x.gd by simp only [bits]; omega,
    show bits w 16 5 = x.ga by simp only [bits]; omega,
    show bits w 11 5 = x.gb by simp only [bits]; omega,
    show bits w 0 2 = rndCode x.rnd by simp only [bits]; omega,
    rndOf_code]

theorem word_nsub (x : NmuV2) (h : (Instr.nsub x).wf = true) : decodeNmu (encodeNmu (.nsub x)) = .ok (.nsub x) := by
  have hw : (g5 x.gd && g5 x.ga && g5 x.gb) = true := h
  simp only [g5, Bool.and_eq_true, decide_eq_true_eq] at hw
  have := rndCode_lt x.rnd
  have he : encodeNmu (.nsub x) = 5 * 2 ^ 26 + x.gd * 2 ^ 21 + x.ga * 2 ^ 16 + x.gb * 2 ^ 11 + rndCode x.rnd := rfl
  refine nmu_f (op := 5) (by rw [he]; simp only [bits]; omega) ?_ h
  generalize encodeNmu (.nsub x) = w at he
  rw [show ∀ w, skelNmu 5 w = some (some (.nsub ⟨bits w 21 5, bits w 16 5, bits w 11 5, rndOf (bits w 0 2)⟩)) from fun _ => rfl]
  rw [show bits w 21 5 = x.gd by simp only [bits]; omega,
    show bits w 16 5 = x.ga by simp only [bits]; omega,
    show bits w 11 5 = x.gb by simp only [bits]; omega,
    show bits w 0 2 = rndCode x.rnd by simp only [bits]; omega,
    rndOf_code]

theorem word_nmul (x : NmuV2) (h : (Instr.nmul x).wf = true) : decodeNmu (encodeNmu (.nmul x)) = .ok (.nmul x) := by
  have hw : (g5 x.gd && g5 x.ga && g5 x.gb) = true := h
  simp only [g5, Bool.and_eq_true, decide_eq_true_eq] at hw
  have := rndCode_lt x.rnd
  have he : encodeNmu (.nmul x) = 6 * 2 ^ 26 + x.gd * 2 ^ 21 + x.ga * 2 ^ 16 + x.gb * 2 ^ 11 + rndCode x.rnd := rfl
  refine nmu_f (op := 6) (by rw [he]; simp only [bits]; omega) ?_ h
  generalize encodeNmu (.nmul x) = w at he
  rw [show ∀ w, skelNmu 6 w = some (some (.nmul ⟨bits w 21 5, bits w 16 5, bits w 11 5, rndOf (bits w 0 2)⟩)) from fun _ => rfl]
  rw [show bits w 21 5 = x.gd by simp only [bits]; omega,
    show bits w 16 5 = x.ga by simp only [bits]; omega,
    show bits w 11 5 = x.gb by simp only [bits]; omega,
    show bits w 0 2 = rndCode x.rnd by simp only [bits]; omega,
    rndOf_code]

theorem word_nmin (x : NmuV2) (h : (Instr.nmin x).wf = true) : decodeNmu (encodeNmu (.nmin x)) = .ok (.nmin x) := by
  have hw : (g5 x.gd && g5 x.ga && g5 x.gb && x.rnd == .rn) = true := h
  simp only [g5, Bool.and_eq_true, decide_eq_true_eq, beq_iff_eq] at hw
  have := rndCode_lt x.rnd
  have he : encodeNmu (.nmin x) = 8 * 2 ^ 26 + x.gd * 2 ^ 21 + x.ga * 2 ^ 16 + x.gb * 2 ^ 11 + rndCode x.rnd := rfl
  refine nmu_f (op := 8) (by rw [he]; simp only [bits]; omega) ?_ h
  generalize encodeNmu (.nmin x) = w at he
  rw [show ∀ w, skelNmu 8 w = some (some (.nmin ⟨bits w 21 5, bits w 16 5, bits w 11 5, rndOf (bits w 0 2)⟩)) from fun _ => rfl]
  rw [show bits w 21 5 = x.gd by simp only [bits]; omega,
    show bits w 16 5 = x.ga by simp only [bits]; omega,
    show bits w 11 5 = x.gb by simp only [bits]; omega,
    show bits w 0 2 = rndCode x.rnd by simp only [bits]; omega,
    rndOf_code]

theorem word_nmax (x : NmuV2) (h : (Instr.nmax x).wf = true) : decodeNmu (encodeNmu (.nmax x)) = .ok (.nmax x) := by
  have hw : (g5 x.gd && g5 x.ga && g5 x.gb && x.rnd == .rn) = true := h
  simp only [g5, Bool.and_eq_true, decide_eq_true_eq, beq_iff_eq] at hw
  have := rndCode_lt x.rnd
  have he : encodeNmu (.nmax x) = 9 * 2 ^ 26 + x.gd * 2 ^ 21 + x.ga * 2 ^ 16 + x.gb * 2 ^ 11 + rndCode x.rnd := rfl
  refine nmu_f (op := 9) (by rw [he]; simp only [bits]; omega) ?_ h
  generalize encodeNmu (.nmax x) = w at he
  rw [show ∀ w, skelNmu 9 w = some (some (.nmax ⟨bits w 21 5, bits w 16 5, bits w 11 5, rndOf (bits w 0 2)⟩)) from fun _ => rfl]
  rw [show bits w 21 5 = x.gd by simp only [bits]; omega,
    show bits w 16 5 = x.ga by simp only [bits]; omega,
    show bits w 11 5 = x.gb by simp only [bits]; omega,
    show bits w 0 2 = rndCode x.rnd by simp only [bits]; omega,
    rndOf_code]

theorem word_nfma (x : NmuV3) (h : (Instr.nfma x).wf = true) : decodeNmu (encodeNmu (.nfma x)) = .ok (.nfma x) := by
  have hw : (g5 x.gd && g5 x.ga && g5 x.gb && g5 x.gc) = true := h
  simp only [g5, Bool.and_eq_true, decide_eq_true_eq] at hw
  have := rndCode_lt x.rnd
  have he : encodeNmu (.nfma x) = 7 * 2 ^ 26 + x.gd * 2 ^ 21 + x.ga * 2 ^ 16 + x.gb * 2 ^ 11 + x.gc * 2 ^ 6 + rndCode x.rnd := rfl
  refine nmu_f (op := 7) (by rw [he]; simp only [bits]; omega) ?_ h
  generalize encodeNmu (.nfma x) = w at he
  rw [show ∀ w, skelNmu 7 w = some (some (.nfma ⟨bits w 21 5, bits w 16 5, bits w 11 5, bits w 6 5, rndOf (bits w 0 2)⟩)) from fun _ => rfl]
  rw [show bits w 21 5 = x.gd by simp only [bits]; omega,
    show bits w 16 5 = x.ga by simp only [bits]; omega,
    show bits w 11 5 = x.gb by simp only [bits]; omega,
    show bits w 6 5 = x.gc by simp only [bits]; omega,
    show bits w 0 2 = rndCode x.rnd by simp only [bits]; omega,
    rndOf_code]

theorem word_nrsq (gd ga : Nat) (h : (Instr.nrsq gd ga).wf = true) : decodeNmu (encodeNmu (.nrsq gd ga)) = .ok (.nrsq gd ga) := by
  have hw : (g5 gd && g5 ga) = true := h
  simp only [g5, Bool.and_eq_true, decide_eq_true_eq] at hw
  have he : encodeNmu (.nrsq gd ga) = 10 * 2 ^ 26 + gd * 2 ^ 21 + ga * 2 ^ 16 := rfl
  refine nmu_f (op := 10) (by rw [he]; simp only [bits]; omega) ?_ h
  generalize encodeNmu (.nrsq gd ga) = w at he
  rw [show ∀ w, skelNmu 10 w = some (some (.nrsq (bits w 21 5) (bits w 16 5))) from fun _ => rfl]
  rw [show bits w 21 5 = gd by simp only [bits]; omega,
    show bits w 16 5 = ga by simp only [bits]; omega]

theorem word_ncvt (gd ga : Nat) (k : NcvtKind) (r : Rnd) (h : (Instr.ncvt gd ga k r).wf = true) : decodeNmu (encodeNmu (.ncvt gd ga k r)) = .ok (.ncvt gd ga k r) := by
  have hw : (g5 gd && g5 ga) = true := h
  simp only [g5, Bool.and_eq_true, decide_eq_true_eq] at hw
  have := ncvtCode_lt k
  have := rndCode_lt r
  have he : encodeNmu (.ncvt gd ga k r) = 11 * 2 ^ 26 + gd * 2 ^ 21 + ga * 2 ^ 16 + ncvtCode k * 2 ^ 8 + rndCode r := rfl
  refine nmu_f (op := 11) (by rw [he]; simp only [bits]; omega) ?_ h
  generalize encodeNmu (.ncvt gd ga k r) = w at he
  rw [show ∀ w, skelNmu 11 w = some ((ncvtOf (bits w 8 3)).map (fun k => .ncvt (bits w 21 5) (bits w 16 5) k (rndOf (bits w 0 2)))) from fun _ => rfl]
  rw [show bits w 8 3 = ncvtCode k by simp only [bits]; omega,
    ncvtOf_code,
    show bits w 21 5 = gd by simp only [bits]; omega,
    show bits w 16 5 = ga by simp only [bits]; omega,
    show bits w 0 2 = rndCode r by simp only [bits]; omega,
    rndOf_code]
  rfl

theorem word_nsku (g ak ad n : Nat) (h : (Instr.nsku g ak ad n).wf = true) : decodeNmu (encodeNmu (.nsku g ak ad n)) = .ok (.nsku g ak ad n) := by
  have hw : (g5 g && a4 ak && a4 ad && lanesOk n) = true := h
  simp only [g5, a4, lanesOk, Bool.and_eq_true, decide_eq_true_eq] at hw
  have he : encodeNmu (.nsku g ak ad n) = 16 * 2 ^ 26 + g * 2 ^ 21 + ak * 2 ^ 17 + ad * 2 ^ 13 + (n - 1) * 2 ^ 5 := rfl
  refine nmu_f (op := 16) (by rw [he]; simp only [bits]; omega) ?_ h
  generalize encodeNmu (.nsku g ak ad n) = w at he
  rw [show ∀ w, skelNmu 16 w = some (some (.nsku (bits w 21 5) (bits w 17 4) (bits w 13 4) (bits w 5 8 + 1))) from fun _ => rfl]
  rw [show bits w 21 5 = g by simp only [bits]; omega,
    show bits w 17 4 = ak by simp only [bits]; omega,
    show bits w 13 4 = ad by simp only [bits]; omega,
    show bits w 5 8 + 1 = n by simp only [bits]; omega]

theorem word_nskq (g ak ad n : Nat) (h : (Instr.nskq g ak ad n).wf = true) : decodeNmu (encodeNmu (.nskq g ak ad n)) = .ok (.nskq g ak ad n) := by
  have hw : (g5 g && a4 ak && a4 ad && lanesOk n) = true := h
  simp only [g5, a4, lanesOk, Bool.and_eq_true, decide_eq_true_eq] at hw
  have he : encodeNmu (.nskq g ak ad n) = 17 * 2 ^ 26 + g * 2 ^ 21 + ak * 2 ^ 17 + ad * 2 ^ 13 + (n - 1) * 2 ^ 5 := rfl
  refine nmu_f (op := 17) (by rw [he]; simp only [bits]; omega) ?_ h
  generalize encodeNmu (.nskq g ak ad n) = w at he
  rw [show ∀ w, skelNmu 17 w = some (some (.nskq (bits w 21 5) (bits w 17 4) (bits w 13 4) (bits w 5 8 + 1))) from fun _ => rfl]
  rw [show bits w 21 5 = g by simp only [bits]; omega,
    show bits w 17 4 = ak by simp only [bits]; omega,
    show bits w 13 4 = ad by simp only [bits]; omega,
    show bits w 5 8 + 1 = n by simp only [bits]; omega]

theorem word_nska (ad as_ : Nat) (h : (Instr.nska ad as_).wf = true) : decodeNmu (encodeNmu (.nska ad as_)) = .ok (.nska ad as_) := by
  have hw : (a4 ad && a4 as_) = true := h
  simp only [a4, Bool.and_eq_true, decide_eq_true_eq] at hw
  have he : encodeNmu (.nska ad as_) = 18 * 2 ^ 26 + as_ * 2 ^ 17 + ad * 2 ^ 13 := rfl
  refine nmu_f (op := 18) (by rw [he]; simp only [bits]; omega) ?_ h
  generalize encodeNmu (.nska ad as_) = w at he
  rw [show ∀ w, skelNmu 18 w = some (some (.nska (bits w 13 4) (bits w 17 4))) from fun _ => rfl]
  rw [show bits w 13 4 = ad by simp only [bits]; omega,
    show bits w 17 4 = as_ by simp only [bits]; omega]

theorem word_nskc (ad : Nat) (h : (Instr.nskc ad).wf = true) : decodeNmu (encodeNmu (.nskc ad)) = .ok (.nskc ad) := by
  have hw : (a4 ad) = true := h
  simp only [a4, decide_eq_true_eq] at hw
  have he : encodeNmu (.nskc ad) = 19 * 2 ^ 26 + ad * 2 ^ 13 := rfl
  refine nmu_f (op := 19) (by rw [he]; simp only [bits]; omega) ?_ h
  generalize encodeNmu (.nskc ad) = w at he
  rw [show ∀ w, skelNmu 19 w = some (some (.nskc (bits w 13 4))) from fun _ => rfl]
  rw [show bits w 13 4 = ad by simp only [bits]; omega]

theorem word_nsetImm (gd imm : Nat) (h : (Instr.nsetImm gd imm).wf = true) : decodeNmu (encodeNmu (.nsetImm gd imm)) = .ok (.nsetImm gd imm) := by
  have hw : (g5 gd && decide (imm < 2 ^ 20)) = true := h
  simp only [g5, Bool.and_eq_true, decide_eq_true_eq] at hw
  have := b2n_false
  have he : encodeNmu (.nsetImm gd imm) = 24 * 2 ^ 26 + gd * 2 ^ 21 + imm := rfl
  refine nmu_f (op := 24) (by rw [he]; simp only [bits]; omega) ?_ h
  generalize encodeNmu (.nsetImm gd imm) = w at he
  rw [show ∀ w, skelNmu 24 w = some (some (if bit w 20 then .nsetReg (bits w 21 5) (bits w 16 4) else .nsetImm (bits w 21 5) (bits w 0 20))) from fun _ => rfl]
  rw [show bit w 20 = false from bit_of (by omega),
    if_neg Bool.false_ne_true,
    show bits w 21 5 = gd by simp only [bits]; omega,
    show bits w 0 20 = imm by simp only [bits]; omega]

theorem word_nsetReg (gd a : Nat) (h : (Instr.nsetReg gd a).wf = true) : decodeNmu (encodeNmu (.nsetReg gd a)) = .ok (.nsetReg gd a) := by
  have hw : (g5 gd && a4 a) = true := h
  simp only [g5, a4, Bool.and_eq_true, decide_eq_true_eq] at hw
  have := b2n_true
  have he : encodeNmu (.nsetReg gd a) = 24 * 2 ^ 26 + gd * 2 ^ 21 + 2 ^ 20 + a * 2 ^ 16 := rfl
  refine nmu_f (op := 24) (by rw [he]; simp only [bits]; omega) ?_ h
  generalize encodeNmu (.nsetReg gd a) = w at he
  rw [show ∀ w, skelNmu 24 w = some (some (if bit w 20 then .nsetReg (bits w 21 5) (bits w 16 4) else .nsetImm (bits w 21 5) (bits w 0 20))) from fun _ => rfl]
  rw [show bit w 20 = true from bit_of (by omega),
    if_pos rfl,
    show bits w 21 5 = gd by simp only [bits]; omega,
    show bits w 16 4 = a by simp only [bits]; omega]

theorem word_naddi (ad as_ sh imm : Nat) (h : (Instr.naddi ad as_ sh imm).wf = true) : decodeNmu (encodeNmu (.naddi ad as_ sh imm)) = .ok (.naddi ad as_ sh imm) := by
  have hw : (a4 ad && a4 as_ && decide (sh < 4) && decide (imm < 65536)) = true := h
  simp only [a4, Bool.and_eq_true, decide_eq_true_eq] at hw
  have he : encodeNmu (.naddi ad as_ sh imm) = 25 * 2 ^ 26 + ad * 2 ^ 22 + as_ * 2 ^ 18 + sh * 2 ^ 16 + imm := rfl
  refine nmu_f (op := 25) (by rw [he]; simp only [bits]; omega) ?_ h
  generalize encodeNmu (.naddi ad as_ sh imm) = w at he
  rw [show ∀ w, skelNmu 25 w = some (some (.naddi (bits w 22 4) (bits w 18 4) (bits w 16 2) (bits w 0 16))) from fun _ => rfl]
  rw [show bits w 22 4 = ad by simp only [bits]; omega,
    show bits w 18 4 = as_ by simp only [bits]; omega,
    show bits w 16 2 = sh by simp only [bits]; omega,
    show bits w 0 16 = imm by simp only [bits]; omega]

theorem word_nloopImm (c off : Nat) (h : (Instr.nloopImm c off).wf = true) : decodeNmu (encodeNmu (.nloopImm c off)) = .ok (.nloopImm c off) := by
  have hw : (decide (c < 8192) && decide (1 ≤ off) && decide (off < 4096)) = true := h
  simp only [Bool.and_eq_true, decide_eq_true_eq] at hw
  have := b2n_false
  have he : encodeNmu (.nloopImm c off) = 28 * 2 ^ 26 + c * 2 ^ 12 + off := rfl
  refine nmu_f (op := 28) (by rw [he]; simp only [bits]; omega) ?_ h
  generalize encodeNmu (.nloopImm c off) = w at he
  rw [show ∀ w, skelNmu 28 w = some (some (if bit w 25 then .nloopReg (bits w 21 4) (bits w 0 12) else .nloopImm (bits w 12 13) (bits w 0 12))) from fun _ => rfl]
  rw [show bit w 25 = false from bit_of (by omega),
    if_neg Bool.false_ne_true,
    show bits w 12 13 = c by simp only [bits]; omega,
    show bits w 0 12 = off by simp only [bits]; omega]

theorem word_nloopReg (a off : Nat) (h : (Instr.nloopReg a off).wf = true) : decodeNmu (encodeNmu (.nloopReg a off)) = .ok (.nloopReg a off) := by
  have hw : (a4 a && decide (1 ≤ off) && decide (off < 4096)) = true := h
  simp only [a4, Bool.and_eq_true, decide_eq_true_eq] at hw
  have := b2n_true
  have he : encodeNmu (.nloopReg a off) = 28 * 2 ^ 26 + 2 ^ 25 + a * 2 ^ 21 + off := rfl
  refine nmu_f (op := 28) (by rw [he]; simp only [bits]; omega) ?_ h
  generalize encodeNmu (.nloopReg a off) = w at he
  rw [show ∀ w, skelNmu 28 w = some (some (if bit w 25 then .nloopReg (bits w 21 4) (bits w 0 12) else .nloopImm (bits w 12 13) (bits w 0 12))) from fun _ => rfl]
  rw [show bit w 25 = true from bit_of (by omega),
    if_pos rfl,
    show bits w 21 4 = a by simp only [bits]; omega,
    show bits w 0 12 = off by simp only [bits]; omega]

theorem word_nbra (c : NbraCond) (a off : Nat) (h : (Instr.nbra c a off).wf = true) : decodeNmu (encodeNmu (.nbra c a off)) = .ok (.nbra c a off) := by
  have hw : (a4 a && decide (off < 65536) && (c != .always || a == 0)) = true := h
  simp only [a4, Bool.and_eq_true, decide_eq_true_eq] at hw
  have := nbraCode_lt c
  have he : encodeNmu (.nbra c a off) = 29 * 2 ^ 26 + a * 2 ^ 22 + nbraCode c * 2 ^ 19 + off := rfl
  refine nmu_f (op := 29) (by rw [he]; simp only [bits]; omega) ?_ h
  generalize encodeNmu (.nbra c a off) = w at he
  rw [show ∀ w, skelNmu 29 w = some ((nbraOf (bits w 19 3)).map (fun c => .nbra c (bits w 22 4) (bits w 0 16))) from fun _ => rfl]
  rw [show bits w 19 3 = nbraCode c by simp only [bits]; omega,
    nbraOf_code,
    show bits w 22 4 = a by simp only [bits]; omega,
    show bits w 0 16 = off by simp only [bits]; omega]
  rfl

theorem word_nwait (a b : Nat) (h : (Instr.nwait a b).wf = true) : decodeNmu (encodeNmu (.nwait a b)) = .ok (.nwait a b) := by
  have hw : (a4 a && a4 b) = true := h
  simp only [a4, Bool.and_eq_true, decide_eq_true_eq] at hw
  have he : encodeNmu (.nwait a b) = 30 * 2 ^ 26 + a * 2 ^ 22 + b * 2 ^ 18 := rfl
  refine nmu_f (op := 30) (by rw [he]; simp only [bits]; omega) ?_ h
  generalize encodeNmu (.nwait a b) = w at he
  rw [show ∀ w, skelNmu 30 w = some (some (.nwait (bits w 22 4) (bits w 18 4))) from fun _ => rfl]
  rw [show bits w 22 4 = a by simp only [bits]; omega,
    show bits w 18 4 = b by simp only [bits]; omega]

theorem word_nsig (a : Nat) (h : (Instr.nsig a).wf = true) : decodeNmu (encodeNmu (.nsig a)) = .ok (.nsig a) := by
  have hw : (a4 a) = true := h
  simp only [a4, decide_eq_true_eq] at hw
  have he : encodeNmu (.nsig a) = 31 * 2 ^ 26 + a * 2 ^ 22 := rfl
  refine nmu_f (op := 31) (by rw [he]; simp only [bits]; omega) ?_ h
  generalize encodeNmu (.nsig a) = w at he
  rw [show ∀ w, skelNmu 31 w = some (some (.nsig (bits w 22 4))) from fun _ => rfl]
  rw [show bits w 22 4 = a by simp only [bits]; omega]

theorem word_nfence  (h : (Instr.nfence).wf = true) : decodeNmu (encodeNmu (.nfence)) = .ok (.nfence) := by
  have he : encodeNmu (.nfence) = 32 * 2 ^ 26 := rfl
  refine nmu_f (op := 32) (by rw [he]; rfl) ?_ h
  generalize encodeNmu (.nfence) = w at he
  rw [show ∀ w, skelNmu 32 w = some (some .nfence) from fun _ => rfl]

theorem word_nend  (h : (Instr.nend).wf = true) : decodeNmu (encodeNmu (.nend)) = .ok (.nend) := by
  have he : encodeNmu (.nend) = 63 * 2 ^ 26 := rfl
  refine nmu_f (op := 63) (by rw [he]; rfl) ?_ h
  generalize encodeNmu (.nend) = w at he
  rw [show ∀ w, skelNmu 63 w = some (some .nend) from fun _ => rfl]

theorem word_movqReg (a b : Nat) (h : (Instr.movqReg a b).wf = true) : decodeCratch (encodeCratch (.movqReg a b)) = .ok (.movqReg a b) := by
  have hw : (a4 a && a4 b) = true := h
  simp only [a4, Bool.and_eq_true, decide_eq_true_eq] at hw
  have := b2n_false
  have he : encodeCratch (.movqReg a b) = 1 * 2 ^ 26 + a * 2 ^ 22 + b * 2 ^ 17 := rfl
  refine cratch_f (op := 1) (by rw [he]; simp only [bits]; omega) ?_ h
  generalize encodeCratch (.movqReg a b) = w at he
  rw [show ∀ w, skelCratch 1 w = some (some (if bit w 21 then .movqImm (bits w 22 4) (sext 21 (bits w 0 21)) else .movqReg (bits w 22 4) (bits w 17 4))) from fun _ => rfl]
  rw [show bit w 21 = false from bit_of (by omega),
    if_neg Bool.false_ne_true,
    show bits w 22 4 = a by simp only [bits]; omega,
    show bits w 17 4 = b by simp only [bits]; omega]

theorem word_movqImm (a : Nat) (i : Int) (h : (Instr.movqImm a i).wf = true) : decodeCratch (encodeCratch (.movqImm a i)) = .ok (.movqImm a i) := by
  have hw : (a4 a && fits 21 i) = true := h
  simp only [a4, Bool.and_eq_true, decide_eq_true_eq] at hw
  have := b2n_true
  have := ofInt_lt 21 i
  have he : encodeCratch (.movqImm a i) = 1 * 2 ^ 26 + a * 2 ^ 22 + 2 ^ 21 + ofInt 21 i := rfl
  refine cratch_f (op := 1) (by rw [he]; simp only [bits]; omega) ?_ h
  generalize encodeCratch (.movqImm a i) = w at he
  rw [show ∀ w, skelCratch 1 w = some (some (if bit w 21 then .movqImm (bits w 22 4) (sext 21 (bits w 0 21)) else .movqReg (bits w 22 4) (bits w 17 4))) from fun _ => rfl]
  rw [show bit w 21 = true from bit_of (by omega),
    if_pos rfl,
    show bits w 22 4 = a by simp only [bits]; omega,
    show sext 21 (bits w 0 21) = i by
      rw [show bits w 0 21 = ofInt 21 i by simp only [bits]; omega]; exact sext_ofInt (by decide) hw.2]

theorem word_addqReg (a b c : Nat) (h : (Instr.addqReg a b c).wf = true) : decodeCratch (encodeCratch (.addqReg a b c)) = .ok (.addqReg a b c) := by
  have hw : (a4 a && a4 b && a4 c) = true := h
  simp only [a4, Bool.and_eq_true, decide_eq_true_eq] at hw
  have := b2n_false
  have he : encodeCratch (.addqReg a b c) = 2 * 2 ^ 26 + a * 2 ^ 22 + b * 2 ^ 18 + c * 2 ^ 13 := rfl
  refine cratch_f (op := 2) (by rw [he]; simp only [bits]; omega) ?_ h
  generalize encodeCratch (.addqReg a b c) = w at he
  rw [show ∀ w, skelCratch 2 w = some (some (if bit w 17 then .addqImm (bits w 22 4) (bits w 18 4) (sext 17 (bits w 0 17)) else .addqReg (bits w 22 4) (bits w 18 4) (bits w 13 4))) from fun _ => rfl]
  rw [show bit w 17 = false from bit_of (by omega),
    if_neg Bool.false_ne_true,
    show bits w 22 4 = a by simp only [bits]; omega,
    show bits w 18 4 = b by simp only [bits]; omega,
    show bits w 13 4 = c by simp only [bits]; omega]

theorem word_addqImm (a b : Nat) (i : Int) (h : (Instr.addqImm a b i).wf = true) : decodeCratch (encodeCratch (.addqImm a b i)) = .ok (.addqImm a b i) := by
  have hw : (a4 a && a4 b && fits 17 i) = true := h
  simp only [a4, Bool.and_eq_true, decide_eq_true_eq] at hw
  have := b2n_true
  have := ofInt_lt 17 i
  have he : encodeCratch (.addqImm a b i) = 2 * 2 ^ 26 + a * 2 ^ 22 + b * 2 ^ 18 + 2 ^ 17 + ofInt 17 i := rfl
  refine cratch_f (op := 2) (by rw [he]; simp only [bits]; omega) ?_ h
  generalize encodeCratch (.addqImm a b i) = w at he
  rw [show ∀ w, skelCratch 2 w = some (some (if bit w 17 then .addqImm (bits w 22 4) (bits w 18 4) (sext 17 (bits w 0 17)) else .addqReg (bits w 22 4) (bits w 18 4) (bits w 13 4))) from fun _ => rfl]
  rw [show bit w 17 = true from bit_of (by omega),
    if_pos rfl,
    show bits w 22 4 = a by simp only [bits]; omega,
    show bits w 18 4 = b by simp only [bits]; omega,
    show sext 17 (bits w 0 17) = i by
      rw [show bits w 0 17 = ofInt 17 i by simp only [bits]; omega]; exact sext_ofInt (by decide) hw.2]

theorem word_subqReg (a b c : Nat) (h : (Instr.subqReg a b c).wf = true) : decodeCratch (encodeCratch (.subqReg a b c)) = .ok (.subqReg a b c) := by
  have hw : (a4 a && a4 b && a4 c) = true := h
  simp only [a4, Bool.and_eq_true, decide_eq_true_eq] at hw
  have := b2n_false
  have he : encodeCratch (.subqReg a b c) = 3 * 2 ^ 26 + a * 2 ^ 22 + b * 2 ^ 18 + c * 2 ^ 13 := rfl
  refine cratch_f (op := 3) (by rw [he]; simp only [bits]; omega) ?_ h
  generalize encodeCratch (.subqReg a b c) = w at he
  rw [show ∀ w, skelCratch 3 w = some (some (if bit w 17 then .subqImm (bits w 22 4) (bits w 18 4) (sext 17 (bits w 0 17)) else .subqReg (bits w 22 4) (bits w 18 4) (bits w 13 4))) from fun _ => rfl]
  rw [show bit w 17 = false from bit_of (by omega),
    if_neg Bool.false_ne_true,
    show bits w 22 4 = a by simp only [bits]; omega,
    show bits w 18 4 = b by simp only [bits]; omega,
    show bits w 13 4 = c by simp only [bits]; omega]

theorem word_subqImm (a b : Nat) (i : Int) (h : (Instr.subqImm a b i).wf = true) : decodeCratch (encodeCratch (.subqImm a b i)) = .ok (.subqImm a b i) := by
  have hw : (a4 a && a4 b && fits 17 i) = true := h
  simp only [a4, Bool.and_eq_true, decide_eq_true_eq] at hw
  have := b2n_true
  have := ofInt_lt 17 i
  have he : encodeCratch (.subqImm a b i) = 3 * 2 ^ 26 + a * 2 ^ 22 + b * 2 ^ 18 + 2 ^ 17 + ofInt 17 i := rfl
  refine cratch_f (op := 3) (by rw [he]; simp only [bits]; omega) ?_ h
  generalize encodeCratch (.subqImm a b i) = w at he
  rw [show ∀ w, skelCratch 3 w = some (some (if bit w 17 then .subqImm (bits w 22 4) (bits w 18 4) (sext 17 (bits w 0 17)) else .subqReg (bits w 22 4) (bits w 18 4) (bits w 13 4))) from fun _ => rfl]
  rw [show bit w 17 = true from bit_of (by omega),
    if_pos rfl,
    show bits w 22 4 = a by simp only [bits]; omega,
    show bits w 18 4 = b by simp only [bits]; omega,
    show sext 17 (bits w 0 17) = i by
      rw [show bits w 0 17 = ofInt 17 i by simp only [bits]; omega]; exact sext_ofInt (by decide) hw.2]

theorem word_cmpqReg (cc : QCond) (a b : Nat) (h : (Instr.cmpqReg cc a b).wf = true) : decodeCratch (encodeCratch (.cmpqReg cc a b)) = .ok (.cmpqReg cc a b) := by
  have hw : (a4 a && a4 b) = true := h
  simp only [a4, Bool.and_eq_true, decide_eq_true_eq] at hw
  have := b2n_false
  have := qcCode_lt cc
  have he : encodeCratch (.cmpqReg cc a b) = 4 * 2 ^ 26 + a * 2 ^ 22 + qcCode cc * 2 ^ 19 + b * 2 ^ 14 := rfl
  refine cratch_f (op := 4) (by rw [he]; simp only [bits]; omega) ?_ h
  generalize encodeCratch (.cmpqReg cc a b) = w at he
  rw [show ∀ w, skelCratch 4 w = some ((qcOf (bits w 19 3)).map (fun cc => if bit w 18 then .cmpqImm cc (bits w 22 4) (sext 18 (bits w 0 18)) else .cmpqReg cc (bits w 22 4) (bits w 14 4))) from fun _ => rfl]
  rw [show bits w 19 3 = qcCode cc by simp only [bits]; omega,
    qcOf_code,
    show bit w 18 = false from bit_of (by omega),
    show bits w 22 4 = a by simp only [bits]; omega,
    show bits w 14 4 = b by simp only [bits]; omega]
  rfl

theorem word_cmpqImm (cc : QCond) (a : Nat) (i : Int) (h : (Instr.cmpqImm cc a i).wf = true) : decodeCratch (encodeCratch (.cmpqImm cc a i)) = .ok (.cmpqImm cc a i) := by
  have hw : (a4 a && fits 18 i) = true := h
  simp only [a4, Bool.and_eq_true, decide_eq_true_eq] at hw
  have := b2n_true
  have := ofInt_lt 18 i
  have := qcCode_lt cc
  have he : encodeCratch (.cmpqImm cc a i) = 4 * 2 ^ 26 + a * 2 ^ 22 + qcCode cc * 2 ^ 19 + 2 ^ 18 + ofInt 18 i := rfl
  refine cratch_f (op := 4) (by rw [he]; simp only [bits]; omega) ?_ h
  generalize encodeCratch (.cmpqImm cc a i) = w at he
  rw [show ∀ w, skelCratch 4 w = some ((qcOf (bits w 19 3)).map (fun cc => if bit w 18 then .cmpqImm cc (bits w 22 4) (sext 18 (bits w 0 18)) else .cmpqReg cc (bits w 22 4) (bits w 14 4))) from fun _ => rfl]
  rw [show bits w 19 3 = qcCode cc by simp only [bits]; omega,
    qcOf_code,
    show bit w 18 = true from bit_of (by omega),
    show bits w 22 4 = a by simp only [bits]; omega,
    show sext 18 (bits w 0 18) = i by
      rw [show bits w 0 18 = ofInt 18 i by simp only [bits]; omega]; exact sext_ofInt (by decide) hw.2]
  rfl

theorem word_brq (nz : Bool) (a : Nat) (off : Int) (h : (Instr.brq nz a off).wf = true) : decodeCratch (encodeCratch (.brq nz a off)) = .ok (.brq nz a off) := by
  have hw : (a4 a && fits 16 off) = true := h
  simp only [a4, Bool.and_eq_true, decide_eq_true_eq] at hw
  have := b2n_lt nz
  have := ofInt_lt 16 off
  have he : encodeCratch (.brq nz a off) = 5 * 2 ^ 26 + a * 2 ^ 22 + b2n nz * 2 ^ 21 + ofInt 16 off := rfl
  refine cratch_f (op := 5) (by rw [he]; simp only [bits]; omega) ?_ h
  generalize encodeCratch (.brq nz a off) = w at he
  rw [show ∀ w, skelCratch 5 w = some (some (.brq (bit w 21) (bits w 22 4) (sext 16 (bits w 0 16)))) from fun _ => rfl]
  rw [show bit w 21 = nz from bit_of (by omega),
    show bits w 22 4 = a by simp only [bits]; omega,
    show sext 16 (bits w 0 16) = off by
      rw [show bits w 0 16 = ofInt 16 off by simp only [bits]; omega]; exact sext_ofInt (by decide) hw.2]

theorem word_brc (k : BrcCond) (off : Int) (h : (Instr.brc k off).wf = true) : decodeCratch (encodeCratch (.brc k off)) = .ok (.brc k off) := by
  have hw : (fits 16 off) = true := h
  have := brcCode_lt k
  have := ofInt_lt 16 off
  have he : encodeCratch (.brc k off) = 6 * 2 ^ 26 + brcCode k * 2 ^ 24 + ofInt 16 off := rfl
  refine cratch_f (op := 6) (by rw [he]; simp only [bits]; omega) ?_ h
  generalize encodeCratch (.brc k off) = w at he
  rw [show ∀ w, skelCratch 6 w = some ((brcOf (bits w 24 2)).map (fun k => .brc k (sext 16 (bits w 0 16)))) from fun _ => rfl]
  rw [show bits w 24 2 = brcCode k by simp only [bits]; omega,
    brcOf_code,
    show sext 16 (bits w 0 16) = off by
      rw [show bits w 0 16 = ofInt 16 off by simp only [bits]; omega]; exact sext_ofInt (by decide) hw]
  rfl

theorem word_creq (a b : Nat) (h : (Instr.creq a b).wf = true) : decodeCratch (encodeCratch (.creq a b)) = .ok (.creq a b) := by
  have hw : (a4 a && a4 b) = true := h
  simp only [a4, Bool.and_eq_true, decide_eq_true_eq] at hw
  have he : encodeCratch (.creq a b) = 8 * 2 ^ 26 + a * 2 ^ 22 + b * 2 ^ 18 := rfl
  refine cratch_f (op := 8) (by rw [he]; simp only [bits]; omega) ?_ h
  generalize encodeCratch (.creq a b) = w at he
  rw [show ∀ w, skelCratch 8 w = some (some (.creq (bits w 22 4) (bits w 18 4))) from fun _ => rfl]
  rw [show bits w 22 4 = a by simp only [bits]; omega,
    show bits w 18 4 = b by simp only [bits]; omega]

theorem word_cstat (a b : Nat) (h : (Instr.cstat a b).wf = true) : decodeCratch (encodeCratch (.cstat a b)) = .ok (.cstat a b) := by
  have hw : (a4 a && a4 b) = true := h
  simp only [a4, Bool.and_eq_true, decide_eq_true_eq] at hw
  have he : encodeCratch (.cstat a b) = 11 * 2 ^ 26 + a * 2 ^ 22 + b * 2 ^ 18 := rfl
  refine cratch_f (op := 11) (by rw [he]; simp only [bits]; omega) ?_ h
  generalize encodeCratch (.cstat a b) = w at he
  rw [show ∀ w, skelCratch 11 w = some (some (.cstat (bits w 22 4) (bits w 18 4))) from fun _ => rfl]
  rw [show bits w 22 4 = a by simp only [bits]; omega,
    show bits w 18 4 = b by simp only [bits]; omega]

theorem word_park (a b : Nat) (h : (Instr.park a b).wf = true) : decodeCratch (encodeCratch (.park a b)) = .ok (.park a b) := by
  have hw : (a4 a && a4 b) = true := h
  simp only [a4, Bool.and_eq_true, decide_eq_true_eq] at hw
  have he : encodeCratch (.park a b) = 13 * 2 ^ 26 + a * 2 ^ 22 + b * 2 ^ 18 := rfl
  refine cratch_f (op := 13) (by rw [he]; simp only [bits]; omega) ?_ h
  generalize encodeCratch (.park a b) = w at he
  rw [show ∀ w, skelCratch 13 w = some (some (.park (bits w 22 4) (bits w 18 4))) from fun _ => rfl]
  rw [show bits w 22 4 = a by simp only [bits]; omega,
    show bits w 18 4 = b by simp only [bits]; omega]

theorem word_wake (a b : Nat) (h : (Instr.wake a b).wf = true) : decodeCratch (encodeCratch (.wake a b)) = .ok (.wake a b) := by
  have hw : (a4 a && a4 b) = true := h
  simp only [a4, Bool.and_eq_true, decide_eq_true_eq] at hw
  have he : encodeCratch (.wake a b) = 14 * 2 ^ 26 + a * 2 ^ 22 + b * 2 ^ 18 := rfl
  refine cratch_f (op := 14) (by rw [he]; simp only [bits]; omega) ?_ h
  generalize encodeCratch (.wake a b) = w at he
  rw [show ∀ w, skelCratch 14 w = some (some (.wake (bits w 22 4) (bits w 18 4))) from fun _ => rfl]
  rw [show bits w 22 4 = a by simp only [bits]; omega,
    show bits w 18 4 = b by simp only [bits]; omega]

theorem word_setw (a b : Nat) (h : (Instr.setw a b).wf = true) : decodeCratch (encodeCratch (.setw a b)) = .ok (.setw a b) := by
  have hw : (a4 a && a4 b) = true := h
  simp only [a4, Bool.and_eq_true, decide_eq_true_eq] at hw
  have he : encodeCratch (.setw a b) = 15 * 2 ^ 26 + a * 2 ^ 22 + b * 2 ^ 18 := rfl
  refine cratch_f (op := 15) (by rw [he]; simp only [bits]; omega) ?_ h
  generalize encodeCratch (.setw a b) = w at he
  rw [show ∀ w, skelCratch 15 w = some (some (.setw (bits w 22 4) (bits w 18 4))) from fun _ => rfl]
  rw [show bits w 22 4 = a by simp only [bits]; omega,
    show bits w 18 4 = b by simp only [bits]; omega]

theorem word_msg (a b : Nat) (h : (Instr.msg a b).wf = true) : decodeCratch (encodeCratch (.msg a b)) = .ok (.msg a b) := by
  have hw : (a4 a && a4 b) = true := h
  simp only [a4, Bool.and_eq_true, decide_eq_true_eq] at hw
  have he : encodeCratch (.msg a b) = 16 * 2 ^ 26 + a * 2 ^ 22 + b * 2 ^ 18 := rfl
  refine cratch_f (op := 16) (by rw [he]; simp only [bits]; omega) ?_ h
  generalize encodeCratch (.msg a b) = w at he
  rw [show ∀ w, skelCratch 16 w = some (some (.msg (bits w 22 4) (bits w 18 4))) from fun _ => rfl]
  rw [show bits w 22 4 = a by simp only [bits]; omega,
    show bits w 18 4 = b by simp only [bits]; omega]

theorem word_tsig (a b : Nat) (h : (Instr.tsig a b).wf = true) : decodeCratch (encodeCratch (.tsig a b)) = .ok (.tsig a b) := by
  have hw : (a4 a && a4 b) = true := h
  simp only [a4, Bool.and_eq_true, decide_eq_true_eq] at hw
  have he : encodeCratch (.tsig a b) = 18 * 2 ^ 26 + a * 2 ^ 22 + b * 2 ^ 18 := rfl
  refine cratch_f (op := 18) (by rw [he]; simp only [bits]; omega) ?_ h
  generalize encodeCratch (.tsig a b) = w at he
  rw [show ∀ w, skelCratch 18 w = some (some (.tsig (bits w 22 4) (bits w 18 4))) from fun _ => rfl]
  rw [show bits w 22 4 = a by simp only [bits]; omega,
    show bits w 18 4 = b by simp only [bits]; omega]

theorem word_cwait (t : CwaitTarget) (a b c : Nat) (h : (Instr.cwait t a b c).wf = true) : decodeCratch (encodeCratch (.cwait t a b c)) = .ok (.cwait t a b c) := by
  have hw : (a4 a && a4 b && a4 c) = true := h
  simp only [a4, Bool.and_eq_true, decide_eq_true_eq] at hw
  have := tgtCode_lt t
  have he : encodeCratch (.cwait t a b c) = 9 * 2 ^ 26 + a * 2 ^ 22 + b * 2 ^ 18 + c * 2 ^ 14 + tgtCode t * 2 ^ 12 := rfl
  refine cratch_f (op := 9) (by rw [he]; simp only [bits]; omega) ?_ h
  generalize encodeCratch (.cwait t a b c) = w at he
  rw [show ∀ w, skelCratch 9 w = some ((tgtOf (bits w 12 2)).map (fun t => .cwait t (bits w 22 4) (bits w 18 4) (bits w 14 4))) from fun _ => rfl]
  rw [show bits w 12 2 = tgtCode t by simp only [bits]; omega,
    tgtOf_code,
    show bits w 22 4 = a by simp only [bits]; omega,
    show bits w 18 4 = b by simp only [bits]; omega,
    show bits w 14 4 = c by simp only [bits]; omega]
  rfl

theorem word_crel (a : Nat) (h : (Instr.crel a).wf = true) : decodeCratch (encodeCratch (.crel a)) = .ok (.crel a) := by
  have hw : (a4 a) = true := h
  simp only [a4, decide_eq_true_eq] at hw
  have he : encodeCratch (.crel a) = 10 * 2 ^ 26 + a * 2 ^ 22 := rfl
  refine cratch_f (op := 10) (by rw [he]; simp only [bits]; omega) ?_ h
  generalize encodeCratch (.crel a) = w at he
  rw [show ∀ w, skelCratch 10 w = some (some (.crel (bits w 22 4))) from fun _ => rfl]
  rw [show bits w 22 4 = a by simp only [bits]; omega]

theorem word_time (a : Nat) (h : (Instr.time a).wf = true) : decodeCratch (encodeCratch (.time a)) = .ok (.time a) := by
  have hw : (a4 a) = true := h
  simp only [a4, decide_eq_true_eq] at hw
  have he : encodeCratch (.time a) = 20 * 2 ^ 26 + a * 2 ^ 22 := rfl
  refine cratch_f (op := 20) (by rw [he]; simp only [bits]; omega) ?_ h
  generalize encodeCratch (.time a) = w at he
  rw [show ∀ w, skelCratch 20 w = some (some (.time (bits w 22 4))) from fun _ => rfl]
  rw [show bits w 22 4 = a by simp only [bits]; omega]

theorem word_evt (a : Nat) (h : (Instr.evt a).wf = true) : decodeCratch (encodeCratch (.evt a)) = .ok (.evt a) := by
  have hw : (a4 a) = true := h
  simp only [a4, decide_eq_true_eq] at hw
  have he : encodeCratch (.evt a) = 22 * 2 ^ 26 + a * 2 ^ 22 := rfl
  refine cratch_f (op := 22) (by rw [he]; simp only [bits]; omega) ?_ h
  generalize encodeCratch (.evt a) = w at he
  rw [show ∀ w, skelCratch 22 w = some (some (.evt (bits w 22 4))) from fun _ => rfl]
  rw [show bits w 22 4 = a by simp only [bits]; omega]

theorem word_buck (a b : Nat) (h : (Instr.buck a b).wf = true) : decodeCratch (encodeCratch (.buck a b)) = .ok (.buck a b) := by
  have hw : (a4 a && a4 b) = true := h
  simp only [a4, Bool.and_eq_true, decide_eq_true_eq] at hw
  have := b2n_false
  have he : encodeCratch (.buck a b) = 12 * 2 ^ 26 + a * 2 ^ 22 + b * 2 ^ 18 := rfl
  refine cratch_f (op := 12) (by rw [he]; simp only [bits]; omega) ?_ h
  generalize encodeCratch (.buck a b) = w at he
  rw [show ∀ w, skelCratch 12 w = some (some (if bit w 17 then .buckOff (bits w 22 4) else .buck (bits w 22 4) (bits w 18 4))) from fun _ => rfl]
  rw [show bit w 17 = false from bit_of (by omega),
    if_neg Bool.false_ne_true,
    show bits w 22 4 = a by simp only [bits]; omega,
    show bits w 18 4 = b by simp only [bits]; omega]

theorem word_buckOff (a : Nat) (h : (Instr.buckOff a).wf = true) : decodeCratch (encodeCratch (.buckOff a)) = .ok (.buckOff a) := by
  have hw : (a4 a) = true := h
  simp only [a4, decide_eq_true_eq] at hw
  have := b2n_true
  have he : encodeCratch (.buckOff a) = 12 * 2 ^ 26 + a * 2 ^ 22 + 2 ^ 17 := rfl
  refine cratch_f (op := 12) (by rw [he]; simp only [bits]; omega) ?_ h
  generalize encodeCratch (.buckOff a) = w at he
  rw [show ∀ w, skelCratch 12 w = some (some (if bit w 17 then .buckOff (bits w 22 4) else .buck (bits w 22 4) (bits w 18 4))) from fun _ => rfl]
  rw [show bit w 17 = true from bit_of (by omega),
    if_pos rfl,
    show bits w 22 4 = a by simp only [bits]; omega]

theorem word_mrcv (a b c : Nat) (h : (Instr.mrcv a b c).wf = true) : decodeCratch (encodeCratch (.mrcv a b c)) = .ok (.mrcv a b c) := by
  have hw : (a4 a && a4 b && a4 c) = true := h
  simp only [a4, Bool.and_eq_true, decide_eq_true_eq] at hw
  have he : encodeCratch (.mrcv a b c) = 17 * 2 ^ 26 + a * 2 ^ 22 + b * 2 ^ 18 + c * 2 ^ 14 := rfl
  refine cratch_f (op := 17) (by rw [he]; simp only [bits]; omega) ?_ h
  generalize encodeCratch (.mrcv a b c) = w at he
  rw [show ∀ w, skelCratch 17 w = some (some (.mrcv (bits w 22 4) (bits w 18 4) (bits w 14 4))) from fun _ => rfl]
  rw [show bits w 22 4 = a by simp only [bits]; omega,
    show bits w 18 4 = b by simp only [bits]; omega,
    show bits w 14 4 = c by simp only [bits]; omega]

theorem word_twt (a b c : Nat) (h : (Instr.twt a b c).wf = true) : decodeCratch (encodeCratch (.twt a b c)) = .ok (.twt a b c) := by
  have hw : (a4 a && a4 b && a4 c) = true := h
  simp only [a4, Bool.and_eq_true, decide_eq_true_eq] at hw
  have he : encodeCratch (.twt a b c) = 19 * 2 ^ 26 + a * 2 ^ 22 + b * 2 ^ 18 + c * 2 ^ 14 := rfl
  refine cratch_f (op := 19) (by rw [he]; simp only [bits]; omega) ?_ h
  generalize encodeCratch (.twt a b c) = w at he
  rw [show ∀ w, skelCratch 19 w = some (some (.twt (bits w 22 4) (bits w 18 4) (bits w 14 4))) from fun _ => rfl]
  rw [show bits w 22 4 = a by simp only [bits]; omega,
    show bits w 18 4 = b by simp only [bits]; omega,
    show bits w 14 4 = c by simp only [bits]; omega]

theorem word_dlyReg (a : Nat) (h : (Instr.dlyReg a).wf = true) : decodeCratch (encodeCratch (.dlyReg a)) = .ok (.dlyReg a) := by
  have hw : (a4 a) = true := h
  simp only [a4, decide_eq_true_eq] at hw
  have := b2n_false
  have he : encodeCratch (.dlyReg a) = 21 * 2 ^ 26 + a * 2 ^ 22 := rfl
  refine cratch_f (op := 21) (by rw [he]; simp only [bits]; omega) ?_ h
  generalize encodeCratch (.dlyReg a) = w at he
  rw [show ∀ w, skelCratch 21 w = some (some (if bit w 21 then .dlyImm (bits w 0 21) else .dlyReg (bits w 22 4))) from fun _ => rfl]
  rw [show bit w 21 = false from bit_of (by omega),
    if_neg Bool.false_ne_true,
    show bits w 22 4 = a by simp only [bits]; omega]

theorem word_dlyImm (us : Nat) (h : (Instr.dlyImm us).wf = true) : decodeCratch (encodeCratch (.dlyImm us)) = .ok (.dlyImm us) := by
  have hw : (decide (us < 2 ^ 21)) = true := h
  simp only [decide_eq_true_eq] at hw
  have := b2n_true
  have he : encodeCratch (.dlyImm us) = 21 * 2 ^ 26 + 2 ^ 21 + us := rfl
  refine cratch_f (op := 21) (by rw [he]; simp only [bits]; omega) ?_ h
  generalize encodeCratch (.dlyImm us) = w at he
  rw [show ∀ w, skelCratch 21 w = some (some (if bit w 21 then .dlyImm (bits w 0 21) else .dlyReg (bits w 22 4))) from fun _ => rfl]
  rw [show bit w 21 = true from bit_of (by omega),
    if_pos rfl,
    show bits w 0 21 = us by simp only [bits]; omega]

theorem word_endScript  (h : (Instr.endScript).wf = true) : decodeCratch (encodeCratch (.endScript)) = .ok (.endScript) := by
  have he : encodeCratch (.endScript) = 23 * 2 ^ 26 := rfl
  refine cratch_f (op := 23) (by rw [he]; rfl) ?_ h
  generalize encodeCratch (.endScript) = w at he
  rw [show ∀ w, skelCratch 23 w = some (some .endScript) from fun _ => rfl]

end Sys2Proof
end

