-- ==== Sys2Proof/Laws/Exec.lean ====
section
/-! SUPPORT. Each arm of the dispatch as an equation. -/

namespace Sys2Proof.Machine

theorem exec_iadd x (s : State) : exec (.iadd x) s = execIadd x s := rfl
theorem exec_isub x (s : State) : exec (.isub x) s = execIsub x s := rfl
theorem exec_imul x (s : State) : exec (.imul x) s = execImul x s := rfl
theorem exec_imulh x (s : State) : exec (.imulh x) s = execImulh x s := rfl
theorem exec_imad x (s : State) : exec (.imad x) s = execImad x s := rfl
theorem exec_imadw x (s : State) : exec (.imadw x) s = execImadw x s := rfl
theorem exec_imin x (s : State) : exec (.imin x) s = execImin x s := rfl
theorem exec_imax x (s : State) : exec (.imax x) s = execImax x s := rfl
theorem exec_iabs x (s : State) : exec (.iabs x) s = execIabs x s := rfl
theorem exec_and x (s : State) : exec (.and x) s = execAnd x s := rfl
theorem exec_or x (s : State) : exec (.or x) s = execOr x s := rfl
theorem exec_xor x (s : State) : exec (.xor x) s = execXor x s := rfl
theorem exec_andn x (s : State) : exec (.andn x) s = execAndn x s := rfl
theorem exec_shl x (s : State) : exec (.shl x) s = execShl x s := rfl
theorem exec_shr x (s : State) : exec (.shr x) s = execShr x s := rfl
theorem exec_sar x (s : State) : exec (.sar x) s = execSar x s := rfl
theorem exec_rotr x (s : State) : exec (.rotr x) s = execRotr x s := rfl
theorem exec_popc x (s : State) : exec (.popc x) s = execPopc x s := rfl
theorem exec_clz x (s : State) : exec (.clz x) s = execClz x s := rfl
theorem exec_brev x (s : State) : exec (.brev x) s = execBrev x s := rfl
theorem exec_bfx x (s : State) : exec (.bfx x) s = execBfx x s := rfl
theorem exec_bfi x (s : State) : exec (.bfi x) s = execBfi x s := rfl
theorem exec_lea x (s : State) : exec (.lea x) s = execLea x s := rfl
theorem exec_icmp x (s : State) : exec (.icmp x) s = execIcmp x s := rfl
theorem exec_sel x (s : State) : exec (.sel x) s = execSel x s := rfl
theorem exec_mov x (s : State) : exec (.mov x) s = execMov x s := rfl
theorem exec_movi x (s : State) : exec (.movi x) s = execMovi x s := rfl
theorem exec_movs x (s : State) : exec (.movs x) s = execMovs x s := rfl
theorem exec_movsSl x (s : State) : exec (.movsSl x) s = execMovsSl x s := rfl
theorem exec_plog x (s : State) : exec (.plog x) s = execPlog x s := rfl
theorem exec_fadd x (s : State) : exec (.fadd x) s = execFadd x s := rfl
theorem exec_fsub x (s : State) : exec (.fsub x) s = execFsub x s := rfl
theorem exec_fmul x (s : State) : exec (.fmul x) s = execFmul x s := rfl
theorem exec_ffma x (s : State) : exec (.ffma x) s = execFfma x s := rfl
theorem exec_fmin x (s : State) : exec (.fmin x) s = execFmin x s := rfl
theorem exec_fmax x (s : State) : exec (.fmax x) s = execFmax x s := rfl
theorem exec_fcmp x (s : State) : exec (.fcmp x) s = execFcmp x s := rfl
theorem exec_fcls x (s : State) : exec (.fcls x) s = execFcls x s := rfl
theorem exec_hadd2 x (s : State) : exec (.hadd2 x) s = execHadd2 x s := rfl
theorem exec_hmul2 x (s : State) : exec (.hmul2 x) s = execHmul2 x s := rfl
theorem exec_hfma2 x (s : State) : exec (.hfma2 x) s = execHfma2 x s := rfl
theorem exec_dadd x (s : State) : exec (.dadd x) s = execDadd x s := rfl
theorem exec_dmul x (s : State) : exec (.dmul x) s = execDmul x s := rfl
theorem exec_dfma x (s : State) : exec (.dfma x) s = execDfma x s := rfl
theorem exec_dcmp x (s : State) : exec (.dcmp x) s = execDcmp x s := rfl
theorem exec_frcp x (s : State) : exec (.frcp x) s = execFrcp x s := rfl
theorem exec_frsq x (s : State) : exec (.frsq x) s = execFrsq x s := rfl
theorem exec_fsqt x (s : State) : exec (.fsqt x) s = execFsqt x s := rfl
theorem exec_fdiv x (s : State) : exec (.fdiv x) s = execFdiv x s := rfl
theorem exec_fex2 x (s : State) : exec (.fex2 x) s = execFex2 x s := rfl
theorem exec_flg2 x (s : State) : exec (.flg2 x) s = execFlg2 x s := rfl
theorem exec_fsin x (s : State) : exec (.fsin x) s = execFsin x s := rfl
theorem exec_fcos x (s : State) : exec (.fcos x) s = execFcos x s := rfl
theorem exec_ftnh x (s : State) : exec (.ftnh x) s = execFtnh x s := rfl
theorem exec_cvt x (s : State) : exec (.cvt x) s = execCvt x s := rfl
theorem exec_cvts x (s : State) : exec (.cvts x) s = execCvts x s := rfl
theorem exec_scsel x (s : State) : exec (.scsel x) s = execScsel x s := rfl
theorem exec_efq x (s : State) : exec (.efq x) s = execEfq x s := rfl
theorem exec_bzpk x (s : State) : exec (.bzpk x) s = execBzpk x s := rfl
theorem exec_bzup x (s : State) : exec (.bzup x) s = execBzup x s := rfl
theorem exec_f8pk x (s : State) : exec (.f8pk x) s = execF8pk x s := rfl
theorem exec_f8up x (s : State) : exec (.f8up x) s = execF8up x s := rfl
theorem exec_scacc x (s : State) : exec (.scacc x) s = execScacc x s := rfl
theorem exec_shfl x (s : State) : exec (.shfl x) s = execShfl x s := rfl
theorem exec_shfx x (s : State) : exec (.shfx x) s = execShfx x s := rfl
theorem exec_bcst x (s : State) : exec (.bcst x) s = execBcst x s := rfl
theorem exec_vote x (s : State) : exec (.vote x) s = execVote x s := rfl
theorem exec_redt x (s : State) : exec (.redt x) s = execRedt x s := rfl
theorem exec_scan x (s : State) : exec (.scan x) s = execScan x s := rfl
theorem exec_redx x (s : State) : exec (.redx x) s = execRedx x s := rfl
theorem exec_lacr x (s : State) : exec (.lacr x) s = execLacr x s := rfl
theorem exec_braAny g dist (s : State) : exec (.braAny g dist) s = execBraAny g dist s := rfl
theorem exec_braAll g dist (s : State) : exec (.braAll g dist) s = execBraAll g dist s := rfl
theorem exec_brx a off (s : State) : exec (.brx a off) s = execBrx a off s := rfl
theorem exec_call d dist (s : State) : exec (.call d dist) s = execCall d dist s := rfl
theorem exec_ret a (s : State) : exec (.ret a) s = execRet a s := rfl
theorem exec_regang m (s : State) : exec (.regang m) s = execRegang m s := rfl
theorem exec_loopOperand a off (s : State) : exec (.loopOperand a off) s = execLoopOperand a off s := rfl
theorem exec_loopImmediate n off (s : State) : exec (.loopImmediate n off) s = execLoopImmediate n off s := rfl
theorem exec_trap code (s : State) : exec (.trap code) s = execTrap code s := rfl
theorem exec_bkpt code (s : State) : exec (.bkpt code) s = execBkpt code s := rfl
theorem exec_racq n (s : State) : exec (.racq n) s = execRacq n s := rfl
theorem exec_rrel n (s : State) : exec (.rrel n) s = execRrel n s := rfl
theorem exec_rep x (s : State) : exec (.rep x) s = execRep x s := rfl
theorem exec_pNop h o (s : State) : exec (.pNop h o) s = execPNop h o s := rfl
theorem exec_pMov h o (s : State) : exec (.pMov h o) s = execPMov h o s := rfl
theorem exec_pIadd h o (s : State) : exec (.pIadd h o) s = execPIadd h o s := rfl
theorem exec_pIsub h o (s : State) : exec (.pIsub h o) s = execPIsub h o s := rfl
theorem exec_pImul h o (s : State) : exec (.pImul h o) s = execPImul h o s := rfl
theorem exec_pIaddi h o (s : State) : exec (.pIaddi h o) s = execPIaddi h o s := rfl
theorem exec_pAnd h o (s : State) : exec (.pAnd h o) s = execPAnd h o s := rfl
theorem exec_pOr h o (s : State) : exec (.pOr h o) s = execPOr h o s := rfl
theorem exec_pXor h o (s : State) : exec (.pXor h o) s = execPXor h o s := rfl
theorem exec_pAndn h o (s : State) : exec (.pAndn h o) s = execPAndn h o s := rfl
theorem exec_pShl h o (s : State) : exec (.pShl h o) s = execPShl h o s := rfl
theorem exec_pShr h o (s : State) : exec (.pShr h o) s = execPShr h o s := rfl
theorem exec_pSar h o (s : State) : exec (.pSar h o) s = execPSar h o s := rfl
theorem exec_pImin h o (s : State) : exec (.pImin h o) s = execPImin h o s := rfl
theorem exec_pImax h o (s : State) : exec (.pImax h o) s = execPImax h o s := rfl
theorem exec_pRotr h o (s : State) : exec (.pRotr h o) s = execPRotr h o s := rfl
theorem exec_pFadd h o (s : State) : exec (.pFadd h o) s = execPFadd h o s := rfl
theorem exec_pFsub h o (s : State) : exec (.pFsub h o) s = execPFsub h o s := rfl
theorem exec_pFmul h o (s : State) : exec (.pFmul h o) s = execPFmul h o s := rfl
theorem exec_pFmin h o (s : State) : exec (.pFmin h o) s = execPFmin h o s := rfl
theorem exec_pFmax h o (s : State) : exec (.pFmax h o) s = execPFmax h o s := rfl
theorem exec_pHadd2 h o (s : State) : exec (.pHadd2 h o) s = execPHadd2 h o s := rfl
theorem exec_pHmul2 h o (s : State) : exec (.pHmul2 h o) s = execPHmul2 h o s := rfl
theorem exec_pClz h o (s : State) : exec (.pClz h o) s = execPClz h o s := rfl
theorem exec_ld x (s : State) : exec (.ld x) s = execLd x s := rfl
theorem exec_st x (s : State) : exec (.st x) s = execSt x s := rfl
theorem exec_lds x (s : State) : exec (.lds x) s = execLds x s := rfl
theorem exec_sts x (s : State) : exec (.sts x) s = execSts x s := rfl
theorem exec_ldw x (s : State) : exec (.ldw x) s = execLdw x s := rfl
theorem exec_stw x (s : State) : exec (.stw x) s = execStw x s := rfl
theorem exec_ldc x (s : State) : exec (.ldc x) s = execLdc x s := rfl
theorem exec_pref x (s : State) : exec (.pref x) s = execPref x s := rfl
theorem exec_cflsh x (s : State) : exec (.cflsh x) s = execCflsh x s := rfl
theorem exec_cinv x (s : State) : exec (.cinv x) s = execCinv x s := rfl
theorem exec_fence scope kind (s : State) : exec (.fence scope kind) s = execFence scope kind s := rfl
theorem exec_waitc mask t (s : State) : exec (.waitc mask t) s = execWaitc mask t s := rfl
theorem exec_atomAdd x (s : State) : exec (.atomAdd x) s = execAtomAdd x s := rfl
theorem exec_atomMin x (s : State) : exec (.atomMin x) s = execAtomMin x s := rfl
theorem exec_atomMax x (s : State) : exec (.atomMax x) s = execAtomMax x s := rfl
theorem exec_atomAnd x (s : State) : exec (.atomAnd x) s = execAtomAnd x s := rfl
theorem exec_atomOr x (s : State) : exec (.atomOr x) s = execAtomOr x s := rfl
theorem exec_atomXor x (s : State) : exec (.atomXor x) s = execAtomXor x s := rfl
theorem exec_atomExch x (s : State) : exec (.atomExch x) s = execAtomExch x s := rfl
theorem exec_atomCas x (s : State) : exec (.atomCas x) s = execAtomCas x s := rfl
theorem exec_atomFadd x (s : State) : exec (.atomFadd x) s = execAtomFadd x s := rfl
theorem exec_atomsAdd x (s : State) : exec (.atomsAdd x) s = execAtomsAdd x s := rfl
theorem exec_atomsMin x (s : State) : exec (.atomsMin x) s = execAtomsMin x s := rfl
theorem exec_atomsMax x (s : State) : exec (.atomsMax x) s = execAtomsMax x s := rfl
theorem exec_atomsAnd x (s : State) : exec (.atomsAnd x) s = execAtomsAnd x s := rfl
theorem exec_atomsOr x (s : State) : exec (.atomsOr x) s = execAtomsOr x s := rfl
theorem exec_atomsXor x (s : State) : exec (.atomsXor x) s = execAtomsXor x s := rfl
theorem exec_atomsExch x (s : State) : exec (.atomsExch x) s = execAtomsExch x s := rfl
theorem exec_atomsCas x (s : State) : exec (.atomsCas x) s = execAtomsCas x s := rfl
theorem exec_atomsFadd x (s : State) : exec (.atomsFadd x) s = execAtomsFadd x s := rfl
theorem exec_rld x (s : State) : exec (.rld x) s = execRld x s := rfl
theorem exec_rst x (s : State) : exec (.rst x) s = execRst x s := rfl
theorem exec_rstf x (s : State) : exec (.rstf x) s = execRstf x s := rfl
theorem exec_ratomAdd x (s : State) : exec (.ratomAdd x) s = execRatomAdd x s := rfl
theorem exec_ratomMin x (s : State) : exec (.ratomMin x) s = execRatomMin x s := rfl
theorem exec_ratomMax x (s : State) : exec (.ratomMax x) s = execRatomMax x s := rfl
theorem exec_ratomAnd x (s : State) : exec (.ratomAnd x) s = execRatomAnd x s := rfl
theorem exec_ratomOr x (s : State) : exec (.ratomOr x) s = execRatomOr x s := rfl
theorem exec_ratomXor x (s : State) : exec (.ratomXor x) s = execRatomXor x s := rfl
theorem exec_ratomExch x (s : State) : exec (.ratomExch x) s = execRatomExch x s := rfl
theorem exec_ratomCas x (s : State) : exec (.ratomCas x) s = execRatomCas x s := rfl
theorem exec_ratomFadd x (s : State) : exec (.ratomFadd x) s = execRatomFadd x s := rfl
theorem exec_copy x (s : State) : exec (.copy x) s = execCopy x s := rfl
theorem exec_copy2 x (s : State) : exec (.copy2 x) s = execCopy2 x s := rfl
theorem exec_copyf x (s : State) : exec (.copyf x) s = execCopyf x s := rfl
theorem exec_copyw x (s : State) : exec (.copyw x) s = execCopyw x s := rfl
theorem exec_copyr x (s : State) : exec (.copyr x) s = execCopyr x s := rfl
theorem exec_cprog d a (s : State) : exec (.cprog d a) s = execCprog d a s := rfl
theorem exec_ckill d a (s : State) : exec (.ckill d a) s = execCkill d a s := rfl
theorem exec_publ d a (s : State) : exec (.publ d a) s = execPubl d a s := rfl
theorem exec_harn n a (s : State) : exec (.harn n a) s = execHarn n a s := rfl
theorem exec_mpass x (s : State) : exec (.mpass x) s = execMpass x s := rfl
theorem exec_mspass x (s : State) : exec (.mspass x) s = execMspass x s := rfl
theorem exec_mlut x (s : State) : exec (.mlut x) s = execMlut x s := rfl
theorem exec_accrd x (s : State) : exec (.accrd x) s = execAccrd x s := rfl
theorem exec_accwr x (s : State) : exec (.accwr x) s = execAccwr x s := rfl
theorem exec_accz kind t (s : State) : exec (.accz kind t) s = execAccz kind t s := rfl
theorem exec_mprog d a (s : State) : exec (.mprog d a) s = execMprog d a s := rfl
theorem exec_mprogW d a b (s : State) : exec (.mprogW d a b) s = execMprogW d a b s := rfl
theorem exec_skupd x (s : State) : exec (.skupd x) s = execSkupd x s := rfl
theorem exec_skqry x (s : State) : exec (.skqry x) s = execSkqry x s := rfl
theorem exec_skadd a b (s : State) : exec (.skadd a b) s = execSkadd a b s := rfl
theorem exec_skclr a (s : State) : exec (.skclr a) s = execSkclr a s := rfl
theorem exec_tdec a b (s : State) : exec (.tdec a b) s = execTdec a b s := rfl
theorem exec_twait p a b c (s : State) : exec (.twait p a b c) s = execTwait p a b c s := rfl
theorem exec_flgw x (s : State) : exec (.flgw x) s = execFlgw x s := rfl
theorem exec_bkw p a c (s : State) : exec (.bkw p a c) s = execBkw p a c s := rfl
theorem exec_bkarm d a b (s : State) : exec (.bkarm d a b) s = execBkarm d a b s := rfl
theorem exec_bkarmOff d a (s : State) : exec (.bkarmOff d a) s = execBkarmOff d a s := rfl
theorem exec_lnch d a b (s : State) : exec (.lnch d a b) s = execLnch d a b s := rfl
theorem exec_reln x (s : State) : exec (.reln x) s = execReln x s := rfl
theorem exec_csrr d csr (s : State) : exec (.csrr d csr) s = execCsrr d csr s := rfl
theorem exec_csrw csr a (s : State) : exec (.csrw csr a) s = execCsrw csr a s := rfl
theorem exec_tlbiVa sreg (s : State) : exec (.tlbiVa sreg) s = execTlbiVa sreg s := rfl
theorem exec_fret d a b (s : State) : exec (.fret d a b) s = execFret d a b s := rfl
theorem exec_fctxBind d a b (s : State) : exec (.fctxBind d a b) s = execFctxBind d a b s := rfl
theorem exec_fctxUnbind d a b (s : State) : exec (.fctxUnbind d a b) s = execFctxUnbind d a b s := rfl
theorem exec_fswpOut d a b (s : State) : exec (.fswpOut d a b) s = execFswpOut d a b s := rfl
theorem exec_fswpIn d a b (s : State) : exec (.fswpIn d a b) s = execFswpIn d a b s := rfl
theorem exec_bar id n (s : State) : exec (.bar id n) s = execBar id n s := rfl
theorem exec_bara d id n (s : State) : exec (.bara d id n) s = execBara d id n s := rfl
theorem exec_barw a id clu (s : State) : exec (.barw a id clu) s = execBarw a id clu s := rfl
theorem exec_cbar d id n (s : State) : exec (.cbar d id n) s = execCbar d id n s := rfl
theorem exec_nldv x (s : State) : exec (.nldv x) s = execNldv x s := rfl
theorem exec_nstv x (s : State) : exec (.nstv x) s = execNstv x s := rfl
theorem exec_nadd x (s : State) : exec (.nadd x) s = execNadd x s := rfl
theorem exec_nsub x (s : State) : exec (.nsub x) s = execNsub x s := rfl
theorem exec_nmul x (s : State) : exec (.nmul x) s = execNmul x s := rfl
theorem exec_nfma x (s : State) : exec (.nfma x) s = execNfma x s := rfl
theorem exec_nmin x (s : State) : exec (.nmin x) s = execNmin x s := rfl
theorem exec_nmax x (s : State) : exec (.nmax x) s = execNmax x s := rfl
theorem exec_nrsq gd ga (s : State) : exec (.nrsq gd ga) s = execNrsq gd ga s := rfl
theorem exec_ncvt gd ga kind rnd (s : State) : exec (.ncvt gd ga kind rnd) s = execNcvt gd ga kind rnd s := rfl
theorem exec_nsku g ak ad n (s : State) : exec (.nsku g ak ad n) s = execNsku g ak ad n s := rfl
theorem exec_nskq g ak ad n (s : State) : exec (.nskq g ak ad n) s = execNskq g ak ad n s := rfl
theorem exec_nska ad as (s : State) : exec (.nska ad as) s = execNska ad as s := rfl
theorem exec_nskc ad (s : State) : exec (.nskc ad) s = execNskc ad s := rfl
theorem exec_nsetImm gd imm (s : State) : exec (.nsetImm gd imm) s = execNsetImm gd imm s := rfl
theorem exec_nsetReg gd a (s : State) : exec (.nsetReg gd a) s = execNsetReg gd a s := rfl
theorem exec_naddi ad as sh imm (s : State) : exec (.naddi ad as sh imm) s = execNaddi ad as sh imm s := rfl
theorem exec_nloopImm count off (s : State) : exec (.nloopImm count off) s = execNloopImm count off s := rfl
theorem exec_nloopReg a off (s : State) : exec (.nloopReg a off) s = execNloopReg a off s := rfl
theorem exec_nbra cond a off (s : State) : exec (.nbra cond a off) s = execNbra cond a off s := rfl
theorem exec_nwait a b (s : State) : exec (.nwait a b) s = execNwait a b s := rfl
theorem exec_nsig a (s : State) : exec (.nsig a) s = execNsig a s := rfl
theorem exec_movqReg qd qa (s : State) : exec (.movqReg qd qa) s = execMovqReg qd qa s := rfl
theorem exec_movqImm qd imm (s : State) : exec (.movqImm qd imm) s = execMovqImm qd imm s := rfl
theorem exec_addqReg qd qa qb (s : State) : exec (.addqReg qd qa qb) s = execAddqReg qd qa qb s := rfl
theorem exec_addqImm qd qa imm (s : State) : exec (.addqImm qd qa imm) s = execAddqImm qd qa imm s := rfl
theorem exec_subqReg qd qa qb (s : State) : exec (.subqReg qd qa qb) s = execSubqReg qd qa qb s := rfl
theorem exec_subqImm qd qa imm (s : State) : exec (.subqImm qd qa imm) s = execSubqImm qd qa imm s := rfl
theorem exec_cmpqReg cc qa qb (s : State) : exec (.cmpqReg cc qa qb) s = execCmpqReg cc qa qb s := rfl
theorem exec_cmpqImm cc qa imm (s : State) : exec (.cmpqImm cc qa imm) s = execCmpqImm cc qa imm s := rfl
theorem exec_brq nz qa off (s : State) : exec (.brq nz qa off) s = execBrq nz qa off s := rfl
theorem exec_brc cond off (s : State) : exec (.brc cond off) s = execBrc cond off s := rfl
theorem exec_creq qd qa (s : State) : exec (.creq qd qa) s = execCreq qd qa s := rfl
theorem exec_cwait tgt qd qa qb (s : State) : exec (.cwait tgt qd qa qb) s = execCwait tgt qd qa qb s := rfl
theorem exec_crel qa (s : State) : exec (.crel qa) s = execCrel qa s := rfl
theorem exec_cstat qd qa (s : State) : exec (.cstat qd qa) s = execCstat qd qa s := rfl
theorem exec_buck qa qb (s : State) : exec (.buck qa qb) s = execBuck qa qb s := rfl
theorem exec_buckOff qa (s : State) : exec (.buckOff qa) s = execBuckOff qa s := rfl
theorem exec_park qa qb (s : State) : exec (.park qa qb) s = execPark qa qb s := rfl
theorem exec_wake qa qb (s : State) : exec (.wake qa qb) s = execWake qa qb s := rfl
theorem exec_setw qa qb (s : State) : exec (.setw qa qb) s = execSetw qa qb s := rfl
theorem exec_msg qa qb (s : State) : exec (.msg qa qb) s = execMsg qa qb s := rfl
theorem exec_mrcv qd qa qb (s : State) : exec (.mrcv qd qa qb) s = execMrcv qd qa qb s := rfl
theorem exec_tsig qa qb (s : State) : exec (.tsig qa qb) s = execTsig qa qb s := rfl
theorem exec_twt qa qb qc (s : State) : exec (.twt qa qb qc) s = execTwt qa qb qc s := rfl
theorem exec_time qd (s : State) : exec (.time qd) s = execTime qd s := rfl
theorem exec_dlyReg qa (s : State) : exec (.dlyReg qa) s = execDlyReg qa s := rfl
theorem exec_dlyImm us (s : State) : exec (.dlyImm us) s = execDlyImm us s := rfl
theorem exec_evt qa (s : State) : exec (.evt qa) s = execEvt qa s := rfl
theorem exec_lacz  (s : State) : exec .lacz s = execLacz s := rfl
theorem exec_regangRelease core slot addr (s : State) : exec (.regangRelease core slot addr) s = execRegangRelease core slot addr s := rfl
theorem exec_yield  (s : State) : exec .yield s = execYield s := rfl
theorem exec_nop  (s : State) : exec .nop s = execNop s := rfl
theorem exec_exit  (s : State) : exec .exit s = execExit s := rfl
theorem exec_racqGrant core (s : State) : exec (.racqGrant core) s = execRacqGrant core s := rfl
theorem exec_emergencyEpisode core (s : State) : exec (.emergencyEpisode core) s = execEmergencyEpisode core s := rfl
theorem exec_emergencyGrant core (s : State) : exec (.emergencyGrant core) s = execEmergencyGrant core s := rfl
theorem exec_rrelRelease core slot (s : State) : exec (.rrelRelease core slot) s = execRrelRelease core slot s := rfl
theorem exec_fenceComplete core slot id (s : State) : exec (.fenceComplete core slot id) s = execFenceComplete core slot id s := rfl
theorem exec_rfence  (s : State) : exec .rfence s = execRfence s := rfl
theorem exec_sketchReply id (s : State) : exec (.sketchReply id) s = execSketchReply id s := rfl
theorem exec_timedWaitAnswer core slot slice (s : State) : exec (.timedWaitAnswer core slot slice) s = execTimedWaitAnswer core slot slice s := rfl
theorem exec_timedWaitTimeout core slot slice (s : State) : exec (.timedWaitTimeout core slot slice) s = execTimedWaitTimeout core slot slice s := rfl
theorem exec_flgwHostPoll core slot slice (s : State) : exec (.flgwHostPoll core slot slice) s = execFlgwHostPoll core slot slice s := rfl
theorem exec_rcloseRetry ctx record (s : State) : exec (.rcloseRetry ctx record) s = execRcloseRetry ctx record s := rfl
theorem exec_rcloseSkip ctx record (s : State) : exec (.rcloseSkip ctx record) s = execRcloseSkip ctx record s := rfl
theorem exec_rcloseKillw ctx record (s : State) : exec (.rcloseKillw ctx record) s = execRcloseKillw ctx record s := rfl
theorem exec_rcloseKillc ctx record (s : State) : exec (.rcloseKillc ctx record) s = execRcloseKillc ctx record s := rfl
theorem exec_tlbiCtx  (s : State) : exec .tlbiCtx s = execTlbiCtx s := rfl
theorem exec_tlbiAll  (s : State) : exec .tlbiAll s = execTlbiAll s := rfl
theorem exec_tlbiComplete core slot id (s : State) : exec (.tlbiComplete core slot id) s = execTlbiComplete core slot id s := rfl
theorem exec_halt  (s : State) : exec .halt s = execHalt s := rfl
theorem exec_haltDev  (s : State) : exec .haltDev s = execHaltDev s := rfl
theorem exec_clusterBlockAssign launch cluster cores (s : State) : exec (.clusterBlockAssign launch cluster cores) s = execClusterBlockAssign launch cluster cores s := rfl
theorem exec_clusterBlockResident cb (s : State) : exec (.clusterBlockResident cb) s = execClusterBlockResident cb s := rfl
theorem exec_activeSetUpdate core (s : State) : exec (.activeSetUpdate core) s = execActiveSetUpdate core s := rfl
theorem exec_warpForced core slot (s : State) : exec (.warpForced core slot) s = execWarpForced core slot s := rfl
theorem exec_warpExited core slot (s : State) : exec (.warpExited core slot) s = execWarpExited core slot s := rfl
theorem exec_pageWalk cluster ctx va kind (s : State) : exec (.pageWalk cluster ctx va kind) s = execPageWalk cluster ctx va kind s := rfl
theorem exec_loadValueReturn id (s : State) : exec (.loadValueReturn id) s = execLoadValueReturn id s := rfl
theorem exec_storePerformed id (s : State) : exec (.storePerformed id) s = execStorePerformed id s := rfl
theorem exec_scratchpadAccess id (s : State) : exec (.scratchpadAccess id) s = execScratchpadAccess id s := rfl
theorem exec_homeAccess id part (s : State) : exec (.homeAccess id part) s = execHomeAccess id part s := rfl
theorem exec_hostAccess op (s : State) : exec (.hostAccess op) s = execHostAccess op s := rfl
theorem exec_barrierComplete b (s : State) : exec (.barrierComplete b) s = execBarrierComplete b s := rfl
theorem exec_taskDecrement  (s : State) : exec .taskDecrement s = execTaskDecrement s := rfl
theorem exec_copyTakeUp core (s : State) : exec (.copyTakeUp core) s = execCopyTakeUp core s := rfl
theorem exec_copyChunkIssue c (s : State) : exec (.copyChunkIssue c) s = execCopyChunkIssue c s := rfl
theorem exec_copyChunkPerformed c chunk (s : State) : exec (.copyChunkPerformed c chunk) s = execCopyChunkPerformed c chunk s := rfl
theorem exec_copyrChunkTimeout c chunk (s : State) : exec (.copyrChunkTimeout c chunk) s = execCopyrChunkTimeout c chunk s := rfl
theorem exec_drainlimExpiry ctx (s : State) : exec (.drainlimExpiry ctx) s = execDrainlimExpiry ctx s := rfl
theorem exec_passPost cluster harness (s : State) : exec (.passPost cluster harness) s = execPassPost cluster harness s := rfl
theorem exec_passGrant cluster (s : State) : exec (.passGrant cluster) s = execPassGrant cluster s := rfl
theorem exec_passKstepComplete cluster (s : State) : exec (.passKstepComplete cluster) s = execPassKstepComplete cluster s := rfl
theorem exec_nmuNodeLoad stack (s : State) : exec (.nmuNodeLoad stack) s = execNmuNodeLoad stack s := rfl
theorem exec_nmuProgramSave stack place (s : State) : exec (.nmuProgramSave stack place) s = execNmuProgramSave stack place s := rfl
theorem exec_nwaitRelease stack place (s : State) : exec (.nwaitRelease stack place) s = execNwaitRelease stack place s := rfl
theorem exec_nfence  (s : State) : exec .nfence s = execNfence s := rfl
theorem exec_nend  (s : State) : exec .nend s = execNend s := rfl
theorem exec_collectiveCheckExchange node nb (s : State) : exec (.collectiveCheckExchange node nb) s = execCollectiveCheckExchange node nb s := rfl
theorem exec_collectiveSegmentReceive node seg (s : State) : exec (.collectiveSegmentReceive node seg) s = execCollectiveSegmentReceive node seg s := rfl
theorem exec_launchSubmit ctx src pkt (s : State) : exec (.launchSubmit ctx src pkt) s = execLaunchSubmit ctx src pkt s := rfl
theorem exec_launchStart launch (s : State) : exec (.launchStart launch) s = execLaunchStart launch s := rfl
theorem exec_relaunchHeaderRead launch (s : State) : exec (.relaunchHeaderRead launch) s = execRelaunchHeaderRead launch s := rfl
theorem exec_launchEnd launch (s : State) : exec (.launchEnd launch) s = execLaunchEnd launch s := rfl
theorem exec_graphLoad launch (s : State) : exec (.graphLoad launch) s = execGraphLoad launch s := rfl
theorem exec_nodeStart slot index (s : State) : exec (.nodeStart slot index) s = execNodeStart slot index s := rfl
theorem exec_nodeEnd slot index (s : State) : exec (.nodeEnd slot index) s = execNodeEnd slot index s := rfl
theorem exec_graphComplete slot (s : State) : exec (.graphComplete slot) s = execGraphComplete slot s := rfl
theorem exec_launchRegisterInline q bytes (s : State) : exec (.launchRegisterInline q bytes) s = execLaunchRegisterInline q bytes s := rfl
theorem exec_launchRegisterDoorbell q bytes (s : State) : exec (.launchRegisterDoorbell q bytes) s = execLaunchRegisterDoorbell q bytes s := rfl
theorem exec_launchRegisterDrop q acc (s : State) : exec (.launchRegisterDrop q acc) s = execLaunchRegisterDrop q acc s := rfl
theorem exec_barRegisterWrite off value (s : State) : exec (.barRegisterWrite off value) s = execBarRegisterWrite off value s := rfl
theorem exec_packetConsume  (s : State) : exec .packetConsume s = execPacketConsume s := rfl
theorem exec_energyCharge q counts (s : State) : exec (.energyCharge q counts) s = execEnergyCharge q counts s := rfl
theorem exec_budgetRefill q (s : State) : exec (.budgetRefill q) s = execBudgetRefill q s := rfl
theorem exec_ctxCreate desc (s : State) : exec (.ctxCreate desc) s = execCtxCreate desc s := rfl
theorem exec_ctxBind ctx pmask unbind (s : State) : exec (.ctxBind ctx pmask unbind) s = execCtxBind ctx pmask unbind s := rfl
theorem exec_ctxDestroy ctx (s : State) : exec (.ctxDestroy ctx) s = execCtxDestroy ctx s := rfl
theorem exec_ctxPreempt ctx forced (s : State) : exec (.ctxPreempt ctx forced) s = execCtxPreempt ctx forced s := rfl
theorem exec_ctxRestore ctx (s : State) : exec (.ctxRestore ctx) s = execCtxRestore ctx s := rfl
theorem exec_grant ctx what (s : State) : exec (.grant ctx what) s = execGrant ctx what s := rfl
theorem exec_keyLoad id key (s : State) : exec (.keyLoad id key) s = execKeyLoad id key s := rfl
theorem exec_queueBind q desc (s : State) : exec (.queueBind q desc) s = execQueueBind q desc s := rfl
theorem exec_queueDestroy q (s : State) : exec (.queueDestroy q) s = execQueueDestroy q s := rfl
theorem exec_queueResume q (s : State) : exec (.queueResume q) s = execQueueResume q s := rfl
theorem exec_recordClose ctx record action (s : State) : exec (.recordClose ctx record action) s = execRecordClose ctx record action s := rfl
theorem exec_attest ctx nonce (s : State) : exec (.attest ctx nonce) s = execAttest ctx nonce s := rfl
theorem exec_ctxResume ctx (s : State) : exec (.ctxResume ctx) s = execCtxResume ctx s := rfl
theorem exec_handleBind ctx handle unbind sources (s : State) : exec (.handleBind ctx handle unbind sources) s = execHandleBind ctx handle unbind sources s := rfl
theorem exec_fmSources sources (s : State) : exec (.fmSources sources) s = execFmSources sources s := rfl
theorem exec_energyCoef coefs (s : State) : exec (.energyCoef coefs) s = execEnergyCoef coefs s := rfl
theorem exec_heldRecordWrite n (s : State) : exec (.heldRecordWrite n) s = execHeldRecordWrite n s := rfl
theorem exec_uncorrectableMemoryError pa (s : State) : exec (.uncorrectableMemoryError pa) s = execUncorrectableMemoryError pa s := rfl
theorem exec_residencyDecision  (s : State) : exec .residencyDecision s = execResidencyDecision s := rfl
theorem exec_gracelimExpiry ctx (s : State) : exec (.gracelimExpiry ctx) s = execGracelimExpiry ctx s := rfl
theorem exec_gracefulSave ctx (s : State) : exec (.gracefulSave ctx) s = execGracefulSave ctx s := rfl
theorem exec_partitionImageWritten part (s : State) : exec (.partitionImageWritten part) s = execPartitionImageWritten part s := rfl
theorem exec_imageMove part (s : State) : exec (.imageMove part) s = execImageMove part s := rfl
theorem exec_swapComplete ctx (s : State) : exec (.swapComplete ctx) s = execSwapComplete ctx s := rfl
theorem exec_deviceReset accepted (s : State) : exec (.deviceReset accepted) s = execDeviceReset accepted s := rfl
theorem exec_firmwareFaultRestart core slot (s : State) : exec (.firmwareFaultRestart core slot) s = execFirmwareFaultRestart core slot s := rfl
theorem exec_laneTrained lane port (s : State) : exec (.laneTrained lane port) s = execLaneTrained lane port s := rfl
theorem exec_laneDown lane (s : State) : exec (.laneDown lane) s = execLaneDown lane s := rfl
theorem exec_rldPacket h mask (s : State) : exec (.rldPacket h mask) s = execRldPacket h mask s := rfl
theorem exec_rstPacket h mask image (s : State) : exec (.rstPacket h mask image) s = execRstPacket h mask image s := rfl
theorem exec_rstfPacket h mask image flag (s : State) : exec (.rstfPacket h mask image flag) s = execRstfPacket h mask image flag s := rfl
theorem exec_ratomPacket h lanes (s : State) : exec (.ratomPacket h lanes) s = execRatomPacket h lanes s := rfl
theorem exec_remoteResponse h bytes results (s : State) : exec (.remoteResponse h bytes results) s = execRemoteResponse h bytes results s := rfl
theorem exec_remoteAcknowledgement h (s : State) : exec (.remoteAcknowledgement h) s = execRemoteAcknowledgement h s := rfl
theorem exec_remoteTimeout target tag (s : State) : exec (.remoteTimeout target tag) s = execRemoteTimeout target tag s := rfl
theorem exec_cratchMsg h mailbox value (s : State) : exec (.cratchMsg h mailbox value) s = execCratchMsg h mailbox value s := rfl
theorem exec_managementRead h port off (s : State) : exec (.managementRead h port off) s = execManagementRead h port off s := rfl
theorem exec_managementWrite h off value (s : State) : exec (.managementWrite h off value) s = execManagementWrite h off value s := rfl
theorem exec_dataFlit port bytes (s : State) : exec (.dataFlit port bytes) s = execDataFlit port bytes s := rfl
theorem exec_acknowledgementFlit port bytes (s : State) : exec (.acknowledgementFlit port bytes) s = execAcknowledgementFlit port bytes s := rfl
theorem exec_replay port seq (s : State) : exec (.replay port seq) s = execReplay port seq s := rfl
theorem exec_replayTimeout port (s : State) : exec (.replayTimeout port) s = execReplayTimeout port s := rfl
theorem exec_controlFlitRepeat port (s : State) : exec (.controlFlitRepeat port) s = execControlFlitRepeat port s := rfl
theorem exec_restripe port byTx stripe seq (s : State) : exec (.restripe port byTx stripe seq) s = execRestripe port byTx stripe seq s := rfl
theorem exec_restripeAck port byTx (s : State) : exec (.restripeAck port byTx) s = execRestripeAck port byTx s := rfl
theorem exec_wakeReady port stripe (s : State) : exec (.wakeReady port stripe) s = execWakeReady port stripe s := rfl
theorem exec_chunkDone port handle frame (s : State) : exec (.chunkDone port handle frame) s = execChunkDone port handle frame s := rfl
theorem exec_close port (s : State) : exec (.close port) s = execClose port s := rfl
theorem exec_portFail port (s : State) : exec (.portFail port) s = execPortFail port s := rfl
theorem exec_lossOfLight port lost reverseLit (s : State) : exec (.lossOfLight port lost reverseLit) s = execLossOfLight port lost reverseLit s := rfl
theorem exec_receiveSilence port (s : State) : exec (.receiveSilence port) s = execReceiveSilence port s := rfl
theorem exec_wakeLock port channel locked (s : State) : exec (.wakeLock port channel locked) s = execWakeLock port channel locked s := rfl
theorem exec_wakeTimeout port channel (s : State) : exec (.wakeTimeout port channel) s = execWakeTimeout port channel s := rfl
theorem exec_lightReturns port wl rx (s : State) : exec (.lightReturns port wl rx) s = execLightReturns port wl rx s := rfl
theorem exec_autoWake port (s : State) : exec (.autoWake port) s = execAutoWake port s := rfl
theorem exec_laserRefresh port channel x (s : State) : exec (.laserRefresh port channel x) s = execLaserRefresh port channel x s := rfl
theorem exec_controllerGrant m (s : State) : exec (.controllerGrant m) s = execControllerGrant m s := rfl
theorem exec_controllerDeny m (s : State) : exec (.controllerDeny m) s = execControllerDeny m s := rfl
theorem exec_controllerFail m (s : State) : exec (.controllerFail m) s = execControllerFail m s := rfl
theorem exec_controllerReleased m (s : State) : exec (.controllerReleased m) s = execControllerReleased m s := rfl
theorem exec_requestSilence port (s : State) : exec (.requestSilence port) s = execRequestSilence port s := rfl
theorem exec_portLocked port (s : State) : exec (.portLocked port) s = execPortLocked port s := rfl
theorem exec_lockTimeout port (s : State) : exec (.lockTimeout port) s = execLockTimeout port s := rfl
theorem exec_portTrained port peer tx rx (s : State) : exec (.portTrained port peer tx rx) s = execPortTrained port peer tx rx s := rfl
theorem exec_portLive port (s : State) : exec (.portLive port) s = execPortLive port s := rfl
theorem exec_portDrained port (s : State) : exec (.portDrained port) s = execPortDrained port s := rfl
theorem exec_drainTimeout port (s : State) : exec (.drainTimeout port) s = execDrainTimeout port s := rfl
theorem exec_scriptStart  (s : State) : exec .scriptStart s = execScriptStart s := rfl
theorem exec_cratchWaitEnd place (s : State) : exec (.cratchWaitEnd place) s = execCratchWaitEnd place s := rfl
theorem exec_endScript  (s : State) : exec .endScript s = execEndScript s := rfl
theorem exec_fullService  (s : State) : exec .fullService s = execFullService s := rfl
theorem exec_queueRelease q (s : State) : exec (.queueRelease q) s = execQueueRelease q s := rfl

end Sys2Proof.Machine
end

