-- ==== Sys2Proof/Laws/SMap.lean ====
section
/-! SUPPORT. Laws of the sorted maps: reading after a write, and the canonical form that every operation keeps. -/

namespace Sys2Proof.Machine

variable {α : Type}

/-! ## Reading after a write -/

@[simp] theorem mget_nil (k : Nat) : mget ([] : SMap α) k = none := rfl

theorem mget_mset (m : SMap α) (k j : Nat) (v : α) : mget (mset m k v) j = if k = j then some v else mget m j := by
  induction m with
  | nil => simp [mset, mget]
  | cons p t ih =>
    obtain ⟨k', v'⟩ := p
    simp only [mset]
    split
    · simp only [mget]
    · split
      · subst_vars; simp only [mget]; split <;> rfl
      · simp only [mget, ih]
        by_cases hj : k' = j
        · subst hj; simp_all
        · simp [hj]

@[simp] theorem mget_mset_self (m : SMap α) (k : Nat) (v : α) : mget (mset m k v) k = some v := by simp [mget_mset]

theorem mget_mset_ne (m : SMap α) {k j : Nat} (v : α) (h : k ≠ j) : mget (mset m k v) j = mget m j := by simp [mget_mset, h]

theorem mget_mdel (m : SMap α) (k j : Nat) : mget (mdel m k) j = if k = j then none else mget m j := by
  induction m with
  | nil => simp [mdel]
  | cons p t ih =>
    obtain ⟨k', v'⟩ := p
    simp only [mdel]
    by_cases h : k' = k
    · subst h
      rw [if_pos rfl, ih]
      simp only [mget]
      by_cases hj : k' = j <;> simp [hj]
    · rw [if_neg h]
      simp only [mget, ih]
      by_cases hj : k' = j
      · subst hj; simp [Ne.symm h]
      · simp [hj]

theorem mgetD_mput [DecidableEq α] (d : α) (m : SMap α) (k j : Nat) (v : α) :
    mgetD (mput d m k v) j d = if k = j then v else mgetD m j d := by
  unfold mput mgetD
  by_cases h : v = d
  · subst h; simp only [if_pos, mget_mdel]; split <;> rfl
  · simp only [if_neg h, mget_mset]; split <;> rfl

@[simp] theorem mgetD_mput_self [DecidableEq α] (d : α) (m : SMap α) (k : Nat) (v : α) : mgetD (mput d m k v) k d = v := by
  simp [mgetD_mput]

theorem mget_madj (m : SMap α) (k j : Nat) (f : α → α) : mget (madj m k f) j = if k = j then (mget m k).map f else mget m j := by
  unfold madj
  cases h : mget m k with
  | none => by_cases hj : k = j <;> simp_all
  | some v => simp [mget_mset]

/-! ## The canonical form -/

theorem keysAbove_of_lt {a b : Nat} {m : SMap α} (h : a ≤ b) (hm : keysAbove b m = true) : keysAbove a m = true := by
  cases m with
  | nil => rfl
  | cons p t => obtain ⟨k, v⟩ := p; simp only [keysAbove, Bool.and_eq_true, decide_eq_true_eq] at *; exact ⟨by omega, hm.2⟩

theorem mapWf_of_keysAbove {a : Nat} {m : SMap α} (h : keysAbove a m = true) : mapWf m = true := by
  cases m with
  | nil => rfl
  | cons p t => obtain ⟨k, v⟩ := p; simp only [keysAbove, mapWf, Bool.and_eq_true] at *; exact h.2

theorem keysAbove_mset {a k : Nat} {m : SMap α} (v : α) (ha : a < k) (hm : keysAbove a m = true) :
    keysAbove a (mset m k v) = true := by
  induction m generalizing a with
  | nil => simp [mset, keysAbove, ha]
  | cons p t ih =>
    obtain ⟨k', v'⟩ := p
    simp only [keysAbove, Bool.and_eq_true, decide_eq_true_eq] at hm
    simp only [mset]
    split
    · simp only [keysAbove, Bool.and_eq_true, decide_eq_true_eq]; exact ⟨ha, ‹_›, hm.2⟩
    · split
      · subst_vars; simp only [keysAbove, Bool.and_eq_true, decide_eq_true_eq]; exact ⟨ha, hm.2⟩
      · simp only [keysAbove, Bool.and_eq_true, decide_eq_true_eq]; exact ⟨hm.1, ih (by omega) hm.2⟩

theorem mapWf_mset {m : SMap α} (k : Nat) (v : α) (hm : mapWf m = true) : mapWf (mset m k v) = true := by
  cases m with
  | nil => rfl
  | cons p t =>
    obtain ⟨k', v'⟩ := p
    simp only [mapWf] at hm
    simp only [mset]
    split
    · simp only [mapWf, keysAbove, Bool.and_eq_true, decide_eq_true_eq]; exact ⟨‹_›, hm⟩
    · split
      · subst_vars; exact hm
      · simp only [mapWf]; exact keysAbove_mset v (by omega) hm

theorem keysAbove_mdel {a : Nat} {m : SMap α} (k : Nat) (hm : keysAbove a m = true) : keysAbove a (mdel m k) = true := by
  induction m generalizing a with
  | nil => rfl
  | cons p t ih =>
    obtain ⟨k', v'⟩ := p
    simp only [keysAbove, Bool.and_eq_true, decide_eq_true_eq] at hm
    simp only [mdel]
    split
    · exact ih (keysAbove_of_lt (by omega) hm.2)
    · simp only [keysAbove, Bool.and_eq_true, decide_eq_true_eq]; exact ⟨hm.1, ih hm.2⟩

theorem mapWf_mdel {m : SMap α} (k : Nat) (hm : mapWf m = true) : mapWf (mdel m k) = true := by
  cases m with
  | nil => rfl
  | cons p t =>
    obtain ⟨k', v'⟩ := p
    simp only [mapWf] at hm
    simp only [mdel]
    split
    · exact mapWf_of_keysAbove (keysAbove_mdel k hm)
    · simp only [mapWf]; exact keysAbove_mdel k hm

theorem keysAbove_filter {a : Nat} {m : SMap α} (p : Nat × α → Bool) (hm : keysAbove a m = true) :
    keysAbove a (m.filter p) = true := by
  induction m generalizing a with
  | nil => rfl
  | cons q t ih =>
    obtain ⟨k', v'⟩ := q
    simp only [keysAbove, Bool.and_eq_true, decide_eq_true_eq] at hm
    simp only [List.filter]
    split
    · simp only [keysAbove, Bool.and_eq_true, decide_eq_true_eq]; exact ⟨hm.1, ih hm.2⟩
    · exact ih (keysAbove_of_lt (by omega) hm.2)

theorem mapWf_filter {m : SMap α} (p : Nat × α → Bool) (hm : mapWf m = true) : mapWf (m.filter p) = true := by
  cases m with
  | nil => rfl
  | cons q t =>
    obtain ⟨k', v'⟩ := q
    simp only [mapWf] at hm
    simp only [List.filter]
    split
    · simp only [mapWf]; exact keysAbove_filter p hm
    · exact mapWf_of_keysAbove (keysAbove_filter p hm)

variable [DecidableEq α] {d : α}

theorem noDefault_mset {m : SMap α} (k : Nat) {v : α} (hv : v ≠ d) (hm : noDefault d m = true) : noDefault d (mset m k v) = true := by
  induction m with
  | nil => simp [mset, noDefault, hv]
  | cons p t ih =>
    obtain ⟨k', v'⟩ := p
    simp only [noDefault, Bool.and_eq_true, decide_eq_true_eq] at hm
    simp only [mset]
    split
    · simp only [noDefault, Bool.and_eq_true, decide_eq_true_eq]; exact ⟨hv, hm.1, hm.2⟩
    · split
      · simp only [noDefault, Bool.and_eq_true, decide_eq_true_eq]; exact ⟨hv, hm.2⟩
      · simp only [noDefault, Bool.and_eq_true, decide_eq_true_eq]; exact ⟨hm.1, ih hm.2⟩

theorem noDefault_mdel {m : SMap α} (k : Nat) (hm : noDefault d m = true) : noDefault d (mdel m k) = true := by
  induction m with
  | nil => rfl
  | cons p t ih =>
    obtain ⟨k', v'⟩ := p
    simp only [noDefault, Bool.and_eq_true, decide_eq_true_eq] at hm
    simp only [mdel]
    split
    · exact ih hm.2
    · simp only [noDefault, Bool.and_eq_true, decide_eq_true_eq]; exact ⟨hm.1, ih hm.2⟩

theorem noDefault_filter {m : SMap α} (p : Nat × α → Bool) (hm : noDefault d m = true) : noDefault d (m.filter p) = true := by
  induction m with
  | nil => rfl
  | cons q t ih =>
    obtain ⟨k', v'⟩ := q
    simp only [noDefault, Bool.and_eq_true, decide_eq_true_eq] at hm
    simp only [List.filter]
    split
    · simp only [noDefault, Bool.and_eq_true, decide_eq_true_eq]; exact ⟨hm.1, ih hm.2⟩
    · exact ih hm.2

theorem mapWf_mput {m : SMap α} (k : Nat) (v : α) (hm : mapWf m = true) : mapWf (mput d m k v) = true := by
  unfold mput; split
  · exact mapWf_mdel k hm
  · exact mapWf_mset k v hm

theorem noDefault_mput {m : SMap α} (k : Nat) (v : α) (hm : noDefault d m = true) : noDefault d (mput d m k v) = true := by
  unfold mput; split
  · exact noDefault_mdel k hm
  · exact noDefault_mset k ‹_› hm

/-! ## The least element -/

theorem leastBy_stay (f : α → Nat) (l : List α) (x : α) (h : ∀ a ∈ l, a ≠ x → f x < f a) :
    l.foldl (fun b a => match b with | some c => if f a < f c then some a else b | none => some a) (some x) = some x := by
  induction l with
  | nil => rfl
  | cons a t ih =>
    rw [List.foldl_cons]
    have : ¬ f a < f x := by
      by_cases e : a = x
      · rw [e]; omega
      · have := h a (by simp) e; omega
    dsimp only; rw [if_neg this]; exact ih (fun b hb => h b (by simp [hb]))

theorem leastBy_go (f : α → Nat) (l : List α) (x : α) (acc : Option α) (ha : ∀ y, acc = some y → f x < f y) (hm : x ∈ l)
    (h : ∀ a ∈ l, a ≠ x → f x < f a) :
    l.foldl (fun b a => match b with | some c => if f a < f c then some a else b | none => some a) acc = some x := by
  induction l generalizing acc with
  | nil => simp at hm
  | cons a t ih =>
    rw [List.foldl_cons]
    by_cases e : a = x
    · subst e
      cases acc with
      | none => exact leastBy_stay f t a (fun b hb => h b (by simp [hb]))
      | some y => dsimp only; rw [if_pos (ha y rfl)]; exact leastBy_stay f t a (fun b hb => h b (by simp [hb]))
    · have h5 := h a (by simp) e
      have hm' : x ∈ t := (List.mem_cons.mp hm).resolve_left (fun q => e q.symm)
      refine ih _ ?_ hm' (fun b hb => h b (by simp [hb]))
      intro y hy
      cases acc with
      | none => cases hy; exact h5
      | some z =>
        dsimp only at hy
        split at hy
        · cases hy; exact h5
        · cases hy; exact ha _ rfl

/-- An element whose key is below every other's is the least. -/
theorem leastBy_eq (f : α → Nat) (l : List α) (x : α) (hm : x ∈ l) (h : ∀ a ∈ l, a ≠ x → f x < f a) : leastBy f l = some x :=
  leastBy_go f l x none (fun _ h => by cases h) hm h

/-- There is no least element of an empty list only. -/
theorem leastBy_nil (f : α → Nat) : leastBy f ([] : List α) = none := rfl

end Sys2Proof.Machine

namespace Sys2Proof.Machine.Memory

/-- A byte written keeps the canonical form of the memory. -/
theorem wf_mput {m : List Host.Cell} (a : Nat) (b : Byte) (h : wf m = true) : wf (mput 0 m a b) = true := by
  simp only [wf, Bool.and_eq_true] at *
  exact ⟨mapWf_mput a b h.1, noDefault_mput a b h.2⟩

/-- Bytes dropped keep the canonical form of the memory. -/
theorem wf_filter {m : List Host.Cell} (p : Host.Cell → Bool) (h : wf m = true) : wf (m.filter p) = true := by
  simp only [wf, Bool.and_eq_true] at *
  exact ⟨mapWf_filter p h.1, noDefault_filter p h.2⟩

end Sys2Proof.Machine.Memory
end

