-- ==== Sys2Proof/Laws/State.lean ====
section
/-! SUPPORT. What each elementary update leaves alone: one lemma per field of the state, true by unfolding, so that no later proof
unfolds a record update. -/

namespace Sys2Proof.Machine

variable (s : State)

/-! ## setCore -/

@[simp] theorem setCore_agenda (k : Nat) (c : Core) : (setCore s k c).agenda = s.agenda := rfl
@[simp] theorem setCore_cur (k : Nat) (c : Core) : (setCore s k c).cur = s.cur := rfl
@[simp] theorem setCore_freeCtr (k : Nat) (c : Core) : (setCore s k c).freeCtr = s.freeCtr := rfl
@[simp] theorem setCore_nextId (k : Nat) (c : Core) : (setCore s k c).nextId = s.nextId := rfl
@[simp] theorem setCore_cycle (k : Nat) (c : Core) : (setCore s k c).cycle = s.cycle := rfl
@[simp] theorem setCore_ns (k : Nat) (c : Core) : (setCore s k c).ns = s.ns := rfl
@[simp] theorem setCore_issues (k : Nat) (c : Core) : (setCore s k c).issues = s.issues := rfl
@[simp] theorem setCore_gen (k : Nat) (c : Core) : (setCore s k c).gen = s.gen := rfl
@[simp] theorem setCore_dev (k : Nat) (c : Core) : (setCore s k c).dev = s.dev := rfl
@[simp] theorem setCore_status (k : Nat) (c : Core) : (setCore s k c).status = s.status := rfl
@[simp] theorem setCore_haltDev (k : Nat) (c : Core) : (setCore s k c).haltDev = s.haltDev := rfl
@[simp] theorem setCore_mem (k : Nat) (c : Core) : (setCore s k c).mem = s.mem := rfl
@[simp] theorem setCore_keyTag (k : Nat) (c : Core) : (setCore s k c).keyTag = s.keyTag := rfl
@[simp] theorem setCore_olds (k : Nat) (c : Core) : (setCore s k c).olds = s.olds := rfl
@[simp] theorem setCore_keys (k : Nat) (c : Core) : (setCore s k c).keys = s.keys := rfl
@[simp] theorem setCore_epochs (k : Nat) (c : Core) : (setCore s k c).epochs = s.epochs := rfl
@[simp] theorem setCore_hallmarks (k : Nat) (c : Core) : (setCore s k c).hallmarks = s.hallmarks := rfl
@[simp] theorem setCore_l2 (k : Nat) (c : Core) : (setCore s k c).l2 = s.l2 := rfl
@[simp] theorem setCore_arrivals (k : Nat) (c : Core) : (setCore s k c).arrivals = s.arrivals := rfl
@[simp] theorem setCore_signals (k : Nat) (c : Core) : (setCore s k c).signals = s.signals := rfl
@[simp] theorem setCore_presence (k : Nat) (c : Core) : (setCore s k c).presence = s.presence := rfl
@[simp] theorem setCore_ccache (k : Nat) (c : Core) : (setCore s k c).ccache = s.ccache := rfl
@[simp] theorem setCore_tlb1 (k : Nat) (c : Core) : (setCore s k c).tlb1 = s.tlb1 := rfl
@[simp] theorem setCore_tlb2 (k : Nat) (c : Core) : (setCore s k c).tlb2 = s.tlb2 := rfl
@[simp] theorem setCore_therm (k : Nat) (c : Core) : (setCore s k c).therm = s.therm := rfl
@[simp] theorem setCore_clkstep (k : Nat) (c : Core) : (setCore s k c).clkstep = s.clkstep := rfl
@[simp] theorem setCore_ecoef (k : Nat) (c : Core) : (setCore s k c).ecoef = s.ecoef := rfl
@[simp] theorem setCore_payer (k : Nat) (c : Core) : (setCore s k c).payer = s.payer := rfl
@[simp] theorem setCore_charges (k : Nat) (c : Core) : (setCore s k c).charges = s.charges := rfl
@[simp] theorem setCore_hostHoles (k : Nat) (c : Core) : (setCore s k c).hostHoles = s.hostHoles := rfl
@[simp] theorem setCore_clusters (k : Nat) (c : Core) : (setCore s k c).clusters = s.clusters := rfl
@[simp] theorem setCore_txs (k : Nat) (c : Core) : (setCore s k c).txs = s.txs := rfl
@[simp] theorem setCore_blocks (k : Nat) (c : Core) : (setCore s k c).blocks = s.blocks := rfl
@[simp] theorem setCore_cbs (k : Nat) (c : Core) : (setCore s k c).cbs = s.cbs := rfl
@[simp] theorem setCore_launches (k : Nat) (c : Core) : (setCore s k c).launches = s.launches := rfl
@[simp] theorem setCore_graphs (k : Nat) (c : Core) : (setCore s k c).graphs = s.graphs := rfl
@[simp] theorem setCore_decrs (k : Nat) (c : Core) : (setCore s k c).decrs = s.decrs := rfl
@[simp] theorem setCore_channels (k : Nat) (c : Core) : (setCore s k c).channels = s.channels := rfl
@[simp] theorem setCore_buckets (k : Nat) (c : Core) : (setCore s k c).buckets = s.buckets := rfl
@[simp] theorem setCore_queues (k : Nat) (c : Core) : (setCore s k c).queues = s.queues := rfl
@[simp] theorem setCore_lastq (k : Nat) (c : Core) : (setCore s k c).lastq = s.lastq := rfl
@[simp] theorem setCore_nmus (k : Nat) (c : Core) : (setCore s k c).nmus = s.nmus := rfl
@[simp] theorem setCore_colls (k : Nat) (c : Core) : (setCore s k c).colls = s.colls := rfl
@[simp] theorem setCore_ctxs (k : Nat) (c : Core) : (setCore s k c).ctxs = s.ctxs := rfl
@[simp] theorem setCore_holder (k : Nat) (c : Core) : (setCore s k c).holder = s.holder := rfl
@[simp] theorem setCore_frameOwner (k : Nat) (c : Core) : (setCore s k c).frameOwner = s.frameOwner := rfl
@[simp] theorem setCore_heldRecords (k : Nat) (c : Core) : (setCore s k c).heldRecords = s.heldRecords := rfl
@[simp] theorem setCore_images (k : Nat) (c : Core) : (setCore s k c).images = s.images := rfl
@[simp] theorem setCore_handles (k : Nat) (c : Core) : (setCore s k c).handles = s.handles := rfl
@[simp] theorem setCore_fmSources (k : Nat) (c : Core) : (setCore s k c).fmSources = s.fmSources := rfl
@[simp] theorem setCore_mailboxSeq (k : Nat) (c : Core) : (setCore s k c).mailboxSeq = s.mailboxSeq := rfl
@[simp] theorem setCore_mailboxStatus (k : Nat) (c : Core) : (setCore s k c).mailboxStatus = s.mailboxStatus := rfl
@[simp] theorem setCore_mailboxReq (k : Nat) (c : Core) : (setCore s k c).mailboxReq = s.mailboxReq := rfl
@[simp] theorem setCore_lanes (k : Nat) (c : Core) : (setCore s k c).lanes = s.lanes := rfl
@[simp] theorem setCore_sentPkts (k : Nat) (c : Core) : (setCore s k c).sentPkts = s.sentPkts := rfl
@[simp] theorem setCore_reqs (k : Nat) (c : Core) : (setCore s k c).reqs = s.reqs := rfl
@[simp] theorem setCore_reqQueue (k : Nat) (c : Core) : (setCore s k c).reqQueue = s.reqQueue := rfl
@[simp] theorem setCore_tags (k : Nat) (c : Core) : (setCore s k c).tags = s.tags := rfl
@[simp] theorem setCore_sources (k : Nat) (c : Core) : (setCore s k c).sources = s.sources := rfl
@[simp] theorem setCore_flagWaits (k : Nat) (c : Core) : (setCore s k c).flagWaits = s.flagWaits := rfl
@[simp] theorem setCore_linkRing (k : Nat) (c : Core) : (setCore s k c).linkRing = s.linkRing := rfl
@[simp] theorem setCore_linkTail (k : Nat) (c : Core) : (setCore s k c).linkTail = s.linkTail := rfl
@[simp] theorem setCore_linkHeadHost (k : Nat) (c : Core) : (setCore s k c).linkHeadHost = s.linkHeadHost := rfl
@[simp] theorem setCore_linkHeadFm (k : Nat) (c : Core) : (setCore s k c).linkHeadFm = s.linkHeadFm := rfl
@[simp] theorem setCore_ports (k : Nat) (c : Core) : (setCore s k c).ports = s.ports := rfl
@[simp] theorem setCore_circuits (k : Nat) (c : Core) : (setCore s k c).circuits = s.circuits := rfl
@[simp] theorem setCore_buckles (k : Nat) (c : Core) : (setCore s k c).buckles = s.buckles := rfl
@[simp] theorem setCore_reqId (k : Nat) (c : Core) : (setCore s k c).reqId = s.reqId := rfl
@[simp] theorem setCore_scripts (k : Nat) (c : Core) : (setCore s k c).scripts = s.scripts := rfl
@[simp] theorem setCore_scriptQueue (k : Nat) (c : Core) : (setCore s k c).scriptQueue = s.scriptQueue := rfl
@[simp] theorem setCore_scriptLast (k : Nat) (c : Core) : (setCore s k c).scriptLast = s.scriptLast := rfl
@[simp] theorem setCore_outbox (k : Nat) (c : Core) : (setCore s k c).outbox = s.outbox := rfl

/-! ## setClust -/

@[simp] theorem setClust_agenda (k : Nat) (c : Cluster) : (setClust s k c).agenda = s.agenda := rfl
@[simp] theorem setClust_cur (k : Nat) (c : Cluster) : (setClust s k c).cur = s.cur := rfl
@[simp] theorem setClust_freeCtr (k : Nat) (c : Cluster) : (setClust s k c).freeCtr = s.freeCtr := rfl
@[simp] theorem setClust_nextId (k : Nat) (c : Cluster) : (setClust s k c).nextId = s.nextId := rfl
@[simp] theorem setClust_cycle (k : Nat) (c : Cluster) : (setClust s k c).cycle = s.cycle := rfl
@[simp] theorem setClust_ns (k : Nat) (c : Cluster) : (setClust s k c).ns = s.ns := rfl
@[simp] theorem setClust_issues (k : Nat) (c : Cluster) : (setClust s k c).issues = s.issues := rfl
@[simp] theorem setClust_gen (k : Nat) (c : Cluster) : (setClust s k c).gen = s.gen := rfl
@[simp] theorem setClust_dev (k : Nat) (c : Cluster) : (setClust s k c).dev = s.dev := rfl
@[simp] theorem setClust_status (k : Nat) (c : Cluster) : (setClust s k c).status = s.status := rfl
@[simp] theorem setClust_haltDev (k : Nat) (c : Cluster) : (setClust s k c).haltDev = s.haltDev := rfl
@[simp] theorem setClust_mem (k : Nat) (c : Cluster) : (setClust s k c).mem = s.mem := rfl
@[simp] theorem setClust_keyTag (k : Nat) (c : Cluster) : (setClust s k c).keyTag = s.keyTag := rfl
@[simp] theorem setClust_olds (k : Nat) (c : Cluster) : (setClust s k c).olds = s.olds := rfl
@[simp] theorem setClust_keys (k : Nat) (c : Cluster) : (setClust s k c).keys = s.keys := rfl
@[simp] theorem setClust_epochs (k : Nat) (c : Cluster) : (setClust s k c).epochs = s.epochs := rfl
@[simp] theorem setClust_hallmarks (k : Nat) (c : Cluster) : (setClust s k c).hallmarks = s.hallmarks := rfl
@[simp] theorem setClust_l2 (k : Nat) (c : Cluster) : (setClust s k c).l2 = s.l2 := rfl
@[simp] theorem setClust_arrivals (k : Nat) (c : Cluster) : (setClust s k c).arrivals = s.arrivals := rfl
@[simp] theorem setClust_signals (k : Nat) (c : Cluster) : (setClust s k c).signals = s.signals := rfl
@[simp] theorem setClust_presence (k : Nat) (c : Cluster) : (setClust s k c).presence = s.presence := rfl
@[simp] theorem setClust_ccache (k : Nat) (c : Cluster) : (setClust s k c).ccache = s.ccache := rfl
@[simp] theorem setClust_tlb1 (k : Nat) (c : Cluster) : (setClust s k c).tlb1 = s.tlb1 := rfl
@[simp] theorem setClust_tlb2 (k : Nat) (c : Cluster) : (setClust s k c).tlb2 = s.tlb2 := rfl
@[simp] theorem setClust_therm (k : Nat) (c : Cluster) : (setClust s k c).therm = s.therm := rfl
@[simp] theorem setClust_clkstep (k : Nat) (c : Cluster) : (setClust s k c).clkstep = s.clkstep := rfl
@[simp] theorem setClust_ecoef (k : Nat) (c : Cluster) : (setClust s k c).ecoef = s.ecoef := rfl
@[simp] theorem setClust_payer (k : Nat) (c : Cluster) : (setClust s k c).payer = s.payer := rfl
@[simp] theorem setClust_charges (k : Nat) (c : Cluster) : (setClust s k c).charges = s.charges := rfl
@[simp] theorem setClust_hostHoles (k : Nat) (c : Cluster) : (setClust s k c).hostHoles = s.hostHoles := rfl
@[simp] theorem setClust_cores (k : Nat) (c : Cluster) : (setClust s k c).cores = s.cores := rfl
@[simp] theorem setClust_txs (k : Nat) (c : Cluster) : (setClust s k c).txs = s.txs := rfl
@[simp] theorem setClust_blocks (k : Nat) (c : Cluster) : (setClust s k c).blocks = s.blocks := rfl
@[simp] theorem setClust_cbs (k : Nat) (c : Cluster) : (setClust s k c).cbs = s.cbs := rfl
@[simp] theorem setClust_launches (k : Nat) (c : Cluster) : (setClust s k c).launches = s.launches := rfl
@[simp] theorem setClust_graphs (k : Nat) (c : Cluster) : (setClust s k c).graphs = s.graphs := rfl
@[simp] theorem setClust_decrs (k : Nat) (c : Cluster) : (setClust s k c).decrs = s.decrs := rfl
@[simp] theorem setClust_channels (k : Nat) (c : Cluster) : (setClust s k c).channels = s.channels := rfl
@[simp] theorem setClust_buckets (k : Nat) (c : Cluster) : (setClust s k c).buckets = s.buckets := rfl
@[simp] theorem setClust_queues (k : Nat) (c : Cluster) : (setClust s k c).queues = s.queues := rfl
@[simp] theorem setClust_lastq (k : Nat) (c : Cluster) : (setClust s k c).lastq = s.lastq := rfl
@[simp] theorem setClust_nmus (k : Nat) (c : Cluster) : (setClust s k c).nmus = s.nmus := rfl
@[simp] theorem setClust_colls (k : Nat) (c : Cluster) : (setClust s k c).colls = s.colls := rfl
@[simp] theorem setClust_ctxs (k : Nat) (c : Cluster) : (setClust s k c).ctxs = s.ctxs := rfl
@[simp] theorem setClust_holder (k : Nat) (c : Cluster) : (setClust s k c).holder = s.holder := rfl
@[simp] theorem setClust_frameOwner (k : Nat) (c : Cluster) : (setClust s k c).frameOwner = s.frameOwner := rfl
@[simp] theorem setClust_heldRecords (k : Nat) (c : Cluster) : (setClust s k c).heldRecords = s.heldRecords := rfl
@[simp] theorem setClust_images (k : Nat) (c : Cluster) : (setClust s k c).images = s.images := rfl
@[simp] theorem setClust_handles (k : Nat) (c : Cluster) : (setClust s k c).handles = s.handles := rfl
@[simp] theorem setClust_fmSources (k : Nat) (c : Cluster) : (setClust s k c).fmSources = s.fmSources := rfl
@[simp] theorem setClust_mailboxSeq (k : Nat) (c : Cluster) : (setClust s k c).mailboxSeq = s.mailboxSeq := rfl
@[simp] theorem setClust_mailboxStatus (k : Nat) (c : Cluster) : (setClust s k c).mailboxStatus = s.mailboxStatus := rfl
@[simp] theorem setClust_mailboxReq (k : Nat) (c : Cluster) : (setClust s k c).mailboxReq = s.mailboxReq := rfl
@[simp] theorem setClust_lanes (k : Nat) (c : Cluster) : (setClust s k c).lanes = s.lanes := rfl
@[simp] theorem setClust_sentPkts (k : Nat) (c : Cluster) : (setClust s k c).sentPkts = s.sentPkts := rfl
@[simp] theorem setClust_reqs (k : Nat) (c : Cluster) : (setClust s k c).reqs = s.reqs := rfl
@[simp] theorem setClust_reqQueue (k : Nat) (c : Cluster) : (setClust s k c).reqQueue = s.reqQueue := rfl
@[simp] theorem setClust_tags (k : Nat) (c : Cluster) : (setClust s k c).tags = s.tags := rfl
@[simp] theorem setClust_sources (k : Nat) (c : Cluster) : (setClust s k c).sources = s.sources := rfl
@[simp] theorem setClust_flagWaits (k : Nat) (c : Cluster) : (setClust s k c).flagWaits = s.flagWaits := rfl
@[simp] theorem setClust_linkRing (k : Nat) (c : Cluster) : (setClust s k c).linkRing = s.linkRing := rfl
@[simp] theorem setClust_linkTail (k : Nat) (c : Cluster) : (setClust s k c).linkTail = s.linkTail := rfl
@[simp] theorem setClust_linkHeadHost (k : Nat) (c : Cluster) : (setClust s k c).linkHeadHost = s.linkHeadHost := rfl
@[simp] theorem setClust_linkHeadFm (k : Nat) (c : Cluster) : (setClust s k c).linkHeadFm = s.linkHeadFm := rfl
@[simp] theorem setClust_ports (k : Nat) (c : Cluster) : (setClust s k c).ports = s.ports := rfl
@[simp] theorem setClust_circuits (k : Nat) (c : Cluster) : (setClust s k c).circuits = s.circuits := rfl
@[simp] theorem setClust_buckles (k : Nat) (c : Cluster) : (setClust s k c).buckles = s.buckles := rfl
@[simp] theorem setClust_reqId (k : Nat) (c : Cluster) : (setClust s k c).reqId = s.reqId := rfl
@[simp] theorem setClust_scripts (k : Nat) (c : Cluster) : (setClust s k c).scripts = s.scripts := rfl
@[simp] theorem setClust_scriptQueue (k : Nat) (c : Cluster) : (setClust s k c).scriptQueue = s.scriptQueue := rfl
@[simp] theorem setClust_scriptLast (k : Nat) (c : Cluster) : (setClust s k c).scriptLast = s.scriptLast := rfl
@[simp] theorem setClust_outbox (k : Nat) (c : Cluster) : (setClust s k c).outbox = s.outbox := rfl

/-! ## updCore -/

@[simp] theorem updCore_agenda (k : Nat) (f : Core → Core) : (updCore s k f).agenda = s.agenda := rfl
@[simp] theorem updCore_cur (k : Nat) (f : Core → Core) : (updCore s k f).cur = s.cur := rfl
@[simp] theorem updCore_freeCtr (k : Nat) (f : Core → Core) : (updCore s k f).freeCtr = s.freeCtr := rfl
@[simp] theorem updCore_nextId (k : Nat) (f : Core → Core) : (updCore s k f).nextId = s.nextId := rfl
@[simp] theorem updCore_cycle (k : Nat) (f : Core → Core) : (updCore s k f).cycle = s.cycle := rfl
@[simp] theorem updCore_ns (k : Nat) (f : Core → Core) : (updCore s k f).ns = s.ns := rfl
@[simp] theorem updCore_issues (k : Nat) (f : Core → Core) : (updCore s k f).issues = s.issues := rfl
@[simp] theorem updCore_gen (k : Nat) (f : Core → Core) : (updCore s k f).gen = s.gen := rfl
@[simp] theorem updCore_dev (k : Nat) (f : Core → Core) : (updCore s k f).dev = s.dev := rfl
@[simp] theorem updCore_status (k : Nat) (f : Core → Core) : (updCore s k f).status = s.status := rfl
@[simp] theorem updCore_haltDev (k : Nat) (f : Core → Core) : (updCore s k f).haltDev = s.haltDev := rfl
@[simp] theorem updCore_mem (k : Nat) (f : Core → Core) : (updCore s k f).mem = s.mem := rfl
@[simp] theorem updCore_keyTag (k : Nat) (f : Core → Core) : (updCore s k f).keyTag = s.keyTag := rfl
@[simp] theorem updCore_olds (k : Nat) (f : Core → Core) : (updCore s k f).olds = s.olds := rfl
@[simp] theorem updCore_keys (k : Nat) (f : Core → Core) : (updCore s k f).keys = s.keys := rfl
@[simp] theorem updCore_epochs (k : Nat) (f : Core → Core) : (updCore s k f).epochs = s.epochs := rfl
@[simp] theorem updCore_hallmarks (k : Nat) (f : Core → Core) : (updCore s k f).hallmarks = s.hallmarks := rfl
@[simp] theorem updCore_l2 (k : Nat) (f : Core → Core) : (updCore s k f).l2 = s.l2 := rfl
@[simp] theorem updCore_arrivals (k : Nat) (f : Core → Core) : (updCore s k f).arrivals = s.arrivals := rfl
@[simp] theorem updCore_signals (k : Nat) (f : Core → Core) : (updCore s k f).signals = s.signals := rfl
@[simp] theorem updCore_presence (k : Nat) (f : Core → Core) : (updCore s k f).presence = s.presence := rfl
@[simp] theorem updCore_ccache (k : Nat) (f : Core → Core) : (updCore s k f).ccache = s.ccache := rfl
@[simp] theorem updCore_tlb1 (k : Nat) (f : Core → Core) : (updCore s k f).tlb1 = s.tlb1 := rfl
@[simp] theorem updCore_tlb2 (k : Nat) (f : Core → Core) : (updCore s k f).tlb2 = s.tlb2 := rfl
@[simp] theorem updCore_therm (k : Nat) (f : Core → Core) : (updCore s k f).therm = s.therm := rfl
@[simp] theorem updCore_clkstep (k : Nat) (f : Core → Core) : (updCore s k f).clkstep = s.clkstep := rfl
@[simp] theorem updCore_ecoef (k : Nat) (f : Core → Core) : (updCore s k f).ecoef = s.ecoef := rfl
@[simp] theorem updCore_payer (k : Nat) (f : Core → Core) : (updCore s k f).payer = s.payer := rfl
@[simp] theorem updCore_charges (k : Nat) (f : Core → Core) : (updCore s k f).charges = s.charges := rfl
@[simp] theorem updCore_hostHoles (k : Nat) (f : Core → Core) : (updCore s k f).hostHoles = s.hostHoles := rfl
@[simp] theorem updCore_clusters (k : Nat) (f : Core → Core) : (updCore s k f).clusters = s.clusters := rfl
@[simp] theorem updCore_txs (k : Nat) (f : Core → Core) : (updCore s k f).txs = s.txs := rfl
@[simp] theorem updCore_blocks (k : Nat) (f : Core → Core) : (updCore s k f).blocks = s.blocks := rfl
@[simp] theorem updCore_cbs (k : Nat) (f : Core → Core) : (updCore s k f).cbs = s.cbs := rfl
@[simp] theorem updCore_launches (k : Nat) (f : Core → Core) : (updCore s k f).launches = s.launches := rfl
@[simp] theorem updCore_graphs (k : Nat) (f : Core → Core) : (updCore s k f).graphs = s.graphs := rfl
@[simp] theorem updCore_decrs (k : Nat) (f : Core → Core) : (updCore s k f).decrs = s.decrs := rfl
@[simp] theorem updCore_channels (k : Nat) (f : Core → Core) : (updCore s k f).channels = s.channels := rfl
@[simp] theorem updCore_buckets (k : Nat) (f : Core → Core) : (updCore s k f).buckets = s.buckets := rfl
@[simp] theorem updCore_queues (k : Nat) (f : Core → Core) : (updCore s k f).queues = s.queues := rfl
@[simp] theorem updCore_lastq (k : Nat) (f : Core → Core) : (updCore s k f).lastq = s.lastq := rfl
@[simp] theorem updCore_nmus (k : Nat) (f : Core → Core) : (updCore s k f).nmus = s.nmus := rfl
@[simp] theorem updCore_colls (k : Nat) (f : Core → Core) : (updCore s k f).colls = s.colls := rfl
@[simp] theorem updCore_ctxs (k : Nat) (f : Core → Core) : (updCore s k f).ctxs = s.ctxs := rfl
@[simp] theorem updCore_holder (k : Nat) (f : Core → Core) : (updCore s k f).holder = s.holder := rfl
@[simp] theorem updCore_frameOwner (k : Nat) (f : Core → Core) : (updCore s k f).frameOwner = s.frameOwner := rfl
@[simp] theorem updCore_heldRecords (k : Nat) (f : Core → Core) : (updCore s k f).heldRecords = s.heldRecords := rfl
@[simp] theorem updCore_images (k : Nat) (f : Core → Core) : (updCore s k f).images = s.images := rfl
@[simp] theorem updCore_handles (k : Nat) (f : Core → Core) : (updCore s k f).handles = s.handles := rfl
@[simp] theorem updCore_fmSources (k : Nat) (f : Core → Core) : (updCore s k f).fmSources = s.fmSources := rfl
@[simp] theorem updCore_mailboxSeq (k : Nat) (f : Core → Core) : (updCore s k f).mailboxSeq = s.mailboxSeq := rfl
@[simp] theorem updCore_mailboxStatus (k : Nat) (f : Core → Core) : (updCore s k f).mailboxStatus = s.mailboxStatus := rfl
@[simp] theorem updCore_mailboxReq (k : Nat) (f : Core → Core) : (updCore s k f).mailboxReq = s.mailboxReq := rfl
@[simp] theorem updCore_lanes (k : Nat) (f : Core → Core) : (updCore s k f).lanes = s.lanes := rfl
@[simp] theorem updCore_sentPkts (k : Nat) (f : Core → Core) : (updCore s k f).sentPkts = s.sentPkts := rfl
@[simp] theorem updCore_reqs (k : Nat) (f : Core → Core) : (updCore s k f).reqs = s.reqs := rfl
@[simp] theorem updCore_reqQueue (k : Nat) (f : Core → Core) : (updCore s k f).reqQueue = s.reqQueue := rfl
@[simp] theorem updCore_tags (k : Nat) (f : Core → Core) : (updCore s k f).tags = s.tags := rfl
@[simp] theorem updCore_sources (k : Nat) (f : Core → Core) : (updCore s k f).sources = s.sources := rfl
@[simp] theorem updCore_flagWaits (k : Nat) (f : Core → Core) : (updCore s k f).flagWaits = s.flagWaits := rfl
@[simp] theorem updCore_linkRing (k : Nat) (f : Core → Core) : (updCore s k f).linkRing = s.linkRing := rfl
@[simp] theorem updCore_linkTail (k : Nat) (f : Core → Core) : (updCore s k f).linkTail = s.linkTail := rfl
@[simp] theorem updCore_linkHeadHost (k : Nat) (f : Core → Core) : (updCore s k f).linkHeadHost = s.linkHeadHost := rfl
@[simp] theorem updCore_linkHeadFm (k : Nat) (f : Core → Core) : (updCore s k f).linkHeadFm = s.linkHeadFm := rfl
@[simp] theorem updCore_ports (k : Nat) (f : Core → Core) : (updCore s k f).ports = s.ports := rfl
@[simp] theorem updCore_circuits (k : Nat) (f : Core → Core) : (updCore s k f).circuits = s.circuits := rfl
@[simp] theorem updCore_buckles (k : Nat) (f : Core → Core) : (updCore s k f).buckles = s.buckles := rfl
@[simp] theorem updCore_reqId (k : Nat) (f : Core → Core) : (updCore s k f).reqId = s.reqId := rfl
@[simp] theorem updCore_scripts (k : Nat) (f : Core → Core) : (updCore s k f).scripts = s.scripts := rfl
@[simp] theorem updCore_scriptQueue (k : Nat) (f : Core → Core) : (updCore s k f).scriptQueue = s.scriptQueue := rfl
@[simp] theorem updCore_scriptLast (k : Nat) (f : Core → Core) : (updCore s k f).scriptLast = s.scriptLast := rfl
@[simp] theorem updCore_outbox (k : Nat) (f : Core → Core) : (updCore s k f).outbox = s.outbox := rfl

/-! ## updClust -/

@[simp] theorem updClust_agenda (k : Nat) (f : Cluster → Cluster) : (updClust s k f).agenda = s.agenda := rfl
@[simp] theorem updClust_cur (k : Nat) (f : Cluster → Cluster) : (updClust s k f).cur = s.cur := rfl
@[simp] theorem updClust_freeCtr (k : Nat) (f : Cluster → Cluster) : (updClust s k f).freeCtr = s.freeCtr := rfl
@[simp] theorem updClust_nextId (k : Nat) (f : Cluster → Cluster) : (updClust s k f).nextId = s.nextId := rfl
@[simp] theorem updClust_cycle (k : Nat) (f : Cluster → Cluster) : (updClust s k f).cycle = s.cycle := rfl
@[simp] theorem updClust_ns (k : Nat) (f : Cluster → Cluster) : (updClust s k f).ns = s.ns := rfl
@[simp] theorem updClust_issues (k : Nat) (f : Cluster → Cluster) : (updClust s k f).issues = s.issues := rfl
@[simp] theorem updClust_gen (k : Nat) (f : Cluster → Cluster) : (updClust s k f).gen = s.gen := rfl
@[simp] theorem updClust_dev (k : Nat) (f : Cluster → Cluster) : (updClust s k f).dev = s.dev := rfl
@[simp] theorem updClust_status (k : Nat) (f : Cluster → Cluster) : (updClust s k f).status = s.status := rfl
@[simp] theorem updClust_haltDev (k : Nat) (f : Cluster → Cluster) : (updClust s k f).haltDev = s.haltDev := rfl
@[simp] theorem updClust_mem (k : Nat) (f : Cluster → Cluster) : (updClust s k f).mem = s.mem := rfl
@[simp] theorem updClust_keyTag (k : Nat) (f : Cluster → Cluster) : (updClust s k f).keyTag = s.keyTag := rfl
@[simp] theorem updClust_olds (k : Nat) (f : Cluster → Cluster) : (updClust s k f).olds = s.olds := rfl
@[simp] theorem updClust_keys (k : Nat) (f : Cluster → Cluster) : (updClust s k f).keys = s.keys := rfl
@[simp] theorem updClust_epochs (k : Nat) (f : Cluster → Cluster) : (updClust s k f).epochs = s.epochs := rfl
@[simp] theorem updClust_hallmarks (k : Nat) (f : Cluster → Cluster) : (updClust s k f).hallmarks = s.hallmarks := rfl
@[simp] theorem updClust_l2 (k : Nat) (f : Cluster → Cluster) : (updClust s k f).l2 = s.l2 := rfl
@[simp] theorem updClust_arrivals (k : Nat) (f : Cluster → Cluster) : (updClust s k f).arrivals = s.arrivals := rfl
@[simp] theorem updClust_signals (k : Nat) (f : Cluster → Cluster) : (updClust s k f).signals = s.signals := rfl
@[simp] theorem updClust_presence (k : Nat) (f : Cluster → Cluster) : (updClust s k f).presence = s.presence := rfl
@[simp] theorem updClust_ccache (k : Nat) (f : Cluster → Cluster) : (updClust s k f).ccache = s.ccache := rfl
@[simp] theorem updClust_tlb1 (k : Nat) (f : Cluster → Cluster) : (updClust s k f).tlb1 = s.tlb1 := rfl
@[simp] theorem updClust_tlb2 (k : Nat) (f : Cluster → Cluster) : (updClust s k f).tlb2 = s.tlb2 := rfl
@[simp] theorem updClust_therm (k : Nat) (f : Cluster → Cluster) : (updClust s k f).therm = s.therm := rfl
@[simp] theorem updClust_clkstep (k : Nat) (f : Cluster → Cluster) : (updClust s k f).clkstep = s.clkstep := rfl
@[simp] theorem updClust_ecoef (k : Nat) (f : Cluster → Cluster) : (updClust s k f).ecoef = s.ecoef := rfl
@[simp] theorem updClust_payer (k : Nat) (f : Cluster → Cluster) : (updClust s k f).payer = s.payer := rfl
@[simp] theorem updClust_charges (k : Nat) (f : Cluster → Cluster) : (updClust s k f).charges = s.charges := rfl
@[simp] theorem updClust_hostHoles (k : Nat) (f : Cluster → Cluster) : (updClust s k f).hostHoles = s.hostHoles := rfl
@[simp] theorem updClust_cores (k : Nat) (f : Cluster → Cluster) : (updClust s k f).cores = s.cores := rfl
@[simp] theorem updClust_txs (k : Nat) (f : Cluster → Cluster) : (updClust s k f).txs = s.txs := rfl
@[simp] theorem updClust_blocks (k : Nat) (f : Cluster → Cluster) : (updClust s k f).blocks = s.blocks := rfl
@[simp] theorem updClust_cbs (k : Nat) (f : Cluster → Cluster) : (updClust s k f).cbs = s.cbs := rfl
@[simp] theorem updClust_launches (k : Nat) (f : Cluster → Cluster) : (updClust s k f).launches = s.launches := rfl
@[simp] theorem updClust_graphs (k : Nat) (f : Cluster → Cluster) : (updClust s k f).graphs = s.graphs := rfl
@[simp] theorem updClust_decrs (k : Nat) (f : Cluster → Cluster) : (updClust s k f).decrs = s.decrs := rfl
@[simp] theorem updClust_channels (k : Nat) (f : Cluster → Cluster) : (updClust s k f).channels = s.channels := rfl
@[simp] theorem updClust_buckets (k : Nat) (f : Cluster → Cluster) : (updClust s k f).buckets = s.buckets := rfl
@[simp] theorem updClust_queues (k : Nat) (f : Cluster → Cluster) : (updClust s k f).queues = s.queues := rfl
@[simp] theorem updClust_lastq (k : Nat) (f : Cluster → Cluster) : (updClust s k f).lastq = s.lastq := rfl
@[simp] theorem updClust_nmus (k : Nat) (f : Cluster → Cluster) : (updClust s k f).nmus = s.nmus := rfl
@[simp] theorem updClust_colls (k : Nat) (f : Cluster → Cluster) : (updClust s k f).colls = s.colls := rfl
@[simp] theorem updClust_ctxs (k : Nat) (f : Cluster → Cluster) : (updClust s k f).ctxs = s.ctxs := rfl
@[simp] theorem updClust_holder (k : Nat) (f : Cluster → Cluster) : (updClust s k f).holder = s.holder := rfl
@[simp] theorem updClust_frameOwner (k : Nat) (f : Cluster → Cluster) : (updClust s k f).frameOwner = s.frameOwner := rfl
@[simp] theorem updClust_heldRecords (k : Nat) (f : Cluster → Cluster) : (updClust s k f).heldRecords = s.heldRecords := rfl
@[simp] theorem updClust_images (k : Nat) (f : Cluster → Cluster) : (updClust s k f).images = s.images := rfl
@[simp] theorem updClust_handles (k : Nat) (f : Cluster → Cluster) : (updClust s k f).handles = s.handles := rfl
@[simp] theorem updClust_fmSources (k : Nat) (f : Cluster → Cluster) : (updClust s k f).fmSources = s.fmSources := rfl
@[simp] theorem updClust_mailboxSeq (k : Nat) (f : Cluster → Cluster) : (updClust s k f).mailboxSeq = s.mailboxSeq := rfl
@[simp] theorem updClust_mailboxStatus (k : Nat) (f : Cluster → Cluster) : (updClust s k f).mailboxStatus = s.mailboxStatus := rfl
@[simp] theorem updClust_mailboxReq (k : Nat) (f : Cluster → Cluster) : (updClust s k f).mailboxReq = s.mailboxReq := rfl
@[simp] theorem updClust_lanes (k : Nat) (f : Cluster → Cluster) : (updClust s k f).lanes = s.lanes := rfl
@[simp] theorem updClust_sentPkts (k : Nat) (f : Cluster → Cluster) : (updClust s k f).sentPkts = s.sentPkts := rfl
@[simp] theorem updClust_reqs (k : Nat) (f : Cluster → Cluster) : (updClust s k f).reqs = s.reqs := rfl
@[simp] theorem updClust_reqQueue (k : Nat) (f : Cluster → Cluster) : (updClust s k f).reqQueue = s.reqQueue := rfl
@[simp] theorem updClust_tags (k : Nat) (f : Cluster → Cluster) : (updClust s k f).tags = s.tags := rfl
@[simp] theorem updClust_sources (k : Nat) (f : Cluster → Cluster) : (updClust s k f).sources = s.sources := rfl
@[simp] theorem updClust_flagWaits (k : Nat) (f : Cluster → Cluster) : (updClust s k f).flagWaits = s.flagWaits := rfl
@[simp] theorem updClust_linkRing (k : Nat) (f : Cluster → Cluster) : (updClust s k f).linkRing = s.linkRing := rfl
@[simp] theorem updClust_linkTail (k : Nat) (f : Cluster → Cluster) : (updClust s k f).linkTail = s.linkTail := rfl
@[simp] theorem updClust_linkHeadHost (k : Nat) (f : Cluster → Cluster) : (updClust s k f).linkHeadHost = s.linkHeadHost := rfl
@[simp] theorem updClust_linkHeadFm (k : Nat) (f : Cluster → Cluster) : (updClust s k f).linkHeadFm = s.linkHeadFm := rfl
@[simp] theorem updClust_ports (k : Nat) (f : Cluster → Cluster) : (updClust s k f).ports = s.ports := rfl
@[simp] theorem updClust_circuits (k : Nat) (f : Cluster → Cluster) : (updClust s k f).circuits = s.circuits := rfl
@[simp] theorem updClust_buckles (k : Nat) (f : Cluster → Cluster) : (updClust s k f).buckles = s.buckles := rfl
@[simp] theorem updClust_reqId (k : Nat) (f : Cluster → Cluster) : (updClust s k f).reqId = s.reqId := rfl
@[simp] theorem updClust_scripts (k : Nat) (f : Cluster → Cluster) : (updClust s k f).scripts = s.scripts := rfl
@[simp] theorem updClust_scriptQueue (k : Nat) (f : Cluster → Cluster) : (updClust s k f).scriptQueue = s.scriptQueue := rfl
@[simp] theorem updClust_scriptLast (k : Nat) (f : Cluster → Cluster) : (updClust s k f).scriptLast = s.scriptLast := rfl
@[simp] theorem updClust_outbox (k : Nat) (f : Cluster → Cluster) : (updClust s k f).outbox = s.outbox := rfl

/-! ## updWarp -/

@[simp] theorem updWarp_agenda (k n : Nat) (f : Warp → Warp) : (updWarp s k n f).agenda = s.agenda := rfl
@[simp] theorem updWarp_cur (k n : Nat) (f : Warp → Warp) : (updWarp s k n f).cur = s.cur := rfl
@[simp] theorem updWarp_freeCtr (k n : Nat) (f : Warp → Warp) : (updWarp s k n f).freeCtr = s.freeCtr := rfl
@[simp] theorem updWarp_nextId (k n : Nat) (f : Warp → Warp) : (updWarp s k n f).nextId = s.nextId := rfl
@[simp] theorem updWarp_cycle (k n : Nat) (f : Warp → Warp) : (updWarp s k n f).cycle = s.cycle := rfl
@[simp] theorem updWarp_ns (k n : Nat) (f : Warp → Warp) : (updWarp s k n f).ns = s.ns := rfl
@[simp] theorem updWarp_issues (k n : Nat) (f : Warp → Warp) : (updWarp s k n f).issues = s.issues := rfl
@[simp] theorem updWarp_gen (k n : Nat) (f : Warp → Warp) : (updWarp s k n f).gen = s.gen := rfl
@[simp] theorem updWarp_dev (k n : Nat) (f : Warp → Warp) : (updWarp s k n f).dev = s.dev := rfl
@[simp] theorem updWarp_status (k n : Nat) (f : Warp → Warp) : (updWarp s k n f).status = s.status := rfl
@[simp] theorem updWarp_haltDev (k n : Nat) (f : Warp → Warp) : (updWarp s k n f).haltDev = s.haltDev := rfl
@[simp] theorem updWarp_mem (k n : Nat) (f : Warp → Warp) : (updWarp s k n f).mem = s.mem := rfl
@[simp] theorem updWarp_keyTag (k n : Nat) (f : Warp → Warp) : (updWarp s k n f).keyTag = s.keyTag := rfl
@[simp] theorem updWarp_olds (k n : Nat) (f : Warp → Warp) : (updWarp s k n f).olds = s.olds := rfl
@[simp] theorem updWarp_keys (k n : Nat) (f : Warp → Warp) : (updWarp s k n f).keys = s.keys := rfl
@[simp] theorem updWarp_epochs (k n : Nat) (f : Warp → Warp) : (updWarp s k n f).epochs = s.epochs := rfl
@[simp] theorem updWarp_hallmarks (k n : Nat) (f : Warp → Warp) : (updWarp s k n f).hallmarks = s.hallmarks := rfl
@[simp] theorem updWarp_l2 (k n : Nat) (f : Warp → Warp) : (updWarp s k n f).l2 = s.l2 := rfl
@[simp] theorem updWarp_arrivals (k n : Nat) (f : Warp → Warp) : (updWarp s k n f).arrivals = s.arrivals := rfl
@[simp] theorem updWarp_signals (k n : Nat) (f : Warp → Warp) : (updWarp s k n f).signals = s.signals := rfl
@[simp] theorem updWarp_presence (k n : Nat) (f : Warp → Warp) : (updWarp s k n f).presence = s.presence := rfl
@[simp] theorem updWarp_ccache (k n : Nat) (f : Warp → Warp) : (updWarp s k n f).ccache = s.ccache := rfl
@[simp] theorem updWarp_tlb1 (k n : Nat) (f : Warp → Warp) : (updWarp s k n f).tlb1 = s.tlb1 := rfl
@[simp] theorem updWarp_tlb2 (k n : Nat) (f : Warp → Warp) : (updWarp s k n f).tlb2 = s.tlb2 := rfl
@[simp] theorem updWarp_therm (k n : Nat) (f : Warp → Warp) : (updWarp s k n f).therm = s.therm := rfl
@[simp] theorem updWarp_clkstep (k n : Nat) (f : Warp → Warp) : (updWarp s k n f).clkstep = s.clkstep := rfl
@[simp] theorem updWarp_ecoef (k n : Nat) (f : Warp → Warp) : (updWarp s k n f).ecoef = s.ecoef := rfl
@[simp] theorem updWarp_payer (k n : Nat) (f : Warp → Warp) : (updWarp s k n f).payer = s.payer := rfl
@[simp] theorem updWarp_charges (k n : Nat) (f : Warp → Warp) : (updWarp s k n f).charges = s.charges := rfl
@[simp] theorem updWarp_hostHoles (k n : Nat) (f : Warp → Warp) : (updWarp s k n f).hostHoles = s.hostHoles := rfl
@[simp] theorem updWarp_clusters (k n : Nat) (f : Warp → Warp) : (updWarp s k n f).clusters = s.clusters := rfl
@[simp] theorem updWarp_txs (k n : Nat) (f : Warp → Warp) : (updWarp s k n f).txs = s.txs := rfl
@[simp] theorem updWarp_blocks (k n : Nat) (f : Warp → Warp) : (updWarp s k n f).blocks = s.blocks := rfl
@[simp] theorem updWarp_cbs (k n : Nat) (f : Warp → Warp) : (updWarp s k n f).cbs = s.cbs := rfl
@[simp] theorem updWarp_launches (k n : Nat) (f : Warp → Warp) : (updWarp s k n f).launches = s.launches := rfl
@[simp] theorem updWarp_graphs (k n : Nat) (f : Warp → Warp) : (updWarp s k n f).graphs = s.graphs := rfl
@[simp] theorem updWarp_decrs (k n : Nat) (f : Warp → Warp) : (updWarp s k n f).decrs = s.decrs := rfl
@[simp] theorem updWarp_channels (k n : Nat) (f : Warp → Warp) : (updWarp s k n f).channels = s.channels := rfl
@[simp] theorem updWarp_buckets (k n : Nat) (f : Warp → Warp) : (updWarp s k n f).buckets = s.buckets := rfl
@[simp] theorem updWarp_queues (k n : Nat) (f : Warp → Warp) : (updWarp s k n f).queues = s.queues := rfl
@[simp] theorem updWarp_lastq (k n : Nat) (f : Warp → Warp) : (updWarp s k n f).lastq = s.lastq := rfl
@[simp] theorem updWarp_nmus (k n : Nat) (f : Warp → Warp) : (updWarp s k n f).nmus = s.nmus := rfl
@[simp] theorem updWarp_colls (k n : Nat) (f : Warp → Warp) : (updWarp s k n f).colls = s.colls := rfl
@[simp] theorem updWarp_ctxs (k n : Nat) (f : Warp → Warp) : (updWarp s k n f).ctxs = s.ctxs := rfl
@[simp] theorem updWarp_holder (k n : Nat) (f : Warp → Warp) : (updWarp s k n f).holder = s.holder := rfl
@[simp] theorem updWarp_frameOwner (k n : Nat) (f : Warp → Warp) : (updWarp s k n f).frameOwner = s.frameOwner := rfl
@[simp] theorem updWarp_heldRecords (k n : Nat) (f : Warp → Warp) : (updWarp s k n f).heldRecords = s.heldRecords := rfl
@[simp] theorem updWarp_images (k n : Nat) (f : Warp → Warp) : (updWarp s k n f).images = s.images := rfl
@[simp] theorem updWarp_handles (k n : Nat) (f : Warp → Warp) : (updWarp s k n f).handles = s.handles := rfl
@[simp] theorem updWarp_fmSources (k n : Nat) (f : Warp → Warp) : (updWarp s k n f).fmSources = s.fmSources := rfl
@[simp] theorem updWarp_mailboxSeq (k n : Nat) (f : Warp → Warp) : (updWarp s k n f).mailboxSeq = s.mailboxSeq := rfl
@[simp] theorem updWarp_mailboxStatus (k n : Nat) (f : Warp → Warp) : (updWarp s k n f).mailboxStatus = s.mailboxStatus := rfl
@[simp] theorem updWarp_mailboxReq (k n : Nat) (f : Warp → Warp) : (updWarp s k n f).mailboxReq = s.mailboxReq := rfl
@[simp] theorem updWarp_lanes (k n : Nat) (f : Warp → Warp) : (updWarp s k n f).lanes = s.lanes := rfl
@[simp] theorem updWarp_sentPkts (k n : Nat) (f : Warp → Warp) : (updWarp s k n f).sentPkts = s.sentPkts := rfl
@[simp] theorem updWarp_reqs (k n : Nat) (f : Warp → Warp) : (updWarp s k n f).reqs = s.reqs := rfl
@[simp] theorem updWarp_reqQueue (k n : Nat) (f : Warp → Warp) : (updWarp s k n f).reqQueue = s.reqQueue := rfl
@[simp] theorem updWarp_tags (k n : Nat) (f : Warp → Warp) : (updWarp s k n f).tags = s.tags := rfl
@[simp] theorem updWarp_sources (k n : Nat) (f : Warp → Warp) : (updWarp s k n f).sources = s.sources := rfl
@[simp] theorem updWarp_flagWaits (k n : Nat) (f : Warp → Warp) : (updWarp s k n f).flagWaits = s.flagWaits := rfl
@[simp] theorem updWarp_linkRing (k n : Nat) (f : Warp → Warp) : (updWarp s k n f).linkRing = s.linkRing := rfl
@[simp] theorem updWarp_linkTail (k n : Nat) (f : Warp → Warp) : (updWarp s k n f).linkTail = s.linkTail := rfl
@[simp] theorem updWarp_linkHeadHost (k n : Nat) (f : Warp → Warp) : (updWarp s k n f).linkHeadHost = s.linkHeadHost := rfl
@[simp] theorem updWarp_linkHeadFm (k n : Nat) (f : Warp → Warp) : (updWarp s k n f).linkHeadFm = s.linkHeadFm := rfl
@[simp] theorem updWarp_ports (k n : Nat) (f : Warp → Warp) : (updWarp s k n f).ports = s.ports := rfl
@[simp] theorem updWarp_circuits (k n : Nat) (f : Warp → Warp) : (updWarp s k n f).circuits = s.circuits := rfl
@[simp] theorem updWarp_buckles (k n : Nat) (f : Warp → Warp) : (updWarp s k n f).buckles = s.buckles := rfl
@[simp] theorem updWarp_reqId (k n : Nat) (f : Warp → Warp) : (updWarp s k n f).reqId = s.reqId := rfl
@[simp] theorem updWarp_scripts (k n : Nat) (f : Warp → Warp) : (updWarp s k n f).scripts = s.scripts := rfl
@[simp] theorem updWarp_scriptQueue (k n : Nat) (f : Warp → Warp) : (updWarp s k n f).scriptQueue = s.scriptQueue := rfl
@[simp] theorem updWarp_scriptLast (k n : Nat) (f : Warp → Warp) : (updWarp s k n f).scriptLast = s.scriptLast := rfl
@[simp] theorem updWarp_outbox (k n : Nat) (f : Warp → Warp) : (updWarp s k n f).outbox = s.outbox := rfl

/-! ## updCw -/

@[simp] theorem updCw_agenda (f : Warp → Warp) : (updCw s f).agenda = s.agenda := rfl
@[simp] theorem updCw_cur (f : Warp → Warp) : (updCw s f).cur = s.cur := rfl
@[simp] theorem updCw_freeCtr (f : Warp → Warp) : (updCw s f).freeCtr = s.freeCtr := rfl
@[simp] theorem updCw_nextId (f : Warp → Warp) : (updCw s f).nextId = s.nextId := rfl
@[simp] theorem updCw_cycle (f : Warp → Warp) : (updCw s f).cycle = s.cycle := rfl
@[simp] theorem updCw_ns (f : Warp → Warp) : (updCw s f).ns = s.ns := rfl
@[simp] theorem updCw_issues (f : Warp → Warp) : (updCw s f).issues = s.issues := rfl
@[simp] theorem updCw_gen (f : Warp → Warp) : (updCw s f).gen = s.gen := rfl
@[simp] theorem updCw_dev (f : Warp → Warp) : (updCw s f).dev = s.dev := rfl
@[simp] theorem updCw_status (f : Warp → Warp) : (updCw s f).status = s.status := rfl
@[simp] theorem updCw_haltDev (f : Warp → Warp) : (updCw s f).haltDev = s.haltDev := rfl
@[simp] theorem updCw_mem (f : Warp → Warp) : (updCw s f).mem = s.mem := rfl
@[simp] theorem updCw_keyTag (f : Warp → Warp) : (updCw s f).keyTag = s.keyTag := rfl
@[simp] theorem updCw_olds (f : Warp → Warp) : (updCw s f).olds = s.olds := rfl
@[simp] theorem updCw_keys (f : Warp → Warp) : (updCw s f).keys = s.keys := rfl
@[simp] theorem updCw_epochs (f : Warp → Warp) : (updCw s f).epochs = s.epochs := rfl
@[simp] theorem updCw_hallmarks (f : Warp → Warp) : (updCw s f).hallmarks = s.hallmarks := rfl
@[simp] theorem updCw_l2 (f : Warp → Warp) : (updCw s f).l2 = s.l2 := rfl
@[simp] theorem updCw_arrivals (f : Warp → Warp) : (updCw s f).arrivals = s.arrivals := rfl
@[simp] theorem updCw_signals (f : Warp → Warp) : (updCw s f).signals = s.signals := rfl
@[simp] theorem updCw_presence (f : Warp → Warp) : (updCw s f).presence = s.presence := rfl
@[simp] theorem updCw_ccache (f : Warp → Warp) : (updCw s f).ccache = s.ccache := rfl
@[simp] theorem updCw_tlb1 (f : Warp → Warp) : (updCw s f).tlb1 = s.tlb1 := rfl
@[simp] theorem updCw_tlb2 (f : Warp → Warp) : (updCw s f).tlb2 = s.tlb2 := rfl
@[simp] theorem updCw_therm (f : Warp → Warp) : (updCw s f).therm = s.therm := rfl
@[simp] theorem updCw_clkstep (f : Warp → Warp) : (updCw s f).clkstep = s.clkstep := rfl
@[simp] theorem updCw_ecoef (f : Warp → Warp) : (updCw s f).ecoef = s.ecoef := rfl
@[simp] theorem updCw_payer (f : Warp → Warp) : (updCw s f).payer = s.payer := rfl
@[simp] theorem updCw_charges (f : Warp → Warp) : (updCw s f).charges = s.charges := rfl
@[simp] theorem updCw_hostHoles (f : Warp → Warp) : (updCw s f).hostHoles = s.hostHoles := rfl
@[simp] theorem updCw_clusters (f : Warp → Warp) : (updCw s f).clusters = s.clusters := rfl
@[simp] theorem updCw_txs (f : Warp → Warp) : (updCw s f).txs = s.txs := rfl
@[simp] theorem updCw_blocks (f : Warp → Warp) : (updCw s f).blocks = s.blocks := rfl
@[simp] theorem updCw_cbs (f : Warp → Warp) : (updCw s f).cbs = s.cbs := rfl
@[simp] theorem updCw_launches (f : Warp → Warp) : (updCw s f).launches = s.launches := rfl
@[simp] theorem updCw_graphs (f : Warp → Warp) : (updCw s f).graphs = s.graphs := rfl
@[simp] theorem updCw_decrs (f : Warp → Warp) : (updCw s f).decrs = s.decrs := rfl
@[simp] theorem updCw_channels (f : Warp → Warp) : (updCw s f).channels = s.channels := rfl
@[simp] theorem updCw_buckets (f : Warp → Warp) : (updCw s f).buckets = s.buckets := rfl
@[simp] theorem updCw_queues (f : Warp → Warp) : (updCw s f).queues = s.queues := rfl
@[simp] theorem updCw_lastq (f : Warp → Warp) : (updCw s f).lastq = s.lastq := rfl
@[simp] theorem updCw_nmus (f : Warp → Warp) : (updCw s f).nmus = s.nmus := rfl
@[simp] theorem updCw_colls (f : Warp → Warp) : (updCw s f).colls = s.colls := rfl
@[simp] theorem updCw_ctxs (f : Warp → Warp) : (updCw s f).ctxs = s.ctxs := rfl
@[simp] theorem updCw_holder (f : Warp → Warp) : (updCw s f).holder = s.holder := rfl
@[simp] theorem updCw_frameOwner (f : Warp → Warp) : (updCw s f).frameOwner = s.frameOwner := rfl
@[simp] theorem updCw_heldRecords (f : Warp → Warp) : (updCw s f).heldRecords = s.heldRecords := rfl
@[simp] theorem updCw_images (f : Warp → Warp) : (updCw s f).images = s.images := rfl
@[simp] theorem updCw_handles (f : Warp → Warp) : (updCw s f).handles = s.handles := rfl
@[simp] theorem updCw_fmSources (f : Warp → Warp) : (updCw s f).fmSources = s.fmSources := rfl
@[simp] theorem updCw_mailboxSeq (f : Warp → Warp) : (updCw s f).mailboxSeq = s.mailboxSeq := rfl
@[simp] theorem updCw_mailboxStatus (f : Warp → Warp) : (updCw s f).mailboxStatus = s.mailboxStatus := rfl
@[simp] theorem updCw_mailboxReq (f : Warp → Warp) : (updCw s f).mailboxReq = s.mailboxReq := rfl
@[simp] theorem updCw_lanes (f : Warp → Warp) : (updCw s f).lanes = s.lanes := rfl
@[simp] theorem updCw_sentPkts (f : Warp → Warp) : (updCw s f).sentPkts = s.sentPkts := rfl
@[simp] theorem updCw_reqs (f : Warp → Warp) : (updCw s f).reqs = s.reqs := rfl
@[simp] theorem updCw_reqQueue (f : Warp → Warp) : (updCw s f).reqQueue = s.reqQueue := rfl
@[simp] theorem updCw_tags (f : Warp → Warp) : (updCw s f).tags = s.tags := rfl
@[simp] theorem updCw_sources (f : Warp → Warp) : (updCw s f).sources = s.sources := rfl
@[simp] theorem updCw_flagWaits (f : Warp → Warp) : (updCw s f).flagWaits = s.flagWaits := rfl
@[simp] theorem updCw_linkRing (f : Warp → Warp) : (updCw s f).linkRing = s.linkRing := rfl
@[simp] theorem updCw_linkTail (f : Warp → Warp) : (updCw s f).linkTail = s.linkTail := rfl
@[simp] theorem updCw_linkHeadHost (f : Warp → Warp) : (updCw s f).linkHeadHost = s.linkHeadHost := rfl
@[simp] theorem updCw_linkHeadFm (f : Warp → Warp) : (updCw s f).linkHeadFm = s.linkHeadFm := rfl
@[simp] theorem updCw_ports (f : Warp → Warp) : (updCw s f).ports = s.ports := rfl
@[simp] theorem updCw_circuits (f : Warp → Warp) : (updCw s f).circuits = s.circuits := rfl
@[simp] theorem updCw_buckles (f : Warp → Warp) : (updCw s f).buckles = s.buckles := rfl
@[simp] theorem updCw_reqId (f : Warp → Warp) : (updCw s f).reqId = s.reqId := rfl
@[simp] theorem updCw_scripts (f : Warp → Warp) : (updCw s f).scripts = s.scripts := rfl
@[simp] theorem updCw_scriptQueue (f : Warp → Warp) : (updCw s f).scriptQueue = s.scriptQueue := rfl
@[simp] theorem updCw_scriptLast (f : Warp → Warp) : (updCw s f).scriptLast = s.scriptLast := rfl
@[simp] theorem updCw_outbox (f : Warp → Warp) : (updCw s f).outbox = s.outbox := rfl

/-! ## updCtx -/

@[simp] theorem updCtx_agenda (c : Nat) (f : Ctx → Ctx) : (updCtx s c f).agenda = s.agenda := rfl
@[simp] theorem updCtx_cur (c : Nat) (f : Ctx → Ctx) : (updCtx s c f).cur = s.cur := rfl
@[simp] theorem updCtx_freeCtr (c : Nat) (f : Ctx → Ctx) : (updCtx s c f).freeCtr = s.freeCtr := rfl
@[simp] theorem updCtx_nextId (c : Nat) (f : Ctx → Ctx) : (updCtx s c f).nextId = s.nextId := rfl
@[simp] theorem updCtx_cycle (c : Nat) (f : Ctx → Ctx) : (updCtx s c f).cycle = s.cycle := rfl
@[simp] theorem updCtx_ns (c : Nat) (f : Ctx → Ctx) : (updCtx s c f).ns = s.ns := rfl
@[simp] theorem updCtx_issues (c : Nat) (f : Ctx → Ctx) : (updCtx s c f).issues = s.issues := rfl
@[simp] theorem updCtx_gen (c : Nat) (f : Ctx → Ctx) : (updCtx s c f).gen = s.gen := rfl
@[simp] theorem updCtx_dev (c : Nat) (f : Ctx → Ctx) : (updCtx s c f).dev = s.dev := rfl
@[simp] theorem updCtx_status (c : Nat) (f : Ctx → Ctx) : (updCtx s c f).status = s.status := rfl
@[simp] theorem updCtx_haltDev (c : Nat) (f : Ctx → Ctx) : (updCtx s c f).haltDev = s.haltDev := rfl
@[simp] theorem updCtx_mem (c : Nat) (f : Ctx → Ctx) : (updCtx s c f).mem = s.mem := rfl
@[simp] theorem updCtx_keyTag (c : Nat) (f : Ctx → Ctx) : (updCtx s c f).keyTag = s.keyTag := rfl
@[simp] theorem updCtx_olds (c : Nat) (f : Ctx → Ctx) : (updCtx s c f).olds = s.olds := rfl
@[simp] theorem updCtx_keys (c : Nat) (f : Ctx → Ctx) : (updCtx s c f).keys = s.keys := rfl
@[simp] theorem updCtx_epochs (c : Nat) (f : Ctx → Ctx) : (updCtx s c f).epochs = s.epochs := rfl
@[simp] theorem updCtx_hallmarks (c : Nat) (f : Ctx → Ctx) : (updCtx s c f).hallmarks = s.hallmarks := rfl
@[simp] theorem updCtx_l2 (c : Nat) (f : Ctx → Ctx) : (updCtx s c f).l2 = s.l2 := rfl
@[simp] theorem updCtx_arrivals (c : Nat) (f : Ctx → Ctx) : (updCtx s c f).arrivals = s.arrivals := rfl
@[simp] theorem updCtx_signals (c : Nat) (f : Ctx → Ctx) : (updCtx s c f).signals = s.signals := rfl
@[simp] theorem updCtx_presence (c : Nat) (f : Ctx → Ctx) : (updCtx s c f).presence = s.presence := rfl
@[simp] theorem updCtx_ccache (c : Nat) (f : Ctx → Ctx) : (updCtx s c f).ccache = s.ccache := rfl
@[simp] theorem updCtx_tlb1 (c : Nat) (f : Ctx → Ctx) : (updCtx s c f).tlb1 = s.tlb1 := rfl
@[simp] theorem updCtx_tlb2 (c : Nat) (f : Ctx → Ctx) : (updCtx s c f).tlb2 = s.tlb2 := rfl
@[simp] theorem updCtx_therm (c : Nat) (f : Ctx → Ctx) : (updCtx s c f).therm = s.therm := rfl
@[simp] theorem updCtx_clkstep (c : Nat) (f : Ctx → Ctx) : (updCtx s c f).clkstep = s.clkstep := rfl
@[simp] theorem updCtx_ecoef (c : Nat) (f : Ctx → Ctx) : (updCtx s c f).ecoef = s.ecoef := rfl
@[simp] theorem updCtx_payer (c : Nat) (f : Ctx → Ctx) : (updCtx s c f).payer = s.payer := rfl
@[simp] theorem updCtx_charges (c : Nat) (f : Ctx → Ctx) : (updCtx s c f).charges = s.charges := rfl
@[simp] theorem updCtx_hostHoles (c : Nat) (f : Ctx → Ctx) : (updCtx s c f).hostHoles = s.hostHoles := rfl
@[simp] theorem updCtx_cores (c : Nat) (f : Ctx → Ctx) : (updCtx s c f).cores = s.cores := rfl
@[simp] theorem updCtx_clusters (c : Nat) (f : Ctx → Ctx) : (updCtx s c f).clusters = s.clusters := rfl
@[simp] theorem updCtx_txs (c : Nat) (f : Ctx → Ctx) : (updCtx s c f).txs = s.txs := rfl
@[simp] theorem updCtx_blocks (c : Nat) (f : Ctx → Ctx) : (updCtx s c f).blocks = s.blocks := rfl
@[simp] theorem updCtx_cbs (c : Nat) (f : Ctx → Ctx) : (updCtx s c f).cbs = s.cbs := rfl
@[simp] theorem updCtx_launches (c : Nat) (f : Ctx → Ctx) : (updCtx s c f).launches = s.launches := rfl
@[simp] theorem updCtx_graphs (c : Nat) (f : Ctx → Ctx) : (updCtx s c f).graphs = s.graphs := rfl
@[simp] theorem updCtx_decrs (c : Nat) (f : Ctx → Ctx) : (updCtx s c f).decrs = s.decrs := rfl
@[simp] theorem updCtx_channels (c : Nat) (f : Ctx → Ctx) : (updCtx s c f).channels = s.channels := rfl
@[simp] theorem updCtx_buckets (c : Nat) (f : Ctx → Ctx) : (updCtx s c f).buckets = s.buckets := rfl
@[simp] theorem updCtx_queues (c : Nat) (f : Ctx → Ctx) : (updCtx s c f).queues = s.queues := rfl
@[simp] theorem updCtx_lastq (c : Nat) (f : Ctx → Ctx) : (updCtx s c f).lastq = s.lastq := rfl
@[simp] theorem updCtx_nmus (c : Nat) (f : Ctx → Ctx) : (updCtx s c f).nmus = s.nmus := rfl
@[simp] theorem updCtx_colls (c : Nat) (f : Ctx → Ctx) : (updCtx s c f).colls = s.colls := rfl
@[simp] theorem updCtx_holder (c : Nat) (f : Ctx → Ctx) : (updCtx s c f).holder = s.holder := rfl
@[simp] theorem updCtx_frameOwner (c : Nat) (f : Ctx → Ctx) : (updCtx s c f).frameOwner = s.frameOwner := rfl
@[simp] theorem updCtx_heldRecords (c : Nat) (f : Ctx → Ctx) : (updCtx s c f).heldRecords = s.heldRecords := rfl
@[simp] theorem updCtx_images (c : Nat) (f : Ctx → Ctx) : (updCtx s c f).images = s.images := rfl
@[simp] theorem updCtx_handles (c : Nat) (f : Ctx → Ctx) : (updCtx s c f).handles = s.handles := rfl
@[simp] theorem updCtx_fmSources (c : Nat) (f : Ctx → Ctx) : (updCtx s c f).fmSources = s.fmSources := rfl
@[simp] theorem updCtx_mailboxSeq (c : Nat) (f : Ctx → Ctx) : (updCtx s c f).mailboxSeq = s.mailboxSeq := rfl
@[simp] theorem updCtx_mailboxStatus (c : Nat) (f : Ctx → Ctx) : (updCtx s c f).mailboxStatus = s.mailboxStatus := rfl
@[simp] theorem updCtx_mailboxReq (c : Nat) (f : Ctx → Ctx) : (updCtx s c f).mailboxReq = s.mailboxReq := rfl
@[simp] theorem updCtx_lanes (c : Nat) (f : Ctx → Ctx) : (updCtx s c f).lanes = s.lanes := rfl
@[simp] theorem updCtx_sentPkts (c : Nat) (f : Ctx → Ctx) : (updCtx s c f).sentPkts = s.sentPkts := rfl
@[simp] theorem updCtx_reqs (c : Nat) (f : Ctx → Ctx) : (updCtx s c f).reqs = s.reqs := rfl
@[simp] theorem updCtx_reqQueue (c : Nat) (f : Ctx → Ctx) : (updCtx s c f).reqQueue = s.reqQueue := rfl
@[simp] theorem updCtx_tags (c : Nat) (f : Ctx → Ctx) : (updCtx s c f).tags = s.tags := rfl
@[simp] theorem updCtx_sources (c : Nat) (f : Ctx → Ctx) : (updCtx s c f).sources = s.sources := rfl
@[simp] theorem updCtx_flagWaits (c : Nat) (f : Ctx → Ctx) : (updCtx s c f).flagWaits = s.flagWaits := rfl
@[simp] theorem updCtx_linkRing (c : Nat) (f : Ctx → Ctx) : (updCtx s c f).linkRing = s.linkRing := rfl
@[simp] theorem updCtx_linkTail (c : Nat) (f : Ctx → Ctx) : (updCtx s c f).linkTail = s.linkTail := rfl
@[simp] theorem updCtx_linkHeadHost (c : Nat) (f : Ctx → Ctx) : (updCtx s c f).linkHeadHost = s.linkHeadHost := rfl
@[simp] theorem updCtx_linkHeadFm (c : Nat) (f : Ctx → Ctx) : (updCtx s c f).linkHeadFm = s.linkHeadFm := rfl
@[simp] theorem updCtx_ports (c : Nat) (f : Ctx → Ctx) : (updCtx s c f).ports = s.ports := rfl
@[simp] theorem updCtx_circuits (c : Nat) (f : Ctx → Ctx) : (updCtx s c f).circuits = s.circuits := rfl
@[simp] theorem updCtx_buckles (c : Nat) (f : Ctx → Ctx) : (updCtx s c f).buckles = s.buckles := rfl
@[simp] theorem updCtx_reqId (c : Nat) (f : Ctx → Ctx) : (updCtx s c f).reqId = s.reqId := rfl
@[simp] theorem updCtx_scripts (c : Nat) (f : Ctx → Ctx) : (updCtx s c f).scripts = s.scripts := rfl
@[simp] theorem updCtx_scriptQueue (c : Nat) (f : Ctx → Ctx) : (updCtx s c f).scriptQueue = s.scriptQueue := rfl
@[simp] theorem updCtx_scriptLast (c : Nat) (f : Ctx → Ctx) : (updCtx s c f).scriptLast = s.scriptLast := rfl
@[simp] theorem updCtx_outbox (c : Nat) (f : Ctx → Ctx) : (updCtx s c f).outbox = s.outbox := rfl

/-! ## updNmu -/

@[simp] theorem updNmu_agenda (g : Nat) (f : Nmu → Nmu) : (updNmu s g f).agenda = s.agenda := rfl
@[simp] theorem updNmu_cur (g : Nat) (f : Nmu → Nmu) : (updNmu s g f).cur = s.cur := rfl
@[simp] theorem updNmu_freeCtr (g : Nat) (f : Nmu → Nmu) : (updNmu s g f).freeCtr = s.freeCtr := rfl
@[simp] theorem updNmu_nextId (g : Nat) (f : Nmu → Nmu) : (updNmu s g f).nextId = s.nextId := rfl
@[simp] theorem updNmu_cycle (g : Nat) (f : Nmu → Nmu) : (updNmu s g f).cycle = s.cycle := rfl
@[simp] theorem updNmu_ns (g : Nat) (f : Nmu → Nmu) : (updNmu s g f).ns = s.ns := rfl
@[simp] theorem updNmu_issues (g : Nat) (f : Nmu → Nmu) : (updNmu s g f).issues = s.issues := rfl
@[simp] theorem updNmu_gen (g : Nat) (f : Nmu → Nmu) : (updNmu s g f).gen = s.gen := rfl
@[simp] theorem updNmu_dev (g : Nat) (f : Nmu → Nmu) : (updNmu s g f).dev = s.dev := rfl
@[simp] theorem updNmu_status (g : Nat) (f : Nmu → Nmu) : (updNmu s g f).status = s.status := rfl
@[simp] theorem updNmu_haltDev (g : Nat) (f : Nmu → Nmu) : (updNmu s g f).haltDev = s.haltDev := rfl
@[simp] theorem updNmu_mem (g : Nat) (f : Nmu → Nmu) : (updNmu s g f).mem = s.mem := rfl
@[simp] theorem updNmu_keyTag (g : Nat) (f : Nmu → Nmu) : (updNmu s g f).keyTag = s.keyTag := rfl
@[simp] theorem updNmu_olds (g : Nat) (f : Nmu → Nmu) : (updNmu s g f).olds = s.olds := rfl
@[simp] theorem updNmu_keys (g : Nat) (f : Nmu → Nmu) : (updNmu s g f).keys = s.keys := rfl
@[simp] theorem updNmu_epochs (g : Nat) (f : Nmu → Nmu) : (updNmu s g f).epochs = s.epochs := rfl
@[simp] theorem updNmu_hallmarks (g : Nat) (f : Nmu → Nmu) : (updNmu s g f).hallmarks = s.hallmarks := rfl
@[simp] theorem updNmu_l2 (g : Nat) (f : Nmu → Nmu) : (updNmu s g f).l2 = s.l2 := rfl
@[simp] theorem updNmu_arrivals (g : Nat) (f : Nmu → Nmu) : (updNmu s g f).arrivals = s.arrivals := rfl
@[simp] theorem updNmu_signals (g : Nat) (f : Nmu → Nmu) : (updNmu s g f).signals = s.signals := rfl
@[simp] theorem updNmu_presence (g : Nat) (f : Nmu → Nmu) : (updNmu s g f).presence = s.presence := rfl
@[simp] theorem updNmu_ccache (g : Nat) (f : Nmu → Nmu) : (updNmu s g f).ccache = s.ccache := rfl
@[simp] theorem updNmu_tlb1 (g : Nat) (f : Nmu → Nmu) : (updNmu s g f).tlb1 = s.tlb1 := rfl
@[simp] theorem updNmu_tlb2 (g : Nat) (f : Nmu → Nmu) : (updNmu s g f).tlb2 = s.tlb2 := rfl
@[simp] theorem updNmu_therm (g : Nat) (f : Nmu → Nmu) : (updNmu s g f).therm = s.therm := rfl
@[simp] theorem updNmu_clkstep (g : Nat) (f : Nmu → Nmu) : (updNmu s g f).clkstep = s.clkstep := rfl
@[simp] theorem updNmu_ecoef (g : Nat) (f : Nmu → Nmu) : (updNmu s g f).ecoef = s.ecoef := rfl
@[simp] theorem updNmu_payer (g : Nat) (f : Nmu → Nmu) : (updNmu s g f).payer = s.payer := rfl
@[simp] theorem updNmu_charges (g : Nat) (f : Nmu → Nmu) : (updNmu s g f).charges = s.charges := rfl
@[simp] theorem updNmu_hostHoles (g : Nat) (f : Nmu → Nmu) : (updNmu s g f).hostHoles = s.hostHoles := rfl
@[simp] theorem updNmu_cores (g : Nat) (f : Nmu → Nmu) : (updNmu s g f).cores = s.cores := rfl
@[simp] theorem updNmu_clusters (g : Nat) (f : Nmu → Nmu) : (updNmu s g f).clusters = s.clusters := rfl
@[simp] theorem updNmu_txs (g : Nat) (f : Nmu → Nmu) : (updNmu s g f).txs = s.txs := rfl
@[simp] theorem updNmu_blocks (g : Nat) (f : Nmu → Nmu) : (updNmu s g f).blocks = s.blocks := rfl
@[simp] theorem updNmu_cbs (g : Nat) (f : Nmu → Nmu) : (updNmu s g f).cbs = s.cbs := rfl
@[simp] theorem updNmu_launches (g : Nat) (f : Nmu → Nmu) : (updNmu s g f).launches = s.launches := rfl
@[simp] theorem updNmu_graphs (g : Nat) (f : Nmu → Nmu) : (updNmu s g f).graphs = s.graphs := rfl
@[simp] theorem updNmu_decrs (g : Nat) (f : Nmu → Nmu) : (updNmu s g f).decrs = s.decrs := rfl
@[simp] theorem updNmu_channels (g : Nat) (f : Nmu → Nmu) : (updNmu s g f).channels = s.channels := rfl
@[simp] theorem updNmu_buckets (g : Nat) (f : Nmu → Nmu) : (updNmu s g f).buckets = s.buckets := rfl
@[simp] theorem updNmu_queues (g : Nat) (f : Nmu → Nmu) : (updNmu s g f).queues = s.queues := rfl
@[simp] theorem updNmu_lastq (g : Nat) (f : Nmu → Nmu) : (updNmu s g f).lastq = s.lastq := rfl
@[simp] theorem updNmu_colls (g : Nat) (f : Nmu → Nmu) : (updNmu s g f).colls = s.colls := rfl
@[simp] theorem updNmu_ctxs (g : Nat) (f : Nmu → Nmu) : (updNmu s g f).ctxs = s.ctxs := rfl
@[simp] theorem updNmu_holder (g : Nat) (f : Nmu → Nmu) : (updNmu s g f).holder = s.holder := rfl
@[simp] theorem updNmu_frameOwner (g : Nat) (f : Nmu → Nmu) : (updNmu s g f).frameOwner = s.frameOwner := rfl
@[simp] theorem updNmu_heldRecords (g : Nat) (f : Nmu → Nmu) : (updNmu s g f).heldRecords = s.heldRecords := rfl
@[simp] theorem updNmu_images (g : Nat) (f : Nmu → Nmu) : (updNmu s g f).images = s.images := rfl
@[simp] theorem updNmu_handles (g : Nat) (f : Nmu → Nmu) : (updNmu s g f).handles = s.handles := rfl
@[simp] theorem updNmu_fmSources (g : Nat) (f : Nmu → Nmu) : (updNmu s g f).fmSources = s.fmSources := rfl
@[simp] theorem updNmu_mailboxSeq (g : Nat) (f : Nmu → Nmu) : (updNmu s g f).mailboxSeq = s.mailboxSeq := rfl
@[simp] theorem updNmu_mailboxStatus (g : Nat) (f : Nmu → Nmu) : (updNmu s g f).mailboxStatus = s.mailboxStatus := rfl
@[simp] theorem updNmu_mailboxReq (g : Nat) (f : Nmu → Nmu) : (updNmu s g f).mailboxReq = s.mailboxReq := rfl
@[simp] theorem updNmu_lanes (g : Nat) (f : Nmu → Nmu) : (updNmu s g f).lanes = s.lanes := rfl
@[simp] theorem updNmu_sentPkts (g : Nat) (f : Nmu → Nmu) : (updNmu s g f).sentPkts = s.sentPkts := rfl
@[simp] theorem updNmu_reqs (g : Nat) (f : Nmu → Nmu) : (updNmu s g f).reqs = s.reqs := rfl
@[simp] theorem updNmu_reqQueue (g : Nat) (f : Nmu → Nmu) : (updNmu s g f).reqQueue = s.reqQueue := rfl
@[simp] theorem updNmu_tags (g : Nat) (f : Nmu → Nmu) : (updNmu s g f).tags = s.tags := rfl
@[simp] theorem updNmu_sources (g : Nat) (f : Nmu → Nmu) : (updNmu s g f).sources = s.sources := rfl
@[simp] theorem updNmu_flagWaits (g : Nat) (f : Nmu → Nmu) : (updNmu s g f).flagWaits = s.flagWaits := rfl
@[simp] theorem updNmu_linkRing (g : Nat) (f : Nmu → Nmu) : (updNmu s g f).linkRing = s.linkRing := rfl
@[simp] theorem updNmu_linkTail (g : Nat) (f : Nmu → Nmu) : (updNmu s g f).linkTail = s.linkTail := rfl
@[simp] theorem updNmu_linkHeadHost (g : Nat) (f : Nmu → Nmu) : (updNmu s g f).linkHeadHost = s.linkHeadHost := rfl
@[simp] theorem updNmu_linkHeadFm (g : Nat) (f : Nmu → Nmu) : (updNmu s g f).linkHeadFm = s.linkHeadFm := rfl
@[simp] theorem updNmu_ports (g : Nat) (f : Nmu → Nmu) : (updNmu s g f).ports = s.ports := rfl
@[simp] theorem updNmu_circuits (g : Nat) (f : Nmu → Nmu) : (updNmu s g f).circuits = s.circuits := rfl
@[simp] theorem updNmu_buckles (g : Nat) (f : Nmu → Nmu) : (updNmu s g f).buckles = s.buckles := rfl
@[simp] theorem updNmu_reqId (g : Nat) (f : Nmu → Nmu) : (updNmu s g f).reqId = s.reqId := rfl
@[simp] theorem updNmu_scripts (g : Nat) (f : Nmu → Nmu) : (updNmu s g f).scripts = s.scripts := rfl
@[simp] theorem updNmu_scriptQueue (g : Nat) (f : Nmu → Nmu) : (updNmu s g f).scriptQueue = s.scriptQueue := rfl
@[simp] theorem updNmu_scriptLast (g : Nat) (f : Nmu → Nmu) : (updNmu s g f).scriptLast = s.scriptLast := rfl
@[simp] theorem updNmu_outbox (g : Nat) (f : Nmu → Nmu) : (updNmu s g f).outbox = s.outbox := rfl

/-! ## updPort -/

@[simp] theorem updPort_agenda (p : Nat) (f : Port → Port) : (updPort s p f).agenda = s.agenda := rfl
@[simp] theorem updPort_cur (p : Nat) (f : Port → Port) : (updPort s p f).cur = s.cur := rfl
@[simp] theorem updPort_freeCtr (p : Nat) (f : Port → Port) : (updPort s p f).freeCtr = s.freeCtr := rfl
@[simp] theorem updPort_nextId (p : Nat) (f : Port → Port) : (updPort s p f).nextId = s.nextId := rfl
@[simp] theorem updPort_cycle (p : Nat) (f : Port → Port) : (updPort s p f).cycle = s.cycle := rfl
@[simp] theorem updPort_ns (p : Nat) (f : Port → Port) : (updPort s p f).ns = s.ns := rfl
@[simp] theorem updPort_issues (p : Nat) (f : Port → Port) : (updPort s p f).issues = s.issues := rfl
@[simp] theorem updPort_gen (p : Nat) (f : Port → Port) : (updPort s p f).gen = s.gen := rfl
@[simp] theorem updPort_dev (p : Nat) (f : Port → Port) : (updPort s p f).dev = s.dev := rfl
@[simp] theorem updPort_status (p : Nat) (f : Port → Port) : (updPort s p f).status = s.status := rfl
@[simp] theorem updPort_haltDev (p : Nat) (f : Port → Port) : (updPort s p f).haltDev = s.haltDev := rfl
@[simp] theorem updPort_mem (p : Nat) (f : Port → Port) : (updPort s p f).mem = s.mem := rfl
@[simp] theorem updPort_keyTag (p : Nat) (f : Port → Port) : (updPort s p f).keyTag = s.keyTag := rfl
@[simp] theorem updPort_olds (p : Nat) (f : Port → Port) : (updPort s p f).olds = s.olds := rfl
@[simp] theorem updPort_keys (p : Nat) (f : Port → Port) : (updPort s p f).keys = s.keys := rfl
@[simp] theorem updPort_epochs (p : Nat) (f : Port → Port) : (updPort s p f).epochs = s.epochs := rfl
@[simp] theorem updPort_hallmarks (p : Nat) (f : Port → Port) : (updPort s p f).hallmarks = s.hallmarks := rfl
@[simp] theorem updPort_l2 (p : Nat) (f : Port → Port) : (updPort s p f).l2 = s.l2 := rfl
@[simp] theorem updPort_arrivals (p : Nat) (f : Port → Port) : (updPort s p f).arrivals = s.arrivals := rfl
@[simp] theorem updPort_signals (p : Nat) (f : Port → Port) : (updPort s p f).signals = s.signals := rfl
@[simp] theorem updPort_presence (p : Nat) (f : Port → Port) : (updPort s p f).presence = s.presence := rfl
@[simp] theorem updPort_ccache (p : Nat) (f : Port → Port) : (updPort s p f).ccache = s.ccache := rfl
@[simp] theorem updPort_tlb1 (p : Nat) (f : Port → Port) : (updPort s p f).tlb1 = s.tlb1 := rfl
@[simp] theorem updPort_tlb2 (p : Nat) (f : Port → Port) : (updPort s p f).tlb2 = s.tlb2 := rfl
@[simp] theorem updPort_therm (p : Nat) (f : Port → Port) : (updPort s p f).therm = s.therm := rfl
@[simp] theorem updPort_clkstep (p : Nat) (f : Port → Port) : (updPort s p f).clkstep = s.clkstep := rfl
@[simp] theorem updPort_ecoef (p : Nat) (f : Port → Port) : (updPort s p f).ecoef = s.ecoef := rfl
@[simp] theorem updPort_payer (p : Nat) (f : Port → Port) : (updPort s p f).payer = s.payer := rfl
@[simp] theorem updPort_charges (p : Nat) (f : Port → Port) : (updPort s p f).charges = s.charges := rfl
@[simp] theorem updPort_hostHoles (p : Nat) (f : Port → Port) : (updPort s p f).hostHoles = s.hostHoles := rfl
@[simp] theorem updPort_cores (p : Nat) (f : Port → Port) : (updPort s p f).cores = s.cores := rfl
@[simp] theorem updPort_clusters (p : Nat) (f : Port → Port) : (updPort s p f).clusters = s.clusters := rfl
@[simp] theorem updPort_txs (p : Nat) (f : Port → Port) : (updPort s p f).txs = s.txs := rfl
@[simp] theorem updPort_blocks (p : Nat) (f : Port → Port) : (updPort s p f).blocks = s.blocks := rfl
@[simp] theorem updPort_cbs (p : Nat) (f : Port → Port) : (updPort s p f).cbs = s.cbs := rfl
@[simp] theorem updPort_launches (p : Nat) (f : Port → Port) : (updPort s p f).launches = s.launches := rfl
@[simp] theorem updPort_graphs (p : Nat) (f : Port → Port) : (updPort s p f).graphs = s.graphs := rfl
@[simp] theorem updPort_decrs (p : Nat) (f : Port → Port) : (updPort s p f).decrs = s.decrs := rfl
@[simp] theorem updPort_channels (p : Nat) (f : Port → Port) : (updPort s p f).channels = s.channels := rfl
@[simp] theorem updPort_buckets (p : Nat) (f : Port → Port) : (updPort s p f).buckets = s.buckets := rfl
@[simp] theorem updPort_queues (p : Nat) (f : Port → Port) : (updPort s p f).queues = s.queues := rfl
@[simp] theorem updPort_lastq (p : Nat) (f : Port → Port) : (updPort s p f).lastq = s.lastq := rfl
@[simp] theorem updPort_nmus (p : Nat) (f : Port → Port) : (updPort s p f).nmus = s.nmus := rfl
@[simp] theorem updPort_colls (p : Nat) (f : Port → Port) : (updPort s p f).colls = s.colls := rfl
@[simp] theorem updPort_ctxs (p : Nat) (f : Port → Port) : (updPort s p f).ctxs = s.ctxs := rfl
@[simp] theorem updPort_holder (p : Nat) (f : Port → Port) : (updPort s p f).holder = s.holder := rfl
@[simp] theorem updPort_frameOwner (p : Nat) (f : Port → Port) : (updPort s p f).frameOwner = s.frameOwner := rfl
@[simp] theorem updPort_heldRecords (p : Nat) (f : Port → Port) : (updPort s p f).heldRecords = s.heldRecords := rfl
@[simp] theorem updPort_images (p : Nat) (f : Port → Port) : (updPort s p f).images = s.images := rfl
@[simp] theorem updPort_handles (p : Nat) (f : Port → Port) : (updPort s p f).handles = s.handles := rfl
@[simp] theorem updPort_fmSources (p : Nat) (f : Port → Port) : (updPort s p f).fmSources = s.fmSources := rfl
@[simp] theorem updPort_mailboxSeq (p : Nat) (f : Port → Port) : (updPort s p f).mailboxSeq = s.mailboxSeq := rfl
@[simp] theorem updPort_mailboxStatus (p : Nat) (f : Port → Port) : (updPort s p f).mailboxStatus = s.mailboxStatus := rfl
@[simp] theorem updPort_mailboxReq (p : Nat) (f : Port → Port) : (updPort s p f).mailboxReq = s.mailboxReq := rfl
@[simp] theorem updPort_lanes (p : Nat) (f : Port → Port) : (updPort s p f).lanes = s.lanes := rfl
@[simp] theorem updPort_sentPkts (p : Nat) (f : Port → Port) : (updPort s p f).sentPkts = s.sentPkts := rfl
@[simp] theorem updPort_reqs (p : Nat) (f : Port → Port) : (updPort s p f).reqs = s.reqs := rfl
@[simp] theorem updPort_reqQueue (p : Nat) (f : Port → Port) : (updPort s p f).reqQueue = s.reqQueue := rfl
@[simp] theorem updPort_tags (p : Nat) (f : Port → Port) : (updPort s p f).tags = s.tags := rfl
@[simp] theorem updPort_sources (p : Nat) (f : Port → Port) : (updPort s p f).sources = s.sources := rfl
@[simp] theorem updPort_flagWaits (p : Nat) (f : Port → Port) : (updPort s p f).flagWaits = s.flagWaits := rfl
@[simp] theorem updPort_linkRing (p : Nat) (f : Port → Port) : (updPort s p f).linkRing = s.linkRing := rfl
@[simp] theorem updPort_linkTail (p : Nat) (f : Port → Port) : (updPort s p f).linkTail = s.linkTail := rfl
@[simp] theorem updPort_linkHeadHost (p : Nat) (f : Port → Port) : (updPort s p f).linkHeadHost = s.linkHeadHost := rfl
@[simp] theorem updPort_linkHeadFm (p : Nat) (f : Port → Port) : (updPort s p f).linkHeadFm = s.linkHeadFm := rfl
@[simp] theorem updPort_circuits (p : Nat) (f : Port → Port) : (updPort s p f).circuits = s.circuits := rfl
@[simp] theorem updPort_buckles (p : Nat) (f : Port → Port) : (updPort s p f).buckles = s.buckles := rfl
@[simp] theorem updPort_reqId (p : Nat) (f : Port → Port) : (updPort s p f).reqId = s.reqId := rfl
@[simp] theorem updPort_scripts (p : Nat) (f : Port → Port) : (updPort s p f).scripts = s.scripts := rfl
@[simp] theorem updPort_scriptQueue (p : Nat) (f : Port → Port) : (updPort s p f).scriptQueue = s.scriptQueue := rfl
@[simp] theorem updPort_scriptLast (p : Nat) (f : Port → Port) : (updPort s p f).scriptLast = s.scriptLast := rfl
@[simp] theorem updPort_outbox (p : Nat) (f : Port → Port) : (updPort s p f).outbox = s.outbox := rfl

/-! ## updLaunch -/

@[simp] theorem updLaunch_agenda (l : Nat) (f : Launch → Launch) : (updLaunch s l f).agenda = s.agenda := rfl
@[simp] theorem updLaunch_cur (l : Nat) (f : Launch → Launch) : (updLaunch s l f).cur = s.cur := rfl
@[simp] theorem updLaunch_freeCtr (l : Nat) (f : Launch → Launch) : (updLaunch s l f).freeCtr = s.freeCtr := rfl
@[simp] theorem updLaunch_nextId (l : Nat) (f : Launch → Launch) : (updLaunch s l f).nextId = s.nextId := rfl
@[simp] theorem updLaunch_cycle (l : Nat) (f : Launch → Launch) : (updLaunch s l f).cycle = s.cycle := rfl
@[simp] theorem updLaunch_ns (l : Nat) (f : Launch → Launch) : (updLaunch s l f).ns = s.ns := rfl
@[simp] theorem updLaunch_issues (l : Nat) (f : Launch → Launch) : (updLaunch s l f).issues = s.issues := rfl
@[simp] theorem updLaunch_gen (l : Nat) (f : Launch → Launch) : (updLaunch s l f).gen = s.gen := rfl
@[simp] theorem updLaunch_dev (l : Nat) (f : Launch → Launch) : (updLaunch s l f).dev = s.dev := rfl
@[simp] theorem updLaunch_status (l : Nat) (f : Launch → Launch) : (updLaunch s l f).status = s.status := rfl
@[simp] theorem updLaunch_haltDev (l : Nat) (f : Launch → Launch) : (updLaunch s l f).haltDev = s.haltDev := rfl
@[simp] theorem updLaunch_mem (l : Nat) (f : Launch → Launch) : (updLaunch s l f).mem = s.mem := rfl
@[simp] theorem updLaunch_keyTag (l : Nat) (f : Launch → Launch) : (updLaunch s l f).keyTag = s.keyTag := rfl
@[simp] theorem updLaunch_olds (l : Nat) (f : Launch → Launch) : (updLaunch s l f).olds = s.olds := rfl
@[simp] theorem updLaunch_keys (l : Nat) (f : Launch → Launch) : (updLaunch s l f).keys = s.keys := rfl
@[simp] theorem updLaunch_epochs (l : Nat) (f : Launch → Launch) : (updLaunch s l f).epochs = s.epochs := rfl
@[simp] theorem updLaunch_hallmarks (l : Nat) (f : Launch → Launch) : (updLaunch s l f).hallmarks = s.hallmarks := rfl
@[simp] theorem updLaunch_l2 (l : Nat) (f : Launch → Launch) : (updLaunch s l f).l2 = s.l2 := rfl
@[simp] theorem updLaunch_arrivals (l : Nat) (f : Launch → Launch) : (updLaunch s l f).arrivals = s.arrivals := rfl
@[simp] theorem updLaunch_signals (l : Nat) (f : Launch → Launch) : (updLaunch s l f).signals = s.signals := rfl
@[simp] theorem updLaunch_presence (l : Nat) (f : Launch → Launch) : (updLaunch s l f).presence = s.presence := rfl
@[simp] theorem updLaunch_ccache (l : Nat) (f : Launch → Launch) : (updLaunch s l f).ccache = s.ccache := rfl
@[simp] theorem updLaunch_tlb1 (l : Nat) (f : Launch → Launch) : (updLaunch s l f).tlb1 = s.tlb1 := rfl
@[simp] theorem updLaunch_tlb2 (l : Nat) (f : Launch → Launch) : (updLaunch s l f).tlb2 = s.tlb2 := rfl
@[simp] theorem updLaunch_therm (l : Nat) (f : Launch → Launch) : (updLaunch s l f).therm = s.therm := rfl
@[simp] theorem updLaunch_clkstep (l : Nat) (f : Launch → Launch) : (updLaunch s l f).clkstep = s.clkstep := rfl
@[simp] theorem updLaunch_ecoef (l : Nat) (f : Launch → Launch) : (updLaunch s l f).ecoef = s.ecoef := rfl
@[simp] theorem updLaunch_payer (l : Nat) (f : Launch → Launch) : (updLaunch s l f).payer = s.payer := rfl
@[simp] theorem updLaunch_charges (l : Nat) (f : Launch → Launch) : (updLaunch s l f).charges = s.charges := rfl
@[simp] theorem updLaunch_hostHoles (l : Nat) (f : Launch → Launch) : (updLaunch s l f).hostHoles = s.hostHoles := rfl
@[simp] theorem updLaunch_cores (l : Nat) (f : Launch → Launch) : (updLaunch s l f).cores = s.cores := rfl
@[simp] theorem updLaunch_clusters (l : Nat) (f : Launch → Launch) : (updLaunch s l f).clusters = s.clusters := rfl
@[simp] theorem updLaunch_txs (l : Nat) (f : Launch → Launch) : (updLaunch s l f).txs = s.txs := rfl
@[simp] theorem updLaunch_blocks (l : Nat) (f : Launch → Launch) : (updLaunch s l f).blocks = s.blocks := rfl
@[simp] theorem updLaunch_cbs (l : Nat) (f : Launch → Launch) : (updLaunch s l f).cbs = s.cbs := rfl
@[simp] theorem updLaunch_graphs (l : Nat) (f : Launch → Launch) : (updLaunch s l f).graphs = s.graphs := rfl
@[simp] theorem updLaunch_decrs (l : Nat) (f : Launch → Launch) : (updLaunch s l f).decrs = s.decrs := rfl
@[simp] theorem updLaunch_channels (l : Nat) (f : Launch → Launch) : (updLaunch s l f).channels = s.channels := rfl
@[simp] theorem updLaunch_buckets (l : Nat) (f : Launch → Launch) : (updLaunch s l f).buckets = s.buckets := rfl
@[simp] theorem updLaunch_queues (l : Nat) (f : Launch → Launch) : (updLaunch s l f).queues = s.queues := rfl
@[simp] theorem updLaunch_lastq (l : Nat) (f : Launch → Launch) : (updLaunch s l f).lastq = s.lastq := rfl
@[simp] theorem updLaunch_nmus (l : Nat) (f : Launch → Launch) : (updLaunch s l f).nmus = s.nmus := rfl
@[simp] theorem updLaunch_colls (l : Nat) (f : Launch → Launch) : (updLaunch s l f).colls = s.colls := rfl
@[simp] theorem updLaunch_ctxs (l : Nat) (f : Launch → Launch) : (updLaunch s l f).ctxs = s.ctxs := rfl
@[simp] theorem updLaunch_holder (l : Nat) (f : Launch → Launch) : (updLaunch s l f).holder = s.holder := rfl
@[simp] theorem updLaunch_frameOwner (l : Nat) (f : Launch → Launch) : (updLaunch s l f).frameOwner = s.frameOwner := rfl
@[simp] theorem updLaunch_heldRecords (l : Nat) (f : Launch → Launch) : (updLaunch s l f).heldRecords = s.heldRecords := rfl
@[simp] theorem updLaunch_images (l : Nat) (f : Launch → Launch) : (updLaunch s l f).images = s.images := rfl
@[simp] theorem updLaunch_handles (l : Nat) (f : Launch → Launch) : (updLaunch s l f).handles = s.handles := rfl
@[simp] theorem updLaunch_fmSources (l : Nat) (f : Launch → Launch) : (updLaunch s l f).fmSources = s.fmSources := rfl
@[simp] theorem updLaunch_mailboxSeq (l : Nat) (f : Launch → Launch) : (updLaunch s l f).mailboxSeq = s.mailboxSeq := rfl
@[simp] theorem updLaunch_mailboxStatus (l : Nat) (f : Launch → Launch) : (updLaunch s l f).mailboxStatus = s.mailboxStatus := rfl
@[simp] theorem updLaunch_mailboxReq (l : Nat) (f : Launch → Launch) : (updLaunch s l f).mailboxReq = s.mailboxReq := rfl
@[simp] theorem updLaunch_lanes (l : Nat) (f : Launch → Launch) : (updLaunch s l f).lanes = s.lanes := rfl
@[simp] theorem updLaunch_sentPkts (l : Nat) (f : Launch → Launch) : (updLaunch s l f).sentPkts = s.sentPkts := rfl
@[simp] theorem updLaunch_reqs (l : Nat) (f : Launch → Launch) : (updLaunch s l f).reqs = s.reqs := rfl
@[simp] theorem updLaunch_reqQueue (l : Nat) (f : Launch → Launch) : (updLaunch s l f).reqQueue = s.reqQueue := rfl
@[simp] theorem updLaunch_tags (l : Nat) (f : Launch → Launch) : (updLaunch s l f).tags = s.tags := rfl
@[simp] theorem updLaunch_sources (l : Nat) (f : Launch → Launch) : (updLaunch s l f).sources = s.sources := rfl
@[simp] theorem updLaunch_flagWaits (l : Nat) (f : Launch → Launch) : (updLaunch s l f).flagWaits = s.flagWaits := rfl
@[simp] theorem updLaunch_linkRing (l : Nat) (f : Launch → Launch) : (updLaunch s l f).linkRing = s.linkRing := rfl
@[simp] theorem updLaunch_linkTail (l : Nat) (f : Launch → Launch) : (updLaunch s l f).linkTail = s.linkTail := rfl
@[simp] theorem updLaunch_linkHeadHost (l : Nat) (f : Launch → Launch) : (updLaunch s l f).linkHeadHost = s.linkHeadHost := rfl
@[simp] theorem updLaunch_linkHeadFm (l : Nat) (f : Launch → Launch) : (updLaunch s l f).linkHeadFm = s.linkHeadFm := rfl
@[simp] theorem updLaunch_ports (l : Nat) (f : Launch → Launch) : (updLaunch s l f).ports = s.ports := rfl
@[simp] theorem updLaunch_circuits (l : Nat) (f : Launch → Launch) : (updLaunch s l f).circuits = s.circuits := rfl
@[simp] theorem updLaunch_buckles (l : Nat) (f : Launch → Launch) : (updLaunch s l f).buckles = s.buckles := rfl
@[simp] theorem updLaunch_reqId (l : Nat) (f : Launch → Launch) : (updLaunch s l f).reqId = s.reqId := rfl
@[simp] theorem updLaunch_scripts (l : Nat) (f : Launch → Launch) : (updLaunch s l f).scripts = s.scripts := rfl
@[simp] theorem updLaunch_scriptQueue (l : Nat) (f : Launch → Launch) : (updLaunch s l f).scriptQueue = s.scriptQueue := rfl
@[simp] theorem updLaunch_scriptLast (l : Nat) (f : Launch → Launch) : (updLaunch s l f).scriptLast = s.scriptLast := rfl
@[simp] theorem updLaunch_outbox (l : Nat) (f : Launch → Launch) : (updLaunch s l f).outbox = s.outbox := rfl

/-! ## updQueue -/

@[simp] theorem updQueue_agenda (q : Nat) (f : Queue → Queue) : (updQueue s q f).agenda = s.agenda := rfl
@[simp] theorem updQueue_cur (q : Nat) (f : Queue → Queue) : (updQueue s q f).cur = s.cur := rfl
@[simp] theorem updQueue_freeCtr (q : Nat) (f : Queue → Queue) : (updQueue s q f).freeCtr = s.freeCtr := rfl
@[simp] theorem updQueue_nextId (q : Nat) (f : Queue → Queue) : (updQueue s q f).nextId = s.nextId := rfl
@[simp] theorem updQueue_cycle (q : Nat) (f : Queue → Queue) : (updQueue s q f).cycle = s.cycle := rfl
@[simp] theorem updQueue_ns (q : Nat) (f : Queue → Queue) : (updQueue s q f).ns = s.ns := rfl
@[simp] theorem updQueue_issues (q : Nat) (f : Queue → Queue) : (updQueue s q f).issues = s.issues := rfl
@[simp] theorem updQueue_gen (q : Nat) (f : Queue → Queue) : (updQueue s q f).gen = s.gen := rfl
@[simp] theorem updQueue_dev (q : Nat) (f : Queue → Queue) : (updQueue s q f).dev = s.dev := rfl
@[simp] theorem updQueue_status (q : Nat) (f : Queue → Queue) : (updQueue s q f).status = s.status := rfl
@[simp] theorem updQueue_haltDev (q : Nat) (f : Queue → Queue) : (updQueue s q f).haltDev = s.haltDev := rfl
@[simp] theorem updQueue_mem (q : Nat) (f : Queue → Queue) : (updQueue s q f).mem = s.mem := rfl
@[simp] theorem updQueue_keyTag (q : Nat) (f : Queue → Queue) : (updQueue s q f).keyTag = s.keyTag := rfl
@[simp] theorem updQueue_olds (q : Nat) (f : Queue → Queue) : (updQueue s q f).olds = s.olds := rfl
@[simp] theorem updQueue_keys (q : Nat) (f : Queue → Queue) : (updQueue s q f).keys = s.keys := rfl
@[simp] theorem updQueue_epochs (q : Nat) (f : Queue → Queue) : (updQueue s q f).epochs = s.epochs := rfl
@[simp] theorem updQueue_hallmarks (q : Nat) (f : Queue → Queue) : (updQueue s q f).hallmarks = s.hallmarks := rfl
@[simp] theorem updQueue_l2 (q : Nat) (f : Queue → Queue) : (updQueue s q f).l2 = s.l2 := rfl
@[simp] theorem updQueue_arrivals (q : Nat) (f : Queue → Queue) : (updQueue s q f).arrivals = s.arrivals := rfl
@[simp] theorem updQueue_signals (q : Nat) (f : Queue → Queue) : (updQueue s q f).signals = s.signals := rfl
@[simp] theorem updQueue_presence (q : Nat) (f : Queue → Queue) : (updQueue s q f).presence = s.presence := rfl
@[simp] theorem updQueue_ccache (q : Nat) (f : Queue → Queue) : (updQueue s q f).ccache = s.ccache := rfl
@[simp] theorem updQueue_tlb1 (q : Nat) (f : Queue → Queue) : (updQueue s q f).tlb1 = s.tlb1 := rfl
@[simp] theorem updQueue_tlb2 (q : Nat) (f : Queue → Queue) : (updQueue s q f).tlb2 = s.tlb2 := rfl
@[simp] theorem updQueue_therm (q : Nat) (f : Queue → Queue) : (updQueue s q f).therm = s.therm := rfl
@[simp] theorem updQueue_clkstep (q : Nat) (f : Queue → Queue) : (updQueue s q f).clkstep = s.clkstep := rfl
@[simp] theorem updQueue_ecoef (q : Nat) (f : Queue → Queue) : (updQueue s q f).ecoef = s.ecoef := rfl
@[simp] theorem updQueue_payer (q : Nat) (f : Queue → Queue) : (updQueue s q f).payer = s.payer := rfl
@[simp] theorem updQueue_charges (q : Nat) (f : Queue → Queue) : (updQueue s q f).charges = s.charges := rfl
@[simp] theorem updQueue_hostHoles (q : Nat) (f : Queue → Queue) : (updQueue s q f).hostHoles = s.hostHoles := rfl
@[simp] theorem updQueue_cores (q : Nat) (f : Queue → Queue) : (updQueue s q f).cores = s.cores := rfl
@[simp] theorem updQueue_clusters (q : Nat) (f : Queue → Queue) : (updQueue s q f).clusters = s.clusters := rfl
@[simp] theorem updQueue_txs (q : Nat) (f : Queue → Queue) : (updQueue s q f).txs = s.txs := rfl
@[simp] theorem updQueue_blocks (q : Nat) (f : Queue → Queue) : (updQueue s q f).blocks = s.blocks := rfl
@[simp] theorem updQueue_cbs (q : Nat) (f : Queue → Queue) : (updQueue s q f).cbs = s.cbs := rfl
@[simp] theorem updQueue_launches (q : Nat) (f : Queue → Queue) : (updQueue s q f).launches = s.launches := rfl
@[simp] theorem updQueue_graphs (q : Nat) (f : Queue → Queue) : (updQueue s q f).graphs = s.graphs := rfl
@[simp] theorem updQueue_decrs (q : Nat) (f : Queue → Queue) : (updQueue s q f).decrs = s.decrs := rfl
@[simp] theorem updQueue_channels (q : Nat) (f : Queue → Queue) : (updQueue s q f).channels = s.channels := rfl
@[simp] theorem updQueue_buckets (q : Nat) (f : Queue → Queue) : (updQueue s q f).buckets = s.buckets := rfl
@[simp] theorem updQueue_lastq (q : Nat) (f : Queue → Queue) : (updQueue s q f).lastq = s.lastq := rfl
@[simp] theorem updQueue_nmus (q : Nat) (f : Queue → Queue) : (updQueue s q f).nmus = s.nmus := rfl
@[simp] theorem updQueue_colls (q : Nat) (f : Queue → Queue) : (updQueue s q f).colls = s.colls := rfl
@[simp] theorem updQueue_ctxs (q : Nat) (f : Queue → Queue) : (updQueue s q f).ctxs = s.ctxs := rfl
@[simp] theorem updQueue_holder (q : Nat) (f : Queue → Queue) : (updQueue s q f).holder = s.holder := rfl
@[simp] theorem updQueue_frameOwner (q : Nat) (f : Queue → Queue) : (updQueue s q f).frameOwner = s.frameOwner := rfl
@[simp] theorem updQueue_heldRecords (q : Nat) (f : Queue → Queue) : (updQueue s q f).heldRecords = s.heldRecords := rfl
@[simp] theorem updQueue_images (q : Nat) (f : Queue → Queue) : (updQueue s q f).images = s.images := rfl
@[simp] theorem updQueue_handles (q : Nat) (f : Queue → Queue) : (updQueue s q f).handles = s.handles := rfl
@[simp] theorem updQueue_fmSources (q : Nat) (f : Queue → Queue) : (updQueue s q f).fmSources = s.fmSources := rfl
@[simp] theorem updQueue_mailboxSeq (q : Nat) (f : Queue → Queue) : (updQueue s q f).mailboxSeq = s.mailboxSeq := rfl
@[simp] theorem updQueue_mailboxStatus (q : Nat) (f : Queue → Queue) : (updQueue s q f).mailboxStatus = s.mailboxStatus := rfl
@[simp] theorem updQueue_mailboxReq (q : Nat) (f : Queue → Queue) : (updQueue s q f).mailboxReq = s.mailboxReq := rfl
@[simp] theorem updQueue_lanes (q : Nat) (f : Queue → Queue) : (updQueue s q f).lanes = s.lanes := rfl
@[simp] theorem updQueue_sentPkts (q : Nat) (f : Queue → Queue) : (updQueue s q f).sentPkts = s.sentPkts := rfl
@[simp] theorem updQueue_reqs (q : Nat) (f : Queue → Queue) : (updQueue s q f).reqs = s.reqs := rfl
@[simp] theorem updQueue_reqQueue (q : Nat) (f : Queue → Queue) : (updQueue s q f).reqQueue = s.reqQueue := rfl
@[simp] theorem updQueue_tags (q : Nat) (f : Queue → Queue) : (updQueue s q f).tags = s.tags := rfl
@[simp] theorem updQueue_sources (q : Nat) (f : Queue → Queue) : (updQueue s q f).sources = s.sources := rfl
@[simp] theorem updQueue_flagWaits (q : Nat) (f : Queue → Queue) : (updQueue s q f).flagWaits = s.flagWaits := rfl
@[simp] theorem updQueue_linkRing (q : Nat) (f : Queue → Queue) : (updQueue s q f).linkRing = s.linkRing := rfl
@[simp] theorem updQueue_linkTail (q : Nat) (f : Queue → Queue) : (updQueue s q f).linkTail = s.linkTail := rfl
@[simp] theorem updQueue_linkHeadHost (q : Nat) (f : Queue → Queue) : (updQueue s q f).linkHeadHost = s.linkHeadHost := rfl
@[simp] theorem updQueue_linkHeadFm (q : Nat) (f : Queue → Queue) : (updQueue s q f).linkHeadFm = s.linkHeadFm := rfl
@[simp] theorem updQueue_ports (q : Nat) (f : Queue → Queue) : (updQueue s q f).ports = s.ports := rfl
@[simp] theorem updQueue_circuits (q : Nat) (f : Queue → Queue) : (updQueue s q f).circuits = s.circuits := rfl
@[simp] theorem updQueue_buckles (q : Nat) (f : Queue → Queue) : (updQueue s q f).buckles = s.buckles := rfl
@[simp] theorem updQueue_reqId (q : Nat) (f : Queue → Queue) : (updQueue s q f).reqId = s.reqId := rfl
@[simp] theorem updQueue_scripts (q : Nat) (f : Queue → Queue) : (updQueue s q f).scripts = s.scripts := rfl
@[simp] theorem updQueue_scriptQueue (q : Nat) (f : Queue → Queue) : (updQueue s q f).scriptQueue = s.scriptQueue := rfl
@[simp] theorem updQueue_scriptLast (q : Nat) (f : Queue → Queue) : (updQueue s q f).scriptLast = s.scriptLast := rfl
@[simp] theorem updQueue_outbox (q : Nat) (f : Queue → Queue) : (updQueue s q f).outbox = s.outbox := rfl

/-! ## updGraph -/

@[simp] theorem updGraph_agenda (g : Nat) (f : Graph → Graph) : (updGraph s g f).agenda = s.agenda := rfl
@[simp] theorem updGraph_cur (g : Nat) (f : Graph → Graph) : (updGraph s g f).cur = s.cur := rfl
@[simp] theorem updGraph_freeCtr (g : Nat) (f : Graph → Graph) : (updGraph s g f).freeCtr = s.freeCtr := rfl
@[simp] theorem updGraph_nextId (g : Nat) (f : Graph → Graph) : (updGraph s g f).nextId = s.nextId := rfl
@[simp] theorem updGraph_cycle (g : Nat) (f : Graph → Graph) : (updGraph s g f).cycle = s.cycle := rfl
@[simp] theorem updGraph_ns (g : Nat) (f : Graph → Graph) : (updGraph s g f).ns = s.ns := rfl
@[simp] theorem updGraph_issues (g : Nat) (f : Graph → Graph) : (updGraph s g f).issues = s.issues := rfl
@[simp] theorem updGraph_gen (g : Nat) (f : Graph → Graph) : (updGraph s g f).gen = s.gen := rfl
@[simp] theorem updGraph_dev (g : Nat) (f : Graph → Graph) : (updGraph s g f).dev = s.dev := rfl
@[simp] theorem updGraph_status (g : Nat) (f : Graph → Graph) : (updGraph s g f).status = s.status := rfl
@[simp] theorem updGraph_haltDev (g : Nat) (f : Graph → Graph) : (updGraph s g f).haltDev = s.haltDev := rfl
@[simp] theorem updGraph_mem (g : Nat) (f : Graph → Graph) : (updGraph s g f).mem = s.mem := rfl
@[simp] theorem updGraph_keyTag (g : Nat) (f : Graph → Graph) : (updGraph s g f).keyTag = s.keyTag := rfl
@[simp] theorem updGraph_olds (g : Nat) (f : Graph → Graph) : (updGraph s g f).olds = s.olds := rfl
@[simp] theorem updGraph_keys (g : Nat) (f : Graph → Graph) : (updGraph s g f).keys = s.keys := rfl
@[simp] theorem updGraph_epochs (g : Nat) (f : Graph → Graph) : (updGraph s g f).epochs = s.epochs := rfl
@[simp] theorem updGraph_hallmarks (g : Nat) (f : Graph → Graph) : (updGraph s g f).hallmarks = s.hallmarks := rfl
@[simp] theorem updGraph_l2 (g : Nat) (f : Graph → Graph) : (updGraph s g f).l2 = s.l2 := rfl
@[simp] theorem updGraph_arrivals (g : Nat) (f : Graph → Graph) : (updGraph s g f).arrivals = s.arrivals := rfl
@[simp] theorem updGraph_signals (g : Nat) (f : Graph → Graph) : (updGraph s g f).signals = s.signals := rfl
@[simp] theorem updGraph_presence (g : Nat) (f : Graph → Graph) : (updGraph s g f).presence = s.presence := rfl
@[simp] theorem updGraph_ccache (g : Nat) (f : Graph → Graph) : (updGraph s g f).ccache = s.ccache := rfl
@[simp] theorem updGraph_tlb1 (g : Nat) (f : Graph → Graph) : (updGraph s g f).tlb1 = s.tlb1 := rfl
@[simp] theorem updGraph_tlb2 (g : Nat) (f : Graph → Graph) : (updGraph s g f).tlb2 = s.tlb2 := rfl
@[simp] theorem updGraph_therm (g : Nat) (f : Graph → Graph) : (updGraph s g f).therm = s.therm := rfl
@[simp] theorem updGraph_clkstep (g : Nat) (f : Graph → Graph) : (updGraph s g f).clkstep = s.clkstep := rfl
@[simp] theorem updGraph_ecoef (g : Nat) (f : Graph → Graph) : (updGraph s g f).ecoef = s.ecoef := rfl
@[simp] theorem updGraph_payer (g : Nat) (f : Graph → Graph) : (updGraph s g f).payer = s.payer := rfl
@[simp] theorem updGraph_charges (g : Nat) (f : Graph → Graph) : (updGraph s g f).charges = s.charges := rfl
@[simp] theorem updGraph_hostHoles (g : Nat) (f : Graph → Graph) : (updGraph s g f).hostHoles = s.hostHoles := rfl
@[simp] theorem updGraph_cores (g : Nat) (f : Graph → Graph) : (updGraph s g f).cores = s.cores := rfl
@[simp] theorem updGraph_clusters (g : Nat) (f : Graph → Graph) : (updGraph s g f).clusters = s.clusters := rfl
@[simp] theorem updGraph_txs (g : Nat) (f : Graph → Graph) : (updGraph s g f).txs = s.txs := rfl
@[simp] theorem updGraph_blocks (g : Nat) (f : Graph → Graph) : (updGraph s g f).blocks = s.blocks := rfl
@[simp] theorem updGraph_cbs (g : Nat) (f : Graph → Graph) : (updGraph s g f).cbs = s.cbs := rfl
@[simp] theorem updGraph_launches (g : Nat) (f : Graph → Graph) : (updGraph s g f).launches = s.launches := rfl
@[simp] theorem updGraph_decrs (g : Nat) (f : Graph → Graph) : (updGraph s g f).decrs = s.decrs := rfl
@[simp] theorem updGraph_channels (g : Nat) (f : Graph → Graph) : (updGraph s g f).channels = s.channels := rfl
@[simp] theorem updGraph_buckets (g : Nat) (f : Graph → Graph) : (updGraph s g f).buckets = s.buckets := rfl
@[simp] theorem updGraph_queues (g : Nat) (f : Graph → Graph) : (updGraph s g f).queues = s.queues := rfl
@[simp] theorem updGraph_lastq (g : Nat) (f : Graph → Graph) : (updGraph s g f).lastq = s.lastq := rfl
@[simp] theorem updGraph_nmus (g : Nat) (f : Graph → Graph) : (updGraph s g f).nmus = s.nmus := rfl
@[simp] theorem updGraph_colls (g : Nat) (f : Graph → Graph) : (updGraph s g f).colls = s.colls := rfl
@[simp] theorem updGraph_ctxs (g : Nat) (f : Graph → Graph) : (updGraph s g f).ctxs = s.ctxs := rfl
@[simp] theorem updGraph_holder (g : Nat) (f : Graph → Graph) : (updGraph s g f).holder = s.holder := rfl
@[simp] theorem updGraph_frameOwner (g : Nat) (f : Graph → Graph) : (updGraph s g f).frameOwner = s.frameOwner := rfl
@[simp] theorem updGraph_heldRecords (g : Nat) (f : Graph → Graph) : (updGraph s g f).heldRecords = s.heldRecords := rfl
@[simp] theorem updGraph_images (g : Nat) (f : Graph → Graph) : (updGraph s g f).images = s.images := rfl
@[simp] theorem updGraph_handles (g : Nat) (f : Graph → Graph) : (updGraph s g f).handles = s.handles := rfl
@[simp] theorem updGraph_fmSources (g : Nat) (f : Graph → Graph) : (updGraph s g f).fmSources = s.fmSources := rfl
@[simp] theorem updGraph_mailboxSeq (g : Nat) (f : Graph → Graph) : (updGraph s g f).mailboxSeq = s.mailboxSeq := rfl
@[simp] theorem updGraph_mailboxStatus (g : Nat) (f : Graph → Graph) : (updGraph s g f).mailboxStatus = s.mailboxStatus := rfl
@[simp] theorem updGraph_mailboxReq (g : Nat) (f : Graph → Graph) : (updGraph s g f).mailboxReq = s.mailboxReq := rfl
@[simp] theorem updGraph_lanes (g : Nat) (f : Graph → Graph) : (updGraph s g f).lanes = s.lanes := rfl
@[simp] theorem updGraph_sentPkts (g : Nat) (f : Graph → Graph) : (updGraph s g f).sentPkts = s.sentPkts := rfl
@[simp] theorem updGraph_reqs (g : Nat) (f : Graph → Graph) : (updGraph s g f).reqs = s.reqs := rfl
@[simp] theorem updGraph_reqQueue (g : Nat) (f : Graph → Graph) : (updGraph s g f).reqQueue = s.reqQueue := rfl
@[simp] theorem updGraph_tags (g : Nat) (f : Graph → Graph) : (updGraph s g f).tags = s.tags := rfl
@[simp] theorem updGraph_sources (g : Nat) (f : Graph → Graph) : (updGraph s g f).sources = s.sources := rfl
@[simp] theorem updGraph_flagWaits (g : Nat) (f : Graph → Graph) : (updGraph s g f).flagWaits = s.flagWaits := rfl
@[simp] theorem updGraph_linkRing (g : Nat) (f : Graph → Graph) : (updGraph s g f).linkRing = s.linkRing := rfl
@[simp] theorem updGraph_linkTail (g : Nat) (f : Graph → Graph) : (updGraph s g f).linkTail = s.linkTail := rfl
@[simp] theorem updGraph_linkHeadHost (g : Nat) (f : Graph → Graph) : (updGraph s g f).linkHeadHost = s.linkHeadHost := rfl
@[simp] theorem updGraph_linkHeadFm (g : Nat) (f : Graph → Graph) : (updGraph s g f).linkHeadFm = s.linkHeadFm := rfl
@[simp] theorem updGraph_ports (g : Nat) (f : Graph → Graph) : (updGraph s g f).ports = s.ports := rfl
@[simp] theorem updGraph_circuits (g : Nat) (f : Graph → Graph) : (updGraph s g f).circuits = s.circuits := rfl
@[simp] theorem updGraph_buckles (g : Nat) (f : Graph → Graph) : (updGraph s g f).buckles = s.buckles := rfl
@[simp] theorem updGraph_reqId (g : Nat) (f : Graph → Graph) : (updGraph s g f).reqId = s.reqId := rfl
@[simp] theorem updGraph_scripts (g : Nat) (f : Graph → Graph) : (updGraph s g f).scripts = s.scripts := rfl
@[simp] theorem updGraph_scriptQueue (g : Nat) (f : Graph → Graph) : (updGraph s g f).scriptQueue = s.scriptQueue := rfl
@[simp] theorem updGraph_scriptLast (g : Nat) (f : Graph → Graph) : (updGraph s g f).scriptLast = s.scriptLast := rfl
@[simp] theorem updGraph_outbox (g : Nat) (f : Graph → Graph) : (updGraph s g f).outbox = s.outbox := rfl

/-! ## updNode -/

@[simp] theorem updNode_agenda (g n : Nat) (f : Node → Node) : (updNode s g n f).agenda = s.agenda := rfl
@[simp] theorem updNode_cur (g n : Nat) (f : Node → Node) : (updNode s g n f).cur = s.cur := rfl
@[simp] theorem updNode_freeCtr (g n : Nat) (f : Node → Node) : (updNode s g n f).freeCtr = s.freeCtr := rfl
@[simp] theorem updNode_nextId (g n : Nat) (f : Node → Node) : (updNode s g n f).nextId = s.nextId := rfl
@[simp] theorem updNode_cycle (g n : Nat) (f : Node → Node) : (updNode s g n f).cycle = s.cycle := rfl
@[simp] theorem updNode_ns (g n : Nat) (f : Node → Node) : (updNode s g n f).ns = s.ns := rfl
@[simp] theorem updNode_issues (g n : Nat) (f : Node → Node) : (updNode s g n f).issues = s.issues := rfl
@[simp] theorem updNode_gen (g n : Nat) (f : Node → Node) : (updNode s g n f).gen = s.gen := rfl
@[simp] theorem updNode_dev (g n : Nat) (f : Node → Node) : (updNode s g n f).dev = s.dev := rfl
@[simp] theorem updNode_status (g n : Nat) (f : Node → Node) : (updNode s g n f).status = s.status := rfl
@[simp] theorem updNode_haltDev (g n : Nat) (f : Node → Node) : (updNode s g n f).haltDev = s.haltDev := rfl
@[simp] theorem updNode_mem (g n : Nat) (f : Node → Node) : (updNode s g n f).mem = s.mem := rfl
@[simp] theorem updNode_keyTag (g n : Nat) (f : Node → Node) : (updNode s g n f).keyTag = s.keyTag := rfl
@[simp] theorem updNode_olds (g n : Nat) (f : Node → Node) : (updNode s g n f).olds = s.olds := rfl
@[simp] theorem updNode_keys (g n : Nat) (f : Node → Node) : (updNode s g n f).keys = s.keys := rfl
@[simp] theorem updNode_epochs (g n : Nat) (f : Node → Node) : (updNode s g n f).epochs = s.epochs := rfl
@[simp] theorem updNode_hallmarks (g n : Nat) (f : Node → Node) : (updNode s g n f).hallmarks = s.hallmarks := rfl
@[simp] theorem updNode_l2 (g n : Nat) (f : Node → Node) : (updNode s g n f).l2 = s.l2 := rfl
@[simp] theorem updNode_arrivals (g n : Nat) (f : Node → Node) : (updNode s g n f).arrivals = s.arrivals := rfl
@[simp] theorem updNode_signals (g n : Nat) (f : Node → Node) : (updNode s g n f).signals = s.signals := rfl
@[simp] theorem updNode_presence (g n : Nat) (f : Node → Node) : (updNode s g n f).presence = s.presence := rfl
@[simp] theorem updNode_ccache (g n : Nat) (f : Node → Node) : (updNode s g n f).ccache = s.ccache := rfl
@[simp] theorem updNode_tlb1 (g n : Nat) (f : Node → Node) : (updNode s g n f).tlb1 = s.tlb1 := rfl
@[simp] theorem updNode_tlb2 (g n : Nat) (f : Node → Node) : (updNode s g n f).tlb2 = s.tlb2 := rfl
@[simp] theorem updNode_therm (g n : Nat) (f : Node → Node) : (updNode s g n f).therm = s.therm := rfl
@[simp] theorem updNode_clkstep (g n : Nat) (f : Node → Node) : (updNode s g n f).clkstep = s.clkstep := rfl
@[simp] theorem updNode_ecoef (g n : Nat) (f : Node → Node) : (updNode s g n f).ecoef = s.ecoef := rfl
@[simp] theorem updNode_payer (g n : Nat) (f : Node → Node) : (updNode s g n f).payer = s.payer := rfl
@[simp] theorem updNode_charges (g n : Nat) (f : Node → Node) : (updNode s g n f).charges = s.charges := rfl
@[simp] theorem updNode_hostHoles (g n : Nat) (f : Node → Node) : (updNode s g n f).hostHoles = s.hostHoles := rfl
@[simp] theorem updNode_cores (g n : Nat) (f : Node → Node) : (updNode s g n f).cores = s.cores := rfl
@[simp] theorem updNode_clusters (g n : Nat) (f : Node → Node) : (updNode s g n f).clusters = s.clusters := rfl
@[simp] theorem updNode_txs (g n : Nat) (f : Node → Node) : (updNode s g n f).txs = s.txs := rfl
@[simp] theorem updNode_blocks (g n : Nat) (f : Node → Node) : (updNode s g n f).blocks = s.blocks := rfl
@[simp] theorem updNode_cbs (g n : Nat) (f : Node → Node) : (updNode s g n f).cbs = s.cbs := rfl
@[simp] theorem updNode_launches (g n : Nat) (f : Node → Node) : (updNode s g n f).launches = s.launches := rfl
@[simp] theorem updNode_decrs (g n : Nat) (f : Node → Node) : (updNode s g n f).decrs = s.decrs := rfl
@[simp] theorem updNode_channels (g n : Nat) (f : Node → Node) : (updNode s g n f).channels = s.channels := rfl
@[simp] theorem updNode_buckets (g n : Nat) (f : Node → Node) : (updNode s g n f).buckets = s.buckets := rfl
@[simp] theorem updNode_queues (g n : Nat) (f : Node → Node) : (updNode s g n f).queues = s.queues := rfl
@[simp] theorem updNode_lastq (g n : Nat) (f : Node → Node) : (updNode s g n f).lastq = s.lastq := rfl
@[simp] theorem updNode_nmus (g n : Nat) (f : Node → Node) : (updNode s g n f).nmus = s.nmus := rfl
@[simp] theorem updNode_colls (g n : Nat) (f : Node → Node) : (updNode s g n f).colls = s.colls := rfl
@[simp] theorem updNode_ctxs (g n : Nat) (f : Node → Node) : (updNode s g n f).ctxs = s.ctxs := rfl
@[simp] theorem updNode_holder (g n : Nat) (f : Node → Node) : (updNode s g n f).holder = s.holder := rfl
@[simp] theorem updNode_frameOwner (g n : Nat) (f : Node → Node) : (updNode s g n f).frameOwner = s.frameOwner := rfl
@[simp] theorem updNode_heldRecords (g n : Nat) (f : Node → Node) : (updNode s g n f).heldRecords = s.heldRecords := rfl
@[simp] theorem updNode_images (g n : Nat) (f : Node → Node) : (updNode s g n f).images = s.images := rfl
@[simp] theorem updNode_handles (g n : Nat) (f : Node → Node) : (updNode s g n f).handles = s.handles := rfl
@[simp] theorem updNode_fmSources (g n : Nat) (f : Node → Node) : (updNode s g n f).fmSources = s.fmSources := rfl
@[simp] theorem updNode_mailboxSeq (g n : Nat) (f : Node → Node) : (updNode s g n f).mailboxSeq = s.mailboxSeq := rfl
@[simp] theorem updNode_mailboxStatus (g n : Nat) (f : Node → Node) : (updNode s g n f).mailboxStatus = s.mailboxStatus := rfl
@[simp] theorem updNode_mailboxReq (g n : Nat) (f : Node → Node) : (updNode s g n f).mailboxReq = s.mailboxReq := rfl
@[simp] theorem updNode_lanes (g n : Nat) (f : Node → Node) : (updNode s g n f).lanes = s.lanes := rfl
@[simp] theorem updNode_sentPkts (g n : Nat) (f : Node → Node) : (updNode s g n f).sentPkts = s.sentPkts := rfl
@[simp] theorem updNode_reqs (g n : Nat) (f : Node → Node) : (updNode s g n f).reqs = s.reqs := rfl
@[simp] theorem updNode_reqQueue (g n : Nat) (f : Node → Node) : (updNode s g n f).reqQueue = s.reqQueue := rfl
@[simp] theorem updNode_tags (g n : Nat) (f : Node → Node) : (updNode s g n f).tags = s.tags := rfl
@[simp] theorem updNode_sources (g n : Nat) (f : Node → Node) : (updNode s g n f).sources = s.sources := rfl
@[simp] theorem updNode_flagWaits (g n : Nat) (f : Node → Node) : (updNode s g n f).flagWaits = s.flagWaits := rfl
@[simp] theorem updNode_linkRing (g n : Nat) (f : Node → Node) : (updNode s g n f).linkRing = s.linkRing := rfl
@[simp] theorem updNode_linkTail (g n : Nat) (f : Node → Node) : (updNode s g n f).linkTail = s.linkTail := rfl
@[simp] theorem updNode_linkHeadHost (g n : Nat) (f : Node → Node) : (updNode s g n f).linkHeadHost = s.linkHeadHost := rfl
@[simp] theorem updNode_linkHeadFm (g n : Nat) (f : Node → Node) : (updNode s g n f).linkHeadFm = s.linkHeadFm := rfl
@[simp] theorem updNode_ports (g n : Nat) (f : Node → Node) : (updNode s g n f).ports = s.ports := rfl
@[simp] theorem updNode_circuits (g n : Nat) (f : Node → Node) : (updNode s g n f).circuits = s.circuits := rfl
@[simp] theorem updNode_buckles (g n : Nat) (f : Node → Node) : (updNode s g n f).buckles = s.buckles := rfl
@[simp] theorem updNode_reqId (g n : Nat) (f : Node → Node) : (updNode s g n f).reqId = s.reqId := rfl
@[simp] theorem updNode_scripts (g n : Nat) (f : Node → Node) : (updNode s g n f).scripts = s.scripts := rfl
@[simp] theorem updNode_scriptQueue (g n : Nat) (f : Node → Node) : (updNode s g n f).scriptQueue = s.scriptQueue := rfl
@[simp] theorem updNode_scriptLast (g n : Nat) (f : Node → Node) : (updNode s g n f).scriptLast = s.scriptLast := rfl
@[simp] theorem updNode_outbox (g n : Nat) (f : Node → Node) : (updNode s g n f).outbox = s.outbox := rfl

/-! ## updScript -/

@[simp] theorem updScript_agenda (p : Nat) (f : Script → Script) : (updScript s p f).agenda = s.agenda := rfl
@[simp] theorem updScript_cur (p : Nat) (f : Script → Script) : (updScript s p f).cur = s.cur := rfl
@[simp] theorem updScript_freeCtr (p : Nat) (f : Script → Script) : (updScript s p f).freeCtr = s.freeCtr := rfl
@[simp] theorem updScript_nextId (p : Nat) (f : Script → Script) : (updScript s p f).nextId = s.nextId := rfl
@[simp] theorem updScript_cycle (p : Nat) (f : Script → Script) : (updScript s p f).cycle = s.cycle := rfl
@[simp] theorem updScript_ns (p : Nat) (f : Script → Script) : (updScript s p f).ns = s.ns := rfl
@[simp] theorem updScript_issues (p : Nat) (f : Script → Script) : (updScript s p f).issues = s.issues := rfl
@[simp] theorem updScript_gen (p : Nat) (f : Script → Script) : (updScript s p f).gen = s.gen := rfl
@[simp] theorem updScript_dev (p : Nat) (f : Script → Script) : (updScript s p f).dev = s.dev := rfl
@[simp] theorem updScript_status (p : Nat) (f : Script → Script) : (updScript s p f).status = s.status := rfl
@[simp] theorem updScript_haltDev (p : Nat) (f : Script → Script) : (updScript s p f).haltDev = s.haltDev := rfl
@[simp] theorem updScript_mem (p : Nat) (f : Script → Script) : (updScript s p f).mem = s.mem := rfl
@[simp] theorem updScript_keyTag (p : Nat) (f : Script → Script) : (updScript s p f).keyTag = s.keyTag := rfl
@[simp] theorem updScript_olds (p : Nat) (f : Script → Script) : (updScript s p f).olds = s.olds := rfl
@[simp] theorem updScript_keys (p : Nat) (f : Script → Script) : (updScript s p f).keys = s.keys := rfl
@[simp] theorem updScript_epochs (p : Nat) (f : Script → Script) : (updScript s p f).epochs = s.epochs := rfl
@[simp] theorem updScript_hallmarks (p : Nat) (f : Script → Script) : (updScript s p f).hallmarks = s.hallmarks := rfl
@[simp] theorem updScript_l2 (p : Nat) (f : Script → Script) : (updScript s p f).l2 = s.l2 := rfl
@[simp] theorem updScript_arrivals (p : Nat) (f : Script → Script) : (updScript s p f).arrivals = s.arrivals := rfl
@[simp] theorem updScript_signals (p : Nat) (f : Script → Script) : (updScript s p f).signals = s.signals := rfl
@[simp] theorem updScript_presence (p : Nat) (f : Script → Script) : (updScript s p f).presence = s.presence := rfl
@[simp] theorem updScript_ccache (p : Nat) (f : Script → Script) : (updScript s p f).ccache = s.ccache := rfl
@[simp] theorem updScript_tlb1 (p : Nat) (f : Script → Script) : (updScript s p f).tlb1 = s.tlb1 := rfl
@[simp] theorem updScript_tlb2 (p : Nat) (f : Script → Script) : (updScript s p f).tlb2 = s.tlb2 := rfl
@[simp] theorem updScript_therm (p : Nat) (f : Script → Script) : (updScript s p f).therm = s.therm := rfl
@[simp] theorem updScript_clkstep (p : Nat) (f : Script → Script) : (updScript s p f).clkstep = s.clkstep := rfl
@[simp] theorem updScript_ecoef (p : Nat) (f : Script → Script) : (updScript s p f).ecoef = s.ecoef := rfl
@[simp] theorem updScript_payer (p : Nat) (f : Script → Script) : (updScript s p f).payer = s.payer := rfl
@[simp] theorem updScript_charges (p : Nat) (f : Script → Script) : (updScript s p f).charges = s.charges := rfl
@[simp] theorem updScript_hostHoles (p : Nat) (f : Script → Script) : (updScript s p f).hostHoles = s.hostHoles := rfl
@[simp] theorem updScript_cores (p : Nat) (f : Script → Script) : (updScript s p f).cores = s.cores := rfl
@[simp] theorem updScript_clusters (p : Nat) (f : Script → Script) : (updScript s p f).clusters = s.clusters := rfl
@[simp] theorem updScript_txs (p : Nat) (f : Script → Script) : (updScript s p f).txs = s.txs := rfl
@[simp] theorem updScript_blocks (p : Nat) (f : Script → Script) : (updScript s p f).blocks = s.blocks := rfl
@[simp] theorem updScript_cbs (p : Nat) (f : Script → Script) : (updScript s p f).cbs = s.cbs := rfl
@[simp] theorem updScript_launches (p : Nat) (f : Script → Script) : (updScript s p f).launches = s.launches := rfl
@[simp] theorem updScript_graphs (p : Nat) (f : Script → Script) : (updScript s p f).graphs = s.graphs := rfl
@[simp] theorem updScript_decrs (p : Nat) (f : Script → Script) : (updScript s p f).decrs = s.decrs := rfl
@[simp] theorem updScript_channels (p : Nat) (f : Script → Script) : (updScript s p f).channels = s.channels := rfl
@[simp] theorem updScript_buckets (p : Nat) (f : Script → Script) : (updScript s p f).buckets = s.buckets := rfl
@[simp] theorem updScript_queues (p : Nat) (f : Script → Script) : (updScript s p f).queues = s.queues := rfl
@[simp] theorem updScript_lastq (p : Nat) (f : Script → Script) : (updScript s p f).lastq = s.lastq := rfl
@[simp] theorem updScript_nmus (p : Nat) (f : Script → Script) : (updScript s p f).nmus = s.nmus := rfl
@[simp] theorem updScript_colls (p : Nat) (f : Script → Script) : (updScript s p f).colls = s.colls := rfl
@[simp] theorem updScript_ctxs (p : Nat) (f : Script → Script) : (updScript s p f).ctxs = s.ctxs := rfl
@[simp] theorem updScript_holder (p : Nat) (f : Script → Script) : (updScript s p f).holder = s.holder := rfl
@[simp] theorem updScript_frameOwner (p : Nat) (f : Script → Script) : (updScript s p f).frameOwner = s.frameOwner := rfl
@[simp] theorem updScript_heldRecords (p : Nat) (f : Script → Script) : (updScript s p f).heldRecords = s.heldRecords := rfl
@[simp] theorem updScript_images (p : Nat) (f : Script → Script) : (updScript s p f).images = s.images := rfl
@[simp] theorem updScript_handles (p : Nat) (f : Script → Script) : (updScript s p f).handles = s.handles := rfl
@[simp] theorem updScript_fmSources (p : Nat) (f : Script → Script) : (updScript s p f).fmSources = s.fmSources := rfl
@[simp] theorem updScript_mailboxSeq (p : Nat) (f : Script → Script) : (updScript s p f).mailboxSeq = s.mailboxSeq := rfl
@[simp] theorem updScript_mailboxStatus (p : Nat) (f : Script → Script) : (updScript s p f).mailboxStatus = s.mailboxStatus := rfl
@[simp] theorem updScript_mailboxReq (p : Nat) (f : Script → Script) : (updScript s p f).mailboxReq = s.mailboxReq := rfl
@[simp] theorem updScript_lanes (p : Nat) (f : Script → Script) : (updScript s p f).lanes = s.lanes := rfl
@[simp] theorem updScript_sentPkts (p : Nat) (f : Script → Script) : (updScript s p f).sentPkts = s.sentPkts := rfl
@[simp] theorem updScript_reqs (p : Nat) (f : Script → Script) : (updScript s p f).reqs = s.reqs := rfl
@[simp] theorem updScript_reqQueue (p : Nat) (f : Script → Script) : (updScript s p f).reqQueue = s.reqQueue := rfl
@[simp] theorem updScript_tags (p : Nat) (f : Script → Script) : (updScript s p f).tags = s.tags := rfl
@[simp] theorem updScript_sources (p : Nat) (f : Script → Script) : (updScript s p f).sources = s.sources := rfl
@[simp] theorem updScript_flagWaits (p : Nat) (f : Script → Script) : (updScript s p f).flagWaits = s.flagWaits := rfl
@[simp] theorem updScript_linkRing (p : Nat) (f : Script → Script) : (updScript s p f).linkRing = s.linkRing := rfl
@[simp] theorem updScript_linkTail (p : Nat) (f : Script → Script) : (updScript s p f).linkTail = s.linkTail := rfl
@[simp] theorem updScript_linkHeadHost (p : Nat) (f : Script → Script) : (updScript s p f).linkHeadHost = s.linkHeadHost := rfl
@[simp] theorem updScript_linkHeadFm (p : Nat) (f : Script → Script) : (updScript s p f).linkHeadFm = s.linkHeadFm := rfl
@[simp] theorem updScript_ports (p : Nat) (f : Script → Script) : (updScript s p f).ports = s.ports := rfl
@[simp] theorem updScript_circuits (p : Nat) (f : Script → Script) : (updScript s p f).circuits = s.circuits := rfl
@[simp] theorem updScript_buckles (p : Nat) (f : Script → Script) : (updScript s p f).buckles = s.buckles := rfl
@[simp] theorem updScript_reqId (p : Nat) (f : Script → Script) : (updScript s p f).reqId = s.reqId := rfl
@[simp] theorem updScript_scriptQueue (p : Nat) (f : Script → Script) : (updScript s p f).scriptQueue = s.scriptQueue := rfl
@[simp] theorem updScript_scriptLast (p : Nat) (f : Script → Script) : (updScript s p f).scriptLast = s.scriptLast := rfl
@[simp] theorem updScript_outbox (p : Nat) (f : Script → Script) : (updScript s p f).outbox = s.outbox := rfl

/-! ## updCircuit -/

@[simp] theorem updCircuit_agenda (p : Nat) (f : Circuit → Circuit) : (updCircuit s p f).agenda = s.agenda := rfl
@[simp] theorem updCircuit_cur (p : Nat) (f : Circuit → Circuit) : (updCircuit s p f).cur = s.cur := rfl
@[simp] theorem updCircuit_freeCtr (p : Nat) (f : Circuit → Circuit) : (updCircuit s p f).freeCtr = s.freeCtr := rfl
@[simp] theorem updCircuit_nextId (p : Nat) (f : Circuit → Circuit) : (updCircuit s p f).nextId = s.nextId := rfl
@[simp] theorem updCircuit_cycle (p : Nat) (f : Circuit → Circuit) : (updCircuit s p f).cycle = s.cycle := rfl
@[simp] theorem updCircuit_ns (p : Nat) (f : Circuit → Circuit) : (updCircuit s p f).ns = s.ns := rfl
@[simp] theorem updCircuit_issues (p : Nat) (f : Circuit → Circuit) : (updCircuit s p f).issues = s.issues := rfl
@[simp] theorem updCircuit_gen (p : Nat) (f : Circuit → Circuit) : (updCircuit s p f).gen = s.gen := rfl
@[simp] theorem updCircuit_dev (p : Nat) (f : Circuit → Circuit) : (updCircuit s p f).dev = s.dev := rfl
@[simp] theorem updCircuit_status (p : Nat) (f : Circuit → Circuit) : (updCircuit s p f).status = s.status := rfl
@[simp] theorem updCircuit_haltDev (p : Nat) (f : Circuit → Circuit) : (updCircuit s p f).haltDev = s.haltDev := rfl
@[simp] theorem updCircuit_mem (p : Nat) (f : Circuit → Circuit) : (updCircuit s p f).mem = s.mem := rfl
@[simp] theorem updCircuit_keyTag (p : Nat) (f : Circuit → Circuit) : (updCircuit s p f).keyTag = s.keyTag := rfl
@[simp] theorem updCircuit_olds (p : Nat) (f : Circuit → Circuit) : (updCircuit s p f).olds = s.olds := rfl
@[simp] theorem updCircuit_keys (p : Nat) (f : Circuit → Circuit) : (updCircuit s p f).keys = s.keys := rfl
@[simp] theorem updCircuit_epochs (p : Nat) (f : Circuit → Circuit) : (updCircuit s p f).epochs = s.epochs := rfl
@[simp] theorem updCircuit_hallmarks (p : Nat) (f : Circuit → Circuit) : (updCircuit s p f).hallmarks = s.hallmarks := rfl
@[simp] theorem updCircuit_l2 (p : Nat) (f : Circuit → Circuit) : (updCircuit s p f).l2 = s.l2 := rfl
@[simp] theorem updCircuit_arrivals (p : Nat) (f : Circuit → Circuit) : (updCircuit s p f).arrivals = s.arrivals := rfl
@[simp] theorem updCircuit_signals (p : Nat) (f : Circuit → Circuit) : (updCircuit s p f).signals = s.signals := rfl
@[simp] theorem updCircuit_presence (p : Nat) (f : Circuit → Circuit) : (updCircuit s p f).presence = s.presence := rfl
@[simp] theorem updCircuit_ccache (p : Nat) (f : Circuit → Circuit) : (updCircuit s p f).ccache = s.ccache := rfl
@[simp] theorem updCircuit_tlb1 (p : Nat) (f : Circuit → Circuit) : (updCircuit s p f).tlb1 = s.tlb1 := rfl
@[simp] theorem updCircuit_tlb2 (p : Nat) (f : Circuit → Circuit) : (updCircuit s p f).tlb2 = s.tlb2 := rfl
@[simp] theorem updCircuit_therm (p : Nat) (f : Circuit → Circuit) : (updCircuit s p f).therm = s.therm := rfl
@[simp] theorem updCircuit_clkstep (p : Nat) (f : Circuit → Circuit) : (updCircuit s p f).clkstep = s.clkstep := rfl
@[simp] theorem updCircuit_ecoef (p : Nat) (f : Circuit → Circuit) : (updCircuit s p f).ecoef = s.ecoef := rfl
@[simp] theorem updCircuit_payer (p : Nat) (f : Circuit → Circuit) : (updCircuit s p f).payer = s.payer := rfl
@[simp] theorem updCircuit_charges (p : Nat) (f : Circuit → Circuit) : (updCircuit s p f).charges = s.charges := rfl
@[simp] theorem updCircuit_hostHoles (p : Nat) (f : Circuit → Circuit) : (updCircuit s p f).hostHoles = s.hostHoles := rfl
@[simp] theorem updCircuit_cores (p : Nat) (f : Circuit → Circuit) : (updCircuit s p f).cores = s.cores := rfl
@[simp] theorem updCircuit_clusters (p : Nat) (f : Circuit → Circuit) : (updCircuit s p f).clusters = s.clusters := rfl
@[simp] theorem updCircuit_txs (p : Nat) (f : Circuit → Circuit) : (updCircuit s p f).txs = s.txs := rfl
@[simp] theorem updCircuit_blocks (p : Nat) (f : Circuit → Circuit) : (updCircuit s p f).blocks = s.blocks := rfl
@[simp] theorem updCircuit_cbs (p : Nat) (f : Circuit → Circuit) : (updCircuit s p f).cbs = s.cbs := rfl
@[simp] theorem updCircuit_launches (p : Nat) (f : Circuit → Circuit) : (updCircuit s p f).launches = s.launches := rfl
@[simp] theorem updCircuit_graphs (p : Nat) (f : Circuit → Circuit) : (updCircuit s p f).graphs = s.graphs := rfl
@[simp] theorem updCircuit_decrs (p : Nat) (f : Circuit → Circuit) : (updCircuit s p f).decrs = s.decrs := rfl
@[simp] theorem updCircuit_channels (p : Nat) (f : Circuit → Circuit) : (updCircuit s p f).channels = s.channels := rfl
@[simp] theorem updCircuit_buckets (p : Nat) (f : Circuit → Circuit) : (updCircuit s p f).buckets = s.buckets := rfl
@[simp] theorem updCircuit_queues (p : Nat) (f : Circuit → Circuit) : (updCircuit s p f).queues = s.queues := rfl
@[simp] theorem updCircuit_lastq (p : Nat) (f : Circuit → Circuit) : (updCircuit s p f).lastq = s.lastq := rfl
@[simp] theorem updCircuit_nmus (p : Nat) (f : Circuit → Circuit) : (updCircuit s p f).nmus = s.nmus := rfl
@[simp] theorem updCircuit_colls (p : Nat) (f : Circuit → Circuit) : (updCircuit s p f).colls = s.colls := rfl
@[simp] theorem updCircuit_ctxs (p : Nat) (f : Circuit → Circuit) : (updCircuit s p f).ctxs = s.ctxs := rfl
@[simp] theorem updCircuit_holder (p : Nat) (f : Circuit → Circuit) : (updCircuit s p f).holder = s.holder := rfl
@[simp] theorem updCircuit_frameOwner (p : Nat) (f : Circuit → Circuit) : (updCircuit s p f).frameOwner = s.frameOwner := rfl
@[simp] theorem updCircuit_heldRecords (p : Nat) (f : Circuit → Circuit) : (updCircuit s p f).heldRecords = s.heldRecords := rfl
@[simp] theorem updCircuit_images (p : Nat) (f : Circuit → Circuit) : (updCircuit s p f).images = s.images := rfl
@[simp] theorem updCircuit_handles (p : Nat) (f : Circuit → Circuit) : (updCircuit s p f).handles = s.handles := rfl
@[simp] theorem updCircuit_fmSources (p : Nat) (f : Circuit → Circuit) : (updCircuit s p f).fmSources = s.fmSources := rfl
@[simp] theorem updCircuit_mailboxSeq (p : Nat) (f : Circuit → Circuit) : (updCircuit s p f).mailboxSeq = s.mailboxSeq := rfl
@[simp] theorem updCircuit_mailboxStatus (p : Nat) (f : Circuit → Circuit) : (updCircuit s p f).mailboxStatus = s.mailboxStatus := rfl
@[simp] theorem updCircuit_mailboxReq (p : Nat) (f : Circuit → Circuit) : (updCircuit s p f).mailboxReq = s.mailboxReq := rfl
@[simp] theorem updCircuit_lanes (p : Nat) (f : Circuit → Circuit) : (updCircuit s p f).lanes = s.lanes := rfl
@[simp] theorem updCircuit_sentPkts (p : Nat) (f : Circuit → Circuit) : (updCircuit s p f).sentPkts = s.sentPkts := rfl
@[simp] theorem updCircuit_reqs (p : Nat) (f : Circuit → Circuit) : (updCircuit s p f).reqs = s.reqs := rfl
@[simp] theorem updCircuit_reqQueue (p : Nat) (f : Circuit → Circuit) : (updCircuit s p f).reqQueue = s.reqQueue := rfl
@[simp] theorem updCircuit_tags (p : Nat) (f : Circuit → Circuit) : (updCircuit s p f).tags = s.tags := rfl
@[simp] theorem updCircuit_sources (p : Nat) (f : Circuit → Circuit) : (updCircuit s p f).sources = s.sources := rfl
@[simp] theorem updCircuit_flagWaits (p : Nat) (f : Circuit → Circuit) : (updCircuit s p f).flagWaits = s.flagWaits := rfl
@[simp] theorem updCircuit_linkRing (p : Nat) (f : Circuit → Circuit) : (updCircuit s p f).linkRing = s.linkRing := rfl
@[simp] theorem updCircuit_linkTail (p : Nat) (f : Circuit → Circuit) : (updCircuit s p f).linkTail = s.linkTail := rfl
@[simp] theorem updCircuit_linkHeadHost (p : Nat) (f : Circuit → Circuit) : (updCircuit s p f).linkHeadHost = s.linkHeadHost := rfl
@[simp] theorem updCircuit_linkHeadFm (p : Nat) (f : Circuit → Circuit) : (updCircuit s p f).linkHeadFm = s.linkHeadFm := rfl
@[simp] theorem updCircuit_ports (p : Nat) (f : Circuit → Circuit) : (updCircuit s p f).ports = s.ports := rfl
@[simp] theorem updCircuit_buckles (p : Nat) (f : Circuit → Circuit) : (updCircuit s p f).buckles = s.buckles := rfl
@[simp] theorem updCircuit_reqId (p : Nat) (f : Circuit → Circuit) : (updCircuit s p f).reqId = s.reqId := rfl
@[simp] theorem updCircuit_scripts (p : Nat) (f : Circuit → Circuit) : (updCircuit s p f).scripts = s.scripts := rfl
@[simp] theorem updCircuit_scriptQueue (p : Nat) (f : Circuit → Circuit) : (updCircuit s p f).scriptQueue = s.scriptQueue := rfl
@[simp] theorem updCircuit_scriptLast (p : Nat) (f : Circuit → Circuit) : (updCircuit s p f).scriptLast = s.scriptLast := rfl
@[simp] theorem updCircuit_outbox (p : Nat) (f : Circuit → Circuit) : (updCircuit s p f).outbox = s.outbox := rfl

/-! ## emit -/

@[simp] theorem emit_agenda (m : OutMsg) : (emit s m).agenda = s.agenda := rfl
@[simp] theorem emit_cur (m : OutMsg) : (emit s m).cur = s.cur := rfl
@[simp] theorem emit_freeCtr (m : OutMsg) : (emit s m).freeCtr = s.freeCtr := rfl
@[simp] theorem emit_nextId (m : OutMsg) : (emit s m).nextId = s.nextId := rfl
@[simp] theorem emit_cycle (m : OutMsg) : (emit s m).cycle = s.cycle := rfl
@[simp] theorem emit_ns (m : OutMsg) : (emit s m).ns = s.ns := rfl
@[simp] theorem emit_issues (m : OutMsg) : (emit s m).issues = s.issues := rfl
@[simp] theorem emit_gen (m : OutMsg) : (emit s m).gen = s.gen := rfl
@[simp] theorem emit_dev (m : OutMsg) : (emit s m).dev = s.dev := rfl
@[simp] theorem emit_status (m : OutMsg) : (emit s m).status = s.status := rfl
@[simp] theorem emit_haltDev (m : OutMsg) : (emit s m).haltDev = s.haltDev := rfl
@[simp] theorem emit_mem (m : OutMsg) : (emit s m).mem = s.mem := rfl
@[simp] theorem emit_keyTag (m : OutMsg) : (emit s m).keyTag = s.keyTag := rfl
@[simp] theorem emit_olds (m : OutMsg) : (emit s m).olds = s.olds := rfl
@[simp] theorem emit_keys (m : OutMsg) : (emit s m).keys = s.keys := rfl
@[simp] theorem emit_epochs (m : OutMsg) : (emit s m).epochs = s.epochs := rfl
@[simp] theorem emit_hallmarks (m : OutMsg) : (emit s m).hallmarks = s.hallmarks := rfl
@[simp] theorem emit_l2 (m : OutMsg) : (emit s m).l2 = s.l2 := rfl
@[simp] theorem emit_arrivals (m : OutMsg) : (emit s m).arrivals = s.arrivals := rfl
@[simp] theorem emit_signals (m : OutMsg) : (emit s m).signals = s.signals := rfl
@[simp] theorem emit_presence (m : OutMsg) : (emit s m).presence = s.presence := rfl
@[simp] theorem emit_ccache (m : OutMsg) : (emit s m).ccache = s.ccache := rfl
@[simp] theorem emit_tlb1 (m : OutMsg) : (emit s m).tlb1 = s.tlb1 := rfl
@[simp] theorem emit_tlb2 (m : OutMsg) : (emit s m).tlb2 = s.tlb2 := rfl
@[simp] theorem emit_therm (m : OutMsg) : (emit s m).therm = s.therm := rfl
@[simp] theorem emit_clkstep (m : OutMsg) : (emit s m).clkstep = s.clkstep := rfl
@[simp] theorem emit_ecoef (m : OutMsg) : (emit s m).ecoef = s.ecoef := rfl
@[simp] theorem emit_payer (m : OutMsg) : (emit s m).payer = s.payer := rfl
@[simp] theorem emit_charges (m : OutMsg) : (emit s m).charges = s.charges := rfl
@[simp] theorem emit_hostHoles (m : OutMsg) : (emit s m).hostHoles = s.hostHoles := rfl
@[simp] theorem emit_cores (m : OutMsg) : (emit s m).cores = s.cores := rfl
@[simp] theorem emit_clusters (m : OutMsg) : (emit s m).clusters = s.clusters := rfl
@[simp] theorem emit_txs (m : OutMsg) : (emit s m).txs = s.txs := rfl
@[simp] theorem emit_blocks (m : OutMsg) : (emit s m).blocks = s.blocks := rfl
@[simp] theorem emit_cbs (m : OutMsg) : (emit s m).cbs = s.cbs := rfl
@[simp] theorem emit_launches (m : OutMsg) : (emit s m).launches = s.launches := rfl
@[simp] theorem emit_graphs (m : OutMsg) : (emit s m).graphs = s.graphs := rfl
@[simp] theorem emit_decrs (m : OutMsg) : (emit s m).decrs = s.decrs := rfl
@[simp] theorem emit_channels (m : OutMsg) : (emit s m).channels = s.channels := rfl
@[simp] theorem emit_buckets (m : OutMsg) : (emit s m).buckets = s.buckets := rfl
@[simp] theorem emit_queues (m : OutMsg) : (emit s m).queues = s.queues := rfl
@[simp] theorem emit_lastq (m : OutMsg) : (emit s m).lastq = s.lastq := rfl
@[simp] theorem emit_nmus (m : OutMsg) : (emit s m).nmus = s.nmus := rfl
@[simp] theorem emit_colls (m : OutMsg) : (emit s m).colls = s.colls := rfl
@[simp] theorem emit_ctxs (m : OutMsg) : (emit s m).ctxs = s.ctxs := rfl
@[simp] theorem emit_holder (m : OutMsg) : (emit s m).holder = s.holder := rfl
@[simp] theorem emit_frameOwner (m : OutMsg) : (emit s m).frameOwner = s.frameOwner := rfl
@[simp] theorem emit_heldRecords (m : OutMsg) : (emit s m).heldRecords = s.heldRecords := rfl
@[simp] theorem emit_images (m : OutMsg) : (emit s m).images = s.images := rfl
@[simp] theorem emit_handles (m : OutMsg) : (emit s m).handles = s.handles := rfl
@[simp] theorem emit_fmSources (m : OutMsg) : (emit s m).fmSources = s.fmSources := rfl
@[simp] theorem emit_mailboxSeq (m : OutMsg) : (emit s m).mailboxSeq = s.mailboxSeq := rfl
@[simp] theorem emit_mailboxStatus (m : OutMsg) : (emit s m).mailboxStatus = s.mailboxStatus := rfl
@[simp] theorem emit_mailboxReq (m : OutMsg) : (emit s m).mailboxReq = s.mailboxReq := rfl
@[simp] theorem emit_lanes (m : OutMsg) : (emit s m).lanes = s.lanes := rfl
@[simp] theorem emit_sentPkts (m : OutMsg) : (emit s m).sentPkts = s.sentPkts := rfl
@[simp] theorem emit_reqs (m : OutMsg) : (emit s m).reqs = s.reqs := rfl
@[simp] theorem emit_reqQueue (m : OutMsg) : (emit s m).reqQueue = s.reqQueue := rfl
@[simp] theorem emit_tags (m : OutMsg) : (emit s m).tags = s.tags := rfl
@[simp] theorem emit_sources (m : OutMsg) : (emit s m).sources = s.sources := rfl
@[simp] theorem emit_flagWaits (m : OutMsg) : (emit s m).flagWaits = s.flagWaits := rfl
@[simp] theorem emit_linkRing (m : OutMsg) : (emit s m).linkRing = s.linkRing := rfl
@[simp] theorem emit_linkTail (m : OutMsg) : (emit s m).linkTail = s.linkTail := rfl
@[simp] theorem emit_linkHeadHost (m : OutMsg) : (emit s m).linkHeadHost = s.linkHeadHost := rfl
@[simp] theorem emit_linkHeadFm (m : OutMsg) : (emit s m).linkHeadFm = s.linkHeadFm := rfl
@[simp] theorem emit_ports (m : OutMsg) : (emit s m).ports = s.ports := rfl
@[simp] theorem emit_circuits (m : OutMsg) : (emit s m).circuits = s.circuits := rfl
@[simp] theorem emit_buckles (m : OutMsg) : (emit s m).buckles = s.buckles := rfl
@[simp] theorem emit_reqId (m : OutMsg) : (emit s m).reqId = s.reqId := rfl
@[simp] theorem emit_scripts (m : OutMsg) : (emit s m).scripts = s.scripts := rfl
@[simp] theorem emit_scriptQueue (m : OutMsg) : (emit s m).scriptQueue = s.scriptQueue := rfl
@[simp] theorem emit_scriptLast (m : OutMsg) : (emit s m).scriptLast = s.scriptLast := rfl

/-! ## What an update wrote -/

@[simp] theorem coreOf_setCore (k j : Nat) (c : Core) : coreOf (setCore s k c) j = if k = j then c else coreOf s j := by
  unfold coreOf setCore mgetD; rw [mget_mset]; split <;> rfl

@[simp] theorem coreOf_updCore_self (k : Nat) (f : Core → Core) : coreOf (updCore s k f) k = f (coreOf s k) := by simp [updCore]

@[simp] theorem clustOf_setClust (k j : Nat) (c : Cluster) : clustOf (setClust s k c) j = if k = j then c else clustOf s j := by
  unfold clustOf setClust mgetD; rw [mget_mset]; split <;> rfl

@[simp] theorem clustOf_updClust_self (k : Nat) (f : Cluster → Cluster) : clustOf (updClust s k f) k = f (clustOf s k) := by
  simp [updClust]

@[simp] theorem portOf_updPort (p q : Nat) (f : Port → Port) :
    portOf (updPort s p f) q = if p = q then f (portOf s p) else portOf s q := by
  unfold portOf updPort mgetD; dsimp only; rw [mget_mset]; split <;> rfl

@[simp] theorem nmuOf_updNmu (g h : Nat) (f : Nmu → Nmu) : nmuOf (updNmu s g f) h = if g = h then f (nmuOf s g) else nmuOf s h := by
  unfold nmuOf updNmu mgetD; dsimp only; rw [mget_mset]; split <;> rfl

@[simp] theorem ctxOf_updCtx (c d : Nat) (f : Ctx → Ctx) :
    ctxOf (updCtx s c f) d = if c = d then (ctxOf s c).map f else ctxOf s d := mget_madj _ _ _ _

/-- A slot that holds a warp holds the changed warp after `updWarp`. -/
theorem warpOf_updWarp {k n : Nat} {w : Warp} (f : Warp → Warp) (h : mget (coreOf s k).warps n = some w) :
    warpOf (updWarp s k n f) k n = f w := by
  simp [warpOf, updWarp, mgetD, mget_madj, h]

/-- `updWarp` leaves every other slot alone. -/
theorem warpOf_updWarp_ne {k n j m : Nat} (f : Warp → Warp) (h : ¬ (k = j ∧ n = m)) :
    warpOf (updWarp s k n f) j m = warpOf s j m := by
  unfold warpOf updWarp updCore
  rw [coreOf_setCore]
  by_cases hk : k = j
  · subst hk
    have : n ≠ m := fun e => h ⟨rfl, e⟩
    simp [mgetD, mget_madj, this]
  · simp [hk]

/-! ## Charges (13 R410) -/

@[simp] theorem chargeTo_agenda (q : Option Nat) (i n : Nat) : (chargeTo s q i n).agenda = s.agenda := rfl
@[simp] theorem chargeTo_cur (q : Option Nat) (i n : Nat) : (chargeTo s q i n).cur = s.cur := rfl
@[simp] theorem chargeTo_freeCtr (q : Option Nat) (i n : Nat) : (chargeTo s q i n).freeCtr = s.freeCtr := rfl
@[simp] theorem chargeTo_nextId (q : Option Nat) (i n : Nat) : (chargeTo s q i n).nextId = s.nextId := rfl
@[simp] theorem chargeTo_cycle (q : Option Nat) (i n : Nat) : (chargeTo s q i n).cycle = s.cycle := rfl
@[simp] theorem chargeTo_ns (q : Option Nat) (i n : Nat) : (chargeTo s q i n).ns = s.ns := rfl
@[simp] theorem chargeTo_issues (q : Option Nat) (i n : Nat) : (chargeTo s q i n).issues = s.issues := rfl
@[simp] theorem chargeTo_gen (q : Option Nat) (i n : Nat) : (chargeTo s q i n).gen = s.gen := rfl
@[simp] theorem chargeTo_dev (q : Option Nat) (i n : Nat) : (chargeTo s q i n).dev = s.dev := rfl
@[simp] theorem chargeTo_status (q : Option Nat) (i n : Nat) : (chargeTo s q i n).status = s.status := rfl
@[simp] theorem chargeTo_haltDev (q : Option Nat) (i n : Nat) : (chargeTo s q i n).haltDev = s.haltDev := rfl
@[simp] theorem chargeTo_mem (q : Option Nat) (i n : Nat) : (chargeTo s q i n).mem = s.mem := rfl
@[simp] theorem chargeTo_keyTag (q : Option Nat) (i n : Nat) : (chargeTo s q i n).keyTag = s.keyTag := rfl
@[simp] theorem chargeTo_olds (q : Option Nat) (i n : Nat) : (chargeTo s q i n).olds = s.olds := rfl
@[simp] theorem chargeTo_keys (q : Option Nat) (i n : Nat) : (chargeTo s q i n).keys = s.keys := rfl
@[simp] theorem chargeTo_epochs (q : Option Nat) (i n : Nat) : (chargeTo s q i n).epochs = s.epochs := rfl
@[simp] theorem chargeTo_hallmarks (q : Option Nat) (i n : Nat) : (chargeTo s q i n).hallmarks = s.hallmarks := rfl
@[simp] theorem chargeTo_l2 (q : Option Nat) (i n : Nat) : (chargeTo s q i n).l2 = s.l2 := rfl
@[simp] theorem chargeTo_arrivals (q : Option Nat) (i n : Nat) : (chargeTo s q i n).arrivals = s.arrivals := rfl
@[simp] theorem chargeTo_signals (q : Option Nat) (i n : Nat) : (chargeTo s q i n).signals = s.signals := rfl
@[simp] theorem chargeTo_presence (q : Option Nat) (i n : Nat) : (chargeTo s q i n).presence = s.presence := rfl
@[simp] theorem chargeTo_ccache (q : Option Nat) (i n : Nat) : (chargeTo s q i n).ccache = s.ccache := rfl
@[simp] theorem chargeTo_tlb1 (q : Option Nat) (i n : Nat) : (chargeTo s q i n).tlb1 = s.tlb1 := rfl
@[simp] theorem chargeTo_tlb2 (q : Option Nat) (i n : Nat) : (chargeTo s q i n).tlb2 = s.tlb2 := rfl
@[simp] theorem chargeTo_therm (q : Option Nat) (i n : Nat) : (chargeTo s q i n).therm = s.therm := rfl
@[simp] theorem chargeTo_clkstep (q : Option Nat) (i n : Nat) : (chargeTo s q i n).clkstep = s.clkstep := rfl
@[simp] theorem chargeTo_ecoef (q : Option Nat) (i n : Nat) : (chargeTo s q i n).ecoef = s.ecoef := rfl
@[simp] theorem chargeTo_payer (q : Option Nat) (i n : Nat) : (chargeTo s q i n).payer = s.payer := rfl
@[simp] theorem chargeTo_hostHoles (q : Option Nat) (i n : Nat) : (chargeTo s q i n).hostHoles = s.hostHoles := rfl
@[simp] theorem chargeTo_cores (q : Option Nat) (i n : Nat) : (chargeTo s q i n).cores = s.cores := rfl
@[simp] theorem chargeTo_clusters (q : Option Nat) (i n : Nat) : (chargeTo s q i n).clusters = s.clusters := rfl
@[simp] theorem chargeTo_txs (q : Option Nat) (i n : Nat) : (chargeTo s q i n).txs = s.txs := rfl
@[simp] theorem chargeTo_blocks (q : Option Nat) (i n : Nat) : (chargeTo s q i n).blocks = s.blocks := rfl
@[simp] theorem chargeTo_cbs (q : Option Nat) (i n : Nat) : (chargeTo s q i n).cbs = s.cbs := rfl
@[simp] theorem chargeTo_launches (q : Option Nat) (i n : Nat) : (chargeTo s q i n).launches = s.launches := rfl
@[simp] theorem chargeTo_graphs (q : Option Nat) (i n : Nat) : (chargeTo s q i n).graphs = s.graphs := rfl
@[simp] theorem chargeTo_decrs (q : Option Nat) (i n : Nat) : (chargeTo s q i n).decrs = s.decrs := rfl
@[simp] theorem chargeTo_channels (q : Option Nat) (i n : Nat) : (chargeTo s q i n).channels = s.channels := rfl
@[simp] theorem chargeTo_buckets (q : Option Nat) (i n : Nat) : (chargeTo s q i n).buckets = s.buckets := rfl
@[simp] theorem chargeTo_queues (q : Option Nat) (i n : Nat) : (chargeTo s q i n).queues = s.queues := rfl
@[simp] theorem chargeTo_lastq (q : Option Nat) (i n : Nat) : (chargeTo s q i n).lastq = s.lastq := rfl
@[simp] theorem chargeTo_nmus (q : Option Nat) (i n : Nat) : (chargeTo s q i n).nmus = s.nmus := rfl
@[simp] theorem chargeTo_colls (q : Option Nat) (i n : Nat) : (chargeTo s q i n).colls = s.colls := rfl
@[simp] theorem chargeTo_ctxs (q : Option Nat) (i n : Nat) : (chargeTo s q i n).ctxs = s.ctxs := rfl
@[simp] theorem chargeTo_holder (q : Option Nat) (i n : Nat) : (chargeTo s q i n).holder = s.holder := rfl
@[simp] theorem chargeTo_frameOwner (q : Option Nat) (i n : Nat) : (chargeTo s q i n).frameOwner = s.frameOwner := rfl
@[simp] theorem chargeTo_heldRecords (q : Option Nat) (i n : Nat) : (chargeTo s q i n).heldRecords = s.heldRecords := rfl
@[simp] theorem chargeTo_images (q : Option Nat) (i n : Nat) : (chargeTo s q i n).images = s.images := rfl
@[simp] theorem chargeTo_handles (q : Option Nat) (i n : Nat) : (chargeTo s q i n).handles = s.handles := rfl
@[simp] theorem chargeTo_fmSources (q : Option Nat) (i n : Nat) : (chargeTo s q i n).fmSources = s.fmSources := rfl
@[simp] theorem chargeTo_mailboxSeq (q : Option Nat) (i n : Nat) : (chargeTo s q i n).mailboxSeq = s.mailboxSeq := rfl
@[simp] theorem chargeTo_mailboxStatus (q : Option Nat) (i n : Nat) : (chargeTo s q i n).mailboxStatus = s.mailboxStatus := rfl
@[simp] theorem chargeTo_mailboxReq (q : Option Nat) (i n : Nat) : (chargeTo s q i n).mailboxReq = s.mailboxReq := rfl
@[simp] theorem chargeTo_lanes (q : Option Nat) (i n : Nat) : (chargeTo s q i n).lanes = s.lanes := rfl
@[simp] theorem chargeTo_sentPkts (q : Option Nat) (i n : Nat) : (chargeTo s q i n).sentPkts = s.sentPkts := rfl
@[simp] theorem chargeTo_reqs (q : Option Nat) (i n : Nat) : (chargeTo s q i n).reqs = s.reqs := rfl
@[simp] theorem chargeTo_reqQueue (q : Option Nat) (i n : Nat) : (chargeTo s q i n).reqQueue = s.reqQueue := rfl
@[simp] theorem chargeTo_tags (q : Option Nat) (i n : Nat) : (chargeTo s q i n).tags = s.tags := rfl
@[simp] theorem chargeTo_sources (q : Option Nat) (i n : Nat) : (chargeTo s q i n).sources = s.sources := rfl
@[simp] theorem chargeTo_flagWaits (q : Option Nat) (i n : Nat) : (chargeTo s q i n).flagWaits = s.flagWaits := rfl
@[simp] theorem chargeTo_linkRing (q : Option Nat) (i n : Nat) : (chargeTo s q i n).linkRing = s.linkRing := rfl
@[simp] theorem chargeTo_linkTail (q : Option Nat) (i n : Nat) : (chargeTo s q i n).linkTail = s.linkTail := rfl
@[simp] theorem chargeTo_linkHeadHost (q : Option Nat) (i n : Nat) : (chargeTo s q i n).linkHeadHost = s.linkHeadHost := rfl
@[simp] theorem chargeTo_linkHeadFm (q : Option Nat) (i n : Nat) : (chargeTo s q i n).linkHeadFm = s.linkHeadFm := rfl
@[simp] theorem chargeTo_ports (q : Option Nat) (i n : Nat) : (chargeTo s q i n).ports = s.ports := rfl
@[simp] theorem chargeTo_circuits (q : Option Nat) (i n : Nat) : (chargeTo s q i n).circuits = s.circuits := rfl
@[simp] theorem chargeTo_buckles (q : Option Nat) (i n : Nat) : (chargeTo s q i n).buckles = s.buckles := rfl
@[simp] theorem chargeTo_reqId (q : Option Nat) (i n : Nat) : (chargeTo s q i n).reqId = s.reqId := rfl
@[simp] theorem chargeTo_scripts (q : Option Nat) (i n : Nat) : (chargeTo s q i n).scripts = s.scripts := rfl
@[simp] theorem chargeTo_scriptQueue (q : Option Nat) (i n : Nat) : (chargeTo s q i n).scriptQueue = s.scriptQueue := rfl
@[simp] theorem chargeTo_scriptLast (q : Option Nat) (i n : Nat) : (chargeTo s q i n).scriptLast = s.scriptLast := rfl
@[simp] theorem chargeTo_outbox (q : Option Nat) (i n : Nat) : (chargeTo s q i n).outbox = s.outbox := rfl
@[simp] theorem charge_agenda (i n : Nat) : (charge s i n).agenda = s.agenda := rfl
@[simp] theorem charge_cur (i n : Nat) : (charge s i n).cur = s.cur := rfl
@[simp] theorem charge_freeCtr (i n : Nat) : (charge s i n).freeCtr = s.freeCtr := rfl
@[simp] theorem charge_nextId (i n : Nat) : (charge s i n).nextId = s.nextId := rfl
@[simp] theorem charge_cycle (i n : Nat) : (charge s i n).cycle = s.cycle := rfl
@[simp] theorem charge_ns (i n : Nat) : (charge s i n).ns = s.ns := rfl
@[simp] theorem charge_issues (i n : Nat) : (charge s i n).issues = s.issues := rfl
@[simp] theorem charge_gen (i n : Nat) : (charge s i n).gen = s.gen := rfl
@[simp] theorem charge_dev (i n : Nat) : (charge s i n).dev = s.dev := rfl
@[simp] theorem charge_status (i n : Nat) : (charge s i n).status = s.status := rfl
@[simp] theorem charge_haltDev (i n : Nat) : (charge s i n).haltDev = s.haltDev := rfl
@[simp] theorem charge_mem (i n : Nat) : (charge s i n).mem = s.mem := rfl
@[simp] theorem charge_keyTag (i n : Nat) : (charge s i n).keyTag = s.keyTag := rfl
@[simp] theorem charge_olds (i n : Nat) : (charge s i n).olds = s.olds := rfl
@[simp] theorem charge_keys (i n : Nat) : (charge s i n).keys = s.keys := rfl
@[simp] theorem charge_epochs (i n : Nat) : (charge s i n).epochs = s.epochs := rfl
@[simp] theorem charge_hallmarks (i n : Nat) : (charge s i n).hallmarks = s.hallmarks := rfl
@[simp] theorem charge_l2 (i n : Nat) : (charge s i n).l2 = s.l2 := rfl
@[simp] theorem charge_arrivals (i n : Nat) : (charge s i n).arrivals = s.arrivals := rfl
@[simp] theorem charge_signals (i n : Nat) : (charge s i n).signals = s.signals := rfl
@[simp] theorem charge_presence (i n : Nat) : (charge s i n).presence = s.presence := rfl
@[simp] theorem charge_ccache (i n : Nat) : (charge s i n).ccache = s.ccache := rfl
@[simp] theorem charge_tlb1 (i n : Nat) : (charge s i n).tlb1 = s.tlb1 := rfl
@[simp] theorem charge_tlb2 (i n : Nat) : (charge s i n).tlb2 = s.tlb2 := rfl
@[simp] theorem charge_therm (i n : Nat) : (charge s i n).therm = s.therm := rfl
@[simp] theorem charge_clkstep (i n : Nat) : (charge s i n).clkstep = s.clkstep := rfl
@[simp] theorem charge_ecoef (i n : Nat) : (charge s i n).ecoef = s.ecoef := rfl
@[simp] theorem charge_payer (i n : Nat) : (charge s i n).payer = s.payer := rfl
@[simp] theorem charge_hostHoles (i n : Nat) : (charge s i n).hostHoles = s.hostHoles := rfl
@[simp] theorem charge_cores (i n : Nat) : (charge s i n).cores = s.cores := rfl
@[simp] theorem charge_clusters (i n : Nat) : (charge s i n).clusters = s.clusters := rfl
@[simp] theorem charge_txs (i n : Nat) : (charge s i n).txs = s.txs := rfl
@[simp] theorem charge_blocks (i n : Nat) : (charge s i n).blocks = s.blocks := rfl
@[simp] theorem charge_cbs (i n : Nat) : (charge s i n).cbs = s.cbs := rfl
@[simp] theorem charge_launches (i n : Nat) : (charge s i n).launches = s.launches := rfl
@[simp] theorem charge_graphs (i n : Nat) : (charge s i n).graphs = s.graphs := rfl
@[simp] theorem charge_decrs (i n : Nat) : (charge s i n).decrs = s.decrs := rfl
@[simp] theorem charge_channels (i n : Nat) : (charge s i n).channels = s.channels := rfl
@[simp] theorem charge_buckets (i n : Nat) : (charge s i n).buckets = s.buckets := rfl
@[simp] theorem charge_queues (i n : Nat) : (charge s i n).queues = s.queues := rfl
@[simp] theorem charge_lastq (i n : Nat) : (charge s i n).lastq = s.lastq := rfl
@[simp] theorem charge_nmus (i n : Nat) : (charge s i n).nmus = s.nmus := rfl
@[simp] theorem charge_colls (i n : Nat) : (charge s i n).colls = s.colls := rfl
@[simp] theorem charge_ctxs (i n : Nat) : (charge s i n).ctxs = s.ctxs := rfl
@[simp] theorem charge_holder (i n : Nat) : (charge s i n).holder = s.holder := rfl
@[simp] theorem charge_frameOwner (i n : Nat) : (charge s i n).frameOwner = s.frameOwner := rfl
@[simp] theorem charge_heldRecords (i n : Nat) : (charge s i n).heldRecords = s.heldRecords := rfl
@[simp] theorem charge_images (i n : Nat) : (charge s i n).images = s.images := rfl
@[simp] theorem charge_handles (i n : Nat) : (charge s i n).handles = s.handles := rfl
@[simp] theorem charge_fmSources (i n : Nat) : (charge s i n).fmSources = s.fmSources := rfl
@[simp] theorem charge_mailboxSeq (i n : Nat) : (charge s i n).mailboxSeq = s.mailboxSeq := rfl
@[simp] theorem charge_mailboxStatus (i n : Nat) : (charge s i n).mailboxStatus = s.mailboxStatus := rfl
@[simp] theorem charge_mailboxReq (i n : Nat) : (charge s i n).mailboxReq = s.mailboxReq := rfl
@[simp] theorem charge_lanes (i n : Nat) : (charge s i n).lanes = s.lanes := rfl
@[simp] theorem charge_sentPkts (i n : Nat) : (charge s i n).sentPkts = s.sentPkts := rfl
@[simp] theorem charge_reqs (i n : Nat) : (charge s i n).reqs = s.reqs := rfl
@[simp] theorem charge_reqQueue (i n : Nat) : (charge s i n).reqQueue = s.reqQueue := rfl
@[simp] theorem charge_tags (i n : Nat) : (charge s i n).tags = s.tags := rfl
@[simp] theorem charge_sources (i n : Nat) : (charge s i n).sources = s.sources := rfl
@[simp] theorem charge_flagWaits (i n : Nat) : (charge s i n).flagWaits = s.flagWaits := rfl
@[simp] theorem charge_linkRing (i n : Nat) : (charge s i n).linkRing = s.linkRing := rfl
@[simp] theorem charge_linkTail (i n : Nat) : (charge s i n).linkTail = s.linkTail := rfl
@[simp] theorem charge_linkHeadHost (i n : Nat) : (charge s i n).linkHeadHost = s.linkHeadHost := rfl
@[simp] theorem charge_linkHeadFm (i n : Nat) : (charge s i n).linkHeadFm = s.linkHeadFm := rfl
@[simp] theorem charge_ports (i n : Nat) : (charge s i n).ports = s.ports := rfl
@[simp] theorem charge_circuits (i n : Nat) : (charge s i n).circuits = s.circuits := rfl
@[simp] theorem charge_buckles (i n : Nat) : (charge s i n).buckles = s.buckles := rfl
@[simp] theorem charge_reqId (i n : Nat) : (charge s i n).reqId = s.reqId := rfl
@[simp] theorem charge_scripts (i n : Nat) : (charge s i n).scripts = s.scripts := rfl
@[simp] theorem charge_scriptQueue (i n : Nat) : (charge s i n).scriptQueue = s.scriptQueue := rfl
@[simp] theorem charge_scriptLast (i n : Nat) : (charge s i n).scriptLast = s.scriptLast := rfl
@[simp] theorem charge_outbox (i n : Nat) : (charge s i n).outbox = s.outbox := rfl
@[simp] theorem loseDeficits_agenda (c : Option Nat) : (loseDeficits s c).agenda = s.agenda := rfl
@[simp] theorem loseDeficits_cur (c : Option Nat) : (loseDeficits s c).cur = s.cur := rfl
@[simp] theorem loseDeficits_freeCtr (c : Option Nat) : (loseDeficits s c).freeCtr = s.freeCtr := rfl
@[simp] theorem loseDeficits_nextId (c : Option Nat) : (loseDeficits s c).nextId = s.nextId := rfl
@[simp] theorem loseDeficits_cycle (c : Option Nat) : (loseDeficits s c).cycle = s.cycle := rfl
@[simp] theorem loseDeficits_ns (c : Option Nat) : (loseDeficits s c).ns = s.ns := rfl
@[simp] theorem loseDeficits_issues (c : Option Nat) : (loseDeficits s c).issues = s.issues := rfl
@[simp] theorem loseDeficits_gen (c : Option Nat) : (loseDeficits s c).gen = s.gen := rfl
@[simp] theorem loseDeficits_dev (c : Option Nat) : (loseDeficits s c).dev = s.dev := rfl
@[simp] theorem loseDeficits_status (c : Option Nat) : (loseDeficits s c).status = s.status := rfl
@[simp] theorem loseDeficits_haltDev (c : Option Nat) : (loseDeficits s c).haltDev = s.haltDev := rfl
@[simp] theorem loseDeficits_mem (c : Option Nat) : (loseDeficits s c).mem = s.mem := rfl
@[simp] theorem loseDeficits_keyTag (c : Option Nat) : (loseDeficits s c).keyTag = s.keyTag := rfl
@[simp] theorem loseDeficits_olds (c : Option Nat) : (loseDeficits s c).olds = s.olds := rfl
@[simp] theorem loseDeficits_keys (c : Option Nat) : (loseDeficits s c).keys = s.keys := rfl
@[simp] theorem loseDeficits_epochs (c : Option Nat) : (loseDeficits s c).epochs = s.epochs := rfl
@[simp] theorem loseDeficits_hallmarks (c : Option Nat) : (loseDeficits s c).hallmarks = s.hallmarks := rfl
@[simp] theorem loseDeficits_l2 (c : Option Nat) : (loseDeficits s c).l2 = s.l2 := rfl
@[simp] theorem loseDeficits_arrivals (c : Option Nat) : (loseDeficits s c).arrivals = s.arrivals := rfl
@[simp] theorem loseDeficits_signals (c : Option Nat) : (loseDeficits s c).signals = s.signals := rfl
@[simp] theorem loseDeficits_presence (c : Option Nat) : (loseDeficits s c).presence = s.presence := rfl
@[simp] theorem loseDeficits_ccache (c : Option Nat) : (loseDeficits s c).ccache = s.ccache := rfl
@[simp] theorem loseDeficits_tlb1 (c : Option Nat) : (loseDeficits s c).tlb1 = s.tlb1 := rfl
@[simp] theorem loseDeficits_tlb2 (c : Option Nat) : (loseDeficits s c).tlb2 = s.tlb2 := rfl
@[simp] theorem loseDeficits_therm (c : Option Nat) : (loseDeficits s c).therm = s.therm := rfl
@[simp] theorem loseDeficits_clkstep (c : Option Nat) : (loseDeficits s c).clkstep = s.clkstep := rfl
@[simp] theorem loseDeficits_ecoef (c : Option Nat) : (loseDeficits s c).ecoef = s.ecoef := rfl
@[simp] theorem loseDeficits_payer (c : Option Nat) : (loseDeficits s c).payer = s.payer := rfl
@[simp] theorem loseDeficits_charges (c : Option Nat) : (loseDeficits s c).charges = s.charges := rfl
@[simp] theorem loseDeficits_hostHoles (c : Option Nat) : (loseDeficits s c).hostHoles = s.hostHoles := rfl
@[simp] theorem loseDeficits_cores (c : Option Nat) : (loseDeficits s c).cores = s.cores := rfl
@[simp] theorem loseDeficits_clusters (c : Option Nat) : (loseDeficits s c).clusters = s.clusters := rfl
@[simp] theorem loseDeficits_txs (c : Option Nat) : (loseDeficits s c).txs = s.txs := rfl
@[simp] theorem loseDeficits_blocks (c : Option Nat) : (loseDeficits s c).blocks = s.blocks := rfl
@[simp] theorem loseDeficits_cbs (c : Option Nat) : (loseDeficits s c).cbs = s.cbs := rfl
@[simp] theorem loseDeficits_launches (c : Option Nat) : (loseDeficits s c).launches = s.launches := rfl
@[simp] theorem loseDeficits_graphs (c : Option Nat) : (loseDeficits s c).graphs = s.graphs := rfl
@[simp] theorem loseDeficits_decrs (c : Option Nat) : (loseDeficits s c).decrs = s.decrs := rfl
@[simp] theorem loseDeficits_channels (c : Option Nat) : (loseDeficits s c).channels = s.channels := rfl
@[simp] theorem loseDeficits_buckets (c : Option Nat) : (loseDeficits s c).buckets = s.buckets := rfl
@[simp] theorem loseDeficits_lastq (c : Option Nat) : (loseDeficits s c).lastq = s.lastq := rfl
@[simp] theorem loseDeficits_nmus (c : Option Nat) : (loseDeficits s c).nmus = s.nmus := rfl
@[simp] theorem loseDeficits_colls (c : Option Nat) : (loseDeficits s c).colls = s.colls := rfl
@[simp] theorem loseDeficits_ctxs (c : Option Nat) : (loseDeficits s c).ctxs = s.ctxs := rfl
@[simp] theorem loseDeficits_holder (c : Option Nat) : (loseDeficits s c).holder = s.holder := rfl
@[simp] theorem loseDeficits_frameOwner (c : Option Nat) : (loseDeficits s c).frameOwner = s.frameOwner := rfl
@[simp] theorem loseDeficits_heldRecords (c : Option Nat) : (loseDeficits s c).heldRecords = s.heldRecords := rfl
@[simp] theorem loseDeficits_images (c : Option Nat) : (loseDeficits s c).images = s.images := rfl
@[simp] theorem loseDeficits_handles (c : Option Nat) : (loseDeficits s c).handles = s.handles := rfl
@[simp] theorem loseDeficits_fmSources (c : Option Nat) : (loseDeficits s c).fmSources = s.fmSources := rfl
@[simp] theorem loseDeficits_mailboxSeq (c : Option Nat) : (loseDeficits s c).mailboxSeq = s.mailboxSeq := rfl
@[simp] theorem loseDeficits_mailboxStatus (c : Option Nat) : (loseDeficits s c).mailboxStatus = s.mailboxStatus := rfl
@[simp] theorem loseDeficits_mailboxReq (c : Option Nat) : (loseDeficits s c).mailboxReq = s.mailboxReq := rfl
@[simp] theorem loseDeficits_lanes (c : Option Nat) : (loseDeficits s c).lanes = s.lanes := rfl
@[simp] theorem loseDeficits_sentPkts (c : Option Nat) : (loseDeficits s c).sentPkts = s.sentPkts := rfl
@[simp] theorem loseDeficits_reqs (c : Option Nat) : (loseDeficits s c).reqs = s.reqs := rfl
@[simp] theorem loseDeficits_reqQueue (c : Option Nat) : (loseDeficits s c).reqQueue = s.reqQueue := rfl
@[simp] theorem loseDeficits_tags (c : Option Nat) : (loseDeficits s c).tags = s.tags := rfl
@[simp] theorem loseDeficits_sources (c : Option Nat) : (loseDeficits s c).sources = s.sources := rfl
@[simp] theorem loseDeficits_flagWaits (c : Option Nat) : (loseDeficits s c).flagWaits = s.flagWaits := rfl
@[simp] theorem loseDeficits_linkRing (c : Option Nat) : (loseDeficits s c).linkRing = s.linkRing := rfl
@[simp] theorem loseDeficits_linkTail (c : Option Nat) : (loseDeficits s c).linkTail = s.linkTail := rfl
@[simp] theorem loseDeficits_linkHeadHost (c : Option Nat) : (loseDeficits s c).linkHeadHost = s.linkHeadHost := rfl
@[simp] theorem loseDeficits_linkHeadFm (c : Option Nat) : (loseDeficits s c).linkHeadFm = s.linkHeadFm := rfl
@[simp] theorem loseDeficits_ports (c : Option Nat) : (loseDeficits s c).ports = s.ports := rfl
@[simp] theorem loseDeficits_circuits (c : Option Nat) : (loseDeficits s c).circuits = s.circuits := rfl
@[simp] theorem loseDeficits_buckles (c : Option Nat) : (loseDeficits s c).buckles = s.buckles := rfl
@[simp] theorem loseDeficits_reqId (c : Option Nat) : (loseDeficits s c).reqId = s.reqId := rfl
@[simp] theorem loseDeficits_scripts (c : Option Nat) : (loseDeficits s c).scripts = s.scripts := rfl
@[simp] theorem loseDeficits_scriptQueue (c : Option Nat) : (loseDeficits s c).scriptQueue = s.scriptQueue := rfl
@[simp] theorem loseDeficits_scriptLast (c : Option Nat) : (loseDeficits s c).scriptLast = s.scriptLast := rfl
@[simp] theorem loseDeficits_outbox (c : Option Nat) : (loseDeficits s c).outbox = s.outbox := rfl
end Sys2Proof.Machine
end

