-- ==== Sys2Proof/Laws/Warp.lean ====
section
/-! SUPPORT. What the updates of a warp do: slices, vector registers, scalars, predicates; and what issuing a word notes. -/

namespace Sys2Proof.Machine

/-! ## Maps -/

theorem mget_map_key {α : Type} (m : SMap α) (g : Nat → α → α) (k : Nat) :
    mget (m.map (fun x => (x.1, g x.1 x.2))) k = (mget m k).map (g k) := by
  induction m with
  | nil => rfl
  | cons x t ih =>
    obtain ⟨k', v⟩ := x
    simp only [List.map_cons, mget]
    split
    · next h => subst h; rfl
    · exact ih

theorem mset_mset {α : Type} (m : SMap α) (k : Nat) (a b : α) : mset (mset m k a) k b = mset m k b := by
  induction m with
  | nil => simp [mset]
  | cons x t ih =>
    obtain ⟨k', v⟩ := x
    simp only [mset]
    by_cases h1 : k < k'
    · simp [h1, mset]
    · by_cases h2 : k = k'
      · simp [h2, mset]
      · simp [h1, h2, mset, ih]

theorem madj_madj {α : Type} (m : SMap α) (k : Nat) (f g : α → α) : madj (madj m k f) k g = madj m k (fun x => g (f x)) := by
  unfold madj
  cases h : mget m k with
  | none => simp [h]
  | some v => simp [mset_mset]

/-! ## Slices -/

theorem updSlices_slice (w : Warp) (mask : Nat) (f : Nat → Slice → Slice) (j : Nat) :
    (w.updSlices mask f).slice j = if bit mask j = true ∧ j < w.slices.length then f j (w.slice j) else w.slice j := by
  unfold Warp.slice Warp.updSlices
  simp only [List.getElem?_mapIdx]
  by_cases hj : j < w.slices.length
  · simp only [List.getElem?_eq_getElem hj, Option.map_some, Option.getD_some, hj, and_true]
  · simp [List.getElem?_eq_none (Nat.le_of_not_lt hj), hj]

@[simp] theorem updSlices_length (w : Warp) (mask : Nat) (f : Nat → Slice → Slice) :
    (w.updSlices mask f).slices.length = w.slices.length := by simp [Warp.updSlices]

theorem inMask_congr {w v : Warp} (h : w.slices.length = v.slices.length) (m : Nat) : w.inMask m = v.inMask m := by
  simp [Warp.inMask, h]

theorem lanesOf_congr {w v : Warp} (h : w.slices.length = v.slices.length) (m : Nat) : w.lanesOf m = v.lanesOf m := by
  simp [Warp.lanesOf, inMask_congr h]

theorem mem_inMask {w : Warp} {m j : Nat} : j ∈ w.inMask m ↔ j < w.slices.length ∧ j < 16 ∧ bit m j = true := by
  unfold Warp.inMask ones clampN
  simp only [List.mem_filter, List.mem_range]
  split
  · exact ⟨fun h => ⟨h.1, by omega, h.2⟩, fun h => ⟨h.1, h.2.2⟩⟩
  · exact ⟨fun h => ⟨by omega, h.1, h.2⟩, fun h => ⟨h.2.1, h.2.2⟩⟩

theorem mem_lanesOf {w : Warp} {m l : Nat} : l ∈ w.lanesOf m ↔ l / 4 ∈ w.inMask m := by
  unfold Warp.lanesOf
  simp only [List.mem_flatMap, List.mem_cons, List.not_mem_nil, or_false]
  constructor
  · rintro ⟨j, hj, h⟩
    have : l / 4 = j := by omega
    rwa [this]
  · intro h
    exact ⟨l / 4, h, by omega⟩

theorem lt_of_mem_lanesOf {w : Warp} {m l : Nat} (h : l ∈ w.lanesOf m) : l < 64 := by
  have := (mem_inMask.mp (mem_lanesOf.mp h)).2.1
  omega

@[simp] theorem regroup_slices (w : Warp) (m : Nat) : (w.regroup m).slices = w.slices := rfl
@[simp] theorem regroup_vregs (w : Warp) (m : Nat) : (w.regroup m).vregs = w.vregs := rfl
@[simp] theorem regroup_preds (w : Warp) (m : Nat) : (w.regroup m).preds = w.preds := rfl

/-! ## Vector registers -/

theorem setV_vreg (w : Warp) (r l r' l' : Nat) (v : W32) :
    (w.setV r l v).vreg r' l' = if r * 64 + l = r' * 64 + l' then v else w.vreg r' l' := by
  unfold Warp.setV Warp.vreg
  exact mgetD_mput _ _ _ _ _

theorem setV_slices (w : Warp) (r l : Nat) (v : W32) : (w.setV r l v).slices = w.slices := rfl

/-- What a vector write of some lanes leaves in a lane. -/
theorem storeLanes_vreg (r : Nat) (wide : Bool) (f : Nat → Nat) (lanes : List Nat) (hl : ∀ l ∈ lanes, l < 64) (w : Warp) (r' l' : Nat)
    (h' : l' < 64) :
    (storeLanes w r wide lanes f).vreg r' l' =
      if l' ∈ lanes then
        (if wide = true ∧ r' = r + 1 then BitVec.ofNat 32 (f l' / 2 ^ 32)
          else if r' = r then BitVec.ofNat 32 (f l') else w.vreg r' l')
      else w.vreg r' l' := by
  unfold storeLanes
  induction lanes generalizing w with
  | nil => simp
  | cons a t ih =>
    have ha : a < 64 := hl a (by simp)
    rw [List.foldl_cons, ih (fun l hm => hl l (by simp [hm]))]
    have key : ∀ q m, (q * 64 + a = m * 64 + l') = (q = m ∧ a = l') := by intro q m; apply propext; omega
    have one : ∀ v : Warp, (if wide = true then (v.setV r a (BitVec.ofNat 32 (f a))).setV (r + 1) a (BitVec.ofNat 32 (f a / 2 ^ 32))
        else v.setV r a (BitVec.ofNat 32 (f a))).vreg r' l' =
        if l' = a then
          (if wide = true ∧ r' = r + 1 then BitVec.ofNat 32 (f l' / 2 ^ 32)
            else if r' = r then BitVec.ofNat 32 (f l') else v.vreg r' l')
        else v.vreg r' l' := by
      intro v
      by_cases e : l' = a
      · subst e
        by_cases hw : wide = true
        · simp only [hw, if_true, setV_vreg, key, and_true, true_and]
          grind
        · have hw' : wide = false := by simpa using hw
          subst hw'
          simp only [Bool.false_eq_true, if_false, setV_vreg, key, and_true, false_and, if_true]
          by_cases h2 : r' = r
          · simp [h2]
          · simp [h2, Ne.symm h2]
      · have e' : ¬ a = l' := fun h => e h.symm
        by_cases hw : wide = true <;> simp [hw, setV_vreg, key, e, e']
    have := one w
    by_cases hm : l' ∈ t <;> by_cases e : l' = a <;> grind

theorem storeLanes_only (r : Nat) (wide : Bool) (f : Nat → Nat) (lanes : List Nat) (w : Warp) :
    storeLanes w r wide lanes f = { w with vregs := (storeLanes w r wide lanes f).vregs } := by
  unfold storeLanes
  induction lanes generalizing w with
  | nil => rfl
  | cons a t ih =>
    rw [List.foldl_cons, ih]
    by_cases hw : wide = true <;> simp [hw, Warp.setV]

/-! ## Predicates -/

theorem setP_pred (w : Warp) (p l p' l' : Nat) (b : Bool) (hl : l < 64) (hl' : l' < 64) :
    (w.setP p l b).pred p' l' = if p = p' ∧ l = l' then (p == 7 || b) else w.pred p' l' := by
  unfold Warp.setP Warp.pred
  by_cases h7 : p = 7
  · subst h7
    by_cases h : (7 : Nat) = p' ∧ l = l'
    · obtain ⟨rfl, rfl⟩ := h; simp
    · simp [h]
  · simp only [h7, if_false]
    rw [mgetD_mput]
    by_cases hp : p = p'
    · subst hp
      have h7' : (p == 7) = false := by simp [h7]
      rw [h7']
      rw [if_pos rfl]
      simp only [Bool.false_or, true_and]
      have k : (BitVec.ofNat 64 (2 ^ l)).getLsbD l' = decide (l = l') := by
        rw [BitVec.getLsbD_ofNat, Nat.testBit_two_pow]; simp [hl']
      cases b
      · simp only [Bool.false_eq_true, ite_false, BitVec.getLsbD_and, BitVec.getLsbD_not, k, hl', decide_true, Bool.true_and]
        by_cases e : l = l' <;> simp [e]
      · simp only [ite_true, BitVec.getLsbD_or, k]
        by_cases e : l = l' <;> simp [e]
    · have h3 : ¬ (p = p' ∧ l = l') := fun h => hp h.1
      simp [hp]

/-- What a predicate write of some lanes leaves in a lane. -/
theorem foldl_setP_pred (p : Nat) (f : Nat → Bool) (lanes : List Nat) (hl : ∀ l ∈ lanes, l < 64) (w : Warp) (p' l' : Nat) (h' : l' < 64) :
    (lanes.foldl (fun w l => w.setP p l (f l)) w).pred p' l' =
      if p = p' ∧ l' ∈ lanes then (p == 7 || f l') else w.pred p' l' := by
  induction lanes generalizing w with
  | nil => simp
  | cons a t ih =>
    have ha : a < 64 := hl a (by simp)
    rw [List.foldl_cons, ih (fun l hm => hl l (by simp [hm])), setP_pred _ _ _ _ _ _ ha h']
    by_cases hp : p = p'
    · subst hp
      by_cases hm : l' ∈ t
      · simp [hm]
      · by_cases e : a = l'
        · subst e; simp [hm]
        · have e' : ¬ l' = a := fun h => e h.symm
          simp [hm, e, e']
    · simp [hp]

theorem foldl_setP_only (p : Nat) (f : Nat → Bool) (lanes : List Nat) (w : Warp) :
    lanes.foldl (fun w l => w.setP p l (f l)) w = { w with preds := (lanes.foldl (fun w l => w.setP p l (f l)) w).preds } := by
  induction lanes generalizing w with
  | nil => rfl
  | cons a t ih =>
    rw [List.foldl_cons, ih]
    unfold Warp.setP
    split <;> rfl

/-! ## Scalars -/

theorem setS_sreg (x : Slice) (n m : Nat) (v : W64) : (x.setS n v).sreg m = if n = m then v else x.sreg m := by
  unfold Slice.setS Slice.sreg
  exact mgetD_mput _ _ _ _ _

/-! ## Window -/

theorem foldl_window (r : Nat) (es : List EntryBody) (a : List Entry) :
    es.foldl (fun w e => ⟨r, e⟩ :: w) a = (es.map (fun e => (⟨r, e⟩ : Entry))).reverse ++ a := by
  induction es generalizing a with
  | nil => rfl
  | cons e t ih => rw [List.foldl_cons, ih]; simp

theorem pushAll_eq (x : Slice) (r : Nat) (es : List EntryBody) :
    x.pushAll r es = { x with window := ((es.map (fun e => (⟨r, e⟩ : Entry))).reverse ++ x.window).take 8 } := by
  unfold Slice.pushAll; rw [foldl_window]

theorem endTestGo_window (addr : W64) (n : Nat) (x : Slice) (wn : List Entry) (sr : SMap W64) :
    endTestGo addr n { x with window := wn, sregs := sr } = { endTestGo addr n x with window := wn, sregs := sr } := by
  induction n generalizing x with
  | zero => rfl
  | succ n ih =>
    simp only [endTestGo]
    cases h : x.loops[n]? with
    | none => rfl
    | some l =>
      dsimp only
      split
      · split
        · rfl
        · exact ih { x with loops := x.loops.set n { l with lc := l.lc - 1 }, depth := n }
      · rfl

/-- Passing a word leaves the window and the scalars alone, and does not depend on them. -/
theorem advance_window (x : Slice) (wn : List Entry) (sr : SMap W64) :
    ({ x with window := wn, sregs := sr } : Slice).advance = { x.advance with window := wn, sregs := sr } := by
  unfold Slice.advance Slice.endTest
  dsimp only
  split
  · rw [endTestGo_window]
  · split
    · rfl
    · rw [endTestGo_window]

theorem endTestGo_self (addr : W64) (n : Nat) (x : Slice) :
    (endTestGo addr n x).window = x.window ∧ (endTestGo addr n x).sregs = x.sregs := by
  have h := endTestGo_window addr n x x.window x.sregs
  exact ⟨(congrArg Slice.window h).trans rfl, (congrArg Slice.sregs h).trans rfl⟩

@[simp] theorem advance_sregs (x : Slice) : x.advance.sregs = x.sregs := by
  have h := advance_window x x.window x.sregs
  exact (congrArg Slice.sregs h).trans rfl

/-! ## Noting an issue -/

section

variable (s : State)

@[simp] theorem coreOf_issues (n k : Nat) : coreOf { s with issues := n } k = coreOf s k := rfl

theorem warps_updCw (f : Warp → Warp) (k n : Nat) :
    mget (coreOf (updCw s f) k).warps n =
      if k = s.cur.core ∧ n = s.cur.slot then (mget (coreOf s k).warps n).map f else mget (coreOf s k).warps n := by
  unfold updCw updWarp updCore
  rw [coreOf_setCore]
  by_cases hk : s.cur.core = k
  · subst hk
    simp only [if_true, mget_madj, true_and]
    by_cases hn : s.cur.slot = n
    · simp [hn]
    · simp [hn, Ne.symm hn]
  · simp [hk, Ne.symm hk]

theorem coreOf_updCw (f : Warp → Warp) (k : Nat) :
    coreOf (updCw s f) k = { coreOf s k with warps := (coreOf (updCw s f) k).warps } := by
  unfold updCw updWarp updCore
  rw [coreOf_setCore]
  by_cases hk : s.cur.core = k
  · subst hk; simp
  · simp [hk]

theorem updCw_only (f : Warp → Warp) : updCw s f = { s with cores := (updCw s f).cores } := rfl


theorem updCw_updCw (f g : Warp → Warp) : updCw (updCw s f) g = updCw s (fun w => g (f w)) := by
  unfold updCw updWarp updCore
  simp only [setCore_cur]
  rw [coreOf_setCore]
  simp only [if_true, madj_madj]
  unfold setCore
  simp only [mset_mset]

/-- The issuing warp after a change of it: the changed warp where there is one. -/
theorem cw_updCw (f : Warp → Warp) :
    cw (updCw s f) = if (mget (coreOf s s.cur.core).warps s.cur.slot).isSome then f (cw s) else Warp.empty := by
  unfold cw warpOf mgetD
  rw [updCw_cur, warps_updCw]
  cases h : mget (coreOf s s.cur.core).warps s.cur.slot <;> simp

@[simp] theorem coreOf_chargeTo (q : Option Nat) (i n k : Nat) : coreOf (chargeTo s q i n) k = coreOf s k := rfl

theorem warps_noteIssue (k n : Nat) :
    mget (coreOf (noteIssue s) k).warps n =
      if k = s.cur.core then (mget (coreOf s k).warps n).map (fun w =>
        if n = s.cur.slot then w.noteIssue s.cur.mask (s.issues + 1) else { w with yielded := false })
      else mget (coreOf s k).warps n := by
  unfold noteIssue updCore
  rw [coreOf_chargeTo, coreOf_issues, coreOf_setCore]
  by_cases hk : s.cur.core = k
  · subst hk
    simp only [if_true]
    exact mget_map_key _ (fun n (w : Warp) => if n = s.cur.slot then w.noteIssue s.cur.mask (s.issues + 1) else { w with yielded := false }) n
  · simp [hk, Ne.symm hk]

theorem coreOf_noteIssue (k : Nat) :
    coreOf (noteIssue s) k = { coreOf s k with
      warps := (coreOf (noteIssue s) k).warps, last := (coreOf (noteIssue s) k).last, issued := (coreOf (noteIssue s) k).issued } := by
  unfold noteIssue updCore
  rw [coreOf_chargeTo, coreOf_issues, coreOf_setCore]
  by_cases hk : s.cur.core = k
  · subst hk; simp
  · simp [hk]

@[simp] theorem noteIssue_cur : (noteIssue s).cur = s.cur := rfl
@[simp] theorem noteIssue_cycle : (noteIssue s).cycle = s.cycle := rfl

/-- Noting an issue changes the cores, the count of issues and the counts that are charged, and nothing else. -/
theorem noteIssue_only : noteIssue s = { s with cores := (noteIssue s).cores, issues := s.issues + 1, charges := (noteIssue s).charges } := rfl

theorem cw_noteIssue : cw (noteIssue s) =
    if (mget (coreOf s s.cur.core).warps s.cur.slot).isSome then (cw s).noteIssue s.cur.mask (s.issues + 1) else Warp.empty := by
  unfold cw warpOf mgetD
  rw [noteIssue_cur, warps_noteIssue]
  cases h : mget (coreOf s s.cur.core).warps s.cur.slot <;> simp

theorem cw_absent (h : ¬ (mget (coreOf s s.cur.core).warps s.cur.slot).isSome = true) : cw s = Warp.empty := by
  unfold cw warpOf mgetD
  cases e : mget (coreOf s s.cur.core).warps s.cur.slot with
  | none => rfl
  | some w => simp [e] at h

/-- Noting an issue changes the warp's scheduling notes only. -/
theorem cw_noteIssue_only : cw (noteIssue s) =
    { cw s with offered := (cw (noteIssue s)).offered, forced := (cw (noteIssue s)).forced, gangs := (cw (noteIssue s)).gangs } := by
  rw [cw_noteIssue]
  split
  · rfl
  · next h => rw [cw_absent s h]

end

end Sys2Proof.Machine
end

