-- ==== Sys2Proof/Laws/Issue.lean ====
section
/-! SUPPORT. What issuing a word does: one lemma for each shared way to complete it, in the terms of Claims. -/

namespace Sys2Proof.Claims

open Sys2Proof.Machine

/-! ## From a change of the issuing warp to the frame of a word -/

/-- What a change of one warp must satisfy for the frame of a word. -/
def WarpStepBy (P : Nat → Slice → Slice) (mask : Nat) (w w' : Warp) (vs ss ps : List Nat) : Prop :=
  w' = { w with gangs := w'.gangs, slices := w'.slices, vregs := w'.vregs, preds := w'.preds, busy := w'.busy } ∧
  (∀ j, j < 16 → j ∉ w.inMask mask → w'.slice j = w.slice j) ∧
  (∀ j ∈ w.inMask mask, w'.slice j = { P j (w.slice j) with sregs := (w'.slice j).sregs }) ∧
  (∀ r l, l < 64 → (r ∉ vs ∨ l ∉ w.lanesOf mask) → w'.vreg r l = w.vreg r l) ∧
  (∀ n j, j < 16 → (n ∉ ss ∨ j ∉ w.inMask mask) → (w'.slice j).sreg n = (w.slice j).sreg n) ∧
  (∀ p l, l < 64 → (p ∉ ps ∨ l ∉ w.lanesOf mask) → w'.pred p l = w.pred p l)

/-- The same for a word that only computes. -/
abbrev WarpStep (mask : Nat) (w w' : Warp) (vs ss ps : List Nat) (win : Nat → List Entry) : Prop :=
  WarpStepBy (passSlice win) mask w w' vs ss ps

theorem slice_noteIssue (s : State) (j : Nat) : (cw (noteIssue s)).slice j = (cw s).slice j := by
  rw [cw_noteIssue_only]; rfl

theorem frame_of_warpStep {P : Nat → Slice → Slice} {s : State} {F : Warp → Warp} {vs ss ps : List Nat}
    (h : (mget (coreOf s s.cur.core).warps s.cur.slot).isSome = true →
      WarpStepBy P s.cur.mask (cw (noteIssue s)) (F (cw (noteIssue s))) vs ss ps) :
    FrameBy P s (updCw (noteIssue s) F) vs ss ps := by
  refine ⟨rfl, ⟨fun k => ?_, fun k n hkn => ?_⟩, ?_⟩
  · rw [coreOf_updCw, coreOf_noteIssue]
  · unfold warpOf mgetD
    rw [warps_updCw, noteIssue_cur, if_neg hkn, warps_noteIssue]
    by_cases hk : k = s.cur.core
    · have hn : n ≠ s.cur.slot := fun e => hkn ⟨hk, e⟩
      simp only [hk, if_true, hn, if_false]
      cases mget (coreOf s s.cur.core).warps n <;> rfl
    · simp only [hk, if_false]
  · by_cases hp : (mget (coreOf s s.cur.core).warps s.cur.slot).isSome = true
    · have hn : cw (noteIssue s) = { cw s with
          offered := (cw (noteIssue s)).offered, forced := (cw (noteIssue s)).forced, gangs := (cw (noteIssue s)).gangs } :=
        cw_noteIssue_only s
      have ht : cw (updCw (noteIssue s) F) = F (cw (noteIssue s)) := by
        rw [cw_updCw, noteIssue_cur]
        have : (mget (coreOf (noteIssue s) s.cur.core).warps s.cur.slot).isSome = true := by
          rw [warps_noteIssue]; simpa using hp
        rw [if_pos this]
      obtain ⟨h1, h2, h3, h4, h5, h6⟩ := h hp
      have e1 : ∀ j, (cw (noteIssue s)).slice j = (cw s).slice j := slice_noteIssue s
      have e2 : (cw (noteIssue s)).inMask s.cur.mask = curSlices s := by
        unfold curSlices; apply inMask_congr; rw [hn]
      have e3 : (cw (noteIssue s)).lanesOf s.cur.mask = curLanes s := by
        unfold curLanes; apply lanesOf_congr; rw [hn]
      have e4 : ∀ r l, (cw (noteIssue s)).vreg r l = (cw s).vreg r l := by intro r l; rw [hn]; rfl
      have e5 : ∀ p l, (cw (noteIssue s)).pred p l = (cw s).pred p l := by intro r l; rw [hn]; rfl
      simp only [e1, e2, e3, e4, e5] at h2 h3 h4 h5 h6
      rw [WarpKept, ht]
      refine ⟨?_, h2, h3, h4, h5, h6⟩
      rw [h1, hn]
    · have e : cw s = Warp.empty := cw_absent s hp
      have ht : cw (updCw (noteIssue s) F) = Warp.empty := by
        rw [cw_updCw, noteIssue_cur]
        have : ¬ (mget (coreOf (noteIssue s) s.cur.core).warps s.cur.slot).isSome = true := by
          rw [warps_noteIssue]; simpa using hp
        rw [if_neg this]
      have e2 : curSlices s = [] := by unfold curSlices; rw [e]; rfl
      rw [WarpKept, ht, e, e2]
      exact ⟨rfl, fun _ _ _ => rfl, fun j hj => absurd hj (by simp), fun _ _ _ _ => rfl, fun _ _ _ _ => rfl, fun _ _ _ _ => rfl⟩

/-! ## Completing a word -/

/-- The warp after a word: registers written, entries pushed, the slices past the word. -/
def passWarp (mask : Nat) (win : Nat → List Entry) (w : Warp) : Warp :=
  (w.updSlices mask (fun j x => ({ x with window := (win j ++ x.window).take 8 } : Slice).advance)).regroup mask

theorem advance_win (x : Slice) (wn : List Entry) : ({ x with window := wn } : Slice).advance = { x.advance with window := wn } := by
  have h := advance_window x wn x.sregs
  have e : ({ x.advance with window := wn, sregs := x.sregs } : Slice) = { x.advance with window := wn, sregs := x.advance.sregs } := by
    rw [advance_sregs]
  exact h.trans e

theorem passWarp_slice (mask : Nat) (win : Nat → List Entry) (v : Warp) (j : Nat) :
    (passWarp mask win v).slice j = if bit mask j = true ∧ j < v.slices.length then
      { (v.slice j).advance with window := (win j ++ (v.slice j).window).take 8 } else v.slice j := by
  refine Eq.trans (updSlices_slice v mask (fun j x =>
    ({ x with window := (win j ++ x.window).take 8 } : Slice).advance) j) ?_
  split
  · exact advance_win _ _
  · rfl

theorem advance_sregs_with {x y : Slice} (h : x = { y with sregs := x.sregs }) (wn : List Entry) :
    ({ x.advance with window := (wn ++ x.window).take 8 } : Slice) =
      { y.advance with window := (wn ++ y.window).take 8, sregs := x.sregs } := by
  have e : x.advance = { y.advance with window := y.window, sregs := x.sregs } :=
    (congrArg Slice.advance h).trans (advance_window y y.window x.sregs)
  have hw : x.window = y.window := (congrArg Slice.window h).trans rfl
  rw [e, hw]

theorem passWarp_sregs (mask : Nat) (win : Nat → List Entry) (v : Warp) (j : Nat) :
    ((passWarp mask win v).slice j).sregs = (v.slice j).sregs := by
  rw [passWarp_slice]
  split
  · exact advance_sregs _
  · rfl

theorem passWarp_only (mask : Nat) (win : Nat → List Entry) (v : Warp) :
    passWarp mask win v = { v with slices := (passWarp mask win v).slices, gangs := (passWarp mask win v).gangs } := rfl

theorem passWarp_vreg (mask : Nat) (win : Nat → List Entry) (v : Warp) (r l : Nat) : (passWarp mask win v).vreg r l = v.vreg r l := rfl
theorem passWarp_pred (mask : Nat) (win : Nat → List Entry) (v : Warp) (p l : Nat) : (passWarp mask win v).pred p l = v.pred p l := rfl

/-- A write of vector registers, scalars and predicates, and then the pass. -/
theorem warpStep_pass {mask : Nat} {w v : Warp} {vs ss ps : List Nat} {win : Nat → List Entry}
    (h1 : v = { w with slices := v.slices, vregs := v.vregs, preds := v.preds, busy := v.busy })
    (hl : v.slices.length = w.slices.length)
    (h2 : ∀ j, v.slice j = { w.slice j with sregs := (v.slice j).sregs })
    (h4 : ∀ r l, l < 64 → (r ∉ vs ∨ l ∉ w.lanesOf mask) → v.vreg r l = w.vreg r l)
    (h5 : ∀ n j, j < 16 → (n ∉ ss ∨ j ∉ w.inMask mask) → (v.slice j).sreg n = (w.slice j).sreg n)
    (h5' : ∀ j, j < 16 → j ∉ w.inMask mask → v.slice j = w.slice j)
    (h6 : ∀ p l, l < 64 → (p ∉ ps ∨ l ∉ w.lanesOf mask) → v.pred p l = w.pred p l) :
    WarpStep mask w (passWarp mask win v) vs ss ps win := by
  have hout : ∀ j, j < 16 → j ∉ w.inMask mask → (passWarp mask win v).slice j = v.slice j := by
    intro j hj hm
    rw [passWarp_slice, if_neg]
    rintro ⟨hb, hlt⟩
    exact hm (mem_inMask.mpr ⟨by omega, hj, hb⟩)
  refine ⟨?_, ?_, ?_, ?_, ?_, ?_⟩
  · have e : ∀ sl g, ({ v with slices := sl, gangs := g } : Warp) =
        { w with gangs := g, slices := sl, vregs := v.vregs, preds := v.preds, busy := v.busy } := by
      intro sl g; rw [h1]
    exact (passWarp_only mask win v).trans (e _ _)
  · intro j hj hm; rw [hout j hj hm, h5' j hj hm]
  · intro j hm
    have hm' := mem_inMask.mp hm
    have hb : bit mask j = true ∧ j < v.slices.length := ⟨hm'.2.2, by omega⟩
    rw [passWarp_sregs, passWarp_slice, if_pos hb]
    exact advance_sregs_with (h2 j) _
  · exact h4
  · intro n j hj hm
    unfold Slice.sreg; rw [passWarp_sregs]; exact h5 n j hj hm
  · exact h6

/-- Completing a word with one entry. -/
theorem retire_one (s : State) (lat : Nat) (e : Nat → EntryBody) :
    retire s lat (fun j => [e j]) = updCw s (passWarp s.cur.mask (fun j => [⟨s.cycle + lat, e j⟩])) := by
  unfold retire passWarp
  simp only [pushAll_eq]
  rfl

/-- A word without a result. -/
theorem passes_retireVoid (s : State) : Passes s (retireVoid (noteIssue s)) := by
  have e : retireVoid (noteIssue s) = updCw (noteIssue s) (passWarp s.cur.mask (fun _ => [⟨s.cycle, .void⟩])) := by
    unfold retireVoid retire passWarp
    simp only [pushAll_eq]
    rfl
  rw [e]
  refine frame_of_warpStep (fun _ => warpStep_pass rfl rfl (fun _ => rfl) (fun _ _ _ _ => rfl) (fun _ _ _ _ => rfl)
    (fun _ _ _ => rfl) (fun _ _ _ _ => rfl))

/-! ## Writing a register -/

theorem writeReg_v (w : Warp) (mask r : Nat) (wide sgn : Bool) (f : Nat → Nat) :
    w.writeReg mask (.v r) wide sgn f = storeLanes w r wide (w.lanesOf mask) f := rfl

theorem writeReg_s_slice (w : Warp) (mask n : Nat) (wide sgn : Bool) (f : Nat → Nat) (j : Nat) :
    (w.writeReg mask (.s n) wide sgn f).slice j =
      if bit mask j = true ∧ j < w.slices.length then
        (w.slice j).setS n (BitVec.ofNat 64 (scalarVal wide sgn (f (lane0 j)))) else w.slice j := updSlices_slice _ _ _ _

/-- The warp after the write of a destination. -/
def dstWarp (now mask : Nat) (d : Dst) (wide sgn : Bool) (lat : Nat) (f : Nat → Nat) (w : Warp) : Warp :=
  if d.nowb then w else (w.writeReg mask d.reg wide sgn f).busyFor now (regCodes d.reg (if wide then 2 else 1)) mask (now + lat) none

theorem writeDst_eq (s : State) (d : Dst) (wide sgn : Bool) (lat : Nat) (f : Nat → Nat) (h : d.nowb = false) :
    writeDst s d wide sgn lat f = updCw s (dstWarp s.cycle s.cur.mask d wide sgn lat f) := by
  unfold writeDst dstWarp
  simp only [h, Bool.false_eq_true, if_false]

theorem dstWarp_only (now mask : Nat) (d : Dst) (wide sgn : Bool) (lat : Nat) (f : Nat → Nat) (w : Warp) :
    dstWarp now mask d wide sgn lat f w =
      { w with slices := (dstWarp now mask d wide sgn lat f w).slices, vregs := (dstWarp now mask d wide sgn lat f w).vregs,
               busy := (dstWarp now mask d wide sgn lat f w).busy } := by
  unfold dstWarp
  split
  · rfl
  · unfold Warp.busyFor Warp.writeReg
    split
    · rw [storeLanes_only]
    · rfl

theorem dstWarp_preds (now mask : Nat) (d : Dst) (wide sgn : Bool) (lat : Nat) (f : Nat → Nat) (w : Warp) :
    (dstWarp now mask d wide sgn lat f w).preds = w.preds := by rw [dstWarp_only]

theorem dstWarp_slice (now mask : Nat) (d : Dst) (wide sgn : Bool) (lat : Nat) (f : Nat → Nat) (w : Warp) (j : Nat) :
    (dstWarp now mask d wide sgn lat f w).slice j =
      match d.reg with
      | .v _ => w.slice j
      | .s n => if d.nowb = false ∧ bit mask j = true ∧ j < w.slices.length then
          (w.slice j).setS n (BitVec.ofNat 64 (scalarVal wide sgn (f (lane0 j)))) else w.slice j := by
  unfold dstWarp
  cases hr : d.reg with
  | v r =>
    split
    · rfl
    · show (storeLanes _ _ _ _ _).slice j = _
      rw [storeLanes_only]; rfl
  | s n =>
    cases hn : d.nowb
    · simp only [Bool.false_eq_true, if_false, true_and]
      exact writeReg_s_slice w mask n wide sgn f j
    · simp

theorem dstWarp_length (now mask : Nat) (d : Dst) (wide sgn : Bool) (lat : Nat) (f : Nat → Nat) (w : Warp) :
    (dstWarp now mask d wide sgn lat f w).slices.length = w.slices.length := by
  unfold dstWarp
  split
  · rfl
  · unfold Warp.busyFor Warp.writeReg
    split
    · rw [storeLanes_only]
    · exact updSlices_length _ _ _

theorem dstWarp_vreg (now mask : Nat) (d : Dst) (wide sgn : Bool) (lat : Nat) (f : Nat → Nat) (w : Warp) (r l : Nat) (hl : l < 64) :
    (dstWarp now mask d wide sgn lat f w).vreg r l =
      match d.reg with
      | .s _ => w.vreg r l
      | .v n => if d.nowb = false ∧ l ∈ w.lanesOf mask then
          (if wide = true ∧ r = n + 1 then BitVec.ofNat 32 (f l / 2 ^ 32) else if r = n then BitVec.ofNat 32 (f l) else w.vreg r l)
        else w.vreg r l := by
  unfold dstWarp
  cases hr : d.reg with
  | s n => split <;> rfl
  | v n =>
    cases hn : d.nowb
    · simp only [Bool.false_eq_true, if_false, true_and]
      exact storeLanes_vreg n wide f _ (fun l hm => lt_of_mem_lanesOf hm) w r l hl
    · simp

theorem warpStep_dst (now mask : Nat) (d : Dst) (wide sgn : Bool) (lat : Nat) (f : Nat → Nat) (win : Nat → List Entry) (w : Warp) :
    WarpStep mask w (passWarp mask win (dstWarp now mask d wide sgn lat f w)) (dstV d (if wide then 2 else 1)) (dstS d) [] win := by
  refine warpStep_pass ?_ (dstWarp_length ..) ?_ ?_ ?_ ?_ ?_
  · have h := dstWarp_only now mask d wide sgn lat f w
    rw [dstWarp_preds]
    exact h
  · intro j
    rw [dstWarp_slice]
    split
    · rfl
    · split <;> rfl
  · intro r l hl h
    rw [dstWarp_vreg _ _ _ _ _ _ _ _ _ _ hl]
    split
    · rfl
    · next n hr =>
      split
      · next hm =>
        have h' : r ∉ dstV d (if wide then 2 else 1) := h.resolve_right (fun x => x hm.2)
        simp only [dstV, hm.1, hr, Bool.false_eq_true, if_false, List.mem_map, List.mem_range, not_exists, not_and] at h'
        have h0 : r ≠ n := by
          intro e0; exact h' 0 (by split <;> omega) (by omega)
        have h1 : ¬ (wide = true ∧ r = n + 1) := by
          rintro ⟨e1, e2⟩; exact h' 1 (by simp [e1]) (by omega)
        rw [if_neg h1, if_neg h0]
      · rfl
  · intro m j hlt h
    rw [dstWarp_slice]
    split
    · rfl
    · next n hr =>
      split
      · next hb =>
        have hm : j ∈ w.inMask mask := mem_inMask.mpr ⟨hb.2.2, hlt, hb.2.1⟩
        have h' := h.resolve_right (fun x => x hm)
        simp only [dstS, hb.1, hr, Bool.false_eq_true, if_false, List.mem_singleton] at h'
        rw [setS_sreg, if_neg (fun e => h' e.symm)]
      · rfl
  · intro j hlt hm
    rw [dstWarp_slice]
    split
    · rfl
    · rw [if_neg]
      rintro ⟨_, hb, hl⟩
      exact hm (mem_inMask.mpr ⟨hl, hlt, hb⟩)
  · intro p l _ _
    unfold Warp.pred; rw [dstWarp_preds]

/-- In an issuing lane there is a warp. -/
theorem present_of_curLanes {s : State} {l : Nat} (hl : l ∈ curLanes s) : (mget (coreOf s s.cur.core).warps s.cur.slot).isSome = true := by
  by_cases hp : (mget (coreOf s s.cur.core).warps s.cur.slot).isSome = true
  · exact hp
  · unfold curLanes at hl; rw [cw_absent s hp] at hl; simp [Warp.lanesOf, Warp.inMask, Warp.empty, ones, clampN] at hl

theorem cw_updCw_noteIssue {s : State} (F : Warp → Warp) (hp : (mget (coreOf s s.cur.core).warps s.cur.slot).isSome = true) :
    cw (updCw (noteIssue s) F) = F (cw (noteIssue s)) := by
  rw [cw_updCw, noteIssue_cur, if_pos]
  rw [warps_noteIssue]; simpa using hp

theorem curLanes_noteIssue (s : State) : curLanes (noteIssue s) = curLanes s := by
  unfold curLanes; apply lanesOf_congr; rw [cw_noteIssue_only]
theorem curSlices_noteIssue (s : State) : curSlices (noteIssue s) = curSlices s := by
  unfold curSlices; apply inMask_congr; rw [cw_noteIssue_only]

theorem wbLanes_eq (s : State) (d : Dst) (wide sgn : Bool) (lat : Nat) (f : Nat → Nat) :
    wbLanes s d wide sgn lat f = updCw s (fun w =>
      passWarp s.cur.mask (fun j => [⟨s.cycle + lat, dstEntry d.reg wide sgn f j⟩]) (dstWarp s.cycle s.cur.mask d wide sgn lat f w)) := by
  unfold wbLanes retire passWarp
  simp only [pushAll_eq]
  cases hn : d.nowb
  · rw [writeDst_eq _ _ _ _ _ _ hn, updCw_updCw]; rfl
  · unfold writeDst dstWarp
    simp only [hn, if_true]
    rfl

theorem writesReg_wbLanes (s : State) (d : Dst) (wide sgn : Bool) (lat : Nat) (f : Nat → Nat) :
    WritesReg s (wbLanes (noteIssue s) d wide sgn lat f) d wide sgn lat f := by
  rw [wbLanes_eq]
  refine ⟨frame_of_warpStep (fun _ => warpStep_dst ..), fun hn l hl => ?_⟩
  have hp := present_of_curLanes hl
  have hl' : l ∈ (cw (noteIssue s)).lanesOf s.cur.mask := by
    have := curLanes_noteIssue s; unfold curLanes at this; rw [noteIssue_cur] at this; rw [this]; exact hl
  unfold Holds
  rw [cw_updCw_noteIssue _ hp]
  cases hr : d.reg with
  | v r =>
    have hlt := lt_of_mem_lanesOf hl'
    refine ⟨?_, fun hw => ?_⟩
    · rw [passWarp_vreg, dstWarp_vreg _ _ _ _ _ _ _ _ _ _ hlt, hr]
      dsimp only
      rw [if_pos ⟨hn, hl'⟩, if_neg (by omega), if_pos rfl]
    · rw [passWarp_vreg, dstWarp_vreg _ _ _ _ _ _ _ _ _ _ hlt, hr]
      dsimp only
      rw [if_pos ⟨hn, hl'⟩, if_pos ⟨hw, rfl⟩]
  | s n =>
    have hb := mem_inMask.mp (mem_lanesOf.mp hl')
    show Slice.sreg _ n = _
    unfold Slice.sreg
    rw [passWarp_sregs, dstWarp_slice, hr]
    dsimp only
    rw [if_pos ⟨hn, hb.2.2, hb.1⟩]
    exact (setS_sreg _ n n _).trans (if_pos rfl)

/-! ## Writing a predicate -/

theorem wbPred_eq (s : State) (p : PDst) (lat : Nat) (f : Nat → Bool) :
    wbPred s p lat f = updCw s (fun w =>
      passWarp s.cur.mask (fun j => [⟨s.cycle + lat, .e32 ((sliceLanes j).map (fun l => BitVec.ofNat 32 (b2n (f l))))⟩])
        (if p.nowb then w else ((w.lanesOf s.cur.mask).foldl (fun w l => w.setP p.p l (f l)) w).busyFor s.cycle [448 + p.p] s.cur.mask
          (s.cycle + lat) none)) := by
  unfold wbPred retire passWarp writePred
  simp only [pushAll_eq]
  cases hn : p.nowb
  · simp only [Bool.false_eq_true, if_false]
    rw [updCw_updCw]; rfl
  · rfl

theorem warpStep_pred (now mask : Nat) (p : PDst) (lat : Nat) (f : Nat → Bool) (win : Nat → List Entry) (w : Warp) :
    WarpStep mask w (passWarp mask win (if p.nowb then w else
      ((w.lanesOf mask).foldl (fun w l => w.setP p.p l (f l)) w).busyFor now [448 + p.p] mask (now + lat) none))
      [] [] (if p.nowb then [] else [p.p]) win := by
  cases hn : p.nowb
  · simp only [Bool.false_eq_true, if_false]
    have ho := foldl_setP_only p.p f (w.lanesOf mask) w
    generalize hv : (w.lanesOf mask).foldl (fun w l => w.setP p.p l (f l)) w = v at ho
    have hs : v.slices = w.slices := by rw [ho]
    refine warpStep_pass ?_ (by show v.slices.length = _; rw [hs]) (fun j => ?_) (fun r l _ _ => ?_) (fun n j _ _ => ?_)
      (fun j _ _ => ?_) ?_
    · show ({ v with busy := _ } : Warp) = _; rw [ho]; rfl
    · show v.slice j = { w.slice j with sregs := (v.slice j).sregs }; unfold Warp.slice; rw [hs]
    · show v.vreg r l = _; rw [ho]; rfl
    · show (v.slice j).sreg n = _; unfold Warp.slice; rw [hs]
    · show v.slice j = _; unfold Warp.slice; rw [hs]
    · intro q l hl h
      show v.pred q l = _
      rw [← hv, foldl_setP_pred _ _ _ (fun l hm => lt_of_mem_lanesOf hm) _ _ _ hl, if_neg]
      rintro ⟨e, hm⟩
      have := h.resolve_right (fun x => x hm)
      simp [e] at this
  · simp only [if_true]
    exact warpStep_pass rfl rfl (fun _ => rfl) (fun _ _ _ _ => rfl) (fun _ _ _ _ => rfl) (fun _ _ _ => rfl) (fun _ _ _ _ => rfl)

theorem writesPred_wbPred (s : State) (p : PDst) (lat : Nat) (f : Nat → Bool) : WritesPred s (wbPred (noteIssue s) p lat f) p lat f := by
  rw [wbPred_eq]
  simp only [noteIssue_cur, noteIssue_cycle]
  refine ⟨frame_of_warpStep (fun _ => warpStep_pred ..), fun hn l hl => ?_⟩
  have hp := present_of_curLanes hl
  have hl' : l ∈ (cw (noteIssue s)).lanesOf s.cur.mask := by
    have := curLanes_noteIssue s; unfold curLanes at this; rw [noteIssue_cur] at this; rw [this]; exact hl
  rw [cw_updCw_noteIssue _ hp]
  simp only [hn, Bool.false_eq_true, if_false]
  rw [passWarp_pred]
  generalize cw (noteIssue s) = w at hl' ⊢
  show (((w.lanesOf s.cur.mask).foldl (fun w l => w.setP p.p l (f l)) w).pred p.p l) = _
  rw [foldl_setP_pred p.p f _ (fun l hm => lt_of_mem_lanesOf hm) w p.p l (lt_of_mem_lanesOf hl'), if_pos ⟨rfl, hl'⟩]

/-! ## Reading operands when a word issues -/

section

variable (s : State)

@[simp] theorem cw_noteIssue_idx : (cw (noteIssue s)).idx = (cw s).idx := by rw [cw_noteIssue_only]
@[simp] theorem cw_noteIssue_width : (cw (noteIssue s)).width = (cw s).width := by rw [cw_noteIssue_only]
@[simp] theorem cw_noteIssue_nlane : (cw (noteIssue s)).nlane = (cw s).nlane := by rw [cw_noteIssue_only]
@[simp] theorem cw_noteIssue_block : (cw (noteIssue s)).block = (cw s).block := by rw [cw_noteIssue_only]
@[simp] theorem cw_noteIssue_lacc : (cw (noteIssue s)).lacc = (cw s).lacc := by rw [cw_noteIssue_only]
@[simp] theorem cw_noteIssue_fstat : (cw (noteIssue s)).fstat = (cw s).fstat := by rw [cw_noteIssue_only]
@[simp] theorem cw_noteIssue_flight : (cw (noteIssue s)).flight = (cw s).flight := by rw [cw_noteIssue_only]
@[simp] theorem cw_noteIssue_ctx : (cw (noteIssue s)).ctx = (cw s).ctx := by rw [cw_noteIssue_only]
@[simp] theorem cw_noteIssue_uid : (cw (noteIssue s)).uid = (cw s).uid := by rw [cw_noteIssue_only]
@[simp] theorem cw_noteIssue_launch : (cw (noteIssue s)).launch = (cw s).launch := by rw [cw_noteIssue_only]
@[simp] theorem cw_noteIssue_firmware : (cw (noteIssue s)).firmware = (cw s).firmware := by rw [cw_noteIssue_only]
@[simp] theorem cw_noteIssue_slices : (cw (noteIssue s)).slices = (cw s).slices := by rw [cw_noteIssue_only]
@[simp] theorem cw_noteIssue_slice (j : Nat) : (cw (noteIssue s)).slice j = (cw s).slice j := slice_noteIssue s j
@[simp] theorem cw_noteIssue_vreg (r l : Nat) : (cw (noteIssue s)).vreg r l = (cw s).vreg r l := by rw [cw_noteIssue_only]; rfl
@[simp] theorem cw_noteIssue_pred : (cw (noteIssue s)).pred = (cw s).pred := by rw [cw_noteIssue_only]; rfl
@[simp] theorem cw_noteIssue_guard : (cw (noteIssue s)).guard = (cw s).guard := by rw [cw_noteIssue_only]; rfl
@[simp] theorem curLanes_note : curLanes (noteIssue s) = curLanes s := curLanes_noteIssue s
@[simp] theorem curSlices_note : curSlices (noteIssue s) = curSlices s := curSlices_noteIssue s
@[simp] theorem noteIssue_cur_mask : (noteIssue s).cur.mask = s.cur.mask := rfl
@[simp] theorem noteIssue_gen : (noteIssue s).gen = s.gen := rfl
@[simp] theorem noteIssue_dev : (noteIssue s).dev = s.dev := rfl
@[simp] theorem noteIssue_blocks : (noteIssue s).blocks = s.blocks := rfl

@[simp] theorem regVal_noteIssue : regVal (noteIssue s) = regVal s := by
  funext w r l; unfold regVal; cases r <;> simp
@[simp] theorem cw_noteIssue_held : (cw (noteIssue s)).held = (cw s).held := by rw [cw_noteIssue_only]
@[simp] theorem keptVal_noteIssue : keptVal (noteIssue s) = keptVal s := by
  funext w r l; unfold keptVal; cases r <;> simp [Warp.unheld]
@[simp] theorem specVal_noteIssue : specVal (noteIssue s) = specVal s := by
  funext x l; unfold specVal blockId; cases x <;> simp
@[simp] theorem latchEntry_noteIssue : latchEntry (noteIssue s) = latchEntry s := by
  funext j k; unfold latchEntry; simp
@[simp] theorem opVal_noteIssue : opVal (noteIssue s) = opVal s := by
  funext t w o l; unfold opVal; cases o <;> simp
@[simp] theorem opTy_noteIssue : opTy (noteIssue s) = opTy s := by funext t o l; simp [opTy]
@[simp] theorem op32_noteIssue : op32 (noteIssue s) = op32 s := by funext o l; simp [op32]
@[simp] theorem op64_noteIssue : op64 (noteIssue s) = op64 s := by funext o l; simp [op64]
@[simp] theorem opF_noteIssue : opF (noteIssue s) = opF s := by funext o l; simp [opF]
@[simp] theorem opInt_noteIssue : opInt (noteIssue s) = opInt s := by funext t o l; simp [opInt]

@[simp] theorem groupVal_noteIssue : groupVal (noteIssue s) = groupVal s := by funext o k l; unfold groupVal; simp
@[simp] theorem cvtsElem_noteIssue : cvtsElem (noteIssue s) = cvtsElem s := by funext x i l; unfold cvtsElem; simp
@[simp] theorem cvtsWord_noteIssue : cvtsWord (noteIssue s) = cvtsWord s := by funext x l; unfold cvtsWord; simp
@[simp] theorem cvtsStat_noteIssue : cvtsStat (noteIssue s) = cvtsStat s := by funext x l; unfold cvtsStat; simp
@[simp] theorem efqLane_noteIssue : efqLane (noteIssue s) = efqLane s := by funext x l; unfold efqLane; simp
@[simp] theorem movsLane_noteIssue : movsLane (noteIssue s) = movsLane s := by
  funext x j; unfold movsLane; simp
@[simp] theorem bcstLane_noteIssue : bcstLane (noteIssue s) = bcstLane s := by
  funext x j; unfold bcstLane; simp
@[simp] theorem shflSrc_noteIssue : shflSrc (noteIssue s) = shflSrc s := by
  funext x l; unfold shflSrc segLanes; simp only [cw_noteIssue_width, op32_noteIssue, noteIssue_cur]

end

/-! ## Issuing -/

/-- A word that issues and whose effect is whole. -/
theorem issueWord_done {u : Use} {body : State → Act} {s t : State} (h : Issues u s) (hb : body (noteIssue s) = .done t) :
    issueWord u body s = .next t := by
  unfold issueWord; rw [h.1]; simp only [h.2, if_true, hb]

/-- A word that issues and whose own effect is a fault takes it. -/
theorem issueWord_trap {u : Use} {body : State → Act} {s : State} {f : FaultInfo} (h : Issues u s) (hb : body (noteIssue s) = .trap f) :
    issueWord u body s = .next (takeFault (noteIssue s) f) := by
  unfold issueWord; rw [h.1]; simp only [h.2, if_true, hb]

/-- A word that issues and has to wait leaves the state as it was. -/
theorem issueWord_stall {u : Use} {body : State → Act} {s : State} (h : Issues u s) (hb : body (noteIssue s) = .stall) :
    issueWord u body s = .next s := by
  unfold issueWord; rw [h.1]; simp only [h.2, if_true, hb]

/-- A fault of an operand comes first: the word takes it without effect. -/
theorem issueWord_preFault {u : Use} {body : State → Act} {s : State} {f : FaultInfo} (h : preFault u s = some f) :
    issueWord u body s = .next (takeFault (noteIssue s) f) := by
  unfold issueWord; rw [h]

/-- A word whose sources or destination are not ready waits. -/
theorem issueWord_wait {u : Use} {body : State → Act} {s : State} (h : preFault u s = none) (hr : ready u s = false) :
    issueWord u body s = .next s := by
  unfold issueWord; rw [h]; simp [hr]

/-- Whatever a word does, the machine goes on. -/
theorem issueWord_next (u : Use) (body : State → Act) (s : State) : ∃ t, issueWord u body s = .next t := by
  unfold issueWord
  split
  · exact ⟨_, rfl⟩
  · split
    · split <;> exact ⟨_, rfl⟩
    · exact ⟨_, rfl⟩

/-- A word that issues and writes a register. -/
theorem ends_writesReg {i : Instr} {u : Use} {body : State → Act} {s : State} {d : Dst} {wide sgn : Bool} {lat : Nat} {f : Nat → Nat}
    (he : exec i s = issueWord u body s) (h : Issues u s) (hb : body (noteIssue s) = .done (wbLanes (noteIssue s) d wide sgn lat f)) :
    Ends i s (fun t => WritesReg s t d wide sgn lat f) :=
  ⟨_, he.trans (issueWord_done h hb), writesReg_wbLanes s d wide sgn lat f⟩

/-- A word that issues and writes a predicate. -/
theorem ends_writesPred {i : Instr} {u : Use} {body : State → Act} {s : State} {p : PDst} {lat : Nat} {f : Nat → Bool}
    (he : exec i s = issueWord u body s) (h : Issues u s) (hb : body (noteIssue s) = .done (wbPred (noteIssue s) p lat f)) :
    Ends i s (fun t => WritesPred s t p lat f) :=
  ⟨_, he.trans (issueWord_done h hb), writesPred_wbPred s p lat f⟩

/-! ## Words that also change something else of the warp -/

theorem map_mset {α : Type} (m : SMap α) (g : Nat → α → α) (k : Nat) (v : α) :
    (mset m k v).map (fun x => (x.1, g x.1 x.2)) = mset (m.map (fun x => (x.1, g x.1 x.2))) k (g k v) := by
  induction m with
  | nil => rfl
  | cons x t ih =>
    obtain ⟨k', v'⟩ := x
    simp only [mset, List.map_cons]
    split
    · rfl
    · split
      · rfl
      · rw [← ih]; rfl

theorem map_madj {α : Type} (m : SMap α) (g : Nat → α → α) (k : Nat) (F : α → α) (h : ∀ v, g k (F v) = F (g k v)) :
    (madj m k F).map (fun x => (x.1, g x.1 x.2)) = madj (m.map (fun x => (x.1, g x.1 x.2))) k F := by
  unfold madj
  rw [mget_map_key]
  cases hm : mget m k with
  | none => rfl
  | some v => simp only [Option.map_some]; rw [map_mset, h]

/-- A change of the issuing warp that the note of the issue does not touch commutes with it. -/
theorem noteIssue_updCw (s : State) (F : Warp → Warp)
    (h : ∀ w : Warp, (F w).noteIssue s.cur.mask (s.issues + 1) = F (w.noteIssue s.cur.mask (s.issues + 1)))
    (hl : ∀ w : Warp, (F w).launch = w.launch ∧ (F w).uid = w.uid) :
    noteIssue (updCw s F) = updCw (noteIssue s) F := by
  have hw : (cw (updCw s F)).launch = (cw s).launch ∧ (cw (updCw s F)).uid = (cw s).uid := by
    rw [cw_updCw]; split
    · exact hl _
    · next ha => rw [cw_absent s ha]; exact ⟨rfl, rfl⟩
  unfold noteIssue
  rw [hw.1, hw.2]
  unfold chargeTo charged payerOf updCw updWarp updCore
  simp only [setCore_cur, coreOf_setCore, setCore_issues, setCore_cycle, if_true, coreOf_issues]
  unfold setCore
  simp only [mset_mset]
  rw [map_madj _ (fun n (w : Warp) => if n = s.cur.slot then w.noteIssue s.cur.mask (s.issues + 1) else { w with yielded := false }) _ F
    (fun w => by simpa using h w)]
  simp only [coreOf, mgetD, mget_mset_self, Option.getD_some]

/-! ## Groups and pairs -/

theorem group_only (mask r : Nat) (f : Nat → Nat → Nat) (n : Nat) (w : Warp) :
    (List.range n).foldl (fun w k => storeLanes w (r + k) false (w.lanesOf mask) (f k)) w =
      { w with vregs := ((List.range n).foldl (fun w k => storeLanes w (r + k) false (w.lanesOf mask) (f k)) w).vregs } := by
  induction n with
  | zero => rfl
  | succ n ih =>
    rw [List.range_succ, List.foldl_append]
    simp only [List.foldl_cons, List.foldl_nil]
    rw [storeLanes_only, ih]

theorem group_vreg (mask r : Nat) (f : Nat → Nat → Nat) (n : Nat) (w : Warp) (r' l' : Nat) (hl : l' < 64) :
    ((List.range n).foldl (fun w k => storeLanes w (r + k) false (w.lanesOf mask) (f k)) w).vreg r' l' =
      if l' ∈ w.lanesOf mask ∧ r ≤ r' ∧ r' < r + n then BitVec.ofNat 32 (f (r' - r) l') else w.vreg r' l' := by
  induction n with
  | zero => rw [if_neg (fun h => by have := h.2; omega)]; rfl
  | succ n ih =>
    rw [List.range_succ, List.foldl_append]
    simp only [List.foldl_cons, List.foldl_nil]
    have hlen : ((List.range n).foldl (fun w k => storeLanes w (r + k) false (w.lanesOf mask) (f k)) w).lanesOf mask = w.lanesOf mask := by
      apply lanesOf_congr; rw [group_only]
    rw [hlen, storeLanes_vreg _ _ _ _ (fun l hm => lt_of_mem_lanesOf hm) _ _ _ hl, ih]
    by_cases hm : l' ∈ w.lanesOf mask
    · simp only [hm, if_true, true_and, Bool.false_eq_true, false_and, if_false]
      by_cases e : r' = r + n
      · subst e
        have h1 : r ≤ r + n ∧ r + n < r + (n + 1) := by omega
        have h2 : r + n - r = n := by omega
        rw [if_pos rfl, if_pos h1, h2]
      · rw [if_neg e]
        by_cases h : r ≤ r' ∧ r' < r + n
        · have h1 : r ≤ r' ∧ r' < r + (n + 1) := by omega
          rw [if_pos h, if_pos h1]
        · have h1 : ¬ (r ≤ r' ∧ r' < r + (n + 1)) := by omega
          rw [if_neg h, if_neg h1]
    · simp [hm]

theorem dstV_eq {d : Dst} {r n : Nat} (h : d.reg = .v r) (hn : d.nowb = false) (q : Nat) : q ∈ dstV d n ↔ r ≤ q ∧ q < r + n := by
  simp only [dstV, h, hn, Bool.false_eq_true, if_false, List.mem_map, List.mem_range]
  constructor
  · rintro ⟨k, hk, rfl⟩; omega
  · intro hq; exact ⟨q - r, by omega, by omega⟩

/-- The warp after the write of a group. -/
def groupWarp (now mask : Nat) (d : Dst) (r n lat : Nat) (f : Nat → Nat → Nat) (w : Warp) : Warp :=
  if d.nowb then w
  else ((List.range n).foldl (fun w k => storeLanes w (r + k) false (w.lanesOf mask) (f k)) w).busyFor now (regCodes d.reg n) mask
    (now + lat) none

theorem wbGroup_eq (s : State) (d : Dst) (r n lat : Nat) (f : Nat → Nat → Nat) (h : d.reg = .v r) (hn : n ≠ 1) :
    wbGroup s d n lat f = updCw s (fun w => passWarp s.cur.mask (fun j => [⟨s.cycle + lat,
      if n = 2 then .e64 ((sliceLanes j).map (fun l => BitVec.ofNat 64 (f 0 l % 2 ^ 32 + f 1 l % 2 ^ 32 * 2 ^ 32))) else .void⟩])
        (groupWarp s.cycle s.cur.mask d r n lat f w)) := by
  unfold wbGroup retire passWarp groupWarp
  rw [h]
  simp only [pushAll_eq]
  have e : ∀ j, ((if n = 2 then [EntryBody.e64 ((sliceLanes j).map (fun l => BitVec.ofNat 64 (f 0 l % 2 ^ 32 + f 1 l % 2 ^ 32 * 2 ^ 32)))]
      else if n = 1 then [dstEntry (.v r) false false (f 0) j] else [.void]) : List EntryBody) =
      [if n = 2 then .e64 ((sliceLanes j).map (fun l => BitVec.ofNat 64 (f 0 l % 2 ^ 32 + f 1 l % 2 ^ 32 * 2 ^ 32))) else .void] := by
    intro j; split <;> rfl
  simp only [e]
  cases d.nowb
  · simp only [Bool.false_eq_true, if_false]
    rw [updCw_updCw]; rfl
  · rfl

theorem warpStep_group (now mask : Nat) (d : Dst) (r n lat : Nat) (f : Nat → Nat → Nat) (win : Nat → List Entry) (w : Warp)
    (h : d.reg = .v r) : WarpStep mask w (passWarp mask win (groupWarp now mask d r n lat f w)) (dstV d n) [] [] win := by
  cases hw : d.nowb
  · have ho := group_only mask r f n w
    have hg : groupWarp now mask d r n lat f w =
        ((List.range n).foldl (fun w k => storeLanes w (r + k) false (w.lanesOf mask) (f k)) w).busyFor now
          (regCodes d.reg n) mask (now + lat) none := by unfold groupWarp; simp [hw]
    have hs : (groupWarp now mask d r n lat f w).slices = w.slices := by rw [hg, ho]; rfl
    have hj : ∀ j, (groupWarp now mask d r n lat f w).slice j = w.slice j := by intro j; unfold Warp.slice; rw [hs]
    refine warpStep_pass ?_ (by rw [hs]) (fun j => by rw [hj]) ?_ (fun m j _ _ => by rw [hj]) (fun j _ _ => hj j) ?_
    · rw [hg, ho]; rfl
    · intro q l hl hq
      rw [hg]
      refine (group_vreg mask r f n w q l hl).trans (if_neg ?_)
      rintro ⟨hm, hr⟩
      exact hq.elim (fun x => x ((dstV_eq h hw q).mpr hr)) (fun x => x hm)
    · intro p l _ _
      rw [hg, ho]; rfl
  · have hg : groupWarp now mask d r n lat f w = w := by unfold groupWarp; simp [hw]
    rw [hg]
    exact warpStep_pass rfl rfl (fun _ => rfl) (fun _ _ _ _ => rfl) (fun _ _ _ _ => rfl) (fun _ _ _ => rfl) (fun _ _ _ _ => rfl)

theorem writesGroup_wbGroup (s : State) (d : Dst) (r n lat : Nat) (f : Nat → Nat → Nat) (h : d.reg = .v r) (hn : n ≠ 1) :
    WritesGroup s (wbGroup (noteIssue s) d n lat f) d r n lat f := by
  rw [wbGroup_eq _ _ _ _ _ _ h hn]
  refine ⟨frame_of_warpStep (fun _ => warpStep_group _ _ _ _ _ _ _ _ _ h), fun hw k hk l hl => ?_⟩
  · have hp := present_of_curLanes hl
    have hl' : l ∈ (cw (noteIssue s)).lanesOf s.cur.mask := by
      have := curLanes_noteIssue s; unfold curLanes at this; rw [noteIssue_cur] at this; rw [this]; exact hl
    rw [cw_updCw_noteIssue _ hp, passWarp_vreg]
    unfold groupWarp
    simp only [hw, Bool.false_eq_true, if_false]
    refine (group_vreg s.cur.mask r f n _ _ l (lt_of_mem_lanesOf hl')).trans ?_
    rw [if_pos ⟨hl', by omega, by omega⟩]
    congr 2; omega

/-! ## Two destinations -/

theorem dstWarp_vreg_out {now mask : Nat} {d : Dst} {wide sgn : Bool} {lat : Nat} {f : Nat → Nat} {w : Warp} {r l : Nat} (hl : l < 64)
    (h : r ∉ dstV d (if wide then 2 else 1) ∨ l ∉ w.lanesOf mask) : (dstWarp now mask d wide sgn lat f w).vreg r l = w.vreg r l := by
  rw [dstWarp_vreg _ _ _ _ _ _ _ _ _ _ hl]
  split
  · rfl
  · next n hr =>
    split
    · next hm =>
      have h' := h.resolve_right (fun x => x hm.2)
      rw [dstV_eq hr hm.1] at h'
      have h1 : ¬ (wide = true ∧ r = n + 1) := by
        rintro ⟨e1, e2⟩; simp only [e1, if_true] at h'; omega
      have h0 : r ≠ n := by intro e; apply h'; split <;> omega
      rw [if_neg h1, if_neg h0]
    · rfl

theorem dstWarp_sreg_out {now mask : Nat} {d : Dst} {wide sgn : Bool} {lat : Nat} {f : Nat → Nat} {w : Warp} {n j : Nat} (hj : j < 16)
    (h : n ∉ dstS d ∨ j ∉ w.inMask mask) : ((dstWarp now mask d wide sgn lat f w).slice j).sreg n = (w.slice j).sreg n := by
  rw [dstWarp_slice]
  split
  · rfl
  · next m hr =>
    split
    · next hb =>
      have hm : j ∈ w.inMask mask := mem_inMask.mpr ⟨hb.2.2, hj, hb.2.1⟩
      have h' := h.resolve_right (fun x => x hm)
      simp only [dstS, hb.1, hr, Bool.false_eq_true, if_false, List.mem_singleton] at h'
      rw [setS_sreg, if_neg (fun e => h' e.symm)]
    · rfl

theorem dstWarp_slice_only {now mask : Nat} {d : Dst} {wide sgn : Bool} {lat : Nat} {f : Nat → Nat} {w : Warp} {j : Nat} :
    (dstWarp now mask d wide sgn lat f w).slice j =
      { w.slice j with sregs := ((dstWarp now mask d wide sgn lat f w).slice j).sregs } := by
  rw [dstWarp_slice]
  split
  · rfl
  · split <;> rfl

theorem dstWarp_slice_out {now mask : Nat} {d : Dst} {wide sgn : Bool} {lat : Nat} {f : Nat → Nat} {w : Warp} {j : Nat} (hj : j < 16)
    (hm : j ∉ w.inMask mask) : (dstWarp now mask d wide sgn lat f w).slice j = w.slice j := by
  rw [dstWarp_slice]
  split
  · rfl
  · rw [if_neg]
    rintro ⟨_, hb, hl⟩
    exact hm (mem_inMask.mpr ⟨hl, hj, hb⟩)

theorem warpStep_dst2 (now mask : Nat) (a b : Dst) (wa wb sa sb : Bool) (la lb : Nat) (f g : Nat → Nat) (win : Nat → List Entry) (w : Warp) :
    WarpStep mask w (passWarp mask win (dstWarp now mask b wb sb lb g (dstWarp now mask a wa sa la f w)))
      (dstV a (if wa then 2 else 1) ++ dstV b (if wb then 2 else 1)) (dstS a ++ dstS b) [] win := by
  have hlen := dstWarp_length now mask a wa sa la f w
  generalize hv : dstWarp now mask a wa sa la f w = v at hlen
  have hin : v.inMask mask = w.inMask mask := inMask_congr hlen mask
  have hla : v.lanesOf mask = w.lanesOf mask := lanesOf_congr hlen mask
  refine warpStep_pass ?_ ((dstWarp_length ..).trans hlen) ?_ ?_ ?_ ?_ ?_
  · have h1 := dstWarp_only now mask a wa sa la f w
    have h2 := dstWarp_only now mask b wb sb lb g v
    rw [hv] at h1
    have hpr : v.preds = w.preds := by rw [← hv]; exact dstWarp_preds ..
    have e : ∀ sl vr bu, ({ v with slices := sl, vregs := vr, busy := bu } : Warp) =
        { w with slices := sl, vregs := vr, preds := w.preds, busy := bu } := by
      intro sl vr bu; rw [h1]
    have h3 : (dstWarp now mask b wb sb lb g v).preds = w.preds := (dstWarp_preds ..).trans hpr
    rw [h3]
    exact h2.trans (e _ _ _)
  · intro j
    have h1 : v.slice j = { w.slice j with sregs := (v.slice j).sregs } := by rw [← hv]; exact dstWarp_slice_only
    have h2 := @dstWarp_slice_only now mask b wb sb lb g v j
    have e : ∀ sr, ({ v.slice j with sregs := sr } : Slice) = { w.slice j with sregs := sr } := by intro sr; rw [h1]
    exact h2.trans (e _)
  · intro r l hl h
    have h1 : r ∉ dstV b (if wb then 2 else 1) ∨ l ∉ v.lanesOf mask := by
      rw [hla]; exact h.imp (fun x y => x (by simp [y])) id
    rw [dstWarp_vreg_out hl h1, ← hv]
    exact dstWarp_vreg_out hl (h.imp (fun x y => x (by simp [y])) id)
  · intro n j hj h
    have h1 : n ∉ dstS b ∨ j ∉ v.inMask mask := by
      rw [hin]; exact h.imp (fun x y => x (by simp [y])) id
    rw [dstWarp_sreg_out hj h1, ← hv]
    exact dstWarp_sreg_out hj (h.imp (fun x y => x (by simp [y])) id)
  · intro j hj hm
    rw [dstWarp_slice_out hj (by rw [hin]; exact hm), ← hv]
    exact dstWarp_slice_out hj hm
  · intro p l _ _
    unfold Warp.pred
    rw [dstWarp_preds, ← hv, dstWarp_preds]

/-- A vector destination holds its value, when a later write is to another register. -/
theorem dstWarp_vreg_self {now mask : Nat} {d : Dst} {sgn : Bool} {lat : Nat} {f : Nat → Nat} {w : Warp} {r l : Nat} (hr : d.reg = .v r)
    (hn : d.nowb = false) (hl : l ∈ w.lanesOf mask) : (dstWarp now mask d false sgn lat f w).vreg r l = BitVec.ofNat 32 (f l) := by
  rw [dstWarp_vreg _ _ _ _ _ _ _ _ _ _ (lt_of_mem_lanesOf hl), hr]
  dsimp only
  rw [if_pos ⟨hn, hl⟩, if_neg (by simp), if_pos rfl]

theorem writeDst_any (s : State) (d : Dst) (wide sgn : Bool) (lat : Nat) (f : Nat → Nat) (g : Warp → Warp) :
    updCw (writeDst s d wide sgn lat f) g = updCw s (fun w => g (dstWarp s.cycle s.cur.mask d wide sgn lat f w)) := by
  cases h : d.nowb
  · rw [writeDst_eq _ _ _ _ _ _ h, updCw_updCw]
  · unfold writeDst dstWarp; simp only [h, if_true]

@[simp] theorem writeDst_cur (s : State) (d : Dst) (wide sgn : Bool) (lat : Nat) (f : Nat → Nat) : (writeDst s d wide sgn lat f).cur = s.cur := by
  unfold writeDst; split <;> rfl
@[simp] theorem writeDst_cycle (s : State) (d : Dst) (wide sgn : Bool) (lat : Nat) (f : Nat → Nat) :
    (writeDst s d wide sgn lat f).cycle = s.cycle := by unfold writeDst; split <;> rfl

/-- Two destinations and one entry. -/
theorem two_dsts_eq (s : State) (a b : Dst) (wa wb sa sb : Bool) (la lb lat : Nat) (f g : Nat → Nat) (e : Nat → EntryBody) :
    retire (writeDst (writeDst s a wa sa la f) b wb sb lb g) lat (fun j => [e j]) = updCw s (fun w =>
      passWarp s.cur.mask (fun j => [⟨s.cycle + lat, e j⟩])
        (dstWarp s.cycle s.cur.mask b wb sb lb g (dstWarp s.cycle s.cur.mask a wa sa la f w))) := by
  rw [retire_one, writeDst_any, writeDst_any]
  simp only [writeDst_cur, writeDst_cycle]

/-- A word that writes a destination and a further vector register, in that order. -/
theorem writes_two (s : State) (d : Dst) (c lat : Nat) (f g : Nat → Nat) (hx : d.reg ≠ .v c) :
    let t := retire (writeDst (writeDst (noteIssue s) d false false lat f) ⟨.v c, false⟩ false false lat g) lat
      (fun j => [dstEntry d.reg false false f j])
    Frame s t (dstV d 1 ++ [c]) (dstS d) [] (fun j => [⟨s.cycle + lat, dstEntry d.reg false false f j⟩]) ∧
    (d.nowb = false → ∀ l ∈ curLanes s, Holds t d false false f l) ∧
    (∀ l ∈ curLanes s, (cw t).vreg c l = BitVec.ofNat 32 (g l)) := by
  intro t
  have et : t = _ := two_dsts_eq (noteIssue s) d ⟨.v c, false⟩ false false false false lat lat lat f g _
  rw [et]
  simp only [noteIssue_cur, noteIssue_cycle]
  have e2 : dstV ⟨.v c, false⟩ 1 = [c] := by simp [dstV]
  have e3 : dstS ⟨.v c, false⟩ = [] := by simp [dstS]
  have hst := warpStep_dst2 s.cycle s.cur.mask d ⟨.v c, false⟩ false false false false lat lat f g
    (fun j => [⟨s.cycle + lat, dstEntry d.reg false false f j⟩]) (cw (noteIssue s))
  simp only [Bool.false_eq_true, if_false, e2, e3, List.append_nil] at hst
  have read : ∀ l ∈ curLanes s, (mget (coreOf s s.cur.core).warps s.cur.slot).isSome = true ∧
      l ∈ (cw (noteIssue s)).lanesOf s.cur.mask := by
    intro l hl
    refine ⟨present_of_curLanes hl, ?_⟩
    have := curLanes_noteIssue s; unfold curLanes at this; rw [noteIssue_cur] at this; rw [this]; exact hl
  have hlen := dstWarp_length s.cycle s.cur.mask d false false lat f (cw (noteIssue s))
  refine ⟨frame_of_warpStep (fun _ => hst), fun hn l hl => ?_, fun l hl => ?_⟩
  · obtain ⟨hp, hl'⟩ := read l hl
    unfold Holds
    rw [cw_updCw_noteIssue _ hp]
    cases hr : d.reg with
    | v r =>
      refine ⟨?_, by simp⟩
      rw [passWarp_vreg, dstWarp_vreg_out (lt_of_mem_lanesOf hl')]
      · exact dstWarp_vreg_self hr hn hl'
      · left
        simp only [Bool.false_eq_true, if_false, e2]
        rw [hr] at hx
        simpa using hx
    | s n =>
      have hb := mem_inMask.mp (mem_lanesOf.mp hl')
      show Slice.sreg _ n = _
      unfold Slice.sreg
      rw [passWarp_sregs, dstWarp_slice]
      dsimp only
      rw [dstWarp_slice, hr]
      dsimp only
      rw [if_pos ⟨hn, hb.2.2, hb.1⟩]
      exact (setS_sreg _ n n _).trans (if_pos rfl)
  · obtain ⟨hp, hl'⟩ := read l hl
    rw [cw_updCw_noteIssue _ hp, passWarp_vreg]
    exact dstWarp_vreg_self rfl rfl (by rw [lanesOf_congr hlen]; exact hl')

/-! ## Pair words -/

@[simp] theorem pVal_noteIssue (s : State) : pVal (noteIssue s) = pVal s := by
  funext half h l; unfold pVal; simp

@[simp] theorem pEntry_noteIssue (s : State) : pEntry (noteIssue s) = pEntry s := by
  funext half h j; unfold pEntry; simp

theorem pairEffect_eq (s : State) (h0 h1 : PHalf) :
    pairEffect h0 h1 s = updCw s (fun w => passWarp s.cur.mask
      (fun j => [⟨s.cycle + pLat h1.op, pEntry s 1 h1 j⟩, ⟨s.cycle + pLat h0.op, pEntry s 0 h0 j⟩])
      (dstWarp s.cycle s.cur.mask (pDst 1 h1) false false (pLat h1.op) (pVal s 1 h1)
        (dstWarp s.cycle s.cur.mask (pDst 0 h0) false false (pLat h0.op) (pVal s 0 h0) w))) := by
  unfold pairEffect
  rw [writeDst_any, writeDst_any, writeDst_cur, writeDst_cycle]
  congr 1
  funext w
  unfold passWarp
  congr 1
  congr 1
  funext j x
  congr 1
  simp only [pushAll_eq]
  simp
  cases h : x.window with
  | nil => rfl
  | cons a t => simp [List.take_take]

theorem pReg_ne (f g : Nat) : pReg 0 f ≠ pReg 1 g := by unfold pReg; omega

theorem writesPair_pairEffect (s : State) (h0 h1 : PHalf) : WritesPair s (pairEffect h0 h1 (noteIssue s)) h0 h1 := by
  rw [pairEffect_eq]
  simp only [pEntry_noteIssue, pVal_noteIssue, noteIssue_cycle, noteIssue_cur]
  have read : ∀ l ∈ curLanes s, (mget (coreOf s s.cur.core).warps s.cur.slot).isSome = true ∧
      l ∈ (cw (noteIssue s)).lanesOf s.cur.mask := by
    intro l hl
    refine ⟨present_of_curLanes hl, ?_⟩
    have := curLanes_noteIssue s; unfold curLanes at this; rw [noteIssue_cur] at this; rw [this]; exact hl
  have e : dstS (pDst 0 h0) ++ dstS (pDst 1 h1) = [] := by simp [dstS, pDst]
  refine ⟨frame_of_warpStep (fun _ => ?_), fun hn l hl => ?_, fun hn l hl => ?_⟩
  · have h := warpStep_dst2 s.cycle s.cur.mask (pDst 0 h0) (pDst 1 h1) false false false false (pLat h0.op) (pLat h1.op)
      (pVal s 0 h0) (pVal s 1 h1) (fun j => [⟨s.cycle + pLat h1.op, pEntry s 1 h1 j⟩, ⟨s.cycle + pLat h0.op, pEntry s 0 h0 j⟩])
      (cw (noteIssue s))
    rw [e] at h
    exact h
  · obtain ⟨hp, hl'⟩ := read l hl
    rw [cw_updCw_noteIssue _ hp, passWarp_vreg]
    have hlen := dstWarp_length s.cycle s.cur.mask (pDst 0 h0) false false (pLat h0.op) (pVal s 0 h0) (cw (noteIssue s))
    rw [dstWarp_vreg_out (lt_of_mem_lanesOf hl')]
    · exact dstWarp_vreg_self rfl hn hl'
    · left
      unfold dstV
      split
      · simp
      · simp [pDst, pReg_ne h0.args.d h1.args.d]
  · obtain ⟨hp, hl'⟩ := read l hl
    rw [cw_updCw_noteIssue _ hp, passWarp_vreg]
    have hlen := dstWarp_length s.cycle s.cur.mask (pDst 0 h0) false false (pLat h0.op) (pVal s 0 h0) (cw (noteIssue s))
    exact dstWarp_vreg_self rfl hn (by rw [lanesOf_congr hlen]; exact hl')

/-! ## Parking, switch points, branches, loops -/

/-- A change of the issuing slices that does not touch their scalars, after writes of registers. -/
theorem warpStepBy_upd {P : Nat → Slice → Slice} (hP : ∀ j x sr, P j { x with sregs := sr } = { P j x with sregs := sr })
    {mask : Nat} {w v : Warp} {vs ss ps : List Nat} (g : List Gang)
    (h1 : v = { w with slices := v.slices, vregs := v.vregs, preds := v.preds, busy := v.busy })
    (hl : v.slices.length = w.slices.length)
    (h2 : ∀ j, v.slice j = { w.slice j with sregs := (v.slice j).sregs })
    (h4 : ∀ r l, l < 64 → (r ∉ vs ∨ l ∉ w.lanesOf mask) → v.vreg r l = w.vreg r l)
    (h5 : ∀ n j, j < 16 → (n ∉ ss ∨ j ∉ w.inMask mask) → (v.slice j).sreg n = (w.slice j).sreg n)
    (h5' : ∀ j, j < 16 → j ∉ w.inMask mask → v.slice j = w.slice j)
    (h6 : ∀ p l, l < 64 → (p ∉ ps ∨ l ∉ w.lanesOf mask) → v.pred p l = w.pred p l) :
    WarpStepBy P mask w { v.updSlices mask P with gangs := g } vs ss ps := by
  have hsl : ∀ j, Warp.slice { v.updSlices mask P with gangs := g } j =
      if bit mask j = true ∧ j < v.slices.length then P j (v.slice j) else v.slice j := fun j => updSlices_slice v mask P j
  have hPs : ∀ j x, (P j x).sregs = x.sregs := by
    intro j x
    have := congrArg Slice.sregs (hP j x x.sregs)
    exact this.trans rfl
  refine ⟨?_, ?_, ?_, h4, ?_, h6⟩
  · have e : ∀ sl, ({ v with slices := sl, gangs := g } : Warp) =
        { w with gangs := g, slices := sl, vregs := v.vregs, preds := v.preds, busy := v.busy } := by
      intro sl; rw [h1]
    exact e _
  · intro j hj hm
    rw [hsl, if_neg, h5' j hj hm]
    rintro ⟨hb, hlt⟩
    exact hm (mem_inMask.mpr ⟨by omega, hj, hb⟩)
  · intro j hm
    have hm' := mem_inMask.mp hm
    rw [hsl, if_pos ⟨hm'.2.2, by omega⟩, hPs]
    exact (congrArg (P j) (h2 j)).trans (hP j _ _)
  · intro n j hj hn
    rw [hsl]
    split
    · unfold Slice.sreg; rw [hPs]; exact h5 n j hj hn
    · exact h5 n j hj hn

/-- The same without writes. -/
theorem frameBy_upd {P : Nat → Slice → Slice} (hP : ∀ j x sr, P j { x with sregs := sr } = { P j x with sregs := sr })
    (s : State) (g : Warp → List Gang) :
    FrameBy P s (updCw (noteIssue s) (fun w => { w.updSlices s.cur.mask P with gangs := g w })) [] [] [] :=
  frame_of_warpStep (fun _ => warpStepBy_upd hP _ rfl rfl (fun _ => rfl) (fun _ _ _ _ => rfl) (fun _ _ _ _ => rfl) (fun _ _ _ => rfl)
    (fun _ _ _ _ => rfl))

theorem parks_park (s : State) (o : WaitObj) : Parks s (park (noteIssue s) o) o :=
  frameBy_upd (P := fun _ x => { x with st := .park o, window := [] }) (fun _ _ _ => rfl) s (fun w => w.gangs)

theorem advance_with (x : Slice) (wn : List Entry) (sr : SMap W64) :
    ({ ({ x with sregs := sr } : Slice).advance with window := wn } : Slice) = { x.advance with window := wn, sregs := sr } := by
  have h := advance_window x x.window sr
  have e : ({ x with sregs := sr } : Slice).advance = { x.advance with window := x.window, sregs := sr } := h
  rw [e]

theorem passesSwitch_retireSwitch (s : State) : PassesSwitch s (retireSwitch (noteIssue s) (fun _ => [.void])) := by
  have e : retireSwitch (noteIssue s) (fun _ => [.void]) = updCw (noteIssue s) (fun w =>
      { w.updSlices s.cur.mask (fun _ x => { x.advance with window := [⟨s.cycle, .void⟩] }) with
        gangs := (((w.updSlices s.cur.mask (fun _ x => x.discard)).updSlices s.cur.mask
          (fun _ x => (x.pushAll (s.cycle + 0) [.void]).advance)).regroup s.cur.mask).gangs }) := by
    unfold retireSwitch retire
    rw [updCw_updCw]
    congr 1
    funext w
    simp only [pushAll_eq, updCw_cur, updCw_cycle, noteIssue_cur, noteIssue_cycle]
    have hs : ((w.updSlices s.cur.mask (fun _ x => x.discard)).updSlices s.cur.mask (fun _ x =>
        ({ x with window := (((List.map (fun e => (⟨s.cycle + 0, e⟩ : Entry)) [.void]).reverse ++ x.window).take 8) } : Slice).advance)).slices =
        (w.updSlices s.cur.mask (fun _ x => { x.advance with window := [⟨s.cycle, .void⟩] })).slices := by
      unfold Warp.updSlices
      simp only [List.mapIdx_mapIdx]
      congr 1
      funext j x
      by_cases hb : bit s.cur.mask j = true
      · simp only [Function.comp, hb, if_true]
        rw [advance_win]
        unfold Slice.discard
        simp only [List.map_cons, List.map_nil, List.reverse_cons, List.reverse_nil, List.nil_append, List.append_nil, Nat.add_zero]
        exact (congrArg (fun y : Slice => ({ y with window := [⟨s.cycle, .void⟩] } : Slice)) (advance_win x [])).trans rfl
      · simp [hb]
    unfold Warp.regroup
    dsimp only
    rw [hs]
    rfl
  rw [e]
  exact frameBy_upd (P := fun _ x => { x.advance with window := [⟨s.cycle, .void⟩] }) (fun _ x sr => advance_with x _ sr) s _

theorem popFor_sregs (tgt : W64) (n : Nat) (x : Slice) (wn : List Entry) (sr : SMap W64) :
    popFor tgt n { x with window := wn, sregs := sr } = { popFor tgt n x with window := wn, sregs := sr } := by
  induction n with
  | zero => rfl
  | succ n ih =>
    simp only [popFor]
    cases h : x.loops[n]? with
    | none => simpa using ih
    | some l =>
      dsimp only
      split
      · rfl
      · exact ih

theorem branchSlice_sregs (pop : Bool) (ready : Nat) (tgt : Nat → Option W64) (e : Nat → EntryBody) (j : Nat) (x : Slice) (sr : SMap W64) :
    branchSlice pop ready tgt e j { x with sregs := sr } = { branchSlice pop ready tgt e j x with sregs := sr } := by
  unfold branchSlice
  cases h : tgt j with
  | none =>
    dsimp only
    have a := advance_window x ((⟨ready, e j⟩ :: x.window).take 8) sr
    have b := advance_window x ((⟨ready, e j⟩ :: x.window).take 8) x.sregs
    exact a.trans (by rw [show ({ x with window := (⟨ready, e j⟩ :: x.window).take 8 } : Slice) =
      { x with window := (⟨ready, e j⟩ :: x.window).take 8, sregs := x.sregs } from rfl, b])
  | some a =>
    dsimp only
    unfold Slice.jump
    cases pop
    · rfl
    · have h1 := popFor_sregs a x.depth x ((⟨ready, e j⟩ :: x.window).take 8) sr
      have h2 := popFor_sregs a x.depth x ((⟨ready, e j⟩ :: x.window).take 8) x.sregs
      simp only [if_true]
      rw [show popFor a x.depth ({ x with window := (⟨ready, e j⟩ :: x.window).take 8, sregs := sr } : Slice) = _ from h1,
        show popFor a x.depth ({ x with window := (⟨ready, e j⟩ :: x.window).take 8 } : Slice) = _ from h2]

/-- What `branch` does to the warp. -/
theorem branch_eq (s : State) (pop : Bool) (lat : Nat) (tgt : Nat → Option W64) (e : Nat → EntryBody) :
    branch s pop lat tgt e = updCw s (fun w =>
      { ({ w with resume := if (w.inMask s.cur.mask).any (fun j => (tgt j).isSome) then s.cycle + 2 else w.resume } : Warp).updSlices
          s.cur.mask (branchSlice pop (s.cycle + lat) tgt e) with
        gangs := ((w.updSlices s.cur.mask (branchSlice pop (s.cycle + lat) tgt e)).regroup s.cur.mask).gangs }) := by
  unfold branch
  congr 1
  funext w
  show (if (Warp.inMask ((w.updSlices s.cur.mask (branchSlice pop (s.cycle + lat) tgt e)).regroup s.cur.mask) s.cur.mask).any
      (fun j => (tgt j).isSome) = true
    then ({ (w.updSlices s.cur.mask (branchSlice pop (s.cycle + lat) tgt e)).regroup s.cur.mask with resume := s.cycle + 2 } : Warp)
    else (w.updSlices s.cur.mask (branchSlice pop (s.cycle + lat) tgt e)).regroup s.cur.mask) = _
  have hin : Warp.inMask ((w.updSlices s.cur.mask (branchSlice pop (s.cycle + lat) tgt e)).regroup s.cur.mask) s.cur.mask =
      w.inMask s.cur.mask := inMask_congr (updSlices_length _ _ _) _
  rw [hin]
  split <;> rfl

theorem noteIssue_branchBase (s : State) (tgt : Nat → Option W64) :
    noteIssue (branchBase s tgt) = updCw (noteIssue s) (fun w =>
      { w with resume := if (w.inMask s.cur.mask).any (fun j => (tgt j).isSome) then s.cycle + 2 else w.resume }) :=
  noteIssue_updCw s (fun w => { w with resume := if (w.inMask s.cur.mask).any (fun j => (tgt j).isSome) then s.cycle + 2 else w.resume })
    (fun _ => rfl) (fun _ => ⟨rfl, rfl⟩)

theorem branches_branch (s : State) (pop : Bool) (lat : Nat) (tgt : Nat → Option W64) (e : Nat → EntryBody) :
    Branches s (branch (noteIssue s) pop lat tgt e) pop lat tgt e [] := by
  have h : branch (noteIssue s) pop lat tgt e = updCw (noteIssue (branchBase s tgt)) (fun w =>
      { w.updSlices s.cur.mask (branchSlice pop (s.cycle + lat) tgt e) with
        gangs := ((w.updSlices s.cur.mask (branchSlice pop (s.cycle + lat) tgt e)).regroup s.cur.mask).gangs }) := by
    rw [noteIssue_branchBase, updCw_updCw, branch_eq]
    rfl
  unfold Branches
  rw [h]
  exact frameBy_upd (fun j x sr => branchSlice_sregs ..) (branchBase s tgt) _

/-- A call: the link is written, then every slice branches. -/
theorem branches_call (s : State) (d lat : Nat) (f : Nat → Nat) (pop : Bool) (tgt : Nat → Option W64) (e : Nat → EntryBody) :
    let t := branch (writeDst (noteIssue s) ⟨.s d, false⟩ true false lat f) pop lat tgt e
    Branches s t pop lat tgt e [d] ∧ ∀ l ∈ curLanes s, Holds t ⟨.s d, false⟩ true false f l := by
  intro t
  let D : Warp → Warp := dstWarp s.cycle s.cur.mask ⟨.s d, false⟩ true false lat f
  let R : Warp → Warp := fun w => { w with resume := if (w.inMask s.cur.mask).any (fun j => (tgt j).isSome) then s.cycle + 2 else w.resume }
  have e3 : dstS ⟨.s d, false⟩ = [d] := by simp [dstS]
  have ht : t = updCw (noteIssue (branchBase s tgt)) (fun w =>
      { (D w).updSlices s.cur.mask (branchSlice pop (s.cycle + lat) tgt e) with
        gangs := (((D w).updSlices s.cur.mask (branchSlice pop (s.cycle + lat) tgt e)).regroup s.cur.mask).gangs }) := by
    show branch _ _ _ _ _ = _
    rw [branch_eq, writeDst_any, writeDst_cur, writeDst_cycle]
    rw [noteIssue_branchBase, updCw_updCw]
    simp only [noteIssue_cur, noteIssue_cycle]
    congr 1
    funext w
    have hin : (D w).inMask s.cur.mask = w.inMask s.cur.mask := inMask_congr (dstWarp_length ..) _
    have hr : D (R w) = { D w with resume := (R w).resume } := rfl
    have hres : (D w).resume = w.resume := by show (dstWarp ..).resume = _; rw [dstWarp_only]
    show ({ ({ D w with resume := if ((D w).inMask s.cur.mask).any _ then _ else (D w).resume } : Warp).updSlices s.cur.mask _ with
      gangs := _ } : Warp) = ({ (D (R w)).updSlices s.cur.mask _ with gangs := _ } : Warp)
    rw [hr, hin, hres]
    rfl
  have hst : ∀ w, WarpStepBy (branchSlice pop (s.cycle + lat) tgt e) s.cur.mask w
      { (D w).updSlices s.cur.mask (branchSlice pop (s.cycle + lat) tgt e) with
        gangs := (((D w).updSlices s.cur.mask (branchSlice pop (s.cycle + lat) tgt e)).regroup s.cur.mask).gangs } [] [d] [] := by
    intro w
    refine warpStepBy_upd (fun j x sr => branchSlice_sregs ..) _ ?_ (dstWarp_length ..) (fun j => dstWarp_slice_only) ?_ ?_ ?_ ?_
    · have h := dstWarp_only s.cycle s.cur.mask ⟨.s d, false⟩ true false lat f w
      show dstWarp .. = { w with slices := (dstWarp ..).slices, vregs := (dstWarp ..).vregs, preds := (dstWarp ..).preds,
                                 busy := (dstWarp ..).busy }
      rw [dstWarp_preds]
      exact h
    · intro r l hl _
      exact dstWarp_vreg_out hl (Or.inl (by simp [dstV]))
    · intro n j hj hn
      exact dstWarp_sreg_out hj (by rw [e3]; exact hn)
    · intro j hj hm
      exact dstWarp_slice_out hj hm
    · intro p l _ _
      show (dstWarp ..).pred p l = _
      unfold Warp.pred
      rw [dstWarp_preds]
  refine ⟨?_, fun l hl => ?_⟩
  · unfold Branches
    rw [ht]
    exact frame_of_warpStep (fun _ => hst _)
  · have hp := present_of_curLanes hl
    have hb : cw (branchBase s tgt) = R (cw s) := by unfold branchBase; rw [cw_updCw, if_pos hp]
    have hp' : (mget (coreOf (branchBase s tgt) (branchBase s tgt).cur.core).warps (branchBase s tgt).cur.slot).isSome = true := by
      unfold branchBase; rw [updCw_cur, warps_updCw, if_pos ⟨rfl, rfl⟩]; simpa using hp
    unfold Holds
    dsimp only
    rw [ht, cw_updCw_noteIssue _ hp']
    generalize hv : cw (noteIssue (branchBase s tgt)) = v
    have hlen : v.slices.length = (cw s).slices.length := by rw [← hv, cw_noteIssue_slices, hb]
    have hl' : l / 4 ∈ v.inMask s.cur.mask := by
      rw [inMask_congr hlen]; exact mem_lanesOf.mp hl
    have hm := mem_inMask.mp hl'
    have h := (hst v).2.2.1 (l / 4) hl'
    show Slice.sreg (Warp.slice { (D v).updSlices s.cur.mask (branchSlice pop (s.cycle + lat) tgt e) with gangs := _ } (l / 4)) d = _
    have hs : Warp.slice { (D v).updSlices s.cur.mask (branchSlice pop (s.cycle + lat) tgt e) with
        gangs := (((D v).updSlices s.cur.mask (branchSlice pop (s.cycle + lat) tgt e)).regroup s.cur.mask).gangs } (l / 4) =
        branchSlice pop (s.cycle + lat) tgt e (l / 4) ((D v).slice (l / 4)) := by
      refine (updSlices_slice (D v) s.cur.mask (branchSlice pop (s.cycle + lat) tgt e) (l / 4)).trans (if_pos ⟨hm.2.2, ?_⟩)
      rw [dstWarp_length]; exact hm.1
    rw [hs]
    unfold Slice.sreg
    have hk : ∀ x : Slice, (branchSlice pop (s.cycle + lat) tgt e (l / 4) x).sregs = x.sregs := by
      intro x
      exact (congrArg Slice.sregs (branchSlice_sregs pop (s.cycle + lat) tgt e (l / 4) x x.sregs)).trans rfl
    rw [hk]
    have hd : (D v).slice (l / 4) = (v.slice (l / 4)).setS d (BitVec.ofNat 64 (scalarVal true false (f (lane0 (l / 4))))) := by
      show (dstWarp ..).slice _ = _
      rw [dstWarp_slice]
      exact if_pos ⟨rfl, hm.2.2, hm.1⟩
    rw [hd]
    exact (setS_sreg _ d d _).trans (if_pos rfl)

theorem loopPush_with (x : Slice) (count off : Nat) (wn : List Entry) (sr : SMap W64) :
    loopPush { x with window := wn, sregs := sr } count off =
      (loopPush x count off).map (fun y => { y with window := wn, sregs := sr }) := by
  unfold loopPush Slice.endTest
  dsimp only
  rw [endTestGo_window]
  split
  · rfl
  · split
    · rfl
    · split <;> rfl

theorem loopSlice_sregs (ready count off : Nat) (x : Slice) (sr : SMap W64) :
    loopSlice ready count off { x with sregs := sr } = { loopSlice ready count off x with sregs := sr } := by
  unfold loopSlice
  have a := loopPush_with x count off ((⟨ready, .void⟩ :: x.window).take 8) sr
  have b := loopPush_with x count off ((⟨ready, .void⟩ :: x.window).take 8) x.sregs
  rw [show loopPush ({ x with window := (⟨ready, .void⟩ :: x.window).take 8, sregs := sr } : Slice) count off = _ from a,
    show loopPush ({ x with window := (⟨ready, .void⟩ :: x.window).take 8 } : Slice) count off = _ from b]
  cases loopPush x count off <;> rfl

/-! ## What noting an issue leaves of a core's requests -/

theorem warpList_noteIssue (s : State) (k : Nat) : (coreOf (noteIssue s) k).warps =
    if k = s.cur.core then (coreOf s k).warps.map (fun x =>
      (x.1, if x.1 = s.cur.slot then x.2.noteIssue s.cur.mask (s.issues + 1) else { x.2 with yielded := false }))
    else (coreOf s k).warps := by
  unfold noteIssue updCore
  rw [coreOf_chargeTo, coreOf_issues, coreOf_setCore]
  by_cases hk : s.cur.core = k
  · subst hk; simp
  · simp [hk, Ne.symm hk]

@[simp] theorem racqWaiters_noteIssue (s : State) (k : Nat) : racqWaiters (coreOf (noteIssue s) k) = racqWaiters (coreOf s k) := by
  unfold racqWaiters
  dsimp only
  rw [warpList_noteIssue]
  congr 1
  split
  · rw [List.flatMap_map]
    congr 1
    funext x
    dsimp only
    split
    · unfold Warp.noteIssue
      dsimp only
      rw [List.filterMap_map]
      congr 1
      funext g
      dsimp only [Function.comp]
      by_cases hg : ((g.mask &&& s.cur.mask) != 0) = true
      · simp only [hg, if_true]; rfl
      · simp only [hg]; rfl
    · rfl
  · rfl

@[simp] theorem poolGranules_noteIssue (s : State) (k w n : Nat) : poolGranules (coreOf (noteIssue s) k) w n = poolGranules (coreOf s k) w n := by
  have h : usedBlocks (coreOf (noteIssue s) k) = usedBlocks (coreOf s k) := by
    unfold usedBlocks; rw [warpList_noteIssue]
    split
    · rw [List.flatMap_map]; congr 1; funext x; dsimp only; split <;> rfl
    · rfl
  unfold poolGranules freeGranules; rw [h]

end Sys2Proof.Claims
end

