-- ==== Sys2Proof/Laws/Effect.lean ====
section
/-! SUPPORT. Completing a word after any change of the state: the frame is that of the changed state. -/

namespace Sys2Proof.Claims

open Sys2Proof.Machine

/-- From a change of the issuing warp to a frame. -/
theorem frame_any {P : Nat → Slice → Slice} {s : State} {F : Warp → Warp} {vs ss ps : List Nat}
    (h : (mget (coreOf s s.cur.core).warps s.cur.slot).isSome = true → WarpStepBy P s.cur.mask (cw s) (F (cw s)) vs ss ps) :
    FrameBy P s (updCw s F) vs ss ps := by
  refine ⟨rfl, ⟨fun k => ?_, fun k n hkn => ?_⟩, ?_⟩
  · rw [coreOf_updCw]
  · unfold warpOf mgetD
    rw [warps_updCw, if_neg hkn]
  · by_cases hp : (mget (coreOf s s.cur.core).warps s.cur.slot).isSome = true
    · have ht : cw (updCw s F) = F (cw s) := by rw [cw_updCw, if_pos hp]
      obtain ⟨h1, h2, h3, h4, h5, h6⟩ := h hp
      rw [WarpKept, ht]
      refine ⟨?_, h2, h3, h4, h5, h6⟩
      rw [h1]
    · have e : cw s = Warp.empty := cw_absent s hp
      have ht : cw (updCw s F) = Warp.empty := by rw [cw_updCw, if_neg hp]
      have e2 : curSlices s = [] := by unfold curSlices; rw [e]; rfl
      rw [WarpKept, ht, e, e2]
      exact ⟨rfl, fun _ _ _ => rfl, fun j hj => absurd hj (by simp), fun _ _ _ _ => rfl, fun _ _ _ _ => rfl, fun _ _ _ _ => rfl⟩

/-- Completing a word with an entry. -/
theorem frame_retire (s : State) (lat : Nat) (e : Nat → EntryBody) :
    Frame s (retire s lat (fun j => [e j])) [] [] [] (fun j => [⟨s.cycle + lat, e j⟩]) := by
  rw [retire_one]
  exact frame_any (fun _ => warpStep_pass rfl rfl (fun _ => rfl) (fun _ _ _ _ => rfl) (fun _ _ _ _ => rfl)
    (fun _ _ _ => rfl) (fun _ _ _ _ => rfl))

/-- A word without a result. -/
theorem passes_any (s : State) : Passes s (retireVoid s) := frame_retire s 0 (fun _ => .void)

/-- A word whose result an operation writes later. -/
theorem frame_issuePend (s : State) (d : Dst) (n : Nat) (e : EntryBody) (id : Nat) :
    Frame s (issuePend s d n e id) [] [] [] (fun _ => [⟨s.cycle, e⟩]) := by
  unfold issuePend
  by_cases h : d.nowb = true
  · simp only [h, if_true]; exact frame_retire s 0 (fun _ => e)
  · simp only [h]
    rw [if_neg (by simp), retire_one (updCw s _), updCw_updCw]
    exact frame_any (fun _ => warpStep_pass rfl rfl (fun _ => rfl) (fun _ _ _ _ => rfl) (fun _ _ _ _ => rfl)
      (fun _ _ _ => rfl) (fun _ _ _ _ => rfl))

theorem writesReg_any (s : State) (d : Dst) (wide sgn : Bool) (lat : Nat) (f : Nat → Nat) :
    WritesReg s (wbLanes s d wide sgn lat f) d wide sgn lat f := by
  rw [wbLanes_eq]
  refine ⟨frame_any (fun _ => warpStep_dst ..), fun hn l hl => ?_⟩
  have hp := present_of_curLanes hl
  have ht : ∀ F, cw (updCw s F) = F (cw s) := fun F => by rw [cw_updCw, if_pos hp]
  unfold Holds
  rw [ht]
  cases hr : d.reg with
  | v r =>
    have hlt := lt_of_mem_lanesOf hl
    refine ⟨?_, fun hw => ?_⟩
    · rw [passWarp_vreg, dstWarp_vreg _ _ _ _ _ _ _ _ _ _ hlt, hr]
      dsimp only
      rw [if_pos ⟨hn, hl⟩, if_neg (by omega), if_pos rfl]
    · rw [passWarp_vreg, dstWarp_vreg _ _ _ _ _ _ _ _ _ _ hlt, hr]
      dsimp only
      rw [if_pos ⟨hn, hl⟩, if_pos ⟨hw, rfl⟩]
  | s n =>
    have hb := mem_inMask.mp (mem_lanesOf.mp hl)
    show Slice.sreg _ n = _
    unfold Slice.sreg
    rw [passWarp_sregs, dstWarp_slice, hr]
    dsimp only
    rw [if_pos ⟨hn, hb.2.2, hb.1⟩]
    exact (setS_sreg _ n n _).trans (if_pos rfl)

theorem parks_any (s : State) (o : WaitObj) : Parks s (park s o) o :=
  frame_any (fun _ => warpStepBy_upd (P := fun _ x => { x with st := .park o, window := [] }) (fun _ _ _ => rfl) (cw s).gangs
    rfl rfl (fun _ => rfl) (fun _ _ _ _ => rfl) (fun _ _ _ _ => rfl) (fun _ _ _ => rfl) (fun _ _ _ _ => rfl))

theorem passesSwitch_any (s : State) : PassesSwitch s (retireSwitch s (fun _ => [.void])) := by
  have e : retireSwitch s (fun _ => [.void]) = updCw s (fun w =>
      { w.updSlices s.cur.mask (fun _ x => { x.advance with window := [⟨s.cycle, .void⟩] }) with
        gangs := (((w.updSlices s.cur.mask (fun _ x => x.discard)).updSlices s.cur.mask
          (fun _ x => (x.pushAll (s.cycle + 0) [.void]).advance)).regroup s.cur.mask).gangs }) := by
    unfold retireSwitch retire
    rw [updCw_updCw]
    congr 1
    funext w
    simp only [pushAll_eq, updCw_cur, updCw_cycle]
    have hs : ((w.updSlices s.cur.mask (fun _ x => x.discard)).updSlices s.cur.mask (fun _ x =>
        ({ x with window := (((List.map (fun e => (⟨s.cycle + 0, e⟩ : Entry)) [.void]).reverse ++ x.window).take 8) } : Slice).advance)).slices =
        (w.updSlices s.cur.mask (fun _ x => { x.advance with window := [⟨s.cycle, .void⟩] })).slices := by
      unfold Warp.updSlices
      simp only [List.mapIdx_mapIdx]
      congr 1
      funext j x
      by_cases hb : bit s.cur.mask j = true
      · simp only [Function.comp, hb, if_true]
        rw [advance_win]
        unfold Slice.discard
        simp only [List.map_cons, List.map_nil, List.reverse_cons, List.reverse_nil, List.nil_append, List.append_nil, Nat.add_zero]
        exact (congrArg (fun y : Slice => ({ y with window := [⟨s.cycle, .void⟩] } : Slice)) (advance_win x [])).trans rfl
      · simp [hb]
    unfold Warp.regroup
    dsimp only
    rw [hs]
    rfl
  rw [e]
  exact frame_any (fun _ => warpStepBy_upd (P := fun _ x => { x.advance with window := [⟨s.cycle, .void⟩] })
    (fun _ x sr => advance_with x _ sr) _ rfl rfl (fun _ => rfl) (fun _ _ _ _ => rfl) (fun _ _ _ _ => rfl) (fun _ _ _ => rfl)
    (fun _ _ _ _ => rfl))

end Sys2Proof.Claims
end

