-- ==== Sys2Proof/Laws/Translate.lean ====
section
/-! SUPPORT. What translating addresses leaves alone: it changes TLBs and the tags of home L2, counts what it reads there and takes free values, nothing
else (06 R208, 07 R498). -/

namespace Sys2Proof.Machine

/-- A state differs from another in TLBs, L2 tags, energy counts and the counter of free values only. -/
def OnlyTlbs (s u : State) : Prop :=
  u = { s with tlb1 := u.tlb1, tlb2 := u.tlb2, l2 := u.l2, charges := u.charges, freeCtr := u.freeCtr }

theorem onlyTlbs_refl (s : State) : OnlyTlbs s s := rfl

theorem onlyTlbs_trans {s u v : State} (h : OnlyTlbs s u) (g : OnlyTlbs u v) : OnlyTlbs s v := by
  unfold OnlyTlbs at *
  rw [g, h]

theorem onlyTlbs_choose (s : State) (n : Nat) : OnlyTlbs s (choose s n).2 := by
  unfold choose; split <;> rfl

theorem onlyTlbs_l2Access (s : State) (key pa n : Nat) (w : Bool) : OnlyTlbs s (l2Access s key pa n w) := by
  unfold l2Access
  dsimp only
  split
  · split <;> rfl
  · split
    · exact onlyTlbs_trans (s := s) (u := (choose (charge s 2 n) _).2) (onlyTlbs_trans (s := s) (u := charge s 2 n) rfl (onlyTlbs_choose _ _)) rfl
    · rfl

theorem onlyTlbs_tlbAdd (s : State) (cl : Nat) (e : TlbEnt) : OnlyTlbs s (tlbAdd s cl e) := by
  unfold tlbAdd
  exact onlyTlbs_trans (onlyTlbs_choose s _) (onlyTlbs_trans (onlyTlbs_choose _ _) rfl)

theorem onlyTlbs_pickEntry (s : State) (cl ctx va lvl tbl : Nat) : OnlyTlbs s (pickEntry s cl ctx va lvl tbl).2 := by
  unfold pickEntry
  dsimp only
  refine onlyTlbs_trans ?_ (onlyTlbs_choose _ _)
  split
  · exact onlyTlbs_l2Access _ _ _ _ _
  · exact onlyTlbs_refl s

theorem onlyTlbs_walkGo (cl ctx va : Nat) (kind : AccessKind) (keys : W64) (n : Nat) :
    ∀ (tbl : Nat) (s : State), OnlyTlbs s (walkGo cl ctx va kind keys n tbl s).2 := by
  induction n with
  | zero => intro tbl s; rfl
  | succ n ih =>
    intro tbl s
    unfold walkGo
    have hp := onlyTlbs_pickEntry s cl ctx va n tbl
    dsimp only
    split
    · exact hp
    · split
      · exact hp
      · split
        · split <;> exact onlyTlbs_trans hp (onlyTlbs_tlbAdd _ _ _)
        · exact onlyTlbs_trans (onlyTlbs_trans hp (onlyTlbs_tlbAdd _ _ _)) (ih _ _)

/-- Translating changes TLBs only. -/
theorem onlyTlbs_translate (s : State) (cl ctx va : Nat) (kind : AccessKind) : OnlyTlbs s (translate s cl ctx va kind).2 := by
  unfold translate
  split
  · rfl
  · split
    · split <;> rfl
    · split
      · rfl
      · exact onlyTlbs_walkGo ..

theorem onlyTlbs_xlatLanes (cl ctx n : Nat) (kind : AccessKind) (addr : Nat → Nat) (l : List Nat) :
    ∀ s : State, OnlyTlbs s (xlatLanes cl ctx n kind addr l s).2 := by
  induction l with
  | nil => intro s; rfl
  | cons a t ih =>
    intro s
    unfold xlatLanes
    have ht := onlyTlbs_translate s cl ctx (addr a) kind
    split
    · rfl
    · split
      · next h => rw [h] at ht; exact ht
      · next h =>
        rw [h] at ht
        have hi := ih (translate s cl ctx (addr a) kind).2
        rw [h] at hi
        split
        · next h2 => rw [h2] at hi; exact onlyTlbs_trans ht hi
        · next h2 => rw [h2] at hi; exact onlyTlbs_trans ht hi

theorem onlyTlbs_xlatRange (cl ctx : Nat) (kind : AccessKind) (l : List Nat) :
    ∀ s : State, OnlyTlbs s (xlatRange cl ctx kind l s).2 := by
  induction l with
  | nil => intro s; rfl
  | cons a t ih =>
    intro s
    unfold xlatRange
    have ht := onlyTlbs_translate s cl ctx a kind
    split
    · next h => rw [h] at ht; exact ht
    · next h =>
      rw [h] at ht
      have hi := ih (translate s cl ctx a kind).2
      rw [h] at hi
      split
      · next h2 => rw [h2] at hi; exact onlyTlbs_trans ht hi
      · next h2 => rw [h2] at hi; exact onlyTlbs_trans ht hi

end Sys2Proof.Machine
end

