-- ==== Sys2Proof/Laws/MemWords.lean ====
section
/-! SUPPORT. What a word does that puts an operation in flight (07 R234, R255). -/

namespace Sys2Proof.Claims

open Sys2Proof.Machine

/-- A state from which the issuing warp's values can be read off another's. -/
def SameVals (s b : State) : Prop :=
  b.mem = s.mem ∧ (cw b).vregs = (cw s).vregs ∧ (cw b).slices = (cw s).slices ∧ (cw b).preds = (cw s).preds

theorem sameVals_note (s : State) : SameVals s (noteIssue s) := by
  refine ⟨rfl, ?_, ?_, ?_⟩ <;> rw [cw_noteIssue_only]

theorem sameVals_trans {s u v : State} (h : SameVals s u) (g : SameVals u v) : SameVals s v :=
  ⟨g.1.trans h.1, g.2.1.trans h.2.1, g.2.2.1.trans h.2.2.1, g.2.2.2.trans h.2.2.2⟩

theorem sameVals_tlbs {s u : State} (h : OnlyTlbs s u) : SameVals s u := by
  unfold OnlyTlbs at h
  rw [h]; exact ⟨rfl, rfl, rfl, rfl⟩

theorem sameVals_counted (u : State) (ic : Nat) (tx : Tx) : SameVals u (counted u ic tx) := by
  have hc : cw (counted u ic tx) = if (mget (coreOf u u.cur.core).warps u.cur.slot).isSome then (cw u).raise ic u.nextId else Warp.empty :=
    cw_updCw _ _
  refine ⟨rfl, ?_, ?_, ?_⟩ <;> rw [hc] <;> split
  · rfl
  · next h => rw [cw_absent u h]
  · rfl
  · next h => rw [cw_absent u h]
  · rfl
  · next h => rw [cw_absent u h]

theorem sameVals_trace (u : State) (w : Warp) (wr : Bool) (xs : List Xlat) : SameVals u (traceXlats u w wr xs) := by
  unfold traceXlats updTrace; split <;> exact ⟨rfl, rfl, rfl, rfl⟩

theorem sameVals_volatile (u : State) (w : Warp) : SameVals u (traceVolatile u w) := by
  unfold traceVolatile updTrace; split <;> exact ⟨rfl, rfl, rfl, rfl⟩

/-- A frame without destinations leaves every value as it was. -/
theorem quiet_of_frame {P : Nat → Slice → Slice} {s b t : State} (h : SameVals s b) (f : FrameBy P b t [] [] []) : Quiet s t := by
  obtain ⟨f1, -, -, -, -, f5, f6, f7⟩ := f
  refine ⟨?_, fun r l hl => ?_, fun n j hj => ?_, fun p l hl => ?_⟩
  · unfold OnlyCores at f1; rw [f1]; exact h.1
  · rw [f5 r l hl (Or.inl (by simp))]; unfold Warp.vreg; rw [h.2.1]
  · rw [f6 n j hj (Or.inl (by simp))]; unfold Warp.slice; rw [h.2.2.1]
  · rw [f7 p l hl (Or.inl (by simp))]; unfold Warp.pred; rw [h.2.2.2]

theorem issueTx_room {s : State} {ic : Nat} {tx : Tx} (f : Nat → State → State) (h : Room s ic tx) :
    issueTx s ic tx f = .done (f s.nextId (counted s ic tx)) := by
  obtain ⟨h1, h2⟩ := h
  unfold issueTx
  dsimp only
  rw [if_neg (by omega)]
  rfl

theorem issueTx_full {s : State} {ic : Nat} {tx : Tx} (f : Nat → State → State) (h : ¬ Room s ic tx) :
    issueTx s ic tx f = .stall := by
  unfold Room at h
  unfold issueTx
  dsimp only at *
  rw [if_pos (by omega)]

/-- The site and the time stay. -/
def SameSite (s b : State) : Prop := b.cur = s.cur ∧ b.cycle = s.cycle

theorem sameSite_tlbs {s u : State} (h : OnlyTlbs s u) : SameSite s u := by
  unfold OnlyTlbs at h; rw [h]; exact ⟨rfl, rfl⟩

theorem sameSite_trace (u : State) (w : Warp) (wr : Bool) (xs : List Xlat) : SameSite u (traceXlats u w wr xs) := by
  unfold traceXlats updTrace; split <;> exact ⟨rfl, rfl⟩

theorem sameSite_volatile (u : State) (w : Warp) : SameSite u (traceVolatile u w) := by
  unfold traceVolatile updTrace; split <;> exact ⟨rfl, rfl⟩

/-- The destination awaits its operation. -/
theorem awaits_issuePend {s b : State} (hv : SameVals s b) (hs : SameSite s b) (d : Dst) (n id : Nat) (e : EntryBody) :
    Awaits s (issuePend b d n e id) d n id := by
  intro hn hc c hm
  have hp : (mget (coreOf b b.cur.core).warps b.cur.slot).isSome = true := by
    by_cases h : (mget (coreOf b b.cur.core).warps b.cur.slot).isSome = true
    · exact h
    · refine absurd ?_ hc
      have e1 : (cw s).slices = [] := by rw [← hv.2.2.1, cw_absent b h]; rfl
      unfold curSlices Warp.inMask
      rw [e1]
      simp [ones, clampN]
  unfold issuePend
  simp only [hn, Bool.false_eq_true, if_false]
  rw [retire_one (updCw b _), updCw_updCw, cw_updCw, if_pos hp]
  refine ⟨⟨c, b.cur.mask, 0, some id⟩, ?_, rfl, by rw [hs.1], rfl⟩
  show _ ∈ ((cw b).busyFor b.cycle (regCodes d.reg n) b.cur.mask 0 (some id)).busy
  unfold Warp.busyFor
  exact List.mem_append_right _ (List.mem_map.mpr ⟨c, hm, rfl⟩)

/-- A word with a result in flight. -/
theorem sendsLoad_of {i : Instr} {s u : State} {us : Use} {body : State → Act} {ic : Nat} {tx : Tx} {d : Dst} {n : Nat}
    {e : Nat → EntryBody} {B : State → State} (he : exec i s = issueWord us body s) (h : Issues us s)
    (hb : body (noteIssue s) = issueTx u ic tx (fun id v => issuePend (B v) d n (e id) id))
    (hu : OnlyTlbs (noteIssue s) u) (hB : SameVals (counted u ic tx) (B (counted u ic tx)))
    (hS : SameSite (counted u ic tx) (B (counted u ic tx))) :
    SendsLoad i s u (B (counted u ic tx)) ic tx d n (e u.nextId) := by
  have hv : SameVals s (B (counted u ic tx)) :=
    sameVals_trans (sameVals_note s) (sameVals_trans (sameVals_tlbs hu) (sameVals_trans (sameVals_counted u ic tx) hB))
  have hs : SameSite s (B (counted u ic tx)) := by
    have := sameSite_tlbs hu
    exact ⟨hS.1.trans this.1, hS.2.trans this.2⟩
  refine ⟨fun hr => ⟨_, he.trans (issueWord_done h (hb.trans (issueTx_room _ hr))), ?_, ?_, ?_⟩, fun hr => ?_⟩
  · have := frame_issuePend (B (counted u ic tx)) d n (e u.nextId) u.nextId
    rw [hs.2] at this; exact this
  · exact quiet_of_frame hv (frame_issuePend (B (counted u ic tx)) d n (e u.nextId) u.nextId)
  · exact awaits_issuePend hv hs d n u.nextId _
  · exact he.trans (issueWord_stall h (hb.trans (issueTx_full _ hr)))

/-- A word without a result whose operation is in flight. -/
theorem sendsStore_of {i : Instr} {s u : State} {us : Use} {body : State → Act} {ic : Nat} {tx : Tx} {B : State → State}
    (he : exec i s = issueWord us body s) (h : Issues us s)
    (hb : body (noteIssue s) = issueTx u ic tx (fun _ v => retireVoid (B v)))
    (hu : OnlyTlbs (noteIssue s) u) (hB : SameVals (counted u ic tx) (B (counted u ic tx))) :
    SendsStore i s u (B (counted u ic tx)) ic tx := by
  have hv : SameVals s (B (counted u ic tx)) :=
    sameVals_trans (sameVals_note s) (sameVals_trans (sameVals_tlbs hu) (sameVals_trans (sameVals_counted u ic tx) hB))
  refine ⟨fun hr => ⟨_, he.trans (issueWord_done h (hb.trans (issueTx_room _ hr))), passes_any _, ?_⟩, fun hr => ?_⟩
  · exact quiet_of_frame hv (passes_any _)
  · exact he.trans (issueWord_stall h (hb.trans (issueTx_full _ hr)))

/-! ## What the note of an issue does not change -/

variable (s : State)

@[simp] theorem perfLanes_noteIssue (g : Option Guard) : perfLanes (noteIssue s) g = perfLanes s g := by
  unfold perfLanes; simp
@[simp] theorem loadLanes_noteIssue (d : Dst) : loadLanes (noteIssue s) d = loadLanes s d := by unfold loadLanes; simp
@[simp] theorem effAddr_noteIssue (m : MemOpnd) (n : Nat) : effAddr (noteIssue s) m n = effAddr s m n := by
  funext l; unfold effAddr; simp
@[simp] theorem effAddr32_noteIssue (m : MemOpnd) (n : Nat) : effAddr32 (noteIssue s) m n = effAddr32 s m n := by
  funext l; unfold effAddr32; simp
@[simp] theorem storeBytes_noteIssue (r : Reg) (z : MSize) : storeBytes (noteIssue s) r z = storeBytes s r z := by
  funext l; unfold storeBytes; simp
@[simp] theorem argArea_noteIssue : argArea (noteIssue s) = argArea s := by
  unfold argArea; simp; rfl
@[simp] theorem blockScratch_noteIssue : blockScratch (noteIssue s) = blockScratch s := by
  unfold blockScratch; simp
@[simp] theorem scratchLanes_noteIssue (n : Nat) (a : Nat → Nat) (l : List Nat) : scratchLanes (noteIssue s) n a l = scratchLanes s n a l := by
  unfold scratchLanes; simp
@[simp] theorem casPair_noteIssue : casPair (noteIssue s) = casPair s := by
  funext o w l; unfold casPair; simp
@[simp] theorem atomVals_noteIssue : atomVals (noteIssue s) = atomVals s := by
  funext o c w l; unfold atomVals; simp

theorem curLow_noteIssue : curLow (noteIssue s) = curLow s := by
  unfold curLow Warp.lowSlice; rw [inMask_congr (v := cw s) (by simp)]; rfl
@[simp] theorem lowOp_noteIssue : lowOp (noteIssue s) = lowOp s := by
  funext w o; unfold lowOp; simp [curLow_noteIssue]
@[simp] theorem barCount_noteIssue : barCount (noteIssue s) = barCount s := by
  funext n lim; unfold barCount; simp [curLow_noteIssue]
@[simp] theorem curCb_noteIssue : curCb (noteIssue s) = curCb s := by unfold curCb; simp
@[simp] theorem descReg_noteIssue : descReg (noteIssue s) = descReg s := by funext x j k; unfold descReg; simp
@[simp] theorem copyC_noteIssue : copyC (noteIssue s) = copyC s := by funext x j; unfold copyC; simp
@[simp] theorem barOf_noteIssue : barOf (noteIssue s) = barOf s := by funext b; cases b <;> rfl
theorem copyOf_noteIssue (k : CopyRef) : copyOf (noteIssue s) k = copyOf s k := by
  unfold copyOf
  rw [coreOf_noteIssue]
  rfl
@[simp] theorem copyByHandle_noteIssue : copyByHandle (noteIssue s) = copyByHandle s := by
  funext ctx h; unfold copyByHandle; simp only [copyOf_noteIssue]
@[simp] theorem ic_noteIssue (i : Nat) : (cw (noteIssue s)).ic i = (cw s).ic i := by unfold Warp.ic; simp
@[simp] theorem traceVolatile_note (v : State) : traceVolatile v (cw (noteIssue s)) = traceVolatile v (cw s) := by
  unfold traceVolatile updTrace; simp

variable {s}

theorem traceXlats_congr (v : State) {w w' : Warp} (h : w.launch = w'.launch) (g : w.block = w'.block) (wr : Bool) (xs : List Xlat) :
    traceXlats v w wr xs = traceXlats v w' wr xs := by
  unfold traceXlats updTrace; rw [h, g]

theorem traceVolatile_congr (v : State) {w w' : Warp} (h : w.launch = w'.launch) (g : w.block = w'.block) :
    traceVolatile v w = traceVolatile v w' := by
  unfold traceVolatile updTrace; rw [h, g]

end Sys2Proof.Claims
end

