-- ==== Sys2Proof/Laws/Copies.lean ====
section
/-! SUPPORT. What admitting copies does (09 R294). -/

namespace Sys2Proof.Claims

open Sys2Proof.Machine

/-- Two states in which the issuing warp reads the same operands. -/
def SameOps (s u : State) : Prop :=
  u.cur = s.cur ∧ (cw u).slices = (cw s).slices ∧ (cw u).ctx = (cw s).ctx ∧ (cw u).uid = (cw s).uid ∧
  ∀ t wide o l, opVal u t wide o l = opVal s t wide o l

theorem sameOps_trans {s u v : State} (h : SameOps s u) (g : SameOps u v) : SameOps s v :=
  ⟨g.1.trans h.1, g.2.1.trans h.2.1, g.2.2.1.trans h.2.2.1, g.2.2.2.1.trans h.2.2.2.1, fun t w o l => (g.2.2.2.2 t w o l).trans (h.2.2.2.2 t w o l)⟩

theorem sameOps_of {s u : State} (h : cw u = { cw s with flight := (cw u).flight }) (hc : u.cur = s.cur) (h1 : u.dev = s.dev) (h2 : u.cycle = s.cycle)
    (h3 : u.gen = s.gen) (hb : blockId u (cw s) = blockId s (cw s)) : SameOps s u := by
  refine ⟨hc, by rw [h], by rw [h], by rw [h], fun t w o l => ?_⟩
  have hv : (cw u).vreg = (cw s).vreg := by rw [h]; rfl
  have hs : (cw u).slice = (cw s).slice := by rw [h]; rfl
  have hbb : blockId u (cw u) = blockId s (cw s) := by rw [h]; exact hb
  unfold opVal
  cases o with
  | reg r => unfold regVal; simp only [hv, hs]
  | spec x => unfold specVal; cases x <;> simp only [hbb, hc, h1, h2, h3] <;> first | rfl | (rw [h])
  | konst k => rfl
  | latch k => unfold latchEntry; simp only [hs]

theorem traceCopy_ops (s : State) (w : Warp) (y : Copy) : SameOps s (traceCopy s w y) ∧ coreOf (traceCopy s w y) = coreOf s := by
  unfold traceCopy
  split
  · exact ⟨sameOps_of rfl rfl rfl rfl rfl rfl, rfl⟩
  · unfold updTrace; dsimp only
    split
    · refine ⟨sameOps_of rfl rfl rfl rfl rfl ?_, rfl⟩
      unfold blockId; dsimp only; rw [mget_madj]
      by_cases e : w.block = (cw s).block
      · rw [if_pos e, e]; cases mget s.blocks (cw s).block <;> rfl
      · rw [if_neg e]
    · exact ⟨sameOps_of rfl rfl rfl rfl rfl rfl, rfl⟩

/-- What admitting one copy answers: a copy with the operands of its slice stands in the slot, and the handle names it. -/
def AdmitsOne (op : CopyOp) (x : CopyArgs) (after : Nat) (s : State) (j slot : Nat) (r : Nat × State) : Prop :=
  ∃ y : Copy, r.1 = copyHandle ⟨s.cur.core, slot⟩ y.serial ∧ y = newCopy s op x j y.serial s.nextId after y.pos ∧ SameOps s r.2 ∧
    (coreOf r.2 s.cur.core).copies = mset (coreOf s s.cur.core).copies slot y

theorem admitCopy_spec (op : CopyOp) (x : CopyArgs) (after : Nat) (s : State) (j slot : Nat) :
    AdmitsOne op x after s j slot (admitCopy op x after s j slot) := by
  have key : ∀ (s1 : State) (y : Copy) (sr : SMap Nat), SameOps s s1 → s1.cores = s.cores → 
      let s2 := updCore s1 s.cur.core (fun c => { c with copies := mset c.copies slot y, serials := sr })
      let s3 := if x.kind = .ic then updCw s2 (fun w => w.raise 2 s.nextId) else s2
      SameOps s (traceCopy s3 (cw s3) y) ∧ (coreOf (traceCopy s3 (cw s3) y) s.cur.core).copies = mset (coreOf s s.cur.core).copies slot y := by
    intro s1 y sr h1 hc s2 s3
    have hcore : ∀ k, coreOf s1 k = coreOf s k := fun k => by unfold coreOf; rw [hc]
    have e2 : cw s2 = cw s1 := by
      show warpOf (updCore s1 s.cur.core _) s1.cur.core s1.cur.slot = warpOf s1 s1.cur.core s1.cur.slot
      unfold warpOf updCore; rw [h1.1, coreOf_setCore, if_pos rfl]
    have o2 : SameOps s1 s2 := sameOps_of (by rw [e2]) rfl rfl rfl rfl rfl
    have c2 : (coreOf s2 s.cur.core).copies = mset (coreOf s s.cur.core).copies slot y := by
      show (coreOf (updCore s1 s.cur.core _) s.cur.core).copies = _
      rw [coreOf_updCore_self, hcore]
    have o3 : SameOps s2 s3 ∧ (coreOf s3 s.cur.core).copies = (coreOf s2 s.cur.core).copies := by
      show SameOps s2 (if x.kind = .ic then _ else _) ∧ _
      by_cases hk : x.kind = .ic
      · have e : s3 = updCw s2 (fun w => w.raise 2 s.nextId) := if_pos hk
        rw [if_pos hk, e]
        refine ⟨sameOps_of ?_ rfl rfl rfl rfl rfl, by rw [coreOf_updCw]⟩
        rw [cw_updCw]
        split
        · rfl
        · next h => rw [cw_absent s2 h]
      · have e : s3 = s2 := if_neg hk
        rw [if_neg hk, e]; exact ⟨sameOps_of rfl rfl rfl rfl rfl rfl, rfl⟩
    have ht := traceCopy_ops s3 (cw s3) y
    exact ⟨sameOps_trans (sameOps_trans (sameOps_trans h1 o2) o3.1) ht.1, by rw [ht.2, o3.2, c2]⟩
  have f1 : SameOps s { s with nextId := s.nextId + 1 } := sameOps_of rfl rfl rfl rfl rfl rfl
  have f2 : ∀ cs, SameOps s { s with nextId := s.nextId + 1, clusters := cs } := fun cs => sameOps_of rfl rfl rfl rfl rfl rfl
  have fin : ∀ (s1 : State) (pos : Nat), SameOps s s1 → s1.cores = s.cores →
      (∀ sr, newCopy s1 op x j sr s.nextId after pos = newCopy s op x j sr s.nextId after pos) →
      admitCopy op x after s j slot =
        (let sr := (mgetD (coreOf s s.cur.core).serials slot 0 + 1) % 2 ^ 14
         let y := newCopy s1 op x j sr s.nextId after pos
         let s2 := updCore s1 s.cur.core (fun c => { c with copies := mset c.copies slot y, serials := mset c.serials slot sr })
         let s3 := if x.kind = .ic then updCw s2 (fun w => w.raise 2 s.nextId) else s2
         (copyHandle ⟨s.cur.core, slot⟩ sr, traceCopy s3 (cw s3) y)) →
      AdmitsOne op x after s j slot (admitCopy op x after s j slot) := by
    intro s1 pos h1 h2 h3 he
    rw [he]
    dsimp only
    generalize (mgetD (coreOf s s.cur.core).serials slot 0 + 1) % 2 ^ 14 = sr
    generalize hy : newCopy s1 op x j sr s.nextId after pos = y
    have hs : y.serial = sr := by rw [← hy]; rfl
    have hp : y.pos = pos := by rw [← hy]; rfl
    refine ⟨y, by rw [hs], by rw [hs, hp, ← hy, h3], ?_, ?_⟩
    · exact (key s1 y _ h1 h2).1
    · exact (key s1 y _ h1 h2).2
  by_cases ho : op = .copyf
  · subst ho
    have hc : ∀ (s1 : State) (n : Nat), (clustOf s1 n) = clustOf s1 n := fun _ _ => rfl
    refine fin (updClust { s with nextId := s.nextId + 1 } (clusterOf s.cur.core) (fun k =>
      let k := { k with fillLast := some (s.cycle, s.cur.core) }
      if (descReg s x j 0).toNat == 0 then { k with fillA := k.fillA + 1 } else { k with fillB := k.fillB + 1 }))
      (if (descReg s x j 0).toNat == 0 then (clustOf { s with nextId := s.nextId + 1 } (clusterOf s.cur.core)).fillA
        else (clustOf { s with nextId := s.nextId + 1 } (clusterOf s.cur.core)).fillB) (f2 _) rfl (fun _ => rfl) ?_
    unfold admitCopy
    dsimp only [fresh]
    rw [if_pos rfl, if_pos rfl]
    rfl
  · refine fin { s with nextId := s.nextId + 1 } (if op = .copyw then (warpOf s (twCore (descReg s x j 1).toNat) (twSlot (descReg s x j 1).toNat)).uid else 0) f1 rfl (fun _ => rfl) ?_
    unfold admitCopy
    dsimp only [fresh]
    rw [if_neg ho, if_neg ho]
    rfl

theorem admitted_same {s u : State} (h : SameOps s u) {op : CopyOp} {x : CopyArgs} {after j : Nat} {y : Copy}
    (a : Admitted u op x after j y) : Admitted s op x after j y := by
  have hd : ∀ k, descReg u x j k = descReg s x j k := fun k => by
    unfold descReg Warp.slice; rw [h.2.1]
  have hc : copyC u x j = copyC s x j := by
    unfold copyC op64; cases x.c with
    | none => rfl
    | some o => exact h.2.2.2.2 _ _ _ _
  have hb : ∀ o l, op32 u o l = op32 s o l := fun o l => h.2.2.2.2 _ _ _ _
  unfold Admitted at a ⊢
  simp only [hd, hc, hb, h.1, h.2.2.1, h.2.2.2.1] at a
  exact a

theorem admitted_new (s : State) (op : CopyOp) (x : CopyArgs) (j serial order after pos : Nat) :
    Admitted s op x after j (newCopy s op x j serial order after pos) :=
  ⟨rfl, rfl, rfl, rfl, rfl, rfl, rfl, rfl, rfl, rfl, fun o h => by unfold newCopy; rw [h], rfl, rfl, rfl, rfl, rfl, rfl, rfl, rfl, rfl, rfl, rfl, rfl, rfl, rfl⟩

/-- Admitting the copies of the slices: each slice's copy stands in its slot under its handle, and the other slots keep theirs. -/
theorem admitAll_spec (op : CopyOp) (x : CopyArgs) (after : Nat) (l : List (Nat × Nat)) :
    ∀ s : State, (l.map (·.1)).Nodup → (l.map (·.2)).Nodup →
      (∀ p ∈ l, ∃ y, mget (coreOf (admitAll op x after l s).2 s.cur.core).copies p.2 = some y ∧ Admitted s op x after p.1 y ∧
        (admitAll op x after l s).1.find? (fun h => h.1 == p.1) = some (p.1, copyHandle ⟨s.cur.core, p.2⟩ y.serial)) ∧
      (∀ n, n ∉ l.map (·.2) →
        mget (coreOf (admitAll op x after l s).2 s.cur.core).copies n = mget (coreOf s s.cur.core).copies n) := by
  induction l with
  | nil => intro s _ _; exact ⟨fun p h => absurd h (by simp), fun n _ => rfl⟩
  | cons a t ih =>
    intro s hj hn
    obtain ⟨j, slot⟩ := a
    obtain ⟨y, h1, h2, h3, h4⟩ := admitCopy_spec op x after s j slot
    have e : admitAll op x after ((j, slot) :: t) s =
      ((j, (admitCopy op x after s j slot).1) :: (admitAll op x after t (admitCopy op x after s j slot).2).1,
        (admitAll op x after t (admitCopy op x after s j slot).2).2) := rfl
    rw [e]
    generalize admitCopy op x after s j slot = r at h1 h3 h4
    simp only [List.map_cons, List.nodup_cons] at hj hn
    have hi := ih r.2 hj.2 hn.2
    rw [h3.1] at hi
    refine ⟨fun p hp => ?_, fun n hm => ?_⟩
    · rcases List.mem_cons.mp hp with hq | hq
      · subst hq
        refine ⟨y, ?_, ?_, ?_⟩
        · rw [hi.2 slot hn.1, h4]; simp
        · rw [h2]; exact admitted_new ..
        · simp [h1]
      · obtain ⟨z, z1, z2, z3⟩ := hi.1 p hq
        refine ⟨z, z1, admitted_same h3 z2, ?_⟩
        have : (j == p.1) = false := by
          rw [beq_eq_false_iff_ne]; rintro rfl
          exact hj.1 (List.mem_map.mpr ⟨p, hq, rfl⟩)
        simp only [List.find?_cons, this]
        exact z3
    · simp only [List.map_cons, List.mem_cons, not_or] at hm
      rw [hi.2 n hm.2, h4, mget_mset_ne _ _ (fun q => hm.1 q.symm)]

end Sys2Proof.Claims
end

