-- ==== Sys2Proof/Laws/Memory.lean ====
section
/-! SUPPORT. What writes at the home do to the bytes: exactly the listed bytes change, and the canonical form of the memory is kept. -/

namespace Sys2Proof.Machine

/-- The bytes after a list of writes. -/
def putBytes (m : List Host.Cell) (ws : List (Nat × Byte)) : List Host.Cell := ws.foldl (fun m w => mput 0 m w.1 w.2) m

/-- Folding updates that leave the bytes alone leaves the bytes alone. -/
theorem foldl_mem {β : Type} (f : State → β → State) (h : ∀ s b, (f s b).mem = s.mem) (l : List β) (s : State) :
    (l.foldl f s).mem = s.mem := by
  induction l generalizing s with
  | nil => rfl
  | cons b t ih => rw [List.foldl_cons, ih, h]

@[simp] theorem choose_mem (s : State) (n : Nat) : (choose s n).2.mem = s.mem := by unfold choose; split <;> rfl

@[simp] theorem fresh_mem (s : State) : (fresh s).2.mem = s.mem := rfl

@[simp] theorem sendDecr_mem (s : State) (c h n : Nat) : (sendDecr s c h n).mem = s.mem := by
  unfold sendDecr sendDecrOf; split <;> rfl

@[simp] theorem pokeByte_mem (s : State) (key pa : Nat) (b : Byte) : (pokeByte s key pa b).mem = mput 0 s.mem pa b := rfl

theorem pokeBytes_mem (key : Nat) (ws : List (Nat × Byte)) (s : State) :
    (ws.foldl (fun s w => pokeByte s key w.1 w.2) s).mem = putBytes s.mem ws := by
  induction ws generalizing s with
  | nil => rfl
  | cons w t ih => rw [List.foldl_cons, ih]; rfl

@[simp] theorem l2Access_mem (s : State) (key pa n : Nat) (w : Bool) : (l2Access s key pa n w).mem = s.mem := by
  unfold l2Access
  dsimp only
  split
  · split <;> simp
  · rw [charge_mem]
    dsimp only
    split <;> simp

@[simp] theorem testWaits_mem (s : State) (p : Nat → Bool) : (testWaits s p).mem = s.mem := rfl

@[simp] theorem countBuckets_mem (s : State) (as : List Nat) : (countBuckets s as).mem = s.mem := by
  unfold countBuckets
  apply foldl_mem
  intro s b
  dsimp only
  split
  · rfl
  · split
    · simp
    · rfl

@[simp] theorem stampTiles_mem (s : State) (tag : Nat) (ts : List Nat) : (stampTiles s tag ts).mem = s.mem :=
  foldl_mem (fun s t => { s with hallmarks := mput (0, 0) s.hallmarks t (tag, BitVec.ofNat 32 s.gen.toNat) }) (fun _ _ => rfl) ts s

@[simp] theorem forgetSignals_mem (s : State) (as : List Nat) : (forgetSignals s as).mem = s.mem := rfl

/-- A write event writes its bytes, and no other (06 R219, 07 R239). -/
theorem writeEvent_mem (s : State) (tag key : Nat) (ws : List (Nat × Byte)) : (writeEvent s tag key ws).mem = putBytes s.mem ws := by
  unfold writeEvent
  cases ws with
  | nil => rfl
  | cons w t =>
    dsimp only
    split
    · exact pokeBytes_mem key (w :: t) s
    · rw [testWaits_mem, countBuckets_mem, l2Access_mem, forgetSignals_mem, stampTiles_mem]
      exact pokeBytes_mem key (w :: t) s

theorem putBytes_append (m : List Host.Cell) (a b : List (Nat × Byte)) : putBytes m (a ++ b) = putBytes (putBytes m a) b :=
  List.foldl_append

theorem byUnit_flatten (ws : List (Nat × Byte)) : (byUnit ws).flatten = ws := by
  induction ws with
  | nil => rfl
  | cons w t ih =>
    unfold byUnit
    split
    · split
      · rename_i h _; rw [h] at ih; simpa using ih
      · rename_i h _; rw [h] at ih; simpa using ih
    · rename_i r _; simpa using ih

/-- Writes at the home write their bytes, in order, and no other. -/
theorem writeUnits_mem (s : State) (tag key : Nat) (ws : List (Nat × Byte)) : (writeUnits s tag key ws).mem = putBytes s.mem ws := by
  have h : ∀ (us : List (List (Nat × Byte))) (s : State),
      (us.foldl (fun s u => writeEvent s tag key u) s).mem = putBytes s.mem us.flatten := by
    intro us
    induction us with
    | nil => intro s; rfl
    | cons u t ih => intro s; rw [List.foldl_cons, ih, writeEvent_mem, List.flatten_cons, putBytes_append]
  rw [writeUnits, h, byUnit_flatten]

theorem writePa_mem (s : State) (tag key pa : Nat) (bs : List Byte) : (writePa s tag key pa bs).mem = putBytes s.mem (atAddr pa bs) :=
  writeUnits_mem s tag key _

/-- A byte outside the written addresses reads as before. -/
theorem putBytes_other (m : List Host.Cell) (ws : List (Nat × Byte)) (a : Nat) (h : ∀ w ∈ ws, w.1 ≠ a) :
    mgetD (putBytes m ws) a 0 = mgetD m a 0 := by
  induction ws generalizing m with
  | nil => rfl
  | cons w t ih =>
    show mgetD (putBytes (mput 0 m w.1 w.2) t) a 0 = _
    rw [ih _ (fun x hx => h x (List.mem_cons_of_mem _ hx)), mgetD_mput, if_neg (h w List.mem_cons_self)]

/-- Writes keep the canonical form of the memory. -/
theorem putBytes_wf (m : List Host.Cell) (ws : List (Nat × Byte)) (h : Memory.wf m = true) : Memory.wf (putBytes m ws) = true := by
  induction ws generalizing m with
  | nil => exact h
  | cons w t ih => exact ih _ (Memory.wf_mput _ _ h)

theorem writePa_wf (s : State) (tag key pa : Nat) (bs : List Byte) (h : Memory.wf s.mem = true) :
    Memory.wf (writePa s tag key pa bs).mem = true := by rw [writePa_mem]; exact putBytes_wf _ _ h

/-- The memory after reset is in canonical form. -/
theorem reset_memory_wf : Memory.wf State.reset.mem = true := rfl

end Sys2Proof.Machine
end

