-- ==== Sys2Proof/Laws/Home.lean ====
section
/-! SUPPORT. What reads, writes and write-backs at the home may change, said once: memory in its canonical form with its key tags and
hallmarks, the caches, the buckets with the decrements they send, and the marks of waits that a write meets (06, 07, 08 R284, R288). -/

namespace Sys2Proof.Machine

/-- A state differs from another by work of the homes and caches only; a memory in canonical form stays in it. -/
def OnlyHome (s t : State) : Prop :=
  t = { s with mem := t.mem, keyTag := t.keyTag, olds := t.olds, hallmarks := t.hallmarks, l2 := t.l2, signals := t.signals,
               presence := t.presence, charges := t.charges, arrivals := t.arrivals,
               ccache := t.ccache, buckets := t.buckets, decrs := t.decrs, cores := t.cores, nmus := t.nmus, freeCtr := t.freeCtr,
               tlb1 := t.tlb1, tlb2 := t.tlb2 } ∧
  (Memory.wf s.mem = true → Memory.wf t.mem = true)

theorem onlyHome_refl (s : State) : OnlyHome s s := ⟨rfl, id⟩

theorem onlyHome_trans {s t u : State} (h : OnlyHome s t) (g : OnlyHome t u) : OnlyHome s u := by
  refine ⟨?_, fun w => g.2 (h.2 w)⟩
  have h1 := h.1
  have g1 := g.1
  rw [g1, h1]

theorem onlyHome_foldl {β : Type} (f : State → β → State) (h : ∀ s b, OnlyHome s (f s b)) (l : List β) (s : State) :
    OnlyHome s (l.foldl f s) := by
  induction l generalizing s with
  | nil => exact onlyHome_refl s
  | cons b t ih => rw [List.foldl_cons]; exact onlyHome_trans (h s b) (ih _)

theorem onlyHome_tlbs {s t : State} (h : OnlyTlbs s t) : OnlyHome s t := by
  unfold OnlyTlbs at h
  refine ⟨?_, fun w => ?_⟩
  · rw [h]
  · rw [h]; exact w

/-- The site, the time and every other unit stay. -/
theorem onlyHome_cur {s t : State} (h : OnlyHome s t) : t.cur = s.cur := by rw [h.1]
theorem onlyHome_cycle {s t : State} (h : OnlyHome s t) : t.cycle = s.cycle := by rw [h.1]
theorem onlyHome_ctxs {s t : State} (h : OnlyHome s t) : t.ctxs = s.ctxs := by rw [h.1]
theorem onlyHome_gen {s t : State} (h : OnlyHome s t) : t.gen = s.gen := by rw [h.1]
theorem onlyHome_txs {s t : State} (h : OnlyHome s t) : t.txs = s.txs := by rw [h.1]

theorem onlyHome_choose (s : State) (n : Nat) : OnlyHome s (choose s n).2 := onlyHome_tlbs (onlyTlbs_choose s n)

theorem onlyHome_translate (s : State) (cl ctx va : Nat) (k : AccessKind) : OnlyHome s (translate s cl ctx va k).2 :=
  onlyHome_tlbs (onlyTlbs_translate s cl ctx va k)

theorem onlyHome_pokeByte (s : State) (key pa : Nat) (b : Byte) : OnlyHome s (pokeByte s key pa b) :=
  ⟨rfl, fun w => Memory.wf_mput _ _ w⟩

theorem onlyHome_l2Access (s : State) (key pa n : Nat) (w : Bool) : OnlyHome s (l2Access s key pa n w) :=
  onlyHome_tlbs (onlyTlbs_l2Access s key pa n w)

theorem onlyHome_testWaits (s : State) (p : Nat → Bool) : OnlyHome s (testWaits s p) := ⟨rfl, id⟩

theorem onlyHome_sendDecr (s : State) (c h n : Nat) : OnlyHome s (sendDecr s c h n) := by
  unfold sendDecr sendDecrOf; split <;> exact ⟨rfl, id⟩

theorem onlyHome_countBuckets (s : State) (as : List Nat) : OnlyHome s (countBuckets s as) := by
  unfold countBuckets
  refine onlyHome_foldl _ (fun s b => ?_) _ _
  dsimp only
  split
  · exact onlyHome_refl _
  · split
    · exact onlyHome_trans ⟨rfl, id⟩ (onlyHome_sendDecr _ _ _ _)
    · exact ⟨rfl, id⟩

theorem onlyHome_stampTiles (s : State) (tag : Nat) (ts : List Nat) : OnlyHome s (stampTiles s tag ts) :=
  onlyHome_foldl (fun s t => { s with hallmarks := mput (0, 0) s.hallmarks t (tag, BitVec.ofNat 32 s.gen.toNat) })
    (fun _ _ => ⟨rfl, id⟩) ts s

theorem onlyHome_forgetSignals (s : State) (as : List Nat) : OnlyHome s (forgetSignals s as) := ⟨rfl, id⟩

theorem onlyHome_writeEvent (s : State) (tag key : Nat) (ws : List (Nat × Byte)) : OnlyHome s (writeEvent s tag key ws) := by
  unfold writeEvent
  cases ws with
  | nil => exact onlyHome_refl s
  | cons w t =>
    have h1 := onlyHome_foldl (fun s (w : Nat × Byte) => pokeByte s key w.1 w.2) (fun s w => onlyHome_pokeByte s key w.1 w.2) (w :: t) s
    dsimp only
    split
    · exact h1
    · exact onlyHome_trans h1 (onlyHome_trans (onlyHome_stampTiles _ _ _) (onlyHome_trans (onlyHome_forgetSignals _ _)
        (onlyHome_trans (onlyHome_l2Access _ _ _ _ _) (onlyHome_trans (onlyHome_countBuckets _ _) (onlyHome_testWaits _ _)))))

theorem onlyHome_writeUnits (s : State) (tag key : Nat) (ws : List (Nat × Byte)) : OnlyHome s (writeUnits s tag key ws) :=
  onlyHome_foldl _ (fun s u => onlyHome_writeEvent s tag key u) _ _

/-- Writing bytes from an address on. -/
theorem onlyHome_writePa (s : State) (tag key pa : Nat) (bs : List Byte) : OnlyHome s (writePa s tag key pa bs) :=
  onlyHome_writeUnits _ _ _ _

/-- Reading at the home. -/
theorem onlyHome_homeRead (s : State) (key pa n : Nat) : OnlyHome s (homeRead s key pa n).2 := by
  unfold homeRead
  dsimp only
  split
  · exact onlyHome_l2Access _ _ _ _ _
  · exact onlyHome_refl _

theorem onlyHome_xlatPieces (cl ctx : Nat) (k : AccessKind) (l : List (Nat × Nat)) :
    ∀ s : State, OnlyHome s (xlatPieces cl ctx k l s).2 := by
  induction l with
  | nil => exact onlyHome_refl
  | cons p t ih =>
    intro s
    unfold xlatPieces
    have ht := onlyHome_translate s cl ctx p.1 k
    split
    · next h => rw [h] at ht; exact ht
    · next h =>
      rw [h] at ht
      have hi := ih (translate s cl ctx p.1 k).2
      rw [h] at hi
      split
      · next g => rw [g] at hi; exact onlyHome_trans ht hi
      · next g => rw [g] at hi; exact onlyHome_trans ht hi

theorem onlyHome_readPieces (ctx : Nat) (l : List (Nat × Xlat)) : ∀ s : State, OnlyHome s (readPieces ctx l s).2 := by
  induction l with
  | nil => exact onlyHome_refl
  | cons p t ih => intro s; unfold readPieces; exact onlyHome_trans (onlyHome_homeRead _ _ _ _) (ih _)

theorem onlyHome_writePieces (ctx tag : Nat) (l : List (Nat × Xlat)) : ∀ (bs : List Byte) (s : State), OnlyHome s (writePieces ctx tag l bs s) := by
  induction l with
  | nil => intro _ s; exact onlyHome_refl s
  | cons p t ih => intro bs s; unfold writePieces; exact onlyHome_trans (onlyHome_writePa _ _ _ _ _) (ih _ _)

/-- Reading bytes of a context. -/
theorem onlyHome_readAs (s : State) (cl ctx : Nat) (k : AccessKind) (va n : Nat) : OnlyHome s (readAs s cl ctx k va n).2 := by
  unfold readAs
  have h := onlyHome_xlatPieces cl ctx k (pieces va n) s
  split
  · next g => rw [g] at h; exact h
  · next g => rw [g] at h; exact onlyHome_trans h (onlyHome_readPieces _ _ _)

theorem onlyHome_readVa (s : State) (cl ctx va n : Nat) : OnlyHome s (readVa s cl ctx va n).2 := onlyHome_readAs ..

/-- Writing bytes of a context. -/
theorem onlyHome_writeVa (s : State) (cl ctx tag va : Nat) (bs : List Byte) : OnlyHome s (writeVa s cl ctx tag va bs).2 := by
  unfold writeVa
  have h := onlyHome_xlatPieces cl ctx .write (pieces va bs.length) s
  split
  · next g => rw [g] at h; exact h
  · next g => rw [g] at h; exact onlyHome_trans h (onlyHome_writePieces _ _ _ _ _)

theorem onlyHome_lineClean (s : State) (cl line : Nat) : OnlyHome s (lineClean s cl line) := by
  unfold lineClean
  split
  · exact onlyHome_refl s
  · exact onlyHome_trans (onlyHome_writeUnits _ _ _ _) ⟨rfl, id⟩

theorem onlyHome_lineEvict (s : State) (cl line : Nat) : OnlyHome s (lineEvict s cl line) :=
  onlyHome_trans (onlyHome_lineClean s cl line) ⟨rfl, id⟩

/-- Writing back a context's dirty lines. -/
theorem onlyHome_cleanCtx (s : State) (cl ctx : Nat) : OnlyHome s (cleanCtx s cl ctx) := by
  unfold cleanCtx
  refine onlyHome_foldl _ (fun s x => ?_) _ _
  split
  · exact onlyHome_lineClean _ _ _
  · exact onlyHome_refl _

theorem onlyHome_dropClean (s : State) (cl ctx : Nat) : OnlyHome s (dropClean s cl ctx) := by
  unfold dropClean
  refine onlyHome_foldl _ (fun s x => ?_) _ _
  split
  · exact onlyHome_refl _
  · exact ⟨rfl, id⟩

theorem onlyHome_lineOwn (s : State) (cl key line : Nat) : OnlyHome s (lineOwn s cl key line) := by
  unfold lineOwn
  split
  · split
    · exact onlyHome_refl s
    · exact onlyHome_lineEvict _ _ _
  · exact onlyHome_refl s

theorem onlyHome_lineFor (s : State) (cl ctx key line : Nat) : OnlyHome s (lineFor s cl ctx key line).2 := by
  unfold lineFor
  have h0 := onlyHome_lineOwn s cl key line
  generalize lineOwn s cl key line = u at h0 ⊢
  dsimp only
  split
  · exact h0
  · refine onlyHome_trans h0 (onlyHome_trans ?_ ⟨rfl, id⟩)
    split
    · split
      · exact onlyHome_trans (onlyHome_choose _ _) (onlyHome_lineEvict _ _ _)
      · exact onlyHome_choose _ _
    · exact onlyHome_refl _

theorem onlyHome_fillSector (s : State) (c : CLine) (line q : Nat) : OnlyHome s (fillSector s c line q).2 :=
  onlyHome_homeRead _ _ _ _

theorem onlyHome_cacheRead (s : State) (cl ctx key pa n : Nat) : OnlyHome s (cacheRead s cl ctx key pa n).2 := by
  unfold cacheRead
  dsimp only
  refine onlyHome_trans ?_ ⟨rfl, id⟩
  split
  · exact onlyHome_lineFor _ _ _ _ _
  · exact onlyHome_trans (onlyHome_lineFor _ _ _ _ _) (onlyHome_fillSector _ _ _ _)

theorem onlyHome_cacheWrite (s : State) (cl ctx key tag pa : Nat) (bs : List Byte) : OnlyHome s (cacheWrite s cl ctx key tag pa bs) :=
  onlyHome_trans (onlyHome_lineFor s cl ctx key (pa / 256)) ⟨rfl, id⟩

theorem onlyHome_recallLine (s : State) (line : Nat) : OnlyHome s (recallLine s line) :=
  onlyHome_trans (onlyHome_foldl _ (fun s cl => onlyHome_lineEvict s cl line) _ _) ⟨rfl, id⟩

theorem onlyHome_incrAt (s : State) (tag key pa : Nat) : OnlyHome s (incrAt s tag key pa) :=
  onlyHome_trans (onlyHome_trans (onlyHome_homeRead s key pa 8) (onlyHome_writePa _ _ _ _ _)) ⟨rfl, id⟩

theorem onlyHome_incrSignal (s : State) (cl ctx tag va : Nat) : OnlyHome s (incrSignal s cl ctx tag va).2 := by
  unfold incrSignal
  have h := onlyHome_translate s cl ctx va .rmw
  split
  · next g =>
    rw [g] at h
    dsimp only
    split
    · exact onlyHome_trans h (onlyHome_incrAt _ _ _ _)
    · exact h
  · next g => rw [g] at h; exact h

end Sys2Proof.Machine
end

