-- ==== Sys2Proof/Laws/Nmu.lean ====
section
/-! SUPPORT. Programs of the near-memory units: what a word changes (11 R366-R371). -/

namespace Sys2Proof.Claims

open Sys2Proof.Machine

theorem nmuProg_putProg (s : State) (g k : Nat) (q : NmuProg) (g' k' : Nat) :
    nmuProg (putProg s g k q) g' k' = if g = g' ∧ k = k' then (nmuProg s g k).map (fun _ => q) else nmuProg s g' k' := by
  unfold nmuProg putProg updNmu nmuOf mgetD
  dsimp only
  rw [mget_mset]
  by_cases h : g = g'
  · subst h
    rw [if_pos rfl]
    show mget (madj _ _ _) _ = _
    rw [mget_madj]
    by_cases h2 : k = k'
    · subst h2; simp
    · simp [h2]
  · simp [h]

theorem nmuAfter_putProg (b : State) (q : NmuProg) : NmuAfter b (putProg b b.cur.stack b.cur.place q) q := by
  refine ⟨rfl, fun h => ?_, fun g k h => ?_⟩
  · rw [nmuProg_putProg, if_pos ⟨rfl, rfl⟩]
    cases e : nmuProg b b.cur.stack b.cur.place with
    | none => exact absurd e h
    | some _ => rfl
  · rw [nmuProg_putProg, if_neg (fun q => h ⟨q.1.symm, q.2.symm⟩)]

theorem lane_setG (p : NmuProg) (r : Nat) (f : Nat → Nat) (r' l : Nat) (hl : l < 256) :
    (p.setG r f).lane r' l = if r' = r then f l % 2 ^ 32 else p.lane r' l := by
  unfold NmuProg.setG NmuProg.lane
  dsimp only
  suffices H : ∀ n ≤ 256, (mgetD ((List.range n).foldl (fun m l => mput 0 m (256 * r + l) (BitVec.ofNat 32 (f l))) p.g) (256 * r' + l) 0).toNat
      = if r' = r ∧ l < n then f l % 2 ^ 32 else (mgetD p.g (256 * r' + l) 0).toNat by
    rw [H 256 (Nat.le_refl _)]; simp [hl]
  intro n hn
  induction n with
  | zero => simp
  | succ n ih =>
    rw [List.range_succ, List.foldl_append]
    simp only [List.foldl_cons, List.foldl_nil]
    rw [mgetD_mput]
    by_cases h : 256 * r + n = 256 * r' + l
    · have : r = r' ∧ n = l := by omega
      obtain ⟨rfl, rfl⟩ := this
      rw [if_pos rfl, if_pos ⟨rfl, by omega⟩]
      simp
    · rw [if_neg h, ih (by omega)]
      by_cases h2 : r' = r
      · subst h2
        by_cases h3 : l < n
        · rw [if_pos ⟨rfl, h3⟩, if_pos ⟨rfl, by omega⟩]
        · rw [if_neg (by simp [h3]), if_neg]
          rintro ⟨-, h4⟩; omega
      · rw [if_neg (by simp [h2]), if_neg (by simp [h2])]

theorem aregSet_setA (p : NmuProg) (r v : Nat) : AregSet p (p.setA r v) r v := by
  unfold AregSet NmuProg.setA NmuProg.areg
  dsimp only
  refine ⟨?_, fun k hk => ?_⟩
  · rw [mgetD_mput, if_pos rfl]; simp
  · rw [mgetD_mput, if_neg (Ne.symm hk)]

theorem nmuWord_runs {s : State} {p : NmuProg} (h : NmuRuns s p) (f : NmuProg → State → NAct) :
    nmuWord f s = (match f p (nmuNoted s) with
      | .pass q t => .next (putProg t s.cur.stack s.cur.place q.advance)
      | .jump q t => .next (putProg t s.cur.stack s.cur.place q)
      | .fault c va => .next (nmuFault (nmuNoted s) s.cur.stack s.cur.place p c va)) := by
  unfold nmuWord
  rw [h.1]
  dsimp only
  rw [if_neg (by simp [h.2.1, h.2.2])]
  rfl

/-- A word that completes, jumps or faults. -/
theorem nmuPasses_of {i : Instr} {s t : State} {p q : NmuProg} {f} (he : exec i s = nmuWord f s) (h : NmuRuns s p)
    (hf : f p (nmuNoted s) = .pass q t) (hc : t.cur = s.cur) : NmuPasses i s t q := by
  refine ⟨_, ?_, nmuAfter_putProg t _⟩
  rw [he, nmuWord_runs h, hf, hc]
theorem nmuJumps_of {i : Instr} {s t : State} {p q : NmuProg} {f} (he : exec i s = nmuWord f s) (h : NmuRuns s p)
    (hf : f p (nmuNoted s) = .jump q t) (hc : t.cur = s.cur) : NmuJumps i s t q := by
  refine ⟨_, ?_, nmuAfter_putProg t _⟩
  rw [he, nmuWord_runs h, hf, hc]
theorem nmuFaults_of {i : Instr} {s : State} {p : NmuProg} {f} {c va} (he : exec i s = nmuWord f s) (h : NmuRuns s p)
    (hf : f p (nmuNoted s) = .fault c va) : NmuFaults i s p c va := by
  unfold NmuFaults; rw [he, nmuWord_runs h, hf]

theorem setG_only (p : NmuProg) (r : Nat) (f : Nat → Nat) : p.setG r f = { p with g := (p.setG r f).g } := by
  simp only [NmuProg.setG]

theorem nmuNoted_cur (s : State) : (nmuNoted s).cur = s.cur := by unfold nmuNoted; exact updNmu_cur _ _ _

theorem nmuVector_of {i : Instr} {s : State} {p : NmuProg} {gd : Nat} (F : NmuProg → Nat → Nat) (h : NmuRuns s p)
    (he : exec i s = nmuOwn (fun p => p.setG gd (F p)) s) : NmuVector i s p gd (F p) := by
  refine ⟨p.setG gd (F p), nmuPasses_of (f := fun p s => .pass (p.setG gd (F p)) s) he h (by with_reducible rfl) (nmuNoted_cur s), setG_only _ _ _, fun l hl => ?_, fun r l hl hr => ?_⟩
  · rw [lane_setG _ _ _ _ _ hl, if_pos rfl]
  · rw [lane_setG _ _ _ _ _ hl, if_neg hr]

theorem aregSet_same (p : NmuProg) (r : Nat) : AregSet p p r (p.areg r) := by
  refine ⟨?_, fun _ _ => rfl⟩
  have : p.areg r < 2 ^ 64 := (mgetD p.a r 0).isLt
  omega

/-! ## What the accesses of a program may change -/

theorem onlyHome_arrive (s : State) (r : Nat) (ls : List Nat) : OnlyHome s (arrive s r ls) := ⟨rfl, id⟩

theorem onlyHome_nmuPut (s : State) (ctx : Nat) (x : Xlat) (bs : List Byte) : OnlyHome s (nmuPut s ctx x bs) :=
  onlyHome_trans (onlyHome_trans (onlyHome_recallLine s _) (onlyHome_arrive _ _ _)) (onlyHome_writePa _ _ _ _ _)

theorem onlyHome_nmuGet (s : State) (ctx : Nat) (x : Xlat) (n : Nat) : OnlyHome s (nmuGet s ctx x n).2 :=
  onlyHome_trans (onlyHome_arrive s _ _) (onlyHome_homeRead _ _ _ _)

theorem onlyHome_nmuReads (ctx : Nat) (ps : List (Nat × Xlat)) (n : Nat) :
    ∀ (va : Nat) (s : State), OnlyHome s (nmuReads ctx ps va n s).2 := by
  induction n with
  | zero => intro va s; exact onlyHome_refl s
  | succ n ih => intro va s; exact onlyHome_trans (onlyHome_nmuGet s ctx _ 4) (ih _ _)

theorem onlyHome_nmuWrites (ctx : Nat) (ps : List (Nat × Xlat)) (vs : List Nat) :
    ∀ (va : Nat) (s : State), OnlyHome s (nmuWrites ctx ps va vs s) := by
  induction vs with
  | nil => intro va s; exact onlyHome_refl s
  | cons v t ih => intro va s; exact onlyHome_trans (onlyHome_nmuPut s ctx _ _) (ih _ _)

/-- Translating for an NMU. -/
theorem onlyHome_nmuXlat (s : State) (ctx stack va : Nat) (k : AccessKind) : OnlyHome s (nmuXlat ctx stack va k s).2 := by
  unfold nmuXlat
  have h := onlyHome_translate s devCl ctx va k
  split
  · next g => rw [g] at h; exact h
  · next g => rw [g] at h; exact h

theorem onlyHome_nmuPages (ctx stack : Nat) (k : AccessKind) (l : List Nat) : ∀ s : State, OnlyHome s (nmuPages ctx stack k l s).2 := by
  induction l with
  | nil => exact onlyHome_refl
  | cons a t ih =>
    intro s
    unfold nmuPages
    have hx := onlyHome_nmuXlat s ctx stack a k
    split
    · next g => rw [g] at hx; exact hx
    · next g =>
      rw [g] at hx
      have hi := ih (nmuXlat ctx stack a k s).2
      rw [g] at hi
      split
      · next e => rw [e] at hi; exact onlyHome_trans hx hi
      · next e => rw [e] at hi; exact onlyHome_trans hx hi

theorem onlyHome_nmuDesc (p : NmuProg) (va : Nat) (ps : List (Nat × Xlat)) (s : State) : OnlyHome s (nmuDesc p va ps s).2 :=
  onlyHome_nmuReads p.ctx ps 16 va s

theorem descSketch_ok {va : Nat} {r : Option Sketch × State} {k : Sketch} {u : State} (h : descSketch va r = .ok (k, u)) :
    r = (some k, u) := by
  obtain ⟨_ | k', w⟩ := r <;> cases h
  rfl

/-- A sketch that is read comes from its descriptor's words in their translated pages. -/
theorem nmuSketch_ok {s u : State} {p : NmuProg} {va : Nat} {k : Sketch} (h : nmuSketch s p va = .ok (k, u)) :
    ∃ ps w, nmuPages p.ctx s.cur.stack .read (pagesOf va 64) s = (.ok ps, w) ∧ nmuDesc p va ps w = (some k, u) := by
  unfold nmuSketch at h
  split at h
  · cases h
  · revert h
    generalize nmuPages p.ctx s.cur.stack .read (pagesOf va 64) s = r
    intro h
    obtain ⟨e | ps, w⟩ := r
    · cases h
    · exact ⟨ps, w, rfl, descSketch_ok h⟩

theorem onlyHome_nmuSketch {s u : State} {p : NmuProg} {va : Nat} {k : Sketch} (h : nmuSketch s p va = .ok (k, u)) : OnlyHome s u := by
  obtain ⟨ps, w, hp, hd⟩ := nmuSketch_ok h
  have h1 := onlyHome_nmuPages p.ctx s.cur.stack .read (pagesOf va 64) s
  have h2 := onlyHome_nmuDesc p va ps w
  rw [hp] at h1
  rw [hd] at h2
  exact onlyHome_trans h1 h2

/-- A counter event. -/
theorem onlyHome_counterEvent (s : State) (ctx : Nat) (x : Xlat) (f : Option Int → Option Int) : OnlyHome s (counterEvent s ctx x f) :=
  onlyHome_trans (onlyHome_trans (onlyHome_recallLine s _) (onlyHome_nmuGet _ ctx x 4)) (onlyHome_nmuPut _ _ _ _)

theorem onlyHome_rowEvent (ctx : Nat) (s : State) (r : Xlat × W32) : OnlyHome s (rowEvent ctx s r) := onlyHome_counterEvent _ _ _ _

theorem onlyHome_nextLine (p : NmuProg) (s : State) : OnlyHome s (nextLine p s).2 := by
  unfold nextLine
  split
  · exact onlyHome_choose _ _
  · exact onlyHome_refl _

/-- A turn of a drain performs at most one counter event. -/
theorem onlyHome_drainEvent (p : NmuProg) (s : State) : OnlyHome s (drainEvent p s).2 := by
  unfold drainEvent
  have h1 := onlyHome_nextLine p.beginDrain s
  generalize nextLine p.beginDrain s = r at h1 ⊢
  have h2 := onlyHome_trans h1 (onlyHome_choose r.2 r.1.line.length)
  dsimp only at h2 ⊢
  generalize choose r.2 r.1.line.length = c at h2 ⊢
  cases r.1.line[c.1]? with
  | none => exact h2
  | some e =>
    have h3 := onlyHome_rowEvent p.ctx c.2 e
    dsimp only
    generalize rowEvent p.ctx c.2 e = v at h3 ⊢
    exact onlyHome_trans h2 h3

theorem onlyHome_nmuSigned (ctx : Nat) (ps : List (Nat × Xlat)) (k : Sketch) (l : List (Nat × Bool)) :
    ∀ s : State, OnlyHome s (nmuSigned ctx ps k l s).2 := by
  induction l with
  | nil => exact onlyHome_refl
  | cons r t ih => intro s; exact onlyHome_trans (onlyHome_nmuGet _ _ _ _) (ih _)

theorem onlyHome_nmuQueries (ctx : Nat) (ps : List (Nat × Xlat)) (k : Sketch) (key : Nat) (l : List Nat) :
    ∀ s : State, OnlyHome s (nmuQueries ctx ps k key l s).2 := by
  induction l with
  | nil => exact onlyHome_refl
  | cons r t ih => intro s; exact onlyHome_trans (onlyHome_nmuSigned _ _ _ _ _) (ih _)

theorem onlyHome_nmuAdds (ctx : Nat) (px py : List (Nat × Xlat)) (x y : Sketch) (s : State) : OnlyHome s (nmuAdds ctx px py x y s) :=
  onlyHome_foldl _ (fun _ _ => onlyHome_trans (onlyHome_nmuGet _ _ _ _) (onlyHome_counterEvent _ _ _ _)) _ _

end Sys2Proof.Claims
end

