-- ==== Sys2Proof/Laws/PerInstr.lean ====
section
/-! SUPPORT. For each instruction: its word decodes to it (01 R23-R50, 11 Table sketch-8, 16 Table circuit-7). -/

open Sys2Proof Sys2Proof.Machine Sys2Proof.Claims

/-- A well-formed instruction that has a word decodes from it. -/
def Sys2Proof.Laws.RoundTrip.Statement (i : Instr) : Prop :=
  i.wf = true →
    (i.isNmu = true → decodeNmu (encodeNmu i) = .ok i) ∧
    (i.isCratch = true → decodeCratch (encodeCratch i) = .ok i) ∧
    (isCore i = true → decodeCore (encodeCore i) = .ok (canonical i))

theorem Sys2Proof.Laws.RoundTrip.ofCore {i : Instr} (h1 : i.isNmu = false) (h2 : i.isCratch = false)
    (h : i.wf = true → decodeCore (encodeCore i) = .ok (canonical i)) : Statement i :=
  fun w => ⟨fun e => absurd (h1.symm.trans e) Bool.false_ne_true, fun e => absurd (h2.symm.trans e) Bool.false_ne_true, fun _ => h w⟩

theorem Sys2Proof.Laws.RoundTrip.ofNmu {i : Instr} (h2 : i.isCratch = false) (h3 : isCore i = false)
    (_h1 : i.isNmu = true) (h : i.wf = true → decodeNmu (encodeNmu i) = .ok i) : Statement i :=
  fun w => ⟨fun _ => h w, fun e => absurd (h2.symm.trans e) Bool.false_ne_true, fun e => absurd (h3.symm.trans e) Bool.false_ne_true⟩

theorem Sys2Proof.Laws.RoundTrip.ofCratch {i : Instr} (h1 : i.isNmu = false) (h3 : isCore i = false)
    (_h2 : i.isCratch = true) (h : i.wf = true → decodeCratch (encodeCratch i) = .ok i) : Statement i :=
  fun w => ⟨fun e => absurd (h1.symm.trans e) Bool.false_ne_true, fun _ => h w, fun e => absurd (h3.symm.trans e) Bool.false_ne_true⟩

theorem Sys2Proof.Laws.RoundTrip.ofEvent {i : Instr} (h1 : i.isNmu = false) (h2 : i.isCratch = false) (h3 : isCore i = false) :
    Statement i :=
  fun _ => ⟨fun e => absurd (h1.symm.trans e) Bool.false_ne_true, fun e => absurd (h2.symm.trans e) Bool.false_ne_true,
    fun e => absurd (h3.symm.trans e) Bool.false_ne_true⟩

theorem and_fst {a b : Bool} (h : (a && b) = true) : a = true := by simp only [Bool.and_eq_true] at h; exact h.1

theorem narrowParts_cvts {x : NarrowArgs} (h : (Instr.cvts x).wf = true) : x.d.reg.wf = true ∧ x.a.wf = true ∧ x.b.wf = true := by
  have hw : ((x.dty.half || x.dty.f8) && x.sty == .f32 && x.d.w false && x.a.grp (if x.dty.half then 2 else 4) && x.b.w false &&
    (!x.nsat || x.dty.f8)) = true := h
  simp only [Bool.and_eq_true] at hw
  exact ⟨Dst.wf_of_w hw.1.1.1.2, Opnd.wf_of_grp hw.1.1.2, Opnd.wf_of_w hw.1.2⟩
theorem narrowParts_bzpk {x : NarrowArgs} (h : (Instr.bzpk x).wf = true) : x.d.reg.wf = true ∧ x.a.wf = true ∧ x.b.wf = true := by
  have hw : (x.dty == .bz4 && x.sty == .f32 && x.d.w false && x.a.grp 8 && x.b.w false) = true := h
  simp only [Bool.and_eq_true] at hw
  exact ⟨Dst.wf_of_w hw.1.1.2, Opnd.wf_of_grp hw.1.2, Opnd.wf_of_w hw.2⟩
theorem narrowParts_f8pk {x : NarrowArgs} (h : (Instr.f8pk x).wf = true) : x.d.reg.wf = true ∧ x.a.wf = true ∧ x.b.wf = true := by
  have hw : (x.dty.f8 && x.sty.half && x.d.w false && x.a.w false && x.b.w false) = true := h
  simp only [Bool.and_eq_true] at hw
  exact ⟨Dst.wf_of_w hw.1.1.2, Opnd.wf_of_w hw.1.2, Opnd.wf_of_w hw.2⟩
theorem unpackParts_bzup {x : UnpackArgs} (h : (Instr.bzup x).wf = true) : x.d.reg.wf = true ∧ x.a.wf = true := by
  have hw : ((x.dty == .f32 || x.dty.half) && x.sty == .bz4 && x.d.grp (if x.dty == .f32 then 8 else 4) && x.a.wf && x.a.noKonst) = true := h
  simp only [Bool.and_eq_true] at hw
  exact ⟨Dst.wf_of_grp hw.1.1.2, hw.1.2⟩
theorem unpackParts_f8up {x : UnpackArgs} (h : (Instr.f8up x).wf = true) : x.d.reg.wf = true ∧ x.a.wf = true := by
  have hw : ((x.dty == .f32 || x.dty.half) && x.sty.f8 && x.d.grp (if x.dty == .f32 then 4 else 2) && x.a.wf) = true := h
  simp only [Bool.and_eq_true] at hw
  exact ⟨Dst.wf_of_grp hw.1.2, hw.2⟩

theorem Sys2Proof.Laws.RoundTrip.iadd (x : Int2) : Statement (.iadd x) :=
  ofCore rfl rfl (fun h => word_int2 (by decide) rfl (fun _ => rfl) h (Int2.parts h))
theorem Sys2Proof.Laws.RoundTrip.isub (x : Int2) : Statement (.isub x) :=
  ofCore rfl rfl (fun h => word_int2 (by decide) rfl (fun _ => rfl) h (Int2.parts h))
theorem Sys2Proof.Laws.RoundTrip.imul (x : Int2) : Statement (.imul x) :=
  ofCore rfl rfl (fun h => word_int2 (by decide) rfl (fun _ => rfl) h (Int2.parts h))
theorem Sys2Proof.Laws.RoundTrip.imulh (x : Int2) : Statement (.imulh x) :=
  ofCore rfl rfl (fun h => word_int2 (by decide) rfl (fun _ => rfl) h (Int2.parts h))
theorem Sys2Proof.Laws.RoundTrip.imad (x : Int3) : Statement (.imad x) :=
  ofCore rfl rfl (fun h => word_int3 (by decide) rfl (fun _ => rfl) h (Int3.parts h))
theorem Sys2Proof.Laws.RoundTrip.imadw (x : Int3) : Statement (.imadw x) :=
  ofCore rfl rfl (fun h => word_int3 (by decide) rfl (fun _ => rfl) h (Int3.partsPair h))
theorem Sys2Proof.Laws.RoundTrip.imin (x : Int2) : Statement (.imin x) :=
  ofCore rfl rfl (fun h => word_int2 (by decide) rfl (fun _ => rfl) h (Int2.parts h))
theorem Sys2Proof.Laws.RoundTrip.imax (x : Int2) : Statement (.imax x) :=
  ofCore rfl rfl (fun h => word_int2 (by decide) rfl (fun _ => rfl) h (Int2.parts h))
theorem Sys2Proof.Laws.RoundTrip.iabs (x : Int1) : Statement (.iabs x) :=
  ofCore rfl rfl (fun h => word_int1 (by decide) rfl (fun _ => rfl) h (Int1.parts (ty := fun t => t.isInt && t.sgn) h))
theorem Sys2Proof.Laws.RoundTrip.and (x : Int2) : Statement (.and x) :=
  ofCore rfl rfl (fun h => word_int2 (by decide) rfl (fun _ => rfl) h (Int2.parts h))
theorem Sys2Proof.Laws.RoundTrip.or (x : Int2) : Statement (.or x) :=
  ofCore rfl rfl (fun h => word_int2 (by decide) rfl (fun _ => rfl) h (Int2.parts h))
theorem Sys2Proof.Laws.RoundTrip.xor (x : Int2) : Statement (.xor x) :=
  ofCore rfl rfl (fun h => word_int2 (by decide) rfl (fun _ => rfl) h (Int2.parts h))
theorem Sys2Proof.Laws.RoundTrip.andn (x : Int2) : Statement (.andn x) :=
  ofCore rfl rfl (fun h => word_int2 (by decide) rfl (fun _ => rfl) h (Int2.parts h))
theorem Sys2Proof.Laws.RoundTrip.shl (x : Int2) : Statement (.shl x) :=
  ofCore rfl rfl (fun h => word_int2 (by decide) rfl (fun _ => rfl) h (Int2.parts h))
theorem Sys2Proof.Laws.RoundTrip.shr (x : Int2) : Statement (.shr x) :=
  ofCore rfl rfl (fun h => word_int2 (by decide) rfl (fun _ => rfl) h (Int2.parts h))
theorem Sys2Proof.Laws.RoundTrip.sar (x : Int2) : Statement (.sar x) :=
  ofCore rfl rfl (fun h => word_int2 (by decide) rfl (fun _ => rfl) h (Int2.parts (ty := fun t => t == .i32 || t == .i64) h))
theorem Sys2Proof.Laws.RoundTrip.rotr (x : Int2) : Statement (.rotr x) :=
  ofCore rfl rfl (fun h => word_int2 (by decide) rfl (fun _ => rfl) h (Int2.parts h))
theorem Sys2Proof.Laws.RoundTrip.popc (x : Int1) : Statement (.popc x) :=
  ofCore rfl rfl (fun h => word_int1 (by decide) rfl (fun _ => rfl) h (Int1.parts h))
theorem Sys2Proof.Laws.RoundTrip.clz (x : Int1) : Statement (.clz x) :=
  ofCore rfl rfl (fun h => word_int1 (by decide) rfl (fun _ => rfl) h (Int1.parts h))
theorem Sys2Proof.Laws.RoundTrip.brev (x : Int1) : Statement (.brev x) :=
  ofCore rfl rfl (fun h => word_int1 (by decide) rfl (fun _ => rfl) h (Int1.parts h))
theorem Sys2Proof.Laws.RoundTrip.bfx (x : Int2) : Statement (.bfx x) :=
  ofCore rfl rfl (fun h => word_int2 (by decide) rfl (fun _ => rfl) h (Int2.parts (ty := fun t => t == .n32 || t == .i32) h))
theorem Sys2Proof.Laws.RoundTrip.bfi (x : Int3) : Statement (.bfi x) :=
  ofCore rfl rfl (fun h => word_int3 (by decide) rfl (fun _ => rfl) h (Int3.parts (q := x.ty == .n32 && !x.sat) h))
theorem Sys2Proof.Laws.RoundTrip.lea (x : LeaArgs) : Statement (.lea x) := ofCore rfl rfl (word_lea x)
theorem Sys2Proof.Laws.RoundTrip.icmp (x : IcmpArgs) : Statement (.icmp x) := ofCore rfl rfl (word_icmp x)
theorem Sys2Proof.Laws.RoundTrip.sel (x : SelArgs) : Statement (.sel x) := ofCore rfl rfl (word_sel x)
theorem Sys2Proof.Laws.RoundTrip.mov (x : MovArgs) : Statement (.mov x) := ofCore rfl rfl (word_mov x)
theorem Sys2Proof.Laws.RoundTrip.movi (x : MoviArgs) : Statement (.movi x) := ofCore rfl rfl (word_movi x)
theorem Sys2Proof.Laws.RoundTrip.movs (x : MovsArgs) : Statement (.movs x) := ofCore rfl rfl (word_movs x)
theorem Sys2Proof.Laws.RoundTrip.movsSl (x : MovsArgs) : Statement (.movsSl x) := ofCore rfl rfl (word_movsSl x)
theorem Sys2Proof.Laws.RoundTrip.plog (x : PlogArgs) : Statement (.plog x) := ofCore rfl rfl (word_plog x)
theorem Sys2Proof.Laws.RoundTrip.fadd (x : F2) : Statement (.fadd x) :=
  ofCore rfl rfl (fun h => word_f2 (by decide) rfl (fun _ => rfl) h (F2.parts h))
theorem Sys2Proof.Laws.RoundTrip.fsub (x : F2) : Statement (.fsub x) :=
  ofCore rfl rfl (fun h => word_f2 (by decide) rfl (fun _ => rfl) h (F2.parts h))
theorem Sys2Proof.Laws.RoundTrip.fmul (x : F2) : Statement (.fmul x) :=
  ofCore rfl rfl (fun h => word_f2 (by decide) rfl (fun _ => rfl) h (F2.parts h))
theorem Sys2Proof.Laws.RoundTrip.ffma (x : F3) : Statement (.ffma x) :=
  ofCore rfl rfl (fun h => word_f3 (by decide) rfl (fun _ => rfl) h (F3.parts h))
theorem Sys2Proof.Laws.RoundTrip.fmin (x : F2) : Statement (.fmin x) :=
  ofCore rfl rfl (fun h => word_f2 (by decide) rfl (fun _ => rfl) h (F2.parts h))
theorem Sys2Proof.Laws.RoundTrip.fmax (x : F2) : Statement (.fmax x) :=
  ofCore rfl rfl (fun h => word_f2 (by decide) rfl (fun _ => rfl) h (F2.parts h))
theorem Sys2Proof.Laws.RoundTrip.fcmp (x : FcmpArgs) : Statement (.fcmp x) :=
  ofCore rfl rfl (fun h => word_fcmp (k := 8) (by decide) (by decide) rfl (fun _ => rfl) h (FcmpArgs.parts h))
theorem Sys2Proof.Laws.RoundTrip.fcls (x : FclsArgs) : Statement (.fcls x) := ofCore rfl rfl (word_fcls x)
theorem Sys2Proof.Laws.RoundTrip.hadd2 (x : H2) : Statement (.hadd2 x) :=
  ofCore rfl rfl (fun h => word_h2 (by decide) rfl (fun _ => rfl) h (H2.parts h))
theorem Sys2Proof.Laws.RoundTrip.hmul2 (x : H2) : Statement (.hmul2 x) :=
  ofCore rfl rfl (fun h => word_h2 (by decide) rfl (fun _ => rfl) h (H2.parts h))
theorem Sys2Proof.Laws.RoundTrip.hfma2 (x : H3) : Statement (.hfma2 x) :=
  ofCore rfl rfl (fun h => word_h3 (by decide) rfl (fun _ => rfl) h (H3.parts h))
theorem Sys2Proof.Laws.RoundTrip.dadd (x : F2) : Statement (.dadd x) :=
  ofCore rfl rfl (fun h => word_f2 (by decide) rfl (fun _ => rfl) h (F2.parts h))
theorem Sys2Proof.Laws.RoundTrip.dmul (x : F2) : Statement (.dmul x) :=
  ofCore rfl rfl (fun h => word_f2 (by decide) rfl (fun _ => rfl) h (F2.parts h))
theorem Sys2Proof.Laws.RoundTrip.dfma (x : F3) : Statement (.dfma x) :=
  ofCore rfl rfl (fun h => word_f3 (by decide) rfl (fun _ => rfl) h (F3.parts h))
theorem Sys2Proof.Laws.RoundTrip.dcmp (x : FcmpArgs) : Statement (.dcmp x) :=
  ofCore rfl rfl (fun h => word_fcmp (k := 9) (by decide) (by decide) rfl (fun _ => rfl) h (FcmpArgs.parts h))
theorem Sys2Proof.Laws.RoundTrip.frcp (x : F1) : Statement (.frcp x) :=
  ofCore rfl rfl (fun h => word_f1 (by decide) rfl (fun _ => rfl) h (F1.parts h))
theorem Sys2Proof.Laws.RoundTrip.frsq (x : F1) : Statement (.frsq x) :=
  ofCore rfl rfl (fun h => word_f1 (by decide) rfl (fun _ => rfl) h (F1.parts h))
theorem Sys2Proof.Laws.RoundTrip.fsqt (x : F1) : Statement (.fsqt x) :=
  ofCore rfl rfl (fun h => word_f1 (by decide) rfl (fun _ => rfl) h (F1.parts h))
theorem Sys2Proof.Laws.RoundTrip.fdiv (x : F2) : Statement (.fdiv x) :=
  ofCore rfl rfl (fun h => word_f2 (by decide) rfl (fun _ => rfl) h (F2.parts h))
theorem Sys2Proof.Laws.RoundTrip.fex2 (x : F1) : Statement (.fex2 x) :=
  ofCore rfl rfl (fun h => word_f1 (by decide) rfl (fun _ => rfl) h (F1.parts h))
theorem Sys2Proof.Laws.RoundTrip.flg2 (x : F1) : Statement (.flg2 x) :=
  ofCore rfl rfl (fun h => word_f1 (by decide) rfl (fun _ => rfl) h (F1.parts h))
theorem Sys2Proof.Laws.RoundTrip.fsin (x : F1) : Statement (.fsin x) :=
  ofCore rfl rfl (fun h => word_f1 (by decide) rfl (fun _ => rfl) h (F1.parts h))
theorem Sys2Proof.Laws.RoundTrip.fcos (x : F1) : Statement (.fcos x) :=
  ofCore rfl rfl (fun h => word_f1 (by decide) rfl (fun _ => rfl) h (F1.parts h))
theorem Sys2Proof.Laws.RoundTrip.ftnh (x : F1) : Statement (.ftnh x) :=
  ofCore rfl rfl (fun h => word_f1 (by decide) rfl (fun _ => rfl) h (F1.parts h))
theorem Sys2Proof.Laws.RoundTrip.cvt (x : CvtArgs) : Statement (.cvt x) := ofCore rfl rfl (word_cvt x)
theorem Sys2Proof.Laws.RoundTrip.cvts (x : NarrowArgs) : Statement (.cvts x) :=
  ofCore rfl rfl (fun h => word_narrow (by decide) rfl (fun _ => rfl) h (narrowParts_cvts h))
theorem Sys2Proof.Laws.RoundTrip.scsel (x : ScselArgs) : Statement (.scsel x) := ofCore rfl rfl (word_scsel x)
theorem Sys2Proof.Laws.RoundTrip.efq (x : EfqArgs) : Statement (.efq x) := ofCore rfl rfl (word_efq x)
theorem Sys2Proof.Laws.RoundTrip.bzpk (x : NarrowArgs) : Statement (.bzpk x) :=
  ofCore rfl rfl (fun h => word_narrow (by decide) rfl (fun _ => rfl) h (narrowParts_bzpk h))
theorem Sys2Proof.Laws.RoundTrip.bzup (x : UnpackArgs) : Statement (.bzup x) :=
  ofCore rfl rfl (fun h => word_unpack (by decide) rfl (fun _ => rfl) h (unpackParts_bzup h))
theorem Sys2Proof.Laws.RoundTrip.f8pk (x : NarrowArgs) : Statement (.f8pk x) :=
  ofCore rfl rfl (fun h => word_narrow (by decide) rfl (fun _ => rfl) h (narrowParts_f8pk h))
theorem Sys2Proof.Laws.RoundTrip.f8up (x : UnpackArgs) : Statement (.f8up x) :=
  ofCore rfl rfl (fun h => word_unpack (by decide) rfl (fun _ => rfl) h (unpackParts_f8up h))
theorem Sys2Proof.Laws.RoundTrip.scacc (x : F3) : Statement (.scacc x) :=
  ofCore rfl rfl (fun h => word_f3 (by decide) rfl (fun _ => rfl) h (F3.parts h))
theorem Sys2Proof.Laws.RoundTrip.shfl (x : ShflArgs) : Statement (.shfl x) := ofCore rfl rfl (word_shfl x)
theorem Sys2Proof.Laws.RoundTrip.shfx (x : ShfxArgs) : Statement (.shfx x) := ofCore rfl rfl (word_shfx x)
theorem Sys2Proof.Laws.RoundTrip.bcst (x : BcstArgs) : Statement (.bcst x) := ofCore rfl rfl (word_bcst x)
theorem Sys2Proof.Laws.RoundTrip.vote (x : VoteArgs) : Statement (.vote x) := ofCore rfl rfl (fun h => by
  cases x with
  | any pd pa => exact word_vote_any pd pa h
  | all pd pa => exact word_vote_all pd pa h
  | ballot d pa => exact word_vote_ballot d pa h
  | eq pd a w => exact word_vote_eq pd a w h)
theorem Sys2Proof.Laws.RoundTrip.redt (x : RedArgs) : Statement (.redt x) := ofCore rfl rfl (word_redt x)
theorem Sys2Proof.Laws.RoundTrip.scan (x : RedArgs) : Statement (.scan x) := ofCore rfl rfl (word_scan x)
theorem Sys2Proof.Laws.RoundTrip.redx (x : RedxArgs) : Statement (.redx x) := ofCore rfl rfl (fun h => by
  obtain ⟨a, _ | b⟩ := x
  · exact word_redx_one a h
  · exact word_redx_two a b h)
theorem Sys2Proof.Laws.RoundTrip.lacr (x : LacrArgs) : Statement (.lacr x) := ofCore rfl rfl (word_lacr x)
theorem Sys2Proof.Laws.RoundTrip.braAny (g : Guard) (dist : Int) : Statement (.braAny g dist) := ofCore rfl rfl (word_braAny g dist)
theorem Sys2Proof.Laws.RoundTrip.braAll (g : Guard) (dist : Int) : Statement (.braAll g dist) := ofCore rfl rfl (word_braAll g dist)
theorem Sys2Proof.Laws.RoundTrip.brx (a : Opnd) (off : Int) : Statement (.brx a off) := ofCore rfl rfl (word_brx a off)
theorem Sys2Proof.Laws.RoundTrip.call (d : Nat) (dist : Int) : Statement (.call d dist) := ofCore rfl rfl (word_call d dist)
theorem Sys2Proof.Laws.RoundTrip.ret (a : Opnd) : Statement (.ret a) := ofCore rfl rfl (word_ret a)
theorem Sys2Proof.Laws.RoundTrip.regang (m : GangMask) : Statement (.regang m) := ofCore rfl rfl (fun h => by
  cases m with
  | imm k => exact word_regang_imm k h
  | sreg n => exact word_regang_sreg n h)
theorem Sys2Proof.Laws.RoundTrip.loopOperand (a : Opnd) (off : Nat) : Statement (.loopOperand a off) := ofCore rfl rfl (word_loopOperand a off)
theorem Sys2Proof.Laws.RoundTrip.loopImmediate (n off : Nat) : Statement (.loopImmediate n off) := ofCore rfl rfl (word_loopImmediate n off)
theorem Sys2Proof.Laws.RoundTrip.trap (code : Nat) : Statement (.trap code) := ofCore rfl rfl (word_trap code)
theorem Sys2Proof.Laws.RoundTrip.bkpt (code : Nat) : Statement (.bkpt code) := ofCore rfl rfl (word_bkpt code)
theorem Sys2Proof.Laws.RoundTrip.racq (n : Nat) : Statement (.racq n) := ofCore rfl rfl (word_racq n)
theorem Sys2Proof.Laws.RoundTrip.rrel (n : Nat) : Statement (.rrel n) := ofCore rfl rfl (word_rrel n)
theorem Sys2Proof.Laws.RoundTrip.rep (x : RepArgs) : Statement (.rep x) := ofCore rfl rfl (word_rep x)
theorem Sys2Proof.Laws.RoundTrip.pNop (h : PArgs) (o : PHalf) : Statement (.pNop h o) :=
  ofCore rfl rfl (fun h => word_p (op := .nop) rfl rfl h h)
theorem Sys2Proof.Laws.RoundTrip.pMov (h : PArgs) (o : PHalf) : Statement (.pMov h o) :=
  ofCore rfl rfl (fun h => word_p (op := .mov) rfl rfl h h)
theorem Sys2Proof.Laws.RoundTrip.pIadd (h : PArgs) (o : PHalf) : Statement (.pIadd h o) :=
  ofCore rfl rfl (fun h => word_p (op := .iadd) rfl rfl h h)
theorem Sys2Proof.Laws.RoundTrip.pIsub (h : PArgs) (o : PHalf) : Statement (.pIsub h o) :=
  ofCore rfl rfl (fun h => word_p (op := .isub) rfl rfl h h)
theorem Sys2Proof.Laws.RoundTrip.pImul (h : PArgs) (o : PHalf) : Statement (.pImul h o) :=
  ofCore rfl rfl (fun h => word_p (op := .imul) rfl rfl h h)
theorem Sys2Proof.Laws.RoundTrip.pIaddi (h : PArgs) (o : PHalf) : Statement (.pIaddi h o) :=
  ofCore rfl rfl (fun h => word_p (op := .iaddi) rfl rfl h h)
theorem Sys2Proof.Laws.RoundTrip.pAnd (h : PArgs) (o : PHalf) : Statement (.pAnd h o) :=
  ofCore rfl rfl (fun h => word_p (op := .and) rfl rfl h h)
theorem Sys2Proof.Laws.RoundTrip.pOr (h : PArgs) (o : PHalf) : Statement (.pOr h o) :=
  ofCore rfl rfl (fun h => word_p (op := .or) rfl rfl h h)
theorem Sys2Proof.Laws.RoundTrip.pXor (h : PArgs) (o : PHalf) : Statement (.pXor h o) :=
  ofCore rfl rfl (fun h => word_p (op := .xor) rfl rfl h h)
theorem Sys2Proof.Laws.RoundTrip.pAndn (h : PArgs) (o : PHalf) : Statement (.pAndn h o) :=
  ofCore rfl rfl (fun h => word_p (op := .andn) rfl rfl h h)
theorem Sys2Proof.Laws.RoundTrip.pShl (h : PArgs) (o : PHalf) : Statement (.pShl h o) :=
  ofCore rfl rfl (fun h => word_p (op := .shl) rfl rfl h h)
theorem Sys2Proof.Laws.RoundTrip.pShr (h : PArgs) (o : PHalf) : Statement (.pShr h o) :=
  ofCore rfl rfl (fun h => word_p (op := .shr) rfl rfl h h)
theorem Sys2Proof.Laws.RoundTrip.pSar (h : PArgs) (o : PHalf) : Statement (.pSar h o) :=
  ofCore rfl rfl (fun h => word_p (op := .sar) rfl rfl h h)
theorem Sys2Proof.Laws.RoundTrip.pImin (h : PArgs) (o : PHalf) : Statement (.pImin h o) :=
  ofCore rfl rfl (fun h => word_p (op := .imin) rfl rfl h h)
theorem Sys2Proof.Laws.RoundTrip.pImax (h : PArgs) (o : PHalf) : Statement (.pImax h o) :=
  ofCore rfl rfl (fun h => word_p (op := .imax) rfl rfl h h)
theorem Sys2Proof.Laws.RoundTrip.pRotr (h : PArgs) (o : PHalf) : Statement (.pRotr h o) :=
  ofCore rfl rfl (fun h => word_p (op := .rotr) rfl rfl h h)
theorem Sys2Proof.Laws.RoundTrip.pFadd (h : PArgs) (o : PHalf) : Statement (.pFadd h o) :=
  ofCore rfl rfl (fun h => word_p (op := .fadd) rfl rfl h h)
theorem Sys2Proof.Laws.RoundTrip.pFsub (h : PArgs) (o : PHalf) : Statement (.pFsub h o) :=
  ofCore rfl rfl (fun h => word_p (op := .fsub) rfl rfl h h)
theorem Sys2Proof.Laws.RoundTrip.pFmul (h : PArgs) (o : PHalf) : Statement (.pFmul h o) :=
  ofCore rfl rfl (fun h => word_p (op := .fmul) rfl rfl h h)
theorem Sys2Proof.Laws.RoundTrip.pFmin (h : PArgs) (o : PHalf) : Statement (.pFmin h o) :=
  ofCore rfl rfl (fun h => word_p (op := .fmin) rfl rfl h h)
theorem Sys2Proof.Laws.RoundTrip.pFmax (h : PArgs) (o : PHalf) : Statement (.pFmax h o) :=
  ofCore rfl rfl (fun h => word_p (op := .fmax) rfl rfl h h)
theorem Sys2Proof.Laws.RoundTrip.pHadd2 (h : PArgs) (o : PHalf) : Statement (.pHadd2 h o) :=
  ofCore rfl rfl (fun h => word_p (op := .hadd2) rfl rfl h h)
theorem Sys2Proof.Laws.RoundTrip.pHmul2 (h : PArgs) (o : PHalf) : Statement (.pHmul2 h o) :=
  ofCore rfl rfl (fun h => word_p (op := .hmul2) rfl rfl h h)
theorem Sys2Proof.Laws.RoundTrip.pClz (h : PArgs) (o : PHalf) : Statement (.pClz h o) :=
  ofCore rfl rfl (fun h => word_p (op := .clz) rfl rfl h h)
theorem Sys2Proof.Laws.RoundTrip.ld (x : LoadArgs) : Statement (.ld x) :=
  ofCore rfl rfl (fun h => word_load (by decide) rfl (fun _ => rfl) h (LoadArgs.parts (szs := fun _ => true) h))
theorem Sys2Proof.Laws.RoundTrip.st (x : StoreArgs) : Statement (.st x) :=
  ofCore rfl rfl (fun h => word_store (by decide) rfl (fun _ => rfl) h (StoreArgs.parts h))
theorem Sys2Proof.Laws.RoundTrip.lds (x : LoadArgs) : Statement (.lds x) :=
  ofCore rfl rfl (fun h => word_load (by decide) rfl (fun _ => rfl) h (LoadArgs.parts (szs := fun _ => true) h))
theorem Sys2Proof.Laws.RoundTrip.sts (x : StoreArgs) : Statement (.sts x) :=
  ofCore rfl rfl (fun h => word_store (by decide) rfl (fun _ => rfl) h (StoreArgs.parts h))
theorem Sys2Proof.Laws.RoundTrip.ldw (x : LoadArgs) : Statement (.ldw x) :=
  ofCore rfl rfl (fun h => word_load (by decide) rfl (fun _ => rfl) h (LoadArgs.parts h))
theorem Sys2Proof.Laws.RoundTrip.stw (x : StoreArgs) : Statement (.stw x) :=
  ofCore rfl rfl (fun h => word_store (by decide) rfl (fun _ => rfl) h (StoreArgs.parts h))
theorem Sys2Proof.Laws.RoundTrip.ldc (x : LoadArgs) : Statement (.ldc x) :=
  ofCore rfl rfl (fun h => word_load (by decide) rfl (fun _ => rfl) h (LoadArgs.parts (szs := fun _ => true) h))
theorem Sys2Proof.Laws.RoundTrip.pref (x : CacheArgs) : Statement (.pref x) :=
  ofCore rfl rfl (fun h => word_cache (by decide) rfl (fun _ => rfl) h (MemOpnd.parts h))
theorem Sys2Proof.Laws.RoundTrip.cflsh (x : CacheArgs) : Statement (.cflsh x) :=
  ofCore rfl rfl (fun h => word_cache (by decide) rfl (fun _ => rfl) h (MemOpnd.parts h))
theorem Sys2Proof.Laws.RoundTrip.cinv (x : CacheArgs) : Statement (.cinv x) :=
  ofCore rfl rfl (fun h => word_cache (by decide) rfl (fun _ => rfl) h (MemOpnd.parts (wide := true) (and_fst h)))
theorem Sys2Proof.Laws.RoundTrip.fence (scope : Scope) (kind : FenceKind) : Statement (.fence scope kind) := ofCore rfl rfl (word_fence scope kind)
theorem Sys2Proof.Laws.RoundTrip.waitc (mask : Nat) (t : WaitThreshold) : Statement (.waitc mask t) := ofCore rfl rfl (fun h => by
  cases t with
  | imm n => exact word_waitc_imm mask n h
  | opnd a => exact word_waitc_opnd mask a h)
theorem Sys2Proof.Laws.RoundTrip.atomAdd (x : AtomArgs) : Statement (.atomAdd x) :=
  ofCore rfl rfl (fun h => word_atom (by decide) rfl (fun _ => rfl) h (AtomArgs.parts h))
theorem Sys2Proof.Laws.RoundTrip.atomMin (x : AtomArgs) : Statement (.atomMin x) :=
  ofCore rfl rfl (fun h => word_atom (by decide) rfl (fun _ => rfl) h (AtomArgs.parts h))
theorem Sys2Proof.Laws.RoundTrip.atomMax (x : AtomArgs) : Statement (.atomMax x) :=
  ofCore rfl rfl (fun h => word_atom (by decide) rfl (fun _ => rfl) h (AtomArgs.parts h))
theorem Sys2Proof.Laws.RoundTrip.atomAnd (x : AtomArgs) : Statement (.atomAnd x) :=
  ofCore rfl rfl (fun h => word_atom (by decide) rfl (fun _ => rfl) h (AtomArgs.parts h))
theorem Sys2Proof.Laws.RoundTrip.atomOr (x : AtomArgs) : Statement (.atomOr x) :=
  ofCore rfl rfl (fun h => word_atom (by decide) rfl (fun _ => rfl) h (AtomArgs.parts h))
theorem Sys2Proof.Laws.RoundTrip.atomXor (x : AtomArgs) : Statement (.atomXor x) :=
  ofCore rfl rfl (fun h => word_atom (by decide) rfl (fun _ => rfl) h (AtomArgs.parts h))
theorem Sys2Proof.Laws.RoundTrip.atomExch (x : AtomArgs) : Statement (.atomExch x) :=
  ofCore rfl rfl (fun h => word_atom (by decide) rfl (fun _ => rfl) h (AtomArgs.parts h))
theorem Sys2Proof.Laws.RoundTrip.atomCas (x : AtomArgs) : Statement (.atomCas x) :=
  ofCore rfl rfl (fun h => word_atom (by decide) rfl (fun _ => rfl) h (AtomArgs.parts h))
theorem Sys2Proof.Laws.RoundTrip.atomFadd (x : AtomArgs) : Statement (.atomFadd x) :=
  ofCore rfl rfl (fun h => word_atom (by decide) rfl (fun _ => rfl) h (AtomArgs.parts h))
theorem Sys2Proof.Laws.RoundTrip.atomsAdd (x : AtomArgs) : Statement (.atomsAdd x) :=
  ofCore rfl rfl (fun h => word_atom (by decide) rfl (fun _ => rfl) h (AtomArgs.parts h))
theorem Sys2Proof.Laws.RoundTrip.atomsMin (x : AtomArgs) : Statement (.atomsMin x) :=
  ofCore rfl rfl (fun h => word_atom (by decide) rfl (fun _ => rfl) h (AtomArgs.parts h))
theorem Sys2Proof.Laws.RoundTrip.atomsMax (x : AtomArgs) : Statement (.atomsMax x) :=
  ofCore rfl rfl (fun h => word_atom (by decide) rfl (fun _ => rfl) h (AtomArgs.parts h))
theorem Sys2Proof.Laws.RoundTrip.atomsAnd (x : AtomArgs) : Statement (.atomsAnd x) :=
  ofCore rfl rfl (fun h => word_atom (by decide) rfl (fun _ => rfl) h (AtomArgs.parts h))
theorem Sys2Proof.Laws.RoundTrip.atomsOr (x : AtomArgs) : Statement (.atomsOr x) :=
  ofCore rfl rfl (fun h => word_atom (by decide) rfl (fun _ => rfl) h (AtomArgs.parts h))
theorem Sys2Proof.Laws.RoundTrip.atomsXor (x : AtomArgs) : Statement (.atomsXor x) :=
  ofCore rfl rfl (fun h => word_atom (by decide) rfl (fun _ => rfl) h (AtomArgs.parts h))
theorem Sys2Proof.Laws.RoundTrip.atomsExch (x : AtomArgs) : Statement (.atomsExch x) :=
  ofCore rfl rfl (fun h => word_atom (by decide) rfl (fun _ => rfl) h (AtomArgs.parts h))
theorem Sys2Proof.Laws.RoundTrip.atomsCas (x : AtomArgs) : Statement (.atomsCas x) :=
  ofCore rfl rfl (fun h => word_atom (by decide) rfl (fun _ => rfl) h (AtomArgs.parts h))
theorem Sys2Proof.Laws.RoundTrip.atomsFadd (x : AtomArgs) : Statement (.atomsFadd x) :=
  ofCore rfl rfl (fun h => word_atom (by decide) rfl (fun _ => rfl) h (AtomArgs.parts h))
theorem Sys2Proof.Laws.RoundTrip.rld (x : RldArgs) : Statement (.rld x) := ofCore rfl rfl (word_rld x)
theorem Sys2Proof.Laws.RoundTrip.rst (x : RstArgs) : Statement (.rst x) := ofCore rfl rfl (word_rst x)
theorem Sys2Proof.Laws.RoundTrip.rstf (x : RstfArgs) : Statement (.rstf x) := ofCore rfl rfl (word_rstf x)
theorem Sys2Proof.Laws.RoundTrip.ratomAdd (x : RatomArgs) : Statement (.ratomAdd x) :=
  ofCore rfl rfl (fun h => word_ratom (by decide) rfl (fun _ => rfl) h (RatomArgs.parts h))
theorem Sys2Proof.Laws.RoundTrip.ratomMin (x : RatomArgs) : Statement (.ratomMin x) :=
  ofCore rfl rfl (fun h => word_ratom (by decide) rfl (fun _ => rfl) h (RatomArgs.parts h))
theorem Sys2Proof.Laws.RoundTrip.ratomMax (x : RatomArgs) : Statement (.ratomMax x) :=
  ofCore rfl rfl (fun h => word_ratom (by decide) rfl (fun _ => rfl) h (RatomArgs.parts h))
theorem Sys2Proof.Laws.RoundTrip.ratomAnd (x : RatomArgs) : Statement (.ratomAnd x) :=
  ofCore rfl rfl (fun h => word_ratom (by decide) rfl (fun _ => rfl) h (RatomArgs.parts h))
theorem Sys2Proof.Laws.RoundTrip.ratomOr (x : RatomArgs) : Statement (.ratomOr x) :=
  ofCore rfl rfl (fun h => word_ratom (by decide) rfl (fun _ => rfl) h (RatomArgs.parts h))
theorem Sys2Proof.Laws.RoundTrip.ratomXor (x : RatomArgs) : Statement (.ratomXor x) :=
  ofCore rfl rfl (fun h => word_ratom (by decide) rfl (fun _ => rfl) h (RatomArgs.parts h))
theorem Sys2Proof.Laws.RoundTrip.ratomExch (x : RatomArgs) : Statement (.ratomExch x) :=
  ofCore rfl rfl (fun h => word_ratom (by decide) rfl (fun _ => rfl) h (RatomArgs.parts h))
theorem Sys2Proof.Laws.RoundTrip.ratomCas (x : RatomArgs) : Statement (.ratomCas x) :=
  ofCore rfl rfl (fun h => word_ratom (by decide) rfl (fun _ => rfl) h (RatomArgs.parts h))
theorem Sys2Proof.Laws.RoundTrip.ratomFadd (x : RatomArgs) : Statement (.ratomFadd x) :=
  ofCore rfl rfl (fun h => word_ratom (by decide) rfl (fun _ => rfl) h (RatomArgs.parts h))
theorem Sys2Proof.Laws.RoundTrip.copy (x : CopyArgs) : Statement (.copy x) :=
  ofCore rfl rfl (fun h => word_copy (by decide) rfl (fun _ => rfl) h (CopyArgs.parts h))
theorem Sys2Proof.Laws.RoundTrip.copy2 (x : CopyArgs) : Statement (.copy2 x) :=
  ofCore rfl rfl (fun h => word_copy (by decide) rfl (fun _ => rfl) h (CopyArgs.parts h))
theorem Sys2Proof.Laws.RoundTrip.copyf (x : CopyArgs) : Statement (.copyf x) :=
  ofCore rfl rfl (fun h => word_copy (by decide) rfl (fun _ => rfl) h (CopyArgs.parts h))
theorem Sys2Proof.Laws.RoundTrip.copyw (x : CopyArgs) : Statement (.copyw x) :=
  ofCore rfl rfl (fun h => word_copy (by decide) rfl (fun _ => rfl) h (CopyArgs.parts h))
theorem Sys2Proof.Laws.RoundTrip.copyr (x : CopyArgs) : Statement (.copyr x) :=
  ofCore rfl rfl (fun h => word_copy (by decide) rfl (fun _ => rfl) h (CopyArgs.parts h))
theorem Sys2Proof.Laws.RoundTrip.cprog (d : Dst) (a : Opnd) : Statement (.cprog d a) :=
  ofCore rfl rfl (fun h => word_da (C := .cprog) (by decide) (by decide) rfl rfl h (parts_da h))
theorem Sys2Proof.Laws.RoundTrip.ckill (d : Dst) (a : Opnd) : Statement (.ckill d a) :=
  ofCore rfl rfl (fun h => word_da (C := .ckill) (by decide) (by decide) rfl rfl h (parts_da h))
theorem Sys2Proof.Laws.RoundTrip.publ (d : Dst) (a : Opnd) : Statement (.publ d a) :=
  ofCore rfl rfl (fun h => word_da (C := .publ) (by decide) (by decide) rfl rfl h (parts_da h))
theorem Sys2Proof.Laws.RoundTrip.harn (n : Nat) (a : Opnd) : Statement (.harn n a) := ofCore rfl rfl (word_harn n a)
theorem Sys2Proof.Laws.RoundTrip.mpass (x : PassArgs) : Statement (.mpass x) :=
  ofCore rfl rfl (fun h => word_pass (by decide) rfl (fun _ => rfl) h (PassArgs.parts (by decide) h))
theorem Sys2Proof.Laws.RoundTrip.mspass (x : PassArgs) : Statement (.mspass x) :=
  ofCore rfl rfl (fun h => word_pass (by decide) rfl (fun _ => rfl) h (PassArgs.parts (by decide) h))
theorem Sys2Proof.Laws.RoundTrip.mlut (x : LutArgs) : Statement (.mlut x) := ofCore rfl rfl (word_mlut x)
theorem Sys2Proof.Laws.RoundTrip.accrd (x : AccArgs) : Statement (.accrd x) :=
  ofCore rfl rfl (fun h => word_acc (by decide) rfl (fun _ => rfl) h (AccArgs.parts h))
theorem Sys2Proof.Laws.RoundTrip.accwr (x : AccArgs) : Statement (.accwr x) :=
  ofCore rfl rfl (fun h => word_acc (by decide) rfl (fun _ => rfl) h (AccArgs.parts h))
theorem Sys2Proof.Laws.RoundTrip.accz (kind : AccKind) (t : Nat) : Statement (.accz kind t) := ofCore rfl rfl (word_accz kind t)
theorem Sys2Proof.Laws.RoundTrip.mprog (d : Dst) (a : Opnd) : Statement (.mprog d a) :=
  ofCore rfl rfl (fun h => word_da (C := .mprog) (by decide) (by decide) rfl (by show some (if bit _ 0 = true then _ else _) = _; rw [fWord_bit (by decide)]; rfl) h (parts_nda h))
theorem Sys2Proof.Laws.RoundTrip.mprogW (d : Dst) (a b : Opnd) : Statement (.mprogW d a b) :=
  ofCore rfl rfl (fun h => word_dab (C := .mprogW) (tail := 1) (by decide) (by decide) rfl (by show some (if bit _ 0 = true then _ else _) = _; rw [fWord_bit (by decide)]; rfl) h (parts_ndab h))
theorem Sys2Proof.Laws.RoundTrip.skupd (x : SkupdArgs) : Statement (.skupd x) := ofCore rfl rfl (word_skupd x)
theorem Sys2Proof.Laws.RoundTrip.skqry (x : SkqryArgs) : Statement (.skqry x) := ofCore rfl rfl (word_skqry x)
theorem Sys2Proof.Laws.RoundTrip.skadd (a b : Nat) : Statement (.skadd a b) := ofCore rfl rfl (word_skadd a b)
theorem Sys2Proof.Laws.RoundTrip.skclr (a : Nat) : Statement (.skclr a) := ofCore rfl rfl (word_skclr a)
theorem Sys2Proof.Laws.RoundTrip.tdec (a b : Opnd) : Statement (.tdec a b) := ofCore rfl rfl (word_tdec a b)
theorem Sys2Proof.Laws.RoundTrip.twait (p : Nat) (a b c : Opnd) : Statement (.twait p a b c) := ofCore rfl rfl (word_twait p a b c)
theorem Sys2Proof.Laws.RoundTrip.flgw (x : FlgwArgs) : Statement (.flgw x) := ofCore rfl rfl (word_flgw x)
theorem Sys2Proof.Laws.RoundTrip.bkw (p : Nat) (a c : Opnd) : Statement (.bkw p a c) := ofCore rfl rfl (word_bkw p a c)
theorem Sys2Proof.Laws.RoundTrip.bkarm (d : Dst) (a b : Opnd) : Statement (.bkarm d a b) :=
  ofCore rfl rfl (fun h => word_dab (C := .bkarm) (by decide) (by decide) rfl (by show some (if bit _ 0 = true then _ else _) = _; rw [fWord_bit (by decide)]; rfl) h (parts_dab h))
theorem Sys2Proof.Laws.RoundTrip.bkarmOff (d : Dst) (a : Opnd) : Statement (.bkarmOff d a) :=
  ofCore rfl rfl (fun h => word_da (C := .bkarmOff) (tail := 1) (by decide) (by decide) rfl (by show some (if bit _ 0 = true then _ else _) = _; rw [fWord_bit (by decide)]; rfl) h (parts_da h))
theorem Sys2Proof.Laws.RoundTrip.lnch (d : Dst) (a b : Opnd) : Statement (.lnch d a b) :=
  ofCore rfl rfl (fun h => word_dab (C := .lnch) (by decide) (by decide) rfl rfl h (parts_dab h))
theorem Sys2Proof.Laws.RoundTrip.reln (x : RelnArgs) : Statement (.reln x) := ofCore rfl rfl (word_reln x)
theorem Sys2Proof.Laws.RoundTrip.csrr (d : Dst) (csr : Nat) : Statement (.csrr d csr) := ofCore rfl rfl (word_csrr d csr)
theorem Sys2Proof.Laws.RoundTrip.csrw (csr : Nat) (a : Opnd) : Statement (.csrw csr a) := ofCore rfl rfl (word_csrw csr a)
theorem Sys2Proof.Laws.RoundTrip.tlbiVa (sreg : Nat) : Statement (.tlbiVa sreg) := ofCore rfl rfl (word_tlbiVa sreg)
theorem Sys2Proof.Laws.RoundTrip.fret (d : Dst) (a b : Opnd) : Statement (.fret d a b) :=
  ofCore rfl rfl (fun h => word_dab (C := .fret) (by decide) (by decide) rfl rfl h (parts_dab h))
theorem Sys2Proof.Laws.RoundTrip.fctxBind (d : Dst) (a b : Opnd) : Statement (.fctxBind d a b) :=
  ofCore rfl rfl (fun h => word_dab (C := .fctxBind) (by decide) (by decide) rfl rfl h (parts_dab h))
theorem Sys2Proof.Laws.RoundTrip.fctxUnbind (d : Dst) (a b : Opnd) : Statement (.fctxUnbind d a b) :=
  ofCore rfl rfl (fun h => word_dab (C := .fctxBind) (by decide) (by decide) rfl rfl h (parts_dab h))
theorem Sys2Proof.Laws.RoundTrip.fswpOut (d : Dst) (a b : Opnd) : Statement (.fswpOut d a b) :=
  ofCore rfl rfl (fun h => word_dab (C := .fswpOut) (by decide) (by decide) rfl rfl h (parts_dab h))
theorem Sys2Proof.Laws.RoundTrip.fswpIn (d : Dst) (a b : Opnd) : Statement (.fswpIn d a b) :=
  ofCore rfl rfl (fun h => word_dab (C := .fswpOut) (by decide) (by decide) rfl rfl h (parts_dab h))
theorem Sys2Proof.Laws.RoundTrip.bar (id : Nat) (n : BarCount) : Statement (.bar id n) := ofCore rfl rfl (fun h => by
  cases n with
  | imm k => exact word_bar_imm id k h
  | opnd a => exact word_bar_opnd id a h)
theorem Sys2Proof.Laws.RoundTrip.bara (d : Dst) (id : Nat) (n : BarCount) : Statement (.bara d id n) := ofCore rfl rfl (fun h => by
  cases n with
  | imm k => exact word_bara_imm d id k h
  | opnd a => exact word_bara_opnd d id a h)
theorem Sys2Proof.Laws.RoundTrip.barw (a : Opnd) (id : Nat) (clu : Bool) : Statement (.barw a id clu) := ofCore rfl rfl (word_barw a id clu)
theorem Sys2Proof.Laws.RoundTrip.cbar (d : Dst) (id : Nat) (n : BarCount) : Statement (.cbar d id n) := ofCore rfl rfl (fun h => by
  cases n with
  | imm k => exact word_cbar_imm d id k h
  | opnd a => exact word_cbar_opnd d id a h)
theorem Sys2Proof.Laws.RoundTrip.nldv (x : NmuMem) : Statement (.nldv x) := ofNmu rfl rfl rfl (word_nldv x)
theorem Sys2Proof.Laws.RoundTrip.nstv (x : NmuMem) : Statement (.nstv x) := ofNmu rfl rfl rfl (word_nstv x)
theorem Sys2Proof.Laws.RoundTrip.nadd (x : NmuV2) : Statement (.nadd x) := ofNmu rfl rfl rfl (word_nadd x)
theorem Sys2Proof.Laws.RoundTrip.nsub (x : NmuV2) : Statement (.nsub x) := ofNmu rfl rfl rfl (word_nsub x)
theorem Sys2Proof.Laws.RoundTrip.nmul (x : NmuV2) : Statement (.nmul x) := ofNmu rfl rfl rfl (word_nmul x)
theorem Sys2Proof.Laws.RoundTrip.nfma (x : NmuV3) : Statement (.nfma x) := ofNmu rfl rfl rfl (word_nfma x)
theorem Sys2Proof.Laws.RoundTrip.nmin (x : NmuV2) : Statement (.nmin x) := ofNmu rfl rfl rfl (word_nmin x)
theorem Sys2Proof.Laws.RoundTrip.nmax (x : NmuV2) : Statement (.nmax x) := ofNmu rfl rfl rfl (word_nmax x)
theorem Sys2Proof.Laws.RoundTrip.nrsq (gd ga : Nat) : Statement (.nrsq gd ga) := ofNmu rfl rfl rfl (word_nrsq gd ga)
theorem Sys2Proof.Laws.RoundTrip.ncvt (gd ga : Nat) (kind : NcvtKind) (rnd : Rnd) : Statement (.ncvt gd ga kind rnd) := ofNmu rfl rfl rfl (word_ncvt gd ga kind rnd)
theorem Sys2Proof.Laws.RoundTrip.nsku (g ak ad n : Nat) : Statement (.nsku g ak ad n) := ofNmu rfl rfl rfl (word_nsku g ak ad n)
theorem Sys2Proof.Laws.RoundTrip.nskq (g ak ad n : Nat) : Statement (.nskq g ak ad n) := ofNmu rfl rfl rfl (word_nskq g ak ad n)
theorem Sys2Proof.Laws.RoundTrip.nska (ad as : Nat) : Statement (.nska ad as) := ofNmu rfl rfl rfl (word_nska ad as)
theorem Sys2Proof.Laws.RoundTrip.nskc (ad : Nat) : Statement (.nskc ad) := ofNmu rfl rfl rfl (word_nskc ad)
theorem Sys2Proof.Laws.RoundTrip.nsetImm (gd imm : Nat) : Statement (.nsetImm gd imm) := ofNmu rfl rfl rfl (word_nsetImm gd imm)
theorem Sys2Proof.Laws.RoundTrip.nsetReg (gd a : Nat) : Statement (.nsetReg gd a) := ofNmu rfl rfl rfl (word_nsetReg gd a)
theorem Sys2Proof.Laws.RoundTrip.naddi (ad as sh imm : Nat) : Statement (.naddi ad as sh imm) := ofNmu rfl rfl rfl (word_naddi ad as sh imm)
theorem Sys2Proof.Laws.RoundTrip.nloopImm (count off : Nat) : Statement (.nloopImm count off) := ofNmu rfl rfl rfl (word_nloopImm count off)
theorem Sys2Proof.Laws.RoundTrip.nloopReg (a off : Nat) : Statement (.nloopReg a off) := ofNmu rfl rfl rfl (word_nloopReg a off)
theorem Sys2Proof.Laws.RoundTrip.nbra (cond : NbraCond) (a off : Nat) : Statement (.nbra cond a off) := ofNmu rfl rfl rfl (word_nbra cond a off)
theorem Sys2Proof.Laws.RoundTrip.nwait (a b : Nat) : Statement (.nwait a b) := ofNmu rfl rfl rfl (word_nwait a b)
theorem Sys2Proof.Laws.RoundTrip.nsig (a : Nat) : Statement (.nsig a) := ofNmu rfl rfl rfl (word_nsig a)
theorem Sys2Proof.Laws.RoundTrip.movqReg (qd qa : Nat) : Statement (.movqReg qd qa) := ofCratch rfl rfl rfl (word_movqReg qd qa)
theorem Sys2Proof.Laws.RoundTrip.movqImm (qd : Nat) (imm : Int) : Statement (.movqImm qd imm) := ofCratch rfl rfl rfl (word_movqImm qd imm)
theorem Sys2Proof.Laws.RoundTrip.addqReg (qd qa qb : Nat) : Statement (.addqReg qd qa qb) := ofCratch rfl rfl rfl (word_addqReg qd qa qb)
theorem Sys2Proof.Laws.RoundTrip.addqImm (qd qa : Nat) (imm : Int) : Statement (.addqImm qd qa imm) := ofCratch rfl rfl rfl (word_addqImm qd qa imm)
theorem Sys2Proof.Laws.RoundTrip.subqReg (qd qa qb : Nat) : Statement (.subqReg qd qa qb) := ofCratch rfl rfl rfl (word_subqReg qd qa qb)
theorem Sys2Proof.Laws.RoundTrip.subqImm (qd qa : Nat) (imm : Int) : Statement (.subqImm qd qa imm) := ofCratch rfl rfl rfl (word_subqImm qd qa imm)
theorem Sys2Proof.Laws.RoundTrip.cmpqReg (cc : QCond) (qa qb : Nat) : Statement (.cmpqReg cc qa qb) := ofCratch rfl rfl rfl (word_cmpqReg cc qa qb)
theorem Sys2Proof.Laws.RoundTrip.cmpqImm (cc : QCond) (qa : Nat) (imm : Int) : Statement (.cmpqImm cc qa imm) := ofCratch rfl rfl rfl (word_cmpqImm cc qa imm)
theorem Sys2Proof.Laws.RoundTrip.brq (nz : Bool) (qa : Nat) (off : Int) : Statement (.brq nz qa off) := ofCratch rfl rfl rfl (word_brq nz qa off)
theorem Sys2Proof.Laws.RoundTrip.brc (cond : BrcCond) (off : Int) : Statement (.brc cond off) := ofCratch rfl rfl rfl (word_brc cond off)
theorem Sys2Proof.Laws.RoundTrip.creq (qd qa : Nat) : Statement (.creq qd qa) := ofCratch rfl rfl rfl (word_creq qd qa)
theorem Sys2Proof.Laws.RoundTrip.cwait (tgt : CwaitTarget) (qd qa qb : Nat) : Statement (.cwait tgt qd qa qb) := ofCratch rfl rfl rfl (word_cwait tgt qd qa qb)
theorem Sys2Proof.Laws.RoundTrip.crel (qa : Nat) : Statement (.crel qa) := ofCratch rfl rfl rfl (word_crel qa)
theorem Sys2Proof.Laws.RoundTrip.cstat (qd qa : Nat) : Statement (.cstat qd qa) := ofCratch rfl rfl rfl (word_cstat qd qa)
theorem Sys2Proof.Laws.RoundTrip.buck (qa qb : Nat) : Statement (.buck qa qb) := ofCratch rfl rfl rfl (word_buck qa qb)
theorem Sys2Proof.Laws.RoundTrip.buckOff (qa : Nat) : Statement (.buckOff qa) := ofCratch rfl rfl rfl (word_buckOff qa)
theorem Sys2Proof.Laws.RoundTrip.park (qa qb : Nat) : Statement (.park qa qb) := ofCratch rfl rfl rfl (word_park qa qb)
theorem Sys2Proof.Laws.RoundTrip.wake (qa qb : Nat) : Statement (.wake qa qb) := ofCratch rfl rfl rfl (word_wake qa qb)
theorem Sys2Proof.Laws.RoundTrip.setw (qa qb : Nat) : Statement (.setw qa qb) := ofCratch rfl rfl rfl (word_setw qa qb)
theorem Sys2Proof.Laws.RoundTrip.msg (qa qb : Nat) : Statement (.msg qa qb) := ofCratch rfl rfl rfl (word_msg qa qb)
theorem Sys2Proof.Laws.RoundTrip.mrcv (qd qa qb : Nat) : Statement (.mrcv qd qa qb) := ofCratch rfl rfl rfl (word_mrcv qd qa qb)
theorem Sys2Proof.Laws.RoundTrip.tsig (qa qb : Nat) : Statement (.tsig qa qb) := ofCratch rfl rfl rfl (word_tsig qa qb)
theorem Sys2Proof.Laws.RoundTrip.twt (qa qb qc : Nat) : Statement (.twt qa qb qc) := ofCratch rfl rfl rfl (word_twt qa qb qc)
theorem Sys2Proof.Laws.RoundTrip.time (qd : Nat) : Statement (.time qd) := ofCratch rfl rfl rfl (word_time qd)
theorem Sys2Proof.Laws.RoundTrip.dlyReg (qa : Nat) : Statement (.dlyReg qa) := ofCratch rfl rfl rfl (word_dlyReg qa)
theorem Sys2Proof.Laws.RoundTrip.dlyImm (us : Nat) : Statement (.dlyImm us) := ofCratch rfl rfl rfl (word_dlyImm us)
theorem Sys2Proof.Laws.RoundTrip.evt (qa : Nat) : Statement (.evt qa) := ofCratch rfl rfl rfl (word_evt qa)
theorem Sys2Proof.Laws.RoundTrip.lacz : Statement (.lacz) := ofCore rfl rfl (word_lacz)
theorem Sys2Proof.Laws.RoundTrip.regangRelease (core slot addr : Nat) : Statement (.regangRelease core slot addr) := ofEvent rfl rfl rfl
theorem Sys2Proof.Laws.RoundTrip.yield : Statement (.yield) := ofCore rfl rfl (word_yield)
theorem Sys2Proof.Laws.RoundTrip.nop : Statement (.nop) := ofCore rfl rfl (word_nop)
theorem Sys2Proof.Laws.RoundTrip.exit : Statement (.exit) := ofCore rfl rfl (word_exit)
theorem Sys2Proof.Laws.RoundTrip.racqGrant (core : Nat) : Statement (.racqGrant core) := ofEvent rfl rfl rfl
theorem Sys2Proof.Laws.RoundTrip.emergencyEpisode (core : Nat) : Statement (.emergencyEpisode core) := ofEvent rfl rfl rfl
theorem Sys2Proof.Laws.RoundTrip.emergencyGrant (core : Nat) : Statement (.emergencyGrant core) := ofEvent rfl rfl rfl
theorem Sys2Proof.Laws.RoundTrip.rrelRelease (core slot : Nat) : Statement (.rrelRelease core slot) := ofEvent rfl rfl rfl
theorem Sys2Proof.Laws.RoundTrip.fenceComplete (core slot id : Nat) : Statement (.fenceComplete core slot id) := ofEvent rfl rfl rfl
theorem Sys2Proof.Laws.RoundTrip.rfence : Statement (.rfence) := ofCore rfl rfl (word_rfence)
theorem Sys2Proof.Laws.RoundTrip.sketchReply (id : Nat) : Statement (.sketchReply id) := ofEvent rfl rfl rfl
theorem Sys2Proof.Laws.RoundTrip.timedWaitAnswer (core slot slice : Nat) : Statement (.timedWaitAnswer core slot slice) := ofEvent rfl rfl rfl
theorem Sys2Proof.Laws.RoundTrip.timedWaitTimeout (core slot slice : Nat) : Statement (.timedWaitTimeout core slot slice) := ofEvent rfl rfl rfl
theorem Sys2Proof.Laws.RoundTrip.flgwHostPoll (core slot slice : Nat) : Statement (.flgwHostPoll core slot slice) := ofEvent rfl rfl rfl
theorem Sys2Proof.Laws.RoundTrip.rcloseRetry (ctx record : Nat) : Statement (.rcloseRetry ctx record) := ofEvent rfl rfl rfl
theorem Sys2Proof.Laws.RoundTrip.rcloseSkip (ctx record : Nat) : Statement (.rcloseSkip ctx record) := ofEvent rfl rfl rfl
theorem Sys2Proof.Laws.RoundTrip.rcloseKillw (ctx record : Nat) : Statement (.rcloseKillw ctx record) := ofEvent rfl rfl rfl
theorem Sys2Proof.Laws.RoundTrip.rcloseKillc (ctx record : Nat) : Statement (.rcloseKillc ctx record) := ofEvent rfl rfl rfl
theorem Sys2Proof.Laws.RoundTrip.tlbiCtx : Statement (.tlbiCtx) := ofCore rfl rfl (word_tlbiCtx)
theorem Sys2Proof.Laws.RoundTrip.tlbiAll : Statement (.tlbiAll) := ofCore rfl rfl (word_tlbiAll)
theorem Sys2Proof.Laws.RoundTrip.tlbiComplete (core slot id : Nat) : Statement (.tlbiComplete core slot id) := ofEvent rfl rfl rfl
theorem Sys2Proof.Laws.RoundTrip.halt : Statement (.halt) := ofCore rfl rfl (word_halt)
theorem Sys2Proof.Laws.RoundTrip.haltDev : Statement (.haltDev) := ofCore rfl rfl (word_haltDev)
theorem Sys2Proof.Laws.RoundTrip.clusterBlockAssign (launch cluster : Nat) (cores : List Nat) : Statement (.clusterBlockAssign launch cluster cores) := ofEvent rfl rfl rfl
theorem Sys2Proof.Laws.RoundTrip.clusterBlockResident (cb : Nat) : Statement (.clusterBlockResident cb) := ofEvent rfl rfl rfl
theorem Sys2Proof.Laws.RoundTrip.activeSetUpdate (core : Nat) : Statement (.activeSetUpdate core) := ofEvent rfl rfl rfl
theorem Sys2Proof.Laws.RoundTrip.warpForced (core slot : Nat) : Statement (.warpForced core slot) := ofEvent rfl rfl rfl
theorem Sys2Proof.Laws.RoundTrip.warpExited (core slot : Nat) : Statement (.warpExited core slot) := ofEvent rfl rfl rfl
theorem Sys2Proof.Laws.RoundTrip.pageWalk (cluster ctx va : Nat) (kind : AccessKind) : Statement (.pageWalk cluster ctx va kind) := ofEvent rfl rfl rfl
theorem Sys2Proof.Laws.RoundTrip.loadValueReturn (id : Nat) : Statement (.loadValueReturn id) := ofEvent rfl rfl rfl
theorem Sys2Proof.Laws.RoundTrip.storePerformed (id : Nat) : Statement (.storePerformed id) := ofEvent rfl rfl rfl
theorem Sys2Proof.Laws.RoundTrip.scratchpadAccess (id : Nat) : Statement (.scratchpadAccess id) := ofEvent rfl rfl rfl
theorem Sys2Proof.Laws.RoundTrip.homeAccess (id part : Nat) : Statement (.homeAccess id part) := ofEvent rfl rfl rfl
theorem Sys2Proof.Laws.RoundTrip.hostAccess (op : HostOp) : Statement (.hostAccess op) := ofEvent rfl rfl rfl
theorem Sys2Proof.Laws.RoundTrip.barrierComplete (b : BarrierRef) : Statement (.barrierComplete b) := ofEvent rfl rfl rfl
theorem Sys2Proof.Laws.RoundTrip.taskDecrement : Statement (.taskDecrement) := ofEvent rfl rfl rfl
theorem Sys2Proof.Laws.RoundTrip.copyTakeUp (core : Nat) : Statement (.copyTakeUp core) := ofEvent rfl rfl rfl
theorem Sys2Proof.Laws.RoundTrip.copyChunkIssue (c : CopyRef) : Statement (.copyChunkIssue c) := ofEvent rfl rfl rfl
theorem Sys2Proof.Laws.RoundTrip.copyChunkPerformed (c : CopyRef) (chunk : Nat) : Statement (.copyChunkPerformed c chunk) := ofEvent rfl rfl rfl
theorem Sys2Proof.Laws.RoundTrip.copyrChunkTimeout (c : CopyRef) (chunk : Nat) : Statement (.copyrChunkTimeout c chunk) := ofEvent rfl rfl rfl
theorem Sys2Proof.Laws.RoundTrip.drainlimExpiry (ctx : Nat) : Statement (.drainlimExpiry ctx) := ofEvent rfl rfl rfl
theorem Sys2Proof.Laws.RoundTrip.passPost (cluster harness : Nat) : Statement (.passPost cluster harness) := ofEvent rfl rfl rfl
theorem Sys2Proof.Laws.RoundTrip.passGrant (cluster : Nat) : Statement (.passGrant cluster) := ofEvent rfl rfl rfl
theorem Sys2Proof.Laws.RoundTrip.passKstepComplete (cluster : Nat) : Statement (.passKstepComplete cluster) := ofEvent rfl rfl rfl
theorem Sys2Proof.Laws.RoundTrip.nmuNodeLoad (stack : Nat) : Statement (.nmuNodeLoad stack) := ofEvent rfl rfl rfl
theorem Sys2Proof.Laws.RoundTrip.nmuProgramSave (stack place : Nat) : Statement (.nmuProgramSave stack place) := ofEvent rfl rfl rfl
theorem Sys2Proof.Laws.RoundTrip.nwaitRelease (stack place : Nat) : Statement (.nwaitRelease stack place) := ofEvent rfl rfl rfl
theorem Sys2Proof.Laws.RoundTrip.nfence : Statement (.nfence) := ofNmu rfl rfl rfl (word_nfence)
theorem Sys2Proof.Laws.RoundTrip.nend : Statement (.nend) := ofNmu rfl rfl rfl (word_nend)
theorem Sys2Proof.Laws.RoundTrip.collectiveCheckExchange (node : Nat) (nb : CollPeer) : Statement (.collectiveCheckExchange node nb) := ofEvent rfl rfl rfl
theorem Sys2Proof.Laws.RoundTrip.collectiveSegmentReceive (node : Nat) (seg : CollSegment) : Statement (.collectiveSegmentReceive node seg) := ofEvent rfl rfl rfl
theorem Sys2Proof.Laws.RoundTrip.launchSubmit (ctx : Nat) (src : LaunchSource) (pkt : List Byte) : Statement (.launchSubmit ctx src pkt) := ofEvent rfl rfl rfl
theorem Sys2Proof.Laws.RoundTrip.launchStart (launch : Nat) : Statement (.launchStart launch) := ofEvent rfl rfl rfl
theorem Sys2Proof.Laws.RoundTrip.relaunchHeaderRead (launch : Nat) : Statement (.relaunchHeaderRead launch) := ofEvent rfl rfl rfl
theorem Sys2Proof.Laws.RoundTrip.launchEnd (launch : Nat) : Statement (.launchEnd launch) := ofEvent rfl rfl rfl
theorem Sys2Proof.Laws.RoundTrip.graphLoad (launch : Nat) : Statement (.graphLoad launch) := ofEvent rfl rfl rfl
theorem Sys2Proof.Laws.RoundTrip.nodeStart (slot index : Nat) : Statement (.nodeStart slot index) := ofEvent rfl rfl rfl
theorem Sys2Proof.Laws.RoundTrip.nodeEnd (slot index : Nat) : Statement (.nodeEnd slot index) := ofEvent rfl rfl rfl
theorem Sys2Proof.Laws.RoundTrip.graphComplete (slot : Nat) : Statement (.graphComplete slot) := ofEvent rfl rfl rfl
theorem Sys2Proof.Laws.RoundTrip.launchRegisterInline (q : Nat) (bytes : List Byte) : Statement (.launchRegisterInline q bytes) := ofEvent rfl rfl rfl
theorem Sys2Proof.Laws.RoundTrip.launchRegisterDoorbell (q : Nat) (bytes : List Byte) : Statement (.launchRegisterDoorbell q bytes) := ofEvent rfl rfl rfl
theorem Sys2Proof.Laws.RoundTrip.launchRegisterDrop (q : Nat) (acc : RegAccess) : Statement (.launchRegisterDrop q acc) := ofEvent rfl rfl rfl
theorem Sys2Proof.Laws.RoundTrip.barRegisterWrite (off : Nat) (value : W64) : Statement (.barRegisterWrite off value) := ofEvent rfl rfl rfl
theorem Sys2Proof.Laws.RoundTrip.packetConsume : Statement (.packetConsume) := ofEvent rfl rfl rfl
theorem Sys2Proof.Laws.RoundTrip.energyCharge (q : Nat) (counts : List Nat) : Statement (.energyCharge q counts) := ofEvent rfl rfl rfl
theorem Sys2Proof.Laws.RoundTrip.budgetRefill (q : Nat) : Statement (.budgetRefill q) := ofEvent rfl rfl rfl
theorem Sys2Proof.Laws.RoundTrip.ctxCreate (desc : CtxDesc) : Statement (.ctxCreate desc) := ofEvent rfl rfl rfl
theorem Sys2Proof.Laws.RoundTrip.ctxBind (ctx pmask : Nat) (unbind : Bool) : Statement (.ctxBind ctx pmask unbind) := ofEvent rfl rfl rfl
theorem Sys2Proof.Laws.RoundTrip.ctxDestroy (ctx : Nat) : Statement (.ctxDestroy ctx) := ofEvent rfl rfl rfl
theorem Sys2Proof.Laws.RoundTrip.ctxPreempt (ctx : Nat) (forced : Bool) : Statement (.ctxPreempt ctx forced) := ofEvent rfl rfl rfl
theorem Sys2Proof.Laws.RoundTrip.ctxRestore (ctx : Nat) : Statement (.ctxRestore ctx) := ofEvent rfl rfl rfl
theorem Sys2Proof.Laws.RoundTrip.grant (ctx : Nat) (what : GrantWhat) : Statement (.grant ctx what) := ofEvent rfl rfl rfl
theorem Sys2Proof.Laws.RoundTrip.keyLoad (id : Nat) (key : BitVec 512) : Statement (.keyLoad id key) := ofEvent rfl rfl rfl
theorem Sys2Proof.Laws.RoundTrip.queueBind (q : Nat) (desc : QueueDesc) : Statement (.queueBind q desc) := ofEvent rfl rfl rfl
theorem Sys2Proof.Laws.RoundTrip.queueDestroy (q : Nat) : Statement (.queueDestroy q) := ofEvent rfl rfl rfl
theorem Sys2Proof.Laws.RoundTrip.queueResume (q : Nat) : Statement (.queueResume q) := ofEvent rfl rfl rfl
theorem Sys2Proof.Laws.RoundTrip.recordClose (ctx record action : Nat) : Statement (.recordClose ctx record action) := ofEvent rfl rfl rfl
theorem Sys2Proof.Laws.RoundTrip.attest (ctx : Nat) (nonce : BitVec 384) : Statement (.attest ctx nonce) := ofEvent rfl rfl rfl
theorem Sys2Proof.Laws.RoundTrip.ctxResume (ctx : Nat) : Statement (.ctxResume ctx) := ofEvent rfl rfl rfl
theorem Sys2Proof.Laws.RoundTrip.handleBind (ctx handle : Nat) (unbind : Bool) (map : Nat) : Statement (.handleBind ctx handle unbind map) := ofEvent rfl rfl rfl
theorem Sys2Proof.Laws.RoundTrip.fmSources (map : Nat) : Statement (.fmSources map) := ofEvent rfl rfl rfl
theorem Sys2Proof.Laws.RoundTrip.energyCoef (coefs : List W32) : Statement (.energyCoef coefs) := ofEvent rfl rfl rfl
theorem Sys2Proof.Laws.RoundTrip.heldRecordWrite (n : Nat) : Statement (.heldRecordWrite n) := ofEvent rfl rfl rfl
theorem Sys2Proof.Laws.RoundTrip.uncorrectableMemoryError (pa : Nat) : Statement (.uncorrectableMemoryError pa) := ofEvent rfl rfl rfl
theorem Sys2Proof.Laws.RoundTrip.residencyDecision : Statement (.residencyDecision) := ofEvent rfl rfl rfl
theorem Sys2Proof.Laws.RoundTrip.gracelimExpiry (ctx : Nat) : Statement (.gracelimExpiry ctx) := ofEvent rfl rfl rfl
theorem Sys2Proof.Laws.RoundTrip.gracefulSave (ctx : Nat) : Statement (.gracefulSave ctx) := ofEvent rfl rfl rfl
theorem Sys2Proof.Laws.RoundTrip.partitionImageWritten (part : Nat) : Statement (.partitionImageWritten part) := ofEvent rfl rfl rfl
theorem Sys2Proof.Laws.RoundTrip.imageMove (part : Nat) : Statement (.imageMove part) := ofEvent rfl rfl rfl
theorem Sys2Proof.Laws.RoundTrip.swapComplete (ctx : Nat) : Statement (.swapComplete ctx) := ofEvent rfl rfl rfl
theorem Sys2Proof.Laws.RoundTrip.deviceReset (accepted : Bool) : Statement (.deviceReset accepted) := ofEvent rfl rfl rfl
theorem Sys2Proof.Laws.RoundTrip.firmwareFaultRestart (core slot : Nat) : Statement (.firmwareFaultRestart core slot) := ofEvent rfl rfl rfl
theorem Sys2Proof.Laws.RoundTrip.laneTrained (lane port : Nat) : Statement (.laneTrained lane port) := ofEvent rfl rfl rfl
theorem Sys2Proof.Laws.RoundTrip.laneDown (lane : Nat) : Statement (.laneDown lane) := ofEvent rfl rfl rfl
theorem Sys2Proof.Laws.RoundTrip.rldPacket (h : PktHdr) (mask : BitVec 256) : Statement (.rldPacket h mask) := ofEvent rfl rfl rfl
theorem Sys2Proof.Laws.RoundTrip.rstPacket (h : PktHdr) (mask : BitVec 256) (image : List Byte) : Statement (.rstPacket h mask image) := ofEvent rfl rfl rfl
theorem Sys2Proof.Laws.RoundTrip.rstfPacket (h : PktHdr) (mask : BitVec 256) (image : List Byte) (flag : Nat) : Statement (.rstfPacket h mask image flag) := ofEvent rfl rfl rfl
theorem Sys2Proof.Laws.RoundTrip.ratomPacket (h : PktHdr) (lanes : List AtomLane) : Statement (.ratomPacket h lanes) := ofEvent rfl rfl rfl
theorem Sys2Proof.Laws.RoundTrip.remoteResponse (h : PktHdr) (bytes : List Byte) (results : List W64) : Statement (.remoteResponse h bytes results) := ofEvent rfl rfl rfl
theorem Sys2Proof.Laws.RoundTrip.remoteAcknowledgement (h : PktHdr) : Statement (.remoteAcknowledgement h) := ofEvent rfl rfl rfl
theorem Sys2Proof.Laws.RoundTrip.remoteTimeout (target tag : Nat) : Statement (.remoteTimeout target tag) := ofEvent rfl rfl rfl
theorem Sys2Proof.Laws.RoundTrip.cratchMsg (h : PktHdr) (mailbox : Nat) (value : W64) : Statement (.cratchMsg h mailbox value) := ofEvent rfl rfl rfl
theorem Sys2Proof.Laws.RoundTrip.managementRead (h : PktHdr) (port off : Nat) : Statement (.managementRead h port off) := ofEvent rfl rfl rfl
theorem Sys2Proof.Laws.RoundTrip.managementWrite (h : PktHdr) (off : Nat) (value : W64) : Statement (.managementWrite h off value) := ofEvent rfl rfl rfl
theorem Sys2Proof.Laws.RoundTrip.dataFlit (port : Nat) (bytes : List Byte) : Statement (.dataFlit port bytes) := ofEvent rfl rfl rfl
theorem Sys2Proof.Laws.RoundTrip.acknowledgementFlit (port : Nat) (bytes : List Byte) : Statement (.acknowledgementFlit port bytes) := ofEvent rfl rfl rfl
theorem Sys2Proof.Laws.RoundTrip.replay (port seq : Nat) : Statement (.replay port seq) := ofEvent rfl rfl rfl
theorem Sys2Proof.Laws.RoundTrip.replayTimeout (port : Nat) : Statement (.replayTimeout port) := ofEvent rfl rfl rfl
theorem Sys2Proof.Laws.RoundTrip.controlFlitRepeat (port : Nat) : Statement (.controlFlitRepeat port) := ofEvent rfl rfl rfl
theorem Sys2Proof.Laws.RoundTrip.restripe (port : Nat) (byTx : Bool) (stripe : BitVec 16) (seq : Nat) : Statement (.restripe port byTx stripe seq) := ofEvent rfl rfl rfl
theorem Sys2Proof.Laws.RoundTrip.restripeAck (port : Nat) (byTx : Bool) : Statement (.restripeAck port byTx) := ofEvent rfl rfl rfl
theorem Sys2Proof.Laws.RoundTrip.wakeReady (port : Nat) (stripe : BitVec 16) : Statement (.wakeReady port stripe) := ofEvent rfl rfl rfl
theorem Sys2Proof.Laws.RoundTrip.chunkDone (port handle frame : Nat) : Statement (.chunkDone port handle frame) := ofEvent rfl rfl rfl
theorem Sys2Proof.Laws.RoundTrip.close (port : Nat) : Statement (.close port) := ofEvent rfl rfl rfl
theorem Sys2Proof.Laws.RoundTrip.portFail (port : Nat) : Statement (.portFail port) := ofEvent rfl rfl rfl
theorem Sys2Proof.Laws.RoundTrip.lossOfLight (port : Nat) (lost : BitVec 16) (reverseLit : Bool) : Statement (.lossOfLight port lost reverseLit) := ofEvent rfl rfl rfl
theorem Sys2Proof.Laws.RoundTrip.receiveSilence (port : Nat) : Statement (.receiveSilence port) := ofEvent rfl rfl rfl
theorem Sys2Proof.Laws.RoundTrip.wakeLock (port channel : Nat) (locked : BitVec 4) : Statement (.wakeLock port channel locked) := ofEvent rfl rfl rfl
theorem Sys2Proof.Laws.RoundTrip.wakeTimeout (port channel : Nat) : Statement (.wakeTimeout port channel) := ofEvent rfl rfl rfl
theorem Sys2Proof.Laws.RoundTrip.lightReturns (port wl : Nat) (rx : Bool) : Statement (.lightReturns port wl rx) := ofEvent rfl rfl rfl
theorem Sys2Proof.Laws.RoundTrip.autoWake (port : Nat) : Statement (.autoWake port) := ofEvent rfl rfl rfl
theorem Sys2Proof.Laws.RoundTrip.laserRefresh (port channel : Nat) (x : LaserReading) : Statement (.laserRefresh port channel x) := ofEvent rfl rfl rfl
theorem Sys2Proof.Laws.RoundTrip.controllerGrant (m : CtlMsg) : Statement (.controllerGrant m) := ofEvent rfl rfl rfl
theorem Sys2Proof.Laws.RoundTrip.controllerDeny (m : CtlMsg) : Statement (.controllerDeny m) := ofEvent rfl rfl rfl
theorem Sys2Proof.Laws.RoundTrip.controllerFail (m : CtlMsg) : Statement (.controllerFail m) := ofEvent rfl rfl rfl
theorem Sys2Proof.Laws.RoundTrip.controllerReleased (m : CtlMsg) : Statement (.controllerReleased m) := ofEvent rfl rfl rfl
theorem Sys2Proof.Laws.RoundTrip.requestSilence (port : Nat) : Statement (.requestSilence port) := ofEvent rfl rfl rfl
theorem Sys2Proof.Laws.RoundTrip.portLocked (port : Nat) : Statement (.portLocked port) := ofEvent rfl rfl rfl
theorem Sys2Proof.Laws.RoundTrip.lockTimeout (port : Nat) : Statement (.lockTimeout port) := ofEvent rfl rfl rfl
theorem Sys2Proof.Laws.RoundTrip.portTrained (port peer : Nat) (tx rx : BitVec 16) : Statement (.portTrained port peer tx rx) := ofEvent rfl rfl rfl
theorem Sys2Proof.Laws.RoundTrip.portLive (port : Nat) : Statement (.portLive port) := ofEvent rfl rfl rfl
theorem Sys2Proof.Laws.RoundTrip.portDrained (port : Nat) : Statement (.portDrained port) := ofEvent rfl rfl rfl
theorem Sys2Proof.Laws.RoundTrip.drainTimeout (port : Nat) : Statement (.drainTimeout port) := ofEvent rfl rfl rfl
theorem Sys2Proof.Laws.RoundTrip.scriptStart : Statement (.scriptStart) := ofEvent rfl rfl rfl
theorem Sys2Proof.Laws.RoundTrip.cratchWaitEnd (place : Nat) : Statement (.cratchWaitEnd place) := ofEvent rfl rfl rfl
theorem Sys2Proof.Laws.RoundTrip.endScript : Statement (.endScript) := ofCratch rfl rfl rfl (word_endScript)
theorem Sys2Proof.Laws.RoundTrip.fullService : Statement (.fullService) := ofEvent rfl rfl rfl
theorem Sys2Proof.Laws.RoundTrip.queueRelease (q : Nat) : Statement (.queueRelease q) := ofEvent rfl rfl rfl
end

