-- ==== Sys2Proof/Laws/Script.lean ====
section
/-! SUPPORT. Scripts: what a word changes (16 R479, R481). -/

namespace Sys2Proof.Claims

open Sys2Proof.Machine

/-- Changing the script in the site's place. -/
theorem scriptAfter_upd {s : State} {x : Script} (h : mget s.scripts s.cur.place = some x) (f : Script → Script) :
    ScriptAfter s (updScript s s.cur.place f) (f x) := by
  refine ⟨rfl, fun _ => ?_, fun k hk => ?_⟩
  · show mget (madj _ _ _) _ = _
    rw [mget_madj, if_pos rfl, h]; rfl
  · show mget (madj _ _ _) _ = _
    rw [mget_madj, if_neg (Ne.symm hk)]

theorem cratch_runs {s : State} {x : Script} (h : ScriptRuns s x) (f : Script → State → State) : cratch f s = .next (f x s) := by
  unfold cratch
  rw [h.1]
  dsimp only
  rw [if_neg (by simp [h.2])]

theorem cratchOwn_runs {s : State} {x : Script} (h : ScriptRuns s x) (f : State → Script → Script) :
    cratchOwn f s = .next (updScript s s.cur.place (fun x => { f s x with pc := x.pc + 1 })) := by
  unfold cratchOwn; rw [cratch_runs h]

theorem script_set_reg (x : Script) (r v k : Nat) : (x.set r v).reg k = if r = k then v % 2 ^ 64 else x.reg k := by
  unfold Script.set Script.reg
  dsimp only
  rw [mgetD_mput]
  split <;> simp

/-- A word that sets a q register. -/
theorem setsQ_of {i : Instr} {s : State} {x : Script} {qd : Nat} (v : State → Script → Nat) (h : ScriptRuns s x)
    (he : exec i s = cratchOwn (fun s x => x.set qd (v s x)) s) : SetsQ i s x qd (v s x) := by
  refine ⟨{ x.set qd (v s x) with pc := x.pc + 1 }, ⟨_, he.trans (cratch_runs h _), scriptAfter_upd h.1 _⟩, rfl, ?_, fun r hr => ?_⟩
  · exact (script_set_reg x qd _ qd).trans (if_pos rfl)
  · exact (script_set_reg x qd _ r).trans (if_neg (Ne.symm hr))

/-- A word that sets c. -/
theorem setsC_of {i : Instr} {s : State} {x : Script} {c : Bool} (h : ScriptRuns s x) (he : exec i s = .next (passC s c)) :
    SetsC i s x c := ⟨_, he, scriptAfter_upd h.1 _⟩

/-- A script fault. -/
theorem scriptFault_runs {s : State} {x : Script} (h : ScriptRuns s x) (cause : Nat) :
    scriptFault s s.cur.place cause = agentEnd { s with scripts := mdel s.scripts s.cur.place } x.ctx x.node false cause := by
  unfold scriptFault; rw [h.1]

end Sys2Proof.Claims
end

