-- ==== Sys2Proof/Safety.lean ====
section
/-! DEFINITION. What counts as a safe run: claims about runs are stated in these terms. -/

namespace Sys2Proof.Safety

open Sys2Proof.Machine

/-- A step runs on: it answers a next state. -/
def runsOn (s : State) : Bool :=
  match step s with
  | .next _ => true
  | _ => false

/-- The states that a run from `s` goes through: `s` and what every step after it answers. -/
inductive Reaches (s : State) : State → Prop where
  | here : Reaches s s
  | there (t u : State) : Reaches s t → step t = .next u → Reaches s u

/-- A run is safe from `s` on when no state that it reaches stops the machine. -/
def Safe (s : State) : Prop := ∀ t, Reaches s t → runsOn t = true

/-- `inv` is kept by every step that answers a next state. -/
def Kept (inv : State → Prop) : Prop := ∀ s t, inv s → step s = .next t → inv t

end Sys2Proof.Safety
end

