-- ==== Sys2Proof/Tests/Slice0.lean ====
section
/-! SUPPORT. Tests: the words of the spec decode to what the spec says, ill-formed terms and illegal words are refused, worked examples of
the spec, and for every statement a state and operands that meet its hypotheses. -/

namespace Sys2Proof.Tests

set_option Elab.async false

open Sys2Proof Sys2Proof.Machine Sys2Proof.Claims

/-! ## Words, written out from the encoding tables of the spec -/

abbrev ov (n : Nat) : Opnd := .reg (.v n)
abbrev os (n : Nat) : Opnd := .reg (.s n)
abbrev dv (n : Nat) : Dst := ⟨.v n, false⟩
abbrev ds (n : Nat) : Dst := ⟨.s n, false⟩
abbrev pNop1 : PHalf := ⟨.nop, ⟨0, .reg 0, false, 0⟩⟩

/-- 01 Tables word-4, word-14: the integer words, with d v5 (v4 at 64 bits), a v17 (v16) and b s9. -/
theorem test_decode_integer :
    decodeCore 0x0010014116240000 = .ok (.iadd ⟨dv 5, ov 17, os 9, .n32, false⟩) ∧
    decodeCore 0x0020014116240012 = .ok (.isub ⟨dv 5, ov 17, os 9, .i32, true⟩) ∧
    decodeCore 0x0030010106240020 = .ok (.imul ⟨dv 4, ov 16, os 9, .n64, false⟩) ∧
    decodeCore 0x0040014116240010 = .ok (.imulh ⟨dv 5, ov 17, os 9, .i32, false⟩) ∧
    decodeCore 0x0050014116242112 = .ok (.imad ⟨dv 5, ov 17, os 9, ov 33, .i32, true⟩) ∧
    decodeCore 0x0060010116242210 = .ok (.imadw ⟨dv 4, ov 17, os 9, ov 34, .i32, false⟩) ∧
    decodeCore 0x0070014116240040 = .ok (.imin ⟨dv 5, ov 17, os 9, .n16, false⟩) ∧
    decodeCore 0x0080014116240070 = .ok (.imax ⟨dv 5, ov 17, os 9, .i8, false⟩) ∧
    decodeCore 0x0090014110000012 = .ok (.iabs ⟨dv 5, ov 17, .i32, true⟩) ∧
    decodeCore 0x018000C11624001A = .ok (.icmp ⟨⟨3, false⟩, ov 17, os 9, .i32, .ge⟩) := by
  decide

/-- 01 Table word-14, 04 R125, R126: the logic, shift, bit-field and address words. -/
theorem test_decode_logic :
    decodeCore 0x00A0014116240000 = .ok (.and ⟨dv 5, ov 17, os 9, .n32, false⟩) ∧
    decodeCore 0x00B0010106240020 = .ok (.or ⟨dv 4, ov 16, os 9, .n64, false⟩) ∧
    decodeCore 0x00C0014116240000 = .ok (.xor ⟨dv 5, ov 17, os 9, .n32, false⟩) ∧
    decodeCore 0x00D0014116240000 = .ok (.andn ⟨dv 5, ov 17, os 9, .n32, false⟩) ∧
    decodeCore 0x00E0014116240000 = .ok (.shl ⟨dv 5, ov 17, os 9, .n32, false⟩) ∧
    decodeCore 0x00F0010106240020 = .ok (.shr ⟨dv 4, ov 16, os 9, .n64, false⟩) ∧
    decodeCore 0x0100014116240010 = .ok (.sar ⟨dv 5, ov 17, os 9, .i32, false⟩) ∧
    decodeCore 0x0110014116240000 = .ok (.rotr ⟨dv 5, ov 17, os 9, .n32, false⟩) ∧
    decodeCore 0x0120014100000020 = .ok (.popc ⟨dv 5, ov 16, .n64, false⟩) ∧
    decodeCore 0x0130014110000000 = .ok (.clz ⟨dv 5, ov 17, .n32, false⟩) ∧
    decodeCore 0x0140014110000000 = .ok (.brev ⟨dv 5, ov 17, .n32, false⟩) ∧
    decodeCore 0x0150014116240010 = .ok (.bfx ⟨dv 5, ov 17, os 9, .i32, false⟩) ∧
    decodeCore 0x0160014116242100 = .ok (.bfi ⟨dv 5, ov 17, os 9, ov 33, .n32, false⟩) ∧
    decodeCore 0x0175625D070C0000 = .ok (.lea ⟨ds 9, .konst .zero, .spec .block, 5, .n32⟩) := by
  decide

/-- 02 R80-R83, 04 R128: the words that move values. -/
theorem test_decode_moves :
    decodeCore 0x01A201C010080000 = .ok (.sel ⟨⟨false, 2⟩, dv 7, ov 1, ov 2, false⟩) ∧
    decodeCore 0x01B0016010000000 = .ok (.mov ⟨dv 5, .latch 2, false⟩) ∧
    decodeCore 0x820080000061A800 = .ok (.movi ⟨⟨.v 0, true⟩, .plain, 100000⟩) ∧
    decodeCore 0x820060FFFFFFFF82 = .ok (.movi ⟨ds 3, .hi, 0xFFFFFFFE⟩) ∧
    decodeCore 0x01C06080574C0000 = .ok (.movs ⟨ds 2, ov 5, .konst .two, false⟩) ∧
    decodeCore 0x01C0011837440060 = .ok (.movsSl ⟨dv 4, os 3, .konst .one, true⟩) ∧
    decodeCore 0x019000C0100807C0 = .ok (.plog ⟨⟨3, false⟩, 1, 2, 7, 0xC0⟩) := by
  decide

/-- 01 Tables word-4, word-15: the FP32 words. -/
theorem test_decode_fp32 :
    decodeCore 0x0800014116240080 = .ok (.fadd ⟨dv 5, ov 17, os 9, .rn, false⟩) ∧
    decodeCore 0x0810014116240085 = .ok (.fsub ⟨dv 5, ov 17, os 9, .rz, true⟩) ∧
    decodeCore 0x0820050286140080 = .ok (.fmul ⟨dv 20, ov 40, os 5, .rn, false⟩) ∧
    decodeCore 0x08300280B60A0080 = .ok (.ffma ⟨dv 10, ov 11, os 2, .latch 1, .rn, false⟩) ∧
    decodeCore 0x0840014116240080 = .ok (.fmin ⟨dv 5, ov 17, os 9, .rn, false⟩) ∧
    decodeCore 0x0850014116240081 = .ok (.fmax ⟨dv 5, ov 17, os 9, .rn, true⟩) ∧
    decodeCore 0x086000811624008B = .ok (.fcmp ⟨⟨2, false⟩, ov 17, os 9, .ge, true⟩) ∧
    decodeCore 0x08700081100103A0 = .ok (.fcls ⟨⟨2, false⟩, ov 17, 0x103, .f16⟩) ∧
    decodeCore 0x0A00014110000088 = .ok (.frcp ⟨dv 5, ov 17, .rp, false⟩) ∧
    decodeCore 0x0A10014110000080 = .ok (.frsq ⟨dv 5, ov 17, .rn, false⟩) ∧
    decodeCore 0x0A2001411000008C = .ok (.fsqt ⟨dv 5, ov 17, .rm, false⟩) ∧
    decodeCore 0x0A30014116240084 = .ok (.fdiv ⟨dv 5, ov 17, os 9, .rz, false⟩) ∧
    decodeCore 0x0A40014110000081 = .ok (.fex2 ⟨dv 5, ov 17, .rn, true⟩) ∧
    decodeCore 0x0A50014110000080 = .ok (.flg2 ⟨dv 5, ov 17, .rn, false⟩) ∧
    decodeCore 0x0A60014110000080 = .ok (.fsin ⟨dv 5, ov 17, .rn, false⟩) ∧
    decodeCore 0x0A70014110000080 = .ok (.fcos ⟨dv 5, ov 17, .rn, false⟩) ∧
    decodeCore 0x0A80014110000080 = .ok (.ftnh ⟨dv 5, ov 17, .rn, false⟩) := by
  decide

/-- 01 Table word-15: the packed and FP64 words. -/
theorem test_decode_packed :
    decodeCore 0x08800141162400A0 = .ok (.hadd2 ⟨dv 5, ov 17, os 9, false, .rn, false⟩) ∧
    decodeCore 0x08900141162400B5 = .ok (.hmul2 ⟨dv 5, ov 17, os 9, true, .rz, true⟩) ∧
    decodeCore 0x08A00141162421B0 = .ok (.hfma2 ⟨dv 5, ov 17, os 9, ov 33, true, .rn, false⟩) ∧
    decodeCore 0x0900010106240098 = .ok (.dadd ⟨dv 4, ov 16, os 9, .rp, false⟩) ∧
    decodeCore 0x0910010106240090 = .ok (.dmul ⟨dv 4, ov 16, os 9, .rn, false⟩) ∧
    decodeCore 0x0920010106242291 = .ok (.dfma ⟨dv 4, ov 16, os 9, ov 34, .rn, true⟩) ∧
    decodeCore 0x093000810624009E = .ok (.dcmp ⟨⟨2, false⟩, ov 16, os 9, .nan, false⟩) := by
  decide

/-- 04 R138-R148, Table arith-6: the conversion words. -/
theorem test_decode_convert :
    decodeCore 0x100B0141000000A9 = .ok (.cvt ⟨dv 5, ov 16, .f16, .f64, .rm, false, true⟩) ∧
    decodeCore 0x10100240C60C00C8 = .ok (.cvts ⟨dv 9, ov 12, os 3, .f8m, .f32, .rn, false⟩) ∧
    decodeCore 0x10206158600011E6 = .ok (.scsel ⟨ds 5, os 6, .bz4, 3, 17⟩) ∧
    decodeCore 0x10350501561016D8 = .ok (.efq ⟨dv 20, ov 21, os 4, 22, .f8e, 2, .rz, true⟩) ∧
    decodeCore 0x10460141062400E8 = .ok (.bzpk ⟨dv 5, ov 16, os 9, .bz4, .f32, .rp, true⟩) ∧
    decodeCore 0x105002011000008E = .ok (.bzup ⟨dv 8, ov 17, .f32, .bz4⟩) ∧
    decodeCore 0x10630141162400DB = .ok (.f8pk ⟨dv 5, ov 17, os 9, .f8e, .bf16, .rm, false⟩) ∧
    decodeCore 0x10700181100000AC = .ok (.f8up ⟨dv 6, ov 17, .f16, .f8m⟩) ∧
    decodeCore 0x108007C1E6499380 = .ok (.scacc ⟨dv 31, ov 30, os 18, os 19, .rn, false⟩) := by
  decide

/-- 04 Table arith-8: the cross-lane words. -/
theorem test_decode_crossLane :
    decodeCore 0x180001411744008C = .ok (.shfl ⟨dv 5, ov 17, .konst .one, .down, false, .s16⟩) ∧
    decodeCore 0x181001411000001B = .ok (.shfx ⟨dv 5, ov 17, 0x1B⟩) ∧
    decodeCore 0x1820010106240020 = .ok (.bcst ⟨dv 4, ov 16, os 9, true⟩) ∧
    decodeCore 0x1830008030000000 = .ok (.vote (.any ⟨2, false⟩ 3)) ∧
    decodeCore 0x1830618030000080 = .ok (.vote (.ballot ⟨.s 6, false⟩ 3)) ∧
    decodeCore 0x18300081000000E0 = .ok (.vote (.eq ⟨2, false⟩ (ov 16) true)) ∧
    decodeCore 0x1840628060000080 = .ok (.redt ⟨ds 10, ov 6, .f32, .add, false⟩) ∧
    decodeCore 0x185001411000001B = .ok (.scan ⟨dv 5, ov 17, .i32, .xor, true⟩) ∧
    decodeCore 0x1860000116240040 = .ok (.redx ⟨ov 17, some (os 9)⟩) ∧
    decodeCore 0x1870010000000098 = .ok (.lacr ⟨dv 4, true, .rp⟩) ∧
    decodeCore 0x1880000000000000 = .ok (.lacz) := by
  decide

/-- 05 Table group-7, 02 R84, R85, Table register-6: the control words. -/
theorem test_decode_control :
    decodeCore 0x2007000000000003 = .ok (.braAny ⟨false, 7⟩ 3) ∧
    decodeCore 0x201900000003FFFB = .ok (.braAll ⟨true, 1⟩ (-5)) ∧
    decodeCore 0x2020001840000000 = .ok (.brx (os 4) 0) ∧
    decodeCore 0x20306F800000000A = .ok (.call 62 10) ∧
    decodeCore 0x2040001BE0000000 = .ok (.ret (os 62)) ∧
    decodeCore 0x20500000000000FF = .ok (.regang (.imm 0xFF)) ∧
    decodeCore 0x2050001870010000 = .ok (.regang (.sreg 7)) ∧
    decodeCore 0x2060001810000003 = .ok (.loopOperand (os 1) 3) ∧
    decodeCore 0xA070000000C00300 = .ok (.loopImmediate 3 12) ∧
    decodeCore 0x2080000000000000 = .ok (.yield) ∧
    decodeCore 0x2090000000000000 = .ok (.nop) ∧
    decodeCore 0x20A0000000000000 = .ok (.exit) ∧
    decodeCore 0x20B0000000000042 = .ok (.trap 0x42) ∧
    decodeCore 0x20C0000000000000 = .ok (.bkpt 0) ∧
    decodeCore 0x2100000000000002 = .ok (.racq 2) ∧
    decodeCore 0x2110000000000001 = .ok (.rrel 1) ∧
    decodeCore 0xC103C11000000000 = .ok (.rep ⟨3, some 1, some 1, none, none, 0, 0, 0, 0⟩) := by
  decide

/-- 08 Table barrier-4: the barrier words. -/
theorem test_decode_barrier :
    decodeCore 0x2180000000000081 = .ok (.bar 1 (.imm 8)) ∧
    decodeCore 0x2180001890000203 = .ok (.bar 3 (.opnd (os 9))) ∧
    decodeCore 0x2190800000000000 = .ok (.bara ⟨.v 0, true⟩ 0 (.imm 0)) ∧
    decodeCore 0x21A0001890000010 = .ok (.barw (os 9) 0 true) ∧
    decodeCore 0x21B0625830000802 = .ok (.cbar (ds 9) 2 (.opnd (os 3))) := by
  decide

/-- 01 Tables word-10, word-11: the P words, by the opcode of half 0, beside a NOP in half 1. -/
theorem test_decode_pairs :
    decodeCore 0x4000000000000000 = .ok (.pNop ⟨0, .reg 0, false, 0⟩ pNop1) ∧
    decodeCore 0x4081008000000000 = .ok (.pMov ⟨2, .reg 1, false, 0⟩ pNop1) ∧
    decodeCore 0x410101E000000000 = .ok (.pIadd ⟨2, .latch 4, true, 0⟩ pNop1) ∧
    decodeCore 0x4181008000000000 = .ok (.pIsub ⟨2, .reg 1, false, 0⟩ pNop1) ∧
    decodeCore 0x42017F1000000000 = .ok (.pImul ⟨2, .imm 0xFE, false, 0⟩ pNop1) ∧
    decodeCore 0x4281039680000000 = .ok (.pIaddi ⟨2, .imm 7, false, 13⟩ pNop1) ∧
    decodeCore 0x4301008000000000 = .ok (.pAnd ⟨2, .reg 1, false, 0⟩ pNop1) ∧
    decodeCore 0x4381008000000000 = .ok (.pOr ⟨2, .reg 1, false, 0⟩ pNop1) ∧
    decodeCore 0x4401008000000000 = .ok (.pXor ⟨2, .reg 1, false, 0⟩ pNop1) ∧
    decodeCore 0x4481008000000000 = .ok (.pAndn ⟨2, .reg 1, false, 0⟩ pNop1) ∧
    decodeCore 0x4501008000000000 = .ok (.pShl ⟨2, .reg 1, false, 0⟩ pNop1) ∧
    decodeCore 0x4581008000000000 = .ok (.pShr ⟨2, .reg 1, false, 0⟩ pNop1) := by
  decide

/-- 01 Tables word-10, word-11: the rest of the P words. -/
theorem test_decode_pairs2 :
    decodeCore 0x4601008000000000 = .ok (.pSar ⟨2, .reg 1, false, 0⟩ pNop1) ∧
    decodeCore 0x4681008080000000 = .ok (.pImin ⟨2, .reg 1, false, 1⟩ pNop1) ∧
    decodeCore 0x4701008000000000 = .ok (.pImax ⟨2, .reg 1, false, 0⟩ pNop1) ∧
    decodeCore 0x4781008000000000 = .ok (.pRotr ⟨2, .reg 1, false, 0⟩ pNop1) ∧
    decodeCore 0x4801008280000000 = .ok (.pFadd ⟨2, .reg 1, false, 5⟩ pNop1) ∧
    decodeCore 0x4881008000000000 = .ok (.pFsub ⟨2, .reg 1, false, 0⟩ pNop1) ∧
    decodeCore 0x4901201000000000 = .ok (.pFmul ⟨2, .imm 0x40, false, 0⟩ pNop1) ∧
    decodeCore 0x4981008200000000 = .ok (.pFmin ⟨2, .reg 1, false, 4⟩ pNop1) ∧
    decodeCore 0x4A01008000000000 = .ok (.pFmax ⟨2, .reg 1, false, 0⟩ pNop1) ∧
    decodeCore 0x4A81008480000000 = .ok (.pHadd2 ⟨2, .reg 1, false, 9⟩ pNop1) ∧
    decodeCore 0x4B01008000000000 = .ok (.pHmul2 ⟨2, .reg 1, false, 0⟩ pNop1) ∧
    decodeCore 0x4B81008000000000 = .ok (.pClz ⟨2, .reg 1, false, 0⟩ pNop1) ∧
    decodeCore 0x4101008012024020 = .ok (.pIadd ⟨2, .reg 1, false, 0⟩ ⟨.fmul, ⟨2, .imm 0x40, false, 0⟩⟩) := by
  decide

/-- 01 Tables word-3, word-5, 07 Table access-6: loads, stores and the cache words. -/
theorem test_decode_memory :
    decodeCore 0x2800005847400480 = .ok (.ld ⟨dv 1, ⟨os 4, .konst .zero, 4⟩, .b32, none, false⟩) ∧
    decodeCore 0x280001984047FEB8 = .ok (.ld ⟨dv 6, ⟨os 4, ov 17, -2⟩, .b64, some .dev, false⟩) ∧
    decodeCore 0x2817009847400098 = .ok (.st ⟨⟨false, 7⟩, .v 2, ⟨os 4, .konst .zero, 0⟩, .b32, some .dev, false⟩) ∧
    decodeCore 0x282000C017400280 = .ok (.lds ⟨dv 3, ⟨ov 1, .konst .zero, 2⟩, .b32, none, false⟩) ∧
    decodeCore 0x283A008110480300 = .ok (.sts ⟨⟨true, 2⟩, .v 2, ⟨ov 17, ov 18, 3⟩, .n8, none, false⟩) ∧
    decodeCore 0x28400218474001C0 = .ok (.ldw ⟨dv 8, ⟨os 4, .konst .zero, 1⟩, .b128, none, false⟩) ∧
    decodeCore 0x28570198474001A0 = .ok (.stw ⟨⟨false, 7⟩, .v 6, ⟨os 4, .konst .zero, 1⟩, .b64, none, false⟩) ∧
    decodeCore 0x2860005D07400260 = .ok (.ldc ⟨dv 1, ⟨.konst .zero, .konst .zero, 2⟩, .i16, none, false⟩) ∧
    decodeCore 0x2870001847404001 = .ok (.pref ⟨⟨os 4, .konst .zero, 64⟩, true⟩) ∧
    decodeCore 0x2880001847404001 = .ok (.cflsh ⟨⟨os 4, .konst .zero, 64⟩, true⟩) ∧
    decodeCore 0x2890001847404000 = .ok (.cinv ⟨⟨os 4, .konst .zero, 64⟩, false⟩) ∧
    decodeCore 0x28A0000000000018 = .ok (.fence .dev .rel) ∧
    decodeCore 0x28B0000000004000 = .ok (.waitc 4 (.imm 0)) ∧
    decodeCore 0x28B0001870004800 = .ok (.waitc 4 (.opnd (os 7))) := by
  decide

/-- 01 Table word-19, 07 R265: the atomics. -/
theorem test_decode_atomics :
    decodeCore 0x2907029847400C88 = .ok (.atomAdd ⟨⟨false, 7⟩, dv 10, os 4, .konst .zero, ov 12, false, .dev, false⟩) ∧
    decodeCore 0x2917029847400C89 = .ok (.atomMin ⟨⟨false, 7⟩, dv 10, os 4, .konst .zero, ov 12, false, .dev, true⟩) ∧
    decodeCore 0x2927029847400C88 = .ok (.atomMax ⟨⟨false, 7⟩, dv 10, os 4, .konst .zero, ov 12, false, .dev, false⟩) ∧
    decodeCore 0x2937029847400C88 = .ok (.atomAnd ⟨⟨false, 7⟩, dv 10, os 4, .konst .zero, ov 12, false, .dev, false⟩) ∧
    decodeCore 0x2947029847400C88 = .ok (.atomOr ⟨⟨false, 7⟩, dv 10, os 4, .konst .zero, ov 12, false, .dev, false⟩) ∧
    decodeCore 0x2957029847400C88 = .ok (.atomXor ⟨⟨false, 7⟩, dv 10, os 4, .konst .zero, ov 12, false, .dev, false⟩) ∧
    decodeCore 0x2967029847400C88 = .ok (.atomExch ⟨⟨false, 7⟩, dv 10, os 4, .konst .zero, ov 12, false, .dev, false⟩) ∧
    decodeCore 0x2977029847400C88 = .ok (.atomCas ⟨⟨false, 7⟩, dv 10, os 4, .konst .zero, ov 12, false, .dev, false⟩) ∧
    decodeCore 0x2987029847400C88 = .ok (.atomFadd ⟨⟨false, 7⟩, dv 10, os 4, .konst .zero, ov 12, false, .dev, false⟩) ∧
    decodeCore 0x2A07028117400C82 = .ok (.atomsAdd ⟨⟨false, 7⟩, dv 10, ov 17, .konst .zero, ov 12, false, .block, false⟩) ∧
    decodeCore 0x2A17028117400C83 = .ok (.atomsMin ⟨⟨false, 7⟩, dv 10, ov 17, .konst .zero, ov 12, false, .block, true⟩) ∧
    decodeCore 0x2A27028117400C82 = .ok (.atomsMax ⟨⟨false, 7⟩, dv 10, ov 17, .konst .zero, ov 12, false, .block, false⟩) ∧
    decodeCore 0x2A37028117400C82 = .ok (.atomsAnd ⟨⟨false, 7⟩, dv 10, ov 17, .konst .zero, ov 12, false, .block, false⟩) ∧
    decodeCore 0x2A47028117400C82 = .ok (.atomsOr ⟨⟨false, 7⟩, dv 10, ov 17, .konst .zero, ov 12, false, .block, false⟩) ∧
    decodeCore 0x2A57028117400C82 = .ok (.atomsXor ⟨⟨false, 7⟩, dv 10, ov 17, .konst .zero, ov 12, false, .block, false⟩) ∧
    decodeCore 0x2A67028117400C82 = .ok (.atomsExch ⟨⟨false, 7⟩, dv 10, ov 17, .konst .zero, ov 12, false, .block, false⟩) ∧
    decodeCore 0x2A77028117400C82 = .ok (.atomsCas ⟨⟨false, 7⟩, dv 10, ov 17, .konst .zero, ov 12, false, .block, false⟩) ∧
    decodeCore 0x2A87028117400C82 = .ok (.atomsFadd ⟨⟨false, 7⟩, dv 10, ov 17, .konst .zero, ov 12, false, .block, false⟩) := by
  decide

/-- 15 Table link-4: the remote words. -/
theorem test_decode_remote :
    decodeCore 0x2B00005846140480 = .ok (.rld ⟨dv 1, os 4, os 5, 4, .b32⟩) ∧
    decodeCore 0x2B17009846140080 = .ok (.rst ⟨⟨false, 7⟩, .v 2, os 4, os 5, 0, .b32⟩) ∧
    decodeCore 0x2B27009846158680 = .ok (.rstf ⟨⟨false, 7⟩, .v 2, os 4, os 5, os 6, .b32⟩) ∧
    decodeCore 0x2B3000000000000A = .ok (.rfence) ∧
    decodeCore 0x2B87029846140C8A = .ok (.ratomAdd ⟨⟨false, 7⟩, dv 10, os 4, os 5, ov 12, false, false⟩) ∧
    decodeCore 0x2B97029846140C8B = .ok (.ratomMin ⟨⟨false, 7⟩, dv 10, os 4, os 5, ov 12, false, true⟩) ∧
    decodeCore 0x2BA7029846140C8A = .ok (.ratomMax ⟨⟨false, 7⟩, dv 10, os 4, os 5, ov 12, false, false⟩) ∧
    decodeCore 0x2BB7029846140C8A = .ok (.ratomAnd ⟨⟨false, 7⟩, dv 10, os 4, os 5, ov 12, false, false⟩) ∧
    decodeCore 0x2BC7029846140C8A = .ok (.ratomOr ⟨⟨false, 7⟩, dv 10, os 4, os 5, ov 12, false, false⟩) ∧
    decodeCore 0x2BD7029846140C8A = .ok (.ratomXor ⟨⟨false, 7⟩, dv 10, os 4, os 5, ov 12, false, false⟩) ∧
    decodeCore 0x2BE7029846140C8A = .ok (.ratomExch ⟨⟨false, 7⟩, dv 10, os 4, os 5, ov 12, false, false⟩) ∧
    decodeCore 0x2BF7029846140C8A = .ok (.ratomCas ⟨⟨false, 7⟩, dv 10, os 4, os 5, ov 12, false, false⟩) ∧
    decodeCore 0x2C07029846140C8A = .ok (.ratomFadd ⟨⟨false, 7⟩, dv 10, os 4, os 5, ov 12, false, false⟩) := by
  decide

/-- 09 Tables copy-1, copy-2, 06 R227: the copy words and PUBL. -/
theorem test_decode_copies :
    decodeCore 0x3000651880000020 = .ok (.copy ⟨ds 20, 2, none, none, .ic, .dev, false, false⟩) ∧
    decodeCore 0x30006518C000006E = .ok (.copy ⟨ds 20, 3, none, none, .node, .domain, true, true⟩) ∧
    decodeCore 0x30106518860D899D = .ok (.copy2 ⟨ds 20, 2, some (os 3), some (os 9), .sig, .stk, true, false⟩) ∧
    decodeCore 0x30206518C0000020 = .ok (.copyf ⟨ds 20, 3, none, none, .ic, .dev, false, false⟩) ∧
    decodeCore 0x3030651880000008 = .ok (.copyw ⟨ds 20, 2, none, none, .ic, .block, false, false⟩) ∧
    decodeCore 0x30406518860989A9 = .ok (.copyr ⟨ds 20, 2, some (os 2), some (os 9), .sig, .domain, false, false⟩) ∧
    decodeCore 0x3050655940000000 = .ok (.cprog (ds 21) (os 20)) ∧
    decodeCore 0x3060801940000000 = .ok (.ckill ⟨.v 0, true⟩ (os 20)) ∧
    decodeCore 0x3080619850000000 = .ok (.publ (ds 6) (os 5)) := by
  decide

/-- 10 Table pass-6: the pass words. -/
theorem test_decode_passes :
    decodeCore 0x3100001900000000 = .ok (.harn 0 (os 16)) ∧
    decodeCore 0x3110655880000070 = .ok (.mpass ⟨ds 21, 0, os 8, 7, false, false, false, false⟩) ∧
    decodeCore 0x312A655880000035 = .ok (.mspass ⟨ds 21, 5, os 8, 3, true, false, true, false⟩) ∧
    decodeCore 0x3130659880000000 = .ok (.mlut ⟨ds 22, os 8, 0, false, false, false⟩) ∧
    decodeCore 0x3136659880000010 = .ok (.mlut ⟨ds 22, os 8, 1, false, true, true⟩) ∧
    decodeCore 0x314007800000649B = .ok (.accrd ⟨30, 3, 100, 9, true⟩) ∧
    decodeCore 0x3150078000006493 = .ok (.accwr ⟨30, 3, 100, 9, false⟩) ∧
    decodeCore 0x3160000000000026 = .ok (.accz .b48 6) ∧
    decodeCore 0x317060D840000000 = .ok (.mprog (ds 3) (os 4)) ∧
    decodeCore 0x317060D846140001 = .ok (.mprogW (ds 3) (os 4) (os 5)) := by
  decide

/-- 11 Table sketch-9: the sketch words. -/
theorem test_decode_sketch :
    decodeCore 0x3200001900100601 = .ok (.skupd ⟨2, ov 4, ov 6, true⟩) ∧
    decodeCore 0x3210021900000600 = .ok (.skqry ⟨dv 8, 2, ov 6, false⟩) ∧
    decodeCore 0x3220001906600000 = .ok (.skadd 2 3) ∧
    decodeCore 0x3230001900000000 = .ok (.skclr 2) := by
  decide

/-- 08 R280, R290, Table barrier-6, 12 Table kernel-12: task, wait, bucket and launch words. -/
theorem test_decode_waits :
    decodeCore 0x3300001887440000 = .ok (.tdec (os 8) (.konst .one)) ∧
    decodeCore 0x331000588741D200 = .ok (.twait 1 (os 8) (.konst .zero) (.konst .mone)) ∧
    decodeCore 0x332000984615D258 = .ok (.flgw ⟨2, os 4, os 5, .konst .mone, .geu, true, true⟩) ∧
    decodeCore 0x334000D82001D200 = .ok (.bkw 3 (os 2) (.konst .mone)) ∧
    decodeCore 0x33306298B6300000 = .ok (.bkarm (ds 10) (os 11) (os 12)) ∧
    decodeCore 0x33306298B0000001 = .ok (.bkarmOff (ds 10) (os 11)) ∧
    decodeCore 0x3380629846140000 = .ok (.lnch (ds 10) (os 4) (os 5)) ∧
    decodeCore 0x3390629846140001 = .ok (.reln ⟨ds 10, os 4, os 5, .node⟩) := by
  decide

/-- 14 Table context-8, 06 Table page-10: the system words; the two rows of FCTX, and of FSWP, share one word. -/
theorem test_decode_system :
    decodeCore 0x380060C000000000 = .ok (.csrr (ds 3) 0) ∧
    decodeCore 0x3810001850000002 = .ok (.csrw 2 (os 5)) ∧
    decodeCore 0x3820001840000000 = .ok (.tlbiVa 4) ∧
    decodeCore 0x3820000000000001 = .ok (.tlbiCtx) ∧
    decodeCore 0x3820000000000002 = .ok (.tlbiAll) ∧
    decodeCore 0x3830000000000000 = .ok (.halt) ∧
    decodeCore 0x3830000000000001 = .ok (.haltDev) ∧
    decodeCore 0x3F00629846140000 = .ok (.fret (ds 10) (os 4) (os 5)) ∧
    decodeCore 0x3F10629846140000 = .ok (.fctxBind (ds 10) (os 4) (os 5)) ∧
    decodeCore 0x3F20629846140000 = .ok (.fswpOut (ds 10) (os 4) (os 5)) := by
  decide

/-- 11 Tables sketch-7a, sketch-8: the words of the NMU. -/
theorem test_decode_nmu :
    decodeNmu 0x04007F80 = .ok (.nldv ⟨0, 0, false, 256⟩) ∧
    decodeNmu 0x08217F80 = .ok (.nstv ⟨1, 0, true, 256⟩) ∧
    decodeNmu 0x10B14801 = .ok (.nadd ⟨5, 17, 9, .rz⟩) ∧
    decodeNmu 0x14B14802 = .ok (.nsub ⟨5, 17, 9, .rp⟩) ∧
    decodeNmu 0x18B14803 = .ok (.nmul ⟨5, 17, 9, .rm⟩) ∧
    decodeNmu 0x1C201040 = .ok (.nfma ⟨1, 0, 2, 1, .rn⟩) ∧
    decodeNmu 0x20B14800 = .ok (.nmin ⟨5, 17, 9, .rn⟩) ∧
    decodeNmu 0x24B14800 = .ok (.nmax ⟨5, 17, 9, .rn⟩) ∧
    decodeNmu 0x28B10000 = .ok (.nrsq 5 17) ∧
    decodeNmu 0x2CB10201 = .ok (.ncvt 5 17 .bf16f32 .rz) ∧
    decodeNmu 0x40043FE0 = .ok (.nsku 0 2 1 256) ∧
    decodeNmu 0x440420E0 = .ok (.nskq 0 2 1 8) ∧
    decodeNmu 0x480A6000 = .ok (.nska 3 5) ∧
    decodeNmu 0x4C006000 = .ok (.nskc 3) ∧
    decodeNmu 0x60200000 = .ok (.nsetImm 1 0) ∧
    decodeNmu 0x60990000 = .ok (.nsetReg 4 9) ∧
    decodeNmu 0x64880100 = .ok (.naddi 2 2 0 256) ∧
    decodeNmu 0x701F4007 = .ok (.nloopImm 500 7) ∧
    decodeNmu 0x72600004 = .ok (.nloopReg 3 4) ∧
    decodeNmu 0x74D0FFFC = .ok (.nbra .nz 3 0xFFFC) ∧
    decodeNmu 0x78D40000 = .ok (.nwait 3 5) ∧
    decodeNmu 0x7CC00000 = .ok (.nsig 3) ∧
    decodeNmu 0x80000000 = .ok (.nfence) ∧
    decodeNmu 0xFC000000 = .ok (.nend) := by
  decide

/-- 16 Table circuit-7: the words of scripts. -/
theorem test_decode_cratch :
    decodeCratch 0x05120000 = .ok (.movqReg 4 9) ∧
    decodeCratch 0x05FFFFFF = .ok (.movqImm 7 (-1)) ∧
    decodeCratch 0x0BF5C000 = .ok (.addqReg 15 13 14) ∧
    decodeCratch 0x08D60007 = .ok (.addqImm 3 5 7) ∧
    decodeCratch 0x0CD4C000 = .ok (.subqReg 3 5 6) ∧
    decodeCratch 0x0CD7FFFE = .ok (.subqImm 3 5 (-2)) ∧
    decodeCratch 0x10D14000 = .ok (.cmpqReg .ltu 3 5) ∧
    decodeCratch 0x13C40002 = .ok (.cmpqImm .eq 15 2) ∧
    decodeCratch 0x14A00006 = .ok (.brq true 2 6) ∧
    decodeCratch 0x1A000005 = .ok (.brc .nc 5) ∧
    decodeCratch 0x20840000 = .ok (.creq 2 1) ∧
    decodeCratch 0x2504C000 = .ok (.cwait .live 4 1 3) ∧
    decodeCratch 0x28400000 = .ok (.crel 1) ∧
    decodeCratch 0x2CD40000 = .ok (.cstat 3 5) ∧
    decodeCratch 0x31440000 = .ok (.buck 5 1) ∧
    decodeCratch 0x31420000 = .ok (.buckOff 5) ∧
    decodeCratch 0x34D40000 = .ok (.park 3 5) ∧
    decodeCratch 0x38D40000 = .ok (.wake 3 5) ∧
    decodeCratch 0x3CD40000 = .ok (.setw 3 5) ∧
    decodeCratch 0x41740000 = .ok (.msg 5 13) ∧
    decodeCratch 0x4799C000 = .ok (.mrcv 14 6 7) ∧
    decodeCratch 0x48D40000 = .ok (.tsig 3 5) ∧
    decodeCratch 0x4DA1C000 = .ok (.twt 6 8 7) ∧
    decodeCratch 0x50C00000 = .ok (.time 3) ∧
    decodeCratch 0x54C00000 = .ok (.dlyReg 3) ∧
    decodeCratch 0x54200028 = .ok (.dlyImm 40) ∧
    decodeCratch 0x58800000 = .ok (.evt 2) ∧
    decodeCratch 0x5C000000 = .ok (.endScript) := by
  decide

/-! ## Words that are none, and ill-formed terms -/

/-- 01 Table word-13: the all-zero and the all-ones word, an unassigned opcode, an unassigned prefix kind and P opcode. -/
theorem test_illegal_words :
    decodeCore 0 = .illegalOpcode ∧ decodeCore 0xFFFFFFFFFFFFFFFF = .illegalOpcode ∧ decodeCore 0x01D0000000000000 = .illegalOpcode ∧
    decodeCore 0xC200000000000000 = .illegalOpcode ∧ decodeCore 0x4C00000000000000 = .illegalOpcode ∧
    decodeNmu 0 = .illegalOpcode ∧ decodeCratch 0 = .illegalOpcode ∧ decodeCratch 0x60000000 = .illegalOpcode := by
  decide

/-- 01 Table word-13: an assigned F opcode in X form, a stray mod bit, a reserved operand code, destination code and latch, an odd 64-bit
code, $half in an integer word, a reserved type, and a P half with sl and si; a stray bit in an NMU word and in a script's word. -/
theorem test_reserved_words :
    decodeCore 0x8010000000000000 = .reservedEncoding ∧ decodeCore 0x001100C010080010 = .reservedEncoding ∧
    decodeCore 0x001000DCD0080010 = .reservedEncoding ∧ decodeCore 0x0010700010080010 = .reservedEncoding ∧
    decodeCore 0x001000E080080010 = .reservedEncoding ∧ decodeCore 0x001000C010080020 = .reservedEncoding ∧
    decodeCore 0x001000DD40080010 = .reservedEncoding ∧ decodeCore 0x001000C0100800F0 = .reservedEncoding ∧
    decodeCore 0x410100B000000000 = .reservedEncoding ∧ decodeNmu 0xFC000001 = .reservedEncoding ∧
    decodeCratch 0x5C000001 = .reservedEncoding := by
  decide

/-- Registers, widths, constants and latches (01 R33, R34, R36, Table word-6). -/
theorem test_ill_formed_operands :
    Instr.wf (.iadd ⟨dv 384, ov 1, ov 2, .n32, false⟩) = false ∧ Instr.wf (.iadd ⟨dv 3, os 64, ov 2, .n32, false⟩) = false ∧
    Instr.wf (.iadd ⟨dv 3, ov 2, ov 4, .n64, false⟩) = false ∧ Instr.wf (.iadd ⟨dv 2, ov 3, ov 4, .i64, false⟩) = false ∧
    Instr.wf (.iadd ⟨dv 3, .konst .half, ov 4, .n32, false⟩) = false ∧ Instr.wf (.iadd ⟨dv 3, .latch 9, ov 4, .n32, false⟩) = false ∧
    Instr.wf (.iadd ⟨dv 3, .latch 0, ov 4, .n32, false⟩) = false ∧ Instr.wf (.bzup ⟨dv 8, .konst .one, .f32, .bz4⟩) = false ∧
    Instr.wf (.icmp ⟨⟨8, false⟩, ov 1, ov 2, .n32, .eq⟩) = false ∧ Instr.wf (.sel ⟨⟨false, 8⟩, dv 1, ov 1, ov 2, false⟩) = false ∧
    Instr.wf (.movs ⟨dv 1, ov 1, ov 2, false⟩) = false ∧ Instr.wf (.movsSl ⟨ds 1, os 1, ov 2, false⟩) = false ∧
    Instr.wf (.movsSl ⟨dv 1, ov 1, ov 2, false⟩) = false ∧ Instr.wf (.cvts ⟨dv 9, ov 13, os 3, .f8m, .f32, .rn, false⟩) = false := by
  decide

/-- Types, modes and options of the words that compute (04). -/
theorem test_ill_formed_arithmetic :
    Instr.wf (.iadd ⟨dv 3, ov 1, ov 2, .f32, false⟩) = false ∧ Instr.wf (.imul ⟨dv 3, ov 1, ov 2, .n16, false⟩) = false ∧
    Instr.wf (.imin ⟨dv 3, ov 1, ov 2, .i32, true⟩) = false ∧ Instr.wf (.iabs ⟨dv 3, ov 1, .n32, false⟩) = false ∧
    Instr.wf (.and ⟨dv 3, ov 1, ov 2, .i32, false⟩) = false ∧ Instr.wf (.sar ⟨dv 3, ov 1, ov 2, .n32, false⟩) = false ∧
    Instr.wf (.imadw ⟨dv 3, ov 1, ov 2, ov 4, .n32, false⟩) = false ∧ Instr.wf (.bfi ⟨dv 3, ov 1, ov 2, ov 4, .i32, false⟩) = false ∧
    Instr.wf (.lea ⟨ds 3, os 1, os 2, 16, .n32⟩) = false ∧ Instr.wf (.plog ⟨⟨0, false⟩, 1, 2, 8, 0⟩) = false ∧
    Instr.wf (.frsq ⟨dv 3, ov 1, .rz, false⟩) = false ∧ Instr.wf (.fmin ⟨dv 3, ov 1, ov 2, .rz, false⟩) = false ∧
    Instr.wf (.fcls ⟨⟨0, false⟩, ov 1, 512, .f32⟩) = false ∧ Instr.wf (.cvt ⟨dv 3, ov 1, .bz4, .f32, .rn, false, false⟩) = false ∧
    Instr.wf (.cvt ⟨dv 3, ov 1, .i32, .f32, .rn, true, false⟩) = false ∧ Instr.wf (.cvt ⟨dv 3, ov 1, .i32, .f8m, .rn, false, true⟩) = false ∧
    Instr.wf (.scsel ⟨ds 3, os 1, .f8m, 0, 33⟩) = false ∧ Instr.wf (.efq ⟨dv 3, ov 1, os 4, 3, .f8m, 0, .rn, false⟩) = false ∧
    Instr.wf (.efq ⟨dv 3, ov 1, os 4, 5, .f16, 2, .rn, false⟩) = false ∧ Instr.wf (.f8pk ⟨dv 3, ov 1, ov 2, .f8m, .f32, .rn, false⟩) = false ∧
    Instr.wf (.shfx ⟨dv 3, ov 1, 256⟩) = false ∧ Instr.wf (.redt ⟨ds 3, ov 1, .f32, .xor, false⟩) = false ∧
    Instr.wf (.pIaddi ⟨0, .reg 1, false, 0⟩ pNop1) = false ∧ Instr.wf (.pFadd ⟨0, .imm 0x7F, false, 0⟩ pNop1) = false ∧
    Instr.wf (.pNop ⟨1, .reg 0, false, 0⟩ pNop1) = false ∧ Instr.wf (.pMov ⟨192, .reg 0, false, 0⟩ pNop1) = false := by
  decide

/-- Immediates, groups and numbers of the other words (05 to 16). -/
theorem test_ill_formed_others :
    Instr.wf (.braAny ⟨false, 7⟩ 131072) = false ∧ Instr.wf (.loopImmediate 1 0) = false ∧ Instr.wf (.racq 0) = false ∧
    Instr.wf (.racq 5) = false ∧ Instr.wf (.rrel 5) = false ∧ Instr.wf (.trap 262144) = false ∧
    Instr.wf (.rep ⟨256, none, none, none, none, 0, 0, 0, 0⟩) = false ∧ Instr.wf (.rep ⟨1, some 8, none, none, none, 0, 0, 0, 0⟩) = false ∧
    Instr.wf (.ld ⟨dv 5, ⟨os 4, os 5, 0⟩, .b128, none, false⟩) = false ∧ Instr.wf (.ld ⟨dv 4, ⟨os 4, os 5, 0⟩, .b128, some .dev, false⟩) = false ∧
    Instr.wf (.ld ⟨dv 4, ⟨os 4, os 5, 512⟩, .b32, none, false⟩) = false ∧ Instr.wf (.st ⟨⟨false, 7⟩, .v 4, ⟨os 4, os 5, 0⟩, .i8, none, false⟩) = false ∧
    Instr.wf (.ldw ⟨dv 4, ⟨os 4, os 5, 0⟩, .n16, none, false⟩) = false ∧ Instr.wf (.lds ⟨dv 4, ⟨os 4, os 5, 0⟩, .b32, some .block, false⟩) = false ∧
    Instr.wf (.waitc 0 (.imm 0)) = false ∧ Instr.wf (.atomCas ⟨⟨false, 7⟩, dv 1, os 4, os 5, ov 3, false, .dev, false⟩) = false ∧
    Instr.wf (.atomAdd ⟨⟨false, 7⟩, dv 1, os 4, os 5, ov 3, false, .dev, true⟩) = false ∧
    Instr.wf (.atomsAdd ⟨⟨false, 7⟩, dv 1, ov 4, ov 5, ov 3, false, .dev, false⟩) = false ∧
    Instr.wf (.copyf ⟨ds 1, 2, some (os 1), none, .ic, .dev, false, false⟩) = false ∧ Instr.wf (.copy ⟨ds 1, 16, none, none, .ic, .dev, false, false⟩) = false ∧
    Instr.wf (.mspass ⟨ds 1, 0, os 2, 7, false, false, false, false⟩) = false ∧ Instr.wf (.accz .i48 3) = false ∧
    Instr.wf (.skclr 8) = false ∧ Instr.wf (.bar 16 (.imm 0)) = false ∧ Instr.wf (.bar 0 (.imm 17)) = false ∧
    Instr.wf (.barw (os 1) 4 true) = false ∧ Instr.wf (.cbar (ds 1) 0 (.imm 65)) = false ∧ Instr.wf (.csrr (ds 1) 34) = false ∧ Instr.wf (.csrr ⟨.s 1, true⟩ 0) = false ∧ Instr.wf (.mprog ⟨.s 1, true⟩ (os 2)) = false ∧
    Instr.wf (.imadw ⟨dv 4, ov 1, ov 2, .latch 0, .n32, false⟩) = false ∧ Instr.wf (.dadd ⟨dv 4, ov 2, .konst .one, .rn, false⟩) = false ∧
    Instr.wf (.csrw 0 (os 1)) = false ∧ Instr.wf (.nldv ⟨0, 0, false, 257⟩) = false ∧ Instr.wf (.nmin ⟨0, 1, 2, .rz⟩) = false ∧
    Instr.wf (.nloopImm 1 4096) = false ∧ Instr.wf (.movqImm 1 1048576) = false ∧ Instr.wf (.brq true 1 32768) = false ∧
    Instr.wf (.cwait .live 16 0 0) = false := by
  decide

/-! ## Worked examples of the spec -/

/-- A warp of width 8 on a firmware core, every service up, with the vector registers, scalars (in both slices) and predicates given. -/
def warp8 (vr : SMap W32) (sr : SMap W64) (pr : SMap (BitVec 64)) : State :=
  updCw { placeCore State.reset 0 with cur := { Site.zero with core := 191, mask := 3 } } (fun w => { w with
    vregs := vr, preds := pr, slices := w.slices.map (fun x => { x with sregs := sr }) })

/-- A vector register with one value in lanes 0 to 7. -/
def splat (r : Nat) (v : W32) : SMap W32 := (List.range 8).map (fun l => (64 * r + l, v))

/-- Lanes 0 to 3 of a vector register after a word. -/
def lanes4 (o : Out) (r : Nat) : List Nat :=
  match o with
  | .next t => (List.range 4).map (fun l => ((cw t).vreg r l).toNat)
  | _ => []

/-- A scalar of slice 0 after a word. -/
def scalarOf (o : Out) (n : Nat) : Nat :=
  match o with
  | .next t => (((cw t).slice 0).sreg n).toNat
  | _ => 0

/-- The program counter of slice 0 after a word. -/
def pcOf (o : Out) : Nat :=
  match o with
  | .next t => ((cw t).slice 0).pc.toNat
  | _ => 0

/-- 04 R128, worked example: v1 = 10, v2 = 20 and p2 true in lanes 0 and 1 give 10, 10, 20, 20. -/
theorem test_sel_example :
    lanes4 (exec (.sel ⟨⟨false, 2⟩, dv 7, ov 1, ov 2, false⟩) (warp8 (splat 1 10 ++ splat 2 20) [] [(2, 3)])) 7 = [10, 10, 20, 20] := by
  decide

/-- 04 R122, worked example: 0x7FFFFFF0 + 0x20 is clamped with .sat, and wraps without. -/
theorem test_iadd_example :
    lanes4 (exec (.iadd ⟨dv 3, ov 1, ov 2, .i32, true⟩) (warp8 (splat 1 0x7FFFFFF0 ++ splat 2 0x20) [] [])) 3 = List.replicate 4 0x7FFFFFFF ∧
    lanes4 (exec (.iadd ⟨dv 3, ov 1, ov 2, .i32, false⟩) (warp8 (splat 1 0x7FFFFFF0 ++ splat 2 0x20) [] [])) 3 =
      List.replicate 4 0x80000010 := by
  decide

/-- 04 R125: a field of 8 bits at position 4 of 0xFFFFF8F0 is 0x8F, negative for .i32. -/
theorem test_bfx :
    lanes4 (exec (.bfx ⟨dv 3, ov 1, os 2, .n32, false⟩) (warp8 (splat 1 0xFFFFF8F0) [(2, 0x804)] [])) 3 = List.replicate 4 0x8F ∧
    lanes4 (exec (.bfx ⟨dv 3, ov 1, os 2, .i32, false⟩) (warp8 (splat 1 0xFFFFF8F0) [(2, 0x804)] [])) 3 = List.replicate 4 0xFFFFFF8F := by
  decide

/-- 04 R126: base + index·2^sh at 64 bits, the index sign-extended under .i32. -/
theorem test_lea :
    scalarOf (exec (.lea ⟨ds 9, os 4, os 5, 5, .n32⟩) (warp8 [] [(4, 0x1000), (5, 3)] [])) 9 = 0x1060 ∧
    scalarOf (exec (.lea ⟨ds 9, os 4, os 5, 5, .i32⟩) (warp8 [] [(4, 0x1000), (5, 0xFFFFFFFF)] [])) 9 = 0xFE0 := by
  decide

/-- 02 R81: MOVI.hi keeps the low half. -/
theorem test_movi_hi :
    scalarOf (exec (.movi ⟨ds 3, .hi, 0xDEADBEEF⟩) (warp8 [] [(3, 0x1122334455667788)] [])) 3 = 0xDEADBEEF55667788 := by
  decide

/-- 02 R83: the table 0xC0 is "pa and pb". -/
theorem test_plog :
    (match exec (.plog ⟨⟨3, false⟩, 1, 2, 7, 0xC0⟩) (warp8 [] [] [(1, 0x0C), (2, 0x0A)]) with
      | .next t => (List.range 4).map ((cw t).pred 3)
      | _ => []) = [false, false, false, true] := by
  decide

/-- 01 R40-R42, worked example: IADD v4,v1 beside FMUL.rn v6,2.0, with v6 = 3.0. -/
theorem test_pair_example :
    let o := exec (.pIadd ⟨2, .reg 1, false, 0⟩ ⟨.fmul, ⟨2, .imm 0x40, false, 0⟩⟩) (warp8 (splat 1 5 ++ splat 4 7 ++ splat 6 0x40400000) [] [])
    lanes4 o 4 = List.replicate 4 12 ∧ lanes4 o 6 = List.replicate 4 0x40C00000 := by
  decide

/-- 03 R93, R95: 1/3 in FP32 to nearest and upwards; 04 R131: the minimum of +0 and −0 is −0. -/
theorem test_fp32 :
    lanes4 (exec (.fdiv ⟨dv 3, .konst .one, ov 1, .rn, false⟩) (warp8 (splat 1 0x40400000) [] [])) 3 = List.replicate 4 0x3EAAAAAB ∧
    lanes4 (exec (.fdiv ⟨dv 3, .konst .one, ov 1, .rz, false⟩) (warp8 (splat 1 0x40400000) [] [])) 3 = List.replicate 4 0x3EAAAAAA ∧
    lanes4 (exec (.fmin ⟨dv 3, ov 1, ov 2, .rn, false⟩) (warp8 (splat 2 0x80000000) [] [])) 3 = List.replicate 4 0x80000000 := by
  decide

/-- 04 R140, Table arith-7, worked example of CVTS.f8m: lane 0 holds 50.75, 0.001, −1000.0 and 3.0, s3 = 7.0. -/
theorem test_cvts_example :
    let s := warp8 [(64 * 12, 0x424B0000), (64 * 13, 0x3A83126F), (64 * 14, 0xC47A0000), (64 * 15, 0x40400000)] [(3, 0x40E00000)] []
    (lanes4 (exec (.cvts ⟨dv 9, ov 12, os 3, .f8m, .f32, .rn, false⟩) s) 9).head? = some 0x2EF1004E := by
  decide

/-- 03 R113-R115, worked example: 2^100, 1.0 and −2^100 added exactly leave 1.0; and 04 R159: 2^24 and seven times 1.0 round to
16,777,224. -/
theorem test_long_accumulator :
    let sum := fun (l : List Nat) => l.foldl (fun a w => laccAdd a (fp32.value w)) Lacc.zero
    lacrVal (sum [0x71800000, 0x3F800000, 0xF1800000]) fp32 .rn = 0x3F800000 ∧
    lacrVal (sum (0x4B800000 :: List.replicate 7 0x3F800000)) fp32 .rn = 0x4B800004 := by
  decide +kernel

/-- 04 R153: the pattern 0x1B reverses the lanes of a slice. -/
theorem test_shfx :
    lanes4 (exec (.shfx ⟨dv 3, ov 1, 0x1B⟩) (warp8 [(64, 1), (65, 2), (66, 3), (67, 4)] [] [])) 3 = [4, 3, 2, 1] := by
  decide

/-- 05 R187, R185: CALL goes by words and writes pc + 8; BRA.all is not taken where one lane's guard is false. -/
theorem test_branches :
    pcOf (exec (.call 62 10) (warp8 [] [] [])) = 80 ∧ scalarOf (exec (.call 62 10) (warp8 [] [] [])) 62 = 8 ∧
    pcOf (exec (.braAll ⟨false, 1⟩ 5) (warp8 [] [] [(1, 0x7)])) = 8 ∧ pcOf (exec (.braAny ⟨false, 1⟩ 5) (warp8 [] [] [(1, 0x7)])) = 40 ∧
    pcOf (exec (.braAny ⟨false, 7⟩ (-1)) (warp8 [] [] [])) = 0xFFFFFFFFFFFFFFF8 := by
  decide

/-- 02 R79: a count of 0 passes over the body. -/
theorem test_loop_zero : pcOf (exec (.loopImmediate 0 12) (warp8 [] [] [])) = 96 + 8 ∧ pcOf (exec (.loopImmediate 3 12) (warp8 [] [] [])) = 8 := by
  decide

/-- 04 R158 to R159, worked example of REDT.f32.add: the tree gives 2^24 + 6. -/
theorem test_redt_example :
    let s := warp8 [(6 * 64, 0x4B800000), (6 * 64 + 1, 0x3F800000), (6 * 64 + 2, 0x3F800000), (6 * 64 + 3, 0x3F800000),
      (6 * 64 + 8, 0x3F800000), (6 * 64 + 9, 0x3F800000), (6 * 64 + 10, 0x3F800000), (6 * 64 + 11, 0x3F800000)] [] []
    let t := updCw s (fun w => { w with width := 16, nlane := 16, slices := List.replicate 4 (Slice.start 0) })
    scalarOf (exec (.redt ⟨ds 10, ov 6, .f32, .add, false⟩) { t with cur := { t.cur with mask := 5 } }) 10 = 0x4B800003 := by
  decide

/-- 11 Table sketch-8: NADDI scales its immediate by 2^(8·sh) and wraps; 16 Table circuit-7: ADDQ wraps. -/
theorem test_wraps :
    (match exec (.naddi 2 2 1 0xFFFF) { placeNmu State.reset 0 with cur := Site.zero } with
      | .next t => (nmuProg t 0 0).map (fun p => p.areg 2)
      | _ => none) = some (2 ^ 64 - 256) ∧
    (match exec (.addqImm 3 5 (-1)) { placeScript State.reset 0 with cur := Site.zero } with
      | .next t => (mget t.scripts 0).map (fun x => x.reg 3)
      | _ => none) = some (2 ^ 64 - 1) := by
  decide

/-- 01 Table word-13 through a whole step: the all-zero word takes ILLEGAL_OPCODE and holds its warp (05 R174). -/
theorem test_step_illegal :
    (match step (State.reset.withFetchWord 64 0) with
      | .next t => decide ((warpOf t 191 0).st = .held)
      | _ => false) = true := by
  decide +kernel

/-- 05 R193 through a whole step: NOP passes. -/
theorem test_step_nop :
    (match step (State.reset.withFetchWord 64 0x2090000000000000) with
      | .next t => ((warpOf t 191 0).slice 1).pc.toNat
      | _ => 0) = 8 := by
  decide +kernel

/-- 06 R220, 07: the bytes of a placed word stand at their addresses, low byte first (01 R23). -/
theorem test_memory_bytes :
    ((State.reset.withFetchWord 64 0x4101008012024020).mem.map (fun c => (c.1, c.2.toNat))) =
      [(0, 0x20), (1, 0x40), (2, 0x02), (3, 0x12), (4, 0x80), (6, 0x01), (7, 0x41)] := by
  decide

/-! ## Witnesses: for every statement with hypotheses, a state and operands that meet them -/

/-- 64 bytes of a packet from its fields (offset, value). -/
def packet64 (fs : List (Nat × Nat)) : List Byte := toBytes 64 (fs.foldl (fun a f => a + f.2 * 256 ^ f.1) 0)

/-- A kernel of one warp of width 8 per block, two cluster-blocks, on stack 0, with 16 bytes of arguments (12 Table kernel-1). -/
def kernelPkt : List Byte :=
  packet64 [(0, 1), (3, 1), (4, 1), (6, 1), (8, 0x4000), (16, 0x5000), (24, 16), (28, 8), (32, 2), (36, 256)]

/-- The descriptor of context 1: partition 0, tables at 0x10000, an event ring of 64 places at 0x20000. -/
def desc1 : CtxDesc :=
  { id := 1, pmask := 1, drainlim := 50, root := 0x10000, keys := 1, gracelim := 100, vector := 0xFFFF, event := 64, evring := 0x20000
    evtail := 0x21000, evhead := 0x21008 }

/-- Context 1, RUNNING, with bucket 255, buckle 63 and graph slot 0. -/
def ctx1 : Ctx := { newCtx State.reset desc1 with st := .running, buckets := [255], buckles := [63], slots := [0] }

/-- A launch of that context. -/
def launch1 : Launch :=
  { pkt := kernelPkt, ctx := 1, src := .node 0, queue := none, st := .dispatching, gs := 0, seq := 0, nextCb := 1, doneCbs := 0
    rel := none, traceLost := false }

/-- Its first warp, of width 8. -/
def warp1 : Warp :=
  { Warp.empty with
    uid := 5, ctx := 1, launch := 1, block := 2, width := 8, nlane := 8, st := .active, slices := List.replicate 2 (Slice.start 0x4000)
    gangs := [⟨3, 0, 0⟩], extmax := 4 }

/-- Every service up; context 1 maps the first GiB of stack 0 at the same addresses, readable, writable and executable; its warp stands
on core 0, whose both slices are at the site. -/
def user : State :=
  { State.reset with
    cur := { Site.zero with mask := 3 }, nextId := 10, status := ⟨0xFF, 15, 2, true, true, true, true, true⟩, dev := some 3, lanes := [0]
    mem := [(0x10000, 1), (0x10001, 0x11), (0x11000, 1), (0x11001, 0x12), (0x12000, 0x1F)]
    cores := [(0, { Core.zero with warps := [(0, warp1)], active := [(0, none)] })]
    blocks := [(2, ⟨0, 3, 0, 1, .resident, 0, 256, [5], [], .zero⟩)]
    cbs := [(3, ⟨0, 1, 0, [0], 0, .resident, [2], []⟩)], launches := [(1, launch1)], ctxs := [(1, ctx1)], holder := [(0, 1)] }

/-- The same with scalars in both slices and vector registers. -/
def userWith (sr : SMap W64) (vr : SMap W32) : State :=
  updCw user (fun w => { w with vregs := vr, slices := w.slices.map (fun x => { x with sregs := sr }) })

/-- The same with a counter of the warp at its full value. -/
def userFull (ic : Nat) (sr : SMap W64) : State :=
  updCw (userWith sr []) (fun w => { w with flight := List.replicate 63 ⟨ic, 9, false⟩ })

/-- A store of the warp in flight, not performed, on a line of the cluster cache. -/
def storeTx (line : Nat) : Tx :=
  { uid := 5, mask := 3, ctx := 1, core := 0, slot := 0, launch := 1, tag := 0, strong := false, na := false, kind := .store
    parts := [⟨line, .cache, [], false⟩] }

/-- The same with that store in flight. -/
def userBusy (sr : SMap W64) (line : Nat) : State := { userWith sr [] with txs := [(9, storeTx line)] }

/-- Whether a check passed. -/
def passed {ε α β : Type} (r : Except ε α × β) : Bool := match r.1 with | .ok _ => true | .error _ => false

/-- Whether a check passed. -/
def good {ε α : Type} (r : Except ε α) : Bool := match r with | .ok _ => true | .error _ => false

theorem witness_integer :
    Issues (useInt2 ⟨dv 127, ov 0, os 63, .i32, true⟩ false) user ∧ Issues (useInt2 ⟨dv 126, ov 0, .konst .mone, .n64, false⟩ false) user ∧
    Issues ⟨[(ov 127, false), (os 0, false), (.spec .lane, false)], [], [], some (ds 63, 1), none, false, false, false, false, []⟩ user ∧
    Issues ⟨[(ov 1, false), (os 0, false), (ov 126, true)], [], [], some (dv 126, 2), none, false, false, false, false, []⟩ user ∧
    Issues (useInt1 ⟨⟨.v 383, true⟩, ov 127, .i8, true⟩ false) user := by
  decide

theorem witness_logic :
    Issues (useInt2 ⟨dv 127, ov 0, os 63, .n32, false⟩ false) user ∧ Issues (useInt2 ⟨dv 126, ov 126, ov 0, .n64, false⟩ true) user ∧
    Issues (useInt1 ⟨dv 127, ov 126, .n64, false⟩ true) user ∧ Issues (useInt1 ⟨dv 126, ov 0, .n64, false⟩ false) user ∧
    Issues ⟨[(ov 0, false), (ov 1, false), (ov 127, false)], [], [], some (ds 0, 1), none, false, false, false, false, []⟩ user ∧
    Issues ⟨[(.konst .zero, true), (.spec .block, false)], [], [], some (ds 9, 2), none, false, false, false, false, []⟩ user := by
  decide

theorem witness_predicate :
    Issues ⟨[(ov 127, false), (os 63, false)], [], [], none, some ⟨7, false⟩, false, false, false, false, []⟩ user ∧
    Issues ⟨[], [], [0, 3, 7], none, some ⟨0, false⟩, false, false, false, false, []⟩ user ∧
    Issues ⟨[(ov 126, true), (os 63, true)], [], [], none, some ⟨6, true⟩, true, false, false, false, []⟩ user ∧
    Issues ⟨[], [], [7], none, some ⟨0, false⟩, false, false, false, false, []⟩ user ∧
    Issues ⟨[(ov 126, true)], [], [], none, some ⟨0, false⟩, false, false, false, false, []⟩ user := by
  decide

theorem witness_move :
    Issues ⟨[(ov 127, false), (ov 0, false)], [], [2], some (dv 127, 1), none, false, false, false, false, []⟩ user ∧
    Issues ⟨[(ov 126, true)], [], [], some (dv 126, 2), none, false, false, false, false, []⟩ user ∧
    Issues ⟨[], [], [], some (⟨.v 0, true⟩, 1), none, false, false, false, false, []⟩ user ∧
    Issues { dst := some (ds 3, 2), rmw := true } user ∧ Issues { dst := some (⟨.v 382, true⟩, 2), rmw := true } user ∧
    Issues { ops := [(ov 5, false), (.konst .two, false)], dst := some (ds 2, 1), far := farReads (ov 5) false ((curSlices user).map (fun j => op32 user (.konst .two) (lane0 j) % (cw user).width)) } user ∧
    Issues { ops := [(os 3, true), (.konst .one, false)], dst := some (dv 4, 2), rmw := true } user := by
  decide

theorem witness_floating :
    Issues ⟨[(ov 127, false), (os 63, false)], [], [], some (dv 127, 1), none, false, false, false, false, []⟩ user ∧
    Issues ⟨[(ov 127, false), (os 63, false), (.konst .half, false)], [], [], some (dv 0, 1), none, false, false, false, false, []⟩ user ∧
    Issues ⟨[(ov 127, false)], [], [], some (dv 0, 1), none, false, false, false, false, []⟩ user ∧
    Issues ⟨[(ov 126, true), (os 63, true)], [], [], some (dv 126, 2), none, true, false, false, false, []⟩ user ∧
    Issues ⟨[(ov 126, true), (os 63, true), (ov 0, true)], [], [], some (dv 126, 2), none, true, false, false, false, []⟩ user := by
  decide

theorem witness_conversion :
    Issues ⟨[(ov 126, true)], [], [], some (dv 127, 1), none, gatedTy .f16 || gatedTy .f64, false, false, false, []⟩ user ∧
    Issues ⟨[(os 3, false)], groupRegs (ov 124) (packCount .f8m), [], some (dv 9, 1), none, gatedTy .f8m, false, false, false, []⟩ user ∧
    Issues ⟨[(os 6, false)], [], [], some (ds 5, 1), none, gatedTy .bz4, false, false, false, []⟩ user ∧
    ((dv 20).reg ≠ .v 22 ∧
      Issues { ops := [(ov 21, false), (os 4, false)], vr := [22], dst := some (dv 20, 1), rmw := true, gated := gatedTy .f8m } user) ∧
    Issues ⟨[(os 9, false)], groupRegs (ov 120) 8, [], some (dv 5, 1), none, true, false, false, false, []⟩ user ∧
    ((dv 120).reg = .v 120 ∧ Issues ⟨[(ov 17, false)], [], [], some (dv 120, 8), none, true, false, false, false, []⟩ user) ∧
    ((dv 124).reg = .v 124 ∧ Issues ⟨[(ov 17, false)], [], [], some (dv 124, 4), none, true, false, false, false, []⟩ user) ∧
    Issues { ops := [(ov 30, false), (os 18, false), (os 19, false)], dst := some (dv 31, 1), rmw := true } user := by
  decide

theorem witness_cross_lane :
    Issues { ops := [(ov 126, true), (.konst .one, false)], dst := some (dv 126, 2), far := farReads (ov 126) true [5, 0] } user ∧
    Issues ⟨[(ov 127, false)], [], [], some (dv 127, 1), none, false, false, false, false, []⟩ user ∧
    Issues ⟨[], [], [7], some (ds 63, 2), none, false, false, false, false, []⟩ user ∧
    Issues ⟨[(ov 126, true)], [], [], some (ds 10, 1), none, true, false, false, false, []⟩ user ∧
    Issues ⟨[(ov 126, true)], [], [], some (dv 126, 2), none, true, false, false, false, []⟩ user ∧
    Issues ⟨[(ov 127, false), (os 9, false)], [], [], none, none, false, false, false, false, []⟩ user ∧
    Issues ⟨[], [], [], some (dv 126, 2), none, true, false, false, false, []⟩ user ∧ Issues {} user := by
  decide

theorem witness_pair : PairIssues ⟨.iadd, ⟨63, .reg 1, false, 0⟩⟩ ⟨.fmul, ⟨63, .imm 0x40, false, 0⟩⟩ user := by
  decide

theorem witness_branch :
    let to_ := fun (s : State) (off : Int) (j : Nat) => (pcPlus (BitVec.ofNat 64 (op64 s (os 4) (lane0 j))) off).toNat % 8
    let s := userWith [(4, 8)] []
    let odd := userWith [(4, 0x7)] []
    Issues { pr := [7] } user ∧
    (Issues { ops := [(os 4, true)] } s ∧ (∀ j ∈ curSlices s, to_ s (-131072) j = 0) ∧ (∀ j ∈ curSlices s, to_ s 0 j = 0)) ∧
    (Issues { ops := [(os 4, true)] } odd ∧ (curSlices odd).find? (fun j => to_ odd 131071 j != 0) = some 0 ∧
      (curSlices odd).find? (fun j => to_ odd 0 j != 0) = some 0) ∧
    Issues { dst := some (⟨.s 62, false⟩, 2) } user := by
  decide

/-- The slices of the user's warp inside three loops. -/
def userDeep : State :=
  updCw user (fun w => { w with slices := w.slices.map (fun x => { x with loops := List.replicate 3 ⟨1, 0, 0x4100⟩, depth := 3 }) })

theorem witness_loop :
    (Issues { ops := [(os 1, false)] } user ∧ ∀ j ∈ curSlices user, (loopPush ((cw user).slice j) (op32 user (os 1) (lane0 j)) 1).isSome = true) ∧
    (∀ j ∈ curSlices user, (loopPush ((cw user).slice j) 65535 65535).isSome = true) ∧
    (Issues { ops := [(.konst .one, false)] } userDeep ∧ ∃ j ∈ curSlices userDeep, loopPush ((cw userDeep).slice j) 1 1 = none) ∧
    Issues {} user := by
  decide

theorem witness_scheduling :
    let held := fun (h e l : Nat) => updCw user (fun w => { w with held := h, extmax := e, lent := l })
    let other := fun (st : SliceSt) (gs : List Nat) => updCore user 0 (fun c => { c with
      warps := c.warps ++ [(1, { warp1 with granules := gs, slices := warp1.slices.map (fun x => { x with st := st }) })] })
    Issues {} user ∧ Issues { ops := [(os 7, false)] } user ∧
    ((cw user).held + 4 ≤ 4 ∧ (cw user).held + 4 ≤ (cw user).extmax) ∧
    (racqWaiters (coreOf user user.cur.core) = [] ∧ (poolGranules (coreOf user user.cur.core) (cw user).width 4).length = 4) ∧
    racqWaiters (coreOf (other (.park (.racq 1 0)) []) user.cur.core) ≠ [] ∧
    (poolGranules (coreOf (other .run ((List.range 256).map (2 * ·))) user.cur.core) (cw user).width 1).length ≠ 1 ∧ 4 < (cw (held 1 4 0)).held + 4 ∧
    ((cw (held 0 2 0)).held + 3 ≤ 4 ∧ (cw (held 0 2 0)).extmax < (cw (held 0 2 0)).held + 3) ∧
    (Issues {} (held 2 4 0) ∧ 2 ≤ (cw (held 2 4 0)).held ∧ (cw (held 2 4 0)).busy = []) ∧
    (Issues {} (held 2 4 1) ∧ (cw (held 2 4 1)).lent ≠ 0) ∧ ((cw (held 0 4 0)).lent = 0 ∧ (cw (held 0 4 0)).held < 1) := by
  decide +kernel

/-- REP.4 d+1 a+1 and its FMUL (01 R47, worked example), at the third repetition. -/
def userRep : State :=
  { updCw user (fun w => { w with slices := w.slices.map (fun x => { x with repIdx := 3 }) }) with
    mem := [(0x4008, 0x80), (0x400A, 0x14), (0x400B, 0x86), (0x400C, 2), (0x400D, 5), (0x400E, 0x20), (0x400F, 8)] ++ user.mem }

theorem witness_rep :
    (match fetchWord userRep 0 1 0x4008 8 with | (.ok n, _) => n | _ => 0) = 0x0820050286140080 ∧
    0x0820050286140080 / 2 ^ 62 % 4 = 0 ∧
    decodeCore 0x0820050286140080 = .ok (.fmul ⟨dv 20, ov 40, os 5, .rn, false⟩) ∧
    (∃ ud ∈ repFields (.fmul ⟨dv 20, ov 40, os 5, .rn, false⟩),
      let us := [ud.1, ud.2.1, ud.2.2.1, ud.2.2.2]
      (∀ k, k < 4 → repFieldOk 0x0820050286140080 k ((us[k]?).getD .none) (([some 1, some 1, none, none][k]?).getD none) = true) ∧
      stepWord 0x0820050286140080 us [some 1, some 1, none, none] ((cw userRep).slice 0).repIdx = (0x082005C2B6140080, true)) ∧
    ∀ j ∈ curSlices userRep, ∀ l ∈ ((cw userRep).slice j).loops.take ((cw userRep).slice j).depth, l.le ≠ ((cw userRep).slice j).pc := by
  decide

/-! ### Memory words -/

/-- An aligned address of the context, one misaligned, one in a page that is absent, one of another region's window. -/
def addrs : SMap W64 := [(4, 0x6000), (5, 0x6001), (6, 0x80000000), (7, 0xFF00000000000), (8, 0xFF00080000000)]

/-- A load of 4 bytes at a scalar's address. -/
def ld4 (a : Nat) : LoadArgs := ⟨dv 127, ⟨os a, .konst .zero, 0⟩, .b32, none, false⟩

theorem witness_load :
    let s := userWith addrs []
    let c := noteIssue s
    let x := fun (a : Nat) => xlatLanes 0 1 4 .read (effAddr s (ld4 a).m 4) (loadLanes s (ld4 a).d) c
    let p := fun (a : Nat) => scratchLanes s 4 (effAddr32 s (ld4 a).m 4) (loadLanes s (ld4 a).d)
    let w := fun (a : Nat) => windowLanes c 4 (effAddr s (ld4 a).m 4) (loadLanes s (ld4 a).d)
    let posted := fun (v : State) => (match windowLanes v 4 (effAddr s (ld4 8).m 4) (loadLanes s (ld4 8).d) with
      | .ok ls => some (tilePosted v ls) | .error _ => none)
    let k := fun (m : MemOpnd) => xlatLanes 0 1 4 .read (fun l => (argArea s).1 + effAddr32 s m 4 l)
      ((loadLanes s (dv 1)).filter (fun l => decide (effAddr32 s m 4 l + 4 ≤ (argArea s).2))) c
    Issues (loadUse (ld4 4) true) s ∧ Issues (loadUse (ld4 4) false) s ∧
    (passed (x 4) = true ∧ passed (x 5) = false ∧ passed (x 6) = false ∧
      (match x 4 with | (.ok ls, u) => decide (Room u 1 (mkTx u false false (.load (dv 127) .b32)
        (groupLines false (ls.map (fun q => mkLane q.1 q.2 [] 0 0))))) | _ => false) = true ∧
      ¬ Room (userFull 1 addrs) 1 (mkTx s false false (.load (dv 127) .b32) [])) ∧
    (good (p 0) = true ∧ good (p 5) = false ∧ good (p 4) = false) ∧ (good (w 4) = false ∧ good (w 7) = true ∧ posted c = some false ∧
      posted (updClust c 0 (fun k => { k with postLast := some (c.cycle, 3) })) = some true) ∧
    (passed (k ⟨.konst .zero, .konst .zero, 3⟩) = true ∧ passed (k ⟨.konst .zero, .konst .zero, 4⟩) = true ∧
      passed (k ⟨.konst .one, .konst .zero, 0⟩) = false) := by
  decide +kernel

/-- A store of v2 at a scalar's address. -/
def st4 (a : Nat) : StoreArgs := ⟨⟨false, 7⟩, .v 2, ⟨os a, .konst .zero, 0⟩, .b32, none, false⟩

theorem witness_store :
    let s := userWith addrs []
    let c := noteIssue s
    let x := fun (a : Nat) => xlatLanes 0 1 4 .write (effAddr s (st4 a).m 4) (perfLanes s (some ⟨false, 7⟩)) c
    let p := fun (a : Nat) => scratchLanes s 4 (effAddr32 s (st4 a).m 4) (perfLanes s (some ⟨false, 7⟩))
    let w := fun (a : Nat) => windowLanes c 4 (effAddr s (st4 a).m 4) (perfLanes s (some ⟨false, 7⟩))
    Issues (storeUse (st4 4) true) s ∧ Issues (storeUse (st4 4) false) s ∧
    (passed (x 4) = true ∧ passed (x 5) = false) ∧ (good (p 0) = true ∧ good (p 5) = false) ∧ (good (w 7) = true ∧ good (w 4) = false) ∧
    Room s 5 (mkTx s false false .store []) ∧ ¬ Room (userFull 5 addrs) 5 (mkTx s false false .store []) := by
  decide +kernel

theorem witness_atomic :
    let s := userWith addrs []
    let c := noteIssue s
    let x := (⟨⟨false, 7⟩, dv 10, os 4, .konst .zero, ov 12, false, .dev, false⟩ : AtomArgs)
    let y := (⟨⟨false, 7⟩, dv 10, os 0, .konst .zero, ov 12, false, .block, false⟩ : AtomArgs)
    let at_ := fun (a n : Nat) => xlatLanes 0 1 n .rmw (effAddr s ⟨os a, .konst .zero, 0⟩ n) (perfLanes s (some ⟨false, 7⟩)) c
    Issues (atomUse x .add true) s ∧ Issues (atomUse x .cas true) s ∧ Issues (atomUse y .fadd false) s ∧ Issues (atomUse y .cas false) s ∧
    passed (at_ 4 4) = true ∧ passed (at_ 4 8) = true ∧ passed (at_ 5 4) = false ∧
    good (scratchLanes s 4 (effAddr32 s ⟨os 0, .konst .zero, 0⟩ 4) (perfLanes s (some ⟨false, 7⟩))) = true ∧
    good (scratchLanes s 4 (effAddr32 s ⟨os 5, .konst .zero, 0⟩ 4) (perfLanes s (some ⟨false, 7⟩))) = false := by
  decide +kernel

theorem witness_cache :
    let x := fun (a : Nat) => (⟨⟨os a, .konst .zero, 0⟩, false⟩ : CacheArgs)
    let at_ := fun (s : State) (a : Nat) => xlatLanes 0 1 1 .read (effAddr s (x a).m 1) (perfLanes s none) (noteIssue s)
    let s := userWith addrs []
    let b := userBusy addrs 0x60
    Issues (cacheUse (x 4)) s ∧ Issues (cacheUse (x 4)) b ∧ passed (at_ s 4) = true ∧ passed (at_ s 6) = false ∧ passed (at_ b 4) = true ∧
    tableUsed s 0 < 256 ∧ tableUsed { s with txs := (List.range 256).map (fun i => (i, storeTx i)) } 0 = 256 ∧ (match at_ s 4 with | (.ok ls, _) => ls.all (fun q => !q.2.nc && inDevice q.2.pa) | _ => false) = true ∧
    (match at_ s 4 with | (.ok ls, _) => ls.all (fun q => !lineBusy (noteIssue s) (q.2.pa / 256)) | _ => false) = true ∧
    (match at_ b 4 with | (.ok ls, _) => ls.any (fun q => lineBusy (noteIssue b) (q.2.pa / 256)) | _ => false) = true := by
  decide +kernel

theorem witness_fence_waitc :
    let s := userFull 2 [(7, 62)]
    Issues {} s ∧ Issues { ops := [(os 7, false)] } s ∧ (∀ i, i < 6 → bit 4 i = true → (cw user).ic i ≤ 0) ∧
    (∀ i, i < 6 → bit 63 i = true → (cw s).ic i ≤ 63) ∧ (∃ i, i < 6 ∧ bit 4 i = true ∧ op32 s (os 7) (lane0 (curLow s)) < (cw s).ic i) := by
  decide +kernel

/-- Addresses on another device, and the routes: s8 to device 17, handle 0x42; s9 with a reserved bit. -/
def routes : SMap W64 := [(4, 0x6000), (5, 0x6001), (6, 0x100000000000000), (7, 0x7000), (8, 0x420011), (9, 0x420411)]

theorem witness_remote :
    let s := userWith routes []
    let lanes := perfLanes s (some ⟨false, 7⟩)
    let va := fun (a : Nat) => remoteAddr s (os a) 0 4
    Issues { ops := [(os 4, true), (os 8, false)], dst := some (dv 1, 1) } s ∧
    Issues { ops := [(os 4, true), (os 8, false)], vr := [2], pr := [7] } s ∧
    Issues { ops := [(os 4, true), (os 8, false), (os 7, true)], vr := [2], pr := [7] } s ∧
    Issues { ops := [(os 4, true), (os 8, false)], vr := [12, 13, 10], pr := [7], dst := some (dv 10, 1) } s ∧
    remoteFault 4 (va 4) none lanes = none ∧ remoteFault 4 (va 4) (some (op64 s (os 7))) lanes = none ∧
    (remoteFault 4 (va 5) none lanes).isSome = true ∧ (remoteFault 4 (va 6) none lanes).isSome = true ∧
    (remoteFault 4 (va 4) (some (op64 s (os 5))) lanes).isSome = true ∧
    (remoteClear s (cw s).uid = true ∧ (cw s).ic 3 < 63) ∧ 63 ≤ (cw (userFull 3 routes)).ic 3 ∧
    remoteClear { s with txs := [(9, { storeTx 0 with kind := .rfence })] } 5 = false ∧
    refusedHere s (op32 s (os 8) 0) = false ∧ refusedHere s (op32 s (os 9) 0) = true := by
  decide +kernel

/-! ### Copies, barriers and waits -/

/-- Copy descriptors: k = 2 of 256 bytes, k = 3 with a length beyond 2^40. -/
def descs : SMap W64 := [(8, 0x8000), (9, 0x9000), (10, 256), (11, 0), (14, 0x10000000000)]

theorem witness_copy :
    let x := fun (k : Nat) => (⟨ds 20, k, none, none, .ic, .dev, false, false⟩ : CopyArgs)
    let s := userWith descs []
    let ok := fun (op : CopyOp) (k : Nat) => (curSlices s).filter (fun j =>
      shapeOk op .ic false (descReg s (x k) j 0).toNat (descReg s (x k) j 1).toNat (descReg s (x k) j 2).toNat (descReg s (x k) j 3).toNat 0)
    Issues (copyUse (x 2)) s ∧ Issues (copyUse ⟨ds 20, 2, some (os 1), some (os 2), .sig, .domain, true, true⟩) s ∧
    ok .copy 2 = [0, 1] ∧ ok .copy 3 = [] ∧
    (fillBehind s = false ∧ fillBehind (updClust s 0 (fun k => { k with fillLast := some (s.cycle, 3) })) = true) ∧
    (Issues (copyUse ⟨ds 20, 2, some (os 1), none, .ic, .dev, false, false⟩) s ∧
      shapeOk .copyf .ic false 1 0 0x1001 0 0 = true ∧ shapeOk .copy2 .ic false 0 0 0 0 0 = true) ∧
    ((ok .copy 2).length ≤ ((freeCopySlots (coreOf (noteIssue s) 0)).take 2).length ∧ (cw s).ic 2 + (ok .copy 2).length ≤ 63) ∧
    ¬ (cw (userFull 2 descs)).ic 2 + (ok .copy 2).length ≤ 63 ∧
    (let w := userWith [(9, 0x10000000400), (10, 4)] []
     shapeOk .copyw .ic false 0 0x10000000400 4 0 0 = true ∧ targetOk (noteIssue w) 1 0x10000000400 4 = false) := by
  decide +kernel

/-- A copy of 256 bytes of the warp. -/
def copy1 : Copy :=
  { op := .copy, st := .run, ctx := 1, core := 0, slot := 0, uid := 5, launch := 1, tag := 0, r0 := 0x8000, r1 := 0x9000, r2 := 256
    r3 := 0, b := 0, c := 0, kind := .ic, scope := .dev, sh := false, dz := false, bk := false, serial := 1, order := 9, after := 9
    next := 0, pfx := 0, mask := 0, flight := [], cause := 0, failing := false, va := 0, group := none, pos := 0, dzIdx := 0, dzOff := 0
    dzBlk := [], dzSizes := [], ret := 9, node := none, completed := false, sigPending := false, killer := none, killed := none }

/-- A copy in slot 127 of core 0. -/
def withCopy (x : Copy) (s : State) : State := updCore s 0 (fun c => { c with copies := [(127, x)] })

theorem witness_copy_progress :
    let s := fun (x : Copy) => withCopy x (userWith [(20, 0x2007F)] [])
    let fl : SMap Chunk := [(0, ⟨[], 0, ⟨0x8000, 0, false, none⟩⟩)]
    let named := fun (x : Copy) => (copyByHandle (s x) 1 (lowOp (s x) false (os 20))).map (fun q => q.2)
    Issues { ops := [(os 20, false)], dst := some (ds 21, 2) } (s copy1) ∧ Issues { ops := [(os 20, false)], dst := some (ds 21, 1) } (s copy1) ∧
    copyByHandle user 1 (lowOp user false (os 20)) = none ∧
    named { copy1 with st := .done } = some { copy1 with st := .done } ∧ ({ copy1 with st := .done } : Copy).over = true ∧
    (named copy1 = some copy1 ∧ copy1.over = false ∧ copy1.flight = []) ∧
    (named { copy1 with flight := fl } = some { copy1 with flight := fl } ∧ ({ copy1 with flight := fl } : Copy).killer = none) ∧
    named { copy1 with flight := fl, killer := some 9 } = some { copy1 with flight := fl, killer := some 9 } := by
  decide +kernel

theorem witness_barrier :
    let s := userWith [(9, 1)] []
    let arrive := fun (n : Nat) => let r := arriveHere (noteIssue s) (.block 2 15) n; (r.1, (barOf r.2 (.block 2 15)).gen.toNat)
    Issues { ops := [(os 9, false)] } s ∧ Issues { ops := [(os 9, false)], dst := some (dv 1, 1) } s ∧
    released (noteIssue s) = true ∧ released (noteIssue (userBusy [] 0x60)) = false ∧
    arrive 1 = (0, 1) ∧ arrive 16 = (0, 0) ∧
    (barOf s (.block 2 0)).gen.toNat ≠ op32 s (os 9) (lane0 (curLow s)) ∧
    (barOf user (.clu 3 3)).gen.toNat = op32 user (os 9) (lane0 (curLow user)) := by
  decide +kernel

theorem witness_wait :
    let s := userWith addrs []
    let at_ := fun (a : Nat) => translate (noteIssue s) 0 1 (lowOp s true (os a)) .read
    Issues { ops := [(os 8, false), (.konst .one, false)] } s ∧
    releasedAll (noteIssue s) = true ∧ releasedAll (noteIssue (userBusy [] 0x60)) = false ∧
    Issues { ops := [(os 8, false), (.konst .zero, false), (.konst .mone, false)], pd := some ⟨1, false⟩ } s ∧
    Issues { ops := [(os 2, false), (.konst .mone, false)], pd := some ⟨7, false⟩ } s ∧
    Issues { ops := [(os 4, true), (os 5, true), (.konst .mone, false)], pd := some ⟨2, false⟩ } s ∧
    ¬ lowOp s true (os 5) % 4 = 0 ∧ (lowOp s true (os 6) % 8 = 0 ∧ passed (at_ 6) = false) ∧
    (lowOp s true (os 4) % 8 = 0 ∧ passed (at_ 4) = true ∧ inWindow (lowOp s true (os 4)) = false ∧
      strongBehind (noteIssue s) (cw s).uid [0x60] = false) ∧
    strongBehind (noteIssue (userBusy addrs 0x60)) 5 [0x60] = true ∧ inWindow (lowOp s true (os 7)) = true := by
  decide +kernel

/-- A bucket descriptor at 0x7000: 512 bytes at 0x8000, total 512, node 0x42 (08 R290); at 0x7040 a bad one. A range in host memory is no
run. -/
def userBucket (n : W64) : State :=
  { userWith [(11, n), (12, 0x7000), (13, 0x7001), (14, 0x7040)] [] with
    mem := [(0x7001, 0x80), (0x7009, 2), (0x7011, 2), (0x7018, 0x42)] ++ user.mem }

theorem witness_bucket :
    let s := userBucket 255
    let c := traceVolatile (noteIssue s) (cw s)
    let rd := xlatRange 0 1 .read ((pieces 0x7000 32).map (·.1)) c
    let units := fun (v : State) => (match xlatRange 0 1 .read ((pieces 0x7000 32).map (·.1)) v with
      | (.ok xs, u) => some (unitsWait u (ds 10) xs) | _ => none)
    let bytes := fun (va : Nat) => (match xlatRange 0 1 .read ((pieces va 32).map (·.1)) c with
      | (.ok xs, u) => (loadUnits 0 1 xs u).1 | _ => [])
    let wr := xlatRange 0 1 .write (pagesOf 0x8000 512) c
    Issues { ops := [(os 11, false), (os 12, true)], dst := some (ds 10, 1) } s ∧ Issues { ops := [(os 11, false)], dst := some (ds 10, 1) } s ∧
    holdsBucket c (lowOp s false (os 11)) = true ∧ holdsBucket c (lowOp (userBucket 256) false (os 11)) = false ∧
    lowOp s true (os 12) % 8 = 0 ∧ lowOp s true (os 13) % 8 ≠ 0 ∧ passed rd = true ∧
    passed (xlatRange 0 1 .read (pagesOf 0x80000000 32) c) = false ∧
    (let bs := bytes 0x7000
     (fld bs 0 8, fld bs 8 4, fld bs 16 8, fld bs 24 4) = (0x8000, 512, 512, 0x42)) ∧
    (units c = some false ∧ units { c with txs := [(9, storeTx 0x70)] } = some true) ∧
    fld (bytes 0x7040) 8 4 = 0 ∧ passed wr = true ∧
    passed (xlatRange 0 1 .write (pagesOf 0x80000000 512) c) = false ∧
    (match wr.1 with | .ok ys => oneRun ys 0x8000 512 | _ => false) = true ∧
    oneRun [(0x8000, ⟨0x8000000000000, 0, false, none⟩)] 0x8000 512 = false ∧ mget c.buckets 255 = none := by
  decide +kernel

/-! ### Matrix and sketch words -/

theorem witness_pass :
    let s := userWith [(8, 0x1080800), (16, 1)] []
    let full := updClust s 0 (fun c => { c with passes := (List.range 16).map (fun i => (i, (postPass s 0 i 0 ⟨false, true, 0, false, false, false, false⟩
      0x1080800 []).2 |> fun t => (mget (clustOf t 0).passes i).getD ⟨.waiting, 0, false, true, 0, false, false, 0, false, 1, 8, 8, 0, [],
        [], 0, 0, 0, 0, [], 0, false, false⟩)) })
    Issues { ops := [(os 16, true)], gated := true } s ∧ Issues { ops := [(os 8, true)], dst := some (ds 21, 1), gated := true } s ∧
    released (noteIssue s) = true ∧ released (noteIssue (userBusy [] 0x60)) = false ∧
    descBad false (lowOp s true (os 8)) = false ∧ descBad false (lowOp s true (os 16)) = true ∧
    freeEntry (clustOf s 0) = some 0 ∧ postBehind s 0 64 = false ∧
    postBehind (updClust s 0 (fun k => { k with postLast := some (s.cycle, 65) })) 0 64 = true ∧ freeEntry (clustOf full 0) = none ∧
    Issues { ops := [(os 4, false)], dst := some (ds 3, 2), gated := true } s ∧
    Issues { ops := [(os 4, false), (os 5, true)], dst := some (ds 3, 2), gated := true, fw := true } (warp8 [] [] []) := by
  decide +kernel

theorem witness_tile :
    let x : AccArgs := ⟨30, 7, 127, 15, false⟩
    let queued := updClust (updCw { user with cur := { user.cur with mask := 1 } } (fun w => { w with gangs := [⟨1, 0, 0⟩, ⟨2, 0, 0⟩] })) 0 (fun c => { c with tileWaits := [⟨5, 2, [6, 7], 1⟩] })
    Issues { dst := some (⟨.v 30, false⟩, 1), gated := true } user ∧ Issues { vr := [30], gated := true } user ∧ Issues { gated := true } user ∧
    (tilePlace user = none ∧ postedNow user 0 = false ∧ postedNow (updClust user 0 (fun k => { k with postLast := some (user.cycle, 3) })) 0 = true) ∧
    (x.cb < 128 / (cw user).width ∧ tileTurn user [x.t] = true) ∧ tileTurn queued [x.t] = false ∧
    tileTurn user [6, 7] = true ∧ tileTurn queued [6, 7] = false ∧
    (let wide := updCw user (fun w => { w with width := 16 }); 128 / (cw wide).width ≤ 8) := by
  decide +kernel

/-- Sketch groups: s16.. a sketch at 0x100000 with d = 2, b = 3, q = 1.0; s24.. a compatible one at 0x200000; s32.. none. -/
def sketches : SMap W64 :=
  [(16, 0x100000), (17, 0x302), (18, 0x3F800000), (24, 0x200000), (25, 0x302), (26, 0x3F800000), (40, 0x80000000), (41, 0x302), (42, 0x3F800000)]

theorem witness_sketch :
    let s := userWith sketches []
    let c := noteIssue s
    Issues { ops := groupOps 2 ++ [(ov 4, false), (ov 6, true)], gated := true } s ∧
    Issues { ops := groupOps 2 ++ [(ov 6, false)], dst := some (dv 8, 1), gated := true } s ∧
    Issues { ops := groupOps 2 ++ groupOps 3, gated := true } s ∧ Issues { ops := groupOps 7, gated := true } s ∧
    passed (checkAll 2 .rmw (curSlices s) c) = true ∧ passed (checkAll 4 .rmw (curSlices s) c) = false ∧
    passed (checkAll 5 .read (curSlices s) c) = false ∧ passed (checkAll 2 .read (curSlices s) c) = true ∧
    passed (checkPair 2 3 (curLow s) c) = true ∧ passed (checkPair 2 4 (curLow s) c) = false ∧
    passed (checkOne 2 .rmw (curLow s) c) = true ∧ passed (checkOne 4 .rmw (curLow s) c) = false := by
  decide +kernel

/-! ### Launch and system words -/

/-- A queue of context 1 with room for two packets. -/
def queue1 : Queue :=
  newQueue State.reset ⟨1, 0, 1, 1, false, false, 0, 0, 0, 0, 0, 0, 0⟩

/-- The kernel packet at 0x7000, as memory. -/
def kernelMem : List Host.Cell := ((kernelPkt.mapIdx (fun i b => ((0x7000 + i, b) : Host.Cell))).filter (fun c => c.2 != 0))

theorem witness_launch :
    let s : State := { userWith [(4, 0x7000), (5, 40), (6, 0x7001)] [] with mem := kernelMem ++ user.mem, queues := [(40, queue1)] }
    let c := noteIssue s
    let v := traceVolatile (releaseDev c) (cw s)
    Issues { ops := [(os 4, true), (os 5, false)], dst := some (ds 10, 1) } s ∧ Issues { ops := [(os 4, true), (os 5, true)], dst := some (ds 10, 1) } s ∧
    lowOp s true (os 6) % 64 ≠ 0 ∧ lowOp s true (os 4) % 256 = 0 ∧ releasedAll c = true ∧ releasedAll (noteIssue (userBusy [] 0x60)) = false ∧
    passed (xlatRange 0 1 .read (pagesOf 0x7000 64) v) = true ∧ passed (xlatRange 0 1 .read (pagesOf 0x80000000 64) v) = false ∧
    (let b := (readVa v 0 1 0x7000 64).1.toOption.getD []
     (fld b 0 1, refuseReason v 1 b) = (1, none)) ∧
    fld ((readVa v 0 1 0x6000 64).1.toOption.getD []) 0 1 = 0 ∧
    (queue1.desc.context = 1 ∧ queue1.takes = true ∧ queue1.full = false ∧ ({ queue1 with tail := 2 } : Queue).full = true) ∧
    passed (xlatRange 0 1 .rmw (pagesOf 0x7000 256) v) = true ∧ mget v.queues 41 = none := by
  decide +kernel

/-- The relaunch of a traced kernel would be accepted: its flags hold trace, with a buffer and a tag (12 R392, R393). -/
theorem witness_relaunch :
    let p := packet64 [(0, 1), (1, 1), (3, 1), (4, 1), (6, 1), (8, 0x4000), (16, 0x5000), (24, 16), (28, 8), (32, 2), (36, 256), (40, 0x7000), (48, 1)]
    fld p 0 1 = 1 ∧ bit (fld p 1 1) 0 = true ∧ refuseReason user 1 p = none := by
  decide +kernel

theorem witness_publish_tlbi :
    Issues { ops := [(os 5, false)], dst := some (ds 6, 2) } user ∧ Issues { ops := [(.reg (.s 63), true)] } user ∧
    Issues { fw := true } (warp8 [] [] []) ∧ releasedAll (noteIssue user) = true ∧ releasedAll (noteIssue (userBusy [] 0x60)) = false ∧
    (ctxOf (traceVolatile (fenceDev (noteIssue user)) (cw user)) 1).isSome = true := by
  decide +kernel

theorem witness_csr :
    Issues { dst := some (ds 3, if csrIs64 1 then 2 else 1), fw := fwCsr 1 } user ∧ Issues { ops := [(os 5, csrIs64 2)], fw := fwCsr 2 } user ∧
    Issues { ops := [(os 5, csrIs64 0x110)], fw := fwCsr 0x110 } (warp8 [] [] []) := by
  decide +kernel

theorem witness_firmware :
    let s := warp8 [] [(4, 0x10007), (5, 0xFFFFFFFF80), (6, 0xFFFFFFFF81)] []
    let r : Record := ⟨1, 0, 0, 0, 0, 0, 0, 0, 3, 0, [5], none, none⟩
    Issues { ops := [(os 4, false), (os 5, true)], dst := some (ds 10, 1), fw := true } s ∧ Issues (fwUse (ds 10) (os 4) (os 5)) s ∧ Issues {} user ∧
    Issues { fw := true } s ∧ closeRecord (noteIssue s) 1 7 0 = none ∧
    (closeRecord { noteIssue s with ctxs := [(1, { ctx1 with records := [(7, r)] })] } 1 7 0).isSome = true ∧
    physOk (lowOp s true (os 5)) 128 = true ∧ physOk (lowOp s true (os 6)) 128 = false := by
  decide +kernel

/-! ### Words of the near-memory units and of scripts -/

/-- A program of context 1 on stack 0 with three words; a1 a sketch's descriptor at 0x7000, a2 misaligned, a3 an absent page, a4 the
descriptor of a sketch at 0x7000 again, a5 one that no descriptor stands at. -/
def prog1 : NmuProg :=
  { ctx := 1, node := 0, launch := 0, words := [0, 0, 0], pc := 1, a := [(0, 0x6000), (1, 0x7000), (2, 0x6001), (3, 0x80000000), (5, 0x7040), (6, 0x7100)]
    g := [], loops := [], batch := [], line := [], draining := [], fault := none, parked := none, prog := 0, save := [], seq := 1 }

/-- Descriptors of two compatible sketches: base 0x100000 at 0x7000 and 0x200000 at 0x7100, d = 2, b = 3, q = 1.0 (11 Table sketch-3). -/
def sketchMem : List Host.Cell :=
  [(0x7002, 0x10), (0x7008, 2), (0x7009, 3), (0x7012, 0x80), (0x7013, 0x3F), (0x7102, 0x20), (0x7108, 2), (0x7109, 3), (0x7112, 0x80),
    (0x7113, 0x3F)]

/-- The device with a program in place 0 of NMU 0. -/
def nearMem (p : NmuProg) : State := { user with cur := Site.zero, mem := sketchMem ++ user.mem, nmus := [(0, ⟨[(0, p)], [], 0⟩)] }

theorem witness_nmu_vector : NmuRuns (nearMem prog1) prog1 := by
  decide +kernel

theorem witness_nmu_memory :
    let b := nmuNoted (nearMem prog1)
    prog1.areg 2 % 4 ≠ 0 ∧ prog1.areg 0 % 4 = 0 ∧ prog1.areg 3 % 4 = 0 ∧ passed (nmuPages 1 0 .read (pagesOf 0x6000 1024) b) = true ∧
    passed (nmuPages 1 0 .write (pagesOf 0x6000 1024) b) = true ∧ passed (nmuPages 1 0 .read (pagesOf 0x80000000 4) b) = false ∧
    passed (nmuPages 1 0 .write (pagesOf 0x80000000 4) b) = false := by
  decide +kernel

/-- The same program with k pending updates. -/
def progBatch (k : Nat) : NmuProg := { prog1 with batch := List.replicate k ⟨[]⟩ }

theorem witness_nmu_sketch :
    let b := nmuNoted (nearMem prog1)
    let k : Sketch := ⟨0x100000, 3, 2, 0, 0x3F800000, 0⟩
    let gone := { k with base := 0x80000000 }
    NmuRuns (nearMem (progBatch 1)) (progBatch 1) ∧
    good (nmuSketch b prog1 (prog1.areg 1)) = true ∧ good (nmuSketch b prog1 (prog1.areg 2)) = false ∧ good (nmuSketch b prog1 (prog1.areg 5)) = false ∧
    (match nmuSketch b prog1 (prog1.areg 1) with | .ok (x, _) => decide (x = k) | _ => false) = true ∧
    passed (nmuCounters b prog1 .rmw k) = true ∧ passed (nmuCounters b prog1 .rmw gone) = false ∧
    passed (nmuCounters b prog1 .read k) = true ∧ passed (nmuCounters b prog1 .read gone) = false ∧
    passed (nmuCounters b prog1 .write k) = true ∧ passed (nmuCounters b prog1 .write gone) = false ∧
    ({ prog1 with line := [(⟨0x100000, 0, false, none⟩, 1)] } : NmuProg).inDrain = true ∧ 4096 < (progBatch 3841).batch.length + 256 ∧
    ((progBatch 3840).inDrain = false ∧ (progBatch 3840).batch.length + 256 ≤ 4096) ∧ (progBatch 1).pending = true ∧ prog1.pending = false ∧
    (match nmuSketch b prog1 (prog1.areg 6) with | .ok (y, _) => k.compat y && !k.clash y | _ => false) = true ∧
    k.clash { k with base := 0x100020 } = true ∧ k.compat { k with d := 1 } = false := by
  decide +kernel

theorem witness_nmu_control :
    let two := { prog1 with loops := [⟨1, 1, 2⟩, ⟨1, 0, 2⟩] }
    NmuRuns (nearMem two) two ∧ prog1.words.length ≤ prog1.pc + 2 ∧ prog1.pc + 1 < prog1.words.length ∧ 2 ≤ two.loops.length ∧
    prog1.loops.length < 2 ∧ prog1.areg 4 = 0 ∧ prog1.areg 0 ≠ 0 ∧ ((prog1.pc : Int) + sext 16 0xFFFF = (0 : Nat) ∧ 0 < prog1.words.length) ∧
    (prog1.pc : Int) + sext 16 0xFFFE < 0 ∧ (prog1.words.length : Int) ≤ (prog1.pc : Int) + sext 16 2 := by
  decide +kernel

theorem witness_nmu_sync :
    let b := nmuNoted (nearMem prog1)
    prog1.areg 2 % 8 ≠ 0 ∧ prog1.areg 1 % 8 = 0 ∧ passed (nmuXlat 1 0 0x7000 .read b) = true ∧ passed (nmuXlat 1 0 0x80000000 .read b) = false ∧
    (match nmuXlat 1 0 0x7000 .read b with
      | (.ok x, u) => decide (prog1.areg 7 ≤ ofBytes (nmuGet u 1 x 8).1) && decide (ofBytes (nmuGet u 1 x 8).1 < prog1.areg 3)
      | _ => false) = true ∧ (progBatch 1).pending = true ∧ prog1.pending = false := by
  decide +kernel

/-- A script of context 1 with three words. -/
def script1 : Script :=
  { ctx := 1, node := 0, words := [0, 0, 0], pc := 1, base := 0
    q := [(1, 3), (2, 63), (3, 64), (5, 0xFFFFFFFFFFFFFFFF), (6, 1024), (7, 1025), (8, 0x420000 + 17 * 256 + 48), (9, 0x420003), (10, 0x420403)], c := false
    wait := none }

/-- The device with that script in place 0; handle 0x42 bound to context 1, and the circuit of port 3 as given. -/
def withScript (c : SMap Circuit) (st : PortSt) : State :=
  { user with cur := Site.zero, scripts := [(0, script1)], handles := [(0x42, ⟨1, 0⟩)], circuits := c
              ports := [(3, { Port.zero with st := st, tx := trainedSet 0xFFFF, rx := trainedSet 0xFFFF })] }

/-- A granted circuit of a context. -/
def granted (ctx : Nat) : Circuit :=
  { st := .granted, ctx := ctx, peer := 17, pport := 5, cause := 0, id := 0, handle := 0x42, since := 0, releasedSeen := false }

theorem witness_script_own :
    ScriptRuns (withScript [] .dark) script1 ∧ script1.reg 0 = 0 ∧ script1.reg 1 ≠ 0 ∧
    ((script1.pc : Int) + (-1) = (0 : Nat) ∧ 0 < script1.words.length) ∧ (script1.pc : Int) + (-2) < 0 ∧
    (script1.words.length : Int) ≤ (script1.pc : Int) + 2 ∧ ({ script1 with c := true } : Script).c = true := by
  decide +kernel

theorem witness_circuit :
    let s := withScript [] .dark
    let w := script1.reg 8
    ScriptRuns s script1 ∧ (mget (withScript [(0, granted 1)] .live).circuits (w % 16)).isSome = true ∧ mget s.circuits (w % 16) = none ∧
    (w / 2 ^ 34 = 0 ∧ bits w 8 10 ≠ s.dev.getD 0 ∧ bits w 18 16 ≠ 0) ∧ script1.reg 5 / 2 ^ 34 ≠ 0 ∧
    (s.status.optics = true ∧ (portOf s (w % 16)).failedCh ≠ 15) ∧ (portOf { s with ports := [(0, { Port.zero with failedCh := 15 })] } 0).failedCh = 15 ∧
    (planeUp s = true ∧ planeUp { s with dev := none } = false) ∧ s.lanes ≠ [] ∧ ({ s with lanes := [] } : State).lanes = [] ∧ lowestHandle s 1 = some 0x42 ∧
    circuitFor s 1 3 = none ∧ circuitFor (withScript [(3, granted 1)] .live) 1 3 = some (granted 1) := by
  decide +kernel

theorem witness_buckle :
    let s := withScript [(3, granted 1)] .live
    ScriptRuns s script1 ∧ holdsBuckle s 1 (script1.reg 2) = true ∧ holdsBuckle s 1 (script1.reg 3) = false ∧
    ((circuitFor s 1 (script1.reg 1 % 16)).map (fun c => c.st) = some .granted) ∧ circuitFor s 1 (script1.reg 2 % 16) = none ∧
    (portOf (untie (passC s true) 63) 3).st = .live ∧ (portOf (untie (passC (withScript [(3, granted 1)] .trained) true) 63) 3).st ≠ .live := by
  decide +kernel

theorem witness_laser :
    let s := withScript [(3, granted 1)] .live
    let t := withScript [(3, granted 2)] .live
    let tx := (portOf s 3).tx
    ScriptRuns s script1 ∧ (liveFor s 1 3 = true ∧ dropBits (chansIn tx .lit) 3 ≠ 0 ∧ wlIn tx .lit &&& chanMask 3 ≠ 0) ∧
    (liveFor s 1 3 = true ∧ dropBits (chansIn tx .lit) 0 ≠ 0 ∧ wlIn tx .lit &&& chanMask 0 = 0) ∧ dropBits (chansIn tx .lit) 15 = 0 ∧
    liveFor t 1 3 = false ∧ 1024 < script1.reg 7 ∧ script1.reg 6 ≤ 1024 ∧ (mget t.circuits 3).map (fun c => c.ctx) = some 2 := by
  decide +kernel

theorem witness_message :
    let s := withScript [] .dark
    let r := script1.reg 9
    ScriptRuns s script1 ∧ bits (script1.reg 10) 10 6 ≠ 0 ∧ (bits r 10 6 = 0 ∧ r / 2 ^ 36 = 0 ∧ planeUp s = true ∧ r % 1024 = s.dev.getD 0) ∧
    planeUp { s with dev := none } = false ∧ (script1.reg 1 + 0x110000) % 1024 ≠ 0 ∧ r % 1024 ≠ ({ s with dev := some 4 } : State).dev.getD 0 ∧
    mget s.handles (bits r 16 16) = some ⟨1, 0⟩ ∧ mget s.handles (bits (script1.reg 1) 16 16) = none ∧
    (mailPut s 1 (bits r 32 4) 7).isSome = true ∧
    (mailPut { s with ctxs := [(1, { ctx1 with mailboxes := [(0, List.replicate 64 0)] })] } 1 0 7).isNone = true ∧
    script1.reg 0 % 2 ^ 32 = 0 ∧ script1.reg 1 % 2 ^ 32 ≠ 0 := by
  decide +kernel

/-- The device with the script, mailbox 0 of its context holding a value, another script waiting there since w where w is given, and a
graph whose node has count n. -/
def waiting1 (w : Option Nat) (n : Nat) : State :=
  { withScript [(3, granted 1)] .live with
    ctxs := [(1, { ctx1 with mailboxes := [(0, [7])] })]
    scripts := (0, script1) :: (match w with | some t => [(1, { script1 with wait := some (.mrcv 1 0 9, t) })] | none => [])
    graphs := [(0, ⟨1, [(0, { entry := [], payload := [], list := [], count := BitVec.ofNat 32 n, st := .loaded, launch := 0, order := 1 })],
      0, 0, 0, 1, .queue 40 0, some 40, true⟩)] }

theorem witness_script_wait :
    let s := withScript [(3, granted 1)] .live
    let lost := withScript [(3, { granted 1 with st := .failed })] .dark
    let w := waiting1 none 2
    ScriptRuns s script1 ∧ ScriptRuns w script1 ∧ ScriptRuns (waiting1 (some 0) 2) script1 ∧
    (liveFor s 1 3 = true ∧ liveFor (withScript [(3, granted 1)] .locking) 1 3 = false) ∧
    ((circuitFor s 1 3).map (·.st) = some .granted ∧ (circuitFor s 1 4).map (·.st) = none ∧ (circuitFor lost 1 3).map (·.st) = some .failed) ∧
    (mgetD script1.q 0 0 = 0 ∧ mgetD script1.q 1 0 ≠ 0) ∧
    ((match ctxOf w 1 with | some c => mgetD c.mailboxes 0 [] | none => []) = [7] ∧
      (match ctxOf w 1 with | some c => mgetD c.mailboxes 1 [] | none => []) = [] ∧
      earlierWaiter w 0 script1 0 w.ns = false ∧ earlierWaiter { waiting1 (some 0) 2 with ns := 1 } 0 script1 0 1 = true) ∧
    (nodeOf w 1 1 = none ∧ (nodeOf w 1 0).isSome = true ∧ (nodeOf w 1 0).map (fun q => q.2.2.count.toNat) = some 2 ∧
      2 ≤ script1.reg 1 % 2 ^ 32 ∧ script1.reg 0 % 2 ^ 32 < 2) := by
  decide +kernel

/-! ### Events -/

/-- Both slices of the user's warp in a wait. -/
def userPark (o : WaitObj) : State := updCw user (fun w => { w with slices := w.slices.map (fun x => { x with st := .park o }) })

/-- Core 0 with k warps of width 8, the first waiting for n granules, the active set as given. -/
def crowd (n k : Nat) (st : WarpSt) (active : List (Nat × Option Nat)) : State :=
  updCore (userPark (.racq n 9)) 0 (fun c => { c with
    warps := c.warps ++ (List.range k).map (fun i => (i + 1, { warp1 with uid := 20 + i, st := st, baseBlk := 4 * i + 4 })), active := active })

theorem witness_slot_events :
    let four := crowd 2 4 .resident [(0, none), (6, none), (7, some 3), (8, some 5)]
    let idle := fun (s : State) => (updCore s 0 (fun c => { c with active := c.active.map (idleMark s 0) }))
    (racqWaiters (coreOf user 0) = [] ∧ racqWaiters (coreOf (userPark (.racq 4 9)) 0) = [(9, 0, 3, 4)]) ∧
    (poolGranules (coreOf (userPark (.racq 4 9)) 0) 8 4).length = 4 ∧
    (poolGranules { coreOf (userPark (.racq 4 9)) 0 with warps := [(0, { warp1 with granules := (List.range 256).map (2 * ·) })] } 8 4).length < 4 ∧
    ((coreOf user 0).granted ≠ some user.cycle ∧ (coreOf (updCore user 0 (fun c => { c with granted := some 0 })) 0).granted = some user.cycle ∧
      3 ≤ (freeGranules (coreOf (userPark (.racq 3 9)) 0) (fileBlocks 8 - 8) (fileBlocks 8)).length) ∧
    (freeGranules { Core.zero with warps := [(0, { warp1 with granules := [504, 506, 508] })] } (fileBlocks 8 - 8) (fileBlocks 8)).length = 1 ∧
    ((coreOf (userPark (.racq 4 9)) 0).warps.all (fun x => x.2.slices.all Slice.ownPark)) = true ∧
    (coreOf user 0).warps.all (fun x => x.2.slices.all Slice.ownPark) = false ∧
    (coreOf user 0).emergency = false ∧ (coreOf (updCore user 0 (fun c => { c with emergency := true })) 0).emergency = true ∧
    (launch1.nextK = some 1 ∧ mayAssign user launch1 0 [3] = true ∧ outranked user 1 launch1 0 [3] = false) ∧
    ((mget { user with cbs := [(3, ⟨1, 1, 0, [1], 0, .assigned, [], []⟩)] }.cbs 3).map (fun c => c.st) = some .assigned ∧
      holderOf user (partOf 0) = some launch1.ctx ∧ ctxActive user 1 = true ∧ coreGrants user launch1 1 = true) ∧
    oldestWaiting (coreOf (idle user) 0) = none ∧ oldestWaiting (coreOf (idle (crowd 2 1 .resident [(0, none)])) 0) = some 1 ∧
    (coreOf (idle (crowd 2 1 .resident [(0, none)])) 0).active.length < 4 ∧
    oldestWaiting (coreOf (idle four) 0) = some 1 ∧ (coreOf (idle four) 0).active = [(0, some 0), (6, none), (7, none), (8, none)] ∧
    ((coreOf (idle four) 0).swapped ≠ some four.cycle ∧
      (coreOf (idle (updCore four 0 (fun c => { c with swapped := some 0 }))) 0).swapped = some four.cycle) ∧
    (let all4 := crowd 2 7 .resident [(4, none), (5, none), (6, none), (7, none)]
     oldestWaiting (coreOf (idle all4) 0) = some 1 ∧ ∀ a ∈ (coreOf (idle all4) 0).active, a.2 = none) ∧
    (let gone := updCw user (fun w => { w with st := .exiting })
     (warpOf gone 0 0).st = .exiting ∧ (warpOf gone 0 0).busy = [] ∧ (warpOf user 0 0).st ≠ .exiting) := by
  decide +kernel

/-- An operation of the user's warp in flight under number 9. -/
def inFlight (k : TxKind) (ps : List Part) : State := { user with txs := [(9, { storeTx 0 with kind := k, parts := ps })] }

/-- The same behind an earlier one under number 8. -/
def behind (k j : TxKind) : State :=
  { user with txs := [(8, { storeTx 0x60 with kind := j }), (9, { storeTx 0 with kind := k, parts := [] })] }

/-- A sketch word of the warp in flight with a counter event left, on the counter at an address. -/
def skTx (va : Nat) (todo : Bool) : Tx :=
  { storeTx 0 with kind := .skclr 0, parts := [], todo := if todo then [⟨0, 0, va, some ⟨va, 0, false, none⟩, .clear⟩] else [] }

/-- The same in flight under number 9, behind a store where the line of one is given. -/
def skFlight (todo : Bool) (line : Option Nat) : State :=
  { user with txs := (match line with | some l => [(8, storeTx l)] | none => []) ++ [(9, skTx 0x100000 todo)] }

theorem witness_access_events :
    let f : TxKind := .fence .domain .rel
    let flg := fun (pa : Nat) => WaitObj.flgw 1 ⟨pa, 0, false, none⟩ 0 .eq true false 0 0 none
    let op : CounterOp := ⟨0, 0, 0x100000, some ⟨0x100000, 0, false, none⟩, .clear⟩
    (accessesDone (inFlight f []) 5 3 9 = true ∧ sketchesDone (inFlight f []) 5 9 = true ∧ remotesDone (inFlight f []) 5 9 = true) ∧
    accessesDone (behind f .store) 5 3 9 = false ∧ sketchesDone (behind f (.skclr 0)) 5 9 = false ∧
    remotesDone (behind f (.remote 1 none .b32 3 none [])) 5 9 = false ∧
    (olderDone (inFlight .tlbi []) 9 = true ∧ olderDone (behind .tlbi .store) 9 = false ∧ pendingBatch user 1 = none ∧
      pendingBatch { user with nmus := [(0, ⟨[(0, progBatch 1)], [], 0⟩)] } 1 = some (0, 0, progBatch 1)) ∧
    ((skTx 0 true).kind.isSketch = true ∧ sketchReady (skFlight true none) 9 (skTx 0x100000 true) = true ∧
      sketchReady { skFlight true none with txs := [(8, { storeTx 0 with kind := f }), (9, skTx 0 true)] } 9 (skTx 0 true) = false ∧
      (skTx 0x100000 true).todo.filter (counterReady (skFlight true none) 9 (skTx 0x100000 true)) = [op] ∧
      (skTx 0x100000 true).todo.filter (counterReady (skFlight true (some 0x1000)) 9 (skTx 0x100000 true)) = [] ∧
      (skTx 0 true).todo ≠ [] ∧ (skTx 0 false).todo = []) ∧
    (((warpOf (userPark (flg 0x8000000000000)) 0 0).slice 1).st = .park (flg 0x8000000000000) ∧ (flg 0).timed = some (1, 0, 0) ∧
      inHost 0x8000000000000 = true ∧ inHost 0x6000 = false) := by
  decide +kernel

theorem witness_answer_events :
    let late := fun (r : Nat) (s : State) => { s with arrivals := [(0, (s.cycle, r)), (0x60, (s.cycle, r))] }
    (let tw := WaitObj.twait 1 0 0 5 0 false
     let s := { waiting1 none 2 with decrs := [⟨5, 1, 0, 1⟩] }
     askedLater s warp1 tw = true ∧ askedLater user warp1 tw = false ∧ tieGone user 1 tw = false ∧ waitTest s 1 tw = none ∧
       waitTest user 1 tw = some false ∧ tieGone user 1 (.bkw 1 63 5 0 (some 4)) = true ∧ warp1.stopped = none ∧
       (5 : Nat) ≠ 0xFFFFFFFF ∧ 5 ≤ ({ user with cycle := 5 } : State).cycle - 0) ∧
    (let s := inFlight .store [⟨0, .cache, [], false⟩]
     txHeld s 9 (storeTx 0) = false ∧ (match mget (performNear s 9).txs 9 with | some v => v.open_ | none => true) = false) ∧
    (let s := inFlight .store [⟨0, .home, [], false⟩]
     txHeld s 9 { storeTx 0 with parts := [⟨0, .home, [], false⟩] } = false ∧
       (match mget (performNear s 9).txs 9 with | some v => v.open_ | none => false) = true) ∧
    (let s := inFlight (.load (dv 1) .b32) [⟨0, .scratch, [], false⟩]
     (scratchTxs s 0).map (fun u => u.1) = [9] ∧
       (mget s.txs 9).map (fun t => partReady s 9 t ⟨0, .scratch, [], false⟩) = some true) ∧
    (let s := inFlight .store [⟨0, .home, [⟨0, ⟨0, 0, false, none⟩, [], 0, 0, none⟩], false⟩]
     let p : Part := ⟨0, .home, [⟨0, ⟨0, 0, false, none⟩, [], 0, 0, none⟩], false⟩
     (mget s.txs 9).map (fun t => partReady s 9 t p) = some true ∧ 0 ∈ p.lines ∧ lateAt s 0 0 = false ∧ lateAt (late 7 s) 0 0 = true) ∧
    (let ls := rangeLines user 1 0x6000 4 .read
     ls = [0x60] ∧ lateAt user hostRank 0x60 = false ∧ lateAt (late 2000 user) hostRank 0x60 = true ∧
       passed (readVa (arrive user hostRank ls) devCl 1 0x6000 4) = true ∧ passed (readVa user devCl 1 0x3FFFFFFE 4) = false) ∧
    (barBytes user 0x80000 4).isSome = true ∧ barBytes user 0x180000 4 = none ∧
    (barDone user (.block 2 1) = false ∧ barDone (setBar user (.block 2 1) ⟨0, 1, true, [5], []⟩) (.block 2 1) = true) ∧
    (nodeOf (waiting1 none 2) 1 0).isSome = true ∧ nodeOf (waiting1 none 2) 1 1 = none ∧
    (let rec1 : Record := ⟨1, 0, 0, 0, 0, 0, 0, 0, 3, 0, [5], none, none⟩
     let s := { user with ctxs := [(1, { ctx1 with records := [(7, rec1)] })] }
     (ctxOf s 1).bind (fun c => mget c.records 7) = some rec1 ∧ (1, 7) ∉ s.heldRecords ∧ (1, 7) ∈ ({ s with heldRecords := [(1, 7)] } : State).heldRecords ∧
       ({ rec1 with closing := some 0 } : Record).closing ≠ none ∧ (closeRecord s 1 7 0).isSome = true ∧ closeRecord user 1 7 0 = none) := by
  decide +kernel

/-- A collective of three members at its first exchange. -/
def coll1 : Coll :=
  { ctx := 1, stack := 0, sk := ⟨0x100000, 3, 2, 0, 0x3F800000, 0⟩, members := [0, 1, 2], self := 0, pair := false, handle := 0, bad := false
    heard := 0, accs := [], finals := [], skipped := [], unsent := [], early := [], descVa := 0x7000, remote := 0 }

/-- A pass of one K-step posted into entry 0 of cluster 0, its positions filled. -/
def pass1 : Pass :=
  { st := .waiting, ticket := 0, sparse := false, lut := false, fmt := 1, tra := false, trb := false, prio := 3, init := true, k := 1, m := 8
    n := 8, tile := 7, posA := [0], posB := [0], kdone := 0, age := 0, since := 0, order := 1, members := [(5, 0, 0)], launch := 1, zeroed := false
    ovfSeen := false }

/-- Cluster 0 with that pass in a state. -/
def withPass (p : Pass) (s : State) : State :=
  updClust s 0 (fun c => { c with passes := [(0, p)], filledA := [0], filledB := [0] })

/-- Context 1 in pre-emption: forced or graceful, drained or not, grace ending at 100, drain at 50, with partitions to save. -/
def preempting (forced drained : Bool) (left : List Nat) : State :=
  { user with ctxs := [(1, { ctx1 with st := .preempting, pre := some ⟨forced, 100, 50, none, drained, left⟩ })] }

/-- A queued program of a context for NMU 0. -/
def queued1 (ctx prog words : Nat) : State :=
  { user with cur := Site.zero, nmus := [(0, ⟨[], [⟨ctx, 0, 0, prog, words, [], [], 1, none⟩], 0⟩)] }

theorem witness_copy_and_pass_events :
    let s := fun (x : Copy) => withCopy x user
    let c : CopyRef := ⟨0, 127⟩
    let fl : SMap Chunk := [(0, ⟨[1], 0, ⟨0x8000, 0, false, none⟩⟩)]
    let adm := { copy1 with st := .admission }
    ((c, adm) ∈ allCopies (s adm) ∧ copyRuns (s adm) 1 = true ∧ (allCopies (s adm)).length = 1 ∧ accessesDone (s adm) 5 0xFFFF 9 = true) ∧
    accessesDone { s { adm with after := 10 } with txs := [(9, storeTx 0x60)] } 5 0xFFFF 10 = false ∧
    (adm.total = 256 ∧ ({ adm with r2 := 0 } : Copy).total = 0) ∧
    (copyOf (s { copy1 with st := .bkwait 4 }) c = some { copy1 with st := .bkwait 4 } ∧ holdsBuckle user 1 0 = false ∧
      holdsBuckle user 1 63 = true ∧ mget user.buckles 63 = none ∧ mget { user with buckles := [(63, ⟨3, true, 4⟩)] }.buckles 63 = some ⟨3, true, 4⟩) ∧
    (({ copy1 with failing := true, flight := fl } : Copy).flight ≠ [] ∧ bit ({ copy1 with mask := 1 } : Copy).mask 0 = true) ∧
    (let pw := { copy1 with st := .panelwait, op := .copyf, pos := 7 }
     copyOf (s pw) c = some pw ∧ pw.pos < 8 ∧ posReleased { Cluster.zero with headB := 1 } false 0 = true) ∧
    (copyOf (s copy1) c = some copy1 ∧ copy1.failing = false ∧ mget copy1.flight copy1.next = none ∧ copy1.chunkOff copy1.pfx < copy1.total ∧ copy1.next < copy1.pfx + 16 ∧
      bit copy1.mask (copy1.next - copy1.pfx) = false) ∧
    (({ copy1 with pfx := 1 } : Copy).total ≤ ({ copy1 with pfx := 1 } : Copy).chunkOff 1) ∧
    (({ copy1 with failing := true } : Copy).failing = true ∧ ({ copy1 with failing := true } : Copy).flight = []) ∧
    mget ({ copy1 with flight := fl } : Copy).flight 0 = some ⟨[1], 0, ⟨0x8000, 0, false, none⟩⟩ ∧
    (user.ns < 0 + 1000000 ∧ 0 + 1000000 ≤ ({ user with ns := 1000000 } : State).ns) ∧
    ((ctxOf (preempting true false []) 1).bind Ctx.preempt = some ⟨true, 100, 50, none, false, []⟩ ∧ (preempting true false []).ns < 50 ∧
      50 ≤ ({ preempting true false [] with ns := 50 } : State).ns) ∧
    (let lat : Latch := ⟨true, 0x1000000000000, 3535431639096098832, 0x1080800, [5], []⟩
     (harnMembers lat.v.toNat).map (memberAt 0) = [(0, 0)] ∧ (warpOf user 0 0).uid = 5 ∧ freeEntry (clustOf user 0) = some 0 ∧
       lat.filling = true ∧ postBehind user 0 3 = false ∧ (warpOf (latchSweep user 0 3) 0 0).uid ∈ lat.arrived ∧ (latchWord lat.word.toNat).isSome = true) ∧
    (clusterForced user 0 = false ∧ arbitrate (withPass pass1 user) 0 = some (0, pass1) ∧ clusterForced (preempting true false []) 0 = true) ∧
    (let r := { pass1 with st := .running, zeroed := true }
     (clustOf (withPass r user) 0).passes.find? (fun q => q.2.st == .running) = some (0, r) ∧ badCodes (clustOf (withPass r user) 0) r = false ∧
       r.kdone + 1 = r.k ∧ ({ r with k := 2 } : Pass).kdone + 1 ≠ 2) := by
  decide +kernel

theorem witness_unit_events :
    let s := queued1 1 0x6000 4
    let q : NmuQueued := ⟨1, 0, 0, 0x6000, 4, [], [], 1, none⟩
    let u := nmuOf s 0
    nextQueued (queued1 2 0x6000 4) (nmuOf (queued1 2 0x6000 4) 0) = none ∧ nextQueued s u = some q ∧
    (mfresh u.places 0 4 = 0 ∧ u.used + 16384 ≤ 16384 ∧ bit s.status.stackMask 0 = true ∧ earlierReady s 2 q.order (namesStack s 0) = false) ∧
    mfresh (⟨[(0, prog1), (1, prog1), (2, prog1), (3, prog1)], [], 0⟩ : Nmu).places 0 4 = 4 ∧
    (passed (readVa user devCl 1 0x6000 16) = true ∧ passed (readVa user devCl 1 0x40000000 16) = false) ∧
    (nmuProg (nearMem prog1) 0 0 = some prog1 ∧ nmuActive (nearMem prog1) 1 = true ∧ prog1.fault = none ∧ prog1.pending = false ∧
      (progBatch 1).pending = true ∧ nmuActive (preempting true false []) 1 = false ∧ nmuActive (preempting false false []) 1 = true) ∧
    (({ prog1 with parked := some (⟨0x7000, 0, false, none⟩, 0, true) } : NmuProg).parked = some (⟨0x7000, 0, false, none⟩, 0, true)) ∧
    (coll1.neighbours.length = 2 ∧ coll1.heard + 1 < coll1.neighbours.length ∧ ({ coll1.peer with d := 3 } : CollPeer) ≠ coll1.peer ∧
      coll1.peer.abort = none ∧ coll1.peer.bad = false ∧ 15 + ([0] : List W32).length ≤ coll1.sk.count ∧
      coll1.neighbours.length ≤ ({ coll1 with heard := 2 } : Coll).heard) := by
  decide +kernel

/-- A launch from a queue, submitted. -/
def submitted (p : List Byte) (rel : Option Relaunch) : State :=
  { user with launches := [(1, { launch1 with pkt := p, st := .submitted, src := .queue 40 0, queue := some 40, nextCb := 0, rel := rel })]
              queues := [(40, queue1)] }

/-- A graph packet: its table of one node at 0x6000, slot 0 (12 Table kernel-2). -/
def graphPkt : List Byte := packet64 [(0, 2), (8, 0x6000), (16, 0)]

/-- A traced kernel with its buffer at 0x7000. -/
def tracedPkt : List Byte :=
  packet64 [(0, 1), (1, 1), (3, 1), (4, 1), (6, 1), (8, 0x4000), (16, 0x5000), (24, 16), (28, 8), (32, 2), (36, 256), (40, 0x7000), (48, 1)]

/-- A node of type t whose payload is at va and successor list at la. -/
def node1 (t va la : Nat) (st : NodeSt) : Node :=
  { entry := toBytes 32 (t + va * 256 ^ 8 + la * 256 ^ 24), payload := [], list := [], count := 0, st := st, launch := 0, order := 1 }

/-- A graph in slot 0 of one node. -/
def graph1 (n : Node) (running : Bool) : State :=
  { user with graphs := [(0, ⟨1, [(0, n)], 0, 0, 0, 1, .queue 40 0, some 40, running⟩)], queues := [(40, queue1)] }

/-- A relaunch of the buffer at 0x7000, its header not yet read. -/
def rel1 (tb : Nat) : Relaunch := ⟨tb, .none, 0, [], 0, 0, false, 0, [], none⟩

theorem witness_launch_events :
    let tr : State := { submitted [] (some (rel1 0x7000)) with mem := (tracedPkt.mapIdx (fun i b => (0x7000 + i, b))).filter (fun c => c.2 != 0) ++ user.mem }
    refuseReason user 1 kernelPkt = none ∧ (refuseReason user 1 (packet64 [(0, 1)])).isSome = true ∧
    (fld kernelPkt 0 1 = 1 ∧ ctxActive (submitted kernelPkt none) 1 = true ∧
      (mget (submitted kernelPkt none).launches 1).map (fun l => (l.st, traceBusy (submitted kernelPkt none) 1 l)) = some (.submitted, false)) ∧
    ((mget tr.launches 1).map (fun l => traceBusy tr 1 l) = some false ∧
      ((readAs tr devCl 1 .rmw 0x7000 256).1.toOption.map (fun h => h.take 64)) = some tracedPkt ∧ bit (fld tracedPkt 1 1) 0 = true ∧
      refuseReason tr 1 tracedPkt = none ∧ passed (readAs user devCl 1 .rmw 0x40000000 256) = false ∧
      ((readAs user devCl 1 .rmw 0x7000 256).1.toOption.map (fun h => (refuseReason user 1 (h.take 64)).isSome)) = some true ∧
      refuseReason user 1 kernelPkt = none ∧ bit (fld kernelPkt 1 1) 0 = false) ∧
    (launchQuiet user 1 = true ∧ launchQuiet (userBusy [] 0x60) 1 = false) ∧
    (fld graphPkt 0 1 = 2 ∧ (mget (submitted graphPkt none).launches 1).map (fun l => slotFree (submitted graphPkt none) (graphSlot l)) = some true ∧
      passed (readVa user devCl 1 0x6000 32) = true ∧ passed (readVa user devCl 1 0x3FFFFFE1 32) = false) := by
  decide +kernel

theorem witness_node_events :
    let good : List Byte := (node1 7 0x6000 0x6100 .ready).entry
    (budgetHeld user none = false ∧ ctxActive user 1 = true ∧ freeChannel user = some 0 ∧
      earlierReady (graph1 (node1 2 0 0 .ready) true) 2 1 (fun _ _ => true) = false ∧
      earlierReady (graph1 (node1 2 0 0 .ready) true) 2 2 (fun _ _ => true) = true) ∧
    entryBad good = false ∧ entryBad (node1 8 0x6000 0 .ready).entry = true ∧ entryBad (node1 7 0x6001 0 .ready).entry = true ∧
    (passed (readNode user 1 good) = true ∧ passed (readNode user 1 (node1 7 0x40000000 0 .ready).entry) = false ∧
      passed (readNode user 1 (node1 7 0x6000 0x40000000 .ready).entry) = false) ∧
    passed (startAgent user 1 0 1 none 7 0x6000 (List.replicate 32 0)) = true ∧
    passed (startAgent user 1 0 1 none 6 0x6000 (List.replicate 15 0 ++ [1])) = false ∧
    ((hostSig user 1 (List.replicate 32 0)).1 = false ∧
      (hostSig { user with mem := (0x12008, 0x1F) :: (0x1200F, 0x08) :: user.mem } 1 ([0, 0, 0, 0x40] ++ List.replicate 28 0)).1 = false) ∧
    ((graph1 (node1 7 0 0 .done) true).graphs.map (fun g => (g.2.running, (mget g.2.nodes 0).map (fun n => n.st))) = [(true, some .done)]) ∧
    (NodeSt.done.over = true ∧ NodeSt.running.over = false) := by
  decide +kernel

theorem witness_queue_events :
    let bell := packet64 [(0, 3), (8, 1)]
    let busy : Queue := { queue1 with st := .active, tail := 1, inl := [(0, kernelPkt)] }
    let s := fun (q : Queue) => { user with queues := [(40, q)] }
    let paid : Queue := { queue1 with desc := { queue1.desc with budget := 1, period := 1 } }
    let after := consumeHead (s busy) 40 busy
    let two : Queue := { busy with tail := 2, inl := [(0, packet64 [(0, 1)]), (1, kernelPkt)], deficit := 2 }
    (queue1.takes = true ∧ kernelPkt.length = 64 ∧ fld kernelPkt 0 1 = 1 ∧ bell.length = 64 ∧ fld bell 0 1 = 3) ∧
    (queue1.full = false ∧ ({ queue1 with tail := 2 } : Queue).full = true) ∧
    (queue1.tail ≤ fld bell 8 8 ∧ fld bell 8 8 - queue1.head ≤ 2 ^ queue1.desc.order ∧ fld bell 1 7 = 0 ∧ allZero (bell.drop 16) = true) ∧
    ¬ (3 - queue1.head ≤ 2 ^ queue1.desc.order) ∧ (0x100008 + 0x200 * 15 = 0x101E08 ∧ (1024 : W64).toNat % 2 ^ 32 ≤ 1024) ∧
    (chooseQueue (s queue1) = none ∧ (chooseQueue (s busy)).map (fun q => q.1) = some 40) ∧
    ((mget after.queues 40).map (fun y => eligibleQueue after 40 y) = some false ∧
      (mget (consumeHead (s two) 40 two).queues 40).map (fun y => eligibleQueue (consumeHead (s two) 40 two) 40 y) = some true) ∧
    (pendingCharge (s paid) 40 = List.replicate 9 0 ∧ pendingCharge { s paid with charges := [(641, 5)] } 40 ≠ List.replicate 9 0 ∧
      ¬ (1024 : Nat) < (1024 : W64).toNat % 2 ^ 32 ∧ 1024 < (1025 : W64).toNat % 2 ^ 32) ∧
    ((if busy.deficit = 0 then busy.desc.quantum else busy.deficit) - 1 = 0 ∧ ({ busy with deficit := 2 } : Queue).deficit - 1 ≠ 0) ∧
    (queue1.desc.budget = 0 ∧ paid.desc.budget ≠ 0 ∧ user.ns < paid.periodStart + 1000 * 1 ∧ paid.periodStart + 1000 * 1 ≤ 1000) ∧
    (({ queue1 with st := .destroyed } : Queue).st = .destroyed ∧ user.status.firmware = true) := by
  decide +kernel

theorem witness_mailbox :
    user.status.firmware = true ∧ State.reset.status.firmware = false ∧ descOk { desc1 with id := 2, pmask := 2, keys := 3 } = true ∧ idFree user 2 = true ∧
    keysTaken user 2 3 = false ∧ (liveCtx user 1).isSome = true ∧ liveCtx user 2 = none ∧ (ctx1.st = .resident ∨ ctx1.st = .running) ∧
    ((liveCtx (preempting false false []) 1).bind (fun c => c.pre)) = some ⟨false, 100, 50, none, false, []⟩ ∧
    (∀ n ∈ [0, 63], n < 64 ∧ ∀ x ∈ user.ctxs, x.1 ≠ 1 → n ∉ x.2.buckles) ∧ (∀ n ∈ [0, 255], n < 256 ∧ ∀ x ∈ user.ctxs, x.1 ≠ 1 → n ∉ x.2.buckets) ∧
    (∀ n ∈ [0, 4095], n < 4096 ∧ ∀ x ∈ user.ctxs, x.1 ≠ 1 → n ∉ x.2.slots) ∧
    queueDescOk { queue1.desc with order := 4, cplent := 16, period := 100 } = true ∧ mget user.queues 4095 = none ∧ mget user.handles 0x42 = none ∧
    mget (withScript [] .dark).handles 0x42 = some ⟨1, 0⟩ ∧ (hostMap user 0x1000).isSome = true ∧ hostMap { user with hostHoles := [(0x8000000001000, 1)] } 0x1000 = none ∧
    fld ([(0x0F : Byte)] ++ List.replicate 63 0) 0 1 = 0x0F := by
  decide +kernel

theorem witness_context_events :
    let sw := fun (h : SMap Nat) => { user with holder := h, ctxs := [(1, { ctx1 with st := .swapped, restoring := some ([0], none) })] }
    let p := preempting false false [0]
    (let s := { user with heldRecords := [(1, 7)], ctxs := [(1, { ctx1 with records := [(7, ⟨1, 0, 0, 0, 0, 0, 0, 0, 3, 0, [5], none, none⟩)] })] }
     s.heldRecords[0]? = some (1, 7) ∧ s.heldRecords.find? (fun q => q.1 == 1) = some (1, 7) ∧ (heldTry s (1, 7)).isSome = true ∧
       (heldTry { s with ctxs := [(1, { ctx1 with desc := { desc1 with event := 0, evring := 0 }, records := [(7, ⟨1, 0, 0, 0, 0, 0, 0, 0, 3, 0, [5], none, none⟩)] })] } (1, 7)).isSome = false ∧
       ({ s with heldRecords := [(1, 6), (1, 7)] } : State).heldRecords.find? (fun q => q.1 == 1) ≠ some (1, 7)) ∧
    user.heldRecords[0]? = none ∧ inDevice 0x6000 = true ∧
    ((ctxOf p 1).bind Ctx.preempt = some ⟨false, 100, 50, none, false, [0]⟩ ∧ p.ns < 100 ∧ 100 ≤ ({ p with ns := 100 } : State).ns) ∧
    (blocksDone p 1 = false ∧ passesOver p 1 = true ∧ copiesOver p 1 = true ∧ nmuClear p 1 = true ∧ blocksDone { p with blocks := [] } 1 = true) ∧
    ((mget (sw []).ctxs 1).map (fun c => partsFree (sw []) c) = some true ∧ (mget (sw [(0, 9)]).ctxs 1).map (fun c => partsFree (sw [(0, 9)]) c) = some false) ∧
    (holderOf p 0 = some 1 ∧ toShadow desc1.pmask 0 = true ∧ shadowUsed p 0 = false ∧
      partQuiet (preempting false true [0]) 1 0 ⟨false, 100, 50, none, true, [0]⟩ = true ∧ partQuiet p 1 0 ⟨false, 100, 50, none, false, [0]⟩ = false) ∧
    shadowWanted user 0 2 = false ∧ shadowWanted p 0 2 = true ∧ shadowWanted p 0 1 = false ∧
    (let f := updCw (warp8 [] [] []) (fun w => { w with st := .held })
     (warpOf f 191 0).firmware = true ∧ (warpOf f 191 0).st = .held) := by
  decide +kernel

/-- A request for a line from device 17 in flight since 0. -/
def req1 (type : Nat) (o : ReqOwner) : Req := ⟨1, 17, 4, type, ⟨3, 17, 0x42, 4, 0, 0, 0, 0x6000⟩, toBytes 8 0, 0, o⟩

theorem witness_packet_events :
    let h : PktHdr := ⟨17, 3, 0x42, 4, 0, 0, 0, 0x6000⟩
    let s : State := { withScript [] .dark with handles := [(0x42, ⟨1, BitVec.allOnes 1024⟩)], reqs := [req1 1 (.word 9 [(0, 0)])] }
    let q : State := { user with scriptQueue := [⟨1, 0, 0x6000, 16384, [], 1⟩] }
    (user.dev.getD 3 = 3 ∧ user.dev.getD 4 ≠ 4 ∧ 0 ∈ user.lanes ∧ 1 ∉ user.lanes) ∧
    (handleCtx s 17 0x42 = some 1 ∧ handleCtx s 17 0x43 = none ∧ passed (remoteXlat s 1 0x6000 .read) = true ∧
      passed (remoteXlat s 1 0x40000000 .read) = false) ∧
    (atomOfCode 8 = some .fadd ∧ atomOfCode 9 = none) ∧
    (passed (packetStores s 1 h 0xF (List.replicate 256 1)) = true ∧ passed (packetStores s 1 { h with line := 0x40000000 } 1 (List.replicate 256 1)) = false) ∧
    ((packetStores s 1 h 0xF (List.replicate 256 1)).2.mem ≠ s.mem ∧ bit h.op 3 = false ∧ bit ({ h with op := 8 } : PktHdr).op 3 = true ∧
      passed (remoteXlat s 1 0x7000 .rmw) = true) ∧
    (findReq s 17 4 = some (req1 1 (.word 9 [(0, 0)])) ∧ findReq s 17 5 = none ∧ s.ns < 0 + 1000000) ∧
    ((user.fmSources).getLsbD 17 = false ∧ ({ user with fmSources := 0x20000 } : State).fmSources.getLsbD 17 = true ∧ planeUp user = true) ∧
    (nextScript q = some ⟨1, 0, 0x6000, 16384, [], 1⟩ ∧ nextScript user = none ∧ mget user.scripts 0 = none ∧
      q.scripts.foldl (fun n x => n + x.2.words.length) 0 + 16384 ≤ 16384 ∧ earlierReady q 5 1 (fun _ _ => true) = false ∧
      ¬ (withScript [] .dark).scripts.foldl (fun n x => n + x.2.words.length) 0 + 16384 ≤ 16384) ∧
    ((scriptTest (withScript [(3, granted 1)] .locking) 0 script1 (.cwait .live 4 3 5) 0) = none ∧
      (scriptTest (withScript [(3, granted 1)] .live) 0 script1 (.cwait .live 4 3 5) 0).isSome = true) ∧
    ((⟨0, 1, h, []⟩ : SentPkt).lane = 0 ∧ (0 : Nat) ∈ user.lanes) := by
  decide +kernel

theorem witness_port_events :
    let s := withScript [(3, granted 1)] .live
    let at_ := fun (st : PortSt) => portOf (withScript [(3, granted 1)] st) 3
    let flit := toBytes 256 (2 ^ 60)
    let fresh := { user with ports := [(3, { Port.zero with st := .live })] }
    ((flitOk fresh 3 flit).1.isNone = true ∧ (portOf (flitOk fresh 3 flit).2 3).st = .live ∧ (portOf (flitOk user 3 flit).2 3).st = .dark) ∧
    ((at_ .live).st = .live ∧ (at_ .trained).st = .trained ∧ (at_ .locking).st = .locking ∧ (at_ .draining).st = .draining ∧ (at_ .dark).st = .dark) ∧
    ((at_ .live).replay = [] ∧ (portOf s 3).lastRx + 20000 ≤ ({ s with ns := 20000 } : State).ns ∧ s.ns < 20000) ∧
    (stripeOf (at_ .live).rx = 0xFFFF ∧ dropBits 0xFFFF 0xFFFE = 1 ∧ popcount 16 1 < 2 ∧ 2 ≤ popcount 16 (dropBits 0xFFFF 1) ∧
      (0xFFFF &&& 0 : Nat) = 0) ∧
    (mget ({ Port.zero with waking := [(3, 0)] } : Port).waking 3 = some 0 ∧ s.ns < 50000) ∧
    (wlIn ({ Port.zero with tx := [(15, .waking)] } : Port).tx .waking &&& 0x8000 ≠ 0) ∧
    (mget s.circuits 3 = some (granted 1) ∧ mget s.circuits 4 = none ∧ (granted 1).st = .granted ∧ ({ granted 1 with st := .requested } : Circuit).st = .requested) ∧
    (let m : CtlMsg := ⟨0, 3, 3, 5, 17, 0x42⟩
     (ctlEnd s m).1 = 3 ∧ (granted 1).joins (ctlEnd s m) = true ∧ ({ granted 1 with peer := 9 } : Circuit).joins (ctlEnd s m) = false ∧
       (ctlEnd s m).2.2.2 = true) ∧
    (let m : CtlMsg := ⟨0, 17, 5, 3, 3, 0x42⟩
     (ctlEnd user m).1 = 3 ∧ (ctlEnd user m).2.2.2 = false ∧ handleCtx user 17 0x42 = none ∧
       handleCtx { user with handles := [(0x42, ⟨1, BitVec.allOnes 1024⟩)] } 17 0x42 = some 1) ∧
    (let x : Copy := { copy1 with op := .copyr, st := .run, flight := [(0, ⟨[], 0, ⟨0, 0, false, none⟩⟩)] }
     x.flight.find? (fun q => x.dstAt (x.chunkOff q.1) % 2 ^ 56 == 0x8000 % 2 ^ 56) = some (0, ⟨[], 0, ⟨0, 0, false, none⟩⟩)) ∧
    (planeUp s = true ∧ planeUp State.reset = false ∧ s.status.optics = true ∧ State.reset.status.optics = false) ∧
    (let x : Copy := { copy1 with op := .copyr, st := .done, c := 0x420011, r3 := 0x9000, flight := [(sigFlight, ⟨[], 0, ⟨0, 0, false, none⟩⟩)] }
     x.over = true ∧ (mget x.flight sigFlight).isSome = true ∧ x.r3.toNat % 2 ^ 56 = 0x9000 % 2 ^ 56) := by
  decide +kernel

/-! ### The machine as a whole -/

/-- The user's warp offers its word; the site is not yet set. -/
def offering (w : Nat) : State :=
  { user with cur := Site.zero, mem := ((List.range 8).map (fun i => ((0x4000 + i, BitVec.ofNat 8 (w / 256 ^ i)) : Host.Cell))).filter (fun c => c.2 != 0) ++ user.mem }

theorem witness_step :
    let c := { offering 0x2090000000000000 with cur := { Site.zero with mask := 3 } }
    passed (translate c 0 1 0x4000 .fetch) = true ∧
    (match fetchWord c 0 1 0x4000 8 with | (.ok n, _) => n | _ => 0) = 0x2090000000000000 ∧ decodeCore 0x2090000000000000 = .ok .nop ∧
    decodeCore 0 = .illegalOpcode ∧ passed (fetchWord c 0 1 0x40000000 8) = false ∧
    ((coreOf c 0).issued ≠ some c.cycle ∧ activeWarps c 0 = [(0, warp1)] ∧ offerOf c 0 (0, warp1) = some (0, 3) ∧ warp1.packs = false) ∧
    (nmuProg (nearMem prog1) 0 0 = some prog1 ∧ prog1.fault = none ∧ nmuNext (nearMem prog1) 0 = some 0 ∧ nmuLate (nearMem prog1) = false ∧
      prog1.words[prog1.pc]? = some 0 ∧ ({ prog1 with pc := 3 } : NmuProg).words[3]? = none) ∧
    (mget (withScript [] .dark).scripts 0 = some script1 ∧ script1.wait = none ∧ nextReady (withScript [] .dark) = some 0 ∧
      script1.words[script1.pc]? = some 0) ∧
    isMove (.rcloseRetry 1 7) = true ∧ isMove .nop = false := by
  decide +kernel

theorem witness_fault_order :
    let latch := (⟨ds 3, .latch 0, ov 127, .i32, false⟩ : Int2)
    let unheld := (⟨dv 128, ov 1, ov 2, .i32, false⟩ : Int2)
    [(latch.a, latch.ty.wide), (latch.b, latch.ty.wide)].any (badLatch user) = true ∧
    ([(unheld.a, unheld.ty.wide), (unheld.b, unheld.ty.wide)].any (badLatch user) = false ∧ (useInt2 unheld false).codes.any (cw user).unheld = true) ∧
    ({ user with status := { user.status with matrix := false } } : State).status.matrix = false ∧
    ([(os 4, false), (os 5, true)].any (badLatch user) = false ∧ (fwUse (ds 10) (os 4) (os 5)).codes.any (cw user).unheld = false ∧
      (cw user).firmware = false) := by
  decide +kernel

theorem witness_fault :
    let k := coreOf user 0
    mget user.cores user.cur.core = some k ∧ mget k.warps user.cur.slot = some warp1 ∧ warp1.firmware = false ∧ ctxOf user warp1.ctx = some ctx1 ∧
    recordOn ctx1 (flt 1).page = none ∧
    recordOn { ctx1 with records := [(7, ⟨9, 0, 0, 0, 0, 0, 0, 0, 3, 0, [6], some 5, none⟩)] } (some 5) = some 7 ∧
    (mget (coreOf (warp8 [] [] []) 191).warps 0).map (fun w => w.firmware) = some true := by
  decide +kernel

theorem witness_memory_canonical :
    Memory.wf (State.reset.withFetchWord 64 0x2090000000000000).mem = true ∧
    (match step (State.reset.withFetchWord 64 0x2090000000000000) with | .next _ => true | _ => false) = true := by
  decide +kernel

theorem witness_encoding :
    Instr.wf .nop = true ∧ Instr.wf .nend = true ∧ Instr.wf (.brq false 7 0) = true ∧ isCore .nop = true ∧ Instr.isNmu .nend = true ∧
    Instr.isCratch (.brq false 7 0) = true := by
  decide +kernel
end Sys2Proof.Tests
end

section
/-! PROOFS. The device after reset: what each accessor reads in it. -/

namespace Sys2Proof.Claims

open Sys2Proof.Machine

/-- A map that lists nothing reads as the default at every key. -/
@[simp] theorem mgetD_nil {α : Type} (k : Nat) (d : α) : mgetD ([] : SMap α) k d = d := rfl

@[simp] theorem coreOf_reset (k : Nat) : coreOf State.reset k = .zero := mgetD_nil k _

@[simp] theorem portOf_reset (p : Nat) : portOf State.reset p = .zero := mgetD_nil p _

@[simp] theorem nmuOf_reset (g : Nat) : nmuOf State.reset g = .zero := mgetD_nil g _

@[simp] theorem ctxOf_reset (i : Nat) : ctxOf State.reset i = none := mget_nil i

@[simp] theorem holderOf_reset (p : Nat) : holderOf State.reset p = none := mget_nil p

/-- No warp stands in any slot. -/
theorem reset_noWarp (k n : Nat) : mget (coreOf State.reset k).warps n = none := by
  rw [coreOf_reset]; exact mget_nil n

/-- No near-memory program stands in any place. -/
theorem reset_noNmuProg (g p : Nat) : nmuProg State.reset g p = none := by
  rw [nmuProg, nmuOf_reset]; exact mget_nil p

/-- The reset column of 15 Table link-9, and the link counters and AUTOWAKE at 0. -/
theorem reset_portDark (p : Nat) :
    (portOf State.reset p).st = .dark ∧ (portOf State.reset p).failed = false ∧ (portOf State.reset p).peer = 0 ∧
      (portOf State.reset p).autowake = 0 ∧ (portOf State.reset p).replays = 0 ∧ (portOf State.reset p).feccor = 0 ∧
      (portOf State.reset p).fecunc = 0 := by
  rw [portOf_reset]; exact ⟨rfl, rfl, rfl, rfl, rfl, rfl, rfl⟩

/-- Settles O55: the cores, ports and near-memory units stand at their own reset values, every other map lists nothing, and the memory
is in canonical form by `reset_memory_wf`. -/
theorem resetLeavesDeviceDark : Obligations.ResetLeavesDeviceDark := by
  unfold Obligations.ResetLeavesDeviceDark
  exact ⟨reset_noWarp, ctxOf_reset, holderOf_reset, rfl, rfl, rfl, rfl, reset_portDark, fun h => mget_nil h,
    fun q => mget_nil q, rfl, rfl, reset_noNmuProg, fun p => mget_nil p, reset_memory_wf, fun a => mget_nil a⟩

end Sys2Proof.Claims
end

section
/-! PROOFS. Decoding gives back what was encoded, and the words that the spec writes out (01, 11, 16). -/

namespace Sys2Proof.Claims

open Sys2Proof.Laws

/-- Settles O57, by the law `RoundTrip` of each instruction that has a word; an event has none. -/
theorem decodeEncodeAgree : Obligations.DecodeEncodeAgree := by
  intro i
  cases i with
  | iadd x => exact RoundTrip.iadd x
  | isub x => exact RoundTrip.isub x
  | imul x => exact RoundTrip.imul x
  | imulh x => exact RoundTrip.imulh x
  | imad x => exact RoundTrip.imad x
  | imadw x => exact RoundTrip.imadw x
  | imin x => exact RoundTrip.imin x
  | imax x => exact RoundTrip.imax x
  | iabs x => exact RoundTrip.iabs x
  | and x => exact RoundTrip.and x
  | or x => exact RoundTrip.or x
  | xor x => exact RoundTrip.xor x
  | andn x => exact RoundTrip.andn x
  | shl x => exact RoundTrip.shl x
  | shr x => exact RoundTrip.shr x
  | sar x => exact RoundTrip.sar x
  | rotr x => exact RoundTrip.rotr x
  | popc x => exact RoundTrip.popc x
  | clz x => exact RoundTrip.clz x
  | brev x => exact RoundTrip.brev x
  | bfx x => exact RoundTrip.bfx x
  | bfi x => exact RoundTrip.bfi x
  | lea x => exact RoundTrip.lea x
  | icmp x => exact RoundTrip.icmp x
  | sel x => exact RoundTrip.sel x
  | mov x => exact RoundTrip.mov x
  | movi x => exact RoundTrip.movi x
  | movs x => exact RoundTrip.movs x
  | movsSl x => exact RoundTrip.movsSl x
  | plog x => exact RoundTrip.plog x
  | fadd x => exact RoundTrip.fadd x
  | fsub x => exact RoundTrip.fsub x
  | fmul x => exact RoundTrip.fmul x
  | ffma x => exact RoundTrip.ffma x
  | fmin x => exact RoundTrip.fmin x
  | fmax x => exact RoundTrip.fmax x
  | fcmp x => exact RoundTrip.fcmp x
  | fcls x => exact RoundTrip.fcls x
  | hadd2 x => exact RoundTrip.hadd2 x
  | hmul2 x => exact RoundTrip.hmul2 x
  | hfma2 x => exact RoundTrip.hfma2 x
  | dadd x => exact RoundTrip.dadd x
  | dmul x => exact RoundTrip.dmul x
  | dfma x => exact RoundTrip.dfma x
  | dcmp x => exact RoundTrip.dcmp x
  | frcp x => exact RoundTrip.frcp x
  | frsq x => exact RoundTrip.frsq x
  | fsqt x => exact RoundTrip.fsqt x
  | fdiv x => exact RoundTrip.fdiv x
  | fex2 x => exact RoundTrip.fex2 x
  | flg2 x => exact RoundTrip.flg2 x
  | fsin x => exact RoundTrip.fsin x
  | fcos x => exact RoundTrip.fcos x
  | ftnh x => exact RoundTrip.ftnh x
  | cvt x => exact RoundTrip.cvt x
  | cvts x => exact RoundTrip.cvts x
  | scsel x => exact RoundTrip.scsel x
  | efq x => exact RoundTrip.efq x
  | bzpk x => exact RoundTrip.bzpk x
  | bzup x => exact RoundTrip.bzup x
  | f8pk x => exact RoundTrip.f8pk x
  | f8up x => exact RoundTrip.f8up x
  | scacc x => exact RoundTrip.scacc x
  | shfl x => exact RoundTrip.shfl x
  | shfx x => exact RoundTrip.shfx x
  | bcst x => exact RoundTrip.bcst x
  | vote x => exact RoundTrip.vote x
  | redt x => exact RoundTrip.redt x
  | scan x => exact RoundTrip.scan x
  | redx x => exact RoundTrip.redx x
  | lacr x => exact RoundTrip.lacr x
  | braAny g dist => exact RoundTrip.braAny g dist
  | braAll g dist => exact RoundTrip.braAll g dist
  | brx a off => exact RoundTrip.brx a off
  | call d dist => exact RoundTrip.call d dist
  | ret a => exact RoundTrip.ret a
  | regang m => exact RoundTrip.regang m
  | loopOperand a off => exact RoundTrip.loopOperand a off
  | loopImmediate n off => exact RoundTrip.loopImmediate n off
  | trap code => exact RoundTrip.trap code
  | bkpt code => exact RoundTrip.bkpt code
  | racq n => exact RoundTrip.racq n
  | rrel n => exact RoundTrip.rrel n
  | rep x => exact RoundTrip.rep x
  | pNop h o => exact RoundTrip.pNop h o
  | pMov h o => exact RoundTrip.pMov h o
  | pIadd h o => exact RoundTrip.pIadd h o
  | pIsub h o => exact RoundTrip.pIsub h o
  | pImul h o => exact RoundTrip.pImul h o
  | pIaddi h o => exact RoundTrip.pIaddi h o
  | pAnd h o => exact RoundTrip.pAnd h o
  | pOr h o => exact RoundTrip.pOr h o
  | pXor h o => exact RoundTrip.pXor h o
  | pAndn h o => exact RoundTrip.pAndn h o
  | pShl h o => exact RoundTrip.pShl h o
  | pShr h o => exact RoundTrip.pShr h o
  | pSar h o => exact RoundTrip.pSar h o
  | pImin h o => exact RoundTrip.pImin h o
  | pImax h o => exact RoundTrip.pImax h o
  | pRotr h o => exact RoundTrip.pRotr h o
  | pFadd h o => exact RoundTrip.pFadd h o
  | pFsub h o => exact RoundTrip.pFsub h o
  | pFmul h o => exact RoundTrip.pFmul h o
  | pFmin h o => exact RoundTrip.pFmin h o
  | pFmax h o => exact RoundTrip.pFmax h o
  | pHadd2 h o => exact RoundTrip.pHadd2 h o
  | pHmul2 h o => exact RoundTrip.pHmul2 h o
  | pClz h o => exact RoundTrip.pClz h o
  | ld x => exact RoundTrip.ld x
  | st x => exact RoundTrip.st x
  | lds x => exact RoundTrip.lds x
  | sts x => exact RoundTrip.sts x
  | ldw x => exact RoundTrip.ldw x
  | stw x => exact RoundTrip.stw x
  | ldc x => exact RoundTrip.ldc x
  | pref x => exact RoundTrip.pref x
  | cflsh x => exact RoundTrip.cflsh x
  | cinv x => exact RoundTrip.cinv x
  | fence scope kind => exact RoundTrip.fence scope kind
  | waitc mask t => exact RoundTrip.waitc mask t
  | atomAdd x => exact RoundTrip.atomAdd x
  | atomMin x => exact RoundTrip.atomMin x
  | atomMax x => exact RoundTrip.atomMax x
  | atomAnd x => exact RoundTrip.atomAnd x
  | atomOr x => exact RoundTrip.atomOr x
  | atomXor x => exact RoundTrip.atomXor x
  | atomExch x => exact RoundTrip.atomExch x
  | atomCas x => exact RoundTrip.atomCas x
  | atomFadd x => exact RoundTrip.atomFadd x
  | atomsAdd x => exact RoundTrip.atomsAdd x
  | atomsMin x => exact RoundTrip.atomsMin x
  | atomsMax x => exact RoundTrip.atomsMax x
  | atomsAnd x => exact RoundTrip.atomsAnd x
  | atomsOr x => exact RoundTrip.atomsOr x
  | atomsXor x => exact RoundTrip.atomsXor x
  | atomsExch x => exact RoundTrip.atomsExch x
  | atomsCas x => exact RoundTrip.atomsCas x
  | atomsFadd x => exact RoundTrip.atomsFadd x
  | rld x => exact RoundTrip.rld x
  | rst x => exact RoundTrip.rst x
  | rstf x => exact RoundTrip.rstf x
  | ratomAdd x => exact RoundTrip.ratomAdd x
  | ratomMin x => exact RoundTrip.ratomMin x
  | ratomMax x => exact RoundTrip.ratomMax x
  | ratomAnd x => exact RoundTrip.ratomAnd x
  | ratomOr x => exact RoundTrip.ratomOr x
  | ratomXor x => exact RoundTrip.ratomXor x
  | ratomExch x => exact RoundTrip.ratomExch x
  | ratomCas x => exact RoundTrip.ratomCas x
  | ratomFadd x => exact RoundTrip.ratomFadd x
  | copy x => exact RoundTrip.copy x
  | copy2 x => exact RoundTrip.copy2 x
  | copyf x => exact RoundTrip.copyf x
  | copyw x => exact RoundTrip.copyw x
  | copyr x => exact RoundTrip.copyr x
  | cprog d a => exact RoundTrip.cprog d a
  | ckill d a => exact RoundTrip.ckill d a
  | publ d a => exact RoundTrip.publ d a
  | harn n a => exact RoundTrip.harn n a
  | mpass x => exact RoundTrip.mpass x
  | mspass x => exact RoundTrip.mspass x
  | mlut x => exact RoundTrip.mlut x
  | accrd x => exact RoundTrip.accrd x
  | accwr x => exact RoundTrip.accwr x
  | accz kind t => exact RoundTrip.accz kind t
  | mprog d a => exact RoundTrip.mprog d a
  | mprogW d a b => exact RoundTrip.mprogW d a b
  | skupd x => exact RoundTrip.skupd x
  | skqry x => exact RoundTrip.skqry x
  | skadd a b => exact RoundTrip.skadd a b
  | skclr a => exact RoundTrip.skclr a
  | tdec a b => exact RoundTrip.tdec a b
  | twait p a b c => exact RoundTrip.twait p a b c
  | flgw x => exact RoundTrip.flgw x
  | bkw p a c => exact RoundTrip.bkw p a c
  | bkarm d a b => exact RoundTrip.bkarm d a b
  | bkarmOff d a => exact RoundTrip.bkarmOff d a
  | lnch d a b => exact RoundTrip.lnch d a b
  | reln x => exact RoundTrip.reln x
  | csrr d csr => exact RoundTrip.csrr d csr
  | csrw csr a => exact RoundTrip.csrw csr a
  | tlbiVa sreg => exact RoundTrip.tlbiVa sreg
  | fret d a b => exact RoundTrip.fret d a b
  | fctxBind d a b => exact RoundTrip.fctxBind d a b
  | fctxUnbind d a b => exact RoundTrip.fctxUnbind d a b
  | fswpOut d a b => exact RoundTrip.fswpOut d a b
  | fswpIn d a b => exact RoundTrip.fswpIn d a b
  | bar id n => exact RoundTrip.bar id n
  | bara d id n => exact RoundTrip.bara d id n
  | barw a id clu => exact RoundTrip.barw a id clu
  | cbar d id n => exact RoundTrip.cbar d id n
  | nldv x => exact RoundTrip.nldv x
  | nstv x => exact RoundTrip.nstv x
  | nadd x => exact RoundTrip.nadd x
  | nsub x => exact RoundTrip.nsub x
  | nmul x => exact RoundTrip.nmul x
  | nfma x => exact RoundTrip.nfma x
  | nmin x => exact RoundTrip.nmin x
  | nmax x => exact RoundTrip.nmax x
  | nrsq gd ga => exact RoundTrip.nrsq gd ga
  | ncvt gd ga kind rnd => exact RoundTrip.ncvt gd ga kind rnd
  | nsku g ak ad n => exact RoundTrip.nsku g ak ad n
  | nskq g ak ad n => exact RoundTrip.nskq g ak ad n
  | nska ad as => exact RoundTrip.nska ad as
  | nskc ad => exact RoundTrip.nskc ad
  | nsetImm gd imm => exact RoundTrip.nsetImm gd imm
  | nsetReg gd a => exact RoundTrip.nsetReg gd a
  | naddi ad as sh imm => exact RoundTrip.naddi ad as sh imm
  | nloopImm count off => exact RoundTrip.nloopImm count off
  | nloopReg a off => exact RoundTrip.nloopReg a off
  | nbra cond a off => exact RoundTrip.nbra cond a off
  | nwait a b => exact RoundTrip.nwait a b
  | nsig a => exact RoundTrip.nsig a
  | movqReg qd qa => exact RoundTrip.movqReg qd qa
  | movqImm qd imm => exact RoundTrip.movqImm qd imm
  | addqReg qd qa qb => exact RoundTrip.addqReg qd qa qb
  | addqImm qd qa imm => exact RoundTrip.addqImm qd qa imm
  | subqReg qd qa qb => exact RoundTrip.subqReg qd qa qb
  | subqImm qd qa imm => exact RoundTrip.subqImm qd qa imm
  | cmpqReg cc qa qb => exact RoundTrip.cmpqReg cc qa qb
  | cmpqImm cc qa imm => exact RoundTrip.cmpqImm cc qa imm
  | brq nz qa off => exact RoundTrip.brq nz qa off
  | brc cond off => exact RoundTrip.brc cond off
  | creq qd qa => exact RoundTrip.creq qd qa
  | cwait tgt qd qa qb => exact RoundTrip.cwait tgt qd qa qb
  | crel qa => exact RoundTrip.crel qa
  | cstat qd qa => exact RoundTrip.cstat qd qa
  | buck qa qb => exact RoundTrip.buck qa qb
  | buckOff qa => exact RoundTrip.buckOff qa
  | park qa qb => exact RoundTrip.park qa qb
  | wake qa qb => exact RoundTrip.wake qa qb
  | setw qa qb => exact RoundTrip.setw qa qb
  | msg qa qb => exact RoundTrip.msg qa qb
  | mrcv qd qa qb => exact RoundTrip.mrcv qd qa qb
  | tsig qa qb => exact RoundTrip.tsig qa qb
  | twt qa qb qc => exact RoundTrip.twt qa qb qc
  | time qd => exact RoundTrip.time qd
  | dlyReg qa => exact RoundTrip.dlyReg qa
  | dlyImm us => exact RoundTrip.dlyImm us
  | evt qa => exact RoundTrip.evt qa
  | lacz => exact RoundTrip.lacz
  | yield => exact RoundTrip.yield
  | nop => exact RoundTrip.nop
  | exit => exact RoundTrip.exit
  | rfence => exact RoundTrip.rfence
  | tlbiCtx => exact RoundTrip.tlbiCtx
  | tlbiAll => exact RoundTrip.tlbiAll
  | halt => exact RoundTrip.halt
  | haltDev => exact RoundTrip.haltDev
  | nfence => exact RoundTrip.nfence
  | nend => exact RoundTrip.nend
  | endScript => exact RoundTrip.endScript
  | _ => exact RoundTrip.ofEvent rfl rfl rfl

/-- A 64-bit word of the opcode table is a word of the cores. -/
theorem decodeTableWord_of_core {w : Nat} {i : Instr} (hw : w < 2 ^ 64) (h : decodeCore w = .ok i) :
    decodeTableWord 64 w = some i := by
  unfold decodeTableWord
  rw [if_neg (Nat.not_le.mpr hw), if_pos (by decide), h]
  rfl

/-- A 32-bit word of the opcode table that a near-memory unit takes is that unit's (notes/assumptions/18). -/
theorem decodeTableWord_of_nmu {w : Nat} {i : Instr} (hw : w < 2 ^ 32) (h : decodeNmu w = .ok i) :
    decodeTableWord 32 w = some i := by
  unfold decodeTableWord
  rw [if_neg (Nat.not_le.mpr hw), if_neg (by decide), h]
  rfl

/-- Settles O59: each word is decoded by the unit that issues it. -/
theorem specWordsDecode : Obligations.SpecWordsDecode := by
  unfold Obligations.SpecWordsDecode
  intro r
  refine ⟨decodeTableWord_of_core ?_ ?_, decodeTableWord_of_core ?_ ?_, decodeTableWord_of_core ?_ ?_,
    decodeTableWord_of_core ?_ ?_, decodeTableWord_of_core ?_ ?_, decodeTableWord_of_core ?_ ?_,
    decodeTableWord_of_core ?_ ?_, decodeTableWord_of_core ?_ ?_, decodeTableWord_of_core ?_ ?_,
    decodeTableWord_of_nmu ?_ ?_, ?_, ?_⟩ <;> decide

end Sys2Proof.Claims
end

section
/-! PROOFS. Pair words, REP, and the order of the faults before a word's own effect (01 R38-R49, 14 Table context-5). -/

namespace Sys2Proof.Claims

open Sys2Proof.Machine

/-! ## Pair words (01 R38-R41) -/

/-- A pair word that issues writes both halves. -/
theorem ends_writesPair {i : Instr} {op : POp} {h : PArgs} {o : PHalf} {s : State} (he : exec i s = execPair op h o s)
    (hi : PairIssues ⟨op, h⟩ o s) : Ends i s (fun t => WritesPair s t ⟨op, h⟩ o) := by
  obtain ⟨hf, h0, h1⟩ := hi
  refine ⟨_, he.trans ?_, writesPair_pairEffect s _ _⟩
  simp [execPair, hf, h0, h1]

/-- Settles O9: the 24 P words are the one pair word at their own opcodes. -/
theorem pairWordsWriteBothHalves : Obligations.PairWordsWriteBothHalves := by
  intro s h o claim
  exact ⟨ends_writesPair (exec_pNop h o s), ends_writesPair (exec_pMov h o s), ends_writesPair (exec_pIadd h o s),
    ends_writesPair (exec_pIsub h o s), ends_writesPair (exec_pImul h o s), ends_writesPair (exec_pIaddi h o s),
    ends_writesPair (exec_pAnd h o s), ends_writesPair (exec_pOr h o s), ends_writesPair (exec_pXor h o s),
    ends_writesPair (exec_pAndn h o s), ends_writesPair (exec_pShl h o s), ends_writesPair (exec_pShr h o s),
    ends_writesPair (exec_pSar h o s), ends_writesPair (exec_pImin h o s), ends_writesPair (exec_pImax h o s),
    ends_writesPair (exec_pRotr h o s), ends_writesPair (exec_pFadd h o s), ends_writesPair (exec_pFsub h o s),
    ends_writesPair (exec_pFmul h o s), ends_writesPair (exec_pFmin h o s), ends_writesPair (exec_pFmax h o s),
    ends_writesPair (exec_pHadd2 h o s), ends_writesPair (exec_pHmul2 h o s), ends_writesPair (exec_pClz h o s)⟩

/-! ## REP (01 R43-R47) -/

/-- No issuing slice stands at the end of a loop that it is in: the test that REP makes (01 R46). -/
theorem anyLoopEnd_eq_false {w : Warp} {js : List Nat}
    (h : ∀ j ∈ js, ∀ l ∈ (w.slice j).loops.take (w.slice j).depth, l.le ≠ (w.slice j).pc) :
    (js.any fun j => ((w.slice j).loops.take (w.slice j).depth).any fun l => l.le == (w.slice j).pc) = false := by
  simpa only [List.any_eq_false, beq_iff_eq, List.any_eq_true, not_exists, not_and] using h

/-- REP may step all four fields of its next word: the test that REP makes (01 R46). -/
theorem allFieldsOk_eq_true {nw : Nat} {us : List FieldUse} {steps : List (Option Int)}
    (h : ∀ k, k < 4 → repFieldOk nw k ((us[k]?).getD .none) ((steps[k]?).getD none) = true) :
    ((List.range 4).all fun k => repFieldOk nw k ((us[k]?).getD .none) ((steps[k]?).getD none)) = true :=
  List.all_eq_true.mpr fun k hk => h k (List.mem_range.mp hk)

/-- Settles O14: none of the checks of 01 R46 fails, so the stepped word becomes the word of the site. -/
theorem repHandsSteppedWord : Obligations.RepHandsSteppedWord := by
  intro s u x nw w ok i ud ua ub uc low us steps hfetch hform hdec hfields hd ha hb hc hloops hok hstep
  have hend := anyLoopEnd_eq_false hloops
  have hall := allFieldsOk_eq_true hok
  rw [exec_rep]
  unfold execRep
  dsimp only [low, us, steps] at *
  rw [hfetch]
  dsimp only
  rw [if_neg (fun h => h hform), hdec]
  dsimp only
  rw [hfields]
  dsimp only
  rw [if_neg (by simp only [hd, ha, hb, hc, hend, hall]; decide), hstep]
  rfl

/-! ## Faults before the effect (01 R49, 14 Table context-5) -/

section

variable {u : Use} {s : State}

/-- A word that needs full service before there is any: RESERVED_ENCODING comes first (14 R441). -/
theorem preFault_gated (hg : u.gated = true) (hs : s.status.matrix = false) : preFault u s = some (flt 2) := by
  simp [preFault, hg, hs]

/-- Then a latch that a slice cannot read: ILLEGAL_LATCH. -/
theorem preFault_badLatch (hg : u.gated = false) (hb : u.bad = false) (h : u.ops.any (badLatch s) = true) :
    preFault u s = some (flt 3) := by
  simp [preFault, hg, hb, h]

/-- Then a register that the warp does not hold: REG_UNHELD (02 R64). -/
theorem preFault_unheld (hg : u.gated = false) (hb : u.bad = false) (hl : u.ops.any (badLatch s) = false)
    (h : u.codes.any (cw s).unheld = true) : preFault u s = some (flt 4) := by
  simp [preFault, hg, hb, hl, h]

/-- Then a word of firmware in user mode: PRIV. -/
theorem preFault_priv (hg : u.gated = false) (hb : u.bad = false) (hl : u.ops.any (badLatch s) = false)
    (hc : u.codes.any (cw s).unheld = false) (hf : u.fw = true) (h : (cw s).firmware = false) :
    preFault u s = some (flt 0x13) := by
  simp [preFault, hg, hb, hl, hc, hf, h]

/-- The word is issued with the uses `u`: the checks before its effect are those of `u`. -/
def IssuedWith (i : Instr) (u : Use) (s : State) : Prop := ∃ body, exec i s = issueWord u body s

/-- A fault before the effect is the word's fault. -/
theorem IssuedWith.faults {i : Instr} {f : FaultInfo} (hi : IssuedWith i u s) (h : preFault u s = some f) : Faults i s f := by
  obtain ⟨body, he⟩ := hi
  exact he.trans (issueWord_preFault h)

/-- A word issues, faults before its effect, or waits. -/
theorem IssuedWith.issues_or_faults_or_waits {i : Instr} (hi : IssuedWith i u s) :
    Issues u s ∨ preFault u s ≠ none ∨ Waits i s := by
  obtain ⟨body, he⟩ := hi
  by_cases hf : preFault u s = none
  · cases hr : ready u s with
    | true => exact .inl ⟨hf, hr⟩
    | false => exact .inr (.inr (he.trans (issueWord_wait hf hr)))
  · exact .inr (.inl hf)

end

section

variable (s : State)

theorem iadd_issuedWith (x : Int2) : IssuedWith (.iadd x) (useInt2 x false) s := ⟨_, by rw [exec_iadd, execIadd, int2]⟩

theorem mprog_issuedWith (d : Dst) (a : Opnd) :
    IssuedWith (.mprog d a) { ops := [(a, false)], dst := some (d, 2), gated := true } s := ⟨_, exec_mprog d a s⟩

theorem mprogW_issuedWith (d : Dst) (a b : Opnd) :
    IssuedWith (.mprogW d a b) { ops := [(a, false), (b, true)], dst := some (d, 2), gated := true, fw := true } s :=
  ⟨_, exec_mprogW d a b s⟩

theorem fret_issuedWith (d : Dst) (a b : Opnd) : IssuedWith (.fret d a b) (fwUse d a b) s := ⟨_, exec_fret d a b s⟩

theorem fswpOut_issuedWith (d : Dst) (a b : Opnd) : IssuedWith (.fswpOut d a b) (fwUse d a b) s :=
  ⟨_, by rw [exec_fswpOut, execFswpOut, fswpWord]⟩

theorem fswpIn_issuedWith (d : Dst) (a b : Opnd) : IssuedWith (.fswpIn d a b) (fwUse d a b) s :=
  ⟨_, by rw [exec_fswpIn, execFswpIn, fswpWord]⟩

theorem tlbiAll_issuedWith : IssuedWith .tlbiAll { fw := true } s := ⟨_, by rw [exec_tlbiAll, execTlbiAll, tlbiWord]⟩

theorem haltDev_issuedWith : IssuedWith .haltDev { fw := true } s := ⟨_, exec_haltDev s⟩

end

/-- A fault before the effect of FCTX comes before the look at its address (notes/assumptions/26). -/
theorem fctxWord_of_preFault {s : State} {d : Dst} {a b : Opnd} {f : FaultInfo} (h : preFault (fwUse d a b) s = some f) :
    fctxWord d a b s = .next (takeFault (noteIssue s) f) := by
  unfold fctxWord
  rw [if_neg (by simp [h]), issueWord_preFault h]

/-- IADD uses both operands at the width of its type. -/
theorem useInt2_ops (x : Int2) : (useInt2 x false).ops = [(x.a, x.ty.wide), (x.b, x.ty.wide)] := by
  simp [useInt2]

/-- Settles O53: each fault is the first of the checks before the effect that the word does not pass. -/
theorem wordsFaultBeforeTheirEffect : Obligations.WordsFaultBeforeTheirEffect := by
  intro s
  refine ⟨fun x => ?_, fun d a hs => ?_, fun d a b hs => ?_, fun d a b => ?_, fun hf => ?_⟩
  · have hi := iadd_issuedWith s x
    intro o u
    have ho : u.ops = o := useInt2_ops x
    exact ⟨fun hl => hi.faults (preFault_badLatch rfl rfl (ho ▸ hl)),
      fun hl hc => hi.faults (preFault_unheld rfl rfl (ho ▸ hl) hc), hi.issues_or_faults_or_waits⟩
  · exact (mprog_issuedWith s d a).faults (preFault_gated rfl hs)
  · exact (mprogW_issuedWith s d a b).faults (preFault_gated rfl hs)
  · intro o hl hc hf
    have hp : preFault (fwUse d a b) s = some (flt 0x13) := preFault_priv rfl rfl hl hc rfl hf
    exact ⟨(fret_issuedWith s d a b).faults hp, (exec_fctxBind d a b s).trans (fctxWord_of_preFault hp),
      (exec_fctxUnbind d a b s).trans (fctxWord_of_preFault hp), (fswpOut_issuedWith s d a b).faults hp,
      (fswpIn_issuedWith s d a b).faults hp⟩
  · have hp : preFault { fw := true } s = some (flt 0x13) := preFault_priv rfl rfl rfl rfl rfl hf
    exact ⟨(tlbiAll_issuedWith s).faults hp, (haltDev_issuedWith s).faults hp⟩

end Sys2Proof.Claims
end

section
/-! PROOFS. LOOP and NOP (02 R79, 05 R193). -/

namespace Sys2Proof.Claims

open Sys2Proof.Machine

/-- What LOOP makes of a slice, its void entry pushed first. -/
theorem loopPush_pushAll_getD (x : Slice) (ready count off : Nat) :
    (loopPush (x.pushAll ready [.void]) count off).getD x = loopSlice ready count off x := by
  rw [pushAll_eq]
  rfl

/-- LOOP changes each issuing slice as `loopSlice` says, and regroups the gangs of its warp. -/
theorem frameBy_loopSlice (s : State) (count : Nat → Nat) (off : Nat) :
    FrameBy (fun j x => loopSlice s.cycle (count j) off x) s
      (updCw (noteIssue s) fun w =>
        (w.updSlices s.cur.mask fun j x => loopSlice s.cycle (count j) off x).regroup s.cur.mask) [] [] [] :=
  frameBy_upd (fun j x sr => loopSlice_sregs s.cycle (count j) off x sr) s fun w =>
    ((w.updSlices s.cur.mask fun j x => loopSlice s.cycle (count j) off x).regroup s.cur.mask).gangs

section

variable {i : Instr} {u : Use} {s : State} {count : State → Nat → Nat} {off : Nat}

/-- LOOP where every issuing slice can open its level, or passes over the body. -/
theorem ends_loopWord (he : exec i s = loopWord u count off s) (hi : Issues u s) (hn : count (noteIssue s) = count s)
    (hopen : ∀ j ∈ curSlices s, (loopPush ((cw s).slice j) (count s j) off).isSome = true) :
    Ends i s (fun t => FrameBy (fun j x => loopSlice s.cycle (count s j) off x) s t [] [] []) := by
  have hany : (curSlices s).any (fun j => (loopPush ((cw s).slice j) (count s j) off).isNone) = false := by
    refine List.any_eq_false.mpr fun j hj => ?_
    rw [← Option.not_isSome, hopen j hj]
    decide
  refine ⟨_, he.trans (issueWord_done hi ?_), frameBy_loopSlice s (count s) off⟩
  simp only [curSlices_note, cw_noteIssue_slice, hn, hany, Bool.false_eq_true, if_false, loopPush_pushAll_getD, noteIssue_cycle,
    noteIssue_cur]

/-- LOOP where some issuing slice can open none: LOOP_NEST. -/
theorem faults_loopWord (he : exec i s = loopWord u count off s) (hi : Issues u s) (hn : count (noteIssue s) = count s)
    (hnest : ∃ j ∈ curSlices s, loopPush ((cw s).slice j) (count s j) off = none) : Faults i s (flt 6) := by
  have hany : (curSlices s).any (fun j => (loopPush ((cw s).slice j) (count s j) off).isNone) = true := by
    obtain ⟨j, hj, hnone⟩ := hnest
    exact List.any_eq_true.mpr ⟨j, hj, Option.isNone_iff_eq_none.mpr hnone⟩
  refine he.trans (issueWord_trap hi ?_)
  simp only [curSlices_note, cw_noteIssue_slice, hn, hany, if_true]

end

/-- Settles O11: both forms are `loopWord`, at a count that noting the issue does not change, and NOP only retires. -/
theorem loopWordsOpenLevels : Obligations.LoopWordsOpenLevels := by
  intro s
  refine ⟨fun a off hi => ?_, fun n off hi => ?_, fun hi => ?_⟩
  · have he := exec_loopOperand a off s
    have hn : (fun j => op32 (noteIssue s) a (lane0 j)) = fun j => op32 s a (lane0 j) := by rw [op32_noteIssue]
    exact ⟨ends_loopWord he hi hn, faults_loopWord he hi hn⟩
  · have he := exec_loopImmediate n off s
    exact ⟨ends_loopWord he hi rfl, faults_loopWord he hi rfl⟩
  · exact ⟨_, (exec_nop s).trans (issueWord_done hi rfl), passes_retireVoid s⟩

end Sys2Proof.Claims
end

section
/-! PROOFS. Words that compute in their lanes: integers, bits, predicates, moves and floating point (04 R122-R136, 02 R80-R83). -/

namespace Sys2Proof.Claims

open Sys2Proof.Machine

/-! ## Words whose effect is one write-back

A word reads its operands after its issue is noted, and the claims read them before. Each lemma takes the word's equation in the model,
which gives the value `f` that it writes; that `f` is the claim's `g` holds by definition. -/

section

variable {s : State} {i : Instr} {u : Use} {lat : Nat}

/-- A word that writes a register, with a value that noting the issue does not change. -/
theorem regWord_of {d : Dst} {wide sgn : Bool} {f : State → Nat → Nat} {g : Nat → Nat}
    (he : exec i s = issueWord u (fun v => .done (wbLanes v d wide sgn lat (f v))) s) (hf : f (noteIssue s) = f s)
    (hg : f s = g := by rfl) : RegWord s i u d wide sgn lat g :=
  fun hi => ends_writesReg he hi (by rw [hf, hg])

/-- A word that writes a predicate, with a value that noting the issue does not change. -/
theorem predWord_of {p : PDst} {f : State → Nat → Bool} {g : Nat → Bool}
    (he : exec i s = issueWord u (fun v => .done (wbPred v p lat (f v))) s) (hf : f (noteIssue s) = f s)
    (hg : f s = g := by rfl) : PredWord s i u p lat g :=
  fun hi => ends_writesPred he hi (by rw [hf, hg])

end

/-! ## The shared forms of the model (04 R117, R123, R130, R136) -/

section

variable {s : State} {i : Instr} {g : Nat → Nat}

theorem regWord_int2 {x : Int2} {f : Int → Int → Int} (he : exec i s = int2 x f s)
    (hg : (fun l => intRes x.ty x.sat (f (opInt s x.ty x.a l) (opInt s x.ty x.b l))) = g := by rfl) :
    RegWord s i (useInt2 x false) x.d x.ty.wide x.ty.sgn 2 g :=
  regWord_of he (by simp only [opInt_noteIssue]) hg

theorem regWord_bit2 {x : Int2} {sh : Bool} {f : Nat → Nat → Nat} (he : exec i s = bit2 x sh f s)
    (hg : (fun l => f (opTy s x.ty x.a l) (if sh then op32 s x.b l else opTy s x.ty x.b l)) = g := by rfl) :
    RegWord s i (useInt2 x sh) x.d x.ty.wide x.ty.sgn 2 g :=
  regWord_of he (by simp only [opTy_noteIssue, op32_noteIssue]) hg

theorem regWord_bit1 {x : Int1} {d32 wide : Bool} {f : Nat → Nat} (he : exec i s = bit1 x d32 f s) (hw : (x.ty.wide && !d32) = wide)
    (hg : (fun l => f (opTy s x.ty x.a l)) = g := by rfl) :
    RegWord s i (useInt1 x d32) x.d wide false 2 g :=
  hw ▸ regWord_of he (by simp only [opTy_noteIssue]) hg

theorem regWord_fp2 {x : F2} {lat : Nat} {f : Nat → Nat → Nat} (he : exec i s = fp2 x lat f s)
    (hg : (fun l => f (opF s x.a l) (opF s x.b l)) = g := by rfl) :
    RegWord s i { ops := [(x.a, false), (x.b, false)], dst := some (x.d, 1) } x.d false false lat g :=
  regWord_of he (by simp only [opF_noteIssue]) hg

theorem regWord_fp1 {x : F1} {f : Nat → Nat} (he : exec i s = fp1 x f s)
    (hg : (fun l => fp32.flush x.ftz (f (fp32.flush x.ftz (opF s x.a l)))) = g := by rfl) :
    RegWord s i { ops := [(x.a, false)], dst := some (x.d, 1) } x.d false false 12 g :=
  regWord_of he (by simp only [opF_noteIssue]) hg

theorem regWord_half2 {x : H2} {f : Nat → Nat → Nat} (he : exec i s = half2 x f s)
    (hg : (fun l => perHalf f (opVal s (halfTy x.bf) false x.a l) (opVal s (halfTy x.bf) false x.b l)) = g := by rfl) :
    RegWord s i { ops := [(x.a, false), (x.b, false)], dst := some (x.d, 1) } x.d false false 4 g :=
  regWord_of he (by simp only [opVal_noteIssue]) hg

theorem regWord_dp2 {x : F2} {f : Nat → Nat → Nat} (he : exec i s = dp2 x f s)
    (hg : (fun l => f (opVal s .f64 true x.a l) (opVal s .f64 true x.b l)) = g := by rfl) :
    RegWord s i { ops := [(x.a, true), (x.b, true)], dst := some (x.d, 2), gated := true } x.d true false 8 g :=
  regWord_of he (by simp only [opVal_noteIssue]) hg

end

/-! ## Integers and bits (04 R122-R126) -/

/-- Settles O1: six words are the two-operand word on exact integers at their own function; the others read their operands alike. -/
theorem integerWordsWriteResult : Obligations.IntegerWordsWriteResult := by
  intro s
  exact ⟨fun x => regWord_int2 (exec_iadd x s), fun x => regWord_int2 (exec_isub x s),
    fun x => regWord_int2 (exec_imul x s), fun x => regWord_int2 (exec_imulh x s),
    fun x => regWord_int2 (exec_imin x s), fun x => regWord_int2 (exec_imax x s),
    fun x => regWord_of (by rw [exec_imad, execImad]) (by simp only [opInt_noteIssue]),
    fun x => regWord_of (by rw [exec_imadw, execImadw]) (by simp only [opInt_noteIssue]),
    fun x => regWord_of (by rw [exec_iabs, execIabs]) (by simp only [opInt_noteIssue])⟩

/-- Settles O2: eleven words are one of the shared forms on bit patterns; POPC and CLZ write 32 bits, BREV the width of its type. -/
theorem logicAndShiftWordsWriteResult : Obligations.LogicAndShiftWordsWriteResult := by
  intro s
  exact ⟨fun x => regWord_bit2 (exec_and x s), fun x => regWord_bit2 (exec_or x s),
    fun x => regWord_bit2 (exec_xor x s), fun x => regWord_bit2 (exec_andn x s),
    fun x => regWord_bit2 (exec_shl x s), fun x => regWord_bit2 (exec_shr x s),
    fun x => regWord_bit2 (exec_sar x s), fun x => regWord_bit2 (exec_rotr x s),
    fun x => regWord_bit1 (exec_popc x s) (Bool.and_false _), fun x => regWord_bit1 (exec_clz x s) (Bool.and_false _),
    fun x => regWord_bit1 (exec_brev x s) (Bool.and_true _), fun x => regWord_bit2 (exec_bfx x s),
    fun x => regWord_of (by rw [exec_bfi, execBfi]) (by simp only [op32_noteIssue]),
    fun x => regWord_of (by rw [exec_lea, execLea]) (by simp only [op64_noteIssue, opInt_noteIssue])⟩

/-! ## Predicates and moves (04 R127, R128, R133, R134, R155, 02 R80-R83) -/

/-- Settles O3: each word is one write-back of a predicate, from operands, predicates or lanes that noting the issue does not change. -/
theorem predicateWordsWritePredicate : Obligations.PredicateWordsWritePredicate := by
  intro s
  exact ⟨fun x => predWord_of (by rw [exec_icmp, execIcmp]) (by simp only [opInt_noteIssue]),
    fun x => predWord_of (by rw [exec_plog, execPlog]) (by simp only [cw_noteIssue_pred]),
    fun x => predWord_of (by rw [exec_fcmp, execFcmp]) (by simp only [opF_noteIssue]),
    fun x => predWord_of (by rw [exec_dcmp, execDcmp]) (by simp only [opVal_noteIssue]),
    fun x => predWord_of (by rw [exec_fcls, execFcls]) (by simp only [opTy_noteIssue]),
    fun pd pa => predWord_of (by rw [exec_vote, execVote]) (by simp only [curLanes_note, cw_noteIssue_pred]),
    fun pd pa => predWord_of (by rw [exec_vote, execVote]) (by simp only [curLanes_note, cw_noteIssue_pred]),
    fun pd a wide => predWord_of (by rw [exec_vote, execVote]) (by simp only [curLanes_note, opVal_noteIssue])⟩

/-- Settles O4: each word moves what an operand, a kept register or a constant holds; MOVS reads the lane that `movsLane` names. -/
theorem moveWordsWriteValue : Obligations.MoveWordsWriteValue := by
  intro s
  exact ⟨fun x => regWord_of (by rw [exec_sel, execSel]) (by simp only [opVal_noteIssue, cw_noteIssue_guard]),
    fun x => regWord_of (by rw [exec_mov, execMov]) (by simp only [opVal_noteIssue]),
    fun d imm => regWord_of (by rw [exec_movi, execMovi]) rfl,
    fun d imm => regWord_of (by rw [exec_movi, execMovi]) rfl,
    fun d imm => regWord_of (by rw [exec_movi, execMovi]) (by simp only [keptVal_noteIssue]),
    fun x => regWord_of (by rw [exec_movs]; unfold execMovs; rfl) (by simp only [opVal_noteIssue, movsLane_noteIssue, noteIssue_cur]),
    fun x => regWord_of (by rw [exec_movsSl, execMovsSl]) (by simp only [opVal_noteIssue, op32_noteIssue, keptVal_noteIssue])⟩

/-! ## Floating point (04 R130-R136, 14 R441) -/

/-- Settles O5: the words are the two forms of FP32 words at their own function, and FFMA. -/
theorem fp32WordsWriteResult : Obligations.Fp32WordsWriteResult := by
  intro s two one fl
  exact ⟨fun x => regWord_fp2 (exec_fadd x s), fun x => regWord_fp2 (exec_fsub x s),
    fun x => regWord_fp2 (exec_fmul x s), fun x => regWord_fp2 (exec_fmin x s),
    fun x => regWord_fp2 (exec_fmax x s), fun x => regWord_fp2 (exec_fdiv x s),
    fun x => regWord_of (by rw [exec_ffma, execFfma]) (by simp only [opF_noteIssue]),
    fun x => regWord_fp1 (exec_frcp x s), fun x => regWord_fp1 (exec_frsq x s),
    fun x => regWord_fp1 (exec_fsqt x s), fun x => regWord_fp1 (exec_fex2 x s),
    fun x => regWord_fp1 (exec_flg2 x s), fun x => regWord_fp1 (exec_fsin x s),
    fun x => regWord_fp1 (exec_fcos x s), fun x => regWord_fp1 (exec_ftnh x s)⟩

/-- Settles O6: the packed and the FP64 words are one form each at their own function; the words of three operands read them alike. -/
theorem packedAndFp64WordsWriteResult : Obligations.PackedAndFp64WordsWriteResult := by
  intro s
  exact ⟨fun x => regWord_half2 (exec_hadd2 x s), fun x => regWord_half2 (exec_hmul2 x s),
    fun x => regWord_of (by rw [exec_hfma2, execHfma2]) (by simp only [opVal_noteIssue]),
    fun x => regWord_dp2 (exec_dadd x s), fun x => regWord_dp2 (exec_dmul x s),
    fun x => regWord_of (by rw [exec_dfma, execDfma]) (by simp only [opVal_noteIssue])⟩

end Sys2Proof.Claims
end

section
/-! PROOFS. Conversions, cross-lane words and the long accumulator (04 R139-R159, 03 R113-R115). -/

namespace Sys2Proof.Claims

open Sys2Proof.Machine

/-! ## Words that change more of the warp than their destination

CVTS counts into SSTAT, REDX and LACZ change the long accumulator: changes of the issuing warp that do not meet the note of its issue. -/

/-- A change of a warp that keeps what noting an issue reads and writes of it. -/
def KeepsIssueNotes (F : Warp → Warp) : Prop :=
  (∀ w mask n, (F w).noteIssue mask n = F (w.noteIssue mask n)) ∧ ∀ w, (F w).launch = w.launch ∧ (F w).uid = w.uid

theorem keepsIssueNotes_updSlices (mask : Nat) (f : Nat → Slice → Slice) : KeepsIssueNotes (fun w => w.updSlices mask f) :=
  ⟨fun _ _ _ => rfl, fun _ => ⟨rfl, rfl⟩⟩

theorem keepsIssueNotes_lacc (f : Lacc → Lacc) : KeepsIssueNotes (fun w => { w with lacc := f w.lacc }) :=
  ⟨fun _ _ _ => rfl, fun _ => ⟨rfl, rfl⟩⟩

/-- Such a change after the note is the change before it. -/
theorem KeepsIssueNotes.updCw_noteIssue {F : Warp → Warp} (hF : KeepsIssueNotes F) (s : State) :
    updCw (noteIssue s) F = noteIssue (updCw s F) :=
  (noteIssue_updCw s F (fun w => hF.1 w _ _) hF.2).symm

section

variable {s : State} {i : Instr} {u : Use} {F : Warp → Warp} {G : State → Warp → Warp}

/-- A word that changes its warp and then writes a register: seen from the changed state it only writes the register. -/
theorem ends_writesReg_updCw {d : Dst} {wide sgn : Bool} {lat : Nat} {f : State → Nat → Nat} {g : Nat → Nat}
    (he : exec i s = issueWord u (fun v => .done (wbLanes (updCw v (G v)) d wide sgn lat (f v))) s)
    (hF : KeepsIssueNotes F) (hn : G (noteIssue s) = G s) (hG : G s = F) (hf : f (noteIssue s) = f s) (hg : f s = g) (hi : Issues u s) :
    Ends i s (fun t => WritesReg (updCw s F) t d wide sgn lat g) := by
  refine ⟨wbLanes (noteIssue (updCw s F)) d wide sgn lat g, he.trans (issueWord_done hi ?_), writesReg_wbLanes ..⟩
  rw [hn, hG, hf, hg, hF.updCw_noteIssue]

/-- A word that changes its warp and has no result: seen from the changed state it only passes. -/
theorem ends_passes_updCw (he : exec i s = issueWord u (fun v => .done (retireVoid (updCw v (G v)))) s)
    (hF : KeepsIssueNotes F) (hn : G (noteIssue s) = G s) (hG : G s = F) (hi : Issues u s) : Ends i s (fun t => Passes (updCw s F) t) := by
  refine ⟨retireVoid (noteIssue (updCw s F)), he.trans (issueWord_done hi ?_), passes_retireVoid _⟩
  rw [hn, hG, hF.updCw_noteIssue]

/-- A word that writes a group of at least two vector registers (04 R120). -/
theorem ends_writesGroup {d : Dst} {r n lat : Nat} {f : State → Nat → Nat → Nat} {g : Nat → Nat → Nat}
    (he : exec i s = issueWord u (fun v => .done (wbGroup v d n lat (f v))) s) (hf : f (noteIssue s) = f s) (hg : f s = g)
    (hr : d.reg = .v r) (hn : n ≠ 1) (hi : Issues u s) : Ends i s (fun t => WritesGroup s t d r n lat g) :=
  ⟨_, he.trans (issueWord_done hi (by rw [hf, hg])), writesGroup_wbGroup s d r n lat g hr hn⟩

end

/-! ## Conversions (04 R139-R148) -/

/-- CVTS writes its packed word in the state that has counted the elements into SSTAT (04 R140, 03 R104). -/
theorem cvts_writesReg (s : State) (x : NarrowArgs)
    (hi : Issues ⟨[(x.b, false)], groupRegs x.a (packCount x.dty), [], some (x.d, 1), none, gatedTy x.dty, false, false, false, []⟩ s) :
    Ends (.cvts x) s (fun t => WritesReg (updCw s (fun w => w.updSlices s.cur.mask (fun j y =>
      { y with sstat := BitVec.ofNat 64 (cvtsStat s x j (sstatOf y.sstat.toNat)).pack }))) t x.d false false 6 (cvtsWord s x)) :=
  ends_writesReg_updCw (by rw [exec_cvts]; unfold execCvts; rfl) (keepsIssueNotes_updSlices _ _)
    (by simp only [cvtsStat_noteIssue, noteIssue_cur_mask]) rfl (by simp only [cvtsWord_noteIssue]) rfl hi

/-- EFQ writes its code and its residual, which is another register (04 R142). -/
theorem efq_writesBoth (s : State) (x : EfqArgs) (hx : x.d.reg ≠ .v x.c)
    (hi : Issues { ops := [(x.a, false), (x.b, false)], vr := [x.c], dst := some (x.d, 1), rmw := true, gated := gatedTy x.ty } s) :
    Ends (.efq x) s (fun t =>
      let f := fun l => setBits (keptVal s false x.d.reg l) (tyBits x.ty * x.pos) (tyBits x.ty) (efqLane s x l).1
      Frame s t (dstV x.d 1 ++ [x.c]) (dstS x.d) [] (fun j => [⟨s.cycle + 6, dstEntry x.d.reg false false f j⟩]) ∧
      (x.d.nowb = false → ∀ l ∈ curLanes s, Holds t x.d false false f l) ∧
      (∀ l ∈ curLanes s, (cw t).vreg x.c l = BitVec.ofNat 32 (efqLane s x l).2)) := by
  refine ⟨_, (exec_efq x s).trans (issueWord_done hi rfl), ?_⟩
  simp only [keptVal_noteIssue, efqLane_noteIssue]
  exact writes_two s x.d x.c 6 _ _ hx

/-- Settles O7: CVTS, EFQ and the two words with a group result have lemmas of their own; the others are one write-back. -/
theorem conversionWordsWriteResult : Obligations.ConversionWordsWriteResult := by
  intro s
  refine ⟨fun x => regWord_of (by rw [exec_cvt, execCvt]) (by simp only [opTy_noteIssue]), cvts_writesReg s,
    fun x => regWord_of (by rw [exec_scsel, execScsel]) (by simp only [cw_noteIssue_slice, op32_noteIssue]), efq_writesBoth s,
    fun x => regWord_of (by rw [exec_bzpk, execBzpk]) (by simp only [groupVal_noteIssue, opF_noteIssue]), fun x r hr => ?_,
    fun x => regWord_of (by rw [exec_f8pk, execF8pk]) (by simp only [opVal_noteIssue]), fun x r hr => ?_,
    fun x => regWord_of (by rw [exec_scacc, execScacc]) (by simp only [opF_noteIssue, keptVal_noteIssue])⟩
  · exact ends_writesGroup (by rw [exec_bzup, execBzup]) (by simp only [op32_noteIssue]) rfl hr (by split <;> decide)
  · exact ends_writesGroup (by rw [exec_f8up, execF8up]) (by simp only [opVal_noteIssue]) rfl hr (by split <;> decide)

/-! ## Across the lanes (04 R149-R159, 03 R113-R115) -/

/-- Settles O8: all but two words are one write-back; REDX and LACZ pass in the state whose long accumulator they have changed. -/
theorem crossLaneWordsWriteResult : Obligations.CrossLaneWordsWriteResult := by
  intro s
  refine ⟨fun x => regWord_of (by rw [exec_shfl, execShfl]) (by simp only [opVal_noteIssue, shflSrc_noteIssue]),
    fun x => regWord_of (by rw [exec_shfx, execShfx]) (by simp only [op32_noteIssue]),
    fun x => regWord_of (by rw [exec_bcst]; unfold execBcst; rfl)
      (by simp only [opVal_noteIssue, bcstLane_noteIssue, noteIssue_cur]),
    fun d pa => regWord_of (by rw [exec_vote, execVote]) (by simp only [curLanes_note, cw_noteIssue_pred]),
    fun x => regWord_of (by rw [exec_redt, execRedt]) (by simp only [cw_noteIssue_width, noteIssue_cur, opTy_noteIssue]),
    fun x => regWord_of (by rw [exec_scan, execScan]) (by simp only [opTy_noteIssue, curLanes_note]), fun x hi => ?_,
    fun x => regWord_of (by rw [exec_lacr, execLacr]) (by simp only [cw_noteIssue_lacc]), fun hi => ?_⟩
  · intro term sum
    exact ends_passes_updCw (by rw [exec_redx]; unfold execRedx; rfl) (keepsIssueNotes_lacc sum)
      (by simp only [opF_noteIssue, curLanes_note]) rfl hi
  · exact ends_passes_updCw (by rw [exec_lacz, execLacz]) (keepsIssueNotes_lacc fun _ => .zero) rfl rfl hi

end Sys2Proof.Claims
end

section
/-! PROOFS. Branches and traps (05 R185-R188, R195). -/

namespace Sys2Proof.Claims

open Sys2Proof.Machine

/-! ## Branches -/

/-- BRA takes its target in the slices whose guards satisfy it, both of its forms. -/
theorem ends_bra {i : Instr} {s : State} (any : Bool) (g : Guard) (dist : Int) (he : exec i s = execBra any g dist s)
    (hi : Issues { pr := [g.p] } s) :
    Ends i s (fun t => Branches s t true 0 (fun j =>
      let gs := (sliceLanes j).map ((cw s).guard g)
      if (if any then gs.any id else gs.all id) then some (pcPlus ((cw s).slice j).pc dist) else none) (fun _ => .void) []) := by
  refine ⟨_, he.trans (issueWord_done hi rfl), ?_⟩
  simp only [cw_noteIssue_guard, cw_noteIssue_slice]
  exact branches_branch s true 0 _ _

/-- The slice whose target is misaligned, if any, before and after the issue is noted. -/
theorem find_misaligned_noteIssue (s : State) (a : Opnd) (off : Int) :
    (curSlices (noteIssue s)).find? (fun j => (pcPlus (BitVec.ofNat 64 (op64 (noteIssue s) a (lane0 j))) off).toNat % 8 != 0) =
      (curSlices s).find? (fun j => (pcPlus (BitVec.ofNat 64 (op64 s a (lane0 j))) off).toNat % 8 != 0) := by
  rw [curSlices_note, op64_noteIssue]

section

variable {i : Instr} {s : State} {pop : Bool} {a : Opnd} {off : Int}

/-- An indirect branch goes to its target in every slice, where all targets are aligned. -/
theorem ends_indirect (he : exec i s = indirect pop a off s) (hi : Issues { ops := [(a, true)] } s)
    (hal : ∀ j ∈ curSlices s, (pcPlus (BitVec.ofNat 64 (op64 s a (lane0 j))) off).toNat % 8 = 0) :
    Ends i s (fun t =>
      Branches s t pop 0 (fun j => some (pcPlus (BitVec.ofNat 64 (op64 s a (lane0 j))) off)) (fun _ => .void) []) := by
  have hnone : (curSlices s).find? (fun j => (pcPlus (BitVec.ofNat 64 (op64 s a (lane0 j))) off).toNat % 8 != 0) = none :=
    List.find?_eq_none.mpr fun j hj => by simp [hal j hj]
  refine ⟨_, he.trans (issueWord_done hi ?_), branches_branch s pop 0 _ _⟩
  dsimp only
  rw [find_misaligned_noteIssue, hnone, op64_noteIssue]

/-- A misaligned target: MISALIGNED, at the first such slice. -/
theorem faults_indirect {j : Nat} (he : exec i s = indirect pop a off s) (hi : Issues { ops := [(a, true)] } s)
    (hj : (curSlices s).find? (fun j => (pcPlus (BitVec.ofNat 64 (op64 s a (lane0 j))) off).toNat % 8 != 0) = some j) :
    Faults i s (fltAt 7 (pcPlus (BitVec.ofNat 64 (op64 s a (lane0 j))) off).toNat) := by
  refine he.trans (issueWord_trap hi ?_)
  dsimp only
  rw [find_misaligned_noteIssue, hj, op64_noteIssue]

end

/-- CALL writes its return address and branches. -/
theorem ends_call (s : State) (d : Nat) (dist : Int) (hi : Issues { dst := some (⟨.s d, false⟩, 2) } s) :
    Ends (.call d dist) s (fun t =>
      Branches s t false 2 (fun j => some (pcPlus ((cw s).slice j).pc dist))
        (fun j => .e64 (List.replicate 4 (((cw s).slice j).pc + 8))) [d] ∧
      ∀ l ∈ curLanes s, Holds t ⟨.s d, false⟩ true false (fun l => (((cw s).slice (l / 4)).pc + 8).toNat) l) := by
  refine ⟨_, (exec_call d dist s).trans (issueWord_done hi rfl), ?_⟩
  simp only [cw_noteIssue_slice]
  exact branches_call s d 2 _ false _ _

/-- Settles O10: both forms of BRA are `execBra`, BRX and RET the one indirect branch, and CALL also writes its scalar. -/
theorem branchWordsBranch : Obligations.BranchWordsBranch := by
  intro s pcAt bra tgt void
  exact ⟨fun g dist hi => ⟨ends_bra true g dist (exec_braAny g dist s) hi, ends_bra false g dist (exec_braAll g dist s) hi⟩,
    fun a off => ends_indirect (exec_brx a off s), fun a => ends_indirect (exec_ret a s),
    fun a off j => faults_indirect (exec_brx a off s), fun a j => faults_indirect (exec_ret a s), ends_call s⟩

/-! ## Traps -/

/-- Settles O13: the two words differ in the code of their exception. -/
theorem trapWordsTakeTrap : Obligations.TrapWordsTakeTrap := by
  intro s code hi passed
  exact ⟨(exec_trap code s).trans (issueWord_done hi rfl), (exec_bkpt code s).trans (issueWord_done hi rfl)⟩

end Sys2Proof.Claims
end

section
/-! PROOFS. YIELD, REGANG, EXIT, RACQ and RREL (05 R189, R192, R194, 02 R84, R85). -/

namespace Sys2Proof.Claims

open Sys2Proof.Machine

/-- Two changes that agree on the issuing warp change the state alike. -/
theorem updCw_congr {s : State} {F G : Warp → Warp} (h : F (cw s) = G (cw s)) : updCw s F = updCw s G := by
  unfold cw warpOf mgetD at h
  unfold updCw updWarp updCore madj
  dsimp only
  cases hm : mget (coreOf s s.cur.core).warps s.cur.slot with
  | none => rfl
  | some w =>
    simp only [hm, Option.getD_some] at h
    simp only [h]

/-- A change of the issuing warp outside its slices and gangs meets a switch point's pass on either side. -/
theorem updCw_retireSwitch {s : State} {F : Warp → Warp} (hr : ∀ w m, (F w).regroup m = F (w.regroup m))
    (hu : ∀ w m f, (F w).updSlices m f = F (w.updSlices m f)) (es : Nat → List EntryBody) :
    updCw (retireSwitch s es) F = retireSwitch (updCw s F) es := by
  unfold retireSwitch retire
  simp only [updCw_updCw, updCw_cur, updCw_cycle, hr, hu]

/-! ## YIELD -/

/-- YIELD has passed as a switch point and has marked its warp. -/
def yieldPassed (s : State) : State := updCw (retireSwitch (noteIssue s) (fun _ => [.void])) (fun w => { w with yielded := true })

/-- The mark of YIELD, set after the pass, is the mark set before it. -/
theorem passesSwitch_yieldPassed (s : State) : PassesSwitch (updCw s (fun w => { w with yielded := true })) (yieldPassed s) := by
  have hn : noteIssue (updCw s (fun w => { w with yielded := true })) = updCw (noteIssue s) (fun w => { w with yielded := true }) :=
    noteIssue_updCw s _ (fun _ => rfl) (fun _ => ⟨rfl, rfl⟩)
  rw [yieldPassed, updCw_retireSwitch (fun _ _ => rfl) (fun _ _ _ => rfl), ← hn]
  exact passesSwitch_retireSwitch _

/-- YIELD then gives its place to the oldest warp that waits. -/
theorem exec_yield_eq (s : State) (hi : Issues {} s) :
    exec .yield s = .next (match oldestWaiting (coreOf (yieldPassed s) s.cur.core) with
      | some o => joinActive (leaveActive (yieldPassed s) s.cur.core s.cur.slot) s.cur.core o
      | none => yieldPassed s) := by
  refine (exec_yield s).trans (issueWord_done hi ?_)
  show (match oldestWaiting (coreOf (yieldPassed s) s.cur.core) with
    | some o => Act.done (joinActive (leaveActive (yieldPassed s) s.cur.core s.cur.slot) s.cur.core o)
    | none => .done (yieldPassed s)) = _
  cases oldestWaiting (coreOf (yieldPassed s) s.cur.core) <;> rfl

/-! ## REGANG -/

/-- The set that REGANG names for a slice: the issuing slices are always in it (05 R189). -/
def gangNamed (s : State) (m : GangMask) (j : Nat) : Nat :=
  (match m with | .imm k => k | .sreg n => (((cw s).slice j).sreg n).toNat % 2 ^ 16) ||| s.cur.mask

/-- What REGANG uses: the scalar that holds its set. -/
def gangUse : GangMask → Use
  | .imm _ => {}
  | .sreg n => { ops := [(.reg (.s n), false)] }

theorem gangNamed_noteIssue (s : State) (m : GangMask) : gangNamed (noteIssue s) m = gangNamed s m := by
  funext j
  cases m with
  | imm k => rfl
  | sreg n => simp only [gangNamed, cw_noteIssue_slice, noteIssue_cur]

/-- REGANG parks its slices, and the core looks for a closed set. -/
theorem ends_regang (s : State) (m : GangMask) (hi : Issues (gangUse m) s) :
    Ends (.regang m) s (fun t => ∃ u,
      FrameBy (fun j x => { x with st := .park (.regang (gangNamed s m j)), window := [] }) s u [] [] [] ∧
      t = regangRelease u s.cur.core s.cur.slot ((cw s).slice (curLow s)).pc) := by
  have he : exec (.regang m) s = issueWord (gangUse m) (fun s =>
      .done (regangRelease (updCw s fun w => w.updSlices s.cur.mask fun j x => { x.discard with st := .park (.regang (gangNamed s m j)) })
        s.cur.core s.cur.slot ((cw s).slice (curLow s)).pc)) s := by cases m <;> rfl
  refine ⟨_, he.trans (issueWord_done hi rfl), _,
    frameBy_upd (P := fun j x => { x with st := .park (.regang (gangNamed s m j)), window := [] }) (fun _ _ _ => rfl) s (·.gangs), ?_⟩
  rw [cw_noteIssue_slice, curLow_noteIssue, gangNamed_noteIssue]
  rfl

/-! ## RACQ -/

@[simp] theorem cw_noteIssue_extmax (s : State) : (cw (noteIssue s)).extmax = (cw s).extmax := by rw [cw_noteIssue_only]

/-- Taking granules after the note of the issue is taking them before it. -/
theorem noteIssue_acquire (s : State) (n : Nat) (gs : List Nat) (lent : Bool) :
    noteIssue (updCw s (fun w => w.acquire n gs lent)) = updCw (noteIssue s) (fun w => w.acquire n gs lent) :=
  noteIssue_updCw s _ (fun _ => rfl) (fun _ => ⟨rfl, rfl⟩)

section

variable {s : State} {n : Nat}

/-- RACQ above the maximum. -/
theorem faults_racq (hi : Issues {} s) (h : 4 < (cw s).held + n ∨ (cw s).extmax < (cw s).held + n) : Faults (.racq n) s (flt 5) := by
  refine (exec_racq n s).trans (issueWord_trap hi ?_)
  simp only [cw_noteIssue_held, cw_noteIssue_extmax, if_pos h]

variable (hi : Issues {} s) (h4 : (cw s).held + n ≤ 4) (hm : (cw s).held + n ≤ (cw s).extmax)
include hi h4 hm

/-- RACQ whose wait is met at issue. -/
theorem ends_racq_acquire (hw : racqWaiters (coreOf s s.cur.core) = [])
    (hg : (poolGranules (coreOf s s.cur.core) (cw s).width n).length = n) :
    Ends (.racq n) s (fun t =>
      PassesSwitch (updCw s (fun w => w.acquire n (poolGranules (coreOf s s.cur.core) (cw s).width n) false)) t) := by
  have hle : ¬ (4 < (cw s).held + n ∨ (cw s).extmax < (cw s).held + n) := by omega
  refine ⟨_, (exec_racq n s).trans (issueWord_done hi ?_), passesSwitch_retireSwitch _⟩
  simp only [cw_noteIssue_held, cw_noteIssue_extmax, cw_noteIssue_width, noteIssue_cur, racqWaiters_noteIssue,
    poolGranules_noteIssue, noteIssue_acquire, if_neg hle, if_pos (And.intro hw hg)]

/-- RACQ that has to wait. -/
theorem ends_racq_park
    (hw : racqWaiters (coreOf s s.cur.core) ≠ [] ∨ (poolGranules (coreOf s s.cur.core) (cw s).width n).length ≠ n) :
    Ends (.racq n) s (fun t => Parks s t (.racq n s.cycle)) := by
  have hle : ¬ (4 < (cw s).held + n ∨ (cw s).extmax < (cw s).held + n) := by omega
  have hno : ¬ (racqWaiters (coreOf s s.cur.core) = [] ∧ (poolGranules (coreOf s s.cur.core) (cw s).width n).length = n) :=
    fun h => hw.elim (fun x => x h.1) (fun x => x h.2)
  refine ⟨_, (exec_racq n s).trans (issueWord_done hi ?_), parks_park s _⟩
  simp only [cw_noteIssue_held, cw_noteIssue_extmax, cw_noteIssue_width, noteIssue_cur, noteIssue_cycle, racqWaiters_noteIssue,
    poolGranules_noteIssue, if_neg hle, if_neg hno]

end

/-! ## RREL -/

@[simp] theorem cw_noteIssue_lent (s : State) : (cw (noteIssue s)).lent = (cw s).lent := by rw [cw_noteIssue_only]
@[simp] theorem cw_noteIssue_busy (s : State) : (cw (noteIssue s)).busy = (cw s).busy := by rw [cw_noteIssue_only]

/-- A warp gives its topmost granules back and keeps `keep` of them (02 R85). -/
def release (keep : Nat) (w : Warp) : Warp :=
  { w with held := keep, granules := w.granules.take keep, releasing := w.releasing ++ w.granules.drop keep,
           lent := ((w.granules.take keep).filter (fun g => decide (fileBlocks w.width - 8 ≤ g))).length }

theorem noteIssue_release (s : State) (keep : Nat) : noteIssue (updCw s (release keep)) = updCw (noteIssue s) (release keep) :=
  noteIssue_updCw s _ (fun _ => rfl) (fun _ => ⟨rfl, rfl⟩)

/-- RREL of more than the warp holds. -/
theorem faults_rrel {s : State} {n : Nat} (hi : Issues {} s) (hl : (cw s).lent = 0) (hn : (cw s).held < n) :
    Faults (.rrel n) s (flt 4) := by
  refine (exec_rrel n s).trans (issueWord_trap hi ?_)
  simp only [cw_noteIssue_held, cw_noteIssue_lent, if_pos (And.intro hl hn)]

/-- RREL without a write in flight to what it releases: all with granules lent or a count of 0, else the count. -/
theorem ends_rrel {s : State} {n : Nat} (hi : Issues {} s) :
    let h := (cw s).held
    let k := if (cw s).lent ≠ 0 ∨ n = 0 then h else n
    ((cw s).lent ≠ 0 ∨ n ≤ h) →
    (∀ b ∈ (cw s).busy, ¬ (b.pending s.cycle = true ∧ 128 + 64 * (h - k) ≤ b.code ∧ b.code < 128 + 64 * h)) →
    Ends (.rrel n) s (fun t => Passes (updCw s (release (h - k))) t) := by
  intro h k hn hb
  have hno : ¬ ((cw s).lent = 0 ∧ (cw s).held < n) := by omega
  have hany : (cw s).busy.any (fun b => b.pending s.cycle && decide (128 + 64 * (h - k) ≤ b.code) && decide (b.code < 128 + 64 * h)) =
      false := List.any_eq_false.mpr fun b hm => by simpa [and_assoc] using hb b hm
  refine ⟨_, (exec_rrel n s).trans (issueWord_done hi ?_), passes_retireVoid _⟩
  simp only [cw_noteIssue_held, cw_noteIssue_lent, cw_noteIssue_busy, noteIssue_cycle, if_neg hno]
  rw [if_neg (by rw [hany]; decide), noteIssue_release]
  congr 2
  exact updCw_congr rfl

/-- Settles O12, word by word. -/
theorem schedulingWordsComplete : Obligations.SchedulingWordsComplete := by
  intro s
  refine ⟨fun hi => ⟨_, exec_yield_eq s hi, _, passesSwitch_yieldPassed s, rfl⟩, fun m => ?_,
    fun hi => (exec_exit s).trans (issueWord_done hi rfl), fun n hi => ?_, fun n hi => ?_⟩
  · cases m with
    | imm k => exact ends_regang s (.imm k)
    | sreg n => exact ends_regang s (.sreg n)
  · exact ⟨fun h4 hm => ⟨ends_racq_acquire hi h4 hm, ends_racq_park hi h4 hm⟩, faults_racq hi⟩
  · exact ⟨ends_rrel hi, faults_rrel hi⟩

end Sys2Proof.Claims
end

section
/-! PROOFS. A fault that holds a warp also stops its time (05 R174, 08 R269). -/

namespace Sys2Proof.Claims

open Sys2Proof.Machine

/-- A machine with one warp, of firmware, in slot 0 of core 0: the site of the reset state. -/
def firmwareAlone : State :=
  { State.reset with cores := [(0, { Core.zero with warps := [(0, { Warp.empty with firmware := true })] })] }

/-- The warp's time has stopped: at cycle 0, that of the fault. -/
theorem firmwareAlone_takeFault_stopped :
    (mget (coreOf (takeFault firmwareAlone (flt 1)) 0).warps 0).map (·.stopped) = some (some 0) := by decide

/-- Refutes O54: the fault of a warp whose time goes on also notes since when the time-outs of its waits stand still
(`Warp.stopTime`, 08 R269); in the statement the held warp keeps `stopped`, which is `none` before the fault. -/
theorem not_faultHoldsWarpAndOpensRecord : ¬ Obligations.FaultHoldsWarpAndOpensRecord := by
  intro h
  obtain ⟨hfw, -⟩ := h firmwareAlone (flt 1) _ _ rfl rfl
  obtain ⟨⟨hcore, -⟩, -⟩ := hfw rfl
  have hs := congrArg (fun c : Core => (mget c.warps 0).map (·.stopped)) hcore
  exact absurd (firmwareAlone_takeFault_stopped.symm.trans hs) (by decide)

end Sys2Proof.Claims
end

section
/-! PROOFS. Events of the scheduler and of a core's slots (05 R164-R173, R177, R189, 02 R65-R67, R85). -/

namespace Sys2Proof.Claims

open Sys2Proof.Machine

/-- A choice between two results may be taken by any condition that says the same. -/
theorem ite_of_iff {α : Type} {b c : Prop} [Decidable b] [Decidable c] {x y : α} (h : b ↔ c) :
    (if b then x else y) = if c then x else y := ite_congr (propext h) (fun _ => rfl) (fun _ => rfl)

section

variable {s : State} {core : Nat}

/-! ## Extension registers (02 R65, R66) -/

theorem racqGrant_none (h : racqWaiters (coreOf s core) = []) : exec (.racqGrant core) s = .next s := by
  rw [exec_racqGrant, execRacqGrant]
  dsimp only
  rw [h]

section

variable {t slot mask n : Nat} {rest : List (Nat × Nat × Nat × Nat)}

/-- The oldest request is served when the free pool holds it. -/
theorem racqGrant_oldest (h : racqWaiters (coreOf s core) = (t, slot, mask, n) :: rest) :
    exec (.racqGrant core) s =
      let free := poolGranules (coreOf s core) (warpOf s core slot).width n
      if free.length < n then .next s else .next (endEpisode (racqGrant s core slot mask n free false) core) := by
  rw [exec_racqGrant, execRacqGrant]
  dsimp only
  rw [h]

/-- In an episode the oldest request is served from the reserve, once in a cycle, or the episode ends. -/
theorem emergencyGrant_oldest (he : (coreOf s core).emergency = true) (h : racqWaiters (coreOf s core) = (t, slot, mask, n) :: rest) :
    exec (.emergencyGrant core) s =
      let top := fileBlocks (warpOf s core slot).width
      let gs := (freeGranules (coreOf s core) (top - 8) top).take n
      if (coreOf s core).granted = some s.cycle then .next s
      else if gs.length < n then .next (updCore s core (fun c => { c with emergency := false }))
      else .next (endEpisode
        (updCore (racqGrant s core slot mask n gs true) core (fun c => { c with granted := some s.cycle })) core) := by
  rw [exec_emergencyGrant, execEmergencyGrant]
  dsimp only
  rw [he, h]
  rfl

end

theorem emergencyGrant_idle (he : (coreOf s core).emergency = false) : exec (.emergencyGrant core) s = .next s := by
  rw [exec_emergencyGrant, execEmergencyGrant]
  dsimp only
  rw [he]
  rfl

theorem emergencyGrant_none (he : (coreOf s core).emergency = true) (h : racqWaiters (coreOf s core) = []) :
    exec (.emergencyGrant core) s = .next (updCore s core (fun c => { c with emergency := false })) := by
  rw [exec_emergencyGrant, execEmergencyGrant]
  dsimp only
  rw [he, h]
  rfl

/-- A core is stuck when every slice is parked on its own resources and a request waits (02 R66). -/
theorem stuck_iff (c : Core) :
    (c.warps.all (fun x => x.2.slices.all Slice.ownPark) && !(racqWaiters c).isEmpty) = true ↔
      (∀ x ∈ c.warps, ∀ y ∈ x.2.slices, y.ownPark = true) ∧ racqWaiters c ≠ [] := by
  simp only [Bool.and_eq_true, List.all_eq_true, Bool.not_eq_true', List.isEmpty_eq_false_iff]

/-- The two episode events. -/
theorem emergencyEpisode_eq :
    exec (.emergencyEpisode core) s =
      if (∀ x ∈ (coreOf s core).warps, ∀ y ∈ x.2.slices, y.ownPark = true) ∧ racqWaiters (coreOf s core) ≠ []
      then .next (updCore s core (fun c => { c with emergency := true })) else .next s := by
  rw [exec_emergencyEpisode, execEmergencyEpisode]
  exact ite_of_iff (stuck_iff _)

/-! ## Cluster-blocks (05 R164-R166) -/

/-- The launch after an assignment: past its cluster-block, and draining where that was the last. -/
def launchAssigned (l : Launch) : Launch :=
  { l with nextCb := l.nextCb + 1, st := if ({ l with nextCb := l.nextCb + 1 } : Launch).nextK.isSome then .dispatching else .draining }

theorem launchAssigned_nextCb (l : Launch) : (launchAssigned l).nextCb = l.nextCb + 1 := rfl

theorem launchAssigned_nextK (l : Launch) : (launchAssigned l).nextK = ({ l with nextCb := l.nextCb + 1 } : Launch).nextK := rfl

theorem launchAssigned_st (l : Launch) :
    (launchAssigned l).st = if (launchAssigned l).nextK.isSome then .dispatching else .draining := rfl

/-- The next cluster-block of a launch is assigned. -/
theorem clusterBlockAssign_next {id cl : Nat} {cores : List Nat} {l : Launch} {k : Nat} (hl : mget s.launches id = some l)
    (hk : l.nextK = some k) (hm : mayAssign s l cl cores = true) (ho : outranked s id l cl cores = false) :
    exec (.clusterBlockAssign id cl cores) s = .next (updLaunch { s with
      nextId := s.nextId + 1, cbs := mset s.cbs s.nextId ⟨k, id, cl, cores, s.nextId, .assigned, [], []⟩ } id launchAssigned) := by
  rw [exec_clusterBlockAssign, execClusterBlockAssign, hl]
  dsimp only
  rw [hk]
  dsimp only
  rw [if_pos (by rw [hm, ho]; rfl)]
  rfl

/-- The launch after its assignment. -/
theorem ends_clusterBlockAssign {id cl : Nat} {cores : List Nat} {l : Launch} {k : Nat} (hl : mget s.launches id = some l)
    (hk : l.nextK = some k) (hm : mayAssign s l cl cores = true) (ho : outranked s id l cl cores = false) :
    Ends (.clusterBlockAssign id cl cores) s (fun t =>
      mget t.cbs s.nextId = some ⟨k, id, cl, cores, s.nextId, .assigned, [], []⟩ ∧ t.mem = s.mem ∧
      ∃ m, mget t.launches id = some m ∧ m.nextCb = l.nextCb + 1 ∧ (m.st = .draining ∨ m.st = .dispatching) ∧
        (m.st = .draining ↔ m.nextK = none)) := by
  refine ⟨_, clusterBlockAssign_next hl hk hm ho, mget_mset_self _ _ _, rfl, launchAssigned l, ?_, launchAssigned_nextCb l, ?_⟩
  · show mget (madj s.launches id launchAssigned) id = _
    rw [mget_madj, if_pos rfl, hl]
    rfl
  · rw [launchAssigned_st]
    cases (launchAssigned l).nextK with
    | none => exact ⟨.inl rfl, fun _ => rfl, fun _ => rfl⟩
    | some k => exact ⟨.inr rfl, fun h => (by cases h), fun h => (by cases h)⟩

/-- No cluster-block assigned earlier waits for one of these cores (05 R166). -/
theorem noneEarlier_eq_true {c : ClusterBlock}
    (h : ∀ o ∈ s.cbs, o.2.st = .assigned → o.2.order < c.order → ∀ k ∈ o.2.cores, k ∉ c.cores) :
    (s.cbs.all fun o => !(o.2.st == .assigned && decide (o.2.order < c.order) && o.2.cores.any (fun k => c.cores.contains k))) = true := by
  refine List.all_eq_true.mpr fun o ho => ?_
  rw [Bool.not_eq_true', Bool.and_eq_false_imp]
  intro hst
  rw [Bool.and_eq_true, beq_iff_eq, decide_eq_true_eq] at hst
  exact List.any_eq_false.mpr fun k hk => by simpa using h o ho hst.1 hst.2 k hk

/-- A cluster-block whose turn has come, on cores that hold it, becomes resident block by block. -/
theorem clusterBlockResident_next {id : Nat} {c : ClusterBlock} {l : Launch} (hc : mget s.cbs id = some c)
    (hl : mget s.launches c.launch = some l) (hst : c.st = .assigned)
    (hf : ∀ o ∈ s.cbs, o.2.st = .assigned → o.2.order < c.order → ∀ k ∈ o.2.cores, k ∉ c.cores)
    (hh : holderOf s (partOf c.cluster) = some l.ctx) (ha : ctxActive s l.ctx = true) (hg : ∀ k ∈ c.cores, coreGrants s l k = true) :
    exec (.clusterBlockResident id) s = .next ((List.range c.cores.length).foldl
      (fun u i => startBlock c.launch l id (c.k * fld l.pkt 3 1 + i) ((c.cores[i]?).getD 0) u)
      { s with cbs := mset s.cbs id { c with st := .resident } }) := by
  have hfirst := noneEarlier_eq_true hf
  have hgrant : c.cores.all (coreGrants s l) = true := List.all_eq_true.mpr hg
  rw [exec_clusterBlockResident, execClusterBlockResident, hc]
  dsimp only
  rw [hl]
  dsimp only
  rw [if_pos (by rw [hst, hfirst, hh, ha, hgrant]; simp)]

/-! ## The active set (05 R173, R177) -/

/-- The core's marks of the warps that are parked or exited. -/
def idleMarked (s : State) (core : Nat) : State := updCore s core (fun c => { c with active := c.active.map (idleMark s core) })

theorem idleMarked_cycle : (idleMarked s core).cycle = s.cycle := rfl

theorem activeSetUpdate_none (h : oldestWaiting (coreOf (idleMarked s core) core) = none) :
    exec (.activeSetUpdate core) s = .next (idleMarked s core) := by
  rw [exec_activeSetUpdate, execActiveSetUpdate, ← idleMarked, h]

/-- With a warp that waits: it joins a set that has room, else it takes the place of the warp that has been swappable longest. -/
theorem activeSetUpdate_some {o : Nat} (h : oldestWaiting (coreOf (idleMarked s core) core) = some o) :
    exec (.activeSetUpdate core) s =
      let u := idleMarked s core
      let c := coreOf u core
      if c.active.length < 4 then .next (joinActive u core o)
      else if c.swapped = some s.cycle then .next u
      else match leastBy (fun a => a.2.getD 0) (c.active.filter (fun a => a.2.isSome)) with
        | some a => .next (updCore (joinActive (leaveActive u core a.1) core o) core (fun c => { c with swapped := some s.cycle }))
        | none => .next u := by
  rw [exec_activeSetUpdate, execActiveSetUpdate, ← idleMarked]
  dsimp only
  rw [h]
  rfl

/-- The member of an active set that has been swappable strictly longest. -/
theorem leastBy_swappable {l : List (Nat × Option Nat)} {sl n : Nat} (hm : (sl, some n) ∈ l)
    (hlt : ∀ a ∈ l, a ≠ (sl, some n) → ∀ v, a.2 = some v → n < v) :
    leastBy (fun a => a.2.getD 0) (l.filter (fun a => a.2.isSome)) = some (sl, some n) := by
  refine leastBy_eq _ _ _ (List.mem_filter.mpr ⟨hm, rfl⟩) fun a ha hne => ?_
  obtain ⟨hmem, hsome⟩ := List.mem_filter.mp ha
  obtain ⟨v, hv⟩ := Option.isSome_iff_exists.mp hsome
  rw [hv]
  exact hlt a hmem hne v hv

/-- No member of a set without marks is swappable. -/
theorem leastBy_unswappable {l : List (Nat × Option Nat)} (h : ∀ a ∈ l, a.2 = none) :
    leastBy (fun a => a.2.getD 0) (l.filter (fun a => a.2.isSome)) = none := by
  rw [List.filter_eq_nil_iff.mpr fun a ha => by simp [h a ha], leastBy_nil]

section

variable {o : Nat} (h : oldestWaiting (coreOf (idleMarked s core) core) = some o)
include h

theorem activeSetUpdate_join (h4 : (coreOf (idleMarked s core) core).active.length < 4) :
    exec (.activeSetUpdate core) s = .next (joinActive (idleMarked s core) core o) :=
  (activeSetUpdate_some h).trans (if_pos h4)

theorem activeSetUpdate_full (h4 : 4 ≤ (coreOf (idleMarked s core) core).active.length)
    (hno : (coreOf (idleMarked s core) core).swapped = some s.cycle ∨ ∀ a ∈ (coreOf (idleMarked s core) core).active, a.2 = none) :
    exec (.activeSetUpdate core) s = .next (idleMarked s core) := by
  refine (activeSetUpdate_some h).trans ((if_neg (Nat.not_lt.mpr h4)).trans ?_)
  by_cases hs : (coreOf (idleMarked s core) core).swapped = some s.cycle
  · exact if_pos hs
  · rw [if_neg hs, leastBy_unswappable (hno.resolve_left hs)]

theorem activeSetUpdate_exchange (h4 : 4 ≤ (coreOf (idleMarked s core) core).active.length)
    (hs : (coreOf (idleMarked s core) core).swapped ≠ some s.cycle) {sl n : Nat}
    (hm : (sl, some n) ∈ (coreOf (idleMarked s core) core).active)
    (hlt : ∀ a ∈ (coreOf (idleMarked s core) core).active, a ≠ (sl, some n) → ∀ v, a.2 = some v → n < v) :
    exec (.activeSetUpdate core) s = .next
      (updCore (joinActive (leaveActive (idleMarked s core) core sl) core o) core (fun c => { c with swapped := some s.cycle })) := by
  refine (activeSetUpdate_some h).trans ((if_neg (Nat.not_lt.mpr h4)).trans ((if_neg hs).trans ?_))
  rw [leastBy_swappable hm hlt]

end

theorem warpForced_eq (slot : Nat) : exec (.warpForced core slot) s =
    .next (updWarp s core slot (fun w => if 256 ≤ w.offered ∧ w.rr = false then { w with forced := true } else w)) := by
  rw [exec_warpForced, execWarpForced]
  simp only [Bool.not_eq_true']

/-! ## Exit (05 R172) -/

/-- The warp has left its slot and its block. -/
def warpGone (s : State) (core slot : Nat) : State :=
  let u := updCore (latchExit s core slot) core (fun c => { c with
    warps := mdel c.warps slot, active := c.active.filter (fun a => a.1 != slot) })
  { u with blocks := madj u.blocks (warpOf s core slot).block (fun b =>
      { b with live := b.live.filter (fun k => k != (warpOf s core slot).uid) }) }

/-- A warp leaves once it has exited and its writes are complete, and its block is done when it was the last one. -/
theorem warpExited_eq (slot : Nat) :
    exec (.warpExited core slot) s =
      let w := warpOf s core slot
      let v := warpGone s core slot
      if w.st = .exiting ∧ ∀ b ∈ w.busy, b.pending s.cycle = false then
        match mget v.blocks w.block with
        | some b => .next (if b.live.isEmpty && b.st != .done then blockDone v w.block else v)
        | none => .next v
      else .next s := by
  have hc : (∀ b ∈ (warpOf s core slot).busy, b.pending s.cycle = false) ↔
      ((warpOf s core slot).busy.all fun b => !b.pending s.cycle) = true := by simp only [List.all_eq_true, Bool.not_eq_true']
  rw [exec_warpExited, execWarpExited]
  unfold warpGone
  generalize latchExit s core slot = u
  exact ite_of_iff (and_congr_right fun _ => hc.symm)

section

variable {slot : Nat} (hg : (warpOf s core slot).st = .exiting ∧ ∀ b ∈ (warpOf s core slot).busy, b.pending s.cycle = false)
include hg

theorem warpExited_last {b : Block} (hb : mget (warpGone s core slot).blocks (warpOf s core slot).block = some b) (hl : b.live = [])
    (hd : b.st ≠ .done) : exec (.warpExited core slot) s = .next (blockDone (warpGone s core slot) (warpOf s core slot).block) := by
  refine (warpExited_eq slot).trans ((if_pos hg).trans ?_)
  rw [hb]
  dsimp only
  rw [if_pos (by rw [hl]; simpa using hd)]

theorem warpExited_notLast
    (hb : ∀ b, mget (warpGone s core slot).blocks (warpOf s core slot).block = some b → b.live ≠ [] ∨ b.st = .done) :
    exec (.warpExited core slot) s = .next (warpGone s core slot) := by
  refine (warpExited_eq slot).trans ((if_pos hg).trans ?_)
  cases hm : mget (warpGone s core slot).blocks (warpOf s core slot).block with
  | none => rfl
  | some b =>
    have hno : ¬ (b.live.isEmpty && b.st != .done) = true := fun h => by
      obtain ⟨hl, hs⟩ := Bool.and_eq_true_iff.mp h
      exact (hb b hm).elim (fun hne => hne (List.isEmpty_iff.mp hl)) (fun hd => bne_iff_ne.mp hs hd)
    dsimp only
    rw [if_neg hno]

end

end

/-- Settles O44: one equation for each event, and its cases. -/
theorem slotEventsAct : Obligations.SlotEventsAct := by
  intro s
  refine ⟨fun core slot addr => rfl, fun core => ⟨racqGrant_none, fun t slot mask n rest h => ?_⟩, fun core => ?_, fun core => ?_,
    fun core slot => rfl, fun id l k cl cores hl hk hm ho => ends_clusterBlockAssign hl hk hm ho,
    fun id c l hc hl hst hf hh ha hg => clusterBlockResident_next hc hl hst hf hh ha hg, fun core => ?_,
    fun core slot => warpForced_eq slot, fun core slot => ?_⟩
  · have he := racqGrant_oldest h
    exact ⟨fun hl => he.trans (if_neg (by omega)), fun hl => he.trans (if_pos hl)⟩
  · exact ⟨fun h => emergencyEpisode_eq.trans (if_pos h), fun h => emergencyEpisode_eq.trans (if_neg h)⟩
  · refine ⟨emergencyGrant_idle, emergencyGrant_none, fun he t slot mask n rest h => ?_⟩
    have hx := emergencyGrant_oldest he h
    intro top free
    exact ⟨fun hg => hx.trans (if_pos hg),
      fun hg hn => hx.trans ((if_neg hg).trans (if_neg (by rw [List.length_take]; dsimp only [free, top] at hn; omega))),
      fun hg hn => hx.trans ((if_neg hg).trans (if_pos (by rw [List.length_take]; dsimp only [free, top] at hn; omega)))⟩
  · exact ⟨activeSetUpdate_none, fun o h => ⟨activeSetUpdate_join h, activeSetUpdate_full h,
      fun h4 hs sl n hm hlt => activeSetUpdate_exchange h h4 hs hm hlt⟩⟩
  · exact ⟨fun hg => (warpExited_eq slot).trans (if_neg hg), fun hg => ⟨fun b hb hl hd => warpExited_last hg hb hl hd,
      warpExited_notLast hg⟩⟩

end Sys2Proof.Claims
end

section
/-! PROOFS. What a step runs: the agenda, a fetch, the word of a gang, a turn of each agent (01 Table word-13, 05 R175, 07 R235). -/

namespace Sys2Proof.Claims

open Sys2Proof.Machine

theorem step_turn {s : State} {t : Turn} {r : List Turn} (h : s.agenda = t :: r) : step s = turn t { s with agenda := r } := by
  rw [step, h]

theorem step_auto {s : State} (h : s.agenda = []) : step s = autoTurn s := by
  rw [step, h]

/-! ## Fetch (07 R235) -/

theorem homeRead_bytes (s : State) (key pa n : Nat) : (homeRead s key pa n).1 = readPa s key pa n := rfl

theorem onlyTlbs_homeRead (s : State) (key pa n : Nat) : OnlyTlbs s (homeRead s key pa n).2 := by
  unfold homeRead
  dsimp only
  split
  · exact onlyTlbs_l2Access s key pa n false
  · exact onlyTlbs_refl s

/-- A fetch reads the bytes that stand there, or those that its launch found there. -/
theorem fetchWord_ok {s v : State} {cl ctx va : Nat} {x : Xlat} (h : translate s cl ctx va .fetch = (.ok x, v)) :
    let now := readPa v x.key (resolve v ctx x false) 8
    let old := oldWord v (cw v).launch (resolve v ctx x false) now
    ∃ (n : Nat) (u : State), fetchWord s cl ctx va 8 = (.ok n, u) ∧ (n = ofBytes now ∨ n = ofBytes old) ∧ OnlyTlbs s u := by
  intro now old
  have hv : OnlyTlbs s v := by simpa only [h] using onlyTlbs_translate s cl ctx va .fetch
  have hr := onlyTlbs_trans hv (onlyTlbs_homeRead v x.key (resolve v ctx x false) 8)
  unfold fetchWord
  rw [h]
  dsimp only
  rw [homeRead_bytes]
  by_cases he : old = now
  · exact ⟨_, _, if_pos he, .inl rfl, hr⟩
  · refine ⟨_, _, if_neg he, ?_, onlyTlbs_trans hr (onlyTlbs_choose _ 2)⟩
    split
    · exact .inl rfl
    · exact .inr rfl

/-! ## The word of a gang (01 Table word-13, 05 R175) -/

/-- The machine at a site: the gang of a warp, and the queue that pays for its word. -/
def atSite (s : State) (core slot mask : Nat) : State :=
  { s with cur := { Site.zero with core := core, slot := slot, mask := mask }, payer := payerOf s (warpOf s core slot).launch }

/-- The word that a site has fetched. -/
def withWord (u : State) (n : Nat) : State := { u with cur := { u.cur with word := BitVec.ofNat 64 n } }

/-- The address of a site's word. -/
def sitePc (c : State) : Nat := ((cw c).slice (curLow c)).pc.toNat

theorem attempt_eq (s : State) (core slot mask : Nat) :
    attempt s core slot mask =
      let c := atSite s core slot mask
      match fetchWord c (clusterOf core) (cw c).ctx (sitePc c) 8 with
      | (.error p, u) => .next (takeFault (noteIssue u) (fltPage (sitePc c) p))
      | (.ok n, u) => runWord n u := rfl

section

variable {s u : State} {core slot mask n : Nat}

/-- A fetched word runs. -/
theorem attempt_fetched (h : fetchWord (atSite s core slot mask) (clusterOf core) (cw (atSite s core slot mask)).ctx
      (sitePc (atSite s core slot mask)) 8 = (.ok n, u)) : attempt s core slot mask = runWord n u := by
  rw [attempt_eq]
  dsimp only
  rw [h]

/-- A word that cannot be read takes its page fault. -/
theorem attempt_unreadable {p : PageFault} (h : fetchWord (atSite s core slot mask) (clusterOf core) (cw (atSite s core slot mask)).ctx
      (sitePc (atSite s core slot mask)) 8 = (.error p, u)) :
    attempt s core slot mask = .next (takeFault (noteIssue u) (fltPage (sitePc (atSite s core slot mask)) p)) := by
  rw [attempt_eq]
  dsimp only
  rw [h]

theorem runWord_instr {i : Instr} (h : decodeCore n = .ok i) (hr : ∀ x, i ≠ .rep x) : runWord n u = exec i (withWord u n) := by
  unfold runWord
  rw [h]
  dsimp only
  split
  · next heq => cases heq
  · next heq => cases heq
  · next x heq => exact absurd (Dec.ok.inj heq) (hr x)
  · next j _ heq => rw [Dec.ok.inj heq]; rfl

theorem runWord_illegal (h : decodeCore n = .illegalOpcode) : runWord n u = .next (takeFault (noteIssue (withWord u n)) (flt 1)) := by
  unfold runWord
  rw [h]
  rfl

theorem runWord_reserved (h : decodeCore n = .reservedEncoding) :
    runWord n u = .next (takeFault (noteIssue (withWord u n)) (flt 2)) := by
  unfold runWord
  rw [h]
  rfl

/-- A REP prefix whose checks pass runs the word that it hands on, and else ends as its own word ends. -/
theorem runWord_rep {x : RepArgs} {t : State} (h : decodeCore n = .ok (.rep x)) (ht : exec (.rep x) (withWord u n) = .next t) :
    (t.cur.rep = none → runWord n u = .next t) ∧
    (t.cur.rep.isSome = true → ∀ i, decodeCore t.cur.word.toNat = .ok i → runWord n u = exec i t) := by
  have hrun : runWord n u = runRep x (withWord u n) := by
    unfold runWord
    rw [h]
    rfl
  rw [hrun, runRep, ht]
  dsimp only
  refine ⟨fun hn => ?_, fun hs i hi => ?_⟩
  · rw [hn]
    rfl
  · rw [if_pos hs, hi]

end

/-! ## A turn of a core with one warp that offers (05 R175-R179) -/

section

variable {s : State} {core : Nat} {x : Nat × Warp} {g : Nat × Nat}

/-- What a warp offers is a gang of its own. -/
theorem offerOf_slot (h : offerOf s core x = some g) : g.1 = x.1 := by
  unfold offerOf at h
  obtain ⟨y, -, hy⟩ := Option.map_eq_some_iff.mp h
  rw [← hy]

/-- With one warp no policy has a choice. -/
theorem policyOrder_one : policyOrder s core [x] = ([x], s) := by
  unfold policyOrder orderWarps
  cases h : x.2.rr <;> simp [h]

/-- The one warp that offers a word tries it. -/
theorem issueTurn_one (hi : (coreOf s core).issued ≠ some s.cycle) (ha : activeWarps s core = [x]) (ho : offerOf s core x = some g)
    (hp : (warpOf s core x.1).packs = false) : issueTurn core s = attempt (countOffers s core [x.1]) core x.1 g.2 := by
  have hg := offerOf_slot ho
  unfold issueTurn
  rw [if_neg hi, ha]
  simp only [List.filterMap_cons, List.filterMap_nil, ho, List.filter_cons, List.any_cons, List.any_nil, hg, beq_self_eq_true,
    Bool.or_false, if_true, List.filter_nil, policyOrder_one, List.find?_cons, List.map_cons, List.map_nil, hp, Bool.false_eq_true, if_false]
  cases attempt (countOffers s core [x.1]) core x.1 g.2 <;> rfl

end

/-! ## Turns of the other agents -/

section

variable {s : State}

/-- The machine at the place of an NMU program. -/
def nmuSite (s : State) (stack place : Nat) : State := { s with cur := { Site.zero with stack := stack, place := place } }

/-- The program of a place has its turn: the unit notes it, and the cycle is charged to its queue (13 R410). -/
def nmuTaken (s : State) (stack place : Nat) (p : NmuProg) : State :=
  charge { (updNmu (nmuSite s stack place) stack (fun u => { u with last := place })) with payer := nodePayer s p.ctx p.node } 4 1

/-- The next word of a program runs, or the program faults (11 Table sketch-7). -/
def nmuRunWord (v : State) (stack place : Nat) (p : NmuProg) : Out :=
  match p.words[p.pc]? with
  | none => .next (nmuFault v stack place p 8 0)
  | some w =>
    match decodeNmu w.toNat with
    | .ok i => exec i v
    | .illegalOpcode => .next (nmuFault v stack place p 1 0)
    | .reservedEncoding => .next (nmuFault v stack place p 2 0)

theorem nmuTurn_eq {stack place : Nat} {p : NmuProg} (hp : nmuProg s stack place = some p) :
    nmuTurn stack place s =
      if nmuNext s stack ≠ some place ∨ nmuLate s then .next (nmuSite s stack place)
      else match p.fault with
        | some (cause, va) => .next (nmuFaultTurn (nmuTaken s stack place p) stack place p cause va)
        | none => nmuRunWord (nmuTaken s stack place p) stack place p := by
  have h : nmuTurn stack place s = match nmuProg s stack place with
    | none => .next (nmuSite s stack place)
    | some p =>
      if nmuNext s stack ≠ some place ∨ nmuLate s then .next (nmuSite s stack place)
      else match p.fault with
        | some (cause, va) => .next (nmuFaultTurn (nmuTaken s stack place p) stack place p cause va)
        | none => nmuRunWord (nmuTaken s stack place p) stack place p := rfl
  rw [h, hp]

/-- The NMU program of a place whose turn it is runs its next word. -/
theorem nmuTurn_runs {stack place : Nat} {p : NmuProg} (hp : nmuProg s stack place = some p) (hf : p.fault = none)
    (hn : nmuNext s stack = some place) (hl : nmuLate s = false) :
    nmuTurn stack place s = nmuRunWord (nmuTaken s stack place p) stack place p := by
  have hgo : ¬ (nmuNext s stack ≠ some place ∨ nmuLate s = true) := by simp [hn, hl]
  rw [nmuTurn_eq hp, if_neg hgo, hf]

section

variable {v : State} {stack place : Nat} {p : NmuProg} {w : W32} (hw : p.words[p.pc]? = some w)
include hw

theorem nmuRunWord_ok {i : Instr} (h : decodeNmu w.toNat = .ok i) : nmuRunWord v stack place p = exec i v := by
  rw [nmuRunWord, hw]
  dsimp only
  rw [h]

theorem nmuRunWord_illegal (h : decodeNmu w.toNat = .illegalOpcode) :
    nmuRunWord v stack place p = .next (nmuFault v stack place p 1 0) := by
  rw [nmuRunWord, hw]
  dsimp only
  rw [h]

theorem nmuRunWord_reserved (h : decodeNmu w.toNat = .reservedEncoding) :
    nmuRunWord v stack place p = .next (nmuFault v stack place p 2 0) := by
  rw [nmuRunWord, hw]
  dsimp only
  rw [h]

end

theorem nmuRunWord_end {v : State} {stack place : Nat} {p : NmuProg} (hw : p.words[p.pc]? = none) :
    nmuRunWord v stack place p = .next (nmuFault v stack place p 8 0) := by
  rw [nmuRunWord, hw]

/-- The machine at the place of a script whose turn it is. -/
def scriptSite (s : State) (place : Nat) : State := { s with cur := { Site.zero with place := place }, scriptLast := place }

/-- The next word of a script runs, or the script faults (16 Table circuit-6). -/
def scriptRunWord (v : State) (place : Nat) (x : Script) : Out :=
  match x.words[x.pc]? with
  | none => .next (scriptFault v place 3)
  | some w =>
    match decodeCratch w.toNat with
    | .ok i => exec i v
    | .illegalOpcode => .next (scriptFault v place 1)
    | .reservedEncoding => .next (scriptFault v place 2)

/-- The script whose turn it is runs its next word. -/
theorem scriptTurn_runs {place : Nat} {x : Script} (hx : mget s.scripts place = some x) (hn : nextReady s = some place) :
    scriptTurn place s = scriptRunWord (scriptSite s place) place x := by
  have h : scriptTurn place s = match mget s.scripts place with
    | none => .next { s with cur := { Site.zero with place := place } }
    | some x =>
      if nextReady s ≠ some place then .next { s with cur := { Site.zero with place := place } }
      else scriptRunWord (scriptSite s place) place x := rfl
  rw [h, hx]
  exact if_neg fun hne => hne hn

section

variable {v : State} {place : Nat} {x : Script} {w : W32} (hw : x.words[x.pc]? = some w)
include hw

theorem scriptRunWord_ok {i : Instr} (h : decodeCratch w.toNat = .ok i) : scriptRunWord v place x = exec i v := by
  rw [scriptRunWord, hw]
  dsimp only
  rw [h]

theorem scriptRunWord_illegal (h : decodeCratch w.toNat = .illegalOpcode) :
    scriptRunWord v place x = .next (scriptFault v place 1) := by
  rw [scriptRunWord, hw]
  dsimp only
  rw [h]

theorem scriptRunWord_reserved (h : decodeCratch w.toNat = .reservedEncoding) :
    scriptRunWord v place x = .next (scriptFault v place 2) := by
  rw [scriptRunWord, hw]
  dsimp only
  rw [h]

end

theorem scriptRunWord_end {v : State} {place : Nat} {x : Script} (hw : x.words[x.pc]? = none) :
    scriptRunWord v place x = .next (scriptFault v place 3) := by
  rw [scriptRunWord, hw]

/-- A packet is taken where a lane has trained and its CRC is right (15 R444, R445). -/
theorem receiveTurn_eq (bs : List Byte) :
    let n := bs.length - 4
    receiveTurn bs s =
      if 28 ≤ bs.length ∧ planeUp s = true ∧ crc32 (bs.take n) = fld bs n 4
      then receivePacket (hdrOf bs) (fld bs 0 1) ((bs.drop 24).take (n - 24)) s else .next s := by
  intro n
  have hc : (bs.length < 28 ∨ (!planeUp s) = true ∨ crc32 (bs.take n) ≠ fld bs n 4) ↔
      ¬ (28 ≤ bs.length ∧ planeUp s = true ∧ crc32 (bs.take n) = fld bs n 4) := by
    simp only [Classical.not_and_iff_not_or_not, Nat.not_le, Bool.not_eq_true', Bool.not_eq_true, ne_eq]
  unfold receiveTurn
  dsimp only
  rw [ite_of_iff hc, ite_not]

end

/-- Settles O52: a fetch, the word of a gang, a turn of a core, of a near-memory unit and of a script, and a packet have lemmas of
their own; an event and the passing of time are what `turn` says of them. -/
theorem stepRunsDecodedWord : Obligations.StepRunsDecodedWord := by
  refine ⟨fun s t r => step_turn, fun s => step_auto, fun s v cl ctx va x => fetchWord_ok, fun s core slot mask => ⟨fun n u hf => ?_,
    fun p u => attempt_unreadable⟩, fun s core x g hi ha ho hp => ?_, fun s stack place p hp hf hn hl => ?_, fun s place x hx _ hn => ?_,
    fun s e => ⟨fun h => if_pos h, fun h => if_neg (by rw [h]; decide)⟩, fun s bs => ?_, fun s c n => rfl⟩
  · have hr : attempt s core slot mask = runWord n u := attempt_fetched hf
    rw [hr]
    exact ⟨fun i => runWord_instr, fun x t => runWord_rep, runWord_illegal, runWord_reserved⟩
  · exact issueTurn_one (s := { s with payer := none }) hi ha ho hp
  · have ht : turn (.nmu stack place) s = nmuRunWord (nmuTaken s stack place p) stack place p :=
      nmuTurn_runs (s := { s with payer := none }) hp hf hn hl
    rw [ht]
    exact ⟨fun w hw i => nmuRunWord_ok hw, fun w => nmuRunWord_illegal, fun w => nmuRunWord_reserved, nmuRunWord_end⟩
  · have ht : turn (.script place) s = scriptRunWord (scriptSite { s with payer := none } place) place x :=
      scriptTurn_runs (s := { s with payer := none }) hx hn
    rw [ht]
    exact ⟨fun w hw i => scriptRunWord_ok hw, fun w => scriptRunWord_illegal, fun w => scriptRunWord_reserved, scriptRunWord_end⟩
  · have ht : turn (.receive bs) s = receiveTurn bs { s with payer := none } := rfl
    rw [ht, receiveTurn_eq]
    exact ⟨fun h => if_pos h, fun h => if_neg h⟩

end Sys2Proof.Claims
end

section
/-! PROOFS. Accesses, fences, waits, decrements and closes as they are performed (05 R176, 07 R233-R254, 08 R272-R286, 14 Table context-6). -/

namespace Sys2Proof.Claims

open Sys2Proof.Machine

/-! ## Fences and TLBIs (07 R266, 15 R456, 06 R226) -/

section

variable {s : State} {core slot id : Nat} {t : Tx}

/-- A fence goes when the accesses, the sketch words and the remote operations that its scope orders have been performed. -/
theorem fenceComplete_fence {scope : Scope} {kind : FenceKind} (h : mget s.txs id = some t) (hc : t.core = core) (hs : t.slot = slot)
    (hk : t.kind = .fence scope kind) :
    exec (.fenceComplete core slot id) s =
      if accessesDone s t.uid t.mask id = true ∧ (scopeWide scope = true → sketchesDone s t.uid id = true) ∧
        (scope = .domain → remotesDone s t.uid id = true) then
        .next (if scopeWide scope then fenceCache { s with txs := mdel s.txs id } (clusterOf core) t.ctx kind
          else { s with txs := mdel s.txs id })
      else .next s := by
  rw [exec_fenceComplete, execFenceComplete, h]
  dsimp only
  rw [if_neg (by simp [hc, hs]), hk]
  dsimp only
  refine ite_of_iff ?_
  cases scope <;> simp [scopeWide, and_assoc]

theorem fenceComplete_rfence (h : mget s.txs id = some t) (hc : t.core = core) (hs : t.slot = slot) (hk : t.kind = .rfence)
    (hd : remotesDone s t.uid id = true) : exec (.fenceComplete core slot id) s = .next { s with txs := mdel s.txs id } := by
  rw [exec_fenceComplete, execFenceComplete, h]
  dsimp only
  rw [if_neg (by simp [hc, hs]), hk]
  exact if_pos hd

/-- A TLBI whose older accesses are done drains what NMU batches have translated before it goes. -/
theorem tlbiComplete_older (h : mget s.txs id = some t) (hc : t.core = core) (hs : t.slot = slot) (hk : t.kind = .tlbi)
    (ho : olderDone s id = true) :
    exec (.tlbiComplete core slot id) s =
      match pendingBatch s t.ctx with
      | some (g, k, p) => .next (putProg (drainEvent p s).2 g k (drainEvent p s).1)
      | none => .next { s with txs := mdel s.txs id } := by
  rw [exec_tlbiComplete, execTlbiComplete, h]
  dsimp only
  refine (if_pos ⟨hc, hs, hk, ho⟩).trans ?_
  cases pendingBatch s t.ctx <;> rfl

theorem tlbiComplete_waits (h : mget s.txs id = some t) (ho : olderDone s id = false) :
    exec (.tlbiComplete core slot id) s = .next s := by
  rw [exec_tlbiComplete, execTlbiComplete, h]
  exact if_neg (by simp [ho])

end

/-! ## Sketch words (11 R362, R374, R375) -/

section

variable {s : State} {id : Nat} {t : Tx}

theorem choose_lt (s : State) {n : Nat} (h : 0 < n) : (choose s n).1 < n := by
  unfold choose
  split
  · exact h
  · exact Nat.mod_lt _ h

theorem sketchReply_waits (h : mget s.txs id = some t) (hr : sketchReady s id t = false) : exec (.sketchReply id) s = .next s := by
  rw [exec_sketchReply, execSketchReply, h]
  exact if_neg (by simp [hr])

/-- A sketch word that may act answers when it has no event left, else performs one of those that may be performed. -/
theorem sketchReply_ready (h : mget s.txs id = some t) (hk : t.kind.isSketch = true) (hr : sketchReady s id t = true) :
    exec (.sketchReply id) s =
      if t.todo = [] then .next (answerSketch s id t)
      else
        match (t.todo.filter (counterReady s id t))[(choose s (t.todo.filter (counterReady s id t)).length).1]? with
        | some o =>
          let r := runCounter { t with todo := t.todo.erase o } o
            { (choose s (t.todo.filter (counterReady s id t)).length).2 with payer := payerOf s t.launch }
          .next { r.2 with txs := mset r.2.txs id r.1 }
        | none => .next s := by
  rw [exec_sketchReply, execSketchReply, h]
  dsimp only
  rw [if_pos ⟨hk, hr⟩]
  refine ite_congr (propext List.isEmpty_iff) (fun _ => rfl) (fun _ => ?_)
  cases (t.todo.filter (counterReady s id t))[(choose s (t.todo.filter (counterReady s id t)).length).1]? <;> rfl

theorem sketchReply_noEvent (h : mget s.txs id = some t) (hk : t.kind.isSketch = true) (hr : sketchReady s id t = true)
    (ht : t.todo ≠ []) (hm : t.todo.filter (counterReady s id t) = []) : exec (.sketchReply id) s = .next s := by
  rw [sketchReply_ready h hk hr, if_neg ht, hm]
  rfl

theorem sketchReply_event (h : mget s.txs id = some t) (hk : t.kind.isSketch = true) (hr : sketchReady s id t = true)
    (hm : t.todo.filter (counterReady s id t) ≠ []) :
    ∃ o ∈ t.todo.filter (counterReady s id t),
      let r := runCounter { t with todo := t.todo.erase o } o
        { (choose s (t.todo.filter (counterReady s id t)).length).2 with payer := payerOf s t.launch }
      exec (.sketchReply id) s = .next { r.2 with txs := mset r.2.txs id r.1 } := by
  have ht : t.todo ≠ [] := fun e => hm (by rw [e]; rfl)
  have hlt := choose_lt s (List.length_pos_iff.mpr hm)
  refine ⟨_, List.getElem_mem hlt, ?_⟩
  rw [sketchReply_ready h hk hr, if_neg ht, List.getElem?_eq_getElem hlt]

theorem sketchReply_answer (h : mget s.txs id = some t) (hk : t.kind.isSketch = true) (hr : sketchReady s id t = true)
    (ht : t.todo = []) : exec (.sketchReply id) s = .next (answerSketch s id t) := by
  rw [sketchReply_ready h hk hr, if_pos ht]

/-- The state in which a sketch word's counter falls: its skips are posted and it has left the operations in flight. -/
def sketchGone (s : State) (id : Nat) (t : Tx) : State :=
  let p := postSkips s t.ctx t.kind.wordAt t.skips
  { p with txs := mdel p.txs id }

theorem answerSketch_query {d : Dst} {a : SMap W32} {b : W64} (hk : t.kind = .skqry d a b) :
    answerSketch s id t = lowerIc (updUid (sketchGone s id t) t.uid
      (fun w => landQuery w (sketchGone s id t).cycle id t.mask d (t.queryRes a))) t.uid id := by
  simp only [answerSketch, sketchGone, hk]

theorem answerSketch_other (hk : ∀ d a b, t.kind ≠ .skqry d a b) : answerSketch s id t = lowerIc (sketchGone s id t) t.uid id := by
  unfold answerSketch
  split
  case h_1 d a b e => exact absurd e (hk d a b)
  case h_2 => rfl

end

/-! ## Timed waits (08 R283-R286) -/

section

variable {s : State} {core slot slice p tmo t0 : Nat} {o : WaitObj}

/-- One answer to a parked timed wait: its first test is not due, its tie has ended, its condition is met, its time is over, or it stays
parked. -/
theorem answerSlice_timed (expire : Bool) (hp : ((warpOf s core slot).slice slice).st = .park o) (ht : o.timed = some (p, tmo, t0)) :
    answerSlice s core slot slice expire =
      let w := warpOf s core slot
      let m := w.gangOf slice
      if askedLater s w o then s
      else if tieGone s w.ctx o then openFault s core slot m (flt 0x15) true
      else
        match waitTest s w.ctx o with
        | some r => answerWait s core slot m p r
        | none =>
          if tmo = 0 ∨ (expire ∧ tmo ≠ 0xFFFFFFFF ∧ w.stopped.isNone ∧ tmo ≤ s.cycle - t0) then answerWait s core slot m p false
          else updWarp s core slot (fun w => w.updSlices m (fun _ x =>
            match x.st with | .park o => { x with st := .park (o.answered s w.ctx) } | _ => x)) := by
  rw [answerSlice, hp]
  dsimp only
  rw [ht] <;> rfl

/-- What a statement of an answer to a timed wait says of an event, with the condition under which the time is over. -/
def AnswersWait (s : State) (core slot slice p tmo : Nat) (o : WaitObj) (e : Instr) (isOver : Prop) : Prop :=
  let w := warpOf s core slot
  let m := w.gangOf slice
  (askedLater s w o = true → exec e s = .next s) ∧
  (askedLater s w o = false →
    (tieGone s w.ctx o = true → exec e s = .next (openFault s core slot m (flt 0x15) true)) ∧
    (tieGone s w.ctx o = false →
      (∀ r, waitTest s w.ctx o = some r → exec e s = .next (answerWait s core slot m p r)) ∧
      (waitTest s w.ctx o = none → tmo = 0 ∨ isOver → exec e s = .next (answerWait s core slot m p false)) ∧
      (waitTest s w.ctx o = none → tmo ≠ 0 → ¬ isOver → exec e s = .next (updWarp s core slot (fun w => w.updSlices m (fun _ x =>
        match x.st with | .park o => { x with st := .park (o.answered s w.ctx) } | _ => x))))))

/-- Every event that answers a slice's wait satisfies the statement. -/
theorem answersWait_of_answerSlice {e : Instr} {expire : Bool} {isOver : Prop} (he : exec e s = .next (answerSlice s core slot slice expire))
    (hp : ((warpOf s core slot).slice slice).st = .park o) (ht : o.timed = some (p, tmo, t0))
    (hov : isOver ↔ expire = true ∧ tmo ≠ 0xFFFFFFFF ∧ (warpOf s core slot).stopped.isNone ∧ tmo ≤ s.cycle - t0) :
    AnswersWait s core slot slice p tmo o e isOver := by
  rw [answerSlice_timed expire hp ht] at he
  refine ⟨fun ha => ?_, fun ha => ⟨fun hg => ?_, fun hg => ⟨fun r hr => ?_, fun hn hz => ?_, fun hn hz hz' => ?_⟩⟩⟩ <;> rw [he]
  · simp only [ha, if_true]
  · simp only [ha, hg, if_true, Bool.false_eq_true, if_false]
  · simp only [ha, hg, hr, Bool.false_eq_true, if_false]
  · simp only [ha, hg, hn, Bool.false_eq_true, if_false]
    rw [if_pos (hz.imp_right hov.mp)]
  · simp only [ha, hg, hn, Bool.false_eq_true, if_false]
    rw [if_neg (not_or.mpr ⟨hz, fun h => hz' (hov.mpr h)⟩)]

theorem timedWaitAnswer_answers (hp : ((warpOf s core slot).slice slice).st = .park o) (ht : o.timed = some (p, tmo, t0)) :
    AnswersWait s core slot slice p tmo o (.timedWaitAnswer core slot slice) False :=
  answersWait_of_answerSlice (expire := false) rfl hp ht (by simp)

theorem timedWaitTimeout_answers (hp : ((warpOf s core slot).slice slice).st = .park o) (ht : o.timed = some (p, tmo, t0)) :
    AnswersWait s core slot slice p tmo o (.timedWaitTimeout core slot slice)
      (tmo ≠ 0xFFFFFFFF ∧ (warpOf s core slot).stopped = none ∧ tmo ≤ s.cycle - t0) :=
  answersWait_of_answerSlice (expire := true) rfl hp ht (by simp)

variable {x : Xlat} {c : W64} {cc : FlgCc} {wide dev : Bool} {hit : Option Bool}

theorem flgwHostPoll_of_flgw (hp : ((warpOf s core slot).slice slice).st = .park (.flgw p x c cc wide dev tmo t0 hit)) :
    exec (.flgwHostPoll core slot slice) s = .next (if inHost x.pa then answerSlice s core slot slice false else s) := by
  rw [exec_flgwHostPoll, execFlgwHostPoll, hp]

theorem flgwHostPoll_answers (hp : ((warpOf s core slot).slice slice).st = .park (.flgw p x c cc wide dev tmo t0 hit))
    (hx : inHost x.pa = true) :
    AnswersWait s core slot slice p tmo (.flgw p x c cc wide dev tmo t0 hit) (.flgwHostPoll core slot slice) False :=
  answersWait_of_answerSlice (expire := false) (by rw [flgwHostPoll_of_flgw hp, if_pos hx]) hp rfl (by simp)

theorem flgwHostPoll_device (hp : ((warpOf s core slot).slice slice).st = .park (.flgw p x c cc wide dev tmo t0 hit))
    (hx : inHost x.pa = false) : exec (.flgwHostPoll core slot slice) s = .next s := by
  rw [flgwHostPoll_of_flgw hp, if_neg (by simp [hx])]

end

/-! ## Performing a part keeps the operations in flight (07 R233) -/

theorem txs_foldl {β : Type} (f : State → β → State) (h : ∀ s b, (f s b).txs = s.txs) (l : List β) (s : State) :
    (l.foldl f s).txs = s.txs := by
  induction l generalizing s with
  | nil => rfl
  | cons b l ih => exact (ih (f s b)).trans (h s b)

theorem scratchWrite_txs (s : State) (k b : Nat) (bs : List Byte) : (scratchWrite s k b bs).txs = s.txs := rfl

theorem winWrite_txs (s : State) (q : WinPlace) (v : Nat) : (winWrite s q v).txs = s.txs := by cases q <;> rfl

theorem choose_txs (s : State) (n : Nat) : (choose s n).2.txs = s.txs := onlyHome_txs (onlyHome_choose s n)

theorem standing_txs (es : List (Nat × List Byte)) (as : List Nat) (s : State) : (standing es as s).2.txs = s.txs := by
  induction as generalizing s with
  | nil => rfl
  | cons a as ih => exact (ih _).trans (choose_txs _ _)

theorem storeElems_txs (s : State) (f : LaneAcc → Nat) (l : List LaneAcc) : (storeElems s f l).2.txs = s.txs := standing_txs _ _ _

theorem loadLane_txs (t : Tx) (n : Nat) (place : Place) (s : State) (a : LaneAcc) : (loadLane t n place s a).2.txs = s.txs := by
  cases place with
  | cache => exact onlyHome_txs (onlyHome_cacheRead _ _ _ _ _ _)
  | scratch => rfl
  | window => rfl
  | const =>
    dsimp only [loadLane]
    split
    · split
      · exact choose_txs _ _
      · exact (onlyHome_txs (onlyHome_homeRead _ _ _ _)).trans (choose_txs _ _)
    · split
      · rfl
      · exact (onlyHome_txs (onlyHome_homeRead _ _ _ _)).trans rfl
  | home => exact onlyHome_txs (onlyHome_homeRead _ _ _ _)
  | host => exact onlyHome_txs (onlyHome_homeRead _ _ _ _)

theorem atomLane_txs (t : Tx) (op : AtomOp) (wide sgn : Bool) (place : Place) (s : State) (a : LaneAcc) :
    (atomLane t op wide sgn place s a).2.txs = s.txs := by
  unfold atomLane
  dsimp only
  split
  · rfl
  · exact (onlyHome_txs (onlyHome_writePa _ _ _ _ _)).trans (onlyHome_txs (onlyHome_homeRead _ _ _ _))

theorem eachLane_txs (f : State → LaneAcc → LaneAcc × State) (h : ∀ s a, (f s a).2.txs = s.txs) (l : List LaneAcc) (s : State) :
    (eachLane f l s).2.txs = s.txs := by
  induction l generalizing s with
  | nil => rfl
  | cons a l ih => exact (ih _).trans (h s a)

theorem acqSignal_txs (t : Tx) (q : Part) (s : State) : (acqSignal t q s).txs = s.txs := by
  unfold acqSignal
  split
  · exact onlyHome_txs (onlyHome_dropClean _ _ _)
  · rfl

/-- The store of one window element. -/
theorem winStore_txs (t : Tx) (s : State) (e : Nat × List Byte) :
    ((List.range (e.2.length / 4)).foldl (fun s i =>
      match winPlace s t.ctx (e.1 + 4 * i) with
      | some q => winWrite s q (fld e.2 (4 * i) 4)
      | none => s) s).txs = s.txs := by
  refine txs_foldl _ (fun s i => ?_) _ _
  split
  · exact winWrite_txs _ _ _
  · rfl

theorem performPart_txs (t : Tx) (q : Part) (s : State) : (performPart t q s).2.txs = s.txs := by
  unfold performPart
  dsimp only
  generalize hv : (if q.place = .home ∧ (t.strong ∨ t.na) then lineEvict s (clusterOf t.core) (q.lineNow s t.ctx) else s) = v
  have hv : v.txs = s.txs := by
    rw [← hv]
    split
    · exact onlyHome_txs (onlyHome_lineEvict _ _ _)
    · rfl
  rw [← hv]
  cases t.kind with
  | load d z => exact (acqSignal_txs _ _ _).trans (eachLane_txs _ (loadLane_txs _ _ _) _ _)
  | atom op d wide sgn => exact eachLane_txs _ (atomLane_txs _ _ _ _ _) _ _
  | store =>
    dsimp only
    cases q.place with
    | cache => exact (txs_foldl _ (fun s e => onlyHome_txs (onlyHome_cacheWrite _ _ _ _ _ _ _)) _ _).trans (storeElems_txs _ _ _)
    | scratch => exact (txs_foldl _ (fun s e => scratchWrite_txs _ _ _ _) _ _).trans (storeElems_txs _ _ _)
    | window => exact (txs_foldl _ (fun s e => winStore_txs t s e) _ _).trans (storeElems_txs _ _ _)
    | const | home | host =>
      exact (txs_foldl _ (fun s e => onlyHome_txs (onlyHome_writeEvent _ _ _ _)) _ _).trans (storeElems_txs _ _ _)
  | cflsh inv =>
    dsimp only
    split
    · split
      · exact onlyHome_txs (onlyHome_lineEvict _ _ _)
      · exact onlyHome_txs (onlyHome_lineClean _ _ _)
    · rfl
  | _ => rfl

/-! ## Performing parts of an operation -/

section

variable {s : State} {id k : Nat} {t : Tx} {q : Part}

/-- The state once a part has been performed in a state: the part stands as performed in its operation. -/
def partPerformed (id k : Nat) (t : Tx) (q : Part) (s : State) : State :=
  let r := performPart t q s
  { r.2 with txs := madj r.2.txs id (fun t => { t with parts := t.parts.set k r.1 }) }

theorem performAt_part (h : mget s.txs id = some t) (hq : t.parts[k]? = some q) :
    performAt s id k =
      if partReady s id t q && !q.late s t then
        let b : State := { s with payer := payerOf s t.launch }
        partPerformed id k t q (if q.place = .home then arrive b (clusterOf t.core) q.lines else b)
      else s := by
  rw [performAt, h]
  dsimp only
  rw [hq]
  rfl

/-- Performing a part leaves the kind of every operation. -/
theorem performAt_kind (s : State) (id k j : Nat) : (mget (performAt s id k).txs j).map Tx.kind = (mget s.txs j).map Tx.kind := by
  cases h : mget s.txs id with
  | none => rw [performAt, h]
  | some t =>
    cases hq : t.parts[k]? with
    | none => rw [performAt, h]; dsimp only; rw [hq]
    | some q =>
      rw [performAt_part h hq]
      split
      · have ht : ∀ b : State, b.txs = s.txs → (mget (partPerformed id k t q b).txs j).map Tx.kind = (mget s.txs j).map Tx.kind := by
          intro b hb
          dsimp only [partPerformed]
          rw [performPart_txs, hb, mget_madj]
          split
          · next e => subst e; rw [h]; rfl
          · rfl
        exact ht _ (by split <;> rfl)
      · rfl

theorem foldl_kind {β : Type} (f : State → β → State) (j : Nat)
    (h : ∀ s b, (mget (f s b).txs j).map Tx.kind = (mget s.txs j).map Tx.kind) (l : List β) (s : State) :
    (mget (l.foldl f s).txs j).map Tx.kind = (mget s.txs j).map Tx.kind := by
  induction l generalizing s with
  | nil => rfl
  | cons b l ih => exact (ih (f s b)).trans (h s b)

theorem performNear_kind (s : State) (id j : Nat) : (mget (performNear s id).txs j).map Tx.kind = (mget s.txs j).map Tx.kind := by
  unfold performNear
  split
  · refine foldl_kind _ _ (fun s k => ?_) _ _
    split
    · split
      · exact performAt_kind _ _ _ _
      · rfl
    · rfl
  · rfl

/-- An operation whose near parts have been performed is of the kind it was issued as. -/
theorem kind_of_performNear {v : Tx} (h : mget s.txs id = some t) (hv : mget (performNear s id).txs id = some v) : v.kind = t.kind := by
  have e := performNear_kind s id id
  rw [h, hv] at e
  exact Option.some.inj e

end

/-! ## Returns (07 R254) -/

section

variable {s : State} {id : Nat} {t v : Tx}

theorem finishNear_of_kind {p : TxKind → Bool} (h : mget s.txs id = some t) (hp : p t.kind = true) (hh : txHeld s id t = false)
    (hs : ∀ q ∈ t.parts, q.place ≠ .scratch) : finishNear s id p = finishTx (performNear s id) id := by
  rw [finishNear, h]
  refine if_pos ?_
  simpa [hp, hh] using hs

theorem loadValueReturn_finishes (h : mget s.txs id = some t) (hh : txHeld s id t = false) (hs : ∀ q ∈ t.parts, q.place ≠ .scratch)
    (hk : (∃ d z, t.kind = .load d z) ∨ (∃ op d wide sgn, t.kind = .atom op d wide sgn)) :
    exec (.loadValueReturn id) s = .next (finishTx (performNear s id) id) := by
  rw [exec_loadValueReturn, execLoadValueReturn, finishNear_of_kind h _ hh hs]
  obtain ⟨d, z, e⟩ | ⟨op, d, wide, sgn, e⟩ := hk <;> rw [e]

theorem storePerformed_finishes (h : mget s.txs id = some t) (hh : txHeld s id t = false) (hs : ∀ q ∈ t.parts, q.place ≠ .scratch)
    (hk : t.kind = .store ∨ ∃ inv, t.kind = .cflsh inv) :
    exec (.storePerformed id) s = .next (finishTx (performNear s id) id) := by
  rw [exec_storePerformed, execStorePerformed, finishNear_of_kind h _ hh hs]
  obtain e | ⟨inv, e⟩ := hk <;> rw [e]

/-! ### What finishing an operation does, by its kind -/

theorem finishTx_open (h : mget s.txs id = some v) (ho : v.open_ = true) : finishTx s id = s := by
  rw [finishTx, h]
  exact if_pos ho

/-- The state in which an operation has left those in flight. -/
def txGone (s : State) (id : Nat) : State := { s with txs := mdel s.txs id }

theorem finishTx_load {d : Dst} {z : MSize} (h : mget s.txs id = some v) (ho : v.open_ = false) (hk : v.kind = .load d z) :
    finishTx s id = lowerIc (updUid (txGone s id) v.uid (fun w => landLoad w s.cycle id v d z)) v.uid id := by
  rw [finishTx, h]
  dsimp only
  rw [if_neg (by simp [ho]), hk]
  rfl

theorem finishTx_atom {op : AtomOp} {d : Dst} {wide sgn : Bool} (h : mget s.txs id = some v) (ho : v.open_ = false)
    (hk : v.kind = .atom op d wide sgn) :
    finishTx s id = lowerIc (updUid (txGone s id) v.uid
      (fun w => landAtom w s.cycle id v.mask d wide sgn (fun l => (v.resOf l).map ofBytes))) v.uid id := by
  rw [finishTx, h]
  dsimp only
  rw [if_neg (by simp [ho]), hk]
  rfl

theorem finishTx_store (h : mget s.txs id = some v) (ho : v.open_ = false) (hk : v.kind = .store ∨ ∃ inv, v.kind = .cflsh inv) :
    finishTx s id = lowerIc (txGone s id) v.uid id := by
  rw [finishTx, h]
  dsimp only
  rw [if_neg (by simp [ho])]
  obtain e | ⟨inv, e⟩ := hk <;> rw [e] <;> rfl

end

/-! ## Accesses at the scratchpad, at their homes and at the host (07 R233, R236, R250) -/

section

variable {s : State} {id k : Nat} {t : Tx} {q : Part}

theorem scratchpadAccess_first (h : mget s.txs id = some t) (hq : t.parts[0]? = some q) (hp : q.place = .scratch)
    (ho : ∀ u ∈ scratchTxs s t.core, id ≤ u.1) : exec (.scratchpadAccess id) s = .next (finishTx (performAt s id 0) id) := by
  rw [exec_scratchpadAccess, execScratchpadAccess, h]
  refine if_pos ?_
  have hm : t.parts.any (fun p => p.place == .scratch) = true :=
    List.any_eq_true.mpr ⟨q, List.mem_of_getElem? hq, by simp [hp]⟩
  simpa [hm] using ho

theorem partPlace_part (h : mget s.txs id = some t) (hq : t.parts[k]? = some q) : partPlace s id k = some q.place := by
  rw [partPlace, h]
  dsimp only
  rw [hq]
  rfl

theorem late_of_not_home (hp : q.place ≠ .home) : q.late s t = false := by simp [Part.late, hp]

theorem late_home (hp : q.place = .home) : q.late s t = q.lines.any (lateAt s (clusterOf t.core)) := by simp [Part.late, hp]

/-- A part away from the homes is performed when it is ready. -/
theorem performAt_away (h : mget s.txs id = some t) (hq : t.parts[k]? = some q) (hp : q.place ≠ .home) (hr : partReady s id t q = true) :
    performAt s id k = partPerformed id k t q { s with payer := payerOf s t.launch } := by
  rw [performAt_part h hq, late_of_not_home hp, hr]
  exact (if_pos rfl).trans (congrArg (partPerformed id k t q) (if_neg hp))

theorem performAt_notReady (h : mget s.txs id = some t) (hq : t.parts[k]? = some q) (hr : partReady s id t q = false) :
    performAt s id k = s := by
  rw [performAt_part h hq, hr]
  rfl

/-- A part at its home is performed when it is ready and arrives behind no higher requester in the cycle. -/
theorem performAt_home (h : mget s.txs id = some t) (hq : t.parts[k]? = some q) (hp : q.place = .home) (hr : partReady s id t q = true)
    (hl : ∀ l ∈ q.lines, lateAt s (clusterOf t.core) l = false) :
    performAt s id k = partPerformed id k t q (arrive { s with payer := payerOf s t.launch } (clusterOf t.core) q.lines) := by
  have hl' : q.lines.any (lateAt s (clusterOf t.core)) = false := by simpa using hl
  rw [performAt_part h hq, late_home hp, hl', hr]
  exact (if_pos rfl).trans (congrArg (partPerformed id k t q) (if_pos hp))

theorem performAt_late (h : mget s.txs id = some t) (hq : t.parts[k]? = some q) (hp : q.place = .home)
    (hl : ∃ l ∈ q.lines, lateAt s (clusterOf t.core) l = true) : performAt s id k = s := by
  have hl' : q.lines.any (lateAt s (clusterOf t.core)) = true := by simpa using hl
  rw [performAt_part h hq, late_home hp, hl', Bool.not_true, Bool.and_false]
  exact if_neg Bool.false_ne_true

theorem homeAccess_home (h : mget s.txs id = some t) (hq : t.parts[k]? = some q) (hp : q.place = .home) :
    exec (.homeAccess id k) s = .next (performAt s id k) := by
  rw [exec_homeAccess, execHomeAccess, partPlace_part h hq, if_pos (by rw [hp])]

theorem homeAccess_away (h : mget s.txs id = some t) (hq : t.parts[k]? = some q) (hp : q.place ≠ .home) :
    exec (.homeAccess id k) s = .next s := by
  rw [exec_homeAccess, execHomeAccess, partPlace_part h hq, if_neg (by simpa using hp)]

theorem hostPerform_host (h : mget s.txs id = some t) (hq : t.parts[k]? = some q) (hp : q.place = .host) :
    exec (.hostAccess (.perform id k)) s = .next (performAt s id k) := by
  rw [exec_hostAccess, execHostAccess, partPlace_part h hq, if_pos (by rw [hp])]

/-! ## The host's own accesses (06 R211, 07 R233, R250) -/

variable {ctx va len : Nat} {bs : List Byte}

theorem hostRead_late (h : ∃ l ∈ rangeLines s ctx va len .read, lateAt s hostRank l = true) :
    exec (.hostAccess (.read ctx va len)) s = .next s := by
  rw [exec_hostAccess, execHostAccess]
  exact if_pos (List.any_eq_true.mpr h)

/-- A host read in its turn returns the bytes, or is aborted where a page faults. -/
theorem hostRead_answers (h : ∀ l ∈ rangeLines s ctx va len .read, lateAt s hostRank l = false) :
    exec (.hostAccess (.read ctx va len)) s =
      match readVa (arrive s hostRank (rangeLines s ctx va len .read)) devCl ctx va len with
      | (.ok bs, s) => .next (emit s (.hostData bs))
      | (.error _, s) => .next (emit s .hostAbort) := by
  rw [exec_hostAccess, execHostAccess]
  rw [if_neg (by simpa using h), hostRead] <;> rfl

theorem hostWrite_late (h : ∃ l ∈ rangeLines s ctx va bs.length .write, lateAt s hostRank l = true) :
    exec (.hostAccess (.write ctx va bs)) s = .next s := by
  rw [exec_hostAccess, execHostAccess]
  exact congrArg Host.Outcome.next (if_pos (List.any_eq_true.mpr h))

theorem hostWrite_writes (h : ∀ l ∈ rangeLines s ctx va bs.length .write, lateAt s hostRank l = false) :
    exec (.hostAccess (.write ctx va bs)) s =
      .next (writeVa (arrive s hostRank (rangeLines s ctx va bs.length .write)) devCl ctx 0 va bs).2 := by
  rw [exec_hostAccess, execHostAccess]
  exact congrArg Host.Outcome.next (if_neg (by simpa using h))

theorem readBar_bytes {bar off : Nat} (hb : bar = 2) (h : barBytes s off len = some bs) :
    exec (.hostAccess (.readBar bar off len)) s = .next (emit s (.hostData bs)) := by
  rw [exec_hostAccess, execHostAccess]
  rw [if_pos hb, h]

theorem readBar_abort {bar off : Nat} (h : bar ≠ 2 ∨ barBytes s off len = none) :
    exec (.hostAccess (.readBar bar off len)) s = .next (emit s .hostAbort) := by
  have hn : (if bar = 2 then barBytes s off len else none) = none := by
    split
    · next e => exact h.resolve_left (fun hne => hne e)
    · rfl
  rw [exec_hostAccess, execHostAccess]
  rw [hn]

end

/-! ## Barriers (08 R272) -/

theorem barrierComplete_waits {s : State} {b : BarrierRef} (h : barDone s b = false) : exec (.barrierComplete b) s = .next s := by
  rw [exec_barrierComplete, execBarrierComplete, barTest, if_neg (by simp [h])]

theorem barrierComplete_done {s : State} {b : BarrierRef} (h : barDone s b = true) :
    exec (.barrierComplete b) s =
      let g := (barOf s b).gen + 1
      .next (wakeWhere (setBar s b { Barrier.zero with gen := g })
        (fun _ x => match x.st with | .park (.barrier b' g') => b' == b && g' != g.toNat | _ => false) [.void]) := by
  rw [exec_barrierComplete, execBarrierComplete, barTest, if_pos h] <;> rfl

/-! ## Decrements (08 R279) -/

section

variable {s : State} {ctx handle k slot idx : Nat} {n : Node}

theorem applyDecr_none (h : nodeOf s ctx handle = none) : applyDecr s ctx handle k = postEvent s ctx (launchRec 4 0 handle 0 0) := by
  rw [applyDecr, h]

/-- Whether the graph in a slot runs. -/
def graphLive (s : State) (slot : Nat) : Bool := match mget s.graphs slot with | some g => g.running | none => false

/-- A node's counter falls to 0: the node becomes ready where its graph runs. -/
def nodeMet (slot idx : Nat) (live : Bool) (u : State) : State :=
  updNode u slot idx (fun n => { n with count := 0, st := if n.st = .loaded ∧ live = true then .ready else n.st, order := u.nextId })

/-- The waits on a node's counter are tested after it has changed. -/
def countTested (ctx handle : Nat) (u : State) : State := testTwaits { u with nextId := u.nextId + 1 } ctx handle

theorem applyDecr_zero (h : nodeOf s ctx handle = some (slot, idx, n)) (hc : n.count.toNat = 0) :
    applyDecr s ctx handle k = postEvent s ctx (launchRec 3 0 handle k 0) := by
  rw [applyDecr, h]
  exact if_pos hc

/-- A decrement of at least the count meets the counter; what it asks beyond is posted. -/
theorem applyDecr_met (h : nodeOf s ctx handle = some (slot, idx, n)) (hc : n.count.toNat ≠ 0) (hk : n.count.toNat ≤ k) :
    applyDecr s ctx handle k = countTested ctx handle (nodeMet slot idx (graphLive s slot)
      (if n.count.toNat < k then postEvent s ctx (launchRec 3 0 handle (k - n.count.toNat) 0) else s)) := by
  rw [applyDecr, h]
  dsimp only
  rw [if_neg hc]
  simp only [if_pos hk]
  rfl

theorem applyDecr_falls (h : nodeOf s ctx handle = some (slot, idx, n)) (hk : k < n.count.toNat) :
    applyDecr s ctx handle k =
      countTested ctx handle (updNode s slot idx (fun m => { m with count := BitVec.ofNat 32 (n.count.toNat - k) })) := by
  rw [applyDecr, h]
  dsimp only
  rw [if_neg (by omega), if_neg (by omega)]
  simp only [if_neg (Nat.not_le.mpr hk)]
  rfl

end

theorem taskDecrement_none {s : State} (h : s.decrs = []) : exec .taskDecrement s = .next s := by
  rw [exec_taskDecrement, execTaskDecrement, h]

theorem taskDecrement_oldest {s : State} {d : Decr} {rest : List Decr} (h : s.decrs = d :: rest) :
    exec .taskDecrement s = .next (applyDecr { s with decrs := rest } d.ctx d.handle d.amount) := by
  rw [exec_taskDecrement, execTaskDecrement, h]

/-! ## Closing a record (14 R422, Table context-6) -/

section

variable {s : State} {ctx n k : Nat}

theorem closeRecord_notOpen (h : ∀ c, ctxOf s ctx = some c → ∀ r, mget c.records n = some r → r.closing ≠ none) :
    closeRecord s ctx n k = none := by
  unfold closeRecord
  split
  · rfl
  next c hc =>
    split
    · rfl
    next r hr => exact if_pos (.inr (Option.isSome_iff_ne_none.mpr (h c hc r hr)))

/-- The state in which an action on a record takes effect: KILLC escalates first. -/
def closingState (s : State) (ctx k : Nat) (r : Record) : State := if k = 3 then escalate s ctx 2 r.pc.toNat else s

/-- An open record closes at once, or once it has been written where it is still held in the device. -/
theorem closeRecord_open {c : Ctx} {r : Record} (hk : k ≤ 3) (hc : ctxOf s ctx = some c) (hr : mget c.records n = some r)
    (ho : r.closing = none) :
    closeRecord s ctx n k = some (
      if (ctx, n) ∈ (closingState s ctx k r).heldRecords then
        updCtx (closingState s ctx k r) ctx (fun c => { c with records := madj c.records n (fun r => { r with closing := some k }) })
      else finishClose (closingState s ctx k r) ctx n k r) := by
  rw [closeRecord, hc]
  dsimp only
  rw [hr]
  dsimp only
  rw [if_neg (by simp [ho]; omega)]
  exact congrArg some (ite_of_iff List.contains_iff_mem)

/-- What a statement of a close says of an event and its action. -/
def ClosesRecord (s : State) (ctx n : Nat) (e : Instr) (k : Nat) : Prop :=
  ((∀ c, ctxOf s ctx = some c → ∀ r, mget c.records n = some r → r.closing ≠ none) → exec e s = .next s) ∧
  (∀ c r, ctxOf s ctx = some c → mget c.records n = some r → r.closing = none →
    let u := if k = 3 then escalate s ctx 2 r.pc.toNat else s
    ((ctx, n) ∉ u.heldRecords → exec e s = .next (finishClose u ctx n k r)) ∧
    ((ctx, n) ∈ u.heldRecords → exec e s = .next (updCtx u ctx (fun c => { c with
      records := madj c.records n (fun r => { r with closing := some k }) }))))

/-- Every event that closes a record with an action satisfies the statement. -/
theorem closesRecord_of_closeRecord {e : Instr} (he : exec e s = .next ((closeRecord s ctx n k).getD s)) (hk : k ≤ 3) :
    ClosesRecord s ctx n e k := by
  refine ⟨fun h => ?_, fun c r hc hr ho => ⟨fun hh => ?_, fun hh => ?_⟩⟩
  · rw [he, closeRecord_notOpen h]
    rfl
  · rw [he, closeRecord_open hk hc hr ho]
    exact congrArg Host.Outcome.next (if_neg hh)
  · rw [he, closeRecord_open hk hc hr ho]
    exact congrArg Host.Outcome.next (if_pos hh)

end

/-! ## The statement -/

/-- Settles O45: each event answers by the lemma of its case. -/
theorem accessEventsAct : Obligations.AccessEventsAct := by
  intro s
  refine ⟨?fence, ?rfence, ?tlbi, ?sketch, ?waits, ?walk, ?returns, ?scratch, ?parts, ?hostRead, ?hostWrite, ?bar, ?barrier,
    taskDecrement_none, ?decr, ?close⟩
  case fence =>
    intro core slot id t scope kind h hc hs hk
    exact ⟨fun hd => by rw [fenceComplete_fence h hc hs hk, if_neg hd], fun hd => by rw [fenceComplete_fence h hc hs hk, if_pos hd]⟩
  case rfence => exact fun core slot id t h hc hs hk hd => fenceComplete_rfence h hc hs hk hd
  case tlbi =>
    intro core slot id t h hc hs hk
    exact ⟨fun ho hp => by rw [tlbiComplete_older h hc hs hk ho, hp],
      fun ho g k p hp => by rw [tlbiComplete_older h hc hs hk ho, hp], tlbiComplete_waits h⟩
  case sketch =>
    intro id t h hk
    refine ⟨sketchReply_waits h, fun hr => ⟨sketchReply_noEvent h hk hr, sketchReply_event h hk hr, fun ht => ?_⟩⟩
    rw [sketchReply_answer h hk hr ht]
    exact ⟨fun d a b e => congrArg Host.Outcome.next (answerSketch_query e), fun e => congrArg Host.Outcome.next (answerSketch_other e)⟩
  case waits =>
    intro core slot slice o p tmo t0 w m hp ht
    refine ⟨timedWaitAnswer_answers hp ht, timedWaitTimeout_answers hp ht, fun x c cc wide dev hit e => ?_⟩
    subst e
    exact ⟨flgwHostPoll_answers hp, flgwHostPoll_device hp⟩
  case walk => exact fun cl ctx va kind => ⟨_, _, rfl, rfl, onlyTlbs_translate s cl ctx va kind⟩
  case returns =>
    intro id t v h hh hs n gone hv
    have hkind : v.kind = t.kind := kind_of_performNear h hv
    refine ⟨fun ho => ⟨fun hk => ?_, fun hk => ?_⟩, fun ho => ⟨fun d z hk => ?_, fun op d wide sgn hk => ?_, fun hk => ?_⟩⟩
    · rw [loadValueReturn_finishes h hh hs hk, finishTx_open hv ho]
    · rw [storePerformed_finishes h hh hs hk, finishTx_open hv ho]
    · rw [loadValueReturn_finishes h hh hs (.inl ⟨d, z, hk⟩), finishTx_load hv ho (hkind.trans hk)]
      rfl
    · rw [loadValueReturn_finishes h hh hs (.inr ⟨op, d, wide, sgn, hk⟩), finishTx_atom hv ho (hkind.trans hk)]
      rfl
    · rw [storePerformed_finishes h hh hs hk, finishTx_store hv ho (by rwa [hkind])]
      rfl
  case scratch =>
    intro id t q h hq hp ho
    refine ⟨fun hr => ?_, fun hr => ?_⟩ <;> rw [scratchpadAccess_first h hq hp ho]
    · rw [performAt_away h hq (by simp [hp]) hr]
      rfl
    · rw [performAt_notReady h hq hr]
  case parts =>
    intro id k t q h hq
    refine ⟨fun hp hr hl => ?_, fun hp hn => ?_, homeAccess_away h hq, fun hp hr => ?_, fun hp hr => ?_⟩
    · rw [homeAccess_home h hq hp, performAt_home h hq hp hr hl]
      rfl
    · rw [homeAccess_home h hq hp]
      exact congrArg Host.Outcome.next (hn.elim (performAt_notReady h hq) (performAt_late h hq hp))
    · rw [hostPerform_host h hq hp, performAt_away h hq (by simp [hp]) hr]
      rfl
    · rw [hostPerform_host h hq hp, performAt_notReady h hq hr]
  case hostRead =>
    intro ctx va len ls r
    refine ⟨hostRead_late, fun hl => ⟨fun bs hr => ?_, fun c hr => ?_⟩⟩ <;> rw [hostRead_answers hl]
    · rw [show readVa _ devCl ctx va len = (.ok bs, r.2) from Prod.ext hr rfl]
    · rw [show readVa _ devCl ctx va len = (.error c, r.2) from Prod.ext hr rfl]
  case hostWrite => exact fun ctx va bs => ⟨hostWrite_late, hostWrite_writes⟩
  case bar => exact fun b off len => ⟨fun bs hb h => readBar_bytes hb h, readBar_abort⟩
  case barrier => exact fun b => ⟨barrierComplete_waits, barrierComplete_done⟩
  case decr =>
    intro d rest h
    dsimp only
    rw [taskDecrement_oldest h]
    refine ⟨fun hn => ?_, fun slot idx n hn => ⟨fun hc => ?_, fun hc hk => ?_, fun hc hk => ?_, fun hk => ?_⟩⟩
    · rw [applyDecr_none hn]
    · rw [applyDecr_zero hn hc]
    · rw [applyDecr_met hn hc (Nat.le_of_lt hk), if_pos hk]
      rfl
    · rw [applyDecr_met hn hc (Nat.le_of_eq hk), if_neg (by omega)]
      rfl
    · rw [applyDecr_falls hn hk]
      rfl
  case close =>
    exact fun ctx n => ⟨closesRecord_of_closeRecord rfl (by decide), closesRecord_of_closeRecord rfl (by decide),
      closesRecord_of_closeRecord rfl (by decide), closesRecord_of_closeRecord rfl (by decide)⟩

end Sys2Proof.Claims
end

section
/-! PROOFS. The memory and the updates of the state below the words (06 R197): an update that writes no byte leaves the memory (`_mem`), and
one that writes bytes keeps its canonical form (`_wf`). -/

namespace Sys2Proof.Machine

/-! ## Results that carry a state -/

/-- The state of a pair that has been taken apart. -/
theorem mem_of_snd {α : Type} {p : α × State} {a : α} {u : State} (e : p = (a, u)) : u.mem = p.2.mem := by rw [e]

@[simp] theorem mem_ite (c : Prop) [Decidable c] (a b : State) : (if c then a else b).mem = if c then a.mem else b.mem :=
  apply_ite State.mem c a b

@[simp] theorem wf_ite (c : Prop) [Decidable c] (a b : List Host.Cell) :
    Memory.wf (if c then a else b) = if c then Memory.wf a else Memory.wf b :=
  apply_ite Memory.wf c a b

theorem ite_wf {c : Prop} [Decidable c] {a b : State} (ha : Memory.wf a.mem = true) (hb : Memory.wf b.mem = true) :
    Memory.wf (if c then a else b).mem = true := by simp [ha, hb]

theorem foldl_wf {β : Type} {f : State → β → State} (hf : ∀ s b, Memory.wf s.mem = true → Memory.wf (f s b).mem = true)
    {l : List β} {s : State} (h : Memory.wf s.mem = true) : Memory.wf (l.foldl f s).mem = true := by
  induction l generalizing s with
  | nil => exact h
  | cons b t ih => exact ih (hf s b h)

/-! ## Look-ups and counts -/

@[simp] theorem updUid_mem (s uid f) : (updUid s uid f).mem = s.mem := by unfold updUid; split <;> rfl

@[simp] theorem setCopy_mem (s c x) : (setCopy s c x).mem = s.mem := by unfold setCopy; split <;> rfl

@[simp] theorem updCopy_mem (s c f) : (updCopy s c f).mem = s.mem := by unfold updCopy; split <;> simp

@[simp] theorem sendDecrOf_mem (s uid ctx hd n) : (sendDecrOf s uid ctx hd n).mem = s.mem := by unfold sendDecrOf; split <;> rfl

/-! ## Homes, translation and cluster caches (06, 07) -/

theorem onlyTlbs_mem {s u : State} (h : OnlyTlbs s u) : u.mem = s.mem := by rw [h]

@[simp] theorem arrive_mem (s rank lines) : (arrive s rank lines).mem = s.mem := rfl

@[simp] theorem homeRead_mem (s key pa n) : (homeRead s key pa n).2.mem = s.mem := by unfold homeRead; split <;> simp

@[simp] theorem translate_mem (s cl ctx va k) : (translate s cl ctx va k).2.mem = s.mem := onlyTlbs_mem (onlyTlbs_translate ..)

@[simp] theorem xlatPieces_mem (cl ctx k l s) : (xlatPieces cl ctx k l s).2.mem = s.mem := by
  induction l generalizing s with
  | nil => rfl
  | cons p t ih =>
    unfold xlatPieces
    split
    · next e => simp [mem_of_snd e]
    · next e => split <;> next e' => simp [mem_of_snd e', ih, mem_of_snd e]

@[simp] theorem readPieces_mem (ctx l s) : (readPieces ctx l s).2.mem = s.mem := by
  induction l generalizing s with
  | nil => rfl
  | cons p t ih => simp [readPieces, ih]

@[simp] theorem readAs_mem (s cl ctx k va n) : (readAs s cl ctx k va n).2.mem = s.mem := by
  unfold readAs
  split <;> next e => simp [mem_of_snd e]

@[simp] theorem readVa_mem (s cl ctx va n) : (readVa s cl ctx va n).2.mem = s.mem := readAs_mem ..

@[simp] theorem dropClean_mem (s cl ctx) : (dropClean s cl ctx).mem = s.mem :=
  foldl_mem _ (fun _ _ => by split <;> rfl) _ _

section
variable {s : State} (h : Memory.wf s.mem = true)
include h

@[simp] theorem writeUnits_wf (tag key ws) : Memory.wf (writeUnits s tag key ws).mem = true := (onlyHome_writeUnits ..).2 h
@[simp] theorem writePa_keeps (tag key pa bs) : Memory.wf (writePa s tag key pa bs).mem = true := writePa_wf _ _ _ _ _ h
@[simp] theorem incrAt_wf (tag key pa) : Memory.wf (incrAt s tag key pa).mem = true := (onlyHome_incrAt ..).2 h
@[simp] theorem writeVa_wf (cl ctx tag va bs) : Memory.wf (writeVa s cl ctx tag va bs).2.mem = true := (onlyHome_writeVa ..).2 h
@[simp] theorem lineClean_wf (cl line) : Memory.wf (lineClean s cl line).mem = true := (onlyHome_lineClean ..).2 h
@[simp] theorem lineEvict_wf (cl line) : Memory.wf (lineEvict s cl line).mem = true := (onlyHome_lineEvict ..).2 h
@[simp] theorem cleanCtx_wf (cl ctx) : Memory.wf (cleanCtx s cl ctx).mem = true := (onlyHome_cleanCtx ..).2 h
@[simp] theorem cacheRead_wf (cl ctx key pa n) : Memory.wf (cacheRead s cl ctx key pa n).2.mem = true := (onlyHome_cacheRead ..).2 h
@[simp] theorem cacheWrite_wf (cl ctx key tag pa bs) : Memory.wf (cacheWrite s cl ctx key tag pa bs).mem = true :=
  (onlyHome_cacheWrite ..).2 h
@[simp] theorem incrSignal_wf (cl ctx tag va) : Memory.wf (incrSignal s cl ctx tag va).2.mem = true := (onlyHome_incrSignal ..).2 h

/-! ## Event records (14 R421, R422, R432) -/

theorem ringWrite_wf {ctx bs t} (e : ringWrite s ctx bs = some t) : Memory.wf t.mem = true := by
  unfold ringWrite at e
  split at e
  · cases e
  · dsimp only at e
    split at e
    · cases e
    · split at e
      · next x =>
        split at e
        · cases e
          split <;> split <;> simp [mem_of_snd x, h]
        · cases e
      · cases e

theorem heldTry_wf {p t} (e : heldTry s p = some t) : Memory.wf t.mem = true := by
  unfold heldTry at e
  split at e
  · cases e; exact h
  · split at e
    · cases e; exact h
    · obtain ⟨u, hu, rfl⟩ := Option.map_eq_some_iff.mp e
      have hw := ringWrite_wf h hu
      exact hw

end

theorem flushHeld_wf (ctx n) {s} (h : Memory.wf s.mem = true) : Memory.wf (flushHeld ctx n s).mem = true := by
  induction n generalizing s with
  | zero => exact h
  | succ n ih =>
    unfold flushHeld
    split
    · exact h
    · split
      · next e => exact ih (heldTry_wf h e)
      · exact h

section
variable {s : State} (h : Memory.wf s.mem = true)
include h

@[simp] theorem postTry_wf (ctx bs) : Memory.wf (postTry s ctx bs).2.mem = true := by
  have hf := flushHeld_wf ctx s.heldRecords.length h
  unfold postTry
  dsimp only
  split
  · next e =>
    split at e
    · cases e
    · exact ringWrite_wf hf e
  · exact hf

@[simp] theorem postEvent_wf (ctx bs) : Memory.wf (postEvent s ctx bs).mem = true := by
  unfold postEvent
  split <;> next e => simp [mem_of_snd e, h]

@[simp] theorem escalate_wf (ctx cause addr) : Memory.wf (escalate s ctx cause addr).mem = true := by
  unfold escalate
  split
  · exact h
  · split
    · exact h
    · simp only [loseDeficits_mem, updCtx_mem, emit_mem]
      refine postTry_wf (foldl_wf (fun u w hu => ?_) h) _ _
      split <;> simpa [holdWarp] using hu

@[simp] theorem postFault_wf (ctx n) : Memory.wf (postFault s ctx n).mem = true := by
  unfold postFault
  split
  · exact h
  · split
    · exact escalate_wf h ..
    · split
      · exact h
      · split
        · next e => simp [mem_of_snd e, h]
        · next e => split <;> simp [mem_of_snd e, h]

@[simp] theorem openRecord_wf (ctx r) : Memory.wf (openRecord s ctx r).2.mem = true := by
  unfold openRecord
  split <;> simp [h]

end

end Sys2Proof.Machine
end

section
/-! PROOFS. The memory and what every core word shares (05 R171-R181, 08 R270-R273, 10 R322-R326, 14 R426). -/

namespace Sys2Proof.Machine

/-! ## Completing a word -/

@[simp] theorem retire_mem (s lat es) : (retire s lat es).mem = s.mem := rfl
@[simp] theorem retireVoid_mem (s) : (retireVoid s).mem = s.mem := rfl
@[simp] theorem retireSwitch_mem (s es) : (retireSwitch s es).mem = s.mem := rfl
@[simp] theorem park_mem (s o) : (park s o).mem = s.mem := rfl
@[simp] theorem wake_mem (s core slot mask es) : (wake s core slot mask es).mem = s.mem := rfl
@[simp] theorem noteIssue_mem (s) : (noteIssue s).mem = s.mem := rfl
@[simp] theorem holdWarp_mem (s core slot) : (holdWarp s core slot).mem = s.mem := rfl

@[simp] theorem wakeWhere_mem (s p es) : (wakeWhere s p es).mem = s.mem :=
  foldl_mem _ (fun _ _ => foldl_mem _ (fun _ _ => by dsimp only; split <;> rfl) _ _) _ _

@[simp] theorem writeDst_mem (s d wide sgn lat f) : (writeDst s d wide sgn lat f).mem = s.mem := by unfold writeDst; split <;> rfl

@[simp] theorem wbLanes_mem (s d wide sgn lat f) : (wbLanes s d wide sgn lat f).mem = s.mem := writeDst_mem ..

@[simp] theorem wbGroup_mem (s d n lat f) : (wbGroup s d n lat f).mem = s.mem := by
  unfold wbGroup
  split
  · dsimp only
    split <;> rfl
  · exact wbLanes_mem ..

@[simp] theorem writePred_mem (s p lat f) : (writePred s p lat f).mem = s.mem := by unfold writePred; split <;> rfl

@[simp] theorem wbPred_mem (s p lat f) : (wbPred s p lat f).mem = s.mem := writePred_mem ..

@[simp] theorem issuePend_mem (s d n e id) : (issuePend s d n e id).mem = s.mem := by unfold issuePend; split <;> rfl

@[simp] theorem deliver_mem (s id v) : (deliver s id v).mem = s.mem := by
  unfold deliver
  split
  · split
    · exact updUid_mem ..
    · rfl
  · rfl

@[simp] theorem pairEffect_mem (h0 h1 s) : (pairEffect h0 h1 s).mem = s.mem := by simp [pairEffect]

/-! ## Barriers -/

@[simp] theorem setBar_mem (s b v) : (setBar s b v).mem = s.mem := by unfold setBar; split <;> rfl

@[simp] theorem barTest_mem (s b) : (barTest s b).mem = s.mem := by unfold barTest; split <;> simp

@[simp] theorem barWarp_mem (s b w) : (barWarp s b w).mem = s.mem := by unfold barWarp; dsimp only; split <;> simp

@[simp] theorem barArrive_mem (s b core slot mask n) : (barArrive s b core slot mask n).2.mem = s.mem := by simp [barArrive]

@[simp] theorem setLatch_mem (s cl hn l) : (setLatch s cl hn l).mem = s.mem := rfl

@[simp] theorem resumeWarp_mem (s core slot) : (resumeWarp s core slot).mem = s.mem := by
  simp [resumeWarp]

@[simp] theorem updSaved_mem (s uid f) : (updSaved s uid f).mem = s.mem := rfl

section
variable {s : State} (h : Memory.wf s.mem = true)
include h

/-! ## Faults -/

/-- A fault changes the memory by the record that it posts only. -/
@[simp] theorem openFault_wf (core slot mask f engine) : Memory.wf (openFault s core slot mask f engine).mem = true := by
  unfold openFault
  extract_lets w low marked held
  have hh : Memory.wf held.mem = true := h
  clear_value held
  split
  · exact hh
  · split
    · exact hh
    · split
      · exact hh
      · exact openRecord_wf (by exact hh) _ _

@[simp] theorem takeFault_wf (f) : Memory.wf (takeFault s f).mem = true := openFault_wf h ..

@[simp] theorem takeTrap_wf (f) : Memory.wf (takeTrap s f).mem = true := takeFault_wf (by exact h) f

/-! ## The rendezvous and the exit of slices -/

@[simp] theorem harnFault_wf (hn cause p) : Memory.wf (harnFault hn cause s p).mem = true := openFault_wf h ..

@[simp] theorem latchArrive_wf (core slot hn) : Memory.wf (latchArrive s core slot hn).mem = true := by
  have faults : ∀ cause p, Memory.wf (harnFault hn cause s p).mem = true := harnFault_wf h hn
  have members : ∀ (cl cause : Nat) (l : List (Nat × Nat)),
      Memory.wf (l.foldl (harnFault hn cause) (setLatch s cl hn .empty)).mem = true :=
    fun cl cause l => foldl_wf (fun _ p hu => harnFault_wf hu hn cause p) (by exact h)
  unfold latchArrive
  dsimp only
  split
  · exact h
  · refine ite_wf (faults ..) (ite_wf (faults ..) (ite_wf (faults ..) (ite_wf (faults ..) ?_)))
    exact ite_wf (members ..) (ite_wf (members ..) (by simpa using h))

@[simp] theorem latchTest_wf (core slot hn) : Memory.wf (latchTest s core slot hn).mem = true := by
  unfold latchTest
  dsimp only
  split
  · exact latchArrive_wf h ..
  · exact h

@[simp] theorem latchExit_wf (core slot) : Memory.wf (latchExit s core slot).mem = true := by
  refine foldl_wf (fun u hn hu => ?_) h
  dsimp only
  split
  · exact foldl_wf (fun _ p hv => harnFault_wf hv hn 3 p) (by exact hu)
  · exact hu

@[simp] theorem exitSlices_wf (core slot mask) : Memory.wf (exitSlices s core slot mask).mem = true := by
  refine foldl_wf (fun _ hn hu => latchTest_wf hu core slot hn) ?_
  exact foldl_wf (fun _ _ hu => by simpa using hu) (by exact h)

/-! ## Closing a record -/

@[simp] theorem closeWarp_wf (n action uid) : Memory.wf (closeWarp n action s uid).mem = true := by
  unfold closeWarp
  split
  · simp only [resumeWarp_mem]
    split
    · exact h
    · split
      · exact exitSlices_wf (by exact h) ..
      · exact h
  · exact h

@[simp] theorem finishClose_wf (ctx n action r) : Memory.wf (finishClose s ctx n action r).mem = true :=
  foldl_wf (f := closeWarp n action) (fun _ uid hu => closeWarp_wf hu n action uid) (by exact h)

theorem closeRecord_wf {ctx n action t} (e : closeRecord s ctx n action = some t) : Memory.wf t.mem = true := by
  unfold closeRecord at e
  split at e
  · cases e
  · split at e
    · cases e
    · split at e
      · cases e
      · cases e
        have he := ite_wf (c := action = 3) (escalate_wf h ctx 2 (Record.pc ‹_›).toNat) h
        exact ite_wf (by exact he) (finishClose_wf he ..)

@[simp] theorem settleCloses_wf : Memory.wf (settleCloses s).mem = true := by
  refine foldl_wf (fun _ _ hu => foldl_wf (fun v r hv => ?_) hu) h
  split
  · split
    · exact hv
    · exact finishClose_wf hv ..
  · exact hv

end

/-! ## Moves and words -/

/-- Where a move answers a next state, that state's memory is in canonical form. -/
def OutKeeps (o : Out) : Prop := ∀ t, o = .next t → Memory.wf t.mem = true

@[simp] theorem outKeeps_next {t} : OutKeeps (.next t) ↔ Memory.wf t.mem = true :=
  ⟨fun k => k t rfl, fun h _ e => by cases e; exact h⟩
@[simp] theorem outKeeps_fault {f} : OutKeeps (.fault f) := fun _ e => by cases e
@[simp] theorem outKeeps_refused {r} : OutKeeps (.refused r) := fun _ e => by cases e

@[simp] theorem outKeeps_ite {c : Prop} [Decidable c] {a b : Out} :
    OutKeeps (if c then a else b) = if c then OutKeeps a else OutKeeps b := apply_ite OutKeeps c a b

theorem OutKeeps.ite {c : Prop} [Decidable c] {a b : Out} (ha : OutKeeps a) (hb : OutKeeps b) : OutKeeps (if c then a else b) := by
  simp [ha, hb]

/-- Where a word completes, the memory that it leaves is in canonical form. -/
def ActKeeps (a : Act) : Prop := ∀ t, a = .done t → Memory.wf t.mem = true

@[simp] theorem actKeeps_done {t} : ActKeeps (.done t) ↔ Memory.wf t.mem = true :=
  ⟨fun k => k t rfl, fun h _ e => by cases e; exact h⟩
@[simp] theorem actKeeps_trap {f} : ActKeeps (.trap f) := fun _ e => by cases e
@[simp] theorem actKeeps_stall : ActKeeps .stall := fun _ e => by cases e

@[simp] theorem actKeeps_ite {c : Prop} [Decidable c] {a b : Act} :
    ActKeeps (if c then a else b) = if c then ActKeeps a else ActKeeps b := apply_ite ActKeeps c a b

theorem ActKeeps.ite {c : Prop} [Decidable c] {a b : Act} (ha : ActKeeps a) (hb : ActKeeps b) : ActKeeps (if c then a else b) := by
  simp [ha, hb]

/-- A word faults, waits or completes. -/
theorem issueWord_keeps {u : Use} {body : State → Act} {s : State} (h : Memory.wf s.mem = true)
    (hb : ∀ v, Memory.wf v.mem = true → ActKeeps (body v)) : OutKeeps (issueWord u body s) := by
  unfold issueWord
  split
  · exact outKeeps_next.mpr (takeFault_wf (by exact h) _)
  · split
    · split
      · next e => exact outKeeps_next.mpr (hb (noteIssue s) (by exact h) _ e)
      · exact outKeeps_next.mpr (takeFault_wf (by exact h) _)
      · exact outKeeps_next.mpr h
    · exact outKeeps_next.mpr h

/-- A word whose effect leaves the memory. -/
theorem issueWord_done_keeps {u : Use} {f : State → State} {s : State} (h : Memory.wf s.mem = true) (hf : ∀ v, (f v).mem = v.mem) :
    OutKeeps (issueWord u (fun s => .done (f s)) s) :=
  issueWord_keeps h fun v hv => by rw [actKeeps_done, hf]; exact hv

end Sys2Proof.Machine
end

section
/-! PROOFS. The memory and the accesses: parts at their places, results, barriers and timed waits (05 R185-R195, 07 R229-R267,
08 R268-R290). -/

namespace Sys2Proof.Machine

/-! ## Gangs and slots -/

@[simp] theorem branch_mem (s pop lat tgt e) : (branch s pop lat tgt e).mem = s.mem := rfl

@[simp] theorem putFence_mem (s core slot mask kind) : (putFence s core slot mask kind).mem = s.mem := rfl

@[simp] theorem regangRelease_mem (s core slot addr) : (regangRelease s core slot addr).mem = s.mem := by
  unfold regangRelease
  extract_lets w rel
  split <;> rfl

@[simp] theorem joinActive_mem (s core slot) : (joinActive s core slot).mem = s.mem := rfl

@[simp] theorem leaveActive_mem (s core slot) : (leaveActive s core slot).mem = s.mem := rfl

@[simp] theorem endEpisode_mem (s core) : (endEpisode s core).mem = s.mem := by unfold endEpisode; split <;> rfl

@[simp] theorem fetchWord_mem (s cl ctx va n) : (fetchWord s cl ctx va n).2.mem = s.mem := by
  unfold fetchWord
  split
  · next e => simp [mem_of_snd e]
  · next e => dsimp only; split <;> simp [mem_of_snd e]

@[simp] theorem racqGrant_wf {s} (h : Memory.wf s.mem = true) (core slot mask n gs lent) :
    Memory.wf (racqGrant s core slot mask n gs lent).mem = true :=
  ite_wf (openFault_wf h ..) (by simpa using h)

/-! ## Traces, scratchpads, windows -/

@[simp] theorem updTrace_mem (s w f) : (updTrace s w f).mem = s.mem := by unfold updTrace; split <;> rfl

@[simp] theorem traceXlats_mem (s w wr xs) : (traceXlats s w wr xs).mem = s.mem := updTrace_mem ..

@[simp] theorem traceVolatile_mem (s w) : (traceVolatile s w).mem = s.mem := updTrace_mem ..

@[simp] theorem xlatLanes_mem (cl ctx n k addr l s) : (xlatLanes cl ctx n k addr l s).2.mem = s.mem :=
  onlyTlbs_mem (onlyTlbs_xlatLanes ..)

@[simp] theorem xlatRange_mem (cl ctx k l s) : (xlatRange cl ctx k l s).2.mem = s.mem := onlyTlbs_mem (onlyTlbs_xlatRange ..)

@[simp] theorem launchTx_mem (s ic t) : (launchTx s ic t).2.mem = s.mem := by unfold launchTx; split <;> rfl

@[simp] theorem standing_mem (es l s) : (standing es l s).2.mem = s.mem := by
  induction l generalizing s with
  | nil => rfl
  | cons a t ih => simp [standing, ih]

@[simp] theorem storeElems_mem (s f ls) : (storeElems s f ls).2.mem = s.mem := standing_mem ..

@[simp] theorem scratchWrite_mem (s k b bs) : (scratchWrite s k b bs).mem = s.mem := rfl

@[simp] theorem winWrite_mem (s p v) : (winWrite s p v).mem = s.mem := by unfold winWrite; split <;> rfl

@[simp] theorem acqSignal_mem (t p s) : (acqSignal t p s).mem = s.mem := by simp [acqSignal]

/-! ## Performing parts -/

theorem eachLane_wf {f : State → LaneAcc → LaneAcc × State} (hf : ∀ s a, Memory.wf s.mem = true → Memory.wf (f s a).2.mem = true)
    (l : List LaneAcc) {s} (h : Memory.wf s.mem = true) : Memory.wf (eachLane f l s).2.mem = true := by
  induction l generalizing s with
  | nil => exact h
  | cons a t ih => exact ih (hf s a h)

theorem loadUnits_wf (cl ctx l) {s} (h : Memory.wf s.mem = true) : Memory.wf (loadUnits cl ctx l s).2.mem = true := by
  induction l generalizing s with
  | nil => exact h
  | cons q t ih =>
    refine ih ?_
    split
    · exact cacheRead_wf h ..
    · simpa using h

section
variable {s : State} (h : Memory.wf s.mem = true)
include h

@[simp] theorem loadLane_wf (t n place a) : Memory.wf (loadLane t n place s a).2.mem = true := by
  cases place with (unfold loadLane; dsimp only)
  | cache => exact cacheRead_wf h ..
  | const => split <;> split <;> simp [h]
  | scratch => exact h
  | window => exact h
  | home => simpa using h
  | host => simpa using h

/-- An atomic writes what it makes of the bytes it read. -/
@[simp] theorem atomLane_wf (t op wide sgn place a) : Memory.wf (atomLane t op wide sgn place s a).2.mem = true := by
  unfold atomLane
  dsimp only
  split
  · exact h
  · exact writePa_keeps (by simpa using h) ..

@[simp] theorem performPart_wf (t p) : Memory.wf (performPart t p s).2.mem = true := by
  unfold performPart
  extract_lets cl u
  have hu : Memory.wf u.mem = true := ite_wf (lineEvict_wf h ..) h
  clear_value u
  split
  · rw [acqSignal_mem]
    exact eachLane_wf (fun _ a hv => loadLane_wf hv _ _ _ a) _ hu
  · exact eachLane_wf (fun _ a hv => atomLane_wf hv _ _ _ _ _ a) _ hu
  · next key o stored _ _ =>
    have ho : Memory.wf o.2.mem = true := by simpa [o] using hu
    dsimp only [stored]
    split
    · exact foldl_wf (fun _ e hv => cacheWrite_wf hv ..) ho
    · exact foldl_wf (fun _ _ hv => by exact hv) ho
    · exact foldl_wf (fun _ _ hv => foldl_wf (fun _ _ hw => by split <;> simp [hw]) hv) ho
    · exact foldl_wf (fun _ e hv => (onlyHome_writeEvent ..).2 hv) ho
  · exact ite_wf (ite_wf (lineEvict_wf hu ..) (lineClean_wf hu ..)) hu
  · exact hu

@[simp] theorem performAt_wf (id k) : Memory.wf (performAt s id k).mem = true := by
  unfold performAt
  split
  · split
    · split
      · exact performPart_wf (ite_wf (by exact h) (by exact h)) _ _
      · exact h
    · exact h
  · exact h

@[simp] theorem performNear_wf (id) : Memory.wf (performNear s id).mem = true := by
  unfold performNear
  split
  · refine foldl_wf (fun u k hu => ?_) h
    split
    · exact ite_wf (performAt_wf hu ..) hu
    · exact hu
  · exact h

end

/-! ## Returns -/

@[simp] theorem waitcTest_mem (s uid) : (waitcTest s uid).mem = s.mem := by
  unfold waitcTest
  split
  · refine foldl_mem _ (fun u g => ?_) _ _
    dsimp only
    split
    · rfl
    · rw [wake_mem]
      split
      · exact dropClean_mem ..
      · rfl
  · rfl

@[simp] theorem lowerIc_mem (s uid id) : (lowerIc s uid id).mem = s.mem := by
  rw [lowerIc, waitcTest_mem, updUid_mem]

@[simp] theorem finishTx_mem (s id) : (finishTx s id).mem = s.mem := by
  unfold finishTx
  split
  · rfl
  · split
    · rfl
    · split
      · rw [lowerIc_mem, updUid_mem]
      · rw [lowerIc_mem, updUid_mem]
      · rw [lowerIc_mem]
      · rw [lowerIc_mem]
      · rfl

@[simp] theorem cacheXlat_mem (x s) : (cacheXlat x s).2.mem = s.mem := xlatLanes_mem ..

@[simp] theorem dropSectors_mem (s cl line) : (dropSectors s cl line).mem = s.mem := by
  unfold dropSectors
  split
  · rfl
  · split <;> rfl

@[simp] theorem hostRead_mem (s ctx va len) : (hostRead s ctx va len).2.mem = s.mem := readVa_mem ..

@[simp] theorem arriveHere_mem (s b n) : (arriveHere s b n).2.mem = s.mem := barArrive_mem ..

@[simp] theorem answerWait_mem (s core slot mask pd res) : (answerWait s core slot mask pd res).mem = s.mem := by
  rw [answerWait, wake_mem, updWarp_mem]
  split
  · exact dropClean_mem ..
  · rfl

section
variable {s : State} (h : Memory.wf s.mem = true)
include h

@[simp] theorem fenceCache_wf (cl ctx kind) : Memory.wf (fenceCache s cl ctx kind).mem = true := by
  simp [fenceCache, h]

@[simp] theorem finishNear_wf (id p) : Memory.wf (finishNear s id p).mem = true := by
  unfold finishNear
  split
  · exact ite_wf (by simpa using performNear_wf h id) h
  · exact h

@[simp] theorem hostWrite_wf (ctx va bs) : Memory.wf (hostWrite s ctx va bs).mem = true := writeVa_wf (by exact h) ..

/-! ## Timed waits -/

@[simp] theorem answerSlice_wf (core slot slice expire) : Memory.wf (answerSlice s core slot slice expire).mem = true := by
  unfold answerSlice
  extract_lets w
  split
  · split
    · exact h
    · refine ite_wf h (ite_wf (openFault_wf h ..) ?_)
      split
      · simpa using h
      · exact ite_wf (by simpa using h) h
  · exact h

@[simp] theorem answerAll_wf (p) : Memory.wf (answerAll s p).mem = true := by
  refine foldl_wf (fun _ q hu => foldl_wf (fun v g hv => ?_) hu) h
  dsimp only
  split
  · exact ite_wf (answerSlice_wf hv ..) hv
  · exact hv

@[simp] theorem testTwaits_wf (ctx node) : Memory.wf (testTwaits s ctx node).mem = true := answerAll_wf h _

@[simp] theorem testBkws_wf (n) : Memory.wf (testBkws s n).mem = true := answerAll_wf h _

end

/-! ## The words -/

@[simp] theorem wbStatus_keeps (s d v) : ActKeeps (wbStatus s d v) ↔ Memory.wf s.mem = true := by simp [wbStatus]

/-- A word that puts an access in flight. -/
@[simp] theorem issueTx_keeps {s : State} {finish : Nat → State → State} (h : Memory.wf s.mem = true) (ic t)
    (hf : ∀ id u, (finish id u).mem = u.mem) : ActKeeps (issueTx s ic t finish) := by
  unfold issueTx
  extract_lets need r
  split
  · exact actKeeps_stall
  · simpa [hf, r] using h

end Sys2Proof.Machine
end

section
/-! PROOFS. The memory and the scheduler: decrements, launches with their traces, queues (08 R279, 12 R377-R399, 13 R400-R415). -/

namespace Sys2Proof.Machine

/-! ## What writes no byte -/

@[simp] theorem agentEndAt_mem (s ctx hd ok reason va) : (agentEndAt s ctx hd ok reason va).mem = s.mem := by
  unfold agentEndAt
  split
  · split <;> rfl
  · rfl

@[simp] theorem agentEnd_mem (s ctx hd ok reason) : (agentEnd s ctx hd ok reason).mem = s.mem := agentEndAt_mem ..

@[simp] theorem queueDrain_mem (s q) : (queueDrain s q).mem = s.mem := by
  unfold queueDrain
  split
  · rfl
  · split
    · split <;> rfl
    · rfl

@[simp] theorem newLaunch_mem (s ctx src q pkt rel) : (newLaunch s ctx src q pkt rel).2.mem = s.mem := rfl

@[simp] theorem ctxRun_mem (s ctx) : (ctxRun s ctx).mem = s.mem := rfl

@[simp] theorem ctxSettle_mem (s ctx) : (ctxSettle s ctx).mem = s.mem := by unfold ctxSettle; split <;> rfl

@[simp] theorem dropEverywhere_mem (s ctx) : (dropEverywhere s ctx).mem = s.mem := rfl

@[simp] theorem blockReruns_mem (l r b s) : (blockReruns l r b s).2.mem = s.mem := by
  unfold blockReruns
  split
  · next e => simp [mem_of_snd e]
  · next e => split <;> next e' => simp [mem_of_snd e', mem_of_snd e]

@[simp] theorem anyReruns_mem (l r bs s) : (anyReruns l r bs s).2.mem = s.mem := by
  induction bs generalizing s with
  | nil => rfl
  | cons b t ih => simp [anyReruns, ih]

@[simp] theorem cbReruns_mem (l r c ks s) : (cbReruns l r c ks s).2.mem = s.mem := by
  induction ks generalizing s with
  | nil => rfl
  | cons k t ih => simp [cbReruns, ih]

@[simp] theorem rerunCbs_mem (s l r) : (rerunCbs s l r).2.mem = s.mem := cbReruns_mem ..

@[simp] theorem startBlock_mem (launch l cb bid core s) : (startBlock launch l cb bid core s).mem = s.mem := rfl

@[simp] theorem countDrop_mem (s q) : (countDrop s q).mem = s.mem := rfl

@[simp] theorem headPacket_mem (s x) : (headPacket s x).2.mem = s.mem := by
  unfold headPacket
  split
  · rfl
  · dsimp only; split <;> simp

@[simp] theorem submitRelaunch_mem (s ctx src q tb kind w reply) : (submitRelaunch s ctx src q tb kind w reply).2.mem = s.mem := rfl

/-! ## Records, traces and completions -/

section
variable {s : State} (h : Memory.wf s.mem = true)
include h

@[simp] theorem applyDecr_wf (ctx hd k) : Memory.wf (applyDecr s ctx hd k).mem = true := by
  unfold applyDecr
  split
  · exact postEvent_wf h ..
  · refine ite_wf (postEvent_wf h ..) (testTwaits_wf ?_ ..)
    exact ite_wf (postEvent_wf h ..) h

@[simp] theorem reportRefusal_wf (ctx src nodeReason reason addr) :
    Memory.wf (reportRefusal s ctx src nodeReason reason addr).mem = true := by
  unfold reportRefusal
  split <;> simp [h]

@[simp] theorem submitPacket_wf (ctx src q pkt) : Memory.wf (submitPacket s ctx src q pkt).2.mem = true := by
  unfold submitPacket
  split
  · exact reportRefusal_wf h ..
  · exact h

@[simp] theorem traceWrite_wf (id l va bs) : Memory.wf (traceWrite s id l va bs).mem = true := by
  unfold traceWrite
  split <;> next e => simp [mem_of_snd e, h]

@[simp] theorem startLaunch_wf (id l) : Memory.wf (startLaunch s id l).mem = true := by
  unfold startLaunch
  extract_lets gs counted running started
  have hs : Memory.wf started.mem = true := h
  clear_value started
  split
  · split
    · exact hs
    · exact traceWrite_wf (traceWrite_wf (traceWrite_wf hs ..) ..) ..
  · split <;> simp [hs]

@[simp] theorem refuseRelaunch_wf (id l r reason addr) : Memory.wf (refuseRelaunch s id l r reason addr).mem = true := by
  unfold refuseRelaunch
  extract_lets dropped answered reported
  have ha : Memory.wf answered.mem = true := by
    dsimp only [answered]
    split
    · rw [deliver_mem]; exact h
    · exact h
  clear_value answered
  rw [queueDrain_mem]
  dsimp only [reported]
  split <;> simp [ha]

@[simp] theorem blockDone_wf (key) : Memory.wf (blockDone s key).mem = true := by
  unfold blockDone
  split
  · exact h
  · extract_lets done traced
    have ht : Memory.wf traced.mem = true := by
      dsimp only [traced]
      split
      · split
        · exact traceWrite_wf (by exact h) ..
        · exact h
      · exact h
    clear_value traced
    split
    · exact ht
    · exact ite_wf (by exact ht) ht

@[simp] theorem complete_wf (ctx src tag kind word) : Memory.wf (complete s ctx src tag kind word).mem = true := by
  unfold complete
  dsimp only
  split
  · split <;> next e => simp [mem_of_snd e, h]
  · simpa using h
  · split
    · split
      · exact ite_wf (by simp [h]) (by simp [h])
      · exact h
    · exact h
  · exact h

@[simp] theorem endHeader_wf (id l) : Memory.wf (endHeader s id l).mem = true := by
  unfold endHeader
  split
  · exact h
  · exact writeVa_wf (traceWrite_wf (traceWrite_wf h ..) ..) ..

/-! ## Queues -/

@[simp] theorem appendInline_wf (q x pkt) : Memory.wf (appendInline s q x pkt).mem = true := writeVa_wf h ..

@[simp] theorem consumeHead_wf (q x) : Memory.wf (consumeHead s q x).mem = true := by
  unfold consumeHead
  split <;> next e => simp [mem_of_snd e, h]

@[simp] theorem releaseDev_wf : Memory.wf (releaseDev s).mem = true := cleanCtx_wf h ..

end

end Sys2Proof.Machine
end

section
/-! PROOFS. The words and the moves up to the queues keep the memory in canonical form (01 to 08, 12, 13). -/

namespace Sys2Proof.Machine

variable {s : State} (h : Memory.wf s.mem = true)
include h

/-! ## Integers, bits and moves (04 R122-R128, 02 R80-R83) -/

theorem int2_keeps (x f) : OutKeeps (int2 x f s) := issueWord_done_keeps h fun _ => by simp
theorem bit2_keeps (x sh f) : OutKeeps (bit2 x sh f s) := issueWord_done_keeps h fun _ => by simp
theorem bit1_keeps (x d32 f) : OutKeeps (bit1 x d32 f s) := issueWord_done_keeps h fun _ => by simp
theorem execImad_keeps (x) : OutKeeps (execImad x s) := issueWord_done_keeps h fun _ => by simp

theorem execImadw_keeps (x) : OutKeeps (execImadw x s) := by
  rw [execImadw]
  exact issueWord_done_keeps h fun _ => by simp

theorem execIabs_keeps (x) : OutKeeps (execIabs x s) := issueWord_done_keeps h fun _ => by simp
theorem execBfi_keeps (x) : OutKeeps (execBfi x s) := issueWord_done_keeps h fun _ => by simp
theorem execLea_keeps (x) : OutKeeps (execLea x s) := issueWord_done_keeps h fun _ => by simp
theorem execIcmp_keeps (x) : OutKeeps (execIcmp x s) := issueWord_done_keeps h fun _ => by simp

theorem execSel_keeps (x) : OutKeeps (execSel x s) := by
  rw [execSel]
  exact issueWord_done_keeps h fun _ => by simp

theorem execMov_keeps (x) : OutKeeps (execMov x s) := by
  rw [execMov]
  exact issueWord_done_keeps h fun _ => by simp

theorem execMovi_keeps (x) : OutKeeps (execMovi x s) := by
  unfold execMovi
  split <;> exact issueWord_done_keeps h fun _ => by simp

theorem execMovs_keeps (x) : OutKeeps (execMovs x s) := by
  rw [execMovs]
  exact issueWord_done_keeps h fun _ => by simp

theorem execMovsSl_keeps (x) : OutKeeps (execMovsSl x s) := by
  rw [execMovsSl]
  exact issueWord_done_keeps h fun _ => by simp

theorem execPlog_keeps (x) : OutKeeps (execPlog x s) := issueWord_done_keeps h fun _ => by simp

/-! ## Floating point and conversions (04 R129-R148) -/

theorem fp2_keeps (x lat f) : OutKeeps (fp2 x lat f s) := issueWord_done_keeps h fun _ => by simp
theorem fp1_keeps (x f) : OutKeeps (fp1 x f s) := issueWord_done_keeps h fun _ => by simp
theorem dp2_keeps (x f) : OutKeeps (dp2 x f s) := issueWord_done_keeps h fun _ => by simp
theorem half2_keeps (x f) : OutKeeps (half2 x f s) := issueWord_done_keeps h fun _ => by simp
theorem execFfma_keeps (x) : OutKeeps (execFfma x s) := issueWord_done_keeps h fun _ => by simp
theorem execFcmp_keeps (x) : OutKeeps (execFcmp x s) := issueWord_done_keeps h fun _ => by simp
theorem execFcls_keeps (x) : OutKeeps (execFcls x s) := issueWord_done_keeps h fun _ => by simp
theorem execHfma2_keeps (x) : OutKeeps (execHfma2 x s) := issueWord_done_keeps h fun _ => by simp
theorem execDfma_keeps (x) : OutKeeps (execDfma x s) := issueWord_done_keeps h fun _ => by simp
theorem execDcmp_keeps (x) : OutKeeps (execDcmp x s) := issueWord_done_keeps h fun _ => by simp

theorem execPair_keeps (op a o) : OutKeeps (execPair op a o s) := by
  unfold execPair
  dsimp only
  split <;> simp [h]

theorem execCvt_keeps (x) : OutKeeps (execCvt x s) := issueWord_done_keeps h fun _ => by simp
theorem execCvts_keeps (x) : OutKeeps (execCvts x s) := issueWord_done_keeps h fun _ => by simp
theorem execScsel_keeps (x) : OutKeeps (execScsel x s) := issueWord_done_keeps h fun _ => by simp
theorem execEfq_keeps (x) : OutKeeps (execEfq x s) := issueWord_done_keeps h fun _ => by simp
theorem execBzpk_keeps (x) : OutKeeps (execBzpk x s) := issueWord_done_keeps h fun _ => by simp

theorem execBzup_keeps (x) : OutKeeps (execBzup x s) := by
  rw [execBzup]
  exact issueWord_done_keeps h fun _ => by simp

theorem execF8pk_keeps (x) : OutKeeps (execF8pk x s) := issueWord_done_keeps h fun _ => by simp

theorem execF8up_keeps (x) : OutKeeps (execF8up x s) := by
  rw [execF8up]
  exact issueWord_done_keeps h fun _ => by simp

theorem execScacc_keeps (x) : OutKeeps (execScacc x s) := issueWord_done_keeps h fun _ => by simp

/-! ## Across the lanes (04 R149-R159) -/

theorem execShfl_keeps (x) : OutKeeps (execShfl x s) := by
  rw [execShfl]
  exact issueWord_done_keeps h fun _ => by simp

theorem execShfx_keeps (x) : OutKeeps (execShfx x s) := issueWord_done_keeps h fun _ => by simp

theorem execBcst_keeps (x) : OutKeeps (execBcst x s) := by
  rw [execBcst]
  exact issueWord_done_keeps h fun _ => by simp

theorem execVote_keeps (x) : OutKeeps (execVote x s) := by
  cases x <;> (rw [execVote]; exact issueWord_done_keeps h fun _ => by simp)

theorem execRedt_keeps (x) : OutKeeps (execRedt x s) := issueWord_done_keeps h fun _ => by simp
theorem execScan_keeps (x) : OutKeeps (execScan x s) := issueWord_done_keeps h fun _ => by simp
theorem execRedx_keeps (x) : OutKeeps (execRedx x s) := issueWord_done_keeps h fun _ => rfl
theorem execLacr_keeps (x) : OutKeeps (execLacr x s) := issueWord_done_keeps h fun _ => by simp
theorem execLacz_keeps : OutKeeps (execLacz s) := issueWord_done_keeps h fun _ => rfl

/-! ## Control (05 R184-R195, 01 R43-R47) -/

theorem execBra_keeps (any g dist) : OutKeeps (execBra any g dist s) := issueWord_done_keeps h fun _ => rfl

theorem indirect_keeps (pop a off) : OutKeeps (indirect pop a off s) := issueWord_keeps h fun v hv => by
  dsimp only
  split <;> simp [hv]

theorem execCall_keeps (d dist) : OutKeeps (execCall d dist s) := issueWord_done_keeps h fun _ => rfl

theorem execRegang_keeps (m) : OutKeeps (execRegang m s) := by
  unfold execRegang
  exact issueWord_keeps h fun v hv => by simpa using hv

theorem execRegangRelease_keeps (core slot addr) : OutKeeps (execRegangRelease core slot addr s) := by
  simpa [execRegangRelease] using h

theorem loopWord_keeps (u count off) : OutKeeps (loopWord u count off s) := issueWord_keeps h fun v hv => by
  split <;> simp [hv]

theorem execYield_keeps : OutKeeps (execYield s) := issueWord_keeps h fun v hv => by
  dsimp only
  split <;> simp [hv]

theorem execNop_keeps : OutKeeps (execNop s) := issueWord_done_keeps h fun _ => rfl
theorem execExit_keeps : OutKeeps (execExit s) := issueWord_keeps h fun v hv => by simp [hv]
theorem execTrap_keeps (code) : OutKeeps (execTrap code s) := issueWord_keeps h fun v hv => by simp [hv]
theorem execBkpt_keeps (code) : OutKeeps (execBkpt code s) := issueWord_keeps h fun v hv => by simp [hv]

theorem execActiveSetUpdate_keeps (core) : OutKeeps (execActiveSetUpdate core s) := by
  unfold execActiveSetUpdate
  dsimp only
  split
  · simp [h]
  · refine OutKeeps.ite (by simp [h]) (OutKeeps.ite (by simp [h]) ?_)
    split <;> simp [h]

theorem execWarpForced_keeps (core slot) : OutKeeps (execWarpForced core slot s) := by simpa [execWarpForced] using h

theorem execRacq_keeps (n) : OutKeeps (execRacq n s) := issueWord_keeps h fun v hv => by
  dsimp only
  split
  · simp
  · split <;> simp [hv]

theorem execRacqGrant_keeps (core) : OutKeeps (execRacqGrant core s) := by
  unfold execRacqGrant
  dsimp only
  split <;> simp [h]

theorem execEmergencyEpisode_keeps (core) : OutKeeps (execEmergencyEpisode core s) := by simpa [execEmergencyEpisode] using h

theorem execEmergencyGrant_keeps (core) : OutKeeps (execEmergencyGrant core s) := by
  unfold execEmergencyGrant
  refine OutKeeps.ite (by simp [h]) ?_
  split
  · simp [h]
  · exact OutKeeps.ite (by simp [h]) (OutKeeps.ite (by simp [h]) (by simp [h]))

theorem execRrel_keeps (n) : OutKeeps (execRrel n s) := issueWord_keeps h fun v hv =>
  ActKeeps.ite actKeeps_trap (ActKeeps.ite actKeeps_stall (by simp [hv]))

theorem execRrelRelease_keeps (core slot) : OutKeeps (execRrelRelease core slot s) := by simpa [execRrelRelease] using h

theorem execRep_keeps (x) : OutKeeps (execRep x s) := by
  unfold execRep
  extract_lets w low steps fail va
  have hfail : ∀ (u : State) f, Memory.wf u.mem = true → OutKeeps (fail u f) :=
    fun u f hu => outKeeps_next.mpr (takeFault_wf (by exact hu) f)
  clear_value fail
  split
  · next e => exact hfail _ _ (by simpa [mem_of_snd e] using h)
  · next u e =>
    have hu : Memory.wf u.mem = true := by simpa [mem_of_snd e] using h
    split
    · exact hfail _ _ hu
    · split
      · exact hfail _ _ hu
      · exact hfail _ _ hu
      · split
        · exact hfail _ _ hu
        · dsimp only
          split
          · exact hfail _ _ hu
          · exact outKeeps_next.mpr hu

/-! ## Accesses (07 R256-R267) -/

theorem execLd_keeps (x) : OutKeeps (execLd x s) := issueWord_keeps h fun v hv => by
  dsimp only
  split <;> simp [hv]

theorem execSt_keeps (x) : OutKeeps (execSt x s) := issueWord_keeps h fun v hv => by
  dsimp only
  split <;> simp [hv]

theorem execLds_keeps (x) : OutKeeps (execLds x s) := issueWord_keeps h fun v hv => by
  split <;> simp [hv]

theorem execSts_keeps (x) : OutKeeps (execSts x s) := issueWord_keeps h fun v hv => by
  split
  · exact actKeeps_trap
  · exact issueTx_keeps hv _ _ fun _ _ => rfl

theorem execLdw_keeps (x) : OutKeeps (execLdw x s) := issueWord_keeps h fun v hv => by
  split <;> simp [hv]

theorem execStw_keeps (x) : OutKeeps (execStw x s) := issueWord_keeps h fun v hv => by
  split
  · exact actKeeps_trap
  · split
    · exact actKeeps_stall
    · exact issueTx_keeps hv _ _ fun _ _ => rfl

theorem execLdc_keeps (x) : OutKeeps (execLdc x s) := issueWord_keeps h fun v hv => by
  dsimp only
  split <;> simp [hv]

theorem execPref_keeps (x) : OutKeeps (execPref x s) := issueWord_keeps h fun v hv => by
  split
  · exact actKeeps_done.mpr hv
  · next e =>
    split
    · exact actKeeps_done.mpr hv
    · refine actKeeps_done.mpr (foldl_wf (fun u q hu => ?_) (by simpa [mem_of_snd e] using hv))
      exact ite_wf (by simpa using hu) (cacheRead_wf hu ..)

theorem execCflsh_keeps (x) : OutKeeps (execCflsh x s) := issueWord_keeps h fun v hv => by
  split
  · exact actKeeps_trap
  · next e => exact issueTx_keeps (by simpa [mem_of_snd e] using hv) _ _ fun _ _ => rfl

theorem execCinv_keeps (x) : OutKeeps (execCinv x s) := issueWord_keeps h fun v hv => by
  split
  · exact actKeeps_trap
  · next e =>
    split
    · exact actKeeps_stall
    · exact actKeeps_done.mpr (foldl_wf (fun u q hu => by split <;> simp [hu]) (by simpa [mem_of_snd e] using hv))

theorem execFence_keeps (scope kind) : OutKeeps (execFence scope kind s) := issueWord_done_keeps h fun _ => by simp

theorem execFenceComplete_keeps (core slot id) : OutKeeps (execFenceComplete core slot id s) := by
  unfold execFenceComplete
  split
  · simp [h]
  · refine OutKeeps.ite (by simp [h]) ?_
    split
    · exact OutKeeps.ite (by simp [h]) (by simp [h])
    · exact OutKeeps.ite (by simp [h]) (by simp [h])
    · simp [h]

theorem execWaitc_keeps (mask t) : OutKeeps (execWaitc mask t s) := issueWord_keeps h fun v hv =>
  ActKeeps.ite (by simp [hv]) (by simp [hv])

theorem atomWord_keeps (op x) : OutKeeps (atomWord op x s) := issueWord_keeps h fun v hv => by
  dsimp only
  split <;> simp [hv]

theorem atomsWord_keeps (op x) : OutKeeps (atomsWord op x s) := issueWord_keeps h fun v hv => by
  dsimp only
  split <;> simp [hv]

theorem execLoadValueReturn_keeps (id) : OutKeeps (execLoadValueReturn id s) := by simp [execLoadValueReturn, h]
theorem execStorePerformed_keeps (id) : OutKeeps (execStorePerformed id s) := by simp [execStorePerformed, h]

theorem execScratchpadAccess_keeps (id) : OutKeeps (execScratchpadAccess id s) := by
  unfold execScratchpadAccess
  split <;> simp [h]

theorem execHomeAccess_keeps (id part) : OutKeeps (execHomeAccess id part s) := by simp [execHomeAccess, h]

/-! ## Barriers, timed waits, buckets (08 R268-R290) -/

theorem execBar_keeps (id n) : OutKeeps (execBar id n s) := issueWord_keeps h fun v hv => by
  dsimp only
  split
  · simp
  · split <;> simp [hv]

theorem execBara_keeps (d id n) : OutKeeps (execBara d id n s) := issueWord_keeps h fun v hv => by
  split <;> simp [hv]

theorem execBarw_keeps (a id clu) : OutKeeps (execBarw a id clu s) := issueWord_keeps h fun v hv =>
  ActKeeps.ite (by simp [hv]) (by simp [hv])

theorem execCbar_keeps (d id n) : OutKeeps (execCbar d id n s) := issueWord_keeps h fun v hv => by
  split <;> simp [hv]

theorem execBarrierComplete_keeps (b) : OutKeeps (execBarrierComplete b s) := by simpa [execBarrierComplete] using h

theorem execTdec_keeps (a b) : OutKeeps (execTdec a b s) := issueWord_keeps h fun v hv => by
  split <;> simp [hv]

theorem execTwait_keeps (p a b c) : OutKeeps (execTwait p a b c s) := issueWord_done_keeps h fun _ => by simp

theorem execFlgw_keeps (x) : OutKeeps (execFlgw x s) := issueWord_keeps h fun v hv => by
  extract_lets ea cl
  refine ActKeeps.ite actKeeps_trap ?_
  split
  · exact actKeeps_trap
  · next e => exact ActKeeps.ite actKeeps_trap (ActKeeps.ite actKeeps_stall (by simp [mem_of_snd e, hv]))

theorem execBkw_keeps (p a c) : OutKeeps (execBkw p a c s) := issueWord_done_keeps h fun _ => by simp

theorem execTimedWaitAnswer_keeps (core slot slice) : OutKeeps (execTimedWaitAnswer core slot slice s) := by
  simp [execTimedWaitAnswer, h]

theorem execTimedWaitTimeout_keeps (core slot slice) : OutKeeps (execTimedWaitTimeout core slot slice s) := by
  simp [execTimedWaitTimeout, h]

theorem execFlgwHostPoll_keeps (core slot slice) : OutKeeps (execFlgwHostPoll core slot slice s) := by
  unfold execFlgwHostPoll
  split <;> simp [h]

theorem execBkarm_keeps (d a b) : OutKeeps (execBkarm d a b s) := issueWord_keeps h fun v hv => by
  extract_lets n va cl u
  have hu : Memory.wf u.mem = true := by simpa [u] using hv
  clear_value u
  split
  · simpa using hu
  · split
    · exact actKeeps_trap
    · split
      · exact actKeeps_trap
      · next t e =>
        have ht : Memory.wf t.mem = true := by simpa [mem_of_snd e] using hu
        split
        · exact actKeeps_stall
        · have hr := fun ds => loadUnits_wf cl (cw t).ctx ds ht
          dsimp only
          split
          · simpa using hr _
          · split
            · exact actKeeps_trap
            · next e => split <;> simp [mem_of_snd e, hr]

theorem execBkarmOff_keeps (d a) : OutKeeps (execBkarmOff d a s) := by
  rw [execBkarmOff]
  exact issueWord_keeps h fun v hv => by simp [hv]

/-! ## Launches (12 R377-R396) -/

theorem execTaskDecrement_keeps : OutKeeps (execTaskDecrement s) := by
  unfold execTaskDecrement
  split <;> simp [h]

theorem execLaunchSubmit_keeps (ctx src pkt) : OutKeeps (execLaunchSubmit ctx src pkt s) := by simp [execLaunchSubmit, h]

theorem execLaunchStart_keeps (launch) : OutKeeps (execLaunchStart launch s) := by
  unfold execLaunchStart
  split <;> simp [h]

theorem execRelaunchHeaderRead_keeps (launch) : OutKeeps (execRelaunchHeaderRead launch s) := by
  unfold execRelaunchHeaderRead
  split
  · split
    · split
      · simpa using h
      · split
        · next e => simp [mem_of_snd e, h]
        · next e => dsimp only; split <;> simp [mem_of_snd e, h]
    · simpa using h
  · simpa using h

theorem execClusterBlockAssign_keeps (launch cluster cores) : OutKeeps (execClusterBlockAssign launch cluster cores s) := by
  unfold execClusterBlockAssign
  split
  · split <;> simp [h]
  · simp [h]

theorem execClusterBlockResident_keeps (cb) : OutKeeps (execClusterBlockResident cb s) := by
  unfold execClusterBlockResident
  split
  · split
    · dsimp only
      split
      · exact outKeeps_next.mpr (foldl_wf (fun _ _ hu => by simpa using hu) (by exact h))
      · simpa using h
    · simpa using h
  · simpa using h

theorem execWarpExited_keeps (core slot) : OutKeeps (execWarpExited core slot s) := by
  unfold execWarpExited
  dsimp only
  split
  · split
    · simp [h]
    · simp [h]
  · simp [h]

theorem execLaunchEnd_keeps (launch) : OutKeeps (execLaunchEnd launch s) := by
  unfold execLaunchEnd
  split
  · split
    · extract_lets mine cleaned headed c completed gone ended
      have hc : Memory.wf cleaned.mem = true := foldl_wf (fun _ _ hu => cleanCtx_wf hu ..) h
      have hg : Memory.wf gone.mem = true := complete_wf (endHeader_wf hc ..) ..
      clear_value gone
      rw [outKeeps_next, ctxSettle_mem, queueDrain_mem]
      dsimp only [ended]
      split <;> simp [hg]
    · simpa using h
  · simpa using h

/-! ## Queues (13 R400-R415, 12 R397-R399) -/

theorem execLaunchRegisterInline_keeps (q bytes) : OutKeeps (execLaunchRegisterInline q bytes s) := by
  unfold execLaunchRegisterInline
  split <;> simp [h]

theorem execLaunchRegisterDoorbell_keeps (q bytes) : OutKeeps (execLaunchRegisterDoorbell q bytes s) := by
  unfold execLaunchRegisterDoorbell
  split <;> simp [h]

theorem execLaunchRegisterDrop_keeps (q acc) : OutKeeps (execLaunchRegisterDrop q acc s) := by
  unfold execLaunchRegisterDrop
  split <;> simp [h]

theorem execPacketConsume_keeps : OutKeeps (execPacketConsume s) := by
  unfold execPacketConsume
  split <;> simp [h]

theorem execEnergyCharge_keeps (q counts) : OutKeeps (execEnergyCharge q counts s) := by
  unfold execEnergyCharge
  split <;> simp [h]

theorem execBudgetRefill_keeps (q) : OutKeeps (execBudgetRefill q s) := by
  unfold execBudgetRefill
  split <;> simp [h]

theorem execLnch_keeps (d a b) : OutKeeps (execLnch d a b s) := issueWord_keeps h fun v hv => by
  extract_lets p q u ctx
  have hu : Memory.wf u.mem = true := by simpa [u] using releaseDev_wf hv
  refine ActKeeps.ite actKeeps_trap (ActKeeps.ite actKeeps_stall ?_)
  split
  · exact actKeeps_trap
  · next e =>
    dsimp only
    split
    · simp [mem_of_snd e, hu]
    · split <;> simp [mem_of_snd e, hu]

theorem execReln_keeps (x) : OutKeeps (execReln x s) := issueWord_keeps h fun v hv => by
  extract_lets tb w u ctx
  have hu : Memory.wf u.mem = true := by simpa [u] using releaseDev_wf hv
  refine ActKeeps.ite actKeeps_trap (ActKeeps.ite actKeeps_stall ?_)
  split
  · exact actKeeps_trap
  · next e => exact ActKeeps.ite (by simp [mem_of_snd e, hu]) (by simp [mem_of_snd e, hu])

end Sys2Proof.Machine
end

section
/-! PROOFS. The memory and what is sent and copied: packets, flits and frames (15 R443-R460), copies (09 R291-R318). -/

namespace Sys2Proof.Machine

/-! ## Sending -/

@[simp] theorem sendOn_mem (s l type hd p) : (sendOn s l type hd p).mem = s.mem := rfl

@[simp] theorem sendVia_mem (s l type hd p) : (sendVia s l type hd p).mem = s.mem := by
  unfold sendVia
  split
  · exact sendOn_mem ..
  · split <;> rfl

@[simp] theorem sendPacket_mem (s type hd p) : (sendPacket s type hd p).mem = s.mem := sendVia_mem ..

@[simp] theorem sendLow_mem (s p) : (sendLow s p).mem = s.mem := sendVia_mem ..

@[simp] theorem sendAgain_mem (s p) : (sendAgain s p).mem = s.mem := by simp [sendAgain]

@[simp] theorem sendNow_mem (s r) : (sendNow s r).mem = s.mem := sendPacket_mem ..

@[simp] theorem sendReq_mem (s target type hd p owner) : (sendReq s target type hd p owner).2.mem = s.mem := by simp [sendReq]

@[simp] theorem sendWaiting_mem (target n s) : (sendWaiting target n s).mem = s.mem := by
  induction n generalizing s with
  | zero => rfl
  | succ n ih =>
    unfold sendWaiting
    split
    · rfl
    · split
      · rfl
      · rw [ih, sendNow_mem]

@[simp] theorem retireReq_mem (s r) : (retireReq s r).mem = s.mem := sendWaiting_mem ..

@[simp] theorem sendFlitTo_mem (s p dest type seq bs) : (sendFlitTo s p dest type seq bs).mem = s.mem := by
  rw [sendFlitTo, emit_mem, charge_mem, updPort_mem]

@[simp] theorem sendFlit_mem (s p type seq bs) : (sendFlit s p type seq bs).mem = s.mem := sendFlitTo_mem ..

@[simp] theorem pump_mem (p n s) : (pump p n s).mem = s.mem := by
  induction n generalizing s with
  | zero => rfl
  | succ n ih =>
    unfold pump
    dsimp only
    split
    · rfl
    · split
      · rfl
      · rw [ih, sendFlitTo_mem, updPort_mem]

@[simp] theorem pumpPort_mem (s p) : (pumpPort s p).mem = s.mem := pump_mem ..

@[simp] theorem sendFrame_mem (s p dest va len hd copy data) : (sendFrame s p dest va len hd copy data).mem = s.mem := by
  rw [sendFrame, pumpPort_mem, updPort_mem]

@[simp] theorem sendControl_mem (s p bs repeated) : (sendControl s p bs repeated).mem = s.mem := by
  rw [sendControl, sendFlit_mem]
  split <;> rfl

@[simp] theorem linkEvent_wf {s} (h : Memory.wf s.mem = true) (event place dir before after seq replayed peer) :
    Memory.wf (linkEvent s event place dir before after seq replayed peer).mem = true := by
  unfold linkEvent
  dsimp only
  split
  · exact postEvent_wf (by exact h) ..
  · exact h

/-! ## The source and the target of a copy -/

@[simp] theorem writeTarget_mem (s x off bs) : (writeTarget s x off bs).mem = s.mem := by
  unfold writeTarget
  extract_lets w t
  split
  · split <;> rfl
  · exact foldl_mem _ (fun _ _ => by exact updWarp_mem ..) _ _

@[simp] theorem copyPage_mem (s cl ctx va k) : (copyPage s cl ctx va k).2.mem = s.mem := by
  unfold copyPage
  split <;> next e => simp [mem_of_snd e]

@[simp] theorem copyRead_mem (cl ctx as ps s) : (copyRead cl ctx as ps s).2.mem = s.mem := by
  induction as generalizing ps s with
  | nil => rfl
  | cons a t ih =>
    cases a <;> unfold copyRead
    case none => split <;> next e => simp [mem_of_snd e, ih]
    case some a =>
      extract_lets hit r
      have hr : r.2.mem = s.mem := by
        dsimp only [r]
        clear_value hit
        split
        · rfl
        · exact copyPage_mem ..
      clear_value r
      split
      · dsimp only
        split <;> next e => simp [mem_of_snd e, ih, hr]
      · exact hr

@[simp] theorem dzBlock_mem (cl ctx va s) : (dzBlock cl ctx va s).2.mem = s.mem := by
  unfold dzBlock
  split
  · next e => simp [mem_of_snd e]
  · next e =>
    dsimp only
    split
    · simp [mem_of_snd e]
    · split
      · next e' => simp [mem_of_snd e', mem_of_snd e]
      · next e' => split <;> (try split) <;> simp [mem_of_snd e', mem_of_snd e]

@[simp] theorem dzEnsure_mem (cl upto n x s) : (dzEnsure cl upto n x s).2.mem = s.mem := by
  induction n generalizing x s with
  | zero => rfl
  | succ n ih =>
    unfold dzEnsure
    split
    · rfl
    · split <;> next e => simp [mem_of_snd e, ih]

@[simp] theorem chunkSource_mem (cl x off n s) : (chunkSource cl x off n s).2.mem = s.mem := by
  unfold chunkSource
  split <;> split <;> next e => simp [mem_of_snd e]

@[simp] theorem flyChunk_mem (s c x q bs xl) : (flyChunk s c x q bs xl).mem = s.mem := by simp [flyChunk]

@[simp] theorem traceCopy_mem (s w x) : (traceCopy s w x).mem = s.mem := by
  unfold traceCopy
  split
  · rfl
  · exact updTrace_mem ..

@[simp] theorem admitCopy_mem (op x after s j slot) : (admitCopy op x after s j slot).2.mem = s.mem := by
  unfold admitCopy
  dsimp only
  rw [traceCopy_mem]
  split <;> split <;> rfl

@[simp] theorem admitAll_mem (op x after l s) : (admitAll op x after l s).2.mem = s.mem := by
  induction l generalizing s with
  | nil => rfl
  | cons p t ih => simp [admitAll, ih]

/-! ## The end of a copy -/

section
variable {s : State} (h : Memory.wf s.mem = true)
include h

@[simp] theorem copyRecord_wf (c x cause) : Memory.wf (copyRecord s c x cause).mem = true := postEvent_wf h ..

@[simp] theorem signalLost_wf (c) : Memory.wf (signalLost s c).mem = true := by
  unfold signalLost
  dsimp only
  split <;> simp [h]

@[simp] theorem sendSignal_wf (c x) : Memory.wf (sendSignal s c x).mem = true := by
  unfold sendSignal
  extract_lets port va line hd
  refine ite_wf ?_ (ite_wf h (ite_wf ?_ (signalLost_wf h c)))
  · rw [updCopy_mem, sendFrame_mem]; exact h
  · rw [updCopy_mem, sendReq_mem]; exact h

@[simp] theorem copyCompletion_wf (c x) : Memory.wf (copyCompletion s c x).mem = true := by
  unfold copyCompletion
  split
  · simpa using h
  · split
    · simpa using h
    · simpa using h
    · split
      · exact sendSignal_wf (by simpa using h) ..
      · dsimp only
        split <;> next e => simp [mem_of_snd e, h]

@[simp] theorem endCopy_wf (c ok) : Memory.wf (endCopy s c ok).mem = true := by
  unfold endCopy
  split
  · exact h
  · extract_lets y put recorded filled completed answered
    have hr : Memory.wf recorded.mem = true := ite_wf (by simpa [put] using h) (copyRecord_wf (by simpa [put] using h) ..)
    have hf : Memory.wf filled.mem = true := ite_wf (by exact hr) hr
    have hc : Memory.wf completed.mem = true := copyCompletion_wf hf ..
    rw [ctxSettle_mem]
    dsimp only [answered]
    split
    · rw [deliver_mem]; exact hc
    · exact hc

@[simp] theorem failCopy_wf (c cause va) : Memory.wf (failCopy s c cause va).mem = true := by
  unfold failCopy
  dsimp only
  split
  · exact ite_wf (endCopy_wf (by simpa using h) ..) (by simpa using h)
  · simpa using h

/-! ## Chunks -/

@[simp] theorem stallCopy_wf (c x f va) : Memory.wf (stallCopy s c x f va).mem = true := by
  unfold stallCopy
  split
  · exact h
  · split <;> simp [h]

@[simp] theorem pageTrouble_wf (c x e) : Memory.wf (pageTrouble s c x e).mem = true := by
  unfold pageTrouble
  split <;> simp [h]

@[simp] theorem sendChunk_wf (c x q off bs) : Memory.wf (sendChunk s c x q off bs).mem = true := by
  unfold sendChunk
  extract_lets va flown image mask hd last
  have hf : Memory.wf flown.mem = true := by simpa [flown] using h
  refine ite_wf (ite_wf (failCopy_wf h ..) ?_) (ite_wf (failCopy_wf h ..) ?_)
  · rw [sendReq_mem]; exact hf
  · rw [sendFrame_mem]; exact hf

@[simp] theorem issueChunk_wf (c x) : Memory.wf (issueChunk s c x).mem = true := by
  unfold issueChunk
  extract_lets off n cl source
  have hsource : ∀ u y xl, Memory.wf u.mem = true → Memory.wf (source u y xl).mem = true := by
    intro u y xl hu
    dsimp only [source]
    split
    · next e => simp [mem_of_snd e, hu]
    · next e => exact ite_wf (by simp [mem_of_snd e, hu]) (by simp [mem_of_snd e, hu])
  clear_value source
  split
  · exact ite_wf (hsource _ _ _ h) (failCopy_wf h ..)
  · exact hsource _ _ _ h
  · exact hsource _ _ _ h
  · split
    · next e =>
      have hu := mem_of_snd e
      split
      · split
        · simp [hu, h]
        · exact ite_wf (hsource _ _ _ (by simp [hu, h])) (by simp [hu, h])
      · exact hsource _ _ _ (by simp [hu, h])
    · next e => simp [mem_of_snd e, h]

@[simp] theorem chunkDone_wf (c q) : Memory.wf (chunkDone s c q).mem = true := by
  unfold chunkDone
  extract_lets u
  have hu : Memory.wf u.mem = true := by simpa [u] using h
  split
  · exact ite_wf hu (ite_wf (endCopy_wf hu ..) (ite_wf (endCopy_wf hu ..) hu))
  · exact hu

@[simp] theorem chunkLost_wf (c q cause) : Memory.wf (chunkLost s c q cause).mem = true := by
  unfold chunkLost
  extract_lets u
  have hu : Memory.wf u.mem = true := by simpa [u] using h
  split
  · exact ite_wf hu (failCopy_wf hu ..)
  · exact hu

@[simp] theorem copyError_wf (c chunk) : Memory.wf (copyError c chunk s).mem = true := by
  unfold copyError
  split
  · exact h
  · exact ite_wf (ite_wf h (chunkLost_wf (by exact h) ..)) (ite_wf (failCopy_wf (by exact h) ..) h)

@[simp] theorem testBuckle_wf (c x seen) : Memory.wf (testBuckle s c x seen).mem = true := by
  unfold testBuckle
  refine ite_wf (failCopy_wf h ..) ?_
  split
  · exact ite_wf h (failCopy_wf h ..)
  · exact ite_wf (failCopy_wf h ..) (by simpa using h)

@[simp] theorem testCopies_wf (n) : Memory.wf (testCopies s n).mem = true := by
  refine foldl_wf (fun u q hu => ?_) h
  split
  · exact ite_wf (testBuckle_wf hu ..) hu
  · exact hu

/-! ## The words and the moves -/

theorem execCopyChunkIssue_keeps (c) : OutKeeps (execCopyChunkIssue c s) := by
  unfold execCopyChunkIssue
  split
  · exact outKeeps_next.mpr h
  · next x _ =>
    extract_lets u k a
    have hu : Memory.wf u.mem = true := h
    clear_value u
    refine OutKeeps.ite (outKeeps_next.mpr hu) (OutKeeps.ite (outKeeps_next.mpr (ite_wf (endCopy_wf hu ..) hu)) ?_)
    split <;> simp [hu]

theorem execCopyChunkPerformed_keeps (c chunk) : OutKeeps (execCopyChunkPerformed c chunk s) := by
  unfold execCopyChunkPerformed
  split
  · exact outKeeps_next.mpr h
  · split
    · exact outKeeps_next.mpr h
    · extract_lets off u target base filled written
      have hu : Memory.wf u.mem = true := h
      split
      · exact outKeeps_next.mpr hu
      · exact OutKeeps.ite (by simp [hu]) (by simp [hu])
      · exact outKeeps_next.mpr (chunkDone_wf (by exact hu) ..)
      · exact outKeeps_next.mpr (chunkDone_wf (writeUnits_wf hu ..) ..)

theorem execCopyrChunkTimeout_keeps (c chunk) : OutKeeps (execCopyrChunkTimeout c chunk s) := by
  unfold execCopyrChunkTimeout
  split
  · exact outKeeps_next.mpr h
  · split
    · exact outKeeps_next.mpr h
    · dsimp only
      split
      · exact outKeeps_next.mpr h
      · split
        · simp [h]
        · split <;> simp [h]

theorem execCopyTakeUp_keeps (core) : OutKeeps (execCopyTakeUp core s) := by
  unfold execCopyTakeUp
  dsimp only
  split
  · exact outKeeps_next.mpr h
  · simp [h]

theorem copyWord_keeps (op x) : OutKeeps (copyWord op x s) := issueWord_keeps h fun v hv => by simp [hv]

theorem execCprog_keeps (d a) : OutKeeps (execCprog d a s) := issueWord_done_keeps h fun _ => by simp

theorem execCkill_keeps (d a) : OutKeeps (execCkill d a s) := issueWord_keeps h fun v hv => by
  split
  · simpa using hv
  · simp [hv]

end

end Sys2Proof.Machine
end

section
/-! PROOFS. The memory and the electrical plane: remote words, their answers, requests at the target, lanes (15 R443-R456). -/

namespace Sys2Proof.Machine

/-! ## The source -/

@[simp] theorem fstatEvent_mem (s uid k dev) : (fstatEvent s uid k dev).mem = s.mem := updUid_mem ..

@[simp] theorem remoteAdd_mem (s id k vals) : (remoteAdd s id k vals).mem = s.mem := by
  unfold remoteAdd
  split
  · split
    · dsimp only
      split
      · rw [lowerIc_mem]
        split <;> simp
      · rfl
    · rfl
  · rfl

/-- A remote word in flight writes no byte of this device. -/
theorem remoteIssue_keeps {s : State} {send finish : Nat → State → State} (h : Memory.wf s.mem = true) (ic n d z op good bad)
    (hs : ∀ id u, (send id u).mem = u.mem) (hf : ∀ id u, (finish id u).mem = u.mem) :
    ActKeeps (remoteIssue s ic n d z op good bad send finish) := by
  have marked : ∀ (uid : Nat) (u : State), (bad.foldl (fun s g => fstatEvent s uid 4 g.dev) u).mem = u.mem :=
    fun uid u => foldl_mem _ (fun _ _ => fstatEvent_mem ..) _ _
  unfold remoteIssue
  split
  · exact actKeeps_stall
  · simp [marked, hs, hf, h]

@[simp] theorem storeImage_mem (n va data lanes s) : (storeImage n va data lanes s).2.mem = s.mem := by
  unfold storeImage
  dsimp only
  split <;> simp

@[simp] theorem sendFlag_mem (s target hd flag owner) : (sendFlag s target hd flag owner).2.mem = s.mem := sendReq_mem ..

@[simp] theorem sendRoute_mem (id op n va data pay flags s) : (sendRoute id op n va data pay flags s).mem = s.mem := by
  unfold sendRoute
  split
  · simp
  · exact List.foldlRecOn (motive := fun a : List Nat × State => a.2.mem = s.mem) _ _ rfl (fun a ha g _ => by simpa using ha)
  · rfl

@[simp] theorem endWait_mem (s place c res) : (endWait s place c res).mem = s.mem := rfl

@[simp] theorem flagStep_mem (s req fail) : (flagStep s req fail).mem = s.mem := by
  unfold flagStep
  split
  · rfl
  · dsimp only
    split
    · rfl
    · split
      · simp
      · exact foldl_mem _ (fun _ _ => sendFlag_mem ..) _ _

@[simp] theorem answer_mem (s type hd status bs) : (answer s type hd status bs).mem = s.mem := sendPacket_mem ..

/-! ## Lanes -/

theorem sendAgain_all_mem (l : List SentPkt) (u : State) : (l.foldl sendAgain u).mem = u.mem := foldl_mem _ sendAgain_mem _ _

/-! ## The target -/

@[simp] theorem remoteXlat_mem (s ctx va k) : (remoteXlat s ctx va k).2.mem = s.mem := by
  unfold remoteXlat
  split <;> next e => simp [mem_of_snd e]

@[simp] theorem remoteRead_mem (s key pa n) : (remoteRead s key pa n).2.mem = s.mem := homeRead_mem ..

section
variable {s : State} (h : Memory.wf s.mem = true)
include h

@[simp] theorem remoteWrite_wf (key pa bs) : Memory.wf (remoteWrite s key pa bs).mem = true := writeUnits_wf (by exact h) ..

@[simp] theorem remoteIncr_wf (ctx x) : Memory.wf (remoteIncr s ctx x).mem = true := incrAt_wf (by exact h) ..

/-- A request is served by what it performs, at most once. -/
theorem serve_wf (type hd) {perform} (hp : ∀ u, Memory.wf u.mem = true → Memory.wf (perform u).2.mem = true) :
    Memory.wf (serve s type hd perform).mem = true := by
  unfold serve
  refine ite_wf h ?_
  extract_lets x floor x' u r keep
  have hu : Memory.wf u.mem = true := h
  refine ite_wf hu ?_
  split
  · rw [answer_mem]; exact hu
  · rw [answer_mem]; exact hp u hu

@[simp] theorem chunkWrite_wf (ctx source copy va sh bs) : Memory.wf (chunkWrite s ctx source copy va sh bs).2.mem = true := by
  unfold chunkWrite
  split
  · next e => simp [mem_of_snd e, h]
  · next u e =>
    have hu : Memory.wf u.mem = true := by simp [mem_of_snd e, h]
    dsimp only
    split
    · exact hu
    · split
      · exact remoteWrite_wf hu ..
      · split
        · exact hu
        · split
          · exact remoteWrite_wf (by exact hu) ..
          · exact hu

@[simp] theorem packetStores_wf (ctx hd mask image) : Memory.wf (packetStores s ctx hd mask image).2.mem = true := by
  unfold packetStores
  dsimp only
  split
  · exact h
  · split <;> next e => simp [mem_of_snd e, h]

@[simp] theorem ratomLane_wf (ctx x op wide sgn bs l) : Memory.wf (ratomLane ctx x op wide sgn (bs, s) l).2.mem = true :=
  writePa_keeps (by simpa using h) ..

/-! ## Answers and packets -/

@[simp] theorem signalEnd_wf (c ok) : Memory.wf (signalEnd s c ok).mem = true := by simp [signalEnd, h]

@[simp] theorem reqEnd_wf (r status vals) : Memory.wf (reqEnd s r status vals).mem = true := by
  unfold reqEnd
  extract_lets u ok
  have hu : Memory.wf u.mem = true := by simpa [u] using h
  clear_value u
  split
  · dsimp only
    rw [flagStep_mem, remoteAdd_mem]
    split
    · exact hu
    · split <;> simp [hu]
  · exact ite_wf (chunkDone_wf hu ..) (chunkLost_wf hu ..)
  · exact signalEnd_wf hu ..
  · split
    · split
      · exact ite_wf (by exact hu) hu
      · exact hu
    · exact hu
  · exact hu

theorem execRemoteResponse_keeps (hd bytes results) : OutKeeps (execRemoteResponse hd bytes results s) := by
  unfold execRemoteResponse
  split
  · simp [h]
  · split <;> simp [h]

theorem execRemoteAcknowledgement_keeps (hd) : OutKeeps (execRemoteAcknowledgement hd s) := by
  unfold execRemoteAcknowledgement
  split <;> simp [h]

theorem execRemoteTimeout_keeps (target tag) : OutKeeps (execRemoteTimeout target tag s) := by
  unfold execRemoteTimeout
  split <;> simp [h]

theorem execRldPacket_keeps (hd mask) : OutKeeps (execRldPacket hd mask s) := by
  refine outKeeps_next.mpr (serve_wf h _ _ fun u hu => ?_)
  split
  · exact hu
  · split <;> next e => simp [mem_of_snd e, hu]

theorem execRstPacket_keeps (hd mask image) : OutKeeps (execRstPacket hd mask image s) := by
  refine outKeeps_next.mpr (serve_wf h _ _ fun u hu => ?_)
  split
  · exact hu
  · split
    · exact chunkWrite_wf hu ..
    · split <;> next e => simp [mem_of_snd e, hu]

theorem execRstfPacket_keeps (hd mask image flag) : OutKeeps (execRstfPacket hd mask image flag s) := by
  refine outKeeps_next.mpr (serve_wf h _ _ fun u hu => ?_)
  split
  · exact hu
  · split
    · next e => simp [mem_of_snd e, hu]
    · next e => split <;> next e' => simp [mem_of_snd e', mem_of_snd e, hu]

theorem execRatomPacket_keeps (hd lanes) : OutKeeps (execRatomPacket hd lanes s) := by
  unfold execRatomPacket
  split
  · exact outKeeps_next.mpr h
  · refine outKeeps_next.mpr (serve_wf h _ _ fun u hu => ?_)
    split
    · exact hu
    · split
      · next e => simp [mem_of_snd e, hu]
      · next e =>
        dsimp only
        exact List.foldlRecOn (motive := fun a : List Byte × State => Memory.wf a.2.mem = true) _ _
          (by simp [mem_of_snd e, hu]) (fun a ha l _ => ratomLane_wf ha ..)

/-! ## Remote words -/

theorem execRld_keeps (x) : OutKeeps (execRld x s) := issueWord_keeps h fun v hv => by
  dsimp only
  split
  · exact actKeeps_trap
  · exact remoteIssue_keeps hv _ _ _ _ _ _ _ (fun _ _ => foldl_mem _ (fun _ _ => sendReq_mem ..) _ _) (fun _ _ => issuePend_mem ..)

theorem execRst_keeps (x) : OutKeeps (execRst x s) := issueWord_keeps h fun v hv => by
  dsimp only
  split
  · exact actKeeps_trap
  · exact remoteIssue_keeps hv _ _ _ _ _ _ _ (fun _ _ => foldl_mem _ (fun _ _ => by simp) _ _) (fun _ _ => rfl)

theorem execRstf_keeps (x) : OutKeeps (execRstf x s) := issueWord_keeps h fun v hv => by
  dsimp only
  split
  · exact actKeeps_trap
  · exact remoteIssue_keeps hv _ _ _ _ _ _ _ (fun _ _ => foldl_mem _ (fun _ _ => sendRoute_mem ..) _ _) (fun _ _ => rfl)

theorem ratomWord_keeps (op x) : OutKeeps (ratomWord op x s) := issueWord_keeps h fun v hv => by
  dsimp only
  split
  · exact actKeeps_trap
  · exact remoteIssue_keeps hv _ _ _ _ _ _ _ (fun _ _ => foldl_mem _ (fun _ _ => sendReq_mem ..) _ _) (fun _ _ => issuePend_mem ..)

theorem execRfence_keeps : OutKeeps (execRfence s) := issueWord_done_keeps h fun _ => rfl

/-! ## Lanes -/

theorem execLaneTrained_keeps (lane port) : OutKeeps (execLaneTrained lane port s) := by
  refine OutKeeps.ite (outKeeps_next.mpr (linkEvent_wf h ..))
    (OutKeeps.ite (outKeeps_next.mpr h) (outKeeps_next.mpr (linkEvent_wf ?_ ..)))
  exact ite_wf (by rw [sendAgain_all_mem]; exact h) (by exact h)

theorem execLaneDown_keeps (lane) : OutKeeps (execLaneDown lane s) := by
  refine OutKeeps.ite (outKeeps_next.mpr h) (outKeeps_next.mpr (linkEvent_wf ?_ ..))
  rw [sendAgain_all_mem]
  simpa using h

end

end Sys2Proof.Machine
end

section
/-! PROOFS. The memory and the sketches: counters, sketch words, collectives (11 R357-R376). -/

namespace Sys2Proof.Machine

/-! ## What leaves the memory as it is -/

@[simp] theorem nmuXlat_mem (ctx stack va kind s) : (nmuXlat ctx stack va kind s).2.mem = s.mem := by
  unfold nmuXlat
  split <;> next e => simp [mem_of_snd e]

@[simp] theorem nmuGet_mem (s ctx x n) : (nmuGet s ctx x n).2.mem = s.mem := by simp [nmuGet]

@[simp] theorem counterXlat_mem (ctx stack va x kind s) : (counterXlat ctx stack va x kind s).2.mem = s.mem := by
  unfold counterXlat
  split <;> simp

@[simp] theorem baseXlat_mem (s k kind) : (baseXlat s k kind).2.mem = s.mem := by
  unfold baseXlat
  split <;> next e => simp [mem_of_snd e]

@[simp] theorem checkOne_mem (a k j s) : (checkOne a k j s).2.mem = s.mem := by
  unfold checkOne
  split
  · rfl
  · split <;> next e => simp [mem_of_snd e]

@[simp] theorem checkAll_mem (a k l s) : (checkAll a k l s).2.mem = s.mem := by
  induction l generalizing s with
  | nil => rfl
  | cons j t ih =>
    unfold checkAll
    split
    · next e => simp [mem_of_snd e]
    · next e => split <;> next e' => simp [mem_of_snd e', mem_of_snd e, ih]

@[simp] theorem checkPair_mem (a b j s) : (checkPair a b j s).2.mem = s.mem := by
  unfold checkPair
  split
  · split
    · rfl
    · split
      · rfl
      · simp
  · rfl

@[simp] theorem collSend_mem (s hd) : (collSend s hd).mem = s.mem := by
  unfold collSend
  split
  · rfl
  · exact foldl_mem _ (fun _ _ => emit_mem ..) _ _

@[simp] theorem collEnd_mem (s hd ok cause) : (collEnd s hd ok cause).mem = s.mem := by
  unfold collEnd
  split <;> simp

@[simp] theorem collAbort_mem (s hd cause told) : (collAbort s hd cause told).mem = s.mem := by
  unfold collAbort
  split
  · rw [collEnd_mem]
    exact foldl_mem _ (fun _ _ => by split <;> simp) _ _
  · rfl

@[simp] theorem collsGone_mem (s ctx port) : (collsGone s ctx port).mem = s.mem :=
  foldl_mem _ (fun _ _ => by split <;> simp) _ _

@[simp] theorem collQueue_mem (s hd dst seg) : (collQueue s hd dst seg).mem = s.mem := by
  unfold collQueue
  split <;> simp

@[simp] theorem collDone_mem (s hd) : (collDone s hd).mem = s.mem := by
  unfold collDone
  split <;> simp

@[simp] theorem collsSend_mem (s) : (collsSend s).mem = s.mem := foldl_mem _ (fun _ _ => by simp) _ _

variable {s : State} (h : Memory.wf s.mem = true)
include h

/-! ## Counters at a near-memory unit (11 R351-R360, R375) -/

@[simp] theorem nmuPut_wf (ctx x bs) : Memory.wf (nmuPut s ctx x bs).mem = true := (Claims.onlyHome_nmuPut ..).2 h
@[simp] theorem counterEvent_wf (ctx x f) : Memory.wf (counterEvent s ctx x f).mem = true := (Claims.onlyHome_counterEvent ..).2 h
@[simp] theorem postSkips_wf (ctx word m) : Memory.wf (postSkips s ctx word m).mem = true := foldl_wf (fun _ _ h => by simp [h]) h

@[simp] theorem runCounter_wf (t o) : Memory.wf (runCounter t o s).2.mem = true := by
  unfold runCounter
  split
  case h_1 => split <;> next e => simp [mem_of_snd e, h]
  case h_2 =>
    split <;> next e => split <;> next e' => simp [mem_of_snd e', mem_of_snd e, h]
  case h_3 => split <;> next e => simp [mem_of_snd e, h]
  case h_4 => split <;> next e => simp [mem_of_snd e, h]

/-! ## Sketch words (11 R362, R372-R376) -/

theorem execSkupd_keeps (x) : OutKeeps (execSkupd x s) := issueWord_keeps h fun v hv => by
  split
  · exact actKeeps_trap
  · next e => exact issueTx_keeps (by simp [mem_of_snd e, hv]) _ _ fun _ _ => by simp

theorem execSkqry_keeps (x) : OutKeeps (execSkqry x s) := issueWord_keeps h fun v hv => by
  split
  · exact actKeeps_trap
  · next e => exact issueTx_keeps (by simp [mem_of_snd e, hv]) _ _ fun _ _ => by simp

theorem execSkadd_keeps (a b) : OutKeeps (execSkadd a b s) := issueWord_keeps h fun v hv => by
  split
  · exact actKeeps_trap
  · next e => exact issueTx_keeps (by simp [mem_of_snd e, hv]) _ _ fun _ _ => by simp

theorem execSkclr_keeps (a) : OutKeeps (execSkclr a s) := issueWord_keeps h fun v hv => by
  split
  · exact actKeeps_trap
  · next e => exact issueTx_keeps (by simp [mem_of_snd e, hv]) _ _ fun _ _ => by simp

@[simp] theorem answerSketch_wf (id t) : Memory.wf (answerSketch s id t).mem = true := by
  unfold answerSketch
  split <;> simp [h]

theorem execSketchReply_keeps (id) : OutKeeps (execSketchReply id s) := by
  unfold execSketchReply
  split
  · exact outKeeps_next.mpr h
  · refine OutKeeps.ite (OutKeeps.ite (outKeeps_next.mpr (answerSketch_wf h ..)) ?_) (outKeeps_next.mpr h)
    dsimp only
    split
    · exact outKeeps_next.mpr (runCounter_wf (by simpa using h) ..)
    · exact outKeeps_next.mpr h

/-! ## Collectives (11 R363-R365) -/

@[simp] theorem collSkip_wf (hd va cause) : Memory.wf (collSkip s hd va cause).mem = true := by
  unfold collSkip
  split <;> simp [h]

@[simp] theorem collOwn_wf (hd c n) : Memory.wf (collOwn s hd c n).2.mem = true := by
  unfold collOwn
  split <;> next e => simp [mem_of_snd e, h]

@[simp] theorem collFinal_wf (hd n v) : Memory.wf (collFinal s hd n v).mem = true := by
  unfold collFinal
  split
  · refine ite_wf h ?_
    dsimp only
    split <;> next e => simp [mem_of_snd e, h]
  · exact h

@[simp] theorem collAdd_wf (hd n v) : Memory.wf (collAdd s hd n v).2.mem = true := by
  unfold collAdd
  split
  · exact h
  · extract_lets own k sum src u final
    have hu : Memory.wf u.mem = true := by
      dsimp only [u, src, own]
      split
      · exact h
      · exact collOwn_wf h ..
    exact ite_wf (collFinal_wf hu ..) hu

@[simp] theorem collValues_wf (hd final n l) : Memory.wf (collValues hd final n l s).2.mem = true := by
  induction l generalizing n s with
  | nil => exact h
  | cons v t ih =>
    unfold collValues
    refine ih ?_ _
    split
    · exact collFinal_wf h ..
    · exact collAdd_wf h ..

@[simp] theorem collOwns_wf (hd c l) : Memory.wf (collOwns hd c l s).2.mem = true := by
  induction l generalizing s with
  | nil => exact h
  | cons n t ih => exact ih (collOwn_wf h ..)

@[simp] theorem collBegin_wf (hd c) : Memory.wf (collBegin s hd c).mem = true := by
  rw [collBegin, collQueue_mem]
  exact collOwns_wf h ..

@[simp] theorem collTake_wf (hd c seg) : Memory.wf (collTake s hd c seg).mem = true := by
  unfold collTake
  extract_lets r out fin next
  have hr : Memory.wf r.2.mem = true := collValues_wf h ..
  have queued : ∀ dst seg, Memory.wf (collQueue r.2 hd dst seg).mem = true := fun _ _ => by rw [collQueue_mem]; exact hr
  exact ite_wf (ite_wf hr (queued ..)) (ite_wf hr (queued ..))

@[simp] theorem collRun_wf (n hd) : Memory.wf (collRun n s hd).mem = true := by
  induction n generalizing s with
  | zero => exact h
  | succ n ih =>
    unfold collRun
    split
    · exact h
    · split
      · exact h
      · exact ih (collTake_wf (by exact h) ..)

theorem execCollectiveCheckExchange_keeps (node nb) : OutKeeps (execCollectiveCheckExchange node nb s) := by
  unfold execCollectiveCheckExchange
  split
  · simp [h]
  · split
    · simp [h]
    · refine OutKeeps.ite (by simp [h]) (OutKeeps.ite (by simp [h]) (OutKeeps.ite (by simp [h]) (outKeeps_next.mpr (ite_wf ?_ h))))
      rw [collDone_mem]
      exact collRun_wf (collBegin_wf (by exact h) ..) ..

theorem execCollectiveSegmentReceive_keeps (node seg) : OutKeeps (execCollectiveSegmentReceive node seg s) := by
  unfold execCollectiveSegmentReceive
  split
  · simp [h]
  · refine OutKeeps.ite (by simp [h]) (outKeeps_next.mpr (ite_wf h ?_))
    rw [collDone_mem]
    exact collRun_wf (by exact h) ..

end Sys2Proof.Machine
end

section
/-! PROOFS. The memory and the ports: buckles, flits, stripes, the controller, port states (15 R457-R469, 16 R471-R477, R501). -/

namespace Sys2Proof.Machine

/-! ## What leaves the memory as it is -/

@[simp] theorem sendCtl_mem (s op m) : (sendCtl s op m).mem = s.mem := by simp [sendCtl]

@[simp] theorem circuitFree_mem (s p) : (circuitFree s p).mem = s.mem := by
  unfold circuitFree
  split <;> simp

@[simp] theorem chunkReport_mem (s p copy va status) : (chunkReport s p copy va status).mem = s.mem := sendControl_mem ..

@[simp] theorem ackFlits_mem (s p ack) : (ackFlits s p ack).mem = s.mem := by
  unfold ackFlits
  dsimp only
  split <;> simp

@[simp] theorem resendFlits_mem (s p) : (resendFlits s p).mem = s.mem := foldl_mem _ (fun _ _ => by simp) _ _
@[simp] theorem askReplay_mem (s p) : (askReplay s p).mem = s.mem := sendControl_mem ..

@[simp] theorem startRestripe_mem (s p tx) : (startRestripe s p tx).mem = s.mem := by
  unfold startRestripe
  dsimp only
  split <;> simp

@[simp] theorem queueRestripe_mem (s p tx r) : (queueRestripe s p tx r).mem = s.mem := by simp [queueRestripe]
@[simp] theorem wakeChans_mem (s p chans) : (wakeChans s p chans).mem = s.mem := rfl
@[simp] theorem grantCircuit_mem (s p c) : (grantCircuit s p c).mem = s.mem := rfl

variable {s : State} (h : Memory.wf s.mem = true)
include h

/-! ## Buckles and circuits (16 R474, R477) -/

@[simp] theorem untie_wf (n) : Memory.wf (untie s n).mem = true := by simp [untie, h]
@[simp] theorem untiePort_wf (p) : Memory.wf (untiePort s p).mem = true := foldl_wf (fun _ _ h => by simp [h]) h

@[simp] theorem fasten_wf (p v) : Memory.wf (fasten s p v).mem = true := by
  unfold fasten
  extract_lets ns u t
  have ht : Memory.wf t.mem = true := foldl_wf (fun _ _ hu => by simp [hu]) (by exact h)
  exact ite_wf (by rw [collsSend_mem]; exact ht) ht

@[simp] theorem failCircuit_wf (p cause) : Memory.wf (failCircuit s p cause).mem = true := by
  unfold failCircuit
  split
  · refine ite_wf ?_ h
    rw [collsGone_mem]
    exact untiePort_wf (by simpa using h) ..
  · exact h

@[simp] theorem portSignals_wf (p) : Memory.wf (portSignals s p).mem = true := foldl_wf (fun _ _ h => by simp [h]) h
@[simp] theorem goDark_wf (p failed) : Memory.wf (goDark s p failed).mem = true := by simp [goDark, h]

@[simp] theorem drainPort_wf (p repeated) : Memory.wf (drainPort s p repeated).mem = true := by
  unfold drainPort
  refine ite_wf h ?_
  rw [sendControl_mem]
  exact fasten_wf (by simpa using h) ..

@[simp] theorem failPort_wf (p dir) : Memory.wf (failPort s p dir).mem = true :=
  goDark_wf (failCircuit_wf (linkEvent_wf h ..) ..) ..

/-! ## Received flits and frames (15 R457-R460) -/

@[simp] theorem frameIn_wf (p bs) : Memory.wf (frameIn s p bs).mem = true := by
  unfold frameIn
  extract_lets w va copy peer
  split
  · simpa using h
  · split
    · split <;> next e => simp [mem_of_snd e, h]
    · dsimp only
      rw [chunkReport_mem]
      exact ite_wf (chunkWrite_wf h ..) (chunkWrite_wf h ..)

@[simp] theorem framesIn_wf (p n) : Memory.wf (framesIn p n s).mem = true := by
  induction n generalizing s with
  | zero => exact h
  | succ n ih =>
    unfold framesIn
    refine ite_wf h ?_
    split
    · exact ih (by simpa using h)
    · exact ite_wf h (ih (frameIn_wf (by simpa using h) ..))

@[simp] theorem flitOk_wf (p bs) : Memory.wf (flitOk s p bs).2.mem = true := by
  unfold flitOk
  dsimp only
  split
  · exact h
  · split
    · exact h
    · split <;> simp [h]

theorem execDataFlit_keeps (port bytes) : OutKeeps (execDataFlit port bytes s) := by
  unfold execDataFlit
  extract_lets r u
  have hu : Memory.wf u.mem = true := flitOk_wf h ..
  refine OutKeeps.ite (outKeeps_next.mpr hu) ?_
  split
  · simp [hu]
  · extract_lets t v v'
    have ht : Memory.wf t.mem = true := ite_wf (by simpa using hu) hu
    have hv : Memory.wf v'.mem = true := framesIn_wf (by simpa [v] using ht) ..
    exact OutKeeps.ite (by simp [ht]) (by simp [hv])

theorem execAcknowledgementFlit_keeps (port bytes) : OutKeeps (execAcknowledgementFlit port bytes s) := by
  unfold execAcknowledgementFlit
  split <;> next e => simp [mem_of_snd e, h]

theorem execReplay_keeps (port seq) : OutKeeps (execReplay port seq s) := by simpa [execReplay] using h
theorem execReplayTimeout_keeps (port) : OutKeeps (execReplayTimeout port s) := by simpa [execReplayTimeout] using h

theorem execControlFlitRepeat_keeps (port) : OutKeeps (execControlFlitRepeat port s) :=
  outKeeps_next.mpr (foldl_wf (fun _ _ hu => by simp [hu]) h)

theorem execChunkDone_keeps (port handle frame) : OutKeeps (execChunkDone port handle frame s) := by
  unfold execChunkDone
  dsimp only
  split
  · simp [h]
  · refine OutKeeps.ite (by simp [h]) (OutKeeps.ite (by simp [h]) ?_)
    split <;> simp [h]

/-! ## Stripes (15 R461-R466) -/

@[simp] theorem parkDone_wf (p) : Memory.wf (parkDone s p).mem = true := by
  unfold parkDone
  extract_lets x
  split
  · exact h
  · dsimp only
    rw [startRestripe_mem]
    exact foldl_wf (fun _ _ hu => linkEvent_wf hu ..) (by simpa using h)

theorem execRestripe_keeps (port byTx stripe seq) : OutKeeps (execRestripe port byTx stripe seq s) := by
  unfold execRestripe
  extract_lets x gone u before gone' u' t n v
  have hv : Memory.wf v.mem = true := linkEvent_wf (by simpa [t, u'] using h) ..
  refine OutKeeps.ite (by simp [h]) (OutKeeps.ite (by simp [u, h]) ?_)
  split
  · exact outKeeps_next.mpr (ite_wf (parkDone_wf hv ..) hv)
  · exact outKeeps_next.mpr hv

theorem execRestripeAck_keeps (port byTx) : OutKeeps (execRestripeAck port byTx s) :=
  OutKeeps.ite (by simp [h]) (OutKeeps.ite (by simp [h]) (by simp [h]))

theorem execLossOfLight_keeps (port lost lit) : OutKeeps (execLossOfLight port lost lit s) := by
  unfold execLossOfLight
  extract_lets x before gone left u t
  have hu : Memory.wf u.mem = true := by simpa [u] using h
  have ht : Memory.wf t.mem = true := linkEvent_wf hu ..
  refine OutKeeps.ite (by simp [h]) (OutKeeps.ite (by simp [hu]) (OutKeeps.ite (by simp [ht]) (OutKeeps.ite ?_ (by simp [ht]))))
  exact outKeeps_next.mpr (failPort_wf (ite_wf (by simpa using ht) ht) ..)

theorem execPortFail_keeps (port) : OutKeeps (execPortFail port s) :=
  OutKeeps.ite (by simp [h]) (by simp [h])

theorem execReceiveSilence_keeps (port) : OutKeeps (execReceiveSilence port s) :=
  OutKeeps.ite (by simp [h]) (by simp [h])

theorem execWakeLock_keeps (port channel locked) : OutKeeps (execWakeLock port channel locked s) := by
  simpa [execWakeLock] using h

theorem execWakeReady_keeps (port stripe) : OutKeeps (execWakeReady port stripe s) := by
  unfold execWakeReady
  refine OutKeeps.ite (by simp [h]) (outKeeps_next.mpr (foldl_wf (fun u k hu => linkEvent_wf ?_ ..) (by simpa using h)))
  exact ite_wf (linkEvent_wf hu ..) hu

theorem execWakeTimeout_keeps (port channel) : OutKeeps (execWakeTimeout port channel s) := by
  unfold execWakeTimeout
  dsimp only
  split <;> simp [h]

theorem execLightReturns_keeps (port wl rx) : OutKeeps (execLightReturns port wl rx s) := by simpa [execLightReturns] using h
theorem execAutoWake_keeps (port) : OutKeeps (execAutoWake port s) := by simpa [execAutoWake] using h

/-! ## Registers, the controller, port states (15 R467-R469, 16 R471-R476, R501) -/

theorem execLaserRefresh_keeps (port channel x) : OutKeeps (execLaserRefresh port channel x s) := by
  unfold execLaserRefresh
  dsimp only
  split <;> simp [h]

theorem execManagementRead_keeps (hd port off) : OutKeeps (execManagementRead hd port off s) :=
  OutKeeps.ite (by simp [h]) (outKeeps_next.mpr (serve_wf h _ _ fun _ hu => hu))

theorem execManagementWrite_keeps (hd off v) : OutKeeps (execManagementWrite hd off v s) :=
  OutKeeps.ite (by simp [h]) (outKeeps_next.mpr (serve_wf h _ _ fun _ hu => ite_wf (by exact hu) hu))

theorem execControllerGrant_keeps (m) : OutKeeps (execControllerGrant m s) := by
  unfold execControllerGrant
  refine OutKeeps.ite (by simp [h]) ?_
  dsimp only
  split
  · exact OutKeeps.ite (by simp [h]) (OutKeeps.ite (by simp [h]) (by simp [h]))
  · refine OutKeeps.ite (by simp [h]) ?_
    split
    · exact OutKeeps.ite (by simp [h]) (by simp [h])
    · simp [h]

@[simp] theorem ctlFail_wf (m cause) : Memory.wf (ctlFail s m cause).mem = true := by
  unfold ctlFail
  extract_lets e
  split
  · exact ite_wf (failCircuit_wf (ite_wf (drainPort_wf h ..) h) ..) h
  · exact h

theorem execControllerDeny_keeps (m) : OutKeeps (execControllerDeny m s) := outKeeps_next.mpr (ite_wf (ctlFail_wf h ..) h)
theorem execControllerFail_keeps (m) : OutKeeps (execControllerFail m s) := outKeeps_next.mpr (ite_wf (ctlFail_wf h ..) h)

theorem execControllerReleased_keeps (m) : OutKeeps (execControllerReleased m s) := by
  unfold execControllerReleased
  extract_lets e u
  have hu : Memory.wf u.mem = true := ctlFail_wf h ..
  refine OutKeeps.ite (by simp [h]) ?_
  split
  · exact OutKeeps.ite (by simp [hu]) (by simp [hu])
  · simp [hu]

theorem execRequestSilence_keeps (port) : OutKeeps (execRequestSilence port s) := by
  unfold execRequestSilence
  split
  · exact OutKeeps.ite (by simp [h]) (by simp [h])
  · simp [h]

theorem execPortLocked_keeps (port) : OutKeeps (execPortLocked port s) := by simpa [execPortLocked] using h

theorem execLockTimeout_keeps (port) : OutKeeps (execLockTimeout port s) :=
  OutKeeps.ite (by simp [h]) (by simp [h])

theorem execPortTrained_keeps (port peer tx rx) : OutKeeps (execPortTrained port peer tx rx s) :=
  OutKeeps.ite (by simp [h]) (OutKeeps.ite (by simp [h]) (by simp [h]))

theorem execPortLive_keeps (port) : OutKeeps (execPortLive port s) :=
  OutKeeps.ite (by simp [h]) (outKeeps_next.mpr (fasten_wf (by simpa using h) ..))

theorem execPortDrained_keeps (port) : OutKeeps (execPortDrained port s) := by simp [execPortDrained, h]
theorem execDrainTimeout_keeps (port) : OutKeeps (execDrainTimeout port s) := by simp [execDrainTimeout, h]

theorem execClose_keeps (port) : OutKeeps (execClose port s) := by
  unfold execClose
  extract_lets x u
  have hu : Memory.wf u.mem = true := by simpa [u] using h
  split
  · refine OutKeeps.ite (by simp [hu]) (OutKeeps.ite (by simp [h]) (by simp [h]))
  · simp [h]

end Sys2Proof.Machine
end

section
/-! PROOFS. The memory and the fabric sequencer: scripts and the Cratch words (16 R478-R484). -/

namespace Sys2Proof.Machine

/-! ## What leaves the memory as it is -/

@[simp] theorem scriptFault_mem (s place cause) : (scriptFault s place cause).mem = s.mem := by
  unfold scriptFault
  split <;> simp

@[simp] theorem passC_mem (s c) : (passC s c).mem = s.mem := rfl

theorem mailPut_mem {s ctx box v u} (e : mailPut s ctx box v = some u) : u.mem = s.mem := by
  unfold mailPut at e
  split at e
  · dsimp only at e
    split at e
    · cases e
    · cases e
      exact updCtx_mem ..
  · cases e

@[simp] theorem finishWait_mem (s place x w r) : (finishWait s place x w r).mem = s.mem := by
  unfold finishWait
  split <;> simp

variable {s : State} (h : Memory.wf s.mem = true)
include h

/-! ## Words -/

/-- A Cratch word keeps the memory in form when what it does to the script's state does. -/
theorem cratch_keeps {f} (hf : ∀ x u, Memory.wf u.mem = true → Memory.wf (f x u).mem = true) : OutKeeps (cratch f s) := by
  unfold cratch
  split
  · exact outKeeps_next.mpr (ite_wf h (hf _ _ h))
  · exact outKeeps_next.mpr h

theorem cratchOwn_keeps (f) : OutKeeps (cratchOwn f s) := cratch_keeps h fun _ u hu => by simpa using hu

theorem cratchBranch_keeps (take off) : OutKeeps (cratchBranch take off s) := cratch_keeps h fun _ u hu =>
  ite_wf (by simpa using hu) (ite_wf (by simpa using hu) (by simpa using hu))

theorem execCreq_keeps (qd qa) : OutKeeps (execCreq qd qa s) := cratch_keeps h fun _ u hu =>
  ite_wf (by simpa using hu) (by simpa using hu)

@[simp] theorem releaseCircuit_wf (p c) : Memory.wf (releaseCircuit s p c).mem = true := by
  unfold releaseCircuit
  extract_lets rel u t
  split
  · simpa [rel] using h
  · have hu : Memory.wf u.mem = true := by
      dsimp only [u]
      rw [collsGone_mem]
      exact untiePort_wf (drainPort_wf (by simpa [rel] using h) ..) ..
    rw [sendCtl_mem]
    exact hu
  · have ht : Memory.wf t.mem = true := ite_wf h (by simpa using h)
    exact ite_wf ht (by simpa [rel] using ht)
  · exact h

theorem execCrel_keeps (qa) : OutKeeps (execCrel qa s) := cratch_keeps h fun _ u hu => by
  dsimp only
  split
  · exact releaseCircuit_wf (by simpa using hu) ..
  · simpa using hu

theorem execBuck_keeps (qa qb) : OutKeeps (execBuck qa qb s) := cratch_keeps h fun _ u hu => by
  extract_lets n p v live f src w t
  have hv : Memory.wf v.mem = true := untie_wf (by exact hu) ..
  have hw : Memory.wf w.mem = true := hv
  have ht : Memory.wf t.mem = true := testCopies_wf (testBkws_wf hw ..) ..
  refine ite_wf (by simpa using hu) ?_
  split
  · exact ite_wf (ite_wf (by simpa using ht) ht) (by simpa using hu)
  · simpa using hu

theorem execBuckOff_keeps (qa) : OutKeeps (execBuckOff qa s) := cratch_keeps h fun _ u hu =>
  ite_wf (by simpa using hu) (untie_wf (by simpa using hu) ..)

theorem execPark_keeps (qa qb) : OutKeeps (execPark qa qb s) := cratch_keeps h fun _ u hu =>
  ite_wf (by simpa using hu) (ite_wf (by simpa using hu) (by simpa using hu))

theorem execWake_keeps (qa qb) : OutKeeps (execWake qa qb s) := cratch_keeps h fun _ u hu =>
  ite_wf (by simpa using hu) (by simpa using hu)

theorem execSetw_keeps (qa qb) : OutKeeps (execSetw qa qb s) := cratch_keeps h fun _ u hu =>
  ite_wf (by simpa using hu) (by simpa using hu)

/-! ## Messages, waits and the end -/

theorem execMsg_keeps (qa qb) : OutKeeps (execMsg qa qb s) := cratch_keeps h fun _ u hu => by
  refine ite_wf (by simpa using hu) (ite_wf (by simpa using hu) ?_)
  dsimp only
  split
  · split
    · split
      · next e => simpa [mailPut_mem e] using hu
      · simpa using hu
    · simpa using hu
  · simpa using hu

theorem execCratchMsg_keeps (hd box v) : OutKeeps (execCratchMsg hd box v s) := by
  refine outKeeps_next.mpr (serve_wf h _ _ fun u hu => ?_)
  split
  · exact hu
  · split
    · next e => simpa [mailPut_mem e] using hu
    · exact hu

theorem cratchWait_keeps (w) : OutKeeps (cratchWait w s) := cratch_keeps h fun _ u hu => by
  split <;> simpa using hu

theorem execCratchWaitEnd_keeps (place) : OutKeeps (execCratchWaitEnd place s) := by
  unfold execCratchWaitEnd
  split
  · split
    · split <;> simpa using h
    · simpa using h
  · simpa using h

theorem execTsig_keeps (qa qb) : OutKeeps (execTsig qa qb s) := cratch_keeps h fun _ u hu => by simpa using hu
theorem execEvt_keeps (qa) : OutKeeps (execEvt qa s) := cratch_keeps h fun _ u hu => postEvent_wf (by simpa using hu) ..
theorem execEndScript_keeps : OutKeeps (execEndScript s) := cratch_keeps h fun _ u hu => by simpa using hu

theorem execScriptStart_keeps : OutKeeps (execScriptStart s) := by
  unfold execScriptStart
  split
  · simp [h]
  · dsimp only
    split
    · simp [h]
    · refine OutKeeps.ite (by simp [h]) ?_
      split <;> next e => simp [mem_of_snd e, h]

end Sys2Proof.Machine
end

section
/-! PROOFS. The memory and the near-memory units: programs, their words, load and save (11 R350-R356, R366-R371). -/

namespace Sys2Proof.Machine

/-! ## What leaves the memory as it is -/

@[simp] theorem putProg_mem (s stack place p) : (putProg s stack place p).mem = s.mem := rfl
@[simp] theorem freePlace_mem (s stack place) : (freePlace s stack place).mem = s.mem := rfl

@[simp] theorem readKept_mem (ctx ps l s) : (readKept ctx ps l s).2.mem = s.mem := by
  induction l generalizing s with
  | nil => rfl
  | cons q t ih => exact (ih _).trans (nmuGet_mem ..)

@[simp] theorem resumeProg_mem (s p words) : (resumeProg s p words).2.mem = s.mem := readKept_mem ..

/-- An NMU word keeps the memory in form where it goes on with a state. -/
def NActKeeps : NAct → Prop
  | .pass _ t => Memory.wf t.mem = true
  | .jump _ t => Memory.wf t.mem = true
  | .fault _ _ => True

theorem NActKeeps.ite {c : Prop} [Decidable c] {a b : NAct} (ha : NActKeeps a) (hb : NActKeeps b) : NActKeeps (if c then a else b) := by
  split
  · exact ha
  · exact hb

variable {s : State} (h : Memory.wf s.mem = true)
include h

/-! ## Programs -/

@[simp] theorem drainEvent_wf (p) : Memory.wf (drainEvent p s).2.mem = true := (Claims.onlyHome_drainEvent ..).2 h

@[simp] theorem nmuFail_wf (stack place p cause va) : Memory.wf (nmuFail s stack place p cause va).mem = true := by
  simp [nmuFail, h]

@[simp] theorem nmuFault_wf (stack place p cause va) : Memory.wf (nmuFault s stack place p cause va).mem = true := by
  simp [nmuFault, h]

@[simp] theorem nmuFaultTurn_wf (stack place p cause va) : Memory.wf (nmuFaultTurn s stack place p cause va).mem = true := by
  simp [nmuFaultTurn, h]

theorem nmuWord_keeps {f} (hf : ∀ p u, Memory.wf u.mem = true → NActKeeps (f p u)) : OutKeeps (nmuWord f s) := by
  unfold nmuWord
  split
  · simp [h]
  · next p _ =>
    refine OutKeeps.ite (by simp [h]) ?_
    extract_lets u
    have hu : Memory.wf u.mem = true := by simpa [u] using h
    have k := hf p u hu
    split
    · next e => rw [e] at k; simpa [NActKeeps] using k
    · next e => rw [e] at k; simpa [NActKeeps] using k
    · simp [hu]

theorem nmuDrained_keeps {f} (hf : ∀ p u, Memory.wf u.mem = true → NActKeeps (f p u)) : OutKeeps (nmuDrained f s) :=
  nmuWord_keeps h fun p u hu => NActKeeps.ite (drainEvent_wf hu p) (hf p u hu)

theorem nmuOwn_keeps (f) : OutKeeps (nmuOwn f s) := nmuWord_keeps h fun _ _ hu => hu

/-! ## Addresses and vector words (11 R351, R371) -/

@[simp] theorem nmuPages_wf (ctx stack k l) : Memory.wf (nmuPages ctx stack k l s).2.mem = true := (Claims.onlyHome_nmuPages ..).2 h

theorem withPages_keeps (ctx k va n) {f} (hf : ∀ ps u, Memory.wf u.mem = true → NActKeeps (f ps u)) :
    NActKeeps (withPages ctx k va n s f) := by
  unfold withPages
  split
  · trivial
  · next e => exact hf _ _ (by simp [mem_of_snd e, h])

@[simp] theorem nmuReads_wf (ctx ps va n) : Memory.wf (nmuReads ctx ps va n s).2.mem = true := (Claims.onlyHome_nmuReads ..).2 h
@[simp] theorem nmuWrites_wf (ctx ps va l) : Memory.wf (nmuWrites ctx ps va l s).mem = true := (Claims.onlyHome_nmuWrites ..).2 h

theorem withDesc_keeps (p va) {f} (hf : ∀ k u, Memory.wf u.mem = true → NActKeeps (f k u)) : NActKeeps (withDesc p va s f) := by
  unfold withDesc
  split
  · trivial
  · next e => exact hf _ _ ((Claims.onlyHome_nmuSketch e).2 h)

theorem withCounters_keeps (p kind k) {f} (hf : ∀ ps u, Memory.wf u.mem = true → NActKeeps (f ps u)) :
    NActKeeps (withCounters p kind k s f) := withPages_keeps h _ _ _ _ hf

theorem execNldv_keeps (x) : OutKeeps (execNldv x s) := nmuWord_keeps h fun _ _ hu =>
  NActKeeps.ite trivial (withPages_keeps hu _ _ _ _ fun _ _ hv => nmuReads_wf hv ..)

theorem execNstv_keeps (x) : OutKeeps (execNstv x s) := nmuWord_keeps h fun _ _ hu =>
  NActKeeps.ite trivial (withPages_keeps hu _ _ _ _ fun _ _ hv => nmuWrites_wf hv ..)

/-! ## Sketch words and control (11 R368, R369) -/

theorem execNsku_keeps (g ak ad n) : OutKeeps (execNsku g ak ad n s) := nmuWord_keeps h fun _ _ hu =>
  NActKeeps.ite (drainEvent_wf hu _) (withDesc_keeps hu _ _ fun _ _ hv => withCounters_keeps hv _ _ _ fun _ _ hw => hw)

@[simp] theorem nmuQueries_wf (ctx ps k key l) : Memory.wf (nmuQueries ctx ps k key l s).2.mem = true := (Claims.onlyHome_nmuQueries ..).2 h

theorem execNskq_keeps (g ak ad n) : OutKeeps (execNskq g ak ad n s) := nmuDrained_keeps h fun _ _ hu =>
  withDesc_keeps hu _ _ fun _ _ hv => withCounters_keeps hv _ _ _ fun _ _ hw => nmuQueries_wf hw ..

@[simp] theorem nmuAdds_wf (ctx px py x y) : Memory.wf (nmuAdds ctx px py x y s).mem = true := (Claims.onlyHome_nmuAdds ..).2 h

theorem execNska_keeps (ad as) : OutKeeps (execNska ad as s) := nmuDrained_keeps h fun _ _ hu =>
  withDesc_keeps hu _ _ fun _ _ hv => withDesc_keeps hv _ _ fun _ _ hw => NActKeeps.ite trivial
    (withCounters_keeps hw _ _ _ fun _ _ hx => withCounters_keeps hx _ _ _ fun _ _ hy => nmuAdds_wf hy ..)

theorem execNskc_keeps (ad) : OutKeeps (execNskc ad s) := nmuDrained_keeps h fun _ _ hu =>
  withDesc_keeps hu _ _ fun _ _ hv => withCounters_keeps hv _ _ _ fun _ _ hw => nmuWrites_wf hw ..

theorem nmuLoop_keeps (count off) : OutKeeps (nmuLoop count off s) := nmuWord_keeps h fun _ _ hu =>
  NActKeeps.ite trivial (NActKeeps.ite hu (NActKeeps.ite trivial hu))

theorem execNbra_keeps (cond a off) : OutKeeps (execNbra cond a off s) := nmuWord_keeps h fun _ _ hu =>
  NActKeeps.ite hu (NActKeeps.ite trivial hu)

/-! ## Synchronisation, load and save (11 R354, R355, R370) -/

theorem execNwait_keeps (a b) : OutKeeps (execNwait a b s) := nmuWord_keeps h fun _ u hu => by
  refine NActKeeps.ite trivial ?_
  split
  · trivial
  · next v e =>
    have hv : Memory.wf v.mem = true := by simp [mem_of_snd e, hu]
    exact NActKeeps.ite (by simpa [NActKeeps] using hv) (by simpa [NActKeeps] using hv)

theorem execNwaitRelease_keeps (stack place) : OutKeeps (execNwaitRelease stack place s) := by
  unfold execNwaitRelease
  split
  · split <;> simp [h]
  · simp [h]

theorem execNsig_keeps (a) : OutKeeps (execNsig a s) := nmuDrained_keeps h fun _ _ hu => by simpa [NActKeeps] using hu
theorem execNfence_keeps : OutKeeps (execNfence s) := nmuDrained_keeps h fun _ _ hu => hu

theorem execNend_keeps : OutKeeps (execNend s) := by
  unfold execNend
  split <;> simp [h]

@[simp] theorem writeKept_wf (ctx ps l bs) : Memory.wf (writeKept ctx ps l bs s).mem = true := by
  induction l generalizing bs s with
  | nil => exact h
  | cons q t ih => exact ih (nmuPut_wf h ..) _

@[simp] theorem writeSave_wf (p) : Memory.wf (writeSave s p).mem = true := writeKept_wf h ..

theorem execNmuNodeLoad_keeps (stack) : OutKeeps (execNmuNodeLoad stack s) := by
  unfold execNmuNodeLoad
  extract_lets u
  split
  · simp [h]
  · extract_lets v
    have hv : Memory.wf v.mem = true := by simpa [v] using h
    refine OutKeeps.ite (by simp [h]) ?_
    split
    · next e =>
      dsimp only
      split <;> simp [mem_of_snd e, hv]
    · next e => simp [mem_of_snd e, hv]

theorem execNmuProgramSave_keeps (stack place) : OutKeeps (execNmuProgramSave stack place s) := by
  unfold execNmuProgramSave
  split
  · simp [h]
  · extract_lets r u q
    have hr : Memory.wf r.2.mem = true := drainEvent_wf h ..
    have hu : Memory.wf u.mem = true := by
      rw [freePlace_mem]
      exact writeSave_wf h _
    exact OutKeeps.ite (outKeeps_next.mpr h) (OutKeeps.ite (outKeeps_next.mpr (by rw [putProg_mem]; exact hr))
      (outKeeps_next.mpr (by rw [updNmu_mem]; exact hu)))

end Sys2Proof.Machine
end

section
/-! PROOFS. The memory and the graphs: load, the start and the end of nodes (12 R382-R387, R502). -/

namespace Sys2Proof.Machine

/-! ## What leaves the memory as it is -/

@[simp] theorem readList_mem (s ctx va) : (readList s ctx va).2.mem = s.mem := by
  unfold readList
  split
  · rfl
  · split
    · next e => simp [mem_of_snd e]
    · next e =>
      dsimp only
      split
      · simp [mem_of_snd e]
      · split <;> next e' => simp [mem_of_snd e', mem_of_snd e]

@[simp] theorem startCopy_mem (s ctx hd p ch) : (startCopy s ctx hd p ch).2.mem = s.mem := by
  unfold startCopy
  extract_lets c
  split
  · rfl
  · split <;> rfl

@[simp] theorem collStack.areaStack_mem (ctx scratch s) : (collStack.areaStack ctx scratch s).2.mem = s.mem := by
  unfold collStack.areaStack
  split <;> next e => simp [mem_of_snd e]

@[simp] theorem collStack_mem (s ctx base scratch) : (collStack s ctx base scratch).2.mem = s.mem := by
  unfold collStack
  split
  · next e =>
    dsimp only
    split <;> simp [mem_of_snd e]
  · next e => simp [mem_of_snd e]

@[simp] theorem beginColl_mem (s hd c) : (beginColl s hd c).mem = s.mem := foldl_mem _ (fun _ _ => by simp) _ _

@[simp] theorem startScript_mem (s ctx hd order p) : (startScript s ctx hd order p).2.mem = s.mem := by
  unfold startScript
  split <;> rfl

@[simp] theorem readNode_mem (s ctx e) : (readNode s ctx e).2.mem = s.mem := by
  unfold readNode
  split
  · next e => simp [mem_of_snd e]
  · next e => split <;> next e' => simp [mem_of_snd e', mem_of_snd e]

@[simp] theorem nodeDone_mem (s slot index g n) : (nodeDone s slot index g n).mem = s.mem := foldl_mem _ (fun _ _ => by simp) _ _
@[simp] theorem nodeEnded_mem (s g) : (nodeEnded s g).mem = s.mem := by simp [nodeEnded]

variable {s : State} (h : Memory.wf s.mem = true)
include h

/-! ## Nodes -/

theorem execGraphLoad_keeps (launch) : OutKeeps (execGraphLoad launch s) := by
  unfold execGraphLoad
  split
  · simp [h]
  · refine OutKeeps.ite (by simp [h]) ?_
    split <;> next e => simp [mem_of_snd e, h]

@[simp] theorem nodeFail_wf (slot idx reason va) : Memory.wf (nodeFail s slot idx reason va).mem = true := by
  unfold nodeFail
  split <;> simp [h]

@[simp] theorem startNearmem_wf (ctx hd order p) : Memory.wf (startNearmem s ctx hd order p).2.mem = true := by
  unfold startNearmem
  extract_lets stack
  split
  · exact h
  · split
    · next e => simp [mem_of_snd e, h]
    · next e =>
      refine (congrArg Memory.wf (updNmu_mem ..)).trans ?_
      simp [mem_of_snd e, h]

@[simp] theorem startCollective_wf (ctx hd va p) : Memory.wf (startCollective s ctx hd va p).2.mem = true := by
  unfold startCollective
  extract_lets n self
  split
  · exact h
  · split
    · next e => simp [mem_of_snd e, h]
    · next e₁ =>
      split
      · next e => simp [mem_of_snd e, mem_of_snd e₁, h]
      · next e₂ =>
        dsimp only
        split
        · simp [mem_of_snd e₂, mem_of_snd e₁, h]
        · split
          · simp [mem_of_snd e₂, mem_of_snd e₁, h]
          · split
            · next e => simp [mem_of_snd e, mem_of_snd e₂, mem_of_snd e₁, h]
            · next e₃ => split <;> next e => simp [mem_of_snd e, mem_of_snd e₃, mem_of_snd e₂, mem_of_snd e₁, h]

@[simp] theorem startAgent_wf (ctx hd order q type va p) : Memory.wf (startAgent s ctx hd order q type va p).2.mem = true := by
  unfold startAgent
  split
  · split
    · exact h
    · split <;> simp [h]
  · exact startNearmem_wf h ..
  · simp [h]
  · exact startCollective_wf h ..
  · simp [h]
  · split <;> simp [h]
  · split <;> exact h

theorem execNodeStart_keeps (slot idx) : OutKeeps (execNodeStart slot idx s) := by
  unfold execNodeStart
  split
  · simp [h]
  · split
    · simp [h]
    · refine OutKeeps.ite (by simp [h]) (OutKeeps.ite (by simp [h]) ?_)
      split
      · next e => simp [mem_of_snd e, h]
      · next e => split <;> next e' => simp [mem_of_snd e', mem_of_snd e, h]

@[simp] theorem hostSig_wf (ctx p) : Memory.wf (hostSig s ctx p).2.mem = true := by
  unfold hostSig
  dsimp only
  split
  · next e => split <;> simp [mem_of_snd e, h]
  · next e => simp [mem_of_snd e, h]

theorem execNodeEnd_keeps (slot idx) : OutKeeps (execNodeEnd slot idx s) := by
  unfold execNodeEnd
  split
  · simp [h]
  · split
    · simp [h]
    · split
      · simp [h]
      · simp [h]
      · refine OutKeeps.ite (by simp [h]) ?_
        split <;> next e => simp [mem_of_snd e, h]
      · simp [h]

theorem execGraphComplete_keeps (slot) : OutKeeps (execGraphComplete slot s) := by
  unfold execGraphComplete
  split
  · exact outKeeps_next.mpr h
  · refine OutKeeps.ite (outKeeps_next.mpr h) (outKeeps_next.mpr ?_)
    simp [h]

end Sys2Proof.Machine
end

section
/-! PROOFS. The memory, the matrix passes and the system words (10 R319-R349, 14 R426, R435-R439). -/

namespace Sys2Proof.Machine

/-! ## What leaves the memory as it is -/

@[simp] theorem postPass_mem (s cl e rank x desc members) : (postPass s cl e rank x desc members).2.mem = s.mem := rfl

@[simp] theorem releaseMember_mem (hn ticket d s p) : (releaseMember hn ticket d s p).mem = s.mem := by
  unfold releaseMember
  extract_lets w m u
  have hu : u.mem = s.mem := by
    dsimp only [u]
    split
    · rfl
    · exact updWarp_mem ..
  exact (foldl_mem _ (fun _ _ => by split <;> simp) _ _).trans hu

@[simp] theorem tileEnter_mem (s slots) : (tileEnter s slots).mem = s.mem := by
  unfold tileEnter
  split <;> rfl

@[simp] theorem tileLeave_mem (s) : (tileLeave s).mem = s.mem := rfl
@[simp] theorem publish_mem (s ctx g tag) : (publish s ctx g tag).mem = s.mem := rfl
@[simp] theorem dropTlb_mem (s p) : (dropTlb s p).mem = s.mem := rfl

variable {s : State} (h : Memory.wf s.mem = true)
include h

/-! ## Passes (10 R331-R349) -/

theorem execPassGrant_keeps (cluster) : OutKeeps (execPassGrant cluster s) := by
  unfold execPassGrant
  refine OutKeeps.ite (outKeeps_next.mpr h) ?_
  split <;> exact outKeeps_next.mpr h

@[simp] theorem sparseFault_wf (ctx ticket k m) : Memory.wf (sparseFault ctx ticket k s m).mem = true := by
  unfold sparseFault
  split <;> simp [h]

theorem execPassKstepComplete_keeps (cluster) : OutKeeps (execPassKstepComplete cluster s) := by
  unfold execPassKstepComplete
  extract_lets c
  split
  · exact outKeeps_next.mpr h
  · exact OutKeeps.ite (outKeeps_next.mpr (foldl_wf (fun _ _ hu => sparseFault_wf hu ..) h)) (outKeeps_next.mpr h)

theorem execHarn_keeps (n a) : OutKeeps (execHarn n a s) := issueWord_done_keeps h fun _ => rfl

theorem passWord_keeps (x) : OutKeeps (passWord x s) := by
  rw [passWord]
  exact issueWord_keeps h fun v hv => by simp [hv]

@[simp] theorem latchSweep_wf (cl hn) : Memory.wf (latchSweep s cl hn).mem = true :=
  foldl_wf (fun _ _ hu => foldl_wf (fun _ _ hv => latchTest_wf hv ..) hu) h

theorem execPassPost_keeps (cluster hn) : OutKeeps (execPassPost cluster hn s) := by
  unfold execPassPost
  extract_lets u c lat mem
  have hu : Memory.wf u.mem = true := latchSweep_wf h ..
  refine OutKeeps.ite (outKeeps_next.mpr hu) ?_
  split
  · exact outKeeps_next.mpr (foldl_wf (fun _ _ hv => by rw [releaseMember_mem]; exact hv) (by rw [postPass_mem, setLatch_mem]; exact hu))
  · exact outKeeps_next.mpr hu

theorem execMlut_keeps (x) : OutKeeps (execMlut x s) := issueWord_keeps h fun v hv => by
  dsimp only
  split
  · simp
  · split <;> simp [hv]

theorem tileWord_keeps (u slots) {body : State → State} (hb : ∀ v, (body v).mem = v.mem) : OutKeeps (tileWord u slots body s) :=
  OutKeeps.ite (outKeeps_next.mpr h) (OutKeeps.ite (by simp [h]) (issueWord_done_keeps h fun v => (hb _).trans (tileLeave_mem v)))

theorem execAccrd_keeps (x) : OutKeeps (execAccrd x s) := tileWord_keeps h _ _ fun _ => by simp
theorem execAccwr_keeps (x) : OutKeeps (execAccwr x s) := tileWord_keeps h _ _ fun _ => rfl
theorem execAccz_keeps (kind t) : OutKeeps (execAccz kind t s) := tileWord_keeps h _ _ fun _ => rfl

theorem execMprog_keeps (d a) : OutKeeps (execMprog d a s) := by
  rw [execMprog]
  exact issueWord_done_keeps h fun _ => by simp

theorem execMprogW_keeps (d a b) : OutKeeps (execMprogW d a b s) := by
  rw [execMprogW]
  exact issueWord_done_keeps h fun _ => by simp

/-! ## System words (06 R225-R228, 14 R436-R439) -/

@[simp] theorem fenceDev_wf  : Memory.wf (fenceDev s).mem = true := by simp [fenceDev, h]

theorem execPubl_keeps (d a) : OutKeeps (execPubl d a s) := by
  rw [execPubl]
  exact issueWord_keeps h fun v hv => by simp [hv]

theorem tlbiWord_keeps (u p) : OutKeeps (tlbiWord u p s) := by
  rw [tlbiWord]
  exact issueWord_keeps h fun v hv => by simp [hv]

theorem execTlbiComplete_keeps (core slot id) : OutKeeps (execTlbiComplete core slot id s) := by
  unfold execTlbiComplete
  split
  · refine OutKeeps.ite ?_ (by simp [h])
    split <;> simp [h]
  · simp [h]

theorem execPageWalk_keeps (cluster ctx va kind) : OutKeeps (execPageWalk cluster ctx va kind s) := by
  simpa [execPageWalk] using h

theorem execCsrr_keeps (d csr) : OutKeeps (execCsrr d csr s) := by
  rw [execCsrr]
  exact issueWord_done_keeps h fun _ => by simp

theorem closeRecord_getD_wf (ctx n action) : Memory.wf ((closeRecord s ctx n action).getD s).mem = true := by
  cases e : closeRecord s ctx n action
  · exact h
  · exact closeRecord_wf h e

@[simp] theorem rclose_wf (ctx v) : Memory.wf (rclose s ctx v).mem = true := ite_wf (closeRecord_getD_wf h ..) h

@[simp] theorem csrPut_wf (n v) : Memory.wf (csrPut s n v).mem = true :=
  ite_wf (by simpa using h) (ite_wf (by simpa using h) (ite_wf (rclose_wf h ..) (ite_wf (by exact h) (by exact h))))

theorem execCsrw_keeps (csr a) : OutKeeps (execCsrw csr a s) := issueWord_keeps h fun v hv =>
  ActKeeps.ite (by simp [hv]) (actKeeps_done.mpr (csrPut_wf (by simpa using hv) ..))

@[simp] theorem haltAt_wf  : Memory.wf (haltAt s).mem = true := by simp [haltAt, h]

theorem execHalt_keeps : OutKeeps (execHalt s) := by
  rw [execHalt]
  exact issueWord_keeps h fun v hv => by simp [hv]

theorem execHaltDev_keeps : OutKeeps (execHaltDev s) := issueWord_done_keeps h fun _ => rfl

@[simp] theorem fret_wf (a b) : Memory.wf (fret s a b).2.mem = true := by
  unfold fret
  split
  · next e => exact closeRecord_wf h e
  · exact h

theorem execFret_keeps (d a b) : OutKeeps (execFret d a b s) := issueWord_keeps h fun v hv => by simp [hv]
theorem execRcloseRetry_keeps (ctx record) : OutKeeps (execRcloseRetry ctx record s) := outKeeps_next.mpr (closeRecord_getD_wf h ..)
theorem execRcloseSkip_keeps (ctx record) : OutKeeps (execRcloseSkip ctx record s) := outKeeps_next.mpr (closeRecord_getD_wf h ..)
theorem execRcloseKillw_keeps (ctx record) : OutKeeps (execRcloseKillw ctx record s) := outKeeps_next.mpr (closeRecord_getD_wf h ..)
theorem execRcloseKillc_keeps (ctx record) : OutKeeps (execRcloseKillc ctx record s) := outKeeps_next.mpr (closeRecord_getD_wf h ..)

theorem execHeldRecordWrite_keeps (n) : OutKeeps (execHeldRecordWrite n s) := by
  unfold execHeldRecordWrite
  split
  · exact outKeeps_next.mpr (settleCloses_wf h)
  · refine OutKeeps.ite (outKeeps_next.mpr (settleCloses_wf ?_)) (outKeeps_next.mpr h)
    next p _ =>
      cases e : heldTry s p
      · exact h
      · exact heldTry_wf h e

end Sys2Proof.Machine
end

section
/-! PROOFS. The memory and the contexts: binding, pre-emption, images, swap, residency, destroying (14 R416-R434). -/

namespace Sys2Proof.Machine

/-! ## What leaves the memory as it is -/

@[simp] theorem zeroPart_mem (s p) : (zeroPart s p).mem = s.mem := rfl
@[simp] theorem preemptStart_mem (s ctx forced signal) : (preemptStart s ctx forced signal).mem = s.mem := rfl
@[simp] theorem forceStop_mem (s ctx) : (forceStop s ctx).mem = s.mem := rfl
@[simp] theorem allowSave_mem (s ctx) : (allowSave s ctx).mem = s.mem := rfl
@[simp] theorem mapCopies_mem (s ctx f) : (mapCopies s ctx f).mem = s.mem := rfl

@[simp] theorem preemptOnce_mem (s hd) : (preemptOnce s hd).mem = s.mem := by
  unfold preemptOnce
  split <;> simp

@[simp] theorem resumeCtx_mem (s ctx) : (resumeCtx s ctx).mem = s.mem := foldl_mem _ (fun _ _ => by simp) _ _
@[simp] theorem dropReqs_mem (s ctx) : (dropReqs s ctx).mem = s.mem := rfl
@[simp] theorem dropLaunches_mem (s ctx) : (dropLaunches s ctx).mem = s.mem := rfl
@[simp] theorem dropParts_mem (s ctx) : (dropParts s ctx).mem = s.mem := foldl_mem _ (fun _ _ => by simp) _ _

variable {s : State} (h : Memory.wf s.mem = true)
include h

/-! ## Partitions, pre-emption, images (14 R416, R427-R429) -/

@[simp] theorem flushPart_wf (p) : Memory.wf (flushPart s p).mem = true :=
  foldl_wf (fun _ _ hu => foldl_wf (fun _ _ hv => lineEvict_wf hv ..) hu) h

@[simp] theorem bindPart_wf (ctx p) : Memory.wf (bindPart s ctx p).2.mem = true := by
  unfold bindPart
  split
  · exact h
  · split
    · exact h
    · split
      · exact h
      · extract_lets t z
        have ht : Memory.wf t.mem = true := by simpa [t] using h
        have hz : Memory.wf z.mem = true := by simp [z, flushPart_wf ht]
        exact ite_wf (by simp [hz]) ht

@[simp] theorem unbindPart_wf (ctx p) : Memory.wf (unbindPart s ctx p).2.mem = true := by
  unfold unbindPart
  split
  · exact h
  · split
    · exact h
    · extract_lets held t u z
      have hu : Memory.wf u.mem = true := by simpa [u, t] using h
      have hz : Memory.wf z.mem = true := by simp [z, flushPart_wf hu]
      exact ite_wf (by simp [hz]) hu

theorem execGracelimExpiry_keeps (ctx) : OutKeeps (execGracelimExpiry ctx s) := by
  unfold execGracelimExpiry
  split <;> simp [h]

theorem execGracefulSave_keeps (ctx) : OutKeeps (execGracefulSave ctx s) := by
  unfold execGracefulSave
  split <;> simp [h]

theorem execDrainlimExpiry_keeps (ctx) : OutKeeps (execDrainlimExpiry ctx s) := by
  unfold execDrainlimExpiry
  split <;> simp [h]

@[simp] theorem savePart_wf (ctx p loc) : Memory.wf (savePart s ctx p loc).mem = true := by
  simp [savePart, flushPart_wf h]

theorem execPartitionImageWritten_keeps (part) : OutKeeps (execPartitionImageWritten part s) := by
  unfold execPartitionImageWritten
  split
  · simp [h]
  · split
    · simp [h]
    · split
      · simp [h]
      · exact OutKeeps.ite (by simp [h]) (by simp [h])

theorem execImageMove_keeps (part) : OutKeeps (execImageMove part s) := by simpa [execImageMove] using h

/-! ## Swap and residency (14 R417, R429, R430) -/

@[simp] theorem swapSignal_wf (pa) : Memory.wf (swapSignal s pa).mem = true := by
  unfold swapSignal
  split <;> simp [h]

@[simp] theorem restorePart_wf (ctx p) : Memory.wf (restorePart s ctx p).mem = true := by
  unfold restorePart
  extract_lets z u
  have hz : Memory.wf z.mem = true := by simp [z, flushPart_wf h]
  have hu : Memory.wf u.mem = true := by simp [u, hz]
  split <;> simp [hu]

@[simp] theorem retestWarp_wf (q) : Memory.wf (retestWarp s q).mem = true := by
  unfold retestWarp
  extract_lets u v w
  have hu : Memory.wf u.mem = true := ite_wf (by simp [h]) h
  have hw : Memory.wf w.mem = true := foldl_wf (fun _ _ hx => by simp [hx]) (by simp [v, hu])
  exact foldl_wf (fun _ _ hx => by simp [hx]) hw

@[simp] theorem retestBuckles_wf (ctx) : Memory.wf (retestBuckles s ctx).mem = true := by
  unfold retestBuckles
  split
  · exact foldl_wf (fun _ _ hu => by simp [hu]) h
  · exact h

@[simp] theorem restoreCtx_wf (ctx c signal) : Memory.wf (restoreCtx s ctx c signal).mem = true := by
  unfold restoreCtx
  extract_lets u v w x y
  have hu : Memory.wf u.mem = true := foldl_wf (fun _ _ hz => restorePart_wf hz ..) h
  have hw : Memory.wf w.mem = true := by simpa [w, v] using hu
  have hx : Memory.wf x.mem = true := ite_wf (by simpa using hw) hw
  exact swapSignal_wf (retestBuckles_wf (foldl_wf (fun _ _ hz => retestWarp_wf hz _) hx) _) _

theorem execSwapComplete_keeps (ctx) : OutKeeps (execSwapComplete ctx s) := by
  unfold execSwapComplete
  split
  · simp [h]
  · split
    · exact OutKeeps.ite (by simp [h]) (by simp [h])
    · split
      · exact outKeeps_next.mpr (ite_wf (restoreCtx_wf h ..) h)
      · simp [h]

@[simp] theorem firstResidency_wf (ctx c) : Memory.wf (firstResidency s ctx c).mem = true := by
  rw [firstResidency, updCtx_mem]
  exact foldl_wf (fun _ _ hu => restorePart_wf hu ..) h

omit h in
theorem servePresser_wf {a : Nat × State} (ha : Memory.wf a.2.mem = true) (x) : Memory.wf (servePresser a x).2.mem = true := by
  unfold servePresser
  extract_lets m hs
  split
  · exact ha
  · split
    · exact ite_wf (firstResidency_wf ha ..) (by simpa using ha)
    · split
      · exact foldl_wf (fun _ _ hu => by simpa using hu) ha
      · exact ha

omit h in
theorem settleCreated_wf {a : Nat × State} (ha : Memory.wf a.2.mem = true) (x) : Memory.wf (settleCreated a x).2.mem = true := by
  unfold settleCreated
  extract_lets m
  split
  · exact firstResidency_wf ha ..
  · exact ha

theorem execResidencyDecision_keeps : OutKeeps (execResidencyDecision s) := by
  refine outKeeps_next.mpr (List.foldlRecOn (motive := fun a : Nat × State => Memory.wf a.2.mem = true) _ _ ?_
    fun a ha x _ => settleCreated_wf ha x)
  exact List.foldlRecOn (motive := fun a : Nat × State => Memory.wf a.2.mem = true) _ _ h fun a ha x _ => servePresser_wf ha x

theorem execUncorrectableMemoryError_keeps (pa) : OutKeeps (execUncorrectableMemoryError pa s) := by
  simp [execUncorrectableMemoryError, h]

/-! ## Destroying (14 R434, R419) -/

@[simp] theorem abandonChunk_wf (x q k) : Memory.wf (abandonChunk s x q k).mem = true :=
  foldl_wf (fun _ _ hu => ite_wf ((onlyHome_writeEvent ..).2 (by simpa using hu)) (by simpa using hu)) h

@[simp] theorem abandonCopies_wf (ctx) : Memory.wf (abandonCopies s ctx).mem = true :=
  foldl_wf (fun _ _ hu => ite_wf (foldl_wf (fun _ _ hv => abandonChunk_wf hv ..) hu) hu) h

@[simp] theorem dropCircuits_wf (ctx) : Memory.wf (dropCircuits s ctx).mem = true :=
  foldl_wf (fun _ _ hu => by split <;> simp [hu]) h

@[simp] theorem zeroFrames_wf (frames) : Memory.wf (zeroFrames s frames).mem = true := Memory.wf_filter _ h
@[simp] theorem dropFrames_wf (ctx keys) : Memory.wf (dropFrames s ctx keys).mem = true := zeroFrames_wf h _
@[simp] theorem flushCtx_wf (ctx) : Memory.wf (flushCtx s ctx).mem = true := foldl_wf (fun _ _ h => by simp [h]) h

@[simp] theorem destroyCtx_wf (ctx c) : Memory.wf (destroyCtx s ctx c).mem = true := by
  unfold destroyCtx
  extract_lets u v w x gone y z a
  have hu : Memory.wf u.mem = true := abandonCopies_wf (by simpa using h) ..
  have hw : Memory.wf w.mem = true := dropCircuits_wf (flushCtx_wf hu _) _
  have hx : Memory.wf x.mem = true := foldl_wf (fun _ _ hb => untie_wf hb _) hw
  have ha : Memory.wf a.mem = true := dropFrames_wf (by simpa [z] using (show Memory.wf y.mem = true from hx)) ..
  rw [updCtx_mem]
  exact ha

end Sys2Proof.Machine
end

section
/-! PROOFS. The memory and firmware: FCTX and FSWP, the host mailbox, boot and service, host registers (14 R418-R420, R439-R442). -/

namespace Sys2Proof.Machine

/-! ## What leaves the memory as it is -/

@[simp] theorem createCtx_mem (s d) : (createCtx s d).mem = s.mem := rfl

@[simp] theorem fswpInto_mem (s p signal) : (fswpInto s p signal).2.mem = s.mem := by
  unfold fswpInto
  split
  · rfl
  · split
    · rfl
    · dsimp only
      split <;> simp

@[simp] theorem fswpFrom_mem (s p forced signal) : (fswpFrom s p forced signal).2.mem = s.mem := by
  unfold fswpFrom
  split
  · split
    · rfl
    · split
      · exact preemptStart_mem ..
      · rfl
  · rfl

@[simp] theorem fswp_mem (s a pa) : (fswp s a pa).2.mem = s.mem := by
  unfold fswp
  split
  · exact fswpInto_mem ..
  · exact fswpFrom_mem ..

@[simp] theorem reply_mem (s status bytes) : (reply s status bytes).mem = s.mem := rfl

theorem grantNums_mem {s ctx bound ns held put t} (e : grantNums s ctx bound ns held put = some t) : t.mem = s.mem := by
  obtain ⟨-, ⟨⟩⟩ := Option.ite_none_right_eq_some.mp e
  exact updCtx_mem ..

theorem grantFrames_mem {s owner ns t} (e : grantFrames s owner ns = some t) : t.mem = s.mem := by
  obtain ⟨-, ⟨⟩⟩ := Option.ite_none_right_eq_some.mp e
  rfl

@[simp] theorem startFirmware_mem (s) : (startFirmware s).mem = s.mem :=
  foldl_mem _ (fun u _ => (setCore_mem ..).trans (fresh_mem u)) _ _

variable {s : State} (h : Memory.wf s.mem = true)
include h

/-! ## FCTX and FSWP (14 R439) -/

@[simp] theorem fctx_wf (a pa) : Memory.wf (fctx s a pa).2.mem = true := by
  unfold fctx
  extract_lets hr
  have hh : Memory.wf hr.2.mem = true := by simpa [hr] using h
  split
  · exact hh
  · split
    · exact hh
    · extract_lets u r
      have hu : Memory.wf u.mem = true := ite_wf (by simpa using hh) hh
      have hk : Memory.wf r.2.mem = true := by
        dsimp only [r]
        split
        · exact unbindPart_wf hu ..
        · exact bindPart_wf hu ..
      split
      · exact writePa_keeps hk ..
      · exact hk

theorem fctxWord_keeps (d a b) : OutKeeps (fctxWord d a b s) :=
  OutKeeps.ite outKeeps_fault (issueWord_keeps h fun v hv => by simp [hv])

theorem fswpWord_keeps (d a b) : OutKeeps (fswpWord d a b s) := issueWord_keeps h fun v hv => by simp [hv]

/-! ## The host mailbox (14 R442) -/

theorem mailboxStat_keeps {f} (hf : Memory.wf (f s).2.mem = true) : OutKeeps (mailboxStat f s) :=
  OutKeeps.ite (outKeeps_next.mpr h) (outKeeps_next.mpr (by simpa using hf))

theorem mailbox_keeps {f} (hf : ∀ r, f s = some r → Memory.wf r.1.mem = true) : OutKeeps (mailbox f s) := by
  unfold mailbox
  refine OutKeeps.ite (outKeeps_next.mpr h) ?_
  split
  · next e => exact outKeeps_next.mpr (by simpa using hf _ e)
  · exact outKeeps_next.mpr (by simpa using h)

theorem request_keeps {f} (hf : ∀ t, f s = some t → Memory.wf t.mem = true) : OutKeeps (request f s) := by
  refine mailbox_keeps h fun r e => ?_
  obtain ⟨t, ht, rfl⟩ := Option.map_eq_some_iff.mp e
  exact hf t ht

theorem execCtxCreate_keeps (desc) : OutKeeps (execCtxCreate desc s) := request_keeps h fun t e => by
  obtain ⟨-, ⟨⟩⟩ := Option.ite_none_right_eq_some.mp e
  simpa using h

@[simp] theorem bindMask_wf (ctx pmask unbind) : Memory.wf (bindMask s ctx pmask unbind).2.mem = true := by
  refine List.foldlRecOn (motive := fun a : Nat × State => Memory.wf a.2.mem = true) _ _ h fun a ha p _ => ?_
  dsimp only
  split
  · exact unbindPart_wf ha ..
  · exact bindPart_wf ha ..

theorem execCtxBind_keeps (ctx pmask unbind) : OutKeeps (execCtxBind ctx pmask unbind s) := by
  refine mailboxStat_keeps h ?_
  split
  · exact bindMask_wf h ..
  · exact h

theorem execCtxDestroy_keeps (ctx) : OutKeeps (execCtxDestroy ctx s) := request_keeps h fun t e => by
  obtain ⟨c, -, rfl⟩ := Option.map_eq_some_iff.mp e
  exact destroyCtx_wf h ..

theorem execCtxPreempt_keeps (ctx forced) : OutKeeps (execCtxPreempt ctx forced s) := request_keeps h fun t e => by
  obtain ⟨c, -, e⟩ := Option.bind_eq_some_iff.mp e
  split at e
  · cases e
    simpa using h
  · obtain ⟨-, ⟨⟩⟩ := Option.ite_none_right_eq_some.mp e
    exact ite_wf h (by simpa using h)

theorem execCtxRestore_keeps (ctx) : OutKeeps (execCtxRestore ctx s) := by
  refine mailboxStat_keeps h ?_
  split
  · exact h
  · split
    · exact h
    · split
      · exact h
      · simpa using h

theorem execGrant_keeps (ctx what) : OutKeeps (execGrant ctx what s) := request_keeps h fun t e => by
  obtain ⟨c, -, e⟩ := Option.bind_eq_some_iff.mp e
  cases what with
  | keys m =>
    obtain ⟨-, ⟨⟩⟩ := Option.ite_none_left_eq_some.mp e
    simpa using h
  | buckets ns => rw [grantNums_mem e]; exact h
  | buckles ns => rw [grantNums_mem e]; exact h
  | slots ns => rw [grantNums_mem e]; exact h
  | frames ns => rw [grantFrames_mem e]; exact h
  | sharedFrames ns => rw [grantFrames_mem e]; exact h

theorem execKeyLoad_keeps (id key) : OutKeeps (execKeyLoad id key s) := request_keeps h fun t e => by
  obtain ⟨-, ⟨⟩⟩ := Option.ite_none_right_eq_some.mp e
  exact h

theorem execQueueBind_keeps (q desc) : OutKeeps (execQueueBind q desc s) := request_keeps h fun t e => by
  obtain ⟨-, ⟨⟩⟩ := Option.ite_none_right_eq_some.mp e
  exact h

theorem execQueueDestroy_keeps (q) : OutKeeps (execQueueDestroy q s) := request_keeps h fun t e => by
  obtain ⟨x, -, e⟩ := Option.bind_eq_some_iff.mp e
  obtain ⟨-, ⟨⟩⟩ := Option.ite_none_left_eq_some.mp e
  simpa using h

theorem execQueueResume_keeps (q) : OutKeeps (execQueueResume q s) := request_keeps h fun t e => by
  obtain ⟨x, -, e⟩ := Option.bind_eq_some_iff.mp e
  obtain ⟨-, ⟨⟩⟩ := Option.ite_none_right_eq_some.mp e
  simpa using h

theorem execQueueRelease_keeps (q) : OutKeeps (execQueueRelease q s) := by
  unfold execQueueRelease
  split <;> simp [h]

theorem execRecordClose_keeps (ctx record action) : OutKeeps (execRecordClose ctx record action s) :=
  request_keeps h fun _ e => closeRecord_wf h e

theorem execAttest_keeps (ctx nonce) : OutKeeps (execAttest ctx nonce s) := mailbox_keeps h fun r e => by
  obtain ⟨c, -, rfl⟩ := Option.map_eq_some_iff.mp e
  exact h

theorem execCtxResume_keeps (ctx) : OutKeeps (execCtxResume ctx s) := request_keeps h fun t e => by
  obtain ⟨c, -, e⟩ := Option.bind_eq_some_iff.mp e
  obtain ⟨-, ⟨⟩⟩ := Option.ite_none_right_eq_some.mp e
  simpa using h

theorem execHandleBind_keeps (ctx handle unbind map) : OutKeeps (execHandleBind ctx handle unbind map s) :=
  request_keeps h fun t e => by
    obtain ⟨-, e⟩ := Option.ite_none_left_eq_some.mp e
    split at e
    · obtain ⟨x, -, e⟩ := Option.bind_eq_some_iff.mp e
      obtain ⟨-, ⟨⟩⟩ := Option.ite_none_right_eq_some.mp e
      exact h
    · obtain ⟨c, -, e⟩ := Option.bind_eq_some_iff.mp e
      obtain ⟨sources, -, e⟩ := Option.bind_eq_some_iff.mp e
      split at e
      · obtain ⟨-, ⟨⟩⟩ := Option.ite_none_right_eq_some.mp e
        exact h
      · cases e
        exact h

theorem execFmSources_keeps (map) : OutKeeps (execFmSources map s) := request_keeps h fun t e => by
  obtain ⟨x, -, rfl⟩ := Option.map_eq_some_iff.mp e
  exact h

theorem execEnergyCoef_keeps (coefs) : OutKeeps (execEnergyCoef coefs s) := request_keeps h fun t e => by
  cases e
  exact h

/-! ## Boot, service and the registers of the host (14 R440, R441, 13 R402) -/

omit h in
theorem execDeviceReset_keeps (accepted) : OutKeeps (execDeviceReset accepted s) := by
  unfold execDeviceReset
  extract_lets t
  have ht : Memory.wf t.mem = true := rfl
  exact outKeeps_next.mpr (ite_wf (by rw [startFirmware_mem]; exact ht) ht)

theorem execFirmwareFaultRestart_keeps (core slot) : OutKeeps (execFirmwareFaultRestart core slot s) := by
  unfold execFirmwareFaultRestart
  refine OutKeeps.ite (outKeeps_next.mpr h) (outKeeps_next.mpr (foldl_wf (fun _ _ hu => ite_wf hu (postEvent_wf hu ..)) ?_))
  rw [startFirmware_mem]
  exact h

theorem execFullService_keeps : OutKeeps (execFullService s) := by simpa [execFullService] using h

theorem doorbell_keeps : OutKeeps (doorbell s) := by
  unfold doorbell
  dsimp only
  split
  · exact execHandleBind_keeps h _ _ _ _
  · exact execFmSources_keeps h _
  · exact execEnergyCoef_keeps h _
  · exact outKeeps_next.mpr h

theorem execBarRegisterWrite_keeps (off value) : OutKeeps (execBarRegisterWrite off value s) := by
  unfold execBarRegisterWrite
  extract_lets p k v c
  have hc : Memory.wf c.2.mem = true := by
    dsimp only [c]
    split
    · simpa using h
    · exact h
  exact OutKeeps.ite (outKeeps_next.mpr h) (OutKeeps.ite (OutKeeps.ite (doorbell_keeps h) (outKeeps_next.mpr h))
    (OutKeeps.ite (by simp [hc]) (OutKeeps.ite (outKeeps_next.mpr h) (outKeeps_next.mpr h))))

theorem execHostAccess_keeps (op) : OutKeeps (execHostAccess op s) := by
  cases op with
  | read ctx va len =>
    refine OutKeeps.ite (outKeeps_next.mpr h) ?_
    split <;> next e => simp [mem_of_snd e, h]
  | write ctx va bytes => exact outKeeps_next.mpr (ite_wf h (hostWrite_wf h ..))
  | perform id part => exact outKeeps_next.mpr (ite_wf (performAt_wf h ..) h)
  | readBar bar off len =>
    unfold execHostAccess
    dsimp only
    split <;> simp [h]
  | unmap holes => exact outKeeps_next.mpr h

end Sys2Proof.Machine
end

section
/-! PROOFS. The memory and the dispatch: every instruction and move leaves it in canonical form (06 R197). -/

namespace Sys2Proof.Machine

variable {s : State} (h : Memory.wf s.mem = true)
include h

/-- Every instruction keeps the memory in canonical form. -/
theorem exec_keeps (i) : OutKeeps (exec i s) := by
  cases i with dsimp only [exec]
  | iadd _ | isub _ | imul _ | imulh _ => exact int2_keeps h _ _
  | imad _ => exact execImad_keeps h _
  | imadw _ => exact execImadw_keeps h _
  | imin _ | imax _ => exact int2_keeps h _ _
  | iabs _ => exact execIabs_keeps h _
  | and _ | or _ | xor _ | andn _ | shl _ | shr _ | sar _ | rotr _ => exact bit2_keeps h _ _ _
  | popc _ | clz _ | brev _ => exact bit1_keeps h _ _ _
  | bfx _ => exact bit2_keeps h _ _ _
  | bfi _ => exact execBfi_keeps h _
  | lea _ => exact execLea_keeps h _
  | icmp _ => exact execIcmp_keeps h _
  | sel _ => exact execSel_keeps h _
  | mov _ => exact execMov_keeps h _
  | movi _ => exact execMovi_keeps h _
  | movs _ => exact execMovs_keeps h _
  | movsSl _ => exact execMovsSl_keeps h _
  | plog _ => exact execPlog_keeps h _
  | fadd _ | fsub _ | fmul _ => exact fp2_keeps h _ _ _
  | ffma _ => exact execFfma_keeps h _
  | fmin _ | fmax _ => exact fp2_keeps h _ _ _
  | fcmp _ => exact execFcmp_keeps h _
  | fcls _ => exact execFcls_keeps h _
  | hadd2 _ | hmul2 _ => exact half2_keeps h _ _
  | hfma2 _ => exact execHfma2_keeps h _
  | dadd _ | dmul _ => exact dp2_keeps h _ _
  | dfma _ => exact execDfma_keeps h _
  | dcmp _ => exact execDcmp_keeps h _
  | frcp _ | frsq _ | fsqt _ => exact fp1_keeps h _ _
  | fdiv _ => exact fp2_keeps h _ _ _
  | fex2 _ | flg2 _ | fsin _ | fcos _ | ftnh _ => exact fp1_keeps h _ _
  | cvt _ => exact execCvt_keeps h _
  | cvts _ => exact execCvts_keeps h _
  | scsel _ => exact execScsel_keeps h _
  | efq _ => exact execEfq_keeps h _
  | bzpk _ => exact execBzpk_keeps h _
  | bzup _ => exact execBzup_keeps h _
  | f8pk _ => exact execF8pk_keeps h _
  | f8up _ => exact execF8up_keeps h _
  | scacc _ => exact execScacc_keeps h _
  | shfl _ => exact execShfl_keeps h _
  | shfx _ => exact execShfx_keeps h _
  | bcst _ => exact execBcst_keeps h _
  | vote _ => exact execVote_keeps h _
  | redt _ => exact execRedt_keeps h _
  | scan _ => exact execScan_keeps h _
  | redx _ => exact execRedx_keeps h _
  | lacr _ => exact execLacr_keeps h _
  | braAny _ _ | braAll _ _ => exact execBra_keeps h _ _ _
  | brx _ _ => exact indirect_keeps h _ _ _
  | call _ _ => exact execCall_keeps h _ _
  | ret _ => exact indirect_keeps h _ _ _
  | regang _ => exact execRegang_keeps h _
  | loopOperand _ _ | loopImmediate _ _ => exact loopWord_keeps h _ _ _
  | trap _ => exact execTrap_keeps h _
  | bkpt _ => exact execBkpt_keeps h _
  | racq _ => exact execRacq_keeps h _
  | rrel _ => exact execRrel_keeps h _
  | rep _ => exact execRep_keeps h _
  | pNop _ _ | pMov _ _ | pIadd _ _ | pIsub _ _ | pImul _ _ | pIaddi _ _ | pAnd _ _ | pOr _ _ | pXor _ _ | pAndn _ _
  | pShl _ _ | pShr _ _ | pSar _ _ | pImin _ _ | pImax _ _ | pRotr _ _ | pFadd _ _ | pFsub _ _ | pFmul _ _
  | pFmin _ _ | pFmax _ _ | pHadd2 _ _ | pHmul2 _ _ | pClz _ _ => exact execPair_keeps h _ _ _
  | ld _ => exact execLd_keeps h _
  | st _ => exact execSt_keeps h _
  | lds _ => exact execLds_keeps h _
  | sts _ => exact execSts_keeps h _
  | ldw _ => exact execLdw_keeps h _
  | stw _ => exact execStw_keeps h _
  | ldc _ => exact execLdc_keeps h _
  | pref _ => exact execPref_keeps h _
  | cflsh _ => exact execCflsh_keeps h _
  | cinv _ => exact execCinv_keeps h _
  | fence _ _ => exact execFence_keeps h _ _
  | waitc _ _ => exact execWaitc_keeps h _ _
  | atomAdd _ | atomMin _ | atomMax _ | atomAnd _ | atomOr _ | atomXor _ | atomExch _ | atomCas _ | atomFadd _ => exact atomWord_keeps h _ _
  | atomsAdd _ | atomsMin _ | atomsMax _ | atomsAnd _ | atomsOr _ | atomsXor _ | atomsExch _ | atomsCas _
  | atomsFadd _ => exact atomsWord_keeps h _ _
  | rld _ => exact execRld_keeps h _
  | rst _ => exact execRst_keeps h _
  | rstf _ => exact execRstf_keeps h _
  | ratomAdd _ | ratomMin _ | ratomMax _ | ratomAnd _ | ratomOr _ | ratomXor _ | ratomExch _ | ratomCas _
  | ratomFadd _ => exact ratomWord_keeps h _ _
  | copy _ | copy2 _ | copyf _ | copyw _ | copyr _ => exact copyWord_keeps h _ _
  | cprog _ _ => exact execCprog_keeps h _ _
  | ckill _ _ => exact execCkill_keeps h _ _
  | publ _ _ => exact execPubl_keeps h _ _
  | harn _ _ => exact execHarn_keeps h _ _
  | mpass _ | mspass _ => exact passWord_keeps h _
  | mlut _ => exact execMlut_keeps h _
  | accrd _ => exact execAccrd_keeps h _
  | accwr _ => exact execAccwr_keeps h _
  | accz _ _ => exact execAccz_keeps h _ _
  | mprog _ _ => exact execMprog_keeps h _ _
  | mprogW _ _ _ => exact execMprogW_keeps h _ _ _
  | skupd _ => exact execSkupd_keeps h _
  | skqry _ => exact execSkqry_keeps h _
  | skadd _ _ => exact execSkadd_keeps h _ _
  | skclr _ => exact execSkclr_keeps h _
  | tdec _ _ => exact execTdec_keeps h _ _
  | twait _ _ _ _ => exact execTwait_keeps h _ _ _ _
  | flgw _ => exact execFlgw_keeps h _
  | bkw _ _ _ => exact execBkw_keeps h _ _ _
  | bkarm _ _ _ => exact execBkarm_keeps h _ _ _
  | bkarmOff _ _ => exact execBkarmOff_keeps h _ _
  | lnch _ _ _ => exact execLnch_keeps h _ _ _
  | reln _ => exact execReln_keeps h _
  | csrr _ _ => exact execCsrr_keeps h _ _
  | csrw _ _ => exact execCsrw_keeps h _ _
  | tlbiVa _ => exact tlbiWord_keeps h _ _
  | fret _ _ _ => exact execFret_keeps h _ _ _
  | fctxBind _ _ _ | fctxUnbind _ _ _ => exact fctxWord_keeps h _ _ _
  | fswpOut _ _ _ | fswpIn _ _ _ => exact fswpWord_keeps h _ _ _
  | bar _ _ => exact execBar_keeps h _ _
  | bara _ _ _ => exact execBara_keeps h _ _ _
  | barw _ _ _ => exact execBarw_keeps h _ _ _
  | cbar _ _ _ => exact execCbar_keeps h _ _ _
  | nldv _ => exact execNldv_keeps h _
  | nstv _ => exact execNstv_keeps h _
  | nadd _ | nsub _ | nmul _ | nfma _ | nmin _ | nmax _ | nrsq _ _ | ncvt _ _ _ _ => exact nmuOwn_keeps h _
  | nsku _ _ _ _ => exact execNsku_keeps h _ _ _ _
  | nskq _ _ _ _ => exact execNskq_keeps h _ _ _ _
  | nska _ _ => exact execNska_keeps h _ _
  | nskc _ => exact execNskc_keeps h _
  | nsetImm _ _ | nsetReg _ _ | naddi _ _ _ _ => exact nmuOwn_keeps h _
  | nloopImm _ _ | nloopReg _ _ => exact nmuLoop_keeps h _ _
  | nbra _ _ _ => exact execNbra_keeps h _ _ _
  | nwait _ _ => exact execNwait_keeps h _ _
  | nsig _ => exact execNsig_keeps h _
  | movqReg _ _ | movqImm _ _ | addqReg _ _ _ | addqImm _ _ _ | subqReg _ _ _ | subqImm _ _ _ | cmpqReg _ _ _
  | cmpqImm _ _ _ => exact cratchOwn_keeps h _
  | brq _ _ _ | brc _ _ => exact cratchBranch_keeps h _ _
  | creq _ _ => exact execCreq_keeps h _ _
  | cwait _ _ _ _ => exact cratchWait_keeps h _
  | crel _ => exact execCrel_keeps h _
  | cstat _ _ => exact cratchOwn_keeps h _
  | buck _ _ => exact execBuck_keeps h _ _
  | buckOff _ => exact execBuckOff_keeps h _
  | park _ _ => exact execPark_keeps h _ _
  | wake _ _ => exact execWake_keeps h _ _
  | setw _ _ => exact execSetw_keeps h _ _
  | msg _ _ => exact execMsg_keeps h _ _
  | mrcv _ _ _ => exact cratchWait_keeps h _
  | tsig _ _ => exact execTsig_keeps h _ _
  | twt _ _ _ => exact cratchWait_keeps h _
  | time _ => exact cratchOwn_keeps h _
  | dlyReg _ | dlyImm _ => exact cratchWait_keeps h _
  | evt _ => exact execEvt_keeps h _
  | lacz => exact execLacz_keeps h
  | regangRelease _ _ _ => exact execRegangRelease_keeps h _ _ _
  | yield => exact execYield_keeps h
  | nop => exact execNop_keeps h
  | exit => exact execExit_keeps h
  | racqGrant _ => exact execRacqGrant_keeps h _
  | emergencyEpisode _ => exact execEmergencyEpisode_keeps h _
  | emergencyGrant _ => exact execEmergencyGrant_keeps h _
  | rrelRelease _ _ => exact execRrelRelease_keeps h _ _
  | fenceComplete _ _ _ => exact execFenceComplete_keeps h _ _ _
  | rfence => exact execRfence_keeps h
  | sketchReply _ => exact execSketchReply_keeps h _
  | timedWaitAnswer _ _ _ => exact execTimedWaitAnswer_keeps h _ _ _
  | timedWaitTimeout _ _ _ => exact execTimedWaitTimeout_keeps h _ _ _
  | flgwHostPoll _ _ _ => exact execFlgwHostPoll_keeps h _ _ _
  | rcloseRetry _ _ => exact execRcloseRetry_keeps h _ _
  | rcloseSkip _ _ => exact execRcloseSkip_keeps h _ _
  | rcloseKillw _ _ => exact execRcloseKillw_keeps h _ _
  | rcloseKillc _ _ => exact execRcloseKillc_keeps h _ _
  | tlbiCtx | tlbiAll => exact tlbiWord_keeps h _ _
  | tlbiComplete _ _ _ => exact execTlbiComplete_keeps h _ _ _
  | halt => exact execHalt_keeps h
  | haltDev => exact execHaltDev_keeps h
  | clusterBlockAssign _ _ _ => exact execClusterBlockAssign_keeps h _ _ _
  | clusterBlockResident _ => exact execClusterBlockResident_keeps h _
  | activeSetUpdate _ => exact execActiveSetUpdate_keeps h _
  | warpForced _ _ => exact execWarpForced_keeps h _ _
  | warpExited _ _ => exact execWarpExited_keeps h _ _
  | pageWalk _ _ _ _ => exact execPageWalk_keeps h _ _ _ _
  | loadValueReturn _ => exact execLoadValueReturn_keeps h _
  | storePerformed _ => exact execStorePerformed_keeps h _
  | scratchpadAccess _ => exact execScratchpadAccess_keeps h _
  | homeAccess _ _ => exact execHomeAccess_keeps h _ _
  | hostAccess _ => exact execHostAccess_keeps h _
  | barrierComplete _ => exact execBarrierComplete_keeps h _
  | taskDecrement => exact execTaskDecrement_keeps h
  | copyTakeUp _ => exact execCopyTakeUp_keeps h _
  | copyChunkIssue _ => exact execCopyChunkIssue_keeps h _
  | copyChunkPerformed _ _ => exact execCopyChunkPerformed_keeps h _ _
  | copyrChunkTimeout _ _ => exact execCopyrChunkTimeout_keeps h _ _
  | drainlimExpiry _ => exact execDrainlimExpiry_keeps h _
  | passPost _ _ => exact execPassPost_keeps h _ _
  | passGrant _ => exact execPassGrant_keeps h _
  | passKstepComplete _ => exact execPassKstepComplete_keeps h _
  | nmuNodeLoad _ => exact execNmuNodeLoad_keeps h _
  | nmuProgramSave _ _ => exact execNmuProgramSave_keeps h _ _
  | nwaitRelease _ _ => exact execNwaitRelease_keeps h _ _
  | nfence => exact execNfence_keeps h
  | nend => exact execNend_keeps h
  | collectiveCheckExchange _ _ => exact execCollectiveCheckExchange_keeps h _ _
  | collectiveSegmentReceive _ _ => exact execCollectiveSegmentReceive_keeps h _ _
  | launchSubmit _ _ _ => exact execLaunchSubmit_keeps h _ _ _
  | launchStart _ => exact execLaunchStart_keeps h _
  | relaunchHeaderRead _ => exact execRelaunchHeaderRead_keeps h _
  | launchEnd _ => exact execLaunchEnd_keeps h _
  | graphLoad _ => exact execGraphLoad_keeps h _
  | nodeStart _ _ => exact execNodeStart_keeps h _ _
  | nodeEnd _ _ => exact execNodeEnd_keeps h _ _
  | graphComplete _ => exact execGraphComplete_keeps h _
  | launchRegisterInline _ _ => exact execLaunchRegisterInline_keeps h _ _
  | launchRegisterDoorbell _ _ => exact execLaunchRegisterDoorbell_keeps h _ _
  | launchRegisterDrop _ _ => exact execLaunchRegisterDrop_keeps h _ _
  | barRegisterWrite _ _ => exact execBarRegisterWrite_keeps h _ _
  | packetConsume => exact execPacketConsume_keeps h
  | energyCharge _ _ => exact execEnergyCharge_keeps h _ _
  | budgetRefill _ => exact execBudgetRefill_keeps h _
  | ctxCreate _ => exact execCtxCreate_keeps h _
  | ctxBind _ _ _ => exact execCtxBind_keeps h _ _ _
  | ctxDestroy _ => exact execCtxDestroy_keeps h _
  | ctxPreempt _ _ => exact execCtxPreempt_keeps h _ _
  | ctxRestore _ => exact execCtxRestore_keeps h _
  | grant _ _ => exact execGrant_keeps h _ _
  | keyLoad _ _ => exact execKeyLoad_keeps h _ _
  | queueBind _ _ => exact execQueueBind_keeps h _ _
  | queueDestroy _ => exact execQueueDestroy_keeps h _
  | queueResume _ => exact execQueueResume_keeps h _
  | recordClose _ _ _ => exact execRecordClose_keeps h _ _ _
  | attest _ _ => exact execAttest_keeps h _ _
  | ctxResume _ => exact execCtxResume_keeps h _
  | handleBind _ _ _ _ => exact execHandleBind_keeps h _ _ _ _
  | fmSources _ => exact execFmSources_keeps h _
  | energyCoef _ => exact execEnergyCoef_keeps h _
  | heldRecordWrite _ => exact execHeldRecordWrite_keeps h _
  | uncorrectableMemoryError _ => exact execUncorrectableMemoryError_keeps h _
  | residencyDecision => exact execResidencyDecision_keeps h
  | gracelimExpiry _ => exact execGracelimExpiry_keeps h _
  | gracefulSave _ => exact execGracefulSave_keeps h _
  | partitionImageWritten _ => exact execPartitionImageWritten_keeps h _
  | imageMove _ => exact execImageMove_keeps h _
  | swapComplete _ => exact execSwapComplete_keeps h _
  | deviceReset _ => exact execDeviceReset_keeps _
  | firmwareFaultRestart _ _ => exact execFirmwareFaultRestart_keeps h _ _
  | laneTrained _ _ => exact execLaneTrained_keeps h _ _
  | laneDown _ => exact execLaneDown_keeps h _
  | rldPacket _ _ => exact execRldPacket_keeps h _ _
  | rstPacket _ _ _ => exact execRstPacket_keeps h _ _ _
  | rstfPacket _ _ _ _ => exact execRstfPacket_keeps h _ _ _ _
  | ratomPacket _ _ => exact execRatomPacket_keeps h _ _
  | remoteResponse _ _ _ => exact execRemoteResponse_keeps h _ _ _
  | remoteAcknowledgement _ => exact execRemoteAcknowledgement_keeps h _
  | remoteTimeout _ _ => exact execRemoteTimeout_keeps h _ _
  | cratchMsg _ _ _ => exact execCratchMsg_keeps h _ _ _
  | managementRead _ _ _ => exact execManagementRead_keeps h _ _ _
  | managementWrite _ _ _ => exact execManagementWrite_keeps h _ _ _
  | dataFlit _ _ => exact execDataFlit_keeps h _ _
  | acknowledgementFlit _ _ => exact execAcknowledgementFlit_keeps h _ _
  | replay _ _ => exact execReplay_keeps h _ _
  | replayTimeout _ => exact execReplayTimeout_keeps h _
  | controlFlitRepeat _ => exact execControlFlitRepeat_keeps h _
  | restripe _ _ _ _ => exact execRestripe_keeps h _ _ _ _
  | restripeAck _ _ => exact execRestripeAck_keeps h _ _
  | wakeReady _ _ => exact execWakeReady_keeps h _ _
  | chunkDone _ _ _ => exact execChunkDone_keeps h _ _ _
  | close _ => exact execClose_keeps h _
  | portFail _ => exact execPortFail_keeps h _
  | lossOfLight _ _ _ => exact execLossOfLight_keeps h _ _ _
  | receiveSilence _ => exact execReceiveSilence_keeps h _
  | wakeLock _ _ _ => exact execWakeLock_keeps h _ _ _
  | wakeTimeout _ _ => exact execWakeTimeout_keeps h _ _
  | lightReturns _ _ _ => exact execLightReturns_keeps h _ _ _
  | autoWake _ => exact execAutoWake_keeps h _
  | laserRefresh _ _ _ => exact execLaserRefresh_keeps h _ _ _
  | controllerGrant _ => exact execControllerGrant_keeps h _
  | controllerDeny _ => exact execControllerDeny_keeps h _
  | controllerFail _ => exact execControllerFail_keeps h _
  | controllerReleased _ => exact execControllerReleased_keeps h _
  | requestSilence _ => exact execRequestSilence_keeps h _
  | portLocked _ => exact execPortLocked_keeps h _
  | lockTimeout _ => exact execLockTimeout_keeps h _
  | portTrained _ _ _ _ => exact execPortTrained_keeps h _ _ _ _
  | portLive _ => exact execPortLive_keeps h _
  | portDrained _ => exact execPortDrained_keeps h _
  | drainTimeout _ => exact execDrainTimeout_keeps h _
  | scriptStart => exact execScriptStart_keeps h
  | cratchWaitEnd _ => exact execCratchWaitEnd_keeps h _
  | endScript => exact execEndScript_keeps h
  | fullService => exact execFullService_keeps h
  | queueRelease _ => exact execQueueRelease_keeps h _

end Sys2Proof.Machine
end

section
/-! PROOFS. The memory and what moves: issue, the turns of the agents, the move made when no turn is given (05 R175-R179, 06 R197). -/

namespace Sys2Proof.Machine

@[simp] theorem policyOrder_mem (s core l) : (policyOrder s core l).2.mem = s.mem := by
  unfold policyOrder
  dsimp only
  split <;> simp

@[simp] theorem countOffers_mem (s core slots) : (countOffers s core slots).mem = s.mem := rfl

section
variable {s : State} (h : Memory.wf s.mem = true)
include h

/-! ## Issue -/

theorem badWord_keeps (code) : OutKeeps (badWord s code) := by simp [badWord, h]

theorem runRep_keeps (x) : OutKeeps (runRep x s) := by
  unfold runRep
  split
  · next t e =>
    have ht := exec_keeps h _ t e
    refine OutKeeps.ite ?_ (outKeeps_next.mpr ht)
    split
    · exact exec_keeps ht _
    · exact badWord_keeps ht _
    · exact badWord_keeps ht _
  · exact exec_keeps h _

theorem runWord_keeps (n) : OutKeeps (runWord n s) := by
  unfold runWord
  extract_lets site u
  have hu : Memory.wf u.mem = true := h
  split
  · exact badWord_keeps hu _
  · exact badWord_keeps hu _
  · exact runRep_keeps hu _
  · exact exec_keeps hu _

theorem attempt_keeps (core slot mask) : OutKeeps (attempt s core slot mask) := by
  unfold attempt
  extract_lets site u w pc
  have hu : Memory.wf u.mem = true := h
  split
  · next e => simp [mem_of_snd e, hu]
  · next e => exact runWord_keeps (by simp [mem_of_snd e, hu]) _

theorem packIssue_keeps (core launch pc n l) : OutKeeps (packIssue core launch pc n l s) := by
  induction l generalizing n s with
  | nil => exact outKeeps_next.mpr h
  | cons g t ih =>
    unfold packIssue
    refine OutKeeps.ite ?_ (ih h _)
    split
    · next e => exact ih (attempt_keeps h _ _ _ _ e) _
    · exact attempt_keeps h _ _ _

theorem stallAll_wf (core l) : Memory.wf (stallAll core l s).mem = true := by
  induction l generalizing s with
  | nil => exact h
  | cons g t ih =>
    unfold stallAll
    split
    · next e => exact ih (attempt_keeps h _ _ _ _ e)
    · exact ih h

omit h in
theorem selected_keeps (core last) {o} (ho : OutKeeps o) : OutKeeps (selected core last o) := by
  cases o with
  | next u => simpa [selected] using ho
  | fault f => exact outKeeps_fault
  | refused r => exact outKeeps_refused

theorem issueTurn_keeps (core) : OutKeeps (issueTurn core s) := by
  unfold issueTurn
  refine OutKeeps.ite (outKeeps_next.mpr h) ?_
  dsimp only
  split
  · exact outKeeps_next.mpr (stallAll_wf (by simpa using h) ..)
  · split
    · exact outKeeps_next.mpr (by simpa using h)
    · split
      · next u e =>
        have hu : Memory.wf u.mem = true := attempt_keeps (by simpa using h) _ _ _ u e
        exact OutKeeps.ite (selected_keeps _ _ (packIssue_keeps hu _ _ _ _ _)) (outKeeps_next.mpr hu)
      · exact attempt_keeps (by simpa using h) _ _ _

/-! ## The turns -/

theorem nmuTurn_keeps (stack place) : OutKeeps (nmuTurn stack place s) := by
  unfold nmuTurn
  extract_lets site v src
  have hv : Memory.wf v.mem = true := h
  split
  · exact outKeeps_next.mpr hv
  · refine OutKeeps.ite (outKeeps_next.mpr hv) ?_
    extract_lets u
    have hu : Memory.wf u.mem = true := by simpa [u, src] using hv
    split
    · simp [hu]
    · split
      · simp [hu]
      · split
        · exact exec_keeps hu _
        · simp [hu]
        · simp [hu]

theorem scriptTurn_keeps (place) : OutKeeps (scriptTurn place s) := by
  unfold scriptTurn
  extract_lets site v u
  have hv : Memory.wf v.mem = true := h
  have hu : Memory.wf u.mem = true := h
  split
  · exact outKeeps_next.mpr hv
  · refine OutKeeps.ite (outKeeps_next.mpr hv) ?_
    split
    · simp [hu]
    · split
      · exact exec_keeps hu _
      · simp [hu]
      · simp [hu]

theorem receiveCtl_keeps (bs) : OutKeeps (receiveCtl bs s) := by
  unfold receiveCtl
  split
  · exact execControllerGrant_keeps h _
  · exact execControllerDeny_keeps h _
  · exact execControllerFail_keeps h _
  · exact execControllerReleased_keeps h _
  · exact outKeeps_next.mpr h

theorem receivePacket_keeps (hd type p) : OutKeeps (receivePacket hd type p s) := by
  have stays : OutKeeps (.next s) := outKeeps_next.mpr h
  unfold receivePacket
  split
  · exact OutKeeps.ite (execRldPacket_keeps h _ _) stays
  · exact OutKeeps.ite (execRstPacket_keeps h _ _ _) stays
  · exact OutKeeps.ite (execRstfPacket_keeps h _ _ _ _) stays
  · exact execRatomPacket_keeps h _ _
  · exact execRemoteResponse_keeps h _ _ _
  · exact execRemoteAcknowledgement_keeps h _
  · exact OutKeeps.ite (receiveCtl_keeps h _) (execCratchMsg_keeps h _ _ _)
  · exact execManagementRead_keeps h _ _ _
  · exact execManagementWrite_keeps h _ _ _
  · exact stays

theorem receiveTurn_keeps (bs) : OutKeeps (receiveTurn bs s) :=
  OutKeeps.ite (outKeeps_next.mpr h) (receivePacket_keeps h _ _ _)

theorem turn_keeps (t) : OutKeeps (turn t s) := by
  have hu : Memory.wf ({ s with payer := none } : State).mem = true := h
  cases t with dsimp only [turn]
  | tick c n => exact outKeeps_next.mpr h
  | issue k => exact issueTurn_keeps hu _
  | nmu g p => exact nmuTurn_keeps hu _ _
  | script p => exact scriptTurn_keeps hu _
  | receive bs => exact receiveTurn_keeps hu _
  | copyError c n => exact outKeeps_next.mpr (copyError_wf hu ..)
  | event e => exact OutKeeps.ite (exec_keeps hu _) (outKeeps_next.mpr h)

end

/-! ## The move made when no turn is given -/

/-- A move keeps the memory in form, from every state in which it is made. -/
def MoveKeeps (m : Move) : Prop := ∀ u : State, Memory.wf u.mem = true → OutKeeps (m u)

theorem schedulerMoves_keep (s) : ∀ m ∈ schedulerMoves s, MoveKeeps m := by
  simp only [schedulerMoves, List.forall_mem_append, List.forall_mem_cons, List.forall_mem_flatMap, List.forall_mem_map,
    List.not_mem_nil, false_imp_iff, implies_true, and_true]
  refine ⟨⟨⟨⟨⟨⟨⟨?_, ?_, ?_, ?_⟩, ?_⟩, ?_⟩, ?_⟩, ?_⟩, ?_⟩, ?_⟩
  · exact fun _ hu => execTaskDecrement_keeps hu
  · exact fun _ hu => execPacketConsume_keeps hu
  · exact fun _ hu => execResidencyDecision_keeps hu
  · exact fun _ hu => execScriptStart_keeps hu
  · exact fun l _ => ⟨fun _ hu => execLaunchStart_keeps hu _, fun _ hu => execRelaunchHeaderRead_keeps hu _,
      fun _ hu => execGraphLoad_keeps hu _, fun _ hu => execLaunchEnd_keeps hu _⟩
  · exact fun g _ => ⟨fun _ hu => execGraphComplete_keeps hu _,
      fun n _ => ⟨fun _ hu => execNodeStart_keeps hu _ _, fun _ hu => execNodeEnd_keeps hu _ _⟩⟩
  · exact fun q _ => ⟨fun _ hu => execEnergyCharge_keeps hu _ _, fun _ hu => execBudgetRefill_keeps hu _⟩
  · exact fun c _ => ⟨fun _ hu => execGracelimExpiry_keeps hu _, fun _ hu => execGracefulSave_keeps hu _,
      fun _ hu => execDrainlimExpiry_keeps hu _, fun _ hu => execSwapComplete_keeps hu _⟩
  · exact fun p _ => ⟨fun _ hu => execImageMove_keeps hu _, fun _ hu => execPartitionImageWritten_keeps hu _⟩
  · exact fun n _ _ hu => execHeldRecordWrite_keeps hu _

theorem accessMoves_keep (s) : ∀ m ∈ accessMoves s, MoveKeeps m := by
  simp only [accessMoves, List.forall_mem_append, List.forall_mem_cons, List.forall_mem_flatMap, List.not_mem_nil,
    false_imp_iff, implies_true, and_true]
  exact fun t _ => ⟨⟨⟨fun _ hu => execFenceComplete_keeps hu _ _ _, fun _ hu => execTlbiComplete_keeps hu _ _ _,
      fun _ hu => execSketchReply_keeps hu _, fun _ hu => execScratchpadAccess_keeps hu _⟩,
      fun i _ => ⟨fun _ hu => execHomeAccess_keeps hu _ _, fun _ hu => execHostAccess_keeps hu _⟩⟩,
    fun _ hu => execStorePerformed_keeps hu _, fun _ hu => execLoadValueReturn_keeps hu _⟩

theorem engineMoves_keep (s) : ∀ m ∈ engineMoves s, MoveKeeps m := by
  simp only [engineMoves, List.forall_mem_append, List.forall_mem_cons, List.forall_mem_flatMap, List.forall_mem_map,
    List.not_mem_nil, false_imp_iff, implies_true, and_true]
  exact ⟨⟨fun c _ => ⟨fun k _ => ⟨fun _ hu => execCopyChunkPerformed_keeps hu _ _,
      fun _ hu => execCopyrChunkTimeout_keeps hu _ _⟩, fun _ hu => execCopyChunkIssue_keeps hu _⟩,
      ⟨fun _ hu => execCopyTakeUp_keeps hu _, fun k _ _ hu => execCopyTakeUp_keeps hu _⟩⟩,
    fun c _ => ⟨fun n _ _ hu => execPassPost_keeps hu _ _, fun _ hu => execPassKstepComplete_keeps hu _,
      fun _ hu => execPassGrant_keeps hu _⟩⟩

theorem coreMoves_keep (s) : ∀ m ∈ coreMoves s, MoveKeeps m := by
  simp only [coreMoves, List.forall_mem_append, List.forall_mem_cons, List.forall_mem_flatMap, List.forall_mem_map,
    List.not_mem_nil, false_imp_iff, implies_true, and_true]
  exact ⟨fun q _ => ⟨⟨fun _ hu => execWarpExited_keeps hu _ _, fun _ hu => execRrelRelease_keeps hu _ _,
      fun _ hu => execWarpForced_keeps hu _ _, fun _ hu => execFirmwareFaultRestart_keeps hu _ _⟩,
      fun j _ _ hu => execTimedWaitTimeout_keeps hu _ _ _⟩,
    fun k _ => ⟨fun _ hu => execRacqGrant_keeps hu _, fun _ hu => execEmergencyEpisode_keeps hu _,
      fun _ hu => execEmergencyGrant_keeps hu _, fun _ hu => execActiveSetUpdate_keeps hu _⟩⟩

theorem assignMoves_keep (s) : ∀ m ∈ assignMoves s, MoveKeeps m := by
  simp only [assignMoves, List.forall_mem_append, List.forall_mem_flatMap, List.forall_mem_map, List.forall_mem_filterMap,
    Option.map_eq_some_iff]
  refine ⟨fun c _ _ hu => execClusterBlockResident_keeps hu _, fun l _ cl _ m hm => ?_⟩
  obtain ⟨k, -, rfl⟩ := hm
  exact fun _ hu => execClusterBlockAssign_keeps hu _ _ _

theorem fabricMoves_keep (s) : ∀ m ∈ fabricMoves s, MoveKeeps m := by
  simp only [fabricMoves, List.forall_mem_append, List.forall_mem_cons, List.forall_mem_flatMap, List.forall_mem_map,
    List.not_mem_nil, false_imp_iff, implies_true, and_true]
  exact ⟨⟨⟨⟨fun u _ => ⟨fun _ hu => execNmuNodeLoad_keeps hu _,
      fun p _ => ⟨fun _ hu => execNwaitRelease_keeps hu _ _, fun _ hu => execNmuProgramSave_keeps hu _ _⟩⟩,
      fun x _ _ hu => execCratchWaitEnd_keeps hu _⟩,
      fun r _ _ hu => execRemoteTimeout_keeps hu _ _⟩,
      fun c _ _ hu => execRequestSilence_keeps hu _⟩,
    fun p _ => ⟨⟨fun _ hu => execPortDrained_keeps hu _, fun _ hu => execDrainTimeout_keeps hu _,
      fun _ hu => execReceiveSilence_keeps hu _, fun _ hu => execReplayTimeout_keeps hu _, fun _ hu => execAutoWake_keeps hu _,
      fun _ hu => execLockTimeout_keeps hu _⟩, fun k _ _ hu => execWakeTimeout_keeps hu _ _⟩⟩

theorem agentMoves_keep (s) : ∀ m ∈ agentMoves s, MoveKeeps m := by
  simp only [agentMoves, List.forall_mem_append, List.forall_mem_map, List.forall_mem_filterMap, Option.map_eq_some_iff]
  refine ⟨fun u _ m hm => ?_, fun p _ _ hu => scriptTurn_keeps hu _⟩
  obtain ⟨p, -, rfl⟩ := hm
  exact fun _ hu => nmuTurn_keeps hu _ _

section
variable {s : State} (h : Memory.wf s.mem = true)
include h

theorem firstMove_keeps {l o} (hl : ∀ m ∈ l, MoveKeeps m) (e : firstMove s l = some o) : OutKeeps o := by
  induction l with
  | nil => cases e
  | cons m t ih =>
    obtain ⟨hm, ht⟩ := List.forall_mem_cons.mp hl
    unfold firstMove at e
    split at e
    · next u eu =>
      split at e
      · exact ih ht e
      · cases e
        exact outKeeps_next.mpr (hm s h u eu)
    · cases e
      exact hm s h

theorem seqMoves_keeps {l} (hl : ∀ m ∈ l, MoveKeeps m) : OutKeeps (seqMoves l s) := by
  induction l generalizing s with
  | nil => exact outKeeps_next.mpr h
  | cons m t ih =>
    obtain ⟨hm, ht⟩ := List.forall_mem_cons.mp hl
    unfold seqMoves
    split
    · next u eu => exact ih (hm s h u eu) ht
    · exact hm s h

theorem issueMove_keeps {o} (e : issueMove s = some o) : OutKeeps o := by
  obtain ⟨k, -, rfl⟩ := Option.map_eq_some_iff.mp e
  exact issueTurn_keeps h _

theorem autoTurn_keeps : OutKeeps (autoTurn s) := by
  unfold autoTurn
  extract_lets u
  have hu : Memory.wf u.mem = true := h
  split
  · next e =>
    refine firstMove_keeps hu ?_ e
    simp only [List.forall_mem_append]
    exact ⟨⟨⟨⟨⟨schedulerMoves_keep u, accessMoves_keep u⟩, engineMoves_keep u⟩, coreMoves_keep u⟩, assignMoves_keep u⟩,
      fabricMoves_keep u⟩
  · split
    · next e => exact issueMove_keeps hu e
    · refine seqMoves_keeps hu ?_
      simp only [List.forall_mem_append, List.forall_mem_singleton]
      exact ⟨agentMoves_keep u, fun _ hv => outKeeps_next.mpr hv⟩

/-- Every step keeps the memory in canonical form. -/
theorem step_keeps : OutKeeps (step s) := by
  unfold step
  split
  · exact turn_keeps (by exact h) _
  · exact autoTurn_keeps h

end

end Sys2Proof.Machine

namespace Sys2Proof.Claims
open Sys2Proof.Machine

/-- Settles O56: every instruction, turn and move of an agent keeps the memory's form, for what writes bytes does. -/
theorem stepKeepsMemoryCanonical : Obligations.StepKeepsMemoryCanonical := fun _ t h e => step_keeps h t e

end Sys2Proof.Claims
end

section
/-! PROOFS. PUBL and the TLBI words (06 R225-R228). -/

namespace Sys2Proof.Claims

open Sys2Proof.Machine

/-! ## A word that writes a register leaves the rest of the device -/

theorem wbLanes_ctxs (s : State) (d : Dst) (wide sgn : Bool) (lat : Nat) (f : Nat → Nat) :
    (wbLanes s d wide sgn lat f).ctxs = s.ctxs := by
  rw [wbLanes_eq]
  rfl

theorem wbLanes_gen (s : State) (d : Dst) (wide sgn : Bool) (lat : Nat) (f : Nat → Nat) : (wbLanes s d wide sgn lat f).gen = s.gen := by
  rw [wbLanes_eq]
  rfl

/-! ## The publish event -/

@[simp] theorem publish_gen (s : State) (ctx g tag : Nat) : (publish s ctx g tag).gen = s.gen + 1 := rfl

theorem publish_ctxs (s : State) (ctx g tag : Nat) : (publish s ctx g tag).ctxs = madj s.ctxs ctx (fun c => { c with
    sel := mput false c.sel g (!mgetD c.sel g false), stamps := mset c.stamps g (s.gen + 1, tag) }) := rfl

/-- A context with the selector of a group flipped and the group stamped, every other group as it was. -/
theorem publish_group (s : State) (ctx g tag : Nat) {x : Ctx} (hx : ctxOf s ctx = some x) :
    ∃ y, ctxOf (publish s ctx g tag) ctx = some y ∧
      mgetD y.sel g false = !mgetD x.sel g false ∧ mget y.stamps g = some (s.gen + 1, tag) ∧
      ∀ k, k ≠ g → mgetD y.sel k false = mgetD x.sel k false ∧ mget y.stamps k = mget x.stamps k := by
  refine ⟨{ x with sel := mput false x.sel g (!mgetD x.sel g false), stamps := mset x.stamps g (s.gen + 1, tag) }, ?_,
    mgetD_mput_self .., mget_mset_self .., fun k hk => ⟨?_, mget_mset_ne _ _ hk.symm⟩⟩
  · rw [ctxOf, publish_ctxs, mget_madj, if_pos rfl, ← ctxOf, hx]
    rfl
  · rw [mgetD_mput, if_neg hk.symm]

/-- PUBL with every access of its warp performed. -/
theorem publ_completes {s : State} {d : Dst} {a : Opnd} (hi : Issues { ops := [(a, false)], dst := some (d, 2) } s)
    (hr : releasedAll (noteIssue s) = true) :
    let v := traceVolatile (fenceDev (noteIssue s)) (cw s)
    exec (.publ d a) s = .next (wbLanes (publish v (cw v).ctx (lowOp v false a % 1024) (launchTag v (cw v).launch)) d true false 2
      (fun _ => (v.gen + 1).toNat)) := by
  intro v
  rw [exec_publ]
  refine issueWord_done hi ?_
  simp [hr, v]

/-! ## The TLBI words -/

theorem mgetD_mmap_nil {α : Type} (f : List α → List α) (hf : f [] = []) (m : SMap (List α)) (k : Nat) :
    mgetD (mmap f m) k [] = f (mgetD m k []) := by
  have hm : mget (mmap f m) k = (mget m k).map f := mget_map_key m (fun _ => f) k
  rw [mgetD, mgetD, hm]
  cases mget m k with
  | none => exact hf.symm
  | some l => rfl

/-- What is left of a TLB after the entries that meet a test are dropped. -/
theorem mem_mmap_filter {m : SMap (List TlbEnt)} {p : TlbEnt → Bool} {k : Nat} {e : TlbEnt} :
    e ∈ mgetD (mmap (fun l => l.filter (fun e => !p e)) m) k [] ↔ e ∈ mgetD m k [] ∧ p e = false := by
  rw [mgetD_mmap_nil _ rfl, List.mem_filter, Bool.not_eq_true']

/-- The operation that a TLBI word leaves in flight. -/
theorem putFence_tx (s : State) (core slot mask : Nat) (k : TxKind) :
    ∃ x, mget (putFence s core slot mask k).txs s.nextId = some x ∧ x.kind = k ∧ x.core = core ∧ x.slot = slot ∧ x.mask = mask :=
  ⟨_, mget_mset_self .., rfl, rfl, rfl, rfl⟩

/-- The TLBI words by the entries that each names. -/
theorem tlbiWord_completes {i : Instr} {u : Use} {p : State → TlbEnt → Bool} {q : TlbEnt → Bool} {s : State}
    (he : exec i s = tlbiWord u p s) (hi : Issues u s) (hq : p (noteIssue s) = q) :
    let v := fenceDev (noteIssue s)
    (releasedAll (noteIssue s) = false → Waits i s) ∧
    (releasedAll (noteIssue s) = true → Ends i s (fun t =>
      (∀ k e, e ∈ mgetD t.tlb1 k [] ↔ e ∈ mgetD v.tlb1 k [] ∧ q e = false) ∧
      (∀ k e, e ∈ mgetD t.tlb2 k [] ↔ e ∈ mgetD v.tlb2 k [] ∧ q e = false) ∧
      (∃ x, mget t.txs v.nextId = some x ∧ x.kind = .tlbi ∧ x.core = s.cur.core ∧ x.slot = s.cur.slot ∧ x.mask = 0xFFFF) ∧
      Passes (putFence (dropTlb v q) s.cur.core s.cur.slot 0xFFFF .tlbi) t)) := by
  intro v
  subst hq
  refine ⟨fun hr => he.trans (issueWord_stall hi (by simp [hr])), fun hr =>
    ⟨retireVoid (putFence (dropTlb v (p (noteIssue s))) s.cur.core s.cur.slot 0xFFFF .tlbi), he.trans (issueWord_done hi ?_),
      fun _ _ => mem_mmap_filter, fun _ _ => mem_mmap_filter, putFence_tx .., passes_any _⟩⟩
  simp [hr, v]

/-- Settles O30. PUBL writes its register over the published state, and the register is no part of the contexts; the three TLBI words are
one word over the entries that they name, which issuing does not change. -/
theorem publishAndTlbiWordsComplete : Obligations.PublishAndTlbiWordsComplete := by
  refine ⟨fun s d a hi => ⟨fun hr => ?_, fun hr => ?_⟩, fun s =>
    ⟨fun n hi => tlbiWord_completes (exec_tlbiVa n s) hi ?_, fun hi => tlbiWord_completes (exec_tlbiCtx s) hi ?_,
      fun hi => tlbiWord_completes (exec_tlbiAll s) hi rfl⟩⟩
  · exact (exec_publ d a s).trans (issueWord_stall hi (by simp [hr]))
  · refine ⟨_, publ_completes hi hr, wbLanes_gen .., fun x hx => ?_, writesReg_any ..⟩
    rw [ctxOf, wbLanes_ctxs]
    exact publish_group _ _ _ _ hx
  · simp
  · simp

end Sys2Proof.Claims
end

section
/-! PROOFS. What a word does that puts an access in flight, or changes the cluster's cache only (07 R234, R255, R263-R267). -/

namespace Sys2Proof.Claims

open Sys2Proof.Machine

/-! ## The issuing warp as the traces name it

A trace names the block of the warp as it stands after its operation has been counted. -/

section

variable {s u : State}

theorem onlyTlbs_cw (h : OnlyTlbs s u) : cw u = cw s := by
  rw [h]
  rfl

theorem onlyTlbs_of_xlatLanes {cl ctx n : Nat} {k : AccessKind} {addr : Nat → Nat} {l : List Nat}
    {r : Except FaultInfo (List (Nat × Xlat))} (h : xlatLanes cl ctx n k addr l s = (r, u)) : OnlyTlbs s u := by
  have ht := onlyTlbs_xlatLanes cl ctx n k addr l s
  rwa [h] at ht

/-- Counting an operation changes neither the launch nor the block of its warp. -/
theorem cw_counted_launch_block (u : State) (ic : Nat) (tx : Tx) :
    (cw (counted u ic tx)).launch = (cw u).launch ∧ (cw (counted u ic tx)).block = (cw u).block := by
  have hc : cw (counted u ic tx) = if (mget (coreOf u u.cur.core).warps u.cur.slot).isSome then (cw u).raise ic u.nextId else Warp.empty :=
    cw_updCw _ _
  rw [hc]
  split
  · exact ⟨rfl, rfl⟩
  · next ha => rw [cw_absent u ha]; exact ⟨rfl, rfl⟩

/-- After the note of its issue, its translations and its count a warp has the launch and the block that it had. -/
theorem cw_counted_issued (hu : OnlyTlbs (noteIssue s) u) (ic : Nat) (tx : Tx) :
    (cw (counted u ic tx)).launch = (cw s).launch ∧ (cw (counted u ic tx)).block = (cw s).block := by
  obtain ⟨hl, hb⟩ := cw_counted_launch_block u ic tx
  rw [hl, hb, onlyTlbs_cw hu]
  exact ⟨cw_noteIssue_launch s, cw_noteIssue_block s⟩

theorem traceXlats_counted (hu : OnlyTlbs (noteIssue s) u) (ic : Nat) (tx : Tx) (wr : Bool) (xs : List Xlat) :
    traceXlats (counted u ic tx) (cw (counted u ic tx)) wr xs = traceXlats (counted u ic tx) (cw s) wr xs :=
  have ⟨hl, hb⟩ := cw_counted_issued hu ic tx
  traceXlats_congr _ hl hb wr xs

theorem traceVolatile_counted (hu : OnlyTlbs (noteIssue s) u) (ic : Nat) (tx : Tx) :
    traceVolatile (counted u ic tx) (cw (counted u ic tx)) = traceVolatile (counted u ic tx) (cw s) :=
  have ⟨hl, hb⟩ := cw_counted_issued hu ic tx
  traceVolatile_congr _ hl hb

end

/-! ## Words that put an access in flight -/

theorem sameVals_refl (s : State) : SameVals s s := ⟨rfl, rfl, rfl, rfl⟩

theorem sameSite_refl (s : State) : SameSite s s := ⟨rfl, rfl⟩

section

variable {i : Instr} {s u : State} {us : Use} {body : State → Act} {ic : Nat} {tx : Tx} {d : Dst} {n : Nat} {e : Nat → EntryBody}
  {wr : Bool} {xs : List Xlat}

/-- The word's own fault. -/
theorem faults_of_trap {f : FaultInfo} (he : exec i s = issueWord us body s) (hi : Issues us s) (hb : body (noteIssue s) = .trap f) :
    Faults i s f :=
  he.trans (issueWord_trap hi hb)

/-- A load at the core: nothing is translated or traced. -/
theorem sendsLoad_near (he : exec i s = issueWord us body s) (hi : Issues us s)
    (hb : body (noteIssue s) = issueTx (noteIssue s) ic tx (fun id v => issuePend v d n (e id) id)) :
    SendsLoad i s (noteIssue s) (counted (noteIssue s) ic tx) ic tx d n (e s.nextId) :=
  sendsLoad_of (B := id) he hi hb (onlyTlbs_refl _) (sameVals_refl _) (sameSite_refl _)

/-- A load through the map: its tiles are traced. -/
theorem sendsLoad_traced (he : exec i s = issueWord us body s) (hi : Issues us s) (hu : OnlyTlbs (noteIssue s) u)
    (hb : body (noteIssue s) = issueTx u ic tx (fun id v => issuePend (traceXlats v (cw v) wr xs) d n (e id) id)) :
    SendsLoad i s u (traceXlats (counted u ic tx) (cw s) wr xs) ic tx d n (e u.nextId) := by
  rw [← traceXlats_counted hu]
  exact sendsLoad_of (B := fun v => traceXlats v (cw v) wr xs) he hi hb hu (sameVals_trace ..) (sameSite_trace ..)

/-- An atomic through the map: its block becomes volatile. -/
theorem sendsLoad_volatile (he : exec i s = issueWord us body s) (hi : Issues us s) (hu : OnlyTlbs (noteIssue s) u)
    (hb : body (noteIssue s) = issueTx u ic tx (fun id v => issuePend (traceVolatile v (cw v)) d n (e id) id)) :
    SendsLoad i s u (traceVolatile (counted u ic tx) (cw s)) ic tx d n (e u.nextId) := by
  rw [← traceVolatile_counted hu]
  exact sendsLoad_of (B := fun v => traceVolatile v (cw v)) he hi hb hu (sameVals_volatile ..) (sameSite_volatile ..)

/-- A word without a result that traces nothing. -/
theorem sendsStore_untraced (he : exec i s = issueWord us body s) (hi : Issues us s) (hu : OnlyTlbs (noteIssue s) u)
    (hb : body (noteIssue s) = issueTx u ic tx (fun _ v => retireVoid v)) : SendsStore i s u (counted u ic tx) ic tx :=
  sendsStore_of (B := id) he hi hb hu (sameVals_refl _)

/-- A store through the map: its tiles are traced. -/
theorem sendsStore_traced (he : exec i s = issueWord us body s) (hi : Issues us s) (hu : OnlyTlbs (noteIssue s) u)
    (hb : body (noteIssue s) = issueTx u ic tx (fun _ v => retireVoid (traceXlats v (cw v) wr xs))) :
    SendsStore i s u (traceXlats (counted u ic tx) (cw s) wr xs) ic tx := by
  rw [← traceXlats_counted hu]
  exact sendsStore_of (B := fun v => traceXlats v (cw v) wr xs) he hi hb hu (sameVals_trace ..)

end

/-! ## Words that complete without a result -/

section

variable {i : Instr} {s v : State} {us : Use} {body : State → Act}

/-- A word whose effect is on units other than the warp completes without a result, and no value changes. -/
theorem ends_quiet_passes (he : exec i s = issueWord us body s) (hi : Issues us s) (hv : SameVals (noteIssue s) v)
    (hb : body (noteIssue s) = .done (retireVoid v)) : Ends i s (fun t => Quiet s t ∧ Passes v t) :=
  ⟨_, he.trans (issueWord_done hi hb), quiet_of_frame (sameVals_trans (sameVals_note s) hv) (passes_any v), passes_any v⟩

/-- The same for a switch point whose wait is met at issue. -/
theorem ends_quiet_passesSwitch (he : exec i s = issueWord us body s) (hi : Issues us s) (hv : SameVals (noteIssue s) v)
    (hb : body (noteIssue s) = .done (retireSwitch v (fun _ => [.void]))) : Ends i s (fun t => Quiet s t ∧ PassesSwitch v t) :=
  ⟨_, he.trans (issueWord_done hi hb), quiet_of_frame (sameVals_trans (sameVals_note s) hv) (passesSwitch_any v), passesSwitch_any v⟩

/-- The same for a switch point whose slices park. -/
theorem ends_quiet_parks {o : WaitObj} (he : exec i s = issueWord us body s) (hi : Issues us s)
    (hb : body (noteIssue s) = .done (park (noteIssue s) o)) : Ends i s (fun t => Quiet s t ∧ Parks (noteIssue s) t o) :=
  ⟨_, he.trans (issueWord_done hi hb), quiet_of_frame (sameVals_note s) (parks_any _ o), parks_any _ o⟩

end

/-! ## What drops lines of a cache, or starts a fence, keeps every value -/

theorem sameVals_foldl {β : Type} {f : State → β → State} (hf : ∀ v b, SameVals v (f v b)) (l : List β) (s : State) :
    SameVals s (l.foldl f s) := by
  induction l generalizing s with
  | nil => exact sameVals_refl s
  | cons b t ih => exact sameVals_trans (hf s b) (ih _)

theorem sameVals_dropClean (s : State) (cl ctx : Nat) : SameVals s (dropClean s cl ctx) :=
  sameVals_foldl (fun v x => by split <;> exact ⟨rfl, rfl, rfl, rfl⟩) _ s

theorem sameVals_dropSectors (s : State) (cl line : Nat) : SameVals s (dropSectors s cl line) := by
  unfold dropSectors
  split
  · exact sameVals_refl s
  · split <;> exact ⟨rfl, rfl, rfl, rfl⟩

theorem sameVals_putFence (s : State) (core slot mask : Nat) (k : TxKind) : SameVals s (putFence s core slot mask k) :=
  ⟨rfl, rfl, rfl, rfl⟩

end Sys2Proof.Claims
end

section
/-! PROOFS. Loads, stores and atomics (07 R251, R257-R262, R265). -/

namespace Sys2Proof.Claims

open Sys2Proof.Machine

/-- Settles O15: each load is one access in flight over its lanes as they were translated or checked, and the note of the issue changes
none of the values that its lanes, addresses and area are read from. -/
theorem loadWordsSendAccess : Obligations.LoadWordsSendAccess := by
  intro s
  dsimp only
  refine ⟨fun x hi => ⟨fun ls u h => ?_, fun f u h => ?_⟩, fun x hi => ⟨fun ls h => ?_, fun f h => ?_⟩,
    fun x hi => ⟨fun ls h => ⟨fun hp => ?_, fun hp => ?_⟩, fun f h => ?_⟩, fun x hi => ⟨fun ls u h => ?_, fun f u h => ?_⟩⟩
  · refine sendsLoad_traced (e := loadEntry x.d x.size) (exec_ld x s) hi (onlyTlbs_of_xlatLanes h) ?_
    simp only [noteIssue_cur, cw_noteIssue_ctx, effAddr_noteIssue, loadLanes_noteIssue, h]
  · exact faults_of_trap (exec_ld x s) hi (by simp only [noteIssue_cur, cw_noteIssue_ctx, effAddr_noteIssue, loadLanes_noteIssue, h])
  · refine sendsLoad_near (e := loadEntry x.d x.size) (exec_lds x s) hi ?_
    simp only [effAddr32_noteIssue, loadLanes_noteIssue, scratchLanes_noteIssue, h]
  · exact faults_of_trap (exec_lds x s) hi (by simp only [effAddr32_noteIssue, loadLanes_noteIssue, scratchLanes_noteIssue, h])
  · refine sendsLoad_near (e := loadEntry x.d x.size) (exec_ldw x s) hi ?_
    simp only [effAddr_noteIssue, loadLanes_noteIssue, h, hp, Bool.false_eq_true, if_false]
  · exact (exec_ldw x s).trans (issueWord_stall hi (by simp only [effAddr_noteIssue, loadLanes_noteIssue, h, hp, if_true]))
  · exact faults_of_trap (exec_ldw x s) hi (by simp only [effAddr_noteIssue, loadLanes_noteIssue, h])
  · refine sendsLoad_traced (e := loadEntry x.d x.size) (exec_ldc x s) hi (onlyTlbs_of_xlatLanes h) ?_
    simp only [noteIssue_cur, cw_noteIssue_ctx, argArea_noteIssue, effAddr32_noteIssue, loadLanes_noteIssue, h]
  · exact faults_of_trap (exec_ldc x s) hi
      (by simp only [noteIssue_cur, cw_noteIssue_ctx, argArea_noteIssue, effAddr32_noteIssue, loadLanes_noteIssue, h])

/-- Settles O16: each store is one access in flight with the bytes of its lanes, and the memory changes at its performed event only. -/
theorem storeWordsSendAccess : Obligations.StoreWordsSendAccess := by
  intro s
  dsimp only
  refine ⟨fun x hi => ⟨fun ls u h => ?_, fun f u h => ?_⟩, fun x hi => ⟨fun ls h => ?_, fun f h => ?_⟩,
    fun x hi => ⟨fun ls h => ⟨fun hp => ?_, fun hp => ?_⟩, fun f h => ?_⟩⟩
  · refine sendsStore_traced (exec_st x s) hi (onlyTlbs_of_xlatLanes h) ?_
    simp only [noteIssue_cur, cw_noteIssue_ctx, effAddr_noteIssue, perfLanes_noteIssue, storeBytes_noteIssue, h]
  · exact faults_of_trap (exec_st x s) hi (by simp only [noteIssue_cur, cw_noteIssue_ctx, effAddr_noteIssue, perfLanes_noteIssue, h])
  · refine sendsStore_untraced (exec_sts x s) hi (onlyTlbs_refl _) ?_
    simp only [effAddr32_noteIssue, perfLanes_noteIssue, scratchLanes_noteIssue, storeBytes_noteIssue, h]
  · exact faults_of_trap (exec_sts x s) hi (by simp only [effAddr32_noteIssue, perfLanes_noteIssue, scratchLanes_noteIssue, h])
  · refine sendsStore_untraced (exec_stw x s) hi (onlyTlbs_refl _) ?_
    simp only [effAddr_noteIssue, perfLanes_noteIssue, storeBytes_noteIssue, h, hp, Bool.false_eq_true, if_false]
  · exact (exec_stw x s).trans (issueWord_stall hi (by simp only [effAddr_noteIssue, perfLanes_noteIssue, h, hp, if_true]))
  · exact faults_of_trap (exec_stw x s) hi (by simp only [effAddr_noteIssue, perfLanes_noteIssue, h])

section

variable {i : Instr} {op : AtomOp} {s : State} {x : AtomArgs}

/-- The lanes of an atomic with the operands that it reads for them. -/
def atomAccs (s : State) (op : AtomOp) (x : AtomArgs) (ls : List (Nat × Xlat)) : List LaneAcc :=
  ls.map (fun q => mkLane q.1 q.2 [] (atomVals s op x.c x.wide q.1).1 (atomVals s op x.c x.wide q.1).2)

/-- An atomic of the home, by its operation. -/
theorem atomWord_sends (he : exec i s = atomWord op x s) (hi : Issues (atomUse x op true) s) :
    let n := if x.wide then 8 else 4
    let lanes := xlatLanes (clusterOf s.cur.core) (cw s).ctx n .rmw (effAddr s (atomMem x) n) (perfLanes s (some x.g)) (noteIssue s)
    (∀ ls u, lanes = (.ok ls, u) →
      let tx := mkTx u true false (.atom op x.d x.wide x.sgn) (groupLines true (atomAccs s op x ls))
      SendsLoad i s u (traceVolatile (counted u 1 tx) (cw s)) 1 tx x.d (if x.wide then 2 else 1) (pendEntry x.d.reg x.wide u.nextId)) ∧
    (∀ f u, lanes = (.error f, u) → Faults i s f) := by
  dsimp only
  refine ⟨fun ls u h => ?_, fun f u h => faults_of_trap he hi ?_⟩
  · refine sendsLoad_volatile (e := pendEntry x.d.reg x.wide) he hi (onlyTlbs_of_xlatLanes h) ?_
    simp only [noteIssue_cur, cw_noteIssue_ctx, effAddr_noteIssue, perfLanes_noteIssue, atomVals_noteIssue, atomAccs, h]
  · simp only [noteIssue_cur, cw_noteIssue_ctx, effAddr_noteIssue, perfLanes_noteIssue, h]

/-- An atomic of the scratchpad, by its operation. -/
theorem atomsWord_sends (he : exec i s = atomsWord op x s) (hi : Issues (atomUse x op false) s) :
    let n := if x.wide then 8 else 4
    let lanes := scratchLanes s n (effAddr32 s (atomMem x) n) (perfLanes s (some x.g))
    (∀ ls, lanes = .ok ls →
      let tx := mkTx (noteIssue s) true false (.atom op x.d x.wide x.sgn) (onePart .scratch (atomAccs s op x ls))
      SendsLoad i s (noteIssue s) (counted (noteIssue s) 0 tx) 0 tx x.d (if x.wide then 2 else 1)
        (pendEntry x.d.reg x.wide s.nextId)) ∧
    (∀ f, lanes = .error f → Faults i s f) := by
  dsimp only
  refine ⟨fun ls h => ?_, fun f h => faults_of_trap he hi ?_⟩
  · refine sendsLoad_near (e := pendEntry x.d.reg x.wide) he hi ?_
    simp only [effAddr32_noteIssue, perfLanes_noteIssue, scratchLanes_noteIssue, atomVals_noteIssue, atomAccs, h]
  · simp only [effAddr32_noteIssue, perfLanes_noteIssue, scratchLanes_noteIssue, h]

end

/-- Settles O17: the atomics of the home are one word over their operation, and so are those of the scratchpad. -/
theorem atomicWordsSendAccess : Obligations.AtomicWordsSendAccess := by
  intro s x
  exact ⟨atomWord_sends (exec_atomAdd x s), atomWord_sends (exec_atomMin x s), atomWord_sends (exec_atomMax x s),
    atomWord_sends (exec_atomAnd x s), atomWord_sends (exec_atomOr x s), atomWord_sends (exec_atomXor x s),
    atomWord_sends (exec_atomExch x s), atomWord_sends (exec_atomCas x s), atomWord_sends (exec_atomFadd x s),
    atomsWord_sends (exec_atomsAdd x s), atomsWord_sends (exec_atomsMin x s), atomsWord_sends (exec_atomsMax x s),
    atomsWord_sends (exec_atomsAnd x s), atomsWord_sends (exec_atomsOr x s), atomsWord_sends (exec_atomsXor x s),
    atomsWord_sends (exec_atomsExch x s), atomsWord_sends (exec_atomsCas x s), atomsWord_sends (exec_atomsFadd x s)⟩

end Sys2Proof.Claims
end

section
/-! PROOFS. PREF, CFLSH, CINV, FENCE, RFENCE and WAITC (07 R263, R264, R266, R267, 15 R456). -/

namespace Sys2Proof.Claims

open Sys2Proof.Machine

/-! ## Cache words -/

theorem cacheXlat_noteIssue (x : CacheArgs) (s : State) : cacheXlat x (noteIssue s) =
    xlatLanes (clusterOf s.cur.core) (cw s).ctx 1 .read (effAddr s x.m 1) (perfLanes s none) (noteIssue s) := by
  rw [cacheXlat, noteIssue_cur, cw_noteIssue_ctx, effAddr_noteIssue, perfLanes_noteIssue]

section

variable {s u : State} {x : CacheArgs} {ls : List (Nat × Xlat)} {f : FaultInfo}

/-- A PREF that would fault is dropped, the other cache words take the fault. -/
theorem cacheWords_fault (hi : Issues (cacheUse x) s) (h : cacheXlat x (noteIssue s) = (.error f, u)) :
    Ends (.pref x) s (Passes (noteIssue s)) ∧ Faults (.cflsh x) s f ∧ Faults (.cinv x) s f :=
  ⟨⟨_, (exec_pref x s).trans (issueWord_done hi (by rw [h])), passes_any _⟩,
    faults_of_trap (exec_cflsh x s) hi (by rw [h]), faults_of_trap (exec_cinv x s) hi (by rw [h])⟩

theorem pref_drops (hi : Issues (cacheUse x) s) (h : cacheXlat x (noteIssue s) = (.ok ls, u))
    (hd : 256 ≤ tableUsed s s.cur.core ∨ ∃ q ∈ ls, q.2.nc = true ∨ inDevice q.2.pa = false) : Ends (.pref x) s (Passes (noteIssue s)) := by
  refine ⟨_, (exec_pref x s).trans (issueWord_done hi ?_), passes_any _⟩
  rw [h]
  exact if_pos (hd.imp id fun ⟨q, hq, ho⟩ => List.any_eq_true.mpr ⟨q, hq, by simpa using ho⟩)

theorem pref_fetches (hi : Issues (cacheUse x) s) (h : cacheXlat x (noteIssue s) = (.ok ls, u))
    (hr : tableUsed s s.cur.core < 256) (hc : ∀ q ∈ ls, q.2.nc = false ∧ inDevice q.2.pa = true) :
    Ends (.pref x) s (Passes (ls.foldl (fun v q =>
      if x.opt then (homeRead v q.2.key (q.2.pa / 64 * 64) 64).2
      else (cacheRead v (clusterOf v.cur.core) (cw v).ctx q.2.key (q.2.pa / 64 * 64) 64).2) u)) := by
  have hn : ¬ (ls.any (fun q => q.2.nc || !inDevice q.2.pa) = true) := by
    simp only [List.any_eq_true, not_exists, not_and]
    exact fun q hq => by simp [hc q hq]
  refine ⟨_, (exec_pref x s).trans (issueWord_done hi ?_), passes_any _⟩
  rw [h]
  exact if_neg (not_or.mpr ⟨Nat.not_le.mpr hr, hn⟩)

/-- CINV waits behind the warp's accesses to its lines and for their table entries; else it drops the lines' clean sectors. -/
theorem cinv_dropsOrWaits (hi : Issues (cacheUse x) s) (h : cacheXlat x (noteIssue s) = (.ok ls, u)) (hu : OnlyTlbs (noteIssue s) u) :
    let busy := (∃ q ∈ ls, lineBusy (noteIssue s) (q.2.pa / 256) = true) ∨
      256 < tableUsed s s.cur.core + ((ls.map (fun q => q.2.pa / 256)).eraseDups).length
    (¬ busy → Ends (.cinv x) s (fun t => Quiet s t ∧ Passes (ls.foldl (fun v q =>
      if q.2.nc || !inDevice q.2.pa then v else dropSectors v (clusterOf v.cur.core) (q.2.pa / 256)) u) t)) ∧
    (busy → Waits (.cinv x) s) := by
  intro busy
  have hd : SameVals u (ls.foldl (fun v q =>
      if q.2.nc || !inDevice q.2.pa then v else dropSectors v (clusterOf v.cur.core) (q.2.pa / 256)) u) := by
    refine sameVals_foldl (fun v q => ?_) ls u
    split
    · exact sameVals_refl v
    · exact sameVals_dropSectors ..
  have ha : ls.any (fun q => lineBusy (noteIssue s) (q.2.pa / 256)) = true ↔ ∃ q ∈ ls, lineBusy (noteIssue s) (q.2.pa / 256) = true :=
    List.any_eq_true
  refine ⟨fun hb => ends_quiet_passes (exec_cinv x s) hi (sameVals_trans (sameVals_tlbs hu) hd) ?_,
    fun hb => (exec_cinv x s).trans (issueWord_stall hi ?_)⟩
  · rw [h]
    exact if_neg fun g => hb (g.imp ha.mp id)
  · rw [h]
    exact if_pos (hb.imp ha.mpr id)

end

/-- Settles O18, by the answer of the translation that the three words share. -/
theorem cacheWordsComplete : Obligations.CacheWordsComplete := by
  intro s x hi c lanes
  have hl : cacheXlat x c = lanes := cacheXlat_noteIssue x s
  refine ⟨fun f u h => cacheWords_fault hi (hl.trans h), fun ls u h => ?_⟩
  have hx := hl.trans h
  have hu := onlyTlbs_of_xlatLanes h
  exact ⟨pref_drops hi hx, pref_fetches hi hx, sendsStore_untraced (exec_cflsh x s) hi hu (by rw [hx]), cinv_dropsOrWaits hi hx hu⟩

/-! ## Fences and waits -/

theorem waitcMet_iff (w : Warp) (mask thr : Nat) : waitcMet w mask thr = true ↔ ∀ i, i < 6 → bit mask i = true → w.ic i ≤ thr := by
  simp only [waitcMet, List.all_eq_true, List.mem_range, Bool.or_eq_true, Bool.not_eq_true', decide_eq_true_eq]
  exact forall₂_congr fun i _ => by cases bit mask i <;> simp

theorem waitcMet_noteIssue (s : State) (mask thr : Nat) : waitcMet (cw (noteIssue s)) mask thr = waitcMet (cw s) mask thr := by
  simp only [waitcMet, ic_noteIssue]

/-- What WAITC compares its counters with (07 R267). -/
def waitcBound (s : State) : WaitThreshold → Nat
  | .imm n => n
  | .opnd a => op32 s a (lane0 (curLow s))

theorem waitcBound_noteIssue (s : State) (th : WaitThreshold) : waitcBound (noteIssue s) th = waitcBound s th := by
  cases th with
  | imm n => rfl
  | opnd a => simp only [waitcBound, op32_noteIssue, curLow_noteIssue]

/-- WAITC by its bound. -/
theorem exec_waitc_eq (mask : Nat) (th : WaitThreshold) (s : State) : exec (.waitc mask th) s =
    issueWord { ops := match th with | .imm _ => [] | .opnd a => [(a, false)] } (fun v =>
      if waitcMet (cw v) mask (waitcBound v th) then
        .done (retireSwitch (if bit mask 2 then dropClean v (clusterOf v.cur.core) (cw v).ctx else v) (fun _ => [.void]))
      else .done (park v (.waitc mask (waitcBound v th)))) s := by
  cases th <;> rfl

/-- Settles O19: the two fences pass with a fence in flight, and WAITC passes or parks as its counters meet its bound. -/
theorem fenceAndWaitcWordsComplete : Obligations.FenceAndWaitcWordsComplete := by
  intro s c fence
  refine ⟨fun scope kind hi => ends_quiet_passes (exec_fence scope kind s) hi ?_ rfl,
    fun hi => ends_quiet_passes (exec_rfence s) hi (sameVals_putFence ..) rfl, fun mask th hi => ?_⟩
  · split
    · exact sameVals_refl _
    · exact sameVals_putFence ..
  · intro thr
    have hthr : waitcBound s th = thr := by cases th <;> rfl
    refine ⟨fun hm => ends_quiet_passesSwitch (exec_waitc_eq mask th s) hi ?_ ?_,
      fun ⟨i, hlt, hb, hgt⟩ => ends_quiet_parks (exec_waitc_eq mask th s) hi ?_⟩
    · split
      · exact sameVals_dropClean ..
      · exact sameVals_refl _
    · rw [waitcMet_noteIssue, waitcBound_noteIssue, hthr, if_pos ((waitcMet_iff ..).mpr hm), noteIssue_cur, cw_noteIssue_ctx]
    · have hn : ¬ waitcMet (cw s) mask thr = true := fun hm => Nat.not_le.mpr hgt ((waitcMet_iff ..).mp hm i hlt hb)
      rw [waitcMet_noteIssue, waitcBound_noteIssue, hthr, if_neg hn]

end Sys2Proof.Claims
end

section
/-! PROOFS. TDEC, the timed waits and the buckets (08 R280-R290). -/

namespace Sys2Proof.Claims

open Sys2Proof.Machine

/-! ## Completing a word that marked its block, parked or wrote a status -/

section

variable {i : Instr} {s v : State} {us : Use} {body : State → Act}

/-- What a word does depends on its effect in the noted state only. -/
theorem issueWord_congr {body' : State → Act} (h : body (noteIssue s) = body' (noteIssue s)) :
    issueWord us body s = issueWord us body' s := by
  rw [issueWord, issueWord, h]

/-- The slices of a timed wait park in a state that other units have changed. -/
theorem ends_parks {o : WaitObj} (he : exec i s = issueWord us body s) (hi : Issues us s)
    (hb : body (noteIssue s) = .done (park v o)) : Ends i s (fun t => Parks v t o) :=
  ⟨_, he.trans (issueWord_done hi hb), parks_any v o⟩

/-- A timed wait that marks its block volatile and parks keeps every value. -/
theorem ends_quiet_parksVolatile {o : WaitObj} (he : exec i s = issueWord us body s) (hi : Issues us s)
    (hb : body (noteIssue s) = .done (park (traceVolatile (noteIssue s) (cw s)) o)) :
    Ends i s (fun t => Quiet s t ∧ Parks (traceVolatile (noteIssue s) (cw s)) t o) :=
  ⟨_, he.trans (issueWord_done hi hb), quiet_of_frame (sameVals_trans (sameVals_note s) (sameVals_volatile ..)) (parks_any _ o),
    parks_any _ o⟩

/-- A word whose result is a status. -/
theorem ends_status {d : Dst} {k : Nat} (he : exec i s = issueWord us body s) (hi : Issues us s)
    (hb : body (noteIssue s) = wbStatus v d k) : Ends i s (fun t => WritesReg v t d false false 2 (fun _ => k)) :=
  ⟨_, he.trans (issueWord_done hi hb), writesReg_any ..⟩

end

/-! ## The state with the issuing warp's block marked volatile -/

@[simp] theorem cw_traceVolatile (u : State) (w : Warp) : cw (traceVolatile u w) = cw u := by
  rw [traceVolatile, updTrace]
  split <;> rfl

/-! ## FLGW (08 R284) -/

section

variable {s : State} {x : FlgwArgs}

/-- What an FLGW uses. -/
abbrev flgwUse (x : FlgwArgs) : Use := { ops := [(x.a, true), (x.b, x.wide), (x.c, false)], pd := some ⟨x.p, false⟩ }

theorem flgw_misaligned (hi : Issues (flgwUse x) s) (ha : ¬ lowOp s true x.a % (if x.wide then 8 else 4) = 0) :
    Faults (.flgw x) s (fltAt 7 (lowOp s true x.a)) :=
  faults_of_trap (exec_flgw x s) hi (by simp only [lowOp_noteIssue]; exact if_pos ha)

theorem flgw_pageFault {f : PageFault} {u : State} (hi : Issues (flgwUse x) s) (ha : lowOp s true x.a % (if x.wide then 8 else 4) = 0)
    (h : translate (noteIssue s) (clusterOf s.cur.core) (cw s).ctx (lowOp s true x.a) .read = (.error f, u)) :
    Faults (.flgw x) s (fltPage (lowOp s true x.a) f) := by
  refine faults_of_trap (exec_flgw x s) hi ?_
  simp only [lowOp_noteIssue, noteIssue_cur, cw_noteIssue_ctx, h]
  exact if_neg (not_not_intro ha)

/-- An aligned FLGW whose page translates tests the windows, then the earlier accesses that its strong read follows. -/
theorem exec_flgw_translated {xl : Xlat} {u : State} (ha : lowOp s true x.a % (if x.wide then 8 else 4) = 0)
    (h : translate (noteIssue s) (clusterOf s.cur.core) (cw s).ctx (lowOp s true x.a) .read = (.ok xl, u)) :
    let v := lineEvict u (clusterOf s.cur.core) (resolve u (cw s).ctx xl false / 256)
    exec (.flgw x) s = issueWord (flgwUse x) (fun _ =>
      if inWindow (lowOp s true x.a) then .trap (fltAt 0x10 (lowOp s true x.a))
      else if strongBehind (noteIssue s) (cw s).uid (xlatLines xl) then .stall
      else .done (park (traceVolatile v (cw v))
        (.flgw x.p xl (BitVec.ofNat 64 (lowOp s x.wide x.b)) x.cc x.wide x.dev (lowOp s false x.c) s.cycle none))) s := by
  refine (exec_flgw x s).trans (issueWord_congr ?_)
  simp only [lowOp_noteIssue, noteIssue_cur, cw_noteIssue_ctx, cw_noteIssue_uid, noteIssue_cycle, h]
  exact if_neg (not_not_intro ha)

end

/-- Settles O24: TDEC waits for its release or passes with its decrement sent, the timed waits park; FLGW tests its address, its page, the
windows and the warp's earlier accesses in this order. -/
theorem waitWordsComplete : Obligations.WaitWordsComplete := by
  intro s
  dsimp only
  refine ⟨fun a b hi => ⟨fun hr => (exec_tdec a b s).trans (issueWord_stall hi (by simp only [hr, Bool.not_false, if_true])),
      fun hr => ⟨_, (exec_tdec a b s).trans (issueWord_done hi ?_), passes_any _⟩⟩,
    fun p a b k hi => ends_quiet_parksVolatile (exec_twait p a b k s) hi ?_,
    fun p a k hi => ends_quiet_parksVolatile (exec_bkw p a k s) hi ?_,
    fun x hi => ⟨flgw_misaligned hi, fun ha f u h => flgw_pageFault hi ha h, fun ha xl u h => ?_⟩⟩
  · simp only [hr, Bool.not_true, Bool.false_eq_true, if_false, noteIssue_cur, cw_noteIssue_ctx, traceVolatile_note, op32_noteIssue,
      curLow_noteIssue]
    rfl
  · simp only [traceVolatile_note, lowOp_noteIssue, noteIssue_cycle]
  · simp only [traceVolatile_note, lowOp_noteIssue, noteIssue_cycle]
  · have he := exec_flgw_translated ha h
    exact ⟨fun hw => faults_of_trap he hi (if_pos hw),
      fun hw hb => he.trans (issueWord_stall hi (by rw [hw, hb, if_neg Bool.false_ne_true, if_pos rfl])),
      fun hw hb => ends_parks he hi (by rw [hw, hb, if_neg Bool.false_ne_true, if_neg Bool.false_ne_true])⟩

/-! ## BKARM and BKARM.off (08 R290) -/

/-- A bucket descriptor that BKARM refuses (08 R290). -/
abbrev BadBucketDesc (bs : List Byte) : Prop :=
  fld bs 12 4 ≠ 0 ∨ fld bs 28 4 ≠ 0 ∨ fld bs 8 4 = 0 ∨ fld bs 8 4 % 256 ≠ 0 ∨ fld bs 0 8 % 256 ≠ 0 ∨ fld bs 16 8 = 0 ∨
    2 ^ 40 < fld bs 16 8

/-- A state with a bucket armed over a translated range, as its descriptor says. -/
def withArmed (n : Nat) (bs : List Byte) (ys : List (Nat × Xlat)) (v : State) : State :=
  { v with buckets := mset v.buckets n ⟨(cw v).ctx, (match ys with | y :: _ => y.2.pa | [] => 0), fld bs 8 4, fld bs 16 8, 0,
    fld bs 24 4⟩ }

/-- A BKARM that has loaded its descriptor. -/
def armBucket (d : Dst) (cl n : Nat) (bs : List Byte) (u : State) : Act :=
  if BadBucketDesc bs then wbStatus u d 3
  else
    match xlatRange cl (cw u).ctx .write (pagesOf (fld bs 0 8) (fld bs 8 4)) u with
    | (.error f, _) => .trap f
    | (.ok ys, v) =>
      if !oneRun ys (fld bs 0 8) (fld bs 8 4) then wbStatus v d 2
      else if (mget v.buckets n).isSome then wbStatus v d 1
      else wbStatus (withArmed n bs ys v) d 0

/-- A BKARM of a bucket that its context holds, with an aligned descriptor. -/
def loadAndArm (d : Dst) (cl n va : Nat) (c : State) : Act :=
  match xlatRange cl (cw c).ctx .read ((pieces va 32).map (·.1)) c with
  | (.error f, _) => .trap f
  | (.ok ds, w) =>
    if unitsWait w d ds then .stall
    else armBucket d cl n (loadUnits cl (cw w).ctx ds w).1 (loadUnits cl (cw w).ctx ds w).2

theorem exec_bkarm_eq (d : Dst) (a b : Opnd) (s : State) : exec (.bkarm d a b) s =
    issueWord { ops := [(a, false), (b, true)], dst := some (d, 1) } (fun v =>
      if !holdsBucket (traceVolatile v (cw v)) (lowOp v false a) then wbStatus (traceVolatile v (cw v)) d 4
      else if lowOp v true b % 8 ≠ 0 then .trap (fltAt 7 (lowOp v true b))
      else loadAndArm d (clusterOf v.cur.core) (lowOp v false a) (lowOp v true b) (traceVolatile v (cw v))) s := rfl

section

variable {d : Dst} {cl n va : Nat} {bs : List Byte} {ys ds : List (Nat × Xlat)} {c u v w : State} {f : FaultInfo}

theorem armBucket_bad (hb : BadBucketDesc bs) : armBucket d cl n bs u = wbStatus u d 3 := if_pos hb

theorem armBucket_fault (hb : ¬ BadBucketDesc bs)
    (h : xlatRange cl (cw u).ctx .write (pagesOf (fld bs 0 8) (fld bs 8 4)) u = (.error f, v)) : armBucket d cl n bs u = .trap f := by
  rw [armBucket, if_neg hb, h]

/-- With its range translated a BKARM tests the run before the bucket. -/
theorem armBucket_translated (hb : ¬ BadBucketDesc bs)
    (h : xlatRange cl (cw u).ctx .write (pagesOf (fld bs 0 8) (fld bs 8 4)) u = (.ok ys, v)) :
    armBucket d cl n bs u =
      if !oneRun ys (fld bs 0 8) (fld bs 8 4) then wbStatus v d 2
      else if (mget v.buckets n).isSome then wbStatus v d 1
      else wbStatus (withArmed n bs ys v) d 0 := by
  rw [armBucket, if_neg hb, h]

theorem loadAndArm_fault (h : xlatRange cl (cw c).ctx .read ((pieces va 32).map (·.1)) c = (.error f, u)) :
    loadAndArm d cl n va c = .trap f := by
  rw [loadAndArm, h]

theorem loadAndArm_waits (h : xlatRange cl (cw c).ctx .read ((pieces va 32).map (·.1)) c = (.ok ds, w)) (hw : unitsWait w d ds = true) :
    loadAndArm d cl n va c = .stall := by
  rw [loadAndArm, h]
  exact if_pos hw

theorem loadAndArm_loaded (h : xlatRange cl (cw c).ctx .read ((pieces va 32).map (·.1)) c = (.ok ds, w)) (hw : unitsWait w d ds = false) :
    loadAndArm d cl n va c = armBucket d cl n (loadUnits cl (cw w).ctx ds w).1 (loadUnits cl (cw w).ctx ds w).2 := by
  rw [loadAndArm, h]
  exact if_neg (by simp only [hw, Bool.false_eq_true, not_false_eq_true])

end

section

variable {s : State} {d : Dst} {a b : Opnd} {i : Instr} {us : Use} {body : State → Act}

/-- A BKARM of a bucket that its context does not hold, and one with a misaligned descriptor. -/
theorem bkarm_refused (hi : Issues { ops := [(a, false), (b, true)], dst := some (d, 1) } s) :
    let c := traceVolatile (noteIssue s) (cw s)
    (holdsBucket c (lowOp s false a) = false → Ends (.bkarm d a b) s (fun t => WritesReg c t d false false 2 (fun _ => 4))) ∧
    (holdsBucket c (lowOp s false a) = true → lowOp s true b % 8 ≠ 0 → Faults (.bkarm d a b) s (fltAt 7 (lowOp s true b))) := by
  refine ⟨fun hh => ends_status (exec_bkarm_eq d a b s) hi ?_, fun hh ha => faults_of_trap (exec_bkarm_eq d a b s) hi ?_⟩
  · simp only [traceVolatile_note, lowOp_noteIssue, hh, Bool.not_false, if_true]
  · simp only [traceVolatile_note, lowOp_noteIssue, hh, Bool.not_true, Bool.false_eq_true, if_false]
    exact if_pos ha

/-- Any other BKARM loads its descriptor. -/
theorem exec_bkarm_loads (hh : holdsBucket (traceVolatile (noteIssue s) (cw s)) (lowOp s false a) = true) (ha : lowOp s true b % 8 = 0) :
    exec (.bkarm d a b) s = issueWord { ops := [(a, false), (b, true)], dst := some (d, 1) } (fun _ =>
      loadAndArm d (clusterOf s.cur.core) (lowOp s false a) (lowOp s true b) (traceVolatile (noteIssue s) (cw s))) s := by
  refine (exec_bkarm_eq d a b s).trans (issueWord_congr ?_)
  simp only [traceVolatile_note, lowOp_noteIssue, noteIssue_cur, hh, ha, Bool.not_true, Bool.false_eq_true, if_false, ne_eq,
    not_true_eq_false]

/-- A word that arms a bucket from a loaded descriptor, by the statuses in their order. -/
theorem armBucket_answers {cl n : Nat} {bs : List Byte} {u : State} (hi : Issues us s)
    (he : exec i s = issueWord us (fun _ => armBucket d cl n bs u) s) :
    let status := fun (v : State) (k : Nat) => Ends i s (fun t => WritesReg v t d false false 2 (fun _ => k))
    (BadBucketDesc bs → status u 3) ∧
    (¬ BadBucketDesc bs →
      (∀ f v, xlatRange cl (cw u).ctx .write (pagesOf (fld bs 0 8) (fld bs 8 4)) u = (.error f, v) → Faults i s f) ∧
      (∀ ys v, xlatRange cl (cw u).ctx .write (pagesOf (fld bs 0 8) (fld bs 8 4)) u = (.ok ys, v) →
        (oneRun ys (fld bs 0 8) (fld bs 8 4) = false → status v 2) ∧
        (oneRun ys (fld bs 0 8) (fld bs 8 4) = true → (mget v.buckets n).isSome = true → status v 1) ∧
        (oneRun ys (fld bs 0 8) (fld bs 8 4) = true → mget v.buckets n = none → status (withArmed n bs ys v) 0))) := by
  refine ⟨fun hb => ends_status he hi (armBucket_bad hb), fun hb => ⟨fun f v h => faults_of_trap he hi (armBucket_fault hb h),
    fun ys v h => ⟨fun ho => ends_status he hi ?_, fun ho hm => ends_status he hi ?_, fun ho hm => ends_status he hi ?_⟩⟩⟩
  · rw [armBucket_translated hb h, ho, Bool.not_false, if_pos rfl]
  · rw [armBucket_translated hb h, ho, Bool.not_true, if_neg Bool.false_ne_true, if_pos hm]
  · rw [armBucket_translated hb h, ho, hm, Bool.not_true, if_neg Bool.false_ne_true, Option.isSome_none, if_neg Bool.false_ne_true]

theorem bkarmOff_answers (hi : Issues { ops := [(a, false)], dst := some (d, 1) } s) :
    let c := traceVolatile (noteIssue s) (cw s)
    let n := lowOp s false a
    (holdsBucket c n = false → Ends (.bkarmOff d a) s (fun t => WritesReg c t d false false 2 (fun _ => 4))) ∧
    (holdsBucket c n = true → Ends (.bkarmOff d a) s (fun t =>
      WritesReg { c with buckets := mdel c.buckets n } t d false false 2 (fun _ => 0))) := by
  refine ⟨fun hh => ends_status (exec_bkarmOff d a s) hi ?_, fun hh => ends_status (exec_bkarmOff d a s) hi ?_⟩
  · simp only [traceVolatile_note, lowOp_noteIssue, hh, Bool.not_false, if_true]
  · simp only [traceVolatile_note, lowOp_noteIssue, hh, Bool.not_true, Bool.false_eq_true, if_false]

end

/-- Settles O25: BKARM refuses its bucket or its descriptor's address, else loads the descriptor and answers by what it holds. -/
theorem bucketWordsComplete : Obligations.BucketWordsComplete := by
  intro s d a b c n va cl
  refine ⟨fun hi => ?_, bkarmOff_answers⟩
  obtain ⟨hnone, hbad⟩ := bkarm_refused hi
  refine ⟨hnone, hbad, fun hh ha => ?_⟩
  have he := exec_bkarm_loads (d := d) hh ha
  have hx : (cw c).ctx = (cw s).ctx := by rw [cw_traceVolatile, cw_noteIssue_ctx]
  refine ⟨fun f u h => faults_of_trap he hi (loadAndArm_fault (by rw [hx]; exact h)),
    fun ds u h hw => he.trans (issueWord_stall hi (loadAndArm_waits (by rw [hx]; exact h) hw)), fun ds w h hw => ?_⟩
  refine armBucket_answers hi (he.trans (issueWord_congr (loadAndArm_loaded ?_ hw)))
  rw [hx]
  exact h

end Sys2Proof.Claims
end

section
/-! PROOFS. The copy words (09 R293-R296, R311). -/

namespace Sys2Proof.Claims

open Sys2Proof.Machine

/-! ## What a copy word reads when it issues -/

/-- The issuing slices whose descriptors keep the shape (09 R293). -/
def shapedSlices (op : CopyOp) (x : CopyArgs) (s : State) : List Nat :=
  (curSlices s).filter (fun j => shapeOk op x.kind x.dz (descReg s x j 0).toNat (descReg s x j 1).toNat (descReg s x j 2).toNat
    (descReg s x j 3).toNat (copyC s x j))

/-- The copy slots that a copy word takes: as many as it has descriptors, where the core has them free. -/
def takenSlots (op : CopyOp) (x : CopyArgs) (s : State) : List Nat :=
  (freeCopySlots (coreOf s s.cur.core)).take (shapedSlices op x s).length

/-- A COPYW with a target that its context cannot write (09 R296). -/
abbrev TargetAway (op : CopyOp) (x : CopyArgs) (s : State) : Prop :=
  op = .copyw ∧ ∃ j ∈ shapedSlices op x s, targetOk s (cw s).ctx (descReg s x j 1).toNat (descReg s x j 2).toNat = false

/-- There is room for the copies of a word: slots, counts on ic2, and the turn of a COPYF in its cycle (09 R294, R311). -/
abbrev CopyRoom (op : CopyOp) (x : CopyArgs) (s : State) : Prop :=
  (shapedSlices op x s).length ≤ (takenSlots op x s).length ∧ (x.kind = .ic → (cw s).ic 2 + (shapedSlices op x s).length ≤ 63) ∧
    (op = .copyf → fillBehind s = false)

/-- The copies of a word, admitted: the handles by slice, and the state. -/
def admitShaped (op : CopyOp) (x : CopyArgs) (s : State) : List (Nat × Nat) × State :=
  admitAll op x s.nextId ((shapedSlices op x s).zip (takenSlots op x s)) s

/-- What a lane's destination takes: the handle of its slice's copy, all ones without one. -/
def laneHandle (hs : List (Nat × Nat)) (l : Nat) : Nat := match hs.find? (fun h => h.1 == l / 4) with | some h => h.2 | none => 0xFFFFFFFF

@[simp] theorem shapedSlices_noteIssue (op : CopyOp) (x : CopyArgs) (s : State) :
    shapedSlices op x (noteIssue s) = shapedSlices op x s := by
  simp [shapedSlices]

@[simp] theorem fillBehind_noteIssue (s : State) : fillBehind (noteIssue s) = fillBehind s := rfl

theorem curSlices_nodup (s : State) : (curSlices s).Nodup := List.nodup_range.filter _

theorem freeCopySlots_nodup (c : Core) : (freeCopySlots c).Nodup := List.nodup_range.filter _

/-- The note of an issue changes no operand of the word. -/
theorem sameOps_noteIssue (s : State) : SameOps s (noteIssue s) :=
  ⟨rfl, cw_noteIssue_slices s, cw_noteIssue_ctx s, cw_noteIssue_uid s, fun _ _ _ _ => by rw [opVal_noteIssue]⟩

/-! ## The three ends of a copy word -/

theorem targetAway_iff (op : CopyOp) (x : CopyArgs) (s : State) :
    (op == .copyw && (shapedSlices op x s).any (fun j =>
      !targetOk s (cw s).ctx (descReg s x j 1).toNat (descReg s x j 2).toNat)) = true ↔ TargetAway op x s := by
  simp only [TargetAway, Bool.and_eq_true, beq_iff_eq, List.any_eq_true, Bool.not_eq_true']

theorem not_copyRoom_iff (op : CopyOp) (x : CopyArgs) (s : State) :
    ((takenSlots op x s).length < (shapedSlices op x s).length ∨ (x.kind = .ic ∧ 63 < (cw s).ic 2 + (shapedSlices op x s).length) ∨
      (op = .copyf ∧ fillBehind s = true)) ↔ ¬ CopyRoom op x s := by
  simp only [CopyRoom, Classical.not_and_iff_not_or_not, Classical.not_imp, Nat.not_le, Bool.not_eq_false]

/-- A copy word tests its targets, then its room, and else admits its copies. -/
theorem copyWord_eq (op : CopyOp) (x : CopyArgs) (s : State) : copyWord op x s = issueWord (copyUse x) (fun v =>
    if TargetAway op x v then .trap (flt 0xC)
    else if ¬ CopyRoom op x v then .stall
    else .done (wbLanes (admitShaped op x v).2 x.d false false 4 (laneHandle (admitShaped op x v).1))) s :=
  issueWord_congr ((ite_of_iff (targetAway_iff ..)).trans (ite_congr rfl (fun _ => rfl) (fun _ => ite_of_iff (not_copyRoom_iff ..))))

/-- With room the copy of every admitted slice stands in its slot under its handle, and the other slots keep theirs. -/
theorem admitShaped_copies {op : CopyOp} {x : CopyArgs} {s : State} (hr : CopyRoom op x s) :
    (∀ p ∈ (shapedSlices op x s).zip (takenSlots op x s), ∃ y, mget (coreOf (admitShaped op x s).2 s.cur.core).copies p.2 = some y ∧
      Admitted s op x s.nextId p.1 y ∧
      (admitShaped op x s).1.find? (fun h => h.1 == p.1) = some (p.1, copyHandle ⟨s.cur.core, p.2⟩ y.serial)) ∧
    ∀ n, n ∉ takenSlots op x s →
      mget (coreOf (admitShaped op x s).2 s.cur.core).copies n = mget (coreOf s s.cur.core).copies n := by
  have hj : ((shapedSlices op x s).zip (takenSlots op x s)).map (·.1) = shapedSlices op x s := List.map_fst_zip hr.1
  have hn : ((shapedSlices op x s).zip (takenSlots op x s)).map (·.2) = takenSlots op x s :=
    List.map_snd_zip (List.length_take_le _ _)
  have h := admitAll_spec op x s.nextId ((shapedSlices op x s).zip (takenSlots op x s)) s
  rw [hj, hn] at h
  exact h ((curSlices_nodup s).filter _) ((freeCopySlots_nodup _).sublist (List.take_sublist _ _))

/-- The write of a register keeps the copies of every core. -/
theorem wbLanes_copies (s : State) (d : Dst) (wide sgn : Bool) (lat : Nat) (f : Nat → Nat) (k : Nat) :
    (coreOf (wbLanes s d wide sgn lat f) k).copies = (coreOf s k).copies := by
  obtain ⟨⟨-, ⟨hcore, -⟩, -⟩, -⟩ := writesReg_any s d wide sgn lat f
  rw [hcore k]

/-- A copy word with room completes in the noted state with its copies admitted, and no byte has moved. -/
theorem ends_admits {i : Instr} {op : CopyOp} {x : CopyArgs} {s : State} (he : exec i s = copyWord op x s) (hi : Issues (copyUse x) s)
    (ha : ¬ TargetAway op x (noteIssue s)) (hr : CopyRoom op x (noteIssue s)) :
    let r := admitShaped op x (noteIssue s)
    let slots := takenSlots op x (noteIssue s)
    Ends i s (fun t => t.mem = s.mem ∧ WritesReg r.2 t x.d false false 4 (laneHandle r.1) ∧
      (∀ p ∈ (shapedSlices op x s).zip slots, ∃ y, mget (coreOf t s.cur.core).copies p.2 = some y ∧ Admitted s op x s.nextId p.1 y ∧
        r.1.find? (fun h => h.1 == p.1) = some (p.1, copyHandle ⟨s.cur.core, p.2⟩ y.serial)) ∧
      (∀ n, n ∉ slots → mget (coreOf t s.cur.core).copies n = mget (coreOf s s.cur.core).copies n)) := by
  intro r slots
  obtain ⟨hin, hout⟩ := admitShaped_copies hr
  rw [shapedSlices_noteIssue] at hin
  refine ⟨_, (he.trans (copyWord_eq op x s)).trans (issueWord_done hi ((if_neg ha).trans (if_neg (not_not_intro hr)))), ?_,
    writesReg_any .., fun p hp => ?_, fun n hn => ?_⟩
  · exact (wbLanes_mem ..).trans (admitAll_mem ..)
  · rw [wbLanes_copies]
    obtain ⟨y, hy, hadm, hh⟩ := hin p hp
    exact ⟨y, hy, admitted_same (sameOps_noteIssue s) hadm, hh⟩
  · rw [wbLanes_copies]
    exact (hout n hn).trans (by rw [noteIssue_cur, coreOf_noteIssue])

/-- Settles O21: the five words are one, which tests its targets, then its room, and admits its copies in the noted state. -/
theorem copyWordsAdmitCopies : Obligations.CopyWordsAdmitCopies := by
  intro s x c d claim
  have hclaim : ∀ op i, exec i s = copyWord op x s → claim op i := fun op i he hi => by
    have hw := he.trans (copyWord_eq op x s)
    intro ok slots away room r
    have hok : shapedSlices op x c = ok := shapedSlices_noteIssue op x s
    have hslots : takenSlots op x c = slots := by rw [takenSlots, hok]; rfl
    have haway : TargetAway op x c ↔ away := by
      rw [TargetAway, hok, cw_noteIssue_ctx, descReg_noteIssue]
    have hroom : CopyRoom op x c ↔ room := by
      rw [CopyRoom, hok, hslots, ic_noteIssue, fillBehind_noteIssue]
    have hr : admitShaped op x c = r := by rw [admitShaped, hok, hslots]; rfl
    rw [← haway, ← hroom]
    refine ⟨fun ha => hw.trans (issueWord_trap hi (if_pos ha)),
      fun ha hn => hw.trans (issueWord_stall hi ((if_neg ha).trans (if_pos hn))), fun ha hn => ?_⟩
    have h := ends_admits he hi ha hn
    dsimp only at h
    rw [hr, hslots] at h
    exact h
  exact ⟨hclaim _ _ (exec_copy x s), hclaim _ _ (exec_copy2 x s), hclaim _ _ (exec_copyf x s), hclaim _ _ (exec_copyw x s),
    hclaim _ _ (exec_copyr x s)⟩

end Sys2Proof.Claims
end

section
/-! PROOFS. The moves of copies, passes, near-memory programs and collectives (09 R297-R314, 10 R322-R340, 11 R354-R365). -/

namespace Sys2Proof.Claims

open Sys2Proof.Machine

/-! ## Taking up a copy (09 R297, R314) -/

/-- The machine in a move of a copy's engine: the copy's queue pays for it. -/
def paidBy (s : State) (x : Copy) : State := { s with payer := copyPayer s x }

@[simp] theorem copyRuns_paidBy (s : State) (x : Copy) (ctx : Nat) : copyRuns (paidBy s x) ctx = copyRuns s ctx := rfl

/-- What an implicit release of a copy waits for is done (09 R297). -/
abbrev ReleaseClear (s : State) (x : Copy) : Prop :=
  accessesDone s x.uid 0xFFFF x.after = true ∧ (scopeWide x.scope = true → sketchesDone s x.uid x.after = true) ∧
    (x.scope = .domain → remotesDone s x.uid x.after = true)

/-- The machine after the implicit release of a copy that a warp issued. -/
def releasedFor (s : State) (cl : Nat) (x : Copy) : State :=
  if x.node = none ∧ scopeWide x.scope = true then cleanCtx (paidBy s x) cl x.ctx else paidBy s x

/-- A copy that has been taken up, in its first state (09 Table copy-9). -/
def takenUp (x : Copy) : Copy := { x with st := if x.bk then .bkwait 0 else if x.op = .copyf then .panelwait else .run }

theorem releaseClear_iff (s : State) (x : Copy) :
    (accessesDone s x.uid 0xFFFF x.after && (!scopeWide x.scope || sketchesDone s x.uid x.after) &&
      (x.scope != .domain || remotesDone s x.uid x.after)) = true ↔ ReleaseClear s x := by
  simp only [ReleaseClear, Bool.and_eq_true, Bool.or_eq_true, Bool.not_eq_true', bne_iff_ne, ne_eq, and_assoc,
    Classical.or_iff_not_imp_left, Bool.not_eq_false, Classical.not_not]

/-- The first admitted copy of a core is taken up behind its implicit release. -/
theorem copyTakeUp_first {s : State} {c : CopyRef} {x : Copy} (hm : (c, x) ∈ allCopies s) (ha : x.st = .admission)
    (hr : copyRuns s x.ctx = true)
    (hf : ∀ q ∈ allCopies s, q.1.core = c.core → q.2.st = .admission → copyRuns s q.2.ctx = true → q ≠ (c, x) → x.order < q.2.order) :
    exec (.copyTakeUp c.core) s =
      if ReleaseClear s x then
        if x.total = 0 then .next (endCopy (releasedFor s (clusterOf c.core) x) c true)
        else .next (updCopy (releasedFor s (clusterOf c.core) x) c takenUp)
      else .next s := by
  have hl : leastBy (fun q => q.2.order)
      ((allCopies s).filter (fun q => q.1.core == c.core && q.2.st == .admission && copyRuns s q.2.ctx)) = some (c, x) := by
    refine leastBy_eq _ _ _ (List.mem_filter.mpr ⟨hm, by simp [ha, hr]⟩) fun q hq hne => ?_
    simp only [List.mem_filter, Bool.and_eq_true, beq_iff_eq] at hq
    obtain ⟨hq, ⟨hcore, hst⟩, hrun⟩ := hq
    exact hf q hq hcore hst hrun hne
  have hu : (if x.node.isNone = true ∧ scopeWide x.scope = true then cleanCtx (paidBy s x) (clusterOf c.core) x.ctx else paidBy s x) =
      releasedFor s (clusterOf c.core) x := ite_of_iff (and_congr_left' Option.isNone_iff_eq_none)
  rw [exec_copyTakeUp, execCopyTakeUp]
  dsimp only
  rw [hl]
  dsimp only
  rw [← paidBy, hu]
  exact ite_of_iff (releaseClear_iff s x)

/-- An error of a copy's data is a turn of its own, which no queue pays for beforehand. -/
theorem turn_copyError (c : CopyRef) (n : Nat) (s : State) : turn (.copyError c n) s = .next (copyError c n { s with payer := none }) := rfl

/-! ## A move of a copy (09 R299, R304, R310, R311) -/

section

variable {s : State} {c : CopyRef} {x : Copy}

/-! A copy that waits tests its buckle (09 R310). -/

theorem testBuckle_notHeld {w : Nat} (h : holdsBuckle s x.ctx x.b = false) : testBuckle s c x w = failCopy s c 9 0 := by
  rw [testBuckle, h]
  rfl

theorem testBuckle_untied {w : Nat} (h : holdsBuckle s x.ctx x.b = true) (hk : mget s.buckles x.b = none) :
    testBuckle s c x w = if w = 0 then s else failCopy s c 2 0 := by
  rw [testBuckle, h, hk]
  rfl

theorem testBuckle_tied {w : Nat} {k : Buckle} (h : holdsBuckle s x.ctx x.b = true) (hk : mget s.buckles x.b = some k) :
    testBuckle s c x w = if w ≠ 0 ∧ w ≠ k.tie then failCopy s c 2 0
      else updCopy s c (fun x => { x with st := if k.fastened then .run else .bkwait k.tie }) := by
  rw [testBuckle, h, hk]
  rfl

section

variable (hx : copyOf s c = some x) (hr : copyRuns s x.ctx = true)
include hx hr

theorem copyChunkIssue_failing (hf : x.failing = true) :
    exec (.copyChunkIssue c) s =
      .next (if x.flight = [] ∧ x.over = false then endCopy (paidBy s x) c false else paidBy s x) := by
  have hc : (x.flight.isEmpty = true ∧ (!x.over) = true) ↔ (x.flight = [] ∧ x.over = false) := by
    rw [List.isEmpty_iff, Bool.not_eq_true']
  rw [exec_copyChunkIssue, execCopyChunkIssue, hx]
  dsimp only
  rw [← paidBy, copyRuns_paidBy, hr, hf, ite_of_iff hc]
  rfl

section

variable (hf : x.failing = false)
include hf

section

variable {w : Nat} (hs : x.st = .bkwait w)
include hs

theorem copyChunkIssue_bkwait : exec (.copyChunkIssue c) s = .next (testBuckle (paidBy s x) c x w) := by
  rw [exec_copyChunkIssue, execCopyChunkIssue, hx]
  dsimp only
  rw [← paidBy, copyRuns_paidBy, hr, hf, hs]
  rfl

theorem copyChunkIssue_notHeld (h : holdsBuckle s x.ctx x.b = false) :
    exec (.copyChunkIssue c) s = .next (failCopy (paidBy s x) c 9 0) :=
  (copyChunkIssue_bkwait hx hr hf hs).trans (congrArg _ (testBuckle_notHeld (s := paidBy s x) h))

theorem copyChunkIssue_untied (h : holdsBuckle s x.ctx x.b = true) (hk : mget s.buckles x.b = none) :
    exec (.copyChunkIssue c) s = .next (if w = 0 then paidBy s x else failCopy (paidBy s x) c 2 0) :=
  (copyChunkIssue_bkwait hx hr hf hs).trans (congrArg _ (testBuckle_untied (s := paidBy s x) h hk))

theorem copyChunkIssue_tied {k : Buckle} (h : holdsBuckle s x.ctx x.b = true) (hk : mget s.buckles x.b = some k) :
    exec (.copyChunkIssue c) s = .next (if w ≠ 0 ∧ w ≠ k.tie then failCopy (paidBy s x) c 2 0
      else updCopy (paidBy s x) c (fun x => { x with st := if k.fastened then .run else .bkwait k.tie })) :=
  (copyChunkIssue_bkwait hx hr hf hs).trans (congrArg _ (testBuckle_tied (s := paidBy s x) h hk))

end

theorem copyChunkIssue_panelwait (hs : x.st = .panelwait)
    (hp : x.pos < 8 ∨ posReleased (clustOf s (clusterOf x.core)) (x.r0.toNat == 0) (x.pos - 8) = true) :
    exec (.copyChunkIssue c) s = .next (updCopy (paidBy s x) c (fun x => { x with st := .run })) := by
  rw [exec_copyChunkIssue, execCopyChunkIssue, hx]
  dsimp only
  rw [← paidBy, copyRuns_paidBy, hr, hf, hs]
  exact if_pos hp

/-- A running copy ends, or its next chunk goes out or is passed over, where it lies in the window of 16 chunks (09 R299). -/
theorem copyChunkIssue_run (hs : x.st = .run) :
    exec (.copyChunkIssue c) s =
      if x.total ≤ x.chunkOff x.pfx then .next (endCopy (paidBy s x) c true)
      else if x.total ≤ x.chunkOff x.next ∨ x.pfx + 16 ≤ x.next then .next (paidBy s x)
      else if bit x.mask (x.next - x.pfx) then .next (updCopy (paidBy s x) c (fun x => { x with next := x.next + 1 }))
      else .next (issueChunk (paidBy s x) c x) := by
  rw [exec_copyChunkIssue, execCopyChunkIssue, hx]
  dsimp only
  rw [← paidBy, copyRuns_paidBy, hr, hf, hs]
  rfl

/-- The check of the chunk that goes out next fails (09 R304). -/
theorem copyError_next (hs : x.st = .run) (ht : x.chunkOff x.pfx < x.total) (hn : x.chunkOff x.next < x.total)
    (hw : x.next < x.pfx + 16) (hb : bit x.mask (x.next - x.pfx) = false) (hq : mget x.flight x.next = none) :
    copyError c x.next s = failCopy (paidBy s x) c 8 0 := by
  have hsend : x.sends = true := by simp [Copy.sends, hs, hf, ht, hn, hw, hb]
  rw [copyError, hx]
  dsimp only
  rw [hq, if_neg (by simp), if_pos ⟨rfl, hr, hsend⟩]
  rfl

end

end

/-! ## A chunk in flight (09 R299-R304, R309) -/

section

variable {n : Nat} {k : Chunk} (hx : copyOf s c = some x) (hk : mget x.flight n = some k)
include hx hk

theorem copyChunkPerformed_memory (ho : x.op = .copy ∨ x.op = .copy2) :
    exec (.copyChunkPerformed c n) s = .next (chunkDone
      (writeUnits (paidBy s x) x.tag k.x.key (x.stores (x.chunkOff n) (resolve s x.ctx k.x x.sh) k.bytes)) c n) := by
  rw [exec_copyChunkPerformed, execCopyChunkPerformed, hx]
  dsimp only
  rw [hk]
  dsimp only
  rcases ho with ho | ho <;> rw [ho] <;> rfl

/-- A chunk of a COPYW is written where the warp that the copy was admitted for still holds its target. -/
theorem copyChunkPerformed_warp (ho : x.op = .copyw) :
    exec (.copyChunkPerformed c n) s =
      if (warpOf s (twCore x.r1.toNat) (twSlot x.r1.toNat)).uid = x.pos ∧ targetOk s x.ctx x.r1.toNat x.r2.toNat = true
      then .next (chunkDone (writeTarget (paidBy s x) x (x.chunkOff n) k.bytes) c n)
      else .next (chunkLost (paidBy s x) c n 3) := by
  rw [exec_copyChunkPerformed, execCopyChunkPerformed, hx]
  dsimp only
  rw [hk]
  dsimp only
  rw [ho]
  rfl

/-- The check of a chunk in flight fails at its destination here. -/
theorem copyError_flight (ho : x.op ≠ .copyr) : copyError c n s = chunkLost (paidBy s x) c n 8 := by
  rw [copyError, hx]
  dsimp only
  rw [hk, if_pos Option.isSome_some, if_neg ho]
  rfl

/-- The machine without the request of a chunk, sent or queued. -/
def unrequested (s : State) (c : CopyRef) (n : Nat) : State :=
  match s.reqs.find? (fun r => r.owner == .chunk c n) with
  | some r => retireReq s r
  | none => { s with reqQueue := s.reqQueue.filter (fun r => r.owner != .chunk c n) }

theorem copyrChunkTimeout_eq (ho : x.op = .copyr) :
    exec (.copyrChunkTimeout c n) s =
      if s.ns < k.sent + 1000000 then .next s
      else if x.over then .next (signalLost s c) else .next (chunkLost (unrequested s c n) c n 12) := by
  have hc : (x.op ≠ .copyr ∨ s.ns < k.sent + 1000000) ↔ s.ns < k.sent + 1000000 := by simp [ho]
  rw [exec_copyrChunkTimeout, execCopyrChunkTimeout, hx]
  dsimp only
  rw [hk]
  dsimp only
  rw [ite_of_iff hc]
  rfl

end

theorem unrequested_sent {n : Nat} {r : Req} (h : s.reqs.find? (fun r => r.owner == .chunk c n) = some r) :
    unrequested s c n = retireReq s r := by
  rw [unrequested, h]

theorem unrequested_queued {n : Nat} (h : ∀ r ∈ s.reqs, r.owner ≠ .chunk c n) :
    unrequested s c n = { s with reqQueue := s.reqQueue.filter (fun r => r.owner != .chunk c n) } := by
  rw [unrequested, List.find?_eq_none.mpr fun r hr => by simpa using h r hr]

end

/-! ## The drain limit (09 R312) -/

theorem drainlimExpiry_eq {s : State} {ctx : Nat} {p : Preempt} (h : (ctxOf s ctx).bind Ctx.preempt = some p) :
    exec (.drainlimExpiry ctx) s =
      if p.forced = true ∧ p.drained = false ∧ p.drainEnd ≤ s.ns then .next (allowSave (mapCopies s ctx Copy.squash) ctx) else .next s := by
  rw [exec_drainlimExpiry, execDrainlimExpiry, h]
  simp only [Bool.not_eq_true']

/-! ## Passes (10 R322, R335, R338) -/

/-- A latch at which every member has arrived posts its pass and releases them. -/
theorem passPost_posts {s : State} {cl n e : Nat} {x : PassWord} {d : Dst} :
    let b := latchSweep s cl n
    let c := clustOf b cl
    let lat := mgetD c.latches n .empty
    let mem := (harnMembers lat.v.toNat).map (memberAt cl)
    lat.filling = true → (∀ p ∈ mem, (warpOf b p.1 p.2).uid ∈ lat.arrived) → postBehind b cl n = false → freeEntry c = some e →
    latchWord lat.word.toNat = some (x, d) →
    let r := postPass (setLatch b cl n .empty) cl e n x lat.desc.toNat (mem.map (fun p => ((warpOf b p.1 p.2).uid, p.1, p.2)))
    exec (.passPost cl n) s = .next (mem.foldl (releaseMember n r.1 d) r.2) := by
  intro b c lat mem hfill harr hbeh he hw r
  have hall : mem.all (fun p => lat.arrived.contains (warpOf b p.1 p.2).uid) = true :=
    List.all_eq_true.mpr fun p hp => by simpa using harr p hp
  have hgo : ¬ (!lat.filling || !mem.all (fun p => lat.arrived.contains (warpOf b p.1 p.2).uid) || postBehind b cl n) = true := by
    rw [hfill, hall, hbeh]
    decide
  rw [exec_passPost, execPassPost]
  refine (if_neg hgo).trans ?_
  rw [he, hw]

/-- A cluster with a pass granted: its starting values are written at the first grant (10 R331). -/
def withGrant (c : Cluster) (e : Nat) (p : Pass) : Cluster :=
  let c := if p.zeroed then c else firstGrant c p
  { c with passes := mset c.passes e { p with st := .running, zeroed := true } }

theorem withGrant_pass (c : Cluster) (e : Nat) (p : Pass) :
    mget (withGrant c e p).passes e = some { p with st := .running, zeroed := true } := mget_mset_self ..

/-- The pass that the arbiter chooses runs. -/
theorem passGrant_runs {s : State} {cl e : Nat} {p : Pass} (hrun : ∀ q ∈ (clustOf s cl).passes, q.2.st ≠ .running)
    (hf : clusterForced s cl = false) (ha : arbitrate s cl = some (e, p)) :
    Ends (.passGrant cl) s (fun t => ∃ q, mget (clustOf t cl).passes e = some q ∧ q = { p with st := .running, zeroed := true }) := by
  have hnone : (clustOf s cl).passes.any (fun e => e.2.st == .running) = false :=
    List.any_eq_false.mpr fun q hq => by simpa using hrun q hq
  refine ⟨setClust s cl (withGrant (clustOf s cl) e p), ?_, _, ?_, rfl⟩
  · rw [exec_passGrant, execPassGrant]
    dsimp only
    rw [hnone, hf, ha]
    rfl
  · rw [clustOf_setClust, if_pos rfl, withGrant_pass]

/-- A pass after one more K-step (10 R338, R340): done with its last one, else stopped by a forced pre-emption. -/
def kstepDone (p : Pass) (now : Nat) (ovf forced : Bool) : Pass :=
  let p := { p with kdone := p.kdone + 1, ovfSeen := p.ovfSeen || ovf }
  if p.kdone = p.k then { p with st := .done, age := p.ageAt now } else if forced then { p with st := .stopped } else p

theorem kstepDone_kdone (p : Pass) (now : Nat) (ovf forced : Bool) : (kstepDone p now ovf forced).kdone = p.kdone + 1 := by
  unfold kstepDone
  dsimp only
  split
  · rfl
  · split <;> rfl

theorem kstepDone_st (p : Pass) (now : Nat) (ovf forced : Bool) :
    (kstepDone p now ovf forced).st = if p.kdone + 1 = p.k then .done else if forced then .stopped else p.st := by
  unfold kstepDone
  dsimp only
  split
  · rfl
  · split <;> rfl

/-- A pass that was running is done after its last K-step only, and stopped after another one of a forced pre-emption only. -/
theorem kstepDone_ends {p : Pass} (h : p.st = .running) (now : Nat) (ovf forced : Bool) :
    ((kstepDone p now ovf forced).st = .done ↔ p.kdone + 1 = p.k) ∧
    ((kstepDone p now ovf forced).st = .stopped ↔ p.kdone + 1 ≠ p.k ∧ forced = true) := by
  rw [kstepDone_st, h]
  by_cases hk : p.kdone + 1 = p.k
  · simp [hk]
  · cases forced <;> simp [hk]

/-- A cluster in which the next K-step of a pass has been computed. -/
def withKstep (c : Cluster) (e : Nat) (p : Pass) (now : Nat) (forced : Bool) : Cluster :=
  let r := computeStep c p
  let c := if r.2 then { r.1 with mstat := countOverflow r.1.mstat p.tile p.ovfSeen } else r.1
  { c with passes := mset c.passes e (kstepDone p now r.2 forced) }

theorem withKstep_pass (c : Cluster) (e : Nat) (p : Pass) (now : Nat) (forced : Bool) :
    mget (withKstep c e p now forced).passes e = some (kstepDone p now (computeStep c p).2 forced) := mget_mset_self ..

/-- The running pass completes a K-step. -/
theorem passKstepComplete_steps {s : State} {cl e : Nat} {p : Pass}
    (hp : (clustOf s cl).passes.find? (fun q => q.2.st == .running) = some (e, p)) (hb : badCodes (clustOf s cl) p = false) :
    Ends (.passKstepComplete cl) s (fun t => ∃ q, mget (clustOf t cl).passes e = some q ∧ q.kdone = p.kdone + 1 ∧
      (q.st = .done ↔ p.kdone + 1 = p.k) ∧ (q.st = .stopped ↔ p.kdone + 1 ≠ p.k ∧ clusterForced s cl = true)) := by
  have hrun : p.st = .running := by simpa using List.find?_some hp
  refine ⟨setClust (chargeTo s (payerOf s p.launch) p.coef p.macUnits) cl
    (withKstep (clustOf s cl) e p s.cycle (clusterForced s cl)), ?_,
    kstepDone p s.cycle (computeStep (clustOf s cl) p).2 (clusterForced s cl), ?_, kstepDone_kdone .., kstepDone_ends hrun ..⟩
  · rw [exec_passKstepComplete, execPassKstepComplete]
    dsimp only
    rw [hp]
    dsimp only
    rw [hb]
    rfl
  · rw [clustOf_setClust, if_pos rfl, withKstep_pass]

/-! ## Programs of the near-memory units (11 R354, R355, R370) -/

/-- A unit has room for a queued node, and none stands ahead of it. -/
abbrev NodeRoom (s : State) (g : Nat) (q : NmuQueued) : Prop :=
  mfresh (nmuOf s g).places 0 4 < 4 ∧ (nmuOf s g).used + q.words ≤ 16384 ∧ bit s.status.stackMask g = true ∧
    (q.saved = none → earlierReady s 2 q.order (namesStack s g) = false)

/-- A unit with a node taken from its queue. -/
def nodeTaken (s : State) (g : Nat) (q : NmuQueued) : State :=
  updNmu s g (fun u => { u with queue := u.queue.filter (fun r => r.node != q.node || r.ctx != q.ctx) })

/-- The words of a node's program, read as it is taken. -/
def progRead (s : State) (g : Nat) (q : NmuQueued) : Except Nat (List Byte) × State :=
  readVa (nodeTaken s g q) devCl q.ctx q.prog (4 * q.words)

/-- The program that a loaded node starts, or that resumes from its save area. -/
def loadedProg (q : NmuQueued) (ws : List W32) (s : State) : NmuProg × State :=
  match q.saved with
  | some p => resumeProg s p ws
  | none => (startProg q ws s.nextId, s)

theorem loadedProg_words (q : NmuQueued) (ws : List W32) (s : State) : (loadedProg q ws s).1.words = ws := by
  unfold loadedProg
  split <;> rfl

theorem loadedProg_fresh {q : NmuQueued} (h : q.saved = none) (ws : List W32) (s : State) :
    (loadedProg q ws s).1 = startProg q ws s.nextId := by
  rw [loadedProg, h]

/-- The machine with a loaded program in a place of a unit. -/
def withProg (g place : Nat) (r : NmuProg × State) : State :=
  updNmu { r.2 with nextId := r.2.nextId + 1 } g (fun u => { u with places := mset u.places place r.1 })

theorem nmuProg_withProg (g place : Nat) (r : NmuProg × State) : nmuProg (withProg g place r) g place = some r.1 := by
  simp only [nmuProg, withProg, nmuOf_updNmu, if_true]
  exact mget_mset_self ..

section

variable {s : State} {g : Nat} {q : NmuQueued}

theorem nmuNodeLoad_none (h : nextQueued s (nmuOf s g) = none) : exec (.nmuNodeLoad g) s = .next s := by
  rw [exec_nmuNodeLoad, execNmuNodeLoad]
  dsimp only
  rw [h]

theorem not_nodeRoom_iff :
    (4 ≤ mfresh (nmuOf s g).places 0 4 ∨ 16384 < (nmuOf s g).used + q.words ∨ (!bit s.status.stackMask g) = true ∨
      (q.saved.isNone = true ∧ earlierReady s 2 q.order (namesStack s g) = true)) ↔ ¬ NodeRoom s g q := by
  simp only [NodeRoom, Classical.not_and_iff_not_or_not, Classical.not_imp, Nat.not_lt, Nat.not_le, Bool.not_eq_true',
    Bool.not_eq_true, Bool.not_eq_false, Option.isNone_iff_eq_none]

section

variable (hq : nextQueued s (nmuOf s g) = some q)
include hq

theorem nmuNodeLoad_waits (hr : ¬ NodeRoom s g q) : exec (.nmuNodeLoad g) s = .next s := by
  rw [exec_nmuNodeLoad, execNmuNodeLoad]
  dsimp only
  rw [hq]
  exact if_pos (not_nodeRoom_iff.mpr hr)

/-- With room the node is taken and its words are read: the program stands in the free place, or the node ends. -/
theorem nmuNodeLoad_reads (hr : NodeRoom s g q) {a : Except Nat (List Byte)} (h : (progRead s g q).1 = a) :
    exec (.nmuNodeLoad g) s = .next (match (generalizing := false) a with
      | .ok bs => withProg g (mfresh (nmuOf s g).places 0 4) (loadedProg q (wordsOf q.words bs) (progRead s g q).2)
      | .error va => agentEndAt (progRead s g q).2 q.ctx q.node false 0xF1 va) := by
  rw [exec_nmuNodeLoad, execNmuNodeLoad]
  dsimp only
  rw [hq]
  refine (if_neg fun hn => not_nodeRoom_iff.mp hn hr).trans ?_
  rw [← nodeTaken, ← progRead]
  generalize progRead s g q = r at h
  obtain ⟨_, u⟩ := r
  cases a <;> cases h <;> rfl

/-- A loaded node stands in its place as the program of the words that were read. -/
theorem ends_nmuNodeLoad (hr : NodeRoom s g q) {bs : List Byte} (h : (progRead s g q).1 = .ok bs) :
    Ends (.nmuNodeLoad g) s (fun t => ∃ p, nmuProg t g (mfresh (nmuOf s g).places 0 4) = some p ∧ p.words = wordsOf q.words bs ∧
      (q.saved = none → p = startProg q (wordsOf q.words bs) (progRead s g q).2.nextId)) :=
  ⟨_, nmuNodeLoad_reads hq hr h, _, nmuProg_withProg .., loadedProg_words .., fun hs => loadedProg_fresh hs ..⟩

end

/-- A unit with the node of a saved program queued again, behind those saved earlier and before every other. -/
def queuedAgain (p : NmuProg) (u : Nmu) : Nmu :=
  { u with queue := u.queue.filter (fun x => x.saved.isSome) ++
      [⟨p.ctx, p.node, p.launch, p.prog, p.words.length, p.save, [], p.seq, some p⟩] ++ u.queue.filter (fun x => x.saved.isNone) }

section

variable {k : Nat} {p : NmuProg} (hp : nmuProg s g k = some p)
include hp

theorem nmuProgramSave_keeps (h : nmuActive s p.ctx = true ∨ p.fault ≠ none) : exec (.nmuProgramSave g k) s = .next s := by
  have hc : nmuActive s p.ctx = true ∨ p.fault.isSome = true := h.imp_right Option.isSome_iff_ne_none.mpr
  rw [exec_nmuProgramSave, execNmuProgramSave, hp]
  exact if_pos hc

/-- A program whose context leaves residency drains its batch before it is saved. -/
theorem nmuProgramSave_drains (ha : nmuActive s p.ctx = false) (hf : p.fault = none) (hd : p.pending = true) :
    exec (.nmuProgramSave g k) s = .next (putProg (drainEvent p s).2 g k (drainEvent p s).1) := by
  rw [exec_nmuProgramSave, execNmuProgramSave, hp]
  dsimp only
  rw [ha, hf, hd]
  rfl

/-- The save frees the place. -/
theorem nmuProgramSave_leaves (ha : nmuActive s p.ctx = false) (hf : p.fault = none) (hd : p.pending = false) :
    Ends (.nmuProgramSave g k) s (fun t => nmuProg t g k = none) := by
  refine ⟨updNmu (freePlace (writeSave s p) g k) g (queuedAgain p), ?_, ?_⟩
  · rw [exec_nmuProgramSave, execNmuProgramSave, hp]
    dsimp only
    rw [ha, hf, hd]
    rfl
  · simp only [nmuProg, freePlace, nmuOf_updNmu, if_true]
    exact (mget_mdel ..).trans (if_pos rfl)

/-- A parked program whose condition has been met passes its NWAIT. -/
theorem nwaitRelease_met {x : Xlat} {v : W64} (h : p.parked = some (x, v, true)) :
    exec (.nwaitRelease g k) s = .next (putProg s g k { p with parked := none }.advance) := by
  rw [exec_nwaitRelease, execNwaitRelease, hp]
  dsimp only
  rw [h]

end

end

/-! ## Collectives (11 R364, R365) -/

/-- A collective with one neighbour more that agrees. -/
def heardOne (s : State) (n : Nat) (c : Coll) : State := { s with colls := mset s.colls n { c with heard := c.heard + 1 } }

section

variable {s : State} {n : Nat} {c : Coll} (hc : mget s.colls n = some c)
include hc

theorem collectiveCheckExchange_told {nb : CollPeer} {cause : Nat} (h : nb.abort = some cause) :
    exec (.collectiveCheckExchange n nb) s = .next (collEnd s n false (if c.bad then 3 else cause)) := by
  rw [exec_collectiveCheckExchange, execCollectiveCheckExchange, hc]
  dsimp only
  rw [h]

/-- The checks of a neighbour's parameters, in their order. -/
theorem collectiveCheckExchange_checks {nb : CollPeer} (h : nb.abort = none) :
    exec (.collectiveCheckExchange n nb) s =
      if c.bad then .next (collAbort s n 3 4)
      else if nb.bad then .next (collAbort s n 4 4)
      else if nb ≠ c.peer then .next (collAbort s n 1 1)
      else .next (if c.heard + 1 = c.neighbours.length then
          collDone (collRun c.early.length (collBegin (heardOne s n c) n { c with heard := c.heard + 1 }) n) n
        else heardOne s n c) := by
  rw [exec_collectiveCheckExchange, execCollectiveCheckExchange, hc]
  dsimp only
  rw [h]
  rfl

/-- A segment within the counters joins those received, and enters the sums once every neighbour agrees. -/
theorem collectiveSegmentReceive_eq {seg : CollSegment} (h : seg.first + seg.values.length ≤ c.sk.count) :
    let u := { s with colls := mset s.colls n { c with early := c.early ++ [seg] } }
    exec (.collectiveSegmentReceive n seg) s =
      .next (if c.heard < c.neighbours.length then u else collDone (collRun (c.early.length + 1) u n) n) := by
  rw [exec_collectiveSegmentReceive, execCollectiveSegmentReceive, hc]
  dsimp only
  rw [if_neg (Nat.not_lt.mpr h), List.length_append]
  rfl

end

/-- Settles O46: each move answers by the equation of its case. -/
theorem engineEventsAct : Obligations.EngineEventsAct := by
  intro s
  refine ⟨fun c x hm ha hr hf => ?_, fun c x hx hr => ?_, fun c n x k hx hk => ?_, fun ctx p h => ?_, fun cl n e x d => passPost_posts,
    fun cl e p => passGrant_runs, fun cl e p => passKstepComplete_steps, fun g => ⟨nmuNodeLoad_none, fun q hq => ?_⟩,
    fun g k p hp => ⟨nmuProgramSave_keeps hp, nmuProgramSave_drains hp, nmuProgramSave_leaves hp, fun x v => nwaitRelease_met hp⟩,
    fun n nb c hc => ?_, fun n seg c hc hn => ?_⟩
  · have he := copyTakeUp_first hm ha hr hf
    exact ⟨fun hn => he.trans (if_neg hn), fun hy ht => he.trans ((if_pos hy).trans (if_pos ht)),
      fun hy ht => he.trans ((if_pos hy).trans (if_neg ht))⟩
  · refine ⟨fun hf hfl ho => (copyChunkIssue_failing hx hr hf).trans (congrArg _ (if_pos ⟨hfl, ho⟩)),
      fun hf hno => (copyChunkIssue_failing hx hr hf).trans (congrArg _ (if_neg ?_)),
      fun hf w hs => ⟨copyChunkIssue_notHeld hx hr hf hs, fun hh => ⟨fun hk hw => ?_, fun hk hw => ?_, fun k hk hw => ?_,
        fun k hk hw => ?_⟩⟩, copyChunkIssue_panelwait hx hr, fun hf hs => ?_⟩
    · exact fun ⟨hfl, ho⟩ => hno.elim (fun hne => hne hfl) (ne_true_of_eq_false ho)
    · exact (copyChunkIssue_untied hx hr hf hs hh hk).trans (congrArg _ (if_pos hw))
    · exact (copyChunkIssue_untied hx hr hf hs hh hk).trans (congrArg _ (if_neg hw))
    · exact (copyChunkIssue_tied hx hr hf hs hh hk).trans (congrArg _ (if_pos hw))
    · exact (copyChunkIssue_tied hx hr hf hs hh hk).trans (congrArg _ (if_neg fun ⟨h0, ht⟩ => hw.elim h0 ht))
    · have he := copyChunkIssue_run hx hr hf hs
      refine ⟨fun ht => he.trans (if_pos ht), fun ht hn hw hb => ⟨?_, fun hq => ?_⟩, fun ht hn hw hb => ?_⟩
      · exact he.trans ((if_neg (by omega)).trans ((if_neg (by omega)).trans (if_neg (ne_true_of_eq_false hb))))
      · exact (turn_copyError ..).trans (congrArg _ (copyError_next (s := { s with payer := none }) hx hr hf hs ht hn hw hb hq))
      · exact he.trans ((if_neg (by omega)).trans ((if_neg (by omega)).trans (if_pos hb)))
  · have ht := copyrChunkTimeout_eq hx hk
    refine ⟨copyChunkPerformed_memory hx hk, fun ho hh => (copyChunkPerformed_warp hx hk ho).trans (if_pos hh),
      fun ho hh => (copyChunkPerformed_warp hx hk ho).trans (if_neg hh),
      fun ho => (turn_copyError ..).trans (congrArg _ (copyError_flight (s := { s with payer := none }) hx hk ho)),
      fun ho hl => (ht ho).trans (if_pos hl), fun ho hl hv => (ht ho).trans ((if_neg (Nat.not_lt.mpr hl)).trans (if_pos hv)),
      fun ho hl hv => ?_⟩
    have hlost := (ht ho).trans ((if_neg (Nat.not_lt.mpr hl)).trans (if_neg (ne_true_of_eq_false hv)))
    exact ⟨fun r hr => hlost.trans (by rw [unrequested_sent hr]), fun hr => hlost.trans (by rw [unrequested_queued hr])⟩
  · have he := drainlimExpiry_eq h
    exact ⟨fun hf hd hl => he.trans (if_pos ⟨hf, hd, hl⟩), fun hl => he.trans (if_neg fun ⟨_, _, hle⟩ => Nat.not_lt.mpr hle hl)⟩
  · exact ⟨nmuNodeLoad_waits hq, fun hr va => nmuNodeLoad_reads hq hr, fun hr bs => ends_nmuNodeLoad hq hr⟩
  · refine ⟨fun cause => collectiveCheckExchange_told hc, fun h hb => ?_, fun h hb hn => ?_, fun h hb hn hp => ?_, fun h hb hn hp hl => ?_⟩
    all_goals refine (collectiveCheckExchange_checks hc h).trans ?_
    · exact if_pos hb
    · exact (if_neg (ne_true_of_eq_false hb)).trans (if_pos hn)
    · exact (if_neg (ne_true_of_eq_false hb)).trans ((if_neg (ne_true_of_eq_false hn)).trans (if_pos hp))
    · exact (if_neg (ne_true_of_eq_false hb)).trans ((if_neg (ne_true_of_eq_false hn)).trans ((if_neg (not_not_intro hp)).trans
        (congrArg _ (if_neg (Nat.ne_of_lt hl)))))
  · have he := collectiveSegmentReceive_eq hc hn
    exact ⟨fun hl => he.trans (congrArg _ (if_pos hl)), fun hl => he.trans (congrArg _ (if_neg (Nat.not_lt.mpr hl)))⟩

end Sys2Proof.Claims
end

section
/-! PROOFS. HARN, the pass words, MLUT and MPROG (10 R322, R326, R344, R346, R349). -/

namespace Sys2Proof.Claims

open Sys2Proof.Machine

/-! ## The matrix engine as a word finds it -/

@[simp] theorem clustOf_noteIssue (s : State) (cl : Nat) : clustOf (noteIssue s) cl = clustOf s cl := rfl

@[simp] theorem postBehind_noteIssue (s : State) (cl rank : Nat) : postBehind (noteIssue s) cl rank = postBehind s cl rank := rfl

@[simp] theorem mprogVal_noteIssue (s : State) (cl ticket : Nat) : mprogVal (noteIssue s) cl ticket = mprogVal s cl ticket := rfl

/-- A change of a cluster's engine keeps memory and the values of every warp. -/
theorem sameVals_updClust (s : State) (cl : Nat) (f : Cluster → Cluster) : SameVals s (updClust s cl f) := ⟨rfl, rfl, rfl, rfl⟩

/-- A word that writes a register in a state whose other units it has changed, and no byte of memory. -/
theorem ends_mem_writesReg {i : Instr} {s v : State} {us : Use} {body : State → Act} {d : Dst} {wide sgn : Bool} {lat : Nat}
    {f : Nat → Nat} (he : exec i s = issueWord us body s) (hi : Issues us s) (hm : v.mem = s.mem)
    (hb : body (noteIssue s) = .done (wbLanes v d wide sgn lat f)) :
    Ends i s (fun t => t.mem = s.mem ∧ WritesReg v t d wide sgn lat f) :=
  ⟨_, he.trans (issueWord_done hi hb), (wbLanes_mem ..).trans hm, writesReg_any ..⟩

/-! ## The pass words (10 R322, R326) -/

/-- The issuing slices park, each with a wait of its own. -/
def parkEach (s : State) (o : Nat → WaitObj) : State :=
  updCw s (fun w => w.updSlices s.cur.mask (fun j y => { y.discard with st := .park (o j) }))

theorem frameBy_parkEach (s : State) (o : Nat → WaitObj) :
    FrameBy (fun j y => { y with st := .park (o j), window := [] }) s (parkEach s o) [] [] [] :=
  frame_any (fun _ => warpStepBy_upd (P := fun j y => { y with st := .park (o j), window := [] }) (fun _ _ _ => rfl) (cw s).gangs
    rfl rfl (fun _ => rfl) (fun _ _ _ _ => rfl) (fun _ _ _ _ => rfl) (fun _ _ _ => rfl) (fun _ _ _ _ => rfl))

/-- What a slice offers at the latch of its pass word: the word and the descriptor that the slice read. -/
def latchOffer (x : PassArgs) (s : State) (j : Nat) : WaitObj :=
  .rendezvous x.n s.cur.word (BitVec.ofNat 64 (op64 s x.a (lane0 j)))

@[simp] theorem latchOffer_noteIssue (x : PassArgs) (s : State) : latchOffer x (noteIssue s) = latchOffer x s := by
  funext j
  rw [latchOffer, op64_noteIssue, noteIssue_cur, latchOffer]

theorem passWord_eq (x : PassArgs) (s : State) : passWord x s =
    issueWord { ops := [(x.a, true)], dst := some (x.d, 1), gated := true } (fun v =>
      if !released v then .stall
      else .done (latchTest (parkEach v (latchOffer x v)) v.cur.core v.cur.slot x.n)) s := rfl

/-- A pass word waits for its release; then its slices park with their offers, and the engine tests the latch. -/
theorem passWord_waits_or_parks {i : Instr} {x : PassArgs} {s : State} (he : exec i s = passWord x s)
    (hi : Issues { ops := [(x.a, true)], dst := some (x.d, 1), gated := true } s) :
    (released (noteIssue s) = false → Waits i s) ∧
    (released (noteIssue s) = true → ∃ u,
      FrameBy (fun j y => { y with st := .park (latchOffer x s j), window := [] }) (noteIssue s) u [] [] [] ∧ Quiet s u ∧
      exec i s = .next (latchTest u s.cur.core s.cur.slot x.n)) := by
  have hw := he.trans (passWord_eq x s)
  refine ⟨fun hr => hw.trans (issueWord_stall hi (by rw [hr]; rfl)), fun hr => ?_⟩
  have hf := frameBy_parkEach (noteIssue s) (latchOffer x s)
  refine ⟨_, hf, quiet_of_frame (sameVals_note s) hf, hw.trans (issueWord_done hi ?_)⟩
  rw [hr, latchOffer_noteIssue]
  rfl

/-! ## MLUT (10 R346) -/

section

variable {x : LutArgs} {s : State} {e : Nat}

/-- What an MLUT uses. -/
abbrev mlutUse (x : LutArgs) : Use := { ops := [(x.a, true)], dst := some (x.d, 1), gated := true }

theorem mlut_badDescriptor (hi : Issues (mlutUse x) s) (hd : descBad false (lowOp s true x.a) = true) :
    Faults (.mlut x) s { flt 0xD with cause := 6 } :=
  faults_of_trap (exec_mlut x s) hi (by simp only [lowOp_noteIssue, hd, if_true])

theorem mlut_full (hi : Issues (mlutUse x) s) (hd : descBad false (lowOp s true x.a) = false)
    (he : freeEntry (clustOf s (clusterOf s.cur.core)) = none) : Waits (.mlut x) s :=
  (exec_mlut x s).trans (issueWord_stall hi
    (by simp only [lowOp_noteIssue, noteIssue_cur, clustOf_noteIssue, hd, he, Bool.false_eq_true, if_false]))

theorem mlut_behind (hi : Issues (mlutUse x) s) (hd : descBad false (lowOp s true x.a) = false)
    (he : freeEntry (clustOf s (clusterOf s.cur.core)) = some e)
    (hb : postBehind s (clusterOf s.cur.core) (64 + s.cur.core) = true) : Waits (.mlut x) s :=
  (exec_mlut x s).trans (issueWord_stall hi
    (by simp only [lowOp_noteIssue, noteIssue_cur, clustOf_noteIssue, postBehind_noteIssue, hd, he, hb, Bool.false_eq_true,
      if_false, if_true]))

theorem mlut_posts (hi : Issues (mlutUse x) s) (hd : descBad false (lowOp s true x.a) = false)
    (he : freeEntry (clustOf s (clusterOf s.cur.core)) = some e)
    (hb : postBehind s (clusterOf s.cur.core) (64 + s.cur.core) = false) :
    let r := postPass (noteIssue s) (clusterOf s.cur.core) e (64 + s.cur.core) ⟨false, true, x.fmt, x.ka, x.kb, x.tra, false⟩
      (lowOp s true x.a) [((cw s).uid, s.cur.core, s.cur.slot)]
    Ends (.mlut x) s (fun t => t.mem = s.mem ∧ WritesReg r.2 t x.d false false 24 (fun _ => r.1)) :=
  ends_mem_writesReg (exec_mlut x s) hi (postPass_mem ..)
    (by simp only [lowOp_noteIssue, noteIssue_cur, clustOf_noteIssue, postBehind_noteIssue, cw_noteIssue_uid, hd, he, hb,
      Bool.false_eq_true, if_false])

end

/-- Settles O26: the two pass words are one, MLUT tests its descriptor, the table and the order of postings in turn, and the others
complete at once. -/
theorem passWordsComplete : Obligations.PassWordsComplete := by
  intro s
  refine ⟨fun n a hi => ends_quiet_passes (exec_harn n a s) hi (sameVals_updClust ..) ?_, fun x hi => ?_,
    fun x hi => ⟨mlut_badDescriptor hi, mlut_full hi, fun e => mlut_behind hi, fun e => mlut_posts hi⟩,
    fun d a hi => ends_writesReg (exec_mprog d a s) hi ?_,
    fun d a b hi => ends_mem_writesReg (exec_mprogW d a b s) hi (updClust_mem ..) ?_⟩
  · rw [lowOp_noteIssue, noteIssue_cur]
  · obtain ⟨hwait, hpark⟩ := passWord_waits_or_parks (exec_mpass x s) hi
    obtain ⟨hwaitS, hparkS⟩ := passWord_waits_or_parks (exec_mspass x s) hi
    exact ⟨fun hr => ⟨hwait hr, hwaitS hr⟩, fun hr => ⟨hpark hr, hparkS hr⟩⟩
  · rw [lowOp_noteIssue, noteIssue_cur, mprogVal_noteIssue]
  · simp only [lowOp_noteIssue, noteIssue_cur, mprogVal_noteIssue]

end Sys2Proof.Claims
end

section
/-! PROOFS. The tile instructions in the order of their slots (10 R334, R347, R348). -/

namespace Sys2Proof.Claims

open Sys2Proof.Machine

/-! ## A tile instruction, its turn and its place -/

section

variable {i : Instr} {us : Use} {slots : List Nat} {body : State → State} {s : State}

/-- A tile instruction that no check stops reaches the engine unless a pass was posted there in this cycle, and acts in its turn. -/
theorem tileWord_issues (hi : Issues us s) : tileWord us slots body s =
    if tilePlace s = none ∧ postedNow s (clusterOf s.cur.core) = true then .next s
    else if tileTurn s slots = true then .next (body (tileLeave (noteIssue s)))
    else .next (tileEnter s slots) := by
  obtain ⟨hf, hr⟩ := hi
  have hact := issueWord_done (body := fun v => .done (body (tileLeave v))) ⟨hf, hr⟩ rfl
  rw [tileWord, hact, hf, hr]
  cases tileTurn s slots <;> simp

theorem tileWord_early (he : exec i s = tileWord us slots body s) (hi : Issues us s)
    (hp : tilePlace s = none ∧ postedNow s (clusterOf s.cur.core) = true) : Waits i s :=
  he.trans ((tileWord_issues hi).trans (if_pos hp))

theorem tileWord_enters (he : exec i s = tileWord us slots body s) (hi : Issues us s)
    (hp : ¬ (tilePlace s = none ∧ postedNow s (clusterOf s.cur.core) = true)) (ht : tileTurn s slots = false) :
    exec i s = .next (tileEnter s slots) :=
  he.trans ((tileWord_issues hi).trans ((if_neg hp).trans (if_neg (ne_true_of_eq_false ht))))

theorem tileWord_acts (he : exec i s = tileWord us slots body s) (hi : Issues us s)
    (hp : ¬ (tilePlace s = none ∧ postedNow s (clusterOf s.cur.core) = true)) (ht : tileTurn s slots = true) :
    exec i s = .next (body (tileLeave (noteIssue s))) :=
  he.trans ((tileWord_issues hi).trans ((if_neg hp).trans (if_pos ht)))

/-- A fault before the effect comes before the turn. -/
theorem tileWord_faults {f : FaultInfo} (he : exec i s = tileWord us slots body s) (hf : preFault us s = some f) : Faults i s f := by
  refine he.trans ?_
  rw [tileWord, issueWord_preFault hf, hf]
  rfl

/-- A tile instruction that acts without a result, on its cluster's engine only. -/
theorem tileWord_acts_quietly {cl : Nat} {g : Cluster → Cluster} (he : exec i s = tileWord us slots body s) (hi : Issues us s)
    (hp : ¬ (tilePlace s = none ∧ postedNow s (clusterOf s.cur.core) = true)) (ht : tileTurn s slots = true)
    (hb : body (tileLeave (noteIssue s)) = retireVoid (updClust (tileLeave (noteIssue s)) cl g)) :
    Ends i s (fun t => Quiet s t ∧ Passes (updClust (tileLeave (noteIssue s)) cl g) t) :=
  have hv := sameVals_trans (sameVals_note s) (sameVals_trans (sameVals_updClust ..) (sameVals_updClust (tileLeave (noteIssue s)) cl g))
  ⟨_, (tileWord_acts he hi hp ht).trans (congrArg _ hb), quiet_of_frame hv (passes_any _), passes_any _⟩

end

/-! ## The accumulator words (10 R347) -/

@[simp] theorem tileLeave_cur (s : State) : (tileLeave s).cur = s.cur := rfl

@[simp] theorem cw_tileLeave (s : State) : cw (tileLeave s) = cw s := rfl

@[simp] theorem curLanes_tileLeave (s : State) : curLanes (tileLeave s) = curLanes s := rfl

/-- What an accumulator word uses: beyond the tile it is reserved. -/
abbrev accUse (us : Use) (x : AccArgs) (s : State) : Use := { us with bad := accRange x s }

theorem preFault_beyondTile {x : AccArgs} {s : State} (us : Use) (h : 128 / (cw s).width ≤ x.cb) :
    preFault (accUse us x s) s = some (flt 2) := by
  have hr : accRange x s = true := decide_eq_true h
  simp only [preFault, hr, Bool.or_true, if_true]

/-- Within the tile an accumulator word issues as its registers let it. -/
theorem issues_withinTile {x : AccArgs} {s : State} {us : Use} (hb : us.bad = false) (h : x.cb < 128 / (cw s).width)
    (hi : Issues us s) : Issues (accUse us x s) s := by
  have hr : accRange x s = us.bad := (decide_eq_false (Nat.not_le.mpr h)).trans hb.symm
  rw [accUse, hr]
  exact hi

/-- An accumulator word until its turn: reserved beyond the tile, else kept from the cycle of a posting, or in the order of its slot. -/
theorem accWord_untilTurn {i : Instr} {us : Use} {x : AccArgs} {body : State → State} {s : State}
    (he : exec i s = tileWord (accUse us x s) [x.t] body s) (hb : us.bad = false) (hi : Issues us s) :
    let early := tilePlace s = none ∧ postedNow s (clusterOf s.cur.core) = true
    (128 / (cw s).width ≤ x.cb → Faults i s (flt 2)) ∧
    (x.cb < 128 / (cw s).width → early → Waits i s) ∧
    (x.cb < 128 / (cw s).width → ¬ early → tileTurn s [x.t] = false → exec i s = .next (tileEnter s [x.t])) :=
  ⟨fun hr => tileWord_faults he (preFault_beyondTile us hr), fun hr => tileWord_early he (issues_withinTile hb hr hi),
    fun hr => tileWord_enters he (issues_withinTile hb hr hi)⟩

/-- A word that acts finds the accumulator element of a lane where it was at issue. -/
theorem accIdx_acting (s : State) : accIdx (tileLeave (noteIssue s)) = accIdx s := by
  funext x l
  rw [accIdx, cw_tileLeave, cw_noteIssue_width, accIdx]

section

variable {x : AccArgs} {s : State}

/-- What an ACCRD uses within the tile. -/
abbrev accrdUse (x : AccArgs) : Use := { dst := some (⟨.v x.v, false⟩, 1), gated := true }

/-- What an ACCWR uses within the tile. -/
abbrev accwrUse (x : AccArgs) : Use := { vr := [x.v], gated := true }

theorem exec_accrd_eq (x : AccArgs) (s : State) : exec (.accrd x) s = tileWord (accUse (accrdUse x) x s) [x.t] (fun v =>
    wbLanes v ⟨.v x.v, false⟩ false false 8 (fun l => accVal (clustOf v (clusterOf v.cur.core)) x (accIdx v x l))) s := rfl

/-- The cluster in which an ACCWR has written the element of a lane. -/
def accPutLane (x : AccArgs) (s : State) (k : Cluster) (l : Nat) : Cluster :=
  if accRaw k x then accWrite k x.t (accIdx s x l) ((cw s).vreg x.v l)
  else put48 k x.t (accIdx s x l) (accPut (accScale k x.t) ((cw s).vreg x.v l).toNat)

theorem exec_accwr_eq (x : AccArgs) (s : State) : exec (.accwr x) s = tileWord (accUse (accwrUse x) x s) [x.t] (fun v =>
    retireVoid (updClust v (clusterOf v.cur.core) (fun k => (curLanes v).foldl (accPutLane x v) k))) s := rfl

theorem accPutLane_acting (x : AccArgs) (s : State) : accPutLane x (tileLeave (noteIssue s)) = accPutLane x s := by
  funext k l
  simp only [accPutLane, accIdx_acting, cw_tileLeave, cw_noteIssue_vreg]

/-- ACCRD in its turn reads the element of each lane. -/
theorem accrd_acts (hi : Issues (accUse (accrdUse x) x s) s)
    (hp : ¬ (tilePlace s = none ∧ postedNow s (clusterOf s.cur.core) = true)) (ht : tileTurn s [x.t] = true) :
    let c := tileLeave (noteIssue s)
    Ends (.accrd x) s (fun t => t.mem = s.mem ∧ WritesReg c t ⟨.v x.v, false⟩ false false 8
      (fun l => accVal (clustOf c (clusterOf s.cur.core)) x (accIdx s x l))) := by
  rw [← accIdx_acting]
  exact ⟨_, tileWord_acts (exec_accrd_eq x s) hi hp ht, wbLanes_mem .., writesReg_any ..⟩

/-- ACCWR in its turn writes the element of each lane. -/
theorem accwr_acts (hi : Issues (accUse (accwrUse x) x s) s)
    (hp : ¬ (tilePlace s = none ∧ postedNow s (clusterOf s.cur.core) = true)) (ht : tileTurn s [x.t] = true) :
    Ends (.accwr x) s (fun t => Quiet s t ∧ Passes (updClust (tileLeave (noteIssue s)) (clusterOf s.cur.core)
      (fun k => (curLanes s).foldl (accPutLane x s) k)) t) :=
  tileWord_acts_quietly (exec_accwr_eq x s) hi hp ht
    (by rw [accPutLane_acting, curLanes_tileLeave, curLanes_note, tileLeave_cur, noteIssue_cur])

end

/-- Settles O27: the three words are one tile instruction, by its turn and its place; what each does, it does in the state in which it
has left the order. -/
theorem tileWordsActInOrder : Obligations.TileWordsActInOrder := by
  intro s
  refine ⟨fun x hi => ?_, fun x hi => ?_, fun kind k hi => ⟨tileWord_early (exec_accz kind k s) hi,
    tileWord_enters (exec_accz kind k s) hi, fun hp ht => tileWord_acts_quietly (exec_accz kind k s) hi hp ht ?_⟩⟩
  · obtain ⟨hfault, hwait, henter⟩ := accWord_untilTurn (exec_accrd_eq x s) rfl hi
    exact ⟨hfault, hwait, henter, fun hr => accrd_acts (issues_withinTile rfl hr hi)⟩
  · obtain ⟨hfault, hwait, henter⟩ := accWord_untilTurn (exec_accwr_eq x s) rfl hi
    exact ⟨hfault, hwait, henter, fun hr => accwr_acts (issues_withinTile rfl hr hi)⟩
  · cases kind <;> rfl

end Sys2Proof.Claims
end

section
/-! PROOFS. The sketch words of the cores (11 R359, R362, R372-R374). -/

namespace Sys2Proof.Claims

open Sys2Proof.Machine

/-! ## The checks change TLBs only (11 R373) -/

section

variable (s : State)

theorem onlyTlbs_baseXlat (k : Sketch) (kind : AccessKind) : OnlyTlbs s (baseXlat s k kind).2 := by
  unfold baseXlat
  have ht := onlyTlbs_translate s (clusterOf s.cur.core) (cw s).ctx k.base kind
  split <;> next h => rwa [h] at ht

theorem onlyTlbs_checkOne (a : Nat) (kind : AccessKind) (j : Nat) : OnlyTlbs s (checkOne a kind j s).2 := by
  unfold checkOne
  split
  · exact onlyTlbs_refl s
  · next k _ =>
    have hb := onlyTlbs_baseXlat s k kind
    split <;> next h => rwa [h] at hb

theorem onlyTlbs_checkAll (a : Nat) (kind : AccessKind) (l : List Nat) : ∀ s : State, OnlyTlbs s (checkAll a kind l s).2 := by
  induction l with
  | nil => exact onlyTlbs_refl
  | cons j t ih =>
    intro s
    unfold checkAll
    have ho := onlyTlbs_checkOne s a kind j
    split
    · next h => rwa [h] at ho
    · next v h =>
      rw [h] at ho
      have hi := onlyTlbs_trans ho (ih v)
      split <;> next g => rwa [g] at hi

theorem onlyTlbs_checkPair (a b j : Nat) : OnlyTlbs s (checkPair a b j s).2 := by
  unfold checkPair
  split
  · next x y _ _ =>
    split
    · exact onlyTlbs_refl s
    · split
      · exact onlyTlbs_refl s
      · exact onlyTlbs_trans (onlyTlbs_baseXlat s x .rmw) (onlyTlbs_baseXlat _ y .read)
  · exact onlyTlbs_refl s

end

/-! ## What a checked word reads is what it read before its issue -/

section

variable {s u : State} (hu : OnlyTlbs s u)
include hu

theorem onlyTlbs_perfLanes : perfLanes u = perfLanes s := by
  rw [hu]
  rfl

theorem onlyTlbs_opF : opF u = opF s := by
  rw [hu]
  rfl

theorem onlyTlbs_keyOf : keyOf u = keyOf s := by
  rw [hu]
  rfl

theorem onlyTlbs_wordVa : wordVa u = wordVa s := by
  rw [hu]
  rfl

end

@[simp] theorem keyOf_noteIssue (s : State) : keyOf (noteIssue s) = keyOf s := by
  funext k64 c l
  rw [keyOf, keyOf, op32_noteIssue, op64_noteIssue]

@[simp] theorem wordVa_noteIssue (s : State) : wordVa (noteIssue s) = wordVa s := by
  rw [wordVa, wordVa, cw_noteIssue_slice, curLow_noteIssue]

/-! ## Words without a result whose block becomes volatile -/

/-- A word without a result that makes the tiles of its block volatile. -/
theorem sendsStore_volatile {i : Instr} {s u : State} {us : Use} {body : State → Act} {ic : Nat} {tx : Tx}
    (he : exec i s = issueWord us body s) (hi : Issues us s) (hu : OnlyTlbs (noteIssue s) u)
    (hb : body (noteIssue s) = issueTx u ic tx (fun _ v => retireVoid (traceVolatile v (cw v)))) :
    SendsStore i s u (traceVolatile (counted u ic tx) (cw s)) ic tx := by
  rw [← traceVolatile_counted hu]
  exact sendsStore_of (B := fun v => traceVolatile v (cw v)) he hi hb hu (sameVals_volatile ..)

/-! ## The words (11 R374) -/

section

variable {s u : State}

theorem onlyTlbs_of_checkAll {a : Nat} {kind : AccessKind} {l : List Nat} {r : Except FaultInfo (SMap BasedSketch)}
    (h : checkAll a kind l s = (r, u)) : OnlyTlbs s u := by
  have hc := onlyTlbs_checkAll a kind l s
  rwa [h] at hc

theorem onlyTlbs_of_checkPair {a b j : Nat} {r : Except FaultInfo (BasedSketch × BasedSketch)}
    (h : checkPair a b j s = (r, u)) : OnlyTlbs s u := by
  have hc := onlyTlbs_checkPair s a b j
  rwa [h] at hc

theorem onlyTlbs_of_checkOne {a j : Nat} {kind : AccessKind} {r : Except FaultInfo BasedSketch}
    (h : checkOne a kind j s = (r, u)) : OnlyTlbs s u := by
  have hc := onlyTlbs_checkOne s a kind j
  rwa [h] at hc

end

/-- Settles O28: each word takes the fault of its checks or puts its counter events in flight; neither the note of its issue nor the checks
change what its keys, values and lanes are read from. -/
theorem sketchWordsSendToNmu : Obligations.SketchWordsSendToNmu := by
  intro s
  dsimp only
  refine ⟨fun x hi => ⟨fun f u h => ?_, fun ds u h => ?_⟩, fun x hi => ⟨fun f u h => ?_, fun ds u h => ?_⟩,
    fun a b hi => ⟨fun f u h => ?_, fun x y u h => ?_⟩, fun a hi => ⟨fun f u h => ?_, fun x u h => ?_⟩⟩
  · exact faults_of_trap (exec_skupd x s) hi (by simp only [curSlices_note, h])
  · have hu := onlyTlbs_of_checkAll h
    refine sendsStore_volatile (exec_skupd x s) hi hu ?_
    simp only [curSlices_note, h, onlyTlbs_wordVa hu, wordVa_noteIssue, onlyTlbs_perfLanes hu, perfLanes_noteIssue, onlyTlbs_keyOf hu,
      keyOf_noteIssue, onlyTlbs_opF hu, opF_noteIssue, List.flatMap_map]
  · exact faults_of_trap (exec_skqry x s) hi (by simp only [curSlices_note, h])
  · have hu := onlyTlbs_of_checkAll h
    refine sendsLoad_volatile (e := pendEntry x.d.reg false) (exec_skqry x s) hi hu ?_
    simp only [curSlices_note, h, onlyTlbs_wordVa hu, wordVa_noteIssue, onlyTlbs_perfLanes hu, perfLanes_noteIssue, onlyTlbs_keyOf hu,
      keyOf_noteIssue, List.flatMap_map, List.map_map, Function.comp_def]
  · exact faults_of_trap (exec_skadd a b s) hi (by simp only [curLow_noteIssue, h])
  · have hu := onlyTlbs_of_checkPair h
    exact sendsStore_volatile (exec_skadd a b s) hi hu (by simp only [curLow_noteIssue, h, onlyTlbs_wordVa hu, wordVa_noteIssue])
  · exact faults_of_trap (exec_skclr a s) hi (by simp only [curLow_noteIssue, h])
  · have hu := onlyTlbs_of_checkOne h
    exact sendsStore_volatile (exec_skclr a s) hi hu (by simp only [curLow_noteIssue, h, onlyTlbs_wordVa hu, wordVa_noteIssue])

end Sys2Proof.Claims
end

section
/-! PROOFS. The words of the near-memory units (11 R353-R355, R367-R371). -/

namespace Sys2Proof.Claims

open Sys2Proof.Machine

section

variable {i : Instr} {s : State} {p : NmuProg} {f g : NmuProg → State → NAct}

/-! ## Words before which the batch is drained (11 R360, R368) -/

/-- What a word does depends on its effect on the program and the state that it finds only. -/
theorem nmuWord_congr (h : NmuRuns s p) (hf : f p (nmuNoted s) = g p (nmuNoted s)) : nmuWord f s = nmuWord g s := by
  rw [nmuWord_runs h, nmuWord_runs h, hf]

theorem drainEvent_noted_cur (p : NmuProg) (s : State) : (drainEvent p (nmuNoted s)).2.cur = s.cur :=
  (onlyHome_cur (onlyHome_drainEvent ..)).trans (nmuNoted_cur s)

/-- A word whose turn is one counter event of the drain. -/
theorem nmuDrains_of (he : exec i s = nmuWord f s) (h : NmuRuns s p)
    (hf : f p (nmuNoted s) = .jump (drainEvent p (nmuNoted s)).1 (drainEvent p (nmuNoted s)).2) : NmuDrains i s p :=
  nmuJumps_of he h hf (drainEvent_noted_cur p s)

theorem nmuDrained_drains (he : exec i s = nmuDrained f s) (h : NmuRuns s p) (hp : p.pending = true) : NmuDrains i s p :=
  nmuDrains_of he h (if_pos hp)

/-- With no update left the word acts. -/
theorem nmuDrained_acts (he : exec i s = nmuDrained f s) (h : NmuRuns s p) (hp : p.pending = false) : exec i s = nmuWord f s :=
  he.trans (nmuWord_congr h (if_neg (ne_true_of_eq_false hp)))

end

/-! ## Vector words (11 R367) -/

/-- A word that changes its program only passes with that change. -/
theorem nmuOwn_passes {i : Instr} {s : State} {p : NmuProg} {f : NmuProg → NmuProg} (he : exec i s = nmuOwn f s) (h : NmuRuns s p) :
    NmuPasses i s (nmuNoted s) (f p) :=
  nmuPasses_of (f := fun p s => .pass (f p) s) he h rfl (nmuNoted_cur s)

/-- Settles O33: each vector word sets every lane of one register by a function of the registers that it finds. -/
theorem nmuVectorWordsWriteLanes : Obligations.NmuVectorWordsWriteLanes := by
  intro s p h
  exact ⟨fun x => nmuVector_of (fun p l => fp32.add x.rnd false (p.lane x.ga l) (p.lane x.gb l)) h (exec_nadd x s),
    fun x => nmuVector_of (fun p l => fp32.sub x.rnd false (p.lane x.ga l) (p.lane x.gb l)) h (exec_nsub x s),
    fun x => nmuVector_of (fun p l => fp32.mul x.rnd false (p.lane x.ga l) (p.lane x.gb l)) h (exec_nmul x s),
    fun x => nmuVector_of (fun p l => fp32.fma x.rnd false (p.lane x.ga l) (p.lane x.gb l) (p.lane x.gc l)) h (exec_nfma x s),
    fun x => nmuVector_of (fun p l => fp32.minmax false false (p.lane x.ga l) (p.lane x.gb l)) h (exec_nmin x s),
    fun x => nmuVector_of (fun p l => fp32.minmax false true (p.lane x.ga l) (p.lane x.gb l)) h (exec_nmax x s),
    fun gd ga => nmuVector_of (fun p l => frsqCode (p.lane ga l)) h (exec_nrsq gd ga s),
    fun gd ga k rnd => nmuVector_of (fun p l => ncvtCode1 k rnd (p.lane ga l)) h (exec_ncvt gd ga k rnd s),
    fun gd imm => nmuVector_of (fun _ _ => imm * 2 ^ 12) h (exec_nsetImm gd imm s),
    fun gd a => nmuVector_of (fun p _ => p.areg a) h (exec_nsetReg gd a s),
    fun ad as sh imm => ⟨_, nmuOwn_passes (exec_naddi ad as sh imm s) h, rfl, aregSet_setA ..⟩⟩

/-! ## Translated ranges (11 R351, R371) -/

section

variable {ctx va n : Nat} {k : AccessKind} {s u : State} {f : List (Nat × Xlat) → State → NAct}

theorem withPages_error {e : Nat × Nat} (h : nmuPages ctx s.cur.stack k (pagesOf va n) s = (.error e, u)) :
    withPages ctx k va n s f = .fault e.1 e.2 := by
  rw [withPages, h]

theorem withPages_ok {ps : List (Nat × Xlat)} (h : nmuPages ctx s.cur.stack k (pagesOf va n) s = (.ok ps, u)) :
    withPages ctx k va n s f = f ps u := by
  rw [withPages, h]

theorem onlyHome_of_nmuPages {ctx stack : Nat} {l : List Nat} {r : Except (Nat × Nat) (List (Nat × Xlat))}
    (h : nmuPages ctx stack k l s = (r, u)) : OnlyHome s u := by
  have ho := onlyHome_nmuPages ctx stack k l s
  rwa [h] at ho

end

/-! ## NLDV and NSTV (11 R353) -/

section

variable {s u : State} {p : NmuProg} {x : NmuMem} {ps : List (Nat × Xlat)}

/-- A program with the address of a memory word moved on behind the words, where the word asks for it. -/
def movedPast (x : NmuMem) (va : Nat) (p : NmuProg) : NmuProg := if x.inc then p.setA x.a (va + 4 * x.n) else p

theorem movedPast_only (x : NmuMem) (va : Nat) (p : NmuProg) : movedPast x va p = { p with a := (movedPast x va p).a } := by
  unfold movedPast
  split <;> rfl

theorem movedPast_only_registers {q : NmuProg} (x : NmuMem) (va : Nat) (hq : q = { p with g := q.g }) :
    movedPast x va q = { p with g := (movedPast x va q).g, a := (movedPast x va q).a } := by
  unfold movedPast
  rw [hq]
  split <;> rfl

theorem movedPast_lane (x : NmuMem) (va : Nat) (p : NmuProg) : (movedPast x va p).lane = p.lane := by
  rw [movedPast_only]
  rfl

theorem aregSet_movedPast (x : NmuMem) (p : NmuProg) :
    AregSet p (movedPast x (p.areg x.a) p) x.a (if x.inc then p.areg x.a + 4 * x.n else p.areg x.a) := by
  unfold movedPast
  split
  · exact aregSet_setA ..
  · exact aregSet_same ..

theorem nldv_misaligned (h : NmuRuns s p) (ha : p.areg x.a % 4 ≠ 0) : NmuFaults (.nldv x) s p 6 (p.areg x.a) :=
  nmuFaults_of (exec_nldv x s) h (if_pos ha)

theorem nstv_misaligned (h : NmuRuns s p) (ha : p.areg x.a % 4 ≠ 0) : NmuFaults (.nstv x) s p 6 (p.areg x.a) :=
  nmuFaults_of (exec_nstv x s) h (if_pos ha)

variable (h : NmuRuns s p) (ha : p.areg x.a % 4 = 0)
include h ha

theorem nldv_pageFault {e : Nat × Nat}
    (hp : nmuPages p.ctx s.cur.stack .read (pagesOf (p.areg x.a) (4 * x.n)) (nmuNoted s) = (.error e, u)) :
    NmuFaults (.nldv x) s p e.1 e.2 :=
  nmuFaults_of (exec_nldv x s) h ((if_neg (not_not_intro ha)).trans (withPages_error hp))

theorem nstv_pageFault {e : Nat × Nat}
    (hp : nmuPages p.ctx s.cur.stack .write (pagesOf (p.areg x.a) (4 * x.n)) (nmuNoted s) = (.error e, u)) :
    NmuFaults (.nstv x) s p e.1 e.2 :=
  nmuFaults_of (exec_nstv x s) h ((if_neg (not_not_intro ha)).trans (withPages_error hp))

/-- NLDV sets the lanes of its register to the words read, and the others of its register to 0. -/
theorem nldv_passes (hp : nmuPages p.ctx s.cur.stack .read (pagesOf (p.areg x.a) (4 * x.n)) (nmuNoted s) = (.ok ps, u)) :
    let r := nmuReads p.ctx ps (p.areg x.a) x.n u
    NmuPasses (.nldv x) s r.2 (movedPast x (p.areg x.a) (p.setG x.g (fun l => (r.1[l]?).getD 0))) :=
  nmuPasses_of (exec_nldv x s) h ((if_neg (not_not_intro ha)).trans (withPages_ok hp))
    ((onlyHome_cur (onlyHome_trans (onlyHome_of_nmuPages hp) (onlyHome_nmuReads ..))).trans (nmuNoted_cur s))

theorem nstv_passes (hp : nmuPages p.ctx s.cur.stack .write (pagesOf (p.areg x.a) (4 * x.n)) (nmuNoted s) = (.ok ps, u)) :
    NmuPasses (.nstv x) s (nmuWrites p.ctx ps (p.areg x.a) ((List.range x.n).map (p.lane x.g)) u) (movedPast x (p.areg x.a) p) :=
  nmuPasses_of (exec_nstv x s) h ((if_neg (not_not_intro ha)).trans (withPages_ok hp))
    ((onlyHome_cur (onlyHome_trans (onlyHome_of_nmuPages hp) (onlyHome_nmuWrites ..))).trans (nmuNoted_cur s))

end

/-- Settles O34: each word tests its address, translates its pages and moves its words on them. -/
theorem nmuMemoryWordsMoveWords : Obligations.NmuMemoryWordsMoveWords := by
  intro s p x h
  refine ⟨fun ha => ⟨nldv_misaligned h ha, nstv_misaligned h ha⟩, fun ha => ⟨fun e u => nldv_pageFault h ha, fun ps u hp => ?_,
    fun e u => nstv_pageFault h ha, fun ps u hp => ⟨_, nstv_passes h ha hp, movedPast_only .., aregSet_movedPast x p⟩⟩⟩
  refine ⟨_, nldv_passes h ha hp, movedPast_only_registers _ _ (setG_only ..), aregSet_movedPast x (p.setG x.g _),
    fun l hl => ?_, fun g l hl hg => ?_⟩
  · rw [movedPast_lane, lane_setG _ _ _ _ _ hl, if_pos rfl]
  · rw [movedPast_lane, lane_setG _ _ _ _ _ hl, if_neg hg]

end Sys2Proof.Claims
end

section
/-! PROOFS. The sketch words of the near-memory units (11 R359, R360, R367, R368). -/

namespace Sys2Proof.Claims

open Sys2Proof.Machine

/-! ## A descriptor, and the counters of its sketch -/

section

variable {i : Instr} {s u v : State} {p : NmuProg} {k : Sketch} {va : Nat} {kind : AccessKind}

section

variable {f : Sketch → State → NAct}

theorem withDesc_error {e : Nat × Nat} (hd : nmuSketch s p va = .error e) : withDesc p va s f = .fault e.1 e.2 := by
  rw [withDesc, hd]

theorem withDesc_ok (hd : nmuSketch s p va = .ok (k, u)) : withDesc p va s f = f k u := by
  rw [withDesc, hd]

end

section

variable {f : List (Nat × Xlat) → State → NAct}

theorem withCounters_error {e : Nat × Nat} (hc : nmuCounters s p kind k = (.error e, u)) : withCounters p kind k s f = .fault e.1 e.2 :=
  withPages_error hc

theorem withCounters_ok {ps : List (Nat × Xlat)} (hc : nmuCounters s p kind k = (.ok ps, u)) : withCounters p kind k s f = f ps u :=
  withPages_ok hc

end

theorem onlyHome_of_nmuCounters {r : Except (Nat × Nat) (List (Nat × Xlat))} (hc : nmuCounters s p kind k = (r, u)) : OnlyHome s u :=
  onlyHome_of_nmuPages hc

/-! ## A word on one sketch -/

variable {g : NmuProg → State → NAct} {f : Sketch → List (Nat × Xlat) → State → NAct}

/-- A word on the sketch of one descriptor faults where the descriptor or a counter page does, and acts on the counters else. -/
theorem nmuSketchWord_faults_or_acts (he : exec i s = nmuWord g s) (h : NmuRuns s p)
    (hg : g p (nmuNoted s) = withDesc p va (nmuNoted s) (fun k u => withCounters p kind k u (f k))) :
    (∀ e, nmuSketch (nmuNoted s) p va = .error e → NmuFaults i s p e.1 e.2) ∧
    (∀ k u, nmuSketch (nmuNoted s) p va = .ok (k, u) →
      (∀ e v, nmuCounters u p kind k = (.error e, v) → NmuFaults i s p e.1 e.2) ∧
      (∀ ps v q t, nmuCounters u p kind k = (.ok ps, v) → f k ps v = .pass q t → OnlyHome v t → NmuPasses i s t q)) := by
  refine ⟨fun e hd => nmuFaults_of he h (hg.trans (withDesc_error hd)),
    fun k u hd => ⟨fun e v hc => ?_, fun ps v q t hc hf ht => ?_⟩⟩
  · exact nmuFaults_of he h (hg.trans ((withDesc_ok hd).trans (withCounters_error hc)))
  · refine nmuPasses_of he h (hg.trans ((withDesc_ok hd).trans ((withCounters_ok hc).trans hf))) ?_
    have hu := onlyHome_trans (onlyHome_nmuSketch hd) (onlyHome_trans (onlyHome_of_nmuCounters hc) ht)
    exact (onlyHome_cur hu).trans (nmuNoted_cur s)

end

/-! ## NSKA -/

section

variable {s u v : State} {p : NmuProg} {ad as : Nat} {x y : Sketch}

/-- What an NSKA does once its batch is drained. -/
def nskaAct (ad as : Nat) (p : NmuProg) (s : State) : NAct :=
  withDesc p (p.areg ad) s (fun x s => withDesc p (p.areg as) s (fun y s =>
    if !x.compat y ∨ x.clash y then .fault 10 (p.areg as)
    else withCounters p .rmw x s (fun px s => withCounters p .read y s (fun py s => .pass p (nmuAdds p.ctx px py x y s)))))

theorem exec_nska_drained (ad as : Nat) (s : State) : exec (.nska ad as) s = nmuDrained (nskaAct ad as) s := rfl

section

variable (hx : nmuSketch (nmuNoted s) p (p.areg ad) = .ok (x, u)) (hy : nmuSketch u p (p.areg as) = .ok (y, v))
include hx hy

theorem nskaAct_described : nskaAct ad as p (nmuNoted s) =
    if !x.compat y ∨ x.clash y then .fault 10 (p.areg as)
    else withCounters p .rmw x v (fun px s => withCounters p .read y s (fun py s => .pass p (nmuAdds p.ctx px py x y s))) :=
  (withDesc_ok hx).trans (withDesc_ok hy)

theorem nskaAct_matched (hm : x.compat y = true) (hn : x.clash y = false) : nskaAct ad as p (nmuNoted s) =
    withCounters p .rmw x v (fun px s => withCounters p .read y s (fun py s => .pass p (nmuAdds p.ctx px py x y s))) :=
  (nskaAct_described hx hy).trans (if_neg (by simp [hm, hn]))

end

section

variable {e : Nat × Nat} (h : NmuRuns s p) (hp : p.pending = false)
include h hp

theorem nska_faults_of {c va : Nat} (hf : nskaAct ad as p (nmuNoted s) = .fault c va) : NmuFaults (.nska ad as) s p c va :=
  nmuFaults_of (nmuDrained_acts (exec_nska_drained ad as s) h hp) h hf

theorem nska_firstDesc (hx : nmuSketch (nmuNoted s) p (p.areg ad) = .error e) : NmuFaults (.nska ad as) s p e.1 e.2 :=
  nska_faults_of h hp (withDesc_error hx)

variable (hx : nmuSketch (nmuNoted s) p (p.areg ad) = .ok (x, u))
include hx

theorem nska_secondDesc (hy : nmuSketch u p (p.areg as) = .error e) : NmuFaults (.nska ad as) s p e.1 e.2 :=
  nska_faults_of h hp ((withDesc_ok hx).trans (withDesc_error hy))

variable (hy : nmuSketch u p (p.areg as) = .ok (y, v))
include hy

/-- Sketches that are not compatible, or overlap without being the same, are cause 10. -/
theorem nska_mismatch (hm : x.compat y = false ∨ x.clash y = true) : NmuFaults (.nska ad as) s p 10 (p.areg as) :=
  nska_faults_of h hp ((nskaAct_described hx hy).trans (if_pos (by rwa [Bool.not_eq_true'])))

variable (hm : x.compat y = true) (hn : x.clash y = false)
include hm hn

theorem nska_firstCounters {w : State} (hc : nmuCounters v p .rmw x = (.error e, w)) : NmuFaults (.nska ad as) s p e.1 e.2 :=
  nska_faults_of h hp ((nskaAct_matched hx hy hm hn).trans (withCounters_error hc))

variable {px : List (Nat × Xlat)} {w z : State} (hc : nmuCounters v p .rmw x = (.ok px, w))
include hc

theorem nska_secondCounters (hr : nmuCounters w p .read y = (.error e, z)) : NmuFaults (.nska ad as) s p e.1 e.2 :=
  nska_faults_of h hp ((nskaAct_matched hx hy hm hn).trans ((withCounters_ok hc).trans (withCounters_error hr)))

theorem nska_adds {py : List (Nat × Xlat)} (hr : nmuCounters w p .read y = (.ok py, z)) :
    NmuPasses (.nska ad as) s (nmuAdds p.ctx px py x y z) p := by
  refine nmuPasses_of (nmuDrained_acts (exec_nska_drained ad as s) h hp) h
    ((nskaAct_matched hx hy hm hn).trans ((withCounters_ok hc).trans (withCounters_ok hr))) ?_
  have hdesc := onlyHome_trans (onlyHome_nmuSketch hx) (onlyHome_nmuSketch hy)
  have hcounters := onlyHome_trans (onlyHome_of_nmuCounters hc) (onlyHome_of_nmuCounters hr)
  exact (onlyHome_cur (onlyHome_trans hdesc (onlyHome_trans hcounters (onlyHome_nmuAdds ..)))).trans (nmuNoted_cur s)

end

end

/-! ## NSKU, NSKQ and NSKC -/

section

variable {s : State} {p : NmuProg} (h : NmuRuns s p)
include h

/-- NSKU joins its updates to the batch, which has room for them. -/
theorem nsku_joins (g ak ad n : Nat) (hf : ¬ (p.inDrain = true ∨ 4096 < p.batch.length + n)) :
    (∀ e, nmuSketch (nmuNoted s) p (p.areg ad) = .error e → NmuFaults (.nsku g ak ad n) s p e.1 e.2) ∧
    (∀ k u, nmuSketch (nmuNoted s) p (p.areg ad) = .ok (k, u) →
      (∀ e v, nmuCounters u p .rmw k = (.error e, v) → NmuFaults (.nsku g ak ad n) s p e.1 e.2) ∧
      (∀ ps v, nmuCounters u p .rmw k = (.ok ps, v) → NmuPasses (.nsku g ak ad n) s v
        { p with batch := p.batch ++ (List.range n).map (nmuUpdate ps k p g (p.areg ak)) })) := by
  obtain ⟨hdesc, hacts⟩ := nmuSketchWord_faults_or_acts (exec_nsku g ak ad n s) h (if_neg hf)
  exact ⟨hdesc, fun k u hd => ⟨(hacts k u hd).1, fun ps v hc => (hacts k u hd).2 ps v _ _ hc rfl (onlyHome_refl v)⟩⟩

/-- NSKQ, its batch drained, sets the lanes of its register to the results of their queries. -/
theorem nskq_reads (g ak ad n : Nat) (hp : p.pending = false) :
    (∀ e, nmuSketch (nmuNoted s) p (p.areg ad) = .error e → NmuFaults (.nskq g ak ad n) s p e.1 e.2) ∧
    (∀ k u, nmuSketch (nmuNoted s) p (p.areg ad) = .ok (k, u) →
      (∀ e v, nmuCounters u p .read k = (.error e, v) → NmuFaults (.nskq g ak ad n) s p e.1 e.2) ∧
      (∀ ps v, nmuCounters u p .read k = (.ok ps, v) →
        let q := nmuQueries p.ctx ps k (p.areg ak) (List.range n) v
        NmuPasses (.nskq g ak ad n) s q.2 (p.setG g (fun l => (q.1[l]?).getD 0)))) := by
  obtain ⟨hdesc, hacts⟩ := nmuSketchWord_faults_or_acts (nmuDrained_acts (exec_nskq g ak ad n s) h hp) h rfl
  exact ⟨hdesc, fun k u hd => ⟨(hacts k u hd).1, fun ps v hc => (hacts k u hd).2 ps v _ _ hc rfl (onlyHome_nmuQueries ..)⟩⟩

/-- NSKC, its batch drained, clears every counter. -/
theorem nskc_clears (ad : Nat) (hp : p.pending = false) :
    (∀ e, nmuSketch (nmuNoted s) p (p.areg ad) = .error e → NmuFaults (.nskc ad) s p e.1 e.2) ∧
    (∀ x u, nmuSketch (nmuNoted s) p (p.areg ad) = .ok (x, u) →
      (∀ e v, nmuCounters u p .write x = (.error e, v) → NmuFaults (.nskc ad) s p e.1 e.2) ∧
      (∀ px v, nmuCounters u p .write x = (.ok px, v) →
        NmuPasses (.nskc ad) s (nmuWrites p.ctx px x.base (List.replicate x.count 0) v) p)) := by
  obtain ⟨hdesc, hacts⟩ := nmuSketchWord_faults_or_acts (nmuDrained_acts (exec_nskc ad s) h hp) h rfl
  exact ⟨hdesc, fun x u hd => ⟨(hacts x u hd).1, fun px v hc => (hacts x u hd).2 px v _ _ hc rfl (onlyHome_nmuWrites ..)⟩⟩

end

/-- Settles O35: each word performs a turn of its drain while one is due; else it reads its descriptor, translates the counters and acts. -/
theorem nmuSketchWordsComplete : Obligations.NmuSketchWordsComplete := by
  refine ⟨fun s p g ak ad n h => ⟨fun hf => nmuDrains_of (exec_nsku g ak ad n s) h (if_pos hf), nsku_joins h g ak ad n,
    nmuDrained_drains (exec_nskq g ak ad n s) h, fun hp => ?_⟩, fun s p ad as h => ⟨fun hp => ?_, fun hp => ?_⟩⟩
  · obtain ⟨hdesc, hreads⟩ := nskq_reads h g ak ad n hp
    refine ⟨hdesc, fun k u hd => ⟨(hreads k u hd).1, fun ps v hc => ⟨_, (hreads k u hd).2 ps v hc, setG_only .., fun l hl => ?_,
      fun r l hl hr => ?_⟩⟩⟩
    · rw [lane_setG _ _ _ _ _ hl, if_pos rfl]
    · rw [lane_setG _ _ _ _ _ hl, if_neg hr]
  · exact ⟨nmuDrained_drains (exec_nska ad as s) h hp, nmuDrained_drains (exec_nskc ad s) h hp⟩
  · obtain ⟨hdesc, hclears⟩ := nskc_clears h ad hp
    refine ⟨fun e hx => ⟨nska_firstDesc h hp hx, hdesc e hx⟩, fun x u hx => ⟨(hclears x u hx).1, (hclears x u hx).2,
      fun e hy => nska_secondDesc h hp hx hy, fun y v hy => ⟨nska_mismatch h hp hx hy, fun hm hn =>
        ⟨fun e w hc => nska_firstCounters h hp hx hy hm hn hc, fun px w hc => ⟨fun e z hr => nska_secondCounters h hp hx hy hm hn hc hr,
          fun py z hr => nska_adds h hp hx hy hm hn hc hr⟩⟩⟩⟩⟩

end Sys2Proof.Claims
end

section
/-! PROOFS. Control and synchronisation of the near-memory programs (11 R355, R368-R371). -/

namespace Sys2Proof.Claims

open Sys2Proof.Machine

/-! ## NLOOP and NBRA (11 R369) -/

section

variable {i : Instr} {s : State} {p : NmuProg} (h : NmuRuns s p)
include h

/-- NLOOP, whatever gives its count: cause 8, the skip of its body, cause 7, or a level more. -/
theorem nmuLoop_opens {count : NmuProg → Nat} {off : Nat} (he : exec i s = nmuLoop count off s) :
    (p.words.length ≤ p.pc + off → NmuFaults i s p 8 0) ∧
    (p.pc + off < p.words.length →
      (count p = 0 → NmuJumps i s (nmuNoted s) { p with pc := p.pc + off + 1 }) ∧
      (count p ≠ 0 → 2 ≤ p.loops.length → NmuFaults i s p 7 0) ∧
      (count p ≠ 0 → p.loops.length < 2 →
        NmuJumps i s (nmuNoted s) { p with pc := p.pc + 1, loops := ⟨count p, p.pc + 1, p.pc + off⟩ :: p.loops })) := by
  refine ⟨fun hl => nmuFaults_of he h (if_pos hl), fun hl => ⟨fun h0 => ?_, fun h0 h2 => ?_, fun h0 h2 => ?_⟩⟩
  · exact nmuJumps_of he h ((if_neg (Nat.not_le.mpr hl)).trans (if_pos h0)) (nmuNoted_cur s)
  · exact nmuFaults_of he h ((if_neg (Nat.not_le.mpr hl)).trans ((if_neg h0).trans (if_pos h2)))
  · exact nmuJumps_of he h ((if_neg (Nat.not_le.mpr hl)).trans ((if_neg h0).trans (if_neg (Nat.not_le.mpr h2)))) (nmuNoted_cur s)

end

/-- Whether an NBRA is taken. -/
def nbraTakes (cond : NbraCond) (v : Nat) : Bool :=
  match cond with
  | .always => true
  | .z => v == 0
  | .nz => v != 0

theorem nbraTakes_iff (cond : NbraCond) (v : Nat) :
    nbraTakes cond v = true ↔ cond = .always ∨ (cond = .z ∧ v = 0) ∨ (cond = .nz ∧ v ≠ 0) := by
  cases cond <;> simp [nbraTakes]

/-- A program that has gone to word `n`, out of the levels whose range does not hold it. -/
def branched (p : NmuProg) (n : Nat) : NmuProg :=
  { p with pc := n, loops := p.loops.dropWhile (fun l => decide (n < l.first) || decide (l.last < n)) }

theorem exec_nbra_takes (cond : NbraCond) (a off : Nat) (s : State) : exec (.nbra cond a off) s = nmuWord (fun p s =>
    if !nbraTakes cond (p.areg a) then .pass p s
    else if (p.pc : Int) + sext 16 off < 0 ∨ (p.words.length : Int) ≤ (p.pc : Int) + sext 16 off then .fault 8 0
    else .jump (branched p ((p.pc : Int) + sext 16 off).toNat) s) s := rfl

section

variable {s : State} {p : NmuProg} {cond : NbraCond} {a off : Nat} (h : NmuRuns s p)
include h

theorem nbra_notTaken (ht : ¬ nbraTakes cond (p.areg a) = true) : NmuPasses (.nbra cond a off) s (nmuNoted s) p :=
  nmuPasses_of (exec_nbra_takes cond a off s) h (if_pos (by rwa [Bool.not_eq_true', ← Bool.not_eq_true])) (nmuNoted_cur s)

variable (ht : nbraTakes cond (p.areg a) = true)
include ht

theorem nbra_outside (hout : (p.pc : Int) + sext 16 off < 0 ∨ (p.words.length : Int) ≤ (p.pc : Int) + sext 16 off) :
    NmuFaults (.nbra cond a off) s p 8 0 :=
  nmuFaults_of (exec_nbra_takes cond a off s) h ((if_neg (by rw [ht]; exact Bool.false_ne_true)).trans (if_pos hout))

theorem nbra_goes {n : Nat} (hn : (p.pc : Int) + sext 16 off = n) (hl : n < p.words.length) :
    NmuJumps (.nbra cond a off) s (nmuNoted s) (branched p n) := by
  refine nmuJumps_of (exec_nbra_takes cond a off s) h ((if_neg (by rw [ht]; exact Bool.false_ne_true)).trans ?_) (nmuNoted_cur s)
  rw [hn, if_neg (by omega), Int.toNat_natCast]

end

/-- Settles O36: both forms of NLOOP are one word at their own count, and NBRA is taken as its condition says. -/
theorem nmuControlWordsComplete : Obligations.NmuControlWordsComplete := by
  intro s p h
  refine ⟨fun n off => nmuLoop_opens h (exec_nloopImm n off s), fun a off => nmuLoop_opens h (exec_nloopReg a off s),
    fun cond a off => ?_⟩
  have htaken := nbraTakes_iff cond (p.areg a)
  exact ⟨fun ht => nbra_notTaken h (mt htaken.mp ht), fun ht => nbra_outside h (htaken.mpr ht),
    fun ht n => nbra_goes h (htaken.mpr ht)⟩

/-! ## NWAIT (11 R370) -/

section

variable {s u : State} {p : NmuProg} {a q : Nat} (h : NmuRuns s p)
include h

theorem nwait_misaligned (ha : p.areg a % 8 ≠ 0) : NmuFaults (.nwait a q) s p 6 (p.areg a) :=
  nmuFaults_of (exec_nwait a q s) h (if_pos ha)

variable (ha : p.areg a % 8 = 0)
include ha

theorem nwait_pageFault {e : Nat} (hx : nmuXlat p.ctx s.cur.stack (p.areg a) .read (nmuNoted s) = (.error e, u)) :
    NmuFaults (.nwait a q) s p e (p.areg a) := by
  refine nmuFaults_of (exec_nwait a q s) h ((if_neg (not_not_intro ha)).trans ?_)
  rw [nmuNoted_cur, hx]

/-- NWAIT reads its doubleword and compares it. -/
theorem nwait_reads {x : Xlat} (hx : nmuXlat p.ctx s.cur.stack (p.areg a) .read (nmuNoted s) = (.ok x, u)) :
    let r := nmuGet u p.ctx x 8
    (p.areg q ≤ ofBytes r.1 → NmuPasses (.nwait a q) s r.2 p) ∧
    (ofBytes r.1 < p.areg q → NmuJumps (.nwait a q) s r.2 { p with parked := some (x, BitVec.ofNat 64 (p.areg q), false) }) := by
  have hu := onlyHome_nmuXlat (nmuNoted s) p.ctx s.cur.stack (p.areg a) .read
  rw [hx] at hu
  have hcur := (onlyHome_cur (onlyHome_trans hu (onlyHome_nmuGet u p.ctx x 8))).trans (nmuNoted_cur s)
  refine ⟨fun hm => nmuPasses_of (exec_nwait a q s) h ((if_neg (not_not_intro ha)).trans ?_) hcur,
    fun hm => nmuJumps_of (exec_nwait a q s) h ((if_neg (not_not_intro ha)).trans ?_) hcur⟩
  · rw [nmuNoted_cur, hx]
    exact if_pos hm
  · rw [nmuNoted_cur, hx]
    exact if_neg (Nat.not_le.mpr hm)

end

/-! ## NEND (11 R355) -/

section

variable {s : State} {p : NmuProg} (h : NmuRuns s p)
include h

theorem exec_nend_runs : exec .nend s =
    if p.pending then .next (putProg (drainEvent p (nmuNoted s)).2 s.cur.stack s.cur.place (drainEvent p (nmuNoted s)).1)
    else .next (agentEnd (freePlace (nmuNoted s) s.cur.stack s.cur.place) p.ctx p.node true 0) := by
  obtain ⟨hplace, hparked, hfault⟩ := h
  rw [exec_nend, execNend, hplace]
  dsimp only
  rw [hparked, hfault]
  rfl

theorem nend_drains (hp : p.pending = true) : NmuDrains .nend s p := by
  refine ⟨_, (exec_nend_runs h).trans (if_pos hp), ?_⟩
  rw [← drainEvent_noted_cur p s]
  exact nmuAfter_putProg ..

theorem nend_ends (hp : p.pending = false) :
    exec .nend s = .next (agentEnd (freePlace (nmuNoted s) s.cur.stack s.cur.place) p.ctx p.node true 0) :=
  (exec_nend_runs h).trans (if_neg (ne_true_of_eq_false hp))

end

/-- Settles O37: NWAIT tests its address, its page and its doubleword; NSIG, NFENCE and NEND act once their batch is drained. -/
theorem nmuSyncWordsComplete : Obligations.NmuSyncWordsComplete := by
  intro s p h
  refine ⟨fun a q => ⟨nwait_misaligned h, fun ha => ⟨fun e u => nwait_pageFault h ha, fun x u => nwait_reads h ha⟩⟩,
    fun hp => ⟨fun a => nmuDrained_drains (exec_nsig a s) h hp, nmuDrained_drains (exec_nfence s) h hp, nend_drains h hp⟩,
    fun hp => ⟨fun a => ?_, ?_, nend_ends h hp⟩⟩
  · exact nmuPasses_of (nmuDrained_acts (exec_nsig a s) h hp) h rfl ((onlyHome_cur (onlyHome_sendDecr ..)).trans (nmuNoted_cur s))
  · exact nmuPasses_of (nmuDrained_acts (exec_nfence s) h hp) h rfl (nmuNoted_cur s)

end Sys2Proof.Claims
end

section
/-! SUPPORT. Updates of one entry of a map, and what a choice and the work of the homes leave. -/

namespace Sys2Proof.Machine

/-- An entry is changed by what a function gives for it only. -/
theorem madj_congr {α : Type} {m : SMap α} {k : Nat} {f g : α → α} (h : ∀ v, mget m k = some v → f v = g v) :
    madj m k f = madj m k g := by
  unfold madj
  cases hv : mget m k with
  | none => rfl
  | some v => exact congrArg (mset m k) (h v hv)

theorem updCtx_congr {s : State} {id : Nat} {f g : Ctx → Ctx} (h : ∀ c, ctxOf s id = some c → f c = g c) : updCtx s id f = updCtx s id g :=
  congrArg (fun m => { s with ctxs := m }) (madj_congr h)

/-- An entry that is there after an update of it. -/
theorem mget_madj_some {α : Type} {m : SMap α} {k : Nat} {v : α} (h : mget m k = some v) (f : α → α) :
    mget (madj m k f) k = some (f v) := by
  rw [mget_madj, if_pos rfl, h]
  rfl

/-- A choice counts up the choices made, and changes nothing else. -/
theorem choose_only (s : State) (n : Nat) : (choose s n).2 = { s with freeCtr := (choose s n).2.freeCtr } := by
  unfold choose
  split <;> rfl

theorem onlyHome_launches {s t : State} (h : OnlyHome s t) : t.launches = s.launches := by rw [h.1]

theorem onlyHome_nextId {s t : State} (h : OnlyHome s t) : t.nextId = s.nextId := by rw [h.1]

end Sys2Proof.Machine
end

section
/-! SUPPORT. Masks of wavelengths and channels, and what leaves the ports as they are (15 R461, R463). -/

namespace Sys2Proof.Machine

/-! ## Masks -/

theorem bit_eq_testBit (w i : Nat) : bit w i = w.testBit i := by
  rw [bit, Nat.testBit_eq_decide_div_mod_eq, beq_eq_decide]

theorem testBit_maskOf (l : List Nat) (i : Nat) : (maskOf l).testBit i = decide (i ∈ l) := by
  induction l with
  | nil => simp [maskOf]
  | cons j t ih => simp only [maskOf, Nat.testBit_or, Nat.testBit_two_pow, ih, List.mem_cons, Bool.decide_or, eq_comm (a := i)]

theorem mem_ones {n m i : Nat} : i ∈ ones n m ↔ i < n ∧ m.testBit i = true := by
  simp [ones, bit_eq_testBit]

@[simp] theorem ones_zero (n : Nat) : ones n 0 = [] := by
  simp [ones, bit_eq_testBit]

theorem ne_zero_iff_testBit {n : Nat} : n ≠ 0 ↔ ∃ i, n.testBit i = true :=
  ⟨Nat.exists_testBit_of_ne_zero, fun ⟨i, hi⟩ h0 => by simp [h0] at hi⟩

theorem testBit_wlIn (m : SMap WlSt) (v : WlSt) (i : Nat) :
    (wlIn m v).testBit i = true ↔ i < 16 ∧ mgetD m i .dark = v := by
  simp [wlIn, testBit_maskOf]

theorem testBit_chanMask (c i : Nat) : (chanMask c).testBit i = true ↔ i < 16 ∧ c.testBit (i / 4) = true := by
  simp [chanMask, testBit_maskOf, bit_eq_testBit]

theorem and_chanMask_ne_zero {n k : Nat} : n &&& chanMask (2 ^ k) ≠ 0 ↔ ∃ j, j < 16 ∧ j / 4 = k ∧ n.testBit j = true := by
  simp only [ne_zero_iff_testBit, Nat.testBit_and, Bool.and_eq_true, testBit_chanMask, Nat.testBit_two_pow, decide_eq_true_eq]
  exact ⟨fun ⟨j, hn, hlt, hk⟩ => ⟨j, hlt, hk.symm, hn⟩, fun ⟨j, hlt, hk, hn⟩ => ⟨j, hn, hlt, hk.symm⟩⟩

/-! ## Setting wavelengths -/

/-- Setting the positions of a list where they meet a test. -/
theorem mgetD_setEach (p : WlSt → Bool) (v : WlSt) (l : List Nat) (m : SMap WlSt) (j : Nat) :
    mgetD (l.foldl (fun m i => if p (mgetD m i .dark) then mput .dark m i v else m) m) j .dark =
      if j ∈ l ∧ p (mgetD m j .dark) = true then v else mgetD m j .dark := by
  induction l generalizing m with
  | nil => simp
  | cons i t ih =>
    rw [List.foldl_cons, ih]
    by_cases hp : p (mgetD m i .dark) = true
    · by_cases hij : i = j
      · subst hij
        simp [hp]
      · simp [hp, mgetD_mput, hij, Ne.symm hij]
    · by_cases hij : i = j
      · subst hij
        simp [hp]
      · simp [hp, Ne.symm hij]

theorem mgetD_setWl (m : SMap WlSt) (mask : Nat) (p : WlSt → Bool) (v : WlSt) (j : Nat) :
    mgetD (setWl m mask p v) j .dark =
      if (j < 16 ∧ mask.testBit j = true) ∧ p (mgetD m j .dark) = true then v else mgetD m j .dark := by
  rw [setWl, mgetD_setEach]
  simp only [mem_ones]

@[simp] theorem setWl_zero (m : SMap WlSt) (p : WlSt → Bool) (v : WlSt) : setWl m 0 p v = m := by
  simp [setWl]

/-! ## What leaves the ports as they are -/

theorem onlyHome_ports {s t : State} (h : OnlyHome s t) : t.ports = s.ports := by rw [h.1]

theorem portOf_congr {s t : State} (h : t.ports = s.ports) (q : Nat) : portOf t q = portOf s q := by
  unfold portOf
  rw [h]

theorem ports_foldl {α : Type} {f : State → α → State} (h : ∀ s a, (f s a).ports = s.ports) (l : List α) (s : State) :
    (l.foldl f s).ports = s.ports := by
  induction l generalizing s with
  | nil => rfl
  | cons a t ih => rw [List.foldl_cons, ih, h]

@[simp] theorem writePa_ports (s : State) (tag key pa : Nat) (bs : List Byte) : (writePa s tag key pa bs).ports = s.ports :=
  onlyHome_ports (onlyHome_writePa ..)

@[simp] theorem homeRead_ports (s : State) (key pa n : Nat) : (homeRead s key pa n).2.ports = s.ports :=
  onlyHome_ports (onlyHome_homeRead ..)

@[simp] theorem incrAt_ports (s : State) (tag key pa : Nat) : (incrAt s tag key pa).ports = s.ports := onlyHome_ports (onlyHome_incrAt ..)

section

variable {s t : State}

theorem ringWrite_ports {ctx : Nat} {bs : List Byte} (e : ringWrite s ctx bs = some t) : t.ports = s.ports := by
  unfold ringWrite at e
  split at e
  · cases e
  · dsimp only at e
    split at e
    · cases e
    · split at e
      · next x =>
        have hx := (congrArg (fun r => r.2.ports) x).symm.trans (onlyHome_ports (onlyHome_xlatPieces ..))
        split at e
        · cases e
          split <;> split <;> simpa using hx
        · cases e
      · cases e

theorem heldTry_ports {p : Nat × Nat} (e : heldTry s p = some t) : t.ports = s.ports := by
  unfold heldTry at e
  split at e
  · cases e; rfl
  · split at e
    · cases e; rfl
    · obtain ⟨u, hu, rfl⟩ := Option.map_eq_some_iff.mp e
      have hp := ringWrite_ports hu
      exact hp

theorem flushHeld_ports (ctx n : Nat) (s : State) : (flushHeld ctx n s).ports = s.ports := by
  induction n generalizing s with
  | zero => rfl
  | succ n ih =>
    unfold flushHeld
    split
    · rfl
    · split
      · next e => exact (ih _).trans (heldTry_ports e)
      · rfl

theorem postTry_ports (s : State) (ctx : Nat) (bs : List Byte) : (postTry s ctx bs).2.ports = s.ports := by
  have hf := flushHeld_ports ctx s.heldRecords.length s
  unfold postTry
  dsimp only
  split
  · next e =>
    split at e
    · cases e
    · exact (ringWrite_ports e).trans hf
  · exact hf

@[simp] theorem postEvent_ports (s : State) (ctx : Nat) (bs : List Byte) : (postEvent s ctx bs).ports = s.ports := by
  have ht := postTry_ports s ctx bs
  unfold postEvent
  split <;> next e => rw [e] at ht; exact ht

@[simp] theorem linkEvent_ports (s : State) (event place dir before after seq replayed peer : Nat) :
    (linkEvent s event place dir before after seq replayed peer).ports = s.ports := by
  unfold linkEvent
  dsimp only
  split
  · exact postEvent_ports ..
  · rfl

end

/-! ## Sending flits changes no wavelength -/

theorem sendFlitTo_tx (s : State) (p dest type seq : Nat) (payload : List Byte) (q : Nat) :
    (portOf (sendFlitTo s p dest type seq payload) q).tx = (portOf s q).tx := by
  have h : portOf (sendFlitTo s p dest type seq payload) q = portOf (updPort s p (fun x => { x with beat := x.beat + 16 })) q := rfl
  rw [h, portOf_updPort]
  split
  · next hp => rw [hp]
  · rfl

/-- Sending again changes no wavelength. -/
theorem resendFlits_tx (s : State) (p : Nat) : (portOf (resendFlits s p) p).tx = (portOf s p).tx := by
  have hfold : ∀ (l : List (Nat × Nat × List Byte)) (u : State),
      (portOf (l.foldl (fun s f => sendFlitTo s p f.2.1 1 f.1 f.2.2) u) p).tx = (portOf u p).tx := by
    intro l
    induction l with
    | nil => exact fun _ => rfl
    | cons f t ih => exact fun u => (ih _).trans (sendFlitTo_tx ..)
  refine (hfold _ _).trans ?_
  rw [portOf_updPort, if_pos rfl]

end Sys2Proof.Machine
end

section
/-! PROOFS. The words of scripts on q registers, c and the program counter (16 R480, Table circuit-7). -/

namespace Sys2Proof.Claims

open Sys2Proof.Machine

section

variable {i : Instr} {s : State} {x : Script} (h : ScriptRuns s x)
include h

/-! ## Words that change their script only -/

/-- A word that sets c by its registers, and passes. -/
theorem setsC_own (c : Script → Bool) (he : exec i s = cratchOwn (fun _ x => { x with c := c x }) s) : SetsC i s x (c x) :=
  ⟨_, he.trans (cratchOwn_runs h _), scriptAfter_upd h.1 _⟩

/-- SUBQ of two registers: the difference mod 2^64. -/
theorem subqReg_sets (qd qa qb : Nat) : SetsQ (.subqReg qd qa qb) s x qd (x.reg qa + 2 ^ 64 - x.reg qb) := by
  have hsub : ofInt 64 ((x.reg qa : Int) - (x.reg qb : Int)) % 2 ^ 64 = (x.reg qa + 2 ^ 64 - x.reg qb) % 2 ^ 64 := by
    have hlt : x.reg qb < 2 ^ 64 := (mgetD x.q qb 0).isLt
    simp only [ofInt]
    omega
  obtain ⟨y, hends, honly, hset, hkept⟩ :=
    setsQ_of (fun _ x => ofInt 64 ((x.reg qa : Int) - (x.reg qb : Int))) h (exec_subqReg qd qa qb s)
  exact ⟨y, hends, honly, hset.trans hsub, hkept⟩

/-! ## Branches (16 Table circuit-6) -/

variable {take : Script → Bool} {off : Int} (he : exec i s = cratchBranch take off s)
include he

theorem cratchBranch_notTaken (ht : take x = false) : Ends i s (fun t => ScriptAfter s t { x with pc := x.pc + 1 }) := by
  refine ⟨_, (he.trans (cratch_runs h _)).trans ?_, scriptAfter_upd h.1 (fun x => { x with pc := x.pc + 1 })⟩
  rw [ht]
  rfl

theorem cratchBranch_goes (ht : take x = true) {n : Nat} (hn : (x.pc : Int) + off = n) (hl : n < x.words.length) :
    Ends i s (fun t => ScriptAfter s t { x with pc := n }) := by
  refine ⟨_, (he.trans (cratch_runs h _)).trans ?_, scriptAfter_upd h.1 (fun x => { x with pc := n })⟩
  dsimp only
  rw [ht, hn, if_neg (by decide), if_neg (by omega), Int.toNat_natCast]

theorem cratchBranch_outside (ht : take x = true) (ho : (x.pc : Int) + off < 0 ∨ (x.words.length : Int) ≤ (x.pc : Int) + off) :
    exec i s = .next (agentEnd { s with scripts := mdel s.scripts s.cur.place } x.ctx x.node false 3) := by
  refine (he.trans (cratch_runs h _)).trans ?_
  dsimp only
  rw [ht, if_neg (by decide), if_pos ho, scriptFault_runs h]

/-- A branch, whatever says that it is taken. -/
theorem cratchBranch_branches {taken : Prop} (ht : take x = true ↔ taken) :
    (¬ taken → Ends i s (fun t => ScriptAfter s t { x with pc := x.pc + 1 })) ∧
    (taken → ∀ n : Nat, (x.pc : Int) + off = n → n < x.words.length → Ends i s (fun t => ScriptAfter s t { x with pc := n })) ∧
    (taken → ((x.pc : Int) + off < 0 ∨ (x.words.length : Int) ≤ (x.pc : Int) + off) →
      exec i s = .next (agentEnd { s with scripts := mdel s.scripts s.cur.place } x.ctx x.node false 3)) :=
  ⟨fun hn => cratchBranch_notTaken h he (Bool.eq_false_iff.mpr (mt ht.mp hn)), fun hy _ => cratchBranch_goes h he (ht.mpr hy),
    fun hy => cratchBranch_outside h he (ht.mpr hy)⟩

end

/-- Settles O38: each word changes its script by what its registers hold, and both branches are one word at their own condition. -/
theorem scriptOwnWordsComplete : Obligations.ScriptOwnWordsComplete := by
  refine ⟨fun s x h => ⟨?_, ?_, ?_, ?_, ?_, ?_, ?_, ?_, ?_, ?_⟩, fun s x h => ⟨fun qa off => ⟨?_, ?_⟩, fun off => ⟨?_, ?_, ?_⟩⟩⟩
  · exact fun qd qa => setsQ_of (fun _ x => x.reg qa) h (exec_movqReg qd qa s)
  · exact fun qd imm => setsQ_of (fun _ _ => ofInt 64 imm) h (exec_movqImm qd imm s)
  · exact fun qd qa qb => setsQ_of (fun _ x => x.reg qa + x.reg qb) h (exec_addqReg qd qa qb s)
  · exact fun qd qa imm => setsQ_of (fun _ x => x.reg qa + ofInt 64 imm) h (exec_addqImm qd qa imm s)
  · exact subqReg_sets h
  · exact fun qd qa imm => setsQ_of (fun _ x => ofInt 64 ((x.reg qa : Int) - imm)) h (exec_subqImm qd qa imm s)
  · exact fun qd => setsQ_of (fun s _ => s.ns) h (exec_time qd s)
  · exact fun qd qa => setsQ_of (fun s x => circStatus s x.ctx (x.reg qa % 16)) h (exec_cstat qd qa s)
  · exact fun cc qa qb => setsC_own h (fun x => qCond cc (x.reg qa) (x.reg qb)) (exec_cmpqReg cc qa qb s)
  · exact fun cc qa imm => setsC_own h (fun x => qCond cc (x.reg qa) (ofInt 64 imm)) (exec_cmpqImm cc qa imm s)
  · exact cratchBranch_branches h (exec_brq false qa off s) (by simp)
  · exact cratchBranch_branches h (exec_brq true qa off s) (by simp)
  · exact cratchBranch_branches h (exec_brc .always off s) (by simp)
  · exact cratchBranch_branches h (exec_brc .c off s) (by simp)
  · exact cratchBranch_branches h (exec_brc .nc off s) (by simp)

end Sys2Proof.Claims
end

section
/-! PROOFS. The script words on circuits, buckles and lasers (16 R474, R477, R482, 15 R463, R464). -/

namespace Sys2Proof.Claims

open Sys2Proof.Machine

section

variable {s : State} {x : Script} (h : ScriptRuns s x)
include h

/-! ## CREQ and CREL (16 R474, R482) -/

/-- A CREQ that a status other than 0 answers only writes it. -/
theorem creq_refused {qd qa k handle : Nat} (hk : creqStatus s x.ctx (x.reg qa) = (k, handle)) (h0 : k ≠ 0) :
    SetsQ (.creq qd qa) s x qd k := by
  refine ⟨{ x.set qd k with pc := x.pc + 1 }, ⟨_, (exec_creq qd qa s).trans ((cratch_runs h _).trans ?_), scriptAfter_upd h.1
    (fun x => { x.set qd k with pc := x.pc + 1 })⟩, rfl, ?_, fun r hr => ?_⟩
  · dsimp only
    rw [hk]
    exact congrArg Host.Outcome.next (if_pos h0)
  · exact (script_set_reg x qd k qd).trans (if_pos rfl)
  · exact (script_set_reg x qd k r).trans (if_neg (Ne.symm hr))

/-- A CREQ that status 0 answers leaves its circuit REQUESTED and sends the request. -/
theorem creq_requests {qd qa k : Nat} (hk : creqStatus s x.ctx (x.reg qa) = (0, k)) :
    let c : Circuit := { st := .requested, ctx := x.ctx, peer := bits (x.reg qa) 8 10, pport := bits (x.reg qa) 4 4, cause := 0,
                         id := s.reqId, handle := k, since := s.ns, releasedSeen := false }
    let u := updScript s s.cur.place (fun y => { y.set qd 0 with pc := y.pc + 1 })
    exec (.creq qd qa) s = .next (sendCtl { u with
      circuits := mset s.circuits (x.reg qa % 16) c, reqId := (s.reqId + 1) % 65536 } 1
      ⟨s.reqId, s.dev.getD 0, x.reg qa % 16, bits (x.reg qa) 4 4, bits (x.reg qa) 8 10, k⟩) := by
  refine (exec_creq qd qa s).trans ((cratch_runs h _).trans ?_)
  dsimp only
  rw [hk]
  rfl

theorem crel_other {qa : Nat} (hc : circuitFor s x.ctx (x.reg qa % 16) = none) : exec (.crel qa) s = .next (scriptPast s) := by
  refine (exec_crel qa s).trans ((cratch_runs h _).trans ?_)
  dsimp only
  rw [hc]
  rfl

theorem crel_releases {qa : Nat} {c : Circuit} (hc : circuitFor s x.ctx (x.reg qa % 16) = some c) :
    exec (.crel qa) s = .next (releaseCircuit (scriptPast s) (x.reg qa % 16) c) := by
  refine (exec_crel qa s).trans ((cratch_runs h _).trans ?_)
  dsimp only
  rw [hc]
  rfl

end

section

variable {s : State} {ctx w : Nat}

/-! ### The statuses of CREQ, in the order of their tests (16 R482) -/

/-- The handle that a CREQ asks with. -/
def creqHandle (s : State) (ctx w : Nat) : Option Nat := if bits w 18 16 = 0 then lowestHandle s ctx else some (bits w 18 16)

theorem creqHandle_eq_none : creqHandle s ctx w = none ↔ bits w 18 16 = 0 ∧ lowestHandle s ctx = none := by
  unfold creqHandle
  split <;> simp [*]

theorem creqStatus_planeDown (hp : planeUp s = false) : creqStatus s ctx w = (4, 0) := by simp [creqStatus, hp]

variable (hp : planeUp s = true)
include hp

theorem creqStatus_taken (hc : (mget s.circuits (w % 16)).isSome = true) : creqStatus s ctx w = (1, 0) := by
  simp [creqStatus, hp, hc]

variable (hc : mget s.circuits (w % 16) = none)
include hc

/-- A port without a circuit: the request itself is tested, then the port, then the lanes. -/
theorem creqStatus_free : creqStatus s ctx w =
    if w / 2 ^ 34 ≠ 0 ∨ bits w 8 10 = s.dev.getD 0 then (2, 0)
    else match creqHandle s ctx w with
      | none => (2, 0)
      | some h => if !s.status.optics ∨ (portOf s (w % 16)).failedCh = 15 then (3, 0)
        else if s.lanes.isEmpty then (4, 0) else (0, h) :=
  (if_neg (by rw [hp]; decide)).trans (if_neg (by rw [hc]; decide))

theorem creqStatus_bad (hb : w / 2 ^ 34 ≠ 0 ∨ bits w 8 10 = s.dev.getD 0 ∨ (bits w 18 16 = 0 ∧ lowestHandle s ctx = none)) :
    creqStatus s ctx w = (2, 0) := by
  rw [creqStatus_free hp hc]
  split
  · rfl
  · next hn =>
    have hnone : creqHandle s ctx w = none := creqHandle_eq_none.mpr (by tauto)
    rw [hnone]

variable (hb : ¬ (w / 2 ^ 34 ≠ 0 ∨ bits w 8 10 = s.dev.getD 0 ∨ (bits w 18 16 = 0 ∧ lowestHandle s ctx = none)))
include hb

/-- A good request to a free port has a handle. -/
theorem creqStatus_good : ∃ k, creqHandle s ctx w = some k ∧ creqStatus s ctx w =
    if s.status.optics = false ∨ (portOf s (w % 16)).failedCh = 15 then (3, 0) else if s.lanes.isEmpty then (4, 0) else (0, k) := by
  have hsome : creqHandle s ctx w ≠ none := fun e => hb (Or.inr (Or.inr (creqHandle_eq_none.mp e)))
  obtain ⟨k, hk⟩ := Option.ne_none_iff_exists'.mp hsome
  refine ⟨k, hk, ?_⟩
  rw [creqStatus_free hp hc, if_neg (fun e => hb (e.imp_right Or.inl)), hk]
  simp

theorem creqStatus_dark (hd : s.status.optics = false ∨ (portOf s (w % 16)).failedCh = 15) : creqStatus s ctx w = (3, 0) := by
  obtain ⟨k, -, hs⟩ := creqStatus_good hp hc hb
  rw [hs, if_pos hd]

variable (hd : ¬ (s.status.optics = false ∨ (portOf s (w % 16)).failedCh = 15))
include hd

theorem creqStatus_noLane (hl : s.lanes = []) : creqStatus s ctx w = (4, 0) := by
  obtain ⟨k, -, hs⟩ := creqStatus_good hp hc hb
  rw [hs, if_neg hd, hl]
  rfl

theorem creqStatus_accepted (hl : s.lanes ≠ []) {k : Nat} (hk : creqHandle s ctx w = some k) : creqStatus s ctx w = (0, k) := by
  obtain ⟨m, hm, hs⟩ := creqStatus_good hp hc hb
  rw [hs, if_neg hd, if_neg (by rwa [List.isEmpty_iff]), Option.some.inj (hm.symm.trans hk)]

end

/-- Settles O39: the status of a CREQ is found test by test; CREL is taken by whose circuit the port has. -/
theorem circuitWordsComplete : Obligations.CircuitWordsComplete := by
  intro s x h
  refine ⟨fun qd qa => ⟨fun hp => ?_, fun hp hc => ?_, fun hp hc hb => ?_, fun hp hc hb hd => ?_, fun hp hc hb hd hl => ?_,
    fun hp hc hb hd hl k hk => ?_⟩, fun qa => ⟨crel_other h, fun c => crel_releases h⟩⟩
  · exact creq_refused h (creqStatus_planeDown hp) (by decide)
  · exact creq_refused h (creqStatus_taken hp hc) (by decide)
  · exact creq_refused h (creqStatus_bad hp hc hb) (by decide)
  · exact creq_refused h (creqStatus_dark hp hc hb hd) (by decide)
  · exact creq_refused h (creqStatus_noLane hp hc hb hd hl) (by decide)
  · exact creq_requests h (creqStatus_accepted hp hc hb hd hl hk)

/-! ## BUCK (16 R477) -/

section

variable {s : State} {x : Script} {qa qb : Nat} (h : ScriptRuns s x)
include h

theorem buck_notHeld (hb : holdsBuckle s x.ctx (x.reg qa) = false) :
    exec (.buck qa qb) s = .next (agentEnd { s with scripts := mdel s.scripts s.cur.place } x.ctx x.node false 4) := by
  refine (exec_buck qa qb s).trans ((cratch_runs h _).trans (congrArg Host.Outcome.next ((if_pos ?_).trans (scriptFault_runs h 4))))
  dsimp only [Script.mayBuckle]
  rw [hb]
  rfl

theorem buckOff_notHeld (hb : holdsBuckle s x.ctx (x.reg qa) = false) :
    exec (.buckOff qa) s = .next (agentEnd { s with scripts := mdel s.scripts s.cur.place } x.ctx x.node false 4) := by
  refine (exec_buckOff qa s).trans ((cratch_runs h _).trans (congrArg Host.Outcome.next ((if_pos ?_).trans (scriptFault_runs h 4))))
  dsimp only [Script.mayBuckle]
  rw [hb]
  rfl

variable (hb : holdsBuckle s x.ctx (x.reg qa) = true)
include hb

theorem buckOff_unties : exec (.buckOff qa) s = .next (untie (passC s true) (x.reg qa)) := by
  refine (exec_buckOff qa s).trans ((cratch_runs h _).trans (congrArg Host.Outcome.next (if_neg ?_)))
  dsimp only [Script.mayBuckle]
  rw [hb]
  decide

/-- A BUCK on a port whose circuit the context does not hold GRANTED passes with c clear. -/
theorem buck_notGranted (hg : ¬ ∃ c, circuitFor s x.ctx (x.reg qb % 16) = some c ∧ c.st = .granted) :
    SetsC (.buck qa qb) s x false := by
  refine setsC_of h ((exec_buck qa qb s).trans ((cratch_runs h _).trans ?_))
  refine (congrArg Host.Outcome.next (if_neg (by rw [Script.mayBuckle, hb]; decide))).trans ?_
  cases hc : circuitFor s x.ctx (x.reg qb % 16) with
  | none => rfl
  | some c => exact congrArg Host.Outcome.next (if_neg (fun e => hg ⟨c, hc, e⟩))

/-- A BUCK on a granted circuit ties its buckle, FASTENED where the port is LIVE. -/
theorem buck_ties (hg : ∃ c, circuitFor s x.ctx (x.reg qb % 16) = some c ∧ c.st = .granted) :
    let n := x.reg qa
    let p := x.reg qb % 16
    let u := untie (passC s true) n
    let live := (portOf u p).st = .live
    let v := { u with nextId := u.nextId + 1, buckles := mset u.buckles n ⟨p, decide live, u.nextId⟩ }
    let w := testCopies (testBkws v n) n
    exec (.buck qa qb) s = .next (if live then collsSend w else w) := by
  obtain ⟨c, hc, hst⟩ := hg
  refine (exec_buck qa qb s).trans ((cratch_runs h _).trans ?_)
  refine (congrArg Host.Outcome.next (if_neg (by rw [Script.mayBuckle, hb]; decide))).trans (congrArg Host.Outcome.next ?_)
  rw [hc]
  dsimp only [fresh]
  rw [if_pos hst]
  exact if_congr beq_iff_eq rfl rfl

end

/-- Settles O40: a buckle that is not granted faults, else the circuit of the port says whether the tie is made. -/
theorem buckleWordsComplete : Obligations.BuckleWordsComplete := by
  intro s x qa qb h
  exact ⟨fun hb => ⟨buck_notHeld h hb, buckOff_notHeld h hb⟩, fun hb => ⟨buck_notGranted h hb,
    fun hg => ⟨fun hl => (buck_ties h hb hg).trans (congrArg Host.Outcome.next (if_pos hl)),
      fun hl => (buck_ties h hb hg).trans (congrArg Host.Outcome.next (if_neg hl))⟩, buckOff_unties h hb⟩⟩

/-! ## PARK, WAKE and SETW (15 R463, R464) -/

section

variable {s : State} {x : Script} {qa qb : Nat} (h : ScriptRuns s x)
include h

theorem park_refused (hn : ¬ (liveFor s x.ctx (x.reg qa % 16) = true ∧
    dropBits (chansIn (portOf s (x.reg qa % 16)).tx .lit) (x.reg qb % 16) ≠ 0)) : SetsC (.park qa qb) s x false := by
  refine setsC_of h ((exec_park qa qb s).trans ((cratch_runs h _).trans (congrArg Host.Outcome.next (if_pos ?_))))
  rw [Bool.or_eq_true, Bool.not_eq_true', beq_iff_eq, ← Bool.not_eq_true]
  tauto

/-- A PARK that acts parks the waves that are LIT in its channels, where there are any. -/
theorem park_acts (hl : liveFor s x.ctx (x.reg qa % 16) = true)
    (hd : dropBits (chansIn (portOf s (x.reg qa % 16)).tx .lit) (x.reg qb % 16) ≠ 0) :
    let p := x.reg qa % 16
    let m := x.reg qb % 16
    let waves := wlIn (portOf s p).tx .lit &&& chanMask m
    exec (.park qa qb) s = .next (if waves = 0 then passC s true
      else queueRestripe (updPort (passC s true) p (fun y => { y with tx := setWl y.tx waves (fun _ => true) .parking })) p true
        ⟨waves, chansIn (portOf s p).tx .lit &&& m⟩) := by
  refine (exec_park qa qb s).trans ((cratch_runs h _).trans (congrArg Host.Outcome.next (if_neg ?_)))
  rw [Bool.or_eq_true, Bool.not_eq_true', beq_iff_eq, hl]
  tauto

theorem wake_refused (hl : liveFor s x.ctx (x.reg qa % 16) = false) : SetsC (.wake qa qb) s x false :=
  setsC_of h ((exec_wake qa qb s).trans ((cratch_runs h _).trans (congrArg Host.Outcome.next (if_pos (by rw [hl]; rfl)))))

theorem wake_acts (hl : liveFor s x.ctx (x.reg qa % 16) = true) :
    exec (.wake qa qb) s = .next (wakeChans (passC s true) (x.reg qa % 16) (x.reg qb % 16)) :=
  (exec_wake qa qb s).trans ((cratch_runs h _).trans (congrArg Host.Outcome.next (if_neg (by rw [hl]; decide))))

/-- SETW acts where its value is in range and no other context holds the port. -/
theorem setw_runs : exec (.setw qa qb) s = .next (
    if 1024 < x.reg qb ∨ ∃ c, mget s.circuits (x.reg qa % 16) = some c ∧ c.ctx ≠ x.ctx then passC s false
    else updPort (passC s true) (x.reg qa % 16) (fun y => { y with autowake := x.reg qb })) := by
  refine (exec_setw qa qb s).trans ((cratch_runs h _).trans (congrArg Host.Outcome.next (if_congr (or_congr_right ?_) rfl rfl)))
  cases mget s.circuits (x.reg qa % 16) <;> simp

end

/-- Settles O41: each word tests its port, and then acts or passes with c clear. -/
theorem laserWordsComplete : Obligations.LaserWordsComplete := by
  intro s x qa qb h
  refine ⟨park_refused h, fun ha hw => ?_, fun ha hw => (park_acts h ha.1 ha.2).trans (congrArg Host.Outcome.next (if_neg hw)),
    wake_refused h, wake_acts h, fun ha => setsC_of h ((setw_runs h).trans (congrArg Host.Outcome.next (if_pos ha))), fun ha => ?_⟩
  · exact setsC_of h ((park_acts h ha.1 ha.2).trans (congrArg Host.Outcome.next (if_pos hw)))
  · refine ⟨_, (setw_runs h).trans (congrArg Host.Outcome.next (if_neg ha)), ?_, fun q hq => ?_,
      scriptAfter_upd (s := updPort s (x.reg qa % 16) (fun y => { y with autowake := x.reg qb })) h.1
        (fun x => { x with c := true, pc := x.pc + 1 })⟩
    · rw [portOf_updPort, if_pos rfl]
    · exact (portOf_updPort ..).trans (if_neg (Ne.symm hq))

end Sys2Proof.Claims
end

section
/-! PROOFS. The script words that send, wait and end (16 R478, R481, R483-R485). -/

namespace Sys2Proof.Claims

open Sys2Proof.Machine

/-! ## MSG (16 R484) -/

section

variable {s : State} {x : Script} {qa qb : Nat} (h : ScriptRuns s x)
include h

theorem msg_reserved (hb : bits (x.reg qa) 10 6 ≠ 0 ∨ x.reg qa / 2 ^ 36 ≠ 0) :
    exec (.msg qa qb) s = .next (agentEnd { s with scripts := mdel s.scripts s.cur.place } x.ctx x.node false 2) := by
  refine (exec_msg qa qb s).trans ((cratch_runs h _).trans ?_)
  dsimp only
  rw [if_pos hb, scriptFault_runs h]

variable (hb : ¬ (bits (x.reg qa) 10 6 ≠ 0 ∨ x.reg qa / 2 ^ 36 ≠ 0))
include hb

theorem msg_planeDown (hp : planeUp s = false) : SetsC (.msg qa qb) s x false :=
  setsC_of h ((exec_msg qa qb s).trans ((cratch_runs h _).trans (congrArg Host.Outcome.next
    ((if_neg hb).trans (if_pos (by rw [hp]; rfl))))))

variable (hp : planeUp s = true)
include hp

/-- A message to the device itself goes into the mailbox that its handle names, at once. -/
theorem msg_own (hd : x.reg qa % 1024 = s.dev.getD 0) : exec (.msg qa qb) s = .next (
    match (mget s.handles (bits (x.reg qa) 16 16)).bind (fun k => mailPut s k.ctx (bits (x.reg qa) 32 4) (mgetD x.q qb 0)) with
    | some u => passC u true
    | none => passC s false) := by
  refine (exec_msg qa qb s).trans ((cratch_runs h _).trans (congrArg Host.Outcome.next
    ((if_neg hb).trans ((if_neg (by rw [hp]; decide)).trans ((if_pos hd).trans ?_)))))
  cases mget s.handles (bits (x.reg qa) 16 16) with
  | none => rfl
  | some k => rfl

theorem msg_away (hd : x.reg qa % 1024 ≠ s.dev.getD 0) :
    let r := x.reg qa
    let q := sendReq s (r % 1024) 7 (reqHdr (bits r 16 16) 0 0) (toBytes 8 (mgetD x.q qb 0).toNat ++ toBytes 8 (bits r 32 4))
      (.script s.cur.place)
    exec (.msg qa qb) s = .next (updScript q.2 s.cur.place (fun x => { x with wait := some (.msg q.1, s.ns) })) :=
  (exec_msg qa qb s).trans ((cratch_runs h _).trans (congrArg Host.Outcome.next
    ((if_neg hb).trans ((if_neg (by rw [hp]; decide)).trans (if_neg hd)))))

end

/-- A value put into a mailbox changes contexts only. -/
theorem mailPut_only {s u : State} {ctx box : Nat} {v : W64} (h : mailPut s ctx box v = some u) : u = { s with ctxs := u.ctxs } := by
  unfold mailPut at h
  split at h
  · dsimp only at h
    split at h
    · cases h
    · cases h
      rfl
  · cases h

/-! ## TSIG, EVT and END (16 R478) -/

section

variable {s : State} {x : Script} {qa qb : Nat} (h : ScriptRuns s x)
include h

/-- TSIG sends what its operands say, and passes. -/
theorem tsig_sends : exec (.tsig qa qb) s = .next (scriptPast (sendDecr s x.ctx (x.reg qa % 2 ^ 32) (x.reg qb % 2 ^ 32))) := by
  refine (exec_tsig qa qb s).trans ((cratch_runs h _).trans ?_)
  unfold scriptPast sendDecr sendDecrOf
  split <;> rfl

theorem evt_posts : exec (.evt qa) s =
    .next (postEvent (scriptPast s) x.ctx (mkRec [(0, 0x17), (4, x.node), (8, x.reg qa), (16, x.base + 4 * x.pc)])) :=
  (exec_evt qa s).trans (cratch_runs h _)

theorem endScript_ends :
    exec .endScript s = .next (agentEnd { s with scripts := mdel s.scripts s.cur.place } x.ctx x.node true 0) :=
  (exec_endScript s).trans (cratch_runs h _)

end

/-- Settles O42: MSG tests its route, the plane and the device that it names; TSIG, EVT and END do their one thing. -/
theorem scriptMessageWordsComplete : Obligations.ScriptMessageWordsComplete := by
  refine ⟨fun s x qa qb h => ⟨msg_reserved h, msg_planeDown h, fun hb hp hd => ⟨fun hk => ?_, fun k hk => ⟨fun hm => ?_, fun u hm => ?_⟩⟩,
    msg_away h⟩, fun s x h => ⟨fun qa qb => ⟨fun h0 => ?_, fun h0 => ?_⟩, fun qa => evt_posts h, endScript_ends h⟩⟩
  · refine setsC_of h ((msg_own h hb hp hd).trans ?_)
    rw [hk]
    rfl
  · refine setsC_of h ((msg_own h hb hp hd).trans ?_)
    rw [hk, Option.bind_some, hm]
  · have hu : u.scripts = s.scripts ∧ u.cur = s.cur := by
      rw [mailPut_only hm]
      exact ⟨rfl, rfl⟩
    refine ⟨passC u true, (msg_own h hb hp hd).trans ?_, scriptAfter_upd (s := u) ?_ (fun x => { x with c := true, pc := x.pc + 1 })⟩
    · rw [hk, Option.bind_some, hm]
    · rw [hu.1, hu.2]
      exact h.1
  · rw [tsig_sends h, h0]
    rfl
  · rw [tsig_sends h, sendDecr, sendDecrOf, if_neg h0]

/-! ## Words that wait (16 R481, R483, R484) -/

section

variable {i : Instr} {s : State} {x : Script} (h : ScriptRuns s x)
include h

section

variable {w : Script → ScriptWait} (he : exec i s = cratchWait w s)
include he

/-- A word whose wait has ended when it begins finishes it; else its script waits from now. -/
theorem cratchWait_runs : exec i s = .next (match scriptTest s s.cur.place x (w x) s.ns with
    | some r => finishWait s s.cur.place x (w x) r
    | none => updScript s s.cur.place (fun y => { y with wait := some (w y, s.ns) })) :=
  he.trans (cratch_runs h _)

theorem cratchWait_waits (ht : scriptTest s s.cur.place x (w x) s.ns = none) :
    Ends i s (fun t => ScriptAfter s t { x with wait := some (w x, s.ns) }) := by
  refine ⟨_, (cratchWait_runs h he).trans ?_, scriptAfter_upd h.1 (fun y => { y with wait := some (w y, s.ns) })⟩
  rw [ht]

theorem cratchWait_ends {r : Bool × Option (Nat × W64)} (ht : scriptTest s s.cur.place x (w x) s.ns = some r) :
    exec i s = .next (finishWait s s.cur.place x (w x) r) := by
  rw [cratchWait_runs h he, ht]

end

/-- A wait that ends with c alone. -/
theorem setsC_endWait {c : Bool} (he : exec i s = .next (endWait s s.cur.place c none)) : SetsC i s x c := by
  refine ⟨_, he, ?_⟩
  have hafter := scriptAfter_upd h.1 (fun x => { x with c := c, wait := none, pc := x.pc + 1 })
  rw [show ({ x with c := c, pc := x.pc + 1 } : Script) = { x with c := c, wait := none, pc := x.pc + 1 } by rw [h.2]]
  exact hafter

omit h in
/-- A wait that ends with c and a value for a q register. -/
theorem setsQC_endWait {b : State} {c : Bool} {qd n : Nat} {v : W64} (hb : mget b.scripts b.cur.place = some x) (hw : x.wait = none)
    (he : exec i s = .next (endWait b b.cur.place c (some (qd, v)))) (hv : v.toNat = n % 2 ^ 64) : SetsQC i s b x qd n c := by
  refine ⟨{ x with c := c, q := mput 0 x.q qd v, pc := x.pc + 1 }, ⟨_, he, ?_⟩, rfl, ?_, fun r hr => ?_⟩
  · have hafter := scriptAfter_upd hb (fun x => { x with c := c, wait := none, pc := x.pc + 1, q := mput 0 x.q qd v })
    rw [show ({ x with c := c, q := mput 0 x.q qd v, pc := x.pc + 1 } : Script) =
      { x with c := c, wait := none, pc := x.pc + 1, q := mput 0 x.q qd v } by rw [hw]]
    exact hafter
  · exact (congrArg BitVec.toNat (mgetD_mput_self ..)).trans hv
  · exact congrArg BitVec.toNat ((mgetD_mput ..).trans (if_neg (Ne.symm hr)))

end

/-- A wait that begins now has run out at once with a time-out of 0 only. -/
theorem waitedOut_now (s : State) (tmo : W64) : waitedOut s s.ns tmo = true ↔ tmo = 0 := by
  unfold waitedOut
  rw [Nat.sub_self, Bool.and_eq_true, decide_eq_true_eq, Nat.le_zero, Nat.mul_eq_zero, bne_iff_ne]
  refine ⟨fun hz => BitVec.eq_of_toNat_eq (hz.2.resolve_right (by decide)), fun hz => ?_⟩
  subst hz
  decide

/-! ### CWAIT (16 R483) -/

/-- Whether what a CWAIT waits for has come. -/
def cwaitMet (s : State) (ctx p : Nat) : CwaitTarget → Bool
  | .live => liveFor s ctx p
  | .grant => (circuitFor s ctx p).map (·.st) == some .granted
  | .free => ((circuitFor s ctx p).map (·.st)).isNone

section

variable {s : State} {place : Nat} {x : Script}

/-- The test of a CWAIT that begins now, by its target, its circuit and its time-out. -/
theorem scriptTest_cwait (tgt : CwaitTarget) (qd p : Nat) (tmo : W64) : scriptTest s place x (.cwait tgt qd p tmo) s.ns =
    if cwaitMet s x.ctx p tgt = true then some (true, some (qd, BitVec.ofNat 64 (circStatus s x.ctx p)))
    else if ((circuitFor s x.ctx p).map (·.st) = some .failed ∧ tgt ≠ .free) ∨ tmo = 0 then
      some (false, some (qd, BitVec.ofNat 64 (circStatus s x.ctx p)))
    else none := by
  have hlost : ((circuitFor s x.ctx p).map (·.st) == some CircSt.failed && tgt != CwaitTarget.free) = true ↔
      (circuitFor s x.ctx p).map (·.st) = some .failed ∧ tgt ≠ .free := by
    rw [Bool.and_eq_true, beq_iff_eq, bne_iff_ne]
  refine Eq.trans ?_ (if_congr Iff.rfl rfl (ite_or ..).symm)
  exact (if_congr Iff.rfl rfl (if_congr hlost rfl (if_congr (waitedOut_now s tmo) rfl rfl)))

/-! ### MRCV, TWT and DLY (16 R484, 08 R285) -/

/-- The values that a mailbox of a context holds. -/
def heldIn (s : State) (ctx box : Nat) : List W64 := match ctxOf s ctx with | some c => mgetD c.mailboxes box [] | none => []

theorem scriptTest_mrcv (qd box : Nat) (tmo : W64) (t0 : Nat) : scriptTest s place x (.mrcv qd box tmo) t0 =
    match heldIn s x.ctx box with
    | v :: _ => if earlierWaiter s place x box t0 then none else some (true, some (qd, v))
    | [] => if waitedOut s t0 tmo then some (false, none) else none := rfl

theorem scriptTest_mrcv_value {qd box : Nat} {tmo v : W64} {t0 : Nat} {rest : List W64} (hh : heldIn s x.ctx box = v :: rest) :
    scriptTest s place x (.mrcv qd box tmo) t0 = if earlierWaiter s place x box t0 = true then none else some (true, some (qd, v)) := by
  rw [scriptTest_mrcv, hh]

theorem scriptTest_mrcv_empty {qd box : Nat} {tmo : W64} (hh : heldIn s x.ctx box = []) :
    scriptTest s place x (.mrcv qd box tmo) s.ns = if tmo = 0 then some (false, none) else none := by
  refine Eq.trans ?_ (if_congr (waitedOut_now s tmo) rfl rfl)
  rw [scriptTest_mrcv, hh]

theorem scriptTest_twt_none {h thr : Nat} {tmo : W64} (hn : nodeOf s x.ctx h = none) :
    scriptTest s place x (.twt h thr tmo) s.ns = some (false, none) := by
  simp only [scriptTest, hn]

theorem scriptTest_twt {h thr g k : Nat} {tmo : W64} {n : Node} (hn : nodeOf s x.ctx h = some (g, k, n)) :
    scriptTest s place x (.twt h thr tmo) s.ns =
      if n.count.toNat ≤ thr then some (true, none) else if tmo = 0 then some (false, none) else none := by
  refine Eq.trans ?_ (if_congr Iff.rfl rfl (if_congr (waitedOut_now s tmo) rfl rfl))
  simp only [scriptTest, hn]

theorem scriptTest_dly {us : W64} : scriptTest s place x (.dly us) s.ns = if us = 0 then some (x.c, none) else none := by
  refine if_congr ?_ rfl rfl
  rw [Nat.sub_self, Nat.le_zero, Nat.mul_eq_zero, or_iff_left (by decide)]
  exact BitVec.toNat_inj (y := 0)

end

/-! ### The words -/

section

variable {s : State} {x : Script} (h : ScriptRuns s x)
include h

/-- CWAIT, whatever its target. -/
theorem cwait_ends_or_waits (tgt : CwaitTarget) (qd qa qb : Nat) :
    let p := x.reg qa % 16
    let tmo := mgetD x.q qb 0
    let lost := (circuitFor s x.ctx p).map (·.st) = some .failed ∧ tgt ≠ .free
    (cwaitMet s x.ctx p tgt = true → SetsQC (.cwait tgt qd qa qb) s s x qd (circStatus s x.ctx p) true) ∧
    (¬ cwaitMet s x.ctx p tgt = true → lost ∨ tmo = 0 → SetsQC (.cwait tgt qd qa qb) s s x qd (circStatus s x.ctx p) false) ∧
    (¬ cwaitMet s x.ctx p tgt = true → ¬ lost → tmo ≠ 0 →
      Ends (.cwait tgt qd qa qb) s (fun t => ScriptAfter s t { x with wait := some (.cwait tgt qd p tmo, s.ns) })) := by
  have ht := scriptTest_cwait (s := s) (place := s.cur.place) (x := x) tgt qd (x.reg qa % 16) (mgetD x.q qb 0)
  have hend : ∀ c, scriptTest s s.cur.place x (.cwait tgt qd (x.reg qa % 16) (mgetD x.q qb 0)) s.ns =
      some (c, some (qd, BitVec.ofNat 64 (circStatus s x.ctx (x.reg qa % 16)))) →
      SetsQC (.cwait tgt qd qa qb) s s x qd (circStatus s x.ctx (x.reg qa % 16)) c := fun c hc =>
    setsQC_endWait h.1 h.2 (cratchWait_ends h (exec_cwait tgt qd qa qb s) hc) (BitVec.toNat_ofNat ..)
  refine ⟨fun hm => hend true (ht.trans (if_pos hm)), fun hm hl => hend false (ht.trans ((if_neg hm).trans (if_pos hl))),
    fun hm hl h0 => cratchWait_waits h (exec_cwait tgt qd qa qb s) (ht.trans ((if_neg hm).trans (if_neg ?_)))⟩
  exact not_or_intro hl h0

/-- MRCV takes the value that its mailbox holds. -/
theorem mrcv_takes {qd qa qb : Nat} {v : W64} {rest : List W64} (hh : heldIn s x.ctx (x.reg qa % 16) = v :: rest)
    (he : earlierWaiter s s.cur.place x (x.reg qa % 16) s.ns = false) :
    SetsQC (.mrcv qd qa qb) s (updCtx s x.ctx (fun c => { c with mailboxes := mset c.mailboxes (x.reg qa % 16) rest })) x qd v.toNat
      true := by
  have hrest : updCtx s x.ctx (fun c =>
      { c with mailboxes := mset c.mailboxes (x.reg qa % 16) ((mgetD c.mailboxes (x.reg qa % 16) []).drop 1) }) =
      updCtx s x.ctx (fun c => { c with mailboxes := mset c.mailboxes (x.reg qa % 16) rest }) := by
    refine updCtx_congr fun c hc => ?_
    have hbox : mgetD c.mailboxes (x.reg qa % 16) [] = v :: rest := by rwa [heldIn, hc] at hh
    rw [hbox]
    rfl
  refine setsQC_endWait (b := updCtx s x.ctx _) h.1 h.2 ?_ (Nat.mod_eq_of_lt v.isLt).symm
  rw [cratchWait_ends h (exec_mrcv qd qa qb s) ((scriptTest_mrcv_value hh).trans (if_neg (by rw [he]; decide))), ← hrest]
  rfl

end

/-- Settles O43: the test of each word says whether it ends at once, and with what, or waits from now. -/
theorem scriptWaitWordsComplete : Obligations.ScriptWaitWordsComplete := by
  intro s x h
  refine ⟨fun tgt qd qa qb => ?_, fun qd qa qb => ⟨fun v rest => mrcv_takes h, fun v rest hh he => ?_, fun hh h0 => ?_, fun hh h0 => ?_⟩,
    fun qa qb qc => ⟨fun hn => ?_, fun g k n hn => ⟨fun hc => ?_, fun hc h0 => ?_, fun hc h0 => ?_⟩⟩, fun i us hi => ?_⟩
  · have hw := cwait_ends_or_waits h tgt qd qa qb
    cases tgt <;> simpa [cwaitMet] using hw
  · exact cratchWait_waits h (exec_mrcv qd qa qb s) ((scriptTest_mrcv_value hh).trans (if_pos he))
  · exact setsC_endWait h (cratchWait_ends h (exec_mrcv qd qa qb s) ((scriptTest_mrcv_empty hh).trans (if_pos h0)))
  · exact cratchWait_waits h (exec_mrcv qd qa qb s) ((scriptTest_mrcv_empty hh).trans (if_neg h0))
  · exact setsC_endWait h (cratchWait_ends h (exec_twt qa qb qc s) (scriptTest_twt_none hn))
  · exact setsC_endWait h (cratchWait_ends h (exec_twt qa qb qc s) ((scriptTest_twt hn).trans (if_pos hc)))
  · exact setsC_endWait h (cratchWait_ends h (exec_twt qa qb qc s)
      ((scriptTest_twt hn).trans ((if_neg (Nat.not_le.mpr hc)).trans (if_pos h0))))
  · exact cratchWait_waits h (exec_twt qa qb qc s) ((scriptTest_twt hn).trans ((if_neg (Nat.not_le.mpr hc)).trans (if_neg h0)))
  · have hdly : ∃ w : Script → ScriptWait, exec i s = cratchWait w s ∧ w x = .dly us := by
      obtain ⟨qa, rfl, rfl⟩ | ⟨n, rfl, rfl⟩ := hi
      · exact ⟨_, exec_dlyReg qa s, rfl⟩
      · exact ⟨_, exec_dlyImm n s, rfl⟩
    obtain ⟨w, he, hw⟩ := hdly
    refine ⟨fun h0 => setsC_endWait h ?_, fun h0 => ?_⟩
    · rw [cratchWait_ends h he ((congrArg (scriptTest s s.cur.place x · s.ns) hw).trans (scriptTest_dly.trans (if_pos h0))), hw]
      rfl
    · rw [← hw]
      exact cratchWait_waits h he ((congrArg (scriptTest s s.cur.place x · s.ns) hw).trans (scriptTest_dly.trans (if_neg h0)))

end Sys2Proof.Claims
end

section
/-! PROOFS. The buckets and signs of a sketch's keys that the spec tabulates (17 R490). -/

namespace Sys2Proof.Claims

open Sys2Proof.Machine

/-- Settles O58: the hash is computed for each key, row by row of the table. -/
theorem sketchBucketsOfTableProg8 : Obligations.SketchBucketsOfTableProg8 := by
  refine ⟨?row0, ?row1, ?row2⟩
  case row0 => decide
  case row1 => decide
  case row2 => decide

end Sys2Proof.Claims
end

section
/-! PROOFS. The words on special registers and the words of firmware (14 R436-R439). -/

namespace Sys2Proof.Claims

open Sys2Proof.Machine

/-! ## CSRR and CSRW (14 R436, R437) -/

@[simp] theorem cw_noteIssue_wstat (s : State) (slot : Nat) : (cw (noteIssue s)).wstat slot = (cw s).wstat slot := by
  simp [Warp.wstat]

@[simp] theorem cw_noteIssue_icnt (s : State) : (cw (noteIssue s)).icnt = (cw s).icnt := by
  simp [Warp.icnt]

/-- The note of an issue changes no special register. -/
@[simp] theorem csrVal_noteIssue (s : State) (n : Nat) : csrVal (noteIssue s) n = csrVal s n := by
  unfold csrVal
  simp only [cw_noteIssue_wstat, cw_noteIssue_icnt, cw_noteIssue_fstat, cw_noteIssue_ctx, noteIssue_cur, clustOf_noteIssue]
  rfl

/-- Settles O31: CSRR and CSRW find the same values before and after the note of their issue; a CSRW passes before its register
changes. -/
theorem csrWordsComplete : Obligations.CsrWordsComplete := by
  intro s
  refine ⟨fun d n hi => ends_writesReg (exec_csrr d n s) hi ?_, fun n a hi => ⟨fun h1 => ?_, fun h1 => ?_⟩⟩
  · simp only [cw_noteIssue_slice, csrVal_noteIssue]
  · refine ⟨_, (exec_csrw n a s).trans (issueWord_done hi (if_pos h1)), ?_⟩
    rw [op64_noteIssue]
    exact passes_any _
  · refine ⟨retireVoid (noteIssue s), passes_retireVoid s, (exec_csrw n a s).trans (issueWord_done hi ?_)⟩
    rw [if_neg h1, lowOp_noteIssue]

/-! ## FRET, HALT, FCTX and FSWP (14 R438, R439) -/

section

variable {s : State} {d : Dst} {a b : Opnd}

/-- FRET writes the status of the close, in the state that it leaves. -/
theorem fret_ends (hi : Issues { ops := [(a, false), (b, true)], dst := some (d, 1), fw := true } s) :
    let r := fret (noteIssue s) (lowOp s false a) (lowOp s true b)
    Ends (.fret d a b) s (fun t => WritesReg r.2 t d false false 2 (fun _ => r.1)) := by
  refine ends_status (exec_fret d a b s) hi ?_
  rw [lowOp_noteIssue]
  rfl

/-- A FRET that closes no record writes 1 and changes nothing else. -/
theorem fret_refused (hi : Issues { ops := [(a, false), (b, true)], dst := some (d, 1), fw := true } s)
    (hc : closeRecord (noteIssue s) (lowOp s false a / 65536) (lowOp s false a % 65536) (lowOp s true b) = none) :
    Ends (.fret d a b) s (fun t => WritesReg s t d false false 2 (fun _ => 1)) := by
  refine ends_writesReg (exec_fret d a b s) hi ?_
  rw [lowOp_noteIssue, fret, hc]

theorem fret_closes {u : State} (hi : Issues { ops := [(a, false), (b, true)], dst := some (d, 1), fw := true } s)
    (hc : closeRecord (noteIssue s) (lowOp s false a / 65536) (lowOp s false a % 65536) (lowOp s true b) = some u) :
    Ends (.fret d a b) s (fun t => WritesReg u t d false false 2 (fun _ => 0)) := by
  have hf := fret_ends hi
  rw [fret, hc] at hf
  exact hf

theorem halt_escalates (hi : Issues {} s) :
    exec .halt s = .next (holdWarp (escalate (noteIssue s) (cw s).ctx 1 ((cw s).slice (curLow s)).pc.toNat) s.cur.core s.cur.slot) := by
  refine (exec_halt s).trans (issueWord_done hi (congrArg Act.done ?_))
  rw [haltAt, curLow_noteIssue, cw_noteIssue_slice, cw_noteIssue_ctx]
  rfl

theorem haltDev_stops (hi : Issues { fw := true } s) :
    Ends .haltDev s (fun t => t.haltDev = true ∧ Quiet s t ∧ Passes (loseDeficits { noteIssue s with haltDev := true } none) t) := by
  obtain ⟨t, he, hq, hp⟩ := ends_quiet_passes (exec_haltDev s) hi (v := loseDeficits { noteIssue s with haltDev := true } none)
    ⟨rfl, rfl, rfl, rfl⟩ rfl
  obtain ⟨honly, -⟩ := id hp
  exact ⟨t, he, by rw [honly]; rfl, hq, hp⟩

variable (hi : Issues (fwUse d a b) s)
include hi

/-- FCTX at an address in memory; the two rows are one word. -/
theorem fctxWord_runs {i : Instr} (he : exec i s = fctxWord d a b s) (hp : physOk (lowOp s true b) 128 = true) :
    let r := fctx (noteIssue s) (lowOp s false a) (lowOp s true b)
    Ends i s (fun t => WritesReg r.2 t d false false 2 (fun _ => r.1)) := by
  refine ends_status (he.trans (if_neg (by simp [hp]))) hi ?_
  rw [lowOp_noteIssue]
  rfl

theorem fctxWord_stops {i : Instr} (he : exec i s = fctxWord d a b s) (hp : physOk (lowOp s true b) 128 = false) :
    exec i s = .fault (.noSuchAddress (lowOp s true b)) :=
  he.trans (if_pos (by simp [hi.1, hi.2, hp]))

theorem fswpWord_runs {i : Instr} (he : exec i s = fswpWord d a b s) :
    let r := fswp (noteIssue s) (lowOp s false a) (lowOp s true b)
    Ends i s (fun t => WritesReg r.2 t d false false 2 (fun _ => r.1)) := by
  refine ends_status he hi ?_
  rw [lowOp_noteIssue]
  rfl

end

/-- Settles O32: each word of firmware writes the status of its action in the state that the action leaves. -/
theorem firmwareWordsComplete : Obligations.FirmwareWordsComplete :=
  ⟨fun _ _ _ _ hi => ⟨fret_refused hi, fun _ => fret_closes hi⟩, fun _ => ⟨halt_escalates, haltDev_stops⟩,
    fun s d a b hi => ⟨fun hp => ⟨fctxWord_runs hi (exec_fctxBind d a b s) hp, fctxWord_runs hi (exec_fctxUnbind d a b s) hp⟩,
      fun hp => ⟨fctxWord_stops hi (exec_fctxBind d a b s) hp, fctxWord_stops hi (exec_fctxUnbind d a b s) hp⟩,
      fswpWord_runs hi (exec_fswpOut d a b s), fswpWord_runs hi (exec_fswpIn d a b s)⟩⟩

end Sys2Proof.Claims
end

section
/-! PROOFS. The words that submit a launch or a relaunch (12 R398, R399, 13 R405). -/

namespace Sys2Proof.Claims

open Sys2Proof.Machine

/-- The state behind the release that LNCH and RELN begin with (07 R244). -/
abbrev released (s : State) : State := traceVolatile (releaseDev (noteIssue s)) (cw s)

/-- A translation leaves the site. -/
theorem cur_of_xlatRange {cl ctx : Nat} {k : AccessKind} {l : List Nat} {s u : State} {r : Except FaultInfo (List (Nat × Xlat))}
    (h : xlatRange cl ctx k l s = (r, u)) : u.cur = s.cur :=
  (congrArg (fun p => p.2.cur) h).symm.trans (onlyHome_cur (onlyHome_tlbs (onlyTlbs_xlatRange cl ctx k l s)))

/-! ## LNCH -/

section

variable {s : State} {d : Dst} {a b : Opnd} (hi : Issues { ops := [(a, true), (b, false)], dst := some (d, 1) } s)
include hi

theorem lnch_misaligned (hp : lowOp s true a % 64 ≠ 0) : Faults (.lnch d a b) s (fltAt 7 (lowOp s true a)) := by
  refine faults_of_trap (exec_lnch d a b s) hi ?_
  rw [lowOp_noteIssue]
  exact if_pos hp

variable (hp : lowOp s true a % 64 = 0)
include hp

theorem lnch_waits (hr : releasedAll (noteIssue s) = false) : Waits (.lnch d a b) s := by
  refine (exec_lnch d a b s).trans (issueWord_stall hi ?_)
  rw [lowOp_noteIssue]
  exact (if_neg (not_not_intro hp)).trans (if_pos (by rw [hr]; rfl))

variable (hr : releasedAll (noteIssue s) = true)
include hr

theorem lnch_untranslated {f : FaultInfo} {u : State}
    (hx : xlatRange (clusterOf (released s).cur.core) (cw (released s)).ctx .read (pagesOf (lowOp s true a) 64) (released s) =
      (.error f, u)) :
    Faults (.lnch d a b) s f := by
  refine faults_of_trap (exec_lnch d a b s) hi ?_
  simp only [lowOp_noteIssue, traceVolatile_note, hp, hr, hx]
  rfl

/-- Behind its release LNCH answers by the packet that it reads and the queue that it names. -/
theorem lnch_answers {xs : List (Nat × Xlat)} {w : State}
    (hx : xlatRange (clusterOf (released s).cur.core) (cw (released s)).ctx .read (pagesOf (lowOp s true a) 64) (released s) =
      (.ok xs, w)) :
    let r := readVa w (clusterOf (released s).cur.core) (cw (released s)).ctx (lowOp s true a) 64
    let pkt := r.1.toOption.getD []
    let q := lowOp s false b
    let status := fun (u : State) (k : Nat) => Ends (.lnch d a b) s (fun t => WritesReg u t d false false 2 (fun _ => k))
    (fld pkt 0 1 ≠ 1 ∧ fld pkt 0 1 ≠ 2 → status r.2 3) ∧
    (fld pkt 0 1 = 1 ∨ fld pkt 0 1 = 2 →
      (¬ (∃ x, mget r.2.queues q = some x ∧ x.desc.context = (cw (released s)).ctx ∧ x.takes = true) → status r.2 2) ∧
      (∀ x, mget r.2.queues q = some x → x.desc.context = (cw (released s)).ctx → x.takes = true →
        (x.full = true → status r.2 1) ∧ (x.full = false → status (appendInline r.2 q x pkt) 0))) := by
  have hw : w.cur = (released s).cur := cur_of_xlatRange hx
  refine ⟨fun hk => ends_status (exec_lnch d a b s) hi ?_, fun hk => ⟨fun hq => ends_status (exec_lnch d a b s) hi ?_,
    fun x hq hc ht => ⟨fun hf => ends_status (exec_lnch d a b s) hi ?_, fun hf => ends_status (exec_lnch d a b s) hi ?_⟩⟩⟩ <;>
    simp only [lowOp_noteIssue, traceVolatile_note, hp, hr, hx, hw, ne_eq, not_true, if_false, Bool.not_true, Bool.false_eq_true]
  · exact if_pos hk
  · rw [if_neg (fun e => hk.elim e.1 e.2)]
    split
    · next x hq' =>
      refine if_pos ?_
      by_contra hn
      rw [not_or, not_not, Bool.not_eq_true', Bool.not_eq_false] at hn
      exact hq ⟨x, hq', hn⟩
    · rfl
  · rw [if_neg (fun e => hk.elim e.1 e.2), hq]
    exact (if_neg (by simp [hc, ht])).trans (if_pos hf)
  · rw [if_neg (fun e => hk.elim e.1 e.2), hq]
    exact (if_neg (by simp [hc, ht])).trans (if_neg (by simp [hf]))

end

/-! ## RELN -/

section

variable {s : State} {x : RelnArgs} (hi : Issues { ops := relnOps x, dst := some (x.d, 1) } s)
include hi

theorem reln_misaligned (ht : lowOp s true x.a % 256 ≠ 0) : Faults (.reln x) s (fltAt 7 (lowOp s true x.a)) := by
  refine faults_of_trap (exec_reln x s) hi ?_
  rw [lowOp_noteIssue]
  exact if_pos ht

variable (ht : lowOp s true x.a % 256 = 0)
include ht

theorem reln_waits (hr : releasedAll (noteIssue s) = false) : Waits (.reln x) s := by
  refine (exec_reln x s).trans (issueWord_stall hi ?_)
  rw [lowOp_noteIssue]
  exact (if_neg (not_not_intro ht)).trans (if_pos (by rw [hr]; rfl))

variable (hr : releasedAll (noteIssue s) = true)
include hr

theorem reln_untranslated {f : FaultInfo} {u : State}
    (hx : xlatRange (clusterOf (released s).cur.core) (cw (released s)).ctx .rmw (pagesOf (lowOp s true x.a) 256) (released s) =
      (.error f, u)) : Faults (.reln x) s f := by
  refine faults_of_trap (exec_reln x s) hi ?_
  simp only [lowOp_noteIssue, traceVolatile_note, ht, hr, hx]
  rfl

/-- Behind its release RELN refuses a header that holds no traced kernel that would be accepted, and else submits the relaunch. -/
theorem reln_submits {xs : List (Nat × Xlat)} {k : State}
    (hx : xlatRange (clusterOf (released s).cur.core) (cw (released s)).ctx .rmw (pagesOf (lowOp s true x.a) 256) (released s) =
      (.ok xs, k)) :
    let tb := lowOp s true x.a
    let w := if x.kind = .none then 0 else lowOp s true x.b
    let h := readVa k (clusterOf (released s).cur.core) (cw (released s)).ctx tb 256
    let pkt := (h.1.toOption.getD []).take 64
    let u := h.2
    let bad := fld pkt 0 1 ≠ 1 ∨ bit (fld pkt 1 1) 0 = false ∨ (refuseReason u (cw (released s)).ctx pkt).isSome = true ∨
      (x.kind = .sig ∧ w % 8 ≠ 0)
    (bad → Ends (.reln x) s (fun t => WritesReg u t x.d false false 2 (fun _ => 0xFFFFFFFF))) ∧
    (¬ bad →
      let r := launchTx u none { (mkTx u false false (.reply x.d u.cur.mask) []) with launch := 0 }
      let q := match mget r.2.launches (cw u).launch with | some l => l.queue | none => none
      let b := (submitRelaunch r.2 (cw (released s)).ctx (.node noHandle) q tb x.kind (BitVec.ofNat 64 w) (some r.1)).2
      Ends (.reln x) s (fun t => Awaits b t x.d 1 r.1 ∧
        Frame b t [] [] [] (fun _ => [⟨b.cycle, pendEntry x.d.reg false r.1⟩]))) := by
  have hw : k.cur = (released s).cur := cur_of_xlatRange hx
  refine ⟨fun hb => ends_status (exec_reln x s) hi ?_, fun hb => ⟨_, (exec_reln x s).trans (issueWord_done hi ?_),
    awaits_issuePend (sameVals_refl _) (sameSite_refl _) _ _ _ _, frame_issuePend ..⟩⟩ <;>
    simp only [lowOp_noteIssue, traceVolatile_note, ht, hr, hx, hw, ne_eq, not_true, if_false, Bool.not_true, Bool.false_eq_true,
      Bool.not_eq_true']
  · exact if_pos hb
  · exact if_neg hb

end

/-- Settles O29: each word tests its address, waits for its release and translates its page; what it reads then decides. -/
theorem launchWordsSubmit : Obligations.LaunchWordsSubmit :=
  ⟨fun _ _ _ _ hi => ⟨lnch_misaligned hi, lnch_waits hi,
      fun hp hr => ⟨fun _ _ => lnch_untranslated hi hp hr, fun _ _ => lnch_answers hi hp hr⟩⟩,
    fun _ _ hi => ⟨reln_misaligned hi, reln_waits hi,
      fun ht hr => ⟨fun _ _ => reln_untranslated hi ht hr, fun _ _ => reln_submits hi ht hr⟩⟩⟩

end Sys2Proof.Claims
end

section
/-! PROOFS. The words that send remote packets (15 R450, R453-R455). -/

namespace Sys2Proof.Claims

open Sys2Proof.Machine

/-! ## What a remote word reads, and when it goes on -/

@[simp] theorem remoteAddr_noteIssue (s : State) : remoteAddr (noteIssue s) = remoteAddr s := by
  funext a off n l
  simp [remoteAddr]

@[simp] theorem refusedHere_noteIssue (s : State) : refusedHere (noteIssue s) = refusedHere s := rfl

section

variable {i : Instr} {s : State} {us : Use} {body : State → Act} {ic n : Nat} {d : Option Dst} {z : MSize} {op : Option (AtomOp × Bool)}
  {good bad : List RGroup} {send finish : Nat → State → State}

/-- A word that puts its packets in flight sends them where 15 R450 and its counter let it, and else waits. -/
theorem sendsRemote_of (he : exec i s = issueWord us body s) (hi : Issues us s)
    (hb : body (noteIssue s) = remoteIssue (noteIssue s) ic n d z op good bad send finish) :
    SendsRemote i s ic n d z op good bad (send s.nextId) (finish s.nextId) := by
  refine ⟨fun hgo => he.trans (issueWord_done hi (hb.trans ((if_neg ?_).trans ?_))), fun hw => he.trans (issueWord_stall hi (hb.trans
    (if_pos ?_)))⟩
  · rw [cw_noteIssue_uid, ic_noteIssue]
    exact not_or_intro (by rw [show remoteClear (noteIssue s) (cw s).uid = true from hgo.1]; decide) (Nat.not_le.mpr hgo.2)
  · simp only [cw_noteIssue_uid, traceVolatile_note]
    split <;> rfl
  · rw [cw_noteIssue_uid, ic_noteIssue]
    exact hw.imp_left (fun h => by rw [show remoteClear (noteIssue s) (cw s).uid = false from h]; rfl)

end

/-! ## The words -/

/-- RATOM, whatever its operation. -/
theorem ratom_sends {i : Instr} {s : State} {op : AtomOp} {x : RatomArgs}
    (hi : Issues { ops := [(x.a, true), (x.b, false)] ++ (if op = .cas then [] else [(x.c, x.wide)])
                   vr := (match op, x.c with | .cas, .reg r => regCodes r (if x.wide then 4 else 2) | _, _ => []) ++
                     (if x.d.nowb then [] else regCodes x.d.reg (if x.wide then 2 else 1))
                   pr := [x.g.p], dst := some (x.d, if x.wide then 2 else 1) } s)
    (he : exec i s = ratomWord op x s) :
    let n := if x.wide then 8 else 4
    let va := remoteAddr s x.a 0 n
    let groups := fun (p : Nat → Bool) =>
      remoteGroups (op32 s x.b) (fun l => va l / 256 * 256) ((perfLanes s (some x.g)).filter (fun l => p (op32 s x.b l)))
    let good := groups (fun r => !refusedHere s r)
    (∀ f, remoteFault n va none (perfLanes s (some x.g)) = some f → Faults i s f) ∧
    (remoteFault n va none (perfLanes s (some x.g)) = none →
      SendsRemote i s 3 good.length (some x.d) (if x.wide then .b64 else .b32) (some (op, x.wide)) good (groups (refusedHere s))
        (fun v => good.foldl (fun v g =>
          (sendReq v g.dev 4 (reqHdr g.handle (atomCode op + b2n x.sgn * 16 + b2n x.wide * 32) g.line)
            (ratomPayload op n va (atomVals s op x.c x.wide) g.lanes) (.word s.nextId (laneOffs va g.lanes))).2) v)
        (fun v => issuePend v x.d (if x.wide then 2 else 1) (pendEntry x.d.reg x.wide s.nextId) s.nextId)) := by
  refine ⟨fun f hf => faults_of_trap he hi ?_, fun hf => ?_⟩
  · simp only [remoteAddr_noteIssue, perfLanes_noteIssue, hf]
  · have hs := sendsRemote_of he hi (by
      simp only [remoteAddr_noteIssue, op32_noteIssue, perfLanes_noteIssue, refusedHere_noteIssue, atomVals_noteIssue, hf]
      rfl)
    exact hs

/-- Settles O20: each word faults by its lowest lane, or puts the packets of its groups in flight. -/
theorem remoteWordsSendPackets : Obligations.RemoteWordsSendPackets := by
  refine fun s => ⟨fun x hi => ⟨fun f hf => faults_of_trap (exec_rld x s) hi ?_, fun hf => ?_⟩,
    fun x hi => ⟨fun f hf => faults_of_trap (exec_rst x s) hi ?_, fun hf => ?_⟩,
    fun x hi => ⟨fun f hf => faults_of_trap (exec_rstf x s) hi ?_, fun hf => ?_⟩, fun x => ?_⟩
  · simp only [remoteAddr_noteIssue, loadLanes_noteIssue, hf]
  · have hs := sendsRemote_of (exec_rld x s) hi (by
      simp only [remoteAddr_noteIssue, op32_noteIssue, loadLanes_noteIssue, refusedHere_noteIssue, hf]
      rfl)
    exact hs
  · simp only [remoteAddr_noteIssue, perfLanes_noteIssue, hf]
  · have hs := sendsRemote_of (exec_rst x s) hi (by
      simp only [remoteAddr_noteIssue, op32_noteIssue, perfLanes_noteIssue, refusedHere_noteIssue, storeBytes_noteIssue, hf]
      rfl)
    exact hs
  · simp only [remoteAddr_noteIssue, op64_noteIssue, perfLanes_noteIssue, hf]
  · have hs := sendsRemote_of (exec_rstf x s) hi (by
      simp only [remoteAddr_noteIssue, op32_noteIssue, op64_noteIssue, perfLanes_noteIssue, refusedHere_noteIssue, storeBytes_noteIssue, hf]
      rfl)
    exact hs
  · exact ⟨fun hi => ratom_sends hi (exec_ratomAdd x s), fun hi => ratom_sends hi (exec_ratomMin x s),
      fun hi => ratom_sends hi (exec_ratomMax x s), fun hi => ratom_sends hi (exec_ratomAnd x s),
      fun hi => ratom_sends hi (exec_ratomOr x s), fun hi => ratom_sends hi (exec_ratomXor x s),
      fun hi => ratom_sends hi (exec_ratomExch x s), fun hi => ratom_sends hi (exec_ratomCas x s),
      fun hi => ratom_sends hi (exec_ratomFadd x s)⟩

end Sys2Proof.Claims
end

section
/-! PROOFS. Held records, residency, pre-emption, images, boot and service (14 R421-R434, R440, R441). -/

namespace Sys2Proof.Claims

open Sys2Proof.Machine

/-! ## Held records (14 R422) -/

section

variable {s : State} {n : Nat}

theorem heldRecordWrite_none (hn : s.heldRecords[n]? = none) : exec (.heldRecordWrite n) s = .next (settleCloses s) := by
  rw [exec_heldRecordWrite, execHeldRecordWrite, hn]

variable {p : Nat × Nat} (hn : s.heldRecords[n]? = some p)
include hn

theorem heldRecordWrite_oldest (ho : s.heldRecords.find? (fun q => q.1 == p.1) = some p) :
    exec (.heldRecordWrite n) s = .next (settleCloses ((heldTry s p).getD s)) := by
  rw [exec_heldRecordWrite, execHeldRecordWrite, hn]
  exact if_pos ho

theorem heldRecordWrite_younger (ho : s.heldRecords.find? (fun q => q.1 == p.1) ≠ some p) : exec (.heldRecordWrite n) s = .next s := by
  rw [exec_heldRecordWrite, execHeldRecordWrite, hn]
  exact if_neg ho

end

/-! ## Pre-emption (14 R427, R428) -/

section

variable {s : State} {ctx : Nat} {p : Preempt} (hp : (ctxOf s ctx).bind Ctx.preempt = some p)
include hp

theorem gracelimExpiry_runs : exec (.gracelimExpiry ctx) s =
    .next (if p.forced = false ∧ p.drained = false ∧ p.deadline ≤ s.ns then forceStop s ctx else s) := by
  rw [exec_gracelimExpiry, execGracelimExpiry, hp]
  simp

theorem gracefulSave_runs : exec (.gracefulSave ctx) s =
    .next (if p.forced = false ∧ p.drained = false ∧ blocksDone s ctx = true ∧ passesOver s ctx = true ∧ copiesOver s ctx = true ∧
      nmuClear s ctx = true then allowSave s ctx else s) := by
  rw [exec_gracefulSave, execGracefulSave, hp]
  simp only [Bool.not_eq_true', ← apply_ite Host.Outcome.next]

/-- A swap out is complete when no image is left to write. -/
theorem swapComplete_out : exec (.swapComplete ctx) s = .next (if p.left = [] then
    swapSignal (updCtx { s with holder := s.holder.filter (fun h => h.2 != ctx) } ctx
      (fun c => { c with st := .swapped, pre := none, outSince := s.ns })) p.signal else s) := by
  obtain ⟨c, hc, hpre⟩ := Option.bind_eq_some_iff.mp hp
  rw [exec_swapComplete, execSwapComplete, hc]
  dsimp only
  rw [hpre]
  simp only [List.isEmpty_iff, ← apply_ite Host.Outcome.next]

end

/-- A context that is not PREEMPTING has no pre-emption under way. -/
theorem preempt_eq_none {c : Ctx} (h : c.st ≠ .preempting) : c.preempt = none := if_neg h

/-- A swap back is complete when its partitions are free. -/
theorem swapComplete_in {s : State} {ctx : Nat} {c : Ctx} {r : List Nat × Option Nat} (hc : ctxOf s ctx = some c) (hst : c.st = .swapped)
    (hr : c.restoring = some r) :
    exec (.swapComplete ctx) s = .next (if partsFree s c = true then restoreCtx s ctx c r.2 else s) := by
  rw [exec_swapComplete, execSwapComplete, hc]
  dsimp only
  rw [preempt_eq_none (by rw [hst]; decide), hr]
  exact congrArg Host.Outcome.next (if_congr (and_iff_right hst) rfl rfl)

/-! ## Images (14 R428, R429) -/

/-- A partition's image is written where it is left to write, has come to rest, and the storage that it takes is free. -/
theorem partitionImageWritten_runs {s : State} {part ctx : Nat} {c : Ctx} {p : Preempt} (hh : holderOf s part = some ctx)
    (hc : ctxOf s ctx = some c) (hp : c.preempt = some p) : exec (.partitionImageWritten part) s = .next (
      if part ∈ p.left ∧ partQuiet s ctx part p = true ∧ ¬ (toShadow c.desc.pmask part = true ∧ shadowUsed s part = true) then
        updCtx (savePart s ctx part (if toShadow c.desc.pmask part then .shadow else .frames)) ctx (fun c =>
          { c with pre := c.pre.map (fun q => { q with left := q.left.filter (fun x => x != part) }) })
      else s) := by
  rw [exec_partitionImageWritten, execPartitionImageWritten, hh]
  dsimp only
  rw [hc]
  dsimp only
  rw [hp]
  dsimp only
  rw [← apply_ite Host.Outcome.next, ← ite_not]
  refine congrArg Host.Outcome.next (if_congr ?_ rfl rfl)
  simp [not_or]

/-- Every image stays or moves in its place. -/
theorem imageMove_moves (s : State) (part : Nat) : Ends (.imageMove part) s (fun t => ∃ l, t = { s with images := l } ∧
    l.length = s.images.length ∧ ∀ (k : Nat) (i : Nat × Image), s.images[k]? = some i →
      let moved := i.1 / 4096 = part ∧ i.2.loc = .shadow ∧ shadowWanted s (part / 4) i.2.ctx = true
      (moved → l[k]? = some (i.1, { i.2 with loc := .frames })) ∧ (¬ moved → l[k]? = some i)) := by
  refine ⟨_, exec_imageMove part s, _, rfl, List.length_map .., fun k i hk => ⟨fun hm => ?_, fun hm => ?_⟩⟩
  · rw [List.getElem?_map, hk]
    exact congrArg some (if_pos hm)
  · rw [List.getElem?_map, hk]
    exact congrArg some (if_neg hm)

/-! ## Boot and service (14 R440, R441) -/

theorem firmwareFaultRestart_runs (s : State) (core slot : Nat) :
    let uids := ((allWarps s).filter (fun q => q.2.2.firmware)).map (fun q => q.2.2.uid)
    let t := startFirmware { s with txs := s.txs.filter (fun t => !uids.contains t.2.uid) }
    exec (.firmwareFaultRestart core slot) s =
      .next (if (warpOf s core slot).firmware = false ∨ (warpOf s core slot).st ≠ .held then s
        else t.ctxs.foldl (fun s c => if c.2.st = .destroyed then s else postEvent s c.1 (mkRec [(0, 0x16), (1, 2)])) t) := by
  rw [exec_firmwareFaultRestart, execFirmwareFaultRestart]
  simp only [Bool.not_eq_true', ← apply_ite Host.Outcome.next]

theorem fullService_runs (s : State) : exec .fullService s = .next (if s.status.firmware = false then s
    else { s with status := { s.status with
      stackMask := 0xFF, elec := if s.dev.isSome then 2 else s.status.elec, optics := true, matrix := true, fullclk := true } }) := by
  rw [exec_fullService, execFullService]
  simp only [Bool.not_eq_true', ← apply_ite Host.Outcome.next]

/-- Settles O49: each event tests whether it is due, and then makes its one change. -/
theorem contextEventsAct : Obligations.ContextEventsAct := by
  refine fun s => ⟨fun n => ⟨heldRecordWrite_none, fun p hn => ⟨fun ho => ⟨fun t ht => ?_, fun ht => ?_⟩, heldRecordWrite_younger hn⟩⟩,
    fun pa => exec_uncorrectableMemoryError pa s, exec_residencyDecision s,
    fun ctx p hp => ⟨fun hf hd hl => ?_, fun hn => ?_, ⟨fun hf hd hr => ?_, fun hn => ?_⟩, fun hl => ?_, fun hl => ?_⟩,
    fun ctx c r hc hst hr => ⟨fun hf => ?_, fun hf => ?_⟩,
    fun part ctx c p hh hc hp => ⟨fun hm => ?_, fun hm => ?_⟩, imageMove_moves s, fun ok => exec_deviceReset ok s,
    fun core slot => ⟨fun hf hst => ?_, fun hn => ?_⟩, fun hf => ?_, fun hf => ?_⟩
  · rw [heldRecordWrite_oldest hn ho, ht, Option.getD_some]
  · rw [heldRecordWrite_oldest hn ho, ht, Option.getD_none]
  · rw [gracelimExpiry_runs hp, if_pos ⟨hf, hd, hl⟩]
  · rw [gracelimExpiry_runs hp, if_neg]
    rintro ⟨hf, hd, hl⟩
    simp [hf, hd, Nat.not_lt.mpr hl] at hn
  · rw [gracefulSave_runs hp, if_pos ⟨hf, hd, hr⟩]
  · rw [gracefulSave_runs hp, if_neg]
    rintro ⟨hf, hd, hr⟩
    simp [hf, hd, hr] at hn
  · rw [swapComplete_out hp, if_pos hl]
  · rw [swapComplete_out hp, if_neg hl]
  · rw [swapComplete_in hc hst hr, if_pos hf]
  · rw [swapComplete_in hc hst hr, if_neg (by rw [hf]; decide)]
  · rw [partitionImageWritten_runs hh hc hp, if_pos hm]
  · rw [partitionImageWritten_runs hh hc hp, if_neg hm]
  · exact (firmwareFaultRestart_runs s core slot).trans (congrArg Host.Outcome.next (if_neg (by simp [hf, hst])))
  · exact (firmwareFaultRestart_runs s core slot).trans (congrArg Host.Outcome.next (if_pos hn))
  · rw [fullService_runs, if_pos hf]
  · rw [fullService_runs, if_neg (by rw [hf]; decide)]

end Sys2Proof.Claims
end

section
/-! PROOFS. What firmware answers to the requests of its mailbox (13 R400, R412-R414, 14 R416-R442, 15 R448, R468). -/

namespace Sys2Proof.Claims

open Sys2Proof.Machine

section

variable {e : Instr} {s : State}

/-! ## Requests and answers (14 R442) -/

theorem asks_mailbox {f : State → Option (State × List Byte)} (he : exec e s = mailbox f s) : Asks e s (f s) := by
  refine ⟨fun hf => he.trans (if_pos (by rw [hf]; rfl)), fun hf => ⟨fun t bs ht => ?_, fun hn => ?_⟩⟩
  · rw [he, mailbox, if_neg (by rw [hf]; decide), ht]
  · rw [he, mailbox, if_neg (by rw [hf]; decide), hn]

variable {f : State → Option State} (he : exec e s = request f s)
include he

theorem asks_request : Asks e s ((f s).map (fun t => (t, []))) := asks_mailbox he

theorem asks_refused (h : f s = none) : Asks e s none := by
  have ha := asks_request he
  rwa [h] at ha

theorem asks_done {t : State} (h : f s = some t) : Asks e s (some (t, [])) := by
  have ha := asks_request he
  rwa [h] at ha

/-- A request that is done under a condition. -/
theorem asks_if {t : State} {p : Prop} [Decidable p] (h : f s = if p then some t else none) :
    Asks e s (if p then some (t, []) else none) := by
  split
  · next hp => exact asks_done he (h.trans (if_pos hp))
  · next hp => exact asks_refused he (h.trans (if_neg hp))

/-- A request that is refused under a condition. -/
theorem asks_unless {t : State} {p : Prop} [Decidable p] (h : f s = if p then none else some t) :
    Asks e s (if p then none else some (t, [])) := by
  split
  · next hp => exact asks_refused he (h.trans (if_pos hp))
  · next hp => exact asks_done he (h.trans (if_neg hp))

end

theorem answers_mailboxStat {e : Instr} {s : State} {f : State → Nat × State} {r : Nat × State} (he : exec e s = mailboxStat f s)
    (h : f s = r) : Answers e s r :=
  ⟨fun hf => he.trans (if_pos (by rw [hf]; rfl)), fun hf => (he.trans (if_neg (by rw [hf]; decide))).trans (by rw [h])⟩

/-! ## Contexts (14 R418, R427, R432, R434, R439, R440) -/

section

variable {s : State} {ctx : Nat}

theorem ctxCreate_asks (d : CtxDesc) : Asks (.ctxCreate d) s
    (if descOk d = true ∧ idFree s d.id = true ∧ keysTaken s d.id d.keys = false then some (createCtx s d, []) else none) :=
  asks_if (exec_ctxCreate d s) (if_congr (by rw [Bool.not_eq_true']) rfl rfl)

/-! ### A context that does not live -/

section

variable (hl : liveCtx s ctx = none)
include hl

theorem ctxBind_dead (m : Nat) (un : Bool) : Answers (.ctxBind ctx m un) s (1, s) :=
  answers_mailboxStat (exec_ctxBind ctx m un s) (if_neg (by rw [hl]; decide))

theorem ctxDestroy_dead : Asks (.ctxDestroy ctx) s none := asks_refused (exec_ctxDestroy ctx s) (by rw [hl]; rfl)

theorem ctxPreempt_dead (f : Bool) : Asks (.ctxPreempt ctx f) s none := asks_refused (exec_ctxPreempt ctx f s) (by rw [hl]; rfl)

theorem ctxRestore_dead : Answers (.ctxRestore ctx) s (1, s) := answers_mailboxStat (exec_ctxRestore ctx s) (by rw [hl])

theorem grant_dead (w : GrantWhat) : Asks (.grant ctx w) s none := asks_refused (exec_grant ctx w s) (by rw [hl]; rfl)

theorem attest_dead (n : BitVec 384) : Asks (.attest ctx n) s none := by
  have ha := asks_mailbox (exec_attest ctx n s)
  rwa [hl] at ha

theorem ctxResume_dead : Asks (.ctxResume ctx) s none := asks_refused (exec_ctxResume ctx s) (by rw [hl]; rfl)

end

/-! ### A context that lives -/

section

variable {c : Ctx} (hl : liveCtx s ctx = some c)
include hl

theorem ctxBind_live (m : Nat) (un : Bool) : Answers (.ctxBind ctx m un) s (bindMask s ctx m un) :=
  answers_mailboxStat (exec_ctxBind ctx m un s) (if_pos (by rw [hl]; rfl))

theorem ctxDestroy_live : Asks (.ctxDestroy ctx) s (some (destroyCtx s ctx c, [])) :=
  asks_done (exec_ctxDestroy ctx s) (by rw [hl]; rfl)

theorem ctxPreempt_resident (hst : c.st = .resident ∨ c.st = .running) (f : Bool) :
    Asks (.ctxPreempt ctx f) s (some (preemptStart s ctx f none, [])) := by
  refine asks_done (exec_ctxPreempt ctx f s) ?_
  rw [hl]
  exact if_pos hst

/-- A pre-emption under way cannot be asked for again, but made forced, which changes nothing where it is so or has drained. -/
theorem ctxPreempt_preempting (hst : c.st = .preempting) :
    Asks (.ctxPreempt ctx false) s none ∧
    (∀ p, c.pre = some p → p.forced = false → p.drained = false → Asks (.ctxPreempt ctx true) s (some (forceStop s ctx, []))) ∧
    (∀ p, c.pre = some p → p.forced = true ∨ p.drained = true → Asks (.ctxPreempt ctx true) s (some (s, []))) := by
  have hnot : ¬ (c.st = .resident ∨ c.st = .running) := by rw [hst]; decide
  refine ⟨asks_refused (exec_ctxPreempt ctx false s) ?_, fun p hp hf hd => asks_done (exec_ctxPreempt ctx true s) ?_,
    fun p hp hn => asks_done (exec_ctxPreempt ctx true s) ?_⟩ <;> rw [hl] <;> refine (if_neg hnot).trans ?_
  · exact if_neg (by simp)
  · refine (if_pos ⟨hst, rfl⟩).trans (congrArg some ?_)
    rw [hp]
    exact if_neg (by simp [hf, hd])
  · refine (if_pos ⟨hst, rfl⟩).trans (congrArg some ?_)
    rw [hp]
    exact if_pos (by simpa using hn)

theorem ctxRestore_live :
    (c.st ≠ .swapped → Answers (.ctxRestore ctx) s (2, s)) ∧
    (c.st = .swapped → c.restoring ≠ none → Answers (.ctxRestore ctx) s (1, s)) ∧
    (c.st = .swapped → c.restoring = none → Answers (.ctxRestore ctx) s
      (0, updCtx s ctx (fun c => { c with restoring := some (partsOf c.desc.pmask, none) }))) := by
  refine ⟨fun hst => answers_mailboxStat (exec_ctxRestore ctx s) ?_, fun hst hr => answers_mailboxStat (exec_ctxRestore ctx s) ?_,
    fun hst hr => answers_mailboxStat (exec_ctxRestore ctx s) ?_⟩ <;> rw [hl]
  · exact if_pos hst
  · exact (if_neg (not_not_intro hst)).trans (if_pos (Option.isSome_iff_ne_none.mpr hr))
  · exact (if_neg (not_not_intro hst)).trans (if_neg (by rw [hr]; decide))

/-! ### Grants (14 R420) -/

theorem grant_keys (m : W64) : Asks (.grant ctx (.keys m)) s (if keysTaken s ctx m then none
    else some (updCtx s ctx (fun c => { c with desc := { c.desc with keys := c.desc.keys ||| m } }), [])) :=
  asks_unless (exec_grant ctx (.keys m) s) (by rw [hl]; rfl)

omit hl in
/-- Numbers that are in range and that no other context holds are granted. -/
theorem grantNums_free {bound : Nat} {ns : List Nat} {held : Ctx → List Nat} {put : Ctx → List Nat → Ctx}
    (h : ∀ n ∈ ns, n < bound ∧ ∀ x ∈ s.ctxs, x.1 ≠ ctx → n ∉ held x.2) :
    grantNums s ctx bound ns held put = some (updCtx s ctx (fun c => put c ((held c ++ ns).eraseDups))) := by
  refine if_pos (List.all_eq_true.mpr fun n hn => ?_)
  obtain ⟨hlt, hfree⟩ := h n hn
  simp only [Bool.and_eq_true, decide_eq_true_eq, List.all_eq_true, Bool.or_eq_true, beq_iff_eq, Bool.not_eq_true', List.contains_eq_mem,
    decide_eq_false_iff_not]
  exact ⟨hlt, fun x hx => or_iff_not_imp_left.mpr (hfree x hx)⟩

theorem grant_numbers (ns : List Nat) :
    let free := fun (bound : Nat) (held : Ctx → List Nat) => ∀ n ∈ ns, n < bound ∧ ∀ x ∈ s.ctxs, x.1 ≠ ctx → n ∉ held x.2
    (free 256 Ctx.buckets → Asks (.grant ctx (.buckets ns)) s
      (some (updCtx s ctx (fun c => { c with buckets := (c.buckets ++ ns).eraseDups }), []))) ∧
    (free 64 Ctx.buckles → Asks (.grant ctx (.buckles ns)) s
      (some (updCtx s ctx (fun c => { c with buckles := (c.buckles ++ ns).eraseDups }), []))) ∧
    (free 4096 Ctx.slots → Asks (.grant ctx (.slots ns)) s
      (some (updCtx s ctx (fun c => { c with slots := (c.slots ++ ns).eraseDups }), []))) := by
  refine ⟨fun h => asks_done (exec_grant ctx _ s) ?_, fun h => asks_done (exec_grant ctx _ s) ?_,
    fun h => asks_done (exec_grant ctx _ s) ?_⟩ <;> rw [hl]
  · exact grantNums_free (put := fun c l => { c with buckets := l }) h
  · exact grantNums_free (put := fun c l => { c with buckles := l }) h
  · exact grantNums_free (put := fun c l => { c with slots := l }) h

theorem grant_frames (ns : List Nat) :
    Asks (.grant ctx (.frames ns)) s ((grantFrames s ctx ns).map (fun t => (t, []))) ∧
    Asks (.grant ctx (.sharedFrames ns)) s ((grantFrames s 0xFFFF ns).map (fun t => (t, []))) := by
  have ha := asks_request (exec_grant ctx (.frames ns) s)
  have hs := asks_request (exec_grant ctx (.sharedFrames ns) s)
  rw [hl] at ha hs
  exact ⟨ha, hs⟩

theorem attest_live (n : BitVec 384) :
    Asks (.attest ctx n) s (some (s, report c n ++ toBytes 96 (Config.sign (report c n)).toNat)) := by
  have ha := asks_mailbox (exec_attest ctx n s)
  rwa [hl] at ha

theorem ctxResume_live : Asks (.ctxResume ctx) s (if c.st = .faulted then some (resumeCtx s ctx, []) else none) :=
  asks_if (exec_ctxResume ctx s) (by rw [hl]; rfl)

end

end

/-! ## Keys, queues and records (13 R400, R412-R414, 14 R419, R426) -/

section

variable {s : State} {q : Nat}

theorem queueBind_asks (d : QueueDesc) : Asks (.queueBind q d) s
    (if q < 4096 ∧ mget s.queues q = none ∧ queueDescOk d = true ∧ (liveCtx s d.context).isSome = true then
      some ({ s with queues := mset s.queues q (newQueue s d) }, []) else none) :=
  asks_if (exec_queueBind q d s) (if_congr (by rw [Option.isNone_iff_eq_none]) rfl rfl)

theorem queue_unbound (hq : mget s.queues q = none) : Asks (.queueDestroy q) s none ∧ Asks (.queueResume q) s none :=
  ⟨asks_refused (exec_queueDestroy q s) (by rw [hq]; rfl), asks_refused (exec_queueResume q s) (by rw [hq]; rfl)⟩

theorem queue_bound {x : Queue} (hq : mget s.queues q = some x) :
    Asks (.queueDestroy q) s (if x.st = .draining ∨ x.st = .destroyed then none
      else some (queueDrain (updQueue s q (fun x => { x with st := .draining })) (some q), [])) ∧
    Asks (.queueResume q) s (if x.st = .error then
      some (updQueue s q (fun x => { x with
        st := if x.head < x.tail then .active else .idle, overflow := false, deficit := 0 }), []) else none) :=
  ⟨asks_unless (exec_queueDestroy q s) (by rw [hq]; rfl), asks_if (exec_queueResume q s) (by rw [hq]; rfl)⟩

end

/-! ## Handles (15 R448) -/

section

variable {s : State} {ctx h map : Nat}

theorem handleBind_outside (hh : h = 0 ∨ 65536 ≤ h) (un : Bool) : Asks (.handleBind ctx h un map) s none :=
  asks_refused (exec_handleBind ctx h un map s) (if_pos hh)

variable (h0 : 0 < h) (h1 : h < 65536)
include h0 h1

/-- A handle that is bound for a context names its sources, as the host's map gives them. -/
theorem handleBind_free (hn : mget s.handles h = none) :
    Asks (.handleBind ctx h true map) s none ∧
    Asks (.handleBind ctx h false map) s (if (liveCtx s ctx).isSome then
      (hostMap s map).map (fun src => ({ s with handles := mset s.handles h ⟨ctx, src⟩ }, [])) else none) := by
  have hb := asks_request (exec_handleBind ctx h false map s)
  refine ⟨asks_refused (exec_handleBind ctx h true map s) ?_, ?_⟩
  · refine (if_neg (by omega)).trans ((if_pos rfl).trans ?_)
    rw [hn]
    rfl
  · rw [if_neg (by omega), if_neg Bool.false_ne_true, hn] at hb
    cases hl : liveCtx s ctx with
    | none => rwa [hl] at hb
    | some c => rw [hl] at hb; cases hm : hostMap s map <;> rwa [hm] at hb

theorem handleBind_taken {k : Handle} (hn : mget s.handles h = some k) :
    Asks (.handleBind ctx h true map) s (if k.ctx = ctx then some ({ s with handles := mdel s.handles h }, []) else none) ∧
    Asks (.handleBind ctx h false map) s (if (liveCtx s ctx).isSome ∧ k.ctx = ctx then
      (hostMap s map).map (fun src => ({ s with handles := mset s.handles h ⟨ctx, src⟩ }, [])) else none) := by
  have hb := asks_request (exec_handleBind ctx h false map s)
  refine ⟨asks_if (exec_handleBind ctx h true map s) ?_, ?_⟩
  · refine (if_neg (by omega)).trans ((if_pos rfl).trans ?_)
    rw [hn]
    rfl
  · rw [if_neg (by omega), if_neg Bool.false_ne_true, hn] at hb
    cases hl : liveCtx s ctx with
    | none => rwa [hl] at hb
    | some c => rw [hl] at hb; cases hm : hostMap s map <;> by_cases hc : k.ctx = ctx <;> simpa [hm, hc] using hb

end

/-! ## The mailbox as the host writes it (14 R442) -/

section

variable (s : State)

theorem barRegisterWrite_request {k : Nat} (v : W64) (hk : k < 8) : exec (.barRegisterWrite (0xC0000 + 8 * k) v) s =
    .next { s with mailboxReq := s.mailboxReq.take (8 * k) ++ toBytes 8 v.toNat ++ s.mailboxReq.drop (8 * k + 8) } := by
  refine (exec_barRegisterWrite _ v s).trans ((if_pos (by omega)).trans ?_)
  rw [Nat.add_sub_cancel_left]

theorem barRegisterWrite_doorbell : exec (.barRegisterWrite 0xC0040 1) s = doorbell s := by
  rw [exec_barRegisterWrite, execBarRegisterWrite, if_neg (by decide), if_pos rfl, if_pos rfl]

/-- The doorbell starts the request whose code stands in the mailbox. -/
theorem doorbell_rings :
    let b := s.mailboxReq
    (fld b 0 1 = 0x0E → doorbell s = exec (.handleBind (fld b 2 2) (fld b 4 2) (bit (fld b 6 1) 0) (fld b 8 8)) s) ∧
    (fld b 0 1 = 0x0F → doorbell s = exec (.fmSources (fld b 8 8)) s) ∧
    (fld b 0 1 = 0x10 → doorbell s = exec (.energyCoef ((List.range 9).map (fun i => BitVec.ofNat 32 (fld b (8 + 4 * i) 4)))) s) := by
  refine ⟨fun h => ?_, fun h => ?_, fun h => ?_⟩ <;> rw [doorbell, h] <;> rfl

end

/-- Settles O48: each request is refused or done by what its context, queue or handle is. -/
theorem mailboxEventsAnswer : Obligations.MailboxEventsAnswer := by
  refine fun s => ⟨ctxCreate_asks, fun ctx c m un hl => ctxBind_live hl m un, fun ctx m un hl => ⟨ctxBind_dead hl m un, ctxDestroy_dead hl,
    ctxPreempt_dead hl, ctxRestore_dead hl, grant_dead hl, attest_dead hl, ctxResume_dead hl⟩, fun ctx c hl => ?_,
    fun id key => asks_if (exec_keyLoad id key s) rfl, fun q d => queueBind_asks d, fun q => queue_unbound, fun q x => queue_bound,
    fun ctx n a => asks_request (exec_recordClose ctx n a s), fun ctx h map => handleBind_outside,
    fun ctx h map h0 h1 => ⟨handleBind_free h0 h1, fun k => handleBind_taken h0 h1⟩, fun map => ?_,
    fun k v => barRegisterWrite_request s v, ?_, fun cs => asks_done (exec_energyCoef cs s) rfl⟩
  · obtain ⟨hswap, hresume, hdone⟩ := ctxRestore_live hl
    refine ⟨ctxDestroy_live hl, ctxPreempt_resident hl, ctxPreempt_preempting hl, hswap, hresume, hdone, grant_keys hl,
      fun ns => ?_, attest_live hl, ctxResume_live hl⟩
    obtain ⟨hbuckets, hbuckles, hslots⟩ := grant_numbers hl ns
    exact ⟨hbuckets, hbuckles, hslots, grant_frames hl ns⟩
  · have ha := asks_request (exec_fmSources map s)
    rwa [Option.map_map] at ha
  · rw [barRegisterWrite_doorbell]
    exact doorbell_rings s

end Sys2Proof.Claims
end

section
/-! PROOFS. Lanes, request packets and their answers, and the starts and waits of scripts (15 R444-R451, R455, R468, 16 R478-R485). -/

namespace Sys2Proof.Claims

open Sys2Proof.Machine

/-! ## Lanes (15 R444, R446) -/

section

variable {s : State} {lane port : Nat}

theorem laneTrained_other (hp : s.dev.getD port ≠ port) :
    exec (.laneTrained lane port) s = .next (linkEvent s 8 (0x80 + lane) 0 0 0 0 0 0) :=
  (exec_laneTrained lane port s).trans (if_pos hp)

theorem laneTrained_again (hp : s.dev.getD port = port) (hl : lane ∈ s.lanes) : exec (.laneTrained lane port) s = .next s :=
  (exec_laneTrained lane port s).trans ((if_neg (not_not_intro hp)).trans (if_pos (by simpa using hl)))

/-- A lane that trains joins the live ones; the first of them sends what waits for a lane. -/
theorem laneTrained_joins (hp : s.dev.getD port = port) (hl : lane ∉ s.lanes) :
    let t : State := { s with dev := some port, lanes := insertAsc lane s.lanes,
                              status := { s.status with elec := if s.status.fullclk then 2 else 1 } }
    let kept := s.sentPkts.filter (fun p => p.lane == 16)
    exec (.laneTrained lane port) s = .next (linkEvent (if s.lanes = [] then
      kept.foldl sendAgain { t with sentPkts := s.sentPkts.filter (fun p => p.lane != 16) } else t) 9 (0x80 + lane) 0 0 0 0 0 0) := by
  refine (exec_laneTrained lane port s).trans ((if_neg (not_not_intro hp)).trans ((if_neg (by simpa using hl)).trans ?_))
  dsimp only
  simp only [List.isEmpty_iff]

theorem laneDown_other (hl : lane ∉ s.lanes) : exec (.laneDown lane) s = .next s :=
  (exec_laneDown lane s).trans (if_pos (by simpa using hl))

/-- A lane that goes down gives back what its switch has not acknowledged: all but some number of the oldest. -/
theorem laneDown_leaves (hl : lane ∈ s.lanes) :
    let sent := s.sentPkts.filter (fun p => p.lane == lane)
    let left := s.lanes.filter (fun l => l != lane)
    let t : State := { s with lanes := left, sentPkts := s.sentPkts.filter (fun p => p.lane != lane),
                              status := { s.status with elec := if left.isEmpty then 0 else s.status.elec } }
    ∃ k f, k ≤ sent.length ∧ exec (.laneDown lane) s =
      .next (linkEvent ((sent.drop k).foldl sendAgain { t with freeCtr := f }) 8 (0x80 + lane) 0 0 0 0 (sent.length - k) 0) := by
  let n := (s.sentPkts.filter (fun p => p.lane == lane)).length + 1
  refine ⟨(choose s n).1, (choose s n).2.freeCtr, Nat.le_of_lt_succ (choose_lt s (Nat.succ_pos _)), ?_⟩
  refine (exec_laneDown lane s).trans ((if_neg (by simpa using hl)).trans ?_)
  dsimp only
  rw [choose_only s (_ + 1)]

end

/-! ## Request packets (15 R447-R449, R455, 16 R484) -/

section

variable (s : State) (h : PktHdr)

theorem rldPacket_serves (mask : BitVec 256) : ∃ p, Serves (.rldPacket h mask) s 5 h p ∧ ∀ u,
    (handleCtx u h.source h.handle = none → p u = ((1, []), u)) ∧
    (∀ ctx, handleCtx u h.source h.handle = some ctx →
      (∀ e v, remoteXlat u ctx h.line .read = (.error e, v) → p u = ((e, []), v)) ∧
      (∀ x v, remoteXlat u ctx h.line .read = (.ok x, v) →
        let r := remoteRead v x.key (resolve v ctx x false) 256
        p u = ((0, ((r.1.mapIdx (fun i b => (i, b))).filter (fun q => mask.getLsbD q.1)).map (·.2)), r.2))) := by
  refine ⟨_, exec_rldPacket h mask s, fun u => ⟨fun hn => ?_, fun ctx hc => ⟨fun e v hx => ?_, fun x v hx => ?_⟩⟩⟩
  · simp only [hn]
  · simp only [hc, hx]
  · simp only [hc, hx]

theorem rstPacket_serves (mask : BitVec 256) (image : List Byte) : ∃ p, Serves (.rstPacket h mask image) s 6 h p ∧ ∀ u,
    (handleCtx u h.source h.handle = none → p u = ((1, []), u)) ∧
    (∀ ctx, handleCtx u h.source h.handle = some ctx →
      (bit h.op 3 = true → ∀ st v, chunkWrite u ctx h.source (fld image 256 4) h.line (bit h.op 4) (maskedBytes mask image) = (st, v) →
        p u = ((st, []), v)) ∧
      (bit h.op 3 = false → (∀ v, packetStores u ctx h mask image = (.ok (), v) → p u = ((0, []), v)) ∧
        (∀ e v, packetStores u ctx h mask image = (.error e, v) → p u = ((e, []), v)))) := by
  refine ⟨_, exec_rstPacket h mask image s, fun u => ⟨fun hn => ?_, fun ctx hc => ⟨fun hb st v hx => ?_,
    fun hb => ⟨fun v hx => ?_, fun e v hx => ?_⟩⟩⟩⟩
  · simp only [hn]
  · simp only [hc, hb, hx, if_true]
  · simp only [hc, hb, hx, Bool.false_eq_true, if_false]
  · simp only [hc, hb, hx, Bool.false_eq_true, if_false]

theorem rstfPacket_serves (mask : BitVec 256) (image : List Byte) (flag : Nat) : ∃ p, Serves (.rstfPacket h mask image flag) s 6 h p ∧ ∀ u,
    (handleCtx u h.source h.handle = none → p u = ((1, []), u)) ∧
    (∀ ctx, handleCtx u h.source h.handle = some ctx →
      (∀ e v, remoteXlat u ctx flag .rmw = (.error e, v) → p u = ((e, []), v)) ∧
      (∀ x v, remoteXlat u ctx flag .rmw = (.ok x, v) →
        (∀ e w, packetStores v ctx h mask image = (.error e, w) → p u = ((e, []), w)) ∧
        (∀ w, packetStores v ctx h mask image = (.ok (), w) → p u = ((0, []), remoteIncr w ctx x)))) := by
  refine ⟨_, exec_rstfPacket h mask image flag s, fun u => ⟨fun hn => ?_, fun ctx hc => ⟨fun e v hx => ?_,
    fun x v hx => ⟨fun e w hp => ?_, fun w hp => ?_⟩⟩⟩⟩
  · simp only [hn]
  · simp only [hc, hx]
  · simp only [hc, hx, hp]
  · simp only [hc, hx, hp]

theorem ratomPacket_serves (lanes : List AtomLane) {op : AtomOp} (ho : atomOfCode (h.op % 16) = some op) :
    ∃ p, Serves (.ratomPacket h lanes) s 5 h p ∧ ∀ u,
      (handleCtx u h.source h.handle = none → p u = ((1, []), u)) ∧
      (∀ ctx, handleCtx u h.source h.handle = some ctx →
        (∀ e v, remoteXlat u ctx h.line .rmw = (.error e, v) → p u = ((e, []), v)) ∧
        (∀ x v, remoteXlat u ctx h.line .rmw = (.ok x, v) →
          let r := lanes.foldl (ratomLane ctx x op (bit h.op 5) (bit h.op 4)) ([], v)
          p u = ((0, r.1), r.2))) := by
  have he := exec_ratomPacket h lanes s
  rw [execRatomPacket, ho] at he
  refine ⟨_, he, fun u => ⟨fun hn => ?_, fun ctx hc => ⟨fun e v hx => ?_, fun x v hx => ?_⟩⟩⟩
  · simp only [hn]
  · simp only [hc, hx]
  · simp only [hc, hx]

theorem ratomPacket_unknown (lanes : List AtomLane) (ho : atomOfCode (h.op % 16) = none) : exec (.ratomPacket h lanes) s = .next s := by
  rw [exec_ratomPacket, execRatomPacket, ho]

theorem cratchMsg_serves (box : Nat) (v : W64) : ∃ p, Serves (.cratchMsg h box v) s 6 h p ∧ ∀ u,
    (handleCtx u h.source h.handle = none → p u = ((1, []), u)) ∧
    (∀ ctx, handleCtx u h.source h.handle = some ctx →
      (∀ w, mailPut u ctx box v = some w → p u = ((0, []), w)) ∧ (mailPut u ctx box v = none → p u = ((2, []), u))) := by
  refine ⟨_, exec_cratchMsg h box v s, fun u => ⟨fun hn => ?_, fun ctx hc => ⟨fun w hm => ?_, fun hm => ?_⟩⟩⟩
  · simp only [hn]
  · simp only [hc, hm]
  · simp only [hc, hm]

/-- The fabric manager's messages are served as every request; those of other sources are not. -/
theorem management_served (port off : Nat) (v : W64) :
    let mine := s.fmSources.getLsbD h.source = true
    let a := 0x100000 + 0x200 * port + off / 8 * 8
    (¬ mine → exec (.managementRead h port off) s = .next s ∧ exec (.managementWrite h off v) s = .next s) ∧
    (mine → Serves (.managementRead h port off) s 5 h (fun u => ((0, toBytes 8 (linkReg u a)), u)) ∧
      Serves (.managementWrite h off v) s 6 h (fun u => ((0, []), if off = 0x122010 then { u with linkHeadFm := v } else u))) := by
  refine ⟨fun hm => ?_, fun hm => ?_⟩
  · have hn : (!s.fmSources.getLsbD h.source) = true := by simpa using hm
    exact ⟨(exec_managementRead h port off s).trans (if_pos hn), (exec_managementWrite h off v s).trans (if_pos hn)⟩
  · have hn : ¬ (!s.fmSources.getLsbD h.source) = true := by simpa using hm
    exact ⟨(exec_managementRead h port off s).trans (if_neg hn), (exec_managementWrite h off v s).trans (if_neg hn)⟩

end

/-! ## Answers and time-outs (15 R451) -/

section

variable {s : State} {h : PktHdr} {bytes : List Byte} {results : List W64}

/-- An answer that comes late finds no request. -/
theorem answers_late (hr : findReq s h.source h.tag = none) :
    exec (.remoteResponse h bytes results) s = .next s ∧ exec (.remoteAcknowledgement h) s = .next s := by
  rw [exec_remoteResponse, execRemoteResponse, exec_remoteAcknowledgement, execRemoteAcknowledgement, hr]
  exact ⟨rfl, rfl⟩

variable {r : Req} (hr : findReq s h.source h.tag = some r)
include hr

theorem remoteResponse_ends {tx : Nat} {lanes : List (Nat × Nat)} (ho : r.owner = .word tx lanes) :
    (r.type = 1 → exec (.remoteResponse h bytes results) s =
      .next (reqEnd s r h.status (rldVals (txSize s tx) (ofBytes r.payload) lanes bytes))) ∧
    (r.type = 4 → exec (.remoteResponse h bytes results) s = .next (reqEnd s r h.status ((lanes.map (fun l => l.1)).zip results))) := by
  rw [exec_remoteResponse, execRemoteResponse, hr]
  dsimp only
  rw [ho]
  exact ⟨fun ht => if_pos ht, fun ht => (if_neg (by omega)).trans (if_pos ht)⟩

theorem remoteAcknowledgement_ends :
    (r.type = 1 ∨ r.type = 4 → exec (.remoteAcknowledgement h) s = .next s) ∧
    (r.type ≠ 1 → r.type ≠ 4 → exec (.remoteAcknowledgement h) s = .next (reqEnd s r h.status [])) := by
  rw [exec_remoteAcknowledgement, execRemoteAcknowledgement, hr]
  exact ⟨fun ht => if_pos ht, fun h1 h4 => if_neg (not_or_intro h1 h4)⟩

end

theorem remoteTimeout_ends {s : State} {target tag : Nat} {r : Req} (hr : findReq s target tag = some r) :
    (s.ns < r.sent + 1000000 → exec (.remoteTimeout target tag) s = .next s) ∧
    (r.sent + 1000000 ≤ s.ns → exec (.remoteTimeout target tag) s = .next (reqEnd s r 255 [])) := by
  rw [exec_remoteTimeout, execRemoteTimeout, hr]
  exact ⟨fun ht => if_pos ht, fun ht => if_neg (Nat.not_lt.mpr ht)⟩

/-! ## Scripts (16 R478, R481) -/

section

variable {s : State}

theorem scriptStart_none (hn : nextScript s = none) : exec .scriptStart s = .next s := by
  rw [exec_scriptStart, execScriptStart, hn]

/-- The next script is read into the first free place, when its words fit and no node readied before it is on its way. -/
theorem scriptStart_starts {q : ScriptQueued} {p : Nat} (hq : nextScript s = some q) (hp : p < 16) (hfree : mget s.scripts p = none)
    (hfirst : ∀ k, k < p → mget s.scripts k ≠ none) :
    let room := s.scripts.foldl (fun n x => n + x.2.words.length) 0 + q.words ≤ 16384 ∧ earlierReady s 5 q.order (fun _ _ => true) = false
    let read := readVa { s with scriptQueue := s.scriptQueue.erase q } devCl q.ctx q.prog (4 * q.words)
    (¬ room → exec .scriptStart s = .next s) ∧
    (room → ∀ va, read.1 = .error va → exec .scriptStart s = .next (agentEndAt read.2 q.ctx q.node false 0xF1 va)) ∧
    (room → ∀ bs, read.1 = .ok bs →
      Ends .scriptStart s (fun t => ∃ x, mget t.scripts p = some x ∧ x.ctx = q.ctx ∧ x.node = q.node ∧
        x.words = (List.range q.words).map (fun i => BitVec.ofNat 32 (fld bs (4 * i) 4)) ∧ x.pc = 0 ∧ x.c = false ∧ x.wait = none)) := by
  intro room read
  have hplace : (List.range 16).find? (fun p => (mget s.scripts p).isNone) = some p :=
    List.find?_range_eq_some.mpr ⟨by rw [hfree]; rfl, List.mem_range.mpr hp,
      fun k hk => by simpa [Option.isSome_iff_ne_none] using hfirst k hk⟩
  have hcond : (16384 < s.scripts.foldl (fun n x => n + x.2.words.length) 0 + q.words ∨
      earlierReady s 5 q.order (fun _ _ => true) = true) ↔ ¬ room := by
    rw [not_and_or, Nat.not_le, Bool.not_eq_false]
  have hread : ∀ {r : Except Nat (List Byte)}, read.1 = r → readVa { s with scriptQueue := s.scriptQueue.erase q } devCl q.ctx q.prog
      (4 * q.words) = (r, read.2) := fun hr => Prod.ext hr rfl
  refine ⟨fun hr => ?_, fun hr va he => ?_, fun hr bs he => ?_⟩
  · rw [exec_scriptStart, execScriptStart, hq]
    dsimp only
    rw [hplace]
    exact if_pos (hcond.mpr hr)
  · rw [exec_scriptStart, execScriptStart, hq]
    dsimp only
    rw [hplace]
    refine (if_neg (fun e => hcond.mp e hr)).trans ?_
    rw [hread he]
  · have hrun := exec_scriptStart s
    rw [execScriptStart, hq] at hrun
    dsimp only at hrun
    rw [hplace] at hrun
    replace hrun := hrun.trans (if_neg (fun e => hcond.mp e hr))
    rw [hread he] at hrun
    exact ⟨_, hrun, _, mget_mset_self .., rfl, rfl, rfl, rfl, rfl, rfl⟩

theorem cratchWaitEnd_ends {place : Nat} {x : Script} {w : ScriptWait} {t0 : Nat} (hx : mget s.scripts place = some x)
    (hw : x.wait = some (w, t0)) :
    (∀ r, scriptTest s place x w t0 = some r → exec (.cratchWaitEnd place) s = .next (finishWait s place x w r)) ∧
    (scriptTest s place x w t0 = none → exec (.cratchWaitEnd place) s = .next s) := by
  rw [exec_cratchWaitEnd, execCratchWaitEnd, hx]
  dsimp only
  rw [hw]
  dsimp only
  exact ⟨fun r hr => by rw [hr], fun hr => by rw [hr]⟩

end

/-- Settles O50: lanes, packets, answers and scripts, each by what the event finds. -/
theorem packetEventsAct : Obligations.PacketEventsAct := fun s =>
  ⟨fun _ _ => ⟨laneTrained_other, laneTrained_again, laneTrained_joins⟩, fun _ => ⟨laneDown_other, laneDown_leaves⟩,
    rldPacket_serves s, rstPacket_serves s, rstfPacket_serves s,
    fun h lanes => ⟨ratomPacket_unknown s h lanes, fun _ => ratomPacket_serves s h lanes⟩, cratchMsg_serves s,
    fun _ _ _ => ⟨answers_late, fun _ hr => ⟨fun _ _ => remoteResponse_ends hr, remoteAcknowledgement_ends hr⟩⟩,
    fun _ _ _ => remoteTimeout_ends, management_served s, scriptStart_none, fun _ _ => scriptStart_starts,
    fun _ _ _ _ => cratchWaitEnd_ends⟩

end Sys2Proof.Claims
end

section
/-! PROOFS. Ports and circuits (15 R457-R466, Table link-6, Table link-8, 16 R472-R476, R501, Table circuit-3). -/

namespace Sys2Proof.Claims

open Sys2Proof.Machine

theorem linked_iff (x : Port) : x.linked = true ↔ x.st = .trained ∨ x.st = .live := by
  simp [Port.linked]

/-! ## Flits (15 R457, R460) -/

section

variable {s : State} {p : Nat} {bs : List Byte}

theorem dataFlit_dark (hd : (portOf (flitOk s p bs).2 p).st = .dark) : exec (.dataFlit p bs) s = .next (flitOk s p bs).2 :=
  (exec_dataFlit p bs s).trans (if_pos hd)

variable (hd : (portOf (flitOk s p bs).2 p).st ≠ .dark)
include hd

theorem dataFlit_bad (hn : (flitOk s p bs).1 = none) : exec (.dataFlit p bs) s = .next (askReplay (flitOk s p bs).2 p) := by
  refine (exec_dataFlit p bs s).trans ((if_neg hd).trans ?_)
  rw [hn]

/-- A flit that is right is taken in sequence order, and asked for again out of it. -/
theorem dataFlit_good {h : Nat} (hh : (flitOk s p bs).1 = some h) :
    let u := if bit h 25 then ackFlits (flitOk s p bs).2 p (bits h 26 12) else (flitOk s p bs).2
    (bits h 60 4 ≠ 1 ∨ bits h 38 12 ≠ (portOf u p).rxSeq % 4096 → exec (.dataFlit p bs) s = .next (askReplay u p)) ∧
    (bits h 60 4 = 1 → bits h 38 12 = (portOf u p).rxSeq % 4096 →
      let v := updPort u p (fun x => { x with
        rxSeq := x.rxSeq + 1, rxBuf := x.rxBuf ++ (bs.drop 8).take 240
        control := x.control.filter (fun c => c.head? != some 1 && c.head? != some 4) })
      exec (.dataFlit p bs) s = .next (sendFlit (framesIn p ((portOf v p).rxBuf.length / 16 + 1) v) p 3 0 [])) := by
  refine ⟨fun hn => ?_, fun ht hq => ?_⟩ <;> refine (exec_dataFlit p bs s).trans ((if_neg hd).trans ?_) <;> rw [hh]
  · exact if_pos hn
  · exact if_neg (not_or_intro (not_not_intro ht) (not_not_intro hq))

end

theorem acknowledgementFlit_good {s u : State} {p h : Nat} {bs : List Byte} (hf : flitOk s p bs = (some h, u)) :
    exec (.acknowledgementFlit p bs) s = .next (if bit h 25 then ackFlits u p (bits h 26 12) else u) := by
  rw [exec_acknowledgementFlit, execAcknowledgementFlit, hf]

theorem acknowledgementFlit_bad {s u : State} {p : Nat} {bs : List Byte} (hf : flitOk s p bs = (none, u)) :
    exec (.acknowledgementFlit p bs) s = .next u := by
  rw [exec_acknowledgementFlit, execAcknowledgementFlit, hf]

/-! ## Replay (15 R460) -/

section

variable (s : State) (p : Nat)

theorem replay_resends (seq : Nat) :
    ((portOf s p).st = .dark → exec (.replay p seq) s = .next s) ∧
    ((portOf s p).st ≠ .dark → exec (.replay p seq) s = .next (resendFlits (ackFlits s p ((seq + 4095) % 4096)) p)) :=
  ⟨fun hd => (exec_replay p seq s).trans (if_pos hd), fun hd => (exec_replay p seq s).trans (if_neg hd)⟩

theorem replayTimeout_resends :
    ((portOf s p).replay ≠ [] → (portOf s p).lastAck + 10000 ≤ s.ns → exec (.replayTimeout p) s = .next (resendFlits s p)) ∧
    ((portOf s p).replay = [] ∨ s.ns < (portOf s p).lastAck + 10000 → exec (.replayTimeout p) s = .next s) := by
  refine ⟨fun hr ht => (exec_replayTimeout p s).trans (if_neg ?_), fun hn => (exec_replayTimeout p s).trans (if_pos ?_)⟩
  · simp [hr, ht]
  · simpa using hn

/-! ## Restripes and the failure of a port (15 R461, R462) -/

theorem port_unlinked (hl : ¬ ((portOf s p).st = .trained ∨ (portOf s p).st = .live)) :
    (∀ tx st seq, exec (.restripe p tx st seq) s = .next s) ∧ (∀ tx, exec (.restripeAck p tx) s = .next s) ∧
      exec (.portFail p) s = .next s := by
  have hn : ¬ (portOf s p).linked = true := mt (linked_iff _).mp hl
  exact ⟨fun tx st seq => (exec_restripe p tx st seq s).trans (if_pos (by simpa using hn)),
    fun tx => (exec_restripeAck p tx s).trans (if_pos (by simpa using hn)), (exec_portFail p s).trans (if_neg hn)⟩

variable {s p} (hl : (portOf s p).st = .trained ∨ (portOf s p).st = .live)
include hl

theorem not_unlinked : ¬ (!(portOf s p).linked) = true := by
  rw [(linked_iff _).mpr hl]
  decide

theorem portFail_linked : exec (.portFail p) s = .next (failPort s p 0) := (exec_portFail p s).trans (if_pos ((linked_iff _).mpr hl))

theorem restripe_rx (st : BitVec 16) (seq : Nat) : exec (.restripe p true st seq) s = .next (sendControl (updPort s p (fun x => { x with
    rx := setWl x.rx (dropBits (stripeOf x.rx) st.toNat) (fun _ => true) .parked })) p [3, 1] false) := by
  refine (exec_restripe p true st seq s).trans ((if_neg (not_unlinked hl)).trans ((if_pos rfl).trans ?_))
  rfl

/-- A stripe that the peer's receiver asks for is adopted, and what is not acknowledged is sent again. -/
theorem restripe_tx (st : BitVec 16) (seq : Nat) :
    let x := portOf s p
    let before := stripeOf x.tx
    let gone := dropBits before st.toNat
    let a := updPort s p (fun x => { x with
      tx := setWl (setWl x.tx gone (fun w => w == .parking) .parked) gone (fun w => w == .lit) .lost, beat := 0 })
    let b := sendControl (ackFlits a p ((seq + 4095) % 4096)) p [3, 0] false
    let c := linkEvent (resendFlits b p) 2 p 0 before (stripeOf (portOf (resendFlits b p) p).tx) seq (portOf b p).replay.length x.peer
    ((portOf c p).pendingTx = [] → exec (.restripe p false st seq) s = .next c) ∧
    (∀ r rest, (portOf c p).pendingTx = r :: rest → exec (.restripe p false st seq) s =
      .next (if wlIn (portOf c p).tx .parking &&& r.waves = 0 then parkDone c p else c)) := by
  intro x before gone a b c
  have hc : c = linkEvent (resendFlits b p) 2 p 0 before (stripeOf (portOf b p).tx) seq (portOf b p).replay.length x.peer := by
    rw [← resendFlits_tx]
  refine ⟨fun hp => ?_, fun r rest hp => ?_⟩ <;> rw [hc] at hp ⊢ <;>
    refine (exec_restripe p false st seq s).trans ((if_neg (not_unlinked hl)).trans ((if_neg Bool.false_ne_true).trans ?_))
  · dsimp only
    rw [hp]
  · dsimp only
    rw [hp]

theorem restripeAck_acts : exec (.restripeAck p true) s = .next (parkDone s p) ∧
    exec (.restripeAck p false) s = .next (startRestripe (updPort s p (fun x => { (x.unrestripe false) with
      pendingRx := x.pendingRx.drop 1 })) p false) :=
  ⟨(exec_restripeAck p true s).trans ((if_neg (not_unlinked hl)).trans (if_pos rfl)),
    (exec_restripeAck p false s).trans ((if_neg (not_unlinked hl)).trans (if_neg Bool.false_ne_true))⟩

end

/-! ## Light and silence (15 R461, R462, 16 R501) -/

section

variable (s : State) (p : Nat)

theorem lossOfLight_acts (lost : BitVec 16) (reverse : Bool) :
    let x := portOf s p
    let up := x.st = .trained ∨ x.st = .live
    let before := stripeOf x.rx
    let gone := before &&& lost.toNat
    let left := dropBits before gone
    let a := updPort s p (fun x => { x with rx := setWl x.rx gone (fun _ => true) .lost })
    let b := linkEvent a 1 p 1 before left (x.rxSeq % 4096) 0 x.peer
    (x.st = .dark ∨ gone = 0 → exec (.lossOfLight p lost reverse) s = .next s) ∧
    (x.st ≠ .dark → gone ≠ 0 →
      (x.closeSeen = true → exec (.lossOfLight p lost reverse) s = .next a) ∧
      (x.closeSeen = false → ¬ up → exec (.lossOfLight p lost reverse) s = .next b) ∧
      (x.closeSeen = false → up → popcount 16 left < 2 ∨ reverse = false →
        exec (.lossOfLight p lost reverse) s = .next (failPort (if reverse then sendControl b p [7] false else b) p 1)) ∧
      (x.closeSeen = false → up → 2 ≤ popcount 16 left → reverse = true →
        exec (.lossOfLight p lost reverse) s = .next (queueRestripe b p false ⟨gone, 0⟩))) := by
  intro x up before gone left a b
  refine ⟨fun hn => (exec_lossOfLight p lost reverse s).trans (if_pos hn), fun hst hg => ⟨fun hc => ?_, fun hc hu => ?_, fun hc hu hf => ?_,
    fun hc hu h2 hr => ?_⟩⟩ <;> refine (exec_lossOfLight p lost reverse s).trans ((if_neg (not_or_intro hst hg)).trans ?_)
  · exact if_pos hc
  · exact (if_neg (by rw [hc]; decide)).trans (if_pos (by simpa using mt (linked_iff x).mp hu))
  · exact (if_neg (by rw [hc]; decide)).trans ((if_neg (not_unlinked hu)).trans (if_pos (by simpa using hf)))
  · refine (if_neg (by rw [hc]; decide)).trans ((if_neg (not_unlinked hu)).trans (if_neg ?_))
    rw [Bool.or_eq_true, decide_eq_true_eq, hr]
    exact not_or_intro (Nat.not_lt.mpr h2) (by decide)

theorem receiveSilence_fails :
    let silent := (portOf s p).st = .live ∧ (portOf s p).lastRx + 20000 ≤ s.ns
    (silent → exec (.receiveSilence p) s = .next (failPort s p 1)) ∧ (¬ silent → exec (.receiveSilence p) s = .next s) :=
  ⟨fun hs => (exec_receiveSilence p s).trans (if_pos hs), fun hs => (exec_receiveSilence p s).trans (if_neg hs)⟩

/-! ## Wakes (15 R463-R465) -/

theorem wakeLock_joins (ch : Nat) (locked : BitVec 4) :
    ((portOf s p).st ≠ .live ∨ locked = 0 → exec (.wakeLock p ch locked) s = .next s) ∧
    ((portOf s p).st = .live → locked ≠ 0 →
      let u := updPort s p (fun x => { x with rx := setWl x.rx (locked.toNat * 2 ^ (4 * ch) % 2 ^ 16) (fun _ => true) .lit })
      exec (.wakeLock p ch locked) s = .next (sendControl u p ([4] ++ toBytes 2 (stripeOf (portOf u p).rx)) true)) :=
  ⟨fun hn => (exec_wakeLock p ch locked s).trans (if_pos hn),
    fun hl h0 => (exec_wakeLock p ch locked s).trans (if_neg (not_or_intro (not_not_intro hl) h0))⟩

theorem wakeTimeout_parks {ch t0 : Nat} (hw : mget (portOf s p).waking ch = some t0) :
    (s.ns < t0 + 50000 → exec (.wakeTimeout p ch) s = .next s) ∧
    (t0 + 50000 ≤ s.ns → exec (.wakeTimeout p ch) s = .next (linkEvent (updPort s p (fun x => { x with
      tx := setWl x.tx (chanMask (2 ^ ch)) (fun w => w == .waking) .parked, waking := mdel x.waking ch }))
      6 p 0 (stripeOf (portOf s p).tx) (stripeOf (portOf s p).tx) 0 0 (portOf s p).peer)) := by
  rw [exec_wakeTimeout, execWakeTimeout]
  dsimp only
  rw [hw]
  exact ⟨fun ht => if_pos ht, fun ht => if_neg (Nat.not_lt.mpr ht)⟩

theorem autoWake_wakes :
    let x := portOf s p
    let due := x.st = .live ∧ x.autowake ≠ 0 ∧ x.autowake ≤ x.txq.length
    (due → exec (.autoWake p) s = .next (wakeChans s p (dropBits 15 x.failedCh))) ∧ (¬ due → exec (.autoWake p) s = .next s) :=
  ⟨fun hd => (exec_autoWake p s).trans (if_pos hd), fun hd => (exec_autoWake p s).trans (if_neg hd)⟩

end

/-! ### WAKE_READY -/

/-- The wavelengths that wake and have locked. -/
def wakeLocked (tx : SMap WlSt) (stripe : Nat) : Nat := wlIn tx .waking &&& stripe

/-- The channels with a wavelength that has locked. -/
def wakeChannels (tx : SMap WlSt) (stripe : Nat) : Nat :=
  maskOf ((List.range 4).filter (fun k => wakeLocked tx stripe &&& chanMask (2 ^ k) != 0))

/-- The wavelengths of those channels that wake and have not locked. -/
def wakeShort (tx : SMap WlSt) (stripe : Nat) : Nat :=
  wlIn tx .waking &&& chanMask (wakeChannels tx stripe) &&& (0xFFFF - wakeLocked tx stripe)

/-- The wavelengths after a WAKE_READY. -/
def wakenTx (tx : SMap WlSt) (stripe : Nat) : SMap WlSt :=
  setWl (setWl tx (wakeLocked tx stripe) (fun _ => true) .lit) (wakeShort tx stripe) (fun _ => true) .parked

section

variable {tx : SMap WlSt} {stripe : Nat}

theorem testBit_wakeLocked (i : Nat) :
    (wakeLocked tx stripe).testBit i = true ↔ i < 16 ∧ mgetD tx i .dark = .waking ∧ bit stripe i = true := by
  rw [wakeLocked, Nat.testBit_and, Bool.and_eq_true, testBit_wlIn, bit_eq_testBit, and_assoc]

theorem wakeLocked_lt : wakeLocked tx stripe < 2 ^ 16 :=
  Nat.lt_pow_two_of_testBit _ fun i hi => Bool.eq_false_iff.mpr fun h => Nat.not_lt.mpr hi ((testBit_wakeLocked i).mp h).1

theorem testBit_wakeChannels (k : Nat) : (wakeChannels tx stripe).testBit k = true ↔
    k < 4 ∧ ∃ j, j < 16 ∧ j / 4 = k ∧ mgetD tx j .dark = .waking ∧ bit stripe j = true := by
  simp only [wakeChannels, testBit_maskOf, List.mem_filter, List.mem_range, decide_eq_true_eq, bne_iff_ne, and_chanMask_ne_zero,
    testBit_wakeLocked]
  exact and_congr_right fun _ => exists_congr fun j => and_congr_right fun hj => by rw [and_iff_right hj]

theorem testBit_wakeShort {i : Nat} (hi : i < 16) : (wakeShort tx stripe).testBit i = true ↔
    mgetD tx i .dark = .waking ∧ bit stripe i = false ∧
      ∃ j, j < 16 ∧ j / 4 = i / 4 ∧ mgetD tx j .dark = .waking ∧ bit stripe j = true := by
  rw [wakeShort, Nat.testBit_and, Nat.testBit_and, Bool.and_eq_true, Bool.and_eq_true, testBit_wlIn, testBit_chanMask, testBit_wakeChannels,
    show 0xFFFF - wakeLocked tx stripe = 2 ^ 16 - (wakeLocked tx stripe + 1) by omega, Nat.testBit_two_pow_sub_succ wakeLocked_lt,
    Bool.and_eq_true, Bool.not_eq_true', Bool.eq_false_iff, Ne, testBit_wakeLocked, ← Bool.not_eq_true]
  have h4 : i / 4 < 4 := by omega
  simp only [hi, h4, decide_true, true_and]
  exact ⟨fun ⟨⟨hw, hj⟩, hn⟩ => ⟨hw, fun hb => hn ⟨hw, hb⟩, hj⟩, fun ⟨hw, hn, hj⟩ => ⟨⟨hw, hj⟩, fun h => hn h.2⟩⟩

/-- What each wavelength is after a WAKE_READY. -/
theorem mgetD_wakenTx {i : Nat} (hi : i < 16) :
    let was := fun (j : Nat) => mgetD tx j .dark
    let locked := fun (j : Nat) => was j = .waking ∧ bit stripe j = true
    (was i ≠ .waking → mgetD (wakenTx tx stripe) i .dark = was i) ∧
    (locked i → mgetD (wakenTx tx stripe) i .dark = .lit) ∧
    (was i = .waking → ¬ locked i → (∃ j, j < 16 ∧ j / 4 = i / 4 ∧ locked j) → mgetD (wakenTx tx stripe) i .dark = .parked) ∧
    (was i = .waking → (∀ j, j < 16 → j / 4 = i / 4 → ¬ locked j) → mgetD (wakenTx tx stripe) i .dark = .waking) := by
  have h : mgetD (wakenTx tx stripe) i .dark = if (wakeShort tx stripe).testBit i = true then .parked
      else if (wakeLocked tx stripe).testBit i = true then .lit else mgetD tx i .dark := by
    rw [wakenTx, mgetD_setWl, mgetD_setWl]
    simp [hi]
  have hshort := testBit_wakeShort (tx := tx) (stripe := stripe) hi
  have hlocked := testBit_wakeLocked (tx := tx) (stripe := stripe) i
  refine ⟨fun hw => h.trans ?_, fun hl => h.trans ?_, fun hw hn hj => h.trans (if_pos (hshort.mpr ?_)), fun hw hn => h.trans ?_⟩
  · exact (if_neg fun e => hw (hshort.mp e).1).trans (if_neg fun e => hw (hlocked.mp e).2.1)
  · exact (if_neg fun e => Bool.false_ne_true ((hshort.mp e).2.1.symm.trans hl.2)).trans (if_pos (hlocked.mpr ⟨hi, hl⟩))
  · exact ⟨hw, Bool.eq_false_iff.mpr fun e => hn ⟨hw, e⟩, hj⟩
  · refine (if_neg fun e => ?_).trans ((if_neg fun e => hn i hi rfl (hlocked.mp e).2).trans hw)
    obtain ⟨-, -, j, hj, h4, hl⟩ := hshort.mp e
    exact hn j hj h4 hl

/-- Where nothing has locked nothing changes. -/
theorem wake_none (h : wakeLocked tx stripe = 0) : wakeChannels tx stripe = 0 ∧ wakenTx tx stripe = tx := by
  have hc : wakeChannels tx stripe = 0 := by simp [wakeChannels, h, maskOf]
  have hs : wakeShort tx stripe = 0 := by simp [wakeShort, hc, chanMask, bit_eq_testBit, maskOf]
  exact ⟨hc, by rw [wakenTx, h, hs, setWl_zero, setWl_zero]⟩

end

section

variable {s : State} {p : Nat} {st : BitVec 16}

theorem wakeReady_notLive (hl : (portOf s p).st ≠ .live) : exec (.wakeReady p st) s = .next s := (exec_wakeReady p st s).trans (if_pos hl)

/-- A WAKE_READY changes its port only. -/
theorem wakeReady_runs (hl : (portOf s p).st = .live) : Ends (.wakeReady p st) s (fun t => t.ports = (updPort s p (fun x => { x with
    tx := wakenTx (portOf s p).tx st.toNat
    waking := x.waking.filter (fun w => !bit (wakeChannels (portOf s p).tx st.toNat) w.1)
    beat := if wakeLocked (portOf s p).tx st.toNat = 0 then x.beat else 0 })).ports) := by
  refine ⟨_, (exec_wakeReady p st s).trans (if_neg (not_not_intro hl)), ?_⟩
  refine (ports_foldl (fun u k => ?_) _ _).trans rfl
  split
  · rw [linkEvent_ports, linkEvent_ports]
  · rw [linkEvent_ports]

theorem wakeReady_none (hl : (portOf s p).st = .live) (h0 : wlIn (portOf s p).tx .waking &&& st.toNat = 0) :
    Ends (.wakeReady p st) s (fun t => ∀ q, portOf t q = portOf s q) := by
  obtain ⟨t, he, ht⟩ := wakeReady_runs (st := st) hl
  obtain ⟨hchans, htx⟩ := wake_none h0
  refine ⟨t, he, fun q => ?_⟩
  refine (portOf_congr ht q).trans ((portOf_updPort ..).trans ?_)
  split
  · next hq =>
    rw [htx, hchans, if_pos (show wakeLocked (portOf s p).tx st.toNat = 0 from h0), ← hq]
    simp [bit_eq_testBit]
  · rfl

theorem wakeReady_wakes (hl : (portOf s p).st = .live) : Ends (.wakeReady p st) s (fun t => ∀ i, i < 16 →
    let was := fun (j : Nat) => mgetD (portOf s p).tx j .dark
    let locked := fun (j : Nat) => was j = .waking ∧ bit st.toNat j = true
    (was i ≠ .waking → mgetD (portOf t p).tx i .dark = was i) ∧
    (locked i → mgetD (portOf t p).tx i .dark = .lit) ∧
    (was i = .waking → ¬ locked i → (∃ j, j < 16 ∧ j / 4 = i / 4 ∧ locked j) → mgetD (portOf t p).tx i .dark = .parked) ∧
    (was i = .waking → (∀ j, j < 16 → j / 4 = i / 4 → ¬ locked j) → mgetD (portOf t p).tx i .dark = .waking)) := by
  obtain ⟨t, he, ht⟩ := wakeReady_runs (st := st) hl
  have htx : (portOf t p).tx = wakenTx (portOf s p).tx st.toNat :=
    congrArg Port.tx ((portOf_congr ht p).trans ((portOf_updPort ..).trans (if_pos rfl)))
  refine ⟨t, he, fun i hi => ?_⟩
  rw [htx]
  exact mgetD_wakenTx hi

end

/-! ## The states of a port (16 Table circuit-3, R501) -/

section

variable (s : State) (p : Nat)

theorem lockTimeout_darkens :
    let late := (portOf s p).st = .locking ∧ (portOf s p).locked = false ∧ (portOf s p).lockStart + 2000000 ≤ s.ns
    (late → exec (.lockTimeout p) s = .next (goDark (failCircuit s p 3) p false)) ∧ (¬ late → exec (.lockTimeout p) s = .next s) :=
  ⟨fun hl => (exec_lockTimeout p s).trans (if_pos (by simpa using hl)), fun hl => (exec_lockTimeout p s).trans (if_neg (by simpa using hl))⟩

theorem portTrained_acts (peer : Nat) (tx rx : BitVec 16) :
    let x := portOf s p
    (x.st ≠ .locking ∨ x.locked = false → exec (.portTrained p peer tx rx) s = .next s) ∧
    (x.st = .locking → x.locked = true → peer ≠ x.peer →
      exec (.portTrained p peer tx rx) s = .next (goDark (failCircuit s p 6) p false)) ∧
    (x.st = .locking → x.locked = true → peer = x.peer → exec (.portTrained p peer tx rx) s =
      .next (updPort s p (fun x => { x with st := .trained, tx := trainedSet tx, rx := trainedSet rx }))) := by
  refine ⟨fun hn => (exec_portTrained p peer tx rx s).trans (if_pos (by simpa using hn)),
    fun hl hk hp => (exec_portTrained p peer tx rx s).trans ((if_neg ?_).trans (if_pos hp)),
    fun hl hk hp => (exec_portTrained p peer tx rx s).trans ((if_neg ?_).trans (if_neg (not_not_intro hp)))⟩ <;> simp [hl, hk]

theorem portDrained_darkens :
    ((portOf s p).st = .draining → (portOf s p).replay = [] → exec (.portDrained p) s = .next (goDark s p false)) ∧
    ((portOf s p).st ≠ .draining ∨ (portOf s p).replay ≠ [] → exec (.portDrained p) s = .next s) :=
  ⟨fun hd hr => (exec_portDrained p s).trans (if_pos ⟨hd, hr⟩), fun hn => (exec_portDrained p s).trans (if_neg (not_and_or.mpr hn))⟩

theorem drainTimeout_darkens :
    ((portOf s p).st = .draining → (portOf s p).drainStart + 50000 ≤ s.ns → exec (.drainTimeout p) s = .next (goDark s p false)) ∧
    ((portOf s p).st ≠ .draining ∨ s.ns < (portOf s p).drainStart + 50000 → exec (.drainTimeout p) s = .next s) :=
  ⟨fun hd ht => (exec_drainTimeout p s).trans (if_pos ⟨hd, ht⟩),
    fun hn => (exec_drainTimeout p s).trans (if_neg (not_and_or.mpr (hn.imp_right Nat.not_le.mpr)))⟩

theorem close_none (hc : mget s.circuits p = none) : exec (.close p) s = .next s := by
  rw [exec_close, execClose, hc]

/-- CLOSE and the silence of a request, at a port with a circuit. -/
theorem close_acts {c : Circuit} (hc : mget s.circuits p = some c) :
    (c.st = .granted → exec (.close p) s =
      .next (failCircuit (drainPort (updPort s p (fun x => { x with closeSeen := true })) p false) p 7)) ∧
    (c.st ≠ .granted → (portOf s p).st = .draining → exec (.close p) s = .next (updPort s p (fun x => { x with
      closeSeen := true, control := x.control.filter (fun b => b.head? != some 6) }))) ∧
    (c.st ≠ .granted → (portOf s p).st ≠ .draining → exec (.close p) s = .next s) ∧
    (c.st = .requested → c.since + 200000000 ≤ s.ns → exec (.requestSilence p) s = .next (failCircuit s p 2)) ∧
    (c.st ≠ .requested ∨ s.ns < c.since + 200000000 → exec (.requestSilence p) s = .next s) := by
  rw [exec_close, execClose, exec_requestSilence, execRequestSilence, hc]
  exact ⟨fun hg => if_pos hg, fun hg hd => (if_neg hg).trans (if_pos hd), fun hg hd => (if_neg hg).trans (if_neg hd),
    fun hr ht => if_pos ⟨hr, ht⟩, fun hn => if_neg (not_and_or.mpr (hn.imp_right Nat.not_le.mpr))⟩

end

/-! ## The answer to a chunk (15 R458, 09 R500) -/

/-- A CHUNK_DONE ends the signal of a copy that is over, or the chunk that its report names. -/
theorem chunkDone_acts {s : State} {p handle frame : Nat} {x : Copy} (hx : copyOf s ⟨bits handle 7 10, bits handle 0 7⟩ = some x) :
    let c : CopyRef := ⟨bits handle 7 10, bits handle 0 7⟩
    let mine := x.serial = bits handle 17 14 ∧ x.port = p ∧ x.elec = false
    let status := bits frame 56 8
    let signal := (mget x.flight sigFlight).isSome = true ∧ x.r3.toNat % 2 ^ 56 = frame % 2 ^ 56
    (¬ mine → exec (.chunkDone p handle frame) s = .next s) ∧
    (mine → x.over = true →
      (signal → exec (.chunkDone p handle frame) s =
        .next (signalEnd (updCopy s c (fun x => { x with flight := [] })) c (decide (status = 0)))) ∧
      (¬ signal → exec (.chunkDone p handle frame) s = .next s)) ∧
    (mine → x.over = false → ∀ q, x.flight.find? (fun q => x.dstAt (x.chunkOff q.1) % 2 ^ 56 == frame % 2 ^ 56) = some q →
      exec (.chunkDone p handle frame) s = .next (if status = 0 then chunkDone s c q.1 else chunkLost s c q.1 (chunkCause status))) := by
  intro c mine status signal
  have hnot : (x.serial ≠ bits handle 17 14 ∨ x.port ≠ p ∨ x.elec = true) ↔ ¬ mine := by
    simp only [mine, not_and_or, Bool.not_eq_false, ne_eq]
  have hsig : ((mget x.flight sigFlight).isSome && x.r3.toNat % 2 ^ 56 == frame % 2 ^ 56) = true ↔ signal := by
    rw [Bool.and_eq_true, beq_iff_eq]
  rw [exec_chunkDone, execChunkDone]
  rw [hx]
  refine ⟨fun hm => if_pos (hnot.mpr hm), fun hm ho => ⟨fun hs => ?_, fun hs => ?_⟩, fun hm ho q hq => ?_⟩ <;>
    refine (if_neg (fun e => hnot.mp e hm)).trans ?_
  · exact (if_pos ho).trans (congrArg Host.Outcome.next (if_pos (hsig.mpr hs)))
  · exact (if_pos ho).trans (congrArg Host.Outcome.next (if_neg (mt hsig.mp hs)))
  · refine (if_neg (by rw [ho]; decide)).trans ?_
    rw [hq]

/-! ## Messages of the controller (16 R472, R473, R476) -/

section

variable {s : State} (m : CtlMsg)

theorem controller_planeDown (hp : planeUp s = false) :
    exec (.controllerDeny m) s = .next s ∧ exec (.controllerFail m) s = .next s ∧ exec (.controllerReleased m) s = .next s ∧
      exec (.controllerGrant m) s = .next s := by
  have hn : ¬ planeUp s = true := by rw [hp]; decide
  have hn' : (!planeUp s) = true := by rw [hp]; rfl
  exact ⟨(exec_controllerDeny m s).trans (congrArg Host.Outcome.next (if_neg hn)),
    (exec_controllerFail m s).trans (congrArg Host.Outcome.next (if_neg hn)), (exec_controllerReleased m s).trans (if_pos hn'),
    (exec_controllerGrant m s).trans (if_pos hn')⟩

variable {m} (hp : planeUp s = true)
include hp

theorem controllerDeny_fails : exec (.controllerDeny m) s = .next (ctlFail s m 1) :=
  (exec_controllerDeny m s).trans (congrArg Host.Outcome.next (if_pos hp))

theorem controllerFail_fails : exec (.controllerFail m) s = .next (ctlFail s m 5) :=
  (exec_controllerFail m s).trans (congrArg Host.Outcome.next (if_pos hp))

theorem controllerReleased_frees {c : Circuit} (hc : mget (ctlFail s m 7).circuits (ctlEnd s m).1 = some c)
    (hj : c.joins (ctlEnd s m) = true) (hid : c.id = m.id) : exec (.controllerReleased m) s =
      .next (circuitFree (updCircuit (ctlFail s m 7) (ctlEnd s m).1 (fun c => { c with releasedSeen := true })) (ctlEnd s m).1) := by
  refine (exec_controllerReleased m s).trans ((if_neg (by rw [hp]; decide)).trans ?_)
  rw [hc]
  exact if_pos (by simp [hj, hid])

theorem controllerReleased_other
    (hn : ∀ c, mget (ctlFail s m 7).circuits (ctlEnd s m).1 = some c → c.joins (ctlEnd s m) = false ∨ c.id ≠ m.id) :
    exec (.controllerReleased m) s = .next (ctlFail s m 7) := by
  refine (exec_controllerReleased m s).trans ((if_neg (by rw [hp]; decide)).trans ?_)
  split
  · next c hc => exact if_neg (by simpa [← not_and_or, ← Bool.not_eq_true] using hn c hc)
  · rfl

/-- A GRANT for a port that has a circuit. -/
theorem controllerGrant_circuit {c : Circuit} (hc : mget s.circuits (ctlEnd s m).1 = some c) :
    let e := ctlEnd s m
    (c.joins e = true → c.st = .requested → exec (.controllerGrant m) s =
      .next (grantCircuit s e.1 { c with id := if e.2.2.2 then c.id else m.id })) ∧
    (c.joins e = true → c.st = .granted → exec (.controllerGrant m) s = .next s) ∧
    (c.joins e = false ∨ (c.st ≠ .requested ∧ c.st ≠ .granted) → exec (.controllerGrant m) s = .next (sendCtl s 2 m)) := by
  refine ⟨fun hj hr => ?_, fun hj hg => ?_, fun hn => ?_⟩ <;>
    refine (exec_controllerGrant m s).trans ((if_neg (by rw [hp]; decide)).trans ?_) <;> dsimp only <;> rw [hc]
  · exact if_pos (by simp [hj, hr])
  · exact (if_neg (by simp [hg])).trans (if_pos (by simp [hj, hg]))
  · obtain hj | ⟨hr, hg⟩ := hn
    · exact (if_neg (by simp [hj])).trans (if_neg (by simp [hj]))
    · exact (if_neg (by simp [hr])).trans (if_neg (by simp [hg]))

/-- A GRANT for a port that has none: the peer's end takes it where its handle and its optics let it. -/
theorem controllerGrant_none (hc : mget s.circuits (ctlEnd s m).1 = none) :
    let e := ctlEnd s m
    (e.2.2.2 = true → exec (.controllerGrant m) s = .next (sendCtl s 2 m)) ∧
    (e.2.2.2 = false → handleCtx s m.dev m.handle = none ∨ s.status.optics = false →
      exec (.controllerGrant m) s = .next (sendCtl s 7 m)) ∧
    (e.2.2.2 = false → ∀ ctx, handleCtx s m.dev m.handle = some ctx → s.status.optics = true → exec (.controllerGrant m) s =
      .next (grantCircuit s e.1 { st := .granted, ctx := ctx, peer := m.dev, pport := m.port, cause := 0, id := m.id,
                                  handle := m.handle, since := s.ns, releasedSeen := false })) := by
  refine ⟨fun he => ?_, fun he hn => ?_, fun he ctx hh ho => ?_⟩ <;>
    refine (exec_controllerGrant m s).trans ((if_neg (by rw [hp]; decide)).trans ?_) <;> dsimp only <;> rw [hc]
  · exact if_pos he
  · refine (if_neg (by rw [he]; decide)).trans ?_
    split
    · next ctx hh => exact if_neg (by simpa [hh] using hn)
    · rfl
  · refine (if_neg (by rw [he]; decide)).trans ?_
    rw [hh]
    exact if_pos ho

end

/-- Settles O51: flits, stripes, light, the states of a port, and the messages of its circuit. -/
theorem portEventsAct : Obligations.PortEventsAct := by
  refine fun s => ⟨fun p bs => ⟨dataFlit_dark, dataFlit_bad, fun h hd => dataFlit_good hd, fun h u => acknowledgementFlit_good,
      fun u => acknowledgementFlit_bad⟩, fun p => ?_, ?_, fun m => controller_planeDown m, fun m hp => ?_⟩
  · obtain ⟨hresend, hwait⟩ := replayTimeout_resends s p
    obtain ⟨hdrained, hdraining⟩ := portDrained_darkens s p
    obtain ⟨hlate, hsoon⟩ := drainTimeout_darkens s p
    refine ⟨replay_resends s p, hresend, hwait, exec_controlFlitRepeat p s, port_unlinked s p, fun hl => ⟨portFail_linked hl,
      restripe_rx hl, restripe_tx hl, restripeAck_acts hl⟩, lossOfLight_acts s p, receiveSilence_fails s p, wakeLock_joins s p,
      fun st => ⟨wakeReady_notLive, wakeReady_none, wakeReady_wakes⟩, fun ch t0 => wakeTimeout_parks s p,
      fun wl => ⟨exec_lightReturns p wl true s, exec_lightReturns p wl false s⟩, autoWake_wakes s p, fun ch r => exec_laserRefresh p ch r s,
      exec_portLocked p s, lockTimeout_darkens s p, portTrained_acts s p, fun ht => (exec_portLive p s).trans (if_pos ht),
      fun ht => (exec_portLive p s).trans (if_neg (not_not_intro ht)), hdrained, hdraining, hlate, hsoon, close_none s p,
      fun c => close_acts s p⟩
  · rintro p handle frame c x rfl hx
    exact chunkDone_acts hx
  · exact ⟨controllerDeny_fails hp, controllerFail_fails hp, fun c => controllerReleased_frees hp, controllerReleased_other hp,
      fun c => controllerGrant_circuit hp, controllerGrant_none hp⟩

end Sys2Proof.Claims
end

section
/-! PROOFS. Launches, graphs and queues (12 R378-R395, 13 R401-R414). -/

namespace Sys2Proof.Claims

open Sys2Proof.Machine

/-! ## Launches (12 R378, R379, R380, R393) -/

section

variable {s : State}

theorem launchSubmit_refused {ctx : Nat} {src : LaunchSource} {pkt : List Byte} {r : Nat} (hr : refuseReason s ctx pkt = some r) :
    exec (.launchSubmit ctx src pkt) s = .next (reportRefusal s ctx src r r 0) := by
  rw [exec_launchSubmit, execLaunchSubmit, submitPacket, hr]

theorem launchSubmit_accepted {ctx : Nat} {src : LaunchSource} {pkt : List Byte} (hr : refuseReason s ctx pkt = none) :
    Ends (.launchSubmit ctx src pkt) s (fun t => ∃ l, mget t.launches s.nextId = some l ∧
      l.pkt = pkt ∧ l.ctx = ctx ∧ l.st = .submitted ∧ l.rel = none) := by
  have he := exec_launchSubmit ctx src pkt s
  rw [execLaunchSubmit, submitPacket, hr] at he
  exact ⟨_, he, _, mget_mset_self .., rfl, rfl, rfl, rfl⟩

variable {id : Nat} {l : Launch} (hl : mget s.launches id = some l)
include hl

/-- The start of a kernel launch. -/
theorem launchStart_kernel (hn : l.rel = none) (hk : fld l.pkt 0 1 = 1) :
    let starts := l.st = .submitted ∧ ctxActive s l.ctx = true ∧ traceBusy s id l = false
    (starts → exec (.launchStart id) s = .next (startLaunch s id l)) ∧ (¬ starts → exec (.launchStart id) s = .next s) := by
  rw [exec_launchStart, execLaunchStart, hl]
  dsimp only
  rw [hn, hk]
  exact ⟨fun ⟨hst, ha, hb⟩ => if_pos ⟨hst, rfl, ha, by rw [hb]; rfl⟩,
    fun hs => if_neg fun ⟨hst, _, ha, hb⟩ => hs ⟨hst, ha, by simpa using hb⟩⟩

/-- A relaunch reads its header once nothing holds it back: it is refused, or bound to what it read. -/
theorem relaunchHeaderRead_reads {r : Relaunch} (hr : l.rel = some r) (hst : l.st = .submitted) (hh : r.hdr = [])
    (ha : ctxActive s l.ctx = true) (hb : traceBusy s id l = false) :
    let read := readAs s devCl l.ctx .rmw r.tb 256
    let u := read.2
    (∀ va, read.1 = .error va → exec (.relaunchHeaderRead id) s = .next (refuseRelaunch u id l r 0 va)) ∧
    (∀ hdr, read.1 = .ok hdr →
      let pkt := hdr.take 64
      let traced := fld pkt 0 1 = 1 ∧ bit (fld pkt 1 1) 0 = true
      (∀ k, refuseReason u l.ctx pkt = some k → exec (.relaunchHeaderRead id) s = .next (refuseRelaunch u id l r k r.tb)) ∧
      (refuseReason u l.ctx pkt = none → ¬ traced → exec (.relaunchHeaderRead id) s = .next (refuseRelaunch u id l r 0 r.tb)) ∧
      (refuseReason u l.ctx pkt = none → traced → Ends (.relaunchHeaderRead id) s (fun t => ∃ m q, mget t.launches id = some m ∧
        m.pkt = pkt ∧ m.rel = some q ∧ q.hdr = hdr ∧ q.gs = BitVec.ofNat 64 (fld hdr 64 8) ∧ q.valid = bit (fld hdr 88 1) 0))) := by
  intro read u
  have hgo : ¬ (l.st ≠ .submitted ∨ (!r.hdr.isEmpty) = true ∨ (!ctxActive s l.ctx) = true ∨ traceBusy s id l = true) := by
    simp [hst, hh, ha, hb]
  have hu : mget u.launches id = some l := by rw [onlyHome_launches (onlyHome_readAs ..), hl]
  have hread : ∀ {e : Except Nat (List Byte)}, read.1 = e → readAs s devCl l.ctx .rmw r.tb 256 = (e, u) := fun he => Prod.ext he rfl
  have hrun := exec_relaunchHeaderRead id s
  rw [execRelaunchHeaderRead, hl] at hrun
  dsimp only at hrun
  rw [hr] at hrun
  replace hrun := hrun.trans (if_neg hgo)
  refine ⟨fun va he => ?_, fun hdr he => ⟨fun k hk => ?_, fun hk ht => ?_, fun hk ht => ?_⟩⟩ <;>
    rw [hread he] at hrun <;> dsimp only at hrun
  · exact hrun
  · rw [hk] at hrun
    exact hrun
  · rw [hk] at hrun
    exact hrun.trans (if_pos (by simpa [imp_iff_not_or] using ht))
  · rw [hk] at hrun
    exact ⟨_, hrun.trans (if_neg (by simpa using ht)), _, _, mget_madj_some hu _, rfl, rfl, rfl, rfl, rfl⟩

theorem launchEnd_waits (hn : ¬ (l.st = .ending ∧ launchQuiet s id = true)) : exec (.launchEnd id) s = .next s := by
  rw [exec_launchEnd, execLaunchEnd, hl]
  exact if_neg hn

/-- The end of a launch: its caches are written back, its header and completion written, and it is gone; its node ends. -/
theorem launchEnd_ends (hst : l.st = .ending) (hq : launchQuiet s id = true) :
    let mine := s.cbs.filter (fun c => c.2.launch == id)
    let a := endHeader (((mine.map (fun c => c.2.cluster)).eraseDups).foldl (fun s cl => cleanCtx s cl l.ctx) s) id l
    let b := complete a l.ctx l.src (fld l.pkt 48 2) l.completion.1 l.completion.2
    let c : State := { b with
      launches := mdel b.launches id, olds := mmap (fun m => mdel m id) b.olds
      cbs := b.cbs.filter (fun c => c.2.launch != id), blocks := b.blocks.filter (fun x => x.2.launch != id) }
    (∀ h, l.src = .node h → exec (.launchEnd id) s = .next (ctxSettle (queueDrain (agentEnd c l.ctx h true 0) l.queue) l.ctx)) ∧
    (∀ q n, l.src = .queue q n → exec (.launchEnd id) s = .next (ctxSettle (queueDrain c l.queue) l.ctx)) := by
  intro mine a b c
  refine ⟨fun h hs => ?_, fun q n hs => ?_⟩ <;> rw [exec_launchEnd, execLaunchEnd, hl] <;> refine (if_pos ⟨hst, hq⟩).trans ?_ <;>
    refine congrArg (fun u => Host.Outcome.next (ctxSettle (queueDrain u l.queue) l.ctx)) ?_
  · split
    · next hs' =>
      cases hs.symm.trans hs'
      rfl
    · next hs' => cases hs.symm.trans hs'
  · split
    · next hs' => cases hs.symm.trans hs'
    · rfl

/-! ## Graphs (12 R383-R386) -/

/-- A graph is loaded when it is the first launch of its slot and the slot is free. -/
theorem graphLoad_loads (hst : l.st = .submitted) (hk : fld l.pkt 0 1 = 2) (ha : ctxActive s l.ctx = true)
    (hfree : slotFree s (graphSlot l) = true)
    (hfirst : ∀ m ∈ s.launches, m.1 < id → ¬ (m.2.st = .submitted ∧ fld m.2.pkt 0 1 = 2 ∧ graphSlot m.2 = graphSlot l)) :
    let n := fld l.pkt 16 8 % 65536 + 1
    let va := fld l.pkt 8 8
    let read := readVa s devCl l.ctx va (32 * n)
    let u := read.2
    (∀ f, read.1 = .error f → exec (.graphLoad id) s =
      .next (queueDrain (reportRefusal { u with launches := mdel u.launches id } l.ctx l.src 7 7 f) l.queue)) ∧
    (∀ bs, read.1 = .ok bs →
      Ends (.graphLoad id) s (fun t => t.gen = s.gen + 1 ∧ ∃ g, mget t.graphs (graphSlot l) = some g ∧ g.ctx = l.ctx ∧
        g.nodes = loadNodes bs s.nextId n ∧ g.terminal = fld l.pkt 28 4 ∧ g.kind = fld l.pkt 52 1 ∧
        g.word = BitVec.ofNat 64 (fld l.pkt 56 8) ∧ g.running = true)) := by
  intro n va read u
  have hall : s.launches.all (fun m => !(decide (m.1 < id) && m.2.st == .submitted && fld m.2.pkt 0 1 == 2 &&
      graphSlot m.2 == graphSlot l)) = true := by
    refine List.all_eq_true.mpr fun m hm => ?_
    rw [Bool.not_eq_true', Bool.eq_false_iff]
    intro e
    simp only [Bool.and_eq_true, decide_eq_true_eq, beq_iff_eq] at e
    obtain ⟨⟨⟨hlt, hsub⟩, hgraph⟩, hslot⟩ := e
    exact hfirst m hm hlt ⟨hsub, hgraph, hslot⟩
  have hu : OnlyHome s u := onlyHome_readVa ..
  have hread : ∀ {e : Except Nat (List Byte)}, read.1 = e → readVa s devCl l.ctx va (32 * n) = (e, u) := fun he => Prod.ext he rfl
  have hrun := exec_graphLoad id s
  rw [execGraphLoad, hl] at hrun
  replace hrun := hrun.trans (if_neg (by rw [hall, ha, hfree]; simp [hst, hk]))
  refine ⟨fun f he => ?_, fun bs he => ?_⟩ <;> rw [hread he] at hrun
  · exact hrun
  · refine ⟨_, hrun, congrArg (· + 1) (onlyHome_gen hu), _, mget_mset_self .., rfl, ?_, rfl, rfl, rfl, rfl⟩
    rw [onlyHome_nextId hu]

end

section

variable {s : State} {slot idx : Nat} {g : Graph} {n : Node} (hg : mget s.graphs slot = some g) (hn : mget g.nodes idx = some n)
include hg hn

/-- What holds a ready node back from its agent. -/
theorem nodeStart_held (h : n.st ≠ .ready ∨ g.running = false ∨ budgetHeld s g.queue = true ∨ ctxActive s g.ctx = false ∨
    (fld n.entry 0 1 = 3 ∧ freeChannel s = none)) : exec (.nodeStart slot idx) s = .next s := by
  rw [exec_nodeStart, execNodeStart, hg]
  dsimp only
  rw [hn]
  exact if_pos (by simpa using h)

section

variable (hst : n.st = .ready) (hfree : ¬ (g.running = false ∨ budgetHeld s g.queue = true ∨ ctxActive s g.ctx = false ∨
  (fld n.entry 0 1 = 3 ∧ freeChannel s = none)))
include hst hfree

theorem nodeStart_bad (hb : entryBad n.entry = true) : exec (.nodeStart slot idx) s = .next (nodeFail s slot idx 0xF0 0) := by
  rw [exec_nodeStart, execNodeStart, hg]
  dsimp only
  rw [hn]
  exact (if_neg (by simpa [hst] using hfree)).trans (if_pos hb)

/-- A node that starts is read and given to its agent; it fails where either cannot be. -/
theorem nodeStart_starts (hb : entryBad n.entry = false) :
    let read := readNode s g.ctx n.entry
    (∀ r va, read.1 = .error (r, va) → exec (.nodeStart slot idx) s = .next (nodeFail read.2 slot idx r va)) ∧
    (∀ p l, read.1 = .ok (p, l) →
      let u := dropEverywhere read.2 g.ctx
      let started := startAgent u g.ctx (handleOf slot idx) n.order g.queue (fld n.entry 0 1) (fld n.entry 8 8) p
      (∀ r va, started.1 = .error (r, va) → exec (.nodeStart slot idx) s = .next (nodeFail started.2 slot idx r va)) ∧
      (∀ k, started.1 = .ok k → exec (.nodeStart slot idx) s =
        .next (updNode started.2 slot idx (fun n => { n with st := .running, payload := p, list := l, launch := k })))) := by
  intro read
  have hrun := exec_nodeStart slot idx s
  rw [execNodeStart, hg] at hrun
  dsimp only at hrun
  rw [hn] at hrun
  replace hrun := hrun.trans ((if_neg (by simpa [hst] using hfree)).trans (if_neg (by rw [hb]; decide)))
  have hread : ∀ {e}, read.1 = e → readNode s g.ctx n.entry = (e, read.2) := fun he => Prod.ext he rfl
  refine ⟨fun r va he => ?_, fun p l he => ?_⟩ <;> rw [hread he] at hrun
  · exact hrun
  · intro u started
    have hstart : ∀ {e}, started.1 = e → startAgent u g.ctx (handleOf slot idx) n.order g.queue (fld n.entry 0 1) (fld n.entry 8 8) p =
        (e, started.2) := fun he => Prod.ext he rfl
    dsimp only at hrun
    refine ⟨fun r va hs => ?_, fun k hs => ?_⟩ <;> rw [hstart hs] at hrun <;> exact hrun

end

theorem nodeEnd_ended {ok : Bool} {r va : Nat} (hst : n.st = .ended ok r va) : exec (.nodeEnd slot idx) s =
    .next (nodeEnded (if ok then nodeDone s slot idx g n else nodeFail s slot idx r va) g) := by
  rw [exec_nodeEnd, execNodeEnd, hg]
  dsimp only
  rw [hn]
  dsimp only
  rw [hst]
  cases ok <;> rfl

/-- A running node ends here where its agent is the scheduler itself. -/
theorem nodeEnd_running (hst : n.st = .running) :
    let done := fld n.entry 0 1 = 7 ∧ ctxActive s g.ctx = true
    let h := hostSig s g.ctx n.payload
    (¬ done → exec (.nodeEnd slot idx) s = .next s) ∧
    (done → h.1 = true → exec (.nodeEnd slot idx) s = .next (nodeEnded (nodeDone h.2 slot idx g n) g)) ∧
    (done → h.1 = false → exec (.nodeEnd slot idx) s = .next (nodeEnded (nodeFail h.2 slot idx 1 0) g)) := by
  intro done h
  have hsig : ∀ {b}, h.1 = b → hostSig s g.ctx n.payload = (b, h.2) := fun hb => Prod.ext hb rfl
  have hrun := exec_nodeEnd slot idx s
  rw [execNodeEnd, hg] at hrun
  dsimp only at hrun
  rw [hn] at hrun
  dsimp only at hrun
  rw [hst] at hrun
  refine ⟨fun hd => hrun.trans (if_pos (by simpa [done, imp_iff_not_or] using hd)), fun hd hb => ?_, fun hd hb => ?_⟩ <;>
    replace hrun := hrun.trans (if_neg (by simpa [done] using hd)) <;> rw [hsig hb] at hrun <;> exact hrun

end

/-- A graph completes when its terminal node has ended, or a node has failed, and no node runs. -/
theorem graphComplete_acts {s : State} {slot : Nat} {g : Graph} (hg : mget s.graphs slot = some g) :
    let ended := (∃ n, mget g.nodes g.terminal = some n ∧ n.st.over = true) ∨ ∃ n ∈ g.nodes, n.2.st = .failed
    let busy := ∃ n ∈ g.nodes, n.2.st = .running ∨ ∃ ok r va, n.2.st = .ended ok r va
    (g.running = true → ended → ¬ busy →
      let u := complete (updGraph s slot (fun g => { g with running := false })) g.ctx g.src 0 g.kind g.word.toNat
      exec (.graphComplete slot) s = .next (ctxSettle (queueDrain { u with launches := mdel u.launches g.launch } g.queue) g.ctx)) ∧
    (g.running = false ∨ ¬ ended ∨ busy → exec (.graphComplete slot) s = .next s) := by
  intro ended busy
  have hrun := exec_graphComplete slot s
  rw [execGraphComplete, hg] at hrun
  refine ⟨fun hr he hb => hrun.trans (if_neg ?_), fun hn => hrun.trans (if_pos ?_)⟩
  · rintro (h | h | h)
    · rw [hr] at h
      exact absurd h (by decide)
    · rw [Bool.not_eq_true', Bool.or_eq_false_iff] at h
      obtain ⟨hterm, hfail⟩ := h
      obtain ⟨n, hn, ho⟩ | ⟨n, hm, hf⟩ := he
      · rw [hn] at hterm
        exact Bool.false_ne_true (hterm.symm.trans ho)
      · exact List.any_eq_false.mp hfail n hm (by rw [hf]; rfl)
    · obtain ⟨n, hm, h⟩ := List.any_eq_true.mp h
      refine hb ⟨n, hm, ?_⟩
      cases hst : n.2.st with
      | running => exact Or.inl rfl
      | ended ok r va => exact Or.inr ⟨ok, r, va, rfl⟩
      | loaded | ready | done | failed =>
        rw [hst] at h
        exact absurd h (by decide)
  · obtain h | h | ⟨n, hm, h⟩ := hn
    · exact Or.inl (by rw [h]; rfl)
    · refine Or.inr (Or.inl ?_)
      rw [Bool.not_eq_true', Bool.or_eq_false_iff]
      refine ⟨?_, List.any_eq_false.mpr fun n hm hf => h (Or.inr ⟨n, hm, by simpa using hf⟩)⟩
      cases hn : mget g.nodes g.terminal with
      | none => rfl
      | some n => exact Bool.eq_false_iff.mpr fun ho => h (Or.inl ⟨n, hn, ho⟩)
    · refine Or.inr (Or.inr (List.any_eq_true.mpr ⟨n, hm, ?_⟩))
      obtain h | ⟨ok, r, va, h⟩ := h <;> rw [h]

/-! ## The registers of a queue (13 R402, R403) -/

section

variable {s : State} {q : Nat} {bs : List Byte} {x : Queue} (hq : mget s.queues q = some x)
include hq

theorem launchRegisterInline_acts :
    let packet := x.takes = true ∧ bs.length = 64 ∧ (fld bs 0 1 = 1 ∨ fld bs 0 1 = 2)
    (¬ packet → exec (.launchRegisterInline q bs) s = .next (countDrop s q)) ∧
    (packet → x.full = true → exec (.launchRegisterInline q bs) s = .next (updQueue s q (fun x => { x with overflow := true }))) ∧
    (packet → x.full = false → exec (.launchRegisterInline q bs) s = .next (appendInline s q x bs)) := by
  intro packet
  have hbad : ((!x.takes) = true ∨ bs.length ≠ 64 ∨ (fld bs 0 1 ≠ 1 ∧ fld bs 0 1 ≠ 2)) ↔ ¬ packet := by
    simp only [packet, not_and_or, not_or, Bool.not_eq_true', Bool.not_eq_true, ne_eq]
  rw [exec_launchRegisterInline, execLaunchRegisterInline, hq]
  exact ⟨fun hp => if_pos (hbad.mpr hp), fun hp hf => (if_neg fun e => hbad.mp e hp).trans (if_pos hf),
    fun hp hf => (if_neg fun e => hbad.mp e hp).trans (if_neg (by rw [hf]; decide))⟩

theorem launchRegisterDoorbell_acts :
    let bell := x.takes = true ∧ bs.length = 64 ∧ fld bs 0 1 = 3
    let tail := fld bs 8 8
    let good := x.tail ≤ tail ∧ tail - x.head ≤ 2 ^ x.desc.order ∧ fld bs 1 7 = 0 ∧ allZero (bs.drop 16) = true
    (¬ bell → exec (.launchRegisterDoorbell q bs) s = .next (countDrop s q)) ∧
    (bell → ¬ good → exec (.launchRegisterDoorbell q bs) s = .next (updQueue s q (fun x => { x with overflow := true }))) ∧
    (bell → good → Ends (.launchRegisterDoorbell q bs) s (fun t => ∃ y, mget t.queues q = some y ∧
      y = { x with tail := tail, st := if x.st = .idle ∧ x.head < tail then .active else x.st })) := by
  intro bell tail good
  have hbad : ((!x.takes) = true ∨ bs.length ≠ 64 ∨ fld bs 0 1 ≠ 3) ↔ ¬ bell := by
    simp only [bell, not_and_or, Bool.not_eq_true', Bool.not_eq_true, ne_eq]
  have hrun := exec_launchRegisterDoorbell q bs s
  rw [execLaunchRegisterDoorbell, hq] at hrun
  exact ⟨fun hb => hrun.trans (if_pos (hbad.mpr hb)), fun hb hg => hrun.trans ((if_neg fun e => hbad.mp e hb).trans (if_neg hg)),
    fun hb hg => ⟨_, hrun.trans ((if_neg fun e => hbad.mp e hb).trans (if_pos hg)), _, mget_madj_some hq _, rfl⟩⟩

end

/-! ## The registers of a port (15 R464, R467) -/

section

variable {s : State} {p : Nat} {v : W64} (hp : p < 16)
include hp

/-- A write of a port's AUTOWAKE; beyond the register's range any value in it stands there. -/
theorem barRegisterWrite_autowake : exec (.barRegisterWrite (0x100008 + 0x200 * p) v) s =
    let c := if 1024 < v.toNat % 2 ^ 32 then choose s 1025 else (v.toNat % 2 ^ 32, s)
    .next (updPort c.2 p (fun x => { x with autowake := c.1 })) := by
  have hport : (0x100008 + 0x200 * p - 0x100000) / 0x200 = p := by omega
  rw [exec_barRegisterWrite, execBarRegisterWrite]
  rw [hport, if_neg (by omega), if_neg (by omega), if_pos (by omega)]

theorem autowake_inRange (hv : v.toNat % 2 ^ 32 ≤ 1024) : exec (.barRegisterWrite (0x100008 + 0x200 * p) v) s =
    .next (updPort s p (fun x => { x with autowake := v.toNat % 2 ^ 32 })) := by
  rw [barRegisterWrite_autowake hp, if_neg (Nat.not_lt.mpr hv)]

theorem autowake_beyond (hv : 1024 < v.toNat % 2 ^ 32) : Ends (.barRegisterWrite (0x100008 + 0x200 * p) v) s (fun t =>
    ∃ n, n ≤ 1024 ∧ t = updPort { s with freeCtr := t.freeCtr } p (fun x => { x with autowake := n })) := by
  refine ⟨_, barRegisterWrite_autowake hp, (choose s 1025).1, Nat.le_of_lt_succ (choose_lt s (by decide)), ?_⟩
  rw [if_pos hv, choose_only s 1025]
  rfl

end

theorem barRegisterWrite_linkHead (s : State) (v : W64) : exec (.barRegisterWrite 0x122008 v) s = .next { s with linkHeadHost := v } := by
  rw [exec_barRegisterWrite, execBarRegisterWrite, if_neg (by decide), if_neg (by decide), if_neg (by decide), if_pos rfl]

/-! ## Consumption, energy and release (13 R406-R414) -/

section

variable {s : State}

theorem packetConsume_none (h : chooseQueue s = none) : exec .packetConsume s = .next s := by
  rw [exec_packetConsume, execPacketConsume, h]

/-- The head packet of the chosen queue is consumed; the queue keeps its turn while it has deficit and stays eligible. -/
theorem packetConsume_consumes {q : Nat} {x : Queue} (h : chooseQueue s = some (q, x)) :
    let a : State := { s with queues := s.queues.map (fun y => if eligibleQueue s y.1 y.2 then y else (y.1, { y.2 with deficit := 0 })) }
    let d := (if x.deficit = 0 then x.desc.quantum else x.deficit) - 1
    let b := consumeHead a q x
    let still := ∃ y, mget b.queues q = some y ∧ eligibleQueue b q y = true
    (d ≠ 0 ∧ still → exec .packetConsume s = .next (updQueue b q (fun y => { y with deficit := d }))) ∧
    (d = 0 ∨ ¬ still → exec .packetConsume s =
      .next { (updQueue b q (fun y => { y with deficit := 0 })) with lastq := mset b.lastq x.desc.prio q }) := by
  have hrun := exec_packetConsume s
  rw [execPacketConsume, h] at hrun
  refine ⟨fun ⟨hd, y, hy, he⟩ => hrun.trans (if_neg (not_or_intro hd ?_)), fun hn => hrun.trans (if_pos (hn.imp_right fun hs => ?_))⟩
  · rw [hy]
    simp [he]
  · rw [Bool.not_eq_true', Bool.eq_false_iff]
    intro he
    split at he
    · next y hy => exact hs ⟨y, hy, he⟩
    · exact Bool.false_ne_true he

variable {q : Nat} {x : Queue} (hq : mget s.queues q = some x)
include hq

theorem charge_unbudgeted (h0 : x.desc.budget = 0) (counts : List Nat) :
    exec (.energyCharge q counts) s = .next s ∧ exec (.budgetRefill q) s = .next s := by
  rw [exec_energyCharge, execEnergyCharge, exec_budgetRefill, execBudgetRefill, hq]
  exact ⟨if_pos (Or.inl h0), if_pos (Or.inl h0)⟩

variable (h0 : x.desc.budget ≠ 0)
include h0

theorem energyCharge_acts (counts : List Nat) :
    (counts ≠ pendingCharge s q → exec (.energyCharge q counts) s = .next s) ∧
    (counts = pendingCharge s q →
      let b := x.balance - (energyOf s counts : Int)
      Ends (.energyCharge q counts) s (fun t => ∃ y, mget t.queues q = some y ∧
        y = { x with balance := b, st := if b ≤ 0 ∧ (x.st = .idle ∨ x.st = .active) then .budgetHeld else x.st })) := by
  have hrun := exec_energyCharge q counts s
  rw [execEnergyCharge, hq] at hrun
  exact ⟨fun hc => hrun.trans (if_pos (Or.inr hc)),
    fun hc => ⟨_, hrun.trans (if_neg (not_or_intro h0 (not_not_intro hc))), _, mget_madj_some hq _, rfl⟩⟩

theorem budgetRefill_acts :
    (s.ns < x.periodStart + 1000 * x.desc.period ∨ (∃ n ∈ pendingCharge s q, n ≠ 0) → exec (.budgetRefill q) s = .next s) ∧
    (x.periodStart + 1000 * x.desc.period ≤ s.ns → (∀ n ∈ pendingCharge s q, n = 0) →
      let b := uJ x.desc.budget + (if x.balance < 0 then x.balance else 0)
      Ends (.budgetRefill q) s (fun t => ∃ y, mget t.queues q = some y ∧
        y = { x with balance := b, periodStart := x.periodStart + 1000 * x.desc.period,
                     deficit := if x.st = .budgetHeld then 0 else x.deficit,
                     st := if x.st = .budgetHeld ∧ 0 < b then (if x.head < x.tail then .active else .idle) else x.st })) := by
  have hany : (pendingCharge s q).any (· != 0) = true ↔ ∃ n ∈ pendingCharge s q, n ≠ 0 := by simp
  have hrun := exec_budgetRefill q s
  rw [execBudgetRefill, hq] at hrun
  refine ⟨fun hn => hrun.trans (if_pos (Or.inr (hn.imp_right hany.mpr))),
    fun ht hz => ⟨_, hrun.trans (if_neg ?_), _, mget_madj_some hq _, rfl⟩⟩
  rintro (hb | hlt | ha)
  · exact h0 hb
  · exact Nat.not_lt.mpr ht hlt
  · obtain ⟨n, hn, hne⟩ := hany.mp ha
    exact hne (hz n hn)

end

theorem queueRelease_acts {s : State} {q : Nat} {x : Queue} (hq : mget s.queues q = some x) :
    (x.st = .destroyed → s.status.firmware = true → exec (.queueRelease q) s = .next { s with queues := mdel s.queues q }) ∧
    (¬ (x.st = .destroyed ∧ s.status.firmware = true) → exec (.queueRelease q) s = .next s) := by
  rw [exec_queueRelease, execQueueRelease, hq]
  exact ⟨fun hd hf => congrArg Host.Outcome.next (if_pos ⟨hd, hf⟩), fun hn => congrArg Host.Outcome.next (if_neg hn)⟩

/-- Settles O47: each event tests whether it is due, and then makes its one change. -/
theorem launchEventsAct : Obligations.LaunchEventsAct := by
  refine fun s => ⟨fun ctx src pkt => ⟨fun r => launchSubmit_refused, launchSubmit_accepted⟩, fun id l hl => launchStart_kernel hl,
    fun id l r hl => relaunchHeaderRead_reads hl, fun id l hl => ⟨launchEnd_waits hl, launchEnd_ends hl⟩,
    fun id l hl => graphLoad_loads hl, fun slot idx g n hg hn => ⟨fun hst => nodeStart_held hg hn (Or.inl hst), fun hst => ?_,
      fun r va hst => nodeEnd_ended hg hn hst, fun r va hst => nodeEnd_ended hg hn hst, nodeEnd_running hg hn⟩,
    fun slot g => graphComplete_acts, fun q bs x hq => ?_,
    fun q n => ⟨exec_launchRegisterDrop q .read s, exec_launchRegisterDrop q .badWrite s, exec_launchRegisterDrop q (.otherKind n) s⟩,
    fun p v => autowake_inRange, fun p v => autowake_beyond, barRegisterWrite_linkHead s, packetConsume_none,
    fun q x => packetConsume_consumes, fun q counts x hq => ?_, fun q x => queueRelease_acts⟩
  · exact ⟨fun hheld => nodeStart_held hg hn (Or.inr hheld), nodeStart_bad hg hn hst, nodeStart_starts hg hn hst⟩
  · obtain ⟨hdrop, hfull, happend⟩ := launchRegisterInline_acts (bs := bs) hq
    obtain ⟨hdrop', hbad, hgood⟩ := launchRegisterDoorbell_acts (bs := bs) hq
    exact ⟨hdrop, hfull, happend, hdrop', hbad, hgood⟩
  · exact ⟨fun h0 => charge_unbudgeted hq h0 counts, fun h0 => (energyCharge_acts hq h0 counts).1,
      fun h0 => (energyCharge_acts hq h0 counts).2, fun h0 => (budgetRefill_acts hq h0).1, fun h0 => (budgetRefill_acts hq h0).2⟩

end Sys2Proof.Claims
end
